-- ==== Sys2Proof/Word.lean ====
section
/-!
DEFINITION. The word types of the Eosuba (R7) and their plainest arithmetic.
-/
namespace Sys2Proof

/-- A scalar register or operand value (R121). -/
abbrev Word := BitVec 64

/-- A byte of memory (R7). -/
abbrev Byte := BitVec 8

/-- A control-thread instruction, header or literal word (R79). -/
abbrev Word32 := BitVec 32

/-- A target field (R83): KIND in [8:6], INDEX in [5:0]. -/
abbrev Target := BitVec 9

/-- Bit `i` of a word as a truth value (R7). -/
def bitAt {w : Nat} (x : BitVec w) (i : Nat) : Bool := x.getLsbD i

/-- The field `[hi:lo]` of a word, of width `n`, as a number (R7). -/
def field {w : Nat} (x : BitVec w) (lo n : Nat) : Nat := x.toNat / 2 ^ lo % 2 ^ n

/-- A truth value as a number. -/
def bit (b : Bool) : Nat := if b then 1 else 0

/-- A word from bytes, least significant byte first (R7). -/
def leNat : List Byte → Nat
  | [] => 0
  | b :: bs => b.toNat + 256 * leNat bs

/-- The `n` bytes of a number, least significant byte first (R7). -/
def leBytes : Nat → Nat → List Byte
  | 0, _ => []
  | n + 1, x => BitVec.ofNat 8 x :: leBytes n (x / 256)

end Sys2Proof
end

