-- ==== Sys2Proof/Machine/Numbers.lean ====
section
/-!
DEFINITION. Number formats and their arithmetic (R234 to R247, R492): exact values, decoding, the rounding functions RND, CVTI and
RNDE8 with their flags, and the exact operations that other chapters round.
-/
namespace Sys2Proof.Machine

/-! ### Flags (R244) -/

/-- Flags as bits: NV 0, DZ 1, OF 2, UF 3, NX 4, SAT 5. -/
abbrev Flags := BitVec 6

def flNV : Flags := 1
def flDZ : Flags := 2
def flOF : Flags := 4
def flUF : Flags := 8
def flNX : Flags := 16
def flSAT : Flags := 32

/-- A flag where a condition holds. -/
def flagIf (b : Bool) (f : Flags) : Flags := if b then f else 0

/-- An encoding with the flags of its making. -/
abbrev Coded := Nat × Flags

/-! ### Formats (R234, R237) -/

/-- The element width of a format code, in bits; RAW has none. -/
def fmtWidth (f : Nat) : Nat :=
  match f with
  | 0x1 => 32
  | 0x2 => 16
  | 0x3 => 16
  | 0x4 => 8
  | 0x5 => 8
  | 0x6 => 4
  | 0x7 => 8
  | 0x8 => 8
  | 0x9 => 16
  | 0xA => 32
  | 0xB => 8
  | 0xC => 8
  | 0xD => 4
  | 0xE => 16
  | 0xF => 8
  | _ => 0

/-- Elements in a wide token. -/
def perWide (f : Nat) : Nat := if f = 0xD then 128 else if fmtWidth f = 0 then 0 else 1024 / fmtWidth f

/-- Elements in a narrow token; the block-scaled formats are not carried. -/
def perNarrow (f : Nat) : Nat := if 0xB ≤ f ∧ f ≤ 0xE then 0 else if fmtWidth f = 0 then 0 else 64 / fmtWidth f

/-- A block-scaled format, and the format of its elements (R241). -/
def isMx (f : Nat) : Bool := f == 0xB || f == 0xC || f == 0xD
def mxElement (f : Nat) : Nat :=
  match f with
  | 0xB => 0x4
  | 0xC => 0x5
  | 0xD => 0x6
  | g => g

/-- The integer formats. -/
def isInt (f : Nat) : Bool := f == 0x7 || f == 0x8 || f == 0x9 || f == 0xA

/-- A floating-point format (R237): mantissa and exponent bits, bias, whether it has infinities, its largest magnitude as an
integer of quanta 2^maxe, and whether FTZ applies to it. -/
structure FloatFmt where
  mb   : Nat
  eb   : Nat
  bias : Nat
  inf  : Bool
  maxm : Nat
  maxe : Int
  ftz  : Bool
deriving DecidableEq, Repr

def fp32 : FloatFmt := ⟨23, 8, 127, true, 2 ^ 24 - 1, 104, true⟩
def fp16 : FloatFmt := ⟨10, 5, 15, true, 2 ^ 11 - 1, 5, true⟩
def bf16 : FloatFmt := ⟨7, 8, 127, true, 2 ^ 8 - 1, 120, true⟩
def e4m3 : FloatFmt := ⟨3, 4, 7, false, 14, 5, false⟩
def e5m2 : FloatFmt := ⟨2, 5, 15, true, 7, 13, false⟩
def e2m1 : FloatFmt := ⟨1, 2, 1, false, 3, 1, false⟩

/-- The floating-point format of a code. -/
def floatFmt (f : Nat) : Option FloatFmt :=
  match f with
  | 0x1 => some fp32
  | 0x2 => some fp16
  | 0x3 => some bf16
  | 0x4 => some e4m3
  | 0x5 => some e5m2
  | 0x6 => some e2m1
  | _ => none

/-- EMIN (R237). -/
def FloatFmt.emin (F : FloatFmt) : Int := 1 - F.bias

/-- An encoding from its fields. -/
def FloatFmt.enc (F : FloatFmt) (neg : Bool) (e m : Nat) : Nat := bit neg * 2 ^ (F.mb + F.eb) + e * 2 ^ F.mb + m

/-- The canonical NaN (R237); E2M1 has none. -/
def FloatFmt.nan (F : FloatFmt) : Nat :=
  if F.inf then F.enc false (2 ^ F.eb - 1) (2 ^ (F.mb - 1)) else F.enc false (2 ^ F.eb - 1) (2 ^ F.mb - 1)

/-- MAXF with a sign. -/
def FloatFmt.maxf (F : FloatFmt) (neg : Bool) : Nat :=
  if F.inf then F.enc neg (2 ^ F.eb - 2) (2 ^ F.mb - 1)
  else if F.mb = 3 then F.enc neg 15 6
  else F.enc neg (2 ^ F.eb - 1) (2 ^ F.mb - 1)

/-- An infinity. -/
def FloatFmt.infinity (F : FloatFmt) (neg : Bool) : Nat := F.enc neg (2 ^ F.eb - 1) 0

/-! ### Values (R238 to R241) -/

/-- A value: NaN, signalling or quiet; a signed infinity; a signed zero; or (−1)^neg × m × 2^e with m > 0. -/
inductive Val where
  | nan (sig : Bool)
  | inf (neg : Bool)
  | zero (neg : Bool)
  | fin (neg : Bool) (m : Nat) (e : Int)
deriving DecidableEq, Repr

/-- An exact value from a magnitude, zero among them. -/
def Val.of (neg : Bool) (m : Nat) (e : Int) : Val := if m = 0 then .zero neg else .fin neg m e

/-- An integer's value; zero counts as +0 (R245). -/
def Val.int (n : Int) : Val := if n = 0 then .zero false else .fin (decide (n < 0)) n.natAbs 0

/-- DEC (R238). -/
def FloatFmt.dec (F : FloatFmt) (ftz : Bool) (c : Nat) : Val :=
  let neg := c / 2 ^ (F.mb + F.eb) % 2 == 1
  let e := c / 2 ^ F.mb % 2 ^ F.eb
  let m := c % 2 ^ F.mb
  if e = 2 ^ F.eb - 1 ∧ F.inf then (if m = 0 then .inf neg else .nan (decide (m < 2 ^ (F.mb - 1))))
  else if e = 15 ∧ m = 7 ∧ F.mb = 3 then .nan false
  else if e = 0 then (if ftz && F.ftz then .zero neg else .of neg m (F.emin - F.mb))
  else .fin neg (2 ^ F.mb + m) ((e : Int) - F.bias - F.mb)

/-- DEC for E8M0 (R240). -/
def decE8 (v : Nat) : Val := if v = 255 then .nan false else .fin false 1 ((v : Int) - 127)

/-- The signed reading of a two's complement code. -/
def signedOf (w c : Nat) : Int := if c < 2 ^ (w - 1) then c else (c : Int) - 2 ^ w

/-- The integer value of a code (R239). -/
def intOf (f c : Nat) : Int := if f = 0x8 then c else signedOf (fmtWidth f) c

/-- The ends of an integer format's range. -/
def minInt (f : Nat) : Int := if f = 0x8 then 0 else -(2 ^ (fmtWidth f - 1))
def maxInt (f : Nat) : Int := if f = 0x8 then 255 else 2 ^ (fmtWidth f - 1) - 1

/-- The value of an element's code in a format, without a block scale. -/
def decVal (f : Nat) (ftz : Bool) (c : Nat) : Val :=
  match floatFmt (mxElement f) with
  | some F => F.dec ftz c
  | none => if f = 0xF then decE8 c else .int (intOf f c)

/-- × 2^(s − 127) (R241): a NaN scale makes every element NaN; one that is a signalling NaN of its own stays one, since NV is due for any
signalling NaN that is decoded (R302; DEDUCED, log entry 119). -/
def Val.scaled (v : Val) (s : Nat) : Val :=
  if s = 255 then
    match v with
    | .nan sig => .nan sig
    | _ => .nan false
  else
    match v with
    | .fin neg m e => .fin neg m (e + s - 127)
    | v => v

/-! ### Rounding (R243, R245) -/

/-- RM (R243). -/
inductive Rm where
  | rn
  | rz
  | ru
  | rd
deriving DecidableEq, Repr

def rmOf (n : Nat) : Rm :=
  match n % 4 with
  | 0 => .rn
  | 1 => .rz
  | 2 => .ru
  | _ => .rd

/-- Whether a magnitude rounds up: the integer below it is odd, and its fraction is `num` of `den`. -/
def roundsUp (rm : Rm) (neg odd : Bool) (num den : Nat) : Bool :=
  match rm with
  | .rn => decide (den < 2 * num) || (decide (2 * num = den) && odd)
  | .rz => false
  | .ru => !neg && decide (0 < num)
  | .rd => neg && decide (0 < num)

/-- m × 2^e as a rounded number of quanta 2^q, and whether that is inexact: ROUNDI of R245. -/
def quanta (rm : Rm) (neg : Bool) (m : Nat) (e q : Int) : Nat × Bool :=
  if q ≤ e then (m * 2 ^ (e - q).toNat, false)
  else
    let den := 2 ^ (q - e).toNat
    let n := m / den
    let r := m % den
    (n + bit (roundsUp rm neg (n % 2 == 1) r den), r != 0)

/-- m × 2^e < m' × 2^e'. -/
def magLt (m : Nat) (e : Int) (m' : Nat) (e' : Int) : Bool :=
  decide (m * 2 ^ (e - min e e').toNat < m' * 2 ^ (e' - min e e').toNat)

/-- The encoding of n quanta 2^q, which the format represents (R245). -/
def FloatFmt.place (F : FloatFmt) (neg : Bool) (n : Nat) (q : Int) : Nat :=
  if n < 2 ^ F.mb then F.enc neg 0 n
  else
    let l := n.log2
    F.enc neg (q + l + F.bias).toNat (n / 2 ^ (l - F.mb) - 2 ^ F.mb)

/-- RND (R245). -/
def FloatFmt.rnd (F : FloatFmt) (rm : Rm) (sat ftz : Bool) (x : Val) : Coded :=
  let small := F.mb == 1
  let sat := sat || small
  match x with
  | .nan sig => if small then (0, flNV) else (F.nan, flagIf sig flNV)
  | .inf neg =>
    if F.inf && !sat then (F.infinity neg, 0)
    else if F.mb = 3 ∧ !sat then (F.nan, 0)
    else (F.maxf neg, flagIf small flOF)
  | .zero neg => (F.enc neg 0 0, 0)
  | .fin neg m e =>
    let q : Int := max (e + (m.log2 : Int)) F.emin - (F.mb : Int)
    let (n, inexact) := quanta rm neg m e q
    let nx := flagIf inexact flNX
    if magLt F.maxm F.maxe n q then
      let away := match rm with
        | .rn => true
        | .rz => false
        | .ru => !neg
        | .rd => neg
      (if !sat && away then (if F.inf then F.infinity neg else F.nan) else F.maxf neg, nx ||| flOF)
    else
      let tiny := decide (n < 2 ^ F.mb)
      if ftz && F.ftz && tiny && n != 0 then (F.enc neg 0 0, flUF ||| flNX)
      else (F.place neg n q, nx ||| flagIf (inexact && tiny) flUF)

/-- A signed integer as a two's complement code of w bits. -/
def codeOf (w : Nat) (n : Int) : Nat := (n % 2 ^ w).toNat

/-- ROUNDI of a value to a signed integer, and whether it is inexact. -/
def roundInt (rm : Rm) (neg : Bool) (m : Nat) (e : Int) : Int × Bool :=
  let r := quanta rm neg m e 0
  (if neg then -(r.1 : Int) else r.1, r.2)

/-- CVTI (R247). -/
def cvti (f : Nat) (rm : Rm) (x : Val) : Coded :=
  let w := fmtWidth f
  match x with
  | .nan _ => (0, flNV)
  | .inf neg => (codeOf w (if neg then minInt f else maxInt f), flSAT)
  | .zero _ => (0, 0)
  | .fin neg m e =>
    let (n, inexact) := roundInt rm neg m e
    let nx := flagIf inexact flNX
    if maxInt f < n then (codeOf w (maxInt f), nx ||| flSAT)
    else if n < minInt f then (codeOf w (minInt f), nx ||| flSAT)
    else (codeOf w n, nx)

/-- RNDE8 (R492). -/
def rndE8 (rm : Rm) (x : Val) : Coded :=
  match x with
  | .nan sig => (0xFF, flagIf sig flNV)
  | .zero _ => (0, flUF ||| flNX)
  | .inf neg => if neg then (0xFF, flNV) else (0xFE, flOF)
  | .fin true _ _ => (0xFF, flNV)
  | .fin false m e =>
    let l := m.log2
    let fl := e + l
    let exact := m == 2 ^ l
    let up := match rm with
      | .rn => decide (3 * 2 ^ l < 2 * m) || (decide (2 * m = 3 * 2 ^ l) && decide ((fl + 127) % 2 ≠ 0))
      | .rz => false
      | .ru => true
      | .rd => false
    let n := if exact then fl else fl + (if up then 1 else 0)
    let nx := flagIf (!exact) flNX
    if 127 < n then (0xFE, flOF ||| flNX)
    else if n < -127 then (0, flUF ||| flNX)
    else ((n + 127).toNat, nx)

/-- CONV (R247). -/
def conv (f : Nat) (rm : Rm) (sat ftz : Bool) (x : Val) : Coded :=
  match floatFmt f with
  | some F => F.rnd rm sat ftz x
  | none => if f = 0xF then rndE8 rm x else cvti f rm x

/-! ### Exact operations -/

/-- The sign of an exact zero sum (R245). -/
def zeroSum (rm : Rm) (s t : Bool) : Bool := if rm = .rd then s || t else s && t

/-- A sum; an infinity less an infinity is a NaN that raises NV. -/
def Val.add (rm : Rm) (x y : Val) : Val :=
  match x, y with
  | .nan a, .nan b => .nan (a || b)
  | .nan a, _ => .nan a
  | _, .nan b => .nan b
  | .inf a, .inf b => if a = b then .inf a else .nan true
  | .inf a, _ => .inf a
  | _, .inf b => .inf b
  | .zero a, .zero b => .zero (zeroSum rm a b)
  | .zero _, y => y
  | x, .zero _ => x
  | .fin a m e, .fin b n f =>
    let q := min e f
    let u : Int := m * 2 ^ (e - q).toNat
    let v : Int := n * 2 ^ (f - q).toNat
    let t := (if a then -u else u) + (if b then -v else v)
    if t = 0 then .zero (rm = .rd) else .fin (decide (t < 0)) t.natAbs q

/-- The sign turned. -/
def Val.neg : Val → Val
  | .nan s => .nan s
  | .inf n => .inf !n
  | .zero n => .zero !n
  | .fin n m e => .fin (!n) m e

/-- A product; a zero times an infinity is a NaN that raises NV. -/
def Val.mul (x y : Val) : Val :=
  match x, y with
  | .nan a, .nan b => .nan (a || b)
  | .nan a, _ => .nan a
  | _, .nan b => .nan b
  | .inf _, .zero _ => .nan true
  | .zero _, .inf _ => .nan true
  | .inf a, .inf b => .inf (a != b)
  | .inf a, .fin b _ _ => .inf (a != b)
  | .fin a _ _, .inf b => .inf (a != b)
  | .zero a, .zero b => .zero (a != b)
  | .zero a, .fin b _ _ => .zero (a != b)
  | .fin a _ _, .zero b => .zero (a != b)
  | .fin a m e, .fin b n f => .fin (a != b) (m * n) (e + f)

/-- A quotient, exact but for a last bit that stands for whatever is left: every rounding of it is that of the exact quotient. -/
def quotient (m n : Nat) (e f : Int) (neg : Bool) : Val :=
  let k := n.log2 + 80
  let u := m * 2 ^ k
  .fin neg (2 * (u / n) + bit (u % n != 0)) (e - f - k - 1)

/-- A quotient with its flags (R272): x / 0 raises DZ. -/
def Val.div (x y : Val) : Val × Flags :=
  match x, y with
  | .nan a, .nan b => (.nan (a || b), 0)
  | .nan a, _ => (.nan a, 0)
  | _, .nan b => (.nan b, 0)
  | .inf _, .inf _ => (.nan true, 0)
  | .zero _, .zero _ => (.nan true, 0)
  | .inf a, .zero b => (.inf (a != b), 0)
  | .inf a, .fin b _ _ => (.inf (a != b), 0)
  | .fin a _ _, .inf b => (.zero (a != b), 0)
  | .zero a, .inf b => (.zero (a != b), 0)
  | .zero a, .fin b _ _ => (.zero (a != b), 0)
  | .fin a _ _, .zero b => (.inf (a != b), flDZ)
  | .fin a m e, .fin b n f => (quotient m n e f (a != b), 0)

/-- The integer square root, bit by bit from the top. -/
def isqrtFrom (n : Nat) : Nat → Nat → Nat
  | 0, r => r
  | i + 1, r => if (r + 2 ^ i) * (r + 2 ^ i) ≤ n then isqrtFrom n i (r + 2 ^ i) else isqrtFrom n i r
def isqrt (n : Nat) : Nat := isqrtFrom n (n.log2 / 2 + 1) 0

/-- A square root of a positive value, exact but for a last bit that stands for whatever is left. -/
def rootOf (m : Nat) (e : Int) : Val :=
  let k := 160 + (e % 2).toNat
  let u := m * 2 ^ k
  let r := isqrt u
  .fin false (2 * r + bit (r * r != u)) ((e - k) / 2 - 1)

/-- A square root (R272). -/
def Val.sqrt : Val → Val
  | .nan s => .nan s
  | .inf true => .nan true
  | .inf false => .inf false
  | .zero n => .zero n
  | .fin true _ _ => .nan true
  | .fin false m e => rootOf m e

/-- x < y for values that are no NaN; −0 = +0 (R275). -/
def Val.lt (x y : Val) : Bool :=
  match x, y with
  | .nan _, _ => false
  | _, .nan _ => false
  | .inf a, .inf b => a && !b
  | .inf a, _ => a
  | _, .inf b => !b
  | .zero _, .zero _ => false
  | .zero _, .fin b _ _ => !b
  | .fin a _ _, .zero _ => a
  | .fin a m e, .fin b n f =>
    match a, b with
    | true, false => true
    | false, true => false
    | false, false => magLt m e n f
    | true, true => magLt n f m e

def Val.isNan : Val → Bool
  | .nan _ => true
  | _ => false

def Val.isSig : Val → Bool
  | .nan s => s
  | _ => false

/-- The sign bit of a value. -/
def Val.isNeg : Val → Bool
  | .nan _ => false
  | .inf n => n
  | .zero n => n
  | .fin n _ _ => n

/-- x = y as a comparison has it (R275). -/
def Val.eqv (x y : Val) : Bool := !x.isNan && !y.isNan && !x.lt y && !y.lt x

/-! ### Lanes (R235) -/

/-- The elements of a beat. -/
def lanesOfData (w n : Nat) (data : BitVec 1024) : List Nat := (List.range n).map fun i => field data (w * i) w

/-- Elements put side by side, the first lowest. -/
def packNat (w : Nat) : List Nat → Nat
  | [] => 0
  | x :: rest => x % 2 ^ w + 2 ^ w * packNat w rest

def packLanes (w : Nat) (l : List Nat) : BitVec 1024 := BitVec.ofNat 1024 (packNat w l)

/-- The flags of a list of results together. -/
def allFlags (l : List Coded) : Flags := l.foldl (fun f c => f ||| c.2) 0

end Sys2Proof.Machine
end

