-- ==== Sys2Proof/Syntax.lean ====
section
/-!
DEFINITION. The instructions of the Eosuba: one constructor per row of spec/opcode_table.json. The first part holds the
142 control-thread instructions (R99 to R108), whose arguments are the fields of their words; the second part holds the
154 device steps that have no encoding, whose arguments name the unit at which the step happens and what it carries.
-/
namespace Sys2Proof

/-- The legal values of PR (R87). 0b01 is reserved and is no value of this type. -/
inductive Pred where
  | always
  | onTrue
  | onFalse
deriving DecidableEq, Repr

/-- The scopes (R66), in the order of their codes 0 to 10. -/
inductive Scope where
  | thread | element | block | cast | group | plinth | tenant | die | device | system | domain
deriving DecidableEq, Repr

/-- The orderings of ORD fields, in the order of their codes 0 to 3 (R160). -/
inductive MemOrder where
  | rlx | acq | rel | ar
deriving DecidableEq, Repr

/-- The condition codes of CMP, 0 to 9 (R126). -/
inductive Cond where
  | eq | ne | lt | le | gt | ge | ltu | leu | gtu | geu
deriving DecidableEq, Repr

/-- The extension codes of EXT, 0 to 5 (R128). -/
inductive ExtKind where
  | s8 | s16 | s32 | z8 | z16 | z32
deriving DecidableEq, Repr

/-- The load kinds, 0 to 6 (R132). -/
inductive LoadKind where
  | z8 | s8 | z16 | s16 | z32 | s32 | d64
deriving DecidableEq, Repr

/-- The size codes SZ, 0 to 3 (R132). -/
inductive Size where
  | b1 | b2 | b4 | b8
deriving DecidableEq, Repr

/-- The actions of PORT.RES, CP.RES and RESUME, 0 and 1 (R216, R342, R383). -/
inductive Resume where
  | retry | skip
deriving DecidableEq, Repr

/-- The forms of MX.STAT, 0 to 3 (R306). -/
inductive StatForm where
  | st | plo | phi | stc
deriving DecidableEq, Repr

/-- The operations of the synchronisation engine, 0 to 11 (R363). -/
inductive AtomOp where
  | add | and | or | xor | mins | maxs | minu | maxu | swap | fadd | fmin | fmax
deriving DecidableEq, Repr

/-- The number of literal words of a LIT, 1 or 2 (R103). -/
inductive LitCount where
  | one | two
deriving DecidableEq, Repr

/-- The system registers (R178). -/
inductive SysReg where
  | castid | tenant | dieid | blkxy | parmb | lcyc | feata | chst
  | gmem0 | gmem1 | gmem2 | gmem3 | taskpri
  | tvec | tcause | tpc | tinfo0 | tinfo1 | tinfo2 | tinfo3 | tstat | loob
deriving DecidableEq, Repr

/-! ### What device steps carry -/

/-- A token of the wide or the narrow network (R19). A narrow token uses data [63:0] and control [7:0]. -/
structure Token where
  wide : Bool
  ctl  : BitVec 16
  data : BitVec 1024
  side : BitVec 32
deriving DecidableEq, Repr

/-- The local inputs of an element (R18). -/
inductive InPort where
  | a | b | c | d
deriving DecidableEq, Repr

/-- The local outputs of an element (R18). -/
inductive OutPort where
  | y | z
deriving DecidableEq, Repr

/-- Where a route ends: an element input of the cast (relative site; `phase` counts the context switches of the sender, under
whose crossbars the token was sent, R211), a pop channel, a logical OUT port, or a walled side of a switch, which drops what
would leave through it, with that phase (R191, R192, R204, R211, R382). -/
inductive Dest where
  | input (site : Nat) (p : InPort) (phase : Nat)
  | pop (ch : Nat)
  | out (port : Nat)
  | wall (site : Nat) (side : Nat) (phase : Nat)
deriving DecidableEq, Repr

/-- An asynchronous cause with its subcode and information words (R184, R186). Of the model's own: `at_` is the clock of its arrival, and
`open_` tells of an ERRTOK that the configuration phase in which it arose is still on. -/
structure AsyncCause where
  code : Byte
  sub  : Byte
  info0 : Word
  info1 : Word
  info2 : Word
  info3 : Word
  at_   : Nat := 0
  open_ : Bool := false
deriving DecidableEq, Repr

/-- The issuers of requests (R65, R360). -/
inductive Agent where
  | thread (cast : Nat)
  | port (cast site : Nat)
  | chan (cast cix : Nat)
  | staging (die ch : Nat)
  | adapter (cast port : Nat)
  | host (iod : Nat)
  | peer
  | placer
  | dispatcher (die : Nat)
  | elastic
  | firmware
deriving DecidableEq, Repr

/-- A memory request at an HBM channel or a host or peer port (R61): a read of `len` bytes, or a write of `data`. `id`
numbers a committed store of a thread in its program order (R93); `rpl` is the base address of the page when it is replicated
(R77). -/
structure MemReq where
  agent  : Agent
  tenant : Nat
  pa     : Nat
  write  : Bool
  len    : Nat
  data   : List Byte
  rpl    : Option Nat
  id     : Nat
deriving DecidableEq, Repr

/-- A synchronisation-engine operation on a location (R364): ATOM and RED with their operation, or CAS. -/
inductive AtomKind where
  | rmw (op : AtomOp) (b : Word)
  | cas (exp new : Word)
deriving DecidableEq, Repr

/-- Who receives the reply of an atomic: nobody (RED), a pending class D command of a cast (R94), an outside requester. -/
inductive ReplyTo where
  | none
  | pending (cast pid : Nat)
  | outside (tag : Nat)
deriving DecidableEq, Repr

/-- A request for an atomic at the home SE (R359, R364). `id` numbers a thread's request in its program order (R93), as in `MemReq`. -/
structure AtomReq where
  agent  : Agent
  requester : Nat
  id     : Nat := 0
  tenant : Nat
  pa     : Nat
  rpl    : Option Nat
  size   : Size
  kind   : AtomKind
  order  : MemOrder
  scope  : Scope
  reply  : ReplyTo
deriving DecidableEq, Repr

/-- Whom an excess decrement is reported to (R369): the thread of a cast, named by its number and by the placement that had the number
then, since numbers are used again (R390). -/
inductive CntSource where
  | thread (cast uid : Nat)
  | dispatcher (cast uid : Nat)
  | nobody
deriving DecidableEq, Repr

/-- A counter operation at the home SE (R366, R367): the counter's virtual and physical address and who asks; `id` as in `MemReq`. -/
structure CntReq where
  source : CntSource
  requester : Nat
  id     : Nat := 0
  tenant : Nat
  va     : Word
  pa     : Nat
  order  : MemOrder
  scope  : Scope
deriving DecidableEq, Repr

/-- The updates of a transaction barrier (R352). -/
inductive BarUpdate where
  | init (arrivals : BitVec 16)
  | arrive (sectors : BitVec 32)
  | complete (sectors : Nat) (oob part err : Bool)
deriving DecidableEq, Repr

/-- An update of the transaction barrier at `pa`, at its home SE (R352), with its issuer and requester id (R360); `rpl` and `id` as in
`MemReq`. -/
structure BarReq where
  agent  : Agent
  requester : Nat
  id     : Nat := 0
  tenant : Nat
  pa     : Nat
  rpl    : Option Nat
  upd    : BarUpdate
deriving DecidableEq, Repr

/-- The thread that a group command or a wait comes from: its cast and its requester id (R360), with the number of the command, or of
the wait, and the location that a wait is at. -/
structure Sender where
  cast : Nat
  requester : Nat
  id   : Nat := 0
  loc  : Option Nat := none
deriving DecidableEq, Repr

/-- A byte that an engine updates: its address, and the number of its page where that is replicated (R77). -/
structure ByteAt where
  pa  : Nat
  rpl : Option Nat
deriving DecidableEq, Repr

/-- The waits of a thread (R97). -/
inductive Wait where
  | ctxSw (ctx : Nat)
  | drain (appended : Bool)
  | strmWait
  | mxScale
  | grpBar (h : Word) (order : MemOrder) (scope : Scope)
  | waitBit (h bitIx : Word) (order : MemOrder) (scope : Scope)
  | waitBitAll (h : Word) (order : MemOrder) (scope : Scope)
  | waitTok (mask : Byte) (task : Bool)
  | cpBwait (pa tenant : Nat) (phase : BitVec 16) (order : MemOrder) (scope : Scope)
  | cntWait (va : Word) (pa : Nat) (order : MemOrder) (scope : Scope)
  | leaseRel (rows : Nat)
deriving DecidableEq, Repr

/-- Who submitted a placer request (R384, R415, R438, R465). -/
inductive PlSource where
  | firmware
  | thread (cast : Nat)
  | packet (iod qid index : Nat)
  | elastic (stage : Nat)
deriving DecidableEq, Repr

/-- Who put a task record (R446, R465). -/
inductive PutSource where
  | thread (cast pid : Nat)
  | packet (iod qid index : Nat)
deriving DecidableEq, Repr

/-- The requests of a thread to its dispatcher (R446 to R448). -/
inductive TaskReq where
  | put (addr : Word) (isLocal : Bool)
  | sdef (addr : Word)
  | reg (cast stage : Nat)
  | unreg (cast : Nat)
  | info (stage : Nat)
deriving DecidableEq, Repr

/-- An inbound request of a PCI Express port (R450, R451, R454): the function, the BAR and the offset, whether it carries
the Relaxed Ordering attribute, and whether it came in an IDE stream bound to its function (R453). -/
structure Inbound where
  fn    : Nat
  bar   : Nat
  off   : Nat
  relaxed : Bool
  ide   : Bool
deriving DecidableEq, Repr

/-- Requests to the SPDM responder of the trust die (R483, R484, R453). -/
inductive SpdmReq where
  | getVersion | getCapabilities | negotiateAlgorithms | getDigests | getCertificate | challenge
  | getMeasurements
  | keyExchange (sid : Nat)
  | finish (sid : Nat)
  | endSession (sid : Nat)
  | sealedKey (sid keyId : Nat)
  | ideKey (port stream fn keyId : Nat)
deriving DecidableEq, Repr

/-- The device registers that firmware writes (R53, R56, R63, R341, R373, R374, R376, R384, R391, R445, R450, R452, R457,
R460, R468, R471 to R474, R478 to R484, R490), named with their die, port or entry. -/
inductive DevReg where
  | ttew0 (die i : Nat) | ttew1 (die i : Nat)
  | tlbiva | tlbicmd
  | omapcmd (die : Nat)
  | cplim (die i : Nat)
  | seqta (die i : Nat) | seqtb (die i : Nat) | seuse (die i : Nat) | seovf (die : Nat) | seovfn (die : Nat)
  | sepurge (die : Nat)
  | plsub | plstat | movelim | plcwin (i : Nat)
  | schcfg | schq (i : Nat) | spoola (i : Nat) | spoolb (i : Nat) | eallow (i : Nat) | ebal (i : Nat)
  | fncfg (port f : Nat) | hostsel
  | ecs0 (iod s : Nat) | ecs1 (iod s : Nat) | ecs2 (iod s : Nat) | ecs3 (iod s : Nat) | ecs4 (iod s : Nat)
  | fqdesc (i : Nat)
  | qcba (iod : Nat) | qslotcmd (iod : Nat) | qidle (iod : Nat) | qschcfg
  | featw (i : Nat) | featacc (i : Nat) | featlock
  | ualid | uaroute (p : Nat)
  | seamdn | bootstat | diepres | blkpres (d : Nat)
  | keycmd | pwrlim | govst
  | ecnt (b : Nat) | dieidle (d : Nat)
deriving DecidableEq, Repr

/-- The instructions and steps, one constructor per row of the opcode table; those that only the outside world starts, and
those that carry nothing, stand last. -/
inductive Instr where
  -- integer arithmetic, logic, compare, bit operations (R124 to R129)
  | add (p : Pred) (b a : Target)
  | sub (p : Pred) (b a : Target)
  | mul (p : Pred) (b a : Target)
  | mulhS (p : Pred) (b a : Target)
  | mulhU (p : Pred) (b a : Target)
  | mulhSu (p : Pred) (b a : Target)
  | divS (p : Pred) (b a : Target)
  | divU (p : Pred) (b a : Target)
  | remS (p : Pred) (b a : Target)
  | remU (p : Pred) (b a : Target)
  | minS (p : Pred) (b a : Target)
  | minU (p : Pred) (b a : Target)
  | maxS (p : Pred) (b a : Target)
  | maxU (p : Pred) (b a : Target)
  | madd (p : Pred) (b a : Target)
  | addsh (p : Pred) (n : BitVec 4) (b a : Target)
  | and (p : Pred) (b a : Target)
  | or (p : Pred) (b a : Target)
  | xor (p : Pred) (b a : Target)
  | andn (p : Pred) (b a : Target)
  | shl (p : Pred) (b a : Target)
  | shr (p : Pred) (b a : Target)
  | sar (p : Pred) (b a : Target)
  | cmp (p : Pred) (cc : Cond) (b a : Target)
  | tstZ (p : Pred) (b a : Target)
  | tstNz (p : Pred) (b a : Target)
  | sel (p : Pred) (b a : Target)
  | clz (p : Pred) (b a : Target)
  | ctz (p : Pred) (b a : Target)
  | popc (p : Pred) (b a : Target)
  | bfxZ (p : Pred) (b a : Target)
  | bfxS (p : Pred) (b a : Target)
  | bfi (p : Pred) (b a : Target)
  | ext (p : Pred) (k : ExtKind) (b a : Target)
  | addi (p : Pred) (i : BitVec 13) (t : Target)
  | muli (p : Pred) (i : BitVec 13) (t : Target)
  | andi (p : Pred) (i : BitVec 13) (t : Target)
  | ori (p : Pred) (i : BitVec 13) (t : Target)
  | xori (p : Pred) (i : BitVec 13) (t : Target)
  | shli (p : Pred) (n : BitVec 6) (t : Target)
  | shri (p : Pred) (n : BitVec 6) (t : Target)
  | sari (p : Pred) (n : BitVec 6) (t : Target)
  | cmpiEq (p : Pred) (i : BitVec 13) (t : Target)
  | cmpiNe (p : Pred) (i : BitVec 13) (t : Target)
  | cmpiLt (p : Pred) (i : BitVec 13) (t : Target)
  | cmpiGe (p : Pred) (i : BitVec 13) (t : Target)
  | cmpiLtu (p : Pred) (i : BitVec 13) (t : Target)
  | cmpiGeu (p : Pred) (i : BitVec 13) (t : Target)
  -- moves and constants (R102, R103, R130)
  | get (r : BitVec 6) (b a : Target)
  | lit (c : LitCount) (b a : Target)
  | mov (p : Pred) (b a : Target)
  | movi (p : Pred) (i : BitVec 13) (t : Target)
  | null (p : Pred) (b a : Target)
  | adr (p : Pred) (i : BitVec 13) (t : Target)
  -- loads, stores, fences (R131 to R141)
  | ldZ8 (p : Pred) (i : BitVec 13) (t : Target)
  | ldS8 (p : Pred) (i : BitVec 13) (t : Target)
  | ldZ16 (p : Pred) (i : BitVec 13) (t : Target)
  | ldS16 (p : Pred) (i : BitVec 13) (t : Target)
  | ldZ32 (p : Pred) (i : BitVec 13) (t : Target)
  | ldS32 (p : Pred) (i : BitVec 13) (t : Target)
  | ld64 (p : Pred) (i : BitVec 13) (t : Target)
  | ldx (p : Pred) (k : LoadKind) (b a : Target)
  | ldAcqZ32 (p : Pred) (s : Scope) (b a : Target)
  | ldAcq64 (p : Pred) (s : Scope) (b a : Target)
  | ldl (p : Pred) (k : LoadKind) (b a : Target)
  | st (p : Pred) (z : Size) (o : BitVec 20)
  | stx (p : Pred) (z : Size)
  | stRel (p : Pred) (z : Size) (s : Scope)
  | stl (p : Pred) (z : Size)
  | fenceAcq (p : Pred) (s : Scope)
  | fenceRel (p : Pred) (s : Scope)
  | fenceAr (p : Pred) (s : Scope)
  -- exits (R142 to R145)
  | br (p : Pred) (o : BitVec 22)
  | brn (p : Pred)
  | bri (p : Pred)
  | call (p : Pred) (o : BitVec 22)
  | calli (p : Pred)
  | ret (p : Pred)
  | brcT (p : Pred) (o : BitVec 22)
  | brcF (p : Pred) (o : BitVec 22)
  -- fabric commands (R150 to R157)
  | strmGo (p : Pred)
  | strmPushData (p : Pred) (ch : BitVec 3)
  | strmPushIndex (p : Pred) (ch : BitVec 3)
  | strmPushStop (p : Pred) (lvl : BitVec 3) (ch : BitVec 3)
  | strmPushDone (p : Pred) (ch : BitVec 3)
  | strmPop (p : Pred) (ch : BitVec 3) (b a : Target)
  | argSet (p : Pred) (ctx : BitVec 2) (y : BitVec 7) (x : BitVec 8)
  | ctxSw (p : Pred) (ctx : BitVec 2)
  | drain (p : Pred)
  | strmWait (p : Pred)
  -- matrix element (R306 to R310)
  | mxClaim (p : Pred) (a : Target)
  | mxRel (p : Pred)
  | mxScale (p : Pred)
  | mxStat (p : Pred) (w : StatForm) (a : Target)
  -- handles and ports (R216 to R220, R233)
  | hndNew (p : Pred) (a : Target)
  | hndGive (p : Pred)
  | hndTake (p : Pred) (a : Target)
  | hndDrop (p : Pred)
  | hndInfo (p : Pred) (b a : Target)
  | portRes (p : Pred) (act : Resume)
  -- groups and waits (R160 to R168)
  | grpNew (p : Pred) (a : Target)
  | grpJoin (p : Pred) (a : Target)
  | grpLeave (p : Pred)
  | grpFree (p : Pred)
  | grpBar (p : Pred) (o : MemOrder) (s : Scope)
  | grpMark (p : Pred) (o : MemOrder) (s : Scope)
  | waitBit (p : Pred) (o : MemOrder) (s : Scope)
  | waitBitAll (p : Pred) (o : MemOrder) (s : Scope)
  | waitTok (p : Pred) (task : Bool) (mask : BitVec 8)
  -- copy engine (R342 to R345, R352, R353, R358)
  | cpOpen (p : Pred) (a : Target)
  | cpClose (p : Pred)
  | cpPush (p : Pred)
  | cpRes (p : Pred) (act : Resume)
  | cpBinit (p : Pred)
  | cpBarv (p : Pred) (o : MemOrder) (s : Scope)
  | cpBwait (p : Pred) (o : MemOrder) (s : Scope)
  -- synchronisation engine (R362 to R368)
  | atomRlx (p : Pred) (s : Scope) (b a : Target)
  | atomAcq (p : Pred) (s : Scope) (b a : Target)
  | atomRel (p : Pred) (s : Scope) (b a : Target)
  | atomAr (p : Pred) (s : Scope) (b a : Target)
  | cas (o : MemOrder) (p : Pred) (s : Scope) (b a : Target)
  | red (p : Pred) (z : Size) (f : AtomOp) (o : MemOrder) (s : Scope)
  | cntInit (p : Pred) (o : MemOrder) (s : Scope)
  | cntDec (p : Pred) (o : MemOrder) (s : Scope)
  | cntWait (p : Pred) (o : MemOrder) (s : Scope)
  | cntFree (p : Pred)
  -- tasks (R446 to R448)
  | taskPut (p : Pred) (isLocal : Bool) (a : Target)
  | taskSdef (p : Pred) (a : Target)
  | taskReg (p : Pred) (a : Target)
  | taskUnreg (p : Pred)
  | taskInfo (p : Pred) (a : Target)
  -- placer and lease (R414 to R416)
  | plReq (p : Pred) (a : Target)
  | leaseRel (p : Pred)
  -- system (R170 to R177)
  | trap (p : Pred) (code : BitVec 16)
  | eret (p : Pred)
  | sysrd (p : Pred) (r : SysReg) (t : Target)
  | syswr (p : Pred) (r : SysReg)
  | feat (p : Pred) (w : BitVec 2) (t : Target)
  | halt (p : Pred)
  | nop (p : Pred)
  | bkpt (p : Pred) (code : BitVec 16)
  | yield (p : Pred)
  -- steps of the control thread (R33, R86, R94, R98, R148, R155, R156, R177, R186, R187)
  | blockFetch (cast : Nat)
  | slotResultDeliver (cast seq slot : Nat) (v : Option Word)
  | asyncCauseArrive (cast : Nat) (cause : AsyncCause)
  | asyncTrapTake (cast : Nat)
  | classDReply (cast pid : Nat) (v0 v1 : Word)
  | taskTokenStart (cast : Nat)
  | preemptHalt (cast : Nat)
  | yieldPauseEnd (cast : Nat)
  | rootDoneArrive (cast : Nat)
  | drainAppend (cast : Nat)
  | drainComplete (cast : Nat)
  | ctxSwComplete (cast : Nat)
  -- steps of the fabric (R21 to R31, R203, R208, R209, R154)
  | tokenAccept (cast : Nat) (dst : Dest) (t : Token)
  | errorTokenForward (cast site : Nat)
  | reconfAlign (cast site : Nat)
  | drainAlign (cast site : Nat)
  | selectorFire (cast site : Nat)
  | pulseArrive (cast site : Nat) (isDone : Bool) (child : Nat)
  | nodeIterationBegin (cast site : Nat)
  | argWriteArrive (cast site ctx : Nat) (k : BitVec 32)
  -- scratch banks and memory ports (R217 to R219, R222, R229)
  | sbHndNew (cast pid site : Nat) (len : Word)
  | sbHndGive (cast : Nat) (h : Word)
  | sbHndTake (cast pid : Nat) (h : Word)
  | sbHndDrop (cast : Nat) (h : Word)
  | sbFire (cast site : Nat)
  | mloadReply (cast site : Nat)
  -- converter and vector elements (R251, R268 to R270, R280)
  | cxFire (cast site : Nat)
  | veFire (cast site : Nat)
  | veDIntake (cast site : Nat)
  | veSwap (cast site : Nat)
  | veConsumeAlone (cast site : Nat) (p : InPort)
  | veAccFlush (cast site : Nat)
  -- matrix element (R288 to R310)
  | mxABeat (cast site : Nat)
  | mxBBeat (cast site : Nat)
  | mxCommandTake (cast site : Nat)
  | mxCommandBegin (cast site : Nat)
  | mxRowFire (cast site : Nat)
  | mxDenseUpdate (cast site : Nat)
  | mxOutlierApply (cast site : Nat)
  | mxReadBeat (cast site : Nat)
  | mxNoteEmit (cast site : Nat)
  | mxSlotFree (cast site slot : Nat)
  | mxRelArrive (cast site slot : Nat)
  | mxClaimServe (cast pid site : Nat) (claim : Word)
  | mxStatServe (cast pid site : Nat) (form : StatForm) (slot : Nat)
  | mxScaleWrite (cast site : Nat) (v : BitVec 32)
  | mxReconfAlign (cast site : Nat)
  -- stream operators (R320, R323)
  | soTokenCheck (cast site : Nat) (p : InPort)
  | soStep (cast site : Nat)
  -- copy engine (R345, R347, R352, R354)
  | copyChainBegin (cast cix : Nat)
  | copyRecordBegin (cast cix : Nat)
  | copySector (cast cix rec : Nat)
  | copyRecordComplete (cast cix rec : Nat)
  | barrierUpdate (r : BarReq)
  -- synchronisation engine (R162 to R167, R364 to R375)
  | seAtomic (r : AtomReq)
  | seCntInit (r : CntReq) (n : BitVec 32)
  | seCntDec (r : CntReq) (d : BitVec 32)
  | seCntFree (r : CntReq)
  | seWaitRegister (r : Sender)
  | seGrpNew (r : Sender) (pid : Nat) (bmap nbits : Word)
  | seGrpJoin (r : Sender) (pid : Nat) (h : Word)
  | seGrpLeave (r : Sender) (h : Word)
  | seGrpFree (r : Sender) (h : Word)
  | seGrpBarArrive (r : Sender) (h : Word)
  | seGrpMark (r : Sender) (h bitIx : Word) (o : MemOrder) (s : Scope)
  | seBitmapOr (r : Sender) (tenant : Nat) (at_ : ByteAt) (group : Word) (bitIx : Nat)
  | seMarkReport (group : Word) (wordIx : Nat) (v : Word)
  | seHoldRelease (die entry : Nat)
  | placerBusyRetry (iod qid index : Nat)
  -- translation and channels (R56, R57, R61 to R63, R77)
  | channelRequest (r : MemReq)
  | replicaStoreApply (die page : Nat)
  | omapComplete (die : Nat)
  | sepurgeComplete (die : Nat)
  -- placer (R384 to R413, R175)
  | rollRowFill (cast : Nat)
  | rollFinish (cast : Nat)
  | haltRemoval (cast : Nat)
  | inRingDeliver (cast port : Nat)
  | inRingTailPoll (cast port : Nat)
  | outRingWrite (cast port : Nat)
  | outRingHeadPoll (cast port : Nat)
  | castBindingTransfer (cast port : Nat)
  -- scheduler (R421 to R442, R488, R489)
  | dispatchTaskPut (src : PutSource) (tenant die : Nat) (rq : TaskReq)
  | taskReady (tenant pa : Nat)
  | stagingAdmit (tenant : Nat)
  | stagingPiece (task : Nat)
  | stagingEnd (task : Nat)
  | taskDeliver (cast : Nat)
  | taskSteal (cast : Nat)
  | taskComplete (cast : Nat)
  | ageingQuantum (die : Nat)
  | variantSwitch (cast : Nat)
  | wdog (cast : Nat)
  | memtimeout (tenant cast : Nat) (va : Word) (requester : Nat)
  -- host interface (R449 to R475)
  | inboundWriteForward (port : Nat)
  | hostReadTimeout (cast seq slot : Nat)
  | sealedCommit (port : Nat)
  | doorbellKick (port fn qid : Nat) (v : Word)
  | packetFetch (iod slot : Nat)
  | packetIssue (iod slot : Nat)
  | packetComplete (iod qid index : Nat)
  | firmwareQueueSchedule (iod : Nat) (boundary : Bool)
  -- the end of a page walk (R51, R55)
  | pageWalk (die tenant : Nat) (va : Word) (write fetch : Bool)
  -- the firing of any element: the steps of each kind above are its forms (R22)
  | elementFire (cast site : Nat)
  -- steps that come from outside: register writes, host, peers, trust (R8, R449 to R491)
  | tlbiAll (tid : Nat)
  | tlbiTenant (tid target : Nat)
  | tlbiRange (tid target size : Nat)
  | tlbiReserved (tid : Nat) (v : Word)
  | clearingWrite (tid : Nat) (r : DevReg) (v : Word)
  | omapcmdWrite (tid die : Nat) (v : Word)
  | sepurgeWrite (tid die : Nat) (v : Word)
  | keyGen (tid : Nat) (v : Word)
  | keyClear (tid : Nat) (v : Word)
  | keyLoad (tid : Nat) (v : Word)
  | keyReserved (tid : Nat) (v : Word)
  | plsubWrite (tid : Nat) (v : Word)
  | featlockWrite (tid : Nat) (v : Word)
  | bootstatReady (tid : Nat) (v : Word)
  | registerWrite (tid : Nat) (r : DevReg) (v : Word)
  | inboundPostedWrite (port : Nat) (q : Inbound) (data : List Byte)
  | inboundRead (port : Nat) (q : Inbound) (len tag : Nat)
  | qslotDefine (tid iod : Nat) (v : Word)
  | qslotDelete (tid iod : Nat) (v : Word)
  | qslotMap (tid iod : Nat) (v : Word)
  | qslotUnmap (tid iod : Nat) (v : Word)
  | qslotReserved (tid iod : Nat) (v : Word)
  | tdispStopInterface (port fn : Nat)
  | peerInboundRequest (tenant pa : Nat) (write : Bool) (len : Nat) (data : List Byte) (atom : Option AtomKind) (tag : Nat)
  | spdmMessage (q : SpdmReq)
  | recoveryImageWrite (port : Nat) (image : List Byte)
  | inboundAtomicop (port : Nat) (q : Inbound) (kind : AtomKind) (size : Size) (tag : Nat)
  | pcieLinkStateChange (port : Nat) (up : Bool)
  | ualinkPortStateChange (port : Nat) (up : Bool)
  | tdispInterfaceRequest (port fn : Nat) (run : Bool)
  -- steps of the package's single engines, which carry nothing
  | tlbiComplete
  | keyComplete
  | placerLoad
  | placerMove
  | moveCutEmpty
  | cuttimeout
  | placerCompact
  | placerRoll
  | placerSave
  | placerRestore
  | placerRemove
  | placerResume
  | placerGrant
  | placerRevoke
  | energyWindowEnd
  | fastLimiterSample
  | powerOn
  | iodVerifyRelease
  | ucieTraining
  | cdVerifyRelease
  | bootKeyGen
deriving DecidableEq, Repr

end Sys2Proof
end

