-- ==== Sys2Proof/Config.lean ====
section
/-!
DEFINITION. What an implementation fixes, and the values that the spec leaves open. An open value is an opaque constant:
nothing in Lean can say which value it is, so a statement holds whatever the device produces. Each is named in a log entry.
-/
namespace Sys2Proof.Config

/-- The part: EOS-8 (eight compute dies, R2). -/
def computeDies : Nat := 8

/-- An open number of clocks, for the `k`-th open delay of a run (R135, R217, R306, R364 give bounds only; DESIGN CHOICE, log entry 3). -/
opaque openDelay : Nat → Nat

/-- An open choice or value, for the `k`-th open value of a run (DESIGN CHOICE, log entry 3). -/
opaque openNat : Nat → Nat

/-- Which of the FP32 values that R277 allows is the approximation `p` of a function (numbered as in FN of R276) on the encoding of its
operand (DESIGN CHOICE, log entry 11). -/
opaque approxPick : Nat → Nat → Nat

/-- The outcome of the signature check of a die's image and of its fuses, for the `k`-th check (R476 to R482; DESIGN CHOICE, log entry 12). -/
opaque verifies : Nat → Bool

/-- The outcome of training the UCIe link number `k` (R477; DESIGN CHOICE, log entry 12). -/
opaque linkTrains : Nat → Bool

/-- Which blocks of die `d` the fuses declare present (R3, R482; DESIGN CHOICE, log entry 12). -/
opaque blocksPresent : Nat → BitVec 36

/-- The compute dies, by index, and the I/O dies, as 8 + index, that I/O die `i` is linked with (R477; DESIGN CHOICE, log entry 12). -/
opaque iodLinks : Nat → List Nat

/-- The body of the save image number `k` beyond the fields that R410 gives (DESIGN CHOICE, log entry 13). -/
opaque saveBody : Nat → Nat → Byte

/-- The 512 bits of key number `k`, which the trust die draws at random (R64, R484, R485; DESIGN CHOICE, log entry 14). -/
opaque keyValue : Nat → BitVec 512

/-- The 256 bits of the key for sealed streams that the trust die has received as number `k` (R457, R484; DESIGN CHOICE, log entry 15). -/
opaque sealedKey : Nat → BitVec 256

/-- The energy in picojoules that block `b` counts at clock `t` (R487 to R489; DESIGN CHOICE, log entry 16). -/
opaque blockEnergy : Nat → Nat → Nat

/-- The energy in picojoules that DIEIDLE of die `d` counts at clock `t` (R487; DESIGN CHOICE, log entry 16). -/
opaque dieEnergy : Nat → Nat → Nat

/-- The energy in picojoules that the package has used up to clock `t` (R488; DESIGN CHOICE, log entry 16). -/
opaque packageEnergy : Nat → Nat

/-- The bytes of the `k`-th SPDM response, to a request and the values that a measurement takes in (R483; DESIGN CHOICE, log entry 17). -/
opaque spdmReply : Nat → List Nat → List Byte

/-- The register that stands at an offset of the PF0 register file of a port (R451; DESIGN CHOICE, log entry 17). -/
opaque pf0Reg : Nat → Nat → Option DevReg

end Sys2Proof.Config
end

