-- ==== Sys2Proof/Machine/Cipher.lean ====
section
/-!
DEFINITION. AES-XTS-256, under which the lines of local HBM are encrypted (R64, R485), and AES-GCM-256, under which the chunks of sealed
copy-in are (R459). The spec names the algorithms; their tables and steps are those of FIPS 197 and IEEE 1619 (PRESUMED, log entry 14) and
of NIST SP 800-38D (PRESUMED, log entry 15).
-/
namespace Sys2Proof.Machine

/-- The substitution table, entry 0 in the lowest byte. -/
def sboxHex : Nat :=
  0x16bb54b00f2d99416842e6bf0d89a18cdf2855cee9871e9b948ed9691198f8e19e1dc186b95735610ef6034866b53e708a8bbd4b1f74dde8c6b4a61c2e2578ba08ae7a65eaf4566ca94ed58d6d37c8e779e4959162acd3c25c2406490a3a32e0db0b5ede14b8ee4688902a22dc4f816073195d643d7ea7c41744975fec130ccdd2f3ff1021dab6bcf5389d928f40a351a89f3c507f02f94585334d43fbaaefd0cf584c4a39becb6a5bb1fc20ed00d153842fe329b3d63b52a05a6e1b1a2c830975b227ebe28012079a059618c323c7041531d871f1e5a534ccf73f362693fdb7c072a49cafa2d4adf04759fa7dc982ca76abd7fe2b670130c56f6bf27b777c63

/-- A byte substituted, and the inverse by search. -/
def subByte (x : Nat) : Nat := sboxHex / 256 ^ x % 256
def unsubByte (x : Nat) : Nat := ((List.range 256).find? fun y => subByte y == x).getD 0

/-- A product in the field of 256 elements of AES. -/
def xtime (x : Nat) : Nat := if x < 128 then 2 * x else Nat.xor (2 * x % 256) 0x1B
def gmul : Nat → Nat → Nat → Nat
  | 0, _, _ => 0
  | n + 1, a, b => Nat.xor (if b % 2 = 1 then a else 0) (gmul n (xtime a) (b / 2))

/-- Bytes combined by exclusive or. -/
def xorBytes (a b : List Nat) : List Nat := a.zipWith Nat.xor b

/-- The next word of the key schedule of AES-256, word `i`, from those before it. -/
def nextKeyWord (ws : List (List Nat)) (i : Nat) : List Nat :=
  let t := ws.getD (i - 1) []
  let t :=
    if i % 8 = 0 then xorBytes ((t.drop 1 ++ t.take 1).map subByte) [2 ^ (i / 8 - 1), 0, 0, 0]
    else if i % 8 = 4 then t.map subByte else t
  xorBytes (ws.getD (i - 8) []) t

/-- The fifteen round keys of a 32-byte key. -/
def roundKeys (key : List Nat) : List (List Nat) :=
  let first := (List.range 8).map fun i => (key.drop (4 * i)).take 4
  let ws := (List.range 52).foldl (fun ws n => ws ++ [nextKeyWord ws (n + 8)]) first
  (List.range 15).map fun r => ((ws.drop (4 * r)).take 4).flatten

/-- Row `r` of the state, whose bytes stand column by column, is rotated by `r` places: the shift of a round, and its inverse. -/
def shiftRows (s : List Nat) : List Nat := (List.range 16).map fun i => s.getD ((i + 4 * (i % 4)) % 16) 0
def unshiftRows (s : List Nat) : List Nat := (List.range 16).map fun i => s.getD ((i + 12 * (i % 4)) % 16) 0

/-- Every column multiplied by a circulant matrix, given by its first row. -/
def mixColumns (row : List Nat) (s : List Nat) : List Nat :=
  (List.range 16).map fun i =>
    (List.range 4).foldl (fun acc j => Nat.xor acc (gmul 8 (s.getD (i / 4 * 4 + j) 0) (row.getD ((j + 4 - i % 4) % 4) 0))) 0

/-- A block of 16 bytes encrypted and decrypted. -/
def aesEncrypt (key block : List Nat) : List Nat :=
  let ks := roundKeys key
  (List.range 14).foldl (fun s r =>
    let s := shiftRows (s.map subByte)
    xorBytes (if r = 13 then s else mixColumns [2, 3, 1, 1] s) (ks.getD (r + 1) [])) (xorBytes block (ks.getD 0 []))
def aesDecrypt (key block : List Nat) : List Nat :=
  let ks := roundKeys key
  (List.range 14).foldl (fun s r =>
    let s := xorBytes ((unshiftRows s).map unsubByte) (ks.getD (13 - r) [])
    if r = 13 then s else mixColumns [14, 11, 13, 9] s) (xorBytes block (ks.getD 14 []))

/-- The tweak of block `j` of a data unit: the encrypted number of the unit, least significant byte first, times the `j`-th power of the
primitive element. -/
def xtsTweak (key2 : List Nat) (unit j : Nat) : List Nat :=
  let t := aesEncrypt key2 ((List.range 16).map fun i => unit / 256 ^ i % 256)
  let n := (List.range j).foldl (fun n _ => if n < 2 ^ 127 then 2 * n else Nat.xor (2 * n % 2 ^ 128) 0x87)
    (t.foldr (fun b n => b + 256 * n) 0)
  (List.range 16).map fun i => n / 256 ^ i % 256

/-- Block `j` of the data unit `unit` (R64: PA[39:7]) encrypted and decrypted under a key of 64 bytes. -/
def xtsEncrypt (key : List Nat) (unit j : Nat) (block : List Nat) : List Nat :=
  let t := xtsTweak (key.drop 32) unit j
  xorBytes (aesEncrypt (key.take 32) (xorBytes block t)) t
def xtsDecrypt (key : List Nat) (unit j : Nat) (block : List Nat) : List Nat :=
  let t := xtsTweak (key.drop 32) unit j
  xorBytes (aesDecrypt (key.take 32) (xorBytes block t)) t

/-- What a block written under one key reads as under another. -/
def rekeyBlock (old new : BitVec 512) (unit j : Nat) (block : List Byte) : List Byte :=
  let bytes := fun (k : BitVec 512) => (leBytes 64 k.toNat).map BitVec.toNat
  (xtsDecrypt (bytes new) unit j (xtsEncrypt (bytes old) unit j (block.map BitVec.toNat))).map (BitVec.ofNat 8)

/-! ### AES-GCM-256 -/

/-- A number of `n` bytes, most significant byte first, and the number that bytes in this order stand for. -/
def beBytes (n x : Nat) : List Nat := (List.range n).map fun i => x / 256 ^ (n - 1 - i) % 256
def beNat (b : List Nat) : Nat := b.foldl (fun x y => 256 * x + y) 0

/-- The product of two blocks, whose first bit stands for the constant term, modulo the field's polynomial. -/
def gcmMul (x y : Nat) : Nat :=
  ((List.range 128).foldl (fun (z : Nat × Nat) i =>
    (if x.testBit (127 - i) then Nat.xor z.1 z.2 else z.1, if z.2 % 2 = 1 then Nat.xor (z.2 / 2) (0xE1 * 2 ^ 120) else z.2 / 2)) (0, y)).1

/-- The blocks of some bytes, the last one filled with zeros. -/
def blocksOf (b : List Nat) : List (List Nat) :=
  (List.range ((b.length + 15) / 16)).map fun i => (List.range 16).map fun j => b.getD (16 * i + j) 0

/-- The tag of a ciphertext with its additional data, under an initial vector of twelve bytes. -/
def gcmTag (key iv aad ct : List Nat) : List Nat :=
  let h := beNat (aesEncrypt key (List.replicate 16 0))
  let all := blocksOf aad ++ blocksOf ct ++ [beBytes 8 (8 * aad.length) ++ beBytes 8 (8 * ct.length)]
  let y := all.foldl (fun y b => gcmMul (Nat.xor y (beNat b)) h) 0
  let mask := aesEncrypt key (iv ++ [0, 0, 0, 1])
  (List.range 16).map fun i => Nat.xor (mask.getD i 0) (y / 256 ^ (15 - i) % 256)

/-- The plaintext of a ciphertext, and the other way round. -/
def gcmText (key iv ct : List Nat) : List Nat :=
  ((blocksOf ct).mapIdx fun i b => xorBytes b (aesEncrypt key (iv ++ beBytes 4 (i + 2)))).flatten.take ct.length

end Sys2Proof.Machine
end

