-- ==== Sys2Proof/WellFormed.lean ====
section
/-!
DEFINITION. Which instructions have a word: the modifier combinations that the owning chapters define (R104, R160, R170,
R342, R362). A combination outside them traps ILLOP at fetch, so the decoder never answers one. Target fields are judged
apart, at step 6 of R98 (R84), because they raise another cause.
-/
namespace Sys2Proof

/-- RLX and REL, the orderings of RED, CNT.INIT, CNT.DEC, CP.BARV and GRP.MARK (R160, R342, R362). -/
def MemOrder.isRelaxedOrRelease : MemOrder → Bool
  | .rlx => true
  | .rel => true
  | .acq => false
  | .ar => false

/-- RLX and ACQ, the orderings of CNT.WAIT, CP.BWAIT and WAIT.BIT (R160, R342, R362). -/
def MemOrder.isRelaxedOrAcquire : MemOrder → Bool
  | .rlx => true
  | .acq => true
  | .rel => false
  | .ar => false

/-- The float operations of R363. -/
def AtomOp.isFloat : AtomOp → Bool
  | .fadd => true
  | .fmin => true
  | .fmax => true
  | .add => false
  | .and => false
  | .or => false
  | .xor => false
  | .mins => false
  | .maxs => false
  | .minu => false
  | .maxu => false
  | .swap => false

/-- RED takes no SWAP, sizes 4 and 8, and a float operation on 4 bytes alone (R362, R363). -/
def redFormOk (z : Size) (f : AtomOp) : Bool :=
  match z with
  | .b1 => false
  | .b2 => false
  | .b4 => f != .swap
  | .b8 => f != .swap && !f.isFloat

/-- The system registers that SYSWR may name: those with a field that is not RO (R170, R178). -/
def SysReg.writable : SysReg → Bool
  | .tvec => true
  | .tcause => true
  | .tpc => true
  | .tstat => true
  | _ => false

/-- The instruction has a word (R104). Steps of the device have no word and nothing to be ill-formed in. -/
def WellFormed : Instr → Bool
  | .grpMark _ o _ => o.isRelaxedOrRelease
  | .waitBit _ o _ => o.isRelaxedOrAcquire
  | .waitBitAll _ o _ => o.isRelaxedOrAcquire
  | .waitTok _ task mask => task || mask != 0
  | .cpBarv _ o _ => o.isRelaxedOrRelease
  | .cpBwait _ o _ => o.isRelaxedOrAcquire
  | .red _ z f o _ => redFormOk z f && o.isRelaxedOrRelease
  | .cntInit _ o _ => o.isRelaxedOrRelease
  | .cntDec _ o _ => o.isRelaxedOrRelease
  | .cntWait _ o _ => o.isRelaxedOrAcquire
  | .syswr _ r => r.writable
  | _ => true

end Sys2Proof
end

