-- ==== Sys2Proof/Decode.lean ====
section
/-!
DEFINITION. The decoder of control-thread words (R99 to R108, R124 to R142, R150, R160, R170, R306, R342, R362, R414,
R446 and the table of handles), total on any bytes, and the encoder written from the same tables. A word that is refused
traps ILLOP at fetch (R98, step 5); the reason is named for a reader only.
-/
namespace Sys2Proof

/-- Why a word is no instruction. Each reason traps ILLOP (R87, R104, R108). -/
inductive Reject where
  | unassigned
  | reservedPredicate
  | reservedField
  | undefinedModifier
  | badLitCount
  | truncated
deriving DecidableEq, Repr

/-! ### The fields of a word (R99 to R103) -/

def opOf (w : Word32) : BitVec 8 := w.extractLsb' 24 8
def prOf (w : Word32) : BitVec 2 := w.extractLsb' 22 2
def x4Of (w : Word32) : BitVec 4 := w.extractLsb' 18 4
def tgtBOf (w : Word32) : Target := w.extractLsb' 9 9
def tgtAOf (w : Word32) : Target := w.extractLsb' 0 9
def imm13Of (w : Word32) : BitVec 13 := w.extractLsb' 9 13
def imm22Of (w : Word32) : BitVec 22 := w.extractLsb' 0 22
def regOf (w : Word32) : BitVec 6 := w.extractLsb' 18 6

/-! ### Codes of the small fields -/

def Pred.ofCode (c : BitVec 2) : Option Pred :=
  match c.toNat with
  | 0 => some .always
  | 2 => some .onTrue
  | 3 => some .onFalse
  | _ => none

def Pred.code : Pred → BitVec 2
  | .always => 0
  | .onTrue => 2
  | .onFalse => 3

def Scope.ofCode (c : BitVec 4) : Option Scope :=
  match c.toNat with
  | 0 => some .thread
  | 1 => some .element
  | 2 => some .block
  | 3 => some .cast
  | 4 => some .group
  | 5 => some .plinth
  | 6 => some .tenant
  | 7 => some .die
  | 8 => some .device
  | 9 => some .system
  | 10 => some .domain
  | _ => none

def Scope.code : Scope → BitVec 4
  | .thread => 0
  | .element => 1
  | .block => 2
  | .cast => 3
  | .group => 4
  | .plinth => 5
  | .tenant => 6
  | .die => 7
  | .device => 8
  | .system => 9
  | .domain => 10

def MemOrder.ofCode (c : BitVec 2) : MemOrder :=
  match c.toNat with
  | 0 => .rlx
  | 1 => .acq
  | 2 => .rel
  | _ => .ar

def MemOrder.code : MemOrder → BitVec 2
  | .rlx => 0
  | .acq => 1
  | .rel => 2
  | .ar => 3

def Cond.ofCode (c : BitVec 4) : Option Cond :=
  match c.toNat with
  | 0 => some .eq
  | 1 => some .ne
  | 2 => some .lt
  | 3 => some .le
  | 4 => some .gt
  | 5 => some .ge
  | 6 => some .ltu
  | 7 => some .leu
  | 8 => some .gtu
  | 9 => some .geu
  | _ => none

def Cond.code : Cond → BitVec 4
  | .eq => 0
  | .ne => 1
  | .lt => 2
  | .le => 3
  | .gt => 4
  | .ge => 5
  | .ltu => 6
  | .leu => 7
  | .gtu => 8
  | .geu => 9

def ExtKind.ofCode (c : BitVec 4) : Option ExtKind :=
  match c.toNat with
  | 0 => some .s8
  | 1 => some .s16
  | 2 => some .s32
  | 3 => some .z8
  | 4 => some .z16
  | 5 => some .z32
  | _ => none

def ExtKind.code : ExtKind → BitVec 4
  | .s8 => 0
  | .s16 => 1
  | .s32 => 2
  | .z8 => 3
  | .z16 => 4
  | .z32 => 5

def LoadKind.ofCode (c : BitVec 4) : Option LoadKind :=
  match c.toNat with
  | 0 => some .z8
  | 1 => some .s8
  | 2 => some .z16
  | 3 => some .s16
  | 4 => some .z32
  | 5 => some .s32
  | 6 => some .d64
  | _ => none

def LoadKind.code : LoadKind → BitVec 4
  | .z8 => 0
  | .s8 => 1
  | .z16 => 2
  | .s16 => 3
  | .z32 => 4
  | .s32 => 5
  | .d64 => 6

def Size.ofCode (c : BitVec 2) : Size :=
  match c.toNat with
  | 0 => .b1
  | 1 => .b2
  | 2 => .b4
  | _ => .b8

def Size.code : Size → BitVec 2
  | .b1 => 0
  | .b2 => 1
  | .b4 => 2
  | .b8 => 3

def Resume.ofCode (c : BitVec 2) : Option Resume :=
  match c.toNat with
  | 0 => some .retry
  | 1 => some .skip
  | _ => none

def Resume.code : Resume → BitVec 2
  | .retry => 0
  | .skip => 1

def StatForm.ofCode (c : BitVec 4) : Option StatForm :=
  match c.toNat with
  | 0 => some .st
  | 1 => some .plo
  | 2 => some .phi
  | 3 => some .stc
  | _ => none

def StatForm.code : StatForm → BitVec 4
  | .st => 0
  | .plo => 1
  | .phi => 2
  | .stc => 3

def AtomOp.ofCode (c : BitVec 4) : Option AtomOp :=
  match c.toNat with
  | 0 => some .add
  | 1 => some .and
  | 2 => some .or
  | 3 => some .xor
  | 4 => some .mins
  | 5 => some .maxs
  | 6 => some .minu
  | 7 => some .maxu
  | 8 => some .swap
  | 9 => some .fadd
  | 10 => some .fmin
  | 11 => some .fmax
  | _ => none

def AtomOp.code : AtomOp → BitVec 4
  | .add => 0
  | .and => 1
  | .or => 2
  | .xor => 3
  | .mins => 4
  | .maxs => 5
  | .minu => 6
  | .maxu => 7
  | .swap => 8
  | .fadd => 9
  | .fmin => 10
  | .fmax => 11

def LitCount.ofCode (c : BitVec 6) : Option LitCount :=
  match c.toNat with
  | 1 => some .one
  | 2 => some .two
  | _ => none

def LitCount.code : LitCount → BitVec 6
  | .one => 1
  | .two => 2

/-- The register numbers of R178. -/
def SysReg.ofCode (c : BitVec 12) : Option SysReg :=
  match c.toNat with
  | 0x000 => some .castid
  | 0x001 => some .tenant
  | 0x002 => some .dieid
  | 0x003 => some .blkxy
  | 0x004 => some .parmb
  | 0x005 => some .lcyc
  | 0x006 => some .feata
  | 0x007 => some .chst
  | 0x008 => some .gmem0
  | 0x009 => some .gmem1
  | 0x00A => some .gmem2
  | 0x00B => some .gmem3
  | 0x00C => some .taskpri
  | 0x010 => some .tvec
  | 0x011 => some .tcause
  | 0x012 => some .tpc
  | 0x013 => some .tinfo0
  | 0x014 => some .tinfo1
  | 0x015 => some .tinfo2
  | 0x016 => some .tinfo3
  | 0x017 => some .tstat
  | 0x018 => some .loob
  | _ => none

def SysReg.code : SysReg → BitVec 12
  | .castid => 0x000
  | .tenant => 0x001
  | .dieid => 0x002
  | .blkxy => 0x003
  | .parmb => 0x004
  | .lcyc => 0x005
  | .feata => 0x006
  | .chst => 0x007
  | .gmem0 => 0x008
  | .gmem1 => 0x009
  | .gmem2 => 0x00A
  | .gmem3 => 0x00B
  | .taskpri => 0x00C
  | .tvec => 0x010
  | .tcause => 0x011
  | .tpc => 0x012
  | .tinfo0 => 0x013
  | .tinfo1 => 0x014
  | .tinfo2 => 0x015
  | .tinfo3 => 0x016
  | .tstat => 0x017
  | .loob => 0x018

/-! ### Formats -/

/-- Reads PR first (R98, step 5), then the rest. -/
def withPred (w : Word32) (k : Pred → Except Reject Instr) : Except Reject Instr :=
  match Pred.ofCode (prOf w) with
  | some p => k p
  | none => .error .reservedPredicate

/-- An absent modifier value is undefined (R104). -/
def withMod {α : Type} (x : Option α) (k : α → Except Reject Instr) : Except Reject Instr :=
  match x with
  | some v => k v
  | none => .error .undefinedModifier

/-- Format T2 with a modifier in X4 (R99). -/
def decT2x (w : Word32) (k : Pred → BitVec 4 → Target → Target → Except Reject Instr) : Except Reject Instr :=
  withPred w fun p => k p (x4Of w) (tgtBOf w) (tgtAOf w)

/-- Format T2 without a modifier: X4 zero (R104). -/
def decT2 (w : Word32) (k : Pred → Target → Target → Instr) : Except Reject Instr :=
  decT2x w fun p x b a => if x = 0 then .ok (k p b a) else .error .reservedField

/-- Format T2 with one target: X4 and TGTB zero (R104). -/
def decT1 (w : Word32) (k : Pred → Target → Instr) : Except Reject Instr :=
  decT2x w fun p x b a => if x = 0 ∧ b = 0 then .ok (k p a) else .error .reservedField

/-- Format T1I (R100). -/
def decT1I (w : Word32) (k : Pred → BitVec 13 → Target → Except Reject Instr) : Except Reject Instr :=
  withPred w fun p => k p (imm13Of w) (tgtAOf w)

/-- Format S (R101). -/
def decS (w : Word32) (k : Pred → BitVec 22 → Except Reject Instr) : Except Reject Instr :=
  withPred w fun p => k p (imm22Of w)

/-- Format S with IMM22 zero (R104). -/
def decS0 (w : Word32) (k : Pred → Instr) : Except Reject Instr :=
  decS w fun p i => if i = 0 then .ok (k p) else .error .reservedField

/-- Format S whose SCOPE is [3:0] and ORD [5:4], with [21:6] equal to `hi` (R160). -/
def decOrd (w : Word32) (hi : BitVec 16) (allowed : MemOrder → Bool) (k : Pred → MemOrder → Scope → Instr) :
    Except Reject Instr :=
  decS w fun p i =>
    if i.extractLsb' 6 16 = hi then
      withMod (Scope.ofCode (i.extractLsb' 0 4)) fun s =>
        if allowed (MemOrder.ofCode (i.extractLsb' 4 2)) then .ok (k p (MemOrder.ofCode (i.extractLsb' 4 2)) s)
        else .error .undefinedModifier
    else .error .reservedField

/-- Every ordering. -/
def anyOrder (_ : MemOrder) : Bool := true

/-! ### The opcode map (R107), range by range -/

/-- 0x01 to 0x2F: two-target arithmetic, logic, compare and bit operations (R124). -/
def decodeArith (op : Nat) (w : Word32) : Except Reject Instr :=
  match op with
  | 0x01 => decT2 w .add
  | 0x02 => decT2 w .sub
  | 0x03 => decT2 w .mul
  | 0x04 => decT2x w fun p x b a =>
      match x.toNat with
      | 0 => .ok (.mulhS p b a)
      | 1 => .ok (.mulhU p b a)
      | 2 => .ok (.mulhSu p b a)
      | _ => .error .undefinedModifier
  | 0x05 => decT2x w fun p x b a =>
      match x.toNat with
      | 0 => .ok (.divS p b a)
      | 1 => .ok (.divU p b a)
      | _ => .error .undefinedModifier
  | 0x06 => decT2x w fun p x b a =>
      match x.toNat with
      | 0 => .ok (.remS p b a)
      | 1 => .ok (.remU p b a)
      | _ => .error .undefinedModifier
  | 0x07 => decT2x w fun p x b a =>
      match x.toNat with
      | 0 => .ok (.minS p b a)
      | 1 => .ok (.minU p b a)
      | _ => .error .undefinedModifier
  | 0x08 => decT2x w fun p x b a =>
      match x.toNat with
      | 0 => .ok (.maxS p b a)
      | 1 => .ok (.maxU p b a)
      | _ => .error .undefinedModifier
  | 0x09 => decT2 w .madd
  | 0x0A => decT2x w fun p x b a => .ok (.addsh p x b a)
  | 0x10 => decT2 w .and
  | 0x11 => decT2 w .or
  | 0x12 => decT2 w .xor
  | 0x13 => decT2 w .andn
  | 0x14 => decT2 w .shl
  | 0x15 => decT2 w .shr
  | 0x16 => decT2 w .sar
  | 0x18 => decT2x w fun p x b a => withMod (Cond.ofCode x) fun c => .ok (.cmp p c b a)
  | 0x19 => decT2x w fun p x b a =>
      match x.toNat with
      | 0 => .ok (.tstZ p b a)
      | 1 => .ok (.tstNz p b a)
      | _ => .error .undefinedModifier
  | 0x1A => decT2 w .sel
  | 0x20 => decT2 w .clz
  | 0x21 => decT2 w .ctz
  | 0x22 => decT2 w .popc
  | 0x23 => decT2x w fun p x b a =>
      match x.toNat with
      | 0 => .ok (.bfxZ p b a)
      | 1 => .ok (.bfxS p b a)
      | _ => .error .undefinedModifier
  | 0x24 => decT2 w .bfi
  | 0x25 => decT2x w fun p x b a => withMod (ExtKind.ofCode x) fun k => .ok (.ext p k b a)
  | _ => .error .unassigned

/-- A shift count: IMM13[12:6] zero (R129). -/
def decShift (w : Word32) (k : Pred → BitVec 6 → Target → Instr) : Except Reject Instr :=
  decT1I w fun p i t => if i.extractLsb' 6 7 = 0 then .ok (k p (i.extractLsb' 0 6) t) else .error .reservedField

/-- 0x30 to 0x3F: immediate forms (R129). -/
def decodeImm (op : Nat) (w : Word32) : Except Reject Instr :=
  match op with
  | 0x30 => decT1I w fun p i t => .ok (.addi p i t)
  | 0x31 => decT1I w fun p i t => .ok (.muli p i t)
  | 0x32 => decT1I w fun p i t => .ok (.andi p i t)
  | 0x33 => decT1I w fun p i t => .ok (.ori p i t)
  | 0x34 => decT1I w fun p i t => .ok (.xori p i t)
  | 0x35 => decShift w .shli
  | 0x36 => decShift w .shri
  | 0x37 => decShift w .sari
  | 0x38 => decT1I w fun p i t => .ok (.cmpiEq p i t)
  | 0x39 => decT1I w fun p i t => .ok (.cmpiNe p i t)
  | 0x3A => decT1I w fun p i t => .ok (.cmpiLt p i t)
  | 0x3B => decT1I w fun p i t => .ok (.cmpiGe p i t)
  | 0x3C => decT1I w fun p i t => .ok (.cmpiLtu p i t)
  | 0x3D => decT1I w fun p i t => .ok (.cmpiGeu p i t)
  | _ => .error .unassigned

/-- 0x40 to 0x5F: loads, stores, fences (R132 to R134, R140, R141). -/
def decodeMem (op : Nat) (w : Word32) : Except Reject Instr :=
  match op with
  | 0x40 => decT1I w fun p i t => .ok (.ldZ8 p i t)
  | 0x41 => decT1I w fun p i t => .ok (.ldS8 p i t)
  | 0x42 => decT1I w fun p i t => .ok (.ldZ16 p i t)
  | 0x43 => decT1I w fun p i t => .ok (.ldS16 p i t)
  | 0x44 => decT1I w fun p i t => .ok (.ldZ32 p i t)
  | 0x45 => decT1I w fun p i t => .ok (.ldS32 p i t)
  | 0x46 => decT1I w fun p i t => .ok (.ld64 p i t)
  | 0x47 => decT2x w fun p x b a => withMod (LoadKind.ofCode x) fun k => .ok (.ldx p k b a)
  | 0x48 => decT2x w fun p x b a => withMod (Scope.ofCode x) fun s => .ok (.ldAcqZ32 p s b a)
  | 0x49 => decT2x w fun p x b a => withMod (Scope.ofCode x) fun s => .ok (.ldAcq64 p s b a)
  | 0x4A => decT2x w fun p x b a => withMod (LoadKind.ofCode x) fun k => .ok (.ldl p k b a)
  | 0x50 => decS w fun p i => .ok (.st p (Size.ofCode (i.extractLsb' 20 2)) (i.extractLsb' 0 20))
  | 0x51 => decS w fun p i =>
      if i.extractLsb' 0 20 = 0 then .ok (.stx p (Size.ofCode (i.extractLsb' 20 2))) else .error .reservedField
  | 0x52 => decS w fun p i =>
      if i.extractLsb' 0 16 = 0 then
        withMod (Scope.ofCode (i.extractLsb' 16 4)) fun s => .ok (.stRel p (Size.ofCode (i.extractLsb' 20 2)) s)
      else .error .reservedField
  | 0x53 => decS w fun p i =>
      if i.extractLsb' 0 20 = 0 then .ok (.stl p (Size.ofCode (i.extractLsb' 20 2))) else .error .reservedField
  | 0x58 => decS w fun p i =>
      if i.extractLsb' 0 16 = 0 then
        withMod (Scope.ofCode (i.extractLsb' 16 4)) fun s =>
          match (i.extractLsb' 20 2).toNat with
          | 0 => .ok (.fenceAcq p s)
          | 1 => .ok (.fenceRel p s)
          | 2 => .ok (.fenceAr p s)
          | _ => .error .undefinedModifier
      else .error .reservedField
  | _ => .error .unassigned

/-- 0x60 to 0x6F: exits (R142). -/
def decodeExit (op : Nat) (w : Word32) : Except Reject Instr :=
  match op with
  | 0x60 => decS w fun p i => .ok (.br p i)
  | 0x61 => decS0 w .brn
  | 0x62 => decS0 w .bri
  | 0x63 => decS w fun p i => .ok (.call p i)
  | 0x64 => decS0 w .calli
  | 0x65 => decS0 w .ret
  | 0x66 => decS w fun p i => .ok (.brcT p i)
  | 0x67 => decS w fun p i => .ok (.brcF p i)
  | _ => .error .unassigned

/-- 0x70 to 0x7F: moves and constants (R102, R103, R130). -/
def decodeMove (op : Nat) (w : Word32) : Except Reject Instr :=
  match op with
  | 0x70 => .ok (.get (regOf w) (tgtBOf w) (tgtAOf w))
  | 0x71 =>
      match LitCount.ofCode (regOf w) with
      | some c => .ok (.lit c (tgtBOf w) (tgtAOf w))
      | none => .error .badLitCount
  | 0x72 => decT2 w .mov
  | 0x73 => decT1I w fun p i t => .ok (.movi p i t)
  | 0x74 => decT2 w .null
  | 0x75 => decT1I w fun p i t => .ok (.adr p i t)
  | _ => .error .unassigned

/-- 0x80 to 0x9F: fabric commands (R150), matrix element (R306), handles and ports (R216). -/
def decodeFabric (op : Nat) (w : Word32) : Except Reject Instr :=
  match op with
  | 0x80 => decS0 w .strmGo
  | 0x81 => decS w fun p i =>
      if i.extractLsb' 9 13 = 0 then
        match (i.extractLsb' 3 3).toNat with
        | 0 => if i.extractLsb' 6 3 = 0 then .ok (.strmPushData p (i.extractLsb' 0 3)) else .error .reservedField
        | 1 => .ok (.strmPushStop p (i.extractLsb' 6 3) (i.extractLsb' 0 3))
        | 2 => if i.extractLsb' 6 3 = 0 then .ok (.strmPushDone p (i.extractLsb' 0 3)) else .error .reservedField
        | 3 => if i.extractLsb' 6 3 = 0 then .ok (.strmPushIndex p (i.extractLsb' 0 3)) else .error .reservedField
        | _ => .error .undefinedModifier
      else .error .reservedField
  | 0x82 => decT2x w fun p x b a =>
      if x.extractLsb' 3 1 = 0 then .ok (.strmPop p (x.extractLsb' 0 3) b a) else .error .reservedField
  | 0x83 => decS w fun p i =>
      if i.extractLsb' 17 5 = 0 then
        .ok (.argSet p (i.extractLsb' 15 2) (i.extractLsb' 8 7) (i.extractLsb' 0 8))
      else .error .reservedField
  | 0x84 => decS w fun p i =>
      if i.extractLsb' 2 20 = 0 then .ok (.ctxSw p (i.extractLsb' 0 2)) else .error .reservedField
  | 0x85 => decS0 w .drain
  | 0x86 => decS0 w .strmWait
  | 0x90 => decT1 w .mxClaim
  | 0x91 => decS0 w .mxRel
  | 0x92 => decS0 w .mxScale
  | 0x93 => decT2x w fun p x b a =>
      if b = 0 then withMod (StatForm.ofCode x) fun f => .ok (.mxStat p f a) else .error .reservedField
  | 0x98 => decT1 w .hndNew
  | 0x99 => decS0 w .hndGive
  | 0x9A => decT1 w .hndTake
  | 0x9B => decS0 w .hndDrop
  | 0x9C => decT2 w .hndInfo
  | 0x9D => decS w fun p i =>
      if i.extractLsb' 2 20 = 0 then
        withMod (Resume.ofCode (i.extractLsb' 0 2)) fun r => .ok (.portRes p r)
      else .error .reservedField
  | _ => .error .unassigned

/-- 0xA0 to 0xBF: groups (R160), copy engine (R342). -/
def decodeGroup (op : Nat) (w : Word32) : Except Reject Instr :=
  match op with
  | 0xA0 => decT1 w .grpNew
  | 0xA1 => decT1 w .grpJoin
  | 0xA2 => decS0 w .grpLeave
  | 0xA3 => decS0 w .grpFree
  | 0xA4 => decOrd w 0 anyOrder .grpBar
  | 0xA5 => decOrd w 0 MemOrder.isRelaxedOrRelease .grpMark
  | 0xA6 =>
      if bitAt w 6 then decOrd w 1 MemOrder.isRelaxedOrAcquire .waitBitAll
      else decOrd w 0 MemOrder.isRelaxedOrAcquire .waitBit
  | 0xA7 => decS w fun p i =>
      if i.extractLsb' 9 13 = 0 then
        if i.extractLsb' 8 1 = 1 ∨ i.extractLsb' 0 8 ≠ 0 then
          .ok (.waitTok p (decide (i.extractLsb' 8 1 = 1)) (i.extractLsb' 0 8))
        else .error .undefinedModifier
      else .error .reservedField
  | 0xB0 => decT1 w .cpOpen
  | 0xB1 => decS0 w .cpClose
  | 0xB2 => decS0 w .cpPush
  | 0xB3 => decS w fun p i =>
      if i.extractLsb' 2 20 = 0 then
        withMod (Resume.ofCode (i.extractLsb' 0 2)) fun r => .ok (.cpRes p r)
      else .error .reservedField
  | 0xB8 => decS0 w .cpBinit
  | 0xB9 => decOrd w 0 MemOrder.isRelaxedOrRelease .cpBarv
  | 0xBA => decOrd w 0 MemOrder.isRelaxedOrAcquire .cpBwait
  | _ => .error .unassigned

/-- ATOM of one ordering: X4 is the scope (R362). -/
def decAtom (w : Word32) (k : Pred → Scope → Target → Target → Instr) : Except Reject Instr :=
  decT2x w fun p x b a => withMod (Scope.ofCode x) fun s => .ok (k p s b a)

/-- 0xC0 to 0xDF: synchronisation engine (R362), tasks (R446). -/
def decodeSync (op : Nat) (w : Word32) : Except Reject Instr :=
  match op with
  | 0xC0 => decAtom w .atomRlx
  | 0xC1 => decAtom w .atomAcq
  | 0xC2 => decAtom w .atomRel
  | 0xC3 => decAtom w .atomAr
  | 0xC4 => decAtom w (.cas .rlx)
  | 0xC5 => decAtom w (.cas .acq)
  | 0xC6 => decAtom w (.cas .rel)
  | 0xC7 => decAtom w (.cas .ar)
  | 0xC8 => decS w fun p i =>
      if i.extractLsb' 12 10 = 0 then
        withMod (AtomOp.ofCode (i.extractLsb' 6 4)) fun f =>
          withMod (Scope.ofCode (i.extractLsb' 0 4)) fun s =>
            if redFormOk (Size.ofCode (i.extractLsb' 10 2)) f = true
                ∧ (MemOrder.ofCode (i.extractLsb' 4 2)).isRelaxedOrRelease = true then
              .ok (.red p (Size.ofCode (i.extractLsb' 10 2)) f (MemOrder.ofCode (i.extractLsb' 4 2)) s)
            else .error .undefinedModifier
      else .error .reservedField
  | 0xC9 => decOrd w 0 MemOrder.isRelaxedOrRelease .cntInit
  | 0xCA => decOrd w 0 MemOrder.isRelaxedOrRelease .cntDec
  | 0xCB => decOrd w 0 MemOrder.isRelaxedOrAcquire .cntWait
  | 0xCC => decS0 w .cntFree
  | 0xD0 => decT2x w fun p x b a =>
      if x.extractLsb' 1 3 = 0 ∧ b = 0 then .ok (.taskPut p (decide (x.extractLsb' 0 1 = 1)) a)
      else .error .reservedField
  | 0xD1 => decT1 w .taskSdef
  | 0xD2 => decT1 w .taskReg
  | 0xD3 => decS0 w .taskUnreg
  | 0xD4 => decT1 w .taskInfo
  | _ => .error .unassigned

/-- A CODE in IMM22[15:0] (R170). -/
def decCode (w : Word32) (k : Pred → BitVec 16 → Instr) : Except Reject Instr :=
  decS w fun p i => if i.extractLsb' 16 6 = 0 then .ok (k p (i.extractLsb' 0 16)) else .error .reservedField

/-- 0xE0 to 0xFF: placer and lease (R414), system (R170). -/
def decodeSystem (op : Nat) (w : Word32) : Except Reject Instr :=
  match op with
  | 0xE0 => decT1 w .plReq
  | 0xE1 => decS0 w .leaseRel
  | 0xF0 => decCode w .trap
  | 0xF1 => decS0 w .eret
  | 0xF2 => decT1I w fun p i t =>
      if i.extractLsb' 12 1 = 0 then
        withMod (SysReg.ofCode (i.extractLsb' 0 12)) fun r => .ok (.sysrd p r t)
      else .error .reservedField
  | 0xF3 => decS w fun p i =>
      if i.extractLsb' 12 10 = 0 then
        withMod (SysReg.ofCode (i.extractLsb' 0 12)) fun r =>
          if r.writable then .ok (.syswr p r) else .error .undefinedModifier
      else .error .reservedField
  | 0xF4 => decT1I w fun p i t =>
      if i.extractLsb' 2 11 = 0 then .ok (.feat p (i.extractLsb' 0 2) t) else .error .reservedField
  | 0xF5 => decS0 w .halt
  | 0xF6 => decT2x w fun p x b a => if x = 0 ∧ b = 0 ∧ a = 0 then .ok (.nop p) else .error .reservedField
  | 0xF7 => decCode w .bkpt
  | 0xF8 => decS0 w .yield
  | _ => .error .unassigned

/-- The instruction a word stands for, or why it stands for none (R107, R108). -/
def decodeWord (w : Word32) : Except Reject Instr :=
  match (opOf w).toNat / 16 with
  | 0x0 => decodeArith (opOf w).toNat w
  | 0x1 => decodeArith (opOf w).toNat w
  | 0x2 => decodeArith (opOf w).toNat w
  | 0x3 => decodeImm (opOf w).toNat w
  | 0x4 => decodeMem (opOf w).toNat w
  | 0x5 => decodeMem (opOf w).toNat w
  | 0x6 => decodeExit (opOf w).toNat w
  | 0x7 => decodeMove (opOf w).toNat w
  | 0x8 => decodeFabric (opOf w).toNat w
  | 0x9 => decodeFabric (opOf w).toNat w
  | 0xA => decodeGroup (opOf w).toNat w
  | 0xB => decodeGroup (opOf w).toNat w
  | 0xC => decodeSync (opOf w).toNat w
  | 0xD => decodeSync (opOf w).toNat w
  | 0xE => decodeSystem (opOf w).toNat w
  | 0xF => decodeSystem (opOf w).toNat w
  | _ => .error .unassigned

/-- The instruction at the head of a list of bytes, least significant byte first (R7), with the bytes after it. -/
def decode : List Byte → Except Reject (Instr × List Byte)
  | b0 :: b1 :: b2 :: b3 :: rest =>
    match decodeWord (b3 ++ b2 ++ b1 ++ b0 : BitVec 32) with
    | .ok i => .ok (i, rest)
    | .error e => .error e
  | _ => .error .truncated

/-! ### The encoder -/

def encT2 (op : BitVec 8) (p : Pred) (x : BitVec 4) (b a : Target) : Word32 := (op ++ p.code ++ x ++ b ++ a : BitVec 32)
def encT1I (op : BitVec 8) (p : Pred) (i : BitVec 13) (t : Target) : Word32 := (op ++ p.code ++ i ++ t : BitVec 32)
def encS (op : BitVec 8) (p : Pred) (i : BitVec 22) : Word32 := (op ++ p.code ++ i : BitVec 32)
def encG (op : BitVec 8) (r : BitVec 6) (b a : Target) : Word32 := (op ++ r ++ b ++ a : BitVec 32)
/-- IMM22 with SCOPE in [3:0], ORD in [5:4] and `hi` above (R160). -/
def ordImm (hi : BitVec 16) (o : MemOrder) (s : Scope) : BitVec 22 := (hi ++ o.code ++ s.code : BitVec 22)

/-- The word of an instruction; none for a step of the device, which has no encoding. -/
def encode : Instr → Option Word32
  | .add p b a => some (encT2 0x01 p 0 b a)
  | .sub p b a => some (encT2 0x02 p 0 b a)
  | .mul p b a => some (encT2 0x03 p 0 b a)
  | .mulhS p b a => some (encT2 0x04 p 0 b a)
  | .mulhU p b a => some (encT2 0x04 p 1 b a)
  | .mulhSu p b a => some (encT2 0x04 p 2 b a)
  | .divS p b a => some (encT2 0x05 p 0 b a)
  | .divU p b a => some (encT2 0x05 p 1 b a)
  | .remS p b a => some (encT2 0x06 p 0 b a)
  | .remU p b a => some (encT2 0x06 p 1 b a)
  | .minS p b a => some (encT2 0x07 p 0 b a)
  | .minU p b a => some (encT2 0x07 p 1 b a)
  | .maxS p b a => some (encT2 0x08 p 0 b a)
  | .maxU p b a => some (encT2 0x08 p 1 b a)
  | .madd p b a => some (encT2 0x09 p 0 b a)
  | .addsh p n b a => some (encT2 0x0A p n b a)
  | .and p b a => some (encT2 0x10 p 0 b a)
  | .or p b a => some (encT2 0x11 p 0 b a)
  | .xor p b a => some (encT2 0x12 p 0 b a)
  | .andn p b a => some (encT2 0x13 p 0 b a)
  | .shl p b a => some (encT2 0x14 p 0 b a)
  | .shr p b a => some (encT2 0x15 p 0 b a)
  | .sar p b a => some (encT2 0x16 p 0 b a)
  | .cmp p c b a => some (encT2 0x18 p c.code b a)
  | .tstZ p b a => some (encT2 0x19 p 0 b a)
  | .tstNz p b a => some (encT2 0x19 p 1 b a)
  | .sel p b a => some (encT2 0x1A p 0 b a)
  | .clz p b a => some (encT2 0x20 p 0 b a)
  | .ctz p b a => some (encT2 0x21 p 0 b a)
  | .popc p b a => some (encT2 0x22 p 0 b a)
  | .bfxZ p b a => some (encT2 0x23 p 0 b a)
  | .bfxS p b a => some (encT2 0x23 p 1 b a)
  | .bfi p b a => some (encT2 0x24 p 0 b a)
  | .ext p k b a => some (encT2 0x25 p k.code b a)
  | .addi p i t => some (encT1I 0x30 p i t)
  | .muli p i t => some (encT1I 0x31 p i t)
  | .andi p i t => some (encT1I 0x32 p i t)
  | .ori p i t => some (encT1I 0x33 p i t)
  | .xori p i t => some (encT1I 0x34 p i t)
  | .shli p n t => some (encT1I 0x35 p (0#7 ++ n : BitVec 13) t)
  | .shri p n t => some (encT1I 0x36 p (0#7 ++ n : BitVec 13) t)
  | .sari p n t => some (encT1I 0x37 p (0#7 ++ n : BitVec 13) t)
  | .cmpiEq p i t => some (encT1I 0x38 p i t)
  | .cmpiNe p i t => some (encT1I 0x39 p i t)
  | .cmpiLt p i t => some (encT1I 0x3A p i t)
  | .cmpiGe p i t => some (encT1I 0x3B p i t)
  | .cmpiLtu p i t => some (encT1I 0x3C p i t)
  | .cmpiGeu p i t => some (encT1I 0x3D p i t)
  | .get r b a => some (encG 0x70 r b a)
  | .lit c b a => some (encG 0x71 c.code b a)
  | .mov p b a => some (encT2 0x72 p 0 b a)
  | .movi p i t => some (encT1I 0x73 p i t)
  | .null p b a => some (encT2 0x74 p 0 b a)
  | .adr p i t => some (encT1I 0x75 p i t)
  | .ldZ8 p i t => some (encT1I 0x40 p i t)
  | .ldS8 p i t => some (encT1I 0x41 p i t)
  | .ldZ16 p i t => some (encT1I 0x42 p i t)
  | .ldS16 p i t => some (encT1I 0x43 p i t)
  | .ldZ32 p i t => some (encT1I 0x44 p i t)
  | .ldS32 p i t => some (encT1I 0x45 p i t)
  | .ld64 p i t => some (encT1I 0x46 p i t)
  | .ldx p k b a => some (encT2 0x47 p k.code b a)
  | .ldAcqZ32 p s b a => some (encT2 0x48 p s.code b a)
  | .ldAcq64 p s b a => some (encT2 0x49 p s.code b a)
  | .ldl p k b a => some (encT2 0x4A p k.code b a)
  | .st p z o => some (encS 0x50 p (z.code ++ o : BitVec 22))
  | .stx p z => some (encS 0x51 p (z.code ++ 0#20 : BitVec 22))
  | .stRel p z s => some (encS 0x52 p (z.code ++ s.code ++ 0#16 : BitVec 22))
  | .stl p z => some (encS 0x53 p (z.code ++ 0#20 : BitVec 22))
  | .fenceAcq p s => some (encS 0x58 p (0#2 ++ s.code ++ 0#16 : BitVec 22))
  | .fenceRel p s => some (encS 0x58 p (1#2 ++ s.code ++ 0#16 : BitVec 22))
  | .fenceAr p s => some (encS 0x58 p (2#2 ++ s.code ++ 0#16 : BitVec 22))
  | .br p o => some (encS 0x60 p o)
  | .brn p => some (encS 0x61 p 0)
  | .bri p => some (encS 0x62 p 0)
  | .call p o => some (encS 0x63 p o)
  | .calli p => some (encS 0x64 p 0)
  | .ret p => some (encS 0x65 p 0)
  | .brcT p o => some (encS 0x66 p o)
  | .brcF p o => some (encS 0x67 p o)
  | .strmGo p => some (encS 0x80 p 0)
  | .strmPushData p c => some (encS 0x81 p (0#16 ++ 0#3 ++ c : BitVec 22))
  | .strmPushIndex p c => some (encS 0x81 p (0#16 ++ 3#3 ++ c : BitVec 22))
  | .strmPushStop p l c => some (encS 0x81 p (0#13 ++ l ++ 1#3 ++ c : BitVec 22))
  | .strmPushDone p c => some (encS 0x81 p (0#16 ++ 2#3 ++ c : BitVec 22))
  | .strmPop p c b a => some (encT2 0x82 p (0#1 ++ c : BitVec 4) b a)
  | .argSet p n y x => some (encS 0x83 p (0#5 ++ n ++ y ++ x : BitVec 22))
  | .ctxSw p n => some (encS 0x84 p (0#20 ++ n : BitVec 22))
  | .drain p => some (encS 0x85 p 0)
  | .strmWait p => some (encS 0x86 p 0)
  | .mxClaim p a => some (encT2 0x90 p 0 0 a)
  | .mxRel p => some (encS 0x91 p 0)
  | .mxScale p => some (encS 0x92 p 0)
  | .mxStat p f a => some (encT2 0x93 p f.code 0 a)
  | .hndNew p a => some (encT2 0x98 p 0 0 a)
  | .hndGive p => some (encS 0x99 p 0)
  | .hndTake p a => some (encT2 0x9A p 0 0 a)
  | .hndDrop p => some (encS 0x9B p 0)
  | .hndInfo p b a => some (encT2 0x9C p 0 b a)
  | .portRes p r => some (encS 0x9D p (0#20 ++ r.code : BitVec 22))
  | .grpNew p a => some (encT2 0xA0 p 0 0 a)
  | .grpJoin p a => some (encT2 0xA1 p 0 0 a)
  | .grpLeave p => some (encS 0xA2 p 0)
  | .grpFree p => some (encS 0xA3 p 0)
  | .grpBar p o s => some (encS 0xA4 p (ordImm 0 o s))
  | .grpMark p o s => some (encS 0xA5 p (ordImm 0 o s))
  | .waitBit p o s => some (encS 0xA6 p (ordImm 0 o s))
  | .waitBitAll p o s => some (encS 0xA6 p (ordImm 1 o s))
  | .waitTok p t m => some (encS 0xA7 p (0#13 ++ BitVec.ofBool t ++ m : BitVec 22))
  | .cpOpen p a => some (encT2 0xB0 p 0 0 a)
  | .cpClose p => some (encS 0xB1 p 0)
  | .cpPush p => some (encS 0xB2 p 0)
  | .cpRes p r => some (encS 0xB3 p (0#20 ++ r.code : BitVec 22))
  | .cpBinit p => some (encS 0xB8 p 0)
  | .cpBarv p o s => some (encS 0xB9 p (ordImm 0 o s))
  | .cpBwait p o s => some (encS 0xBA p (ordImm 0 o s))
  | .atomRlx p s b a => some (encT2 0xC0 p s.code b a)
  | .atomAcq p s b a => some (encT2 0xC1 p s.code b a)
  | .atomRel p s b a => some (encT2 0xC2 p s.code b a)
  | .atomAr p s b a => some (encT2 0xC3 p s.code b a)
  | .cas o p s b a => some (encT2 (0x31#6 ++ o.code : BitVec 8) p s.code b a)
  | .red p z f o s => some (encS 0xC8 p (0#10 ++ z.code ++ f.code ++ o.code ++ s.code : BitVec 22))
  | .cntInit p o s => some (encS 0xC9 p (ordImm 0 o s))
  | .cntDec p o s => some (encS 0xCA p (ordImm 0 o s))
  | .cntWait p o s => some (encS 0xCB p (ordImm 0 o s))
  | .cntFree p => some (encS 0xCC p 0)
  | .taskPut p l a => some (encT2 0xD0 p (0#3 ++ BitVec.ofBool l : BitVec 4) 0 a)
  | .taskSdef p a => some (encT2 0xD1 p 0 0 a)
  | .taskReg p a => some (encT2 0xD2 p 0 0 a)
  | .taskUnreg p => some (encS 0xD3 p 0)
  | .taskInfo p a => some (encT2 0xD4 p 0 0 a)
  | .plReq p a => some (encT2 0xE0 p 0 0 a)
  | .leaseRel p => some (encS 0xE1 p 0)
  | .trap p c => some (encS 0xF0 p (0#6 ++ c : BitVec 22))
  | .eret p => some (encS 0xF1 p 0)
  | .sysrd p r t => some (encT1I 0xF2 p (0#1 ++ r.code : BitVec 13) t)
  | .syswr p r => some (encS 0xF3 p (0#10 ++ r.code : BitVec 22))
  | .feat p w t => some (encT1I 0xF4 p (0#11 ++ w : BitVec 13) t)
  | .halt p => some (encS 0xF5 p 0)
  | .nop p => some (encT2 0xF6 p 0 0 0)
  | .bkpt p c => some (encS 0xF7 p (0#6 ++ c : BitVec 22))
  | .yield p => some (encS 0xF8 p 0)
  | _ => none

/-! ### The host's view of the decoder -/

/-- The word as it lies in memory, least significant byte first (R7), given to the decoder. -/
def decodeTableWord (_nbits w : Nat) : Option Instr :=
  match decode (leBytes 4 w) with
  | .ok (i, _) => some i
  | .error _ => none

end Sys2Proof
end

