-- ==== Sys2Proof/Machine/Table.lean ====
section
/-!
DEFINITION. Sparse tables in one canonical form: keys strictly rising, and no entry equal to what an unlisted key reads as.
Memory (R43 to R46), register files (R121), storage of scratch banks (R213) and every other indexed store of the model are
such tables, so that equal contents are equal data.
-/
namespace Sys2Proof.Machine

/-- A list of keys with values. -/
abbrev Tbl (α : Type) := List (Nat × α)

/-- The value at a key; `d` where the key is not listed. -/
def Tbl.get {α : Type} (d : α) : Tbl α → Nat → α
  | [], _ => d
  | (k, v) :: t, n => if n = k then v else Tbl.get d t n

/-- The value at a key, when it is listed. -/
def Tbl.find {α : Type} : Tbl α → Nat → Option α
  | [], _ => none
  | (k, v) :: t, n => if n = k then some v else Tbl.find t n

/-- The table without the entries of a key. -/
def Tbl.del {α : Type} : Tbl α → Nat → Tbl α
  | [], _ => []
  | (k, v) :: t, n => if n = k then Tbl.del t n else (k, v) :: Tbl.del t n

/-- The table with an entry put before the first larger key. -/
def Tbl.ins {α : Type} : Tbl α → Nat → α → Tbl α
  | [], n, x => [(n, x)]
  | (k, v) :: t, n, x => if n < k then (n, x) :: (k, v) :: t else (k, v) :: Tbl.ins t n x

/-- The table with a value at a key. -/
def Tbl.put {α : Type} (t : Tbl α) (n : Nat) (x : α) : Tbl α := (t.del n).ins n x

/-- The table with a value at a key, unlisted when it is the value an unlisted key reads as. -/
def Tbl.set {α : Type} [DecidableEq α] (d : α) (t : Tbl α) (n : Nat) (x : α) : Tbl α :=
  if x = d then t.del n else t.put n x

/-- The table with the value at a listed key changed. -/
def Tbl.upd {α : Type} : Tbl α → Nat → (α → α) → Tbl α
  | [], _, _ => []
  | (k, v) :: t, n, f => if n = k then (k, f v) :: Tbl.upd t n f else (k, v) :: Tbl.upd t n f

/-- The value at a key changed, with `d` for an unlisted key. -/
def Tbl.modify {α : Type} (d : α) (t : Tbl α) (n : Nat) (f : α → α) : Tbl α := t.put n (f (t.get d n))

/-- The keys that are listed. -/
def Tbl.keys {α : Type} (t : Tbl α) : List Nat := t.map Prod.fst

/-- The keys rise strictly from above `lo`, and no value is `d`. -/
def Tbl.wfFrom {α : Type} [DecidableEq α] (d : α) : Nat → Tbl α → Bool
  | _, [] => true
  | lo, (k, v) :: t => decide (lo ≤ k) && decide (v ≠ d) && Tbl.wfFrom d (k + 1) t

/-- The canonical form. -/
def Tbl.wf {α : Type} [DecidableEq α] (d : α) (t : Tbl α) : Bool := Tbl.wfFrom d 0 t

end Sys2Proof.Machine
end

