-- ==== Sys2Proof/Machine/Parts.lean ====
section
/-!
DEFINITION. The parts of the state that belong to a control thread (R82 to R98, R121, R147 to R187): the block in
execution, the commands that wait for a reply, the stores that have left but are not performed, the system registers.
-/
namespace Sys2Proof.Machine

/-- Four registers of 64 bits that go together: GMEM0 to GMEM3, TINFO0 to TINFO3 (R178), PR0 to PR3 (R339). -/
structure Quad where
  w0 : Word := 0
  w1 : Word := 0
  w2 : Word := 0
  w3 : Word := 0
deriving DecidableEq, Repr

/-- An operand or predicate input of a slot (R82, R85): how many target fields name it, how many of them have delivered
NULL, and the value that arrived. -/
structure Operand where
  feeders : Nat := 0
  nulls   : Nat := 0
  val     : Option Word := none
deriving DecidableEq, Repr

/-- Where a slot stands (R82, R86, R88): not yet fired; fired with its result to come; completed; predicated off. -/
inductive Phase where
  | idle
  | fired
  | done
  | off
deriving DecidableEq, Repr

/-- A load of a slot whose reply is outstanding: its virtual and physical address, the clock at which it was issued, and
whether MEMTIMEOUT has been posted for it (R442, R452). -/
structure LoadSt where
  va : Word
  pa : Nat
  issued : Nat
  reported : Bool := false
deriving DecidableEq, Repr

/-- A slot of the block in execution: the word after patching (R106), and whether it is a literal slot (R79). -/
structure Slot where
  word  : Word32
  lit   : Bool := false
  a : Operand := {}
  b : Operand := {}
  c : Operand := {}
  p : Operand := {}
  phase : Phase := .idle
  load  : Option LoadSt := none
deriving DecidableEq, Repr

/-- The exit that a block has taken (R142, R172, R173, R175). -/
inductive Exit where
  | jump (target : Word)
  | call (target : Word)
  | ret
  | trap (slot : Nat) (code : BitVec 16)
  | eret
  | halt
deriving DecidableEq, Repr

/-- What a reply does besides writing its registers: nothing, also for an atomic, whose address is kept (R442); GRP.NEW and GRP.JOIN place a handle in GMEM (R162, R163); a pending
HND.TAKE counts as holding its handle (R218). -/
inductive ReplyKind where
  | plain
  | atom (va : Word)
  | take (h : Word)
  | grpNew
  | grpJoin
deriving DecidableEq, Repr

/-- What a fired instruction of class M or D does at commit (R89, R93). `delay` is the number of clocks after commit at
which an engine may take the command; commands of one `lane` other than 0 are taken in the order issued. -/
inductive Effect where
  | store (r : MemReq) (release : Bool)
  | fenceRel
  | fenceAr
  | fenceAcq
  | stl (site entry : Nat) (off : Word) (size : Nat) (v : Word)
  | outOfRange (loob : Word)
  | push (ch : Nat) (t : Token)
  | pop (pid ch : Nat) (ta tb : Target)
  | go
  | argSet (site ctx : Nat) (k : BitVec 32) (delay : Nat)
  | wait (w : Wait)
  | issue (lane : Nat) (release : Bool) (delay : Nat) (act : Instr)
  | defer (kind : ReplyKind) (pid : Nat) (ta tb : Target) (acquire : Bool) (lane : Nat) (release : Bool) (delay : Nat) (act : Instr)
  | leave (h : Word) (delay : Nat)
  | portRes (site : Nat) (act : Resume)
  | cpOpen (pid : Nat) (ta : Target) (bind : Word)
  | cpClose (h : Word)
  | cpPush (h head : Word)
  | cpRes (h : Word) (act : Resume)
  | plReq (pid : Nat) (ta : Target) (block : Word)
  | leaseRel
  | syswr (r : SysReg) (v : Word)
  | yield
deriving DecidableEq, Repr

/-- The block in execution (R79 to R93): its address and header, its slots after patching, the system registers as they
stood when it began (R90), the register writes delivered, the effects and the exit recorded, and how many slots have fired
in which clock (R86). `seq` tells its results from those of a discarded block; `clash` is the lowest slot at which OPCLASH
arose in this clock (R85, R95). -/
structure Block where
  addr    : Word
  header  : Word32
  seq     : Nat
  begun   : Bool
  slots   : List Slot
  sys     : Tbl Word
  writes  : List (Nat × Nat × Option Word)
  effects : List (Nat × Effect)
  exit    : Option Exit
  clock   : Nat
  fires   : Nat
  clash   : Option Nat
deriving DecidableEq, Repr

/-- A wait of a thread (R97), numbered so that an engine's completion finds it; `done` once its event has come (R40). -/
structure WaitSt where
  id   : Nat
  wait : Wait
  done : Bool
deriving DecidableEq, Repr

/-- A CTX.SW (to a context) or DRAIN that has committed and is not complete (R155, R156): its wait's number, and whether its tokens are
appended. -/
structure PhaseOp where
  sw : Option Nat
  id : Nat
  appended : Bool
deriving DecidableEq, Repr

/-- A class D command between commit and the writing of its registers (R94), with the clock of its commit, whether MEMTIMEOUT has
been posted for it (R442), and its number in program order, by which an acquire holds later accesses (R73). -/
structure PendingCmd where
  pid : Nat
  ord : Nat := 0
  ta  : Target
  tb  : Target
  acquire : Bool
  kind : ReplyKind
  reply : Option (Word × Word)
  since : Nat := 0
  reported : Bool := false
deriving DecidableEq, Repr

/-- A committed store or engine command that is not yet performed (R93, R136): `act` is performed once its clock has come,
every conflicting earlier entry has been, every entry numbered below `after` has been, and every store to a replicated page numbered
below `seen` has been applied everywhere (R71, R72, R78). `sent` tells that it has left the thread: it stands here until it is performed.
`blk` is the number of the block that issued it, plus one. -/
structure StoreEnt where
  id   : Nat
  due  : Nat
  lane : Nat
  after : Nat
  seen : Nat := 0
  sent : Bool := false
  blk  : Nat := 0
  pa   : Nat
  len  : Nat
  data : List Byte
  act  : Instr
deriving DecidableEq, Repr

/-- What a thread is doing between and within blocks (R32, R33, R97, R175, R177, R185): about to fetch `pc` from clock
`ready` on; at a block boundary with an asynchronous cause to take first (R186); waiting at an ENTRY block; running or
stalled before its first slot (R94); in a wait; pausing at YIELD until a clock; halted; stopped by a double or unhandled
trap. -/
inductive Mode where
  | fetch (ready : Nat)
  | asyncNext
  | atEntry
  | running
  | waiting
  | pausing (until_ : Nat)
  | halted
  | stopped
deriving DecidableEq, Repr

/-- A control thread (R121, R147, R148, R178, R186). `phaseOps` are the CTX.SWs and DRAINs that are not complete, oldest first;
`savedYield` tells that the saved wait ends in a pause (R177). -/
structure Thread where
  regs   : Tbl Word := []
  ret    : List Word := []
  pc     : Word := 0
  mode   : Mode := .atEntry
  first  : Bool := true
  blk    : Option Block := none
  seq    : Nat := 0
  nextId : Nat := 1
  pend   : List PendingCmd := []
  pops   : List (Nat × Nat) := []
  push   : Tbl (List Token) := []
  pop    : Tbl (List Token) := []
  popOcc : Tbl Nat := []
  asyncQ : List AsyncCause := []
  lost   : Bool := false
  wait   : Option WaitSt := none
  saved  : Option WaitSt := none
  yieldNext : Bool := false
  savedYield : Bool := false
  phaseOps : List PhaseOp := []
  queue  : List StoreEnt := []
  relFence  : Nat := 0
  relSeen   : Nat := 0
  loadAfter : Nat := 0
  gmem   : Quad := {}
  taskpri : BitVec 4 := 0
  parmb  : Word := 0
  parm   : BitVec 2048 := 0
  tvec   : Word := 0
  tcause : Word := 0
  tpc    : Word := 0
  tinfo  : Quad := {}
  inh    : Bool := false
  wres   : Bool := false
  dbg    : Bool := false
  oob    : BitVec 4 := 0
  loob   : Word := 0
  oobSeen : Bool := false
  ctx    : BitVec 2 := 0
  armst  : BitVec 2 := 0
  taskActive : Bool := false
  taskToken  : Option (Word × BitVec 4) := none
  startTask  : Bool := false
deriving DecidableEq, Repr

end Sys2Proof.Machine
end

