-- ==== Sys2Proof/Machine/Elements.lean ====
section
/-!
DEFINITION. The state of each kind of element.
-/
namespace Sys2Proof.Machine

/-- An entry of a bank's handle table (R215): `elem` is HOLDER = 1. -/
structure HndEnt where
  used : Bool := false
  base : Nat := 0
  len  : Nat := 0
  elem : Bool := false
  gen  : Nat := 1
deriving DecidableEq, Repr

/-- An address generator (R227, R228): the latched descriptor, its counters, and whether the sweep is still on. -/
structure AddrGen where
  latched : Bool := false
  active  : Bool := false
  base : Word := 0
  bnd0 : Nat := 1
  bnd1 : Nat := 1
  bnd2 : Nat := 1
  bnd3 : Nat := 1
  str0 : Word := 0
  str1 : Word := 0
  str2 : Word := 0
  str3 : Word := 0
  k0 : Nat := 0
  k1 : Nat := 0
  k2 : Nat := 0
  k3 : Nat := 0
deriving DecidableEq, Repr

/-- The fault record of a frozen port or stream operator (R231, R338): TCAUSE.SUB and TINFO0 to TINFO3. -/
structure PortFault where
  sub  : Byte
  info : Quad
deriving DecidableEq, Repr

/-- An outstanding load of a memory port (R229, R442): whether its reply has come, the tokens it gives, its address and the clock of
issue, and whether MEMTIMEOUT has been posted for it. -/
structure PortLoad where
  back : Bool := false
  toks : List Token
  va   : Word := 0
  issued : Nat := 0
  reported : Bool := false
deriving DecidableEq, Repr

/-- A scratch bank (R212, R213): storage, handle table, generator, the outstanding loads in issue order, the fault record of a frozen
port, and the sub-banks that the thread's LDL and STL have used in the clock before `thAt` (R226). -/
structure SbSt where
  mem   : Tbl Byte := []
  hnd   : Tbl HndEnt := []
  gen   : AddrGen := {}
  loads : List PortLoad := []
  fault : Option PortFault := none
  thAt  : Nat := 0
  thSub : List Nat := []
deriving DecidableEq, Repr

/-- A converter (R248): elements of the head of A already used, codes and scales of the token in assembly with the flags of its
elements, scales of the head of B already used (JOIN), and scales in assembly for Z (SPLIT). -/
structure CxSt where
  pos    : Nat := 0
  out    : List Nat := []
  scales : List Nat := []
  flags  : BitVec 6 := 0
  bpos   : Nat := 0
  zout   : List Nat := []
deriving DecidableEq, Repr

/-- A vector element (R263): the stationary registers, ACC as lane codes of 32 bits (none while EMPTY), the flags of the
accumulation, and the clock until which no further firing starts (R270). -/
structure VeSt where
  sra   : BitVec 1024 := 0
  srl   : BitVec 1024 := 0
  lfull : Bool := false
  acc   : List Nat := []
  partial_ : Bool := false
  accF  : BitVec 6 := 0
  until_ : Nat := 0
deriving DecidableEq, Repr

/-- An operand slot of a matrix element (R286 to R288): its descriptor, the rows it holds with their scales, the first beat of a row
of two, and each present row with the clock from which it is. `relAt` is the clock from which a released slot may be freed. -/
structure MxSlot where
  claimed : Bool := false
  relp    : Bool := false
  relAt   : Nat := 0
  fmt     : Nat := 0
  nrows   : Nat := 0
  copy    : Bool := false
  fill    : Nat := 0
  half    : Option (BitVec 1024) := none
  rows    : Tbl (BitVec 2048) := []
  scales  : Tbl (BitVec 32) := []
  pres    : List (Nat × Nat) := []
deriving DecidableEq, Repr

/-- A tile register (R286, R291 to R293): the format, outlier beats and tile scale latched with the load, and the beats taken, with
their sidebands, in order. -/
structure MxTile where
  fmt   : Nat := 0
  nob   : Nat := 0
  scale : BitVec 32 := 0
  beats : List (BitVec 1024 × BitVec 32) := []
deriving DecidableEq, Repr

/-- An accepted command (R295 to R298): its word, whether it has begun and fallen due, the rows of an MMA that have fired, how many
of them are not yet written, and how many beats of a READ have been emitted. `silent` marks one that sends no completion note. -/
structure MxCmd where
  id     : Nat
  word   : BitVec 64
  begun  : Bool := false
  due    : Bool := false
  silent : Bool := false
  fired  : List Nat := []
  left   : Nat := 0
  beats  : Nat := 0
deriving DecidableEq, Repr

/-- A row of an MMA in flight (R302, R303): its command, where it goes, the rounded sums with their flags, the clock in which it
fired, whether its dense update is written, and the outlier terms still to be applied. -/
structure MxRow where
  cmd   : Nat
  bank  : Nat
  row   : Nat
  ovw   : Bool
  sums  : List Nat
  flags : BitVec 6
  fired : Nat
  dense : Bool := false
  outl  : List (Nat × Val) := []
deriving DecidableEq, Repr

/-- A matrix element (R286). `lfullFrom` is the clock from which LFULL reads 1, `bFrom` the one from which a new load may begin,
`pscalePrev` the pending tile scale before the write of clock `pscaleAt` − 1 (R293); `rowNext` is the clock from which the next
row may fire and `rowPair` tells that it is the second of its clock; `outAt` that from which the side unit may apply entries; the
fields ending in At are one more than the clock of the last beat, command or READ beat. `locks` lists the copy operations on the
accumulator store (R305): a key, the number of the first command that waits for it, and its first and last row. -/
structure MxSt where
  slots  : Tbl MxSlot := []
  fillQ  : List Nat := []
  wa     : MxTile := {}
  wl     : MxTile := {}
  wvalid : Bool := false
  lfull  : Bool := false
  lfullFrom : Nat := 0
  loading : Bool := false
  bFrom  : Nat := 0
  pscale : BitVec 32 := 0x3F800000
  pscalePrev : BitVec 32 := 0x3F800000
  pscaleAt : Nat := 0
  acc    : Tbl Nat := []
  cmds   : List MxCmd := []
  rows   : List MxRow := []
  due    : List Nat := []
  nacc   : BitVec 16 := 0
  ndone  : BitVec 16 := 0
  flags  : BitVec 4 := 0
  rowNext : Nat := 0
  rowPair : Bool := false
  outAt  : Nat := 0
  aAt    : Nat := 0
  bAt    : Nat := 0
  dAt    : Nat := 0
  readAt : Nat := 0
  nextCmd : Nat := 0
  locks  : List (Nat × Nat × Nat × Nat) := []
deriving DecidableEq, Repr

/-- What a stream operator keeps of one input (R323, R339): tokens taken since the phase began, whether the head has been checked,
whether the stream has begun, whether its outermost STOP was the last token, the previous crd of the open fibre, and DONE seen. -/
structure SoIn where
  index   : Nat := 0
  checked : Bool := false
  started : Bool := false
  top     : Bool := false
  prev    : Option Nat := none
  done    : Bool := false
deriving DecidableEq, Repr

/-- Where a stream operator's process stands between two steps (R320): at the head of its loop; after the DATA `t`, number `ix`
of A, whose segment is still to be read; with elements `q` to `hi` − 1 of a fibre still to be emitted, from memory or dense; after
a fibre; before the second take of REPEAT; before the take of a STOP whose fold has been emitted; with tokens still to be emitted
on Y. -/
inductive SoPos where
  | start
  | fetch (t : Token) (ix : Nat)
  | run (t : Token) (ix q hi : Nat)
  | dense (t : Token) (i : Nat)
  | tail
  | second (j : Nat)
  | closing
  | emit (ts : List Token)
deriving DecidableEq, Repr

/-- A read of a stream operator whose value no step has used (R320, R339): its address, its value, the clocks of its issue and from which
the reply is there, and whether MEMTIMEOUT has been posted for it (R442). -/
structure SoRead where
  addr : Word
  val  : Nat
  due  : Nat
  issued : Nat := 0
  reported : Bool := false
deriving DecidableEq, Repr

/-- A stream operator (R339): PR0 to PR3, K as latched, its inputs, the process, SKIP, whether MALF has been raised, and the fault
record. `table` is T of SPACC, `part` the partial beat of BUNDLE; `zeros` lists the addresses whose faults PORT.RES.SKIP has passed
over in this step, `faultVa` the last one; `reads` are its reads, in the order of issue. -/
structure SoSt where
  pr      : Quad := {}
  latched : Bool := false
  k       : Option (BitVec 32) := none
  a       : SoIn := {}
  b       : SoIn := {}
  pos     : SoPos := .start
  acc     : Option Nat := none
  n       : Nat := 0
  q       : Nat := 0
  f       : Nat := 0
  first   : Bool := true
  table   : Tbl Nat := []
  part    : List Nat := []
  skip    : Bool := false
  raised  : Bool := false
  fault   : Option PortFault := none
  faultVa : Word := 0
  zeros   : List Word := []
  reads   : List SoRead := []
deriving DecidableEq, Repr

/-- An input of an operator; operators have A and B alone. -/
def SoSt.inp (o : SoSt) (p : InPort) : SoIn :=
  match p with
  | .b => o.b
  | _ => o.a

def SoSt.modInp (o : SoSt) (p : InPort) (f : SoIn → SoIn) : SoSt :=
  match p with
  | .b => { o with b := f o.b }
  | _ => { o with a := f o.a }

/-- A token taken from an input. -/
def SoIn.taken (i : SoIn) : SoIn := { i with index := i.index + 1, checked := false }

/-- The process back at its start, its variables zero (R324, R339). -/
def SoSt.restart (o : SoSt) : SoSt :=
  { o with pos := .start, acc := none, n := 0, q := 0, f := 0, first := true, table := [], part := [], zeros := [], reads := [] }

/-- The next stream of SPLAT's wide input: K is latched anew (R316), and a malformation may be raised again (R324). -/
def SoSt.nextStream (o : SoSt) : SoSt :=
  { o.restart with k := none, skip := false, raised := false, a := { o.a with started := false, checked := false, done := false } }

/-- Every read has its reply. -/
def SoSt.readsBack (o : SoSt) (now : Nat) : Bool := o.reads.all fun r => decide (r.due ≤ now)

/-- The state after CTX.SW or DRAIN, but for PR0 to PR3 (R339). -/
def SoSt.fresh (o : SoSt) : SoSt := { pr := o.pr, latched := o.latched }

/-- The process stands between two steps of one token's work, and looks at no head. -/
def SoSt.mid (o : SoSt) : Bool :=
  match o.pos with
  | .start => false
  | .tail => false
  | .second _ => false
  | _ => true

/-- An ERROR token taken at an input: the operator enters SKIP (R322). -/
def SoSt.errored (o : SoSt) (p : InPort) : SoSt := { (o.restart.modInp p SoIn.taken) with skip := true }

/-- The state of a site's element. -/
inductive Elem where
  | none
  | sb (s : SbSt)
  | cx (s : CxSt)
  | ve (s : VeSt)
  | mx (s : MxSt)
  | so (s : SoSt)
deriving DecidableEq, Repr

/-- The fault record of a frozen port or stream operator, if it is frozen. -/
def Elem.fault : Elem → Option PortFault
  | .none => Option.none
  | .sb b => b.fault
  | .cx _ => Option.none
  | .ve _ => Option.none
  | .mx _ => Option.none
  | .so o => o.fault

/-- The fault record removed (R233, R338). -/
def Elem.unfreeze : Elem → Elem
  | .none => .none
  | .sb b => .sb { b with fault := Option.none }
  | .cx x => .cx x
  | .ve v => .ve v
  | .mx m => .mx m
  | .so o => .so { o with fault := Option.none }

/-- A clock of an element carried over a freeze of `n` clocks. -/
def postponed (n t : Nat) : Nat := if t = 0 then 0 else t + n

/-- A matrix element goes on after a freeze of `n` clocks: its rows in flight, its side unit and its slots have the clocks left that they
had (R311). -/
def MxSt.shift (m : MxSt) (n : Nat) : MxSt :=
  { m with
    slots := m.slots.map fun e => (e.1, { e.2 with relAt := postponed n e.2.relAt, pres := e.2.pres.map fun p => (p.1, postponed n p.2) })
    lfullFrom := postponed n m.lfullFrom, bFrom := postponed n m.bFrom, pscaleAt := postponed n m.pscaleAt
    rows := m.rows.map fun r => { r with fired := r.fired + n }
    rowNext := postponed n m.rowNext, outAt := postponed n m.outAt
    aAt := postponed n m.aAt, bAt := postponed n m.bAt, dAt := postponed n m.dAt, readAt := postponed n m.readAt }

/-- An element goes on after a freeze of `n` clocks. -/
def Elem.shift (e : Elem) (n : Nat) : Elem :=
  match e with
  | .none => .none
  | .sb b => .sb b
  | .cx x => .cx x
  | .ve v => .ve { v with until_ := postponed n v.until_ }
  | .mx m => .mx (m.shift n)
  | .so o => .so o

/-- What the taking of an ERROR token at an input does to an element: a stream operator enters SKIP (R322). -/
def Elem.errored (e : Elem) (p : InPort) : Elem :=
  match e with
  | .none => .none
  | .sb b => .sb b
  | .cx x => .cx x
  | .ve v => .ve v
  | .mx m => .mx m
  | .so o => .so (o.errored p)

/-- No earlier firing of the element bars another one (R270). -/
def Elem.rested (e : Elem) (now : Nat) : Bool :=
  match e with
  | .none => true
  | .sb _ => true
  | .cx _ => true
  | .ve v => decide (v.until_ ≤ now)
  | .mx _ => true
  | .so _ => true

/-- The element may forward an ERROR token: a stream operator first ends the work of the tokens ahead of it. -/
def Elem.between : Elem → Bool
  | .none => true
  | .sb _ => true
  | .cx _ => true
  | .ve _ => true
  | .mx _ => true
  | .so o => !o.mid && o.fault.isNone

end Sys2Proof.Machine
end

