-- ==== Sys2Proof/Machine/Moulds.lean ====
section
/-!
DEFINITION. What a mould image says once it has been read (R377 to R380, R420, R439), and how a logical port is bound (R393 to R398).
-/
namespace Sys2Proof.Machine

/-- An entry of a CFG section: a configuration word of a site in a context; `scw` tells which of the two. -/
structure CfgEnt where
  ctx : Nat
  scw : Bool
  x   : Nat
  y   : Nat
  word : BitVec 128
deriving DecidableEq, Repr

/-- An entry of a LINKS section; `out` is 0 for Y, 1 for Z, `inp` 0 for A to 3 for D. -/
structure LinkEnt where
  ctx : Nat
  px  : Nat
  py  : Nat
  out : Nat
  cx  : Nat
  cy  : Nat
  inp : Nat
  slots : Nat
  fmt : Nat
deriving DecidableEq, Repr

/-- An entry of the PORTS section: its site, local port, direction, format code and network (0 wide, 1 narrow). -/
structure PortEnt where
  x : Nat
  y : Nat
  local_ : Nat
  dir : Nat
  fmt : Nat
  net : Nat
deriving DecidableEq, Repr

/-- An entry of the WSET section (R420). -/
structure WsetEnt where
  ix  : Nat
  lvl : Nat
  pflags : Nat
  base : Word
  size : Word
deriving DecidableEq, Repr

/-- The configuration and links of one variant, with the part of each block (R439). -/
structure Variant where
  cfg   : List CfgEnt := []
  links : List LinkEnt := []
  parts : List Nat := []
deriving DecidableEq, Repr

/-- A mould image: its bytes, and what they say. `codeOff` is the offset of the code in the image; a patch point is a word of the code,
a parameter offset and a width. -/
structure Mould where
  bytes : List Byte := []
  wb : Nat := 1
  hb : Nat := 1
  variants : List Variant := []
  nparts : Nat := 1
  hyst  : Nat := 0
  ports : List PortEnt := []
  cuts  : List (List Nat) := []
  wset  : List WsetEnt := []
  energy : List (Nat × Nat) := []
  trap  : Bool := false
  codeOff : Nat := 0
  codeSz  : Nat := 0
  entry   : Nat := 0
  patches : List (Nat × Nat × Nat) := []
deriving DecidableEq, Repr

/-- A ring adapter (R395 to R399): the descriptor's address, BASE, CAP and SCOPE, its own index, the other index as last read, the
clock from which it may read that again, and the address of the access before which it has stopped, with whether that is an entry's;
`skip` tells that the next entry is to be dropped. Of an IN ring, `acks` are the entries read and not yet passed by HEAD, each with the
clock in which the port input accepts its token; of an OUT ring, `owe` tells that an entry is written and TAIL is not. Both hold with it
the number of the stores to replicated pages that the index, a release, comes behind (R78). -/
structure Ring where
  desc : Word
  base : Word
  cap  : Nat
  scope : Nat
  own  : Nat
  last : Nat
  poll : Nat := 0
  stopped : Option (Word × Bool) := none
  skip : Bool := false
  acks : List (Nat × Nat) := []
  owe  : Option Nat := none
deriving DecidableEq, Repr

/-- The binding of a logical port: none, a ring, or a port of another cast, which is made once the other's matching entry is there;
the tokens that the pair of adapters holds stand at the OUT port (R398). -/
inductive Bind where
  | unbound
  | ring (r : Ring)
  | peer (cast port : Nat) (made : Bool) (held : List Token)
deriving DecidableEq, Repr

end Sys2Proof.Machine
end

