-- ==== Sys2Proof/Machine/Fabric.lean ====
section
/-!
DEFINITION. The parts of the state that belong to the sites of a cast (R188, R189): context store, input queues, controller
node, and the state of the site's element.
-/
namespace Sys2Proof.Machine

/-- The tokens of the link that ends at an input (R25, R191): those accepted, oldest first, each with the configuration
phase under which it was sent (R211), and for each phase how many slots are taken, tokens in flight among them; `freed` and `sent` are
one more than the clocks in which a slot was last released and taken (R26). -/
structure InQ where
  toks : List (Nat × Token) := []
  occ  : Tbl Nat := []
  freed : Nat := 0
  sent : Nat := 0
deriving DecidableEq, Repr

/-- A controller node (R205 to R208): permits received and not yet begun; the run's iterations, the length of one iteration
of k0 and the number of the iteration under way; which child of a SEQ runs; the permits sent to and the dones got from each
child; the inputs of a STREAM leaf that have ended; whether the governed element has fired in this iteration and from which
clock it may. -/
structure Node where
  running : Bool := false
  permits : Nat := 0
  total   : Nat := 0
  inner   : Nat := 1
  iter    : Nat := 0
  child   : Nat := 0
  sent    : List Nat := []
  got     : List Nat := []
  ended   : BitVec 4 := 0
  fired   : Bool := false
  openAt  : Nat := 0
deriving DecidableEq, Repr

/-- The record of a port's ERROR tokens in a configuration phase (R23, R184). -/
structure ErrRec where
  first : Word
  later : Nat
deriving DecidableEq, Repr

/-- RECONF of a context or DRAIN, given by the sequencer over the control network to a site without an enabled input (R149). -/
inductive Ctl where
  | reconf (ctx : Nat)
  | drain
deriving DecidableEq, Repr

/-- A site of a placed cast (R189). `phase` counts the context switches it has passed; `argWait` holds the writes of K that
wait for a round boundary (R154); `lastFire` is one more than the clock of the last firing, `actAt` than that of the last act that is
no firing (R207); `ctl` is a RECONF or DRAIN from the control network; `drained` marks an element that has forwarded or absorbed the DRAIN under way (R156); `dueY` and
`dueZ` are the clocks from which an output may send its next token; `outq` holds tokens of a firing that follow its first one
on an output and are still to be sent; `skip` marks a port that PORT.RES.SKIP has resumed: its next access is passed over
(R233, R338); `paused` marks a producer of a cut that is being emptied (R401). -/
structure Site where
  ecw : Tbl (BitVec 128) := []
  scw : Tbl (BitVec 128) := []
  ctx : Nat := 0
  phase : Nat := 0
  inA : InQ := {}
  inB : InQ := {}
  inC : InQ := {}
  inD : InQ := {}
  node : Node := {}
  argWait : List (BitVec 32) := []
  ctl : Option Ctl := none
  drained : Bool := false
  lastFire : Nat := 0
  actAt : Nat := 0
  wallSeen : BitVec 4 := 0
  err : Option ErrRec := none
  dueY : Nat := 0
  dueZ : Nat := 0
  outq : List (OutPort × Token) := []
  skip : Bool := false
  paused : Bool := false
  el  : Elem := .none
deriving DecidableEq, Repr

/-- A tensor layout record as read (R349), with the extents, strides and box of dimensions beyond RANK as 1, 0 and 1. -/
structure Tile where
  base : Word
  esz  : Nat
  rank : Nat
  dims : List Nat
  strs : List Nat
  box  : List Nat
  fill : Nat
deriving DecidableEq, Repr

/-- A transfer record in progress (R346, R347, R356): its number and address; whether it has been read and found sound; its
fields as read; its sectors and the first one not performed; whether it has been given up; whether it has begun, so that its chain has
gone on behind it; whether its barrier update has been made; and whether its chain is one of the staging director's (R432). -/
structure CopyRec where
  id   : Nat
  addr : Word
  ok   : Bool := false
  known : Bool := false
  ctl  : Nat := 0
  next : Word := 0
  src  : Word := 0
  dst  : Word := 0
  len  : Nat := 0
  bar  : Word := 0
  aux0 : Nat := 0
  aux1 : Nat := 0
  tile : Option Tile := none
  sectors : Nat := 0
  done : Nat := 0
  skip : Bool := false
  begun : Bool := false
  barred : Bool := false
  staged : Bool := false
deriving DecidableEq, Repr

/-- A channel of the copy engine that a cast holds (R340, R341): its handle's generation, its physical channel, its binding, the
queued chain heads, the record that its chain continues with, the records in progress, and the fault record with the number of
its record. Of a chain head, `after` numbers the thread's entries that must be performed first (R345), and `late` marks one queued
behind an open CTX.SW or DRAIN (R355). `resume` is a CP.RES on its way; `due` is the clock of the channel's next act;
`staged` tells that the chain `cur` is one of the staging director's, whose heads have `after` = 0 (R432). -/
structure Chan where
  gen   : Nat := 1
  used  : Bool := false
  closing : Bool := false
  phys  : Nat := 0
  bound : Bool := false
  ctx   : Nat := 0
  queue : List (Word × Nat × Bool) := []
  cur   : Option Word := none
  recs  : List CopyRec := []
  fault : Option (Nat × Byte × Quad) := none
  resume : Option (Resume × Nat) := none
  nextRec : Nat := 0
  due   : Nat := 0
  staged : Bool := false
deriving DecidableEq, Repr

/-- A logical port of a cast (R378, R382): its site and local port (0 to 3 for A to D, 4 Y, 5 Z), direction, format, network,
and for an OUT port the tokens of its port link, with those in flight counted in `occ`; for an IN port `q` holds RECONF and
DRAIN tokens that are still to enter its link (R394), `ctx` and `phase` are those under which an IN port sends, and `next` is the
clock from which it may send again. `drained` marks an OUT port that has absorbed the DRAIN under way; `paused` an adapter of a cut (R401). -/
structure Port where
  site  : Nat
  local_ : Nat
  isOut : Bool
  fmt   : Nat
  wide  : Bool
  q     : List Token := []
  occ   : Nat := 0
  ctx   : Nat := 0
  phase : Nat := 0
  next  : Nat := 0
  drained : Bool := false
  bind : Bind := .unbound
  paused : Bool := false
deriving DecidableEq, Repr

end Sys2Proof.Machine
end

