-- ==== Sys2Proof/Machine/Engines.lean ====
section
/-!
DEFINITION. The parts of the state that belong to the engines of a compute die and of the package: the synchronisation engines
(R366 to R376), what the placer keeps of plinths and of the requests it has read (R383, R388), tasks and stages (R417 to R421),
the I/O dies' queues, streams and ordering points (R450 to R471), and the trust die's sequence (R476 to R486).
-/
namespace Sys2Proof.Machine

/-- A published counter or a pre-arrival (R366): the tenant, the count, the virtual address, and whether it stands in the overflow
area (R375). -/
structure CntEnt where
  tenant : Nat
  pa     : Nat
  value  : Nat
  ovf    : Bool
deriving DecidableEq, Repr

/-- A group (R370), at its index of the group table: generation, owner, bitmap, members, the expected set and the arrivals of the
barrier episode, and arrivals held for the next one (R164). -/
structure GrpEnt where
  used  : Bool := false
  gen   : Nat := 1
  tid   : Nat := 0
  bmap  : Word := 0
  nbits : Nat := 0
  memb  : List Nat := []
  open_ : Bool := false
  exp   : List Nat := []
  arrived : List Nat := []
  held  : List Nat := []
deriving DecidableEq, Repr

/-- A wait registered at an engine (R371): the thread, the number of its wait, the wait itself, for WAIT.BIT.ALL the words whose
bits have not all been seen set, and whether it stands in the overflow area. -/
structure WaitEnt where
  cast : Nat
  id   : Nat
  tenant : Nat
  wait : Wait
  left : List Nat := []
  ovf  : Bool := false
deriving DecidableEq, Repr

/-- A synchronisation engine (R372 to R376): its tables, the hold queue of each tenant-translation entry, quotas, overflow area,
and the purge under way. -/
structure SeSt where
  cnts  : List CntEnt := []
  pres  : List CntEnt := []
  grps  : Tbl GrpEnt := []
  waits : List WaitEnt := []
  hold  : Tbl (List Instr) := []
  qta   : Tbl Word := []
  qtb   : Tbl Word := []
  ovf   : Word := 0
  ovfn  : Word := 0
  purgeTid : Byte := 0
  purging : Bool := false
  purgeDue : Nat := 0
deriving DecidableEq, Repr

/-- A request block as read (R383); `bad` tells that a Zero field is not zero or a bit without a meaning is set. -/
structure PlBlock where
  op     : Nat := 0
  auto   : Bool := false
  remove : Bool := false
  frozen : Bool := false
  cast   : Nat := 0
  addr   : Word := 0
  len    : Word := 0
  bx     : Nat := 0
  by_    : Nat := 0
  aff    : Nat := 0
  cut    : Nat := 255
  tid    : Nat := 0
  pix    : Nat := 0
  pw     : Nat := 0
  ph     : Nat := 0
  bind   : Word := 0
  cnt    : Word := 0
  act    : Nat := 0
  tgt    : Nat := 0
  rx     : Nat := 0
  ry     : Nat := 0
  bad    : Bool := false
deriving DecidableEq, Repr

/-- A request in the placer's queue (R384): its source, the tenant it comes from, the block's address, the source's requester id, and
the block itself when the dispatchers made it (R438). -/
structure PlReq where
  src : PlSource
  tenant : Nat
  addr : Word
  requester : Nat
  block : Option PlBlock := none
deriving DecidableEq, Repr

/-- A request that has reached the placer and is still to be queued (R384, R415): its source, the clock of its arrival, the requester id,
for a PL.REQ the command and the number before which its thread's accesses must be performed, its tenant and the address; the block itself
when the dispatchers made it (R438). -/
structure PlAsk where
  src  : PlSource
  at_  : Nat
  requester : Nat
  pid  : Nat := 0
  after : Nat := 0
  tenant : Nat
  addr : Word
  block : Option PlBlock := none
deriving DecidableEq, Repr

/-- A request that is done but for its last releases (R387): STATUS, to be written once the replicas have applied the stores to replicated
pages numbered below `seen`, then, `wrote` telling that it is, the decrement of CNT, likewise. -/
structure PlFin where
  req  : PlReq
  cnt  : Word
  status : Nat
  cast : Nat
  seen : Nat
  wrote : Bool := false
deriving DecidableEq, Repr

/-- A plinth (R388). -/
structure Plinth where
  tid : Nat
  pix : Nat
  bx  : Nat
  by_ : Nat
  w   : Nat
  h   : Nat
deriving DecidableEq, Repr

/-- One move of a MOVE or COMPACT (R400, R404). -/
structure MoveItem where
  cast : Nat
  bx   : Nat
  by_  : Nat
  aff  : Nat
  cut  : Nat
deriving DecidableEq, Repr

/-- The request that the placer is performing, when that takes more than one step: a move that waits for its cut until a clock, with
the moves of the list behind it, its index, and the physical channels reserved for it on its new die, by channel index (R400); a move
whose cast is frozen, or was so before, and has accesses left; a removal or a save whose cast is frozen and has accesses or records left. -/
inductive PlCur where
  | move (r : PlReq) (b : PlBlock) (m : MoveItem) (deadline : Nat) (rest : List MoveItem) (ix : Nat) (res : Tbl Nat)
  | moving (r : PlReq) (b : PlBlock) (m : MoveItem) (rest : List MoveItem) (ix : Nat) (wasFrozen : Bool) (res : Tbl Nat)
  | remove (r : PlReq) (b : PlBlock) (cast : Nat)
  | save (r : PlReq) (b : PlBlock) (cast : Nat) (wasFrozen : Bool)
deriving DecidableEq, Repr

/-- A rolling reconfiguration (R405 to R408), under its old cast: the new cast's number, the rows released and filled, whether a fill
is under way, and whether the old cast is being removed or has gone. -/
structure RollSt where
  req : PlReq
  blk : PlBlock
  num : Nat
  released : Nat := 0
  filled : Nat := 0
  filling : Bool := false
  force : Bool := false
deriving DecidableEq, Repr

/-! ### Tasks (R417 to R421) -/

/-- Where a task stands (R421). -/
inductive TaskSt where
  | waiting
  | ready
  | staging
  | staged
  | pending
  | active
  | suspended
deriving DecidableEq, Repr

/-- A working-set entry (R420) and its staging: `pos` bytes are staged or abandoned; `pushed` tells that its chain is on its channel. -/
structure WsEnt where
  lvl  : Nat
  base : Word
  size : Nat
  tgt  : BitVec 32
  pos  : Nat := 0
  pushed : Bool := false
deriving DecidableEq, Repr

/-- A task (R419 to R421): its record as copied; its state; its queue die, or `none` once it stands in a deque; the clock in which it
became ready and the ageing quanta since; the entries abandoned, OVERQ, the bytes charged for L2 and scratch and the L2 bytes held on
each die (R431); `hold` bars the staging of a direct task whose cast has been pre-empted (R434); the clock since which
it is ACTIVE, the energy of earlier ACTIVE time, and the estimate debited (R437); the packet that put it, as I/O die, queue and
index (R465). -/
structure Task where
  tenant : Nat
  addr   : Word
  pri    : Nat
  noStage : Bool := false
  mws    : Bool := false
  direct : Bool := false
  stage  : Nat := 0
  target : Nat := 0
  parm   : Word := 0
  dep    : Option Nat := none
  scope  : Nat := 0
  ws     : List WsEnt := []
  succ   : List Word := []
  st     : TaskSt
  die    : Nat
  deque  : Option Nat := none
  readyAt : Nat := 0
  quanta : Nat := 0
  lost   : BitVec 4 := 0
  overq  : Bool := false
  l2     : Nat := 0
  scr    : Nat := 0
  heldOn : List (Nat × Nat) := []
  hold   : Bool := false
  since  : Nat := 0
  energy : Nat := 0
  est    : Nat := 0
  packet : Option (Nat × Nat × Nat) := none
  wrote  : Bool := false
deriving DecidableEq, Repr

/-- A stage (R417, R418), with the samples for which each mark has held (R438). -/
structure Stage where
  elastic : Bool := false
  aff  : Nat := 0
  high : Nat := 0
  low  : Nat := 0
  minr : Nat := 1
  maxr : Nat := 1
  hold : Nat := 1
  img  : Word := 0
  bind : Word := 0
  above : Nat := 0
  under : Nat := 0
deriving DecidableEq, Repr

/-- The scheduler's own state (R417 to R445) and the energy governor's (R436, R488 to R490): tasks by number, stages by
65536 × tenant + id, registers by translation entry, pool slots in use with the cast whose image they hold, the clock of the next
ageing quantum on each die, the clock of a die's last delivery plus one; `debt` is the energy that a tenant's casts have used outside
tasks in this window. -/
structure SchedSt where
  tasks  : Tbl Task := []
  next   : Nat := 1
  stages : Tbl Stage := []
  ageq   : BitVec 16 := 64
  hang   : BitVec 24 := 10000
  memto  : BitVec 24 := 2000
  schq   : Tbl Word := []
  spoola : Tbl Word := []
  spoolb : Tbl Word := []
  pool   : Tbl Nat := []
  eallow : Tbl (BitVec 32) := []
  ebal   : Tbl Int := []
  debt   : Tbl Nat := []
  quantum : Tbl Nat := []
  served : Tbl Nat := []
  winAt  : Nat := 0
  gscale : Nat := 256
  pmw    : Nat := 0
  fast   : Bool := false
  fastAt : Nat := 0
  pwrlim : Nat := 2400
deriving DecidableEq, Repr

/-! ### The I/O dies (R449 to R475) -/

/-- What the package sends out: the data of a completion, Unsupported Request or Completer Abort for a request's tag, an MSI-X vector
of a function (R460), bytes of the SPDM responder (R483). -/
inductive OutMsg where
  | data (tag : Nat) (bytes : List Byte)
  | unsupported (tag : Nat)
  | abort (tag : Nat)
  | msix (iod fn : Nat)
  | spdm (bytes : List Byte)
deriving DecidableEq, Repr

/-- A request at a port's ordering point (R454, R455): a posted write, or a read or atomic of BAR2 with its tag. `gone` tells that it
has been forwarded and waits for its acknowledgements; `id` numbers its parts; `cnt` is the counter of a sealed commit, decremented after
them (R459). -/
structure Arrival where
  id   : Nat
  q    : Inbound
  data : List Byte := []
  read : Option (Nat × Nat) := none
  atom : Option (AtomKind × Size × Nat) := none
  gone : Bool := false
  cnt  : Option (Nat × Word) := none
deriving DecidableEq, Repr

/-- A queue control block as a slot holds it (R463), with the packet being checked, once read, and the address of the block. -/
structure SlotSt where
  qid  : Nat
  qcb  : Word
  tid  : Nat
  pri  : Nat
  qdie : Nat
  base : Word
  lsz  : Nat
  rdx  : Nat
  err  : Bool := false
  errix : Nat := 0
  pkt  : Option (List Byte) := none
deriving DecidableEq, Repr

/-- An entry of a queue table (R462), with what the firmware keeps of the queue (R470): its QCB, when it became pending, the
boundaries since, and for a mapped queue E, the clock of its mapping and the boundaries since. -/
structure QueueEnt where
  v    : Bool := false
  tid  : Nat := 0
  slot : Option Nat := none
  pend : Bool := false
  wrx  : Nat := 0
  infl : Nat := 0
  qcb  : Word := 0
  pendAt : Nat := 0
  waited : Nat := 0
  prio : Nat := 0
  mapAt : Nat := 0
  kept : Nat := 0
deriving DecidableEq, Repr

/-- A packet issued and not complete (R465): its counter for SIGNAL, its address, its ARG, and for WAIT the counter it waits for. -/
structure PktSt where
  iod  : Nat
  qid  : Nat
  index : Nat
  tid  : Nat
  signal : Option Word
  addr : Word := 0
  arg  : Word := 0
  wait : Option Nat := none
deriving DecidableEq, Repr

/-- A sealed stream (R457). -/
structure SealSt where
  tid  : Byte := 0
  keyix : BitVec 6 := 0
  v    : Bool := false
  nonce : BitVec 32 := 0
  ctr  : Word := 0
  dst  : Word := 0
  cnt  : Word := 0
  last : Byte := 0
  nacc : BitVec 32 := 0
deriving DecidableEq, Repr

/-- A thread that an invalidation waits for (R57): its cast, the number of its block, and whether that block has effects, so that it must
end as well. -/
structure TlbWait where
  cast : Nat
  uid  : Nat
  seq  : Nat
  open_ : Bool
deriving DecidableEq, Repr

/-- A command register with status bits (R491): ERR, OVR and the command under way, with the clock from which it may complete. -/
structure CmdSt where
  fields : Word := 0
  err  : Bool := false
  ovr  : Bool := false
  busy : Bool := false
  due  : Nat := 0
deriving DecidableEq, Repr

/-- The registers of the I/O dies and what stands at their ports: FNCFG by 64 × port + function (FNCFG of PF0 resets with V), sealed
streams by 16 × I/O die + stream with their staging windows, queue tables by 1,024 × I/O die + queue, slots
by 32 × I/O die + slot, the packets in flight, QSLOTCMD with its IDLEW, the next slot of the round robin, the clock after that of its last issue, and the clock of the next
boundary; `tlbWait` lists the threads, `tlbReqs` the requests under way and `tlbStores` the number of the stores to replicated pages, that
an invalidation waits for (R57); `bound` lists IDE streams with their port, function and key number, `sessions` SPDM sessions with whether each is finished and the key
number it holds. -/
structure HostSt where
  fncfg  : Tbl Word := []
  inbox  : Tbl (List Arrival) := []
  nextIn : Nat := 1
  ecs    : Tbl SealSt := []
  stage  : Tbl (Tbl Byte) := []
  fqdesc : Tbl Word := []
  queues : Tbl QueueEnt := []
  slots  : Tbl SlotSt := []
  packets : List PktSt := []
  qcba   : Tbl Word := []
  qcmd   : Tbl CmdSt := []
  idlew  : Tbl Bool := []
  turn   : Tbl Nat := []
  issued : Tbl Nat := []
  qsch   : Word := 0x203E820
  qageAt : Tbl Nat := []
  wake   : Tbl Bool := []
  bound  : List (Nat × Nat × Nat × Nat) := []
  sessions : Tbl (Bool × Option Nat) := []
  nextKey : Nat := 1
  ioKeys : Tbl Nat := []
  tlbiva : Word := 0
  tlbi   : CmdSt := {}
  tlbWait : List TlbWait := []
  tlbReqs : List Instr := []
  tlbStores : Nat := 0
  omapc  : Tbl CmdSt := []
  keyc   : CmdSt := {}
deriving DecidableEq, Repr

/-- The boot sequence (R476 to R481): the step that ends next (0 before power-on, 5 once the dies are up,
6 in recovery, 7 when the package stays in reset), how often it has verified an
image, the dies released and failed, the links that have trained, and the clock of the last reset. -/
structure BootSt where
  step   : Nat := 0
  die    : Nat := 0
  checks : Nat := 0
  cdrel  : BitVec 8 := 0
  iodrel : BitVec 2 := 0
  keys   : Bool := false
  ready  : Bool := false
  recov  : Bool := false
  cdfail : BitVec 8 := 0
  links  : List Nat := []
  image  : Option (List Byte) := none
  since  : Nat := 0
deriving DecidableEq, Repr

end Sys2Proof.Machine
end

