-- ==== Sys2Proof/Machine/State.lean ====
section
/-!
DEFINITION. The state of an Eosuba package: memory, and the device around it. Everything the spec gives the machine stands
here as plain data; the fields of the model's own are named as such.
-/
namespace Sys2Proof.Machine

/-- Why a step can stop for good. -/
inductive Fault where
  /-- Raised by `step` when nothing can ever act again: the trust die's own firmware has not verified, so the package stays in
  reset (R476, step 1; DEDUCED, log entry 22). Safe: the hardware does nothing there either. -/
  | heldInReset
deriving DecidableEq, Repr

/-- Why a meaning answers nothing. -/
inductive Refusal where
  /-- Raised by an arm of `exec` whose instruction has no meaning yet. Safe: the hardware goes on where the model stops. -/
  | notModelled (mnemonic : String)
deriving DecidableEq, Repr

/-- Memory: the bytes that differ from what an unwritten byte reads as, by physical address (R45, R47). -/
abbrev Memory := List Host.Cell

/-- What a byte of memory that nothing has written reads as (DESIGN CHOICE, log entry 4). -/
def Memory.unwritten : Byte := 0

/-- The canonical form of memory: addresses strictly rising, no byte equal to what an unlisted address reads as. -/
abbrev Memory.wf (m : Memory) : Bool := Tbl.wf Memory.unwritten m

/-- What a frozen cast's image is to be made for, once its accesses in flight have ended (R213): a double or unhandled trap (R185), the
watchdog, which posts its entry with the image's slot (R441), or a suspension at YIELD (R430). -/
inductive SaveFor where
  | trap
  | watchdog
  | yield
deriving DecidableEq, Repr

/-- A cast (R32, R121, R178, R189). `leaving` marks one that is being removed (R412); `gone` counts the rows that an old cast has given
up in a ROLL and `detached` that its channels are detached; `lease` is the number of filled rows of a new cast (R406, R407). Of the
scheduler: the stage it is a replica of, its deque of task numbers with the tail last, its launch FIFO, its pending or active task, its
suspended tasks with the pool slot and the save image of each, the pool slot of a watchdog's image, the clock since which it is idle (R423), its hang time with the
progress made in this clock (R441), the busy clocks of each part (R440), a variant switch under way and the variant chosen, and the
clock up to which the energy that it uses outside tasks has been counted (R437). `uid` tells the placements of one number apart. `frozenAt` is the clock in which it was frozen, and `saving` what an image is
still to be made for. -/
structure Cast where
  uid : Nat := 0
  tenant : Nat
  bx : Nat
  by_ : Nat
  wb : Nat
  hb : Nat
  frozen : Bool := false
  frozenAt : Nat := 0
  saving : Option SaveFor := none
  held : List Instr := []
  mould : Mould := {}
  imgVa : Word := 0
  aff   : Nat := 0
  variant : Nat := 0
  th : Thread := {}
  ports : List Port := []
  phase : Nat := 0
  argFlight : Nat := 0
  popAbsorbed : BitVec 8 := 0
  popErr : Tbl ErrRec := []
  pushSent : BitVec 8 := 0
  pushNext : Tbl Nat := []
  sites : Tbl Site := []
  chans : Tbl Chan := []
  leaving : Bool := false
  gone  : Nat := 0
  detached : Bool := false
  lease : Option Nat := none
  stage : Nat := 0
  deque : List Nat := []
  fifo  : List Nat := []
  task  : Option Nat := none
  susp  : List (Nat × Nat × Nat) := []
  slot  : Option (Nat × Nat) := none
  idleAt : Option Nat := none
  hang  : Nat := 0
  progress : Bool := false
  busy  : List Nat := []
  switching : Bool := false
  switchTo : Option Nat := none
  outSince : Nat := 0
deriving DecidableEq, Repr

/-- A save image that the placer has written since the last reset (R409, R410): its number, its bytes' fields, and the cast it
holds. -/
structure SaveRec where
  id   : Nat
  size : Nat
  kind : Nat
  tid  : Nat
  no   : Nat
  cast : Cast
deriving DecidableEq, Repr

/-- The placer (R384 to R416). `asks` are requests that are still to be queued, in their order; `fin` one that is done but for its last releases; `reserved` are cast numbers kept for a RESTORE (R409), and `away` what the
casts of those numbers were, with the events that have come since (R40, R94). -/
structure PlacerSt where
  asks   : List PlAsk := []
  queue  : List PlReq := []
  ovr    : Bool := false
  movelim : BitVec 32 := 150000
  cur    : Option PlCur := none
  fin    : List PlFin := []
  rolls  : Tbl RollSt := []
  plinths : List Plinth := []
  reserved : List Nat := []
  saves  : List SaveRec := []
  nextSave : Nat := 0
  win    : Tbl Word := []
  pages  : Tbl Nat := []
deriving DecidableEq, Repr

/-- What a step leaves to be done to memory before the next one: an entry of 64 bytes to be posted to a tenant's fault queue
(R460); the TAIL of a queue whose entry is written, which waits for the stores of a lower number than `seen` at their replicas, with the
interrupt that follows it (R78, R460); a decrement with release of a queue slot, which waits likewise (R78, R465); a save image of a stopped cast to be written to a pool slot (R185, R441). -/
inductive Job where
  | post (tenant : Nat) (entry : List Byte)
  | tail (tenant : Nat) (desc : Word) (value : Nat) (interrupt : Bool) (seen : Nat)
  | count (r : CntReq) (amount : BitVec 32) (seen : Nat)
  | poolSave (cast : Nat)
deriving DecidableEq, Repr

/-- The two parts (R2). -/
inductive Part where
  | eos8
  | eos4
deriving DecidableEq, Repr

/-- A cached translation of one page (R54): tenant, page address bits [63:12], log2 of the page size, the leaf's level, and
the leaf's fields. -/
structure TlbEnt where
  tenant : Nat
  vpn    : Nat
  shift  : Nat
  level  : Nat
  pa     : Nat
  w      : Bool
  x      : Bool
  rpl    : Bool
  uc     : Bool
deriving DecidableEq, Repr

/-- A page walk of a die (R55): the tenant, bits [63:12] of the address, and once a walker has taken it the clock at which it ends. -/
structure WalkSt where
  tenant : Nat
  page   : Nat
  due    : Option Nat := none
deriving DecidableEq, Repr

/-- A step that has been put off until a page walk of a die ends (R55): the step, the slot that it was for, and the walks, as die, tenant
and page, for which it has stood still before. -/
structure Stall where
  act    : Instr
  slot   : Option (Nat × Nat)
  die    : Nat
  tenant : Nat
  page   : Nat
  past   : List (Nat × Nat × Nat) := []
deriving DecidableEq, Repr

/-- The device around memory. Of the model's own: `free` numbers the open values of a run, `cursor` names the slot that acts, `jobs`
are done at the end of a step, `walked` lists the walks that the step under way has made, as die, tenant and page, `stalls` the steps
put off until a walk ends, `seTaken` the locations that an engine has served in this clock (R361), `uids` counts the placements of
casts, and `turns` names the tenant served last in each class of requests (R435). `replNo` numbers the stores to replicated pages (R77). -/
structure Dev where
  now    : Nat := 0
  walks  : Tbl (List WalkSt) := []
  walked : List (Nat × Nat × Nat) := []
  stalls : List Stall := []
  seTaken : List Nat := []
  turns  : Tbl Nat := []
  uids   : Nat := 0
  agenda : List (Nat × Instr) := []
  free   : Nat := 0
  cursor : Option (Nat × Nat) := none
  jobs   : List Job := []
  casts  : Tbl Cast := []
  walls  : Tbl (BitVec 64) := []
  part   : Part := .eos8
  ttew0  : Tbl Word := []
  ttew1  : Tbl Word := []
  tlbPort  : Tbl (List TlbEnt) := []
  tlbBlock : Tbl (List TlbEnt) := []
  tlbLast  : Tbl (List TlbEnt) := []
  omap    : Tbl (BitVec 16) := []
  replSeq : Tbl Nat := []
  replNo : Nat := 0
  replicas : Tbl (List (Nat × MemReq)) := []
  keySlots : Tbl Nat := []
  lineKey : Tbl Nat := []
  hostsel : Bool := false
  pcieUp  : BitVec 2 := 0
  ualUp   : BitVec 8 := 0
  ualid   : BitVec 10 := 0
  uaroute : Tbl (BitVec 8) := []
  relClock : Tbl Nat := []
  cplim : Tbl Word := []
  se : Tbl SeSt := []
  outbox : List OutMsg := []
  host : HostSt := {}
  boot : BootSt := {}
  pl : PlacerSt := {}
  sch : SchedSt := {}
  away : Tbl Cast := []
  diepres : BitVec 10 := 0
  blkpres : Tbl (BitVec 36) := []
  seamdn : BitVec 10 := 0
  featacc : Quad := {}
  featlock : Bool := false
deriving DecidableEq, Repr

/-- The state of the machine. -/
structure State where
  mem : Memory
  dev : Dev
deriving DecidableEq, Repr

/-- What a step or a meaning answers. -/
abbrev Res := Host.Outcome State Fault Refusal

/-- The machine right after reset. -/
def State.reset : State := { mem := [], dev := {} }

end Sys2Proof.Machine
end

