-- ==== Sys2Proof/Machine/Operands.lean ====
section
/-!
DEFINITION. Operand forms of control-thread instructions: which operands each uses (R82), its class (R89), its targets
(R83), and when a slot is ready or predicated off (R82, R85, R87, R88).
-/
namespace Sys2Proof.Machine

/-- The four classes (R89). -/
inductive Cls where
  | V
  | M
  | D
  | X
deriving DecidableEq, Repr

/-- The predication of an instruction (R87); GET and LIT have none (R102, R103), and a device step is no slot's. -/
def predOf : Instr → Pred
  | .add p _ _ | .sub p _ _ | .mul p _ _ | .mulhS p _ _ | .mulhU p _ _ | .mulhSu p _ _ => p
  | .divS p _ _ | .divU p _ _ | .remS p _ _ | .remU p _ _ | .minS p _ _ | .minU p _ _ => p
  | .maxS p _ _ | .maxU p _ _ | .madd p _ _ | .addsh p _ _ _ | .and p _ _ | .or p _ _ => p
  | .xor p _ _ | .andn p _ _ | .shl p _ _ | .shr p _ _ | .sar p _ _ | .cmp p _ _ _ => p
  | .tstZ p _ _ | .tstNz p _ _ | .sel p _ _ | .clz p _ _ | .ctz p _ _ | .popc p _ _ => p
  | .bfxZ p _ _ | .bfxS p _ _ | .bfi p _ _ | .ext p _ _ _ => p
  | .addi p _ _ | .muli p _ _ | .andi p _ _ | .ori p _ _ | .xori p _ _ | .shli p _ _ => p
  | .shri p _ _ | .sari p _ _ | .cmpiEq p _ _ | .cmpiNe p _ _ | .cmpiLt p _ _ | .cmpiGe p _ _ => p
  | .cmpiLtu p _ _ | .cmpiGeu p _ _ | .mov p _ _ | .movi p _ _ | .null p _ _ | .adr p _ _ => p
  | .ldZ8 p _ _ | .ldS8 p _ _ | .ldZ16 p _ _ | .ldS16 p _ _ | .ldZ32 p _ _ | .ldS32 p _ _ => p
  | .ld64 p _ _ | .ldx p _ _ _ | .ldAcqZ32 p _ _ _ | .ldAcq64 p _ _ _ | .ldl p _ _ _ => p
  | .st p _ _ | .stx p _ | .stRel p _ _ | .stl p _ | .fenceAcq p _ | .fenceRel p _ | .fenceAr p _ => p
  | .br p _ | .brn p | .bri p | .call p _ | .calli p | .ret p | .brcT p _ | .brcF p _ => p
  | .strmGo p | .strmPushData p _ | .strmPushIndex p _ | .strmPushStop p _ _ | .strmPushDone p _ => p
  | .strmPop p _ _ _ | .argSet p _ _ _ | .ctxSw p _ | .drain p | .strmWait p => p
  | .mxClaim p _ | .mxRel p | .mxScale p | .mxStat p _ _ => p
  | .hndNew p _ | .hndGive p | .hndTake p _ | .hndDrop p | .hndInfo p _ _ | .portRes p _ => p
  | .grpNew p _ | .grpJoin p _ | .grpLeave p | .grpFree p | .grpBar p _ _ | .grpMark p _ _ => p
  | .waitBit p _ _ | .waitBitAll p _ _ | .waitTok p _ _ => p
  | .cpOpen p _ | .cpClose p | .cpPush p | .cpRes p _ | .cpBinit p | .cpBarv p _ _ | .cpBwait p _ _ => p
  | .atomRlx p _ _ _ | .atomAcq p _ _ _ | .atomRel p _ _ _ | .atomAr p _ _ _ | .cas _ p _ _ _ => p
  | .red p _ _ _ _ | .cntInit p _ _ | .cntDec p _ _ | .cntWait p _ _ | .cntFree p => p
  | .taskPut p _ _ | .taskSdef p _ | .taskReg p _ | .taskUnreg p | .taskInfo p _ => p
  | .plReq p _ | .leaseRel p => p
  | .trap p _ | .eret p | .sysrd p _ _ | .syswr p _ | .feat p _ _ | .halt p | .nop p | .bkpt p _ | .yield p => p
  | _ => .always

/-- Which of the operands A, B and C an instruction uses (R82). -/
structure Uses where
  a : Bool
  b : Bool
  c : Bool
deriving DecidableEq, Repr

def Uses.none : Uses := ⟨false, false, false⟩
def Uses.A : Uses := ⟨true, false, false⟩
def Uses.AB : Uses := ⟨true, true, false⟩
def Uses.ABC : Uses := ⟨true, true, true⟩

/-- The operands used, by the "Uses" columns of R124, R129, R130, R133, R134, R140, R142, R150, R160, R170, R216, R306, R342,
R362, R414 and R446. -/
def usesOf : Instr → Uses
  | .madd .. | .sel .. | .bfi .. | .stx .. | .stl .. => .ABC
  | .atomRlx .. | .atomAcq .. | .atomRel .. | .atomAr .. | .cas .. => .ABC
  | .add .. | .sub .. | .mul .. | .mulhS .. | .mulhU .. | .mulhSu .. | .divS .. | .divU .. | .remS .. | .remU .. => .AB
  | .minS .. | .minU .. | .maxS .. | .maxU .. | .addsh .. | .and .. | .or .. | .xor .. | .andn .. => .AB
  | .shl .. | .shr .. | .sar .. | .cmp .. | .tstZ .. | .tstNz .. | .bfxZ .. | .bfxS .. => .AB
  | .ldx .. | .ldl .. | .st .. | .stRel .. => .AB
  | .mxClaim .. | .mxRel .. | .mxScale .. | .mxStat .. => .AB
  | .hndNew .. | .grpNew .. | .grpMark .. | .waitBit .. => .AB
  | .cpPush .. | .cpBinit .. | .cpBarv .. | .cpBwait .. => .AB
  | .red .. | .cntInit .. | .cntDec .. | .taskReg .. => .AB
  | .clz .. | .ctz .. | .popc .. | .ext .. => .A
  | .addi .. | .muli .. | .andi .. | .ori .. | .xori .. | .shli .. | .shri .. | .sari .. => .A
  | .cmpiEq .. | .cmpiNe .. | .cmpiLt .. | .cmpiGe .. | .cmpiLtu .. | .cmpiGeu .. | .mov .. => .A
  | .ldZ8 .. | .ldS8 .. | .ldZ16 .. | .ldS16 .. | .ldZ32 .. | .ldS32 .. | .ld64 .. | .ldAcqZ32 .. | .ldAcq64 .. => .A
  | .bri .. | .calli .. | .brcT .. | .brcF .. => .A
  | .strmPushData .. | .strmPushIndex .. | .argSet .. => .A
  | .hndGive .. | .hndTake .. | .hndDrop .. | .hndInfo .. | .portRes .. => .A
  | .grpJoin .. | .grpLeave .. | .grpFree .. | .grpBar .. | .waitBitAll .. => .A
  | .cpOpen .. | .cpClose .. | .cpRes .. | .cntWait .. | .cntFree .. => .A
  | .taskPut .. | .taskSdef .. | .taskUnreg .. | .taskInfo .. | .plReq .. | .syswr .. => .A
  | _ => .none

/-- The class of an instruction (R89). -/
def classOf : Instr → Cls
  | .st .. | .stx .. | .stRel .. | .stl .. | .fenceAcq .. | .fenceRel .. | .fenceAr .. => .M
  | .strmGo .. | .strmPushData .. | .strmPushIndex .. | .strmPushStop .. | .strmPushDone .. => .M
  | .argSet .. | .ctxSw .. | .drain .. | .strmWait .. | .mxRel .. | .mxScale .. => .M
  | .hndGive .. | .hndDrop .. | .portRes .. | .grpLeave .. | .grpFree .. | .grpBar .. | .grpMark .. => .M
  | .waitBit .. | .waitBitAll .. | .waitTok .. | .cpClose .. | .cpPush .. | .cpRes .. | .cpBinit .. => .M
  | .cpBarv .. | .cpBwait .. | .red .. | .cntInit .. | .cntDec .. | .cntWait .. | .cntFree .. => .M
  | .taskUnreg .. | .leaseRel .. | .syswr .. | .bkpt .. | .yield .. => .M
  | .strmPop .. | .mxClaim .. | .mxStat .. | .hndNew .. | .hndTake .. | .grpNew .. | .grpJoin .. => .D
  | .cpOpen .. | .atomRlx .. | .atomAcq .. | .atomRel .. | .atomAr .. | .cas .. => .D
  | .taskPut .. | .taskSdef .. | .taskReg .. | .taskInfo .. | .plReq .. => .D
  | .br .. | .brn .. | .bri .. | .call .. | .calli .. | .ret .. | .brcT .. | .brcF .. => .X
  | .trap .. | .eret .. | .halt .. => .X
  | _ => .V

/-- The target fields an instruction holds, TGTA first (R83, R115). -/
def targetsOf : Instr → List Target
  | .add _ b a | .sub _ b a | .mul _ b a | .mulhS _ b a | .mulhU _ b a | .mulhSu _ b a => [a, b]
  | .divS _ b a | .divU _ b a | .remS _ b a | .remU _ b a | .minS _ b a | .minU _ b a => [a, b]
  | .maxS _ b a | .maxU _ b a | .madd _ b a | .addsh _ _ b a | .and _ b a | .or _ b a => [a, b]
  | .xor _ b a | .andn _ b a | .shl _ b a | .shr _ b a | .sar _ b a | .cmp _ _ b a => [a, b]
  | .tstZ _ b a | .tstNz _ b a | .sel _ b a | .clz _ b a | .ctz _ b a | .popc _ b a => [a, b]
  | .bfxZ _ b a | .bfxS _ b a | .bfi _ b a | .ext _ _ b a => [a, b]
  | .get _ b a | .lit _ b a | .mov _ b a | .null _ b a => [a, b]
  | .ldx _ _ b a | .ldAcqZ32 _ _ b a | .ldAcq64 _ _ b a | .ldl _ _ b a => [a, b]
  | .strmPop _ _ b a | .hndInfo _ b a => [a, b]
  | .atomRlx _ _ b a | .atomAcq _ _ b a | .atomRel _ _ b a | .atomAr _ _ b a | .cas _ _ _ b a => [a, b]
  | .addi _ _ t | .muli _ _ t | .andi _ _ t | .ori _ _ t | .xori _ _ t | .shli _ _ t => [t]
  | .shri _ _ t | .sari _ _ t | .cmpiEq _ _ t | .cmpiNe _ _ t | .cmpiLt _ _ t | .cmpiGe _ _ t => [t]
  | .cmpiLtu _ _ t | .cmpiGeu _ _ t | .movi _ _ t | .adr _ _ t => [t]
  | .ldZ8 _ _ t | .ldS8 _ _ t | .ldZ16 _ _ t | .ldS16 _ _ t | .ldZ32 _ _ t | .ldS32 _ _ t | .ld64 _ _ t => [t]
  | .mxClaim _ a | .mxStat _ _ a | .hndNew _ a | .hndTake _ a | .grpNew _ a | .grpJoin _ a | .cpOpen _ a => [a]
  | .taskPut _ _ a | .taskSdef _ a | .taskReg _ a | .taskInfo _ a | .plReq _ a => [a]
  | .sysrd _ _ t | .feat _ _ t => [t]
  | _ => []

/-- The waiting commands (R97). -/
def isWaiting : Instr → Bool
  | .ctxSw .. | .drain .. | .strmWait .. | .mxScale .. | .grpBar .. | .waitBit .. | .waitBitAll .. | .waitTok .. => true
  | .cpBwait .. | .cntWait .. | .leaseRel .. => true
  | _ => false

/-- The instructions of opcodes 0x40 to 0x4A (R140, R365). -/
def isLoad : Instr → Bool
  | .ldZ8 .. | .ldS8 .. | .ldZ16 .. | .ldS16 .. | .ldZ32 .. | .ldS32 .. | .ld64 .. | .ldx .. => true
  | .ldAcqZ32 .. | .ldAcq64 .. | .ldl .. => true
  | _ => false

/-- FENCE.AR, and ATOM or CAS with ACQ or AR: no load may stand in a higher slot of the block (R140, R365). -/
def barsLoads : Instr → Bool
  | .fenceAr .. | .atomAcq .. | .atomAr .. => true
  | .cas .acq .. | .cas .ar .. => true
  | _ => false

/-- KIND of a target field (R83). -/
def Target.kind (t : Target) : Nat := field t 6 3

/-- INDEX of a target field (R83). -/
def Target.index (t : Target) : Nat := field t 0 6

/-- The instruction in a slot; none for a literal slot, which is never decoded (R79). -/
def Slot.instr (s : Slot) : Option Instr :=
  if s.lit then none
  else
    match decodeWord s.word with
    | .ok i => some i
    | .error _ => none

/-- An operand is complete when it holds a value, or when every field that names it has delivered NULL (R85). -/
def Operand.complete (o : Operand) : Bool := o.val.isSome || decide (0 < o.feeders ∧ o.feeders ≤ o.nulls)

/-- Whether a slot waits, is predicated off, or is ready with its operands (R82, R87, R88). -/
inductive Ready where
  | no
  | off
  | on (a b c : Word)
deriving DecidableEq, Repr

/-- An operand that is not used counts as complete (R82). -/
def Operand.okFor (used : Bool) (o : Operand) : Bool := !used || o.complete

/-- An operand that is used holds NULL (R88). -/
def Operand.nullFor (used : Bool) (o : Operand) : Bool := used && o.val.isNone

/-- The state of the operands alone (R82, R88). -/
def Slot.operands (u : Uses) (s : Slot) : Ready :=
  if s.a.okFor u.a && s.b.okFor u.b && s.c.okFor u.c then
    if s.a.nullFor u.a || s.b.nullFor u.b || s.c.nullFor u.c then .off
    else .on (s.a.val.getD 0) (s.b.val.getD 0) (s.c.val.getD 0)
  else .no

/-- The state of a slot under its predication (R87, R88). -/
def Slot.ready (p : Pred) (u : Uses) (s : Slot) : Ready :=
  match p with
  | .always => s.operands u
  | .onTrue =>
    match s.p.val with
    | some v => if bitAt v 0 then s.operands u else .off
    | none => if s.p.complete then .off else .no
  | .onFalse =>
    match s.p.val with
    | some v => if bitAt v 0 then .off else s.operands u
    | none => if s.p.complete then .off else .no

end Sys2Proof.Machine
end

