-- ==== Sys2Proof/Machine/Flags.lean ====
section
/-!
DEFINITION. Conditions and computed status: the condition codes of CMP (R126), and the fields of CHST and TSTAT that follow
from other state (R180, R181). The scalar instructions set no flags (R122).
-/
namespace Sys2Proof.Machine

/-- A condition of CMP (R126). -/
def Cond.holds (cc : Cond) (a b : Word) : Bool :=
  match cc with
  | .eq => a == b
  | .ne => a != b
  | .lt => a.slt b
  | .le => a.sle b
  | .gt => b.slt a
  | .ge => b.sle a
  | .ltu => a.ult b
  | .leu => a.ule b
  | .gtu => b.ult a
  | .geu => b.ule a

/-- 1 or 0 in a register (R124). -/
def boolWord (b : Bool) : Word := if b then 1 else 0

/-- The number of tokens on a pop channel that outstanding pops will take (R153, R168). -/
def Thread.popsOn (t : Thread) (ch : Nat) : Nat := (t.pops.filter fun p => p.2 == ch).length

/-- Pop channel `ch` holds a token that no outstanding pop will take (R168, R180). -/
def Thread.popReady (t : Thread) (ch : Nat) : Bool := decide (t.popsOn ch < (t.pop.get [] ch).length)

/-- A number whose bit `i` is set when `f i` (for `i` below `n`). -/
def bitsOf (f : Nat → Bool) : Nat → Nat
  | 0 => 0
  | n + 1 => bitsOf f n + (if f n then 2 ^ n else 0)

/-- CHST (R180). -/
def Thread.chst (t : Thread) : Word :=
  BitVec.ofNat 64 (bitsOf t.popReady 8 + 256 * bitsOf (fun ch => decide (8 ≤ (t.push.get [] ch).length)) 8)

/-- The memberships held (R161, R181). -/
def Quad.used (q : Quad) : Nat := bit (q.w0 != 0) + bit (q.w1 != 0) + bit (q.w2 != 0) + bit (q.w3 != 0)

/-- TSTAT (R181). -/
def Thread.tstat (t : Thread) : Word :=
  BitVec.ofNat 64
    (bit t.inh + 2 * bit t.wres + 4 * bit t.dbg + 16 * t.ctx.toNat + 64 * t.armst.toNat + 256 * t.oob.toNat
      + 4096 * bit t.taskActive + 65536 * t.gmem.used + 1048576 * (t.pops.length % 32))

end Sys2Proof.Machine
end

