-- ==== Sys2Proof/Machine/Ops.lean ====
section
/-!
DEFINITION. The named operations over the device: the agenda of steps in flight, free values, casts and their threads, the
entry of a trap (R183, R185) and the return from one (R173), and asynchronous causes (R186).
-/
namespace Sys2Proof.Machine

/-! ### The agenda -/

/-- An entry put behind those that fall due no later. -/
def agendaInsert (due : Nat) (i : Instr) : List (Nat × Instr) → List (Nat × Instr)
  | [] => [(due, i)]
  | (t, j) :: rest => if due < t then (due, i) :: (t, j) :: rest else (t, j) :: agendaInsert due i rest

/-- A device step that falls due `delay` clocks from now. -/
def Dev.post (d : Dev) (delay : Nat) (i : Instr) : Dev := { d with agenda := agendaInsert (d.now + delay) i d.agenda }

/-- Device steps that fall due together, in the order listed. -/
def Dev.postAll (d : Dev) (delay : Nat) (is : List Instr) : Dev := is.foldl (fun d i => d.post delay i) d

/-- An open delay of at most `bound` clocks (DESIGN CHOICE, log entry 3). -/
def Dev.delay (d : Dev) (bound : Nat) : Nat := min bound (Config.openDelay d.free)

/-- The next open value is another one. -/
def Dev.tickFree (d : Dev) : Dev := { d with free := d.free + 1 }

/-- A job for the end of the step. -/
def Dev.job (d : Dev) (j : Job) : Dev := { d with jobs := d.jobs ++ [j] }

/-! ### Casts and threads -/

/-- A cast changed; one that is saved and away takes what reaches it as well (R40, R94). -/
def Dev.modCast (d : Dev) (c : Nat) (f : Cast → Cast) : Dev := { d with casts := d.casts.upd c f, away := d.away.upd c f }

/-- A cast stands still from now on. -/
def Cast.stand (k : Cast) (now : Nat) : Cast := if k.frozen then k else { k with frozen := true, frozenAt := now }

/-- A thread changed. -/
def Dev.modTh (d : Dev) (c : Nat) (f : Thread → Thread) : Dev := d.modCast c fun k => { k with th := f k.th }

/-- The block in execution changed. -/
def Thread.modBlk (t : Thread) (f : Block → Block) : Thread := { t with blk := t.blk.map f }

/-- A slot of the block changed. -/
def Block.modSlot (b : Block) (n : Nat) (f : Slot → Slot) : Block := { b with slots := b.slots.modify n f }

/-- A scalar register written (R121). -/
def Thread.setReg (t : Thread) (r : Nat) (v : Word) : Thread := { t with regs := t.regs.set 0 r v }

/-- A scalar register read (R121). -/
def Thread.getReg (t : Thread) (r : Nat) : Word := t.regs.get 0 r

/-! ### Fault-queue entries -/

/-- The 64 bytes of eight words, zero beyond those given. -/
def entryBytes (ws : List Word) : List Byte := ((ws.flatMap fun (w : Word) => leBytes 8 w.toNat) ++ List.replicate 64 0).take 64

/-- An entry posted to a tenant's fault queue (R460). -/
def Dev.postFault (d : Dev) (tenant : Nat) (ws : List Word) : Dev := d.job (.post tenant (entryBytes ws))

/-! ### Traps -/

/-- What the raising event says of a trap (R183, R184). -/
structure Trap where
  cause : Byte
  sub   : Byte := 0
  slot  : Nat := 0
  async : Bool := false
  code  : BitVec 16 := 0
  i0 : Word := 0
  i1 : Word := 0
  i2 : Word := 0
  i3 : Word := 0
  restart : Word
deriving DecidableEq, Repr

/-- The synchronous causes are those below 0x20, and BKPT (R184). -/
def Trap.sync (t : Trap) : Bool := !t.async && t.cause != 0x20

/-- TCAUSE as a trap writes it (R182). -/
def Trap.tcause (t : Trap) (lost : Bool) : Word :=
  BitVec.ofNat 64 (t.cause.toNat + 256 * t.sub.toNat + 65536 * (t.slot % 64) + 2 ^ 22 * bit t.async
    + 2 ^ 23 * bit (t.async && lost) + 2 ^ 32 * t.code.toNat)

/-- The block in execution is discarded (R95): its results, effects and reservations go with it. -/
def Thread.discard (t : Thread) : Thread := { t with blk := none, seq := t.seq + 1 }

/-- A double or unhandled trap stops the thread (R185). -/
def Thread.stop (t : Thread) (tr : Trap) : Thread := { t.discard with mode := .stopped, pc := tr.restart }

/-- The wait is over: its event has come, or its condition holds (R157, R168). -/
def Thread.waitOver (t : Thread) (w : WaitSt) : Bool :=
  w.done ||
    match w.wait with
    | .strmWait => t.armst != 1
    | .waitTok mask task =>
      (List.range 8).any (fun ch => bitAt mask ch && t.popReady ch) || (task && t.taskToken.isSome)
    | _ => false

/-- The thread waits: a wait is open whose event has not come. -/
def Thread.waits (t : Thread) : Bool := t.wait.any fun w => !t.waitOver w

/-- The entry of a handler (R183): an open wait is saved, with the pause of a YIELD that follows it; a pause without a wait comes first
(R177). -/
def Thread.enter (t : Thread) (tr : Trap) (now : Nat) : Thread :=
  { t.discard with
    tcause := tr.tcause t.lost
    lost := t.lost && !tr.async
    tpc := tr.restart
    tinfo := ⟨tr.i0, tr.i1, tr.i2, tr.i3⟩
    wres := t.waits
    saved := t.wait.filter fun w => !t.waitOver w
    wait := none
    savedYield := t.yieldNext && t.waits
    yieldNext := false
    inh := true
    pc := t.tvec
    mode := if t.yieldNext && !t.waits then .pausing (now + 4) else .fetch (now + 1) }

/-- A trap is taken (R183): a synchronous one in handler mode is a double trap, any with TVEC = 0 is unhandled; either
freezes the cast, has a save image taken and posts an entry (R185). -/
def Dev.takeTrap (d : Dev) (c : Nat) (tr : Trap) : Dev :=
  match d.casts.find c with
  | none => d
  | some k =>
    if (k.th.inh && tr.sync) || k.th.tvec == 0 then
      let d := d.modCast c fun k => { (k.stand d.now) with th := k.th.stop tr }
      let d := d.postFault k.tenant
        [if k.th.inh && tr.sync then 1 else 2, BitVec.ofNat 64 c, tr.tcause k.th.lost, tr.restart, tr.i0, tr.i1, tr.i2, tr.i3]
      d.job (.poolSave c)
    else d.modTh c fun t => t.enter tr d.now

/-- The return from a handler (R173): INH and WRES are cleared, and the thread resumes the wait saved at entry, or fetches
TPC (DEDUCED, log entry 18 for a wait that the returning block itself began). -/
def Thread.eret (t : Thread) (now : Nat) : Thread :=
  { t with
    inh := false
    wres := false
    saved := none
    wait := if t.wres then t.saved.or t.wait else t.wait
    yieldNext := t.yieldNext || (t.wres && t.savedYield)
    savedYield := false
    pc := t.tpc
    mode := .fetch (now + 1) }

/-- A cause put behind those queued, but before those of the same clock with a higher code (R186). -/
def insertCause (a : AsyncCause) : List AsyncCause → List AsyncCause
  | [] => [a]
  | b :: rest => if b.at_ = a.at_ ∧ a.code.toNat < b.code.toNat then a :: b :: rest else b :: insertCause a rest

/-- An asynchronous cause joins the queue of 8, or is lost (R186). -/
def Thread.queueAsync (t : Thread) (a : AsyncCause) : Thread :=
  if t.asyncQ.length < 8 then { t with asyncQ := insertCause a t.asyncQ } else { t with lost := true }

/-! ### Waits -/

/-- The event of the wait numbered `id` has come: it is captured in the wait, saved or not (R40, R173). -/
def Thread.completeWait (t : Thread) (id : Nat) : Thread :=
  { t with
    wait := t.wait.map fun w => if w.id = id then { w with done := true } else w
    saved := t.saved.map fun w => if w.id = id then { w with done := true } else w }

end Sys2Proof.Machine
end

