-- ==== Sys2Proof/Machine/Thread.lean ====
section
/-!
DEFINITION. A control thread between and within its blocks (R82 to R97): how a slot is settled, fires, delivers, records an
effect or an exit or traps; how a wait ends; how a committed command leaves the thread.
-/
namespace Sys2Proof.Machine

/-! ### Where a thread goes on -/

/-- Between blocks: the thread waits, pauses at YIELD (R177) or fetches its successor (R97). -/
def Thread.goOn (t : Thread) (now : Nat) : Thread :=
  match t.wait with
  | some w =>
    if t.waitOver w then
      { t with wait := none, yieldNext := false, mode := if t.yieldNext then .pausing (now + 4) else .fetch (now + 1) }
    else { t with mode := .waiting }
  | none => { t with yieldNext := false, mode := if t.yieldNext then .pausing (now + 4) else .fetch (now + 1) }

/-- A waiting thread whose wait is over goes on; any other is left alone. -/
def Thread.wake (t : Thread) (now : Nat) : Thread :=
  match t.mode with
  | .waiting => t.goOn now
  | _ => t

/-- The event of a wait has come, and a waiting thread goes on. -/
def Dev.endWait (d : Dev) (c id : Nat) : Dev := d.modTh c fun t => (t.completeWait id).wake d.now

/-- The wait that is open and satisfies a condition: the current one, else the saved one. -/
def Thread.openWait (t : Thread) (p : Wait → Bool) : Option WaitSt :=
  match t.wait with
  | some w => if p w.wait then some w else t.saved.filter fun w => p w.wait
  | none => t.saved.filter fun w => p w.wait

/-- The open wait that satisfies a condition ends. -/
def Dev.endOpenWait (d : Dev) (c : Nat) (p : Wait → Bool) : Dev :=
  match d.casts.find c with
  | none => d
  | some k =>
    match k.th.openWait p with
    | some w => d.endWait c w.id
    | none => d

/-- An asynchronous cause reaches a thread (R186). -/
def Dev.raiseAsync (d : Dev) (c : Nat) (a : AsyncCause) : Dev := d.modTh c fun t => t.queueAsync { a with at_ := d.now }

/-- The thread waits on the cast's own graph (R42). -/
def Thread.inGraphWait (t : Thread) : Bool :=
  t.mode == .waiting && match t.wait with
    | some ⟨_, .drain _, _⟩ => true
    | some ⟨_, .strmWait, _⟩ => true
    | some ⟨_, .ctxSw _, _⟩ => true
    | some ⟨_, .mxScale, _⟩ => true
    | some ⟨_, .leaseRel _, _⟩ => true
    | _ => false

/-! ### Committed commands -/

/-- The commands that are accesses of memory, which fences and acquires order (R72, R73): the others only take their turn. -/
def isAccess : Instr → Bool
  | .channelRequest .. | .seAtomic .. | .seCntInit .. | .seCntDec .. | .seCntFree .. | .barrierUpdate .. | .seGrpMark .. => true
  | _ => false

/-- A command with its number in the thread's program order. -/
def withId (id : Nat) : Instr → Instr
  | .channelRequest r => .channelRequest { r with id := id }
  | .seAtomic r => .seAtomic { r with id := id }
  | .seCntInit r n => .seCntInit { r with id := id } n
  | .seCntDec r n => .seCntDec { r with id := id } n
  | .seCntFree r => .seCntFree { r with id := id }
  | .barrierUpdate r => .barrierUpdate { r with id := id }
  | .seGrpMark r h b o sc => .seGrpMark { r with id := id } h b o sc
  | i => i

/-- A command leaves the thread (R93): it may be performed from `due` on; a release waits for every earlier entry and for the stores to
replicated pages that have been numbered up to now, `stores`, since the thread may have read them; every access waits for those before
the last release fence (R72, R140). -/
def Thread.enqueue (t : Thread) (stores due lane : Nat) (release : Bool) (pa len : Nat) (data : List Byte) (act : Instr) : Thread :=
  { t with
    nextId := t.nextId + 1
    queue := t.queue ++ [{ id := t.nextId, due := due, lane := lane,
                           after := if release then t.nextId else if isAccess act then t.relFence else 0,
                           seen := if release then stores else if isAccess act then t.relSeen else 0,
                           blk := t.seq, pa := pa, len := len, data := data, act := withId t.nextId act }] }

/-- The aligned eight bytes that a physical address lies in, by which an engine orders requests (R361). -/
def location (pa : Nat) : Nat := pa / 8

/-- Requests that enter the order of a location at a synchronisation engine: the location and the requester (R361). -/
def seKey : Instr → Option (Nat × Nat)
  | .seAtomic r => some (location r.pa, r.requester)
  | .seCntInit r _ => some (location r.pa, r.requester)
  | .seCntDec r _ => some (location r.pa, r.requester)
  | .seCntFree r => some (location r.pa, r.requester)
  | .barrierUpdate r => some (location r.pa, r.requester)
  | .seBitmapOr r _ x _ _ => some (location x.pa, r.requester)
  | .seWaitRegister r => r.loc.map fun pa => (location pa, r.requester)
  | _ => none

/-- Two byte ranges overlap. -/
def overlap (pa len pa' len' : Nat) : Bool := decide (pa < pa' + len' ∧ pa' < pa + len ∧ 0 < len ∧ 0 < len')

/-- PA[51:50], the region of a physical address (R45). -/
def paRegion (pa : Nat) : Nat := pa / 2 ^ 50 % 4

/-- Accesses that one agent sends in the order in which it issues them: those to host memory (R452), and those to one line of a peer's
memory (R474). -/
def outwardInOrder (pa pa' : Nat) : Bool :=
  (paRegion pa == 1 && paRegion pa' == 1) || (paRegion pa == 2 && pa / 128 == pa' / 128)

/-- An earlier entry that must be performed first: one of the same lane, one that touches the same bytes (R71), one to host memory or to the
same line of a peer (R452, R474), or any that a release or release fence orders (R72). -/
def StoreEnt.blocks (e f : StoreEnt) : Bool :=
  (f.lane != 0 && e.lane == f.lane && !e.sent) || overlap e.pa e.len f.pa f.len || decide (e.id < f.after)
    || (decide (0 < e.len ∧ 0 < f.len) && outwardInOrder e.pa f.pa)

/-- The first entry that may leave now: none before it blocks it, and `ready` holds of it. -/
def eligible (ready : StoreEnt → Bool) : List StoreEnt → List StoreEnt → Option StoreEnt
  | _, [] => none
  | before, f :: rest =>
    if !f.sent && ready f && !(before.any fun e => e.blocks f) then some f else eligible ready (before ++ [f]) rest

/-- An entry leaves: an access stands in the queue until it is performed, any other command is gone from it. -/
def Thread.send (t : Thread) (e : StoreEnt) : Thread :=
  { t with queue := if isAccess e.act then t.queue.map fun f => if f.id = e.id then { f with sent := true } else f
                    else t.queue.filter fun f => f.id != e.id }

/-- A counter request that its engine has: it may be held there until the tenant's quota allows it (R375). -/
def StoreEnt.atEngine (e : StoreEnt) : Bool :=
  e.sent && match e.act with
    | .seCntInit .. | .seCntDec .. => true
    | _ => false

/-- Every access and command of the thread has been performed, or stands at an engine as a counter request. -/
def Thread.storesDone (t : Thread) : Bool := t.queue.all StoreEnt.atEngine

/-- An entry is performed. -/
def Thread.settle (t : Thread) (id : Nat) : Thread := { t with queue := t.queue.filter fun f => f.id != id }

/-- The numbers of the commands of a thread that are acquires and have no reply yet (R73). -/
def Thread.acquires (t : Thread) : List Nat := (t.pend.filter fun p => p.acquire && p.reply.isNone).map PendingCmd.ord

/-! ### Firing (R86 to R89) -/

/-- A slot about to fire: the cast, the slot number, the cast's state, its block, the slot, and the operand values. -/
structure Shot where
  c   : Nat
  n   : Nat
  k   : Cast
  blk : Block
  sl  : Slot
  a   : Word
  b   : Word
  z   : Word

/-- The phase of a slot set. -/
def Dev.setPhase (d : Dev) (c n : Nat) (p : Phase) : Dev :=
  d.modTh c fun t => t.modBlk fun b => b.modSlot n fun sl => { sl with phase := p }

/-- One of the clock's four firing places is taken (R86). -/
def Block.takePlace (b : Block) (now : Nat) : Block :=
  if b.clock = now then { b with fires := b.fires + 1 } else { b with clock := now, fires := 1 }

/-- A slot fires: it takes a place, and its phase is as given. -/
def Dev.fireAs (d : Dev) (sh : Shot) (p : Phase) : Dev :=
  d.modTh sh.c fun t => t.modBlk fun b => (b.takePlace d.now).modSlot sh.n fun sl => { sl with phase := p }

/-- A class V result, or NULL, to be delivered after the latency (R86). -/
def Dev.deliver (d : Dev) (sh : Shot) (latency : Nat) (v : Option Word) : Dev :=
  (d.fireAs sh .fired).post latency (.slotResultDeliver sh.c sh.blk.seq sh.n v)

/-- An entry put in slot order, after those of lower and equal slots. -/
def insertBySlot {α : Type} (n : Nat) (x : α) : List (Nat × α) → List (Nat × α)
  | [] => [(n, x)]
  | (k, y) :: rest => if n < k then (n, x) :: (k, y) :: rest else (k, y) :: insertBySlot n x rest

/-- An effect of class M or D, to be seen at commit (R89). -/
def Dev.record (d : Dev) (sh : Shot) (e : Effect) : Dev :=
  d.modTh sh.c fun t => t.modBlk fun b => { b with effects := insertBySlot sh.n e b.effects }

/-- A trap of the block that a slot raises when it fires (R95): the restart address is the block's. -/
def Dev.slotTrap (d : Dev) (sh : Shot) (cause : Byte) (i0 i1 : Word) (sub : Byte := 0) (code : BitVec 16 := 0) : Dev :=
  d.takeTrap sh.c { cause := cause, sub := sub, slot := sh.n, code := code, i0 := i0, i1 := i1, restart := sh.blk.addr }

/-- The instruction word as TINFO0 holds it (R184). -/
def Shot.word (sh : Shot) : Word := sh.sl.word.setWidth 64

/-- A slot predicated off (R88): a class V instruction delivers NULL in the next clock, whatever its latency. -/
def Dev.settleOff (d : Dev) (i : Instr) (c n seq : Nat) : Dev :=
  match classOf i with
  | .V => (d.setPhase c n .off).post 1 (.slotResultDeliver c seq n none)
  | .M => d.setPhase c n .off
  | .D => d.setPhase c n .off
  | .X => d.setPhase c n .off

/-- The address of the word after the last slot (R142). -/
def Block.next (b : Block) : Word := b.addr + 4 * BitVec.ofNat 64 (b.slots.length + 1)

/-- An identifier of the thread's own, for a command that awaits a reply. -/
def Dev.newId (d : Dev) (c : Nat) : Dev := d.modTh c fun t => { t with nextId := t.nextId + 1 }

end Sys2Proof.Machine
end

