-- ==== Sys2Proof/Machine/Memory.lean ====
section
/-!
DEFINITION. Memory as every agent reaches it: bytes (R7, R45), the channel checks (R60 to R62, R64, R485), host and peer
memory (R452, R474), page walks (R44, R48 to R53), the TLBs (R54) and the order of translation checks (R58).
-/
namespace Sys2Proof.Machine

/-! ### Bytes -/

/-- One byte of memory. -/
def Memory.byte (m : Memory) (pa : Nat) : Byte := Tbl.get Memory.unwritten m pa

/-- `len` bytes from an address. -/
def Memory.read (m : Memory) (pa len : Nat) : List Byte := (List.range len).map fun i => m.byte (pa + i)

/-- Bytes stored from an address on. -/
def Memory.write : Memory → Nat → List Byte → Memory
  | m, _, [] => m
  | m, pa, b :: bs => Memory.write (Tbl.set Memory.unwritten m pa b) (pa + 1) bs

/-- A word of bytes, least significant first (R7). -/
def wordOf (bs : List Byte) : Word := BitVec.ofNat 64 (leNat bs)

/-! ### Regions (R45) -/

/-- The compute dies of a part (R2). -/
def Part.hasDie (p : Part) (die : Nat) : Bool :=
  match p with
  | .eos8 => decide (die < 8)
  | .eos4 => die == 0 || die == 1 || die == 4 || die == 5

/-- Blocks in a row of the array (R2); a column has 12 on both parts. -/
def Part.columns (p : Part) : Nat :=
  match p with
  | .eos8 => 24
  | .eos4 => 12

/-- A compute die is present: the part has it, and it has not failed at boot (R2, R477, R482). -/
def Dev.hasDie (d : Dev) (die : Nat) : Bool := d.part.hasDie die && !bitAt d.boot.cdfail die

/-- UALink and the outlier side units are on EOS-8 alone (R2). -/
def Part.hasUal (p : Part) : Bool := p == .eos8

/-- The port, with its I/O die, exists on the part (R2). -/
def Part.hasPort (p : Part) (port : Nat) : Bool := port == 0 || (p == .eos8 && port == 1)

/-- PA[39:37]. -/
def paDie (pa : Nat) : Nat := pa / 2 ^ 37 % 8

/-- A peer address with the device's own id is local HBM (R45). -/
def Dev.ownPa (d : Dev) (pa : Nat) : Nat :=
  if paRegion pa = 2 ∧ pa / 2 ^ 40 % 2 ^ 10 = d.ualid.toNat then pa % 2 ^ 40 else pa

/-- A leaf that names no memory of the device (R45). -/
def Dev.badPa (d : Dev) (pa : Nat) : Bool :=
  match paRegion pa with
  | 0 => pa / 2 ^ 40 % 2 ^ 10 != 0 || !d.hasDie (paDie pa)
  | 1 => false
  | 2 => !d.part.hasUal
  | _ => true

/-! ### The channel checks -/

/-- A granule's entry (R60): V = 1 for granules 0 to 15 from reset, owned by tenant 0 under key slot 0. -/
def Dev.omapEntry (d : Dev) (die gidx : Nat) : BitVec 16 :=
  (d.omap.find (65536 * die + gidx)).getD (if gidx < 16 then 0x8000 else 0)

/-- The entry of an address (R60). -/
def Dev.omapAt (d : Dev) (pa : Nat) : BitVec 16 := d.omapEntry (paDie pa) (pa / 2 ^ 21 % 2 ^ 16)

/-- The key in the entry's slot, when one is loaded (R60, R484). -/
def Dev.keyAt (d : Dev) (pa : Nat) : Option Nat := d.keySlots.find (64 * paDie pa + field (d.omapAt pa) 8 6)

/-- A request is admitted (R61). -/
def Dev.admits (d : Dev) (tenant pa : Nat) : Bool :=
  bitAt (d.omapAt pa) 15 && (tenant == 0 || field (d.omapAt pa) 0 8 == tenant) && (d.keyAt pa).isSome

/-- The channel of a line (R60). -/
def chanOf (pa : Nat) : Nat :=
  ((pa / 2 ^ 7 % 64) ^^^ (pa / 2 ^ 13 % 64)) ^^^ ((pa / 2 ^ 19 % 64) ^^^ (pa / 2 ^ 25 % 64)) ^^^ (pa / 2 ^ 31 % 64)

/-- The TENANT entry (R62, R461), to the firmware fault queue. -/
def Dev.postTenant (d : Dev) (tenant pa : Nat) (wr : Bool) : Dev :=
  d.postFault 0
    [0x0F, BitVec.ofNat 64 (pa % 2 ^ 52),
     BitVec.ofNat 64 (tenant % 256 + 256 * field (d.omapAt pa) 0 8 + 2 ^ 16 * bit wr + 2 ^ 17 * bit (!bitAt (d.omapAt pa) 15)
       + 2 ^ 18 * bit (d.keyAt pa).isNone + 2 ^ 19 * paDie pa + 2 ^ 22 * chanOf pa)]

/-- The key under which a line was last written, 0 for none: the cells hold the plain bytes under it. Keys are numbered from 1. -/
def Dev.writtenKey (d : Dev) (pa : Nat) : Nat := d.lineKey.get 0 (pa / 128)

/-- A byte of a line under the granule's key (R64, R485): as written when that is the key the line was last written under; otherwise what
the line's ciphertext, which the old key made, is under the new key. A line that nothing has written reads as it stands (DESIGN CHOICE, log
entry 4). -/
def Dev.plainByte (m : Memory) (d : Dev) (pa : Nat) : Byte :=
  match d.keyAt pa with
  | some k =>
    if d.writtenKey pa = k ∨ d.writtenKey pa = 0 then m.byte pa
    else (rekeyBlock (Config.keyValue (d.writtenKey pa)) (Config.keyValue k) (pa % 2 ^ 40 / 128) (pa % 128 / 16)
      (m.read (pa / 16 * 16) 16)).getD (pa % 16) 0
  | none => m.byte pa

/-- LINKERR (R452, R461, R474). -/
def Dev.postLinkErr (d : Dev) (tenant pa : Nat) (peer wr : Bool) : Dev :=
  d.postFault tenant [0x0A, BitVec.ofNat 64 (bit peer), BitVec.ofNat 64 pa, BitVec.ofNat 64 (bit wr)]

/-- The link that carries a request to host or peer memory is up (R452, R474). -/
def Dev.linkUp (d : Dev) (pa : Nat) : Bool :=
  if paRegion pa = 1 then bitAt d.pcieUp (bit d.hostsel)
  else (d.uaroute.get 0 (pa / 2 ^ 40 % 2 ^ 10)) &&& d.ualUp != 0

/-- A read at a channel or a port: zero when denied (R62) or when no link is up (R452, R474). -/
def Dev.read (m : Memory) (d : Dev) (tenant pa len : Nat) : List Byte × Dev :=
  let pa := d.ownPa pa
  if paRegion pa = 0 then
    if d.admits tenant pa then ((List.range len).map fun i => d.plainByte m (pa + i), d)
    else (List.replicate len 0, d.postTenant tenant pa false)
  else if d.linkUp pa then (m.read pa len, d)
  else (List.replicate len 0, d.postLinkErr tenant pa (paRegion pa == 2) false)

/-- A line last written under another key takes the granule's key: its bytes become what they read as. -/
def rekeyLine (m : Memory) (d : Dev) (pa : Nat) : Memory :=
  Memory.write m (pa / 128 * 128) ((List.range 128).map fun i => d.plainByte m (pa / 128 * 128 + i))

/-- A write within one line at a channel or a port: dropped when denied (R62) or when no link is up (R452, R474). -/
def writeAt (s : State) (tenant pa : Nat) (data : List Byte) : State :=
  let pa := s.dev.ownPa pa
  if paRegion pa = 0 then
    if s.dev.admits tenant pa then
      match s.dev.keyAt pa with
      | some k =>
        if s.dev.lineKey.get 0 (pa / 128) = k then { s with mem := s.mem.write pa data }
        else
          { mem := (if s.dev.lineKey.get 0 (pa / 128) = 0 then s.mem else rekeyLine s.mem s.dev pa).write pa data
            dev := { s.dev with lineKey := s.dev.lineKey.set 0 (pa / 128) k } }
      | none => s
    else { s with dev := s.dev.postTenant tenant pa true }
  else if s.dev.linkUp pa then { s with mem := s.mem.write pa data }
  else { s with dev := s.dev.postLinkErr tenant pa (paRegion pa == 2) true }

/-! ### Translation -/

/-- Why an access is not translated: SUB and LVL of the syndrome (R58). -/
structure XFault where
  sub : Nat
  lvl : Nat
deriving DecidableEq, Repr

/-- TTEW0 and TTEW1 of entry `i` on a die (R53). -/
def Dev.tte0 (d : Dev) (die i : Nat) : Word := (d.ttew0.find (64 * die + i)).getD (if i = 0 then 0x100100 else 0x100000)
def Dev.tte1 (d : Dev) (die i : Nat) : Word := (d.ttew1.find (64 * die + i)).getD 0

/-- The valid entry of a tenant on a die: the lowest (R53). -/
def Dev.tteOf (d : Dev) (die tenant : Nat) : Option Nat :=
  (List.range 64).find? fun i => bitAt (d.tte0 die i) 8 && field (d.tte0 die i) 0 8 == tenant

/-- A bad entry of a table at a level (R49, R50). -/
def badPte (lvl : Nat) (e : Word) : Bool :=
  if bitAt e 1 then
    field e 10 2 != 0 || field e 52 4 != 0 || lvl == 4 || lvl == 3 || field e 5 2 == 3 || decide (2 ≤ field e 7 3)
      || (field e 5 2 == 2 && lvl != 2)
  else field e 2 10 != 0 || field e 52 4 != 0 || lvl == 0

/-- log2 of the page size of a leaf (R50). -/
def pageShift (lvl : Nat) (e : Word) : Nat := 12 + 9 * lvl + 4 * field e 5 2

/-- The physical address a leaf or pointer names. -/
def ptePa (e : Word) : Nat := 4096 * field e 12 40

/-- Where a walk goes from an entry it has read and checked. -/
inductive Walk where
  | fail (f : XFault)
  | leaf (e : Word)
  | table (pa : Nat)
deriving DecidableEq, Repr

/-- A root or a pointer that names no table: R48 gives XLAT.PHYS for a region other than local HBM, and an address there that names no
memory of the device (R45 speaks of leaves) is taken the same way (DESIGN CHOICE, log entry 104). -/
def Dev.badTable (d : Dev) (pa : Nat) : Bool := paRegion pa != 0 || d.badPa pa

/-- The checks of one entry (R49, R50): INVALID, then PTE. -/
def checkPte (lvl : Nat) (e : Word) : Walk :=
  if !bitAt e 0 then .fail ⟨2, lvl⟩
  else if badPte lvl e || (bitAt e 1 && ptePa e % 2 ^ pageShift lvl e != 0) then .fail ⟨3, lvl⟩
  else if bitAt e 1 then .leaf e
  else .table (ptePa e)

/-- A leaf maps the page of an address, unless it names no memory (R45, R58). -/
def Dev.mapBy (d : Dev) (tenant va lvl : Nat) (e : Word) : Except XFault TlbEnt :=
  if d.badPa (ptePa e) then .error ⟨4, lvl⟩
  else .ok { tenant := tenant, vpn := va / 2 ^ pageShift lvl e, shift := pageShift lvl e, level := lvl, pa := ptePa e,
             w := bitAt e 2, x := bitAt e 3, rpl := bitAt e 4, uc := field e 7 3 == 1 }

/-- A walker's read of entry `ix` of a table: a request of tenant 0 (R52). -/
def Dev.readPte (m : Memory) (d : Dev) (table ix : Nat) : Word × Dev :=
  let r := Dev.read m d 0 (table + 8 * ix) 8
  (wordOf r.1, r.2)

/-- The walk from the table of level `lvl`, on `n + 1` levels (R48, R51). -/
def walkFrom (m : Memory) (d : Dev) (tenant va : Nat) : Nat → Nat → Except XFault TlbEnt × Dev
  | lvl, table =>
    let ix := va / 2 ^ (12 + 9 * lvl) % 512
    let r := Dev.readPte m d table ix
    match checkPte lvl r.1, lvl with
    | .fail f, _ => (.error f, r.2)
    | .table pa, lvl' + 1 => if d.badTable pa then (.error ⟨4, lvl⟩, r.2) else walkFrom m r.2 tenant va lvl' pa
    | .table _, 0 => (.error ⟨3, 0⟩, r.2)
    | .leaf e, lvl =>
      let group := 2 ^ (4 * field e 5 2)
      let first := ix / group * group
      if first = ix then (d.mapBy tenant va lvl e, r.2)
      else
        let r' := Dev.readPte m r.2 table first
        match checkPte lvl r'.1 with
        | .fail f => (.error f, r'.2)
        | .table _ => (.error ⟨3, lvl⟩, r'.2)
        | .leaf e' => (if field e' 5 2 = field e 5 2 then d.mapBy tenant va lvl e' else .error ⟨3, lvl⟩, r'.2)

/-- The walk of a tenant's tables on a die (R48, R52, R53), noted among the walks of the step. -/
def Dev.walk (m : Memory) (d : Dev) (die tenant va : Nat) : Except XFault TlbEnt × Dev :=
  match d.tteOf die tenant with
  | none => (.error ⟨2, 4⟩, d)
  | some i =>
    let root := 4096 * field (d.tte1 die i) 12 40
    if d.badTable root then (.error ⟨4, 4⟩, d)
    else walkFrom m { d with walked := d.walked ++ [(die, tenant, va / 4096)] } tenant va 4 root

/-! ### The TLBs (R54) -/

/-- An entry that covers an address. -/
def TlbEnt.covers (e : TlbEnt) (tenant va : Nat) : Bool := e.tenant == tenant && va / 2 ^ e.shift == e.vpn

/-- An entry kept, the oldest beyond the capacity lost. -/
def fillTlb (cap : Nat) (es : List TlbEnt) (e : TlbEnt) : List TlbEnt := (e :: es).take cap

/-- The TLBs an agent looks through: its port TLB, if it has one, and its block's TLB, if it is in a block (R54). -/
structure Via where
  port  : Option Nat
  block : Option Nat
  die   : Nat
deriving DecidableEq, Repr

/-- A page found in the TLBs or by a walk, and left in them. -/
def Dev.page (m : Memory) (d : Dev) (v : Via) (tenant va : Nat) : Except XFault TlbEnt × Dev :=
  let inPort := v.port.bind fun p => (d.tlbPort.get [] p).find? fun e => e.covers tenant va
  let inBlock := v.block.bind fun b => (d.tlbBlock.get [] b).find? fun e => e.covers tenant va
  let fillPort := fun (d : Dev) (e : TlbEnt) =>
    match v.port with
    | some p => { d with tlbPort := d.tlbPort.modify [] p fun es => fillTlb 64 es e }
    | none => d
  let fillBlock := fun (d : Dev) (e : TlbEnt) =>
    match v.block with
    | some b => { d with tlbBlock := d.tlbBlock.modify [] b fun es => fillTlb 512 es e }
    | none => d
  match inPort with
  | some e => (.ok e, d)
  | none =>
    match inBlock with
    | some e => (.ok e, fillPort d e)
    | none =>
      match (d.tlbLast.get [] v.die).find? fun e => e.covers tenant va with
      | some e => (.ok e, fillPort (fillBlock d e) e)
      | none =>
        match Dev.walk m d v.die tenant va with
        | (.error f, d) => (.error f, d)
        | (.ok e, d) =>
          (.ok e, fillPort (fillBlock { d with tlbLast := d.tlbLast.modify [] v.die fun es => fillTlb 16384 es e } e) e)

/-- What an access does to the page (R58). -/
inductive Access where
  | load
  | store
  | fetch
deriving DecidableEq, Repr

/-- An address translated: the physical address, the tenant as which the channels check a request there, the level of its leaf (5 in
the boot window), the base of its page when that is replicated, and whether it is UC. -/
structure Placed where
  pa  : Nat
  tid : Nat
  lvl : Nat
  rpl : Option Nat
  uc  : Bool
deriving DecidableEq, Repr

/-- bits [63:57] each equal bit [56] (R44). -/
def canonical (va : Word) : Bool := field va 57 7 == if bitAt va 56 then 127 else 0

/-- The boot window is open to tenant 0 on a die (R53). -/
def Dev.bootWindow (d : Dev) (die : Nat) : Bool :=
  match d.tteOf die 0 with
  | some i => field (d.tte1 die i) 12 40 == 0
  | none => false

/-- The address lies in the code window of the tenant (R391). -/
def Dev.inWindow (d : Dev) (die tenant : Nat) (va : Word) : Bool :=
  match d.tteOf die tenant with
  | some i => field (d.pl.win.get 0 i) 12 40 != 0 && field va 48 9 == field (d.pl.win.get 0 i) 0 9
  | none => false

/-- An access of a tenant from a die, checked in the order of R58; through the code window, requests are those of tenant 0 (R111). -/
def Dev.translate (m : Memory) (d : Dev) (v : Via) (tenant : Nat) (va : Word) (acc : Access) : Except XFault Placed × Dev :=
  if !canonical va then (.error ⟨1, 7⟩, d)
  else if tenant = 0 ∧ d.bootWindow v.die then
    if field va 52 5 ≠ 0 ∨ d.badPa (field va 0 52) then (.error ⟨4, 5⟩, d) else (.ok ⟨field va 0 52, tenant, 5, none, false⟩, d)
  else
    match Dev.page m d v tenant (field va 0 57) with
    | (.error f, d) => (.error f, d)
    | (.ok e, d) =>
      if (acc = .store ∧ !e.w) ∨ (acc = .fetch ∧ !e.x) then (.error ⟨5, e.level⟩, d)
      else (.ok ⟨e.pa + field va 0 57 % 2 ^ e.shift, if d.inWindow v.die tenant va then 0 else tenant, e.level, if e.rpl then some e.pa else none, e.uc⟩, d)

/-- The syndrome word (R58); AGENT is 0 for a control thread, 1 for a memory port, 2 for a copy channel. -/
def XFault.syndrome (f : XFault) (acc : Access) (agent tenant : Nat) : Word :=
  BitVec.ofNat 64 (f.sub + 16 * f.lvl + 128 * bit (acc == .store) + 256 * bit (acc == .fetch) + 512 * agent
    + 65536 * (tenant % 256))

/-! ### Page walkers (R55) -/

/-- The walks in flight that a tenant may have on a die (R53). -/
def Dev.walkQuota (d : Dev) (die tenant : Nat) : Nat :=
  match d.tteOf die tenant with
  | some i => max 1 (min 128 (field (d.tte0 die i) 16 8))
  | none => 1

/-- A walk in flight: it has a walker, and has not ended. -/
def WalkSt.inFlight (w : WalkSt) (now : Nat) : Bool :=
  match w.due with
  | some t => decide (now < t)
  | none => false

/-- The walk of a page has ended in this clock; a step that needs it may go on. -/
def Dev.walkEnded (d : Dev) (die tenant page : Nat) : Bool :=
  (d.walks.get [] die).any fun w => w.tenant == tenant && w.page == page && match w.due with
    | some t => decide (t ≤ d.now)
    | none => false

/-- The walk of a page is under way or waits for a walker. -/
def Dev.walkPending (d : Dev) (die tenant page : Nat) : Bool :=
  (d.walks.get [] die).any fun w => w.tenant == tenant && w.page == page && match w.due with
    | some t => decide (d.now < t)
    | none => true

/-- The walks in flight on a die, of one tenant. -/
def Dev.walksOf (d : Dev) (die tenant : Nat) : Nat :=
  ((d.walks.get [] die).filter fun w => w.tenant == tenant && w.inFlight d.now).length

/-- The miss that is granted a walker next: while one of the 128 is free, the oldest miss of a tenant below its quota; among such tenants
the one with the fewest walks, then the first by translation entry (DEDUCED, log entry 105). -/
def Dev.nextMiss (d : Dev) (die : Nat) : Option WalkSt :=
  let ws := d.walks.get [] die
  if 128 ≤ (ws.filter fun w => w.inFlight d.now).length then none
  else
    (ws.filter fun w => w.due.isNone && decide (d.walksOf die w.tenant < d.walkQuota die w.tenant)).foldl (fun best w =>
      let key := fun (w : WalkSt) => 64 * d.walksOf die w.tenant + (d.tteOf die w.tenant).getD 0
      match best with
      | none => some w
      | some b => if key w < key b then some w else some b) none

/-- The first of a list that satisfies a condition, changed. -/
def modFirst {α : Type} (p : α → Bool) (f : α → α) : List α → List α
  | [] => []
  | x :: xs => if p x then f x :: xs else x :: modFirst p f xs

/-- A miss takes a walker, for an open number of clocks (log entry 3); PAGE_WALK comes at its end. -/
def Dev.startWalk (d : Dev) (die : Nat) (w : WalkSt) : Dev :=
  let t := Config.openDelay d.free
  ({ d with walks := d.walks.modify [] die (modFirst (fun x => x == w) fun x => { x with due := some (d.now + t) }) }.post t
    (.pageWalk die w.tenant ((BitVec.ofNat 57 (4096 * w.page)).signExtend 64) false false)).tickFree

/-- A miss of the last-level TLB: it joins the walk of the same page, or waits for a walker. -/
def Dev.miss (d : Dev) (die tenant page : Nat) : Dev :=
  if d.walkPending die tenant page then d
  else { d with walks := d.walks.modify [] die fun ws => ws ++ [{ tenant := tenant, page := page }] }

/-- The step that has been put off, for its slot. -/
def Stall.isFor (x : Stall) (i : Instr) (slot : Option (Nat × Nat)) : Bool := x.act == i && x.slot == slot

/-- The walks for which a step has stood still, up to the last of them, which ends in this clock. -/
def Dev.waitedFor (d : Dev) (i : Instr) (slot : Option (Nat × Nat)) : List (Nat × Nat × Nat) :=
  (d.stalls.find? fun x => x.isFor i slot).elim [] fun x => (x.die, x.tenant, x.page) :: x.past

/-- The first walk that a step has made, that has not ended before it, and for which it has not stood still. -/
def Dev.earlyWalk (d d' : Dev) (i : Instr) (slot : Option (Nat × Nat)) : Option (Nat × Nat × Nat) :=
  d'.walked.find? fun w => !d.walkEnded w.1 w.2.1 w.2.2 && !(d.waitedFor i slot).contains w

/-- Two marks of one group, which its engine takes in order (R165). -/
def sameGroup (i j : Instr) : Bool :=
  match i, j with
  | .seGrpMark _ h _ _ _, .seGrpMark _ h' _ _ _ => h == h'
  | _, _ => false

/-- A step stands still until the walk that it needs has ended, and a mark of a group behind an earlier one that does. -/
def Dev.isStalled (d : Dev) (i : Instr) (slot : Option (Nat × Nat)) : Bool :=
  d.stalls.any fun x => (x.isFor i slot || sameGroup x.act i) && d.walkPending x.die x.tenant x.page

/-- A step put off: the walk that it needs is asked for. -/
def Dev.stall (d : Dev) (i : Instr) (slot : Option (Nat × Nat)) (w : Nat × Nat × Nat) : Dev :=
  let d := d.miss w.1 w.2.1 w.2.2
  { d with stalls := { act := i, slot := slot, die := w.1, tenant := w.2.1, page := w.2.2, past := d.waitedFor i slot } ::
                      d.stalls.filter fun x => !x.isFor i slot }

/-- At the end of a clock the walks that have ended are gone, with the steps that stood still for them. -/
def Dev.dropWalks (d : Dev) : Dev :=
  let left := d.walks.map fun (e : Nat × List WalkSt) => (e.1, e.2.filter fun w => w.due.isNone || w.inFlight d.now)
  let d := { d with walks := left.filter fun e => !e.2.isEmpty }
  { d with stalls := d.stalls.filter fun x => d.walkPending x.die x.tenant x.page }

/-! ### Where an agent stands -/

/-- The compute die of a block (R5): four columns of dies of six blocks each, two rows of six. -/
def dieOfBlock (bx by_ : Nat) : Nat := bx / 6 + 4 * (by_ / 6)

/-- The die of a cast's north-west block. -/
def Cast.die (k : Cast) : Nat := dieOfBlock k.bx k.by_

/-- The requester id of a cast's thread (R360). -/
def Cast.requester (k : Cast) : Nat := 144 * (6 * k.by_) + 6 * k.bx

/-- The block number of a package block. -/
def blockIx (bx by_ : Nat) : Nat := 24 * by_ + bx

/-- The TLBs of a cast's thread (R54). -/
def Cast.via (k : Cast) : Via := { port := none, block := some (blockIx k.bx k.by_), die := k.die }

/-- A replicated page is read at the replica of the issuer's die (R77). -/
def Placed.readPa (p : Placed) (die : Nat) : Nat :=
  if p.rpl.isSome then 2 ^ 40 * (p.pa / 2 ^ 40) + 2 ^ 37 * die + p.pa % 2 ^ 37 else p.pa

end Sys2Proof.Machine
end

