-- ==== Sys2Proof/Machine/Sites.lean ====
section
/-!
DEFINITION. The sites of a cast: which kind stands where (R16), the words of the resident context (R188, R190, R194), and
the named operations on a site's state.
-/
namespace Sys2Proof.Machine

/-- The kinds of sites, by the codes of KIND (R190). -/
inductive Kind where
  | ve
  | mx
  | sb
  | so
  | cx
deriving DecidableEq, Repr

/-- The block map (R16), by relative x and y within the block. -/
def kindAt (x y : Nat) : Kind :=
  match x % 6, y % 6 with
  | 2, 0 => .sb
  | 5, 0 => .so
  | 5, 1 => .cx
  | 0, 2 => .mx
  | 1, 2 => .mx
  | 4, 2 => .sb
  | 0, 3 => .mx
  | 1, 3 => .mx
  | 5, 3 => .so
  | 2, 4 => .sb
  | 3, 5 => .sb
  | 5, 5 => .so
  | _, _ => .ve

/-- A site number from relative coordinates, and back. -/
def siteNo (x y : Nat) : Nat := 144 * y + x
def siteX (n : Nat) : Nat := n % 144
def siteY (n : Nat) : Nat := n / 144

/-- The kind of a site. -/
def kindOf (n : Nat) : Kind := kindAt (siteX n) (siteY n)

/-- The anchor of the matrix element whose block holds a site (R16). -/
def mxAnchor (x y : Nat) : Nat := siteNo (x / 6 * 6) (y / 6 * 6 + 2)

/-- The site at which the element of a position stands: any site of an MX names its anchor (R154, R282). -/
def elementSite (x y : Nat) : Nat := if kindAt x y = .mx then mxAnchor x y else siteNo x y

/-- The element of a site after LOAD; the matrix element stands at its anchor. -/
def freshElem (n : Nat) : Elem :=
  match kindOf n with
  | .mx => if mxAnchor (siteX n) (siteY n) = n then .mx {} else .none
  | .sb => .sb {}
  | .cx => .cx {}
  | .ve => .ve {}
  | .so => .so {}

/-- A site of a placed cast; one that nothing has touched is as after LOAD with zero contexts. -/
def Cast.site (k : Cast) (n : Nat) : Site := (k.sites.find n).getD { el := freshElem n }

/-- A site changed. -/
def Cast.modSite (k : Cast) (n : Nat) (f : Site → Site) : Cast := { k with sites := k.sites.put n (f (k.site n)) }

/-- A site of a cast changed. -/
def Dev.modSite (d : Dev) (c n : Nat) (f : Site → Site) : Dev := d.modCast c fun k => k.modSite n f

/-- The ECW and SCW of the resident context (R189). -/
def Site.ecwNow (s : Site) : BitVec 128 := s.ecw.get 0 s.ctx
def Site.scwNow (s : Site) : BitVec 128 := s.scw.get 0 s.ctx

/-- The constant K of the resident context: ECW word 3 (R193). -/
def Site.konst (s : Site) : BitVec 32 := s.ecwNow.extractLsb' 96 32

/-- Fields of ECW word 0 (R190). -/
def ecwKind (e : BitVec 128) : Nat := field e 28 4
def ecwOp (e : BitVec 128) : Nat := field e 20 8
def ecwFmt (e : BitVec 128) : Nat := field e 16 4
def ecwMode (e : BitVec 128) : Nat := field e 12 4
def ecwIn (e : BitVec 128) (p : InPort) : Bool :=
  match p with
  | .a => bitAt e 8
  | .b => bitAt e 9
  | .c => bitAt e 10
  | .d => bitAt e 11
def ecwOut (e : BitVec 128) (o : OutPort) : Bool :=
  match o with
  | .y => bitAt e 6
  | .z => bitAt e 7

/-- The relative position lies within the cast (R154, R216). -/
def Cast.inside (k : Cast) (x y : Nat) : Bool := decide (x < 6 * k.wb ∧ y < 6 * k.hb)

/-- Package coordinates of a site of a cast (R5). -/
def Cast.pkgX (k : Cast) (n : Nat) : Nat := 6 * k.bx + siteX n
def Cast.pkgY (k : Cast) (n : Nat) : Nat := 6 * k.by_ + siteY n

/-- The requester id of a site (R360). -/
def Cast.siteRequester (k : Cast) (n : Nat) : Nat := 144 * k.pkgY n + k.pkgX n

/-- The compute die of a site (R5). -/
def Cast.siteDie (k : Cast) (n : Nat) : Nat := k.pkgX n / 36 + 4 * (k.pkgY n / 36)

/-- The TLBs of a port at a site (R54). -/
def Cast.portVia (k : Cast) (n : Nat) : Via :=
  { port := some (k.siteRequester n), block := some (blockIx (k.pkgX n / 6) (k.pkgY n / 6)), die := k.siteDie n }

/-- A bank's state, at an SB site. -/
def Site.bank? (s : Site) : Option SbSt :=
  match s.el with
  | .sb b => some b
  | _ => none

/-- A bank changed. -/
def Dev.modBank (d : Dev) (c n : Nat) (f : SbSt → SbSt) : Dev :=
  d.modSite c n fun s =>
    match s.el with
    | .sb b => { s with el := .sb (f b) }
    | _ => s

/-- A converter's state, at a CX site. -/
def Site.conv? (s : Site) : Option CxSt :=
  match s.el with
  | .cx x => some x
  | _ => none

/-- A converter changed. -/
def Dev.modConv (d : Dev) (c n : Nat) (f : CxSt → CxSt) : Dev :=
  d.modSite c n fun s =>
    match s.el with
    | .cx x => { s with el := .cx (f x) }
    | _ => s

/-- A vector element's state, at a VE site. -/
def Site.vec? (s : Site) : Option VeSt :=
  match s.el with
  | .ve v => some v
  | _ => none

/-- A vector element changed. -/
def Dev.modVec (d : Dev) (c n : Nat) (f : VeSt → VeSt) : Dev :=
  d.modSite c n fun s =>
    match s.el with
    | .ve v => { s with el := .ve (f v) }
    | _ => s

/-- A matrix element's state, at an anchor. -/
def Site.mat? (s : Site) : Option MxSt :=
  match s.el with
  | .mx m => some m
  | _ => none

/-- A matrix element changed. -/
def Dev.modMat (d : Dev) (c n : Nat) (f : MxSt → MxSt) : Dev :=
  d.modSite c n fun s =>
    match s.el with
    | .mx m => { s with el := .mx (f m) }
    | _ => s

/-- A stream operator's state, at an SO site. -/
def Site.op? (s : Site) : Option SoSt :=
  match s.el with
  | .so o => some o
  | _ => none

/-- A stream operator changed. -/
def Dev.modOp (d : Dev) (c n : Nat) (f : SoSt → SoSt) : Dev :=
  d.modSite c n fun s =>
    match s.el with
    | .so o => { s with el := .so (f o) }
    | _ => s

/-! ### Handles (R214, R215, R218) -/

def hndSite (h : Word) : Nat := siteNo (field h 0 8) (field h 8 7)
def hndIx (h : Word) : Nat := field h 16 4
def hndGen (h : Word) : Nat := field h 20 12

/-- The handle's entry when the handle is current (R214). -/
def Cast.current (k : Cast) (h : Word) : Option HndEnt :=
  if bitAt h 15 || field h 32 32 != 0 || !k.inside (field h 0 8) (field h 8 7) then none
  else
    match (k.site (hndSite h)).bank? with
    | none => none
    | some b =>
      let e := b.hnd.get {} (hndIx h)
      if e.used && e.gen == hndGen h then some e else none

/-- A transfer of the handle has left the thread and has not reached the bank (R218, R219). -/
def Thread.givesUp (t : Thread) (c : Nat) (h : Word) : Bool :=
  t.queue.any fun e => e.act == .sbHndGive c h || e.act == .sbHndDrop c h

/-- The thread holds the handle (R218). -/
def Cast.holds (k : Cast) (c : Nat) (h : Word) : Option HndEnt :=
  if k.th.givesUp c h then none
  else
    match k.current h with
    | some e => if e.elem then none else some e
    | none => none

end Sys2Proof.Machine
end

