-- ==== Sys2Proof/Machine/Links.lean ====
section
/-!
DEFINITION. Routes: from an output, a push channel or an incoming lane through the crossbars to the inputs, pop channels,
ports and walls it reaches (R191, R192, R195 to R199, R204), with the clocks it takes (R24), and the emission of a token.
-/
namespace Sys2Proof.Machine

/-- One destination of a source: where, after how many hops and seams (R24); a bus takes 2 clocks instead (R199). `via` lists the
outgoing lanes on the way, as sites with lane numbers; `phase` is the configuration phase under which the token is sent. -/
structure Route where
  dst : Dest
  h   : Nat
  s   : Nat
  bus : Bool := false
  wide : Bool := false
  phase : Nat := 0
  via : List (Nat × Nat) := []
deriving DecidableEq, Repr

/-- The clocks from firing to acceptance: 1 + h + 8 × s (R24). -/
def Route.clocks (r : Route) : Nat := if r.bus then 2 else 1 + r.h + 8 * r.s

/-- The crossbar selector of an outgoing lane (R194). -/
def xbar (scw : BitVec 128) (wide : Bool) (lane : Nat) : Nat := if wide then field scw (48 + 3 * lane) 3 else field scw (3 * lane) 3

/-- SEL and SLOTS of an input (R191). -/
def inByte (ecw : BitVec 128) (p : InPort) : Nat :=
  match p with
  | .a => field ecw 32 8
  | .b => field ecw 40 8
  | .c => field ecw 48 8
  | .d => field ecw 56 8
def inSel (ecw : BitVec 128) (p : InPort) : Nat := inByte ecw p % 32
def inSlots (ecw : BitVec 128) (p : InPort) : Nat := inByte ecw p / 32

/-- The half-word of an output (R192). -/
def outHalf (ecw : BitVec 128) (o : OutPort) : Nat :=
  match o with
  | .y => field ecw 64 16
  | .z => field ecw 80 16
def outPop (ecw : BitVec 128) (o : OutPort) : Bool := outHalf ecw o / 64 % 2 == 1

/-- The lanes of a width at a port. -/
def lanesPer (wide : Bool) : Nat := if wide then 2 else 4

/-- The four inputs. -/
def allInPorts : List InPort := [.a, .b, .c, .d]

/-- SEL of an incoming lane (R191); ports are 0 N, 1 E, 2 S, 3 W. -/
def laneSel (wide : Bool) (port lane : Nat) : Nat := if wide then 1 + 2 * port + lane else 9 + 4 * port + lane

/-- The site beyond a port, and whether a seam lies between (R15), by package coordinates of the near one. -/
def Cast.beyond (k : Cast) (n port : Nat) : Option (Nat × Nat) :=
  let x := siteX n
  let y := siteY n
  match port with
  | 0 => if y = 0 then none else some (siteNo x (y - 1), bit (k.pkgY n == 36))
  | 1 => if x + 1 < 6 * k.wb then some (siteNo (x + 1) y, bit ((k.pkgX n + 1) % 36 == 0)) else none
  | 2 => if y + 1 < 6 * k.hb then some (siteNo x (y + 1), bit (k.pkgY n + 1 == 36)) else none
  | _ => if x = 0 then none else some (siteNo (x - 1) y, bit (k.pkgX n % 36 == 0))

/-- The wall register of a package site (R204): every side walled from reset. -/
def Dev.wall (d : Dev) (X Y : Nat) : BitVec 64 := (d.walls.find (144 * Y + X)).getD 0xF

/-- WALL (R204): at most one entry for each side in each phase. -/
def Dev.postWall (d : Dev) (c n side net : Nat) (t : Nat) : Dev :=
  match d.casts.find c with
  | none => d
  | some k =>
    if bitAt (k.site n).wallSeen side then d
    else
      let tid := field (d.wall (k.pkgX n) (k.pkgY n)) 8 8
      (d.modSite c n fun s => { s with wallSeen := s.wallSeen ||| BitVec.ofNat 4 (2 ^ side) }).postFault tid
        [0x0E, BitVec.ofNat 64 (k.pkgX n + 2 ^ 8 * k.pkgY n + 2 ^ 16 * side + 2 ^ 18 * net + 2 ^ 20 * t + 2 ^ 24 * tid)]

/-- A site of a row that the old cast of a ROLL has given up (R407). -/
def Cast.goneRow (k : Cast) (n : Nat) : Bool := decide (siteY n / 6 < k.gone)

/-- The index of the first entry that satisfies a condition. -/
def firstIx {α : Type} (p : α → Bool) : Nat → List α → Option Nat
  | _, [] => none
  | i, x :: rest => if p x then some i else firstIx p (i + 1) rest

/-- The logical OUT port at an output of a site (R382). -/
def Cast.outPortAt (k : Cast) (n local_ : Nat) : Option Nat :=
  firstIx (fun p => p.isOut && p.site == n && p.local_ == local_) 0 k.ports

/-- The inputs of a site that take a source code (R191). -/
def takers (ecw : BitVec 128) (sel : Nat) : List InPort := allInPorts.filter fun p => ecwIn ecw p && inSel ecw p == sel

/-- The outgoing lanes of a site whose selector is `code`; from an incoming lane, only lanes of its own number (R195). -/
def lanesOf (scw : BitVec 128) (wide : Bool) (code : Nat) (only : Option Nat) : List Nat :=
  (List.range (if wide then 8 else 16)).filter fun lane =>
    xbar scw wide lane == code && (match only with
      | some l => lane % lanesPer wide == l
      | none => true)

/-- A route of a network and a phase with nothing on the way yet. -/
def Route.start (wide : Bool) (phase : Nat) : Route := { dst := .pop 0, h := 0, s := 0, wide := wide, phase := phase }

/-- Where a token goes that arrives at a site on an incoming lane, under context `ctx`, having come by `r`. -/
def Cast.traceIn (d : Dev) (k : Cast) (ctx : Nat) : Nat → Nat → Nat → Nat → Route → List Route
  | 0, _, _, _, _ => []
  | fuel + 1, n, port, lane, r =>
    let site := k.site n
    let ins := (takers (site.ecw.get 0 ctx) (laneSel r.wide port lane)).map fun p => { r with dst := .input n p r.phase }
    let onward := (lanesOf (site.scw.get 0 ctx) r.wide (port + 1) (some lane)).flatMap fun out =>
      let side := out / lanesPer r.wide
      let r := { r with via := r.via ++ [(n, out)] }
      match k.beyond n side with
      | none => [{ r with dst := .wall n side r.phase }]
      | some (n', seam) =>
        if bitAt (d.wall (k.pkgX n) (k.pkgY n)) side || k.goneRow n' then [{ r with dst := .wall n side r.phase }]
        else Cast.traceIn d k ctx fuel n' ((side + 2) % 4) (out % lanesPer r.wide) { r with h := r.h + 1, s := r.s + seam }
    ins ++ onward

/-- One outgoing lane of a site's own source. -/
def Cast.traceLane (d : Dev) (k : Cast) (ctx phase : Nat) (wide : Bool) (n out : Nat) (port : Option Nat) : List Route :=
  let side := out / lanesPer wide
  let r := { Route.start wide phase with via := [(n, out)] }
  match k.beyond n side with
  | none =>
    match port with
    | some ix => [{ r with dst := .out ix }]
    | none => [{ r with dst := .wall n side phase }]
  | some (n', seam) =>
    if bitAt (d.wall (k.pkgX n) (k.pkgY n)) side || k.goneRow n' then [{ r with dst := .wall n side phase }]
    else k.traceIn d ctx (36 * k.wb * k.hb) n' ((side + 2) % 4) (out % lanesPer wide) { r with h := 1, s := seam }

/-- The sequencer channel attached at a site (R196). -/
def attached (n : Nat) : Option Nat := if siteX n < 4 ∧ siteY n < 2 then some (siteX n + 4 * siteY n) else none

/-- The listeners of the bus that a site drives (R199): inputs of its block row or column with matching ids. -/
def Cast.busRoutes (k : Cast) (ctx phase n : Nat) : List Route :=
  let scw := (k.site n).scw.get 0 ctx
  let x0 := siteX n / 6 * 6
  let y0 := siteY n / 6 * 6
  let row := field scw 72 3
  let col := field scw 75 3
  let sites := match field scw 78 2 with
    | 1 => ((List.range 6).map fun i => (siteNo (x0 + i) (siteY n), 0x19))
    | 2 => ((List.range 6).map fun i => (siteNo (siteX n) (y0 + i), 0x1A))
    | _ => []
  sites.flatMap fun (m, sel) =>
    let l := k.site m
    let idr := field (l.scw.get 0 ctx) 72 3
    let idc := field (l.scw.get 0 ctx) 75 3
    if (row == 7 || row == idr) && (col == 7 || col == idc) then
      (takers (l.ecw.get 0 ctx) sel).map fun p => { Route.start true phase with dst := .input m p phase, bus := true }
    else []

/-- The candidates of an output, in the order of R202: outgoing lanes, the bus, the pop channel. -/
def Cast.candidates (d : Dev) (k : Cast) (ctx phase n : Nat) (o : OutPort) (wide : Bool) : List (List Route) :=
  let site := k.site n
  let ecw := site.ecw.get 0 ctx
  let scw := site.scw.get 0 ctx
  let code := match o with
    | .y => 5
    | .z => 6
  let lanes := (lanesOf scw wide code none).map fun out => k.traceLane d ctx phase wide n out (k.outPortAt n (code - 1))
  let bus := if o = .y ∧ field scw 78 2 ≠ 0 then [k.busRoutes ctx phase n] else []
  let pop := if outPop ecw o then (match attached n with
    | some ch => [[{ Route.start false phase with dst := .pop ch }]]
    | none => []) else []
  lanes ++ bus ++ pop

/-- Every destination of an output. -/
def Cast.routes (d : Dev) (k : Cast) (ctx phase n : Nat) (o : OutPort) (wide : Bool) : List Route :=
  (k.candidates d ctx phase n o wide).flatten

/-- Every destination of a push channel: its site's inputs with SEL 0x1B and outgoing narrow lanes with code 7 (R191, R195). -/
def Cast.pushRoutes (d : Dev) (k : Cast) (ctx phase ch : Nat) : List Route :=
  let n := siteNo (ch % 4) (ch / 4)
  let site := k.site n
  let ins := (takers (site.ecw.get 0 ctx) 0x1B).map fun p => { Route.start false phase with dst := .input n p phase }
  ins ++ (lanesOf (site.scw.get 0 ctx) false 7 none).flatMap fun out => k.traceLane d ctx phase false n out none

/-- The edge lane of an input in a context (R382): its network and number, when the input takes an incoming lane that faces out. -/
def Cast.edgeLane (k : Cast) (ctx n local_ : Nat) : Option (Bool × Nat) :=
  let e := (k.site n).ecw.get 0 ctx
  let port := allInPorts.getD local_ .a
  let sel := inSel e port
  let edge := fun (wide : Bool) (i : Nat) => if (k.beyond n (i / lanesPer wide)).isNone then some (wide, i) else none
  if !ecwIn e port then none
  else if 1 ≤ sel ∧ sel ≤ 8 then edge true (sel - 1)
  else if 9 ≤ sel ∧ sel ≤ 24 then edge false (sel - 9)
  else none

/-- The edge lanes of an output in a context (R382): the outgoing lanes of a network that the crossbar gives it and that face out. -/
def Cast.edgesOut (k : Cast) (ctx n local_ : Nat) (wide : Bool) : List Nat :=
  (lanesOf ((k.site n).scw.get 0 ctx) wide (local_ + 1) none).filter fun l => (k.beyond n (l / lanesPer wide)).isNone

/-- Where the tokens of an edge lane of a site go: the copies of the lane (R195, R382). -/
def Cast.edgeRoutes (d : Dev) (k : Cast) (ctx phase n : Nat) (wide : Bool) (l : Nat) : List Route :=
  k.traceIn d ctx (36 * k.wb * k.hb) n (l / lanesPer wide) (l % lanesPer wide) (Route.start wide phase)

/-- Every destination of an IN port; none in a context that does not use the port. -/
def Cast.inPortRoutes (d : Dev) (k : Cast) (ctx phase : Nat) (p : Port) : List Route :=
  match k.edgeLane ctx p.site p.local_ with
  | none => []
  | some (wide, l) => if wide = p.wide then k.edgeRoutes d ctx phase p.site wide l else []

/-! ### Where lanes get their tokens (R195) -/

/-- Where the tokens of a lane come from. -/
inductive Origin where
  | idle
  | output (n : Nat) (o : OutPort)
  | push (n : Nat)
  | edge (n : Nat)
  | loop (n : Nat)
deriving DecidableEq, Repr

/-- The lane followed back through the crossbars. -/
def Cast.origin (k : Cast) (ctx : Nat) (wide : Bool) : Nat → Nat → Nat → Origin
  | 0, n, _ => .loop n
  | fuel + 1, n, lane =>
    match xbar ((k.site n).scw.get 0 ctx) wide lane with
    | 0 => .idle
    | 5 => .output n .y
    | 6 => .output n .z
    | 7 => .push n
    | c =>
      match k.beyond n (c - 1) with
      | none => .edge n
      | some (m, _) => k.origin ctx wide fuel m ((c - 1 + 2) % 4 * lanesPer wide + lane % lanesPer wide)

/-- An outgoing lane's origin. -/
def Cast.laneOrigin (k : Cast) (ctx : Nat) (wide : Bool) (n lane : Nat) : Origin := k.origin ctx wide (16 * 36 * k.wb * k.hb) n lane

/-- Where the tokens of an incoming lane of a site come from. -/
def Cast.inOrigin (k : Cast) (ctx : Nat) (wide : Bool) (n port lane : Nat) : Origin :=
  match k.beyond n port with
  | none => .edge n
  | some (m, _) => k.laneOrigin ctx wide m ((port + 2) % 4 * lanesPer wide + lane)

/-! ### Slots (R25) -/

def Site.inQ (s : Site) (p : InPort) : InQ :=
  match p with
  | .a => s.inA
  | .b => s.inB
  | .c => s.inC
  | .d => s.inD

def Site.modIn (s : Site) (p : InPort) (f : InQ → InQ) : Site :=
  match p with
  | .a => { s with inA := f s.inA }
  | .b => { s with inB := f s.inB }
  | .c => { s with inC := f s.inC }
  | .d => { s with inD := f s.inD }

/-- How many tokens may stand on a link of `slots` slots whose tokens take `clocks` clocks, so that it sustains the rates of R26
(DEDUCED, log entry 20): as many as it has slots on a link of one clock (R25), and on a longer one as many more as its registers hold
between firing and acceptance. -/
def linkCapacity (slots clocks : Nat) : Nat :=
  match slots with
  | 0 => 1
  | 1 => 1 + clocks / 2
  | n => n + (clocks - 1)

/-- The least number of clocks between two tokens of a link (R26). -/
def linkGap (slots : Nat) : Nat :=
  match slots with
  | 0 => 3
  | 1 => 2
  | _ => 0

/-- The slots of a link that tokens of a phase find taken: by those of its own and of earlier phases, one released in this clock among
them (R25, R31). -/
def InQ.taken (q : InQ) (now phase : Nat) : Nat :=
  ((q.occ.filter fun e => decide (e.1 ≤ phase)).map Prod.snd).sum + bit (q.freed == now + 1)

/-- Tokens of earlier phases stand on the link, accepted or on their way. -/
def InQ.older (q : InQ) (phase : Nat) : Bool := q.occ.any fun e => decide (e.1 < phase ∧ 0 < e.2)

/-! ### Lanes at a change of context (R31, R211) -/

/-- A site has switched into a phase; one that nothing reaches has nothing to switch. -/
def Cast.switched (k : Cast) (phase n : Nat) : Bool := decide (phase ≤ (k.site n).phase) || (k.sites.find n).isNone

/-- No token of the phase that ends is on its way on a route. -/
def Cast.landed (k : Cast) (r : Route) : Bool :=
  match r.dst with
  | .input n p ph =>
    let q := (k.site n).inQ p
    q.occ.get 0 ph == q.toks.countP fun t => t.1 == ph
  | _ => true

/-- An outgoing lane has adopted its selector of the phase (R211): its source in the context that goes has sent RECONF, and that has
passed; a lane that had no source adopts when its site switches. -/
def Cast.adopted (d : Dev) (k : Cast) (phase : Nat) (wide : Bool) (n lane : Nat) : Bool :=
  let old := k.th.ctx.toNat
  match k.laneOrigin old wide n lane with
  | .output m o => k.switched phase m && (k.routes d old k.phase m o wide).all k.landed
  | .push m => (attached m).all fun ch => bitAt k.pushSent ch && (k.pushRoutes d old k.phase ch).all k.landed
  | .edge m => k.ports.all fun p => p.isOut || p.site != m || decide (phase ≤ p.phase)
  | .idle => k.switched phase n
  | .loop _ => k.switched phase n

/-- A lane lets tokens of a phase pass: it has adopted, and so has all else that selects the incoming lane from which it takes them. -/
def Cast.lanePasses (d : Dev) (k : Cast) (phase ctx : Nat) (wide : Bool) (n lane : Nat) : Bool :=
  let s := k.site n
  let old := k.th.ctx.toNat
  let c := xbar (s.scw.get 0 ctx) wide lane
  k.adopted d phase wide n lane &&
    (!(decide (1 ≤ c ∧ c ≤ 4)) ||
      ([old, ctx].all fun x =>
        ((lanesOf (s.scw.get 0 x) wide c (some (lane % lanesPer wide))).all fun l => k.adopted d phase wide n l)
          && ((takers (s.ecw.get 0 x) (laneSel wide (c - 1) (lane % lanesPer wide))).isEmpty || k.switched phase n)))

/-- A route leads from the same source to the same place in the context that goes: its lanes and its input are selected as before. -/
def Cast.unchanged (k : Cast) (ctx : Nat) (r : Route) : Bool :=
  let old := k.th.ctx.toNat
  (r.via.all fun v => xbar ((k.site v.1).scw.get 0 old) r.wide v.2 == xbar ((k.site v.1).scw.get 0 ctx) r.wide v.2) &&
    match r.dst with
    | .input n p _ => inSel ((k.site n).ecw.get 0 old) p == inSel ((k.site n).ecw.get 0 ctx) p
    | _ => true

/-- A route is open to tokens of its phase. One of the phase under way always is; one of the next phase once its lanes pass them, a
listening site has switched, and, where the routing changes, the link reports empty (R31, R211). -/
def Cast.routeOpen (d : Dev) (k : Cast) (ctx : Nat) (r : Route) : Bool :=
  decide (r.phase ≤ k.phase) ||
    ((r.via.all fun v => k.lanePasses d r.phase ctx r.wide v.1 v.2) &&
      match r.dst with
      | .input n p _ => (!r.bus || k.switched r.phase n) && (k.unchanged ctx r || !((k.site n).inQ p).older r.phase)
      | _ => true)

/-- A route has a free slot under the sender's context (R25, R26, R147, R191, R382); a wall takes everything. -/
def Cast.hasRoom (d : Dev) (k : Cast) (ctx : Nat) (r : Route) : Bool :=
  k.routeOpen d ctx r &&
    match r.dst with
    | .input n p phase =>
      let q := (k.site n).inQ p
      let slots := inSlots ((k.site n).ecw.get 0 ctx) p
      decide (q.taken d.now phase < linkCapacity slots r.clocks) && (q.sent == 0 || decide (q.sent + linkGap slots ≤ d.now + 1))
    | .pop ch => decide (k.th.popOcc.get 0 ch < 8)
    | .out ix => (k.ports[ix]?.map fun p => decide (p.occ < 4)).getD false
    | .wall .. => true

/-- The slot is taken from the firing on (R25). -/
def Cast.takeSlot (k : Cast) (now : Nat) (dst : Dest) : Cast :=
  match dst with
  | .input n p phase =>
    k.modSite n fun s => s.modIn p fun q => { q with occ := q.occ.set 0 phase (q.occ.get 0 phase + 1), sent := now + 1 }
  | .pop ch => { k with th := { k.th with popOcc := k.th.popOcc.set 0 ch (k.th.popOcc.get 0 ch + 1) } }
  | .out ix => { k with ports := k.ports.modify ix fun p => { p with occ := p.occ + 1 } }
  | .wall .. => k

/-- A token sent on a route: its slot is taken, and it is accepted when R24 says, or `extra` clocks later. -/
def Dev.sendOn (d : Dev) (c extra : Nat) (t : Token) (r : Route) : Dev :=
  (d.modCast c fun k => k.takeSlot d.now r.dst).post (extra + r.clocks) (.tokenAccept c r.dst t)

/-- A token sent on every route of a list. -/
def Dev.sendAll (d : Dev) (c extra : Nat) (t : Token) (rs : List Route) : Dev := rs.foldl (fun d r => d.sendOn c extra t r) d

/-! ### Tokens (R19, R20) -/

/-- The kind of a token. -/
def tokKind (t : Token) : Nat := if t.wide then field t.ctl 12 4 else field t.ctl 5 3

/-- Kinds that both networks name. -/
inductive TKind where
  | data
  | last
  | stop
  | done
  | index
  | reconf
  | drain
  | error
  | swap
  | header
  | reserved
deriving DecidableEq, Repr

/-- The name of a token's kind (R20). -/
def tokName (t : Token) : TKind :=
  if t.wide then
    match tokKind t with
    | 0 => .data
    | 1 => .last
    | 2 => .reconf
    | 3 => .drain
    | 4 => .error
    | 5 => .swap
    | 6 => .header
    | _ => .reserved
  else
    match tokKind t with
    | 0 => .data
    | 1 => .stop
    | 2 => .done
    | 3 => .index
    | 4 => .error
    | 5 => .reconf
    | 6 => .drain
    | _ => .reserved

/-- A narrow token. -/
def narrowTok (kind low : Nat) (data : Word) : Token :=
  { wide := false, ctl := BitVec.ofNat 16 (32 * kind + low), data := data.setWidth 1024, side := 0 }

/-- A wide token. -/
def wideTok (kind low : Nat) (data : BitVec 1024) (side : BitVec 32) : Token :=
  { wide := true, ctl := BitVec.ofNat 16 (4096 * kind + low), data := data, side := side }

/-- RECONF of a context, DRAIN, and an ERROR token with its record, on a network. -/
def reconfTok (wide : Bool) (ctx : Nat) : Token := if wide then wideTok 2 ctx 0 0 else narrowTok 5 ctx 0
def drainTok (wide : Bool) : Token := if wide then wideTok 3 0 0 0 else narrowTok 6 0 0
def errorTok (wide : Bool) (rec : Word) : Token := if wide then wideTok 4 0 (rec.setWidth 1024) 0 else narrowTok 4 0 rec

/-- The record of an ERROR token (R22). -/
def errorRec (k : Cast) (n ctx sub okind : Nat) : Word :=
  BitVec.ofNat 64 (k.pkgX n + 2 ^ 8 * k.pkgY n + 2 ^ 16 * ctx + 2 ^ 24 * sub + 2 ^ 32 * okind)

/-- The narrow data of a token. -/
def tokWord (t : Token) : Word := t.data.setWidth 64

end Sys2Proof.Machine
end

