-- ==== Sys2Proof/Machine/Armature.lean ====
section
/-!
DEFINITION. The armature (R205 to R210): the tree of controller nodes, runs and iterations, permits and dones, the constants K
that wait for a round boundary (R154), and which elements a node governs (R207).
-/
namespace Sys2Proof.Machine

/-! ### Fields of a node (R194) -/

/-- CKIND: 0 none, 1 SEQ, 2 PIPE, 3 STREAM. -/
def scwKind (w : BitVec 128) : Nat := field w 80 2
/-- The parent's site. -/
def scwParent (w : BitVec 128) : Nat := siteNo (field w 82 8) (field w 90 7)
/-- NCTR. -/
def scwCounters (w : BitVec 128) : Nat := field w 97 2

/-- The bounds of the counters, outermost first (R205): K[31:16] is bits [127:112] of the ECW. -/
def nodeBounds (ecw scw : BitVec 128) : List Nat :=
  [if bitAt scw 99 then field ecw 112 16 else field scw 100 8 + 1, field scw 108 8 + 1, field scw 116 8 + 1].take (scwCounters scw)

/-- The product of a list. -/
def product (l : List Nat) : Nat := l.foldl (fun x y => x * y) 1

/-- The children of a node in a context, by relative y, then x (R206): the sites of a table stand in that order. -/
def Cast.childrenIn (k : Cast) (ctx n : Nat) : List Nat :=
  k.sites.filterMap fun e =>
    let w := e.2.scw.get 0 ctx
    if e.1 ≠ 0 ∧ scwKind w ≠ 0 ∧ scwParent w = n then some e.1 else none

/-- The children of a node in the context resident at its site (R206, R207). -/
def Cast.children (k : Cast) (n : Nat) : List Nat := k.childrenIn (k.site n).ctx n

/-- The element of a site is governed by its node (R207). -/
def Cast.governed (k : Cast) (n : Nat) : Bool :=
  let kind := scwKind (k.site n).scwNow
  (kind == 1 || kind == 2) && (k.children n).isEmpty

/-- A governed element fires only during an iteration of its node, once (R207); a free one whenever R25 holds. -/
def Cast.mayFire (k : Cast) (n now : Nat) : Bool :=
  let node := (k.site n).node
  !k.governed n || (node.running && !node.fired && decide (node.openAt ≤ now))

/-! ### Distances (R24, R209) -/

/-- The distance between two numbers. -/
def absDiff (a b : Nat) : Nat := (a - b) + (b - a)

/-- Hops and seams between two sites of a cast, along rows and columns. -/
def siteHops (a b : Nat) : Nat := absDiff (siteX a) (siteX b) + absDiff (siteY a) (siteY b)
def Cast.seams (k : Cast) (a b : Nat) : Nat :=
  absDiff (k.pkgX a / 36) (k.pkgX b / 36) + absDiff (k.pkgY a / 36) (k.pkgY b / 36)

/-- h + 8 × s between two sites. -/
def Cast.way (k : Cast) (a b : Nat) : Nat := siteHops a b + 8 * k.seams a b

/-! ### The constant K (R154, R193) -/

/-- ECW word 3 of a context written (R188). -/
def Site.setK (s : Site) (ctx : Nat) (v : BitVec 32) : Site :=
  { s with ecw := s.ecw.set 0 ctx (v ++ (s.ecw.get 0 ctx).extractLsb' 0 96 : BitVec (32 + 96)) }

/-- A write of K is on its way to a site. -/
def Dev.argComing (d : Dev) (c n : Nat) : Bool :=
  d.agenda.any fun e => match e.2 with
    | .argWriteArrive c' n' _ _ => c' == c && n' == n
    | _ => false

/-- A round boundary: the writes that wait take effect, in the order they came. -/
def Site.applyArgs (s : Site) : Site := { s.argWait.foldl (fun s v => s.setK s.ctx v) s with argWait := [] }

/-! ### Pulses (R209) -/

/-- A pulse sent in the clock after the event that calls for it: it arrives 1 + h + 8 × s clocks after that; one into a row that the old
cast of a ROLL has given up is dropped at the lease wall (R407). -/
def Dev.pulse (d : Dev) (c from_ dest : Nat) (isDone : Bool) (child : Nat) : Dev :=
  match d.casts.find c with
  | none => d
  | some k =>
    if k.goneRow dest then d.postWall c (siteNo (siteX dest) (6 * k.gone)) 0 2 0
    else d.post (2 + k.way from_ dest) (.pulseArrive c dest isDone child)

/-- The done of a node goes to its parent, as that parent's child, or from the root to the sequencer. -/
def Dev.sendDone (d : Dev) (c n : Nat) : Dev :=
  match d.casts.find c with
  | none => d
  | some k =>
    if n = 0 then d.post 3 (.rootDoneArrive c)
    else
      let parent := scwParent (k.site n).scwNow
      d.pulse c n parent true ((firstIx (fun m => m == n) 0 (k.children parent)).getD 0)

/-- A node changed. -/
def Dev.modNode (d : Dev) (c n : Nat) (f : Node → Node) : Dev := d.modSite c n fun s => { s with node := f s.node }

/-! ### Runs (R205, R208) -/

/-- The end of a run: done is sent, and for a permit counted meanwhile a further run begins in the next clock. -/
def Dev.endRun (d : Dev) (c n : Nat) : Dev :=
  match d.casts.find c with
  | none => d
  | some k =>
    let node := (k.site n).node
    let d := d.modNode c n fun x => { permits := x.permits, ended := if scwKind (k.site n).scwNow = 3 then 0 else x.ended }
    let d := d.sendDone c n
    if node.permits = 0 then d else d.post 1 (.nodeIterationBegin c n)

/-- The inputs that a context enables. -/
def enabledInputs (ecw : BitVec 128) : List InPort := allInPorts.filter fun p => ecwIn ecw p

/-- The number of an input. -/
def InPort.ix (p : InPort) : Nat :=
  match p with
  | .a => 0
  | .b => 1
  | .c => 2
  | .d => 3

/-- Every enabled input of a STREAM leaf has ended (R208). -/
def Site.streamEnded (s : Site) : Bool := (enabledInputs s.ecwNow).all fun p => bitAt s.node.ended (InPort.ix p)

/-- A PIPE node sends child `i` its next permit as soon as R208 allows. -/
def pipeReady (node : Node) (count i : Nat) : Bool :=
  let j := node.sent.getD i 0
  decide (j < node.total) && (i == 0 || decide (j < node.got.getD (i - 1) 0)) && decide (j ≤ node.got.getD i 0)
    && (i + 1 == count || decide (j < 8 + node.got.getD (i + 1) 0))

/-- The children of a PIPE node that are ready receive their permits; an iteration of k0 begins with the first child's. -/
def Dev.pipeAdvance (d : Dev) (c n : Nat) (kids : List Nat) : Dev :=
  (List.range kids.length).foldl (fun d i =>
    match d.casts.find c with
    | none => d
    | some k =>
      let node := (k.site n).node
      if pipeReady node kids.length i then
        let d := if i = 0 ∧ node.sent.getD 0 0 % node.inner = 0 then d.modSite c n Site.applyArgs else d
        (d.modNode c n fun x => { x with sent := x.sent.modify i (· + 1) }).pulse c n (kids.getD i 0) false 0
      else d) d

/-- An iteration begins: permits to the children as the kind says, or a firing of the element opened. -/
def Dev.startIteration (d : Dev) (c n : Nat) : Dev :=
  match d.casts.find c with
  | none => d
  | some k =>
    let s := k.site n
    let kids := k.children n
    match scwKind s.scwNow, kids with
    | 3, [] => if s.streamEnded then d.endRun c n else d
    | 3, _ => kids.foldl (fun d m => d.pulse c n m false 0) d
    | _, [] => d
    | 2, _ => d.pipeAdvance c n kids
    | _, m :: _ => (d.modNode c n fun x => { x with child := 0 }).pulse c n m false 0

/-- A run begins: waiting writes of K take effect, then the bounds are latched (R154, R205). -/
def Dev.beginRun (d : Dev) (c n openAt : Nat) : Dev :=
  let d := d.modSite c n Site.applyArgs
  match d.casts.find c with
  | none => d
  | some k =>
    let s := k.site n
    let bounds := nodeBounds s.ecwNow s.scwNow
    let zeros := (k.children n).map fun _ => 0
    if product bounds = 0 then d.endRun c n
    else
      (d.modNode c n fun x =>
        { running := true, permits := x.permits, total := product bounds, inner := product (bounds.drop 1), sent := zeros,
          got := zeros, ended := x.ended, openAt := openAt }).startIteration c n

/-- The end of an iteration, and with the last one of the run. -/
def Dev.endIteration (d : Dev) (c n : Nat) : Dev :=
  match d.casts.find c with
  | none => d
  | some k =>
    let node := (k.site n).node
    if node.iter + 1 < node.total then
      (d.modNode c n fun x => { x with iter := x.iter + 1 }).post 1 (.nodeIterationBegin c n)
    else d.endRun c n

/-- A permit: it begins a run, or is counted while one is under way. -/
def Dev.permit (d : Dev) (c n : Nat) : Dev :=
  match d.casts.find c with
  | none => d
  | some k =>
    let node := (k.site n).node
    if node.running || decide (0 < node.permits) then d.modNode c n fun x => { x with permits := x.permits + 1 }
    else d.beginRun c n (d.now + 1)

/-- A child's done. -/
def Dev.childDone (d : Dev) (c n child : Nat) : Dev :=
  match d.casts.find c with
  | none => d
  | some k =>
    let s := k.site n
    let kids := k.children n
    if !s.node.running then d
    else
      match scwKind s.scwNow with
      | 1 =>
        if child + 1 < kids.length then
          (d.modNode c n fun x => { x with child := child + 1 }).pulse c n (kids.getD (child + 1) 0) false 0
        else d.endIteration c n
      | 2 =>
        let d := d.modNode c n fun x => { x with got := x.got.modify child (· + 1) }
        let d := d.pipeAdvance c n kids
        if child + 1 = kids.length ∧ s.node.total ≤ s.node.got.getD child 0 + 1 then d.endRun c n
        else if child + 1 = kids.length then d.modNode c n fun x => { x with iter := x.iter + 1 }
        else d
      | _ =>
        let d := d.modNode c n fun x => { x with got := x.got.modify child (· + 1) }
        if (s.node.got.modify child (· + 1)).all fun g => decide (0 < g) then d.endRun c n else d

/-- PULSE_ARRIVE. -/
def execPulseArrive (c n : Nat) (isDone : Bool) (child : Nat) (s : State) : Res :=
  .next { s with dev := if isDone then s.dev.childDone c n child else s.dev.permit c n }

/-- NODE_ITERATION_BEGIN: the next iteration of a run, with a round boundary where k0 advances, or a further run. -/
def execNodeIterationBegin (c n : Nat) (s : State) : Res :=
  match s.dev.casts.find c with
  | none => .next s
  | some k =>
    let node := (k.site n).node
    if node.running then
      let d := if node.iter % node.inner = 0 then s.dev.modSite c n Site.applyArgs else s.dev
      let d := d.modNode c n fun x => { x with fired := false, openAt := d.now }
      .next { s with dev := d.startIteration c n }
    else if 0 < node.permits then
      .next { s with dev := (s.dev.modNode c n fun x => { x with permits := x.permits - 1 }).beginRun c n s.dev.now }
    else .next s

/-- ROOT_DONE_ARRIVE: ARMST becomes DONE, and STRM.WAIT completes (R148, R157). -/
def execRootDoneArrive (c : Nat) (s : State) : Res :=
  .next { s with dev := s.dev.modTh c fun t => if t.armst = 1 then { t with armst := 2 }.wake s.dev.now else t }

/-- ARG_WRITE_ARRIVE: the store of a context that is not resident is written; a write to the resident one waits (R154). -/
def execArgWriteArrive (c n ctx : Nat) (v : BitVec 32) (s : State) : Res :=
  .next { s with dev := (s.dev.modCast c fun k => { k with argFlight := k.argFlight - 1 }).modSite c n fun x =>
    if ctx = x.ctx then { x with argWait := x.argWait ++ [v] } else x.setK ctx v }

end Sys2Proof.Machine
end

