-- ==== Sys2Proof/Machine/Reply.lean ====
section
/-!
DEFINITION. System registers as they read (R178 to R182), the beginning of a fetched block (R90, R94), and the replies of class
D commands (R94).
-/
namespace Sys2Proof.Machine

/-! ### System registers -/

/-- LCYC: clocks of the hosting sequencer since its release from reset (R178). -/
def Dev.lcyc (d : Dev) (k : Cast) : Word := BitVec.ofNat 64 (d.now - d.relClock.get 0 k.die)

/-- BLKXY (R179). -/
def Cast.blkxy (k : Cast) : Word := BitVec.ofNat 64 (k.bx + 2 ^ 8 * k.by_ + 2 ^ 16 * k.wb + 2 ^ 24 * k.hb)

/-- The value a system register reads as (R178 to R182). -/
def Dev.sysValue (d : Dev) (c : Nat) (k : Cast) (r : SysReg) : Word :=
  match r with
  | .castid => BitVec.ofNat 64 (c % 2 ^ 16)
  | .tenant => BitVec.ofNat 64 (k.tenant % 2 ^ 8)
  | .dieid => BitVec.ofNat 64 (k.die % 8)
  | .blkxy => k.blkxy
  | .parmb => k.th.parmb
  | .lcyc => d.lcyc k
  | .feata => BitVec.ofNat 64 (3 + 256 * bit d.featlock)
  | .chst => k.th.chst
  | .gmem0 => k.th.gmem.w0
  | .gmem1 => k.th.gmem.w1
  | .gmem2 => k.th.gmem.w2
  | .gmem3 => k.th.gmem.w3
  | .taskpri => k.th.taskpri.setWidth 64
  | .tvec => k.th.tvec
  | .tcause => k.th.tcause
  | .tpc => k.th.tpc
  | .tinfo0 => k.th.tinfo.w0
  | .tinfo1 => k.th.tinfo.w1
  | .tinfo2 => k.th.tinfo.w2
  | .tinfo3 => k.th.tinfo.w3
  | .tstat => k.th.tstat
  | .loob => k.th.loob

/-- Every system register, in the order of R178. -/
def allSysRegs : List SysReg :=
  [.castid, .tenant, .dieid, .blkxy, .parmb, .lcyc, .feata, .chst, .gmem0, .gmem1, .gmem2, .gmem3, .taskpri,
   .tvec, .tcause, .tpc, .tinfo0, .tinfo1, .tinfo2, .tinfo3, .tstat, .loob]

/-- The registers as they stand when a block begins (R90). -/
def Dev.sysSnapshot (d : Dev) (c : Nat) (k : Cast) : Tbl Word :=
  allSysRegs.map fun r => ((SysReg.code r).toNat, d.sysValue c k r)

/-- The registers that await a reply (R94). -/
def Thread.pendingRegs (t : Thread) : List Nat :=
  (t.pend.flatMap fun p => [p.ta, p.tb]).filterMap fun x => if Target.kind x = 5 then some (Target.index x) else none

/-- The block reads a pending register or names one in a register-write target (R94). -/
def Block.waitsOn (b : Block) (regs : List Nat) : Bool :=
  b.slots.any fun sl =>
    match sl.instr with
    | none => false
    | some i =>
      (match i with
        | .get r _ _ => regs.contains r.toNat
        | _ => false)
        || (targetsOf i).any fun t => Target.kind t == 5 && regs.contains (Target.index t)

/-- A fetched block begins once none of its registers is pending; the system registers are read then (R90, R94). -/
def Dev.tryBegin (d : Dev) (c : Nat) : Dev :=
  match d.casts.find c with
  | none => d
  | some k =>
    match k.th.blk with
    | none => d
    | some b =>
      if b.begun || b.waitsOn k.th.pendingRegs then d
      else d.modTh c fun t => t.modBlk fun b => { b with begun := true, sys := d.sysSnapshot c k }

/-! ### Replies (R94) -/

/-- A handle placed in the lowest free GMEM register (R162, R163). -/
def Quad.place (q : Quad) (h : Word) : Quad :=
  if q.w0 = 0 then { q with w0 := h }
  else if q.w1 = 0 then { q with w1 := h }
  else if q.w2 = 0 then { q with w2 := h }
  else if q.w3 = 0 then { q with w3 := h }
  else q

/-- A handle gone from the GMEM registers (R164, R167). -/
def Quad.clear (q : Quad) (h : Word) : Quad :=
  let z := fun (w : Word) => if w = h then 0 else w
  ⟨z q.w0, z q.w1, z q.w2, z q.w3⟩

/-- A register target of a class D command written; KIND 0 discards (R83, R94). -/
def Thread.writeTarget (t : Thread) (x : Target) (v : Word) : Thread :=
  if Target.kind x = 5 then t.setReg (Target.index x) v else t

/-- A command's registers written, and its membership placed. -/
def Thread.writeReply (t : Thread) (p : PendingCmd) (v0 v1 : Word) : Thread :=
  let t := (t.writeTarget p.ta v0).writeTarget p.tb v1
  match p.kind with
  | .plain => t
  | .atom _ => t
  | .take _ => t
  | .grpNew => if v0 = 0 then t else { t with gmem := t.gmem.place v0 }
  | .grpJoin => if v0 = 0 then { t with gmem := t.gmem.place v1 } else t

/-- The replies at the head of the pending commands are written, in the order of issue. -/
def Thread.flushReplies : List PendingCmd → Thread → Thread
  | [], t => { t with pend := [] }
  | p :: rest, t =>
    match p.reply with
    | some (v0, v1) => Thread.flushReplies rest (t.writeReply p v0 v1)
    | none => { t with pend := p :: rest }

/-- A reply captured, and written when every earlier one has been. -/
def Thread.reply (t : Thread) (pid : Nat) (v0 v1 : Word) : Thread :=
  Thread.flushReplies (t.pend.map fun p => if p.pid = pid ∧ p.reply = none then { p with reply := some (v0, v1) } else p) t

/-- A reply to a thread, which may let its next block begin. -/
def Dev.reply (d : Dev) (c pid : Nat) (v0 v1 : Word) : Dev := (d.modTh c fun t => t.reply pid v0 v1).tryBegin c

/-! ### Tokens on pop channels (R147, R153) -/

/-- The word that STRM.POP writes to TGTB (R153). -/
def popWord (t : Token) : Word := BitVec.ofNat 64 (tokKind t + 8 * (if tokName t = .stop then field t.ctl 0 3 else 0))

/-- The outstanding pops, oldest first, take the tokens that stand on their channels: the thread, and the replies. -/
def Thread.servePops : List (Nat × Nat) → Thread → List (Nat × Token) → Thread × List (Nat × Token)
  | [], t, out => (t, out)
  | (pid, ch) :: rest, t, out =>
    match t.pop.get [] ch with
    | [] => Thread.servePops rest { t with pops := t.pops ++ [(pid, ch)] } out
    | tok :: more =>
      Thread.servePops rest { t with pop := t.pop.set [] ch more, popOcc := t.popOcc.set 0 ch (t.popOcc.get 0 ch - 1) }
        (out ++ [(pid, tok)])

/-- Outstanding pops served, their registers written, and WAIT.TOK ended where a token is left (R153, R168). -/
def Dev.servePops (d : Dev) (c : Nat) : Dev :=
  match d.casts.find c with
  | none => d
  | some k =>
    let r := Thread.servePops k.th.pops { k.th with pops := [] } []
    let d := d.modTh c fun _ => r.1
    let d := r.2.foldl (fun d q => d.reply c q.1 (tokWord q.2) (popWord q.2)) d
    d.modTh c fun t => t.wake d.now

end Sys2Proof.Machine
end

