-- ==== Sys2Proof/Machine/Channels.lean ====
section
/-!
DEFINITION. The channels of the copy engine as a thread sees them (R340 to R344): handles, opening and closing, and the limits on
how many a tenant holds; and the reply of a command within a bound.
-/
namespace Sys2Proof.Machine

/-- A reply on its way back to a thread, at most `bound` clocks. -/
def Dev.replyWithin (d : Dev) (bound c pid : Nat) (v0 v1 : Word) : Dev :=
  (d.post (d.delay bound) (.classDReply c pid v0 v1)).tickFree

/-! ### Handles (R340) -/

def chanIx (h : Word) : Nat := field h 0 2

/-- A handle value. -/
def chanHandle (cix gen : Nat) : Word := BitVec.ofNat 64 (cix + 2 ^ 8 * gen)

/-- The handle is open. -/
def Cast.chanOpen (k : Cast) (h : Word) : Bool :=
  let x := k.chans.get {} (chanIx h)
  field h 2 6 == 0 && field h 24 40 == 0 && x.used && !x.closing && x.gen == field h 8 16

/-- A channel changed. -/
def Dev.modChan (d : Dev) (c cix : Nat) (f : Chan → Chan) : Dev := d.modCast c fun k => { k with chans := k.chans.modify {} cix f }

/-! ### Requests on their way to the placer (R384) -/

/-- A request goes before another that reaches the placer in the same clock: firmware first, then by ascending requester id. -/
def PlAsk.before (a b : PlAsk) : Bool :=
  let key := fun (x : PlAsk) => if x.src = .firmware then 0 else x.requester + 1
  decide (a.at_ < b.at_ ∨ (a.at_ = b.at_ ∧ key a < key b))

/-- A request put in its place among those that are still to be queued. -/
def insertAsk (a : PlAsk) : List PlAsk → List PlAsk
  | [] => [a]
  | b :: rest => if a.before b then a :: b :: rest else b :: insertAsk a rest

/-- A request reaches the placer. -/
def Dev.ask (d : Dev) (a : PlAsk) : Dev := { d with pl := { d.pl with asks := insertAsk a d.pl.asks } }

/-! ### Opening and closing -/

/-- Every channel in use on a die: the cast's tenant and the physical channel; with those reserved there for a MOVE under way (R400). -/
def Dev.chansOn (d : Dev) (die : Nat) : List (Nat × Nat) :=
  (d.casts.flatMap fun e =>
    if e.2.die = die then (e.2.chans.filter fun x => x.2.used).map fun x => (e.2.tenant, x.2.phys) else [])
    ++ match d.pl.cur with
      | some (.move _ _ i _ _ _ res) => reserved d i res
      | some (.moving _ _ i _ _ _ res) => reserved d i res
      | _ => []
where
  /-- The channels reserved for a move. -/
  reserved (d : Dev) (i : MoveItem) (res : Tbl Nat) : List (Nat × Nat) :=
    if dieOfBlock i.bx i.by_ = die then res.map fun x => (((d.casts.find i.cast).map Cast.tenant).getD 0, x.2) else []

/-- LIM of a tenant on a die (R341): CPLIM's byte of its translation entry, 12 where it has none. -/
def Dev.chanLimit (d : Dev) (die tenant : Nat) : Nat :=
  match d.tteOf die tenant with
  | none => 12
  | some i => min 12 (field ((d.cplim.find (8 * die + i / 8)).getD 0x0C0C0C0C0C0C0C0C) (8 * (i % 8)) 5)

/-- CP.OPEN at commit (R343): the lowest free index and a free channel among 0 to 11, or 0 and nothing. -/
def Dev.openChannel (d : Dev) (c pid : Nat) (bind : Word) : Dev :=
  match d.casts.find c with
  | none => d
  | some k =>
    let taken := d.chansOn k.die
    let phys := (List.range 12).find? fun p => !(taken.any fun x => x.2 == p)
    let cix := (List.range 4).find? fun i => !(k.chans.get {} i).used
    match cix, phys with
    | some i, some p =>
      if (taken.filter fun x => x.1 == k.tenant).length < d.chanLimit k.die k.tenant then
        let gen := (k.chans.get {} i).gen
        (d.modChan c i fun _ => { gen := gen, used := true, phys := p, bound := bitAt bind 0, ctx := field bind 1 2 }).replyWithin 12 c pid
          (chanHandle i gen) 0
      else d.replyWithin 12 c pid 0 0
    | _, _ => d.replyWithin 12 c pid 0 0

/-- The channel has nothing left to do. -/
def Chan.quiet (x : Chan) : Bool := x.queue.isEmpty && x.cur.isNone && x.recs.isEmpty && x.fault.isNone

/-- A closing channel with nothing left to do is freed. -/
def Chan.settle (x : Chan) : Chan := if x.closing && x.quiet then { gen := x.gen } else x

/-- CP.CLOSE (R344): the handle is not open from now on; the channel is freed once its chains are done. -/
def Chan.close (x : Chan) : Chan :=
  Chan.settle { x with closing := true, gen := if x.gen = 65535 then 1 else x.gen + 1 }

/-- REMOVE and HALT (R341): what is in progress ends, what is queued goes. -/
def Chan.wind (x : Chan) : Chan :=
  if x.closing then Chan.settle { x with queue := [], cur := none } else Chan.close { x with queue := [], cur := none }

/-- A CTX.SW or DRAIN of the thread is open: a chain queued now belongs to a later phase (R355). -/
def Thread.phaseEnding (t : Thread) : Bool := !t.phaseOps.isEmpty

/-- The bound channels of the phase that ends have drained (R355). -/
def Cast.chansDrained (k : Cast) : Bool :=
  k.chans.all fun e =>
    !(e.2.used && e.2.bound && e.2.ctx == k.th.ctx.toNat)
      || ((e.2.queue.all fun q => q.2.2) && e.2.cur.isNone && e.2.recs.isEmpty && e.2.fault.isNone)

end Sys2Proof.Machine
end

