-- ==== Sys2Proof/Machine/Commit.lean ====
section
/-!
DEFINITION. The commit of a block (R92, R93): register writes, then effects in slot order, then the exit.
-/
namespace Sys2Proof.Machine

/-- A system register written by SYSWR (R174, R178): FW fields obey tenant 0 alone; writing 0 to WRES discards the saved
wait; OOB is write-one-to-clear (R9, R181). -/
def Thread.sysWrite (t : Thread) (tenant : Nat) (r : SysReg) (v : Word) : Thread :=
  match r with
  | .tvec => { t with tvec := v }
  | .tcause => { t with tcause := v &&& 0x0000FFFF00FFFFFF }
  | .tpc => { t with tpc := v }
  | .tstat =>
    let t := if bitAt v 1 then t else { t with wres := false, saved := none, savedYield := false }
    let t := if tenant = 0 then { t with dbg := bitAt v 2 } else t
    { t with oob := t.oob &&& ~~~ (BitVec.ofNat 4 (field v 8 4)) }
  | _ => t

/-- The first out-of-range access of the phase sets TSTAT.OOB of the resident context and LOOB (R224). -/
def Thread.outOfRange (t : Thread) (loob : Word) : Thread :=
  if t.oobSeen then t
  else { t with oobSeen := true, loob := loob, oob := t.oob ||| BitVec.ofNat 4 (2 ^ t.ctx.toNat) }

/-- An STL performed (R137): the bytes of the value written in the handle's range, least significant first. -/
def SbSt.storeWord (b : SbSt) (entry : Nat) (off : Word) (size : Nat) (v : Word) : SbSt :=
  let base := (b.hnd.get {} entry).base
  { b with mem := (List.range size).foldl (fun t i => t.set 0 (base + off.toNat + i) (BitVec.ofNat 8 (v.toNat / 256 ^ i))) b.mem }

/-- The sub-bank of a bank offset (R212). -/
def subBank (off : Nat) : Nat := off / 128 % 8

/-- An access of the thread at an offset of a handle's range uses its sub-bank in this clock (R226). -/
def SbSt.touch (b : SbSt) (now entry off : Nat) : SbSt :=
  { b with thAt := now + 1, thSub := subBank ((b.hnd.get {} entry).base + off) :: (if b.thAt = now + 1 then b.thSub else []) }

/-! ### Commands and waits -/

/-- Where a command acts in memory, for the order of one thread's commands on one location (R71, R93). -/
def actSpan : Instr → Nat × Nat
  | .seAtomic r => (r.pa, 8)
  | .seCntInit r _ => (r.pa, 8)
  | .seCntDec r _ => (r.pa, 8)
  | .seCntFree r => (r.pa, 8)
  | .barrierUpdate r => (r.pa, 16)
  | _ => (0, 0)

/-- A command leaves the thread for its engine. -/
def Dev.issue (d : Dev) (c lane : Nat) (release : Bool) (delay : Nat) (act : Instr) : Dev :=
  d.modTh c fun t => t.enqueue d.replNo (d.now + delay) lane release (actSpan act).1 (actSpan act).2 [] act

/-- Group commands of one thread reach their engines in order. -/
def groupLane : Nat := 1

/-- REL and AR release; ACQ and AR acquire (R160, R362). -/
def MemOrder.releases (o : MemOrder) : Bool := o == .rel || o == .ar
def MemOrder.acquires (o : MemOrder) : Bool := o == .acq || o == .ar

/-- A token appended to a push channel. -/
def Thread.pushToken (t : Thread) (ch : Nat) (tok : Token) : Thread := { t with push := t.push.set [] ch (t.push.get [] ch ++ [tok]) }

/-- A token kind appended to every source link, after all that stands there (R149, R155, R156): the push channels that the
resident context routes, the IN ports, and over the control network the sites without an enabled input. -/
def Dev.appendSources (d : Dev) (c : Nat) (make : Bool → Token) (ctl : Ctl) : Dev :=
  d.modCast c fun k =>
    let ctx := k.th.ctx.toNat
    let routed := (List.range 8).filter fun ch => !(k.pushRoutes d ctx k.phase ch).isEmpty
    { k with
      th := routed.foldl (fun t ch => t.pushToken ch (make false)) k.th
      ports := k.ports.map fun p => if p.isOut then p else { p with q := p.q ++ [make p.wide] }
      sites := k.sites.map fun e =>
        (e.1, if allInPorts.any fun p => ecwIn e.2.ecwNow p then e.2 else { e.2 with ctl := some ctl }) }

/-- The thread of a cast as the sender of a request to an engine. -/
def Dev.sender (d : Dev) (c id : Nat) : Sender :=
  { cast := c, requester := ((d.casts.find c).map Cast.requester).getD 0, id := id }

/-- What wait number `id` sends when it begins (R155, R164, R166, R353, R367). -/
def Dev.beginWait (d : Dev) (c id : Nat) (w : Wait) : Dev :=
  let send := fun (lane pa len : Nat) (release : Bool) (act : Instr) =>
    (d.modTh c fun t => t.enqueue d.replNo (d.now + 1 + Config.openDelay d.free) lane release pa len [] act).tickFree
  match w with
  | .ctxSw n =>
    let first := ((d.casts.find c).map fun k => k.th.phaseOps.isEmpty).getD true
    let d := d.modTh c fun t => { t with phaseOps := t.phaseOps ++ [{ sw := some n, id := id, appended := first }] }
    if first then d.appendSources c (fun wide => reconfTok wide n) (.reconf n) else d
  | .grpBar h o _ => send groupLane 0 0 (MemOrder.releases o) (.seGrpBarArrive (d.sender c id) h)
  | .waitBit _ _ _ _ => send groupLane 0 0 false (.seWaitRegister (d.sender c id))
  | .waitBitAll _ _ _ => send groupLane 0 0 false (.seWaitRegister (d.sender c id))
  | .cpBwait pa _ _ _ _ => send 0 pa 16 false (.seWaitRegister { d.sender c id with loc := some pa })
  | .cntWait _ pa _ _ => send 0 pa 8 false (.seWaitRegister { d.sender c id with loc := some pa })
  | .drain _ => d.modTh c fun t => { t with phaseOps := t.phaseOps ++ [{ sw := none, id := id, appended := false }] }
  | .strmWait => d
  | .mxScale => d
  | .waitTok _ _ => d
  | .leaseRel _ => d

/-- The fills that a LEASE.REL waits for, 0 when it releases nothing (R416). -/
def Dev.leaseRows (d : Dev) (c : Nat) (k : Cast) : Nat :=
  match d.pl.rolls.find c with
  | some r => if r.released < k.hb then r.released + 1 else 0
  | none => 0

/-- Rows of a cast under a ROLL released, up to a number of them; with row 0 its channels are detached (R407). -/
def Dev.releaseRows (d : Dev) (c n : Nat) : Dev :=
  { d with pl := { d.pl with rolls := d.pl.rolls.upd c fun r => { r with released := max r.released n } } }.modCast c fun k =>
    { k with detached := k.detached || decide (0 < n) }

/-- The clock from which a write of K may reach a site: after those already on their way there (R154). -/
def Dev.argDue (d : Dev) (c n delay : Nat) : Nat :=
  d.agenda.foldl (fun t e => match e.2 with
    | .argWriteArrive c' n' _ _ => if c' = c ∧ n' = n then max t (e.1 - d.now) else t
    | _ => t) delay

/-- A committed effect. -/
def Dev.applyEffect (c : Nat) (d : Dev) (e : Effect) : Dev :=
  match d.casts.find c with
  | none => d
  | some k =>
    match e with
    | .store r release =>
      (d.modTh c fun t => t.enqueue d.replNo (d.now + 1 + Config.openDelay d.free) 0 release r.pa r.data.length r.data
        (.channelRequest r)).tickFree
    | .stl site entry off size v => d.modBank c site fun b => (b.storeWord entry off size v).touch d.now entry off.toNat
    | .fenceRel => d.modTh c fun t => { t with relFence := t.nextId, relSeen := d.replNo }
    | .fenceAr => d.modTh c fun t => { t with relFence := t.nextId, relSeen := d.replNo, loadAfter := t.nextId }
    | .fenceAcq => d
    | .syswr r v => d.modTh c fun t => t.sysWrite k.tenant r v
    | .outOfRange loob => d.modTh c fun t => t.outOfRange loob
    | .yield => d.modTh c fun t => { t with yieldNext := true }
    | .push ch tok => if k.detached then d else d.modTh c fun t => t.pushToken ch tok
    | .pop pid ch ta tb =>
      (d.modTh c fun t =>
        { t with
          pend := t.pend ++ [{ pid := pid, ta := ta, tb := tb, acquire := false, kind := .plain, reply := none }]
          pops := t.pops ++ [(pid, ch)] }).servePops c
    | .go =>
      if field (k.site 0).scwNow 80 2 = 0 then d.modTh c fun t => { t with armst := 2 }
      else (d.modTh c fun t => { t with armst := 1 }).post 2 (.pulseArrive c 0 false 0)
    | .argSet site ctx v delay =>
      (d.modCast c fun k => { k with argFlight := k.argFlight + 1 }).post (d.argDue c site delay) (.argWriteArrive c site ctx v)
    | .wait w =>
      (d.modTh c fun t =>
        { t with wait := some { id := t.nextId, wait := w, done := false }, nextId := t.nextId + 1 }).beginWait c k.th.nextId w
    | .leaseRel =>
      let n := d.leaseRows c k
      (d.modTh c fun t =>
        { t with wait := some { id := t.nextId, wait := .leaseRel n, done := n == 0 }, nextId := t.nextId + 1 }).releaseRows
          c n
    | .plReq pid ta block =>
      let d := d.modTh c fun t =>
        { t with pend := t.pend ++ [{ pid := pid, ta := ta, tb := 0, acquire := false, kind := .plain, reply := none }] }
      d.ask { src := .thread c, at_ := d.now, requester := k.requester, pid := pid, after := k.th.nextId, tenant := k.tenant, addr := block }
    | .issue lane release delay act => d.issue c lane release delay act
    | .defer kind pid ta tb acquire lane release delay act =>
      (d.modTh c fun t =>
        { t with pend := t.pend ++ [{ pid := pid, ord := t.nextId, ta := ta, tb := tb, acquire := acquire, kind := kind, reply := none,
                                      since := d.now }] }).issue
          c lane release delay act
    | .portRes site act =>
      d.modSite c site fun s =>
        if s.el.fault.isSome then { s with el := s.el.unfreeze, skip := act == .skip } else s
    | .leave h delay => (d.modTh c fun t => { t with gmem := t.gmem.clear h }).issue c groupLane false delay (.seGrpLeave (d.sender c 0) h)
    | .cpOpen pid ta bind =>
      (d.modTh c fun t =>
        { t with pend := t.pend ++ [{ pid := pid, ta := ta, tb := 0, acquire := false, kind := .plain, reply := none }] }).openChannel
          c pid bind
    | .cpClose h => d.modChan c (chanIx h) Chan.close
    | .cpPush h head => d.modChan c (chanIx h) fun x => { x with queue := x.queue ++ [(head, k.th.nextId, k.th.phaseEnding)] }
    | .cpRes h act => d.modChan c (chanIx h) fun x => if x.fault.isSome ∧ x.resume.isNone then { x with resume := some (act, k.th.nextId) } else x

/-- Register writes in slot order; NULL leaves a register as it is (R88, R93). -/
def Thread.writeAll (t : Thread) (ws : List (Nat × Nat × Option Word)) : Thread :=
  ws.foldl (fun t w => match w.2.2 with
    | some v => t.setReg w.2.1 v
    | none => t) t

/-- The taken exit decides the next block (R142, R172, R173, R175). -/
def Dev.applyExit (d : Dev) (c : Nat) (b : Block) (e : Exit) : Dev :=
  match e with
  | .jump a => d.modTh c fun t => { t with pc := a }.goOn d.now
  | .call a => d.modTh c fun t => { t with pc := a, ret := b.next :: t.ret }.goOn d.now
  | .ret => d.modTh c fun t => { t with pc := t.ret.headD 0, ret := t.ret.tail }.goOn d.now
  | .trap slot code => (d.modTh c fun t => { t with pc := b.next }).takeTrap c { cause := 0x20, slot := slot, code := code, restart := b.next }
  | .eret => d.modTh c fun t => (t.eret d.now).goOn d.now
  | .halt => d.modTh c fun t => { t with mode := .halted, wait := none, saved := none, asyncQ := [] }

/-- Every instruction slot has fired and delivered, or is predicated off (R92; DEDUCED, log entry 5). -/
def Block.finished (b : Block) : Bool :=
  b.slots.all fun sl => sl.lit || sl.phase == .done || sl.phase == .off

/-- The block commits (R93). -/
def Dev.commit (d : Dev) (c : Nat) (b : Block) (e : Exit) : Dev :=
  let d := d.modCast c fun k => { k with progress := true, th := { k.th.writeAll b.writes with
    blk := none, seq := k.th.seq + 1, startTask := k.th.startTask && k.th.inh } }
  let d := b.effects.foldl (fun d e => Dev.applyEffect c d e.2) d
  d.applyExit c b e

/-- A complete block commits when its one exit has been taken, and traps NOEXIT when none has (R92). -/
def Dev.tryCommit (d : Dev) (c : Nat) : Dev :=
  match d.casts.find c with
  | none => d
  | some k =>
    match k.th.blk with
    | none => d
    | some b =>
      if b.begun && b.clash.isNone && b.finished then
        match b.exit with
        | some e => d.commit c b e
        | none => d.takeTrap c { cause := 0x06, restart := b.addr }
      else d

/-! ### What a fired slot leaves -/

/-- An effect of class M or D. -/
def Dev.effect (d : Dev) (sh : Shot) (e : Effect) : Dev := ((d.record sh e).fireAs sh .done).tryCommit sh.c

/-- An instruction without an effect or a result. -/
def Dev.plain (d : Dev) (sh : Shot) : Dev := (d.fireAs sh .done).tryCommit sh.c

/-- An exit taken; a second one traps MULTEXIT (R92). -/
def Dev.takeExit (d : Dev) (sh : Shot) (e : Exit) : Dev :=
  if sh.blk.exit.isSome then d.slotTrap sh 0x05 0 0
  else ((d.modTh sh.c fun t => t.modBlk fun b => { b with exit := some e }).fireAs sh .done).tryCommit sh.c

/-! ### The slot at the cursor -/

/-- The slot at the cursor acts: it is settled as predicated off, or fires with its operands; one that is not ready, or is
held back, is left alone (R82, R87, R88). -/
def fire (i : Instr) (s : State) (k : Dev → Shot → Dev) : Res :=
  match s.dev.cursor with
  | none => .next s
  | some (c, n) =>
    let d := { s.dev with cursor := none }
    match d.casts.find c with
    | none => .next { s with dev := d }
    | some cast =>
      match cast.th.blk with
      | none => .next { s with dev := d }
      | some b =>
        match b.slots[n]? with
        | none => .next { s with dev := d }
        | some sl =>
          if sl.phase = .idle then
            match sl.ready (predOf i) (usesOf i) with
            | .no => .next { s with dev := d }
            | .off => .next { s with dev := (d.settleOff i c n b.seq).tryCommit c }
            | .on x y z => .next { s with dev := k d { c := c, n := n, k := cast, blk := b, sl := sl, a := x, b := y, z := z } }
          else .next { s with dev := d }

/-- A class V instruction that computes its result from its operands alone. -/
def fireValue (i : Instr) (latency : Nat) (f : Word → Word → Word → Word) (s : State) : Res :=
  fire i s fun d sh => d.deliver sh latency (some (f sh.a sh.b sh.z))

end Sys2Proof.Machine
end

