-- ==== Sys2Proof/Machine/Firing.lean ====
section
/-!
DEFINITION. What every firing of an element shares (R25, R207): the heads of its inputs, room at its outputs, the emission of
tokens, the round boundary before and the end of an iteration after it; and ERROR tokens (R22, R23).
-/
namespace Sys2Proof.Machine

/-! ### Inputs -/

/-- The tokens of an input that the site sees: those sent under its configuration phase or an earlier one (R31, R211). -/
def Site.head (s : Site) (p : InPort) : Option Token := ((s.inQ p).toks.find? fun t => decide (t.1 ≤ s.phase)).map Prod.snd

/-- The first token of a list that was sent under phase `ph` or an earlier one, taken off with its phase. -/
def takeFirst (ph : Nat) : List (Nat × Token) → Option (Nat × List (Nat × Token))
  | [] => none
  | t :: rest =>
    if t.1 ≤ ph then some (t.1, rest)
    else (takeFirst ph rest).map fun r => (r.1, t :: r.2)

/-- The head of an input is consumed and its slot released (R25). -/
def Site.take (s : Site) (p : InPort) (now : Nat) : Site :=
  s.modIn p fun q =>
    match takeFirst s.phase q.toks with
    | none => q
    | some (ph, rest) => { q with toks := rest, occ := q.occ.set 0 ph (q.occ.get 0 ph - 1), freed := now + 1 }

/-- The head of an input of a site is consumed. -/
def Dev.takeHead (d : Dev) (c n : Nat) (p : InPort) : Dev := d.modSite c n fun s => s.take p d.now

/-- The kind of the token at the head of an input. -/
def Site.headName (s : Site) (p : InPort) : Option TKind := (s.head p).map tokName

/-! ### Outputs -/

/-- The outputs that a context enables. -/
def enabledOutputs (ecw : BitVec 128) : List OutPort := [OutPort.y, OutPort.z].filter fun o => ecwOut ecw o

/-- Every destination of an output has a free slot. -/
def Cast.room (d : Dev) (k : Cast) (n : Nat) (o : OutPort) (wide : Bool) : Bool :=
  let s := k.site n
  (k.routes d s.ctx s.phase n o wide).all fun r => k.hasRoom d s.ctx r

/-- The clock from which an output may send. -/
def Site.due (s : Site) (o : OutPort) : Nat :=
  match o with
  | .y => s.dueY
  | .z => s.dueZ

def Site.setDue (s : Site) (o : OutPort) (t : Nat) : Site :=
  match o with
  | .y => { s with dueY := t }
  | .z => { s with dueZ := t }

/-- A token sent on some routes of an output: it counts as fired `latency` clocks from now (R270), and never before or together
with an earlier token of the same output (R29). -/
def Dev.emitOn (d : Dev) (c n : Nat) (o : OutPort) (latency : Nat) (t : Token) (rs : List Route) : Dev :=
  match d.casts.find c with
  | none => d
  | some k =>
    let at_ := max (d.now + latency) ((k.site n).due o)
    (d.modSite c n fun s => s.setDue o (at_ + 1)).sendAll c (at_ - d.now) t rs

/-- A token sent to every destination of an output. -/
def Dev.emit (d : Dev) (c n : Nat) (o : OutPort) (latency : Nat) (t : Token) : Dev :=
  match d.casts.find c with
  | none => d
  | some k => d.emitOn c n o latency t (k.routes d (k.site n).ctx (k.site n).phase n o t.wide)

/-! ### Firings -/

/-- The element of a site has not acted in this clock (R25). -/
def Site.free (s : Site) (now : Nat) : Bool := decide (s.lastFire ≤ now ∧ s.actAt ≤ now)

/-- The clock is taken by an act that is no firing (R207). -/
def Dev.useClock (d : Dev) (c n : Nat) : Dev := d.modSite c n fun s => { s with actAt := d.now + 1 }

/-- The element of a site can fire in this clock: it has not acted in it, nothing of an earlier firing is still to be sent, and
its node allows it (R25, R207). -/
def Cast.ready (k : Cast) (n now : Nat) : Bool :=
  let s := k.site n
  s.free now && s.outq.isEmpty && k.mayFire n now

/-- Before a firing: under a node without counters it is a round boundary (R154). -/
def Dev.beginFiring (d : Dev) (c n : Nat) : Dev :=
  d.modSite c n fun s => if scwCounters s.scwNow = 0 then s.applyArgs else s

/-- After a firing: the iteration of a governing node ends (R208). -/
def Dev.endFiring (d : Dev) (c n : Nat) : Dev :=
  let d := d.modSite c n fun s => { s with lastFire := d.now + 1 }
  match d.casts.find c with
  | none => d
  | some k => if k.governed n then (d.modNode c n fun x => { x with fired := true }).endIteration c n else d

/-! ### ERROR tokens -/

/-- The records of a configuration phase are closed at its end (R23, R184, R204, R224). -/
def Cast.endRecords (k : Cast) : Cast :=
  { k with
    th := { k.th with oobSeen := false, asyncQ := k.th.asyncQ.map fun a => { a with open_ := false } }
    popErr := []
    sites := k.sites.map fun e => (e.1, { e.2 with err := none, wallSeen := 0 }) }

/-- The narrow or wide form of an ERROR token's record for an output. -/
def Token.onWidth (t : Token) (wide : Bool) : Token :=
  if tokName t = .error then errorTok wide (tokWord t) else { t with wide := wide }

/-- The COUNT of a queued ERRTOK of a port, of the phase under way, raised by one, saturating at 255 (R184): ERRTOK words agree above
COUNT. -/
def bumpCount (port : Word) (a : AsyncCause) : AsyncCause :=
  if a.open_ ∧ a.code = 0x40 ∧ a.info1 >>> 8 = port >>> 8 then
    { a with info1 := (a.info1 >>> 8) <<< 8 ||| BitVec.ofNat 64 (min 255 (field a.info1 0 8 + 1)) }
  else a

/-- ERRTOK of a port (R23, R184): the first ERROR token of a phase raises it, later ones count in it. -/
def Dev.errtok (d : Dev) (c : Nat) (rec port : Word) (seen : Bool) : Dev :=
  if seen then d.modTh c fun t => { t with asyncQ := t.asyncQ.map (bumpCount port) }
  else d.raiseAsync c { code := 0x40, sub := 0, info0 := rec &&& 0xFFFFFFFFF, info1 := port, info2 := 0, info3 := 0, open_ := true }

/-- The record of a port kept: the first ERROR token, and how many came later. -/
def ErrRec.note (r : Option ErrRec) (rec : Word) : ErrRec :=
  match r with
  | none => { first := rec, later := 0 }
  | some r => { r with later := min 255 (r.later + 1) }

/-- ERRTOK at a memory port. -/
def Dev.portErrtok (d : Dev) (c n : Nat) (rec : Word) : Dev :=
  match d.casts.find c with
  | none => d
  | some k =>
    let s := k.site n
    (d.modSite c n fun s => { s with err := some (ErrRec.note s.err rec) }).errtok c rec
      (BitVec.ofNat 64 (2 ^ 8 * k.pkgX n + 2 ^ 16 * k.pkgY n)) s.err.isSome

/-- ERRTOK at a pop channel; it stands at the site where the channel attaches (R196). -/
def Dev.popErrtok (d : Dev) (c ch : Nat) (rec : Word) : Dev :=
  match d.casts.find c with
  | none => d
  | some k =>
    let n := siteNo (ch % 4) (ch / 4)
    (d.modCast c fun k => { k with popErr := k.popErr.put ch (ErrRec.note (k.popErr.find ch) rec) }).errtok c rec
      (BitVec.ofNat 64 (2 ^ 8 * k.pkgX n + 2 ^ 16 * k.pkgY n + 2 ^ 24 + 2 ^ 26 * ch)) (k.popErr.find ch).isSome

/-- An element's own ERROR token (R22). -/
def Cast.ownError (k : Cast) (n : Nat) (wide : Bool) (sub okind : Nat) : Token :=
  errorTok wide (errorRec k n (k.site n).ctx sub okind)

end Sys2Proof.Machine
end

