-- ==== Sys2Proof/Machine/Tokens.lean ====
section
/-!
DEFINITION. Tokens on their way (R20 to R29): the widths of local ports, acceptance at an input, a pop channel, an OUT port or a
walled side, the forwarding of ERROR tokens, and index selectors (R202, R203).
-/
namespace Sys2Proof.Machine

/-! ### Widths of local ports (R18, R202, R221, R249, R264, R282, R315) -/

/-- The width of an input: true for wide. -/
def inWide (ecw : BitVec 128) (p : InPort) : Bool :=
  match ecwKind ecw, p with
  | 0, _ => true
  | 1, .a => true
  | 1, .b => true
  | 2, .b => !bitAt ecw 13
  | 3, .a => ecwOp ecw == 0x0C
  | 4, .a => !bitAt ecw 4
  | 4, .b => true
  | 5, .a => false
  | 5, _ => bitAt ecw 12
  | _, _ => false

/-- The width of an output. -/
def outWide (ecw : BitVec 128) (o : OutPort) : Bool :=
  match ecwKind ecw, o with
  | 0, .y => true
  | 1, .y => true
  | 2, .y => !bitAt ecw 13
  | 3, .y => ecwOp ecw == 0x0B
  | 4, .y => !bitAt ecw 4
  | 4, .z => ecwOp ecw == 4
  | 5, .y => bitAt ecw 12
  | _, _ => false

/-- Every enabled output of a site has room. -/
def Cast.allRoom (d : Dev) (k : Cast) (n : Nat) : Bool :=
  let ecw := (k.site n).ecwNow
  (enabledOutputs ecw).all fun o => k.room d n o (outWide ecw o)

/-- A token sent on every enabled output, in the form of each one's network. -/
def Dev.emitAll (d : Dev) (c n : Nat) (make : Bool → Token) : Dev :=
  match d.casts.find c with
  | none => d
  | some k =>
    let ecw := (k.site n).ecwNow
    (enabledOutputs ecw).foldl (fun d o => d.emit c n o 0 (make (outWide ecw o))) d

/-! ### Acceptance -/

/-- A token as the receiving element takes it (R21). -/
def Cast.convert (k : Cast) (n : Nat) (t : Token) : Token :=
  match tokName t with
  | .reserved => errorTok t.wide (errorRec k n (k.site n).ctx 0x01 (tokKind t))
  | .reconf => if 3 < field t.ctl 0 4 then errorTok t.wide (errorRec k n (k.site n).ctx 0x03 0) else t
  | _ => t

/-- A STREAM leaf's node records the end of a stream (R208); the run ends when every enabled input has ended. -/
def Dev.streamRecord (d : Dev) (c n : Nat) (p : InPort) (t : Token) : Dev :=
  match d.casts.find c with
  | none => d
  | some k =>
    let s := k.site n
    if scwKind s.scwNow = 3 ∧ (k.children n).isEmpty ∧ ecwIn s.ecwNow p
        ∧ tokName t = (if t.wide then TKind.last else TKind.done) then
      let d := d.modNode c n fun x => { x with ended := x.ended ||| BitVec.ofNat 4 (2 ^ InPort.ix p) }
      match d.casts.find c with
      | none => d
      | some k => if (k.site n).node.running && (k.site n).streamEnded then d.endRun c n else d
    else d

/-- A pop channel takes a token: RECONF and DRAIN towards completion, ERROR as ERRTOK, anything else for a pop (R23, R153). -/
def Dev.popAccept (d : Dev) (c ch : Nat) (t : Token) : Dev :=
  let free := fun (d : Dev) => d.modTh c fun th => { th with popOcc := th.popOcc.set 0 ch (th.popOcc.get 0 ch - 1) }
  match tokName t with
  | .reconf => (free d).modCast c fun k => { k with popAbsorbed := k.popAbsorbed ||| BitVec.ofNat 8 (2 ^ ch) }
  | .drain => (free d).modCast c fun k => { k with popAbsorbed := k.popAbsorbed ||| BitVec.ofNat 8 (2 ^ ch) }
  | .error => (free d).popErrtok c ch (tokWord t)
  | _ => (d.modTh c fun th => { th with pop := th.pop.set [] ch (th.pop.get [] ch ++ [t]) }).servePops c

/-- An OUT port takes a token. -/
def Port.accept (p : Port) (t : Token) : Port := { p with q := p.q ++ [t] }

/-- A site sends something out of a side on a network. -/
def Site.faces (s : Site) (wide : Bool) (side : Nat) : Bool :=
  (List.range (lanesPer wide)).any fun l => xbar s.scwNow wide (side * lanesPer wide + l) != 0

/-- TOKEN_ACCEPT. What reaches a wall after its site has switched is dropped as the new context has it (R211). -/
def execTokenAccept (c : Nat) (dst : Dest) (t : Token) (s : State) : Res :=
  match s.dev.casts.find c with
  | none => .next s
  | some k =>
    .next { s with dev :=
      match dst with
      | .input n p phase =>
        let t := k.convert n t
        let d := s.dev.modSite c n fun x => x.modIn p fun q => { q with toks := q.toks ++ [(phase, t)] }
        d.streamRecord c n p t
      | .pop ch => s.dev.popAccept c ch t
      | .out ix => s.dev.modCast c fun k => { k with ports := k.ports.modify ix fun p => p.accept t }
      | .wall n side ph =>
        if ph < (k.site n).phase && !(k.site n).faces t.wide side then s.dev
        else s.dev.postWall c n side (bit (!t.wide)) (tokKind t) }

/-! ### ERROR tokens (R22) -/

/-- The site is a memory port, where an ERROR token is consumed as an access is (R23). -/
def isMemPort (ecw : BitVec 128) : Bool := ecwKind ecw == 2 && (ecwOp ecw == 3 || ecwOp ecw == 4)

/-- The site is an EMIT, which consumes ERROR tokens as a memory port does (R324). -/
def isEmit (ecw : BitVec 128) : Bool := ecwKind ecw == 3 && ecwOp ecw == 8

/-- The first enabled input with an ERROR token at its head. -/
def Site.errorHead (s : Site) : Option (InPort × Token) :=
  (enabledInputs s.ecwNow).findSome? fun p => (s.head p).bind fun t => if tokName t = .error then some (p, t) else none

/-- An ERROR token can be forwarded now: the element has not acted in this clock, nor is it held by an earlier firing (R22, R251, R270). -/
def Cast.canForwardError (d : Dev) (k : Cast) (n : Nat) : Bool :=
  let s := k.site n
  !isMemPort s.ecwNow && !isEmit s.ecwNow && s.errorHead.isSome && s.free d.now && s.outq.isEmpty && s.el.between && s.el.rested d.now
    && k.allRoom d n

/-- The forwarding of an ERROR token: it alone is consumed. -/
def Dev.forwardError (d : Dev) (c n : Nat) : Dev :=
  match d.casts.find c with
  | none => d
  | some k =>
    match (k.site n).errorHead with
    | none => d
    | some (p, t) =>
      if k.canForwardError d n then
        (((d.takeHead c n p).emitAll c n fun w => errorTok w (tokWord t)).modSite c n fun s => { s with el := s.el.errored p }).useClock c n
      else d

/-- ERROR_TOKEN_FORWARD. -/
def execErrorTokenForward (c n : Nat) (s : State) : Res := .next { s with dev := s.dev.forwardError c n }

/-! ### Index selectors (R202, R203) -/

/-- A token whose value a selector may move. -/
def movable (t : Token) : Bool :=
  match tokName t with
  | .reconf => false
  | .drain => false
  | .error => false
  | _ => true

/-- What a selector does next: forward a value from an input to some routes, or raise an ERROR token; the index is consumed with
it, and so are the inputs listed. -/
inductive SelAct where
  | wait
  | send (from_ : InPort) (t : Token) (rs : List Route)
  | err (sub : Nat) (also_ : List InPort)

/-- The action of a selector, when its heads are there (R203). -/
def Cast.selAct (d : Dev) (k : Cast) (n : Nat) : SelAct :=
  let s := k.site n
  let ecw := s.ecwNow
  let wide := bitAt ecw 12
  match s.head .a with
  | none => .wait
  | some t =>
    if !movable t then .wait
    else if ecwOp ecw = 1 then
      match s.head .b with
      | none => .wait
      | some v =>
        if !movable v then .wait
        else if tokName t ≠ .index then .err 0x10 [.b]
        else
          match (k.candidates d s.ctx s.phase n .y wide)[field (tokWord t) 0 5]? with
          | some rs => .send .b v rs
          | none => .err 0x02 [.b]
    else if tokName t ≠ .index then .err 0x10 []
    else
      let chosen := match field (tokWord t) 0 5 with
        | 0 => some InPort.b
        | 1 => some InPort.c
        | 2 => some InPort.d
        | _ => none
      match chosen.filter fun p => ecwIn ecw p with
      | none => .err 0x02 []
      | some p =>
        match s.head p with
        | none => .wait
        | some v => if movable v then .send p v (k.routes d s.ctx s.phase n .y wide) else .wait

/-- A selector fires when its action's destinations have room. -/
def Cast.canSelect (d : Dev) (k : Cast) (n : Nat) : Bool :=
  let s := k.site n
  ecwKind s.ecwNow == 5 && (ecwOp s.ecwNow == 1 || ecwOp s.ecwNow == 2) && k.ready n d.now && s.errorHead.isNone &&
    match k.selAct d n with
    | .wait => false
    | .send _ _ rs => rs.all fun r => k.hasRoom d s.ctx r
    | .err _ _ => k.room d n .y (bitAt s.ecwNow 12)

/-- One firing of a selector. -/
def Dev.selectorFire (d : Dev) (c n : Nat) : Dev :=
  match d.casts.find c with
  | none => d
  | some k =>
    if !k.canSelect d n then d
    else
      let d := d.beginFiring c n
      match k.selAct d n with
      | .wait => d
      | .send p t rs => (((d.takeHead c n .a).takeHead c n p).emitOn c n .y 0 t rs).endFiring c n
      | .err sub also_ =>
        let d := also_.foldl (fun d p => d.takeHead c n p) (d.takeHead c n .a)
        (d.emit c n .y 0 (k.ownError n (bitAt (k.site n).ecwNow 12) sub 0)).endFiring c n

/-- SELECTOR_FIRE. -/
def execSelectorFire (c n : Nat) (s : State) : Res := .next { s with dev := s.dev.selectorFire c n }

end Sys2Proof.Machine
end

