-- ==== Sys2Proof/Machine/Converter.lean ====
section
/-!
DEFINITION. The converter element (R248 to R257): CVT, QMX, JOIN and SPLIT, and the flush before tokens other than data.
-/
namespace Sys2Proof.Machine

/-! ### Fields (R249) -/

def cxIfmt (ecw : BitVec 128) : Nat := field ecw 0 4
def cxNarrow (ecw : BitVec 128) : Bool := bitAt ecw 4
def cxKs (ecw : BitVec 128) : Bool := bitAt ecw 5
def cxRm (ecw : BitVec 128) : Rm := rmOf (ecwMode ecw)
def cxFtz (ecw : BitVec 128) : Bool := bitAt ecw 14
def cxSatf (ecw : BitVec 128) : Bool := bitAt ecw 15

/-- Elements that a token of a format holds at A or Y. -/
def cxPer (ecw : BitVec 128) (f : Nat) : Nat := if cxNarrow ecw then perNarrow f else perWide f

/-- × DEC(K, FP32) under KS (R252). -/
def cxTimesK (ecw : BitVec 128) (k : BitVec 32) (v : Val) : Val :=
  if cxKs ecw then v.mul (fp32.dec (cxFtz ecw) k.toNat) else v

/-- Element `i` of a token of format `f`, with the scale of its block for a block-scaled format. -/
def tokElement (f : Nat) (ftz : Bool) (t : Token) (i : Nat) : Val :=
  let v := decVal f ftz (field t.data (fmtWidth f * i) (fmtWidth f))
  if isMx f then v.scaled (field t.side (8 * (i / 32)) 8) else v

/-! ### Results -/

/-- CVT of one element (R252). -/
def cvtOne (ecw : BitVec 128) (k : BitVec 32) (t : Token) (i : Nat) : Coded :=
  conv (ecwFmt ecw) (cxRm ecw) (cxSatf ecw) (cxFtz ecw) (cxTimesK ecw k (tokElement (cxIfmt ecw) (cxFtz ecw) t i))

/-- floor(log2 |x|) of a value, when it is finite and not zero. -/
def Val.log2? : Val → Option Int
  | .fin _ m e => some (e + m.log2)
  | _ => none

/-- The greatest of a list of integers, when there is one. -/
def greatest : List Int → Option Int
  | [] => none
  | x :: rest => some (rest.foldl max x)

/-- EMAXE (R253). -/
def emaxe (f : Nat) : Int :=
  match f with
  | 0xB => 8
  | 0xC => 15
  | _ => 2

/-- QMX of one block of 32 values: the codes with their flags, and the scale (R253). -/
def qmxBlock (f : Nat) (rm : Rm) (ftz : Bool) (xs : List Val) : List Coded × Nat :=
  if xs.any fun x => match x with
      | .nan _ => true
      | .inf _ => true
      | _ => false
  then (xs.map fun _ => (0, flNV), 0xFF)
  else
    let x : Int := match greatest (xs.filterMap Val.log2?) with
      | none => -127
      | some l => min (max (l - emaxe f) (-127)) 127
    (xs.map fun v => conv (mxElement f) rm true ftz (match v with
      | .fin neg m e => .fin neg m (e - x)
      | v => v), (x + 127).toNat)

/-! ### The token in assembly -/

/-- The token that Y holds in assembly, padded with zeros (R252 to R254). -/
def CxSt.yToken (x : CxSt) (ecw : BitVec 128) (last : Bool) : Token :=
  let data := packLanes (fmtWidth (ecwFmt ecw)) x.out
  if cxNarrow ecw then narrowTok 0 0 (data.setWidth 64)
  else wideTok (bit last) 0 data (BitVec.ofNat 32 (packNat 8 x.scales))

/-- The token of scales that SPLIT holds in assembly. -/
def CxSt.zToken (x : CxSt) (last : Bool) : Token := wideTok (bit last) 0 (packLanes 8 x.zout) 0

/-- The flags token (R256). -/
def flagTok (f : Flags) : Token := narrowTok 0 0 (f.setWidth 64)

/-- What one firing does (R251 to R254): the state after it, whether the heads of A and B are consumed, and the tokens emitted. -/
structure CxStep where
  st : CxSt
  takeA : Bool
  takeB : Bool := false
  y : Option Token := none
  z : Option Token := none

/-- The token in assembly is emitted. -/
def CxSt.sent (x : CxSt) : CxSt := { x with out := [], scales := [], flags := 0 }

/-- The end of a firing of CVT or QMX: Y is emitted when it is full or takes the last element of a LAST, with its flags on Z. -/
def cxFinish (ecw : BitVec 128) (x : CxSt) (used : Nat) (t : Token) (full : Nat) : CxStep :=
  let takeA := decide (cxPer ecw (cxIfmt ecw) ≤ used)
  let last := takeA && tokName t == .last
  let x := { x with pos := if takeA then 0 else used }
  if x.out.length = full ∨ last then
    { st := x.sent, takeA := takeA, y := some (x.yToken ecw last), z := if ecwOut ecw .z then some (flagTok x.flags) else none }
  else { st := x, takeA := takeA }

/-- A firing of CVT. -/
def cxCvt (ecw : BitVec 128) (k : BitVec 32) (x : CxSt) (t : Token) : CxStep :=
  let full := cxPer ecw (ecwFmt ecw)
  let n := min (cxPer ecw (cxIfmt ecw) - x.pos) (full - x.out.length)
  let new := (List.range n).map fun i => cvtOne ecw k t (x.pos + i)
  cxFinish ecw { x with out := x.out ++ new.map Prod.fst, flags := x.flags ||| allFlags new } (x.pos + n) t full

/-- A firing of QMX: the blocks of the head that the token in assembly has room for. -/
def cxQmx (ecw : BitVec 128) (k : BitVec 32) (x : CxSt) (t : Token) : CxStep :=
  let f := ecwFmt ecw
  let blocks := min ((cxPer ecw (cxIfmt ecw) - x.pos) / 32) (4 - x.scales.length)
  let new := (List.range blocks).map fun b => qmxBlock f (cxRm ecw) (cxFtz ecw)
    ((List.range 32).map fun i => cxTimesK ecw k (tokElement (cxIfmt ecw) (cxFtz ecw) t (x.pos + 32 * b + i)))
  let codes := new.flatMap Prod.fst
  cxFinish ecw { x with out := x.out ++ codes.map Prod.fst, scales := x.scales ++ new.map Prod.snd, flags := x.flags ||| allFlags codes }
    (x.pos + 32 * blocks) t 128

/-- A firing of JOIN: 128 elements from A, four scales from B. -/
def cxJoin (ecw : BitVec 128) (x : CxSt) (a b : Token) : CxStep :=
  let w := fmtWidth (cxIfmt ecw)
  let codes := (List.range 128).map fun i => field a.data (w * (x.pos + i)) w
  let scales := (List.range 4).map fun i => field b.data (8 * (x.bpos + i)) 8
  let takeA := decide (perWide (cxIfmt ecw) ≤ x.pos + 128)
  let last := takeA && tokName a == .last
  let takeB := last || decide (128 ≤ x.bpos + 4)
  { st := { x with pos := if takeA then 0 else x.pos + 128, bpos := if takeB then 0 else x.bpos + 4 }
    takeA := takeA, takeB := takeB
    y := some (({ out := codes, scales := scales } : CxSt).yToken ecw last) }

/-- A firing of SPLIT: a beat's 128 elements to Y, its four scales to Z. -/
def cxSplit (ecw : BitVec 128) (x : CxSt) (t : Token) : CxStep :=
  let w := fmtWidth (cxIfmt ecw)
  let last := tokName t == .last
  let x := { x with
    out := x.out ++ (List.range 128).map fun i => field t.data (w * i) w
    zout := x.zout ++ (List.range 4).map fun i => field t.side (8 * i) 8 }
  let ySend := last || decide (perWide (ecwFmt ecw) ≤ x.out.length)
  let zSend := last || decide (128 ≤ x.zout.length)
  { st := { x with out := if ySend then [] else x.out, zout := if zSend then [] else x.zout }
    takeA := true
    y := if ySend then some (x.yToken ecw last) else none
    z := if zSend then some (x.zToken last) else none }

/-- What the heads of A and B call for (R251 to R255): a firing; a flush; a token at A sent on or turned into an ERROR token; a
token at B consumed alone. -/
inductive CxAct where
  | wait
  | fire (r : CxStep)
  | flush
  | pass (t : Token)
  | hdrErr
  | dropB

/-- Something is held for the next token, or a position is kept. -/
def CxSt.pending (x : CxSt) : Bool := !x.out.isEmpty || !x.zout.isEmpty || x.pos != 0 || x.bpos != 0

/-- The action of a converter (R251 to R255). A SWAP at B of JOIN is consumed alone, as a HEADER there is (DESIGN CHOICE, log entry 109:
R255 names the HEADER only). -/
def Site.cxAct (s : Site) (x : CxSt) : CxAct :=
  let ecw := s.ecwNow
  let join := ecwOp ecw == 3
  let bAlone := join && match s.headName .b with
    | some .header => true
    | some .swap => true
    | _ => false
  if bAlone then .dropB
  else
    match s.head .a with
    | none => .wait
    | some t =>
      match tokName t with
      | .data | .last =>
        match ecwOp ecw with
        | 1 => .fire (cxCvt ecw s.konst x t)
        | 2 => .fire (cxQmx ecw s.konst x t)
        | 3 =>
          match s.head .b with
          | some b => if tokName b = .data ∨ tokName b = .last then .fire (cxJoin ecw x t b) else .wait
          | none => .wait
        | 4 => .fire (cxSplit ecw x t)
        | _ => .wait
      | .header =>
        if x.pending then .flush
        else if field t.ctl 8 4 = cxIfmt ecw then .pass { t with ctl := BitVec.ofNat 16 (6 * 4096 + 256 * ecwFmt ecw) }
        else .hdrErr
      | .swap | .stop | .done | .index => if x.pending then .flush else .pass t
      | .reconf | .drain =>
        if x.pending then .flush
        else if join then
          match s.head .b with
          | some b => if movable b then .dropB else .wait
          | none => .wait
        else .wait
      | .error | .reserved => .wait

/-- The tokens a flush emits: Y when it holds something, with its flags, and the scales of SPLIT (R255, R256). -/
def CxSt.flushed (x : CxSt) (ecw : BitVec 128) : Option Token × Option Token :=
  let y := if x.out.isEmpty then none else some (x.yToken ecw false)
  let z := if ecwOp ecw = 4 then (if x.zout.isEmpty then none else some (x.zToken false))
    else if y.isSome && ecwOut ecw .z then some (flagTok x.flags) else none
  (y, z)

/-- A token that may be emitted has room. -/
def Cast.roomFor (d : Dev) (k : Cast) (n : Nat) (o : OutPort) (t : Option Token) : Bool :=
  match t with
  | none => true
  | some t => k.room d n o t.wide

/-- The converter can act now (R25, R251, R256). -/
def Cast.cxReady (d : Dev) (k : Cast) (n : Nat) : Bool :=
  let s := k.site n
  let ecw := s.ecwNow
  match s.conv? with
  | none => false
  | some x =>
    ecwKind ecw == 4 && ecw != 0 && s.free d.now && s.outq.isEmpty && s.errorHead.isNone &&
      match s.cxAct x with
      | .wait => false
      | .fire r => k.mayFire n d.now && k.room d n .y (!cxNarrow ecw) && k.roomFor d n .z r.z
      | .flush => k.roomFor d n .y (x.flushed ecw).1 && k.roomFor d n .z (x.flushed ecw).2
      | .pass t => k.room d n .y t.wide
      | .hdrErr => k.room d n .y (!cxNarrow ecw)
      | .dropB => true

/-- A token emitted where there is one, counted as fired three clocks on (R251). -/
def Dev.emitOpt (d : Dev) (c n : Nat) (o : OutPort) (latency : Nat) (t : Option Token) : Dev :=
  match t with
  | none => d
  | some t => d.emit c n o latency t

/-- One action of a converter; tokens consumed alone and flushes are no firings (R207). -/
def Dev.cxFire (d : Dev) (c n : Nat) : Dev :=
  match d.casts.find c with
  | none => d
  | some k =>
    if !k.cxReady d n then d
    else
      match (k.site n).conv? with
      | none => d
      | some x =>
        let ecw := (k.site n).ecwNow
        match (k.site n).cxAct x with
        | .wait => d
        | .dropB => (d.takeHead c n .b).useClock c n
        | .pass t => ((d.takeHead c n .a).emit c n .y 3 t).useClock c n
        | .hdrErr => ((d.takeHead c n .a).emit c n .y 3 (k.ownError n (!cxNarrow ecw) 0x13 0)).useClock c n
        | .flush =>
          let f := x.flushed ecw
          (((d.modConv c n fun _ => {}).emitOpt c n .y 3 f.1).emitOpt c n .z 3 f.2).useClock c n
        | .fire _ =>
          let d := d.beginFiring c n
          match ((d.casts.find c).getD k |>.site n).cxAct x with
          | .fire r =>
            let d := d.modConv c n fun _ => r.st
            let d := if r.takeA then d.takeHead c n .a else d
            let d := if r.takeB then d.takeHead c n .b else d
            ((d.emitOpt c n .y 3 r.y).emitOpt c n .z 3 r.z).endFiring c n
          | _ => d

/-- CX_FIRE. -/
def execCxFire (c n : Nat) (s : State) : Res := .next { s with dev := s.dev.cxFire c n }

end Sys2Proof.Machine
end

