-- ==== Sys2Proof/Machine/Requests.lean ====
section
/-!
DEFINITION. Memory requests at the channels and ports (R61, R62), stores to replicated pages (R77, R78), and accesses of a run of
bytes through translation.
-/
namespace Sys2Proof.Machine

/-! ### Replicated pages -/

/-- A physical address on another die: PA[39:37] replaced (R77). -/
def onDie (pa die : Nat) : Nat := 2 ^ 40 * (pa / 2 ^ 40) + 2 ^ 37 * (die % 8) + pa % 2 ^ 37

/-- The compute dies that are present (R2, R477). -/
def Dev.dies (d : Dev) : List Nat := (List.range 8).filter d.hasDie

/-- The key of a replica's list of stores to come. -/
def replicaKey (die page : Nat) : Nat := page / 4096 * 8 + die % 8

/-- The home die numbers a store and multicasts it: every other present die has it to apply, in order (R77). -/
def Dev.multicast (d : Dev) (r : MemReq) (page : Nat) : Dev :=
  let home := paDie page
  let n := d.replNo
  let d := { d with replSeq := d.replSeq.set 0 (page / 4096) (d.replSeq.get 0 (page / 4096) + 1), replNo := n + 1 }
  (d.dies.filter fun die => die != home).foldl (fun d die =>
    (({ d with replicas := d.replicas.set [] (replicaKey die page) (d.replicas.get [] (replicaKey die page) ++ [(n, r)]) }).post
      (Config.openDelay d.free) (.replicaStoreApply die page)).tickFree) d

/-- Some replica has still to apply a store numbered below `n` (R78). -/
def Dev.unapplied (d : Dev) (n : Nat) : Bool := d.replicas.any fun e => e.2.any fun r => decide (r.1 < n)

/-- Some replica has still to apply a store of an agent (R78). -/
def Dev.unappliedOf (d : Dev) (p : Agent → Bool) : Bool := d.replicas.any fun e => e.2.any fun r => p r.2.agent

/-- An access of a thread is performed, unless some replica has still to apply it (R78). -/
def Dev.settle (d : Dev) (agent : Agent) (id : Nat) : Dev :=
  match agent with
  | .thread c => if d.replicas.any fun e => e.2.any fun r => r.2.agent == agent && r.2.id == id then d else d.modTh c fun t => t.settle id
  | _ => d

/-- A write performed at its channel or port; one to a replicated page at its home, which multicasts it. -/
def State.perform (s : State) (r : MemReq) : State :=
  let s' := writeAt s r.tenant r.pa r.data
  match r.rpl with
  | none => s'
  | some page => { s' with dev := s'.dev.multicast r page }

/-- REPLICA_STORE_APPLY: a die applies the oldest store of a page that it has not applied. -/
def execReplicaStoreApply (die page : Nat) (s : State) : Res :=
  match s.dev.replicas.get [] (replicaKey die page) with
  | [] => .next s
  | (_, r) :: rest =>
    let s := writeAt s r.tenant (onDie r.pa die) r.data
    .next { s with dev := ({ s.dev with replicas := s.dev.replicas.set [] (replicaKey die page) rest }).settle r.agent r.id }

/-- CHANNEL_REQUEST: a write is performed or dropped; a read is checked and returns its bytes to its issuer. -/
def execChannelRequest (r : MemReq) (s : State) : Res :=
  if r.write then
    let s := s.perform r
    .next { s with dev := s.dev.settle r.agent r.id }
  else .next { s with dev := (Dev.read s.mem s.dev r.tenant r.pa r.len).2 }

/-- The bytes of a page's replica on an agent's die as the agent reads them: with its own stores that the replica has still to apply, and
those numbered before them (R68, R71, R77). -/
def Dev.readOwn (m : Memory) (d : Dev) (agent : Agent) (tenant : Nat) (p : Placed) (die len : Nat) : List Byte × Dev :=
  let r := Dev.read m d tenant (p.readPa die) len
  match p.rpl with
  | none => r
  | some page =>
    let todo := d.replicas.get [] (replicaKey die page)
    let own := (todo.filter fun e => e.2.agent == agent).foldl (fun (n : Nat) e => max n (e.1 + 1)) 0
    ((todo.filter fun e => decide (e.1 < own)).foldl (fun (bs : List Byte) e =>
      bs.mapIdx fun i b => if e.2.pa ≤ p.pa + i ∧ p.pa + i < e.2.pa + e.2.data.length then e.2.data.getD (p.pa + i - e.2.pa) b else b) r.1, r.2)

/-! ### Runs of bytes -/

/-- The bytes of a run up to the next line boundary (R46). -/
def lineLeft (va len : Nat) : Nat := min len (128 - va % 128)

/-- Bytes read through translation, line by line; the first line that is not translated ends it. Of a replicated page the replica of
`v.die` is read (R77); for the agents on no compute die, those of the I/O dies and the placer, the model takes die 0's (DESIGN CHOICE,
log entry 97). -/
def Dev.readVa (m : Memory) (v : Via) (tenant : Nat) (agent : Agent) : Nat → Word → Nat → Dev → Except (Word × XFault) (List Byte) × Dev
  | 0, _, _, d => (.ok [], d)
  | fuel + 1, va, len, d =>
    if len = 0 then (.ok [], d)
    else
      let n := lineLeft va.toNat len
      match Dev.translate m d v tenant va .load with
      | (.error f, d) => (.error (va, f), d)
      | (.ok p, d) =>
        let r := Dev.readOwn m d agent p.tid p v.die n
        match Dev.readVa m v tenant agent fuel (va + BitVec.ofNat 64 n) (len - n) r.2 with
        | (.error f, d) => (.error f, d)
        | (.ok rest, d) => (.ok (r.1 ++ rest), d)

/-- A run of bytes read; the fuel covers every line. -/
def Dev.readRun (m : Memory) (d : Dev) (v : Via) (tenant : Nat) (va : Word) (len : Nat) (agent : Agent := .firmware) :
    Except (Word × XFault) (List Byte) × Dev :=
  Dev.readVa m v tenant agent (len / 128 + 2) va len d

/-- Bytes written through translation, line by line: the state after it, and the fault of the first line that is not translated,
with what stood before it written. -/
def State.writeVa (v : Via) (tenant : Nat) (agent : Agent) : Nat → Word → List Byte → State → State × Option (Word × XFault)
  | 0, _, _, s => (s, none)
  | fuel + 1, va, data, s =>
    if data.isEmpty then (s, none)
    else
      let n := lineLeft va.toNat data.length
      match Dev.translate s.mem s.dev v tenant va .store with
      | (.error f, d) => ({ s with dev := d }, some (va, f))
      | (.ok p, d) =>
        State.writeVa v tenant agent fuel (va + BitVec.ofNat 64 n) (data.drop n)
          (State.perform { s with dev := d } { agent := agent, tenant := tenant, pa := p.pa, write := true, len := n, data := data.take n,
                                               rpl := p.rpl, id := 0 })

/-- A run of bytes written; the fuel covers every line. -/
def State.writeRun (s : State) (v : Via) (tenant : Nat) (agent : Agent) (va : Word) (data : List Byte) : State × Option (Word × XFault) :=
  State.writeVa v tenant agent (data.length / 128 + 2) va data s

end Sys2Proof.Machine
end

