-- ==== Sys2Proof/Machine/Banks.lean ====
section
/-!
DEFINITION. Scratch banks and memory ports (R212 to R233): allocation of ranges, the HND and PORT.RES commands, the address
generator, and the accesses of the SB element.
-/
namespace Sys2Proof.Machine

/-! ### Allocation (R215) -/

/-- The granules of 4 KiB that an entry holds: first and number. -/
def HndEnt.granules (e : HndEnt) : Nat × Nat := (e.base / 4096, (e.len + 4095) / 4096)

/-- A granule is free. -/
def SbSt.granuleFree (b : SbSt) (g : Nat) : Bool :=
  (List.range 16).all fun i =>
    let e := b.hnd.get {} i
    !e.used || decide (g < e.granules.1) || decide (e.granules.1 + e.granules.2 ≤ g)

/-- The lowest run of `n` free granules. -/
def SbSt.freeRun (b : SbSt) (n : Nat) : Option Nat :=
  (List.range 128).find? fun g => decide (g + n ≤ 128) && (List.range n).all fun i => b.granuleFree (g + i)

/-- The lowest free entry. -/
def SbSt.freeEntry (b : SbSt) : Option Nat := (List.range 16).find? fun i => !(b.hnd.get {} i).used

/-- A range of `len` bytes allocated to the thread, reading as zero (R217): its entry and the bank. -/
def SbSt.alloc (b : SbSt) (len : Nat) : Option (Nat × SbSt) :=
  if len = 0 ∨ 524288 < len then none
  else
    match b.freeEntry, b.freeRun ((len + 4095) / 4096) with
    | some i, some g =>
      let e := b.hnd.get {} i
      some (i, { b with
        hnd := b.hnd.set {} i { e with used := true, base := 4096 * g, len := len, elem := false }
        mem := b.mem.filter fun x => decide (x.1 < 4096 * g ∨ 4096 * (g + (len + 4095) / 4096) ≤ x.1) })
    | _, _ => none

/-- An entry freed: its generation goes up, from 4,095 to 1. -/
def SbSt.free (b : SbSt) (i : Nat) : SbSt :=
  let e := b.hnd.get {} i
  { b with hnd := b.hnd.set {} i { used := false, gen := if e.gen = 4095 then 1 else e.gen + 1 } }

/-! ### The handle commands (R216 to R219) -/

/-- The site a site operand names: x in [7:0], y in [14:8]. -/
def operandSite (a : Word) : Nat := siteNo (field a 0 8) (field a 8 7)

/-- A handle value. -/
def handleOf (site entry gen : Nat) : Word := BitVec.ofNat 64 (siteX site + 2 ^ 8 * siteY site + 2 ^ 16 * entry + 2 ^ 20 * gen)

/-- Commands to one site leave in order. -/
def siteLane (site : Nat) : Nat := 100 + site

/-- An effect whose command takes an open number of clocks, at most `bound`, to reach its engine. -/
def Dev.effectWithin (d : Dev) (sh : Shot) (bound : Nat) (make : Nat → Effect) : Dev :=
  (d.tickFree).effect sh (make (d.delay bound))

/-- The thread holds a handle, or a pending HND.TAKE of it counts as holding it (R218). -/
def Shot.holds (sh : Shot) (h : Word) : Bool :=
  (sh.k.holds sh.c h).isSome || sh.k.th.pend.any fun p => p.kind == .take h

def execHndNew (p : Pred) (a : Target) (s : State) : Res :=
  fire (.hndNew p a) s fun d sh =>
    if !sh.k.inside (field sh.a 0 8) (field sh.a 8 7) then d.slotTrap sh 0x0F sh.word 0
    else
      let pid := sh.k.th.nextId
      (d.newId sh.c).effectWithin sh (4 + sh.k.way 0 (operandSite sh.a)) fun delay =>
        .defer .plain pid a 0 false (siteLane (operandSite sh.a)) false delay (.sbHndNew sh.c pid (operandSite sh.a) sh.b)

def execHndGive (p : Pred) (s : State) : Res :=
  fire (.hndGive p) s fun d sh =>
    if sh.holds sh.a then
      d.effect sh (.issue (siteLane (hndSite sh.a)) false 0 (.sbHndGive sh.c sh.a))
    else d.slotTrap sh 0x09 sh.a 0

def execHndTake (p : Pred) (a : Target) (s : State) : Res :=
  fire (.hndTake p a) s fun d sh =>
    let pid := sh.k.th.nextId
    (d.newId sh.c).effectWithin sh (4 + sh.k.way 0 (hndSite sh.a)) fun delay =>
      .defer (.take sh.a) pid a 0 false (siteLane (hndSite sh.a)) false delay (.sbHndTake sh.c pid sh.a)

def execHndDrop (p : Pred) (s : State) : Res :=
  fire (.hndDrop p) s fun d sh =>
    if sh.holds sh.a then
      d.effect sh (.issue (siteLane (hndSite sh.a)) false 0 (.sbHndDrop sh.c sh.a))
    else d.slotTrap sh 0x09 sh.a 0

/-- The information word of a handle; 0 for a stale one (R219). -/
def Cast.hndInfo (k : Cast) (h : Word) : Word :=
  match k.current h with
  | none => 0
  | some e => BitVec.ofNat 64 (e.base % 2 ^ 20 + 2 ^ 20 * e.len + 2 ^ 40 * bit e.elem + 2 ^ 41)

def execHndInfo (p : Pred) (b a : Target) (s : State) : Res :=
  fire (.hndInfo p b a) s fun d sh => d.deliver sh 4 (some (sh.k.hndInfo sh.a))

def execPortRes (p : Pred) (act : Resume) (s : State) : Res :=
  fire (.portRes p act) s fun d sh =>
    if sh.k.inside (field sh.a 0 8) (field sh.a 8 7) then d.effect sh (.portRes (operandSite sh.a) act)
    else d.slotTrap sh 0x0F sh.word 0

/-- The distance of a site from its cast's sequencer (R217). -/
def Dev.wayTo (d : Dev) (c n : Nat) : Nat := ((d.casts.find c).map fun k => k.way 0 n).getD 0

/-- SB_HND_NEW (R217). -/
def execSbHndNew (c pid site : Nat) (len : Word) (s : State) : Res :=
  match s.dev.casts.find c with
  | none => .next s
  | some k =>
    let bound := 8 + s.dev.wayTo c site
    match ((k.site site).bank?).bind fun b => b.alloc len.toNat with
    | none => .next { s with dev := s.dev.replyWithin bound c pid 0 0 }
    | some (i, b) =>
      .next { s with dev := (s.dev.modBank c site fun _ => b).replyWithin bound c pid (handleOf site i (b.hnd.get {} i).gen) 0 }

/-- SB_HND_GIVE (R218): at commit, every committed STL of the thread being performed, HOLDER becomes 1. -/
def execSbHndGive (c : Nat) (h : Word) (s : State) : Res :=
  match (s.dev.casts.find c).bind fun k => k.current h with
  | none => .next s
  | some e => .next { s with dev := s.dev.modBank c (hndSite h) fun b => { b with hnd := b.hnd.set {} (hndIx h) { e with elem := true } } }

/-- SB_HND_TAKE (R218): 1 for a stale handle, 2 when the thread holds it, else HOLDER becomes 0. -/
def execSbHndTake (c pid : Nat) (h : Word) (s : State) : Res :=
  let bound := 8 + s.dev.wayTo c (hndSite h)
  match (s.dev.casts.find c).bind fun k => k.current h with
  | none => .next { s with dev := s.dev.replyWithin bound c pid 1 0 }
  | some e =>
    if e.elem then
      .next { s with dev := (s.dev.modBank c (hndSite h) fun b =>
        { b with hnd := b.hnd.set {} (hndIx h) { e with elem := false } }).replyWithin bound c pid 0 0 }
    else .next { s with dev := s.dev.replyWithin bound c pid 2 0 }

/-- SB_HND_DROP (R219). -/
def execSbHndDrop (c : Nat) (h : Word) (s : State) : Res :=
  match (s.dev.casts.find c).bind fun k => k.current h with
  | none => .next s
  | some _ => .next { s with dev := s.dev.modBank c (hndSite h) fun b => b.free (hndIx h) }

/-! ### The address generator (R227, R228) -/

/-- Bytes of the parameter buffer as a number. -/
def parmField (parm : BitVec 2048) (byte n : Nat) : Nat := field parm (8 * byte) (8 * n)

/-- A stride of 32 bits, signed. -/
def stride (x : Nat) : Word := (BitVec.ofNat 32 x).signExtend 64

/-- A bound of 0 acts as 1. -/
def boundOf (x : Nat) : Nat := max 1 x

/-- A descriptor latched from byte 32 × DOFF: counters zero, a new sweep. -/
def latchGen (parm : BitVec 2048) (doff : Nat) : AddrGen :=
  let o := 32 * doff
  { latched := true, active := true, base := BitVec.ofNat 64 (parmField parm o 8)
    bnd0 := boundOf (parmField parm (o + 8) 2), bnd1 := boundOf (parmField parm (o + 10) 2)
    bnd2 := boundOf (parmField parm (o + 12) 2), bnd3 := boundOf (parmField parm (o + 14) 2)
    str0 := stride (parmField parm (o + 16) 4), str1 := stride (parmField parm (o + 20) 4)
    str2 := stride (parmField parm (o + 24) 4), str3 := stride (parmField parm (o + 28) 4) }

/-- The address under the counters. -/
def AddrGen.addr (g : AddrGen) : Word :=
  g.base + BitVec.ofNat 64 g.k0 * g.str0 + BitVec.ofNat 64 g.k1 * g.str1 + BitVec.ofNat 64 g.k2 * g.str2 + BitVec.ofNat 64 g.k3 * g.str3

/-- The counters stand at the final address of the sweep. -/
def AddrGen.final (g : AddrGen) : Bool := g.k0 + 1 == g.bnd0 && g.k1 + 1 == g.bnd1 && g.k2 + 1 == g.bnd2 && g.k3 + 1 == g.bnd3

/-- The counters advance, k3 innermost; the firing at the final address ends the sweep. -/
def AddrGen.advance (g : AddrGen) : AddrGen :=
  if g.final then { g with active := false, k0 := 0, k1 := 0, k2 := 0, k3 := 0 }
  else if g.k3 + 1 < g.bnd3 then { g with k3 := g.k3 + 1 }
  else if g.k2 + 1 < g.bnd2 then { g with k3 := 0, k2 := g.k2 + 1 }
  else if g.k1 + 1 < g.bnd1 then { g with k3 := 0, k2 := 0, k1 := g.k1 + 1 }
  else { g with k3 := 0, k2 := 0, k1 := 0, k0 := g.k0 + 1 }

/-- The counters as TINFO3 (R231). -/
def AddrGen.counters (g : AddrGen) : Word := BitVec.ofNat 64 (g.k0 + 2 ^ 16 * g.k1 + 2 ^ 32 * g.k2 + 2 ^ 48 * g.k3)

/-! ### The SB element (R221 to R230) -/

/-- WIDTH, ASRC, and the length of an access. -/
def sbWide (ecw : BitVec 128) : Bool := !bitAt ecw 13
def sbGen (ecw : BitVec 128) : Bool := bitAt ecw 12
def sbLen (ecw : BitVec 128) : Nat := if sbWide ecw then 128 else 8
/-- SWRITE and MSTORE write; SREAD and SWRITE reach only the bank. -/
def sbWrites (ecw : BitVec 128) : Bool := ecwOp ecw == 2 || ecwOp ecw == 4
def sbScratch (ecw : BitVec 128) : Bool := ecwOp ecw == 1 || ecwOp ecw == 2

/-- What the heads of an SB's inputs call for: a token consumed alone at A or B, an ERROR token at a memory port, an access at an
address (with its HIDX in scratch mode, and the data of a store), or nothing yet. -/
inductive SbAct where
  | wait
  | alone (p : InPort) (t : Token)
  | errtok (p : InPort) (t : Token)
  | access (addr : Word) (hidx : Nat) (v : Token)

/-- The address of the next access: from the generator, or from a DATA token at A. -/
def Site.sbAddr (s : Site) (b : SbSt) : Option (Word × Nat) :=
  if sbGen s.ecwNow then
    if b.gen.latched && b.gen.active then some (b.gen.addr, field s.konst 0 4) else none
  else
    match s.head .a with
    | none => none
    | some t =>
      if tokName t = .data then
        if sbScratch s.ecwNow then some (BitVec.ofNat 64 (field (tokWord t) 0 32), field (tokWord t) 32 4) else some (tokWord t, 0)
      else none

/-- A token that an SB consumes alone at an input (R222). -/
def sbAlone (wide : Bool) (t : Token) : Bool :=
  match tokName t with
  | .stop => !wide
  | .done => !wide
  | .index => !wide
  | .header => wide
  | .swap => wide
  | _ => false

/-- What a site's SB does next (R222). -/
def Site.sbAct (s : Site) (b : SbSt) : SbAct :=
  let ecw := s.ecwNow
  let a := if ecwIn ecw .a then s.head .a else none
  let bt := if ecwIn ecw .b then s.head .b else none
  match a.filter (fun t => sbAlone false t), bt.filter (fun t => sbAlone (sbWide ecw) t) with
  | some t, _ => .alone .a t
  | none, some t => .alone .b t
  | none, none =>
    match (a.filter fun t => tokName t = .error), (bt.filter fun t => tokName t = .error) with
    | some t, _ => if isMemPort ecw then .errtok .a t else .wait
    | none, some t => if isMemPort ecw then .errtok .b t else .wait
    | none, none =>
      match s.sbAddr b with
      | none => .wait
      | some (addr, h) =>
        if sbWrites ecw then
          match bt with
          | none => .wait
          | some t => if tokName t = .data ∨ tokName t = .last then .access addr h t else .wait
        else .access addr h (narrowTok 0 0 0)

/-- A site may load for the phase under way: the next phase's loads wait for its end (R69). -/
def Cast.mayLoad (k : Cast) (n : Nat) : Bool := decide ((k.site n).phase ≤ k.phase) && !(k.site n).drained

/-- The thread's LDL or STL has the sub-bank of a scratch access in this clock (R226). -/
def SbSt.conflicts (b : SbSt) (now hidx : Nat) (addr : Word) : Bool :=
  b.thAt == now + 1 && b.thSub.contains (subBank ((b.hnd.get {} hidx).base + addr.toNat))

/-- The SB can act now: a frozen port does nothing, a read needs room on Y, at most 64 loads are outstanding (R229, R230), a scratch access
waits for the thread's (R226), and a load of the next phase for the end of this one (R69). -/
def Cast.sbReady (d : Dev) (k : Cast) (n : Nat) : Bool :=
  let s := k.site n
  let ecw := s.ecwNow
  match s.bank? with
  | none => false
  | some b =>
    ecwKind ecw == 2 && ecw != 0 && b.fault.isNone && s.free d.now && s.outq.isEmpty &&
      match s.sbAct b with
      | .wait => false
      | .alone .a _ => !ecwOut ecw .y || sbWide ecw || k.room d n .y false
      | .alone _ _ => true
      | .errtok _ _ => true
      | .access addr h _ =>
        k.mayFire n d.now && !(sbScratch ecw && b.conflicts d.now h addr) && (ecwOp ecw != 3 || k.mayLoad n) && (sbWrites ecw || k.room d n .y (sbWide ecw))
          && decide ((b.loads.filter fun l => !l.back).length < 64)

/-- The token a read delivers (R222, R228), and the DONE that follows the last narrow one. -/
def sbTokens (wide final : Bool) (data : List Byte) : List Token :=
  if wide then [wideTok (if final then 1 else 0) 0 (BitVec.ofNat 1024 (leNat data)) 0]
  else narrowTok 0 0 (wordOf data) :: (if final then [narrowTok 2 0 0] else [])

/-- Tokens that follow on an output. -/
def Dev.follow (d : Dev) (c n : Nat) (o : OutPort) (ts : List Token) : Dev :=
  d.modSite c n fun s => { s with outq := s.outq ++ ts.map fun t => (o, t) }

/-- A token whose slots were taken before, sent now. -/
def Dev.emitTaken (d : Dev) (c n : Nat) (o : OutPort) (t : Token) : Dev :=
  match d.casts.find c with
  | none => d
  | some k =>
    let s := k.site n
    let at_ := max d.now (s.due o)
    (k.routes d s.ctx s.phase n o t.wide).foldl (fun d r => d.post (at_ - d.now + r.clocks) (.tokenAccept c r.dst t))
      (d.modSite c n fun s => s.setDue o (at_ + 1))

/-- The loads at the head whose replies have come are delivered, in issue order (R229). -/
def Dev.deliverLoads (c n : Nat) : List PortLoad → Dev → Dev
  | [], d => d
  | l :: rest, d =>
    match l.back, l.toks with
    | true, t :: more =>
      Dev.deliverLoads c n rest (((d.modBank c n fun b => { b with loads := rest }).emitTaken c n .y t).follow c n .y more)
    | _, _ => d

/-- The first outstanding load has its reply. -/
def markReturned : List PortLoad → List PortLoad
  | [] => []
  | l :: rest => if l.back then l :: markReturned rest else { l with back := true } :: rest

/-- The loads of a site's bank. -/
def Dev.loadsAt (d : Dev) (c n : Nat) : List PortLoad :=
  (((d.casts.find c).bind fun k => (k.site n).bank?).map SbSt.loads).getD []

/-- MLOAD_REPLY. -/
def execMloadReply (c n : Nat) (s : State) : Res :=
  let d := s.dev.modBank c n fun b => { b with loads := markReturned b.loads }
  .next { s with dev := Dev.deliverLoads c n (d.loadsAt c n) d }

/-- The access is made: address and data are consumed, the generator advances, and the firing ends. -/
def Dev.sbDone (d : Dev) (c n : Nat) (ecw : BitVec 128) : Dev :=
  let d := if ecwIn ecw .a then d.takeHead c n .a else d
  let d := if ecwIn ecw .b then d.takeHead c n .b else d
  let d := if sbGen ecw then d.modBank c n fun b => { b with gen := b.gen.advance } else d
  (d.modSite c n fun s => { s with skip := false }).endFiring c n

/-- Records of port faults go to the thread, or to the fault queue in a small cast under AUTO (R232). -/
def Dev.portFault (d : Dev) (c : Nat) (k : Cast) (f : PortFault) : Dev :=
  if 4 < k.wb * k.hb ∨ k.mould.trap then
    d.raiseAsync c { code := 0x42, sub := f.sub, info0 := f.info.w0, info1 := f.info.w1, info2 := f.info.w2, info3 := f.info.w3 }
  else
    d.postFault k.tenant [0x03, BitVec.ofNat 64 c, BitVec.ofNat 64 (0x42 + 256 * f.sub.toNat + 2 ^ 22), 0,
                          f.info.w0, f.info.w1, f.info.w2, f.info.w3]

/-- The fault record of a memory port (R231). -/
def sbFault (s : Site) (n : Nat) (b : SbSt) (sub : Byte) (va synd : Word) : PortFault :=
  let ecw := s.ecwNow
  { sub := sub
    info := ⟨va, synd,
      BitVec.ofNat 64 (siteX n + 2 ^ 8 * siteY n + 2 ^ 16 * s.ctx + 2 ^ 18 * (ecwOp ecw % 8) + 2 ^ 21 * bit (sbGen ecw)
        + 2 ^ 22 * bit (sbWrites ecw)),
      if sbGen ecw then b.gen.counters else 0⟩ }

/-- A port freezes: its access is not made, and its record is delivered (R230, R232). -/
def Dev.sbFreeze (d : Dev) (c n : Nat) (k : Cast) (b : SbSt) (sub : Byte) (va synd : Word) : Dev :=
  let f := sbFault (k.site n) n b sub va synd
  (d.modBank c n fun b => { b with fault := some f }).portFault c k f

/-- A scratch access (R223, R224). A read refused at the final address of a sweep sends its ERROR token in place of the DATA, with the DONE
behind it on a narrow Y, and alone on a wide one (DESIGN CHOICE, log entry 110: R228 is silent there). -/
def Dev.scratchAccess (d : Dev) (c n : Nat) (k : Cast) (b : SbSt) (addr : Word) (hidx : Nat) (v : Token) : Dev :=
  let s := k.site n
  let ecw := s.ecwNow
  let len := sbLen ecw
  let e := b.hnd.get {} hidx
  let final := sbGen ecw && b.gen.final
  let deny := fun (sub : Nat) =>
    if sbWrites ecw then d.sbDone c n ecw
    else
      ((d.emit c n .y 4 (k.ownError n (sbWide ecw) sub 0)).follow c n .y (if final && !sbWide ecw then [narrowTok 2 0 0] else [])).sbDone
        c n ecw
  if !(e.used && e.elem) then deny 0x11
  else if addr.toNat % len ≠ 0 then deny 0x12
  else
    let inRange := fun i => decide (addr.toNat + i < e.len)
    let d := if (List.range len).all inRange then d
      else d.modTh c fun t =>
        t.outOfRange (BitVec.ofNat 64 (field addr 0 32 + 2 ^ 32 * hidx + 2 ^ 36 * siteX n + 2 ^ 44 * siteY n + 2 ^ 52 * s.ctx
          + 2 ^ 54 + 2 ^ 55 * bit (sbWrites ecw)))
    if sbWrites ecw then
      (d.modBank c n fun b => { b with mem := (List.range len).foldl (fun t i =>
        if inRange i then t.set 0 (e.base + addr.toNat + i) (BitVec.ofNat 8 (field v.data (8 * i) 8)) else t) b.mem }).sbDone c n ecw
    else
      let data := (List.range len).map fun i => if inRange i then b.mem.get 0 (e.base + addr.toNat + i) else 0
      match sbTokens (sbWide ecw) final data with
      | [] => d
      | t :: more => ((d.emit c n .y 4 t).follow c n .y more).sbDone c n ecw

/-- The slots of a load's token are taken when it is issued. -/
def Dev.takeRoutes (d : Dev) (c n : Nat) (o : OutPort) (wide : Bool) : Dev :=
  d.modCast c fun k => (k.routes d (k.site n).ctx (k.site n).phase n o wide).foldl (fun k r => k.takeSlot d.now r.dst) k

/-- A load issued, to be delivered in its turn. -/
def Dev.issueLoad (d : Dev) (c n : Nat) (ecw : BitVec 128) (va : Word) (ts : List Token) : Dev :=
  let d := (d.modBank c n fun b => { b with loads := b.loads ++ [{ toks := ts, va := va, issued := d.now }] }).takeRoutes c n .y (sbWide ecw)
  ((d.post (1 + Config.openDelay d.free) (.mloadReply c n)).tickFree).sbDone c n ecw

/-- An access of a memory port (R229, R230), whose alignment is looked at before its translation, as R135 has it for a thread (DESIGN
CHOICE, log entry 111: R231 orders neither); one that PORT.RES.SKIP passes over gives zeros or drops its data (R233). -/
def State.portAccess (s : State) (c n : Nat) (k : Cast) (b : SbSt) (va : Word) (v : Token) : State :=
  let site := k.site n
  let ecw := site.ecwNow
  let len := sbLen ecw
  let final := sbGen ecw && b.gen.final
  let d := s.dev
  if site.skip then
    if sbWrites ecw then { s with dev := d.sbDone c n ecw }
    else { s with dev := d.issueLoad c n ecw va (sbTokens (sbWide ecw) final (List.replicate len 0)) }
  else if va.toNat % len ≠ 0 then { s with dev := d.sbFreeze c n k b 2 va 0 }
  else
    let acc := if sbWrites ecw then Access.store else Access.load
    match Dev.translate s.mem d (k.portVia n) k.tenant va acc with
    | (.error f, d) => { s with dev := d.sbFreeze c n k b 1 va (f.syndrome acc 1 k.tenant) }
    | (.ok p, d) =>
      if sbWrites ecw then
        let s := State.perform { s with dev := d } { agent := .port c n, tenant := k.tenant, pa := p.pa, write := true, len := len,
                                                     data := leBytes len v.data.toNat, rpl := p.rpl, id := 0 }
        { s with dev := s.dev.sbDone c n ecw }
      else
        let r := Dev.readOwn s.mem d (.port c n) p.tid p (k.siteDie n) len
        { s with dev := r.2.issueLoad c n ecw va (sbTokens (sbWide ecw) final r.1) }

/-- One action of an SB. -/
def State.sbFire (s : State) (c n : Nat) : State :=
  match s.dev.casts.find c with
  | none => s
  | some k =>
    if !k.sbReady s.dev n then s
    else
      match (k.site n).bank? with
      | none => s
      | some b =>
        let d := s.dev
        match (k.site n).sbAct b with
        | .wait => s
        | .errtok p t => { s with dev := ((d.takeHead c n p).portErrtok c n (tokWord t)).useClock c n }
        | .alone p t =>
          let ecw := (k.site n).ecwNow
          let d := (d.takeHead c n p).useClock c n
          if p = .a ∧ ecwOut ecw .y ∧ !sbWide ecw then
            if ecwOp ecw = 3 then
              let d := (d.modBank c n fun b => { b with loads := b.loads ++ [{ back := true, toks := [t] }] }).takeRoutes c n .y false
              { s with dev := Dev.deliverLoads c n (d.loadsAt c n) d }
            else { s with dev := d.emit c n .y 4 t }
          else { s with dev := d }
        | .access _ _ _ =>
          let d := d.beginFiring c n
          match d.casts.find c with
          | none => s
          | some k =>
            match (k.site n).sbAct b with
            | .access addr hidx v =>
              if sbScratch (k.site n).ecwNow then { s with dev := d.scratchAccess c n k b addr hidx v }
              else State.portAccess { s with dev := d } c n k b addr v
            | _ => s

/-- SB_FIRE. -/
def execSbFire (c n : Nat) (s : State) : Res := .next (s.sbFire c n)

end Sys2Proof.Machine
end

