-- ==== Sys2Proof/Machine/LoadStore.lean ====
section
/-!
DEFINITION. Loads, stores and fences (R131 to R141): addresses, the order of a load behind the stores and fences of its
block (R91, R139, R140), forwarding, and handle accesses (R137, R220).
-/
namespace Sys2Proof.Machine

/-! ### Addresses (R132 to R134) -/

def LoadKind.bytes (k : LoadKind) : Nat :=
  match k with
  | .z8 => 1
  | .s8 => 1
  | .z16 => 2
  | .s16 => 2
  | .z32 => 4
  | .s32 => 4
  | .d64 => 8

def Size.bytes (z : Size) : Nat :=
  match z with
  | .b1 => 1
  | .b2 => 2
  | .b4 => 4
  | .b8 => 8

/-- The extension of a loaded value to 64 bits (R132). -/
def extend (k : LoadKind) (v : Word) : Word :=
  match k with
  | .z8 => (v.setWidth 8).setWidth 64
  | .s8 => (v.setWidth 8).signExtend 64
  | .z16 => (v.setWidth 16).setWidth 64
  | .s16 => (v.setWidth 16).signExtend 64
  | .z32 => (v.setWidth 32).setWidth 64
  | .s32 => (v.setWidth 32).signExtend 64
  | .d64 => v

/-- The address of an LD: A + sext(IMM13) × size (R133). -/
def ldAddr (k : LoadKind) (i : BitVec 13) (a : Word) : Word := a + i.signExtend 64 * BitVec.ofNat 64 (LoadKind.bytes k)

/-- The address of an ST: A + sext(IMM22[19:0]) × size (R134). -/
def stAddr (z : Size) (o : BitVec 20) (a : Word) : Word := a + o.signExtend 64 * BitVec.ofNat 64 (Size.bytes z)

/-- Address and kind of a load of global memory, from its operands. -/
def loadSpan (i : Instr) (a b : Word) : Option (Word × LoadKind) :=
  match i with
  | .ldZ8 _ o _ => some (ldAddr .z8 o a, .z8)
  | .ldS8 _ o _ => some (ldAddr .s8 o a, .s8)
  | .ldZ16 _ o _ => some (ldAddr .z16 o a, .z16)
  | .ldS16 _ o _ => some (ldAddr .s16 o a, .s16)
  | .ldZ32 _ o _ => some (ldAddr .z32 o a, .z32)
  | .ldS32 _ o _ => some (ldAddr .s32 o a, .s32)
  | .ld64 _ o _ => some (ldAddr .d64 o a, .d64)
  | .ldx _ k _ _ => some (a + b, k)
  | .ldAcqZ32 _ _ _ _ => some (a, .z32)
  | .ldAcq64 _ _ _ _ => some (a, .d64)
  | _ => none

/-- The operands that a store computes its address from. -/
def addressOps (i : Instr) (sl : Slot) : List Operand :=
  match i with
  | .stx .. => [sl.a, sl.b]
  | _ => [sl.a]

/-- The address and size of a store of global memory in a slot, once its address operands hold values (R91). -/
def storeSpan (i : Instr) (sl : Slot) : Option (Word × Nat) :=
  match i with
  | .st _ z o => sl.a.val.map fun a => (stAddr z o a, Size.bytes z)
  | .stx _ z => sl.a.val.bind fun a => sl.b.val.map fun b => (a + b, Size.bytes z)
  | .stRel _ z _ => sl.a.val.map fun a => (a, Size.bytes z)
  | _ => none

/-- The stores of global memory. -/
def isStore : Instr → Bool
  | .st .. | .stx .. | .stRel .. => true
  | _ => false

/-- A slot has fired and delivered, or is predicated off. -/
def Slot.settled (sl : Slot) : Bool := sl.phase == .done || sl.phase == .off

/-! ### What holds a load back -/

/-- The physical address of an access, when it is translated. -/
def Dev.paOf (m : Memory) (d : Dev) (k : Cast) (va : Word) (acc : Access) : Option Nat :=
  match (Dev.translate m d k.via k.tenant va acc).1 with
  | .ok p => some p.pa
  | .error _ => none

/-- A store in a lower slot holds a load of the bytes at `va` back: its address is not complete, or its bytes, by their virtual or by
their physical addresses, overlap and it is not known to execute or to be off (R91). A store whose address holds NULL does not execute. -/
def storeHolds (m : Memory) (d : Dev) (k : Cast) (va : Word) (len : Nat) (sl : Slot) : Bool :=
  match sl.instr with
  | none => false
  | some i =>
    isStore i && !sl.settled &&
      match storeSpan i sl with
      | none => !((addressOps i sl).all Operand.complete)
      | some (va', len') =>
        overlap va'.toNat len' va.toNat len ||
          match d.paOf m k va' .store, d.paOf m k va .load with
          | some pa', some pa => overlap pa' len' pa len
          | _, _ => false

/-- A load of global memory. -/
def isGlobalLoad (i : Instr) : Bool :=
  match i with
  | .ldl .. => false
  | _ => isLoad i

/-- A lower slot that is an acquire, or a fence with loads before it, holds a load back (R139, R140): `lower` are the slots
below the one looked at. -/
def orderHolds (lower : List Slot) (sl : Slot) : Bool :=
  match sl.instr with
  | some (.ldAcqZ32 ..) => !sl.settled
  | some (.ldAcq64 ..) => !sl.settled
  | some (.fenceAcq ..) | some (.fenceAr ..) =>
    !sl.settled || (sl.phase == .done && lower.any fun l => (l.instr.map isGlobalLoad).getD false && !l.settled)
  | _ => false

/-- Some slot below holds the load back; `seen` are the slots before those left. -/
def anyOrderHolds : List Slot → List Slot → Bool
  | _, [] => false
  | seen, sl :: rest => orderHolds seen sl || anyOrderHolds (seen ++ [sl]) rest

/-- The thread's earlier commands hold a load back: accesses not yet performed before a FENCE.AR, an atomic or counter with ACQ (R140,
R365). -/
def Thread.loadsHeld (t : Thread) : Bool :=
  t.queue.any (fun e => isAccess e.act && decide (e.id < t.loadAfter)) || !t.acquires.isEmpty

/-- A command of the thread that reads and writes memory at its engine, such as RED, is still to be performed on bytes that the load may
touch (R71): page offsets are compared, which translation keeps. -/
def Thread.commandHolds (t : Thread) (va : Word) (len : Nat) : Bool :=
  t.queue.any fun e => e.data.isEmpty && overlap (e.pa % 4096) e.len (va.toNat % 4096) len

/-- A slot that asks for a membership (R161). -/
def asksMembership : Instr → Bool
  | .grpNew .. | .grpJoin .. => true
  | _ => false

/-- The transfers of a handle by the same block (R220). -/
def isTransfer : Instr → Bool
  | .hndGive .. | .hndDrop .. => true
  | _ => false

/-- The handle accesses that write (R138). -/
def isStl : Instr → Bool
  | .stl .. => true
  | _ => false

/-- A slot that is ready is held back and does not fire: loads as above, and those of the next phase until the phase that a CTX.SW or
DRAIN ends is over (R69); handle accesses behind a transfer or an STL of a
lower slot that is not settled (R138, R220; DEDUCED, log entry 19); a push without a free entry and a pop beyond sixteen (R152, R153); a
GRP.NEW or GRP.JOIN behind another of a lower slot, so that R161 counts every one (DEDUCED, log entry 106). -/
def Dev.held (m : Memory) (d : Dev) (k : Cast) (b : Block) (n : Nat) (i : Instr) (x y : Word) : Bool :=
  let t := k.th
  match i with
  | .grpNew .. | .grpJoin .. => (b.slots.take n).any fun sl => ((sl.instr.map asksMembership).getD false) && !sl.settled
  | .ldl .. => (b.slots.take n).any fun sl => ((sl.instr.map fun j => isTransfer j || isStl j).getD false) && !sl.settled
  | .stl .. => (b.slots.take n).any fun sl => ((sl.instr.map isTransfer).getD false) && !sl.settled
  | .strmPushData _ ch | .strmPushIndex _ ch | .strmPushDone _ ch | .strmPushStop _ _ ch =>
    decide (8 ≤ (t.push.get [] ch.toNat).length
        + (b.effects.filter fun e => match e.2 with | .push c _ => c == ch.toNat | _ => false).length)
      || (b.slots.take n).any fun sl =>
        ((sl.instr.map fun j => match j with
          | .strmPushData _ c => c == ch | .strmPushIndex _ c => c == ch | .strmPushDone _ c => c == ch
          | .strmPushStop _ _ c => c == ch | _ => false).getD false) && !sl.settled
  | .strmPop .. =>
    decide (16 ≤ t.pops.length + (b.effects.filter fun e => match e.2 with | .pop .. => decide (e.1 < n) | _ => false).length)
  | _ =>
    match loadSpan i x y with
    | none => false
    | some (va, kind) =>
      !t.phaseOps.isEmpty || t.loadsHeld || t.commandHolds va (LoadKind.bytes kind) || (b.slots.take n).any (storeHolds m d k va (LoadKind.bytes kind)) || anyOrderHolds [] (b.slots.take n)

/-! ### Loads (R135) -/

/-- The bytes that the stores of lower slots and the thread's own stores on their way give (R91, R136): for one address, the
byte of the highest lower slot that writes it, else of the latest store that has left. -/
def Thread.forward (t : Thread) (effects : List (Nat × Effect)) (pa : Nat) : Option Byte :=
  let inBlock := effects.foldl (fun r e =>
    match e.2 with
    | .store q _ => if q.pa ≤ pa ∧ pa < q.pa + q.data.length then q.data[pa - q.pa]? else r
    | _ => r) none
  let queued := t.queue.foldl (fun r e => if e.pa ≤ pa ∧ pa < e.pa + e.data.length then e.data[pa - e.pa]? else r) none
  inBlock.or queued

/-- A load that executes (R135): alignment, translation, then the value, delivered when the reply comes. A load of host
memory whose port is down waits for the time-out of R452. The spec gives no latency for a load whose bytes all come from the thread's own
stores, so that it reads no memory: the model takes the 28 clocks of a load that hits (DESIGN CHOICE, log entry 107). -/
def Dev.loadFrom (m : Memory) (d : Dev) (sh : Shot) (va : Word) (kind : LoadKind) : Dev :=
  let len := LoadKind.bytes kind
  if va.toNat % len ≠ 0 then d.slotTrap sh 0x07 va 0
  else
    match Dev.translate m d sh.k.via sh.k.tenant va .load with
    | (.error f, d) => d.slotTrap sh 0x08 va (f.syndrome .load 0 sh.k.tenant) (sub := BitVec.ofNat 8 f.sub)
    | (.ok p, d) =>
      let lower := sh.blk.effects.filter fun e => decide (e.1 < sh.n)
      let fwd := (List.range len).map fun i => sh.k.th.forward lower (p.pa + i)
      let pa := p.readPa sh.k.die
      let d := d.modTh sh.c fun t => t.modBlk fun b => b.modSlot sh.n fun sl =>
        { sl with load := some { va := va, pa := pa, issued := d.now } }
      if fwd.all Option.isSome then d.deliver sh 28 (some (extend kind (wordOf (fwd.map fun o => o.getD 0))))
      else if paRegion pa = 1 ∧ !d.linkUp pa then (d.fireAs sh .fired).post 15000000 (.hostReadTimeout sh.c sh.blk.seq sh.n)
      else
        let r := Dev.read m d p.tid pa len
        let bytes := (fwd.zip r.1).map fun q => q.1.getD q.2
        (r.2.deliver sh (28 + Config.openDelay r.2.free) (some (extend kind (wordOf bytes)))).tickFree

/-- A load instruction. -/
def fireLoad (i : Instr) (s : State) : Res :=
  fire i s fun d sh =>
    if d.held s.mem sh.k sh.blk sh.n i sh.a sh.b then d
    else
      match loadSpan i sh.a sh.b with
      | some (va, kind) => d.loadFrom s.mem sh va kind
      | none => d

def execLdZ8 (p : Pred) (i : BitVec 13) (t : Target) (s : State) : Res := fireLoad (.ldZ8 p i t) s
def execLdS8 (p : Pred) (i : BitVec 13) (t : Target) (s : State) : Res := fireLoad (.ldS8 p i t) s
def execLdZ16 (p : Pred) (i : BitVec 13) (t : Target) (s : State) : Res := fireLoad (.ldZ16 p i t) s
def execLdS16 (p : Pred) (i : BitVec 13) (t : Target) (s : State) : Res := fireLoad (.ldS16 p i t) s
def execLdZ32 (p : Pred) (i : BitVec 13) (t : Target) (s : State) : Res := fireLoad (.ldZ32 p i t) s
def execLdS32 (p : Pred) (i : BitVec 13) (t : Target) (s : State) : Res := fireLoad (.ldS32 p i t) s
def execLd64 (p : Pred) (i : BitVec 13) (t : Target) (s : State) : Res := fireLoad (.ld64 p i t) s
def execLdx (p : Pred) (k : LoadKind) (b a : Target) (s : State) : Res := fireLoad (.ldx p k b a) s
def execLdAcqZ32 (p : Pred) (sc : Scope) (b a : Target) (s : State) : Res := fireLoad (.ldAcqZ32 p sc b a) s
def execLdAcq64 (p : Pred) (sc : Scope) (b a : Target) (s : State) : Res := fireLoad (.ldAcq64 p sc b a) s

/-! ### Handle accesses (R137) -/

/-- The handle is given up by a lower slot of the same block (R220). -/
def Block.transferred (b : Block) (c n : Nat) (h : Word) : Bool :=
  b.effects.any fun e => decide (e.1 < n) &&
    match e.2 with
    | .issue _ _ _ (.sbHndGive c' h') => c' == c && h' == h
    | .issue _ _ _ (.sbHndDrop c' h') => c' == c && h' == h
    | _ => false

/-- LOOB of an access by the thread (R225). -/
def loobOf (off h : Word) (ctx : BitVec 2) (elem wr : Bool) : Word :=
  BitVec.ofNat 64 (field off 0 32 + 2 ^ 32 * hndIx h + 2 ^ 36 * field h 0 8 + 2 ^ 44 * field h 8 7 + 2 ^ 52 * ctx.toNat
    + 2 ^ 54 * bit elem + 2 ^ 55 * bit wr)

/-- A byte of the range at an offset, as the STLs of lower slots leave it (R91, R138). -/
def Shot.rangeByte (sh : Shot) (h : Word) (bank : SbSt) (base off : Nat) : Byte :=
  sh.blk.effects.foldl (fun r e =>
    match e.2 with
    | .stl site entry o size v =>
      if e.1 < sh.n ∧ site = hndSite h ∧ entry = hndIx h ∧ o.toNat ≤ off ∧ off < o.toNat + size then
        BitVec.ofNat 8 (v.toNat / 256 ^ (off - o.toNat))
      else r
    | _ => r) (bank.mem.get 0 (base + off))

/-- The three checks of a handle access, in the order of R137: the trap, or the entry and whether it lies in range. -/
def Shot.handleCheck (sh : Shot) (h off : Word) (len : Nat) : Except (Byte × Word × Word) (HndEnt × Bool) :=
  match if sh.blk.transferred sh.c sh.n h then none else sh.k.holds sh.c h with
  | none => .error (0x09, h, off)
  | some e =>
    if off.toNat % len ≠ 0 then .error (0x07, off, 0)
    else .ok (e, decide (off.toNat + len ≤ e.len))

def execLdl (p : Pred) (k : LoadKind) (b a : Target) (s : State) : Res :=
  fire (.ldl p k b a) s fun d sh =>
    if d.held s.mem sh.k sh.blk sh.n (.ldl p k b a) sh.a sh.b then d
    else
      match sh.handleCheck sh.a sh.b (LoadKind.bytes k) with
      | .error (cause, i0, i1) => d.slotTrap sh cause i0 i1
      | .ok (e, true) =>
        let bank := ((sh.k.site (hndSite sh.a)).bank?).getD {}
        let bytes := (List.range (LoadKind.bytes k)).map fun i => sh.rangeByte sh.a bank e.base (sh.b.toNat + i)
        (d.modBank sh.c (hndSite sh.a) fun b => b.touch d.now (hndIx sh.a) sh.b.toNat).deliver sh 3 (some (extend k (wordOf bytes)))
      | .ok (_, false) =>
        (d.record sh (.outOfRange (loobOf sh.b sh.a sh.k.th.ctx false false))).deliver sh 3 (some 0)

def execStl (p : Pred) (z : Size) (s : State) : Res :=
  fire (.stl p z) s fun d sh =>
    if d.held s.mem sh.k sh.blk sh.n (.stl p z) sh.a sh.b then d
    else
      match sh.handleCheck sh.a sh.b (Size.bytes z) with
      | .error (cause, i0, i1) => d.slotTrap sh cause i0 i1
      | .ok (_, true) => d.effect sh (.stl (hndSite sh.a) (hndIx sh.a) sh.b (Size.bytes z) sh.z)
      | .ok (_, false) => d.effect sh (.outOfRange (loobOf sh.b sh.a sh.k.th.ctx false true))

/-! ### Stores (R134, R135) -/

/-- A store that executes: alignment and translation when it fires, performed after commit. -/
def Dev.storeTo (m : Memory) (d : Dev) (sh : Shot) (va : Word) (z : Size) (v : Word) (release : Bool) : Dev :=
  if va.toNat % Size.bytes z ≠ 0 then d.slotTrap sh 0x07 va 0
  else
    match Dev.translate m d sh.k.via sh.k.tenant va .store with
    | (.error f, d) => d.slotTrap sh 0x08 va (f.syndrome .store 0 sh.k.tenant) (sub := BitVec.ofNat 8 f.sub)
    | (.ok p, d) =>
      d.effect sh (.store { agent := .thread sh.c, tenant := sh.k.tenant, pa := p.pa, write := true, len := Size.bytes z,
                              data := leBytes (Size.bytes z) v.toNat, rpl := p.rpl, id := sh.n } release)

def execSt (p : Pred) (z : Size) (o : BitVec 20) (s : State) : Res :=
  fire (.st p z o) s fun d sh => d.storeTo s.mem sh (stAddr z o sh.a) z sh.b false

def execStx (p : Pred) (z : Size) (s : State) : Res :=
  fire (.stx p z) s fun d sh => d.storeTo s.mem sh (sh.a + sh.b) z sh.z false

def execStRel (p : Pred) (z : Size) (sc : Scope) (s : State) : Res :=
  fire (.stRel p z sc) s fun d sh => d.storeTo s.mem sh sh.a z sh.b true

/-! ### Fences (R140) -/

def execFenceAcq (p : Pred) (sc : Scope) (s : State) : Res := fire (.fenceAcq p sc) s fun d sh => d.effect sh .fenceAcq
def execFenceRel (p : Pred) (sc : Scope) (s : State) : Res := fire (.fenceRel p sc) s fun d sh => d.effect sh .fenceRel
def execFenceAr (p : Pred) (sc : Scope) (s : State) : Res := fire (.fenceAr p sc) s fun d sh => d.effect sh .fenceAr

end Sys2Proof.Machine
end

