-- ==== Sys2Proof/Machine/Transcend.lean ====
section
/-!
DEFINITION. RCP, RSQ, EXP2, LOG2, TANH and SIGM (R277): their exact and special cases, and elsewhere the FP32 values within the bound that
the spec sets. A fixed-point number here counts units of 2^-512, which leaves far more bits than any bound of R277 can tell apart.
-/
namespace Sys2Proof.Machine

/-! ### Fixed point -/

/-- One, in fixed point. -/
def fixOne : Nat := 2 ^ 512

/-- The product of two fixed-point numbers. -/
def fixMul (x y : Nat) : Nat := x * y / fixOne

/-- 2 atanh z, for z of at most 1/3. -/
def fixAtanh2 (z : Nat) : Nat :=
  let zz := fixMul z z
  2 * ((List.range 170).foldl (fun (acc : Nat × Nat) j => (acc.1 + acc.2 / (2 * j + 1), fixMul acc.2 zz)) (0, z)).1

/-- ln 2. -/
def fixLn2 : Nat := fixAtanh2 (fixOne / 3)

/-- e^y - 1, for y below 1. -/
def fixExpm1 (y : Nat) : Nat :=
  ((List.range 110).foldl (fun (acc : Nat × Nat) j => let t := fixMul acc.2 y / (j + 1); (acc.1 + t, t)) (0, fixOne)).1

/-- e^y - 1 for any y. -/
def fixExpAny (y : Nat) : Nat :=
  let n := y / fixLn2
  2 ^ n * (fixOne + fixExpm1 (y % fixLn2)) - fixOne

/-- m × 2^e in fixed point. -/
def fixOf (m : Nat) (e : Int) : Nat := if 0 ≤ e + 512 then m * 2 ^ (e + 512).toNat else m / 2 ^ (-(e + 512)).toNat

/-- A quotient below 1, truncated. -/
def fixQuotient (neg : Bool) (num den : Nat) : Val := .fin neg (num * 2 ^ 600 / den) (-600)

/-! ### The exact results, truncated -/

/-- 2^x; `none` stands for a result far below the smallest FP32 number. -/
def exp2Near (neg : Bool) (m : Nat) (e : Int) : Option Val :=
  if 9 ≤ e + (m.log2 : Int) then none
  else
    let a := fixOf m e
    let whole : Int := if neg then -(((a + fixOne - 1) / fixOne : Nat) : Int) else ((a / fixOne : Nat) : Int)
    let part := if neg then ((a + fixOne - 1) / fixOne) * fixOne - a else a % fixOne
    some (.fin false (fixOne + fixExpm1 (fixMul part fixLn2)) (whole - 512))

/-- log2 x. -/
def log2Near (m : Nat) (e : Int) : Val :=
  let l := m.log2
  let frac := fixAtanh2 ((m - 2 ^ l) * fixOne / (m + 2 ^ l)) * fixOne / fixLn2
  let t : Int := (e + (l : Int)) * (fixOne : Int) + (frac : Int)
  .of (decide (t < 0)) t.natAbs (-512)

/-- tanh x. -/
def tanhNear (neg : Bool) (m : Nat) (e : Int) : Val :=
  if 6 ≤ e + (m.log2 : Int) then .fin neg (2 ^ 600 - 1) (-600)
  else
    let y := fixExpAny (2 * fixOf m e)
    fixQuotient neg y (y + 2 * fixOne)

/-- 1 / (1 + e^-x). -/
def sigmNear (neg : Bool) (m : Nat) (e : Int) : Val :=
  if 8 ≤ e + (m.log2 : Int) then (if neg then .fin false 1 (-600) else .fin false (2 ^ 600 - 1) (-600))
  else
    let y := fixExpAny (fixOf m e) + fixOne
    fixQuotient false (if neg then fixOne else y) (y + fixOne)

/-! ### What the bounds leave open -/

/-- A number of half quanta 2^(q - 1) is an FP32 number, where 2^q is the ulp of some FP32 number near it. -/
def isFp32 (q h : Int) : Bool :=
  if h % 2 = 0 then decide (h.natAbs < 2 ^ 25) || h % 4 == 0 else decide (fp32.emin - (fp32.mb : Int) < q) && decide (h.natAbs < 2 ^ 24)

/-- The FP32 numbers within `ulps` of m × 2^e, in half quanta 2^(q - 1) of it; 2^q is its ulp. -/
def within (ulps m : Nat) (e q : Int) : List Int :=
  let s := min e (q - 1)
  let x : Int := m * 2 ^ (e - s).toNat
  let half : Int := 2 ^ (q - 1 - s).toNat
  ((List.range (4 * ulps + 4)).map fun (i : Nat) => x / half - 2 * (ulps : Int) - 1 + (i : Int)).filter fun h =>
    isFp32 q h && decide ((h * half - x).natAbs ≤ 2 * ulps * half.natAbs)

/-- The FP32 value p for an exact result: one of those within `ulps` of it; which is open (DESIGN CHOICE, log entry 11). -/
def approx (fn ix ulps : Nat) (exact : Val) : Val :=
  match exact with
  | .fin neg m e =>
    let q := max (e + (m.log2 : Int)) fp32.emin - (fp32.mb : Int)
    let ps := within ulps m e q
    let h := ps.getD (Config.approxPick fn ix % ps.length) 0
    .of (neg != decide (h < 0)) h.natAbs (q - 1)
  | v => v

/-- A power of two as its exponent. -/
def Val.power? : Val → Option Int
  | .fin false m e => if m = 2 ^ m.log2 then some (e + m.log2) else none
  | _ => none

/-- An integer value. -/
def Val.int? : Val → Option Int
  | .zero _ => some 0
  | .fin neg m e =>
    let r := quanta .rz neg m e 0
    if r.2 then none else some (if neg then -(r.1 : Int) else r.1)
  | _ => none

/-- EXP2 of a value: exact for an integer with a normal result, overflow above 128. -/
def exp2Value (ix : Nat) (x : Val) : Val × Flags :=
  match x, x.int? with
  | .fin neg m e, i =>
    if (Val.int 128).lt x then (.fin false 1 1000, flNX)
    else
      match i with
      | some i => if -126 ≤ i ∧ i < 128 then (.fin false 1 i, 0) else (approx 0x42 ix 2 (.fin false 1 (max i (-600))), flNX)
      | none => (approx 0x42 ix 2 ((exp2Near neg m e).getD (.fin false 1 (-600))), flNX)
  | _, _ => (.fin false 1 0, 0)

/-- A transcendental operation on a value: the value to be rounded, and flags (R277). `ix` numbers the operand's encoding, its
format and MODE. -/
def transcend (op ix : Nat) (x : Val) : Val × Flags :=
  match op, x with
  | _, .nan s => (.nan s, 0)
  | 0x40, .zero n => (.inf n, flDZ)
  | 0x40, .inf n => (.zero n, 0)
  | 0x40, .fin n m e =>
    let l : Int := e + m.log2
    if m = 2 ^ m.log2 ∧ -127 ≤ l ∧ l ≤ 126 then (.fin n 1 (-l), 0)
    else (approx op ix 1 (if m = 2 ^ m.log2 then .fin n 1 (-l) else quotient 1 m 0 e n), flNX)
  | 0x41, .zero n => (.inf n, flDZ)
  | 0x41, .inf n => (if n then .nan true else .zero false, 0)
  | 0x41, .fin true _ _ => (.nan true, 0)
  | 0x41, .fin false m e =>
    if m = 2 ^ m.log2 ∧ (e + m.log2) % 2 = 0 then (.fin false 1 (-((e + m.log2) / 2)), 0)
    else
      match rootOf m e with
      | .fin _ m' e' => (approx op ix 1 (quotient 1 m' 0 e' false), flNX)
      | v => (v, 0)
  | 0x42, .inf n => (if n then .zero false else .inf false, 0)
  | 0x42, x => exp2Value ix x
  | 0x43, .zero _ => (.inf true, flDZ)
  | 0x43, .inf n => (if n then .nan true else .inf false, 0)
  | 0x43, .fin true _ _ => (.nan true, 0)
  | 0x43, .fin false m e =>
    match x.power? with
    | some i => (.int i, 0)
    | none => (approx op ix 2 (log2Near m e), flNX)
  | 0x44, .zero n => (.zero n, 0)
  | 0x44, .inf n => (.fin n 1 0, 0)
  | 0x44, .fin n m e => (approx op ix 2 (tanhNear n m e), flNX)
  | _, .zero _ => (.fin false 1 (-1), 0)
  | _, .inf n => (if n then .zero false else .fin false 1 0, 0)
  | _, .fin n m e => (approx op ix 3 (sigmNear n m e), flNX)

end Sys2Proof.Machine
end

