-- ==== Sys2Proof/Machine/Vector.lean ====
section
/-!
DEFINITION. The vector element (R262 to R281): lane operations, reductions, accumulation until LAST, the stationary registers, and
tokens consumed alone.
-/
namespace Sys2Proof.Machine

/-! ### Fields (R262, R264) -/

/-- Lanes of a format. -/
def veLanes (f : Nat) : Nat := perWide f
def veFtz (ecw : BitVec 128) : Bool := !isInt (ecwFmt ecw) && bitAt ecw 14
def veSatf (ecw : BitVec 128) : Bool := bitAt ecw 15
def veRm (ecw : BitVec 128) : Rm := if isInt (ecwFmt ecw) then .rn else rmOf (field ecw 12 2)
def veBsel (ecw : BitVec 128) : Nat := field ecw 4 2
def veCsel (ecw : BitVec 128) : Nat := field ecw 2 2
def veZuse (ecw : BitVec 128) : Nat := field ecw 0 2

/-- An operation takes operand b, operand c (R271). -/
def veUsesB (op : Nat) : Bool :=
  op == 0x01 || op == 0x02 || op == 0x03 || op == 0x04 || op == 0x05 || op == 0x06 || op == 0x09 || op == 0x0B || op == 0x10
    || op == 0x11 || op == 0x12 || op == 0x13 || op == 0x14 || op == 0x15 || (decide (0x20 ≤ op) && decide (op ≤ 0x25)) || op == 0x28
    || op == 0x30 || op == 0x31 || op == 0x32 || op == 0x63
def veUsesC (op : Nat) : Bool := op == 0x04 || op == 0x28

/-- The accumulating operations and the reductions. -/
def veAccumulates (op : Nat) : Bool := decide (0x60 ≤ op) && decide (op ≤ 0x63)
def veReduces (op : Nat) : Bool := decide (0x50 ≤ op) && decide (op ≤ 0x52)

/-- The operation table's OP values (R271). -/
def veKnown (op : Nat) : Bool :=
  (decide (0x01 ≤ op) && decide (op ≤ 0x0B)) || (decide (0x10 ≤ op) && decide (op ≤ 0x15)) || (decide (0x20 ≤ op) && decide (op ≤ 0x25))
    || op == 0x28 || (decide (0x30 ≤ op) && decide (op ≤ 0x33)) || (decide (0x40 ≤ op) && decide (op ≤ 0x45))
    || veReduces op || veAccumulates op

/-- Operations marked float-only and integer-only. -/
def veFloatOnly (op : Nat) : Bool := op == 0x09 || op == 0x0A || (decide (0x40 ≤ op) && decide (op ≤ 0x45))
def veIntOnly (op : Nat) : Bool := op == 0x0B || op == 0x13 || op == 0x14 || op == 0x15

/-- The latency (R271). -/
def veLatency (op : Nat) : Nat :=
  if op = 0x01 ∨ op = 0x02 ∨ op = 0x03 ∨ op = 0x0B then 2
  else if op = 0x04 ∨ veAccumulates op then 3
  else if veFloatOnly op then 8
  else if veReduces op then 4
  else 1

/-! ### Float lanes (R272) -/

/-- Clears the sign bit of a code of w bits. -/
def absCode (w c : Nat) : Nat := c % 2 ^ (w - 1)
/-- Inverts it. -/
def negCode (w c : Nat) : Nat := if c < 2 ^ (w - 1) then c + 2 ^ (w - 1) else c - 2 ^ (w - 1)

/-- x is less than y for MIN and MAX: −0 is less than +0 (R272). -/
def Val.below (x y : Val) : Bool :=
  match x, y with
  | .zero a, .zero b => a && !b
  | x, y => x.lt y

/-- MIN (or MAX) of two encodings, by the values they decode to (R272). -/
def pickFloat (F : FloatFmt) (ftz greater : Bool) (a b : Nat) : Coded :=
  let x := F.dec ftz a
  let y := F.dec ftz b
  let nv := flagIf (x.isSig || y.isSig) flNV
  match x.isNan, y.isNan with
  | true, true => (F.nan, nv)
  | true, false => (b, nv)
  | false, true => (a, nv)
  | false, false =>
    let less := fun x y => (x : Val).below y
    (if greater then (if less x y then b else a) else (if less y x then b else a), 0)

/-- A comparison of R275, by OP. -/
def compareVals (op : Nat) (x y : Val) : Bool :=
  let nan := x.isNan || y.isNan
  match op with
  | 0x20 => x.eqv y
  | 0x21 => nan || !x.eqv y
  | 0x22 => !nan && x.lt y
  | 0x23 => !nan && !y.lt x
  | 0x24 => !nan && y.lt x
  | _ => !nan && !x.lt y

/-- One float lane (R272, R274, R275, R277). -/
def floatLane (ecw : BitVec 128) (F : FloatFmt) (a b c : Nat) : Coded :=
  let op := ecwOp ecw
  let rm := veRm ecw
  let ftz := veFtz ecw
  let x := F.dec ftz a
  let y := F.dec ftz b
  let rnd := fun (v : Val) => F.rnd rm (veSatf ecw) ftz v
  let w := fmtWidth (ecwFmt ecw)
  match op with
  | 0x01 => rnd (x.add rm y)
  | 0x02 => rnd (x.add rm y.neg)
  | 0x03 => rnd (x.mul y)
  | 0x04 => rnd ((x.mul y).add rm (F.dec ftz c))
  | 0x05 => pickFloat F ftz false a b
  | 0x06 => pickFloat F ftz true a b
  | 0x07 => (absCode w a, 0)
  | 0x08 => (negCode w a, 0)
  | 0x09 => let q := x.div y; let r := rnd q.1; (r.1, r.2 ||| q.2)
  | 0x0A => rnd x.sqrt
  | 0x10 => (Nat.land a b, 0)
  | 0x11 => (Nat.lor a b, 0)
  | 0x12 => (Nat.xor a b, 0)
  | 0x28 => (if absCode w a = 0 then c else b, 0)
  | _ =>
    if 0x40 ≤ op then
      let t := transcend op (a + 2 ^ 32 * ecwMode ecw + 2 ^ 36 * ecwFmt ecw) x
      let r := rnd t.1
      (r.1, r.2 ||| t.2)
    else
      let one := F.enc false F.bias 0
      (if compareVals op x y then one else 0, flagIf (x.isSig || y.isSig) flNV)

/-! ### Integer lanes (R273 to R275) -/

/-- IRES (R273). -/
def ires (f : Nat) (satf : Bool) (n : Int) : Coded := if satf then cvti f .rz (.int n) else (codeOf (fmtWidth f) n, 0)

/-- One integer lane. -/
def intLane (ecw : BitVec 128) (a b c : Nat) : Coded :=
  let f := ecwFmt ecw
  let w := fmtWidth f
  let x := intOf f a
  let y := intOf f b
  let res := ires f (veSatf ecw)
  let cnt := b % w
  match ecwOp ecw with
  | 0x01 => res (x + y)
  | 0x02 => res (x - y)
  | 0x03 => res (x * y)
  | 0x04 => res (x * y + intOf f c)
  | 0x05 => (if y < x then b else a, 0)
  | 0x06 => (if x < y then b else a, 0)
  | 0x07 => res x.natAbs
  | 0x08 => res (-x)
  | 0x0B => (codeOf w (x * y / 2 ^ w), 0)
  | 0x10 => (Nat.land a b, 0)
  | 0x11 => (Nat.lor a b, 0)
  | 0x12 => (Nat.xor a b, 0)
  | 0x13 => (a * 2 ^ cnt % 2 ^ w, 0)
  | 0x14 => (a / 2 ^ cnt, 0)
  | 0x15 => (codeOf w (x / 2 ^ cnt), 0)
  | 0x28 => (if a = 0 then c else b, 0)
  | 0x20 => (bit (x == y), 0)
  | 0x21 => (bit (x != y), 0)
  | 0x22 => (bit (decide (x < y)), 0)
  | 0x23 => (bit (decide (x ≤ y)), 0)
  | 0x24 => (bit (decide (y < x)), 0)
  | _ => (bit (decide (y ≤ x)), 0)

/-- One lane of a lane-wise operation. -/
def veLane (ecw : BitVec 128) (a b c : Nat) : Coded :=
  match floatFmt (ecwFmt ecw) with
  | some F => floatLane ecw F a b c
  | none => intLane ecw a b c

/-! ### Lane moves (R276) -/

/-- SLUP, SLDN, SHUF, BCAST on the codes of the lanes. -/
def veMove (op : Nat) (k : BitVec 32) (a b : List Nat) : List Nat :=
  let l := a.length
  let n := min (field k 0 8) l
  (List.range l).map fun i =>
    match op with
    | 0x30 => if n ≤ i then a.getD (i - n) 0 else b.getD (l + i - n) 0
    | 0x31 => if i + n < l then a.getD (i + n) 0 else b.getD (i + n - l) 0
    | 0x32 => a.getD (b.getD i 0 % l) 0
    | _ => a.getD (field k 0 7 % l) 0

/-! ### Reductions (R278) -/

/-- One level of the pairwise tree. -/
def pairUp {α : Type} (f : α → α → α) : List α → List α
  | x :: y :: rest => f x y :: pairUp f rest
  | l => l

/-- The tree, level by level. -/
def treeOf {α : Type} (f : α → α → α) : Nat → List α → List α
  | 0, l => l
  | n + 1, l => treeOf f n (pairUp f l)

/-- An FP32 sum rounded to nearest, with its flags joined. -/
def addFp32 (ftz : Bool) (x y : Val × Flags) : Val × Flags :=
  let r := fp32.rnd .rn false ftz (x.1.add .rn y.1)
  (fp32.dec false r.1, x.2 ||| y.2 ||| r.2)

/-- A reduction of the lanes to one code. -/
def veReduce (ecw : BitVec 128) (a : List Nat) : Coded :=
  let f := ecwFmt ecw
  match floatFmt f, ecwOp ecw with
  | some F, 0x50 =>
    match treeOf (addFp32 (veFtz ecw)) 7 (a.map fun c => (F.dec (veFtz ecw) c, 0)) with
    | v :: _ => let r := F.rnd (veRm ecw) (veSatf ecw) (veFtz ecw) v.1; (r.1, r.2 ||| v.2)
    | [] => (0, 0)
  | none, 0x50 => ires f (veSatf ecw) (a.foldl (fun t c => t + intOf f c) 0)
  | some F, op =>
    match treeOf (fun (x y : Coded) => let r := pickFloat F (veFtz ecw) (op == 0x51) x.1 y.1; (r.1, x.2 ||| y.2 ||| r.2)) 7
        (a.map fun c => (c, 0)) with
    | v :: _ => v
    | [] => (0, 0)
  | none, op =>
    match treeOf (fun x y => if (if op = 0x51 then intOf f x < intOf f y else intOf f y < intOf f x) then y else x) 7 a with
    | v :: _ => (v, 0)
    | [] => (0, 0)

/-! ### Accumulation (R279) -/

/-- An integer lane of ACC: wrapped modulo 2^32, or saturated. -/
def accInt (satf : Bool) (n : Int) : Coded := ires 0xA satf n

/-- One lane of an update of ACC: `old` is none while EMPTY. -/
def veAccLane (ecw : BitVec 128) (old : Option Nat) (a b : Nat) : Coded :=
  let f := ecwFmt ecw
  let ftz := veFtz ecw
  let op := ecwOp ecw
  match floatFmt f with
  | some F =>
    let v := F.dec ftz a
    if op = 0x61 ∨ op = 0x62 then
      let code := (fp32.rnd .rn false ftz v).1
      match old with
      | none => (code, flagIf v.isSig flNV)
      | some o => let r := pickFloat fp32 ftz (op == 0x61) o code; (r.1, r.2 ||| flagIf v.isSig flNV)
    else
      let term := if op = 0x63 then v.mul (F.dec ftz b) else v
      fp32.rnd .rn false ftz ((fp32.dec ftz (old.getD 0)).add .rn term)
  | none =>
    let v := intOf f a
    if op = 0x61 ∨ op = 0x62 then
      match old with
      | none => (codeOf 32 v, 0)
      | some o => if (if op = 0x61 then signedOf 32 o < v else v < signedOf 32 o) then (codeOf 32 v, 0) else (o, 0)
    else accInt (veSatf ecw) (signedOf 32 (old.getD 0) + (if op = 0x63 then v * intOf f b else v))

/-- The lane of ACC rounded to the format (R279). -/
def veAccOut (ecw : BitVec 128) (o : Nat) : Coded :=
  let f := ecwFmt ecw
  match floatFmt f with
  | some F => F.rnd (veRm ecw) (veSatf ecw) (veFtz ecw) (fp32.dec (veFtz ecw) o)
  | none => ires f (veSatf ecw) (signedOf 32 o)

/-! ### Operands and readiness (R265, R268, R270) -/

/-- An operand's source gives a beat: input, SRA or K in every lane. -/
def Site.veOperand (s : Site) (v : VeSt) (sel : Nat) (p : InPort) : Option (List Nat) :=
  let ecw := s.ecwNow
  let w := fmtWidth (ecwFmt ecw)
  let l := veLanes (ecwFmt ecw)
  match sel with
  | 0 =>
    match s.head p with
    | some t => if tokName t = .data ∨ tokName t = .last then some (lanesOfData w l t.data) else none
    | none => none
  | 1 => some (lanesOfData w l v.sra)
  | _ => some (List.replicate l (field s.konst 0 w))

/-- The operands of a firing, with the token at A, when all are there. -/
def Site.veOperands (s : Site) (v : VeSt) : Option (Token × List Nat × List Nat × List Nat) :=
  let ecw := s.ecwNow
  let op := ecwOp ecw
  match s.head .a with
  | none => none
  | some t =>
    if tokName t = .data ∨ tokName t = .last then
      match (if veUsesB op then s.veOperand v (veBsel ecw) .b else some []),
          (if veUsesC op then s.veOperand v (veCsel ecw) .c else some []) with
      | some b, some c => some (t, lanesOfData (fmtWidth (ecwFmt ecw)) (veLanes (ecwFmt ecw)) t.data, b, c)
      | _, _ => none
    else none

/-- A VE at a site that its resident context uses. -/
def Site.isVe (s : Site) : Bool := ecwKind s.ecwNow == 0 && s.ecwNow != 0 && s.vec?.isSome

/-- The VE can fire. -/
def Cast.veReady (d : Dev) (k : Cast) (n : Nat) : Bool :=
  let s := k.site n
  match s.vec? with
  | none => false
  | some v =>
    s.isVe && k.ready n d.now && s.errorHead.isNone && decide (v.until_ ≤ d.now) && (s.veOperands v).isSome && k.allRoom d n
      && !(d.sch.fast && decide (0 < s.lastFire ∧ d.now ≤ s.lastFire))

/-! ### Firing -/

/-- The results of a firing on Y and Z, and the element after it. -/
structure VeOut where
  y : Option Token := none
  z : Option Token := none
  v : VeSt

/-- A wide beat of lane codes. -/
def veBeat (ecw : BitVec 128) (last : Bool) (codes : List Nat) : Token := wideTok (bit last) 0 (packLanes (fmtWidth (ecwFmt ecw)) codes) 0

/-- Y and, with ZUSE = 1, its flags (R281). -/
def veEmit (ecw : BitVec 128) (v : VeSt) (t : Token) (fl : Flags) : VeOut :=
  { y := if ecwOut ecw .y then some t else none, z := if veZuse ecw = 1 then some (flagTok fl) else none, v := v }

/-- The result that ACC holds (R279, R280). -/
def VeSt.result (v : VeSt) (ecw : BitVec 128) (last : Bool) : VeOut :=
  veEmit ecw { v with acc := [], partial_ := false, accF := 0 } (veBeat ecw last ((v.acc.map (veAccOut ecw)).map Prod.fst))
    (v.accF ||| allFlags (v.acc.map (veAccOut ecw)))

/-- One firing (R270 to R279). -/
def veResult (ecw : BitVec 128) (k : BitVec 32) (v : VeSt) (t : Token) (a b c : List Nat) : VeOut :=
  let op := ecwOp ecw
  let last := tokName t == .last
  if veAccumulates op then
    let rs := (List.range a.length).map fun i =>
      veAccLane ecw (if v.partial_ then some (v.acc.getD i 0) else none) (a.getD i 0) (b.getD i 0)
    let v := { v with acc := rs.map Prod.fst, partial_ := true, accF := v.accF ||| allFlags rs }
    if last then v.result ecw true else { v := v }
  else if veReduces op then
    let r := veReduce ecw a
    let out := veEmit ecw v (veBeat ecw last [r.1]) r.2
    if veZuse ecw = 2 then { out with z := some (narrowTok (if last then 2 else 0) 0 (BitVec.ofNat 64 r.1)) } else out
  else if 0x30 ≤ op ∧ op ≤ 0x33 then veEmit ecw v (veBeat ecw last (veMove op k a b)) 0
  else
    let rs := (List.range a.length).map fun i => veLane ecw (a.getD i 0) (b.getD i 0) (c.getD i 0)
    veEmit ecw v (veBeat ecw last (rs.map Prod.fst)) (allFlags rs)

/-- One firing of a VE. -/
def Dev.veFire (d : Dev) (c n : Nat) : Dev :=
  match d.casts.find c with
  | none => d
  | some k =>
    if !k.veReady d n then d
    else
      let d := d.beginFiring c n
      match (d.casts.find c).map fun k => k.site n with
      | none => d
      | some s =>
        match s.vec? with
        | none => d
        | some v =>
          match s.veOperands v with
          | none => d
          | some (t, a, b, cc) =>
            let ecw := s.ecwNow
            let op := ecwOp ecw
            let out := veResult ecw s.konst v t a b cc
            let d := d.modVec c n fun _ => { out.v with until_ := if veFloatOnly op then d.now + 4 else d.now + 1 }
            let d := d.takeHead c n .a
            let d := if veUsesB op ∧ veBsel ecw = 0 then d.takeHead c n .b else d
            let d := if veUsesC op ∧ veCsel ecw = 0 then d.takeHead c n .c else d
            ((d.emitOpt c n .y (veLatency op) out.y).emitOpt c n .z (veLatency op) out.z).endFiring c n

/-- VE_FIRE. -/
def execVeFire (c n : Nat) (s : State) : Res := .next { s with dev := s.dev.veFire c n }

/-! ### The stationary register (R269) -/

/-- The VE can take a beat in from D. -/
def Cast.canIntake (k : Cast) (n : Nat) : Bool :=
  let s := k.site n
  match s.vec? with
  | none => false
  | some v =>
    s.isVe && !v.lfull && ecwIn s.ecwNow .d &&
      match s.headName .d with
      | some .data => true
      | some .last => true
      | _ => false

/-- VE_D_INTAKE: the head of D moves into SRL. -/
def Dev.veIntake (d : Dev) (c n : Nat) : Dev :=
  match d.casts.find c with
  | none => d
  | some k =>
    if k.canIntake n then
      match (k.site n).head .d with
      | some t => (d.modVec c n fun v => { v with srl := t.data, lfull := true }).takeHead c n .d
      | none => d
    else d

def execVeDIntake (c n : Nat) (s : State) : Res := .next { s with dev := s.dev.veIntake c n }

/-- A SWAP at A can exchange the registers: with D enabled it waits for LFULL, and it needs room on Y. -/
def Cast.canSwap (d : Dev) (k : Cast) (n : Nat) : Bool :=
  let s := k.site n
  match s.vec? with
  | none => false
  | some v =>
    s.isVe && s.free d.now && s.headName .a == some .swap && (v.lfull || !ecwIn s.ecwNow .d)
      && (!ecwOut s.ecwNow .y || k.room d n .y true)

/-- VE_SWAP. -/
def Dev.veSwap (d : Dev) (c n : Nat) : Dev :=
  match d.casts.find c with
  | none => d
  | some k =>
    if k.canSwap d n then
      let d := d.modVec c n fun v => { v with sra := v.srl, srl := v.sra, lfull := false }
      let d := (d.takeHead c n .a).useClock c n
      match (k.site n).head .a with
      | some t => if ecwOut (k.site n).ecwNow .y then d.emit c n .y 0 t else d
      | none => d
    else d

def execVeSwap (c n : Nat) (s : State) : Res := .next { s with dev := s.dev.veSwap c n }

/-! ### Tokens consumed alone (R268) -/

/-- What consuming the head of an input alone sends: nothing, a HEADER on Y, an ERROR token on every output. -/
inductive Alone where
  | no
  | quiet
  | forward (t : Token)
  | bad
deriving DecidableEq, Repr

/-- The head of an input is one that the VE consumes alone. -/
def Site.veAlone (s : Site) (p : InPort) : Alone :=
  if !ecwIn s.ecwNow p then .no
  else
    match s.head p with
    | none => .no
    | some t =>
      match tokName t with
      | .header =>
        if field t.ctl 8 4 = ecwFmt s.ecwNow then (if p = .a then .forward t else .quiet) else .bad
      | .swap => if p = .a then .no else .quiet
      | _ => .no

/-- It can be consumed now: it needs room only where it sends a token. -/
def Cast.canConsumeAlone (d : Dev) (k : Cast) (n : Nat) (p : InPort) : Bool :=
  let s := k.site n
  s.isVe && s.free d.now &&
    match s.veAlone p with
    | .no => false
    | .quiet => true
    | .forward _ => !ecwOut s.ecwNow .y || k.room d n .y true
    | .bad => k.allRoom d n

/-- VE_CONSUME_ALONE. -/
def Dev.veConsumeAlone (d : Dev) (c n : Nat) (p : InPort) : Dev :=
  match d.casts.find c with
  | none => d
  | some k =>
    if k.canConsumeAlone d n p then
      let d' := (d.takeHead c n p).useClock c n
      match (k.site n).veAlone p with
      | .forward t => if ecwOut (k.site n).ecwNow .y then d'.emit c n .y 0 t else d'
      | .bad => d'.emitAll c n fun w => k.ownError n w 0x13 0
      | _ => d'
    else d

def execVeConsumeAlone (c n : Nat) (p : InPort) (s : State) : Res := .next { s with dev := s.dev.veConsumeAlone c n p }

/-! ### The flush of ACC (R280) -/

/-- A RECONF or DRAIN stands at A while ACC is PARTIAL, with room for what it emits. -/
def Cast.canFlush (d : Dev) (k : Cast) (n : Nat) : Bool :=
  let s := k.site n
  match s.vec? with
  | none => false
  | some v =>
    s.isVe && v.partial_ && (s.headName .a == some .reconf || s.headName .a == some .drain)
      && (!ecwOut s.ecwNow .y || k.room d n .y true) && (veZuse s.ecwNow != 1 || k.room d n .z false)

/-- VE_ACC_FLUSH. -/
def Dev.veAccFlush (d : Dev) (c n : Nat) : Dev :=
  match d.casts.find c with
  | none => d
  | some k =>
    if k.canFlush d n then
      match (k.site n).vec? with
      | none => d
      | some v =>
        let ecw := (k.site n).ecwNow
        let out := v.result ecw false
        ((d.modVec c n fun _ => out.v).emitOpt c n .y (veLatency (ecwOp ecw)) out.y).emitOpt c n .z (veLatency (ecwOp ecw)) out.z
    else d

def execVeAccFlush (c n : Nat) (s : State) : Res := .next { s with dev := s.dev.veAccFlush c n }

end Sys2Proof.Machine
end

