-- ==== Sys2Proof/Machine/Matrix.lean ====
section
/-!
DEFINITION. The matrix element (R282 to R311): operand slots, weight loads, commands, row firings, the outlier side unit, READ and
notes, and the instructions MX.CLAIM, MX.REL, MX.SCALE and MX.STAT.
-/
namespace Sys2Proof.Machine

/-! ### Formats (R287, R291, R301) -/

/-- Rows that a slot of an A format holds; 0 for a format that A does not take. -/
def mxRowsPerSlot (f : Nat) : Nat :=
  if f = 0x4 ∨ f = 0x5 ∨ f = 0x7 ∨ isMx f then 128 else if f = 0x2 ∨ f = 0x3 then 64 else 0

/-- A row of two beats. -/
def mxTwoBeats (f : Nat) : Bool := f == 0x2 || f == 0x3

/-- The weight formats. -/
def mxWeightFmt (f : Nat) : Bool := f == 0x4 || f == 0x5 || isMx f || f == 0xE || f == 0x7 || f == 0x3 || f == 0x2

/-- Prefix and weight beats of a load. -/
def mxPrefix (f : Nat) : Nat := if f = 0xE then 36 else 0
def mxWeightBeats (f : Nat) : Nat := if f = 0xE then 32 else if mxTwoBeats f then 256 else 128

/-- All the beats of a load. -/
def MxTile.length (t : MxTile) : Nat := mxPrefix t.fmt + mxWeightBeats t.fmt + t.nob

/-- The A format pairs with the tile format (R301). -/
def mxPairs (a t : Nat) : Bool :=
  let eight := fun f => f == 0x4 || f == 0x5 || f == 0xB || f == 0xC
  if eight a || a = 0xD then eight t || t == 0xD || t == 0xE
  else if a = 0x7 then t == 0x7
  else mxTwoBeats a && mxTwoBeats t

/-! ### Values (R300) -/

/-- AVAL. -/
def MxSlot.aval (s : MxSlot) (r k : Nat) : Val :=
  let w := fmtWidth s.fmt
  let v := decVal s.fmt false (field (s.rows.get 0 r) (w * k) w)
  if isMx s.fmt then v.scaled (field (s.scales.get 0 r) (8 * (k / 32)) 8) else v

/-- A beat of a tile. -/
def MxTile.beat (t : MxTile) (i : Nat) : BitVec 1024 × BitVec 32 := t.beats.getD i (0, 0)

/-- Byte `i` of a run of beats. -/
def MxTile.byteFrom (t : MxTile) (first i : Nat) : Nat := field (t.beat (first + i / 128)).1 (8 * (i % 128)) 8

/-- The parity of the low seven bits of an index (R242). -/
def parity7 (x : Nat) : Bool := (List.range 7).foldl (fun p j => p != (x / 2 ^ j % 2 == 1)) false

/-- KQ2W (R242), of weight (k, n) before the tile scale. -/
def MxTile.kq2 (t : MxTile) (k n : Nat) : Val :=
  let ix := t.byteFrom 36 (32 * k + 2 * (n / 8)) + 256 * t.byteFrom 36 (32 * k + 2 * (n / 8) + 1)
  let i := n % 8
  let neg := if i = 7 then parity7 ix else ix / 2 ^ i % 2 == 1
  let m := (e4m3.dec false (t.byteFrom 0 (8 * (ix / 128) + i) % 128)).scaled (t.byteFrom 32 (4 * k + n / 32))
  if neg then m.neg else m

/-- WVAL. -/
def MxTile.wval (t : MxTile) (k n : Nat) : Val :=
  let ts := fp32.dec false t.scale.toNat
  let w := fmtWidth t.fmt
  let v :=
    if t.fmt = 0xE then t.kq2 k n
    else if mxTwoBeats t.fmt then decVal t.fmt false (field (t.beat (2 * k + n / 64)).1 (w * (n % 64)) w)
    else
      let b := t.beat k
      let v := decVal t.fmt false (field b.1 (w * n) w)
      if isMx t.fmt then v.scaled (field b.2 (8 * (n / 32)) 8) else v
  v.mul ts

/-- The entries of a tile's outlier beats, in beat order and then entry order (R292). -/
def MxTile.entries (t : MxTile) : List (BitVec 32) :=
  (List.range t.nob).flatMap fun b =>
    (List.range 32).map fun e => BitVec.ofNat 32 (field (t.beat (mxPrefix t.fmt + mxWeightBeats t.fmt + b)).1 (32 * e) 32)

/-- The outlier list: the valid entries, but none on a part without side units, and none with bit 30 set (R292). -/
def MxTile.outliers (t : MxTile) (units : Bool) : List (BitVec 32) :=
  if units then t.entries.filter fun e => bitAt e 31 && !bitAt e 30 else []

/-- The ERROR token that the end of a load emits, by subcode (R292). -/
def MxTile.loadError (t : MxTile) (units : Bool) : Option Nat :=
  if units then (if t.entries.any fun e => bitAt e 31 && bitAt e 30 then some 0x20 else none)
  else if t.entries.any fun e => bitAt e 31 then some 0x24
  else none

/-! ### Arithmetic (R302) -/

/-- Both infinities stand in a list of products. -/
def bothInfinities (l : List Val) : Bool := l.contains (.inf true) && l.contains (.inf false)

/-- An exact sum in which a NaN raises NV when a factor was signalling or when it arises here (R302). -/
def exactSum (l : List Val) : Val :=
  if bothInfinities l then .nan true
  else
    match l with
    | [] => .zero false
    | v :: rest => rest.foldl (fun x y => x.add .rn y) v

/-- The 128 rounded sums of a row with their flags. -/
def rowSums (s : MxSlot) (t : MxTile) (r : Nat) : List Coded :=
  (List.range 128).map fun n => fp32.rnd .rn false false (exactSum ((List.range 128).map fun k => (s.aval r k).mul (t.wval k n)))

/-- The outlier terms of a row: column and product. -/
def rowOutliers (s : MxSlot) (t : MxTile) (units : Bool) (r : Nat) : List (Nat × Val) :=
  (t.outliers units).map fun e => (field e 16 7, (s.aval r (field e 23 7)).mul (bf16.dec false (field e 0 16)))

/-- The index of an accumulator element. -/
def accIx (bank row col : Nat) : Nat := 16384 * bank + 128 * row + col

/-- MXFLAGS from flags: NV, OF, UF, NX. -/
def mxFlags (f : Flags) : BitVec 4 := BitVec.ofNat 4 (bit (bitAt f 0) + 2 * bit (bitAt f 2) + 4 * bit (bitAt f 3) + 8 * bit (bitAt f 4))

/-- A term added to an accumulator element. -/
def MxSt.accAdd (m : MxSt) (ix : Nat) (v : Val) : MxSt :=
  let r := fp32.rnd .rn false false ((fp32.dec false (m.acc.get 0 ix)).add .rn v)
  { m with acc := m.acc.set 0 ix r.1, flags := m.flags ||| mxFlags r.2 }

/-- The dense update of a row. -/
def MxSt.dense (m : MxSt) (r : MxRow) : MxSt :=
  let m := { m with flags := m.flags ||| mxFlags r.flags }
  (List.range 128).foldl (fun m n =>
    let p := r.sums.getD n 0
    if r.ovw then { m with acc := m.acc.set 0 (accIx r.bank r.row n) p }
    else m.accAdd (accIx r.bank r.row n) (fp32.dec false p)) m

/-! ### Command words (R295) -/

def mxCmdOp (w : BitVec 64) : Nat := field w 0 4
def mxCmdSlot (w : BitVec 64) : Nat := field w 4 4
def mxCmdRow0 (w : BitVec 64) : Nat := field w 8 7
def mxCmdCnt (w : BitVec 64) : Nat := field w 15 7
def mxCmdBank (w : BitVec 64) : Nat := field w 22 2
def mxCmdArow0 (w : BitVec 64) : Nat := field w 24 7
def mxCmdOvw (w : BitVec 64) : Bool := bitAt w 31
def mxCmdNote (w : BitVec 64) (i : Nat) : Bool := bitAt w (32 + i)
def mxCmdTag (w : BitVec 64) : Nat := field w 34 16

/-- The rows a command touches: bank, first and last accumulator row; SWAP touches none. -/
def mxRowsOf (w : BitVec 64) : Option (Nat × Nat × Nat) :=
  if mxCmdOp w = 4 then none else some (mxCmdBank w, mxCmdArow0 w, mxCmdArow0 w + mxCmdCnt w)

/-- Two commands touch a common row. -/
def mxOverlap (v w : BitVec 64) : Bool :=
  match mxRowsOf v, mxRowsOf w with
  | some (b, lo, hi), some (b', lo', hi') => b == b' && decide (lo ≤ hi') && decide (lo' ≤ hi)
  | _, _ => false

/-- A command touches one of the rows `lo` to `hi`, counted over the four banks. -/
def mxTouches (w : BitVec 64) (lo hi : Nat) : Bool :=
  match mxRowsOf w with
  | some (b, l, h) => decide (128 * b + l ≤ hi ∧ lo ≤ 128 * b + h)
  | none => false

/-- The checks of a command word: the subcode of the first that fails (R296). -/
def MxSt.wordError (m : MxSt) (w : BitVec 64) : Option Nat :=
  let op := mxCmdOp w
  let unused := if op = 4 then field w 4 28 != 0
    else if op = 2 ∨ op = 3 then field w 4 11 != 0 || mxCmdOvw w
    else false
  if op = 0 ∨ 4 < op ∨ unused ∨ field w 50 14 ≠ 0 then some 0x22
  else
    let s := m.slots.get {} (mxCmdSlot w)
    if op = 1 ∧ !(s.claimed && !s.relp) then some 0x21
    else if (op = 1 ∧ s.nrows ≤ mxCmdRow0 w + mxCmdCnt w) ∨ (op ≠ 4 ∧ 127 < mxCmdArow0 w + mxCmdCnt w) then some 0x25
    else none

/-! ### The state seen by a step -/

/-- A matrix element that the resident context uses, with its site. -/
def Cast.matAt (k : Cast) (n : Nat) : Option (Site × MxSt) :=
  let s := k.site n
  if ecwKind s.ecwNow = 1 ∧ s.ecwNow ≠ 0 then s.mat?.map fun m => (s, m) else none

/-- What a step of a matrix element does, when it can act. -/
def Dev.onMat (d : Dev) (c n : Nat) (f : Cast → Site → MxSt → Option Dev) : Dev :=
  match d.casts.find c with
  | none => d
  | some k =>
    match k.matAt n with
    | none => d
    | some (s, m) => (f k s m).getD d

/-- A step of a matrix element can act. -/
def Dev.matCan (d : Dev) (c n : Nat) (f : Cast → Site → MxSt → Option Dev) : Bool :=
  match d.casts.find c with
  | none => false
  | some k =>
    match k.matAt n with
    | none => false
    | some (s, m) => (f k s m).isSome

/-- An ERROR token that the MX originates goes to every enabled output (R299). -/
def Dev.mxError (d : Dev) (c n : Nat) (k : Cast) (sub : Nat) : Dev :=
  let ecw := (k.site n).ecwNow
  (enabledOutputs ecw).foldl (fun d o => d.follow c n o [k.ownError n (outWide ecw o) sub 0]) d

/-! ### Input A (R288, R289) -/

/-- A beat written into the slot at the head of the fill queue. -/
def MxSt.fillBeat (m : MxSt) (slot : Nat) (t : Token) (now : Nat) : MxSt :=
  let s := m.slots.get {} slot
  if mxTwoBeats s.fmt ∧ s.half = none then { m with slots := m.slots.put slot { s with half := some t.data } }
  else
    let row : BitVec 2048 := if mxTwoBeats s.fmt then
        BitVec.ofNat 2048 ((s.half.getD 0).toNat + 2 ^ 1024 * t.data.toNat)
      else t.data.setWidth 2048
    let s := { s with
      half := none, rows := s.rows.set 0 s.fill row, scales := s.scales.set 0 s.fill (if isMx s.fmt then t.side else 0)
      pres := s.pres ++ [(s.fill, now + 1)], fill := s.fill + 1 }
    { m with slots := m.slots.put slot s, fillQ := if s.fill = s.nrows then m.fillQ.tail else m.fillQ }

/-- One token of input A. -/
def mxATake (d : Dev) (c n : Nat) (k : Cast) (s : Site) (m : MxSt) : Option Dev :=
  if !ecwIn s.ecwNow .a ∨ d.now < m.aAt then none
  else
    let took := fun (f : MxSt → MxSt) => (d.modMat c n fun m => { f m with aAt := d.now + 1 }).takeHead c n .a
    match s.head .a with
    | none => none
    | some t =>
      match tokName t, m.fillQ with
      | .data, slot :: _ => some (took fun m => m.fillBeat slot t d.now)
      | .last, slot :: _ => some (took fun m => m.fillBeat slot t d.now)
      | .header, slot :: _ =>
        if field t.ctl 8 4 = (m.slots.get {} slot).fmt then some (took id) else some ((took id).mxError c n k 0x13)
      | .swap, _ => some (took id)
      | _, _ => none

/-- MX_A_BEAT. -/
def execMxABeat (c n : Nat) (s : State) : Res := .next { s with dev := s.dev.onMat c n (mxATake s.dev c n) }

/-! ### Input B (R291 to R294) -/

/-- The part has outlier side units (R2). -/
def Dev.units (d : Dev) : Bool := d.part.hasUal

/-- LFULL as it reads. -/
def MxSt.full (m : MxSt) (now : Nat) : Bool := m.lfull && decide (m.lfullFrom ≤ now)

/-- The pending tile scale that a load accepted now latches (R293). -/
def MxSt.scaleNow (m : MxSt) (now : Nat) : BitVec 32 := if m.pscaleAt = now + 1 then m.pscalePrev else m.pscale

/-- A beat of a load taken into WL: the first one accepts the load, the last one fills it. -/
def MxSt.loadBeat (m : MxSt) (ecw : BitVec 128) (t : Token) (now : Nat) : MxSt :=
  let m : MxSt := if m.loading then m
    else { m with loading := true, wl := { fmt := ecwFmt ecw, nob := field ecw 0 4, scale := m.scaleNow now } }
  let wl : MxTile := { m.wl with beats := m.wl.beats ++ [(t.data, t.side)] }
  if wl.beats.length = wl.length then { m with wl := wl, loading := false, lfull := true, lfullFrom := now + 1 }
  else { m with wl := wl }

/-- One token of input B. -/
def mxBTake (d : Dev) (c n : Nat) (k : Cast) (s : Site) (m : MxSt) : Option Dev :=
  if !ecwIn s.ecwNow .b ∨ d.now < m.bAt then none
  else
    let took := fun (f : MxSt → MxSt) => (d.modMat c n fun m => { f m with bAt := d.now + 1 }).takeHead c n .b
    match s.head .b with
    | none => none
    | some t =>
      match tokName t with
      | .data | .last =>
        if m.lfull ∨ d.now < m.bFrom then none
        else
          let m' := m.loadBeat s.ecwNow t d.now
          let d' := took fun m => m.loadBeat s.ecwNow t d.now
          if m'.lfull then
            match m'.wl.loadError d.units with
            | some sub => some (d'.mxError c n k sub)
            | none => some d'
          else some d'
      | .header => if field t.ctl 8 4 = ecwFmt s.ecwNow then some (took id) else some ((took id).mxError c n k 0x13)
      | .swap => some (took id)
      | _ => none

/-- MX_B_BEAT. -/
def execMxBBeat (c n : Nat) (s : State) : Res := .next { s with dev := s.dev.onMat c n (mxBTake s.dev c n) }

/-! ### Commands (R296, R297) -/

/-- A note on Z (R298). -/
def mxNote (w : BitVec 64) (done : Bool) : Token :=
  narrowTok 0 0 (BitVec.ofNat 64 (mxCmdTag w + 2 ^ 16 * bit done + 2 ^ 17 * (mxCmdOp w % 8)))

/-- A token at D: a command taken, or one consumed alone. -/
def mxDTake (d : Dev) (c n : Nat) (k : Cast) (s : Site) (m : MxSt) : Option Dev :=
  if d.now < m.dAt then none
  else
    let took := fun (f : MxSt → MxSt) => (d.modMat c n fun m => { f m with dAt := d.now + 1 }).takeHead c n .d
    match s.head .d with
    | none => none
    | some t =>
      match tokName t with
      | .data =>
        let w := tokWord t
        let note := mxCmdNote w 0 && ecwOut s.ecwNow .z
        if 8 ≤ m.cmds.length ∨ (note ∧ !(s.outq.isEmpty && k.room d n .z false)) then none
        else
          match m.wordError w with
          | some sub => some ((took id).mxError c n k sub)
          | none =>
            let d := took fun m =>
              { m with cmds := m.cmds ++ [{ id := m.nextCmd, word := w }], nextCmd := m.nextCmd + 1, nacc := m.nacc + 1 }
            some (if note then d.emit c n .z 0 (mxNote w false) else d)
      | .stop => some (took id)
      | .done => some (took id)
      | .index => some (took id)
      | _ => none

/-- MX_COMMAND_TAKE. -/
def execMxCommandTake (c n : Nat) (s : State) : Res := .next { s with dev := s.dev.onMat c n (mxDTake s.dev c n) }

/-- Every row of an MMA has fired. -/
def MxCmd.allFired (x : MxCmd) : Bool := mxCmdOp x.word != 1 || x.silent || (x.begun && decide (mxCmdCnt x.word + 1 ≤ x.fired.length))

/-- A command may begin behind the earlier ones (R297). -/
def MxSt.mayBegin (m : MxSt) (now : Nat) (earlier : List MxCmd) (x : MxCmd) : Bool :=
  !(m.locks.any fun l => decide (l.2.1 ≤ x.id) && mxTouches x.word l.2.2.1 l.2.2.2) &&
  match mxCmdOp x.word with
  | 1 => earlier.all fun e => e.begun && e.allFired && mxCmdOp e.word == 1
  | 4 => m.full now && earlier.all fun e => e.begun && e.allFired
  | _ => earlier.all fun e => e.begun

/-- The first command that has not begun, with those before it. -/
def firstIdle : List MxCmd → List MxCmd → Option (List MxCmd × MxCmd)
  | _, [] => none
  | before, x :: rest => if x.begun then firstIdle (before ++ [x]) rest else some (before, x)

/-- A command changed. -/
def MxSt.modCmd (m : MxSt) (id : Nat) (f : MxCmd → MxCmd) : MxSt := { m with cmds := m.cmds.map fun x => if x.id = id then f x else x }

/-- A command falls due. -/
def MxSt.fallDue (m : MxSt) (id : Nat) : MxSt := { m.modCmd id (fun x => { x with due := true }) with due := m.due ++ [id] }

/-- A command begins: SWAP exchanges the tiles, an MMA without a fitting tile ends at once (R297). -/
def mxBegin (d : Dev) (c n : Nat) (k : Cast) (s : Site) (m : MxSt) : Option Dev :=
  match firstIdle [] m.cmds with
  | none => none
  | some (before, x) =>
    if !m.mayBegin d.now before x then none
    else
      let d' := d.modMat c n fun m => m.modCmd x.id fun x => { x with begun := true, left := mxCmdCnt x.word + 1 }
      match mxCmdOp x.word with
      | 1 =>
        if m.wvalid && mxPairs (m.slots.get {} (mxCmdSlot x.word)).fmt m.wa.fmt then some d'
        else if s.outq.isEmpty then
          some ((d'.modMat c n fun m => (m.modCmd x.id fun x => { x with silent := true }).fallDue x.id).mxError c n k 0x23)
        else none
      | 4 => some (d'.modMat c n fun m =>
          { m.fallDue x.id with wa := m.wl, wl := m.wa, lfull := false, wvalid := true, bFrom := d.now + 1 })
      | _ => some d'

/-- MX_COMMAND_BEGIN. -/
def execMxCommandBegin (c n : Nat) (s : State) : Res := .next { s with dev := s.dev.onMat c n (mxBegin s.dev c n) }

/-! ### Row firings (R302, R303) -/

/-- Clocks between rows by the formats and the outliers of WA; none when two rows fire in each clock. -/
def mxInterval (a : Nat) (t : MxTile) (units : Bool) : Option Nat :=
  let e := (t.outliers units).length
  if 0 < e then some (max (if mxTwoBeats a then 4 else 1) ((e + 3) / 4))
  else if mxTwoBeats a then some 4
  else if a = 0xD ∧ t.fmt = 0xD then none
  else some 1

/-- The earliest present row of a command that has not fired: by the clock of presence, then ascending. -/
def MxCmd.nextRow (x : MxCmd) (s : MxSlot) (now : Nat) : Option Nat :=
  let rows := s.pres.filter fun p =>
    decide (p.2 ≤ now ∧ mxCmdRow0 x.word ≤ p.1 ∧ p.1 ≤ mxCmdRow0 x.word + mxCmdCnt x.word) && !x.fired.contains (p.1 - mxCmdRow0 x.word)
  (rows.foldl (fun b p => match b with
    | none => some p
    | some q => if p.2 < q.2 ∨ (p.2 = q.2 ∧ p.1 < q.1) then some p else some q) none).map Prod.fst

/-- A row fires; under the fast limiter at most one in two clocks (R489). -/
def mxFireRow (d : Dev) (c n : Nat) (_k : Cast) (_s : Site) (m : MxSt) : Option Dev :=
  match m.cmds.find? fun x => mxCmdOp x.word == 1 && x.begun && !x.allFired with
  | none => none
  | some x =>
    let slot := m.slots.get {} (mxCmdSlot x.word)
    if d.now < m.rowNext ∨ (d.units ∧ 4 ≤ m.rows.length) then none
    else
      match x.nextRow slot d.now with
      | none => none
      | some r =>
        let i := r - mxCmdRow0 x.word
        let sums := rowSums slot m.wa r
        let row : MxRow :=
          { cmd := x.id, bank := mxCmdBank x.word, row := mxCmdArow0 x.word + i, ovw := mxCmdOvw x.word, sums := sums.map Prod.fst
            flags := allFlags sums, fired := d.now, outl := rowOutliers slot m.wa d.units r }
        some (d.modMat c n fun m =>
          let m : MxSt := { m.modCmd x.id (fun x => { x with fired := x.fired ++ [i] }) with rows := m.rows ++ [row] }
          match mxInterval slot.fmt m.wa d.units with
          | some k => { m with rowNext := d.now + (if d.sch.fast then max 2 k else k), rowPair := false }
          | none => if d.sch.fast then { m with rowNext := d.now + 2, rowPair := false }
            else if m.rowPair ∧ m.rowNext = d.now then { m with rowNext := d.now + 1, rowPair := false }
            else { m with rowNext := d.now, rowPair := true })

/-- MX_ROW_FIRE. -/
def execMxRowFire (c n : Nat) (s : State) : Res := .next { s with dev := s.dev.onMat c n (mxFireRow s.dev c n) }

/-- One row of a command is written; with the last one the command falls due. -/
def MxSt.rowWritten (m : MxSt) (id : Nat) : MxSt :=
  let m := m.modCmd id fun x => { x with left := x.left - 1 }
  if m.cmds.any fun x => x.id == id && x.left == 0 && !x.due then m.fallDue id else m

/-- The first row that satisfies a condition, changed. -/
def modFirstRow (p : MxRow → Bool) (f : MxRow → MxRow) : List MxRow → List MxRow
  | [] => []
  | r :: rest => if p r then f r :: rest else r :: modFirstRow p f rest

/-- The dense update of the row that fired 140 clocks ago. -/
def mxDenseStep (d : Dev) (c n : Nat) (_k : Cast) (_s : Site) (m : MxSt) : Option Dev :=
  let ripe := fun (r : MxRow) => !r.dense && decide (r.fired + 140 ≤ d.now)
  match m.rows.find? ripe with
  | none => none
  | some r => some (d.modMat c n fun m =>
      let m := { m.dense r with rows := modFirstRow ripe (fun r => { r with dense := true }) m.rows }
      if r.outl.isEmpty then m.rowWritten r.cmd else m)

/-- MX_DENSE_UPDATE. -/
def execMxDenseUpdate (c n : Nat) (s : State) : Res := .next { s with dev := s.dev.onMat c n (mxDenseStep s.dev c n) }

/-- The side unit applies up to four entries of the row at the head of its queue. -/
def mxOutlierStep (d : Dev) (c n : Nat) (_k : Cast) (_s : Site) (m : MxSt) : Option Dev :=
  match m.rows.find? fun r => !r.outl.isEmpty with
  | none => none
  | some r =>
    if !r.dense ∨ d.now < r.fired + 141 ∨ d.now < m.outAt then none
    else
      some (d.modMat c n fun m =>
        let m := (r.outl.take 4).foldl (fun m e => m.accAdd (accIx r.bank r.row e.1) e.2) m
        let m := { m with outAt := d.now + 1, rows := modFirstRow (fun r => !r.outl.isEmpty) (fun r => { r with outl := r.outl.drop 4 }) m.rows }
        if r.outl.length ≤ 4 then
          { m.rowWritten r.cmd with rows := m.rows.filter fun q => q.fired != r.fired || q.cmd != r.cmd || q.row != r.row || !q.outl.isEmpty }
        else m)

/-- MX_OUTLIER_APPLY. -/
def execMxOutlierApply (c n : Nat) (s : State) : Res := .next { s with dev := s.dev.onMat c n (mxOutlierStep s.dev c n) }

/-! ### READ, ZERO and completion (R297, R298, R304) -/

/-- The word of one accumulator row alone. -/
def oneRow (w : BitVec 64) (row : Nat) : BitVec 64 := BitVec.ofNat 64 (2 + 2 ^ 22 * mxCmdBank w + 2 ^ 24 * (row % 128))

/-- What a command does to an accumulator row is done: its update is written, or its beats have left (R304). -/
def MxSt.didRow (m : MxSt) (e : MxCmd) (row : Nat) : Bool :=
  let i := row - mxCmdArow0 e.word
  e.due || match mxCmdOp e.word with
    | 1 => e.fired.contains i && !(m.rows.any fun q => q.cmd == e.id && q.row == row && (!q.dense || !q.outl.isEmpty))
    | 2 => decide (4 * (i + 1) ≤ e.beats)
    | 3 => e.fired.contains i
    | _ => true

/-- The commands before one have done with a row of it: the updates alone count for a READ. -/
def MxSt.rowDone (m : MxSt) (x : MxCmd) (row : Nat) : Bool :=
  (m.cmds.takeWhile fun e => e.id != x.id).all fun e =>
    (mxCmdOp x.word == 2 && mxCmdOp e.word == 2) || !mxOverlap e.word (oneRow x.word row) || m.didRow e row

/-- A beat of READ; an ERROR at an input goes ahead of it (R299). -/
def mxReadStep (d : Dev) (c n : Nat) (k : Cast) (s : Site) (m : MxSt) : Option Dev :=
  match m.cmds.find? fun x => mxCmdOp x.word == 2 && x.begun && !x.due with
  | none => none
  | some x =>
    let row := mxCmdArow0 x.word + x.beats / 4
    let total := 4 * (mxCmdCnt x.word + 1)
    if d.now < m.readAt ∨ s.errorHead.isSome ∨ !s.outq.isEmpty ∨ !k.room d n .y true ∨ !m.rowDone x row then none
    else
      let codes := (List.range 32).map fun l => m.acc.get 0 (accIx (mxCmdBank x.word) row (32 * (x.beats % 4) + l))
      let last := x.beats + 1 == total
      let d := d.modMat c n fun m =>
        let m := { m.modCmd x.id (fun x => { x with beats := x.beats + 1 }) with readAt := d.now + 1 }
        if last then m.fallDue x.id else m
      some (d.emit c n .y 0 (wideTok (bit last) 0 (packLanes 32 codes) 0))

/-- MX_READ_BEAT. -/
def execMxReadBeat (c n : Nat) (s : State) : Res := .next { s with dev := s.dev.onMat c n (mxReadStep s.dev c n) }

/-- The rows that a ZERO that has begun can write: the earlier commands have done with them. -/
def MxSt.zeroRows (m : MxSt) (x : MxCmd) : List Nat :=
  if mxCmdOp x.word = 3 ∧ x.begun ∧ !x.due then
    (List.range (mxCmdCnt x.word + 1)).filter fun i => !x.fired.contains i && m.rowDone x (mxCmdArow0 x.word + i)
  else []

/-- They are written; with the last one the command falls due. -/
def MxSt.zero (m : MxSt) (x : MxCmd) (rows : List Nat) : MxSt :=
  let hit := fun (ix : Nat) => rows.any fun i =>
    let lo := accIx (mxCmdBank x.word) (mxCmdArow0 x.word + i) 0
    decide (lo ≤ ix ∧ ix < lo + 128)
  let m : MxSt := { m.modCmd x.id (fun x => { x with fired := x.fired ++ rows }) with acc := m.acc.filter fun e => !hit e.1 }
  if mxCmdCnt x.word + 1 ≤ x.fired.length + rows.length then m.fallDue x.id else m

/-- A ZERO writes. -/
def mxZeroStep (d : Dev) (c n : Nat) (_k : Cast) (_s : Site) (m : MxSt) : Option Dev :=
  match m.cmds.find? fun x => !(m.zeroRows x).isEmpty with
  | none => none
  | some x => some (d.modMat c n fun m => m.zero x (m.zeroRows x))

/-- The command that fell due first completes; with a completion note it needs room on Z (R298). -/
def mxComplete (d : Dev) (c n : Nat) (k : Cast) (s : Site) (m : MxSt) : Option (Bool × Dev) :=
  match m.due.head?.bind fun id => m.cmds.find? fun x => x.id == id with
  | none => none
  | some x =>
    let note := mxCmdNote x.word 1 && ecwOut s.ecwNow .z && !x.silent
    if note && !(s.outq.isEmpty && k.room d n .z false) then none
    else
      let d := d.modMat c n fun m =>
        { m with cmds := m.cmds.filter fun y => y.id != x.id, due := m.due.tail, ndone := m.ndone + 1 }
      some (note, if note then d.emit c n .z 0 (mxNote x.word true) else d)

/-- A completion with a note. -/
def mxNoteStep (d : Dev) (c n : Nat) (k : Cast) (s : Site) (m : MxSt) : Option Dev :=
  match mxComplete d c n k s m with
  | some (true, d) => some d
  | _ => none

/-- MX_NOTE_EMIT. -/
def execMxNoteEmit (c n : Nat) (s : State) : Res := .next { s with dev := s.dev.onMat c n (mxNoteStep s.dev c n) }

/-- What a matrix element does besides: ZERO writes, completions without a note, rows leaving the side unit's queue. -/
def mxSettle (d : Dev) (c n : Nat) (k : Cast) (s : Site) (m : MxSt) : Option Dev :=
  match mxZeroStep d c n k s m with
  | some d => some d
  | none =>
    match mxComplete d c n k s m with
    | some (false, d) => some d
    | _ =>
      let gone := fun (r : MxRow) => r.dense && r.outl.isEmpty && decide (r.fired + 141 ≤ d.now)
      if m.rows.any gone then some (d.modMat c n fun m => { m with rows := m.rows.filter fun r => !gone r }) else none

/-! ### Slots (R290, R307, R308) -/

/-- A released slot is freed once the commands that name it have written all they write. -/
def mxFree (d : Dev) (c n slot : Nat) (_k : Cast) (_s : Site) (m : MxSt) : Option Dev :=
  let s := m.slots.get {} slot
  if s.claimed && s.relp && decide (s.relAt ≤ d.now) && m.cmds.all fun x => mxCmdOp x.word != 1 || mxCmdSlot x.word != slot || x.due then
    some (d.modMat c n fun m =>
      { m with slots := m.slots.put slot { s with claimed := false, relp := false, pres := [] }, fillQ := m.fillQ.filter fun i => i != slot })
  else none

/-- A matrix element whether or not the resident context uses it. -/
def Dev.anyMat (d : Dev) (c n : Nat) : Option (Cast × Site × MxSt) :=
  (d.casts.find c).bind fun k => (k.site n).mat?.map fun m => (k, k.site n, m)

/-- MX_SLOT_FREE. -/
def execMxSlotFree (c n slot : Nat) (s : State) : Res :=
  match s.dev.anyMat c n with
  | none => .next s
  | some (k, site, m) => .next { s with dev := (mxFree s.dev c n slot k site m).getD s.dev }

/-- MX_REL_ARRIVE (R308): an unclaimed slot is left alone. -/
def execMxRelArrive (c n slot : Nat) (s : State) : Res :=
  .next { s with dev := s.dev.modMat c n fun m =>
    let x := m.slots.get {} slot
    if x.claimed then { m with slots := m.slots.put slot { x with relp := true, relAt := s.dev.now + 1 } } else m }

/-- The slot that a claim takes (R307). -/
def MxSt.claimSlot (m : MxSt) (w : Word) : Option Nat :=
  let f := field w 0 4
  let free := fun i => !(m.slots.get {} i).claimed
  if mxRowsPerSlot f < field w 4 7 + 1 then none
  else if bitAt w 12 then (List.range 16).find? free
  else if free (field w 16 4) then some (field w 16 4)
  else none

/-- MX_CLAIM_SERVE (R288, R307). -/
def execMxClaimServe (c pid n : Nat) (w : Word) (s : State) : Res :=
  let bound := 8 + s.dev.wayTo c n
  match (s.dev.anyMat c n).bind fun x => x.2.2.claimSlot w with
  | none => .next { s with dev := s.dev.replyWithin bound c pid (-1) 0 }
  | some i =>
    let d := s.dev.modMat c n fun m =>
      let old := m.slots.get {} i
      { m with
        slots := m.slots.put i { old with claimed := true, relp := false, fmt := field w 0 4, nrows := field w 4 7 + 1, copy := bitAt w 11,
                                          fill := 0, half := none, pres := [] }
        fillQ := if bitAt w 11 then m.fillQ else m.fillQ ++ [i] }
    .next { s with dev := d.replyWithin bound c pid (BitVec.ofNat 64 i) 0 }

/-- PRES of a slot as a number. -/
def MxSlot.presence (s : MxSlot) (now : Nat) : Nat := bitsOf (fun r => s.pres.any fun p => p.1 == r && decide (p.2 ≤ now)) 128

/-- The status word (R310). -/
def MxSt.status (m : MxSt) (now : Nat) : Word :=
  BitVec.ofNat 64 (m.nacc.toNat + 2 ^ 16 * m.ndone.toNat + 2 ^ 32 * bit (m.full now) + 2 ^ 33 * bit m.loading + 2 ^ 34 * bit m.wvalid
    + 2 ^ 35 * m.cmds.length + 2 ^ 39 * m.flags.toNat + 2 ^ 48 * bitsOf (fun i => (m.slots.get {} i).claimed) 16)

/-- MX_STAT_SERVE (R310). -/
def execMxStatServe (c pid n : Nat) (form : StatForm) (slot : Nat) (s : State) : Res :=
  let bound := 8 + s.dev.wayTo c n
  match s.dev.anyMat c n with
  | none => .next { s with dev := s.dev.replyWithin bound c pid 0 0 }
  | some (_, _, m) =>
    let x := m.slots.get {} slot
    let p := if x.claimed then x.presence s.dev.now else 0
    let v : Word := match form with
      | .st => m.status s.dev.now
      | .stc => m.status s.dev.now
      | .plo => BitVec.ofNat 64 (p % 2 ^ 64)
      | .phi => BitVec.ofNat 64 (p / 2 ^ 64)
    let d := if form = .stc then s.dev.modMat c n fun m => { m with flags := 0 } else s.dev
    .next { s with dev := d.replyWithin bound c pid v 0 }

/-- MX_SCALE_WRITE (R309): the thread's wait ends. -/
def execMxScaleWrite (c n : Nat) (v : BitVec 32) (s : State) : Res :=
  let d := s.dev.modMat c n fun m => { m with pscalePrev := m.pscale, pscale := v, pscaleAt := s.dev.now + 1 }
  .next { s with dev := d.endOpenWait c fun w => w == .mxScale }

/-! ### RECONF and DRAIN (R299) -/

/-- The kind of token that every enabled input has at its head, when they agree on RECONF or DRAIN. -/
def Site.aligned (s : Site) : Option Token :=
  match enabledInputs s.ecwNow with
  | [] => none
  | p :: rest =>
    match s.head p with
    | some t =>
      if (tokName t = .reconf ∨ tokName t = .drain) ∧ rest.all fun q => s.headName q == some (tokName t) then some t else none
    | none => none

/-- An incomplete load is discarded when B delivers the token, with ERROR.WLOAD; then the token is passed on once every command has
completed. -/
def mxAlign (d : Dev) (c n : Nat) (k : Cast) (s : Site) (m : MxSt) : Option Dev :=
  let atB := ecwIn s.ecwNow .b && (s.headName .b == some .reconf || s.headName .b == some .drain)
  if atB && m.loading then some ((d.modMat c n fun m => { m with loading := false, wl := {} }).mxError c n k 0x20)
  else
    match s.aligned with
    | none => none
    | some t =>
      if !m.cmds.isEmpty ∨ !m.rows.isEmpty ∨ !s.outq.isEmpty ∨ !k.allRoom d n ∨ (tokName t = .reconf ∧ d.argComing c n) then none
      else
        let d := (enabledInputs s.ecwNow).foldl (fun d p => d.takeHead c n p) d
        if tokName t = .drain then
          some ((d.emitAll c n drainTok).modSite c n fun s => { s with drained := true })
        else
          let ctx := field t.ctl 0 4
          some ((d.emitAll c n fun w => reconfTok w ctx).modSite c n fun s =>
            { s.applyArgs with ctx := ctx, phase := s.phase + 1 })

/-- MX_RECONF_ALIGN. -/
def execMxReconfAlign (c n : Nat) (s : State) : Res := .next { s with dev := s.dev.onMat c n (mxAlign s.dev c n) }

/-! ### The instructions (R306 to R310) -/

/-- The anchor that a site operand names: any site of an MX names its anchor. -/
def mxSiteOf (a : Word) : Nat := elementSite (field a 0 8) (field a 8 7)

/-- An MX instruction traps ARGRANGE outside the cast (R306). -/
def Dev.atMxSite (d : Dev) (sh : Shot) (k : Dev → Dev) : Dev :=
  if sh.k.inside (field sh.a 0 8) (field sh.a 8 7) then k d else d.slotTrap sh 0x0F sh.word 0

def execMxClaim (p : Pred) (a : Target) (s : State) : Res :=
  fire (.mxClaim p a) s fun d sh => d.atMxSite sh fun d =>
    let n := mxSiteOf sh.a
    let pid := sh.k.th.nextId
    (d.newId sh.c).effectWithin sh (4 + sh.k.way 0 n) fun delay =>
      .defer .plain pid a 0 false (siteLane n) false delay (.mxClaimServe sh.c pid n sh.b)

def execMxRel (p : Pred) (s : State) : Res :=
  fire (.mxRel p) s fun d sh => d.atMxSite sh fun d =>
    let n := mxSiteOf sh.a
    d.effectWithin sh (4 + sh.k.way 0 n) fun delay =>
      .issue (siteLane n) false delay (.mxRelArrive sh.c n (field sh.b 0 4))

/-- MX.SCALE (R309): at a site that is no MX the wait ends at once. -/
def execMxScale (p : Pred) (s : State) : Res :=
  fire (.mxScale p) s fun d sh => d.atMxSite sh fun d =>
    let n := mxSiteOf sh.a
    let mx := (d.anyMat sh.c n).isSome
    (d.record sh (.wait .mxScale)).effectWithin sh (if mx then 4 + sh.k.way 0 n else 0) fun delay =>
      .issue (if mx then siteLane n else 0) false delay (.mxScaleWrite sh.c n (sh.b.setWidth 32))

def execMxStat (p : Pred) (w : StatForm) (a : Target) (s : State) : Res :=
  fire (.mxStat p w a) s fun d sh => d.atMxSite sh fun d =>
    let n := mxSiteOf sh.a
    let pid := sh.k.th.nextId
    (d.newId sh.c).effectWithin sh (4 + sh.k.way 0 n) fun delay =>
      .defer .plain pid a 0 false (siteLane n) false delay (.mxStatServe sh.c pid n w (field sh.b 0 4))

end Sys2Proof.Machine
end

