-- ==== Sys2Proof/Machine/Copy.lean ====
section
/-!
DEFINITION. The copy engine (R340 to R358): its instructions, transfer records and tensor layout records, sectors, completion, and
faults with their resumption.
-/
namespace Sys2Proof.Machine

/-! ### The instructions (R342 to R345, R352, R353) -/

/-- A lower slot whose instruction satisfies a condition is not settled yet. -/
def Shot.lowerOpen (sh : Shot) (p : Instr → Bool) : Bool :=
  (sh.blk.slots.take sh.n).any fun sl => (sl.instr.map p).getD false && !sl.settled

def isCpClose : Instr → Bool
  | .cpClose .. => true
  | _ => false

def isCpPush : Instr → Bool
  | .cpPush .. => true
  | _ => false

/-- The handle is open, and no lower CP.CLOSE of the block names it (R344). -/
def Shot.chanUsable (sh : Shot) (h : Word) : Bool :=
  sh.k.chanOpen h && !(sh.blk.effects.any fun e => decide (e.1 < sh.n) && match e.2 with
    | .cpClose h' => h' == h
    | _ => false)

def execCpOpen (p : Pred) (a : Target) (s : State) : Res :=
  fire (.cpOpen p a) s fun d sh => (d.newId sh.c).effect sh (.cpOpen sh.k.th.nextId a sh.a)

def execCpClose (p : Pred) (s : State) : Res :=
  fire (.cpClose p) s fun d sh =>
    if sh.lowerOpen isCpClose then d
    else if sh.chanUsable sh.a then d.effect sh (.cpClose sh.a)
    else d.slotTrap sh 0x09 sh.a 0

/-- Entries of a channel's queue that lower CP.PUSHes of the block have reserved. -/
def Shot.reserved (sh : Shot) (h : Word) : Nat :=
  (sh.blk.effects.filter fun e => match e.2 with
    | .cpPush h' _ => chanIx h' == chanIx h
    | _ => false).length

def execCpPush (p : Pred) (s : State) : Res :=
  fire (.cpPush p) s fun d sh =>
    if sh.lowerOpen fun i => isCpClose i || isCpPush i then d
    else if !sh.chanUsable sh.a then d.slotTrap sh 0x09 sh.a 0
    else if 8 ≤ (sh.k.chans.get {} (chanIx sh.a)).queue.length + sh.reserved sh.a then d
    else if sh.b.toNat % 64 ≠ 0 then d.slotTrap sh 0x07 sh.b 0
    else d.effect sh (.cpPush sh.a sh.b)

def execCpRes (p : Pred) (act : Resume) (s : State) : Res :=
  fire (.cpRes p act) s fun d sh =>
    if sh.k.chanOpen sh.a then d.effect sh (.cpRes sh.a act) else d.slotTrap sh 0x09 sh.a 0

/-- A barrier or counter word of 16 bytes: aligned and translated when the instruction fires (R352, R146). -/
def Dev.atBarrier (m : Memory) (d : Dev) (sh : Shot) (acc : Access) (k : Dev → Placed → Dev) : Dev :=
  if sh.a.toNat % 16 ≠ 0 then d.slotTrap sh 0x07 sh.a 0
  else
    match Dev.translate m d sh.k.via sh.k.tenant sh.a acc with
    | (.error f, d) => d.slotTrap sh 0x08 sh.a (f.syndrome acc 0 sh.k.tenant) (sub := BitVec.ofNat 8 f.sub)
    | (.ok p, d) => k d p

/-- The request of a thread for an update of a barrier. -/
def Shot.barReq (sh : Shot) (p : Placed) (u : BarUpdate) : BarReq :=
  { agent := .thread sh.c, requester := sh.k.requester, tenant := sh.k.tenant, pa := p.pa, rpl := p.rpl, upd := u }

def execCpBinit (p : Pred) (s : State) : Res :=
  fire (.cpBinit p) s fun d sh => d.atBarrier s.mem sh .store fun d q =>
    d.effectWithin sh (Config.openDelay d.free) fun delay =>
      .issue 0 false delay (.barrierUpdate (sh.barReq q (.init (sh.b.setWidth 16))))

def execCpBarv (p : Pred) (o : MemOrder) (sc : Scope) (s : State) : Res :=
  fire (.cpBarv p o sc) s fun d sh => d.atBarrier s.mem sh .store fun d q =>
    d.effectWithin sh (Config.openDelay d.free) fun delay =>
      .issue 0 (MemOrder.releases o) delay (.barrierUpdate (sh.barReq q (.arrive (sh.b.setWidth 32))))

def execCpBwait (p : Pred) (o : MemOrder) (sc : Scope) (s : State) : Res :=
  fire (.cpBwait p o sc) s fun d sh => d.atBarrier s.mem sh .load fun d q =>
    d.effect sh (.wait (.cpBwait q.pa q.tid (sh.b.setWidth 16) o sc))

/-! ### Where a channel stands -/

/-- The requester id of a cast's channel (R360), which also names its port TLB (R54). -/
def Cast.chanRequester (k : Cast) (x : Chan) : Nat := 10368 + 16 * k.die + x.phys

def Cast.chanVia (k : Cast) (x : Chan) : Via := { port := some (k.chanRequester x), block := none, die := k.die }

/-- Why a record or a sector faults: subcode, virtual address and syndrome (R357). -/
structure CopyErr where
  sub  : Byte
  va   : Word := 0
  synd : Word := 0
deriving DecidableEq, Repr

/-- The faults of subcode RECORD and OWNER. -/
def CopyErr.record (addr : Word) : CopyErr := { sub := 2, va := addr }
def CopyErr.owner (a : Word) : CopyErr := { sub := 3, va := a }

/-- What an access of a channel gives: the state after it, with a value or a fault. -/
abbrev CopyRes (α : Type) := State × Except CopyErr α

/-- Bytes of global memory read by a channel. -/
def State.copyRead (s : State) (c cix : Nat) (k : Cast) (x : Chan) (va : Word) (len : Nat) : CopyRes (List Byte) :=
  match Dev.readRun s.mem s.dev (k.chanVia x) k.tenant va len (.chan c cix) with
  | (.error (va, f), d) => ({ s with dev := d }, .error { sub := 1, va := va, synd := f.syndrome .load 2 k.tenant })
  | (.ok bs, d) => ({ s with dev := d }, .ok bs)

/-- Bytes of global memory written by a channel. -/
def State.copyWrite (s : State) (c cix : Nat) (k : Cast) (x : Chan) (va : Word) (data : List Byte) : CopyRes Unit :=
  match s.writeRun (k.chanVia x) k.tenant (.chan c cix) va data with
  | (s, some (va, f)) => (s, .error { sub := 1, va := va, synd := f.syndrome .store 2 k.tenant })
  | (s, none) => (s, .ok ())

/-! ### Records (R346 to R349) -/

/-- A field of bytes as a number. -/
def bytesAt (bs : List Byte) (i n : Nat) : Nat := leNat ((bs.drop i).take n)

def recOp (r : CopyRec) : Nat := r.ctl / 2 % 8
def recSsp (r : CopyRec) : Nat := r.ctl / 16 % 4
def recDsp (r : CopyRec) : Nat := r.ctl / 64 % 4
def recScope (r : CopyRec) : Nat := r.ctl / 256 % 16

/-- A record's fields from its 64 bytes. -/
def CopyRec.parse (r : CopyRec) (bs : List Byte) : CopyRec :=
  { r with
    known := true, ctl := bytesAt bs 0 8, next := BitVec.ofNat 64 (bytesAt bs 8 8), src := BitVec.ofNat 64 (bytesAt bs 16 8)
    dst := BitVec.ofNat 64 (bytesAt bs 24 8), len := bytesAt bs 32 8, bar := BitVec.ofNat 64 (bytesAt bs 40 8)
    aux0 := bytesAt bs 48 8, aux1 := bytesAt bs 56 8 }

/-- The product of a list of extents. -/
def volume (l : List Nat) : Nat := l.foldl (fun x y => x * y) 1

/-- A tensor layout record from its 128 bytes, when it is well-formed (R349). CFG [1:0] codes 1, 2, 4 or 8 bytes. -/
def parseTile (bs : List Byte) : Option Tile :=
  let cfg := bytesAt bs 8 8
  let esz := 2 ^ (cfg % 4)
  let rank := cfg / 4 % 8
  let get := fun (dflt base step n d : Nat) => if d < rank then bytesAt bs (base + step * d) n else dflt
  let t : Tile :=
    { base := BitVec.ofNat 64 (bytesAt bs 0 8), esz := esz, rank := rank, dims := (List.range 4).map (get 1 16 4 4)
      strs := (List.range 4).map fun d => if d = 0 then esz else get 0 24 8 8 d
      box := (List.range 4).map (get 1 56 2 2), fill := bytesAt bs 64 8 }
  let size := esz * volume t.box
  if rank = 0 ∨ 4 < rank ∨ cfg / 32 ≠ 0 ∨ (List.range 56).any (fun i => bytesAt bs (72 + i) 1 != 0)
      ∨ t.box.any (fun b => b == 0 || decide (256 < b)) ∨ t.base.toNat % esz ≠ 0 ∨ t.strs.any (fun x => x % esz != 0)
      ∨ size % 32 ≠ 0 ∨ 262144 < size then none
  else some t

/-- The tile's bytes. -/
def Tile.bytes (t : Tile) : Nat := t.esz * volume t.box

/-- Fields of an MX target word (R346). -/
def targetSite (w : Word) : Nat := mxAnchor (field w 0 8) (field w 8 7)
def targetSlot (w : Word) : Nat := field w 16 4
def targetRow0 (w : Word) : Nat := field w 20 7
def targetOff (w : Word) : Nat := field w 32 18

/-- The target names an MX of the cast, and its zero fields are zero. -/
def Cast.mxTarget (k : Cast) (w : Word) : Option MxSt :=
  if !bitAt w 15 ∧ field w 27 5 = 0 ∧ field w 50 14 = 0 ∧ k.inside (field w 0 8) (field w 8 7)
      ∧ kindAt (field w 0 8) (field w 8 7) = .mx then (k.site (targetSite w)).mat?
  else none

/-- Bytes of a row in a slot's format (R351). -/
def mxRowBytes (f : Nat) : Nat := if f = 0xD then 64 else if mxTwoBeats f then 256 else 128

/-- A scratch address (R346): the handle is current and held by the thread, and the range holds the bytes. -/
def Cast.scratchOk (k : Cast) (r : CopyRec) (a : Word) (bytes : Nat) : Except CopyErr Unit :=
  match k.current (BitVec.ofNat 64 (field a 32 32)) with
  | none => .error (.record r.addr)
  | some e =>
    if e.elem then .error (.owner a) else if e.len < field a 0 32 + bytes then .error (.record r.addr) else .ok ()

/-- A source or destination range: aligned to 32 bytes, and in scratch within its range. -/
def Cast.spanOk (k : Cast) (r : CopyRec) (space : Nat) (a : Word) (bytes : Nat) : Except CopyErr Unit :=
  if space = 0 then (if a.toNat % 32 = 0 then .ok () else .error (.record r.addr))
  else if field a 0 32 % 32 = 0 then k.scratchOk r a bytes
  else .error (.record r.addr)

/-- What an operation's operands are: the sizes of its source and destination ranges, where it has them. -/
def Cast.recordSpans (k : Cast) (r : CopyRec) (size : Nat) : Except CopyErr Unit := do
  match recOp r with
  | 0 => k.spanOk r (recSsp r) r.src size; k.spanOk r (recDsp r) r.dst size
  | 1 => k.spanOk r (recDsp r) r.dst size
  | 2 => k.spanOk r (recDsp r) r.dst size
  | 3 => k.spanOk r (recSsp r) r.src size
  | 4 => k.spanOk r (recSsp r) r.src size
  | 5 => k.spanOk r (recDsp r) r.dst size
  | _ => k.spanOk r (recSsp r) r.src size

/-- The fields of a record that its bytes alone show to be malformed (R348). -/
def CopyRec.malformed (r : CopyRec) : Bool :=
  let op := recOp r
  op == 7 || decide (2 ≤ recSsp r) || decide (2 ≤ recDsp r) || decide (11 ≤ recScope r) || r.ctl / 4096 % 16 != 0 || r.ctl / 2 ^ 24 != 0
    || ((op == 2 || op == 5) && recSsp r != 0) || ((op == 3 || op == 4 || op == 6) && recDsp r != 0)
    || (if op = 2 ∨ op = 3 then r.len != 0
        else r.len == 0 || (op != 4 && (r.len % 32 != 0 || decide (2 ^ 32 < r.len))))
    || (if op = 2 ∨ op = 3 then false else if op = 4 then r.aux1 != 0 else r.aux0 != 0 || r.aux1 != 0)

/-- The checks of a record that has been read (R347 to R349): with its sectors and its tile as far as they are known, also when a check
fails, since SKIP counts all of its sectors (R358); of a tile whose layout record is malformed or cannot be read none are known. -/
def State.checkRecord (s : State) (c cix : Nat) (k : Cast) (x : Chan) (r : CopyRec) : State × CopyRec × Except CopyErr Unit :=
  let bad : Except CopyErr Unit := .error (.record r.addr)
  let sized := fun (n : Nat) => { r with sectors := n / 32 }
  if recOp r = 2 ∨ recOp r = 3 then
      let at_ := if recOp r = 2 then r.src else r.dst
      if at_.toNat % 128 ≠ 0 then (s, r, bad)
      else
        match s.copyRead c cix k x at_ 128 with
        | (s, .error e) => (s, r, if r.malformed then bad else .error e)
        | (s, .ok bs) =>
          match parseTile bs with
          | none => (s, r, bad)
          | some t => (s, { sized t.bytes with tile := some t }, if r.malformed then bad else k.recordSpans r t.bytes)
  else if recOp r = 4 then
      match k.mxTarget r.dst with
      | none => (s, r, bad)
      | some m =>
        let slot := m.slots.get {} (targetSlot r.dst)
        let bytes := r.len * mxRowBytes slot.fmt
        (s, sized bytes,
          if r.malformed || !(slot.claimed && slot.copy && !slot.relp) || decide (slot.nrows < targetRow0 r.dst + r.len) then bad
          else k.recordSpans r bytes)
  else if recOp r = 5 ∨ recOp r = 6 then
      let w := if recOp r = 5 then r.src else r.dst
      (s, sized r.len,
        if r.malformed || (k.mxTarget w).isNone || targetOff w % 32 != 0 || decide (262144 < targetOff w + r.len) then bad
        else k.recordSpans r r.len)
  else (s, sized r.len, if r.malformed then bad else k.recordSpans r r.len)

/-- A record read and checked (R347): OWN = 0 gives none. What could be read stays known when a check fails. -/
def State.loadRecord (s : State) (c cix : Nat) (k : Cast) (x : Chan) (r : CopyRec) : State × CopyRec × Except CopyErr Bool :=
  if r.addr.toNat % 64 ≠ 0 then (s, { r with ok := false, known := false }, .error (.record r.addr))
  else
    match s.copyRead c cix k x r.addr 64 with
    | (s, .error e) => (s, { r with ok := false, known := false }, .error e)
    | (s, .ok bs) =>
      let r := { r.parse bs with ok := false, tile := none, sectors := 0 }
      if r.ctl % 2 = 0 then (s, r, .ok false)
      else
        match s.checkRecord c cix k x r with
        | (s, r, .error e) => (s, r, .error e)
        | (s, r, .ok _) => (s, { r with ok := true }, .ok true)

/-! ### Sectors (R350, R351) -/

/-- The accumulator rows that a record touches, counted over the banks (R305). -/
def recRows (r : CopyRec) : Option (Nat × Nat × Nat) :=
  if recOp r = 5 ∨ recOp r = 6 then
    let w := if recOp r = 5 then r.src else r.dst
    some (targetSite w, targetOff w / 512, (targetOff w + r.len - 1) / 512)
  else none

/-- A record's key among the locks of an MX. -/
def lockKey (cix id : Nat) : Nat := 4 * id + cix

/-- A record that touches accumulator rows takes its place among the MX's commands when it begins (R305). -/
def Dev.lockRows (d : Dev) (c cix : Nat) (r : CopyRec) : Dev :=
  match recRows r with
  | none => d
  | some (n, lo, hi) => d.modMat c n fun m => { m with locks := m.locks ++ [(lockKey cix r.id, m.nextCmd, lo, hi)] }

/-- The place is given up. -/
def Dev.unlockRows (d : Dev) (c cix : Nat) (r : CopyRec) : Dev :=
  match recRows r with
  | none => d
  | some (n, _, _) => d.modMat c n fun m => { m with locks := m.locks.filter fun l => l.1 != lockKey cix r.id }

/-- A record read again keeps its place when its rows are the same; else it takes one behind the commands now accepted. -/
def Dev.relockRows (d : Dev) (c cix : Nat) (k : Cast) (old new : CopyRec) : Dev :=
  let kept : Bool := match recRows new with
    | none => false
    | some (n, lo, hi) =>
      ((k.site n).mat?.map fun m => m.locks.any fun l => l.1 == lockKey cix new.id && l.2.2.1 == lo && l.2.2.2 == hi).getD false
  if recRows old = recRows new ∧ kept then d else (d.unlockRows c cix old).lockRows c cix new

/-- Every command that came before the record has completed for the rows it touches (R305). -/
def Cast.rowsFree (k : Cast) (cix : Nat) (r : CopyRec) : Bool :=
  match recRows r with
  | none => true
  | some (n, lo, hi) =>
    match (k.site n).mat? with
    | none => true
    | some m =>
      match m.locks.find? fun l => l.1 == lockKey cix r.id with
      | none => true
      | some l => !(m.cmds.any fun x => decide (x.id < l.2.1) && mxTouches x.word lo hi)

/-- A scratch range's byte offset in its bank. -/
def Cast.scratchBase (k : Cast) (a : Word) : Option (Nat × Nat) :=
  let h : Word := BitVec.ofNat 64 (field a 32 32)
  (k.current h).map fun e => (hndSite h, e.base + field a 0 32)

/-- Thirty-two bytes of a source. -/
def State.sectorRead (s : State) (c cix : Nat) (k : Cast) (x : Chan) (r : CopyRec) (space : Nat) (a : Word) (j : Nat) : CopyRes (List Byte) :=
  if space = 0 then s.copyRead c cix k x (a + BitVec.ofNat 64 (32 * j)) 32
  else
    match k.scratchOk r a (32 * j + 32), k.scratchBase a with
    | .error e, _ => (s, .error e)
    | .ok _, none => (s, .error (.record r.addr))
    | .ok _, some (n, off) =>
      let b := ((k.site n).bank?).getD {}
      (s, .ok ((List.range 32).map fun i => b.mem.get 0 (off + 32 * j + i)))

/-- Thirty-two bytes of a destination. -/
def State.sectorWrite (s : State) (c cix : Nat) (k : Cast) (x : Chan) (r : CopyRec) (space : Nat) (a : Word) (j : Nat) (data : List Byte) :
    CopyRes Unit :=
  if space = 0 then s.copyWrite c cix k x (a + BitVec.ofNat 64 (32 * j)) data
  else
    match k.scratchOk r a (32 * j + 32), k.scratchBase a with
    | .error e, _ => (s, .error e)
    | .ok _, none => (s, .error (.record r.addr))
    | .ok _, some (n, off) =>
      ({ s with dev := s.dev.modBank c n fun b =>
          { b with mem := (data.mapIdx fun i v => (off + 32 * j + i, v)).foldl (fun t e => t.set 0 e.1 e.2) b.mem } }, .ok ())

/-- The tile coordinates C of a record, signed (R346). -/
def recCoord (r : CopyRec) (d : Nat) : Int :=
  let w : Nat := (if d < 2 then r.aux0 else r.aux1) / 2 ^ (32 * (d % 2)) % 2 ^ 32
  if w < 2 ^ 31 then Int.ofNat w else Int.ofNat w - 2 ^ 32

/-- The address of element `e` of a tile's buffer, when it lies inside the tensor (R350). -/
def Tile.element (t : Tile) (r : CopyRec) (e : Nat) : Option Word :=
  let b : Nat → Nat := fun d => t.box.getD d 1
  let i : Nat → Nat := fun d =>
    if d = 0 then e % b 0 else if d = 1 then e / b 0 % b 1 else if d = 2 then e / (b 0 * b 1) % b 2 else e / (b 0 * b 1 * b 2)
  let at_ : Nat → Int := fun d => (if d < t.rank then recCoord r d else 0) + Int.ofNat (i d)
  if (List.range t.rank).all fun d => decide (0 ≤ at_ d ∧ at_ d < (t.dims.getD d 1 : Int)) then
    some ((List.range 4).foldl (fun (a : Word) d => a + BitVec.ofInt 64 ((t.strs.getD d 0 : Int) * at_ d)) t.base)
  else none

/-- How a tile lies: OOB wholly outside, PART partly (R350). -/
def Tile.outside (t : Tile) (r : CopyRec) : Bool × Bool :=
  let span := fun (d : Nat) =>
    let lo := recCoord r d
    let hi := lo + (t.box.getD d 1 : Int)
    let n := (t.dims.getD d 1 : Int)
    (decide (min hi n ≤ max lo 0), decide (lo < 0 ∨ n < hi))
  let oob := (List.range t.rank).any fun d => (span d).1
  (oob, !oob && (List.range t.rank).any fun d => (span d).2)

/-- Elements gathered for a TLOAD sector, from element `e` on. -/
def State.gather (c cix : Nat) (k : Cast) (x : Chan) (r : CopyRec) (t : Tile) : Nat → Nat → State → CopyRes (List Byte)
  | 0, _, s => (s, .ok [])
  | n + 1, e, s =>
    match t.element r e with
    | none =>
      match State.gather c cix k x r t n (e + 1) s with
      | (s, .error f) => (s, .error f)
      | (s, .ok rest) => (s, .ok (leBytes t.esz t.fill ++ rest))
    | some va =>
      match s.copyRead c cix k x va t.esz with
      | (s, .error f) => (s, .error f)
      | (s, .ok bs) =>
        match State.gather c cix k x r t n (e + 1) s with
        | (s, .error f) => (s, .error f)
        | (s, .ok rest) => (s, .ok (bs ++ rest))

/-- Elements scattered by a TSTORE sector. -/
def State.scatter (c cix : Nat) (k : Cast) (x : Chan) (r : CopyRec) (t : Tile) (data : List Byte) : Nat → Nat → Nat → State → CopyRes Unit
  | 0, _, _, s => (s, .ok ())
  | n + 1, e, off, s =>
    match t.element r e with
    | none => State.scatter c cix k x r t data n (e + 1) (off + t.esz) s
    | some va =>
      match s.copyWrite c cix k x va ((data.drop off).take t.esz) with
      | (s, .error f) => (s, .error f)
      | (s, .ok _) => State.scatter c cix k x r t data n (e + 1) (off + t.esz) s

/-- Thirty-two bytes of a row placed in a slot; with the row's last ones its scales and its presence (R351). -/
def MxSt.placeBytes (m : MxSt) (slot row off : Nat) (data : List Byte) (finish : Option (BitVec 32)) (now : Nat) : MxSt :=
  let s := m.slots.get {} slot
  let old := (s.rows.get 0 row).toNat
  let lo := old % 2 ^ (8 * off)
  let hi := old / 2 ^ (8 * off + 256)
  let s := { s with rows := s.rows.set 0 row (BitVec.ofNat 2048 (lo + leNat data * 2 ^ (8 * off) + hi * 2 ^ (8 * off + 256))) }
  match finish with
  | none => { m with slots := m.slots.put slot s }
  | some sc => { m with slots := m.slots.put slot { s with scales := s.scales.set 0 row sc, pres := s.pres ++ [(row, now + 1)] } }

/-- Accumulator bytes as the copy engine reaches them (R305). -/
def MxSt.accBytes (m : MxSt) (off : Nat) : List Byte := (List.range 8).flatMap fun i => leBytes 4 (m.acc.get 0 (off / 4 + i))
def MxSt.setAccBytes (m : MxSt) (off : Nat) (data : List Byte) : MxSt :=
  { m with acc := (List.range 8).foldl (fun t i => t.set 0 (off / 4 + i) (bytesAt data (4 * i) 4)) m.acc }

/-- One sector of MXSLOT. -/
def State.slotSector (s : State) (c cix : Nat) (k : Cast) (x : Chan) (r : CopyRec) (j : Nat) : CopyRes Unit :=
  match k.mxTarget r.dst with
  | none => (s, .error (.record r.addr))
  | some m =>
    let slot := m.slots.get {} (targetSlot r.dst)
    let per := mxRowBytes slot.fmt / 32
    let row := j / per
    if !(slot.claimed && slot.copy) then (s, .error (.record r.addr))
    else
      match s.sectorRead c cix k x r (recSsp r) r.src j with
      | (s, .error e) => (s, .error e)
      | (s, .ok data) =>
        let put := fun (s : State) (finish : Option (BitVec 32)) =>
          ({ s with dev := s.dev.modMat c (targetSite r.dst) fun m =>
              m.placeBytes (targetSlot r.dst) (targetRow0 r.dst + row) (32 * (j % per)) data finish s.dev.now }, Except.ok ())
        if j % per + 1 < per then put s none
        else if isMx slot.fmt then
          match s.copyRead c cix k x (BitVec.ofNat 64 (r.aux0 + 4 * row)) 4 with
          | (s, .error e) => (s, .error e)
          | (s, .ok sc) => put s (some (BitVec.ofNat 32 (leNat sc)))
        else put s (some 0)

/-- One sector of a record (R347). -/
def State.sector (s : State) (c cix : Nat) (k : Cast) (x : Chan) (r : CopyRec) (j : Nat) : CopyRes Unit :=
  let write := fun (s : State) (data : List Byte) => s.sectorWrite c cix k x r (recDsp r) r.dst j data
  match recOp r with
  | 0 =>
    match s.sectorRead c cix k x r (recSsp r) r.src j with
    | (s, .error e) => (s, .error e)
    | (s, .ok data) => write s data
  | 1 => write s (leBytes 8 r.src.toNat ++ leBytes 8 r.src.toNat ++ leBytes 8 r.src.toNat ++ leBytes 8 r.src.toNat)
  | 2 =>
    match r.tile with
    | none => (s, .error (.record r.addr))
    | some t =>
      match State.gather c cix k x r t (32 / t.esz) (32 / t.esz * j) s with
      | (s, .error e) => (s, .error e)
      | (s, .ok data) => write s data
  | 3 =>
    match r.tile with
    | none => (s, .error (.record r.addr))
    | some t =>
      match s.sectorRead c cix k x r (recSsp r) r.src j with
      | (s, .error e) => (s, .error e)
      | (s, .ok data) => State.scatter c cix k x r t data (32 / t.esz) (32 / t.esz * j) 0 s
  | 4 => s.slotSector c cix k x r j
  | 5 =>
    match k.mxTarget r.src with
    | none => (s, .error (.record r.addr))
    | some m => write s (m.accBytes (targetOff r.src + 32 * j))
  | _ =>
    match s.sectorRead c cix k x r (recSsp r) r.src j with
    | (s, .error e) => (s, .error e)
    | (s, .ok data) =>
      ({ s with dev := s.dev.modMat c (targetSite r.dst) fun m => m.setAccBytes (targetOff r.dst + 32 * j) data }, .ok ())

/-! ### Faults (R357) -/

/-- A fault of a unit of a cast is queued to the thread, or posted in a small cast under AUTO (R232, R357). -/
def Dev.copyFault (d : Dev) (c : Nat) (k : Cast) (sub : Byte) (q : Quad) : Dev :=
  if 4 < k.wb * k.hb ∨ k.mould.trap then
    d.raiseAsync c { code := 0x43, sub := sub, info0 := q.w0, info1 := q.w1, info2 := q.w2, info3 := q.w3 }
  else
    d.postFault k.tenant [0x04, BitVec.ofNat 64 c, BitVec.ofNat 64 (0x43 + 256 * sub.toNat + 2 ^ 22), 0, q.w0, q.w1, q.w2, q.w3]

/-- A channel freezes at a record (R357); in a cast that is being removed nothing could resume it, and the record is given up (R341,
log entry 58). -/
def Dev.freezeChan (d : Dev) (c cix : Nat) (k : Cast) (r : CopyRec) (e : CopyErr) : Dev :=
  let q : Quad := ⟨e.va, e.synd, r.addr, BitVec.ofNat 64 (r.done % 2 ^ 32 + 2 ^ 32 * cix)⟩
  (d.modChan c cix fun x =>
    if k.leaving then Chan.settle { x with recs := x.recs.filter fun q => q.id != r.id }
    else { x with fault := some (r.id, e.sub, q), resume := none }).copyFault c k e.sub q

/-! ### The steps -/

/-- A record of a channel changed. -/
def Chan.modRec (x : Chan) (id : Nat) (f : CopyRec → CopyRec) : Chan := { x with recs := x.recs.map fun r => if r.id = id then f r else r }

/-- The next act of a channel may come an open number of clocks later. -/
def Dev.paceChan (d : Dev) (c cix : Nat) : Dev :=
  (d.modChan c cix fun x => { x with due := d.now + 1 + Config.openDelay d.free }).tickFree

/-- Every access of the thread numbered below `after` has been performed (R345). -/
def Cast.thDone (k : Cast) (after : Nat) : Bool := !(k.th.queue.any fun e => isAccess e.act && decide (e.id < after))

/-- The channel serves the resident phase (R343, R355). -/
def Cast.chanServes (k : Cast) (x : Chan) : Bool := !x.bound || x.ctx == k.th.ctx.toNat

/-- A chain can begin. -/
def Cast.canBeginChain (d : Dev) (k : Cast) (x : Chan) : Bool :=
  x.used && x.fault.isNone && x.cur.isNone && decide (x.due ≤ d.now) && k.chanServes x &&
    match x.queue with
    | [] => false
    | (_, after, late) :: _ => !(x.bound && late) && k.thDone after

/-- COPY_CHAIN_BEGIN. -/
def execCopyChainBegin (c cix : Nat) (s : State) : Res :=
  match s.dev.casts.find c with
  | none => .next s
  | some k =>
    let x := k.chans.get {} cix
    if k.canBeginChain s.dev x then
      match x.queue with
      | [] => .next s
      | (head, after, _) :: rest => .next { s with dev := s.dev.modChan c cix fun x =>
          { x with queue := rest, cur := some head, staged := after == 0 } }
    else .next s

/-- A resumption that the thread's earlier accesses no longer hold back (R358). -/
def Cast.canResume (k : Cast) (x : Chan) : Bool :=
  match x.fault, x.resume with
  | some _, some (_, after) => k.thDone after
  | _, _ => false

/-- A record can begin, or be read again. -/
def Cast.canBeginRecord (d : Dev) (k : Cast) (x : Chan) : Bool :=
  x.used && decide (x.due ≤ d.now)
    && (k.canResume x || (x.fault.isNone && x.cur.isSome && decide (x.recs.length < 8) && k.chanServes x))

/-- The frozen record read again (RETRY), or given up (SKIP); a record that had not begun gives its chain's next one. -/
def State.resumeRecord (s : State) (c cix : Nat) (k : Cast) (x : Chan) (r : CopyRec) (act : Resume) : State :=
  let clear := fun (x : Chan) => { x with fault := none, resume := none }
  match act with
  | .skip =>
    { s with dev := s.dev.modChan c cix fun x =>
      { (clear x).modRec r.id (fun q => { q with skip := true }) with
        cur := if r.begun then x.cur else if r.known && r.next != 0 then some r.next else none } }
  | .retry =>
    match s.loadRecord c cix k x r with
    | (s, r', .error e) =>
      let d := s.dev.modChan c cix fun x => (clear x).modRec r.id fun _ => r'
      let d := if recRows r = recRows r' then d else d.unlockRows c cix r
      { s with dev := d.freezeChan c cix k r' e }
    | (s, _, .ok false) =>
      let d := s.dev.modChan c cix fun x =>
        Chan.settle { clear x with recs := x.recs.filter fun q => q.id != r.id, cur := if r.begun then x.cur else none }
      { s with dev := d.unlockRows c cix r }
    | (s, r', .ok true) =>
      let d := s.dev.modChan c cix fun x =>
        { (clear x).modRec r.id (fun _ => { r' with begun := true }) with
          cur := if r.begun then x.cur else if r'.next = 0 then none else some r'.next }
      { s with dev := d.relockRows c cix k r r' }

/-- The next record of the chain read and checked; OWN = 0 ends the chain (R347). -/
def State.beginRecord (s : State) (c cix : Nat) (k : Cast) (x : Chan) (addr : Word) : State :=
  let r : CopyRec := { id := x.nextRec, addr := addr, staged := x.staged }
  match s.loadRecord c cix k x r with
  | (s, _, .ok false) => { s with dev := s.dev.modChan c cix fun x => Chan.settle { x with cur := none } }
  | (s, r, .error e) =>
    let d := s.dev.modChan c cix fun x => { x with recs := x.recs ++ [r], nextRec := x.nextRec + 1, cur := none }
    { s with dev := d.freezeChan c cix k r e }
  | (s, r, .ok true) =>
    { s with dev := (s.dev.modChan c cix fun x =>
        { x with recs := x.recs ++ [{ r with begun := true }], nextRec := x.nextRec + 1, cur := if r.next = 0 then none else some r.next }).lockRows c cix r }

/-- COPY_RECORD_BEGIN. -/
def execCopyRecordBegin (c cix : Nat) (s : State) : Res :=
  match s.dev.casts.find c with
  | none => .next s
  | some k =>
    let x := k.chans.get {} cix
    if !k.canBeginRecord s.dev x then .next s
    else
      let s := { s with dev := s.dev.paceChan c cix }
      match x.fault, x.resume with
      | some (id, _, _), some (act, _) =>
        match x.recs.find? fun r => r.id == id with
        | some r => .next (s.resumeRecord c cix k x r act)
        | none => .next { s with dev := s.dev.modChan c cix fun x => { x with fault := none, resume := none } }
      | _, _ =>
        match x.cur with
        | some addr => .next (s.beginRecord c cix k x addr)
        | none => .next s

/-- A sector of a record can be performed. -/
def Cast.canSector (d : Dev) (k : Cast) (cix : Nat) (x : Chan) (r : CopyRec) : Bool :=
  x.used && x.fault.isNone && decide (x.due ≤ d.now) && r.ok && !r.skip && decide (r.done < r.sectors) && k.rowsFree cix r

/-- COPY_SECTOR: a sector is performed whole, or not at all. -/
def execCopySector (c cix id : Nat) (s : State) : Res :=
  match s.dev.casts.find c with
  | none => .next s
  | some k =>
    let x := k.chans.get {} cix
    match x.recs.find? fun r => r.id == id with
    | none => .next s
    | some r =>
      if !k.canSector s.dev cix x r then .next s
      else
        match s.sector c cix k x r r.done with
        | (_, .error e) => .next { s with dev := (s.dev.paceChan c cix).freezeChan c cix k r e }
        | (s', .ok _) =>
          let d := (s'.dev.paceChan c cix).modChan c cix fun x => x.modRec id fun q => { q with done := q.done + 1 }
          .next { s' with dev := d.modCast c fun k => { k with progress := k.progress || k.th.inGraphWait } }

/-- The stores of a channel that some replica has still to apply (R78, R354). -/
def Dev.chanReplicas (d : Dev) (c cix : Nat) : Bool := d.unappliedOf fun a => a == .chan c cix

/-- A record can complete. -/
def Cast.canComplete (d : Dev) (c cix : Nat) (x : Chan) (r : CopyRec) : Bool :=
  x.used && x.fault.isNone && decide (x.due ≤ d.now) && (r.skip || (r.ok && decide (r.sectors ≤ r.done))) && !d.chanReplicas c cix

/-- The barrier update of a completed record goes to the home SE, once (R352, R354, R358), with how its tile lies, also when it is
skipped; the channel freezes when it cannot be translated (R357). An address that is not a multiple of 16 names no barrier (log entry
48). -/
def State.recordBarrier (s : State) (c cix : Nat) (k : Cast) (x : Chan) (r : CopyRec) : CopyRes Unit :=
  if r.barred || !r.known || r.bar == 0 || r.bar.toNat % 16 != 0 then (s, .ok ())
  else
    match Dev.translate s.mem s.dev (k.chanVia x) k.tenant r.bar .store with
    | (.error f, d) => ({ s with dev := d }, .error { sub := 1, va := r.bar, synd := f.syndrome .store 2 k.tenant })
    | (.ok p, d) =>
      let t := (r.tile.map fun t => t.outside r).getD (false, false)
      let d := (d.post (Config.openDelay d.free) (.barrierUpdate
        { agent := .chan c cix, requester := k.chanRequester x, tenant := k.tenant, pa := p.pa, rpl := p.rpl,
          upd := .complete r.sectors t.1 t.2 r.skip })).tickFree
      ({ s with dev := d.modChan c cix fun x => x.modRec r.id fun q => { q with barred := true } }, .ok ())

/-- CTL of a completed record: OWN = 0 and STATUS (R354). One that could not be read has none. -/
def State.recordStatus (s : State) (c cix : Nat) (k : Cast) (x : Chan) (r : CopyRec) : CopyRes Unit :=
  if r.known then
    s.copyWrite c cix k x r.addr (leBytes 8 (r.ctl - r.ctl % 2 - 65536 * (r.ctl / 65536 % 256) + 65536 * bit r.skip))
  else (s, .ok ())

/-- COPY_RECORD_COMPLETE: the barrier update, then CTL with OWN = 0 and STATUS (R354); the channel freezes before the one that fails
(R357). -/
def execCopyRecordComplete (c cix id : Nat) (s : State) : Res :=
  match s.dev.casts.find c with
  | none => .next s
  | some k =>
    let x := k.chans.get {} cix
    match x.recs.find? fun r => r.id == id with
    | none => .next s
    | some r =>
      if !Cast.canComplete s.dev c cix x r then .next s
      else
        let stop := fun (s : State) (e : CopyErr) => Host.Outcome.next { s with dev := (s.dev.paceChan c cix).freezeChan c cix k r e }
        match s.recordBarrier c cix k x r with
        | (s, .error e) => stop s e
        | (s, .ok _) =>
          match s.recordStatus c cix k x r with
          | (s, .error e) => stop s e
          | (s, .ok _) =>
            let gone : Chan → Chan := fun x => Chan.settle { x with recs := x.recs.filter fun q => q.id != id }
            .next { s with dev := ((s.dev.unlockRows c cix r).paceChan c cix).modChan c cix gone }

end Sys2Proof.Machine
end

