-- ==== Sys2Proof/Machine/Operators.lean ====
section
/-!
DEFINITION. The fibre stream operators (R312 to R339): the grammar check, the processes of the twelve kinds, memory through the
bound bank, SKIP, and malformations.
-/
namespace Sys2Proof.Machine

/-! ### Fibre tokens (R312) -/

def tokCrd (t : Token) : Nat := field (tokWord t) 32 32
def tokRef (t : Token) : Nat := field (tokWord t) 0 32
def tokLevel (t : Token) : Nat := field t.ctl 0 3
/-- NONE. -/
def refNone : Nat := 2 ^ 32 - 1
/-- DATA(crd, low), STOP(j), DONE. -/
def fibData (crd low : Nat) : Token := narrowTok 0 0 (BitVec.ofNat 64 (2 ^ 32 * crd + low % 2 ^ 32))
def fibStop (j : Nat) : Token := narrowTok 1 (j % 8) 0
def fibDone : Token := narrowTok 2 0 0

/-! ### Fields (R315 to R318) -/

/-- The option bit MODE[12]; SCR; the site of the bound bank; DOFF. -/
def soOpt (ecw : BitVec 128) : Bool := bitAt ecw 12
def soScr (ecw : BitVec 128) : Bool := bitAt ecw 5
def soBank (n : Nat) (ecw : BitVec 128) : Nat :=
  let x0 := siteX n / 6 * 6
  let y0 := siteY n / 6 * 6
  match field ecw 3 2 with
  | 0 => siteNo (x0 + 2) y0
  | 1 => siteNo (x0 + 4) (y0 + 2)
  | 2 => siteNo (x0 + 2) (y0 + 4)
  | _ => siteNo (x0 + 3) (y0 + 5)
def soDoff (ecw : BitVec 128) : Nat := field ecw 0 3

/-- The fields of K. -/
def kRankA (k : BitVec 32) : Nat := field k 0 4
def kRankB (k : BitVec 32) : Nat := field k 4 4
def kRop (k : BitVec 32) : Nat := field k 16 2
def kRank (k : BitVec 32) (p : InPort) : Nat :=
  match p with
  | .b => kRankB k
  | _ => kRankA k
def kOrdered (k : BitVec 32) (p : InPort) : Bool :=
  match p with
  | .b => bitAt k 9
  | _ => bitAt k 8

/-- The kind has a descriptor in this configuration: for DROP, RANGE alone has one (R318). -/
def soDescribed (ecw : BitVec 128) : Bool :=
  match ecwOp ecw with
  | 0x01 => true
  | 0x02 => true
  | 0x07 => true
  | 0x08 => true
  | 0x09 => ecwFmt ecw == 0
  | _ => false

/-- The level that the operator reads is dense (R318). R327 describes a dense LOCATE, but R318 names no bit for it: the model takes
MODE[13] (DESIGN CHOICE, log entry 27), which R315 and R319 keep at zero in every context that loads. -/
def soDense (ecw : BitVec 128) : Bool :=
  match ecwOp ecw with
  | 0x01 => soOpt ecw
  | 0x02 => bitAt ecw 13
  | _ => false

/-- The memory kinds (R318). -/
def soMemory (ecw : BitVec 128) : Bool :=
  match ecwOp ecw with
  | 0x01 => !soDense ecw
  | 0x02 => !soDense ecw
  | 0x07 => true
  | 0x08 => true
  | _ => false

/-- B is used under this ROP: by INTERSECT, UNION and REPEAT, by REDUCE with DOT, by DROP with PRED (R318). -/
def soUsesB (op rop : Nat) : Bool := op == 3 || op == 4 || op == 5 || (op == 6 && rop == 1) || (op == 9 && rop == 1)

/-- A latched K is malformed with PARAM (R316). -/
def soBadParam (ecw : BitVec 128) (k : BitVec 32) : Bool :=
  let op := ecwOp ecw
  let a := kRankA k
  let b := kRankB k
  let rop := kRop k
  let rank := match op with
    | 0x01 => decide (a ≤ 7)
    | 0x05 => decide (a ≤ 7)
    | 0x07 => decide (a ≤ 8)
    | 0x0A => decide (2 ≤ a ∧ a ≤ 8)
    | 0x0C => a == 0
    | _ => decide (1 ≤ a ∧ a ≤ 8)
  let rankB := if soUsesB op rop then b == (if op = 5 then a + 1 else a) else b == 0
  let ropOk := match op with
    | 0x06 => true
    | 0x0A => rop != 1
    | 0x09 => decide (rop ≤ 1) && (rop == 0) == (ecwFmt ecw == 0)
    | _ => rop == 0
  !(rank && rankB && ropOk && soUsesB op rop == ecwIn ecw .b && (op != 9 || rop == 1 || !ecwOut ecw .z) && field k 10 6 == 0
    && field k 18 14 == 0)

/-! ### The grammar (R313, R323) -/

/-- A token of the stream: not ERROR, RECONF or DRAIN. -/
def inStream (t : Token) : Bool := movable t

/-- A narrow token checked against a stream of rank `rank`: the subcode it fails with, or the input after it. -/
def soGrammar (rank : Nat) (ordered : Bool) (i : SoIn) (t : Token) : Except Nat SoIn :=
  let i' := { i with started := true, checked := true }
  match tokName t with
  | .index => .error 7
  | .stop =>
    let j := tokLevel t
    if rank ≤ j then .error 2
    else if i.done || i.top then .error 4
    else .ok { i' with prev := none, top := j + 1 == rank }
  | .done => if i.done then .error 4 else if i.top then .ok { i' with done := true, top := false } else .error 3
  | _ =>
    if i.done || i.top then .error 4
    else
      match i.prev with
      | some p => if ordered && decide (tokCrd t ≤ p) then .error 1 else .ok { i' with prev := some (tokCrd t), top := rank == 0 }
      | none => .ok { i' with prev := some (tokCrd t), top := rank == 0 }

/-! ### Malformations (R324, R325) -/

/-- MALF at an input: the record to the thread, once in a stream, and an ERROR token on every enabled output in place of the failing
step's (none at a RECONF or DRAIN); then SKIP. The tokens are sent as soon as their outputs have room (DEDUCED, log entry 28). -/
def Dev.malf (d : Dev) (c n sub : Nat) (p : InPort) (t : Token) (ix : Nat) : Dev :=
  match d.casts.find c with
  | none => d
  | some k =>
    let s := k.site n
    match s.op? with
    | none => d
    | some o =>
      let ecw := s.ecwNow
      let rank := (o.k.map fun w => kRank w p).getD 0
      let cause : AsyncCause :=
        { code := 0x41, sub := BitVec.ofNat 8 sub
          info0 := BitVec.ofNat 64 (k.pkgX n + 2 ^ 8 * k.pkgY n + 2 ^ 16 * siteX n + 2 ^ 24 * siteY n + 2 ^ 32 * bit (p == .b)
            + 2 ^ 33 * s.ctx + 2 ^ 35 * (ecwOp ecw % 16))
          info1 := BitVec.ofNat 64 (min ix (2 ^ 32 - 1))
          info2 := tokWord t
          info3 := BitVec.ofNat 64 (field t.ctl 5 3 + 2 ^ 3 * field t.ctl 0 3 + 2 ^ 8 * rank
            + 2 ^ 32 * (if sub = 1 then (o.inp p).prev.getD 0 else 0)) }
      let d := if o.raised then d else d.raiseAsync c cause
      let quiet := tokName t == .reconf || tokName t == .drain
      let errs := if quiet then [] else (enabledOutputs ecw).map fun out => (out, k.ownError n (outWide ecw out) 0x30 0)
      d.modSite c n fun s =>
        { s with el := .so { o.restart with skip := true, raised := true }, outq := s.outq ++ errs }

/-- A HEADER or SWAP, which a narrow link never carries. -/
def isHeader (t : Token) : Bool := tokName t == .header || tokName t == .swap

/-- What the check of an input's head is to do (R316, R322, R323): nothing, EARLYDONE of a RECONF or DRAIN, or a check. -/
inductive SoCheck where
  | none
  | early (t : Token)
  | check (t : Token)

/-- The check due at an input. -/
def Site.soCheck (s : Site) (o : SoSt) (p : InPort) : SoCheck :=
  if o.skip || o.fault.isSome then .none
  else
    match s.head p with
    | none => .none
    | some t =>
      match tokName t with
      | .reconf | .drain => if !t.wide && (o.inp p).started && !(o.inp p).done && !o.mid then .early t else .none
      | .error => .none
      | _ => if (o.inp p).checked || ((t.wide || isHeader t) && o.mid) then .none else .check t

/-- A check can be made now. -/
def Cast.canCheck (d : Dev) (k : Cast) (n : Nat) (p : InPort) : Bool :=
  let s := k.site n
  match s.op? with
  | none => false
  | some o =>
    ecwKind s.ecwNow == 3 && s.ecwNow != 0 && ecwIn s.ecwNow p && s.free d.now && s.outq.isEmpty &&
      match s.soCheck o p with
      | .none => false
      | _ => true

/-- The check of the token at an input's head; the first one of a stream latches K (R316). -/
def Dev.soTokenCheck (d : Dev) (c n : Nat) (p : InPort) : Dev :=
  match d.casts.find c with
  | none => d
  | some k =>
    if !k.canCheck d n p then d
    else
      match (k.site n).op? with
      | none => d
      | some o =>
        match (k.site n).soCheck o p with
        | .none => d
        | .early t => d.malf c n 3 p t (o.inp p).index
        | .check t =>
          let d := if o.k.isNone then d.beginFiring c n else d
          let s := ((d.casts.find c).getD k).site n
          let kk := o.k.getD s.konst
          let d := d.modOp c n fun o => { o with k := some kk }
          if o.k.isNone && soBadParam s.ecwNow kk then d.malf c n 9 p t (o.inp p).index
          else if t.wide then d.modOp c n fun o => o.modInp p fun i => { i with checked := true, started := true }
          else
            match soGrammar (kRank kk p) (kOrdered kk p) (o.inp p) t with
            | .error sub => d.malf c n sub p t (o.inp p).index
            | .ok i => d.modOp c n fun o => o.modInp p fun _ => i

/-- SO_TOKEN_CHECK. -/
def execSoTokenCheck (c n : Nat) (p : InPort) (s : State) : Res := .next { s with dev := s.dev.soTokenCheck c n p }

/-! ### The processes (R326 to R336) -/

/-- One step of a process: nothing to do yet; the takes, the tokens on Y and Z, and the state after it; a malformation; an access
of memory, with the state in which an access that a scratch range turns away leaves the operator, its output an ERROR token. -/
inductive SoPlan where
  | wait
  | step (takes : List InPort) (y z : Option Token) (st : SoSt)
  | malf (sub : Nat) (p : InPort) (t : Token) (ix : Nat)
  | read (addr : Word) (len : Nat) (takes : List InPort) (st : SoSt) (k : Nat → SoPlan)
  | write (addr : Word) (len : Nat) (v : Nat) (next : SoPlan)

/-- A checked token at an input's head. -/
def Site.soHead (s : Site) (o : SoSt) (p : InPort) : Option Token :=
  match s.head p with
  | some t => if inStream t && (o.inp p).checked then some t else none
  | none => none

/-- Two tokens are of one kind and level. -/
def sameShape (a b : Token) : Bool := tokName a == tokName b && tokLevel a == tokLevel b

/-- Element `e` of an array whose elements have `w` bytes. -/
def elementAt (base : Word) (w e : Nat) : Word := base + BitVec.ofNat 64 (w * e)

/-- The value of a value token (R312). -/
def valCode (f : Nat) (t : Token) : Nat := tokRef t % 2 ^ fmtWidth f

/-- A code whose value is a zero. -/
def zeroCode (f c : Nat) : Bool :=
  match decVal f false c with
  | .zero _ => true
  | _ => false

/-- The binary search of LOCATE (R327) between `lo` and `hi`; it reads one coordinate at each turn. -/
def locateSearch (crds : Word) (c e : Nat) (fail : SoSt) (found : Option Nat → SoPlan) : Nat → Nat → Nat → SoPlan
  | 0, _, _ => found none
  | fuel + 1, lo, hi =>
    if lo < hi then
      let mid := (lo + hi) / 2
      .read (elementAt crds 4 mid) 4 [] fail fun v =>
        if v < c then locateSearch crds c e fail found fuel (mid + 1) hi else locateSearch crds c e fail found fuel lo mid
    else if lo < e then .read (elementAt crds 4 lo) 4 [] fail fun v => if v = c then found (some lo) else found none
    else found none

/-- SCAN (R326). -/
def soScan (ecw : BitVec 128) (o : SoSt) (a : Option Token) : SoPlan :=
  let base := { o with pos := .start }
  let tail := { o with pos := .tail }
  let n := field o.pr.w0 0 32
  let dense := fun (takes : List InPort) (t : Token) (i : Nat) =>
    SoPlan.step takes (some (fibData i ((tokRef t * n + i) % 2 ^ 32))) none (if i + 1 < n then { o with pos := .dense t (i + 1) } else tail)
  let element := fun (t : Token) (ix q hi : Nat) =>
    let after := if q + 1 < hi then { o with pos := .run t ix (q + 1) hi } else tail
    SoPlan.read (elementAt o.pr.w1 4 q) 4 [] after fun v => .step [] (some (fibData v q)) none after
  match o.pos with
  | .start =>
    match a with
    | none => .wait
    | some t =>
      match tokName t with
      | .stop => .step [.a] (some (fibStop (tokLevel t + 1))) none base
      | .done => .step [.a] (some fibDone) none base
      | _ =>
        if tokRef t = refNone then .step [.a] none none tail
        else if soDense ecw then (if n = 0 then .step [.a] none none tail else dense [.a] t 0)
        else .step [.a] none none { o with pos := .fetch t o.a.index }
  | .fetch t ix =>
    .read (elementAt o.pr.w0 4 (tokRef t)) 4 [] tail fun lo =>
      .read (elementAt o.pr.w0 4 (tokRef t + 1)) 4 [] tail fun hi =>
        if hi < lo then
          (if o.zeros.contains (elementAt o.pr.w0 4 (tokRef t + 1)) then .step [] none none tail else .malf 6 .a t ix)
        else if lo = hi then .step [] none none tail
        else element t ix lo hi
  | .run t ix q hi => element t ix q hi
  | .dense t i => dense [] t i
  | _ =>
    match a with
    | none => .wait
    | some u =>
      if tokName u = .stop then .step [.a] (some (fibStop (tokLevel u + 1))) none base else .step [] (some (fibStop 0)) none base

/-- LOCATE (R327). -/
def soLocate (ecw : BitVec 128) (o : SoSt) (a : Option Token) : SoPlan :=
  let base := { o with pos := .start }
  let out := fun (takes : List InPort) (t : Token) (q : Option Nat) =>
    match q with
    | some q => SoPlan.step takes (some (fibData (tokCrd t) q)) none base
    | none => SoPlan.step takes (if soOpt ecw then some (fibData (tokCrd t) refNone) else none) none base
  match o.pos with
  | .fetch t ix =>
    .read (elementAt o.pr.w0 4 (tokRef t)) 4 [] base fun lo =>
      .read (elementAt o.pr.w0 4 (tokRef t + 1)) 4 [] base fun hi =>
        if hi < lo then
          (if o.zeros.contains (elementAt o.pr.w0 4 (tokRef t + 1)) then out [] t none else .malf 6 .a t ix)
        else locateSearch o.pr.w1 (tokCrd t) hi base (out [] t) 34 lo hi
  | _ =>
    match a with
    | none => .wait
    | some t =>
      if tokName t = .stop ∨ tokName t = .done then .step [.a] (some t) none base
      else if tokRef t = refNone then out [.a] t none
      else if soDense ecw then
        let n := field o.pr.w0 0 32
        out [.a] t (if tokCrd t < n then some ((tokRef t * n + tokCrd t) % 2 ^ 32) else none)
      else .step [.a] none none { o with pos := .fetch t o.a.index }

/-- INTERSECT and UNION (R328). -/
def soMerge (ecw : BitVec 128) (o : SoSt) (a b : Option Token) : SoPlan :=
  let union := ecwOp ecw == 4
  let out := fun (takes : List InPort) (y z : Token) =>
    SoPlan.step takes (some y) (if ecwOut ecw .z then some z else none) o
  let only := fun (p : InPort) (y z : Token) => if union then out [p] y z else SoPlan.step [p] none none o
  match a, b with
  | some a, some b =>
    let onlyA := only .a (fibData (tokCrd a) (tokRef a)) (fibData (tokCrd a) refNone)
    let onlyB := only .b (fibData (tokCrd b) refNone) (fibData (tokCrd b) (tokRef b))
    if tokName a = .data ∧ tokName b = .data then
      if tokCrd a = tokCrd b then out [.a, .b] (fibData (tokCrd a) (tokRef a)) (fibData (tokCrd b) (tokRef b))
      else if tokCrd a < tokCrd b then onlyA
      else onlyB
    else if tokName a = .data then onlyA
    else if tokName b = .data then onlyB
    else if sameShape a b then out [.a, .b] a a
    else .malf 5 .a a o.a.index
  | _, _ => .wait

/-- REPEAT (R329). -/
def soRepeat (o : SoSt) (a b : Option Token) : SoPlan :=
  let base := { o with pos := .start }
  match o.pos, a, b with
  | .second j, some a, some _ =>
    if tokName a = .stop ∧ tokLevel a + 1 = j then .step [.a, .b] (some (fibStop j)) none base else .malf 5 .a a o.a.index
  | .start, some a, some b =>
    match tokName b with
    | .stop =>
      if tokLevel b = 0 then
        if tokName a = .data then .step [.a, .b] (some (fibStop 0)) none base else .malf 5 .a a o.a.index
      else if tokName a = .data then .step [.a] none none { o with pos := .second (tokLevel b) }
      else if tokName a = .stop ∧ tokLevel a + 1 = tokLevel b then .step [.a, .b] (some (fibStop (tokLevel b))) none base
      else .malf 5 .a a o.a.index
    | .done => if tokName a = .done then .step [.a, .b] (some fibDone) none base else .malf 5 .a a o.a.index
    | _ => if tokName a = .data then .step [.b] (some (fibData (tokCrd b) (tokRef a))) none base else .malf 5 .a a o.a.index
  | _, _, _ => .wait

/-- The configuration word as the fold's: ADD, MADD, MAX or MIN into an accumulator (R330, R279). -/
def foldEcw (ecw : BitVec 128) (op : Nat) : BitVec 128 := (ecw &&& ~~~ (BitVec.ofNat 128 (0xFF * 2 ^ 20))) ||| BitVec.ofNat 128 (2 ^ 20 * op)
def foldOp (rop : Nat) : Nat :=
  match rop with
  | 0 => 0x60
  | 1 => 0x63
  | 2 => 0x61
  | _ => 0x62

/-- One value folded into an accumulator; none while no value has been (R330, R334). -/
def soFold (ecw : BitVec 128) (rop : Nat) (acc : Option Nat) (x y : Nat) : Nat := (veAccLane (foldEcw ecw (foldOp rop)) acc x y).1

/-- OUT (R330). -/
def soOut (ecw : BitVec 128) (acc : Option Nat) : Nat := (veAccOut ecw (acc.getD 0)).1

/-- REDUCE (R330). -/
def soReduce (ecw : BitVec 128) (o : SoSt) (k : BitVec 32) (a b : Option Token) : SoPlan :=
  let f := ecwFmt ecw
  let dot := kRop k == 1
  let both : List InPort := if dot then [.a, .b] else [.a]
  let fresh := { o with pos := .start, acc := none, n := 0 }
  match a, (if dot then b else a) with
  | some a, some b =>
    if !sameShape a b then .malf 5 .a a o.a.index
    else
      match tokName a with
      | .stop =>
        match o.pos with
        | .closing => .step both (some (fibStop (tokLevel a - 1))) none fresh
        | _ =>
          let v := fibData 0 (soOut ecw o.acc)
          if tokLevel a = 0 then .step both (some v) none fresh else .step [] (some v) none { o with pos := .closing }
      | .done => .step both (some fibDone) none fresh
      | _ => .step both none none { o with acc := some (soFold ecw (kRop k) o.acc (valCode f a) (valCode f b)) }
  | _, _ => .wait

/-- VALUES (R331). -/
def soValues (ecw : BitVec 128) (o : SoSt) (a : Option Token) : SoPlan :=
  let w := fmtWidth (ecwFmt ecw) / 8
  match a with
  | none => .wait
  | some t =>
    if tokName t = .stop ∨ tokName t = .done then .step [.a] (some t) none o
    else if tokRef t = refNone then .step [.a] (some (fibData (tokCrd t) 0)) none o
    else .read (elementAt o.pr.w0 w (tokRef t)) w [.a] o fun v => .step [.a] (some (fibData (tokCrd t) v)) none o

/-- EMIT (R332). -/
def soEmit (ecw : BitVec 128) (o : SoSt) (a : Option Token) : SoPlan :=
  let vals := soOpt ecw
  let w := fmtWidth (ecwFmt ecw) / 8
  let first := fun (p : SoPlan) => if !vals && o.first then SoPlan.write o.pr.w0 4 0 p else p
  let o' := { o with first := false }
  match o.pos, a with
  | .emit (t :: _), _ => .step [] (some t) none { o' with pos := .start }
  | _, none => .wait
  | _, some t =>
    first <|
      match tokName t with
      | .stop =>
        let next := SoPlan.step [.a] none none { o' with f := o.f + 1 }
        if vals then next else .write (elementAt o.pr.w0 4 (o.f + 1)) 4 (o.q % 2 ^ 32) next
      | .done =>
        if ecwOut ecw .y then .step [.a] (some (fibData o.f o.q)) none { o' with pos := .emit [fibDone] }
        else .step [.a] none none o'
      | _ =>
        let next := SoPlan.step [.a] none none { o' with q := o.q + 1 }
        if vals then .write (elementAt o.pr.w0 w o.q) w (valCode (ecwFmt ecw) t) next
        else .write (elementAt o.pr.w1 4 o.q) 4 (tokCrd t) next

/-- DROP (R333). -/
def soDrop (ecw : BitVec 128) (o : SoSt) (k : BitVec 32) (a b : Option Token) : SoPlan :=
  if kRop k = 0 then
    match a with
    | none => .wait
    | some t =>
      if tokName t = .data then
        if field o.pr.w0 0 32 ≤ tokCrd t ∧ tokCrd t < field o.pr.w0 32 32 then .step [.a] (some t) none o else .step [.a] none none o
      else .step [.a] (some t) none o
  else
    match a, b with
    | some a, some b =>
      if !sameShape a b then .malf 5 .b b o.b.index
      else if tokName a = .data ∧ zeroCode (ecwFmt ecw) (valCode (ecwFmt ecw) b) then .step [.a, .b] none none o
      else .step [.a, .b] (some a) (if ecwOut ecw .z then some b else none) o
    | _, _ => .wait

/-- SPACC (R334); a table stands in ascending crd. -/
def soSpacc (ecw : BitVec 128) (o : SoSt) (k : BitVec 32) (a : Option Token) : SoPlan :=
  let f := ecwFmt ecw
  match o.pos, a with
  | .emit (t :: rest), _ => .step [] (some t) none { o with pos := if rest.isEmpty then .start else .emit rest }
  | _, none => .wait
  | _, some t =>
    match tokName t with
    | .stop =>
      if tokLevel t = 0 then .step [.a] none none o
      else
        match (o.table.map fun e => fibData e.1 (soOut ecw (some e.2))) ++ [fibStop (tokLevel t - 1)] with
        | y :: rest => .step [.a] (some y) none { o with table := [], pos := if rest.isEmpty then .start else .emit rest }
        | [] => .wait
    | .done => .step [.a] (some fibDone) none o
    | _ =>
      match o.table.find (tokCrd t) with
      | some acc => .step [.a] none none { o with table := o.table.put (tokCrd t) (soFold ecw (kRop k) (some acc) (valCode f t) 0) }
      | none =>
        if 4096 ≤ o.table.length then .malf 8 .a t o.a.index
        else .step [.a] none none { o with table := o.table.put (tokCrd t) (soFold ecw 2 none (valCode f t) 0) }

/-- A beat of BUNDLE with its count on Z (R335). -/
def bundleBeat (ecw : BitVec 128) (last : Bool) (codes : List Nat) : Token × Option Token :=
  (wideTok (bit last) 0 (packLanes (fmtWidth (ecwFmt ecw)) codes) 0, if ecwOut ecw .z then some (fibData 0 codes.length) else none)

/-- BUNDLE (R335). -/
def soBundle (ecw : BitVec 128) (o : SoSt) (a : Option Token) : SoPlan :=
  let f := ecwFmt ecw
  let send := fun (last : Bool) (codes : List Nat) =>
    let r := bundleBeat ecw last codes
    SoPlan.step [.a] (some r.1) r.2 { o with part := [] }
  match a with
  | none => .wait
  | some t =>
    match tokName t with
    | .stop => if soOpt ecw && !o.part.isEmpty then send false o.part else .step [.a] none none o
    | .done => send true o.part
    | _ =>
      let codes := o.part ++ [valCode f t]
      if codes.length = perWide f then send false codes else .step [.a] none none { o with part := codes }

/-- SPLAT (R336): `n` counts the elements of the stream, `q` those of the beat at the head. -/
def soSplat (ecw : BitVec 128) (o : SoSt) (a : Option Token) : SoPlan :=
  let f := ecwFmt ecw
  match o.pos, a with
  | .emit (t :: rest), _ =>
    .step [] (some t) none (if rest.isEmpty then o.nextStream else { o with pos := .emit rest })
  | _, none => .wait
  | _, some t =>
    let code := field t.data (fmtWidth f * o.q) (fmtWidth f)
    let y := if soOpt ecw && zeroCode f code then none else some (fibData (o.n % 2 ^ 32) code)
    let o' := { o with n := o.n + 1 }
    if o.q + 1 < perWide f then .step [] y none { o' with q := o.q + 1 }
    else if tokName t = .last then .step [.a] y none { o' with q := 0, pos := .emit [fibStop 0, fibDone] }
    else .step [.a] y none { o' with q := 0 }

/-- The next step of a site's operator. -/
def Site.soPlan (s : Site) (o : SoSt) (k : BitVec 32) : SoPlan :=
  let ecw := s.ecwNow
  let a := s.soHead o .a
  let b := s.soHead o .b
  match ecwOp ecw with
  | 0x01 => soScan ecw o a
  | 0x02 => soLocate ecw o a
  | 0x03 => soMerge ecw o a b
  | 0x04 => soMerge ecw o a b
  | 0x05 => soRepeat o a b
  | 0x06 => soReduce ecw o k a b
  | 0x07 => soValues ecw o a
  | 0x08 => soEmit ecw o a
  | 0x09 => soDrop ecw o k a b
  | 0x0A => soSpacc ecw o k a
  | 0x0B => soBundle ecw o a
  | 0x0C => soSplat ecw o a
  | _ => .wait

/-! ### Memory through the bound bank (R337, R338) -/

/-- What an access gives: a value; an ERROR subcode of the scratch checks; the subcode and syndrome with which the operator freezes. -/
inductive SoMem where
  | value (v : Nat)
  | denied (sub : Nat)
  | frozen (sub : Byte) (synd : Word)

/-- A scratch access by offset (R223, R224, R337); `w` is the value written, if one is. -/
def Dev.soScratch (d : Dev) (c n : Nat) (k : Cast) (o : SoSt) (addr : Word) (len : Nat) (w : Option Nat) : Dev × SoMem :=
  let s := k.site n
  let bank := soBank n s.ecwNow
  match (k.site bank).bank? with
  | none => (d, .denied 0x31)
  | some b =>
    let h := field o.pr.w3 0 4
    let e := b.hnd.get {} h
    let off := addr.toNat
    if !(e.used && e.elem) then (d, .denied 0x31)
    else if off % len ≠ 0 then (d, .denied 0x32)
    else
      let inRange := fun i => decide (off + i < e.len)
      let d := if (List.range len).all inRange then d
        else d.modTh c fun t =>
          t.outOfRange (BitVec.ofNat 64 (off % 2 ^ 32 + 2 ^ 32 * h + 2 ^ 36 * siteX bank + 2 ^ 44 * siteY bank + 2 ^ 52 * s.ctx + 2 ^ 54
            + 2 ^ 55 * bit w.isSome))
      match w with
      | some v =>
        (d.modBank c bank fun b => { b with mem := (List.range len).foldl (fun t i =>
          if inRange i then t.set 0 (e.base + off + i) (BitVec.ofNat 8 (v / 256 ^ i)) else t) b.mem }, .value 0)
      | none =>
        (d, .value (leNat ((List.range len).map fun i => if inRange i then b.mem.get 0 (e.base + off + i) else 0)))

/-- An access of an operator: by offset under SCR, else by virtual address through the bank's port; an address that PORT.RES.SKIP
has passed over reads as zero, and a write there is dropped. -/
def State.soAccess (s : State) (c n : Nat) (k : Cast) (o : SoSt) (addr : Word) (len : Nat) (w : Option Nat) : State × SoMem :=
  let bank := soBank n (k.site n).ecwNow
  if soScr (k.site n).ecwNow then
    let r := s.dev.soScratch c n k o addr len w
    ({ s with dev := r.1 }, r.2)
  else if o.zeros.contains addr then (s, .value 0)
  else if addr.toNat % len ≠ 0 then (s, .frozen 2 0)
  else
    let acc := if w.isSome then Access.store else Access.load
    match Dev.translate s.mem s.dev (k.portVia bank) k.tenant addr acc with
    | (.error f, d) => ({ s with dev := d }, .frozen 1 (f.syndrome acc 1 k.tenant))
    | (.ok p, d) =>
      match w with
      | some v =>
        (State.perform { s with dev := d } { agent := .port c bank, tenant := k.tenant, pa := p.pa, write := true, len := len,
                                             data := leBytes len v, rpl := p.rpl, id := 0 }, .value 0)
      | none =>
        let r := Dev.readOwn s.mem d (.port c bank) p.tid p (k.siteDie bank) len
        ({ s with dev := r.2 }, .value (leNat r.1))

/-- The check of a write before any write of its step is made (R338: a step that freezes is not performed). -/
def State.soProbe (s : State) (n : Nat) (k : Cast) (o : SoSt) (addr : Word) (len : Nat) : State × Option (Byte × Word) :=
  if soScr (k.site n).ecwNow || o.zeros.contains addr then (s, none)
  else if addr.toNat % len ≠ 0 then (s, some (2, 0))
  else
    match Dev.translate s.mem s.dev (k.portVia (soBank n (k.site n).ecwNow)) k.tenant addr .store with
    | (.error f, d) => ({ s with dev := d }, some (1, f.syndrome .store 1 k.tenant))
    | (.ok _, d) => ({ s with dev := d }, none)

/-- The writes of a step made in order; one that a scratch range turns away leaves its subcode (R337). -/
def State.soWrites (c n : Nat) (k : Cast) (o : SoSt) : List (Word × Nat × Nat) → State → Option Nat → State × Option Nat
  | [], s, bad => (s, bad)
  | (addr, len, v) :: rest, s, bad =>
    match s.soAccess c n k o addr len (some v) with
    | (s, .denied sub) => State.soWrites c n k o rest s (bad.or (some sub))
    | (s, _) => State.soWrites c n k o rest s bad

/-- How a plan ends: it waits; a read is issued; it takes and emits, its writes made and the reads listed left over; it is malformed; or
it freezes at an access. -/
inductive SoEnd where
  | wait
  | issued (r : SoRead)
  | step (takes : List InPort) (y z : Option Token) (st : SoSt) (reads : List SoRead)
  | malf (sub : Nat) (p : InPort) (t : Token) (ix : Nat)
  | frozen (sub : Byte) (va synd : Word) (wr : Bool)

/-- A plan carried out: reads take the replies of those issued, in order, and the first one without is issued; writes stand in `ws` until
the step is sure to be made. -/
def SoPlan.run (c n : Nat) (k : Cast) (o : SoSt) : SoPlan → List SoRead → List (Word × Nat × Nat) → State → State × SoEnd
  | .wait, _, _, s => (s, .wait)
  | .step takes y z st, reads, ws, s =>
    match State.soWrites c n k o ws s none with
    | (s, none) => (s, .step takes y z st reads)
    | (s, some sub) => (s, .step takes (if ecwOut (k.site n).ecwNow .y then some (k.ownError n false sub 0) else none) z st reads)
  | .malf sub p t ix, _, _, s => (s, .malf sub p t ix)
  | .read addr len takes st next, reads, ws, s =>
    if o.zeros.contains addr then SoPlan.run c n k o (next 0) reads ws s
    else
      match reads with
      | r :: rest => if r.due ≤ s.dev.now then SoPlan.run c n k o (next r.val) rest ws s else (s, .wait)
      | [] =>
        match s.soAccess c n k o addr len none with
        | (s, .value v) => (s, .issued { addr := addr, val := v, due := s.dev.now + 1 + Config.openDelay s.dev.free, issued := s.dev.now })
        | (s, .denied sub) => (s, .step takes (some (k.ownError n false sub 0)) none st [])
        | (s, .frozen sub synd) => (s, .frozen sub addr synd false)
  | .write addr len v next, reads, ws, s =>
    match s.soProbe n k o addr len with
    | (s, some (sub, synd)) => (s, .frozen sub addr synd true)
    | (s, none) => SoPlan.run c n k o next reads (ws ++ [(addr, len, v)]) s

/-- The next coordinate that SCAN may read ahead of its step (R320): at most 64 reads are outstanding. -/
def SoSt.ahead (o : SoSt) (ecw : BitVec 128) : Option Word :=
  match o.pos with
  | .run _ _ q hi =>
    if ecwOp ecw = 1 ∧ o.zeros.isEmpty ∧ 0 < o.reads.length ∧ o.reads.length < 64 ∧ q + o.reads.length < hi then
      some (elementAt o.pr.w1 4 (q + o.reads.length))
    else none
  | _ => none

/-- A read issued. -/
def State.soIssue (s : State) (c n : Nat) (r : SoRead) : State :=
  { s with dev := s.dev.tickFree.modOp c n fun o => { o with reads := o.reads ++ [r] } }

/-- A read made ahead of its step; one that cannot be made waits for the step. -/
def State.soAhead (s : State) (c n : Nat) (k : Cast) (o : SoSt) : Option State :=
  (o.ahead (k.site n).ecwNow).bind fun addr =>
    match s.soAccess c n k o addr 4 none with
    | (s, .value v) => some (s.soIssue c n { addr := addr, val := v, due := s.dev.now + 1 + Config.openDelay s.dev.free, issued := s.dev.now })
    | _ => none

/-! ### Steps (R320, R322) -/

/-- A step's takes. -/
def Dev.soTake (d : Dev) (c n : Nat) (takes : List InPort) : Dev :=
  takes.foldl (fun d p => (d.takeHead c n p).modOp c n fun o => o.modInp p SoIn.taken) d

/-- Every enabled input has delivered its DONE. -/
def SoSt.allDone (o : SoSt) (ecw : BitVec 128) : Bool := (enabledInputs ecw).all fun p => (o.inp p).done

/-- The inputs whose head SKIP consumes. -/
def Site.skippable (s : Site) : List InPort :=
  (enabledInputs s.ecwNow).filter fun p => ((s.head p).map movable).getD false

/-- What an operator emits when it leaves SKIP after DONE (R322, R335). -/
def skipEnd (ecw : BitVec 128) : List (OutPort × Token) :=
  (enabledOutputs ecw).map fun out =>
    if ecwOp ecw = 0x0B then (match out with
      | .y => (out, wideTok 1 0 0 0)
      | .z => (out, fibData 0 0))
    else (out, fibDone)

/-- A clock in SKIP: one token of each input is consumed; with the last DONE the operator leaves SKIP. At the wide input of SPLAT a
LAST ends the stream. -/
def Dev.soSkip (d : Dev) (c n : Nat) (s : Site) : Dev :=
  let ends := fun (p : InPort) => match s.head p with
    | some t => tokName t == (if t.wide then TKind.last else TKind.done)
    | none => false
  let d := s.skippable.foldl (fun d p =>
    (d.takeHead c n p).modOp c n fun o => o.modInp p fun i => { i.taken with done := i.done || ends p }) d
  (d.modSite c n fun s =>
    match s.el with
    | .so o =>
      if o.allDone s.ecwNow then
        { s with el := .so (if ecwOp s.ecwNow = 0x0C then o.nextStream else { o.restart with skip := false })
                 outq := s.outq ++ skipEnd s.ecwNow }
      else s
    | _ => s).useClock c n

/-- A token at SPLAT's wide input that is consumed alone, in its turn: HEADER and SWAP (R322). -/
def Site.soAlone (s : Site) (o : SoSt) : Option Token :=
  if ecwOp s.ecwNow = 0x0C ∧ !o.mid then (s.head .a).filter fun t => isHeader t && o.a.checked else none

/-- The fault record of an operator (R338). -/
def soFault (s : Site) (n : Nat) (o : SoSt) (sub : Byte) (va synd : Word) (wr : Bool) : PortFault :=
  let ix := match o.pos with
    | .fetch _ ix => ix
    | .run _ ix _ _ => ix
    | _ => o.a.index
  { sub := sub
    info := ⟨va, synd, BitVec.ofNat 64 (siteX n + 2 ^ 8 * siteY n + 2 ^ 16 * s.ctx + 2 ^ 18 * 5 + 2 ^ 22 * bit wr),
      BitVec.ofNat 64 (ix % 2 ^ 32)⟩ }

/-- The operator may act at all in this clock. -/
def Site.soOpen (s : Site) (o : SoSt) (now : Nat) : Bool :=
  ecwKind s.ecwNow == 3 && s.ecwNow != 0 && o.fault.isNone && s.free now && s.outq.isEmpty
    && (o.latched || !soDescribed s.ecwNow)

/-- The process's step is made, or its next read issued, if it can be. -/
def State.soProcess (s : State) (c n : Nat) (k : Cast) (o : SoSt) : Option State :=
  let site := k.site n
  match o.k with
  | none => none
  | some kk =>
    if !k.mayFire n s.dev.now || (site.errorHead.isSome && !o.mid) then none
    else
      let o := if site.skip then { o with zeros := o.faultVa :: o.zeros } else o
      match SoPlan.run c n k o (site.soPlan o kk) o.reads [] s with
      | (_, .wait) => s.soAhead c n k o
      | (s', .issued r) => if k.mayLoad n then some (s'.soIssue c n r) else none
      | (s', .malf sub p t ix) => some { s' with dev := s'.dev.malf c n sub p t ix }
      | (s', .frozen sub va synd wr) =>
        let f := soFault site n o sub va synd wr
        let d := s'.dev.modSite c n fun x => { x with skip := false, el := .so { o with fault := some f, faultVa := va } }
        some { s' with dev := d.portFault c k f }
      | (s', .step takes y z st reads) =>
        if k.roomFor s.dev n .y y && k.roomFor s.dev n .z z then
          let d := s'.dev.beginFiring c n
          let d := d.modSite c n fun x => { x with skip := false, el := .so { st with zeros := [], reads := reads } }
          some { s' with dev := (((d.soTake c n takes).emitOpt c n .y 0 y).emitOpt c n .z 0 z).endFiring c n }
        else s.soAhead c n k o

/-- One action of an operator, when it can act. -/
def State.soAct (s : State) (c n : Nat) : Option State :=
  match s.dev.casts.find c with
  | none => none
  | some k =>
    let site := k.site n
    match site.op? with
    | none => none
    | some o =>
      if !site.soOpen o s.dev.now then none
      else
        match (if isEmit site.ecwNow && !o.mid then site.errorHead else none) with
        | some (p, t) =>
          let d := (((s.dev.takeHead c n p).portErrtok c n (tokWord t)).modSite c n fun x => { x with el := x.el.errored p }).useClock c n
          some { s with dev := d }
        | none =>
          if o.skip then (if site.skippable.isEmpty then none else some { s with dev := s.dev.soSkip c n site })
          else
            match site.soAlone o with
            | some t =>
              let bad := tokName t == .header && field t.ctl 8 4 != ecwFmt site.ecwNow
              if bad && !k.room s.dev n .y false then none
              else
                let d := (s.dev.takeHead c n .a).modOp c n fun o => o.modInp .a SoIn.taken
                let d := if bad then d.emit c n .y 0 (k.ownError n false 0x13 0) else d
                some { s with dev := d.useClock c n }
            | none => s.soProcess c n k o

/-- SO_STEP. -/
def execSoStep (c n : Nat) (s : State) : Res := .next ((s.soAct c n).getD s)

end Sys2Proof.Machine
end

