-- ==== Sys2Proof/Machine/Stream.lean ====
section
/-!
DEFINITION. Fabric commands of a control thread (R147 to R157) and WAIT.TOK (R168).
-/
namespace Sys2Proof.Machine

/-- STRM.GO and CTX.SW trap ARMBUSY while the armature runs (R151, R155). -/
def Dev.unlessRunning (d : Dev) (sh : Shot) (k : Dev → Dev) : Dev :=
  if sh.k.th.armst = 1 then d.slotTrap sh 0x0E sh.word 0 else k d

def execStrmGo (p : Pred) (s : State) : Res :=
  fire (.strmGo p) s fun d sh => d.unlessRunning sh fun d => d.effect sh .go

/-- A push reserves an entry of its channel's FIFO when it fires, in slot order (R152; DEDUCED, log entry 121); without one it waits. -/
def firePush (i : Instr) (ch : BitVec 3) (tok : Word → Token) (s : State) : Res :=
  fire i s fun d sh =>
    if d.held s.mem sh.k sh.blk sh.n i sh.a sh.b then d else d.effect sh (.push ch.toNat (tok sh.a))

def execStrmPushData (p : Pred) (ch : BitVec 3) (s : State) : Res := firePush (.strmPushData p ch) ch (narrowTok 0 0) s
def execStrmPushIndex (p : Pred) (ch : BitVec 3) (s : State) : Res := firePush (.strmPushIndex p ch) ch (narrowTok 3 0) s
def execStrmPushStop (p : Pred) (lvl ch : BitVec 3) (s : State) : Res :=
  firePush (.strmPushStop p lvl ch) ch (fun _ => narrowTok 1 lvl.toNat 0) s
def execStrmPushDone (p : Pred) (ch : BitVec 3) (s : State) : Res := firePush (.strmPushDone p ch) ch (fun _ => narrowTok 2 0 0) s

/-- STRM.POP does not fire beyond sixteen outstanding pops (R153). -/
def execStrmPop (p : Pred) (ch : BitVec 3) (b a : Target) (s : State) : Res :=
  fire (.strmPop p ch b a) s fun d sh =>
    if d.held s.mem sh.k sh.blk sh.n (.strmPop p ch b a) sh.a sh.b then d
    else (d.newId sh.c).effect sh (.pop sh.k.th.nextId ch.toNat a b)

def execArgSet (p : Pred) (ctx : BitVec 2) (y : BitVec 7) (x : BitVec 8) (s : State) : Res :=
  fire (.argSet p ctx y x) s fun d sh =>
    if sh.k.inside x.toNat y.toNat then
      (d.tickFree).effect sh
        (.argSet (elementSite x.toNat y.toNat) ctx.toNat (sh.a.setWidth 32) (d.delay (4 + sh.k.way 0 (siteNo x.toNat y.toNat))))
    else d.slotTrap sh 0x0F sh.word 0

def execCtxSw (p : Pred) (ctx : BitVec 2) (s : State) : Res :=
  fire (.ctxSw p ctx) s fun d sh => d.unlessRunning sh fun d => d.effect sh (.wait (.ctxSw ctx.toNat))

def execDrain (p : Pred) (s : State) : Res := fire (.drain p) s fun d sh => d.effect sh (.wait (.drain false))

def execStrmWait (p : Pred) (s : State) : Res := fire (.strmWait p) s fun d sh => d.effect sh (.wait .strmWait)

def execWaitTok (p : Pred) (task : Bool) (mask : BitVec 8) (s : State) : Res :=
  fire (.waitTok p task mask) s fun d sh => d.effect sh (.wait (.waitTok mask task))

end Sys2Proof.Machine
end

