-- ==== Sys2Proof/Machine/Sync.lean ====
section
/-!
DEFINITION. The synchronisation engines (R359 to R376): atomics and reductions, dependence counters, transaction barriers (R352),
groups and their bitmaps (R158 to R167), the waits registered at an engine, quotas and hold queues.
-/
namespace Sys2Proof.Machine

/-! ### The instructions of groups (R160 to R167) -/

/-- Memberships counted as held (R161). -/
def Shot.memberships (sh : Shot) : Nat :=
  sh.k.th.gmem.used
    + (sh.k.th.pend.filter fun p => p.kind == .grpNew || p.kind == .grpJoin).length
    + (sh.blk.effects.filter fun e => decide (e.1 < sh.n) && match e.2 with
        | .defer kind _ _ _ _ _ _ _ _ => kind == .grpNew || kind == .grpJoin
        | _ => false).length

/-- A handle is in a GMEM register. -/
def Quad.holds (q : Quad) (h : Word) : Bool := h != 0 && (q.w0 == h || q.w1 == h || q.w2 == h || q.w3 == h)

/-- GRP.NEW and GRP.JOIN trap GRPLIMIT at four memberships. -/
def Dev.belowLimit (d : Dev) (sh : Shot) (k : Dev) : Dev := if 4 ≤ sh.memberships then d.slotTrap sh 0x10 sh.word 0 else k

/-- The others trap GRPNOTMEM outside a membership. -/
def Dev.asMember (d : Dev) (sh : Shot) (k : Dev) : Dev := if sh.k.th.gmem.holds sh.a then k else d.slotTrap sh 0x11 sh.a 0

/-- The thread as the sender of a command to an engine; the command is numbered when it leaves. -/
def Shot.sender (sh : Shot) : Sender := { cast := sh.c, requester := sh.k.requester }

def execGrpNew (p : Pred) (a : Target) (s : State) : Res :=
  fire (.grpNew p a) s fun d sh =>
    let pid := sh.k.th.nextId
    d.belowLimit sh ((d.newId sh.c).effectWithin sh (Config.openDelay d.free) fun delay =>
      .defer .grpNew pid a 0 false groupLane false delay (.seGrpNew sh.sender pid sh.a sh.b))

def execGrpJoin (p : Pred) (a : Target) (s : State) : Res :=
  fire (.grpJoin p a) s fun d sh =>
    let pid := sh.k.th.nextId
    d.belowLimit sh ((d.newId sh.c).effectWithin sh (Config.openDelay d.free) fun delay =>
      .defer .grpJoin pid a 0 false groupLane false delay (.seGrpJoin sh.sender pid sh.a))

def execGrpLeave (p : Pred) (s : State) : Res :=
  fire (.grpLeave p) s fun d sh =>
    d.asMember sh (d.effectWithin sh (Config.openDelay d.free) fun delay => .leave sh.a delay)

def execGrpFree (p : Pred) (s : State) : Res :=
  fire (.grpFree p) s fun d sh =>
    d.asMember sh (d.effectWithin sh (Config.openDelay d.free) fun delay => .issue groupLane false delay (.seGrpFree sh.sender sh.a))

def execGrpBar (p : Pred) (o : MemOrder) (sc : Scope) (s : State) : Res :=
  fire (.grpBar p o sc) s fun d sh => d.asMember sh (d.effect sh (.wait (.grpBar sh.a o sc)))

def execGrpMark (p : Pred) (o : MemOrder) (sc : Scope) (s : State) : Res :=
  fire (.grpMark p o sc) s fun d sh =>
    d.asMember sh (d.effectWithin sh (Config.openDelay d.free) fun delay =>
      .issue groupLane (MemOrder.releases o) delay (.seGrpMark sh.sender sh.a sh.b o sc))

def execWaitBit (p : Pred) (o : MemOrder) (sc : Scope) (s : State) : Res :=
  fire (.waitBit p o sc) s fun d sh => d.effect sh (.wait (.waitBit sh.a sh.b o sc))

def execWaitBitAll (p : Pred) (o : MemOrder) (sc : Scope) (s : State) : Res :=
  fire (.waitBitAll p o sc) s fun d sh => d.effect sh (.wait (.waitBitAll sh.a o sc))

/-! ### The instructions of atomics and counters (R362 to R367) -/

/-- An operation of its code (R363). -/
def atomOp (c : Nat) : Option AtomOp :=
  match c with
  | 0 => some .add
  | 1 => some .and
  | 2 => some .or
  | 3 => some .xor
  | 4 => some .mins
  | 5 => some .maxs
  | 6 => some .minu
  | 7 => some .maxu
  | 8 => some .swap
  | 9 => some .fadd
  | 10 => some .fmin
  | 11 => some .fmax
  | _ => none

/-- The float operations. -/
def isFloatOp (o : AtomOp) : Bool := o == .fadd || o == .fmin || o == .fmax

/-- The size of a code SZ that atomics allow. -/
def atomSize (c : Nat) : Option Size :=
  match c with
  | 2 => some .b4
  | 3 => some .b8
  | _ => none

/-- Host memory admits ADD, SWAP and CAS (R364). -/
def hostAtomic (k : AtomKind) : Bool :=
  match k with
  | .rmw op _ => op == .add || op == .swap
  | .cas _ _ => true

/-- The checks of an atomic when it fires: alignment, translation as a store, the region (R364). -/
def Dev.atAtom (m : Memory) (d : Dev) (sh : Shot) (size : Size) (kind : AtomKind) (k : Dev → Placed → Dev) : Dev :=
  if sh.a.toNat % Size.bytes size ≠ 0 then d.slotTrap sh 0x07 sh.a 0
  else
    match Dev.translate m d sh.k.via sh.k.tenant sh.a .store with
    | (.error f, d) => d.slotTrap sh 0x08 sh.a (f.syndrome .store 0 sh.k.tenant) (sub := BitVec.ofNat 8 f.sub)
    | (.ok p, d) => if paRegion p.pa = 1 ∧ !hostAtomic kind then d.slotTrap sh 0x0F sh.word 0 else k d p

/-- The request of an atomic. -/
def Shot.atomReq (sh : Shot) (p : Placed) (size : Size) (kind : AtomKind) (o : MemOrder) (sc : Scope) (reply : ReplyTo) : AtomReq :=
  { agent := .thread sh.c, requester := sh.k.requester, tenant := sh.k.tenant, pa := p.pa, rpl := p.rpl, size := size, kind := kind,
    order := o, scope := sc, reply := reply }

/-- ATOM and CAS at commit: a command that awaits its reply. -/
def Dev.deferAtom (d : Dev) (sh : Shot) (p : Placed) (size : Size) (kind : AtomKind) (o : MemOrder) (sc : Scope)
    (b a : Target) : Dev :=
  let pid := sh.k.th.nextId
  (d.newId sh.c).effectWithin sh (Config.openDelay d.free) fun delay =>
    .defer (.atom sh.a) pid a b (MemOrder.acquires o) 0 (MemOrder.releases o) delay
      (.seAtomic (sh.atomReq p size kind o sc (.pending sh.c pid)))

/-- ATOM with an ordering: its control word gives operation and size (R363). -/
def fireAtom (i : Instr) (o : MemOrder) (sc : Scope) (b a : Target) (s : State) : Res :=
  fire i s fun d sh =>
    match atomOp (field sh.z 0 4), atomSize (field sh.z 4 2) with
    | some op, some size =>
      if isFloatOp op && size != .b4 then d.slotTrap sh 0x0F sh.word 0
      else d.atAtom s.mem sh size (.rmw op sh.b) fun d p => d.deferAtom sh p size (.rmw op sh.b) o sc b a
    | _, _ => d.slotTrap sh 0x0F sh.word 0

def execAtomRlx (p : Pred) (sc : Scope) (b a : Target) (s : State) : Res := fireAtom (.atomRlx p sc b a) .rlx sc b a s
def execAtomAcq (p : Pred) (sc : Scope) (b a : Target) (s : State) : Res := fireAtom (.atomAcq p sc b a) .acq sc b a s
def execAtomRel (p : Pred) (sc : Scope) (b a : Target) (s : State) : Res := fireAtom (.atomRel p sc b a) .rel sc b a s
def execAtomAr (p : Pred) (sc : Scope) (b a : Target) (s : State) : Res := fireAtom (.atomAr p sc b a) .ar sc b a s

def execCas (o : MemOrder) (p : Pred) (sc : Scope) (b a : Target) (s : State) : Res :=
  fire (.cas o p sc b a) s fun d sh =>
    d.atAtom s.mem sh .b8 (.cas sh.z sh.b) fun d q => d.deferAtom sh q .b8 (.cas sh.z sh.b) o sc b a

def execRed (p : Pred) (z : Size) (f : AtomOp) (o : MemOrder) (sc : Scope) (s : State) : Res :=
  fire (.red p z f o sc) s fun d sh =>
    d.atAtom s.mem sh z (.rmw f sh.b) fun d q =>
      d.effectWithin sh (Config.openDelay d.free) fun delay =>
        .issue 0 (MemOrder.releases o) delay (.seAtomic (sh.atomReq q z (.rmw f sh.b) o sc .none))

/-- The checks of a counter instruction when it fires (R367). -/
def Dev.atCounter (m : Memory) (d : Dev) (sh : Shot) (k : Dev → Placed → Dev) : Dev :=
  if sh.a.toNat % 8 ≠ 0 then d.slotTrap sh 0x07 sh.a 0
  else
    match Dev.translate m d sh.k.via sh.k.tenant sh.a .store with
    | (.error f, d) => d.slotTrap sh 0x08 sh.a (f.syndrome .store 0 sh.k.tenant) (sub := BitVec.ofNat 8 f.sub)
    | (.ok p, d) => if paRegion (d.ownPa p.pa) ≠ 0 ∨ p.rpl.isSome then d.slotTrap sh 0x0F sh.word 0 else k d p

/-- The request of a counter operation. -/
def Shot.cntReq (sh : Shot) (p : Placed) (o : MemOrder) (sc : Scope) : CntReq :=
  { source := .thread sh.c sh.k.uid, requester := sh.k.requester, tenant := sh.k.tenant, va := sh.a, pa := p.pa, order := o, scope := sc }

def execCntInit (p : Pred) (o : MemOrder) (sc : Scope) (s : State) : Res :=
  fire (.cntInit p o sc) s fun d sh => d.atCounter s.mem sh fun d q =>
    d.effectWithin sh (Config.openDelay d.free) fun delay =>
      .issue 0 (MemOrder.releases o) delay (.seCntInit (sh.cntReq q o sc) (sh.b.setWidth 32))

def execCntDec (p : Pred) (o : MemOrder) (sc : Scope) (s : State) : Res :=
  fire (.cntDec p o sc) s fun d sh => d.atCounter s.mem sh fun d q =>
    d.effectWithin sh (Config.openDelay d.free) fun delay =>
      .issue 0 (MemOrder.releases o) delay (.seCntDec (sh.cntReq q o sc) (sh.b.setWidth 32))

def execCntWait (p : Pred) (o : MemOrder) (sc : Scope) (s : State) : Res :=
  fire (.cntWait p o sc) s fun d sh => d.atCounter s.mem sh fun d q => d.effect sh (.wait (.cntWait sh.a q.pa o sc))

def execCntFree (p : Pred) (s : State) : Res :=
  fire (.cntFree p) s fun d sh => d.atCounter s.mem sh fun d q =>
    d.effectWithin sh (Config.openDelay d.free) fun delay =>
      .issue 0 false delay (.seCntFree (sh.cntReq q .rlx .cast))

/-! ### Engines, entries and quotas (R359, R371 to R375) -/

/-- The engine that serves a location: its home die's; for host and peer memory the model uses die 0's tables. -/
def Dev.seDie (d : Dev) (pa : Nat) : Nat := if paRegion (d.ownPa pa) = 0 then paDie (d.ownPa pa) else 0

def Dev.seAt (d : Dev) (die : Nat) : SeSt := d.se.get {} die
def Dev.modSe (d : Dev) (die : Nat) (f : SeSt → SeSt) : Dev := { d with se := d.se.modify {} die f }

/-- The entries that a request may need. -/
inductive EntKind where
  | cnt
  | pre
  | wait
deriving DecidableEq, Repr

/-- The quota words as they reset (R373). -/
def qtaReset : Word := BitVec.ofNat 64 (256 + 2 ^ 16 * 64 + 2 ^ 30 * 16 + 2 ^ 42 * 64)

/-- The translation entry of a tenant, which numbers its quotas and its hold queue. -/
def Dev.quotaIx (d : Dev) (die tenant : Nat) : Nat := (d.tteOf die tenant).getD 64

/-- A wait of a thread of its number, the current one or the saved one. -/
def Thread.waitOf (t : Thread) (id : Nat) : Option WaitSt := (t.wait.filter fun w => w.id == id).or (t.saved.filter fun w => w.id == id)

/-- The wait an entry stands for is still open, in a placed cast or in one that is saved (R372). -/
def Dev.waitLive (d : Dev) (w : WaitEnt) : Bool :=
  (((d.casts.find w.cast).or (d.away.find w.cast)).bind fun k => k.th.waitOf w.id).isSome

/-- CP.BWAIT takes no entry of the table of waits (R371). -/
def WaitEnt.listed (w : WaitEnt) : Bool :=
  match w.wait with
  | .cpBwait .. => false
  | _ => true

/-- The entries of a kind: tenant and whether in the overflow area. -/
def Dev.entries (d : Dev) (s : SeSt) (e : EntKind) : List (Nat × Bool) :=
  match e with
  | .cnt => s.cnts.map fun x => (x.tenant, x.ovf)
  | .pre => s.pres.map fun x => (x.tenant, x.ovf)
  | .wait => (s.waits.filter fun w => w.listed && d.waitLive w).map fun x => (x.tenant, x.ovf)

/-- Where a new entry of a tenant goes: SRAM, the overflow area, or nowhere (R375). -/
def Dev.placeFor (d : Dev) (die tenant : Nat) (e : EntKind) : Option Bool :=
  let s := d.seAt die
  let i := d.quotaIx die tenant
  let qta := (s.qta.find i).getD qtaReset
  let (quota, size) := match e with
    | .cnt => (field qta 0 16, 65536)
    | .pre => (field qta 16 14, 16384)
    | .wait => (field qta 42 14, 8192)
  let sram := (d.entries s e).filter fun x => !x.2
  let ovf := (d.entries s .cnt ++ d.entries s .pre ++ d.entries s .wait).filter fun x => x.2
  if (sram.filter fun x => x.1 == tenant).length < quota ∧ sram.length < size then some false
  else if (ovf.filter fun x => x.1 == tenant).length < field (s.qtb.get 0 i) 0 32 ∧ ovf.length < field s.ovfn 0 32 then some true
  else none

/-- The hold queue of a tenant at an engine has no room (R372). -/
def Dev.holdFull (d : Dev) (die tenant : Nat) : Bool := decide (256 ≤ ((d.seAt die).hold.get [] (d.quotaIx die tenant)).length)

/-- The engine that a request for an entry goes to, and the entry that it would need there now (R375). -/
def Dev.needs (d : Dev) (k : Cast) (act : Instr) : Option (Nat × EntKind) :=
  let die := fun (pa : Nat) => d.seDie pa
  let pub := fun (r : CntReq) => (d.seAt (die r.pa)).cnts.any fun x => x.pa == r.pa && x.tenant == r.tenant
  let pre := fun (r : CntReq) => (d.seAt (die r.pa)).pres.any fun x => x.pa == r.pa && x.tenant == r.tenant
  match act with
  | .seCntInit r _ => if pub r then none else some (die r.pa, .cnt)
  | .seCntDec r n => if n = 0 ∨ pub r ∨ pre r then none else some (die r.pa, .pre)
  | .seGrpBarArrive _ h => some (field h 12 3, .wait)
  | .seWaitRegister r =>
    match (k.th.waitOf r.id).map WaitSt.wait with
    | some (.cntWait _ pa _ _) => some (die pa, .wait)
    | some (.waitBit h _ _ _) => some (field h 12 3, .wait)
    | some (.waitBitAll h _ _) => some (field h 12 3, .wait)
    | _ => none
  | _ => none

/-- A request that an engine would have to hold while its hold queue is full stays with its thread (R375); an atomic waits while the engine
has its 32,768 requests in flight (R371). -/
def Dev.engineRoom (d : Dev) (k : Cast) (act : Instr) : Bool :=
  match act with
  | .seAtomic r =>
    decide ((d.agenda.filter fun e => match e.2 with
      | .seAtomic q => d.seDie q.pa == d.seDie r.pa
      | _ => false).length < 32768)
  | _ =>
    match d.needs k act with
    | some (die, e) => (d.placeFor die k.tenant e).isSome || !d.holdFull die k.tenant
    | none => true

/-- A request joins its tenant's hold queue. -/
def Dev.holdReq (d : Dev) (die tenant : Nat) (act : Instr) : Dev :=
  d.modSe die fun s => { s with hold := s.hold.modify [] (d.quotaIx die tenant) fun q => q ++ [act] }

/-! ### Reports -/

/-- A word that an engine writes to memory. -/
def State.seWrite (s : State) (tenant pa : Nat) (rpl : Option Nat) (data : List Byte) (agent : Agent := .firmware) (id : Nat := 0) : State :=
  s.perform { agent := agent, tenant := tenant, pa := pa, write := true, len := data.length, data := data, rpl := rpl, id := id }

/-- The bytes that an atomic of an engine reads, and whether it may write them: a denied one, or one to which no link is up, reads
zeros, writes nothing, and posts one entry, as a write (R62, R452, R474). -/
def Dev.atomRead (m : Memory) (d : Dev) (tenant pa len : Nat) : Bool × List Byte × Dev :=
  let pa := d.ownPa pa
  if paRegion pa = 0 then
    if d.admits tenant pa then (true, (Dev.read m d tenant pa len).1, d) else (false, List.replicate len 0, d.postTenant tenant pa true)
  else if d.linkUp pa then (true, m.read pa len, d)
  else (false, List.replicate len 0, d.postLinkErr tenant pa (paRegion pa == 2) true)

/-- CNTUNDER (R369): to the thread, or to a fault queue. -/
def Dev.cntUnder (d : Dev) (r : CntReq) (sub : Byte) (excess : Nat) : Dev :=
  let disp := match r.source with
    | .dispatcher _ _ => true
    | _ => false
  let i1 : Word := BitVec.ofNat 64 (excess % 2 ^ 32 + 2 ^ 32 * bit disp)
  let i2 : Word := BitVec.ofNat 64 (r.requester % 2 ^ 16)
  let post := fun (c : Nat) => d.postFault r.tenant
    [0x05, BitVec.ofNat 64 c, BitVec.ofNat 64 (0x44 + 256 * sub.toNat + 2 ^ 22), 0, r.va, i1, i2, 0]
  let raise := fun (c uid : Nat) =>
    if ((d.casts.find c).or (d.away.find c)).any fun k => k.uid == uid then d.raiseAsync c { code := 0x44, sub := sub, info0 := r.va, info1 := i1, info2 := i2, info3 := 0 }
    else post c
  match r.source with
  | .thread c uid => raise c uid
  | .dispatcher c uid => raise c uid
  | .nobody => post 0

/-- GRPRANGE (R169). -/
def Dev.grpRange (d : Dev) (c : Nat) (sub : Byte) (h bitIx : Word) (i2 i3 : Word := 0) : Dev :=
  d.raiseAsync c { code := 0x45, sub := sub, info0 := h, info1 := bitIx, info2 := i2, info3 := i3 }

/-! ### Atomics (R363, R364) -/

/-- The signed reading of w bits, and the lesser or greater of two codes by a reading. -/
def pickInt (read : Nat → Int) (greater : Bool) (x y : Nat) : Nat :=
  if greater then (if read x < read y then y else x) else (if read y < read x then y else x)

/-- The new value of an operation on codes of w bits (R363). -/
def atomNew (op : AtomOp) (w old b : Nat) : Nat :=
  match op with
  | .add => (old + b) % 2 ^ w
  | .and => Nat.land old b
  | .or => Nat.lor old b
  | .xor => Nat.xor old b
  | .mins => pickInt (signedOf w) false old b
  | .maxs => pickInt (signedOf w) true old b
  | .minu => pickInt Int.ofNat false old b
  | .maxu => pickInt Int.ofNat true old b
  | .swap => b
  | .fadd => (fp32.rnd .rn false false ((fp32.dec false old).add .rn (fp32.dec false b))).1
  | .fmin => (pickFloat fp32 false false old b).1
  | .fmax => (pickFloat fp32 false true old b).1

/-- What an atomic writes, if it writes, and its second reply word. -/
def atomResult (k : AtomKind) (w old : Nat) : Option Nat × Nat :=
  match k with
  | .rmw op b => (some (atomNew op w old (b.toNat % 2 ^ w)), old)
  | .cas exp new => if old = exp.toNat % 2 ^ w then (some (new.toNat % 2 ^ w), 1) else (none, 0)

/-- An atomic performed in one place of its location's order. -/
def State.rmw (s : State) (r : AtomReq) : State × Nat × Nat :=
  let n := Size.bytes r.size
  let (ok, bs, d) := Dev.atomRead s.mem s.dev r.tenant r.pa n
  let s := { s with dev := d }
  match atomResult r.kind (8 * n) (leNat bs) with
  | (some new, v1) => (if ok then s.seWrite r.tenant r.pa r.rpl (leBytes n new) r.agent r.id else s, leNat bs, v1)
  | (none, v1) => (s, leNat bs, v1)

/-- A word sent to an outside requester. -/
def Dev.sendOut (d : Dev) (tag : Nat) (bs : List Byte) : Dev := { d with outbox := d.outbox ++ [.data tag bs] }

/-- SE_ATOMIC. -/
def execSeAtomic (r : AtomReq) (s : State) : Res :=
  let (s, old, v1) := s.rmw r
  let d := s.dev.settle r.agent r.id
  .next { s with dev :=
    match r.reply with
    | .none => d
    | .pending c pid => (d.post (Config.openDelay d.free) (.classDReply c pid (BitVec.ofNat 64 old) (BitVec.ofNat 64 v1))).tickFree
    | .outside tag => d.sendOut tag (leBytes (Size.bytes r.size) old) }

/-! ### Counters (R366, R367) -/

/-- The published counter, and the pre-arrival, of a request. -/
def SeSt.cntOf (s : SeSt) (r : CntReq) : Option CntEnt := s.cnts.find? fun x => x.pa == r.pa && x.tenant == r.tenant
def SeSt.preOf (s : SeSt) (r : CntReq) : Option CntEnt := s.pres.find? fun x => x.pa == r.pa && x.tenant == r.tenant

/-- An entry replaced, put in, or taken out of a list of counters. -/
def putCnt (l : List CntEnt) (e : CntEnt) : List CntEnt := l.filter (fun x => x.pa != e.pa || x.tenant != e.tenant) ++ [e]
def dropCnt (l : List CntEnt) (r : CntReq) : List CntEnt := l.filter fun x => x.pa != r.pa || x.tenant != r.tenant

/-- The counter's word (R366). -/
def cntWord (value : Nat) (pub : Bool) : List Byte := leBytes 8 (value + 2 ^ 32 * bit pub)

/-- A registered wait ends. -/
def Dev.finishWait (d : Dev) (die : Nat) (w : WaitEnt) : Dev :=
  (d.modSe die fun s => { s with waits := s.waits.filter fun x => x.cast != w.cast || x.id != w.id }).endWait w.cast w.id

/-- The waits of an engine that satisfy a condition end. -/
def Dev.finishWaits (d : Dev) (die : Nat) (p : WaitEnt → Bool) : Dev :=
  ((d.seAt die).waits.filter p).foldl (fun d w => d.finishWait die w) d

/-- The wait is a CNT.WAIT on a counter. -/
def WaitEnt.onCnt (w : WaitEnt) (r : CntReq) : Bool :=
  w.tenant == r.tenant && match w.wait with
    | .cntWait _ pa _ _ => pa == r.pa
    | _ => false

/-- The counter is released: its waiters complete, and the dispatchers hear of its zero. -/
def Dev.releaseCnt (d : Dev) (die : Nat) (r : CntReq) : Dev :=
  ((d.finishWaits die fun w => w.onCnt r).post (Config.openDelay d.free) (.taskReady r.tenant r.pa)).tickFree

/-- A counter request is performed: it leaves its thread's queue (R93). -/
def Dev.settleCnt (d : Dev) (r : CntReq) : Dev :=
  match r.source with
  | .thread c uid => if ((d.casts.find c).or (d.away.find c)).any fun k => k.uid == uid then d.modTh c fun t => t.settle r.id else d
  | _ => d

/-- CNT.INIT at the engine. -/
def State.cntInit (s : State) (r : CntReq) (n : Nat) : State :=
  let die := s.dev.seDie r.pa
  match (s.dev.seAt die).cntOf r with
  | some _ => { s with dev := (s.dev.settleCnt r).cntUnder r 3 0 }
  | none =>
    match s.dev.placeFor die r.tenant .cnt with
    | none => { s with dev := s.dev.holdReq die r.tenant (.seCntInit r (BitVec.ofNat 32 n)) }
    | some ovf =>
      let p := (((s.dev.seAt die).preOf r).map CntEnt.value).getD 0
      let v := n - p
      let d := (s.dev.settleCnt r).modSe die fun x =>
        { x with cnts := putCnt x.cnts { tenant := r.tenant, pa := r.pa, value := v, ovf := ovf }, pres := dropCnt x.pres r }
      let d := if n < p then d.cntUnder r 2 (p - n) else d
      let s := State.seWrite { s with dev := d } r.tenant r.pa none (cntWord v true)
      if v = 0 then { s with dev := s.dev.releaseCnt die r } else s

/-- SE_CNT_INIT. -/
def execSeCntInit (r : CntReq) (n : BitVec 32) (s : State) : Res := .next (s.cntInit r n.toNat)

/-- CNT.DEC at the engine. -/
def State.cntDec (s : State) (r : CntReq) (n : Nat) : State :=
  let die := s.dev.seDie r.pa
  let done := { s with dev := s.dev.settleCnt r }
  if n = 0 then done
  else
    match (s.dev.seAt die).cntOf r with
    | none =>
      match (s.dev.seAt die).preOf r with
      | some e =>
        { s with dev := done.dev.modSe die fun x => { x with pres := putCnt x.pres { e with value := min (2 ^ 32 - 1) (e.value + n) } } }
      | none =>
        match s.dev.placeFor die r.tenant .pre with
        | none => { s with dev := s.dev.holdReq die r.tenant (.seCntDec r (BitVec.ofNat 32 n)) }
        | some ovf =>
          { s with dev := done.dev.modSe die fun x =>
            { x with pres := putCnt x.pres { tenant := r.tenant, pa := r.pa, value := n, ovf := ovf } } }
    | some e =>
      if e.value = 0 then { s with dev := done.dev.cntUnder r 1 n }
      else
        let d := if e.value < n then done.dev.cntUnder r 1 (n - e.value) else done.dev
        let v := e.value - n
        let d := d.modSe die fun x => { x with cnts := putCnt x.cnts { e with value := v } }
        let s := State.seWrite { s with dev := d } r.tenant r.pa none (cntWord v true)
        if v = 0 then { s with dev := s.dev.releaseCnt die r } else s

/-- SE_CNT_DEC. -/
def execSeCntDec (r : CntReq) (n : BitVec 32) (s : State) : Res := .next (s.cntDec r n.toNat)

/-- SE_CNT_FREE (R367, R368). -/
def execSeCntFree (r : CntReq) (s : State) : Res :=
  let die := s.dev.seDie r.pa
  let d := (s.dev.settleCnt r).modSe die fun x => { x with cnts := dropCnt x.cnts r, pres := dropCnt x.pres r }
  match (s.dev.seAt die).cntOf r with
  | none => .next { s with dev := d }
  | some _ => .next (State.seWrite { s with dev := d.finishWaits die fun w => w.onCnt r } r.tenant r.pa none (cntWord 0 false))

/-! ### Transaction barriers (R352) -/

/-- A barrier: PEND as a signed number, ARRIVE, ARRCFG, PHASE and the flags OOB, PART, ERR, UNDER. -/
structure Barrier where
  pend   : Int
  arrive : Nat
  arrcfg : Nat
  phase  : Nat
  flags  : Nat
deriving DecidableEq, Repr

/-- A barrier from its 16 bytes, and back. -/
def Barrier.ofBytes (bs : List Byte) : Barrier :=
  { pend := signedOf 32 (bytesAt bs 0 4), arrive := bytesAt bs 4 2, arrcfg := bytesAt bs 6 2, phase := bytesAt bs 8 2
    flags := bytesAt bs 10 1 % 16 }
def Barrier.toBytes (b : Barrier) : List Byte :=
  leBytes 4 (codeOf 32 b.pend) ++ leBytes 2 b.arrive ++ leBytes 2 b.arrcfg ++ leBytes 2 b.phase ++ leBytes 6 b.flags

/-- The completion rule. -/
def Barrier.settle (b : Barrier) : Barrier :=
  if b.arrive = 0 ∧ b.pend ≤ 0 then
    { b with pend := 0, phase := (b.phase + 1) % 65536, arrive := b.arrcfg, flags := if b.pend < 0 then Nat.lor b.flags 8 else b.flags }
  else b

/-- A sum of PEND, modulo 2^32 in two's complement. -/
def wrap32 (n : Int) : Int := signedOf 32 (codeOf 32 n)

/-- An update. -/
def Barrier.update (b : Barrier) (u : BarUpdate) : Barrier :=
  match u with
  | .init n => { pend := 0, arrive := max 1 n.toNat, arrcfg := max 1 n.toNat, phase := 0, flags := 0 }
  | .arrive n =>
    let b := { b with pend := wrap32 (b.pend + n.toNat) }
    if b.arrive = 0 then { b with flags := Nat.lor b.flags 8 } else { b with arrive := b.arrive - 1 }
  | .complete n oob part err =>
    { b with pend := wrap32 (b.pend - n), flags := Nat.lor b.flags (bit oob + 2 * bit part + 4 * bit err) }

/-- BARRIER_UPDATE: an atomic of the home engine, the completion rule, and the waits it ends (R352, R353). -/
def execBarrierUpdate (r : BarReq) (s : State) : Res :=
  let die := s.dev.seDie r.pa
  let (ok, bs, d) := Dev.atomRead s.mem s.dev r.tenant r.pa 16
  let b := ((Barrier.ofBytes bs).update r.upd).settle
  let s := { s with dev := d }
  let s := if ok then s.seWrite r.tenant r.pa r.rpl b.toBytes r.agent r.id else s
  .next { s with dev := (s.dev.settle r.agent r.id).finishWaits die fun w => match w.wait with
    | .cpBwait pa _ phase _ _ => pa == r.pa && decide (b.phase ≠ phase.toNat)
    | _ => false }

/-! ### Groups (R158 to R167, R370) -/

/-- Fields of a group handle, and a handle of an entry. -/
def grpIx (h : Word) : Nat := field h 0 12
def grpDie (h : Word) : Nat := field h 12 3
def grpHandle (ix die gen : Nat) : Word := BitVec.ofNat 64 (ix + 2 ^ 12 * (die % 8) + 2 ^ 16 * gen)

/-- The group of a handle that is not stale. -/
def Dev.grpOf (d : Dev) (h : Word) : Option GrpEnt :=
  let g := (d.seAt (grpDie h)).grps.get {} (grpIx h)
  if h != 0 && g.used && grpHandle (grpIx h) (grpDie h) g.gen == h then some g else none

/-- A group changed. -/
def Dev.modGrp (d : Dev) (h : Word) (f : GrpEnt → GrpEnt) : Dev :=
  d.modSe (grpDie h) fun s => { s with grps := s.grps.modify {} (grpIx h) f }

/-- SE_GRP_NEW (R162): the handle, or 0. -/
def execSeGrpNew (r : Sender) (pid : Nat) (bmap nbits : Word) (s : State) : Res :=
  let c := r.cast
  match s.dev.casts.find c with
  | none => .next s
  | some k =>
    let d := s.dev
    let answer := fun (d : Dev) (v : Word) => (d.post (Config.openDelay d.free) (.classDReply c pid v 0)).tickFree
    let se := d.seAt k.die
    let held := (se.grps.filter fun g => g.2.used && g.2.tid == k.tenant).length
    let quota := field ((se.qta.find (d.quotaIx k.die k.tenant)).getD qtaReset) 30 12
    let free := (List.range 4096).find? fun i => !(se.grps.get {} i).used
    match free with
    | none => .next { s with dev := answer d 0 }
    | some i =>
      if quota ≤ held ∨ 1048576 < nbits.toNat ∨ (nbits ≠ 0 ∧ bmap.toNat % 128 ≠ 0) then .next { s with dev := answer d 0 }
      else
        let gen := (se.grps.get {} i).gen
        let entry : GrpEnt := { used := true, gen := gen, tid := k.tenant, bmap := bmap, nbits := nbits.toNat, memb := [c] }
        let d := d.modSe k.die fun (e : SeSt) => { e with grps := e.grps.put i entry }
        .next { s with dev := answer d (grpHandle i k.die gen) }

/-- SE_GRP_JOIN (R163): a status; the handle comes with it, to be placed. -/
def execSeGrpJoin (r : Sender) (pid : Nat) (h : Word) (s : State) : Res :=
  let c := r.cast
  match s.dev.casts.find c with
  | none => .next s
  | some k =>
    let answer := fun (d : Dev) (v : Word) => (d.post (Config.openDelay d.free) (.classDReply c pid v h)).tickFree
    match s.dev.grpOf h with
    | none => .next { s with dev := answer s.dev 1 }
    | some g =>
      if g.tid ≠ k.tenant then .next { s with dev := answer s.dev 2 }
      else if g.memb.contains c then .next { s with dev := answer s.dev 3 }
      else .next { s with dev := answer (s.dev.modGrp h fun g => { g with memb := g.memb ++ [c] }) 0 }

/-- The barrier wait of a thread on a group ends. -/
def Dev.endBar (d : Dev) (h : Word) (c : Nat) : Dev :=
  ((d.seAt (grpDie h)).waits.filter fun w => w.cast == c && match w.wait with
    | .grpBar h' _ _ => h' == h
    | _ => false).foldl (fun d w => d.finishWait (grpDie h) w) d

/-- An episode whose expected threads have all arrived closes, and a held arrival opens the next one (R164). -/
def Dev.closeEpisode (h : Word) : Nat → Dev → Dev
  | 0, d => d
  | n + 1, d =>
    match d.grpOf h with
    | none => d
    | some g =>
      if g.open_ && g.exp.all fun c => g.arrived.contains c then
        let d := g.arrived.foldl (fun d c => d.endBar h c) d
        if g.held.isEmpty then d.modGrp h fun g => { g with open_ := false, exp := [], arrived := [] }
        else Dev.closeEpisode h n (d.modGrp h fun g => { g with exp := g.memb, arrived := g.held, held := [] })
      else d

/-- A group is dissolved (R167): stale handles, GMEM cleared, its waits released. -/
def Dev.freeGroup (d : Dev) (h : Word) : Dev :=
  match d.grpOf h with
  | none => d
  | some g =>
    let d := d.modGrp h fun g => { gen := if g.gen = 65535 then 1 else g.gen + 1 }
    let d := g.memb.foldl (fun d c => d.modTh c fun t => { t with gmem := t.gmem.clear h }) d
    ((d.seAt (grpDie h)).waits.filter fun w => match w.wait with
      | .grpBar h' _ _ => h' == h
      | .waitBit h' _ _ _ => h' == h
      | .waitBitAll h' _ _ => h' == h
      | _ => false).foldl (fun d w =>
        let d := d.finishWait (grpDie h) w
        match w.wait with
        | .waitBit _ b _ _ => d.grpRange w.cast 2 h b
        | .waitBitAll _ _ _ => d.grpRange w.cast 2 h 0
        | _ => d) d

/-- A thread leaves a group: the membership, and the expected set of an open episode. -/
def Dev.leaveGroup (d : Dev) (c : Nat) (h : Word) : Dev :=
  match d.grpOf h with
  | none => d
  | some g =>
    if !g.memb.contains c then d
    else if (g.memb.filter fun x => x != c).isEmpty then d.freeGroup h
    else
      Dev.closeEpisode h 2 (d.modGrp h fun g =>
        { g with memb := g.memb.filter fun x => x != c, exp := g.exp.filter fun x => x != c })

/-- SE_GRP_LEAVE. -/
def execSeGrpLeave (r : Sender) (h : Word) (s : State) : Res := .next { s with dev := s.dev.leaveGroup r.cast h }

/-- SE_GRP_FREE: by a member of the group, as it stood when the command was issued. -/
def execSeGrpFree (_r : Sender) (h : Word) (s : State) : Res := .next { s with dev := s.dev.freeGroup h }

/-- A wait of a thread entered among an engine's, when there is an entry; else the request is held. -/
def Dev.enterWait (d : Dev) (die c : Nat) (k : Cast) (w : WaitSt) (left : List Nat) (act : Instr) : Dev :=
  match d.placeFor die k.tenant .wait with
  | none => d.holdReq die k.tenant act
  | some ovf => d.modSe die fun s => { s with waits := s.waits ++ [{ cast := c, id := w.id, tenant := k.tenant, wait := w.wait, left := left, ovf := ovf }] }

/-- A cast that is placed, or saved and away (R40, R372). -/
def Dev.anyCast (d : Dev) (c : Nat) : Option Cast := (d.casts.find c).or (d.away.find c)

/-- SE_GRP_BAR_ARRIVE (R164): the arrival is counted even when a handler has discarded the wait (R174); it then completes nothing. -/
def State.barArrive (s : State) (r : Sender) (h : Word) : State :=
  let c := r.cast
  match s.dev.anyCast c with
  | none => s
  | some k =>
    match s.dev.grpOf h with
    | none => { s with dev := (s.dev.endWait c r.id).grpRange c 2 h 0 }
    | some g =>
      if !g.memb.contains c then { s with dev := s.dev.endWait c r.id }
      else
        match s.dev.placeFor (grpDie h) k.tenant .wait with
        | none => { s with dev := s.dev.holdReq (grpDie h) k.tenant (.seGrpBarArrive r h) }
        | some _ =>
          let d := match k.th.waitOf r.id with
            | some w => s.dev.enterWait (grpDie h) c k w [] (.seGrpBarArrive r h)
            | none => s.dev
          let d := d.modGrp h fun g =>
            if !g.open_ then { g with open_ := true, exp := g.memb, arrived := [c] }
            else if g.exp.contains c then { g with arrived := g.arrived ++ [c] }
            else { g with held := g.held ++ [c] }
          { s with dev := Dev.closeEpisode h 2 d }

def execSeGrpBarArrive (r : Sender) (h : Word) (s : State) : Res := .next (s.barArrive r h)

/-! ### Bitmaps (R159, R165, R166) -/

/-- The engine's own translation, with the tables of its die (R165). -/
def seVia (die : Nat) : Via := { port := none, block := none, die := die }

/-- The clocks after which a mark of a group may reach its word's engine: the group's engine sends its marks on in the order in which
they arrived (R165). -/
def Dev.markDue (d : Dev) (h : Word) (delay : Nat) : Nat :=
  d.agenda.foldl (fun t e => match e.2 with
    | .seBitmapOr _ _ _ h' _ => if h' = h then max t (e.1 - d.now) else t
    | _ => t) delay

/-- SE_GRP_MARK: the group's engine checks the handle and the bit, translates, and sends the mark on. -/
def execSeGrpMark (r : Sender) (h bitIx : Word) (_o : MemOrder) (_sc : Scope) (s : State) : Res :=
  let c := r.cast
  let stray := fun (d : Dev) (sub : Byte) (i2 i3 : Word) =>
    Host.Outcome.next { s with dev := (d.settle (.thread c) r.id).grpRange c sub h bitIx i2 i3 }
  match s.dev.grpOf h with
  | none => stray s.dev 2 0 0
  | some g =>
    if g.nbits ≤ bitIx.toNat then stray s.dev 1 0 0
    else
      let va := g.bmap + BitVec.ofNat 64 (bitIx.toNat / 8)
      match Dev.translate s.mem s.dev (seVia (grpDie h)) g.tid va .store with
      | (.error f, d) => stray d 4 va (f.syndrome .store 0 g.tid)
      | (.ok p, d) =>
        .next { s with dev := (d.post (d.markDue h (Config.openDelay d.free)) (.seBitmapOr r g.tid { pa := p.pa, rpl := p.rpl } h bitIx.toNat)).tickFree }

/-- SE_BITMAP_OR: the bit is set at the word's home, and the word's new value reported. A denied write is dropped. -/
def execSeBitmapOr (r : Sender) (tenant : Nat) (at_ : ByteAt) (h : Word) (bitIx : Nat) (s : State) : Res :=
  let (ok, bs, d) := Dev.atomRead s.mem s.dev tenant at_.pa 1
  let s := { s with dev := d }
  let s := if ok then s.seWrite tenant at_.pa at_.rpl [BitVec.ofNat 8 (Nat.lor (leNat bs) (2 ^ (bitIx % 8)))] (.thread r.cast) r.id else s
  let d := s.dev.settle (.thread r.cast) r.id
  let word := if ok then wordOf (Dev.read s.mem d tenant (at_.pa / 8 * 8) 8).1 else 0
  .next { s with dev := (d.post (Config.openDelay d.free) (.seMarkReport h (bitIx / 64) word)).tickFree }

/-- The bits of word `ix` that a bitmap of `nbits` bits has, all set. -/
def wordFull (nbits ix : Nat) (v : Word) : Bool := (List.range (min 64 (nbits - 64 * ix))).all fun i => bitAt v i

/-- A word of the bitmap seen by a wait: whether the wait is over, and what of it is left. -/
def WaitEnt.sees (w : WaitEnt) (nbits ix : Nat) (v : Word) : Bool × WaitEnt :=
  match w.wait with
  | .waitBit _ b _ _ => (b.toNat / 64 == ix && bitAt v (b.toNat % 64), w)
  | _ =>
    let left := if wordFull nbits ix v then w.left.filter fun i => i != ix else w.left
    (left.isEmpty, { w with left := left })

/-- The wait is on a group's bitmap. -/
def WaitEnt.onBits (w : WaitEnt) (h : Word) : Bool :=
  match w.wait with
  | .waitBit h' _ _ _ => h' == h
  | .waitBitAll h' _ _ => h' == h
  | _ => false

/-- SE_MARK_REPORT: the group's engine completes the waits whose bits it finds set. -/
def execSeMarkReport (h : Word) (ix : Nat) (v : Word) (s : State) : Res :=
  match s.dev.grpOf h with
  | none => .next s
  | some g =>
    let die := grpDie h
    let d := s.dev.modSe die fun x => { x with waits := x.waits.map fun w => if w.onBits h then (w.sees g.nbits ix v).2 else w }
    .next { s with dev := d.finishWaits die fun w => w.onBits h && (w.sees g.nbits ix v).1 }

/-! ### Registering a wait (R166, R353, R367, R371) -/

/-- Words of a bitmap read for a wait: those not yet full, or the first one that is not translated. -/
def State.readWords (die tenant : Nat) (g : GrpEnt) (one : Option Nat) : List Nat → State → State × Except (Word × XFault) (List Nat)
  | [], s => (s, .ok [])
  | ix :: rest, s =>
    let va := g.bmap + BitVec.ofNat 64 (8 * ix)
    match Dev.translate s.mem s.dev (seVia die) tenant va .load with
    | (.error f, d) => ({ s with dev := d }, .error (g.bmap + BitVec.ofNat 64 (match one with | some b => b / 8 | none => 8 * ix), f))
    | (.ok p, d) =>
      let q := Dev.read s.mem d p.tid (p.readPa die) 8
      let v := wordOf q.1
      let full := match one with
        | some b => bitAt v (b % 64)
        | none => wordFull g.nbits ix v
      match State.readWords die tenant g one rest { s with dev := q.2 } with
      | (s, .error e) => (s, .error e)
      | (s, .ok l) => (s, .ok (if full then l else ix :: l))

/-- WAIT.BIT and WAIT.BIT.ALL registered (R166). -/
def State.registerBits (s : State) (r : Sender) (k : Cast) (w : WaitSt) (h : Word) (one : Option Word) : State :=
  let c := r.cast
  let b := one.getD 0
  let refuse := fun (d : Dev) (sub : Byte) (i2 i3 : Word) => { s with dev := (d.endWait c w.id).grpRange c sub h b i2 i3 }
  match s.dev.grpOf h with
  | none => refuse s.dev 2 0 0
  | some g =>
    if g.tid ≠ k.tenant then refuse s.dev 3 0 0
    else if (one.map fun b => decide (g.nbits ≤ b.toNat)).getD false then refuse s.dev 1 0 0
    else
      let die := grpDie h
      let words := match one with
        | some b => [b.toNat / 64]
        | none => List.range ((g.nbits + 63) / 64)
      match State.readWords die g.tid g (one.map BitVec.toNat) words s with
      | (s', .error (va, f)) => refuse s'.dev 4 va (f.syndrome .load 0 g.tid)
      | (s', .ok []) => { s' with dev := s'.dev.endWait c w.id }
      | (s', .ok left) => { s' with dev := s'.dev.enterWait die c k w left (.seWaitRegister r) }

/-- SE_WAIT_REGISTER: a wait whose condition holds completes at once; one that a handler has discarded is passed over. -/
def State.register (s : State) (r : Sender) : State :=
  let c := r.cast
  match s.dev.anyCast c with
  | none => s
  | some k =>
    match k.th.waitOf r.id with
    | none => s
    | some w =>
      match w.wait with
      | .waitBit h b _ _ => s.registerBits r k w h (some b)
      | .waitBitAll h _ _ => s.registerBits r k w h none
      | .cntWait _ pa _ _ =>
        let die := s.dev.seDie pa
        let zero := (s.dev.seAt die).cnts.any fun x => x.pa == pa && x.tenant == k.tenant && x.value == 0
        if zero then { s with dev := s.dev.endWait c w.id } else { s with dev := s.dev.enterWait die c k w [] (.seWaitRegister r) }
      | .cpBwait pa tenant phase _ _ =>
        let q := Dev.read s.mem s.dev tenant pa 16
        if (Barrier.ofBytes q.1).phase ≠ phase.toNat then { s with dev := q.2.endWait c w.id }
        else
          { s with dev := q.2.modSe (s.dev.seDie pa) fun x =>
            { x with waits := x.waits ++ [{ cast := c, id := w.id, tenant := k.tenant, wait := w.wait }] } }
      | _ => s

def execSeWaitRegister (r : Sender) (s : State) : Res := .next (s.register r)

/-! ### Hold queues (R375) and purges (R376) -/

/-- The entry that a held request needs. -/
def heldKind : Instr → Option EntKind
  | .seCntInit _ _ => some .cnt
  | .seCntDec _ _ => some .pre
  | .seGrpBarArrive _ _ => some .wait
  | .seWaitRegister _ => some .wait
  | _ => none

/-- The tenant of a translation entry. -/
def Dev.tenantOf (d : Dev) (die entry : Nat) : Nat := field (d.tte0 die entry) 0 8

/-- The first request of a hold queue can proceed. -/
def Dev.canRelease (d : Dev) (die entry : Nat) : Bool :=
  match (d.seAt die).hold.get [] entry with
  | [] => false
  | act :: _ =>
    match heldKind act with
    | some e => (d.placeFor die (d.tenantOf die entry) e).isSome
    | none => true

/-- SE_HOLD_RELEASE: the first request of a tenant's hold queue proceeds. -/
def execSeHoldRelease (die entry : Nat) (s : State) : Res :=
  if !s.dev.canRelease die entry then .next s
  else
    match (s.dev.seAt die).hold.get [] entry with
    | [] => .next s
    | act :: rest =>
      let s := { s with dev := s.dev.modSe die fun x => { x with hold := x.hold.set [] entry rest } }
      match act with
      | .seCntInit r n => .next (s.cntInit r n.toNat)
      | .seCntDec r n => .next (s.cntDec r n.toNat)
      | .seGrpBarArrive r h => .next (s.barArrive r h)
      | .seWaitRegister r => .next (s.register r)
      | _ => .next s

/-- A purge can complete. -/
def Dev.purgeDone (d : Dev) (die : Nat) : Bool := (d.seAt die).purging && decide ((d.seAt die).purgeDue ≤ d.now)

/-- A held request is discarded (R376): what it was for goes on without it. -/
def Dev.discardHeld (d : Dev) : Instr → Dev
  | .seCntInit r _ | .seCntDec r _ => d.settleCnt r
  | .seWaitRegister r | .seGrpBarArrive r _ => d.endWait r.cast r.id
  | _ => d

/-- SEPURGE_COMPLETE: the tenant's entries are freed and its held requests discarded; its waits complete (R368, R372). -/
def execSepurgeComplete (die : Nat) (s : State) : Res :=
  if !s.dev.purgeDone die then .next s
  else
  let t := (s.dev.seAt die).purgeTid.toNat
  let d := ((s.dev.seAt die).grps.filter fun g => g.2.used && g.2.tid == t).foldl (fun d g => d.freeGroup (grpHandle g.1 die g.2.gen)) s.dev
  let d := d.finishWaits die fun w => w.tenant == t
  let d := ((d.seAt die).hold.get [] (d.quotaIx die t)).foldl Dev.discardHeld d
  .next { s with dev := d.modSe die fun x =>
    { x with
      cnts := x.cnts.filter fun e => e.tenant != t
      pres := x.pres.filter fun e => e.tenant != t
      hold := x.hold.set [] (d.quotaIx die t) []
      purging := false } }

end Sys2Proof.Machine
end

