-- ==== Sys2Proof/Machine/Phases.lean ====
section
/-!
DEFINITION. Configuration phases (R30, R31, R69, R155, R156, R211): what leaves the source links, the alignment of RECONF and DRAIN
at elements, their absorption at OUT ports, and the completion of CTX.SW and DRAIN with the latching of descriptors (R227, R317).
-/
namespace Sys2Proof.Machine

/-! ### Source links (R147, R149, R394) -/

/-- The head of a push channel that may leave it in this clock, with its destinations: the resident context routes the channel,
every destination has room, and RECONF has not left it before. -/
def Cast.pushHead (d : Dev) (k : Cast) (ch : Nat) : Option (Token × List Route) :=
  match k.th.push.get [] ch with
  | [] => none
  | t :: _ =>
    let ctx := k.th.ctx.toNat
    let rs := k.pushRoutes d ctx k.phase ch
    if !rs.isEmpty && !bitAt k.pushSent ch && decide (k.pushNext.get 0 ch ≤ d.now) && rs.all fun r => k.hasRoom d ctx r then
      some (t, rs)
    else none

/-- A token leaves a push channel. -/
def Dev.pushLeave (d : Dev) (c ch : Nat) : Dev :=
  match d.casts.find c with
  | none => d
  | some k =>
    match k.pushHead d ch with
    | none => d
    | some (t, rs) =>
      (d.modCast c fun k =>
        { k with
          th := { k.th with push := k.th.push.set [] ch ((k.th.push.get [] ch).tail) }
          pushNext := k.pushNext.put ch (d.now + 1)
          pushSent := if tokName t = .reconf then k.pushSent ||| BitVec.ofNat 8 (2 ^ ch) else k.pushSent }).sendAll c 0 t rs

/-- An IN port may send in this clock: every destination of its edge lane has room. -/
def Cast.portMaySend (d : Dev) (k : Cast) (p : Port) : Bool :=
  decide (p.next ≤ d.now) && (k.inPortRoutes d p.ctx p.phase p).all fun r => k.hasRoom d p.ctx r

/-- A token sent by an IN port; behind RECONF it sends under the next phase. -/
def Dev.portSend (d : Dev) (c ix : Nat) (p : Port) (t : Token) : Dev :=
  match d.casts.find c with
  | none => d
  | some k =>
    let rs := k.inPortRoutes d p.ctx p.phase p
    (d.modCast c fun k =>
      { k with ports := k.ports.modify ix fun p =>
          if tokName t = .reconf ∧ field t.ctl 0 4 < 4 then { p with next := d.now + 1, ctx := field t.ctl 0 4, phase := p.phase + 1 }
          else { p with next := d.now + 1 } }).sendAll c 0 t rs

/-- RECONF or DRAIN enters an IN port's link. -/
def Dev.portLeave (d : Dev) (c ix : Nat) : Dev :=
  match d.casts.find c with
  | none => d
  | some k =>
    match k.ports[ix]? with
    | none => d
    | some p =>
      match p.q with
      | [] => d
      | t :: rest =>
        if !p.isOut && k.portMaySend d p then
          (d.modCast c fun k => { k with ports := k.ports.modify ix fun p => { p with q := rest } }).portSend c ix p t
        else d

/-- A RECONF or DRAIN at the head of an OUT port's link. -/
def Port.absorbs (p : Port) : Bool :=
  p.isOut && match p.q with
    | [] => false
    | t :: _ => tokName t == .reconf || tokName t == .drain

/-- It is absorbed (R394). -/
def Dev.portAbsorb (d : Dev) (c ix : Nat) : Dev :=
  d.modCast c fun k => { k with ports := k.ports.modify ix fun p =>
    if p.absorbs then
      { p with q := p.q.tail, occ := p.occ - 1, drained := p.drained || (p.q.head?.map tokName) == some .drain }
    else p }

/-! ### Alignment (R31, R155, R156) -/

/-- The element has ended the work of the tokens ahead of a RECONF or DRAIN. -/
def Site.workDone (s : Site) : Bool :=
  match s.el with
  | .none => true
  | .sb b => b.loads.isEmpty && b.fault.isNone
  | .cx x => !x.pending
  | .ve v => !v.partial_
  | .mx m => m.cmds.isEmpty && m.rows.isEmpty
  | .so o =>
    o.fault.isNone && !o.mid &&
      (o.skip || (enabledInputs s.ecwNow).all fun p => inWide s.ecwNow p || !(o.inp p).started || (o.inp p).done)

/-- The token a site aligns: at the heads of its enabled inputs, or from the control network where it has none (R149). -/
def Site.alignTok (s : Site) : Option Token :=
  if (enabledInputs s.ecwNow).isEmpty then
    s.ctl.map fun x => match x with
      | .reconf n => reconfTok false n
      | .drain => drainTok false
  else s.aligned

/-- The token a site other than a matrix element with inputs can align now: its earlier work is done and sent, every output has
room, and before RECONF no write of K is on its way to it (R154). -/
def Cast.canAlign (d : Dev) (k : Cast) (c n : Nat) : Option Token :=
  let s := k.site n
  if s.workDone && s.outq.isEmpty && k.allRoom d n then
    s.alignTok.filter fun t => tokName t != .reconf || !d.argComing c n
  else none

/-- A stream operator starts afresh, and waits for its descriptor to be latched (R317, R339). A bank keeps its generator until the latch at
the completion of CTX.SW or DRAIN; one that switches before that may fire with the old one (DESIGN CHOICE, log entry 112: R227 does not
say whether it waits). -/
def Elem.realign (e : Elem) : Elem :=
  match e with
  | .none => .none
  | .sb b => .sb b
  | .cx x => .cx x
  | .ve v => .ve v
  | .mx m => .mx m
  | .so o => .so { o.fresh with latched := false }

/-- A site aligns and forwards a token of one kind: RECONF switches it to the context named. -/
def Dev.align (d : Dev) (c n : Nat) (kind : TKind) : Dev :=
  match d.casts.find c with
  | none => d
  | some k =>
    match (k.canAlign d c n).filter fun t => tokName t == kind with
    | none => d
    | some t =>
      let d := (enabledInputs (k.site n).ecwNow).foldl (fun d p => d.takeHead c n p) d
      if kind = .drain then
        (d.emitAll c n drainTok).modSite c n fun s => { s with drained := true, ctl := none, el := s.el.realign }
      else
        let ctx := field t.ctl 0 4
        (d.emitAll c n fun w => reconfTok w ctx).modSite c n fun s =>
          { s.applyArgs with ctx := ctx, phase := s.phase + 1, ctl := none, el := s.el.realign }

/-- A matrix element with enabled inputs has an alignment of its own (R299). -/
def Cast.ownAlign (k : Cast) (n : Nat) : Bool :=
  let s := k.site n
  ecwKind s.ecwNow == 1 && s.mat?.isSome && !(enabledInputs s.ecwNow).isEmpty

/-- One alignment at a site. -/
def Dev.alignAt (d : Dev) (c n : Nat) (kind : TKind) : Dev :=
  match d.casts.find c with
  | none => d
  | some k => if k.ownAlign n then d.onMat c n (mxAlign d c n) else d.align c n kind

/-- RECONF_ALIGN. -/
def execReconfAlign (c n : Nat) (s : State) : Res := .next { s with dev := s.dev.alignAt c n .reconf }

/-- DRAIN_ALIGN. -/
def execDrainAlign (c n : Nat) (s : State) : Res := .next { s with dev := s.dev.alignAt c n .drain }

/-! ### Completion -/

/-- The pop channels that the resident context routes. -/
def Cast.routedPops (k : Cast) : List Nat :=
  (List.range 8).filter fun ch =>
    let e := (k.site (siteNo (ch % 4) (ch / 4))).ecw.get 0 k.th.ctx.toNat
    (ecwOut e .y && outPop e .y) || (ecwOut e .z && outPop e .z)

/-- A cast's stores have left no replica behind (R78). -/
def Dev.replicasApplied (d : Dev) (c : Nat) : Bool :=
  !d.unappliedOf fun a => match a with
    | .thread c' => c' == c
    | .port c' _ => c' == c
    | .chan c' _ => c' == c
    | _ => false

/-- The stores and copies of the phase are performed, and the tokens at its pop channels absorbed (R69, R70, R155, R156). -/
def Cast.phaseDone (d : Dev) (k : Cast) (c : Nat) : Bool :=
  (k.routedPops.all fun ch => bitAt k.popAbsorbed ch) && k.th.storesDone && d.replicasApplied c && k.chansDrained

/-- The descriptors of banks and operators are latched for the resident context (R227, R317). -/
def Site.latch (parm : BitVec 2048) (s : Site) : Site :=
  let e := s.ecwNow
  match s.el with
  | .sb b => if ecwKind e == 2 && sbGen e then { s with el := .sb { b with gen := latchGen parm (field e 0 3) } } else s
  | .so o =>
    if ecwKind e == 3 && soDescribed e then
      let w := fun i => BitVec.ofNat 64 (parmField parm (32 * soDoff e + 8 * i) 8)
      { s with el := .so { o with pr := ⟨w 0, w 1, w 2, w 3⟩, latched := true } }
    else s
  | _ => s

/-- Every descriptor of a cast latched. -/
def Cast.latchAll (k : Cast) : Cast := { k with sites := k.sites.map fun e => (e.1, e.2.latch k.th.parm) }

/-- What the end of a phase resets: ARMST, the records of the phase, the nodes (R148, R208, R210). -/
def Cast.endPhase (k : Cast) : Cast :=
  let k := k.endRecords
  Cast.latchAll
    { k with
      th := { k.th with armst := 0 }
      popAbsorbed := 0
      pushSent := 0
      ports := k.ports.map fun p => { p with drained := false }
      chans := k.chans.map fun e => (e.1, { e.2 with queue := e.2.queue.map fun q => (q.1, q.2.1, false) })
      sites := k.sites.map fun e => (e.1, { e.2 with drained := false, node := {} }) }

/-- An open wait of a kind. -/
def Cast.waitFor (k : Cast) (p : Wait → Bool) : Option WaitSt := k.th.openWait p

/-- The wait of CTX.SW, of DRAIN before and after its tokens are appended. -/
def isCtxSw (w : Wait) : Bool := match w with
  | .ctxSw _ => true
  | _ => false
def isDrain (appended : Bool) (w : Wait) : Bool := match w with
  | .drain b => b == appended
  | _ => false

/-- The CTX.SW or DRAIN that comes next may append its tokens (R31, R156). -/
def Cast.canAppend (k : Cast) : Bool := (k.th.phaseOps.head?.any fun o => !o.appended) && k.th.armst != 1

/-- The DRAIN that is open, if its wait still is, has its tokens appended. -/
def Thread.markDrain (t : Thread) : Thread :=
  let mark : WaitSt → WaitSt := fun w => if w.wait = .drain false then { w with wait := .drain true } else w
  { t with wait := t.wait.map mark, saved := t.saved.map mark
           phaseOps := t.phaseOps.modify 0 fun o => { o with appended := true } }

/-- The tokens of a CTX.SW or DRAIN appended to the source links. -/
def Dev.appendOp (d : Dev) (c : Nat) (o : PhaseOp) : Dev :=
  match o.sw with
  | none => d.appendSources c drainTok .drain
  | some n => d.appendSources c (fun wide => reconfTok wide n) (.reconf n)

/-- DRAIN_APPEND. -/
def execDrainAppend (c : Nat) (s : State) : Res :=
  match s.dev.casts.find c with
  | none => .next s
  | some k =>
    match k.th.phaseOps with
    | [] => .next s
    | o :: _ => if k.canAppend then .next { s with dev := (s.dev.modTh c Thread.markDrain).appendOp c o } else .next s

/-- A site that no link reaches, with nothing from the control network left to pass on. -/
def Site.aside (s : Site) : Bool := (enabledInputs s.ecwNow).isEmpty && s.ctl.isNone

/-- The resident context drives the OUT port. -/
def Cast.usesPort (k : Cast) (p : Port) : Bool := ecwOut (k.site p.site).ecwNow (if p.local_ = 5 then .z else .y)

/-- The CTX.SW or DRAIN whose tokens are on their way. -/
def Thread.phaseOp (t : Thread) : Option PhaseOp := t.phaseOps.head?.filter PhaseOp.appended

/-- Every sink has absorbed DRAIN (R156). -/
def Cast.canDrain (d : Dev) (k : Cast) (c : Nat) : Bool :=
  (k.th.phaseOp.any fun o => o.sw.isNone) && (k.sites.all fun e => e.2.drained || e.2.aside)
    && (k.ports.all fun p => !p.isOut || p.drained || !k.usesPort p) && k.phaseDone d c

/-- A CTX.SW or DRAIN is complete: what its thread may still wait for has come. -/
def Dev.endOp (d : Dev) (c id : Nat) : Dev := (d.modTh c fun t => { t with phaseOps := t.phaseOps.tail }).endWait c id

/-- DRAIN_COMPLETE. -/
def execDrainComplete (c : Nat) (s : State) : Res :=
  match s.dev.casts.find c with
  | none => .next s
  | some k =>
    match k.th.phaseOp with
    | none => .next s
    | some o => if k.canDrain s.dev c then .next { s with dev := (s.dev.modCast c Cast.endPhase).endOp c o.id } else .next s

/-- Every site has switched, with every write of K at its site (R155). -/
def Cast.canSwitch (d : Dev) (k : Cast) (c : Nat) : Bool :=
  (k.th.phaseOp.any fun o => o.sw.isSome) && (k.sites.all fun e => e.2.phase == k.phase + 1 || e.2.aside) && k.argFlight == 0
    && k.phaseDone d c

/-- CTX_SW_COMPLETE. -/
def execCtxSwComplete (c : Nat) (s : State) : Res :=
  match s.dev.casts.find c with
  | none => .next s
  | some k =>
    match k.th.phaseOp with
    | some ⟨some n, id, _⟩ =>
      if k.canSwitch s.dev c then
        .next { s with dev := (s.dev.modCast c fun k =>
          Cast.endPhase { k with phase := k.phase + 1, th := { k.th with ctx := BitVec.ofNat 2 n } }).endOp c id }
      else .next s
    | _ => .next s

end Sys2Proof.Machine
end

