-- ==== Sys2Proof/Machine/Exits.lean ====
section
/-!
DEFINITION. Exits (R142 to R144) and system instructions (R170 to R177), with the values of the system registers (R178 to
R182).
-/
namespace Sys2Proof.Machine

/-! ### Exits -/

/-- block + sext(IMM22) × 4 (R142). -/
def branchTo (b : Block) (o : BitVec 22) : Word := b.addr + o.signExtend 64 * 4

def execBr (p : Pred) (o : BitVec 22) (s : State) : Res :=
  fire (.br p o) s fun d sh => d.takeExit sh (.jump (branchTo sh.blk o))

def execBrn (p : Pred) (s : State) : Res :=
  fire (.brn p) s fun d sh => d.takeExit sh (.jump sh.blk.next)

def execBri (p : Pred) (s : State) : Res :=
  fire (.bri p) s fun d sh => d.takeExit sh (.jump sh.a)

/-- A call with 16 entries on the return stack traps CALLDEPTH (R144). -/
def Dev.takeCall (d : Dev) (sh : Shot) (target : Word) : Dev :=
  if 16 ≤ sh.k.th.ret.length then d.slotTrap sh 0x0A 0 0 else d.takeExit sh (.call target)

def execCall (p : Pred) (o : BitVec 22) (s : State) : Res :=
  fire (.call p o) s fun d sh => d.takeCall sh (branchTo sh.blk o)

def execCalli (p : Pred) (s : State) : Res :=
  fire (.calli p) s fun d sh => d.takeCall sh sh.a

def execRet (p : Pred) (s : State) : Res :=
  fire (.ret p) s fun d sh => if sh.k.th.ret = [] then d.slotTrap sh 0x0B 0 0 else d.takeExit sh .ret

def execBrcT (p : Pred) (o : BitVec 22) (s : State) : Res :=
  fire (.brcT p o) s fun d sh => d.takeExit sh (.jump (if bitAt sh.a 0 then branchTo sh.blk o else sh.blk.next))

def execBrcF (p : Pred) (o : BitVec 22) (s : State) : Res :=
  fire (.brcF p o) s fun d sh => d.takeExit sh (.jump (if bitAt sh.a 0 then sh.blk.next else branchTo sh.blk o))

/-! ### System instructions -/

def execTrap (p : Pred) (code : BitVec 16) (s : State) : Res :=
  fire (.trap p code) s fun d sh => d.takeExit sh (.trap sh.n code)

/-- ERET traps PRIV outside a handler (R173). -/
def execEret (p : Pred) (s : State) : Res :=
  fire (.eret p) s fun d sh => if sh.k.th.inh then d.takeExit sh .eret else d.slotTrap sh 0x0D sh.word 0

/-- SYSRD: the value at block entry, but LCYC in the clock of firing (R174). -/
def execSysrd (p : Pred) (r : SysReg) (t : Target) (s : State) : Res :=
  fire (.sysrd p r t) s fun d sh =>
    d.deliver sh 1 (some (if r = .lcyc then d.lcyc sh.k else sh.blk.sys.get 0 (SysReg.code r).toNat))

def execSyswr (p : Pred) (r : SysReg) (s : State) : Res :=
  fire (.syswr p r) s fun d sh => d.effect sh (.syswr r sh.a)

/-- A word of four. -/
def Quad.word (q : Quad) (i : Nat) : Word :=
  match i with
  | 0 => q.w0
  | 1 => q.w1
  | 2 => q.w2
  | _ => q.w3

/-- FEAT: the accepted feature word (R174, R472). -/
def execFeat (p : Pred) (w : BitVec 2) (t : Target) (s : State) : Res :=
  fire (.feat p w t) s fun d sh => d.deliver sh 1 (some (d.featacc.word w.toNat))

def execHalt (p : Pred) (s : State) : Res :=
  fire (.halt p) s fun d sh => d.takeExit sh .halt

def execNop (p : Pred) (s : State) : Res := fire (.nop p) s fun d sh => d.plain sh

/-- BKPT traps with TSTAT.DBG = 1 and does nothing otherwise (R176). -/
def execBkpt (p : Pred) (code : BitVec 16) (s : State) : Res :=
  fire (.bkpt p code) s fun d sh =>
    if sh.k.th.dbg then d.slotTrap sh 0x21 0 0 (code := code) else d.plain sh

def execYield (p : Pred) (s : State) : Res :=
  fire (.yield p) s fun d sh => d.effect sh .yield

end Sys2Proof.Machine
end

