-- ==== Sys2Proof/Machine/Fetch.lean ====
section
/-!
DEFINITION. The steps of a control thread between firings: the fetch of a block with its ordered checks (R79 to R84, R98,
R106, R111), the delivery of a result (R85, R86), asynchronous causes and traps (R186), the reply of a class D command (R94)
and the halt for a pre-emption (R96, R187).
-/
namespace Sys2Proof.Machine

/-! ### Fetch (R98) -/

/-- What a failed check says: cause, subcode, slot, TINFO0, TINFO1 (R184). -/
structure FetchFault where
  cause : Byte
  sub   : Byte := 0
  slot  : Nat := 0
  i0 : Word := 0
  i1 : Word := 0
deriving DecidableEq, Repr

/-- A code address is translated for fetch; outside the cast's own copy it traps XLAT.PERM (R111). Of an address that lies outside and
fails translation as well, the model reports what the translation says (DESIGN CHOICE, log entry 108). -/
def Dev.fetchPlace (m : Memory) (d : Dev) (k : Cast) (va : Word) : Except FetchFault Nat × Dev :=
  match Dev.translate m d k.via k.tenant va .fetch with
  | (.error f, d) => (.error { cause := 0x08, sub := BitVec.ofNat 8 f.sub, i0 := va, i1 := f.syndrome .fetch 0 k.tenant }, d)
  | (.ok p, d) =>
    if (va - k.imgVa).toNat < k.mould.bytes.length then (.ok p.pa, d)
    else (.error { cause := 0x08, sub := 5, i0 := va, i1 := XFault.syndrome ⟨5, p.lvl⟩ .fetch 0 k.tenant }, d)

/-- One word of code, read as tenant 0 (R111). -/
def Dev.fetchWord (m : Memory) (d : Dev) (k : Cast) (va : Word) : Except FetchFault Word32 × Dev :=
  match Dev.fetchPlace m d k va with
  | (.error f, d) => (.error f, d)
  | (.ok pa, d) => (.ok (BitVec.ofNat 32 (leNat (Dev.read m d 0 pa 4).1)), (Dev.read m d 0 pa 4).2)

/-- The words after the header, in order. -/
def Dev.fetchWords (m : Memory) (k : Cast) : Nat → Word → Dev → Except FetchFault (List Word32) × Dev
  | 0, _, d => (.ok [], d)
  | n + 1, va, d =>
    match Dev.fetchWord m d k va with
    | (.error f, d) => (.error f, d)
    | (.ok w, d) =>
      match Dev.fetchWords m k n (va + 4) d with
      | (.error f, d) => (.error f, d)
      | (.ok ws, d) => (.ok (w :: ws), d)

/-- NM1 + 1 slots (R80). -/
def headerSlots (h : Word32) : Nat := field h 26 6 + 1

/-- VERSION and the zero bits (R81). -/
def headerOk (h : Word32) : Bool := field h 0 4 == 1 && field h 4 7 == 0

/-- The word of the parameter buffer that a patch point puts at word `ix` of the code (R105, R106). -/
def patchWord (k : Cast) (ix : Nat) : Option Word32 :=
  k.mould.patches.findSome? fun (w, off, width) =>
    if w = ix then some (k.th.parm.extractLsb' (8 * off) 32)
    else if width = 64 ∧ w + 1 = ix then some (k.th.parm.extractLsb' (8 * off + 32) 32)
    else none

/-- The word number of a code address within the CODE section (R105, R379). -/
def Cast.codeWordNo (k : Cast) (va : Word) : Nat := (va - k.imgVa - BitVec.ofNat 64 k.mould.codeOff).toNat / 4

/-- Literal words replaced from the parameter buffer, in a block with PATCH = 1 (R106); `base` is the code's word number of
the first slot. -/
def patched (k : Cast) (h : Word32) (base : Nat) (ws : List Word32) : List Word32 :=
  if bitAt h 12 then ws.mapIdx fun i w => (patchWord k (base + i)).getD w else ws

/-- The running counts of step 5 (R97, R140, R150, R342, R365). -/
structure Counts where
  waits : Nat := 0
  pops  : Nat := 0
  cps   : Nat := 0
  push  : Tbl Nat := []
  bar   : Bool := false

/-- The counts after an instruction. -/
def Counts.add (q : Counts) (i : Instr) : Counts :=
  let q := if isWaiting i then { q with waits := q.waits + 1 } else q
  match i with
  | .strmPop .. => { q with pops := q.pops + 1 }
  | .cpPush .. => { q with cps := q.cps + 1 }
  | .strmPushData _ ch | .strmPushIndex _ ch | .strmPushDone _ ch | .strmPushStop _ _ ch =>
    { q with push := q.push.modify 0 ch.toNat (· + 1) }
  | _ => { q with bar := q.bar || barsLoads i }

/-- A limit is exceeded by this instruction. -/
def Counts.exceeds (before after : Counts) (i : Instr) : Bool :=
  decide (1 < after.waits) || decide (16 < after.pops) || decide (8 < after.cps) || after.push.any (fun e => decide (8 < e.2))
    || (before.bar && isLoad i)

/-- Step 5: each instruction slot in order; `lits` literal words are still to pass. No instruction names a feature bit, so
FEATURE is not raised (R109). -/
def checkSlots (h : Word32) : Nat → Nat → Counts → List Word32 → Except FetchFault (List Slot)
  | _, _, _, [] => .ok []
  | n, lits + 1, q, w :: ws =>
    match checkSlots h (n + 1) lits q ws with
    | .error f => .error f
    | .ok sl => .ok ({ word := w, lit := true } :: sl)
  | n, 0, q, w :: ws =>
    match decodeWord w with
    | .error _ => .error { cause := 0x01, slot := n, i0 := w.setWidth 64 }
    | .ok i =>
      let lits := match i with
        | .lit .one _ _ => 1
        | .lit .two _ _ => 2
        | _ => 0
      if ws.length < lits then .error { cause := 0x02, slot := n, i0 := h.setWidth 64 }
      else if (q.exceeds (q.add i) i) then .error { cause := 0x01, slot := n, i0 := w.setWidth 64 }
      else
        match checkSlots h (n + 1) lits (q.add i) ws with
        | .error f => .error f
        | .ok sl => .ok ({ word := w } :: sl)

/-- The target fields of all slots, with the slot that holds each. -/
def allTargets (sl : List Slot) : List Target := sl.flatMap fun s => (s.instr.map targetsOf).getD []

/-- How many target fields name an operand of a slot (R84, R85). -/
def feedersOf (ts : List Target) (kind n : Nat) : Nat :=
  (ts.filter fun t => Target.kind t == kind && Target.index t == n).length

/-- A target field that breaks R84. -/
def badTarget (sl : List Slot) (n : Nat) (i : Instr) (t : Target) : Bool :=
  match Target.kind t with
  | 0 => Target.index t != 0
  | 5 => false
  | 6 => true
  | 7 => true
  | kind =>
    decide (Target.index t ≤ n) || decide (sl.length ≤ Target.index t) || classOf i == .D ||
      match (sl[Target.index t]?.bind Slot.instr) with
      | none => true
      | some j =>
        match kind with
        | 1 => !(usesOf j).a
        | 2 => !(usesOf j).b
        | 3 => !(usesOf j).c
        | _ => predOf j == .always

/-- A slot that breaks R84: one of its fields does, or an operand it uses or its predicate is named by no field. -/
def badSlot (sl : List Slot) (ts : List Target) (n : Nat) (s : Slot) : Bool :=
  match s.instr with
  | none => false
  | some i =>
    (targetsOf i).any (badTarget sl n i)
      || ((usesOf i).a && feedersOf ts 1 n == 0) || ((usesOf i).b && feedersOf ts 2 n == 0)
      || ((usesOf i).c && feedersOf ts 3 n == 0) || (predOf i != .always && feedersOf ts 4 n == 0)

/-- The first slot that breaks R84, from slot `n` on. -/
def firstBad (all : List Slot) (ts : List Target) : Nat → List Slot → Option FetchFault
  | _, [] => none
  | n, s :: rest => if badSlot all ts n s then some { cause := 0x03, slot := n, i0 := s.word.setWidth 64 } else firstBad all ts (n + 1) rest

/-- W, M and LIT of the header against the slots (R80, R81). -/
def countsOk (h : Word32) (sl : List Slot) : Bool :=
  let is := sl.filterMap Slot.instr
  let w := ((is.filter fun i => classOf i == .V || classOf i == .X).flatMap targetsOf).countP fun t => Target.kind t == 5
  let m := is.countP fun i => classOf i == .M || classOf i == .D
  let l := is.any fun i => match i with
    | .lit .. => true
    | _ => false
  field h 20 6 == w && field h 14 6 == m && bitAt h 13 == l

/-- The slots with the number of fields that name each operand (R85). -/
def withFeeders (ts : List Target) : Nat → List Slot → List Slot
  | _, [] => []
  | n, s :: rest =>
    { s with
      a := { s.a with feeders := feedersOf ts 1 n }
      b := { s.b with feeders := feedersOf ts 2 n }
      c := { s.c with feeders := feedersOf ts 3 n }
      p := { s.p with feeders := feedersOf ts 4 n } } :: withFeeders ts (n + 1) rest

/-- Steps 1 to 7: the header and the checked slots, or the first failure. -/
def Dev.fetchBlock (m : Memory) (d : Dev) (k : Cast) : Except FetchFault (Word32 × List Slot) × Dev :=
  let va := k.th.pc
  if va.toNat % 4 ≠ 0 then (.error { cause := 0x07, i0 := va }, d)
  else
    match Dev.fetchWord m d k va with
    | (.error f, d) => (.error f, d)
    | (.ok h, d) =>
      if !headerOk h then (.error { cause := 0x02, i0 := h.setWidth 64 }, d)
      else
        match Dev.fetchWords m k (headerSlots h) (va + 4) d with
        | (.error f, d) => (.error f, d)
        | (.ok ws, d) =>
          match checkSlots h 0 0 {} (patched k h (k.codeWordNo va + 1) ws) with
          | .error f => (.error f, d)
          | .ok sl =>
            match firstBad sl (allTargets sl) 0 sl with
            | some f => (.error f, d)
            | none =>
              if countsOk h sl then (.ok (h, withFeeders (allTargets sl) 0 sl), d)
              else (.error { cause := 0x02, i0 := h.setWidth 64 }, d)

/-- The block has ENTRY = 1, or is the first after LOAD: the thread waits at it unless a task has just started it, or a handler
runs it (R33, R183). -/
def Thread.waitsAtEntry (t : Thread) (h : Word32) : Bool := (bitAt h 11 || t.first) && !t.inh && !t.startTask

/-- BLOCK_FETCH. -/
def execBlockFetch (c : Nat) (s : State) : Res :=
  match s.dev.casts.find c with
  | none => .next s
  | some k =>
    match k.th.mode with
    | .fetch _ =>
      match Dev.fetchBlock s.mem s.dev k with
      | (.error f, d) =>
        .next { s with dev := d.takeTrap c { cause := f.cause, sub := f.sub, slot := f.slot, i0 := f.i0, i1 := f.i1, restart := k.th.pc } }
      | (.ok (h, sl), d) =>
        if !k.th.inh && k.th.asyncQ.head?.any (fun a => decide (a.at_ < d.now)) then .next { s with dev := d.modTh c fun t => { t with mode := .asyncNext } }
        else if k.th.waitsAtEntry h then
          .next { s with dev := d.modTh c fun t => { t with mode := .atEntry, first := false } }
        else
          let b : Block := { addr := k.th.pc, header := h, seq := k.th.seq, begun := false, slots := sl, sys := [], writes := [],
                             effects := [], exit := none, clock := d.now, fires := 0, clash := none }
          let d := d.modTh c fun t => { t with mode := .running, blk := some b, first := false }
          .next { s with dev := d.tryBegin c }
    | _ => .next s

/-! ### Delivery (R85, R86) -/

/-- A result or NULL reaches an operand: the operand, and whether OPCLASH arises (R85). -/
def Operand.receive (o : Operand) (offNull : Bool) (v : Option Word) : Operand × Bool :=
  match v with
  | none => ({ o with nulls := o.nulls + 1 }, false)
  | some x => if o.val.isSome || offNull then (o, true) else ({ o with val := some x }, false)

/-- The operand of a target field in a slot. -/
def Slot.receive (sl : Slot) (kind : Nat) (v : Option Word) : Slot × Bool :=
  let late := decide (0 < sl.a.feeders ∧ sl.a.feeders ≤ sl.a.nulls)
  match kind with
  | 1 => ({ sl with a := (sl.a.receive late v).1 }, (sl.a.receive late v).2)
  | 2 =>
    let late := decide (0 < sl.b.feeders ∧ sl.b.feeders ≤ sl.b.nulls)
    ({ sl with b := (sl.b.receive late v).1 }, (sl.b.receive late v).2)
  | 3 =>
    let late := decide (0 < sl.c.feeders ∧ sl.c.feeders ≤ sl.c.nulls)
    ({ sl with c := (sl.c.receive late v).1 }, (sl.c.receive late v).2)
  | _ =>
    let late := decide (0 < sl.p.feeders ∧ sl.p.feeders ≤ sl.p.nulls)
    ({ sl with p := (sl.p.receive late v).1 }, (sl.p.receive late v).2)

/-- One target field served: an operand of a slot, or a register write (R83). -/
def Block.serve (b : Block) (from_ : Nat) (v : Option Word) (t : Target) : Block :=
  match Target.kind t with
  | 0 => b
  | 5 => { b with writes := insertBySlot from_ (Target.index t, v) b.writes }
  | kind =>
    match b.slots[Target.index t]? with
    | none => b
    | some sl =>
      let r := sl.receive kind v
      { b with
        slots := b.slots.set (Target.index t) r.1
        clash := if r.2 then some (min (Target.index t) (b.clash.getD (Target.index t))) else b.clash }

/-- SLOT_RESULT_DELIVER: the result reaches every target of its slot; a result of a discarded block reaches none. -/
def execSlotResultDeliver (c seq n : Nat) (v : Option Word) (s : State) : Res :=
  match s.dev.casts.find c with
  | none => .next s
  | some k =>
    match k.th.blk with
    | none => .next s
    | some b =>
      if b.seq ≠ seq then .next s
      else
        match b.slots[n]?.bind Slot.instr with
        | none => .next s
        | some i =>
          let b' := (targetsOf i).foldl (fun b t => b.serve n v t) b
          let b' := b'.modSlot n fun sl => { sl with load := none, phase := if sl.phase = .off then .off else .done }
          .next { s with dev := (s.dev.modTh c fun t => { t with blk := some b' }).tryCommit c }

/-- OPCLASH found in this clock is taken once no lower slot of the block can name a trap (R85, R95). -/
def Dev.clashTrap (d : Dev) (c : Nat) : Dev :=
  match d.casts.find c with
  | none => d
  | some k =>
    match k.th.blk with
    | none => d
    | some b =>
      match b.clash with
      | none => d
      | some n =>
        d.takeTrap c { cause := 0x04, slot := n, i0 := ((b.slots[n]?.map Slot.word).getD 0).setWidth 64, restart := b.addr }

/-! ### Asynchronous causes (R186) -/

/-- ASYNC_CAUSE_ARRIVE. -/
def execAsyncCauseArrive (c : Nat) (a : AsyncCause) (s : State) : Res := .next { s with dev := s.dev.raiseAsync c a }

/-- ASYNC_TRAP_TAKE: the oldest queued cause, between blocks and outside a handler; TPC is the block to be fetched next. -/
def execAsyncTrapTake (c : Nat) (s : State) : Res :=
  match s.dev.casts.find c with
  | none => .next s
  | some k =>
    match k.th.asyncQ with
    | [] => .next s
    | a :: rest =>
      if k.th.inh || k.th.blk.isSome then .next s
      else
        let d := s.dev.modTh c fun t => { t with asyncQ := rest }
        .next { s with dev := d.takeTrap c { cause := a.code, sub := a.sub, async := true, i0 := a.info0, i1 := a.info1,
                                             i2 := a.info2, i3 := a.info3, restart := k.th.pc } }

/-! ### Replies (R94) -/

/-- CLASS_D_REPLY. -/
def execClassDReply (c pid : Nat) (v0 v1 : Word) (s : State) : Res := .next { s with dev := s.dev.reply c pid v0 v1 }

/-! ### Pre-emption (R96, R187) -/

/-- The thread halts at a block boundary: an uncommitted block is discarded and restarts from its first slot; a pause of YIELD
ends with nothing more done (R430). -/
def Thread.halt (t : Thread) (now : Nat) : Thread :=
  match t.blk with
  | some b => { t.discard with pc := b.addr, mode := .fetch now }
  | none =>
    match t.mode with
    | .pausing _ => { t with mode := .fetch now }
    | _ => t

/-- A cast is frozen with its thread halted (R187): a trap found in this clock is entered first. A suspension at YIELD that has begun is
given up (R430). -/
def Dev.freeze (d : Dev) (c : Nat) : Dev :=
  (d.clashTrap c).modCast c fun k =>
    { (k.stand d.now) with saving := k.saving.filter fun x => x != .yield, th := k.th.halt d.now }

/-- PREEMPT_HALT. -/
def execPreemptHalt (c : Nat) (s : State) : Res := .next { s with dev := s.dev.freeze c }

end Sys2Proof.Machine
end

