-- ==== Sys2Proof/Machine/Image.lean ====
section
/-!
DEFINITION. Reading a mould image (R377 to R381): the checks of steps 1 and 3 of LOAD (R390), and what the sections say.
-/
namespace Sys2Proof.Machine

/-- A number of `n` bytes at an offset, least significant first (R7). -/
def num (b : List Byte) (off n : Nat) : Nat := leNat ((b.drop off).take n)

/-- The offset of the first condition that does not hold. -/
def firstFalse : List (Bool × Nat) → Option Nat
  | [] => none
  | (ok, off) :: rest => if ok then firstFalse rest else some off

/-- Bytes that must be zero. -/
def zeros (b : List Byte) (off n : Nat) : List (Bool × Nat) := (List.range n).map fun i => (num b (off + i) 1 == 0, off + i)

/-! ### Header and directory (R377, R378) -/

/-- A directory entry: the offset of the entry itself, then its fields. -/
structure Section where
  at_ : Nat
  typ : Nat
  gen : Nat
  var_ : Nat
  off : Nat
  len : Nat
  count : Nat
deriving DecidableEq, Repr

def secOf (b : List Byte) (i : Nat) : Section :=
  let a := 64 + 16 * i
  { at_ := a, typ := num b a 2, gen := num b (a + 2) 1, var_ := num b (a + 3) 1, off := num b (a + 4) 4, len := num b (a + 8) 4,
    count := num b (a + 12) 4 }

def imgSize (b : List Byte) : Nat := num b 8 4
def imgMinor (b : List Byte) : Nat := num b 4 2

/-- The header after MAJOR: SIZE, WB, HB, NSEC, the Zero bytes. -/
def badHeader (b : List Byte) : Option Nat :=
  firstFalse ([(decide (64 + 16 * num b 14 2 ≤ imgSize b), 8), (decide (1 ≤ num b 12 1 ∧ num b 12 1 ≤ 24), 12),
    (decide (1 ≤ num b 13 1 ∧ num b 13 1 ≤ 12), 13), (decide (1 ≤ num b 14 2 ∧ num b 14 2 ≤ 64), 14)] ++ zeros b 48 16)

/-- The sections that R378 lists; others are ignored when MINOR is above 0. -/
def sections (b : List Byte) : List Section := (List.range (num b 14 2)).map (secOf b)
def known (b : List Byte) : List Section := (sections b).filter fun s => decide (1 ≤ s.typ ∧ s.typ ≤ 10)

/-- Bytes of an entry, for the sections made of entries. -/
def entrySize (typ : Nat) : Option Nat :=
  match typ with
  | 3 => some 24
  | 4 => some 16
  | 5 => some 8
  | 6 => some 64
  | 7 => some 24
  | 8 => some 8
  | _ => none

/-- The section of a type, for CFG and LINKS of a variant. -/
def sect? (b : List Byte) (typ var_ : Nat) : Option Section := (known b).find? fun s => s.typ == typ && s.var_ == var_

/-- NVAR (R439), 1 without a VARIANTS section. -/
def nvar (b : List Byte) : Nat := ((sect? b 9 0).map fun s => num b s.off 1).getD 1

/-- One entry of the directory. -/
def badEntry (b : List Byte) (before : List Section) (s : Section) : Option Nat :=
  if s.typ = 0 ∨ 10 < s.typ then (if imgMinor b = 0 then some s.at_ else none)
  else
    firstFalse
      [(!(before.any fun t => t.typ == s.typ && t.var_ == s.var_ && t.gen == s.gen), s.at_),
       (s.typ == 1 || s.gen == 0, s.at_ + 2),
       (if s.typ = 3 ∨ s.typ = 4 then decide (s.var_ < 4) else s.var_ == 0, s.at_ + 3),
       (s.off % 8 == 0, s.at_ + 4),
       (decide (s.off + s.len ≤ imgSize b), s.at_ + 8),
       (match entrySize s.typ with
        | some n => s.len == n * s.count
        | none => s.count == 0, s.at_ + 12)]

def badDirFrom (b : List Byte) : List Section → List Section → Option Nat
  | _, [] => none
  | before, s :: rest => (badEntry b before s).or (badDirFrom b (before ++ [s]) rest)

/-! ### Layout of the sections (R378, R420, R439) -/

/-- The offsets of a section's entries. -/
def entryOffs (s : Section) (n : Nat) : List Nat := (List.range s.count).map fun i => s.off + n * i

def badCfg (b : List Byte) (wb hb o : Nat) : Option Nat :=
  firstFalse ([(decide (num b o 1 < 4), o), (decide (num b (o + 1) 1 < 2), o + 1), (decide (num b (o + 2) 1 < 6 * wb), o + 2),
    (decide (num b (o + 3) 1 < 6 * hb), o + 3)] ++ zeros b (o + 4) 4)

def badLink (b : List Byte) (wb hb o : Nat) : Option Nat :=
  firstFalse ([(decide (num b o 1 < 4), o), (decide (num b (o + 1) 1 < 6 * wb), o + 1), (decide (num b (o + 2) 1 < 6 * hb), o + 2),
    (decide (num b (o + 3) 1 < 2), o + 3), (decide (num b (o + 4) 1 < 6 * wb), o + 4), (decide (num b (o + 5) 1 < 6 * hb), o + 5),
    (decide (num b (o + 6) 1 < 4), o + 6), (decide (num b (o + 7) 1 < 8), o + 7), (decide (num b (o + 8) 1 < 16), o + 8)]
    ++ zeros b (o + 9) 7)

def badPort (b : List Byte) (wb hb o : Nat) : Option Nat :=
  firstFalse ([(decide (num b o 1 < 6 * wb), o), (decide (num b (o + 1) 1 < 6 * hb), o + 1), (decide (num b (o + 2) 1 < 6), o + 2),
    (decide (num b (o + 3) 1 < 2), o + 3), (decide (num b (o + 4) 1 < 16), o + 4), (decide (num b (o + 5) 1 < 2), o + 5)]
    ++ zeros b (o + 6) 2)

def badCut (b : List Byte) (nports nlinks o : Nat) : Option Nat :=
  let n := num b o 2
  firstFalse ((decide (1 ≤ n ∧ n ≤ 31), o)
    :: ((List.range n).map fun i =>
        let r := num b (o + 2 + 2 * i) 2
        (if 32768 ≤ r then decide (r - 32768 < nports) else decide (r < nlinks), o + 2 + 2 * i))
    ++ zeros b (o + 2 + 2 * n) (62 - 2 * n))

def badWset (b : List Byte) (o : Nat) : Option Nat :=
  firstFalse ([(decide (num b o 1 < 4), o), (decide (1 ≤ num b (o + 1) 1 ∧ num b (o + 1) 1 ≤ 3), o + 1), (decide (num b (o + 2) 1 < 4), o + 2)]
    ++ zeros b (o + 3) 5)

def badEnergy (b : List Byte) (o : Nat) : Option Nat := firstFalse ((decide (num b o 1 < 4), o) :: zeros b (o + 1) 3)

/-- The bytes of one variant's map, padded (R439). -/
def mapLen (wb hb : Nat) : Nat := (wb * hb + 7) / 8 * 8
def mapOff (s : Section) (wb hb v : Nat) : Nat := s.off + 8 + mapLen wb hb * v

/-- VARIANTS: its counts, its length, and in each map part indexes in range, zero padding and no part without a block. -/
def badVariants (b : List Byte) (wb hb : Nat) (s : Section) : Option Nat :=
  let nv := num b s.off 1
  let np := num b (s.off + 1) 1
  (firstFalse ([(decide (8 ≤ s.len), s.at_ + 8), (decide (1 ≤ nv ∧ nv ≤ 4), s.off), (decide (1 ≤ np ∧ np ≤ 8), s.off + 1)]
    ++ zeros b (s.off + 3) 5 ++ [(s.len == 8 + mapLen wb hb * nv, s.at_ + 8)])).or
  ((List.range nv).findSome? fun v =>
    let o := mapOff s wb hb v
    firstFalse (((List.range (wb * hb)).map fun i => (decide (num b (o + i) 1 < np), o + i))
      ++ zeros b (o + wb * hb) (mapLen wb hb - wb * hb)
      ++ (List.range np).map fun j => ((List.range (wb * hb)).any (fun i => num b (o + i) 1 == j), o)))

def badFaultMode (b : List Byte) (s : Section) : Option Nat :=
  firstFalse ([(s.len == 8, s.at_ + 8), (decide (num b s.off 1 < 2), s.off)] ++ zeros b (s.off + 1) 7)

/-- The number of entries of a section that may be absent. -/
def countOf (b : List Byte) (typ : Nat) : Nat := ((sect? b typ 0).map Section.count).getD 0

/-- The layout of one section. -/
def badSection (b : List Byte) (s : Section) : Option Nat :=
  let wb := num b 12 1
  let hb := num b 13 1
  match s.typ with
  | 3 => (if s.var_ < nvar b then none else some (s.at_ + 3)).or ((entryOffs s 24).findSome? (badCfg b wb hb))
  | 4 => (if s.var_ < nvar b then none else some (s.at_ + 3)).or ((entryOffs s 16).findSome? (badLink b wb hb))
  | 5 => (entryOffs s 8).findSome? (badPort b wb hb)
  | 6 => (entryOffs s 64).findSome? (badCut b (countOf b 5) (countOf b 4))
  | 7 => (entryOffs s 24).findSome? (badWset b)
  | 8 => (entryOffs s 8).findSome? (badEnergy b)
  | 9 => badVariants b wb hb s
  | 10 => badFaultMode b s
  | _ => none

/-- A CFG and a LINKS section for each variant (R378); a missing one is an inconsistency of NSEC. -/
def badVariantSections (b : List Byte) : Option Nat :=
  if (List.range (nvar b)).all fun v => (sect? b 3 v).isSome && (sect? b 4 v).isSome then none else some 14

/-- Step 1 after MAJOR, on a whole image: the offset of the first bad field. -/
def badImage (b : List Byte) : Option Nat :=
  (badHeader b).or ((badDirFrom b [] (sections b)).or (((known b).findSome? (badSection b)).or (badVariantSections b)))

/-! ### The native section (R379) -/

/-- The NATIVE section of generation 3. -/
def native? (b : List Byte) : Option Section := (known b).find? fun s => s.typ == 1 && s.gen == 3

/-- The code word at a byte offset of the code. -/
def codeWord (b : List Byte) (s : Section) (o : Nat) : Word32 := BitVec.ofNat 32 (num b (s.off + 16 + o) 4)

/-- A block header at an offset: well formed, and within CODESZ with its slots; the offset after the block. -/
def blockEnd (b : List Byte) (s : Section) (o : Nat) : Option Nat :=
  let h := codeWord b s o
  let e := o + 4 * (headerSlots h + 1)
  if o + 4 ≤ num b s.off 4 ∧ headerOk h ∧ e ≤ num b s.off 4 then some e else none

/-- Every header passed from an offset on, up to `target`, which must be met exactly. -/
def walkTo (b : List Byte) (s : Section) (target : Nat) : Nat → Nat → Bool
  | 0, _ => false
  | fuel + 1, o =>
    match blockEnd b s o with
    | none => false
    | some e => if o = target then true else if target < o then false else walkTo b s target fuel e

/-- Step 3: CODESZ, NPATCH, the patch entries' layout and ENTRY. -/
def badNative (b : List Byte) (s : Section) : Option Nat :=
  let sz := num b s.off 4
  let np := num b (s.off + 4) 4
  let entry := num b (s.off + 8) 4
  let p0 := s.off + 16 + sz
  firstFalse ([(decide (16 ≤ s.len), s.at_ + 8), (sz % 4 == 0 && decide (16 + sz ≤ s.len), s.off),
      (decide (16 + sz + 8 * np ≤ s.len), s.off + 4)] ++ zeros b (s.off + 12) 4
    ++ ((List.range np).flatMap fun i =>
        (num b (p0 + 8 * i + 5) 1 == 32 || num b (p0 + 8 * i + 5) 1 == 64, p0 + 8 * i + 5) :: zeros b (p0 + 8 * i + 6) 2)
    ++ [(entry % 4 == 0 && decide (entry < sz) && bitAt (codeWord b s entry) 11 && walkTo b s entry (sz / 4 + 1) 0, s.off + 8)])

/-! ### What the sections say -/

def cfgAt (b : List Byte) (o : Nat) : CfgEnt :=
  { ctx := num b o 1, scw := num b (o + 1) 1 == 1, x := num b (o + 2) 1, y := num b (o + 3) 1, word := BitVec.ofNat 128 (num b (o + 8) 16) }

def linkAt (b : List Byte) (o : Nat) : LinkEnt :=
  { ctx := num b o 1, px := num b (o + 1) 1, py := num b (o + 2) 1, out := num b (o + 3) 1, cx := num b (o + 4) 1,
    cy := num b (o + 5) 1, inp := num b (o + 6) 1, slots := num b (o + 7) 1, fmt := num b (o + 8) 1 }

def portAt (b : List Byte) (o : Nat) : PortEnt :=
  { x := num b o 1, y := num b (o + 1) 1, local_ := num b (o + 2) 1, dir := num b (o + 3) 1, fmt := num b (o + 4) 1, net := num b (o + 5) 1 }

def cutAt (b : List Byte) (o : Nat) : List Nat := (List.range (num b o 2)).map fun i => num b (o + 2 + 2 * i) 2

def wsetAt (b : List Byte) (o : Nat) : WsetEnt :=
  { ix := num b o 1, lvl := num b (o + 1) 1, pflags := num b (o + 2) 1, base := BitVec.ofNat 64 (num b (o + 8) 8),
    size := BitVec.ofNat 64 (num b (o + 16) 8) }

/-- The entries of a section, none when it is absent. -/
def entriesOf {α : Type} (b : List Byte) (typ var_ n : Nat) (f : List Byte → Nat → α) : List α :=
  ((sect? b typ var_).map fun s => (entryOffs s n).map (f b)).getD []

/-- The mould that a checked image describes. -/
def mouldOf (b : List Byte) : Mould :=
  let wb := num b 12 1
  let hb := num b 13 1
  let vs := sect? b 9 0
  let code := native? b
  { bytes := b.take (imgSize b), wb := wb, hb := hb
    variants := (List.range (nvar b)).map fun v =>
      { cfg := entriesOf b 3 v 24 cfgAt, links := entriesOf b 4 v 16 linkAt
        parts := (vs.map fun s => (List.range (wb * hb)).map fun i => num b (mapOff s wb hb v + i) 1).getD [] }
    nparts := (vs.map fun s => num b (s.off + 1) 1).getD 1
    hyst := (vs.map fun s => num b (s.off + 2) 1).getD 0
    ports := entriesOf b 5 0 8 portAt
    cuts := entriesOf b 6 0 64 cutAt
    wset := entriesOf b 7 0 24 wsetAt
    energy := entriesOf b 8 0 8 fun b o => (num b o 1, num b (o + 4) 4)
    trap := ((sect? b 10 0).map fun s => num b s.off 1 == 1).getD false
    codeOff := (code.map fun s => s.off + 16).getD 0
    codeSz := (code.map fun s => num b s.off 4).getD 0
    entry := (code.map fun s => num b (s.off + 8) 4).getD 0
    patches := (code.map fun s => (List.range (num b (s.off + 4) 4)).map fun i =>
      let o := s.off + 16 + num b s.off 4 + 8 * i
      (num b o 4, num b (o + 4) 1, num b (o + 5) 1)).getD [] }

end Sys2Proof.Machine
end

