-- ==== Sys2Proof/Machine/Validate.lean ====
section
/-!
DEFINITION. The checks of LOAD on configuration words, armature, links, control lines and patch points (R390, steps 6 to 8), on a
mould's variant laid out at a position.
-/
namespace Sys2Proof.Machine

/-! ### A variant laid out -/

/-- A site with a configuration word of a context. -/
def Site.withCfg (s : Site) (c : CfgEnt) : Site :=
  if c.scw then { s with scw := s.scw.set 0 c.ctx c.word } else { s with ecw := s.ecw.set 0 c.ctx c.word }

/-- The sites that a CFG section names, with their contexts. -/
def sitesOf (cfg : List CfgEnt) : Tbl Site :=
  cfg.foldl (fun t c => t.modify { el := freshElem (siteNo c.x c.y) } (siteNo c.x c.y) fun s => s.withCfg c) []

/-- A variant of a mould, by number. -/
def Mould.variant (m : Mould) (v : Nat) : Variant := m.variants.getD v {}

/-- The mould's variant `v` at a position, with no thread and no port. -/
def Mould.lay (m : Mould) (v tenant bx by_ : Nat) : Cast :=
  { tenant := tenant, bx := bx, by_ := by_, wb := m.wb, hb := m.hb, mould := m, variant := v, sites := sitesOf (m.variant v).cfg }

/-- Every relative site of a cast, by y, then x. -/
def Cast.allSites (k : Cast) : List Nat :=
  (List.range (6 * k.hb)).flatMap fun y => (List.range (6 * k.wb)).map fun x => siteNo x y

/-- The device with no wall within a cast's rectangle, so that routes can be followed before the cast is placed. -/
def Dev.unwalled (d : Dev) (k : Cast) : Dev :=
  { d with walls := (k.allSites.map fun n => (144 * k.pkgY n + k.pkgX n, (0 : BitVec 64))) }

/-- A status with its DETAIL (R386). -/
abbrev Bad := Nat × Word

/-- The DETAIL of BADECW, BADARM and CTLROUTE. -/
def Cast.siteDetail (k : Cast) (n ctx : Nat) (scw : Bool) (v : Nat) : Word :=
  BitVec.ofNat 64 (k.pkgX n + 2 ^ 8 * k.pkgY n + 2 ^ 16 * siteX n + 2 ^ 24 * siteY n + 2 ^ 32 * ctx + 2 ^ 34 * bit scw + 2 ^ 35 * v)

/-! ### ECW (R190 to R193, R200, R202, R221, R250, R266, R284, R319) -/

/-- The site is one of the three of an MX beside its anchor. -/
def besideAnchor (n : Nat) : Bool := kindOf n == .mx && mxAnchor (siteX n) (siteY n) != n

/-- KIND is legal and matches the site. -/
def kindOk (n : Nat) (e : BitVec 128) : Bool :=
  if besideAnchor n then e == BitVec.ofNat 128 (5 * 2 ^ 28)
  else
    match ecwKind e with
    | 0 => kindOf n == .ve
    | 1 => kindOf n == .mx
    | 2 => kindOf n == .sb
    | 3 => kindOf n == .so
    | 4 => kindOf n == .cx
    | 5 => true
    | _ => false

/-- SEL and SLOTS of an input. -/
def inputOk (n : Nat) (e : BitVec 128) (p : InPort) : Bool :=
  let sel := inSel e p
  let wide := inWide e p
  if ecwIn e p then
    decide (1 ≤ sel) &&
      (if sel ≤ 8 then wide else if sel ≤ 24 then !wide else if sel ≤ 26 then wide else sel == 27 && !wide && (attached n).isSome)
  else inByte e p == 0

/-- The half-word of an output. -/
def outputOk (e : BitVec 128) (o : OutPort) : Bool := ecwOut e o == decide (1 ≤ outHalf e o % 8) && outHalf e o / 128 == 0

/-- The enables as bit sets. -/
def ecwInen (e : BitVec 128) : Nat := field e 8 4
def ecwOuten (e : BitVec 128) : Nat := field e 6 2

def veOk (e : BitVec 128) : Bool :=
  let op := ecwOp e
  let f := ecwFmt e
  let b := veBsel e
  let c := veCsel e
  let z := veZuse e
  veKnown op && (f == 1 || f == 2 || f == 3 || f == 7 || f == 8 || f == 9 || f == 10)
    && !(veFloatOnly op && isInt f) && !(veIntOnly op && !isInt f) && (!isInt f || field e 12 3 == 0)
    && b != 3 && c != 3 && (veUsesB op || b == 0) && (veUsesC op || c == 0)
    && !(b == 2 && (op == 0x30 || op == 0x31 || op == 0x33))
    && ecwIn e .a && ecwIn e .b == (veUsesB op && b == 0) && ecwIn e .c == (veUsesC op && c == 0)
    && (ecwOut e .y || (veReduces op && z == 2)) && z != 3 && (z != 2 || veReduces op) && ecwOut e .z == (z != 0)

def mxOk (e : BitVec 128) : Bool :=
  ecwOp e == 1 && mxWeightFmt (ecwFmt e) && ecwMode e == 0 && ecwIn e .d && !ecwIn e .c && ecwOut e .y && field e 4 2 == 0
    && decide (field e 0 4 ≤ 8)

def sbOk (e : BitVec 128) : Bool :=
  let ins := (if sbWrites e then 2 else 0) + (if sbGen e then 0 else 1)
  decide (1 ≤ ecwOp e ∧ ecwOp e ≤ 4) && field e 14 2 == 0 && field e 3 3 == 0 && ecwInen e == ins
    && ecwOuten e == (if sbWrites e then 0 else 1)

/-- The MX format of an element format, and back: E4M3, E5M2 and E2M1 (R250). -/
def mxOfElement (f : Nat) : Option Nat :=
  match f with
  | 4 => some 0xB
  | 5 => some 0xC
  | 6 => some 0xD
  | _ => none

def cxOk (e : BitVec 128) : Bool :=
  let op := ecwOp e
  let i := cxIfmt e
  let f := ecwFmt e
  let narrow := cxNarrow e
  decide (1 ≤ op ∧ op ≤ 4) && i != 0 && i != 0xE && f != 0 && f != 0xE
    && (match op with
      | 1 => !isMx f && !(narrow && (isMx i || isMx f || i == 0xF || f == 0xF))
      | 2 => (i == 1 || i == 2 || i == 3) && isMx f && !narrow
      | 3 => mxOfElement i == some f && !narrow && !cxKs e
      | _ => mxOfElement f == some i && !narrow && !cxKs e)
    && ecwInen e == (if op = 3 then 3 else 1)
    && ecwOut e .y && (op != 4 || ecwOut e .z) && (op != 3 || !ecwOut e .z)

/-- A value format of R314. -/
def soValueFmt (f : Nat) : Bool := f == 1 || f == 2 || f == 3 || f == 4 || f == 5 || f == 7 || f == 8 || f == 9 || f == 10 || f == 15

def soOk (e : BitVec 128) : Bool :=
  let op := ecwOp e
  let f := ecwFmt e
  let fmtOk := match op with
    | 0x06 => f == 1 || f == 2 || f == 3 || f == 7 || f == 8 || f == 9 || f == 10
    | 0x0A => f == 1 || f == 2 || f == 3 || f == 7 || f == 8 || f == 9 || f == 10
    | 0x07 => soValueFmt f
    | 0x08 => if soOpt e then soValueFmt f else f == 0
    | 0x09 => f == 0 || soValueFmt f
    | 0x0B => soValueFmt f
    | 0x0C => soValueFmt f
    | _ => f == 0
  let hasOpt := op == 1 || op == 2 || op == 8 || op == 0x0B || op == 0x0C
  let modeOk := op == 6 || op == 0x0A || (field e 13 3 == 0 && (hasOpt || !soOpt e))
  let mayB := op == 3 || op == 4 || op == 5 || op == 6 || op == 9
  let mayZ := op == 3 || op == 4 || op == 9 || op == 0x0B
  decide (1 ≤ op ∧ op ≤ 0x0C) && fmtOk && modeOk && ecwIn e .a && field e 10 2 == 0 && (ecwOut e .y || op == 8)
    && (mayB || !ecwIn e .b) && (mayZ || !ecwOut e .z) && (!(op == 3 || op == 4 || op == 5) || ecwIn e .b)
    && (soMemory e || field e 3 3 == 0) && (soDescribed e || soDoff e == 0)

def swOk (e : BitVec 128) : Bool :=
  field e 13 3 == 0 && ecwFmt e == 0 && field e 0 6 == 0 && !ecwOut e .z &&
    match ecwOp e with
    | 0 => ecwInen e == 0 && ecwOuten e == 0
    | 1 => ecwInen e == 3 && ecwOut e .y
    | 2 => ecwIn e .a && ecwOut e .y
    | _ => false

/-- The bank that an operator binds is unused in the context, and no other operator binds it (R319). -/
def Cast.bankFree (k : Cast) (ctx n : Nat) (e : BitVec 128) : Bool :=
  !soMemory e ||
    ((k.site (soBank n e)).ecw.get 0 ctx == 0 && k.sites.all fun q =>
      let e' := q.2.ecw.get 0 ctx
      q.1 == n || !(ecwKind e' == 3 && e' != 0 && soMemory e' && soBank q.1 e' == soBank n e))

/-- The ECW of a site in a context passes R200, but for NDEST and MINSLOT. -/
def Cast.ecwOk (k : Cast) (ctx n : Nat) : Bool :=
  let e := (k.site n).ecw.get 0 ctx
  e == 0 ||
    (kindOk n e && allInPorts.all (inputOk n e) && outputOk e .y && outputOk e .z &&
      match ecwKind e with
      | 0 => veOk e
      | 1 => mxOk e
      | 2 => sbOk e
      | 3 => soOk e && k.bankFree ctx n e
      | 4 => cxOk e
      | _ => besideAnchor n || swOk e)

/-! ### SCW (R194 to R196, R199) -/

/-- One crossbar selector. -/
def selectorOk (n : Nat) (e : BitVec 128) (wide : Bool) (lane code : Nat) : Bool :=
  match code with
  | 0 => true
  | 5 => ecwOut e .y && outWide e .y == wide
  | 6 => ecwOut e .z && outWide e .z == wide
  | 7 => !wide && (attached n).isSome
  | c => lane / (if wide then 2 else 4) + 1 != c

/-- The site listens to a bus in a context. -/
def listens (e : BitVec 128) : Bool := allInPorts.any fun p => ecwIn e p && (inSel e p == 0x19 || inSel e p == 0x1A)

/-- The sites of the bus that a site drives, or listens to. -/
def busSites (n : Nat) (col : Bool) : List Nat :=
  let x0 := siteX n / 6 * 6
  let y0 := siteY n / 6 * 6
  (List.range 6).map fun i => if col then siteNo (siteX n) (y0 + i) else siteNo (x0 + i) (siteY n)

/-- The bus rules (R199). -/
def Cast.busOk (k : Cast) (ctx n : Nat) : Bool :=
  let w := (k.site n).scw.get 0 ctx
  let e := (k.site n).ecw.get 0 ctx
  let drv := field w 78 2
  drv != 3 && !(listens e && (field w 72 3 == 7 || field w 75 3 == 7)) &&
    (drv == 0 ||
      (ecwOut e .y && outWide e .y && !listens e && !(k.busRoutes ctx 0 n).isEmpty
        && (busSites n (drv == 2)).all fun m => m == n || field ((k.site m).scw.get 0 ctx) 78 2 != drv))

/-- The SCW of a site in a context passes R200. -/
def Cast.scwOk (k : Cast) (ctx n : Nat) : Bool :=
  let w := (k.site n).scw.get 0 ctx
  let e := (k.site n).ecw.get 0 ctx
  field w 124 4 == 0 && ((List.range 16).all fun l => selectorOk n e false l (xbar w false l))
    && ((List.range 8).all fun l => selectorOk n e true l (xbar w true l)) && k.busOk ctx n

/-- Step 6, BADECW: the first CFG entry that fails. -/
def Cast.badWords (k : Cast) (v : Nat) : Option Bad :=
  (k.mould.variant v).cfg.findSome? fun c =>
    let n := siteNo c.x c.y
    if (if c.scw then k.scwOk c.ctx n else k.ecwOk c.ctx n) then none else some (12, k.siteDetail n c.ctx c.scw v)

/-! ### The armature (R206, R283) -/

/-- The parent chain of a node reaches the root. -/
def Cast.reachesRoot (k : Cast) (ctx : Nat) : Nat → Nat → Bool
  | _, 0 => scwKind ((k.site 0).scw.get 0 ctx) != 0
  | 0, _ => false
  | fuel + 1, n =>
    let w := (k.site n).scw.get 0 ctx
    scwKind w != 0 && k.reachesRoot ctx fuel (scwParent w)

/-- The node of a site obeys R206; one at an MX anchor is no SEQ or PIPE node without children, whatever its ECW (R283). -/
def Cast.nodeOk (k : Cast) (ctx n : Nat) : Bool :=
  let w := (k.site n).scw.get 0 ctx
  let kids := k.childrenIn ctx n
  scwKind w == 0 ||
    (k.reachesRoot ctx k.sites.length n && (if n = 0 then scwParent w == 0 else k.inside (field w 82 8) (field w 90 7)) && decide (kids.length ≤ 8)
      && (scwKind w != 3 || scwCounters w == 0) && (!bitAt w 99 || decide (1 ≤ scwCounters w))
      && !(kindOf n == .mx && !besideAnchor n && kids.isEmpty && scwKind w != 3))

/-- Step 6, BADARM. -/
def Cast.badArmature (k : Cast) (v : Nat) : Option Bad :=
  (k.mould.variant v).cfg.findSome? fun c =>
    let n := siteNo c.x c.y
    if !c.scw || k.nodeOk c.ctx n then none else some (13, k.siteDetail n c.ctx true v)

/-! ### Routes (R24, R27, R197, R198) -/

/-- A side of a site faces a seam (R15). -/
def Cast.facesSeam (k : Cast) (p : Part) (n side : Nat) : Bool :=
  match side with
  | 0 => k.pkgY n == 36
  | 1 => (k.pkgX n + 1) % 36 == 0 && decide (k.pkgX n + 1 < 6 * p.columns)
  | 2 => k.pkgY n + 1 == 36
  | _ => k.pkgX n % 36 == 0 && decide (0 < k.pkgX n)

/-- A lane that a seam-facing port lacks (R197). -/
def Cast.laneMissing (k : Cast) (p : Part) (n side lane : Nat) (wide : Bool) : Bool :=
  k.facesSeam p n side && (if wide then decide (1 ≤ lane) else decide (2 ≤ lane))

/-- Lanes named that are missing at a seam: the site and the origin of what they carry. -/
def Cast.missingLanes (k : Cast) (part : Part) (ctx : Nat) : List (Nat × Origin) :=
  k.sites.flatMap fun q =>
    let n := q.1
    let w := q.2.scw.get 0 ctx
    let e := q.2.ecw.get 0 ctx
    [false, true].flatMap fun wide =>
      let per := lanesPer wide
      ((List.range (4 * per)).flatMap fun lane =>
        let c := xbar w wide lane
        (if c ≠ 0 ∧ k.laneMissing part n (lane / per) (lane % per) wide then [(n, k.laneOrigin ctx wide n lane)] else [])
          ++ (if 1 ≤ c ∧ c ≤ 4 ∧ k.laneMissing part n (c - 1) (lane % per) wide then [(n, k.laneOrigin ctx wide n lane)] else []))
      ++ (allInPorts.filter fun p => ecwIn e p).flatMap fun p =>
        let base := if wide then 1 else 9
        let i := inSel e p - base
        if base ≤ inSel e p ∧ i < 4 * per ∧ k.laneMissing part n (i / per) (i % per) wide then [(n, k.inOrigin ctx wide n (i / per) (i % per))]
        else []

/-- The PORTS entry at an output of a site. -/
def Cast.outEntry (k : Cast) (n : Nat) (o : OutPort) : Option PortEnt :=
  k.mould.ports.find? fun p => siteNo p.x p.y == n && p.dir == 1 && p.local_ == (if o = .z then 5 else 4)

/-- Lanes that leave the rectangle by another way than a port: the site and the origin (R198). A lane that comes in over the edge without a
port and is selected leads out of nothing; the model accepts it, and it carries no token (DESIGN CHOICE, log entry 114). -/
def Cast.leavingLanes (k : Cast) (ctx : Nat) : List (Nat × Origin) :=
  k.sites.flatMap fun q =>
    [false, true].flatMap fun wide =>
      let per := lanesPer wide
      (List.range (4 * per)).flatMap fun lane =>
        match xbar (q.2.scw.get 0 ctx) wide lane, k.beyond q.1 (lane / per) with
        | 0, _ => []
        | _, some _ => []
        | 5, none => if (k.outEntry q.1 .y).isSome then [] else [(q.1, .output q.1 .y)]
        | 6, none => if (k.outEntry q.1 .z).isSome then [] else [(q.1, .output q.1 .z)]
        | _, none => [(q.1, k.laneOrigin ctx wide q.1 lane)]

/-- Lanes that follow themselves round. -/
def Cast.loopLanes (k : Cast) (ctx : Nat) : List Nat :=
  k.sites.filterMap fun q =>
    if [false, true].any fun wide => (List.range (4 * lanesPer wide)).any fun lane =>
        match k.laneOrigin ctx wide q.1 lane with
        | .loop _ => true
        | _ => false
    then some q.1 else none

/-- The links from elements of a context, as routed: producer, output, and the route. -/
def Cast.routed (d : Dev) (k : Cast) (ctx : Nat) : List (Nat × OutPort × Route) :=
  k.sites.flatMap fun q =>
    let e := q.2.ecw.get 0 ctx
    (enabledOutputs e).flatMap fun o => (k.routes d ctx 0 q.1 o (outWide e o)).map fun r => (q.1, o, r)

/-- The SLOTS of an input in a context. -/
def Cast.slotsAt (k : Cast) (ctx n : Nat) (p : InPort) : Nat := inSlots ((k.site n).ecw.get 0 ctx) p

/-- Sites that links without slots reach from a set of sites (R27). -/
def Cast.zeroReach (k : Cast) (ctx : Nat) (links : List (Nat × OutPort × Route)) : Nat → List Nat → List Nat
  | 0, seen => seen
  | fuel + 1, seen =>
    let more := links.filterMap fun l => match l.2.2.dst with
      | .input m p _ => if seen.contains l.1 ∧ !seen.contains m ∧ k.slotsAt ctx m p = 0 then some m else none
      | _ => none
    if more.isEmpty then seen else k.zeroReach ctx links fuel (seen ++ more)

/-- The input that a LINKS entry names. -/
def LinkEnt.input (l : LinkEnt) : InPort := allInPorts.getD l.inp .a
def LinkEnt.output (l : LinkEnt) : OutPort := if l.out = 1 then .z else .y
def LinkEnt.producer (l : LinkEnt) : Nat := siteNo l.px l.py
def LinkEnt.consumer (l : LinkEnt) : Nat := siteNo l.cx l.cy

/-! ### Formats (R258, R285, R314) -/

/-- The formats that an output emits; none stands for any one. -/
def outFmt (e : BitVec 128) (o : OutPort) : Option Nat :=
  match ecwKind e, o with
  | 0, .y => some (ecwFmt e)
  | 0, .z => some (if veZuse e = 2 then ecwFmt e else 0)
  | 1, .y => some 1
  | 1, .z => some 0
  | 2, _ => some (ecwFmt e)
  | 3, .y => some (match ecwOp e with
      | 6 => ecwFmt e
      | 7 => ecwFmt e
      | 0x0A => ecwFmt e
      | 0x0B => ecwFmt e
      | 0x0C => ecwFmt e
      | _ => 0)
  | 3, .z => some (if ecwOp e = 9 then ecwFmt e else 0)
  | 4, .y => some (ecwFmt e)
  | 4, .z => some (if ecwOp e = 4 then 0xF else 0)
  | _, _ => none

/-- An input accepts a format; for a selector's value inputs this is settled with its other tags. -/
def inAccepts (e : BitVec 128) (p : InPort) (f : Nat) : Bool :=
  match ecwKind e, p with
  | 0, _ => f == ecwFmt e
  | 1, .a => mxRowsPerSlot f != 0
  | 1, .b => f == ecwFmt e
  | 1, _ => f == 0
  | 2, .a => f == 0
  | 2, _ => f == ecwFmt e
  | 3, .a => f == (match ecwOp e with
      | 6 => ecwFmt e
      | 8 => ecwFmt e
      | 0x0A => ecwFmt e
      | 0x0B => ecwFmt e
      | 0x0C => ecwFmt e
      | _ => 0)
  | 3, _ => f == (if ecwOp e = 6 ∨ ecwOp e = 9 then ecwFmt e else 0)
  | 4, .b => f == 0xF
  | 4, _ => f == cxIfmt e
  | 5, .a => f == 0
  | _, _ => true

/-- The format an input expects, as NOCONV reports it: the tag itself where the input takes it. -/
def inExpects (e : BitVec 128) (p : InPort) (tag : Nat) : Nat :=
  if inAccepts e p tag then tag else ((List.range 16).find? fun f => inAccepts e p f).getD 0

/-- A format is carried on a network (R234). -/
def carried (f : Nat) (wide : Bool) : Bool := wide || !(isMx f || f == 0xE)

/-- The tags at the value ports of a selector: those of the LINKS and PORTS entries that end there (R258). -/
def Cast.selectorTag (k : Cast) (v ctx n : Nat) : Option Nat :=
  ((k.mould.variant v).links.findSome? fun l =>
    if l.ctx = ctx ∧ ((l.producer = n) ∨ (l.consumer = n ∧ l.inp ≠ 0)) then some l.fmt else none).or
  (k.mould.ports.findSome? fun p => if siteNo p.x p.y = n ∧ p.local_ ≠ 0 then some p.fmt else none)

/-- NOCONV's detail (R259). -/
def noConv (prod cons ctx inp tag pf cf : Nat) (wide : Bool) : Bad :=
  (15, BitVec.ofNat 64 (siteX prod + 2 ^ 8 * siteY prod + 2 ^ 16 * siteX cons + 2 ^ 24 * siteY cons + 2 ^ 32 * ctx + 2 ^ 34 * inp
    + 2 ^ 36 * tag + 2 ^ 40 * pf + 2 ^ 44 * cf + 2 ^ 48 * bit (!wide) + 2 ^ 49 * bit (!carried tag wide)))

/-- The tag at one end of a link, for selectors the common one. -/
def Cast.emits (k : Cast) (v ctx n : Nat) (o : OutPort) : Option Nat :=
  let e := (k.site n).ecw.get 0 ctx
  if ecwKind e = 5 then k.selectorTag v ctx n else outFmt e o
def Cast.accepts (k : Cast) (v ctx n : Nat) (p : InPort) (f : Nat) : Bool :=
  let e := (k.site n).ecw.get 0 ctx
  if ecwKind e = 5 ∧ p ≠ .a then (k.selectorTag v ctx n).all fun t => t == f else inAccepts e p f

/-- What an input expects, as NOCONV reports it: of a selector's value inputs the common tag. -/
def Cast.expects (k : Cast) (v ctx n : Nat) (p : InPort) (tag : Nat) : Nat :=
  let e := (k.site n).ecw.get 0 ctx
  if ecwKind e = 5 ∧ p ≠ .a then (k.selectorTag v ctx n).getD tag else inExpects e p tag

/-- The format check of a LINKS entry. -/
def Cast.linkFormat (k : Cast) (v : Nat) (l : LinkEnt) : Option Bad :=
  let wide := outWide ((k.site l.producer).ecw.get 0 l.ctx) l.output
  let out := k.emits v l.ctx l.producer l.output
  if carried l.fmt wide && out.all (fun f => f == l.fmt) && k.accepts v l.ctx l.consumer l.input l.fmt then none
  else
    some (noConv l.producer l.consumer l.ctx l.inp l.fmt (out.getD l.fmt) (k.expects v l.ctx l.consumer l.input l.fmt) wide)

/-! ### Links (R390, step 7) -/

/-- DETAIL of LOADLOOP, SEAMLINK and ROUTEOUT (R493): the first LINKS entry of the link, or the switch. -/
def Cast.linkDetail (k : Cast) (v ctx n : Nat) (o : Origin) : Word :=
  let ix := match o with
    | .output m out => firstIx (fun (l : LinkEnt) => l.ctx == ctx && l.producer == m && l.output == out) 0 (k.mould.variant v).links
    | _ => none
  match ix with
  | some i => BitVec.ofNat 64 (i + 2 ^ 62 * v)
  | none => BitVec.ofNat 64 (2 ^ 32 - 1 + 2 ^ 32 * siteX n + 2 ^ 40 * siteY n + 2 ^ 48 * ctx + 2 ^ 62 * v)

/-- The checks of one LINKS entry, in their order. -/
def Cast.badLink (d : Dev) (k : Cast) (v i : Nat) (l : LinkEnt) : Option Bad :=
  let routes := k.routed d l.ctx
  let here : Word := BitVec.ofNat 64 (i + 2 ^ 62 * v)
  let mine := Origin.output l.producer l.output
  let loops := k.slotsAt l.ctx l.consumer l.input == 0
    && (k.zeroReach l.ctx routes k.sites.length [l.consumer]).contains l.producer
  let thin := decide (k.slotsAt l.ctx l.consumer l.input < 4) && routes.any fun r =>
    r.1 == l.producer && r.2.1 == l.output && decide (0 < r.2.2.s) && r.2.2.dst == .input l.consumer l.input 0
  let lacks := (k.missingLanes d.part l.ctx).any fun q => q.2 == mine
  let leaves := (k.leavingLanes l.ctx).any fun q => q.2 == mine
  if loops then some (14, here)
  else (k.linkFormat v l).or (if thin || lacks then some (16, here) else if leaves then some (17, here) else none)

/-- The links that no LINKS entry names: crossbars alone, push channels and ports. -/
def Cast.badRest (d : Dev) (k : Cast) (v ctx : Nat) : Option Bad :=
  let loop := (k.loopLanes ctx).head?.map fun n => (14, k.linkDetail v ctx n (.loop n))
  let lacks := (k.missingLanes d.part ctx).head?.map fun q => (16, k.linkDetail v ctx q.1 q.2)
  let slots := fun (o : Nat → Origin) (r : Route) => match r.dst with
    | .input m p _ => if 0 < r.s ∧ k.slotsAt ctx m p < 4 then some (16, k.linkDetail v ctx m (o m)) else none
    | _ => none
  let thin := ((List.range 8).findSome? fun ch => (k.pushRoutes d ctx 0 ch).findSome? (slots .push)).or
    (k.mould.ports.findSome? fun p =>
      if p.dir = 0 then (k.edgeLane ctx (siteNo p.x p.y) p.local_).bind fun e =>
        (k.edgeRoutes d ctx 0 (siteNo p.x p.y) e.1 e.2).findSome? (slots .edge)
      else none)
  let leaves := (k.leavingLanes ctx).head?.map fun q => (17, k.linkDetail v ctx q.1 q.2)
  (loop : Option Bad).or (lacks.or (thin.or leaves))

/-- NDEST and MINSLOT of an output against the destinations that LINKS and PORTS give it, and those against the routes (R192, R382). -/
def Cast.destsOk (d : Dev) (k : Cast) (v ctx n : Nat) (o : OutPort) : Bool :=
  let e := (k.site n).ecw.get 0 ctx
  let links := (k.mould.variant v).links.filter fun l => l.ctx == ctx && l.producer == n && l.output == o
  let routes := k.routes d ctx 0 n o (outWide e o)
  let ins := routes.filterMap fun r => match r.dst with
    | .input m p _ => some (m, InPort.ix p)
    | _ => none
  let port := (k.outEntry n o).isSome && ecwOut e o
    && [false, true].any fun wide => !(k.edgesOut ctx n (if o = .z then 5 else 4) wide).isEmpty
  let pop := outPop e o
  let slots := links.map (fun l => l.slots) ++ (if port then [4] else []) ++ (if pop then [0] else [])
  (!pop || (attached n).isSome) && outHalf e o % 8 == slots.length
    && outHalf e o / 8 % 8 == (match slots with
      | [] => 0
      | x :: rest => rest.foldl min x)
    && ins.length == links.length && links.all fun l => ins.contains (l.consumer, l.inp) && k.slotsAt ctx l.consumer l.input == l.slots

/-- The agreement, CFG entry by CFG entry, then for the producers that LINKS names, which may have none. -/
def Cast.badDests (d : Dev) (k : Cast) (v : Nat) : Option Bad :=
  ((k.mould.variant v).cfg.findSome? fun c =>
    let n := siteNo c.x c.y
    if c.scw || (k.destsOk d v c.ctx n .y && k.destsOk d v c.ctx n .z) then none else some (12, k.siteDetail n c.ctx false v)).or
  ((k.mould.variant v).links.findSome? fun l =>
    if k.destsOk d v l.ctx l.producer l.output then none else some (12, k.siteDetail l.producer l.ctx false v))

/-! ### Control lines (R209) -/

/-- The sides by which a pulse goes from one site to another, along the row, then along the column: sites with the side it leaves by. -/
def pulsePath : Nat → Nat → Nat → List (Nat × Nat)
  | 0, _, _ => []
  | fuel + 1, a, b =>
    if siteX a < siteX b then (a, 1) :: pulsePath fuel (siteNo (siteX a + 1) (siteY a)) b
    else if siteX b < siteX a then (a, 3) :: pulsePath fuel (siteNo (siteX a - 1) (siteY a)) b
    else if siteY a < siteY b then (a, 2) :: pulsePath fuel (siteNo (siteX a) (siteY a + 1)) b
    else if siteY b < siteY a then (a, 0) :: pulsePath fuel (siteNo (siteX a) (siteY a - 1)) b
    else []

/-- The lines that a context needs, each with its parent node. -/
def Cast.controlLines (k : Cast) (ctx : Nat) : List (Nat × (Nat × Nat)) :=
  k.sites.flatMap fun q =>
    let w := q.2.scw.get 0 ctx
    if q.1 = 0 ∨ scwKind w = 0 then []
    else (pulsePath 300 (scwParent w) q.1 ++ pulsePath 300 q.1 (scwParent w)).map fun s => (scwParent w, s)

/-- CTLROUTE: a port that needs more than 8 lines in one direction. -/
def Cast.badControl (k : Cast) (v ctx : Nat) : Option Bad :=
  let lines := k.controlLines ctx
  (lines.find? fun l => decide (8 < (lines.filter fun m => m.2 == l.2).length)).map fun l => (18, k.siteDetail l.1 ctx true v)

/-- The four contexts. -/
def allCtxs : List Nat := [0, 1, 2, 3]

/-- The format check of a PORTS entry in a context that uses the port (R382): it gives or takes its declared tag. The consumer of an OUT
port is no site of the cast; as CNX and CNY the model gives the port's own site (DESIGN CHOICE, log entry 115). -/
def Cast.portFormat (k : Cast) (v ctx : Nat) (p : PortEnt) : Option Bad :=
  let n := siteNo p.x p.y
  let wide := p.net == 0
  if p.dir = 0 then
    let i := allInPorts.getD p.local_ .a
    if (k.edgeLane ctx n p.local_).isNone || (carried p.fmt wide && k.accepts v ctx n i p.fmt) then none
    else some (noConv n n ctx p.local_ p.fmt p.fmt (k.expects v ctx n i p.fmt) wide)
  else
    let o : OutPort := if p.local_ = 5 then .z else .y
    let out := k.emits v ctx n o
    if [false, true].all (fun w => (k.edgesOut ctx n p.local_ w).isEmpty) || (carried p.fmt wide && out.all fun f => f == p.fmt) then none
    else some (noConv n n ctx 0 p.fmt (out.getD p.fmt) p.fmt wide)

/-- The format check of the pop channels in a context: a sequencer channel takes narrow tags, so that a wide output has none (R258;
DEDUCED, log entry 122). -/
def Cast.popFormat (k : Cast) (v ctx : Nat) : Option Bad :=
  k.sites.findSome? fun q =>
    let e := q.2.ecw.get 0 ctx
    (enabledOutputs e).findSome? fun o =>
      let tag := (k.emits v ctx q.1 o).getD 0
      if outPop e o && outWide e o then some (noConv q.1 q.1 ctx 0 tag tag 0 true) else none

/-- Step 7 for one variant. -/
def Cast.badLinks (d : Dev) (k : Cast) (v : Nat) : Option Bad :=
  let m := k.mould.variant v
  ((List.range m.links.length).findSome? fun i => m.links[i]?.bind fun l => k.badLink d v i l).or <|
  (allCtxs.findSome? fun ctx => (k.mould.ports.findSome? fun p => k.portFormat v ctx p).or (k.popFormat v ctx)).or <|
  (allCtxs.findSome? fun ctx => k.badRest d v ctx).or <|
  (k.badDests d v).or (allCtxs.findSome? fun ctx => k.badControl v ctx)

/-- Steps 6 and 7 for every variant of a mould at a position; `seam` is what a dead seam under it gives at the start of step 7 (R478). -/
def Mould.badConfig (m : Mould) (d : Dev) (tenant bx by_ : Nat) (seam : Option Bad) : Option Bad :=
  let lay := fun v => m.lay v tenant bx by_
  let vs := List.range m.variants.length
  (vs.findSome? fun v => (lay v).badWords v).or <|
  (vs.findSome? fun v => (lay v).badArmature v).or <|
  seam.or <| vs.findSome? fun v => (lay v).badLinks (d.unwalled (lay v)) v

/-! ### Patch points (R105; step 8) -/

/-- The blocks of the code from an offset on: offset, header, and the words of the slots. The image does not tell where the blocks end and
data begin; the model follows the headers from offset 0 until a word is none, so that data that look like a header count as a block (DESIGN
CHOICE, log entry 116). -/
def codeBlocks (m : Mould) : Nat → Nat → List (Nat × Word32 × List Word32)
  | 0, _ => []
  | fuel + 1, o =>
    let w := fun o => BitVec.ofNat 32 (num m.bytes (m.codeOff + o) 4)
    let h : Word32 := w o
    let e := o + 4 * (headerSlots h + 1)
    if o + 4 ≤ m.codeSz ∧ headerOk h ∧ e ≤ m.codeSz then
      (o, h, (List.range (headerSlots h)).map fun i => w (o + 4 + 4 * i)) :: codeBlocks m fuel e
    else []

/-- For each slot of a block, how many literal words of its LIT follow it and itself: 0 for an instruction; and whether it is the
first literal slot of a LIT of two. -/
def literalMarks : Nat → Bool → List Word32 → List (Bool × Bool)
  | _, _, [] => []
  | left + 1, first, _ :: ws => (true, first) :: literalMarks left false ws
  | 0, _, w :: ws =>
    match decodeWord w with
    | .ok (.lit .one _ _) => (false, false) :: literalMarks 1 false ws
    | .ok (.lit .two _ _) => (false, false) :: literalMarks 2 true ws
    | _ => (false, false) :: literalMarks 0 false ws

/-- The words that a patch point names. -/
def patchWords (p : Nat × Nat × Nat) : List Nat := if p.2.2 = 64 then [p.1, p.1 + 1] else [p.1]

/-- A patch point obeys R105, behind those before it in the section, whose words are taken. -/
def patchOk (blocks : List (Nat × Word32 × List Word32)) (taken : List Nat) (p : Nat × Nat × Nat) : Bool :=
  let (w, off, width) := p
  decide (off + width / 8 ≤ 256) && off % (width / 8) == 0 && (patchWords p).all (fun x => !taken.contains x)
    && blocks.any fun b =>
      let first := b.1 / 4 + 1
      decide (first ≤ w ∧ w < first + b.2.2.length) && bitAt b.2.1 12
        && (match (literalMarks 0 false b.2.2)[w - first]? with
          | some (lit, two) => if width = 64 then two else lit
          | none => false)

/-- The index of the first patch point that breaks R105, in section order. -/
def badPatchIx (blocks : List (Nat × Word32 × List Word32)) : List Nat → Nat → List (Nat × Nat × Nat) → Option Nat
  | _, _, [] => none
  | taken, n, p :: rest => if patchOk blocks taken p then badPatchIx blocks (patchWords p ++ taken) (n + 1) rest else some n

/-- Step 8, BADPATCH. -/
def Mould.badPatch (m : Mould) : Option Bad :=
  let blocks := codeBlocks m (m.codeSz / 4 + 1) 0
  ((badPatchIx blocks [] 0 m.patches).map fun i => (19, BitVec.ofNat 64 i)).or
    ((blocks.find? fun b => bitAt b.2.1 12 && !(m.patches.any fun p => decide (b.1 / 4 < p.1 ∧ p.1 ≤ b.1 / 4 + b.2.2.length))).map fun b =>
      (19, BitVec.ofNat 64 (2 ^ 32 - 1 + 2 ^ 32 * (b.1 / 4))))

end Sys2Proof.Machine
end

