-- ==== Sys2Proof/Machine/Plinths.lean ====
section
/-!
DEFINITION. What the placer knows of the array (R3, R204, R388 to R392, R478, R482): plinths, walls, positions, dead seams, and the
copies of images in a tenant's code window.
-/
namespace Sys2Proof.Machine

/-- The placer changed. -/
def Dev.modPl (d : Dev) (f : PlacerSt → PlacerSt) : Dev := { d with pl := f d.pl }

/-- A request is being performed (R384): one that takes more than a step, one whose last releases are to come, or the fill of a row. -/
def Dev.placerBusy (d : Dev) : Bool := d.pl.cur.isSome || !d.pl.fin.isEmpty || d.pl.rolls.any fun e => e.2.filling

/-- A request of PLSUB joins the queue, or sets OVR (R384). -/
def Dev.firmwareReq (d : Dev) (addr : Word) : Dev :=
  if 64 ≤ d.pl.queue.length then d.modPl fun p => { p with ovr := true }
  else d.modPl fun p => { p with queue := p.queue ++ [{ src := .firmware, tenant := 0, addr := addr, requester := 0 }] }

/-! ### Blocks and positions -/

/-- A block is present (R482). -/
def Dev.blockPresent (d : Dev) (bx by_ : Nat) : Bool :=
  let die := dieOfBlock bx by_
  bitAt d.diepres die && bitAt (d.blkpres.get 0 die) (6 * (by_ % 6) + bx % 6)

/-- A die has a present block. -/
def Dev.dieUsable (d : Dev) (die : Nat) : Bool := bitAt d.diepres die && d.blkpres.get 0 die != 0

/-- A block lies in a rectangle. -/
def inRect (x0 y0 w h bx by_ : Nat) : Bool := decide (x0 ≤ bx ∧ bx < x0 + w ∧ y0 ≤ by_ ∧ by_ < y0 + h)

def Plinth.holds (p : Plinth) (bx by_ : Nat) : Bool := inRect p.bx p.by_ p.w p.h bx by_
def Cast.covers (k : Cast) (bx by_ : Nat) : Bool := inRect k.bx k.by_ k.wb k.hb bx by_

/-- The blocks of a rectangle, row by row. -/
def rectBlocks (bx by_ w h : Nat) : List (Nat × Nat) :=
  (List.range h).flatMap fun j => (List.range w).map fun i => (bx + i, by_ + j)

/-- The plinth of a tenant that holds a whole rectangle. -/
def Dev.plinthFor (d : Dev) (tenant bx by_ w h : Nat) : Option Plinth :=
  d.pl.plinths.find? fun p =>
    p.tid == tenant && decide (1 ≤ w ∧ 1 ≤ h) && p.holds bx by_ && p.holds (bx + w - 1) (by_ + h - 1)

/-- A mask that names no die names every one (R383). -/
def affNames (aff die : Nat) : Bool := aff == 0 || aff.testBit die

/-- The position fits (R392); `own` is a cast whose blocks count as free. -/
def Dev.fits (d : Dev) (tenant aff : Nat) (own : Option Nat) (bx by_ w h : Nat) : Bool :=
  (d.plinthFor tenant bx by_ w h).isSome &&
    (rectBlocks bx by_ w h).all fun b =>
      d.blockPresent b.1 b.2 && affNames aff (dieOfBlock b.1 b.2)
        && !(d.casts.any fun e => some e.1 != own && e.2.covers b.1 b.2)

/-- The seam between CD i and the next of its row, or the one below it (R478). -/
def Dev.vseamDead (d : Dev) (die : Nat) : Bool := bitAt d.seamdn (if die < 4 then die else die - 1)
def Dev.hseamDead (d : Dev) (die : Nat) : Bool := bitAt d.seamdn (6 + die)

/-- A rectangle straddles a dead seam (R478). -/
def Dev.straddles (d : Dev) (bx by_ w h : Nat) : Bool :=
  (rectBlocks bx by_ w h).any fun b =>
    (b.1 % 6 == 5 && decide (b.1 + 1 < bx + w) && d.vseamDead (dieOfBlock b.1 b.2))
      || (b.2 == 5 && decide (6 < by_ + h) && d.hseamDead (dieOfBlock b.1 b.2))

/-- The position of AUTO (R392, R478). -/
def Dev.autoPos (d : Dev) (tenant aff : Nat) (own : Option Nat) (w h : Nat) : Option (Nat × Nat) :=
  ((List.range 12).flatMap fun y => (List.range 24).map fun x => (x, y)).find? fun p =>
    d.fits tenant aff own p.1 p.2 w h && !d.straddles p.1 p.2 w h

/-- No present die is named by the mask. -/
def Dev.noDie (d : Dev) (aff : Nat) : Bool := !((List.range 8).any fun die => affNames aff die && d.dieUsable die)

/-- The position of a request (R390 step 5, R392). -/
def Dev.position (d : Dev) (tenant aff : Nat) (own : Option Nat) (b : PlBlock) (w h : Nat) : Except Bad (Nat × Nat) :=
  if d.noDie aff then .error (11, BitVec.ofNat 64 aff)
  else if b.auto then
    match d.autoPos tenant aff own w h with
    | some p => .ok p
    | none => .error (10, 0)
  else if d.fits tenant aff own b.bx b.by_ w h then .ok (b.bx, b.by_)
  else .error (10, 0)

/-! ### Walls (R204, R388, R389) -/

/-- The package sites of a rectangle of blocks. -/
def rectSites (bx by_ w h : Nat) : List (Nat × Nat) :=
  (List.range (6 * h)).flatMap fun j => (List.range (6 * w)).map fun i => (6 * bx + i, 6 * by_ + j)

/-- The sides of a site that face out of a rectangle of blocks. -/
def outward (bx by_ w h X Y : Nat) : Nat :=
  bit (Y == 6 * by_) + 2 * bit (X + 1 == 6 * (bx + w)) + 4 * bit (Y + 1 == 6 * (by_ + h)) + 8 * bit (X == 6 * bx)

/-- The wall registers of a list of sites written. -/
def Dev.setWalls (d : Dev) (sites : List (Nat × Nat)) (f : Nat → Nat → Nat) : Dev :=
  { d with walls := sites.foldl (fun t p => t.set 0xF (144 * p.2 + p.1) (BitVec.ofNat 64 (f p.1 p.2))) d.walls }

/-- A plinth's own walls at some of its sites. -/
def Dev.plinthWalls (d : Dev) (p : Plinth) (sites : List (Nat × Nat)) : Dev :=
  d.setWalls sites fun X Y => outward p.bx p.by_ p.w p.h X Y + 256 * p.tid

/-- The sites of a cast. -/
def Cast.rect (k : Cast) : List (Nat × Nat) := rectSites k.bx k.by_ k.wb k.hb

/-- A cast walled in, and its sites given back to their plinth. -/
def Dev.wallCast (d : Dev) (k : Cast) : Dev := d.setWalls k.rect fun X Y => outward k.bx k.by_ k.wb k.hb X Y + 256 * k.tenant
def Dev.unwallCast (d : Dev) (k : Cast) : Dev :=
  match d.plinthFor k.tenant k.bx k.by_ k.wb k.hb with
  | some p => d.plinthWalls p k.rect
  | none => d.setWalls k.rect fun _ _ => 0xF

/-! ### GRANT and REVOKE (R388) -/

/-- Two rectangles share a block. -/
def rectsMeet (p : Plinth) (bx by_ w h : Nat) : Bool :=
  decide (p.bx < bx + w ∧ bx < p.bx + p.w ∧ p.by_ < by_ + h ∧ by_ < p.by_ + p.h)

/-- GRANT: the device after it, or a status. -/
def Dev.grant (d : Dev) (b : PlBlock) : Except Bad Dev :=
  if b.tid = 0 ∨ 4 ≤ b.pix ∨ b.pw = 0 ∨ b.ph = 0 ∨ d.part.columns < b.bx + b.pw ∨ 12 < b.by_ + b.ph then .error (1, 0)
  else if d.pl.plinths.any fun p => rectsMeet p b.bx b.by_ b.pw b.ph || (p.tid == b.tid && p.pix == b.pix) then .error (27, 0)
  else
    let p : Plinth := { tid := b.tid, pix := b.pix, bx := b.bx, by_ := b.by_, w := b.pw, h := b.ph }
    .ok ((d.modPl fun s => { s with plinths := s.plinths ++ [p] }).plinthWalls p (rectSites p.bx p.by_ p.w p.h))

/-- REVOKE. -/
def Dev.revoke (d : Dev) (b : PlBlock) : Except Bad Dev :=
  match d.pl.plinths.find? fun p => p.tid == b.tid && p.pix == b.pix with
  | none => .error (1, 0)
  | some p =>
    if d.casts.any fun e => p.holds e.2.bx e.2.by_ then .error (28, 0)
    else
      .ok ((d.modPl fun s => { s with plinths := s.plinths.filter fun q => q != p }).setWalls (rectSites p.bx p.by_ p.w p.h) fun _ _ => 0xF)

/-! ### The code window (R111, R391) -/

/-- The address of cast `c`'s copy in the window of translation entry `i`: 4 GiB for each number. -/
def Dev.windowVa (d : Dev) (i c : Nat) : Word :=
  let ix := field (d.pl.win.get 0 i) 0 9
  BitVec.ofNat 64 (2 ^ 48 * ix + 2 ^ 32 * c + if ix.testBit 8 then 127 * 2 ^ 57 else 0)

/-- The pages of the boot granules and of tenant 0's other granules of CD0 that the placer may take: from 8 MiB up. -/
def Dev.placerPage (d : Dev) (page : Nat) : Bool :=
  decide (2048 ≤ page) && (d.pl.pages.find page).isNone && field (d.omapAt (4096 * page)) 0 8 == 0 && d.admits 0 (4096 * page)

/-- The first free page among `n` from `page` on. -/
def Dev.freePage (d : Dev) (page : Nat) : Nat → Option Nat
  | 0 => none
  | n + 1 => if d.placerPage page then some page else d.freePage (page + 1) n

/-- A page taken for a cast, the lowest free one (granule numbers have 16 bits, R60). -/
def Dev.takePage (d : Dev) (owner : Nat) : Option (Nat × Dev) :=
  (d.freePage 2048 (2 ^ 25 - 2048)).map fun p => (p, d.modPl fun s => { s with pages := s.pages.put p owner })

/-- A table entry read and written as tenant 0. -/
def State.pteAt (s : State) (table ix : Nat) : Word := (Dev.readPte s.mem s.dev table ix).1
def State.setPte (s : State) (table ix : Nat) (e : Word) : State := writeAt s 0 (table + 8 * ix) (leBytes 8 e.toNat)

/-- The level-0 table of an address below a table of level `lvl`, made where it is missing; 0 owns the placer's tables. -/
def State.tableFor (va : Nat) : Nat → Nat → State → Option (Nat × State)
  | 0, table, s => some (table, s)
  | lvl + 1, table, s =>
    let ix := va / 2 ^ (12 + 9 * (lvl + 1)) % 512
    let e := s.pteAt table ix
    if bitAt e 0 then State.tableFor va lvl (ptePa e) s
    else
      match s.dev.takePage 0 with
      | none => none
      | some (p, d) =>
        let s := State.setPte (writeAtZero { s with dev := d } (4096 * p)) table ix (BitVec.ofNat 64 (4096 * p + 1))
        State.tableFor va lvl (4096 * p) s
where
  /-- A page zeroed, line by line. -/
  writeAtZero (s : State) (pa : Nat) : State :=
    (List.range 32).foldl (fun s i => writeAt s 0 (pa + 128 * i) (List.replicate 128 0)) s

/-- Bytes written line by line as tenant 0. -/
def State.writeLines : Nat → Nat → List Byte → State → State
  | 0, _, _, s => s
  | n + 1, pa, bs, s => if bs.isEmpty then s else State.writeLines n (pa + 128) (bs.drop 128) (writeAt s 0 pa (bs.take 128))

/-- The pages of an image copied and mapped with X = 1 and W = 0. -/
def State.copyPages (root c : Nat) : Nat → Nat → List Byte → State → Option State
  | 0, _, _, s => some s
  | n + 1, va, bs, s =>
    match State.tableFor va 3 root s with
    | none => none
    | some (table, s) =>
      match s.dev.takePage c with
      | none => none
      | some (p, d) =>
        let s := State.writeLines 32 (4096 * p) (bs.take 4096) { s with dev := d }
        State.copyPages root c n (va + 4096) (bs.drop 4096) (s.setPte table (va / 4096 % 512) (BitVec.ofNat 64 (4096 * p + 0xB)))

/-- The copy of an image for cast `c`; none when tenant 0 has no page left. -/
def State.copyImage (s : State) (i c : Nat) (bytes : List Byte) : Option State :=
  State.copyPages (4096 * field (s.dev.pl.win.get 0 i) 12 40) c ((bytes.length + 4095) / 4096) (field (s.dev.windowVa i c) 0 57) bytes s

/-- The leaf entry of an address, when the tables lead to one. -/
def State.leafOf (va : Nat) : Nat → Nat → State → Option Nat
  | 0, table, _ => some table
  | lvl + 1, table, s =>
    let e := s.pteAt table (va / 2 ^ (12 + 9 * (lvl + 1)) % 512)
    if bitAt e 0 then State.leafOf va lvl (ptePa e) s else none

/-- Entries of a range leave every TLB. -/
def Dev.purgeRange (d : Dev) (tenant va len : Nat) : Dev :=
  let keep : List TlbEnt → List TlbEnt := fun es => es.filter fun e =>
    !(e.tenant == tenant && decide (e.vpn * 2 ^ e.shift < va + len ∧ va < (e.vpn + 1) * 2 ^ e.shift))
  { d with
    tlbPort := d.tlbPort.map fun e => (e.1, keep e.2)
    tlbBlock := d.tlbBlock.map fun e => (e.1, keep e.2)
    tlbLast := d.tlbLast.map fun e => (e.1, keep e.2) }

/-- A copy unmapped and freed (R391). -/
def State.dropImage (s : State) (c : Nat) (k : Cast) : State :=
  let va := field k.imgVa 0 57
  let n := (k.mould.bytes.length + 4095) / 4096
  let s := match s.dev.tteOf 0 k.tenant with
    | none => s
    | some i =>
      (List.range n).foldl (fun s j =>
        match State.leafOf (va + 4096 * j) 3 (4096 * field (s.dev.pl.win.get 0 i) 12 40) s with
        | some table => s.setPte table ((va / 4096 + j) % 512) 0
        | none => s) s
  { s with dev := (s.dev.purgeRange k.tenant va (4096 * n)).modPl fun p => { p with pages := p.pages.filter fun e => e.2 != c } }

end Sys2Proof.Machine
end

