-- ==== Sys2Proof/Machine/Bindings.lean ====
section
/-!
DEFINITION. Logical ports and their bindings (R382, R393 to R395, R398): the checks of LOAD's step 9, and how a binding is made and
dissolved.
-/
namespace Sys2Proof.Machine

/-! ### Ports (R382) -/

/-- The widths of a port's edge lanes in a context. -/
def Cast.edgeWidths (k : Cast) (ctx : Nat) (p : PortEnt) : List Bool :=
  let n := siteNo p.x p.y
  if p.dir = 0 then ((k.edgeLane ctx n p.local_).map Prod.fst).toList
  else [true, false].flatMap fun wide => (k.edgesOut ctx n p.local_ wide).map fun _ => wide

/-- A port meets the rules in a variant: some context uses it, and NET is that of every edge lane. -/
def Cast.portOk (k : Cast) (p : PortEnt) : Bool :=
  let lanes := (List.range 4).flatMap fun ctx => k.edgeWidths ctx p
  (if p.dir = 0 then decide (p.local_ < 4) else decide (4 ≤ p.local_)) && !lanes.isEmpty && lanes.all fun wide => wide == (p.net == 0)

/-- The first PORTS entry that fails in some variant. -/
def Mould.badPorts (m : Mould) (tenant bx by_ : Nat) : Option Bad :=
  (firstIx (fun p => !((List.range m.variants.length).all fun v => (m.lay v tenant bx by_).portOk p)) 0 m.ports).map fun i =>
    (20, BitVec.ofNat 64 i)

/-- A port of a cast, as LOAD makes it. -/
def portOf (p : PortEnt) : Port :=
  { site := siteNo p.x p.y, local_ := p.local_, isOut := p.dir == 1, fmt := p.fmt, wide := p.net == 0 }

/-! ### Binding tables (R393) and ring descriptors (R395) -/

/-- An adapter's TLBs: a port TLB of its own (R54, R394). -/
def Cast.adapterVia (k : Cast) (p : Port) : Via :=
  { (k.portVia p.site) with port := some (2 ^ 14 + 8 * k.siteRequester p.site + p.local_) }

/-- The size of a ring entry. -/
def entrySizeOf (wide : Bool) : Nat := if wide then 256 else 16

/-- A ring descriptor is well formed and fits a port. -/
def ringOk (b : List Byte) (p : Port) : Bool :=
  let cap := num b 8 4
  num b 15 1 == 0 && (List.range 32).all (fun i => num b (32 + i) 1 == 0) && (List.range 25).any (fun i => cap == 2 ^ i)
    && num b 0 8 % entrySizeOf p.wide == 0 && num b 12 1 == bit (!p.wide) && num b 13 1 == bit p.isOut && decide (num b 14 1 < 11)

/-- The ring of a descriptor: its own index is read at binding; the other is read before an entry is used. -/
def ringOf (addr : Word) (b : List Byte) (p : Port) : Ring :=
  let own := num b (if p.isOut then 24 else 16) 8
  { desc := addr, base := BitVec.ofNat 64 (num b 0 8), cap := num b 8 4, scope := num b 14 1, own := own
    last := if p.isOut then (own + 2 ^ 64 - num b 8 4) % 2 ^ 64 else own }

/-- One entry of a binding table, for port `ix`: the binding, or a status. -/
def Dev.bindOne (m : Memory) (d : Dev) (k : Cast) (no : Nat) (via : Via) (ix : Nat) (p : Port) (b : List Byte) : Except Bad Bind × Dev :=
  let bad : Except Bad Bind := .error (20, BitVec.ofNat 64 ix)
  let z := fun (off n : Nat) => (List.range n).all fun i => num b (off + i) 1 == 0
  if !z 1 7 then (bad, d)
  else
    match num b 0 1 with
    | 0 => (if z 8 8 then .ok .unbound else bad, d)
    | 1 =>
      let a := BitVec.ofNat 64 (num b 8 8)
      if a.toNat % 64 ≠ 0 then (bad, d)
      else
        match Dev.readRun m d via k.tenant a 64 with
        | (.error (va, _), d) => (.error (25, va), d)
        | (.ok r, d) => (if ringOk r p then .ok (.ring (ringOf a r p)) else bad, d)
    | 2 =>
      let c := num b 8 2
      let ip := num b 10 2
      if !z 12 4 then (bad, d)
      else
        match d.casts.find c with
        | none => (.ok (.peer c ip false []), d)
        | some j =>
          match j.ports[ip]? with
          | none => (bad, d)
          | some q =>
            let names : Bool := match q.bind with
              | .peer c' ix' false _ => c' == no && ix' == ix
              | _ => false
            if j.tenant = k.tenant ∧ q.isOut ≠ p.isOut ∧ q.wide = p.wide ∧ q.fmt = p.fmt ∧ names then (.ok (.peer c ip false []), d)
            else (bad, d)
    | _ => (bad, d)

/-- The ports bound from a table, in order. -/
def Dev.bindAll (m : Memory) (k : Cast) (no : Nat) (via : Via) (table : Word) : Nat → List Port → Dev → Except Bad (List Port) × Dev
  | _, [], d => (.ok [], d)
  | ix, p :: rest, d =>
    match Dev.readRun m d via k.tenant (table + BitVec.ofNat 64 (16 * ix)) 16 with
    | (.error (va, _), d) => (.error (25, va), d)
    | (.ok b, d) =>
      match Dev.bindOne m d k no via ix p b with
      | (.error e, d) => (.error e, d)
      | (.ok x, d) =>
        match Dev.bindAll m k no via table (ix + 1) rest d with
        | (.error e, d) => (.error e, d)
        | (.ok ps, d) => (.ok ({ p with bind := x } :: ps), d)

/-! ### Adapters (R394) -/

/-- The dies of the bound ports of a cast. -/
def Cast.adapterDies (k : Cast) : List Nat := (k.ports.filter fun p => p.bind != .unbound).map fun p => k.siteDie p.site

/-- Adapters in use on a die, but for one cast's. -/
def Dev.adaptersOn (d : Dev) (but : Option Nat) (die : Nat) : Nat :=
  ((d.casts.filter fun e => some e.1 != but).map fun e => e.2.adapterDies.countP fun x => x == die).sum

/-- The first bound port of a cast for which its die has no adapter left. -/
def Dev.noAdapter (d : Dev) (but : Option Nat) (k : Cast) : Option Bad :=
  (firstIx (fun i =>
      match k.ports[i]? with
      | none => false
      | some p =>
        let die := k.siteDie p.site
        p.bind != .unbound &&
          decide (64 ≤ d.adaptersOn but die + ((k.ports.take i).countP fun q => q.bind != .unbound && k.siteDie q.site == die)))
    0 (List.range k.ports.length)).map fun i => (21, BitVec.ofNat 64 i)

/-! ### CAST bindings made and dissolved (R398) -/

/-- The port's peer entry names it back, and both are made. -/
def Dev.pairPort (d : Dev) (c ix : Nat) : Dev :=
  match (d.casts.find c).bind fun k => k.ports[ix]? with
  | none => d
  | some p =>
    match p.bind with
    | .peer c' ix' false _ =>
      match (d.casts.find c').bind fun k => k.ports[ix']? with
      | none => d
      | some q =>
        if q.bind = .peer c ix false [] ∧ q.isOut ≠ p.isOut then
          let made := fun (p : Port) => match p.bind with
            | .peer x y _ h => { p with bind := .peer x y true h }
            | _ => p
          (d.modCast c fun k => { k with ports := k.ports.modify ix made }).modCast c' fun k => { k with ports := k.ports.modify ix' made }
        else d
    | _ => d

/-- Every binding of a new cast that its peer's entry matches. -/
def Dev.pairAll (d : Dev) (c : Nat) : Dev :=
  (List.range ((d.casts.find c).map fun k => k.ports.length).toList.sum).foldl (fun d ix => d.pairPort c ix) d

/-- The bindings of a cast that goes are dissolved: the ports of others that named it become unbound. -/
def Dev.unpair (d : Dev) (c : Nat) (gone : Port → Bool) (k : Cast) : Dev :=
  let lost := (List.range k.ports.length).filter fun ix => (k.ports[ix]?.map gone).getD false
  { d with casts := d.casts.map fun e =>
      (e.1, { e.2 with ports := e.2.ports.map fun p =>
        match p.bind with
        | .peer c' ix' made _ => if made ∧ c' = c ∧ lost.contains ix' then { p with bind := .unbound } else p
        | _ => p }) }

end Sys2Proof.Machine
end

