-- ==== Sys2Proof/Machine/Tasks.lean ====
section
/-!
DEFINITION. What happens to tasks and stages (R417, R421, R426 to R429, R434, R437): a task's end, its completion with the successor
decrements, its discard, the staging of direct tasks cancelled, a cast leaving its stage.
-/
namespace Sys2Proof.Machine

/-! ### Tables -/

def Dev.modSch (d : Dev) (f : SchedSt → SchedSt) : Dev := { d with sch := f d.sch }
def Dev.modTask (d : Dev) (id : Nat) (f : Task → Task) : Dev := d.modSch fun s => { s with tasks := s.tasks.upd id f }

/-- The effective priority E (R422). -/
def Task.prio (t : Task) : Nat := min 15 (t.pri + t.quanta)

/-- READY, STAGING or STAGED (R421). -/
def Task.isReady (t : Task) : Bool := t.st == .ready || t.st == .staging || t.st == .staged

/-- The order of R422. -/
def Task.before (t u : Task) : Bool :=
  if t.prio ≠ u.prio then decide (u.prio < t.prio)
  else if t.readyAt ≠ u.readyAt then decide (t.readyAt < u.readyAt)
  else decide (t.addr.toNat < u.addr.toNat)

/-- The first in order of a list of tasks. -/
def firstTask (ts : List (Nat × Task)) : Option (Nat × Task) :=
  ts.foldl (fun best e => match best with
    | none => some e
    | some b => if e.2.before b.2 then some e else some b) none

/-! ### Energy (R437) -/

/-- Picojoules that the blocks of a cast have counted between two clocks; counters wrap at 2^64 (R487). -/
def Cast.energyBetween (k : Cast) (from_ to_ : Nat) : Nat :=
  ((rectBlocksOf k).map fun b => (Config.blockEnergy b to_ + 2 ^ 64 - Config.blockEnergy b from_ % 2 ^ 64) % 2 ^ 64).sum
where
  /-- The numbers of its blocks. -/
  rectBlocksOf (k : Cast) : List Nat :=
    ((List.range (k.lease.getD k.hb)).drop k.gone).flatMap fun j => (List.range k.wb).map fun i => blockIx (k.bx + i) (k.by_ + j)

/-- A tenant's balance changed; an unlimited tenant has none (R436). -/
def Dev.addBalance (d : Dev) (tenant : Nat) (pj : Int) : Dev :=
  match d.tteOf 0 tenant with
  | none => d
  | some i =>
    if (d.sch.eallow.find i).getD 0xFFFFFFFF = 0xFFFFFFFF then d
    else d.modSch fun s => { s with ebal := s.ebal.set 0 i (s.ebal.get 0 i + pj) }

/-- E_est of a cast (R437): the entries of its mould. -/
def Cast.estimate (k : Cast) : Nat := (k.mould.energy.map Prod.snd).sum

/-- E_meas of an ACTIVE task, up to now. -/
def Dev.measured (d : Dev) (k : Cast) (t : Task) : Nat := t.energy + (if t.st = .active then k.energyBetween t.since d.now else 0)

/-- The balance corrected at the end of a task that was delivered. -/
def Dev.settleEnergy (d : Dev) (c : Nat) (t : Task) : Dev :=
  match d.casts.find c with
  | none => d
  | some k =>
    if t.st = .pending ∨ t.st = .active ∨ t.st = .suspended then d.addBalance t.tenant (Int.ofNat t.est - Int.ofNat (d.measured k t))
    else d

/-- The energy that a cast has used since it was last counted goes to its ACTIVE task, or to its tenant's debt. -/
def Dev.settleUsage (d : Dev) (c : Nat) : Dev :=
  match d.casts.find c with
  | none => d
  | some k =>
    match k.task.bind fun id => (d.sch.tasks.find id).map fun t => (id, t) with
    | some (id, t) =>
      if t.st = .active then d.modTask id fun t => { t with energy := d.measured k t, since := d.now } else outside d k
    | none => outside d k
where
  /-- Energy outside an ACTIVE task. -/
  outside (d : Dev) (k : Cast) : Dev :=
    (d.modSch fun s => { s with debt := s.debt.set 0 k.tenant (s.debt.get 0 k.tenant + k.energyBetween k.outSince d.now) }).modCast c fun k =>
      { k with outSince := d.now }

/-! ### The end of a task -/

/-- STATE is written (R427, R429): code, abandoned entries and OVERQ; a record that cannot be written is passed over. -/
def State.writeTaskState (s : State) (t : Task) (code : Nat) : State :=
  (s.writeRun { port := none, block := none, die := t.die } t.tenant (.dispatcher t.die) (t.addr + 28)
    (leBytes 4 (code + 256 * t.lost.toNat + 4096 * bit t.overq))).1

/-- A task leaves every table. -/
def Dev.dropTask (d : Dev) (id : Nat) : Dev :=
  { d.modSch (fun s => { s with tasks := s.tasks.del id }) with
    casts := d.casts.map fun e =>
      (e.1, { e.2 with
        fifo := e.2.fifo.filter fun i => i != id
        deque := e.2.deque.filter fun i => i != id
        task := if e.2.task = some id then none else e.2.task }) }

/-- A scope of its code (R66). -/
def scopeOfCode (n : Nat) : Scope :=
  [Scope.thread, .element, .block, .cast, .group, .plinth, .tenant, .die, .device, .system, .domain].getD n .domain

/-- The packet that put a task completes with it (R465). -/
def Dev.packetEnd (d : Dev) (t : Task) : Dev :=
  match t.packet with
  | some (iod, qid, ix) => d.post 0 (.packetComplete iod qid ix)
  | none => d

/-- A task discarded (R429, R106): its charge goes with it. -/
def State.discardTask (s : State) (c id code : Nat) : State :=
  match s.dev.sch.tasks.find id with
  | none => s
  | some t =>
    let s := s.writeTaskState t code
    { s with dev := ((s.dev.settleEnergy c t).dropTask id).packetEnd t }

/-- The successor decrements of a completion, in list order (R427). -/
def State.decSuccessors (k : Cast) (c : Nat) (t : Task) : List Word → State → State
  | [], s => s
  | va :: rest, s =>
    if va = 0 then State.decSuccessors k c t rest s
    else
      match Dev.translate s.mem s.dev k.via t.tenant va .store with
      | (.error _, d) => State.decSuccessors k c t rest { s with dev := d }
      | (.ok p, d) =>
        let r : CntReq := { source := .dispatcher c k.uid, requester := k.requester, tenant := t.tenant, va := va, pa := p.pa, order := .rel,
                            scope := scopeOfCode t.scope }
        State.decSuccessors k c t rest { s with dev := d.post 0 (.seCntDec r 1) }

/-- A task whose STATE says DONE decrements its successors and leaves its tables (R427). -/
def State.finishTask (s : State) (c id : Nat) (k : Cast) (t : Task) : State :=
  let s := State.decSuccessors k c t t.succ s
  let d := ((s.dev.settleEnergy c t).dropTask id).packetEnd t
  { s with dev := d.modCast c fun k => { k with outSince := d.now, th := { k.th with taskActive := false } } }

/-- STATE says DONE (R427). -/
def State.taskDone (s : State) (t : Task) : State := if t.wrote then s else s.writeTaskState t 1

/-! ### Stages -/

/-- TASK.UNREG (R448): the deque's entries go to the ready queue of the cast's die. -/
def Dev.leaveStage (d : Dev) (c : Nat) : Dev :=
  match d.casts.find c with
  | none => d
  | some k =>
    if k.stage = 0 then d
    else
      (k.deque.foldl (fun d id => d.modTask id fun t => { t with deque := none, die := k.die }) d).modCast c fun k =>
        { k with stage := 0, deque := [] }

/-! ### Staging cancelled (R434) -/

/-- The records of a chain that has not begun are written CANCELLED (R356), up to the first that has OWN = 0 or cannot be read. -/
def State.cancelChain (v : Via) (tenant die : Nat) : Nat → Word → State → State
  | 0, _, s => s
  | fuel + 1, va, s =>
    if va = 0 then s
    else
      match Dev.readRun s.mem s.dev v tenant va 16 with
      | (.error _, d) => { s with dev := d }
      | (.ok b, d) =>
        let ctl := leNat (b.take 8)
        if ctl % 2 = 0 then { s with dev := d }
        else
          let s' := State.writeRun { s with dev := d } v tenant (.staging die 12) va
            (leBytes 8 (ctl - 1 - 65536 * (ctl / 65536 % 256) + 65536 * 2))
          State.cancelChain v tenant die fuel (wordOf ((b.drop 8).take 8)) s'.1

/-- What the staging director has put on a cast's channels and has not begun is taken back. -/
def State.cancelChains (s : State) (c : Nat) : State :=
  match s.dev.casts.find c with
  | none => s
  | some k =>
    (List.range 4).foldl (fun s cix =>
      let x := k.chans.get {} cix
      let heads := (x.queue.filter fun q => q.2.1 == 0).map Prod.fst
      let heads := heads ++ (if x.staged then x.cur.toList else [])
      let s := heads.foldl (fun s va => State.cancelChain k.via k.tenant k.die (2 ^ 16) va s) s
      { s with dev := s.dev.modChan c cix fun x =>
          Chan.settle { x with queue := x.queue.filter fun q => q.2.1 != 0, cur := if x.staged then none else x.cur, staged := false } }) s

/-- The direct tasks aimed at a cast: staging is cancelled, and a pending token goes back to the head of the launch FIFO. -/
def State.cancelStaging (s : State) (c : Nat) : State :=
  let s := s.cancelChains c
  let d := s.dev
  let staging := (d.sch.tasks.filter fun e => e.2.direct && e.2.target == c && e.2.st == .staging).map Prod.fst
  let d := staging.foldl (fun d id => d.modTask id fun t =>
    { t with st := .ready, hold := true, lost := 0, ws := t.ws.map fun w => { w with pos := 0, pushed := false } }) d
  match d.casts.find c with
  | none => { s with dev := d }
  | some k =>
    match k.task.bind fun id => (d.sch.tasks.find id).map fun t => (id, t) with
    | some (id, t) =>
      if t.direct ∧ t.st = .pending then
        { s with dev := ((d.modTask id fun t => { t with st := .staged }).addBalance t.tenant (Int.ofNat t.est)).modCast c fun k =>
          { k with task := none, fifo := id :: k.fifo, th := { k.th with taskToken := none } } }
      else { s with dev := d }
    | none => { s with dev := d }

/-! ### The tasks of a cast that is removed (R417, R429) -/

/-- Its active, suspended, pending and queued tasks. -/
def State.orphanTasks (s : State) (c : Nat) : State :=
  match s.dev.casts.find c with
  | none => s
  | some k =>
    let s := { s with dev := s.dev.leaveStage c }
    let s := match k.task.bind fun id => (s.dev.sch.tasks.find id).map fun t => (id, t) with
      | some (id, t) =>
        if t.st = .pending ∧ !t.direct then
          { s with dev := ((s.dev.modTask id fun t => { t with st := .staged }).addBalance t.tenant (Int.ofNat t.est)).modCast c fun k =>
            { k with task := none } }
        else if t.wrote then s.finishTask c id k t
        else s.discardTask c id 2
      | none => s
    let s := k.susp.foldl (fun s x => s.discardTask c x.1 2) s
    k.fifo.foldl (fun s id => s.discardTask c id 2) s

end Sys2Proof.Machine
end

