-- ==== Sys2Proof/Machine/Removal.lean ====
section
/-!
DEFINITION. Freezing and thawing (R187, R401, R413), and the removal of a cast (R175, R341, R412): what it waits for, and what it
takes away.
-/
namespace Sys2Proof.Machine

/-! ### Freezing -/

/-- A site goes on after a freeze of `n` clocks. -/
def Site.shift (s : Site) (n : Nat) : Site := { s with dueY := postponed n s.dueY, dueZ := postponed n s.dueZ, el := s.el.shift n }

/-- A frozen cast goes on: its thread from its restart address, its elements where they stood, the clock of the thaw following that of
the freeze, and what stood still within its fabric (R189, R311, R413). -/
def Dev.unfreeze (d : Dev) (c : Nat) : Dev :=
  match d.casts.find c with
  | none => d
  | some k =>
    if k.frozen then
      (d.modCast c fun k =>
        { k with
          frozen := false, saving := none, held := [], hang := 0
          sites := k.sites.map fun e => (e.1, e.2.shift (d.now - (k.frozenAt + 1)))
          th := match k.th.mode with
            | .stopped => { k.th with mode := .fetch d.now }
            | _ => k.th }).postAll 0 k.held
    else d

/-- The accesses that a cast still has in flight have ended: the loads of its memory ports and stream operators have their replies, its
thread's stores and commands have been performed, and no replica has a store of it to apply (R69, R136, R213, R229). -/
def Dev.accessesDone (d : Dev) (c : Nat) (k : Cast) : Bool :=
  k.th.storesDone && d.replicasApplied c && k.sites.all fun e => match e.2.el with
    | .sb b => b.loads.isEmpty
    | .so o => o.readsBack d.now
    | _ => true

/-- A pool slot given back. -/
def Dev.freeSlot (d : Dev) (s : Option (Nat × Nat)) : Dev :=
  match s with
  | none => d
  | some (i, n) => d.modSch fun s => { s with pool := s.pool.del (65536 * i + n) }

/-- The slot of a watchdog's image is freed (R441); the entry of one that is still to be made is posted without it. -/
def Dev.freeOwnSlot (d : Dev) (c : Nat) : Dev :=
  match d.casts.find c with
  | none => d
  | some k =>
    let d := (d.freeSlot k.slot).modCast c fun k => { k with slot := none, saving := none }
    if k.saving = some .watchdog then d.postFault k.tenant [0x07, BitVec.ofNat 64 c, 0, k.th.pc] else d

/-! ### Steps in flight -/

/-- The cast whose own steps stand still while it is frozen (R187, R189): what is in flight within its fabric and block. The replies of
memory reach it all the same (R213). -/
def ownStep : Instr → Option Nat
  | .slotResultDeliver c _ _ _ => some c
  | .hostReadTimeout c _ _ => some c
  | .tokenAccept c _ _ => some c
  | .pulseArrive c _ _ _ => some c
  | .rootDoneArrive c => some c
  | .nodeIterationBegin c _ => some c
  | .argWriteArrive c _ _ _ => some c
  | .mxRelArrive c _ _ => some c
  | .mxScaleWrite c _ _ => some c
  | _ => none

/-- The cast that a step in flight belongs to. -/
def stepCast (i : Instr) : Option Nat :=
  (ownStep i).or <| match i with
  | .mloadReply c _ => some c
  | .mxClaimServe c _ _ _ => some c
  | .mxStatServe c _ _ _ _ => some c
  | .sbHndNew c _ _ _ => some c
  | .sbHndGive c _ => some c
  | .sbHndTake c _ _ => some c
  | .sbHndDrop c _ => some c
  | .classDReply c _ _ _ => some c
  | .asyncCauseArrive c _ => some c
  | .preemptHalt c => some c
  | .seWaitRegister r => some r.cast
  | .seGrpNew r _ _ _ => some r.cast
  | .seGrpJoin r _ _ => some r.cast
  | .seGrpLeave r _ => some r.cast
  | .seGrpFree r _ => some r.cast
  | .seGrpBarArrive r _ => some r.cast
  | .rollRowFill c => some c
  | .variantSwitch c => some c
  | .memtimeout _ c _ _ => some c
  | _ => none

/-- Of an atomic whose thread has gone the reply is dropped. -/
def dropReply (c : Nat) : Instr → Instr
  | .seAtomic r =>
    match r.reply with
    | .pending c' _ => if c' = c then .seAtomic { r with reply := .none } else .seAtomic r
    | _ => .seAtomic r
  | i => i

/-- Nothing in flight or held belongs to a cast any more; what stands at the engines for one that is saved stays there (R372). -/
def Dev.purgeCast (d : Dev) (c : Nat) (saved : Bool) : Dev :=
  let keep : Instr → Bool := fun i => stepCast i != some c
  if saved then { d with agenda := d.agenda.filter fun e => keep e.2 }
  else
  { d with
    agenda := (d.agenda.filter fun e => keep e.2).map fun e => (e.1, dropReply c e.2)
    se := d.se.map fun e =>
      (e.1, { e.2 with
        hold := e.2.hold.map fun q => (q.1, (q.2.filter keep).map (dropReply c))
        waits := e.2.waits.filter fun w => w.cast != c }) }

/-! ### Removal (R412) -/

/-- The cast is frozen for good: the records in progress on its channels end, the rest goes (R341); a record that stands at a fault, or
waits for rows of a matrix element that no longer runs, is given up. -/
def State.beginRemoval (s : State) (c : Nat) : State :=
  let s := s.cancelStaging c
  let d := s.dev.freeze c
  { s with dev := d.modCast c fun k =>
      { k with
        leaving := true
        chans := k.chans.map fun e =>
          let faulted := e.2.fault.map Prod.fst
          let x := { e.2 with fault := none, resume := none, recs := e.2.recs.filter fun r => some r.id != faulted && k.rowsFree e.1 r }
          (e.1, if x.used then x.wind else x) } }

/-- Its stores are performed and its channels closed. -/
def Cast.emptied (k : Cast) : Bool := k.leaving && k.th.storesDone && k.chans.all fun e => !e.2.used

/-- The thread leaves its groups, as GRP.LEAVE does. -/
def Dev.leaveAll (d : Dev) (c : Nat) (k : Cast) : Dev :=
  [k.th.gmem.w0, k.th.gmem.w1, k.th.gmem.w2, k.th.gmem.w3].foldl (fun d h => if h = 0 then d else d.leaveGroup c h) d

/-- What is left of a cast goes with its number; `unwall` tells whether the plinth's walls come back, `saved` whether a RESTORE may
follow. -/
def State.takeOut (s : State) (c : Nat) (unwall : Bool) (saved : Bool := false) : State :=
  match s.dev.casts.find c with
  | none => s
  | some k =>
    let d := (k.susp.foldl (fun d x => d.freeSlot ((d.tteOf 0 k.tenant).map fun i => (i, x.2.1))) (s.dev.settleUsage c)).freeOwnSlot c
    let d := d.unpair c (fun _ => true) k
    let s := State.dropImage { s with dev := d } c k
    let d := if unwall then s.dev.unwallCast k else s.dev
    { s with dev := { (d.purgeCast c saved) with casts := d.casts.del c } }

/-- The end of a removal. -/
def State.endRemoval (s : State) (c : Nat) (unwall : Bool) : State :=
  match s.dev.casts.find c with
  | none => s
  | some k =>
    let s := s.orphanTasks c
    let d := s.dev.leaveAll c k
    let d := if d.cursor.map Prod.fst = some c then { d with cursor := none } else d
    State.takeOut { s with dev := d } c unwall

/-! ### HALT (R175) -/

/-- No clock holds back a link: no slot of it was released or taken so late that its next token waits (R26). -/
def InQ.still (q : InQ) (now : Nat) : Bool := decide (q.freed ≤ now ∧ (q.sent = 0 ∨ q.sent + 3 ≤ now + 1))

/-- No clock holds back an element. -/
def Elem.still (e : Elem) (now : Nat) : Bool :=
  match e with
  | .none => true
  | .sb b => b.loads.isEmpty
  | .cx _ => true
  | .ve v => decide (v.until_ ≤ now)
  | .mx m =>
    m.rows.isEmpty && decide (m.lfullFrom ≤ now ∧ m.bFrom ≤ now ∧ m.rowNext ≤ now ∧ m.outAt ≤ now ∧ m.aAt ≤ now ∧ m.bAt ≤ now ∧ m.dAt ≤ now
        ∧ m.readAt ≤ now)
      && m.slots.all fun s => decide (s.2.relAt ≤ now) && s.2.pres.all fun p => decide (p.2 ≤ now)
  | .so o => o.readsBack now

/-- No clock holds back a site. -/
def Site.still (s : Site) (now : Nat) : Bool :=
  s.outq.isEmpty && decide (s.dueY ≤ now ∧ s.dueZ ≤ now ∧ s.lastFire ≤ now ∧ s.actAt ≤ now ∧ s.node.openAt ≤ now) && s.el.still now
    && s.inA.still now && s.inB.still now && s.inC.still now && s.inD.still now

/-- Nothing of a cast is in flight and no clock holds anything back: where nothing of it can act in this clock either, it has drained, and
no pop will be served (R175; DEDUCED, log entry 113). -/
def Dev.atRest (d : Dev) (c : Nat) (k : Cast) : Bool :=
  (d.agenda.all fun e => stepCast e.2 != some c) && (k.sites.all fun e => e.2.still d.now) && (k.ports.all fun p => decide (p.next ≤ d.now))
    && k.th.push.all fun e => decide (k.pushNext.get 0 e.1 ≤ d.now)

/-- The thread has halted, its commands but pops have been answered, the cast has drained, and nothing else keeps it. -/
def Dev.canRetire (d : Dev) (c : Nat) (k : Cast) : Bool :=
  k.th.mode == .halted && !k.leaving && !k.frozen && k.task.isNone && (d.pl.rolls.find c).isNone
    && (k.th.pend.all fun p => p.reply.isSome || k.th.pops.any fun q => q.1 == p.pid) && d.atRest c k
    && (match d.pl.cur with
      | some (.save _ _ c' _) => c' != c
      | some (.remove _ _ c') => c' != c
      | _ => true)

/-- HALT_REMOVAL: the removal begins. -/
def execHaltRemoval (c : Nat) (s : State) : Res :=
  match s.dev.casts.find c with
  | none => .next s
  | some k => if s.dev.canRetire c k then .next (s.beginRemoval c) else .next s

end Sys2Proof.Machine
end

