-- ==== Sys2Proof/Machine/Placer.lean ====
section
/-!
DEFINITION. The placer's requests (R383 to R387) and its operations LOAD, GRANT, REVOKE, REMOVE, RESUME, SAVE and RESTORE (R388 to
R392, R409 to R413); each is begun by a step of its own.
-/
namespace Sys2Proof.Machine

/-! ### Request blocks (R383) -/

/-- A block's fields. -/
def plBlockOf (b : List Byte) : PlBlock :=
  let z := fun (off n : Nat) => (List.range n).any fun i => num b (off + i) 1 != 0
  let flags := num b 2 2
  let pos := num b 32 2
  let res := num b 56 8
  { op := num b 0 2, auto := flags.testBit 0, remove := flags.testBit 1, frozen := flags.testBit 2, cast := num b 8 2
    addr := BitVec.ofNat 64 (num b 16 8), len := BitVec.ofNat 64 (num b 24 8), bx := pos % 32, by_ := pos / 256 % 16, aff := num b 34 1
    cut := num b 35 1, tid := num b 36 1, pix := num b 37 1, pw := num b 38 1, ph := num b 39 1
    bind := BitVec.ofNat 64 (num b 40 8), cnt := BitVec.ofNat 64 (num b 48 8), act := res % 4, tgt := res / 4 % 4, rx := res / 256 % 256
    ry := res / 65536 % 128
    bad := decide (8 ≤ flags) || z 10 6 || decide (pos / 32 % 8 ≠ 0 ∨ 4096 ≤ pos) || decide (res / 16 % 16 ≠ 0 ∨ 2 ^ 23 ≤ res) || z 80 48 }

/-- The TLBs through which the placer translates: those of CD0, with neither a port's nor a block's. -/
def placerVia : Via := { port := none, block := none, die := 0 }

/-- A request block read as its requester's tenant. -/
def Dev.readBlock (m : Memory) (d : Dev) (tenant : Nat) (addr : Word) : Option PlBlock × Dev :=
  match Dev.readRun m d placerVia tenant addr 128 with
  | (.error _, d) => (none, d)
  | (.ok b, d) => (some (plBlockOf b), d)

/-- The tenant for which a request acts: tenant 0 acts for TID (R384). -/
def PlReq.actsFor (r : PlReq) (b : PlBlock) : Nat := if r.tenant = 0 then b.tid else r.tenant

/-- The block is malformed, or asks for what its requester may not have (R385). -/
def PlReq.malformed (r : PlReq) (b : PlBlock) : Bool :=
  b.bad || decide (b.op = 0 ∨ 10 < b.op) || (r.tenant != 0 && (b.tid != 0 || b.op == 9 || b.op == 10))

/-! ### Packets in flight (R465, R469) -/

/-- A queue stopped by one of its packets (R469). -/
def Dev.stopQueue (d : Dev) (iod qid ix reason reply : Nat) (addr : Word) : Dev :=
  match d.host.queues.find (1024 * iod + qid) with
  | none => d
  | some q =>
    let d := match q.slot with
      | some n => { d with host := { d.host with slots := d.host.slots.upd (32 * iod + n) fun s => { s with err := true, errix := ix } } }
      | none => d
    d.postFault q.tid [0x09, BitVec.ofNat 64 (qid + 2 ^ 16 * reason + 2 ^ 24 * reply), BitVec.ofNat 64 ix, addr]

/-- The packet in flight of a queue at an index. -/
def Dev.packetAt (d : Dev) (iod qid ix : Nat) : Option PktSt :=
  d.host.packets.find? fun p => p.iod == iod && p.qid == qid && p.index == ix

/-- A packet that was refused is in flight no more. -/
def Dev.dropPacket (d : Dev) (iod qid ix : Nat) : Dev :=
  { d with host := { d.host with
      packets := d.host.packets.filter fun p => !(p.iod == iod && p.qid == qid && p.index == ix)
      queues := d.host.queues.upd (1024 * iod + qid) fun q => { q with infl := q.infl - 1 } } }

/-! ### The queue (R384, R415) -/

/-- The first request that is still to be queued can be: every request of its clock has arrived, and of a PL.REQ the thread's earlier
accesses have been performed, or the cast has gone. -/
def Dev.askReady (d : Dev) : Option PlAsk :=
  match d.pl.asks with
  | [] => none
  | a :: _ =>
    if d.now ≤ a.at_ then none
    else
      match a.src with
      | .thread c =>
        match d.casts.find c with
        | none => some a
        | some k => if k.thDone a.after then some a else none
      | _ => some a

/-- A request as a requester of a tenant makes it, checked: the reply 0 and the request queued, or BADREQ or BUSY. -/
def Dev.submit (m : Memory) (d : Dev) (src : PlSource) (tenant requester : Nat) (addr : Word) : Nat × Dev :=
  match Dev.readBlock m d tenant addr with
  | (none, d) => (1, d)
  | (some b, d) =>
    let r : PlReq := { src := src, tenant := tenant, addr := addr, requester := requester, block := some b }
    if addr.toNat % 128 ≠ 0 ∨ r.malformed b then (1, d)
    else if 64 ≤ d.pl.queue.length then (2, d)
    else (0, d.modPl fun p => { p with queue := p.queue ++ [r] })

/-- A request of a packet: one that the placer is busy for comes back after 1 µs, a malformed one stops its queue (R465, R469). -/
def State.submitPacket (s : State) (p : PktSt) : State :=
  let r := Dev.submit s.mem s.dev (.packet p.iod p.qid p.index) p.tid (10496 + p.iod) p.arg
  let d := r.2
  { s with dev := match r.1 with
    | 0 => d
    | 2 => d.post 1500 (.placerBusyRetry p.iod p.qid p.index)
    | _ => (d.stopQueue p.iod p.qid p.index 3 0 p.addr).dropPacket p.iod p.qid p.index }

/-- A request of the elastic rule joins the queue, unless it is full (R415, R438). -/
def Dev.elasticReq (d : Dev) (tenant stage : Nat) (b : PlBlock) : Dev :=
  if 64 ≤ d.pl.queue.length then d
  else d.modPl fun p => { p with queue := p.queue ++ [{ src := .elastic stage, tenant := tenant, addr := 0, requester := 10500, block := some b }] }

/-- The first request is taken as its source requires; that of a thread gets its reply. -/
def State.takeAsk (s : State) (a : PlAsk) : State :=
  let d := s.dev.modPl fun p => { p with asks := p.asks.tail }
  match a.src with
  | .thread c =>
    match d.casts.find c with
    | none => { s with dev := d }
    | some k =>
      let r := Dev.submit s.mem d (.thread c) k.tenant k.requester a.addr
      { s with dev := r.2.replyWithin 2000 c a.pid (BitVec.ofNat 64 r.1) 0 }
  | .firmware => { s with dev := d.firmwareReq a.addr }
  | .packet iod qid ix =>
    match d.packetAt iod qid ix with
    | none => { s with dev := d }
    | some p => State.submitPacket { s with dev := d } p
  | .elastic stage => { s with dev := d.elasticReq a.tenant stage (a.block.getD {}) }

/-- The request at the head of the queue leaves it, unless the placer is busy (R384). -/
def Dev.nextReq (d : Dev) : Option (PlReq × Dev) :=
  match d.pl.queue with
  | [] => none
  | r :: rest => if d.placerBusy then none else some (r, d.modPl fun p => { p with queue := rest })

/-! ### Completion (R387) -/

/-- What a packet's or the elastic rule's request leaves behind (R438, R465). -/
def Dev.plNote (d : Dev) (r : PlReq) (status : Nat) (cast : Nat) : Dev :=
  match r.src with
  | .packet iod qid index => d.post 0 (.packetComplete iod qid index)
  | .elastic stage =>
    if status = 0 ∧ (d.casts.countP fun e => e.2.tenant == r.tenant && e.2.stage == stage) < 64 then
      d.modCast cast fun k => if r.block.any fun b => b.op == 1 then { k with stage := stage } else k
    else d
  | _ => d

/-- The placer's decrement: of 1, as a release at TENANT; a counter that cannot be reached is passed over. -/
def State.plCount (s : State) (tenant : Nat) (cnt : Word) : State :=
  if cnt = 0 then s
  else
    match Dev.translate s.mem s.dev placerVia tenant cnt .store with
    | (.error _, d) => { s with dev := d }
    | (.ok p, d) =>
      { s with dev := d.post 0 (.seCntDec { source := .nobody, requester := 10499, tenant := tenant, va := cnt, pa := p.pa, order := .rel,
                                            scope := .tenant } 1) }

/-- A field of a request's block written. -/
def State.plPut (s : State) (r : PlReq) (off : Nat) (bs : List Byte) : State :=
  match r.src with
  | .elastic _ => s
  | _ => (s.writeRun placerVia r.tenant .placer (r.addr + BitVec.ofNat 64 off) bs).1

/-- A release of the placer waits until the replicas have applied every store before it (R78). -/
def State.plHold (s : State) (f : PlFin) : State := { s with dev := s.dev.modPl fun p => { p with fin := p.fin ++ [f] } }

/-- CNT is decremented, once it may be, and the request has ended. -/
def State.plEnd (s : State) (f : PlFin) : State :=
  if s.dev.unapplied f.seen then s.plHold f
  else
    let s := s.plCount f.req.tenant f.cnt
    { s with dev := s.dev.plNote f.req f.status f.cast }

/-- STATUS is written, once it may be, and CNT follows. -/
def State.plStatus (s : State) (f : PlFin) : State :=
  if s.dev.unapplied f.seen then s.plHold f
  else
    let s := s.plPut f.req 4 (leBytes 4 f.status)
    s.plEnd { f with wrote := true, seen := s.dev.replNo }

/-- DETAIL, RESULT and STATUS are written, in this order, and CNT is decremented. -/
def State.plDone (s : State) (r : PlReq) (b : PlBlock) (st : Bad) (result : Word) (cast : Nat := 0) : State :=
  let s := (s.plPut r 64 (leBytes 8 st.2.toNat)).plPut r 72 (leBytes 8 result.toNat)
  s.plStatus { req := r, cnt := b.cnt, status := st.1, cast := cast, seen := s.dev.replNo }

/-- The last releases of a request can go on. -/
def Dev.finReady (d : Dev) : Option PlFin := d.pl.fin.head?.filter fun f => !d.unapplied f.seen

/-- They do. -/
def State.goOnFin (s : State) (f : PlFin) : State :=
  let s := { s with dev := s.dev.modPl fun p => { p with fin := p.fin.tail } }
  if f.wrote then s.plEnd f else s.plStatus f

/-- A request of one operation performed: its block is read, checked, and handed on. One whose block cannot be read is dropped; one
of another operation is left. -/
def State.onRequest (s : State) (op : Nat) (f : State → PlReq → PlBlock → State) : State :=
  match s.dev.nextReq with
  | none => s
  | some (r, d) =>
    match (match r.block with
      | some b => (some b, d)
      | none => Dev.readBlock s.mem d r.tenant r.addr) with
    | (none, d) => { s with dev := d }
    | (some b, d) =>
      if r.malformed b then State.plDone { s with dev := d } r b (1, 0) 0 else if b.op = op then f { s with dev := d } r b else s

/-! ### Casts of a request -/

/-- A cast of the tenant that a request acts for, placed and not being removed; or NOCAST, or CASTBUSY under a ROLL (R405). -/
def Dev.reqCast (d : Dev) (tenant c : Nat) (rollToo : Bool) : Except Bad Cast :=
  match d.casts.find c with
  | none => .error (3, 0)
  | some k =>
    if k.tenant ≠ tenant ∨ k.leaving ∨ k.lease.isSome then .error (3, 0)
    else if (d.pl.rolls.find c).isSome ∧ !rollToo then .error (4, 0)
    else .ok k

/-! ### LOAD (R390) -/

/-- An image read: its bytes, or BADIMG, BADVER. Only MAGIC and MAJOR are read before MAJOR is known. -/
def Dev.readImage (m : Memory) (d : Dev) (tenant : Nat) (addr : Word) : Except Bad (List Byte) × Dev :=
  let unread := fun (va : Word) => (Except.error (5, va - addr) : Except Bad (List Byte))
  match Dev.readRun m d placerVia tenant addr 8 with
  | (.error (va, _), d) => (unread va, d)
  | (.ok h, d) =>
    if num h 0 4 ≠ 0x444C4F4D then (.error (5, 0), d)
    else if num h 6 2 ≠ 1 then (.error (6, BitVec.ofNat 64 (num h 6 2)), d)
    else
      match Dev.readRun m d placerVia tenant addr 64 with
      | (.error (va, _), d) => (unread va, d)
      | (.ok h, d) =>
        if num h 8 4 < 80 then (.error (5, 8), d)
        else
          match Dev.readRun m d placerVia tenant addr (num h 8 4) with
          | (.error (va, _), d) => (unread va, d)
          | (.ok b, d) => (.ok b, d)

/-- REQF0 to REQF3 against the accepted set (R381). -/
def Dev.badFeature (d : Dev) (b : List Byte) : Option Bad :=
  (List.range 4).findSome? fun i =>
    let miss := BitVec.ofNat 64 (num b (16 + 8 * i) 8) &&& ~~~ (d.featacc.word i)
    if miss = 0 then none else some (7, BitVec.ofNat 64 i + miss <<< 8)

/-- Steps 1 to 3: the mould. -/
def Dev.checkImage (d : Dev) (b : List Byte) : Except Bad Mould :=
  match badImage b with
  | some o => .error (5, BitVec.ofNat 64 o)
  | none =>
    match d.badFeature b with
    | some e => .error e
    | none =>
      match native? b with
      | none => .error (8, 0)
      | some s =>
        match badNative b s with
        | some o => .error (5, BitVec.ofNat 64 o)
        | none => .ok (mouldOf b)

/-- Step 4 (R53): exactly one valid entry has the TID. -/
def Dev.badTenant (d : Dev) (tenant : Nat) : Option Bad :=
  let n := (List.range 64).countP fun i => bitAt (d.tte0 0 i) 8 && field (d.tte0 0 i) 0 8 == tenant
  if n = 1 then none else some (9, BitVec.ofNat 64 tenant)

/-- SEAMLINK with DETAIL all ones (R478). -/
def Dev.deadSeam (d : Dev) (bx by_ w h : Nat) : Option Bad := if d.straddles bx by_ w h then some (16, 0xFFFFFFFFFFFFFFFF) else none

/-- A CAST binding to be made again (R398). -/
def Port.unmade (p : Port) : Port :=
  match p.bind with
  | .peer c ix _ _ => { p with bind := .peer c ix false [] }
  | _ => p

/-- Steps 6 to 9 at a position: the cast with its ports bound, or a status. `but` is a cast whose adapters do not count; `saved` gives
the bindings when the request names none. -/
def Dev.checkAt (m : Memory) (d : Dev) (mould : Mould) (tenant no bx by_ : Nat) (bind : Word) (but : Option Nat) (saved : Option (List Port)) :
    Except Bad Cast × Dev :=
  let k := { (mould.lay 0 tenant bx by_) with ports := mould.ports.map portOf }
  let early := (mould.badConfig d tenant bx by_ (d.deadSeam bx by_ mould.wb mould.hb)).or (mould.badPatch.or (mould.badPorts tenant bx by_))
  match early with
  | some e => (.error e, d)
  | none =>
    let bound := if bind = 0 then (.ok ((saved.getD k.ports).map Port.unmade), d) else Dev.bindAll m k no placerVia bind 0 k.ports d
    match bound with
    | (.error e, d) => (.error e, d)
    | (.ok ps, d) =>
      let k := { k with ports := ps }
      match d.noAdapter but k with
      | some e => (.error e, d)
      | none => (.ok k, d)

/-- The lowest free cast number. -/
def Dev.freeNumber (d : Dev) : Nat :=
  ((List.range 65536).find? fun n => 0 < n && (d.casts.find n).isNone && !d.pl.reserved.contains n).getD 0

/-- A cast set on its plinth under a number: the image copied, the sites walled in, the ports paired. -/
def State.place (s : State) (no : Nat) (k : Cast) : Option State :=
  match s.dev.tteOf 0 k.tenant with
  | none => none
  | some i =>
    (s.copyImage i no k.mould.bytes).map fun s =>
      let k := { k with imgVa := s.dev.windowVa i no, outSince := s.dev.now }
      { s with dev := (({ s.dev with casts := s.dev.casts.put no k }).wallCast k).pairAll no }

/-- The thread of a cast as LOAD creates it: it is to wait at the .entry block (R33). -/
def Cast.freshThread (k : Cast) (now : Nat) : Thread :=
  { mode := .fetch now, pc := k.imgVa + BitVec.ofNat 64 (k.mould.codeOff + k.mould.entry) }

/-- A freshly placed cast gets its thread. -/
def State.startThread (s : State) (no : Nat) : State :=
  { s with dev := { s.dev with uids := s.dev.uids + 1 }.modCast no fun k => { k with uid := s.dev.uids + 1, th := k.freshThread s.dev.now } }

/-- LOAD. -/
def State.load (s : State) (r : PlReq) (b : PlBlock) : State :=
  let tenant := r.actsFor b
  match Dev.readImage s.mem s.dev tenant b.addr with
  | (.error e, d) => State.plDone { s with dev := d } r b e 0
  | (.ok img, d) =>
    let fail := fun (d : Dev) (e : Bad) => State.plDone { s with dev := d } r b e 0
    match d.checkImage img with
    | .error e => fail d e
    | .ok mould =>
      match d.badTenant tenant with
      | some e => fail d e
      | none =>
        match d.position tenant b.aff none b mould.wb mould.hb with
        | .error e => fail d e
        | .ok (bx, by_) =>
          let no := d.freeNumber
          match Dev.checkAt s.mem d mould tenant no bx by_ b.bind none none with
          | (.error e, d) => fail d e
          | (.ok k, d) =>
            match State.place { s with dev := d } no { k with aff := b.aff } with
            | none => fail d (10, 0)
            | some s => State.plDone (s.startThread no) r b (0, 0) (BitVec.ofNat 64 no) no

/-- PLACER_LOAD. -/
def execPlacerLoad (s : State) : Res := .next (s.onRequest 1 State.load)

/-! ### GRANT, REVOKE and RESUME -/

/-- PLACER_GRANT. -/
def execPlacerGrant (s : State) : Res :=
  .next (s.onRequest 9 fun s r b =>
    match s.dev.grant b with
    | .error e => s.plDone r b e 0
    | .ok d => State.plDone { s with dev := d } r b (0, 0) 0)

/-- PLACER_REVOKE. -/
def execPlacerRevoke (s : State) : Res :=
  .next (s.onRequest 10 fun s r b =>
    match s.dev.revoke b with
    | .error e => s.plDone r b e 0
    | .ok d => State.plDone { s with dev := d } r b (0, 0) 0)

/-- A ring adapter goes on (R399). -/
def Ring.resume (g : Ring) (skip : Bool) : Ring :=
  match g.stopped with
  | none => g
  | some (_, entry) => { g with stopped := none, skip := skip && entry, poll := 0 }

/-- The target of RESUME goes on (R413); one that is not frozen is left as it is, and so is a cast that stands for its suspension alone. -/
def Dev.resume (d : Dev) (c : Nat) (k : Cast) (b : PlBlock) : Dev :=
  let skip := b.act == 1
  match b.tgt with
  | 0 =>
    let n := siteNo b.rx b.ry
    if (k.site n).el.fault.isSome then d.modSite c n fun s => { s with el := s.el.unfreeze, skip := skip } else d
  | 1 => d.modChan c (b.rx % 4) fun x => if x.fault.isSome ∧ x.resume.isNone then { x with resume := some (if skip then .skip else .retry, 0) } else x
  | 2 =>
    d.modCast c fun k => { k with ports := k.ports.modify b.rx fun p => match p.bind with
      | .ring g => { p with bind := .ring (g.resume skip) }
      | _ => p }
  | _ => if k.saving = some .yield then d else (d.freeOwnSlot c).unfreeze c

/-- The target named exists, and ACT suits it. -/
def Cast.canResumeAt (k : Cast) (b : PlBlock) : Bool :=
  match b.tgt with
  | 0 => decide (b.act < 2) && k.inside b.rx b.ry
  | 1 => decide (b.act < 2 ∧ b.rx < 4)
  | 2 => decide (b.act < 2 ∧ b.rx < k.ports.length)
  | _ => b.act == 0

/-- PLACER_RESUME. -/
def execPlacerResume (s : State) : Res :=
  .next (s.onRequest 8 fun s r b =>
    match s.dev.reqCast (r.actsFor b) b.cast false with
    | .error e => s.plDone r b e 0
    | .ok k =>
      if k.canResumeAt b then State.plDone { s with dev := s.dev.resume b.cast k b } r b (0, 0) 0 else s.plDone r b (1, 0) 0)

/-! ### REMOVE (R412) -/

/-- The removal of a cast that is under way has ended. -/
def Dev.removed (d : Dev) (c : Nat) : Bool := (d.casts.find c).isNone

/-- PLACER_REMOVE: the removal begins, or, once the cast has gone, the request completes. A number kept by SAVE is given up (R409). -/
def execPlacerRemove (s : State) : Res :=
  match s.dev.pl.cur with
  | some (.remove r b c) =>
    if s.dev.removed c then .next (State.plDone { s with dev := s.dev.modPl fun p => { p with cur := none } } r b (0, 0) 0) else .next s
  | _ =>
    .next (s.onRequest 7 fun s r b =>
      let tenant := r.actsFor b
      match s.dev.away.find b.cast with
      | some k =>
        if s.dev.pl.reserved.contains b.cast ∧ k.tenant = tenant then
          let d := { s.dev.modPl (fun p => { p with reserved := p.reserved.filter fun n => n != b.cast }) with away := s.dev.away.del b.cast }
          State.plDone { s with dev := d.leaveAll b.cast k } r b (0, 0) 0
        else s.plDone r b (3, 0) 0
      | none =>
        match s.dev.reqCast tenant b.cast true with
        | .error e => s.plDone r b e 0
        | .ok _ =>
          let d := s.dev.modPl fun p => { p with cur := some (.remove r b b.cast) }
          if (d.pl.rolls.find b.cast).isSome then
            { s with dev := (d.freeze b.cast).modPl fun p => { p with rolls := p.rolls.upd b.cast fun x => { x with force := true } } }
          else State.beginRemoval { s with dev := d } b.cast)

/-! ### SAVE (R409, R410) -/

/-- The bytes that SAVE needs. -/
def Cast.saveSize (k : Cast) : Nat := 65536 + k.mould.bytes.length + 2686976 * (k.wb * k.hb)

/-- Byte `i` of a save image: the 64 bytes of R410, then a body that is not published (DESIGN CHOICE, log entry 13). -/
def SaveRec.byte (r : SaveRec) (i : Nat) : Byte :=
  let head := leBytes 4 0x53564B45 ++ leBytes 2 0 ++ leBytes 2 1 ++ leBytes 8 r.size ++ leBytes 2 r.kind ++ leBytes 1 r.tid ++ leBytes 1 0
    ++ leBytes 2 r.no ++ List.replicate 42 0
  if i < 64 then head.getD i 0 else Config.saveBody r.id i

def SaveRec.bytes (r : SaveRec) : List Byte := (List.range r.size).map r.byte

/-- KIND of the image of a cast that SAVE finds. -/
def saveKind (wasFrozen : Bool) : Nat := if wasFrozen then 2 else 1

/-- What is in flight for a cast, in the order in which it falls due. -/
def Dev.flying (d : Dev) (c : Nat) : List Instr := (d.agenda.filter fun e => stepCast e.2 == some c).map Prod.snd

/-- An image of a cast is made and written at an address: the state after it, the record, and the fault of a failing write. -/
def State.writeImage (s : State) (tenant c kind : Nat) (via : Via) (addr : Word) : State × Option SaveRec × Option (Word × XFault) :=
  match s.dev.casts.find c with
  | none => (s, none, none)
  | some k =>
    let r : SaveRec := { id := s.dev.pl.nextSave, size := k.saveSize, kind := kind, tid := k.tenant, no := c
                         cast := { k with held := k.held ++ s.dev.flying c } }
    let s := { s with dev := s.dev.modPl fun p => { p with nextSave := p.nextSave + 1 } }
    match s.writeRun via tenant .placer addr r.bytes with
    | (s, some e) => (s, none, some e)
    | (s, none) => ({ s with dev := s.dev.modPl fun p => { p with saves := p.saves ++ [r] } }, some r, none)

/-- What is in flight for a cast goes with it. -/
def Dev.packCast (d : Dev) (c : Nat) : Dev :=
  { d with agenda := d.agenda.filter fun e => stepCast e.2 != some c }.modCast c fun k => { k with held := k.held ++ d.flying c }

/-- The cast is taken away with its number kept: its memberships and what it waits for stay (R40, R94). -/
def State.takeAway (s : State) (c : Nat) : State :=
  let s := s.orphanTasks c
  let d := s.dev.packCast c
  match d.casts.find c with
  | none => { s with dev := d }
  | some k =>
    let s := State.takeOut { s with dev := d } c true true
    { s with dev := { s.dev.modPl (fun p => { p with reserved := c :: p.reserved }) with away := s.dev.away.put c k } }

/-- The image is written, the cast goes or resumes, and the request completes. -/
def State.endSave (s : State) (r : PlReq) (b : PlBlock) (c : Nat) (wasFrozen : Bool) : State :=
  let s := { s with dev := s.dev.modPl fun p => { p with cur := none } }
  let thaw := fun (s : State) => if wasFrozen then s else { s with dev := s.dev.unfreeze c }
  match s.writeImage (r.actsFor b) c (saveKind wasFrozen) placerVia b.addr with
  | (s, _, some (va, _)) => State.plDone (thaw s) r b (25, va) 0
  | (s, none, none) => s.plDone r b (3, 0) 0
  | (s, some x, none) => State.plDone (if b.remove then s.takeAway c else thaw s) r b (0, 0) (BitVec.ofNat 64 x.size)

/-- A step that stands at a synchronisation engine for a thread. -/
def isSeStep : Instr → Bool
  | .seWaitRegister .. => true
  | .seGrpNew .. => true
  | .seGrpJoin .. => true
  | .seGrpLeave .. => true
  | .seGrpFree .. => true
  | .seGrpBarArrive .. => true
  | _ => false

/-- The committed stores and commands of a frozen cast have been carried on, and its loads have their replies (R96, R213). -/
def Dev.saveReady (d : Dev) (c : Nat) (k : Cast) : Bool :=
  d.accessesDone c k && !(d.pl.asks.any fun a => a.src == .thread c) && !(d.flying c).any isSeStep

/-- A cast is frozen for a request, and whether it stood still before: one that a suspension alone had frozen did not, one whose thread a
trap of this clock has stopped counts as frozen (R185, R187, R430). -/
def Dev.freezeFor (d : Dev) (c : Nat) (k : Cast) : Bool × Dev :=
  let d := d.freeze c
  ((k.frozen && k.saving != some .yield) || ((d.casts.find c).map fun k => k.th.mode == .stopped).getD false, d)

/-- PLACER_SAVE: the cast is frozen; once its committed stores are performed the image is written. -/
def execPlacerSave (s : State) : Res :=
  match s.dev.pl.cur with
  | some (.save r b c wasFrozen) =>
    match s.dev.casts.find c with
    | none => .next (State.plDone { s with dev := s.dev.modPl fun p => { p with cur := none } } r b (3, 0) 0)
    | some k => if s.dev.saveReady c k then .next (s.endSave r b c wasFrozen) else .next s
  | _ =>
    .next (s.onRequest 5 fun s r b =>
      match s.dev.reqCast (r.actsFor b) b.cast false with
      | .error e => s.plDone r b e 0
      | .ok k =>
        if b.addr.toNat % 4096 ≠ 0 then s.plDone r b (1, 0) 0
        else if b.len.toNat < k.saveSize then s.plDone r b (24, 0) (BitVec.ofNat 64 k.saveSize)
        else if k.th.mode = .halted then s.plDone r b (3, 0) 0
        else
          let s := s.cancelStaging b.cast
          let z := s.dev.freezeFor b.cast k
          { s with dev := z.2.modPl fun p => { p with cur := some (.save r b b.cast z.1) } })

/-! ### Copy channels on another die (R340, R400) -/

/-- The channels of a cast given physical channels of a die: the first that finds none fails with NOCHAN. -/
def Dev.rehome (d : Dev) (but : Option Nat) (tenant die : Nat) (chans : Tbl Chan) : Except Bad (Tbl Chan) :=
  let taken := { d with casts := d.casts.filter fun e => some e.1 != but }.chansOn die
  let limit := d.chanLimit die tenant
  let own := (taken.filter fun x => x.1 == tenant).length
  let free := (List.range 12).filter fun p => !(taken.any fun x => x.2 == p)
  let go := chans.foldl (fun (acc : Except Bad (Tbl Chan × List Nat × Nat)) e =>
    match acc with
    | .error b => .error b
    | .ok (t, free, n) =>
      if !e.2.used then .ok (t ++ [e], free, n)
      else
        match free with
        | [] => .error (29, BitVec.ofNat 64 e.1)
        | p :: rest => if n < limit then .ok (t ++ [(e.1, { e.2 with phys := p })], rest, n + 1) else .error (29, BitVec.ofNat 64 e.1))
    (.ok ([], free, own))
  match go with
  | .ok (t, _, _) => .ok t
  | .error e => .error e

/-! ### RESTORE (R411) -/

/-- The save image at an address, when the placer wrote it since the last reset (R486); BADBUF where it cannot be read, else BADSAVE
(R386, R411). -/
def Dev.findImage (m : Memory) (d : Dev) (tenant : Nat) (addr : Word) : Except Bad SaveRec × Dev :=
  match Dev.readRun m d placerVia tenant addr 64 with
  | (.error (va, _), d) => (.error (25, va), d)
  | (.ok h, d) =>
    if num h 0 4 ≠ 0x53564B45 ∨ num h 6 2 ≠ 1 then (.error (26, 0), d)
    else
      match Dev.readRun m d placerVia tenant addr (num h 8 8) with
      | (.error (va, _), d) => (.error (25, va), d)
      | (.ok b, d) =>
        match d.pl.saves.find? fun r => r.tid == tenant && b == r.bytes with
        | some x => (.ok x, d)
        | none => (.error (26, 0), d)

/-- The location that a wait is registered for, when an engine registers it. -/
def waitLoc : Wait → Option (Option Nat)
  | .waitBit .. | .waitBitAll .. => some none
  | .cpBwait pa .. => some (some pa)
  | .cntWait _ pa .. => some (some pa)
  | _ => none

/-- A request that stands in a hold queue for a wait. -/
def Dev.heldWait (d : Dev) (c id : Nat) : Bool :=
  d.se.any fun e => e.2.hold.any fun q => q.2.any fun i => match i with
    | .seWaitRegister r => r.cast == c && r.id == id
    | _ => false

/-- A wait of a restored cast is registered again in place of its entry (R372), unless its request is still held; an arrival at a barrier
has been kept (R370). -/
def Dev.registerAgain (d : Dev) (c : Nat) (w : Option WaitSt) : Dev :=
  match w with
  | none => d
  | some w =>
    match waitLoc w.wait with
    | none => d
    | some loc =>
      if w.done || d.heldWait c w.id then d
      else
        let se := d.se.map fun (e : Nat × SeSt) => (e.1, { e.2 with waits := e.2.waits.filter fun x => x.cast != c || x.id != w.id })
        Dev.post { d with se := se } 0 (.seWaitRegister { d.sender c w.id with loc := loc })

/-- The waits that an engine registers are registered again. -/
def Dev.reregister (d : Dev) (c : Nat) (k : Cast) : Dev := (d.registerAgain c k.th.wait).registerAgain c k.th.saved

/-- A saved cast as it is placed at a position: CASTID and what depends on the place are set afresh by the place itself. -/
def Cast.replaced (saved k : Cast) (chans : Tbl Chan) (aff : Nat) : Cast :=
  { saved with bx := k.bx, by_ := k.by_, ports := saved.ports.mapIdx fun i p => { p with bind := ((k.ports[i]?).map Port.bind).getD p.bind }
               chans := chans, aff := aff, leaving := false, frozen := true, stage := 0, deque := [], fifo := [], task := none, susp := []
               slot := none, saving := none, idleAt := none, hang := 0, busy := [], switching := false, switchTo := none
               th := { saved.th with taskToken := none, taskActive := false } }

/-- The cast of an image: when it went away with this image, as the events since have left it (R40, R94). -/
def Dev.savedCast (d : Dev) (x : SaveRec) : Cast :=
  if ((d.pl.saves.filter fun r => r.no == x.no).getLast?).map SaveRec.id = some x.id then (d.away.find x.no).getD x.cast else x.cast

/-- RESTORE. -/
def State.restore (s : State) (r : PlReq) (b : PlBlock) : State :=
  let tenant := r.actsFor b
  match Dev.findImage s.mem s.dev tenant b.addr with
  | (.error e, d) => State.plDone { s with dev := d } r b e 0
  | (.ok x, d) =>
    let fail := fun (d : Dev) (e : Bad) => State.plDone { s with dev := d } r b e 0
    if (d.casts.find x.no).isSome then fail d (4, 0)
    else
      let saved := d.savedCast x
      let aff := if b.aff = 0 then saved.aff else b.aff
      match d.position tenant aff none b saved.wb saved.hb with
      | .error e => fail d e
      | .ok (bx, by_) =>
        match Dev.checkAt s.mem d saved.mould tenant x.no bx by_ b.bind none (some saved.ports) with
        | (.error e, d) => fail d e
        | (.ok k, d) =>
          match d.rehome none tenant (dieOfBlock bx by_) saved.chans with
          | .error e => fail d e
          | .ok chans =>
            match State.place { s with dev := d } x.no (saved.replaced k chans aff) with
            | none => fail d (10, 0)
            | some s =>
              let d := { s.dev.modPl (fun p => { p with reserved := p.reserved.filter fun n => n != x.no }) with away := s.dev.away.del x.no }
              let d := if b.frozen then d else d.unfreeze x.no
              State.plDone { s with dev := d.reregister x.no saved } r b (0, 0) (BitVec.ofNat 64 x.no) x.no

/-- PLACER_RESTORE. -/
def execPlacerRestore (s : State) : Res := .next (s.onRequest 6 State.restore)

end Sys2Proof.Machine
end

