-- ==== Sys2Proof/Machine/Moving.lean ====
section
/-!
DEFINITION. MOVE and COMPACT (R400 to R404): the checks at the target, the pause of a cut and what empties it, and the move itself.
-/
namespace Sys2Proof.Machine

/-! ### Checks (R400) -/

/-- The cast at the target, with its channels there; or a status. -/
def Dev.checkMove (d : Dev) (k : Cast) (i : MoveItem) : Except Bad Cast :=
  let aff := if i.aff = 0 then k.aff else i.aff
  if i.cut ≠ 255 ∧ k.mould.cuts.length ≤ i.cut then .error (1, 0)
  else if k.th.mode = .halted then .error (3, 0)
  else if d.noDie aff then .error (11, BitVec.ofNat 64 aff)
  else if !d.fits k.tenant aff (some i.cast) i.bx i.by_ k.wb k.hb then .error (10, 0)
  else
    match k.mould.badConfig d k.tenant i.bx i.by_ (d.deadSeam i.bx i.by_ k.wb k.hb) with
    | some e => .error e
    | none =>
      let k' := { k with bx := i.bx, by_ := i.by_, aff := aff }
      match d.noAdapter (some i.cast) k' with
      | some e => .error e
      | none =>
        if k'.die = k.die then .ok k'
        else
          match d.rehome (some i.cast) k.tenant k'.die k.chans with
          | .error e => .error e
          | .ok chans => .ok { k' with chans := chans }

/-! ### Cuts (R382, R401) -/

/-- The links of a cut in variant 0, and its ports. -/
def Cast.cutLinks (k : Cast) (cut : Nat) : List LinkEnt :=
  (k.mould.cuts.getD cut []).filterMap fun r => if 32768 ≤ r then none else (k.mould.variant 0).links[r]?
def Cast.cutPorts (k : Cast) (cut : Nat) : List Nat :=
  (k.mould.cuts.getD cut []).filterMap fun r => if 32768 ≤ r then some (r - 32768) else none

/-- Producers of a cut are paused, or go on: the elements at its links' ends and at its OUT ports, the adapters of its IN ports. -/
def Cast.pauseCut (k : Cast) (cut : Nat) (b : Bool) : Cast :=
  let ports := k.cutPorts cut
  let sites := (k.cutLinks cut).map (fun l => siteNo l.px l.py)
    ++ ports.filterMap fun ix => (k.ports[ix]?).bind fun p => if p.isOut then some p.site else none
  let k := sites.foldl (fun k n => k.modSite n fun s => { s with paused := b }) k
  { k with ports := k.ports.mapIdx fun ix p => if ports.contains ix then { p with paused := b } else p }

/-- An input's link holds no token. -/
def InQ.bare (q : InQ) : Bool := q.toks.isEmpty && q.occ.all fun e => e.2 == 0

/-- Every link of the cut holds no token in a slot or output register. -/
def Cast.cutEmpty (k : Cast) (cut : Nat) : Bool :=
  ((k.cutLinks cut).all fun l =>
    ((k.site (siteNo l.cx l.cy)).inQ (allInPorts.getD l.inp .a)).bare && (k.site (siteNo l.px l.py)).outq.isEmpty)
  && (k.cutPorts cut).all fun ix =>
    match k.ports[ix]? with
    | none => true
    | some p =>
      if p.isOut then p.q.isEmpty && p.occ == 0 && (k.site p.site).outq.isEmpty
      else ((k.site p.site).inQ (allInPorts.getD p.local_ .a)).bare

/-! ### The move (R401, R402) -/

/-- A port TLB of the cast is empty: its memory ports', operators' and adapters'. -/
def Dev.dropPortTlbs (d : Dev) (k : Cast) : Dev :=
  let mine := k.sites.map (fun e => k.siteRequester e.1) ++ k.ports.filterMap fun p => (k.adapterVia p).port
  { d with tlbPort := d.tlbPort.filter fun e => !mine.contains e.1 }

/-- The channels that a move to another die reserves there: the physical channel of each channel of the cast in use, by channel index
(R400). -/
def Cast.reserve (k k' : Cast) : Tbl Nat := if k'.die = k.die then [] else (k'.chans.filter fun e => e.2.used).map fun e => (e.1, e.2.phys)

/-- The reservation with one more for each channel that the cast has opened since; or NOCHAN (log entry 117). -/
def Dev.reserveMore (d : Dev) (c : Nat) (k : Cast) (die : Nat) (res : Tbl Nat) : Except Bad (Tbl Nat) :=
  if die = k.die then .ok []
  else
    let used : Tbl Chan := k.chans.filter fun e => e.2.used
    match d.rehome (some c) k.tenant die (used.filter fun e => (res.find e.1).isNone) with
    | .error e => .error e
    | .ok t => .ok (used.map fun e => (e.1, (res.find e.1).getD (t.get {} e.1).phys))

/-- What crosses the fabric for a cast stands still with it, in its order (R29, R402). -/
def Dev.haltFlow (d : Dev) (c : Nat) : Dev :=
  let flow := d.agenda.filter fun (e : Nat × Instr) => ownStep e.2 == some c
  let rest := d.agenda.filter fun (e : Nat × Instr) => ownStep e.2 != some c
  Dev.modCast { d with agenda := rest } c fun k => { k with held := k.held ++ flow.map Prod.snd }

/-- A cast at its new place: its position, its mask and its channels. -/
def Cast.relocate (k : Cast) (i : MoveItem) (res : Tbl Nat) : Cast :=
  { k with
    bx := i.bx, by_ := i.by_, aff := if i.aff = 0 then k.aff else i.aff
    chans := k.chans.map fun e => (e.1, match res.find e.1 with
      | some p => { e.2 with phys := p }
      | none => e.2) }

/-- Step 3: the cast is frozen, and the staging of its tasks cancelled (R434). -/
def State.freezeMove (s : State) (r : PlReq) (b : PlBlock) (i : MoveItem) (rest : List MoveItem) (ix : Nat) (k : Cast) (res : Tbl Nat) : State :=
  let s := s.cancelStaging i.cast
  let z := (s.dev.settleUsage i.cast).freezeFor i.cast k
  { s with dev := z.2.modPl fun p => { p with cur := some (.moving r b i rest ix z.1 res) } }

/-- The cast of the move under way has no access left in flight: a move ends a configuration phase (R69, R213, R229). -/
def Dev.moveReady (d : Dev) : Bool :=
  match d.pl.cur with
  | some (.moving _ _ i _ _ _ _) => ((d.casts.find i.cast).map fun k => d.accessesDone i.cast k).getD true
  | _ => false

/-- Steps 4 to 7: the cast is carried to the target, in a new configuration phase (R23, R30, R224), and goes on, unless it stood still
before. -/
def Dev.moveCast (d : Dev) (i : MoveItem) (wasFrozen : Bool) (res : Tbl Nat) : Dev :=
  match d.casts.find i.cast with
  | none => d
  | some k =>
    let k' := k.relocate i res
    let d := ((d.haltFlow i.cast).dropPortTlbs k).unwallCast k
    let d := (d.modCast i.cast fun k => (k.relocate i res).endRecords).wallCast k'
    if wasFrozen then d else d.unfreeze i.cast

/-- The status of a move as its request reports it: COMPACT gives the index of the move. -/
def moveStatus (b : PlBlock) (ix : Nat) (e : Bad) : Bad := if b.op = 3 ∧ e.1 ≠ 0 then (e.1, BitVec.ofNat 64 ix) else e

/-- The move under way goes through. -/
def State.goMove (s : State) : State :=
  match s.dev.pl.cur with
  | some (.moving _ _ i _ _ wasFrozen res) => { s with dev := (s.dev.modPl fun p => { p with cur := none }).moveCast i wasFrozen res }
  | _ => s

/-- The moves of a list, from index `ix` on, until one fails, waits for its cut or for its cast, or is the last. -/
def State.runMoves (r : PlReq) (b : PlBlock) : List MoveItem → Nat → State → State
  | [], _, s => s.plDone r b (0, 0) 0
  | i :: rest, ix, s =>
    match s.dev.reqCast (r.actsFor b) i.cast false with
    | .error e => s.plDone r b (moveStatus b ix e) 0
    | .ok k =>
      match s.dev.checkMove k i with
      | .error e => s.plDone r b (moveStatus b ix e) 0
      | .ok k' =>
        if i.cut = 255 then
          let s := s.freezeMove r b i rest ix k (k.reserve k')
          if s.dev.moveReady then State.runMoves r b rest (ix + 1) s.goMove else s
        else
          { s with dev := (s.dev.modCast i.cast fun k => k.pauseCut i.cut true).modPl fun p =>
            { p with cur := some (.move r b i (s.dev.now + p.movelim.toNat) rest ix (k.reserve k')) } }

/-- A move whose cast is frozen goes through once it may, and the rest of its list with it. -/
def State.moveOn (s : State) : State :=
  match s.dev.pl.cur with
  | some (.moving r b _ rest ix _ _) => if s.dev.moveReady then State.runMoves r b rest (ix + 1) s.goMove else s
  | _ => s

/-- A cast is under a move: its cut is emptied, or it is carried. -/
def Dev.moving (d : Dev) (c : Nat) : Bool :=
  match d.pl.cur with
  | some (.move _ _ i _ _ _ _) => i.cast == c
  | some (.moving _ _ i _ _ _ _) => i.cast == c
  | _ => false

/-- A move is under way whose cast is frozen. -/
def Dev.isMoving (d : Dev) : Bool :=
  match d.pl.cur with
  | some (.moving ..) => true
  | _ => false

/-- PLACER_MOVE: the move begins; or it goes through. -/
def execPlacerMove (s : State) : Res :=
  if s.dev.isMoving then .next s.moveOn
  else .next (s.onRequest 2 fun s r b => State.runMoves r b [{ cast := b.cast, bx := b.bx, by_ := b.by_, aff := b.aff, cut := b.cut }] 0 s)

/-- An entry of a move list, with the mask of the request (R392); one with a bit set that must be zero is malformed (R404). -/
def moveEntry (aff : Nat) (b : List Byte) : Option MoveItem :=
  let w := num b 0 8
  if w / 2 ^ 21 % 8 ≠ 0 ∨ w / 2 ^ 28 % 16 ≠ 0 ∨ 2 ^ 40 ≤ w then none
  else some { cast := w % 65536, bx := w / 2 ^ 16 % 32, by_ := w / 2 ^ 24 % 16, aff := aff, cut := w / 2 ^ 32 % 256 }

/-- A list of entries, none when one is malformed. -/
def moveList (aff : Nat) (b : List Byte) : Nat → Option (List MoveItem)
  | 0 => some []
  | n + 1 =>
    match moveList aff b n, moveEntry aff (b.drop (8 * n)) with
    | some is, some i => some (is ++ [i])
    | _, _ => none

/-- PLACER_COMPACT: the list is read and its moves begin; or the one that waits for its cast goes through. -/
def execPlacerCompact (s : State) : Res :=
  if s.dev.isMoving then .next s.moveOn
  else
    .next (s.onRequest 3 fun s r b =>
      let n := b.len.toNat
      if n = 0 ∨ 16 < n then s.plDone r b (1, 0) 0
      else
        match Dev.readRun s.mem s.dev placerVia (r.actsFor b) b.addr (8 * n) with
        | (.error (va, _), d) => State.plDone { s with dev := d } r b (25, va) 0
        | (.ok bs, d) =>
          match moveList b.aff bs n with
          | none => State.plDone { s with dev := d } r b (1, 0) 0
          | some is => State.runMoves r b is 0 { s with dev := d })

/-! ### The cut (R401, R403) -/

/-- The pause ends, with the placer's move. -/
def Dev.endPause (d : Dev) (i : MoveItem) : Dev :=
  (d.modCast i.cast fun k => k.pauseCut i.cut false).modPl fun p => { p with cur := none }

/-- The cut of the move under way is empty, or its cast has been frozen meanwhile (R402). -/
def Dev.cutReady (d : Dev) : Bool :=
  match d.pl.cur with
  | some (.move _ _ i _ _ _ _) =>
    match d.casts.find i.cast with
    | none => true
    | some k => k.frozen || k.th.mode == .halted || k.cutEmpty i.cut
  | _ => false

/-- The cast of a move that has waited for its cut, with the channels that it takes along; NOCAST when its thread has halted or it has
gone (R403). -/
def Dev.stillMoves (d : Dev) (r : PlReq) (b : PlBlock) (i : MoveItem) (res : Tbl Nat) : Except Bad (Cast × Tbl Nat) :=
  match d.reqCast (r.actsFor b) i.cast false with
  | .error e => .error e
  | .ok k =>
    if k.th.mode = .halted then .error (3, 0)
    else
      match d.reserveMore i.cast k (dieOfBlock i.bx i.by_) res with
      | .error e => .error e
      | .ok res => .ok (k, res)

/-- MOVE_CUT_EMPTY: the pause ends as the cast is frozen; the move is abandoned where it cannot go on. -/
def execMoveCutEmpty (s : State) : Res :=
  match s.dev.pl.cur with
  | some (.move r b i _ rest ix res) =>
    if !s.dev.cutReady then .next s
    else
      let t := { s with dev := s.dev.endPause i }
      match s.dev.stillMoves r b i res with
      | .error e => .next (t.plDone r b (moveStatus b ix e) 0)
      | .ok (k, res) => .next (t.freezeMove r b i rest ix k res).moveOn
  | _ => .next s

/-- CUTTIMEOUT. -/
def execCuttimeout (s : State) : Res :=
  match s.dev.pl.cur with
  | some (.move r b i deadline _ ix _) =>
    if s.dev.now < deadline then .next s
    else .next (State.plDone { s with dev := s.dev.endPause i } r b (moveStatus b ix (22, 0)) 0)
  | _ => .next s

end Sys2Proof.Machine
end

