-- ==== Sys2Proof/Machine/Rolling.lean ====
section
/-!
DEFINITION. Rolling reconfiguration (R405 to R408): ROLL, the rows released, emptied and filled, and the end.
-/
namespace Sys2Proof.Machine

/-! ### ROLL (R405) -/

/-- The new cast set on the old one's sites, with no row filled and no thread. -/
def State.placeOver (s : State) (no old : Nat) (k : Cast) (r : PlReq) (b : PlBlock) : Option State :=
  match s.dev.tteOf 0 k.tenant with
  | none => none
  | some i =>
    (s.copyImage i no k.mould.bytes).map fun s =>
      let k := { k with imgVa := s.dev.windowVa i no, lease := some 0, outSince := s.dev.now, th := { mode := .stopped } }
      { s with dev := ({ s.dev with casts := s.dev.casts.put no k }).modPl fun p =>
          { p with rolls := p.rolls.put old { req := r, blk := b, num := no } } }

/-- ROLL. -/
def State.roll (s : State) (r : PlReq) (b : PlBlock) : State :=
  let tenant := r.actsFor b
  match s.dev.reqCast tenant b.cast false with
  | .error e => s.plDone r b e 0
  | .ok old =>
    if old.frozen then s.plDone r b (4, 0) 0
    else
      match Dev.readImage s.mem s.dev tenant b.addr with
      | (.error e, d) => State.plDone { s with dev := d } r b e 0
      | (.ok img, d) =>
        let fail := fun (d : Dev) (e : Bad) => State.plDone { s with dev := d } r b e 0
        match d.checkImage img with
        | .error e => fail d e
        | .ok mould =>
          match d.badTenant tenant with
          | some e => fail d e
          | none =>
            if mould.wb ≠ old.wb ∨ mould.hb ≠ old.hb then fail d (23, 0)
            else
              let no := d.freeNumber
              match Dev.checkAt s.mem d mould tenant no old.bx old.by_ b.bind none none with
              | (.error e, d) => fail d e
              | (.ok k, d) =>
                match State.placeOver { s with dev := d } no b.cast { k with aff := if b.aff = 0 then old.aff else b.aff } r b with
                | none => fail d (10, 0)
                | some s => s

/-- PLACER_ROLL. -/
def execPlacerRoll (s : State) : Res := .next (s.onRequest 4 State.roll)

/-! ### Rows (R406) -/

/-- The row of blocks of a site. -/
def rowOf (n : Nat) : Nat := siteY n / 6

/-- No link with an end at the site holds a token: its inputs, and what its outputs feed. -/
def Cast.siteBare (d : Dev) (k : Cast) (n : Nat) : Bool :=
  let s := k.site n
  s.outq.isEmpty && (allInPorts.all fun p => (s.inQ p).bare)
    && (enabledOutputs s.ecwNow).all fun o => (k.routes d s.ctx s.phase n o (outWide s.ecwNow o)).all fun r =>
      match r.dst with
      | .input n p _ => ((k.site n).inQ p).bare
      | .out ix => (k.ports[ix]?.map fun p => p.q.isEmpty && p.occ == 0).getD true
      | .pop _ => true
      | .wall .. => true

/-- No memory port or stream operator at the site has an access outstanding. -/
def Site.noAccess (s : Site) (now : Nat) : Bool :=
  match s.el with
  | .sb b => b.loads.isEmpty
  | .so o => o.readsBack now
  | _ => true

/-- The work of a site's element has ended. -/
def Site.idleWork (s : Site) (now : Nat) : Bool :=
  !s.node.running && s.node.permits == 0 && s.noAccess now &&
    match s.el with
    | .mx m => m.cmds.isEmpty && m.rows.isEmpty
    | _ => true

/-- A released row is empty. -/
def Cast.rowEmpty (d : Dev) (k : Cast) (row : Nat) : Bool :=
  (k.sites.filter fun e => rowOf e.1 == row).all fun e => e.2.idleWork d.now && k.siteBare d e.1

/-- The rows of a cast under a ROLL that are released: all of them once its thread has halted or it is being removed (R408). -/
def RollSt.rows (x : RollSt) (k : Cast) : Nat := if x.force || k.th.mode == .halted || k.leaving then k.hb else x.released

/-- The placer is free for a row of a ROLL: it performs nothing, or the removal of that very cast (R384). -/
def Dev.fillTurn (d : Dev) (c : Nat) : Bool :=
  d.pl.fin.isEmpty && !(d.pl.rolls.any fun e => e.2.filling) && match d.pl.cur with
    | none => true
    | some (.remove _ _ c') => c' == c
    | some _ => false

/-- The next row can be filled. -/
def Dev.canFill (d : Dev) (c : Nat) (k : Cast) (x : RollSt) : Bool :=
  d.fillTurn c && decide (x.filled < x.rows k) && (x.force || k.leaving || k.rowEmpty d x.filled)

/-- Its fill begins: it ends within 600 + 100 × WB clocks. -/
def Dev.startFill (d : Dev) (c : Nat) (k : Cast) : Dev :=
  ((d.modPl fun p => { p with rolls := p.rolls.upd c fun x => { x with filling := true } }).post (d.delay (600 + 100 * k.wb))
    (.rollRowFill c)).tickFree

/-- The row leaves the old cast. -/
def Cast.giveRow (k : Cast) (row : Nat) : Cast :=
  { k with
    gone := row + 1
    sites := k.sites.filter fun e => rowOf e.1 != row
    ports := k.ports.map fun p => if rowOf p.site = row then { p with bind := .unbound, q := [], occ := 0 } else p }

/-- The row is the new cast's: what waited at the lease wall goes on, and its ports are bound. -/
def Dev.takeRow (d : Dev) (no row : Nat) : Dev :=
  match d.casts.find no with
  | none => d
  | some k =>
    let d := (d.modCast no fun k => { k with lease := some (row + 1), held := [] }).postAll 0 k.held
    ((List.range k.ports.length).filter fun ix => (k.ports[ix]?.map fun p => rowOf p.site == row).getD false).foldl
      (fun d ix => d.pairPort no ix) d

/-- A wait of LEASE.REL for no more than `n` fills. -/
def isLease (n : Nat) (w : Wait) : Bool :=
  match w with
  | .leaseRel m => decide (m ≤ n)
  | _ => false

/-- ROLL_ROW_FILL. -/
def execRollRowFill (c : Nat) (s : State) : Res :=
  match s.dev.pl.rolls.find c, s.dev.casts.find c with
  | some x, some k =>
    if x.filled < k.hb then
      let row := x.filled
      let d := (((s.dev.settleUsage c).settleUsage x.num).unpair c (fun p => rowOf p.site == row) k).modCast c fun k => k.giveRow row
      let d := d.modPl fun p => { p with rolls := p.rolls.upd c fun x =>
        { x with filled := row + 1, released := max x.released (row + 1), filling := false } }
      .next { s with dev := (d.takeRow x.num row).endOpenWait c (isLease (row + 1)) }
    else .next s
  | _, _ => .next s

/-! ### The end (R408) -/

/-- Every row is filled and the old thread has ended: the old cast is to be removed. -/
def Dev.canShed (k : Cast) (x : RollSt) : Bool :=
  !k.leaving && decide (k.hb ≤ x.filled) &&
    (x.force || (k.th.mode == .halted && k.task.isNone && k.th.pend.all fun p => p.reply.isSome || k.th.pops.any fun q => q.1 == p.pid))

/-- The old cast has nothing left to end. -/
def Dev.canFinish (k : Cast) (x : RollSt) : Bool := decide (k.hb ≤ x.filled) && k.emptied

/-- ROLL_FINISH: the old cast goes, and the new one's thread is created. -/
def execRollFinish (c : Nat) (s : State) : Res :=
  match s.dev.pl.rolls.find c, s.dev.casts.find c with
  | some x, some k =>
    if Dev.canFinish k x then
      let s := s.endRemoval c false
      let d := s.dev.modPl fun p => { p with rolls := p.rolls.del c }
      let s := State.startThread { s with dev := d.modCast x.num fun k => { k with lease := none } } x.num
      .next (s.plDone x.req x.blk (0, 0) (BitVec.ofNat 64 x.num) x.num)
    else .next s
  | _, _ => .next s

end Sys2Proof.Machine
end

