-- ==== Sys2Proof/Machine/Adapters.lean ====
section
/-!
DEFINITION. Port adapters (R394 to R399): rings into and out of a cast, and bindings between casts.
-/
namespace Sys2Proof.Machine

/-! ### Rings -/

/-- A token of a ring entry's bytes (R395). -/
def ringToken (wide : Bool) (b : List Byte) : Token :=
  if wide then
    { wide := true, ctl := BitVec.ofNat 16 (num b 132 2), data := BitVec.ofNat 1024 (num b 0 128), side := BitVec.ofNat 32 (num b 128 4) }
  else { wide := false, ctl := BitVec.ofNat 16 (num b 8 1), data := BitVec.ofNat 1024 (num b 0 8), side := 0 }

/-- The bytes of an entry. -/
def ringEntry (t : Token) : List Byte :=
  if t.wide then leBytes 128 t.data.toNat ++ leBytes 4 t.side.toNat ++ leBytes 2 t.ctl.toNat ++ List.replicate 122 0
  else leBytes 8 t.data.toNat ++ leBytes 1 t.ctl.toNat ++ List.replicate 7 0

/-- The address of entry `i`. -/
def Ring.entryVa (g : Ring) (wide : Bool) (i : Nat) : Word := g.base + BitVec.ofNat 64 (entrySizeOf wide * (i % g.cap))

/-- An index after another one. -/
def nextIx (i : Nat) : Nat := (i + 1) % 2 ^ 64

/-- Entries between two indexes. -/
def ixDiff (tail head : Nat) : Nat := (tail + 2 ^ 64 - head) % 2 ^ 64

/-- A port's ring changed. -/
def Dev.modRing (d : Dev) (c ix : Nat) (f : Ring → Ring) : Dev :=
  d.modCast c fun k => { k with ports := k.ports.modify ix fun p => match p.bind with
    | .ring g => { p with bind := .ring (f g) }
    | _ => p }

/-- A port with its ring, when the adapter is not stopped. -/
def Dev.ringAt (d : Dev) (c ix : Nat) : Option (Cast × Port × Ring) :=
  match d.casts.find c with
  | none => none
  | some k =>
    match k.ports[ix]? with
    | none => none
    | some p =>
      match p.bind with
      | .ring g => if g.stopped.isSome then none else some (k, p, g)
      | _ => none

/-- The port's row is there to be served: not one that a ROLL has still to fill (R407). -/
def Cast.served (k : Cast) (n : Nat) : Bool := (k.lease.map fun r => decide (rowOf n < r)).getD true

/-- The adapter stops before the access that failed, and posts PORTBIND (R399). -/
def Dev.stopAdapter (d : Dev) (c ix : Nat) (k : Cast) (va : Word) (f : XFault) (store entry : Bool) : Dev :=
  (d.modRing c ix fun g => { g with stopped := some (va, entry) }).postFault k.tenant
    [0x06, BitVec.ofNat 64 (c % 65536), BitVec.ofNat 64 ix, va, f.syndrome (if store then .store else .load) 1 k.tenant]

/-- An index of the descriptor read; the state with the adapter stopped when it cannot be. -/
def State.readIndex (s : State) (c ix : Nat) (k : Cast) (p : Port) (g : Ring) (off : Nat) (f : Nat → Ring → Ring) : State :=
  match Dev.readRun s.mem s.dev (k.adapterVia p) k.tenant (g.desc + BitVec.ofNat 64 off) 8 (.adapter c ix) with
  | (.error (va, e), d) => { s with dev := d.stopAdapter c ix k va e false false }
  | (.ok b, d) => { s with dev := d.modRing c ix (f (leNat b)) }

/-- The adapter's own index written as a release, past one entry; a write that fails stands until RESUME. -/
def State.writeIndex (s : State) (c ix : Nat) (k : Cast) (p : Port) (g : Ring) (off : Nat) : State :=
  match s.writeRun (k.adapterVia p) k.tenant (.adapter c ix) (g.desc + BitVec.ofNat 64 off) (leBytes 8 (nextIx g.own)) with
  | (s, some (va, e)) => { s with dev := s.dev.stopAdapter c ix k va e true false }
  | (s, none) => { s with dev := s.dev.modRing c ix fun g => { g with own := nextIx g.own, acks := g.acks.tail, owe := none } }

/-! ### Rings into the cast (R396) -/

/-- An IN port takes a token of its adapter: its link has room, no RECONF or DRAIN goes first, and its context uses the port (R382). The
port of a cast whose thread has halted takes none (R175, log entry 113). -/
def Cast.portTakes (d : Dev) (k : Cast) (p : Port) : Bool :=
  !p.isOut && !k.frozen && k.served p.site && !p.paused && k.th.mode != .halted && p.q.isEmpty && !(k.inPortRoutes d p.ctx p.phase p).isEmpty
    && k.portMaySend d p

/-- The entry that is read next. -/
def Ring.nextRead (g : Ring) : Nat := (g.own + g.acks.length) % 2 ^ 64

/-- The oldest token has been accepted, so that HEAD can pass its entry as a release. -/
def Dev.canAck (d : Dev) (g : Ring) : Bool :=
  match g.acks with
  | [] => false
  | (t, n) :: _ => decide (t ≤ d.now) && !d.unapplied n

/-- The next entry can be delivered, or dropped. -/
def Cast.canTake (d : Dev) (k : Cast) (p : Port) (g : Ring) : Bool :=
  decide (g.nextRead ≠ g.last ∧ g.acks.length < 16) && (if g.skip then !p.isOut && !k.frozen && k.served p.site else k.portTakes d p)

/-- HEAD can be written, or the next entry delivered or dropped. -/
def Dev.canDeliver (d : Dev) (c ix : Nat) : Bool :=
  match d.ringAt c ix with
  | none => false
  | some (k, p, g) => !p.isOut && !k.frozen && k.served p.site && (d.canAck g || k.canTake d p g)

/-- The clocks until the port input accepts a token of its adapter. -/
def Cast.portClocks (d : Dev) (k : Cast) (p : Port) : Nat :=
  ((k.inPortRoutes d p.ctx p.phase p).filter fun r => match r.dst with
    | .input n _ _ => n == p.site
    | _ => false).foldl (fun n r => max n r.clocks) 1

/-- An entry has been read: HEAD is to pass it from clock `t` on. -/
def Dev.addAck (d : Dev) (c ix t : Nat) : Dev := d.modRing c ix fun g => { g with acks := g.acks ++ [(t, d.replNo)] }

/-- IN_RING_DELIVER: HEAD moves past an entry whose token has been accepted, or the next entry is read and delivered as a token. -/
def execInRingDeliver (c ix : Nat) (s : State) : Res :=
  match s.dev.ringAt c ix with
  | none => .next s
  | some (k, p, g) =>
    if !s.dev.canDeliver c ix then .next s
    else if s.dev.canAck g then .next (s.writeIndex c ix k p g 16)
    else if g.skip then .next { s with dev := (s.dev.modRing c ix fun g => { g with skip := false }).addAck c ix s.dev.now }
    else
      match Dev.readRun s.mem s.dev (k.adapterVia p) k.tenant (g.entryVa p.wide g.nextRead) (entrySizeOf p.wide) (.adapter c ix) with
      | (.error (va, e), d) => .next { s with dev := d.stopAdapter c ix k va e false true }
      | (.ok b, d) =>
        .next { s with dev := ((d.portSend c ix p (ringToken p.wide b)).addAck c ix (d.now + k.portClocks d p)).modCast c fun k =>
          { k with progress := true } }

/-- TAIL is to be read again. -/
def Dev.canPollTail (d : Dev) (c ix : Nat) : Bool :=
  match d.ringAt c ix with
  | none => false
  | some (k, p, g) => !p.isOut && !k.frozen && k.served p.site && !p.paused && g.own == g.last && decide (g.poll ≤ d.now)

/-- IN_RING_TAIL_POLL: TAIL is read with an acquire. -/
def execInRingTailPoll (c ix : Nat) (s : State) : Res :=
  match s.dev.ringAt c ix with
  | none => .next s
  | some (k, p, g) =>
    if s.dev.canPollTail c ix then
      .next (s.readIndex c ix k p g 24 fun v g => { g with last := v, poll := s.dev.now + 256 })
    else .next s

/-! ### Rings out of the cast (R397) -/

/-- TAIL can be written as a release, or a token stands at the port link's head and the ring has room. -/
def Dev.canWriteOut (d : Dev) (c ix : Nat) : Bool :=
  match d.ringAt c ix with
  | none => false
  | some (k, p, g) =>
    p.isOut && !k.frozen && k.served p.site &&
      match g.owe with
      | some n => !d.unapplied n
      | none => !p.q.isEmpty && !p.absorbs && (g.skip || decide (ixDiff g.own g.last < g.cap))

/-- The token at the head of a port link leaves it. -/
def Dev.takeOutToken (d : Dev) (c ix : Nat) : Dev :=
  d.modCast c fun k => { k with ports := k.ports.modify ix fun p => { p with q := p.q.tail, occ := p.occ - 1 } }

/-- OUT_RING_WRITE: the token is written as entry TAIL, or TAIL moves past the entry written. -/
def execOutRingWrite (c ix : Nat) (s : State) : Res :=
  match s.dev.ringAt c ix with
  | none => .next s
  | some (k, p, g) =>
    if !s.dev.canWriteOut c ix then .next s
    else if g.owe.isSome then .next (s.writeIndex c ix k p g 24)
    else if g.skip then .next { s with dev := (s.dev.modRing c ix fun g => { g with skip := false }).takeOutToken c ix }
    else
      match p.q with
      | [] => .next s
      | t :: _ =>
        match s.writeRun (k.adapterVia p) k.tenant (.adapter c ix) (g.entryVa p.wide g.own) (ringEntry t) with
        | (s, some (va, e)) => .next { s with dev := s.dev.stopAdapter c ix k va e true true }
        | (s, none) => .next { s with dev := (s.dev.modRing c ix fun g => { g with owe := some s.dev.replNo }).takeOutToken c ix }

/-- HEAD is to be read: the ring is full as far as the adapter knows. -/
def Dev.canPollHead (d : Dev) (c ix : Nat) : Bool :=
  match d.ringAt c ix with
  | none => false
  | some (k, p, g) => p.isOut && !k.frozen && k.served p.site && g.owe.isNone && decide (g.cap ≤ ixDiff g.own g.last ∧ g.poll ≤ d.now)

/-- OUT_RING_HEAD_POLL: HEAD is read with an acquire. At binding the adapter knows its own index alone. -/
def execOutRingHeadPoll (c ix : Nat) (s : State) : Res :=
  match s.dev.ringAt c ix with
  | none => .next s
  | some (k, p, g) =>
    if s.dev.canPollHead c ix then
      .next (s.readIndex c ix k p g 16 fun v g => { g with last := v, poll := s.dev.now + 256 })
    else .next s

/-! ### CAST bindings (R398) -/

/-- An OUT port with a binding made: the peer, its port, and the tokens held. -/
def Dev.peerAt (d : Dev) (c ix : Nat) : Option (Cast × Port × Nat × Nat × List Token) :=
  match d.casts.find c with
  | none => none
  | some k =>
    match k.ports[ix]? with
    | none => none
    | some p =>
      match p.bind with
      | .peer c' ix' true held => if p.isOut then some (k, p, c', ix', held) else none
      | _ => none

/-- The peer's IN port takes the oldest token held. -/
def Dev.peerTakes (d : Dev) (c' ix' : Nat) : Bool :=
  match d.casts.find c' with
  | none => false
  | some j =>
    match j.ports[ix']? with
    | none => false
    | some q => j.portTakes d q

/-- The pair can take a token of the OUT port, or deliver one. -/
def Dev.canTransfer (d : Dev) (c ix : Nat) : Bool :=
  match d.peerAt c ix with
  | none => false
  | some (k, p, c', ix', held) =>
    (!held.isEmpty && d.peerTakes c' ix')
      || (!k.frozen && k.served p.site && !p.q.isEmpty && !p.absorbs && decide (held.length < 16))

/-- The tokens held by the pair changed. -/
def Dev.setHeld (d : Dev) (c ix : Nat) (held : List Token) : Dev :=
  d.modCast c fun k => { k with ports := k.ports.modify ix fun p => match p.bind with
    | .peer c' ix' made _ => { p with bind := .peer c' ix' made held }
    | _ => p }

/-- CAST_BINDING_TRANSFER. -/
def execCastBindingTransfer (c ix : Nat) (s : State) : Res :=
  match s.dev.peerAt c ix with
  | none => .next s
  | some (_, p, c', ix', held) =>
    if !s.dev.canTransfer c ix then .next s
    else
      match held with
      | t :: rest =>
        if s.dev.peerTakes c' ix' then
          match (s.dev.casts.find c').bind fun j => j.ports[ix']? with
          | none => .next s
          | some q =>
            .next { s with dev := ((s.dev.setHeld c ix rest).portSend c' ix' q t).modCast c' fun k => { k with progress := true } }
        else .next { s with dev := (s.dev.setHeld c ix (held ++ p.q.head?.toList)).takeOutToken c ix }
      | [] => .next { s with dev := (s.dev.setHeld c ix p.q.head?.toList).takeOutToken c ix }

end Sys2Proof.Machine
end

