-- ==== Sys2Proof/Machine/Sched.lean ====
section
/-!
DEFINITION. The task instructions (R446 to R448), the lease and placer instructions (R414 to R416), the records of tasks and stages
(R417 to R421), and the dispatchers' receipt of a released counter (R426).
-/
namespace Sys2Proof.Machine

/-! ### Instructions -/

/-- Task requests of one thread reach its dispatcher in order (R446). -/
def taskLane : Nat := 2

/-- The checks of a task or placer instruction's address when it fires. -/
def Dev.atRecord (m : Memory) (d : Dev) (sh : Shot) (align : Nat) (acc : Access) (k : Dev → Dev) : Dev :=
  if sh.a.toNat % align ≠ 0 then d.slotTrap sh 0x07 sh.a 0
  else
    match Dev.translate m d sh.k.via sh.k.tenant sh.a acc with
    | (.error f, d) => d.slotTrap sh 0x08 sh.a (f.syndrome acc 0 sh.k.tenant) (sub := BitVec.ofNat 8 f.sub)
    | (.ok _, d) => k d

/-- A request to the dispatcher that awaits its reply; TASK.PUT waits for the thread's earlier accesses (R447). -/
def Dev.askDispatcher (d : Dev) (sh : Shot) (a : Target) (release : Bool) (rq : TaskReq) : Dev :=
  let pid := sh.k.th.nextId
  (d.newId sh.c).effectWithin sh (Config.openDelay d.free) fun delay =>
    .defer .plain pid a 0 false taskLane release delay (.dispatchTaskPut (.thread sh.c pid) sh.k.tenant sh.k.die rq)

def execTaskPut (p : Pred) (isLocal : Bool) (a : Target) (s : State) : Res :=
  fire (.taskPut p isLocal a) s fun d sh =>
    d.atRecord s.mem sh 128 .load fun d => d.askDispatcher sh a true (.put sh.a isLocal)

def execTaskSdef (p : Pred) (a : Target) (s : State) : Res :=
  fire (.taskSdef p a) s fun d sh => d.atRecord s.mem sh 64 .load fun d => d.askDispatcher sh a false (.sdef sh.a)

/-- A cast operand: 0 names the issuing cast (R446). -/
def Shot.castOperand (sh : Shot) : Nat := if field sh.a 0 16 = 0 then sh.c else field sh.a 0 16

def execTaskReg (p : Pred) (a : Target) (s : State) : Res :=
  fire (.taskReg p a) s fun d sh => d.askDispatcher sh a false (.reg sh.castOperand (field sh.b 0 16))

def execTaskUnreg (p : Pred) (s : State) : Res :=
  fire (.taskUnreg p) s fun d sh =>
    d.effectWithin sh (Config.openDelay d.free) fun delay =>
      .issue taskLane false delay (.dispatchTaskPut (.thread sh.c 0) sh.k.tenant sh.k.die (.unreg sh.castOperand))

def execTaskInfo (p : Pred) (a : Target) (s : State) : Res :=
  fire (.taskInfo p a) s fun d sh => d.askDispatcher sh a false (.info (field sh.a 0 16))

/-- PL.REQ (R415): the block is submitted at commit. -/
def execPlReq (p : Pred) (a : Target) (s : State) : Res :=
  fire (.plReq p a) s fun d sh =>
    d.atRecord s.mem sh 128 .store fun d => (d.newId sh.c).effect sh (.plReq sh.k.th.nextId a sh.a)

/-- LEASE.REL (R416). -/
def execLeaseRel (p : Pred) (s : State) : Res := fire (.leaseRel p) s fun d sh => d.effect sh .leaseRel

/-! ### Task records (R419, R420) -/

/-- A working-set entry of a record. -/
def wsOf (b : List Byte) (i : Nat) : WsEnt :=
  let o := 32 + 16 * i
  let szl := num b (o + 8) 4
  { lvl := szl % 4, base := BitVec.ofNat 64 (num b o 8), size := szl / 128 * 128, tgt := BitVec.ofNat 32 (num b (o + 12) 4) }

/-- A working-set entry of a record is malformed. -/
def badWs (b : List Byte) (direct : Bool) (i : Nat) : Bool :=
  let o := 32 + 16 * i
  let w := wsOf b i
  num b (o + 8) 4 / 4 % 32 != 0 ||
    match w.lvl with
    | 0 => num b o 16 != 0
    | 1 => w.size == 0 || w.base.toNat % 128 != 0 || w.tgt != 0
    | 2 => !direct || w.size == 0 || w.base.toNat % 128 != 0
    | _ => !direct || w.size == 0 || w.base.toNat % 64 != 0 || w.tgt.toNat / 4 != 0

/-- The record is malformed (R420). -/
def badRecord (b : List Byte) : Bool :=
  let fl := num b 3 1
  let direct := fl.testBit 2
  num b 0 2 != 1 || decide (16 ≤ num b 2 1) || decide (8 ≤ fl) || decide (11 ≤ num b 24 1) || num b 25 3 != 0
    || (if direct then num b 4 2 != 0 else num b 4 2 == 0 || num b 6 2 != 0)
    || (List.range 4).any (badWs b direct) || (fl.testBit 1 && num b 32 64 != 0) || num b 8 8 % 64 != 0

/-- A task of a record (R419). -/
def taskOf (tenant die : Nat) (addr : Word) (b : List Byte) : Task :=
  let fl := num b 3 1
  { tenant := tenant, addr := addr, pri := num b 2 1 % 16, noStage := fl.testBit 0, mws := fl.testBit 1, direct := fl.testBit 2
    stage := num b 4 2, target := num b 6 2, parm := BitVec.ofNat 64 (num b 8 8), scope := num b 24 1
    ws := (List.range 4).map (wsOf b), succ := (List.range 4).map fun i => BitVec.ofNat 64 (num b (96 + 8 * i) 8)
    st := .waiting, die := die }

/-- Every byte of a run is translated as a load. -/
def Dev.reaches (m : Memory) (v : Via) (tenant : Nat) : Nat → Word → Nat → Dev → Bool × Dev
  | 0, _, _, d => (true, d)
  | fuel + 1, va, len, d =>
    if len = 0 then (true, d)
    else
      match Dev.translate m d v tenant va .load with
      | (.error _, d) => (false, d)
      | (.ok _, d) => Dev.reaches m v tenant fuel (va + BitVec.ofNat 64 (lineLeft va.toNat len)) (len - lineLeft va.toNat len) d

/-- The address of a counter passes the checks of R367: its physical address. -/
def Dev.counterAt (m : Memory) (d : Dev) (v : Via) (tenant : Nat) (va : Word) : Option Nat × Dev :=
  if va.toNat % 8 ≠ 0 then (none, d)
  else
    match Dev.translate m d v tenant va .store with
    | (.error _, d) => (none, d)
    | (.ok p, d) => (if paRegion (d.ownPa p.pa) ≠ 0 ∨ p.rpl.isSome then none else some p.pa, d)

/-- Every non-zero counter of a list passes. -/
def Dev.countersOk (m : Memory) (v : Via) (tenant : Nat) : List Word → Dev → Bool × Dev
  | [], d => (true, d)
  | va :: rest, d =>
    if va = 0 then Dev.countersOk m v tenant rest d
    else
      match Dev.counterAt m d v tenant va with
      | (none, d) => (false, d)
      | (some _, d) => Dev.countersOk m v tenant rest d

/-- The translation entry's SCHQ (R445). -/
def Dev.schqOf (d : Dev) (tenant : Nat) : Word :=
  ((d.tteOf 0 tenant).bind fun i => d.sch.schq.find i).getD (BitVec.ofNat 64 (64 + 64 * 2 ^ 16 + 256 * 2 ^ 32))

/-- A counter published with VALUE 0. -/
def Dev.counterDone (d : Dev) (tenant pa : Nat) : Bool :=
  (d.seAt (d.seDie pa)).cnts.any fun e => e.tenant == tenant && e.pa == pa && e.value == 0

/-- A task is READY, and at once STAGED when nothing is to be staged (R421). -/
def Task.ready (t : Task) (now : Nat) : Task :=
  { t with readyAt := now, quanta := 0, st := if t.noStage || (!t.mws && t.ws.all fun w => w.lvl == 0) then .staged else .ready }

/-- The accepted task enters its tables. -/
def Dev.acceptTask (d : Dev) (src : PutSource) (isLocal : Bool) (t : Task) : Dev :=
  let id := d.sch.next
  let t := if t.dep.isNone || t.dep.any (fun pa => d.counterDone t.tenant pa) then t.ready d.now else t
  let owner := match src with
    | .thread c _ => if isLocal ∧ (((d.casts.find c).map fun k => k.deque.length).getD 32) < 32 then some c else none
    | .packet _ _ _ => none
  let t := { t with deque := owner, packet := match src with
    | .thread _ _ => none
    | .packet iod qid ix => some (iod, qid, ix) }
  let d := d.modSch fun s => { s with next := id + 1, tasks := s.tasks.put id t }
  let d := match owner with
    | some c => d.modCast c fun k => { k with deque := k.deque ++ [id] }
    | none => d
  if t.direct then d.modCast t.target fun k => { k with fifo := k.fifo ++ [id] } else d

/-- TASK.PUT at the dispatcher (R447): the reply, and the device after it. -/
def Dev.putTask (m : Memory) (d : Dev) (src : PutSource) (v : Via) (tenant die : Nat) (addr : Word) (isLocal : Bool) : Nat × Dev :=
  match Dev.readRun m d v tenant addr 128 with
  | (.error _, d) => (1, d)
  | (.ok b, d) =>
    let t := taskOf tenant die addr b
    let dep := BitVec.ofNat 64 (num b 16 8)
    let issuer := match src with
      | .thread c _ => (d.casts.find c).map Cast.stage
      | .packet _ _ _ => none
    let parm := if t.parm = 0 then (true, d) else Dev.reaches m v tenant 4 t.parm 256 d
    let d := parm.2
    if badRecord b ∨ (isLocal ∧ (t.direct ∨ dep ≠ 0 ∨ issuer ≠ some t.stage)) ∨ !parm.1 then (1, d)
    else if !t.direct ∧ (d.sch.stages.find (65536 * tenant + t.stage)).isNone then (2, d)
    else if t.direct ∧ !((d.casts.find t.target).map fun k => k.tenant == tenant && !k.leaving).getD false then (3, d)
    else if field (d.schqOf tenant) 32 12 ≤ (d.sch.tasks.countP fun e => e.2.tenant == tenant)
        ∨ 4096 ≤ (d.sch.tasks.countP fun e => e.2.die == die) then (4, d)
    else
      match Dev.countersOk m v tenant t.succ d with
      | (false, d) => (5, d)
      | (true, d) =>
        if dep = 0 then (0, d.acceptTask src isLocal t)
        else
          match Dev.counterAt m d v tenant dep with
          | (none, d) => (5, d)
          | (some pa, d) => (0, d.acceptTask src isLocal { t with dep := some pa })

/-! ### Stages (R418, R448) -/

/-- TASK.SDEF: the reply. -/
def Dev.defineStage (m : Memory) (d : Dev) (v : Via) (tenant : Nat) (addr : Word) : Nat × Dev :=
  match Dev.readRun m d v tenant addr 64 with
  | (.error _, d) => (1, d)
  | (.ok b, d) =>
    let key := 65536 * tenant + num b 0 2
    let fl := num b 2 1
    let st : Stage := { elastic := fl == 1, aff := num b 3 1, high := num b 4 2, low := num b 6 2, minr := num b 8 1, maxr := num b 9 1
                        hold := num b 10 2, img := BitVec.ofNat 64 (num b 16 8), bind := BitVec.ofNat 64 (num b 24 8) }
    let bad := num b 0 2 == 0 || decide (2 ≤ fl) || num b 12 4 != 0 || num b 32 32 != 0 ||
      (if fl = 0 then num b 3 13 != 0 || num b 16 16 != 0
       else decide (st.high ≤ st.low) || !decide (1 ≤ st.minr ∧ st.minr ≤ 64 ∧ st.minr ≤ st.maxr ∧ st.maxr ≤ 64) || st.hold == 0)
    if bad then (1, d)
    else if (d.sch.stages.find key).isNone ∧ 1024 ≤ d.sch.stages.length then (2, d)
    else (0, d.modSch fun s => { s with stages := s.stages.put key (if fl = 0 then {} else st) })

/-- The replicas of a stage, by number. -/
def Dev.replicasOf (d : Dev) (tenant stage : Nat) : List (Nat × Cast) :=
  d.casts.filter fun e => e.2.tenant == tenant && e.2.stage == stage && stage != 0

/-- TASK.REG: the reply. -/
def Dev.register (d : Dev) (tenant c stage : Nat) : Nat × Dev :=
  if (d.sch.stages.find (65536 * tenant + stage)).isNone then (1, d)
  else
    match d.casts.find c with
    | none => (2, d)
    | some k =>
      if k.tenant ≠ tenant ∨ k.leaving then (2, d)
      else if k.stage = stage then (0, d)
      else if k.stage ≠ 0 then (3, d)
      else if 64 ≤ (d.replicasOf tenant stage).length then (4, d)
      else (0, d.modCast c fun k => { k with stage := stage })

/-- Ready tasks of a stage on all dies, with those in deques (R438, R448). -/
def Dev.readyOf (d : Dev) (tenant stage : Nat) : Nat :=
  d.sch.tasks.countP fun e => e.2.tenant == tenant && !e.2.direct && e.2.stage == stage && e.2.isReady

/-- TASK.INFO: the reply. -/
def Dev.stageInfo (d : Dev) (tenant c stage : Nat) : Nat :=
  if (d.sch.stages.find (65536 * tenant + stage)).isNone then 0
  else
    let k := d.casts.find c
    min 65535 (d.readyOf tenant stage) + 2 ^ 16 * (d.replicasOf tenant stage).length
      + 2 ^ 23 * ((k.map fun k => k.deque.length).getD 0) + 2 ^ 29 * ((k.map Cast.variant).getD 0)

/-! ### The dispatcher -/

/-- The reply of a task request goes back to its thread; a refused packet stops its queue (R469). -/
def Dev.answerTask (d : Dev) (src : PutSource) (r : Nat) : Dev :=
  match src with
  | .thread c pid => if pid = 0 then d else d.replyWithin 200 c pid (BitVec.ofNat 64 r) 0
  | .packet iod qid ix =>
    if r = 0 then d
    else (d.stopQueue iod qid ix 2 r (((d.packetAt iod qid ix).map PktSt.addr).getD 0)).dropPacket iod qid ix

/-- The cast of a request's thread. -/
def srcCast (src : PutSource) : Nat :=
  match src with
  | .thread c _ => c
  | .packet _ _ _ => 0

/-- The TLBs through which the dispatcher of a die translates. -/
def dispatcherVia (die : Nat) : Via := { port := none, block := none, die := die }

/-- DISPATCH_TASK_PUT: a request at its dispatcher; one that finds requests of this clock still on their way to an engine follows
them (R426). -/
def execDispatchTaskPut (src : PutSource) (tenant die : Nat) (rq : TaskReq) (s : State) : Res :=
  let d := s.dev
  if d.agenda.any fun e => decide (e.1 ≤ d.now) && (seKey e.2).isSome then .next { s with dev := d.post 1 (.dispatchTaskPut src tenant die rq) }
  else
    let r := match rq with
      | .put addr isLocal => Dev.putTask s.mem d src (dispatcherVia die) tenant die addr isLocal
      | .sdef addr => Dev.defineStage s.mem d (dispatcherVia die) tenant addr
      | .reg c stage => d.register tenant c stage
      | .unreg c => (0, if ((d.casts.find c).map fun (k : Cast) => k.tenant == tenant).getD false then d.leaveStage c else d)
      | .info stage => (d.stageInfo tenant (srcCast src) stage, d)
    .next { s with dev := r.2.answerTask src r.1 }

/-- TASK_READY: a released counter readies every task registered on it, and completes the packets that wait for it (R426, R465). -/
def execTaskReady (tenant pa : Nat) (s : State) : Res :=
  let d := s.dev
  let ids := (d.sch.tasks.filter fun e => e.2.st == .waiting && e.2.tenant == tenant && e.2.dep == some pa).map Prod.fst
  let d := ids.foldl (fun d id => d.modTask id fun t => t.ready d.now) d
  let pks := d.host.packets.filter fun p => p.tid == tenant && p.wait == some pa
  .next { s with dev := pks.foldl (fun d p => d.post 0 (.packetComplete p.iod p.qid p.index)) d }

end Sys2Proof.Machine
end

