-- ==== Sys2Proof/Machine/Staging.lean ====
section
/-!
DEFINITION. Working-set staging (R420, R431 to R434): admission, pieces, the end of staging.
-/
namespace Sys2Proof.Machine

/-! ### What a task declares (R420) -/

/-- The mould whose WSET section a task uses. -/
def Dev.wsetMould (d : Dev) (t : Task) : Option Mould :=
  if t.direct then (d.casts.find t.target).map Cast.mould else ((d.replicasOf t.tenant t.stage).head?).map fun e => e.2.mould

/-- A 64-bit or 32-bit parameter of the task's block, zero without one; none when it cannot be read. -/
def Dev.taskParm (m : Memory) (d : Dev) (t : Task) (off n : Nat) : Option Nat × Dev :=
  if t.parm = 0 then (some 0, d)
  else
    match Dev.readRun m d (dispatcherVia t.die) t.tenant (t.parm + BitVec.ofNat 64 off) n with
    | (.error _, d) => (none, d)
    | (.ok b, d) => (some (leNat b), d)

/-- A value of a WSET entry: itself, or the parameter at that offset. -/
def Dev.wsetValue (m : Memory) (d : Dev) (t : Task) (fromParm : Bool) (v : Word) : Option Nat × Dev :=
  if fromParm then Dev.taskParm m d t v.toNat 8 else (some v.toNat, d)

/-- A WSET entry as a working-set entry; none when it is abandoned (R420, R433). -/
def Dev.wsetEntry (m : Memory) (d : Dev) (t : Task) (e : WsetEnt) : Option WsEnt × Dev :=
  if e.lvl ≠ 1 ∧ !t.direct then (none, d)
  else
    match Dev.wsetValue m d t (e.pflags.testBit 0) e.base with
    | (none, d) => (none, d)
    | (some base, d) =>
      match Dev.wsetValue m d t (e.pflags.testBit 1) e.size with
      | (none, d) => (none, d)
      | (some size, d) =>
        match (if e.lvl = 1 then (some 0, d) else Dev.taskParm m d t (224 + 8 * e.ix) 4) with
        | (none, d) => (none, d)
        | (some tgt, d) => (some { lvl := e.lvl, base := BitVec.ofNat 64 base, size := size / 128 * 128, tgt := BitVec.ofNat 32 tgt }, d)

/-- The entries of a WSET section, each at its index; an abandoned one declares nothing and sets its bit. -/
def Dev.wsetEntries (m : Memory) (t : Task) : List WsetEnt → List WsEnt × BitVec 4 → Dev → (List WsEnt × BitVec 4) × Dev
  | [], acc, d => (acc, d)
  | e :: rest, (ws, lost), d =>
    match Dev.wsetEntry m d t e with
    | (some w, d) => Dev.wsetEntries m t rest (ws.set e.ix w, lost) d
    | (none, d) => Dev.wsetEntries m t rest (ws, lost ||| BitVec.ofNat 4 (2 ^ e.ix)) d

/-- The entry of no working set. -/
def noWs : WsEnt := { lvl := 0, base := 0, size := 0, tgt := 0 }

/-- A task with its working set known. -/
def Dev.withWs (m : Memory) (d : Dev) (t : Task) : Task × Dev :=
  if t.mws then
    let r := Dev.wsetEntries m t (((d.wsetMould t).map Mould.wset).getD []) (List.replicate 4 noWs, t.lost) d
    ({ t with ws := r.1.1, lost := r.1.2 }, r.2)
  else (t, d)

/-! ### Admission (R431) -/

/-- The cast of a direct task is neither frozen nor moving (R434). -/
def Dev.castSettled (d : Dev) (c : Nat) : Bool :=
  ((d.casts.find c).map fun (k : Cast) => !k.frozen && !k.leaving).getD true && !d.moving c

/-- The admission queue of a tenant: its READY tasks, but for those that wait for their cast. -/
def Dev.admissions (d : Dev) (tenant : Nat) : List (Nat × Task) :=
  d.sch.tasks.filter fun e => e.2.tenant == tenant && e.2.st == .ready && !(e.2.hold && !d.castSettled e.2.target)

/-- Bytes declared for L2, and for scratch. -/
def Task.bytesL2 (t : Task) : Nat := ((t.ws.filter fun w => w.lvl == 1).map WsEnt.size).sum
def Task.bytesScr (t : Task) : Nat := ((t.ws.filter fun w => w.lvl == 2 || w.lvl == 3).map WsEnt.size).sum

/-- A task holds its charge: once its staging has been cancelled, until the records of its chains in progress have finished (R434). -/
def Dev.isCharged (d : Dev) (t : Task) : Bool :=
  t.st != .ready || t.ws.any fun w => w.lvl == 3 && ((d.casts.find t.target).map fun k =>
    (k.chans.get {} (field w.tgt 0 2)).recs.any CopyRec.staged).getD false

/-- The tasks that hold a charge. -/
def Dev.charges (d : Dev) : List Task := (d.sch.tasks.map Prod.snd).filter d.isCharged

/-- L2 bytes charged to a tenant, scratch bytes charged to it, and L2 bytes held on a die. -/
def Dev.chargedL2 (d : Dev) (tenant : Nat) : Nat := ((d.charges.filter fun t => t.tenant == tenant).map Task.l2).sum
def Dev.chargedScr (d : Dev) (tenant : Nat) : Nat := ((d.charges.filter fun t => t.tenant == tenant).map Task.scr).sum
def heldFor (h : List (Nat × Nat)) (die : Nat) : Nat := ((h.filter fun x => x.1 == die).map Prod.snd).sum
def Dev.heldL2 (d : Dev) (die : Nat) : Nat := (d.charges.map fun t => heldFor t.heldOn die).sum

/-- The home dies of an entry's lines, page by page of 4 KiB; host and peer lines are not held. -/
def Dev.homesOf (m : Memory) (v : Via) (tenant : Nat) : Nat → Word → Nat → Dev → List (Nat × Nat) × Dev
  | 0, _, _, d => ([], d)
  | fuel + 1, va, len, d =>
    if len = 0 then ([], d)
    else
      let n := min len (4096 - va.toNat % 4096)
      match Dev.translate m d v tenant va .load with
      | (.error _, d) => Dev.homesOf m v tenant fuel (va + BitVec.ofNat 64 n) (len - n) d
      | (.ok p, d) =>
        let pa := d.ownPa (p.readPa v.die)
        let rest := Dev.homesOf m v tenant fuel (va + BitVec.ofNat 64 n) (len - n) d
        ((if paRegion pa = 0 then [(paDie pa, n)] else []) ++ rest.1, rest.2)

/-- The homes of all L2 entries of a task. -/
def Dev.taskHomes (m : Memory) (t : Task) : List WsEnt → Dev → List (Nat × Nat) × Dev
  | [], d => ([], d)
  | w :: rest, d =>
    if w.lvl = 1 then
      let h := Dev.homesOf m (dispatcherVia t.die) t.tenant (w.size / 4096 + 2) w.base w.size d
      let r := Dev.taskHomes m t rest h.2
      (h.1 ++ r.1, r.2)
    else Dev.taskHomes m t rest d

/-- 48 MiB. -/
def dieL2Limit : Nat := 48 * 2 ^ 20

/-- What admission finds at the head of a tenant's queue. -/
inductive Admit where
  | wait
  | excess
  | enter (t : Task)

/-- The head of a tenant's queue against its quotas (R431). -/
def Dev.judge (m : Memory) (d : Dev) (t : Task) : Admit × Dev :=
  let q := d.schqOf t.tenant
  let l2q := 2 ^ 20 * field q 0 16
  let scq := 65536 * field q 16 16
  let r := Dev.withWs m d t
  let t := r.1
  let dies := List.range 8
  if l2q < t.bytesL2 ∨ scq < t.bytesScr then (.excess, r.2)
  else
    let h := Dev.taskHomes m t t.ws r.2
    if dies.any (fun die => decide (dieL2Limit < heldFor h.1 die)) then (.excess, h.2)
    else if d.chargedL2 t.tenant + t.bytesL2 ≤ l2q ∧ d.chargedScr t.tenant + t.bytesScr ≤ scq
        ∧ dies.all (fun die => decide (d.heldL2 die + heldFor h.1 die ≤ dieL2Limit)) then
      (.enter { t with st := .staging, hold := false, l2 := t.bytesL2, scr := t.bytesScr, heldOn := h.1, since := d.now }, h.2)
    else (.wait, h.2)

/-- The head of a tenant's admission queue can leave it. -/
def Dev.canAdmit (m : Memory) (d : Dev) (tenant : Nat) : Bool :=
  match firstTask (d.admissions tenant) with
  | none => false
  | some (_, t) =>
    match (Dev.judge m d t).1 with
    | .wait => false
    | _ => true

/-- STAGING_ADMIT. -/
def execStagingAdmit (tenant : Nat) (s : State) : Res :=
  match firstTask (s.dev.admissions tenant) with
  | none => .next s
  | some (id, t) =>
    match Dev.judge s.mem s.dev t with
    | (.wait, d) => .next { s with dev := d }
    | (.excess, d) => .next { s with dev := d.modTask id fun t =>
        { t with st := .staged, overq := true, hold := false, l2 := 0, scr := 0, heldOn := [] } }
    | (.enter t, d) => .next { s with dev := d.modTask id fun _ => t }

/-! ### Pieces (R432, R433) -/

/-- The entry has a piece, or a chain, still to be started. -/
def WsEnt.left (w : WsEnt) : Bool :=
  match w.lvl with
  | 0 => false
  | 3 => !w.pushed
  | _ => decide (w.pos < w.size)

/-- The entries of a task with work to start. -/
def Task.openEntries (t : Task) : List Nat :=
  (List.range t.ws.length).filter fun i => (t.ws[i]?.map WsEnt.left).getD false

/-- A piece can be started in this clock. -/
def Task.canPiece (t : Task) (now : Nat) : Bool := t.st == .staging && decide (t.since ≤ now) && !t.openEntries.isEmpty

/-- The chain of an entry finds room in its channel's queue (R341, R432), or no channel to be pushed on. -/
def Dev.chainRoom (d : Dev) (t : Task) (w : WsEnt) : Bool :=
  w.lvl != 3 || ((d.casts.find t.target).map fun k =>
    let x := k.chans.get {} (field w.tgt 0 2)
    !x.used || x.closing || decide (x.queue.length < 8)).getD true

/-- The entries of a task of which a piece can be started. -/
def Dev.pieces (d : Dev) (t : Task) : List Nat :=
  t.openEntries.filter fun i => (t.ws[i]?.map fun w => d.chainRoom t w).getD true

/-- The entry's bit of STATE. -/
def Task.lose (t : Task) (i : Nat) : Task := { t with lost := t.lost ||| BitVec.ofNat 4 (2 ^ i) }

/-- A piece of a scratch entry: read and written into the range of the target cast. -/
def State.scratchPiece (s : State) (t : Task) (w : WsEnt) (n : Nat) : State × Bool :=
  match s.dev.casts.find t.target with
  | none => (s, false)
  | some k =>
    let h : Word := w.tgt.setWidth 64
    match k.holds t.target h with
    | none => (s, false)
    | some e =>
      let site := hndSite h
      let via : Via := { port := none, block := none, die := k.siteDie site }
      if e.len < w.pos + n then (s, false)
      else
        match Dev.readRun s.mem s.dev via t.tenant (w.base + BitVec.ofNat 64 w.pos) n with
        | (.error _, d) => ({ s with dev := d }, false)
        | (.ok bs, d) =>
          let put : SbSt → SbSt := fun b =>
            { b with mem := (bs.zipIdx).foldl (fun t x => t.set 0 (e.base + w.pos + x.2) x.1) b.mem }
          ({ s with dev := d.modBank t.target site put }, true)

/-- A piece of an L2 entry: its lines are fetched. -/
def State.cachePiece (s : State) (t : Task) (w : WsEnt) (n : Nat) : State × Bool :=
  match Dev.readRun s.mem s.dev (dispatcherVia t.die) t.tenant (w.base + BitVec.ofNat 64 w.pos) n with
  | (.error _, d) => ({ s with dev := d }, false)
  | (.ok _, d) => ({ s with dev := d }, true)

/-- A chain pushed on its channel; without an open channel of that index the entry is abandoned. -/
def Dev.pushChain (d : Dev) (t : Task) (w : WsEnt) : Dev × Bool :=
  match d.casts.find t.target with
  | none => (d, false)
  | some k =>
    let cix := field w.tgt 0 2
    let x := k.chans.get {} cix
    if x.used ∧ !x.closing then (d.modChan t.target cix fun x => { x with queue := x.queue ++ [(w.base, 0, false)] }, true)
    else (d, false)

/-- STAGING_PIECE: one piece of one of the entries, which run together (which of them is open). -/
def execStagingPiece (id : Nat) (s : State) : Res :=
  match s.dev.sch.tasks.find id with
  | none => .next s
  | some t =>
    if !t.canPiece s.dev.now || (s.dev.pieces t).isEmpty then .next s
    else
      let es := s.dev.pieces t
      let i := es.getD (Config.openNat s.dev.free % es.length) 0
      let s := { s with dev := s.dev.tickFree }
      match t.ws[i]? with
      | none => .next s
      | some w =>
        let n := min 4096 (w.size - w.pos)
        let r : State × Bool := match w.lvl with
          | 1 => s.cachePiece t w n
          | 2 => s.scratchPiece t w n
          | _ => let p := s.dev.pushChain t w; ({ s with dev := p.1 }, p.2)
        let w := { w with pos := w.pos + n, pushed := true }
        .next { r.1 with dev := r.1.dev.modTask id fun t =>
          let t := { t with ws := t.ws.set i w, since := s.dev.now + 1 }
          if r.2 then t else t.lose i }

/-! ### The end of staging (R421, R432) -/

/-- The chain of an entry has ended on its channel. -/
def Dev.chainDone (d : Dev) (t : Task) (i : Nat) (w : WsEnt) : Bool :=
  w.lvl != 3 || bitAt t.lost i ||
    match d.casts.find t.target with
    | none => true
    | some k =>
      let x := k.chans.get {} (field w.tgt 0 2)
      !(x.queue.any fun q => q.2.1 == 0) && !(x.staged && x.cur.isSome) && !(x.recs.any CopyRec.staged)

/-- Every piece is done or abandoned. -/
def Dev.stagingDone (d : Dev) (t : Task) : Bool :=
  t.st == .staging && t.openEntries.isEmpty && (t.ws.zipIdx).all fun x => d.chainDone t x.2 x.1

/-- STAGING_END. -/
def execStagingEnd (id : Nat) (s : State) : Res :=
  match s.dev.sch.tasks.find id with
  | none => .next s
  | some t => if s.dev.stagingDone t then .next { s with dev := s.dev.modTask id fun t => { t with st := .staged } } else .next s

end Sys2Proof.Machine
end

