-- ==== Sys2Proof/Machine/Delivery.lean ====
section
/-!
DEFINITION. The dispatchers' choice of the next task and its start, completion and suspension (R106, R422 to R430), variant selection
(R439, R440), ageing and elastic replicas (R422, R438), the watchdog and the memory limit (R441, R442).
-/
namespace Sys2Proof.Machine

/-! ### Pool slots (R430, R441, R445) -/

/-- The lowest free slot of a tenant's pool that holds `size` bytes: the key under which it is taken, its number, and its address. -/
def Dev.poolSlot (d : Dev) (tenant size : Nat) : Option (Nat × Nat × Word) :=
  (d.tteOf 0 tenant).bind fun i =>
    let a := d.sch.spoola.get 0 i
    let b := d.sch.spoolb.get 0 i
    let slotSize := field b 16 32 * 4096
    if slotSize < size then none
    else
      ((List.range (field b 0 16)).find? fun n => (d.sch.pool.find (65536 * i + n)).isNone).map fun n =>
        (i, n, BitVec.ofNat 64 (field a 12 52 * 4096 + n * slotSize))

/-- A pool slot taken for a cast. -/
def Dev.takeSlot (d : Dev) (i n c : Nat) : Dev := d.modSch fun s => { s with pool := s.pool.put (65536 * i + n) c }

/-! ### Candidates (R423) -/

/-- What a cast may be given. -/
inductive Cand where
  | fifo (id : Nat)
  | suspended (id : Nat)
  | deque (id : Nat)
  | stage (id : Nat)
deriving DecidableEq, Repr

def Cand.id (x : Cand) : Nat :=
  match x with
  | .fifo id => id
  | .suspended id => id
  | .deque id => id
  | .stage id => id

/-- A task of a number. -/
def Dev.task? (d : Dev) (id : Nat) : Option Task := d.sch.tasks.find id

/-- A task of a number that is STAGED. -/
def Dev.isStaged (d : Dev) (id : Nat) : Bool := ((d.task? id).map fun t => t.st == .staged).getD false

/-- STAGED tasks of a stage in the ready queue of a die. -/
def Dev.queueOf (d : Dev) (tenant stage die : Nat) : List (Nat × Task) :=
  d.sch.tasks.filter fun e =>
    e.2.tenant == tenant && !e.2.direct && e.2.stage == stage && e.2.st == .staged && e.2.deque.isNone && e.2.die == die

/-- The head of the launch FIFO when it is STAGED. -/
def Dev.fifoHead (d : Dev) (k : Cast) : Option Nat := k.fifo.head?.filter fun id => d.isStaged id

/-- The candidates that are STAGED, in the order of R423. -/
def Dev.stagedFor (d : Dev) (k : Cast) : List Cand :=
  ((d.fifoHead k).map Cand.fifo).toList ++ ((k.deque.reverse.find? fun id => d.isStaged id).map Cand.deque).toList
    ++ (if k.stage = 0 then [] else ((firstTask (d.queueOf k.tenant k.stage k.die)).map fun e => Cand.stage e.1).toList)

/-- The suspended task that would be restored: the first in order, when its channels find room (R340). -/
def Dev.suspendedFor (d : Dev) (c : Nat) (k : Cast) : List Cand :=
  let fits := fun (x : Nat × Nat × Nat) =>
    match d.pl.saves.find? fun r => r.id == x.2.2 with
    | some r => (match d.rehome (some c) k.tenant k.die r.cast.chans with
      | .ok _ => true
      | .error _ => false)
    | none => false
  let ts := (k.susp.filter fits).filterMap fun x => (d.task? x.1).map fun t => (x.1, t)
  ((firstTask ts).map fun e => Cand.suspended e.1).toList

/-- All candidates of a cast. -/
def Dev.candidates (d : Dev) (c : Nat) (k : Cast) : List Cand :=
  match d.stagedFor k with
  | .fifo id :: rest => .fifo id :: d.suspendedFor c k ++ rest
  | l => d.suspendedFor c k ++ l

/-- E of a candidate. -/
def Dev.prioOf (d : Dev) (x : Cand) : Nat := ((d.task? (Cand.id x)).map Task.prio).getD 0

/-- The candidate of greatest E, the earlier on a tie. -/
def Dev.best (d : Dev) (l : List Cand) : Option Cand :=
  l.foldl (fun b x => match b with
    | none => some x
    | some y => if d.prioOf y < d.prioOf x then some x else some y) none

/-- The tenant's balance allows deliveries (R436, R437). -/
def Dev.mayDeliver (d : Dev) (tenant : Nat) : Bool :=
  match d.tteOf 0 tenant with
  | none => true
  | some i => d.sch.eallow.find i == none || d.sch.eallow.find i == some 0xFFFFFFFF || decide (0 < d.sch.ebal.get 0 i)

/-- A cast is idle (R423). -/
def Dev.isIdle (d : Dev) (c : Nat) (k : Cast) : Bool :=
  k.th.mode == .atEntry && k.th.taskToken.isNone && k.task.isNone && !k.frozen && !k.leaving && !k.switching && k.lease.isNone
    && (d.pl.rolls.find c).isNone && !d.moving c

/-! ### Delivery (R423, R425) -/

/-- The dispatcher of a die has a token left in this clock. -/
def Dev.dieFree (d : Dev) (die : Nat) : Bool := decide (d.sch.served.get 0 die ≤ d.now)

/-- What an idle cast is given next. -/
def Dev.canGive (d : Dev) (c : Nat) (k : Cast) : Option Cand :=
  if d.isIdle c k && d.mayDeliver k.tenant && d.dieFree k.die then d.best (d.candidates c k) else none

/-- A staged task becomes the cast's pending token; its estimate is debited. -/
def Dev.give (d : Dev) (c id : Nat) (die : Nat) : Dev :=
  match d.casts.find c, d.task? id with
  | some k, some t =>
    let d := d.modTask id fun t => { t with st := .pending, deque := none, est := k.estimate, energy := 0 }
    let d := (d.addBalance t.tenant (- Int.ofNat k.estimate)).modSch fun s => { s with served := s.served.set 0 die (d.now + 1) }
    let strip : Cast → Cast := fun k => { k with fifo := k.fifo.filter fun i => i != id, deque := k.deque.filter fun i => i != id }
    let casts : Tbl Cast := d.casts.map fun e => (e.1, strip e.2)
    let d : Dev := { d with casts := casts }
    d.modCast c fun k =>
      { k with task := some id, idleAt := none, th := { k.th with taskToken := some (t.parm, BitVec.ofNat 4 t.prio) } }
  | _, _ => d

/-- A suspended task goes on, in place, with its state as it was saved; its slot is freed (R430). -/
def Dev.restoreTask (d : Dev) (c id : Nat) : Dev :=
  match d.casts.find c with
  | none => d
  | some k =>
    match k.susp.find? fun x => x.1 == id with
    | none => d
    | some (_, slot, image) =>
      match d.pl.saves.find? fun r => r.id == image with
      | none => d
      | some r =>
        match d.rehome (some c) k.tenant k.die r.cast.chans with
        | .error _ => d
        | .ok chans =>
          let d := (d.settleUsage c).freeSlot ((d.tteOf 0 k.tenant).map fun i => (i, slot))
          let back := { r.cast with
            bx := k.bx, by_ := k.by_, aff := k.aff, variant := k.variant, chans := chans, leaving := false, frozen := true
            ports := r.cast.ports.mapIdx fun i p => { p with bind := ((k.ports[i]?).map Port.bind).getD p.bind }
            stage := k.stage, deque := k.deque, fifo := k.fifo, task := some id, susp := k.susp.filter fun x => x.1 != id
            slot := k.slot, idleAt := none, outSince := k.outSince }
          let d := (d.modTask id fun t => { t with st := .active, since := d.now }).modSch fun s =>
            { s with served := s.served.set 0 k.die (d.now + 1) }
          { d with casts := d.casts.put c back }.unfreeze c

/-- TASK_DELIVER: the best candidate of an idle cast. -/
def execTaskDeliver (c : Nat) (s : State) : Res :=
  match s.dev.casts.find c with
  | none => .next s
  | some k =>
    match s.dev.canGive c k with
    | none => .next s
    | some x =>
      match x with
      | .suspended id => .next { s with dev := s.dev.restoreTask c id }
      | .fifo id => .next { s with dev := s.dev.give c id k.die }
      | .deque id => .next { s with dev := s.dev.give c id k.die }
      | .stage id => .next { s with dev := s.dev.give c id k.die }

/-! ### Stealing (R424) -/

/-- The oldest STAGED entry of the fullest deque of another replica of the stage on a die. -/
def Dev.victim (d : Dev) (c : Nat) (k : Cast) (die : Nat) : Option Nat :=
  let rs := (d.replicasOf k.tenant k.stage).filter fun e => e.1 != c && e.2.die == die && e.2.deque.any fun id => d.isStaged id
  let best := rs.foldl (fun (b : Option (Nat × Cast)) e => match b with
    | none => some e
    | some x => if x.2.deque.length < e.2.deque.length then some e else some x) none
  best.bind fun e => e.2.deque.find? fun id => d.isStaged id

/-- What an idle replica without a candidate takes: from its die's deques, from the other dies' queues, then from their deques. -/
def Dev.canSteal (d : Dev) (c : Nat) (k : Cast) : Option Nat :=
  if d.isIdle c k && d.mayDeliver k.tenant && d.dieFree k.die && k.stage != 0 && (d.candidates c k).isEmpty then
    let others := (List.range 7).map fun i => (k.die + 1 + i) % 8
    (d.victim c k k.die).or ((others.findSome? fun die => (firstTask (d.queueOf k.tenant k.stage die)).map Prod.fst).or
      (others.findSome? fun die => d.victim c k die))
  else none

/-- TASK_STEAL. -/
def execTaskSteal (c : Nat) (s : State) : Res :=
  match s.dev.casts.find c with
  | none => .next s
  | some k =>
    match s.dev.canSteal c k with
    | none => .next s
    | some id => .next { s with dev := s.dev.give c id k.die }

/-- The idle cast that has something to be given and has been idle longest, the lower number on a tie (R425). -/
def Dev.longestIdle (d : Dev) : Option (Nat × Cast) :=
  (d.casts.filter fun e => (d.canGive e.1 e.2).isSome || (d.canSteal e.1 e.2).isSome).foldl (fun b e => match b with
    | none => some e
    | some x => if e.2.idleAt.getD d.now < x.2.idleAt.getD d.now then some e else some x) none

/-! ### The start of a task (R33, R106) -/

/-- 256 bytes as the parameter buffer holds them. -/
def parmOf (bs : List Byte) : BitVec 2048 := BitVec.ofNat 2048 (leNat bs)

/-- The parameter block is copied as the tenant; PARM 0 stands for zeros. -/
def Dev.readParm (m : Memory) (d : Dev) (k : Cast) (parm : Word) : Except (Word × XFault) (List Byte) × Dev :=
  if parm = 0 then (.ok [], d) else Dev.readRun m d k.via k.tenant parm 256

/-- The thread starts on the copied block. -/
def Dev.startTask (d : Dev) (c id : Nat) (parm : Word) (prio : BitVec 4) (bs : List Byte) : Dev :=
  ((d.settleUsage c).modTask id fun t => { t with st := .active, since := d.now, energy := 0 }).modCast c fun k =>
    { k with busy := [], th := { k.th with taskToken := none, startTask := true, taskActive := true, taskpri := prio, parmb := parm
                                           ret := [], parm := parmOf bs, mode := .fetch (d.now + 1) } }

/-- TASK_TOKEN_START. -/
def execTaskTokenStart (c : Nat) (s : State) : Res :=
  match s.dev.casts.find c with
  | none => .next s
  | some k =>
    match k.th.taskToken, k.task with
    | some (parm, prio), some id =>
      if k.th.mode ≠ .atEntry then .next s
      else
        match Dev.readParm s.mem s.dev k parm with
        | (.error (_, f), d) =>
          let addr := ((d.task? id).map Task.addr).getD 0
          let d := d.modTh c fun t => { t with taskToken := none }
          let d := d.postFault k.tenant [0x10, BitVec.ofNat 64 c, addr, parm, f.syndrome .load 0 k.tenant]
          .next (State.discardTask { s with dev := d } c id 3)
        | (.ok bs, d) => .next { s with dev := (d.startTask c id parm prio bs).modCast c Cast.latchAll }
    | _, _ => .next s

/-! ### Variants (R439, R440) -/

/-- Blocks of a part in a variant. -/
def Mould.blocksOf (m : Mould) (v j : Nat) : Nat := (m.variant v).parts.count j

/-- M(v) as a fraction: the greatest of B(j) × S(cur, j) / S(v, j). -/
def Cast.measure (k : Cast) (v : Nat) : Nat × Nat :=
  (List.range k.mould.nparts).foldl (fun b j =>
    let x := (k.busy.getD j 0 * k.mould.blocksOf k.variant j, max 1 (k.mould.blocksOf v j))
    if b.1 * x.2 < x.1 * b.2 then x else b) (0, 1)

/-- The variant to switch to. -/
def Cast.chooseVariant (k : Cast) : Option Nat :=
  let nv := k.mould.variants.length
  let cur := k.measure k.variant
  let best := (List.range nv).foldl (fun (b : Nat × (Nat × Nat)) v =>
    let x := k.measure v
    if x.1 * b.2.2 < b.2.1 * x.2 then (v, x) else b) (0, k.measure 0)
  if 2 ≤ nv ∧ 256 * best.2.1 * cur.2 < (256 - k.mould.hyst) * cur.1 * best.2.2 ∧ best.1 ≠ k.variant then some best.1 else none

/-- No link holds a token and no access is outstanding. -/
def Cast.quietFabric (d : Dev) (k : Cast) : Bool :=
  (k.sites.all fun e => e.2.noAccess d.now && k.siteBare d e.1) && (k.ports.all fun p => p.q.isEmpty && p.occ == 0)
    && (k.chans.all fun e => e.2.recs.isEmpty)

/-- The selector acts at a completion. -/
def Dev.selectVariant (d : Dev) (c : Nat) : Dev :=
  match d.casts.find c with
  | none => d
  | some k =>
    match k.chooseVariant with
    | some v =>
      if k.quietFabric d ∧ k.th.mode = .atEntry then
        ((d.modCast c fun k => { k with switching := true, switchTo := some v }).post (d.delay (3000 + 1500 * (k.wb * k.hb)))
          (.variantSwitch c)).tickFree
      else d
    | none => d

/-- The contexts of a site in a variant. -/
def Site.rewritten (s : Site) (v : Variant) (n : Nat) : Site :=
  (v.cfg.filter fun e => siteNo e.x e.y == n).foldl Site.withCfg { s with ecw := [], scw := [] }

/-- Every site's four contexts come from a variant; all else stays. -/
def Cast.rewrite (k : Cast) (v : Nat) : Cast :=
  let var_ := k.mould.variant v
  let sites := var_.cfg.foldl (fun (t : Tbl Site) e => if (t.find (siteNo e.x e.y)).isSome then t
    else t.put (siteNo e.x e.y) { el := freshElem (siteNo e.x e.y), ctx := k.th.ctx.toNat, phase := k.phase }) k.sites
  { k with variant := v, switching := false, switchTo := none, busy := [], sites := sites.map fun e => (e.1, e.2.rewritten var_ e.1) }

/-- VARIANT_SWITCH: the rewrite ends. -/
def execVariantSwitch (c : Nat) (s : State) : Res :=
  .next { s with dev := s.dev.modCast c fun k => match k.switchTo with
    | some v => k.rewrite v
    | none => k }

/-! ### Completion (R427) -/

/-- The active task of a cast ends with its thread at an ENTRY block or halted, its stores performed, and every store that it may have read
applied at every replica (R72, R78). -/
def Dev.canComplete (d : Dev) (k : Cast) : Option Nat :=
  if (k.th.mode == .atEntry || k.th.mode == .halted) && !k.frozen && k.th.storesDone && !d.unapplied d.replNo then
    k.task.filter fun id => ((d.task? id).map fun t => t.st == .active).getD false
  else none

/-- TASK_COMPLETE: STATE is written; the decrements, releases too, follow once its replicas have it (R78). -/
def execTaskComplete (c : Nat) (s : State) : Res :=
  match s.dev.casts.find c with
  | none => .next s
  | some k =>
    match s.dev.canComplete k with
    | none => .next s
    | some id =>
      match s.dev.task? id with
      | none => .next s
      | some t =>
        let s := s.taskDone t
        if s.dev.unapplied s.dev.replNo then .next { s with dev := s.dev.modTask id fun t => { t with wrote := true } }
        else
          let s := s.finishTask c id k t
          .next { s with dev := s.dev.selectVariant c }

/-! ### Suspension at YIELD (R177, R430) -/

/-- The candidate for which a yielding cast gives way. -/
def Dev.yieldFor (d : Dev) (c : Nat) (k : Cast) : Option Cand :=
  let idle := (d.replicasOf k.tenant k.stage).any fun e => e.1 != c && d.isIdle e.1 e.2
  let active := (k.task.bind fun id => d.task? id).any fun t => t.st == .active
  if active && !idle && d.mayDeliver k.tenant && (!k.frozen || k.saving == some .yield) && !k.leaving && k.lease.isNone && (d.pl.rolls.find c).isNone && !d.moving c
      && (d.poolSlot k.tenant k.saveSize).isSome then
    (d.best (d.stagedFor k)).filter fun x => decide (k.th.taskpri.toNat < d.prioOf x)
  else none

/-- The thread's stores are performed and its commands but pops answered. -/
def Cast.threadQuiet (k : Cast) : Bool :=
  k.th.storesDone && k.th.pend.all fun p => p.reply.isSome || k.th.pops.any fun q => q.1 == p.pid

/-- The pause of a YIELD ends: at once when the cast goes on; once its thread is quiet when it is to be suspended, and once more when the
accesses of the cast have ended (R213). -/
def Dev.canEndPause (d : Dev) (c : Nat) (k : Cast) : Bool :=
  (d.yieldFor c k).isNone || (if k.frozen then d.saveReady c k else k.threadQuiet)

/-- The cast as it stands when another task starts on it: as LOAD leaves it, with what belongs to its place. -/
def Cast.refreshed (k : Cast) (now : Nat) : Cast :=
  { (k.mould.lay k.variant k.tenant k.bx k.by_) with
    uid := k.uid, imgVa := k.imgVa, aff := k.aff, stage := k.stage, deque := k.deque, fifo := k.fifo, susp := k.susp, slot := k.slot
    outSince := k.outSince, ports := k.ports.map fun p => { p with q := [], occ := 0, ctx := 0, phase := 0, next := 0, drained := false }
    th := { k.freshThread now with nextId := k.th.nextId, gmem := k.th.gmem, dbg := k.th.dbg } }

/-- The image is written to the slot, the task suspended, and the candidate delivered. -/
def State.suspend (s : State) (c : Nat) (k : Cast) (x : Cand) : Option State :=
  match k.task, s.dev.poolSlot k.tenant k.saveSize with
  | some id, some (i, n, addr) =>
    let s := s.cancelStaging c
    let s := { s with dev := (s.dev.freeze c).settleUsage c }
    match s.writeImage k.tenant c 3 { port := none, block := none, die := k.die } addr with
    | (s, some r, none) =>
      let d := ((s.dev.packCast c).takeSlot i n c).modTask id fun t => { t with st := .suspended }
      let d := d.modCast c fun k =>
        { (k.refreshed d.now) with susp := k.susp ++ [(id, n, r.id)] }
      some { s with dev := d.give c (Cand.id x) k.die }
    | _ => none
  | _, _ => none

/-- A cast stands still to be suspended. -/
def Cast.standForYield (k : Cast) (now : Nat) : Cast := { k.stand now with saving := some .yield }

/-- YIELD_PAUSE_END: the thread goes on to its next block, or gives way once the accesses of its cast have ended. -/
def execYieldPauseEnd (c : Nat) (s : State) : Res :=
  match s.dev.casts.find c with
  | none => .next s
  | some k =>
    match k.th.mode with
    | .pausing u =>
      if s.dev.now < u then .next s
      else
        let on := { s with dev := (s.dev.modTh c fun t => { t with mode := .fetch s.dev.now }).unfreeze c }
        match s.dev.yieldFor c k with
        | none => .next on
        | some x =>
          if !s.dev.canEndPause c k then .next s
          else if s.dev.saveReady c k then .next ((s.suspend c k x).getD on)
          else .next { s with dev := s.dev.modCast c fun k => k.standForYield s.dev.now }
    | _ => .next s

/-! ### Ageing and elastic replicas (R422, R438) -/

/-- The length of an ageing quantum. -/
def SchedSt.period (s : SchedSt) : Nat := 1500 * max 1 s.ageq.toNat

/-- The clock of the next quantum of a die whose dispatcher runs. -/
def Dev.nextQuantum (d : Dev) (die : Nat) : Option Nat :=
  (d.relClock.find die).map fun t => (d.sch.quantum.find die).getD (t + d.sch.period)

/-- The next quantum of every die: a change of AGEQ leaves the one under way as it is (R445). -/
def Dev.quanta (d : Dev) : Tbl Nat := (List.range 8).filterMap fun die => (d.nextQuantum die).map fun t => (die, t)

/-- A request of the elastic rule reaches the placer (R415). -/
def Dev.elasticAsk (d : Dev) (tenant stage : Nat) (b : PlBlock) : Dev :=
  d.ask { src := .elastic stage, at_ := d.now, requester := 10500, tenant := tenant, addr := 0, block := some b }

/-- The replica that leaves: idle, with an empty deque, of the highest number. -/
def Dev.spareReplica (d : Dev) (tenant stage : Nat) : Option Nat :=
  (((d.replicasOf tenant stage).filter fun e => d.isIdle e.1 e.2 && e.2.deque.isEmpty).getLast?).map Prod.fst

/-- One sample of an elastic stage. -/
def Dev.sampleStage (d : Dev) (key : Nat) (st : Stage) : Dev :=
  let tenant := key / 65536
  let stage := key % 65536
  let q := d.readyOf tenant stage
  let n := (d.replicasOf tenant stage).length
  let above := if st.high < q then st.above + 1 else 0
  let under := if q < st.low then st.under + 1 else 0
  let put := fun (d : Dev) (o u : Nat) => d.modSch fun s => { s with stages := s.stages.upd key fun x => { x with above := o, under := u } }
  if st.hold ≤ above ∧ n < st.maxr then
    put (d.elasticAsk tenant stage { op := 1, auto := true, aff := st.aff, addr := st.img, bind := st.bind }) 0 0
  else if st.hold ≤ under ∧ st.minr < n then
    match d.spareReplica tenant stage with
    | some c => put ((d.leaveStage c).elasticAsk tenant stage { op := 7, cast := c }) 0 0
    | none => put d above under
  else put d above under

/-- AGEING_QUANTUM of a die: its ready tasks age; the dispatcher of the lowest running die samples the elastic stages. -/
def execAgeingQuantum (die : Nat) (s : State) : Res :=
  let d := s.dev
  let d := d.modSch fun x =>
    { x with
      quantum := x.quantum.put die (d.now + x.period)
      tasks := x.tasks.map fun e => (e.1, if e.2.die == die && e.2.isReady then { e.2 with quanta := e.2.quanta + 1 } else e.2) }
  let first := (List.range 8).find? fun i => (d.relClock.find i).isSome
  .next { s with dev := if first = some die then
      (d.sch.stages.filter fun e => e.2.elastic).foldl (fun d e => d.sampleStage e.1 e.2) d else d }

/-! ### The watchdog (R42, R441) -/

/-- A wait whose event comes from outside the cast. -/
def waitsOutside (t : Thread) : Bool :=
  t.mode == .atEntry || (t.mode == .waiting && !t.inGraphWait)

/-- A cast that waits for work is not hung: its source ports are empty and its thread waits for something outside. -/
def Cast.idleGraph (k : Cast) : Bool := waitsOutside k.th && k.ports.all fun p => p.isOut || p.q.isEmpty

/-- The reads of an operator whose replies from memory are outstanding. -/
def Site.soReads (s : Site) (now : Nat) : List SoRead :=
  match s.el with
  | .so o => if soScr s.ecwNow then [] else o.reads.filter fun r => decide (now < r.due)
  | _ => []

/-- A memory reply of the cast is outstanding. -/
def Cast.replyDue (k : Cast) (now : Nat) : Bool :=
  ((k.th.blk.map fun b => b.slots.any fun sl => sl.load.isSome).getD false)
    || (k.th.pend.any fun p => p.reply.isNone && match p.kind with
      | .atom _ => true
      | _ => false)
    || k.sites.any fun e => !(e.2.soReads now).isEmpty || match e.2.el with
      | .sb b => b.loads.any fun l => !l.back
      | _ => false

/-- The watchdog's limit is reached. -/
def Dev.isHung (d : Dev) (k : Cast) : Bool := !k.frozen && decide (1500 * d.sch.hang.toNat ≤ k.hang) && decide (0 < k.hang)

/-- A stopped cast's image written to a free slot of its tenant's pool: the slot's address, 0 when there was none. -/
def State.poolImage (s : State) (c : Nat) (kind : Nat) : State × Word :=
  match s.dev.casts.find c with
  | none => (s, 0)
  | some k =>
    match s.dev.poolSlot k.tenant k.saveSize with
    | none => (s, 0)
    | some (i, n, addr) =>
      match s.writeImage k.tenant c kind { port := none, block := none, die := k.die } addr with
      | (s, some _, none) => ({ s with dev := (s.dev.takeSlot i n c).modCast c fun k => { k with slot := some (i, n) } }, addr)
      | (s, _, _) => (s, 0)

/-- The image that a stopped cast is to have is made, and the watchdog posts its entry (R185, R441). -/
def State.makeImage (s : State) (c : Nat) (k : Cast) : State :=
  let made := State.poolImage { s with dev := s.dev.modCast c fun k => { k with saving := none } } c 2
  match k.saving with
  | some .trap => made.1
  | some .watchdog => { made.1 with dev := made.1.dev.postFault k.tenant [0x07, BitVec.ofNat 64 c, made.2, k.th.pc] }
  | _ => s

/-- It can be made: the accesses of the cast have ended (R213). -/
def Dev.imageReady (d : Dev) (c : Nat) (k : Cast) : Bool := k.frozen && k.saving != none && k.saving != some .yield && d.saveReady c k

/-- It is made if it can be. -/
def State.imageNow (s : State) (c : Nat) : State :=
  match s.dev.casts.find c with
  | some k => if s.dev.imageReady c k then s.makeImage c k else s
  | none => s

/-- WDOG: the cast is frozen, and its image follows. -/
def execWdog (c : Nat) (s : State) : Res :=
  match s.dev.casts.find c with
  | none => .next s
  | some k =>
    if s.dev.isHung k then
      let s := s.cancelStaging c
      .next (State.imageNow { s with dev := (s.dev.freeze c).modCast c fun k => { k with saving := some (k.saving.getD .watchdog) } } c)
    else .next s

/-! ### MEMTIMEOUT (R442) -/

/-- A request of a clock has waited for its reply too long. -/
def Dev.overdue (d : Dev) (issued : Nat) (reported : Bool) : Bool := !reported && decide (issued + 1500 * d.sch.memto.toNat ≤ d.now)

/-- The first overdue request of a cast: its address and its requester. -/
def Dev.late? (d : Dev) (k : Cast) : Option (Word × Nat) :=
  let inBlock := (k.th.blk.map Block.slots).getD [] |>.findSome? fun sl =>
    sl.load.bind fun l => if d.overdue l.issued l.reported then some (l.va, k.requester) else none
  let inPend := k.th.pend.findSome? fun p => match p.kind with
    | .atom va => if p.reply.isNone && d.overdue p.since p.reported then some (va, k.requester) else none
    | _ => none
  let inPort := k.sites.findSome? fun e => match e.2.el with
    | .sb b => (b.loads.find? fun l => !l.back && d.overdue l.issued l.reported).map fun l => (l.va, k.siteRequester e.1)
    | _ => ((e.2.soReads d.now).find? fun r => d.overdue r.issued r.reported).map fun r => (r.addr, k.siteRequester e.1)
  inBlock.or (inPend.or inPort)

/-- The overdue request of an address and a requester is marked. -/
def Dev.markLate (d : Dev) (c : Nat) (va : Word) (requester : Nat) : Dev :=
  match d.casts.find c with
  | none => d
  | some k =>
    let hit := fun (l : LoadSt) => l.va == va && d.overdue l.issued l.reported
    let pendHit := fun (p : PendingCmd) => p.kind == .atom va && p.reply.isNone && d.overdue p.since p.reported
    let loadHit := fun (l : PortLoad) => !l.back && l.va == va && d.overdue l.issued l.reported
    let readHit := fun (r : SoRead) => r.addr == va && d.overdue r.issued r.reported && decide (d.now < r.due)
    let markLoad : Site → Site := fun s => match s.el with
      | .sb b => { s with el := .sb { b with loads := modFirst loadHit (fun l => { l with reported := true }) b.loads } }
      | .so o => { s with el := .so { o with reads := modFirst readHit (fun r => { r with reported := true }) o.reads } }
      | _ => s
    if requester = k.requester ∧ ((k.th.blk.map fun b => b.slots.any fun sl => sl.load.any hit).getD false) then
      let mark : Slot → Slot := fun sl => { sl with load := sl.load.map fun l => { l with reported := true } }
      d.modTh c fun t => t.modBlk fun b => { b with slots := modFirst (fun sl => sl.load.any hit) mark b.slots }
    else if requester = k.requester ∧ k.th.pend.any pendHit then
      d.modTh c fun t => { t with pend := modFirst pendHit (fun p => { p with reported := true }) t.pend }
    else
      d.modCast c fun k => { k with sites := k.sites.map fun e => if k.siteRequester e.1 = requester then (e.1, markLoad e.2) else e }

/-- MEMTIMEOUT. -/
def execMemtimeout (tenant c : Nat) (va : Word) (requester : Nat) (s : State) : Res :=
  let entry : List Word := [0x08, BitVec.ofNat 64 c, va, BitVec.ofNat 64 (requester % 65536)]
  .next { s with dev := (s.dev.markLate c va requester).postFault tenant entry }

end Sys2Proof.Machine
end

