-- ==== Sys2Proof/Machine/Fire.lean ====
section
/-!
DEFINITION. Firing by the kind of element that a site's resident context configures (R25, R190).
-/
namespace Sys2Proof.Machine

/-- ELEMENT_FIRE: one firing of the element of a site, when it can fire. -/
def execElementFire (c n : Nat) (s : State) : Res :=
  match s.dev.casts.find c with
  | none => .next s
  | some k =>
    match ecwKind (k.site n).ecwNow with
    | 0 => .next { s with dev := s.dev.veFire c n }
    | 1 => .next { s with dev := s.dev.onMat c n (mxFireRow s.dev c n) }
    | 2 => .next (s.sbFire c n)
    | 3 => .next ((s.soAct c n).getD s)
    | 4 => .next { s with dev := s.dev.cxFire c n }
    | _ => .next { s with dev := s.dev.selectorFire c n }

/-! ### Page walks (R51) -/

/-- PAGE_WALK: a walker of a die translates a page that the last-level TLB lacks, and leaves it there (R54). -/
def execPageWalk (die tenant : Nat) (va : Word) (write fetch : Bool) (s : State) : Res :=
  let acc : Access := if fetch then .fetch else if write then .store else .load
  .next { s with dev := (Dev.translate s.mem s.dev { port := none, block := none, die := die } tenant va acc).2 }

end Sys2Proof.Machine
end

