-- ==== Sys2Proof/Machine/Registers.lean ====
section
/-!
DEFINITION. The device registers as they read and as firmware writes them (R9, R53, R56, R63, R341, R373, R374, R376, R384, R391, R445,
R450, R452, R457, R460, R468, R471 to R474, R478 to R484, R490, R491), and the completion of their commands.
-/
namespace Sys2Proof.Machine

def Dev.modHost (d : Dev) (f : HostSt → HostSt) : Dev := { d with host := f d.host }
def Dev.modBoot (d : Dev) (f : BootSt → BootSt) : Dev := { d with boot := f d.boot }

/-! ### Reading -/

/-- FNCFG of a function of a port: that of PF0 resets with V. -/
def Dev.fncfgOf (d : Dev) (port f : Nat) : Word := (d.host.fncfg.find (64 * port + f)).getD (if f = 0 then 0x100 else 0)

/-- TDST. -/
def tdst (w : Word) : Nat := field w 10 2

/-- FEATW0 to FEATW3 (R472). -/
def Dev.featw (d : Dev) (i : Nat) : Word := if i = 0 then BitVec.ofNat 64 (bit d.part.hasUal + 2 * bit d.part.hasUal + 12) else 0

/-- A status with ERR, OVR and BUSY, at their bits. -/
def CmdSt.read (x : CmdSt) (err ovr busy : Nat) : Word :=
  x.fields ||| BitVec.ofNat 64 (2 ^ err * bit x.err + 2 ^ ovr * bit x.ovr + 2 ^ busy * bit x.busy)

/-- A mapped queue is idle (R468). -/
def SlotSt.isIdle (s : SlotSt) (q : QueueEnt) : Bool := s.rdx == q.wrx && q.infl == 0

/-- The queue of a slot. -/
def Dev.slotQueue (d : Dev) (iod n : Nat) : Option (SlotSt × QueueEnt) :=
  (d.host.slots.find (32 * iod + n)).bind fun s => (d.host.queues.find (1024 * iod + s.qid)).map fun q => (s, q)

/-- SEUSE (R373); an entry that is not valid has no tenant to count for. -/
def Dev.seUse (d : Dev) (die i : Nat) : Word :=
  if !bitAt (d.tte0 die i) 8 then 0 else
  let s := d.seAt die
  let t := d.tenantOf die i
  let n := fun (e : EntKind) => (d.entries s e).countP fun x => x.1 == t
  BitVec.ofNat 64 (n .cnt % 2 ^ 16 + 2 ^ 16 * (n .pre % 2 ^ 14) + 2 ^ 30 * ((s.grps.countP fun g => g.2.used && g.2.tid == t) % 2 ^ 12)
    + 2 ^ 42 * (n .wait % 2 ^ 14) + 2 ^ 63 * bit (!(s.hold.get [] i).isEmpty))

/-- A register as it reads. -/
def Dev.readReg (d : Dev) (r : DevReg) : Word :=
  let n := fun (x : Nat) => BitVec.ofNat 64 x
  match r with
  | .ttew0 die i => d.tte0 die i
  | .ttew1 die i => d.tte1 die i
  | .tlbiva => d.host.tlbiva
  | .tlbicmd => d.host.tlbi.read 29 30 31
  | .omapcmd die => let x := d.host.omapc.get {} die; x.fields ||| n (2 ^ 63 * bit x.busy)
  | .cplim die i => n (field ((d.cplim.find (8 * die + i / 8)).getD 0x0C0C0C0C0C0C0C0C) (8 * (i % 8)) 8)
  | .seqta die i => ((d.seAt die).qta.find i).getD qtaReset
  | .seqtb die i => (d.seAt die).qtb.get 0 i
  | .seuse die i => d.seUse die i
  | .seovf die => (d.seAt die).ovf
  | .seovfn die => (d.seAt die).ovfn
  | .sepurge die => n ((d.seAt die).purgeTid.toNat + 2 ^ 63 * bit (d.seAt die).purging)
  | .plsub => 0
  | .plstat => n (d.pl.queue.length + 128 * bit d.pl.ovr + 256 * bit d.placerBusy)
  | .movelim => n d.pl.movelim.toNat
  | .plcwin i => d.pl.win.get 0 i
  | .schcfg => n (d.sch.ageq.toNat + 2 ^ 16 * d.sch.hang.toNat + 2 ^ 40 * d.sch.memto.toNat)
  | .schq i => (d.sch.schq.find i).getD (n (64 + 64 * 2 ^ 16 + 256 * 2 ^ 32))
  | .spoola i => d.sch.spoola.get 0 i
  | .spoolb i => d.sch.spoolb.get 0 i
  | .eallow i => n ((d.sch.eallow.find i).getD 0xFFFFFFFF).toNat
  | .ebal i => BitVec.ofInt 64 (d.sch.ebal.get 0 i)
  | .fncfg port f => d.fncfgOf port f
  | .hostsel => n (bit d.hostsel)
  | .ecs0 iod s => let e := d.host.ecs.get {} (16 * iod + s)
    n (e.tid.toNat + 2 ^ 8 * e.keyix.toNat + 2 ^ 16 * bit e.v + 2 ^ 32 * e.nonce.toNat)
  | .ecs1 iod s => (d.host.ecs.get {} (16 * iod + s)).ctr
  | .ecs2 iod s => (d.host.ecs.get {} (16 * iod + s)).dst
  | .ecs3 iod s => (d.host.ecs.get {} (16 * iod + s)).cnt
  | .ecs4 iod s => let e := d.host.ecs.get {} (16 * iod + s); n (e.last.toNat + 2 ^ 32 * e.nacc.toNat)
  | .fqdesc i => d.host.fqdesc.get 0 i
  | .qcba iod => d.host.qcba.get 0 iod
  | .qslotcmd iod => let x := d.host.qcmd.get {} iod
    x.fields ||| n (2 ^ 61 * bit x.err + 2 ^ 62 * bit (d.host.idlew.get false iod))
  | .qidle iod => n (((List.range 32).filter fun i => ((d.slotQueue iod i).map fun x => x.1.isIdle x.2).getD false).map fun i => 2 ^ i).sum
  | .qschcfg => d.host.qsch
  | .featw i => d.featw i
  | .featacc i => d.featacc.word i
  | .featlock => n (bit d.featlock)
  | .ualid => n d.ualid.toNat
  | .uaroute p => n (d.uaroute.get 0 p).toNat
  | .seamdn => n d.seamdn.toNat
  | .bootstat => n (d.boot.cdrel.toNat + 2 ^ 8 * d.boot.iodrel.toNat + 2 ^ 10 * bit d.boot.keys + 2 ^ 11 * bit d.boot.ready
      + 2 ^ 12 * bit d.boot.recov + 2 ^ 16 * d.boot.cdfail.toNat)
  | .diepres => n d.diepres.toNat
  | .blkpres die => n (d.blkpres.get 0 die).toNat
  | .keycmd => d.host.keyc.read 61 62 63
  | .pwrlim => n d.sch.pwrlim
  | .govst => n (d.sch.gscale + 2 ^ 9 * bit d.sch.fast + 2 ^ 32 * (d.sch.pmw % 2 ^ 32))
  | .ecnt b => n (Config.blockEnergy b d.now) - n (Config.blockEnergy b d.boot.since)
  | .dieidle die => n (Config.dieEnergy die d.now) - n (Config.dieEnergy die d.boot.since)

/-! ### TLB invalidation (R56, R57) -/

/-- The bytes of a SIZE code. -/
def tlbiBytes (size : Nat) : Nat := 2 ^ [12, 16, 21, 25, 30, 34, 38].getD size 12

/-- The entries that a command covers are dropped from every TLB. -/
def Dev.dropTlb (d : Dev) (kind tid size : Nat) : Dev :=
  let keep : TlbEnt → Bool := fun e =>
    match kind with
    | 0 => false
    | 1 => e.tenant != tid
    | _ =>
      let base := d.host.tlbiva.toNat / tlbiBytes size * tlbiBytes size
      !(e.tenant == tid && overlap (e.vpn * 2 ^ e.shift) (2 ^ e.shift) base (tlbiBytes size))
  let all := fun (t : Tbl (List TlbEnt)) => t.map fun x => (x.1, x.2.filter keep)
  { d with tlbPort := all d.tlbPort, tlbBlock := all d.tlbBlock, tlbLast := all d.tlbLast }

/-- A request whose address has been translated and that is still to be performed. -/
def isTranslated : Instr → Bool
  | .channelRequest .. | .seAtomic .. | .seCntInit .. | .seCntDec .. | .seCntFree .. | .barrierUpdate .. | .seBitmapOr .. => true
  | _ => false

/-- The translated requests on their way to an engine or channel, and those that an engine holds. -/
def Dev.requests (d : Dev) : List Instr :=
  ((d.agenda.map Prod.snd) ++ (d.se.flatMap fun e => e.2.hold.flatMap Prod.snd)).filter isTranslated

/-- A command write to TLBICMD. -/
def Dev.tlbiCommand (d : Dev) (v : Word) : Dev :=
  let kind := field v 0 2
  let tid := field v 8 8
  if d.host.tlbi.busy then d.modHost fun h => { h with tlbi := { h.tlbi with ovr := true } }
  else if kind = 3 ∨ field v 16 3 = 7 then d.modHost fun h => { h with tlbi := { h.tlbi with fields := v &&& 0x7FF03, err := true } }
  else
    let wait := (d.casts.filter fun e => kind == 0 || e.2.tenant == tid).map fun (e : Nat × Cast) =>
      ({ cast := e.1, uid := e.2.uid, seq := e.2.th.seq, open_ := (e.2.th.blk.map fun b => !b.effects.isEmpty).getD false } : TlbWait)
    ((d.dropTlb kind tid (field v 16 3)).modHost fun h =>
      { h with tlbWait := wait, tlbReqs := d.requests, tlbStores := d.replNo, tlbi := { h.tlbi with fields := v &&& 0x7FF03, busy := true, due := d.now + Config.openDelay d.free } }).tickFree

/-- What a thread had translated before the command has been performed: its block of then has ended, and nothing of that block or an
earlier one stands in its queue. -/
def TlbWait.over (w : TlbWait) (d : Dev) : Bool :=
  match d.casts.find w.cast with
  | none => true
  | some k => k.uid != w.uid || ((!w.open_ || decide (w.seq < k.th.seq)) && k.th.queue.all fun e => decide (w.seq + 1 < e.blk))

/-- Every access that was translated before the command has been performed: those of threads, requests under way or held, and stores to
replicated pages at every replica. -/
def Dev.tlbiDone (d : Dev) : Bool :=
  d.host.tlbi.busy && decide (d.host.tlbi.due ≤ d.now) && (d.host.tlbWait.all fun w => w.over d)
    && !(d.host.tlbReqs.any fun i => d.requests.contains i) && !d.unapplied d.host.tlbStores

/-- TLBI_COMPLETE. -/
def execTlbiComplete (s : State) : Res :=
  if s.dev.tlbiDone then .next { s with dev := s.dev.modHost fun h => { h with tlbWait := [], tlbReqs := [], tlbi := { h.tlbi with busy := false } } }
  else .next s

/-! ### Ownership maps and keys (R63, R484, R485) -/

/-- The map entry of OMAPCMD is complete. -/
def Dev.omapDone (d : Dev) (die : Nat) : Bool := let x := d.host.omapc.get {} die; x.busy && decide (x.due ≤ d.now)

/-- OMAP_COMPLETE: the entry is installed. -/
def execOmapComplete (die : Nat) (s : State) : Res :=
  let x := s.dev.host.omapc.get {} die
  if s.dev.omapDone die then
    let d := { s.dev with omap := s.dev.omap.put (65536 * die + field x.fields 0 16) (BitVec.ofNat 16 (field x.fields 16 16) &&& 0xBFFF) }
    .next { s with dev := d.modHost fun h => { h with omapc := h.omapc.put die { x with busy := false } } }
  else .next s

/-- A KEYCMD is refused. -/
def Dev.keyRefused (d : Dev) (v : Word) : Bool :=
  let op := field v 0 2
  let tgt := bitAt v 2
  op == 3 || (decide (op ≤ 1) && !tgt && field v 4 6 == 0) || (op == 0 && tgt) || (op == 2 && !tgt)
    || (op == 2 && (d.host.sessions.find (field v 10 8)).all fun x => x.2.isNone)

/-- A command write to KEYCMD. -/
def Dev.keyCommand (d : Dev) (v : Word) : Dev :=
  let f := v &&& 0x3FFFF
  if d.host.keyc.busy then d.modHost fun h => { h with keyc := { h.keyc with ovr := true } }
  else if d.keyRefused v then d.modHost fun h => { h with keyc := { h.keyc with fields := f, err := true } }
  else
    (d.modHost fun h => { h with keyc := { h.keyc with fields := f, busy := true, due := d.now + Config.openDelay d.free } }).tickFree

/-- A key installed in an HBM slot of every present compute die, or unloaded. -/
def Dev.setHbmKey (d : Dev) (slot : Nat) (key : Option Nat) : Dev :=
  ((List.range 8).filter fun die => bitAt d.diepres die).foldl (fun d die =>
    { d with keySlots := match key with
      | some k => d.keySlots.put (64 * die + slot) k
      | none => d.keySlots.del (64 * die + slot) }) d

/-- A key that none has been (R476, R484). -/
def Dev.freshKey (d : Dev) : Nat × Dev := (d.host.nextKey, d.modHost fun h => { h with nextKey := h.nextKey + 1 })

/-- The effect of a KEYCMD. -/
def Dev.applyKey (d : Dev) (v : Word) : Dev :=
  let slot := field v 4 6
  let io := 64 * bit (bitAt v 3) + slot
  match field v 0 2 with
  | 0 => d.freshKey.2.setHbmKey slot (some d.freshKey.1)
  | 1 => if bitAt v 2 then d.modHost fun h => { h with ioKeys := h.ioKeys.del io } else d.setHbmKey slot none
  | _ => match (d.host.sessions.find (field v 10 8)).bind Prod.snd with
    | some k => d.modHost fun h => { h with ioKeys := h.ioKeys.put io k }
    | none => d

/-- A key change is complete. -/
def Dev.keyDone (d : Dev) : Bool := d.host.keyc.busy && decide (d.host.keyc.due ≤ d.now)

/-- KEY_COMPLETE. -/
def execKeyComplete (s : State) : Res :=
  if s.dev.keyDone then
    .next { s with dev := (s.dev.applyKey s.dev.host.keyc.fields).modHost fun h => { h with keyc := { h.keyc with busy := false } } }
  else .next s

/-! ### Queue slots (R468) -/

/-- The TLBs through which an I/O die translates. -/
def ioVia : Via := { port := none, block := none, die := 0 }

/-- A QCB read, as tenant 0. -/
def Dev.readQcb (m : Memory) (d : Dev) (addr : Word) : Option (List Byte) × Dev :=
  match Dev.readRun m d ioVia 0 addr 128 with
  | (.ok b, d) => (some b, d)
  | (.error _, d) => (none, d)

def Dev.modQueue (d : Dev) (iod qid : Nat) (f : QueueEnt → QueueEnt) : Dev :=
  d.modHost fun h => { h with queues := h.queues.upd (1024 * iod + qid) f }

def Dev.queue (d : Dev) (iod qid : Nat) : QueueEnt := d.host.queues.get {} (1024 * iod + qid)

/-- The last command was refused. -/
def Dev.qslotErr (d : Dev) (iod : Nat) : Dev := d.modHost fun h => { h with qcmd := h.qcmd.modify {} iod fun x => { x with err := true } }

/-- DEFINE. -/
def Dev.defineQueue (m : Memory) (d : Dev) (iod qid : Nat) : Dev :=
  if (d.queue iod qid).v then d.qslotErr iod
  else
    match Dev.readQcb m d (d.host.qcba.get 0 iod) with
    | (none, d) => d.qslotErr iod
    | (some b, d) =>
      let q : QueueEnt := { v := true, tid := num b 2 1, qcb := d.host.qcba.get 0 iod }
      d.modHost fun h => { h with queues := h.queues.put (1024 * iod + qid) q }

/-- DELETE. -/
def Dev.deleteQueue (d : Dev) (iod qid : Nat) : Dev :=
  let q := d.queue iod qid
  if q.slot.isSome ∨ q.infl ≠ 0 then d.qslotErr iod else d.modHost fun h => { h with queues := h.queues.del (1024 * iod + qid) }

/-- The packets kicked and not fetched are more than the ring holds (R467). -/
def SlotSt.overKicked (s : SlotSt) (wrx : Nat) : Bool := decide (2 ^ s.lsz < (wrx + 2 ^ 32 - s.rdx % 2 ^ 32) % 2 ^ 32)

/-- The address of a slot's next packet. -/
def SlotSt.packetVa (s : SlotSt) : Word := s.base + BitVec.ofNat 64 (128 * (s.rdx % 2 ^ s.lsz))

/-- MAP of the QCB at an address; `prio` is the firmware scheduler's. -/
def Dev.mapQueue (m : Memory) (d : Dev) (iod slot qid : Nat) (qcb : Word) (prio : Nat) : Dev :=
  let q := d.queue iod qid
  if !q.v || q.slot.isSome || (d.host.slots.find (32 * iod + slot)).isSome then d.qslotErr iod
  else
    match Dev.readQcb m d qcb with
    | (none, d) => d.qslotErr iod
    | (some b, d) =>
      if num b 0 2 ≠ 1 then d.qslotErr iod
      else
        let s : SlotSt := { qid := qid, qcb := qcb, tid := num b 2 1, pri := num b 3 1 % 16, qdie := num b 6 1 % 8
                            base := BitVec.ofNat 64 (num b 8 8), lsz := min 16 (num b 16 1), rdx := num b 20 4
                            err := num b 7 1 == 1, errix := num b 28 4 }
        let d := (d.modQueue iod qid fun q => { q with slot := some slot, pend := false, prio := prio, mapAt := d.now, kept := 0 }).modHost
          fun h => { h with slots := h.slots.put (32 * iod + slot) s }
        if s.overKicked q.wrx ∧ !s.err then d.stopQueue iod qid s.rdx 4 0 s.packetVa else d

/-- UNMAP: the slot's state goes back to the QCB. -/
def State.unmapQueue (s : State) (iod slot qid : Nat) : State :=
  match s.dev.host.slots.find (32 * iod + slot) with
  | none => { s with dev := s.dev.qslotErr iod }
  | some x =>
    if x.qid ≠ qid ∨ (s.dev.queue iod qid).slot ≠ some slot then { s with dev := s.dev.qslotErr iod }
    else
      let wrx := (s.dev.queue iod qid).wrx
      let put := fun (s : State) (off : Nat) (bs : List Byte) => (s.writeRun ioVia 0 (.host iod) (x.qcb + BitVec.ofNat 64 off) bs).1
      let s := put (put s 20 (leBytes 4 x.rdx ++ leBytes 4 wrx ++ leBytes 4 x.errix)) 7 (leBytes 1 (bit x.err))
      let d := s.dev.modQueue iod qid fun q =>
        { q with slot := none, pend := decide (x.rdx ≠ wrx), pendAt := s.dev.now, waited := 0 }
      { s with dev := d.modHost fun h => { h with slots := h.slots.del (32 * iod + slot) } }

/-- A function of a tenant is in CONFIG_LOCKED or RUN on a port (R453). -/
def Dev.lockedFn (d : Dev) (port tid : Nat) : Option Nat :=
  (List.range 64).find? fun f => f != 0 && field (d.fncfgOf port f) 0 8 == tid && (tdst (d.fncfgOf port f) == 1 || tdst (d.fncfgOf port f) == 2)

/-- TDST of a function. -/
def Dev.setTdst (d : Dev) (port f st : Nat) : Dev :=
  d.modHost fun h => { h with fncfg := h.fncfg.put (64 * port + f) ((d.fncfgOf port f &&& ~~~ 0xC00) ||| BitVec.ofNat 64 (1024 * st)) }

/-- A change to what belongs to a locked function's tenant is ignored and moves TDST to ERROR. -/
def State.guarded (s : State) (port tid : Nat) (f : State → State) : State :=
  match s.dev.lockedFn port tid with
  | some fn => { s with dev := s.dev.setTdst port fn 3 }
  | none => f s

/-- A command write to QSLOTCMD. -/
def State.qslotCommand (s : State) (iod : Nat) (v : Word) : State :=
  let qid := field v 8 10
  let slot := field v 0 5
  let s := { s with dev := s.dev.modHost fun h => { h with qcmd := h.qcmd.modify {} iod fun x => { x with fields := v &&& 0x73FF1F } } }
  match field v 20 3 with
  | 1 =>
    let tid := match Dev.readQcb s.mem s.dev (s.dev.host.qcba.get 0 iod) with
      | (some b, _) => num b 2 1
      | (none, _) => 0
    s.guarded iod tid fun s => { s with dev := Dev.defineQueue s.mem s.dev iod qid }
  | 2 => s.guarded iod (s.dev.queue iod qid).tid fun s => { s with dev := s.dev.deleteQueue iod qid }
  | 3 => { s with dev := Dev.mapQueue s.mem s.dev iod slot qid (s.dev.host.qcba.get 0 iod) (s.dev.queue iod qid).prio }
  | 4 => s.unmapQueue iod slot qid
  | _ => { s with dev := s.dev.qslotErr iod }

/-! ### Writing -/

/-- A stream entry changed (R457). -/
def Dev.modSeal (d : Dev) (iod st : Nat) (f : SealSt → SealSt) : Dev :=
  d.modHost fun h => { h with ecs := h.ecs.modify {} (16 * iod + st) f }

/-- A stream entry written by firmware. -/
def State.writeSeal (s : State) (iod st : Nat) (f : SealSt → SealSt) : State :=
  s.guarded iod (s.dev.host.ecs.get {} (16 * iod + st)).tid.toNat fun s => { s with dev := s.dev.modSeal iod st f }

/-- FNCFG written: TID (0 for PF0), V, IDEREQ and WIN (R450, R453). -/
def Dev.writeFncfg (d : Dev) (port f : Nat) (v : Word) : Dev :=
  let old := d.fncfgOf port f
  if f ≠ 0 ∧ (tdst old = 1 ∨ tdst old = 2) then d.setTdst port f 3
  else
    let mask : Word := if f = 0 then 0xFFFFFFFFFF300 else 0xFFFFFFFFFF3FF
    d.modHost fun h => { h with fncfg := h.fncfg.put (64 * port + f) (v &&& mask ||| old &&& 0xC00) }

/-- A word of four changed. -/
def Quad.setWord (q : Quad) (i : Nat) (v : Word) : Quad :=
  match i with
  | 0 => { q with w0 := v }
  | 1 => { q with w1 := v }
  | 2 => { q with w2 := v }
  | _ => { q with w3 := v }

/-- A write of tenant 0 to a register; RO fields ignore it. -/
def State.writeReg (s : State) (r : DevReg) (v : Word) : State :=
  let d := s.dev
  let put := fun (d : Dev) => { s with dev := d }
  match r with
  | .ttew0 die i => put { d with ttew0 := d.ttew0.put (64 * die + i) (v &&& 0xFF01FF) }
  | .ttew1 die i => put { d with ttew1 := d.ttew1.put (64 * die + i) (v &&& 0xFFFFFFFFFF000) }
  | .tlbiva => put (d.modHost fun h => { h with tlbiva := v &&& 0x1FFFFFFFFFFF000 })
  | .tlbicmd =>
    if bitAt v 29 || bitAt v 30 then
      put (d.modHost fun h => { h with tlbi := { h.tlbi with err := h.tlbi.err && !bitAt v 29, ovr := h.tlbi.ovr && !bitAt v 30 } })
    else put (d.tlbiCommand v)
  | .omapcmd die =>
    if (d.host.omapc.get {} die).busy then s
    else
      let x : CmdSt := { fields := v &&& 0xFFFFFFFF, busy := true, due := d.now + Config.openDelay d.free }
      put (d.modHost fun h => { h with omapc := h.omapc.put die x }).tickFree
  | .cplim die i =>
    let w := (d.cplim.find (8 * die + i / 8)).getD 0x0C0C0C0C0C0C0C0C
    let sh := 8 * (i % 8)
    put { d with cplim := d.cplim.put (8 * die + i / 8) (w &&& ~~~ ((0xFF : Word) <<< sh) ||| (v &&& 0x1F) <<< sh) }
  | .seqta die i => put (d.modSe die fun x => { x with qta := x.qta.put i (v &&& 0xFFFFFFFFFFFFFF) })
  | .seqtb die i => put (d.modSe die fun x => { x with qtb := x.qtb.put i (v &&& 0xFFFFFFFF) })
  | .seuse _ _ => s
  | .seovf die => put (d.modSe die fun x => { x with ovf := v &&& 0xFFFFFFFFFF000 })
  | .seovfn die => put (d.modSe die fun x => { x with ovfn := v &&& 0xFFFFFFFF })
  | .sepurge die =>
    if (d.seAt die).purging then s
    else put (d.modSe die fun x =>
      { x with purgeTid := BitVec.ofNat 8 (field v 0 8), purging := true, purgeDue := d.now + Config.openDelay d.free }).tickFree
  | .plsub =>
    if !d.boot.ready then s
    else if d.pl.asks.all fun a => a.at_ == d.now then put (d.firmwareReq v)
    else put (d.ask { src := .firmware, at_ := d.now, requester := 0, tenant := 0, addr := v })
  | .plstat => put (d.modPl fun p => { p with ovr := p.ovr && !bitAt v 7 })
  | .movelim => put (d.modPl fun p => { p with movelim := BitVec.ofNat 32 (field v 0 32) })
  | .plcwin i => put (d.modPl fun p => { p with win := p.win.set 0 i (v &&& 0xFFFFFFFFFF1FF) })
  | .schcfg => put (d.modSch fun x =>
      { x with quantum := d.quanta, ageq := BitVec.ofNat 16 (field v 0 16), hang := BitVec.ofNat 24 (field v 16 24), memto := BitVec.ofNat 24 (field v 40 24) })
  | .schq i => put (d.modSch fun x => { x with schq := x.schq.put i (v &&& 0xFFFFFFFFFFF) })
  | .spoola i => put (d.modSch fun x => { x with spoola := x.spoola.set 0 i (v &&& 0xFFFFFFFFFFFFF000) })
  | .spoolb i => put (d.modSch fun x => { x with spoolb := x.spoolb.set 0 i (v &&& 0xFFFFFFFFFFFF) })
  | .eallow i => put (d.modSch fun x => { x with eallow := x.eallow.put i (BitVec.ofNat 32 (field v 0 32)) })
  | .ebal _ => s
  | .fncfg port f => put (d.writeFncfg port f v)
  | .hostsel => put { d with hostsel := bitAt v 0 }
  | .ecs0 iod st => s.writeSeal iod st fun e =>
      { e with tid := BitVec.ofNat 8 (field v 0 8), keyix := BitVec.ofNat 6 (field v 8 6), v := bitAt v 16, nonce := BitVec.ofNat 32 (field v 32 32) }
  | .ecs1 iod st => s.writeSeal iod st fun e => { e with ctr := v }
  | .ecs2 iod st => s.writeSeal iod st fun e => { e with dst := v }
  | .ecs3 iod st => s.writeSeal iod st fun e => { e with cnt := v }
  | .ecs4 _ _ => s
  | .fqdesc i => put (d.modHost fun h => { h with fqdesc := h.fqdesc.set 0 i v })
  | .qcba iod => put (d.modHost fun h => { h with qcba := h.qcba.set 0 iod v })
  | .qslotcmd iod =>
    if bitAt v 61 || bitAt v 62 then
      put (d.modHost fun h =>
        { h with qcmd := h.qcmd.modify {} iod fun x => { x with err := x.err && !bitAt v 61 }
                 idlew := h.idlew.set false iod (h.idlew.get false iod && !bitAt v 62) })
    else s.qslotCommand iod v
  | .qidle _ => s
  | .qschcfg => put (d.modHost fun h => { h with qsch := v &&& 0xFFFFF3F })
  | .featw _ => s
  | .featacc i => if d.featlock then s else put { d with featacc := d.featacc.setWord i (v &&& d.featw i) }
  | .featlock => put { d with featlock := d.featlock || bitAt v 0 }
  | .ualid => put { d with ualid := BitVec.ofNat 10 (field v 0 10) }
  | .uaroute p => put { d with uaroute := d.uaroute.set 0 p (BitVec.ofNat 8 (field v 0 8)) }
  | .seamdn => s
  | .bootstat => put (d.modBoot fun b => { b with ready := b.ready || bitAt v 11 })
  | .diepres => s
  | .blkpres _ => s
  | .keycmd =>
    if bitAt v 61 || bitAt v 62 then
      put (d.modHost fun h => { h with keyc := { h.keyc with err := h.keyc.err && !bitAt v 61, ovr := h.keyc.ovr && !bitAt v 62 } })
    else put (d.keyCommand v)
  | .pwrlim => put (d.modSch fun x => { x with pwrlim := min 2400 (max 600 (field v 0 16)) })
  | .govst => s
  | .ecnt _ => s
  | .dieidle _ => s

/-- The register's die, port and entry exist on the part (R2). -/
def regExists (p : Part) (r : DevReg) : Bool :=
  let di := fun (die i : Nat) => p.hasDie die && decide (i < 64)
  match r with
  | .ttew0 die i => di die i
  | .ttew1 die i => di die i
  | .omapcmd die => p.hasDie die
  | .cplim die i => di die i
  | .seqta die i => di die i
  | .seqtb die i => di die i
  | .seuse die i => di die i
  | .seovf die => p.hasDie die
  | .seovfn die => p.hasDie die
  | .sepurge die => p.hasDie die
  | .plcwin i => decide (i < 64)
  | .schq i => decide (i < 64)
  | .spoola i => decide (i < 64)
  | .spoolb i => decide (i < 64)
  | .eallow i => decide (i < 64)
  | .ebal i => decide (i < 64)
  | .fncfg port f => p.hasPort port && decide (f < 64)
  | .ecs0 iod st => p.hasPort iod && decide (st < 16)
  | .ecs1 iod st => p.hasPort iod && decide (st < 16)
  | .ecs2 iod st => p.hasPort iod && decide (st < 16)
  | .ecs3 iod st => p.hasPort iod && decide (st < 16)
  | .ecs4 iod st => p.hasPort iod && decide (st < 16)
  | .fqdesc i => decide (i < 64)
  | .qcba iod => p.hasPort iod
  | .qslotcmd iod => p.hasPort iod
  | .qidle iod => p.hasPort iod
  | .featw i => decide (i < 4)
  | .featacc i => decide (i < 4)
  | .ualid => p.hasUal
  | .uaroute q => p.hasUal && decide (q < 1024)
  | .blkpres die => p.hasDie die
  | .ecnt b => p.hasDie (dieOfBlock (b % 24) (b / 24)) && decide (b < 288)
  | .dieidle die => p.hasDie die
  | _ => true

/-- A register written by a tenant: firmware alone writes FW fields, and W1C and command bits (R9). -/
def State.regWrite (s : State) (tid : Nat) (r : DevReg) (v : Word) : State := if tid = 0 ∧ regExists s.dev.part r then s.writeReg r v else s

/-! ### The steps of register writes -/

def execRegisterWrite (tid : Nat) (r : DevReg) (v : Word) (s : State) : Res := .next (s.regWrite tid r v)
def execClearingWrite (tid : Nat) (r : DevReg) (v : Word) (s : State) : Res := .next (s.regWrite tid r v)
def execTlbiAll (tid : Nat) (s : State) : Res := .next (s.regWrite tid .tlbicmd 0)
def execTlbiTenant (tid target : Nat) (s : State) : Res :=
  .next (s.regWrite tid .tlbicmd (BitVec.ofNat 64 (1 + 256 * (target % 256))))
def execTlbiRange (tid target size : Nat) (s : State) : Res :=
  .next (s.regWrite tid .tlbicmd (BitVec.ofNat 64 (2 + 256 * (target % 256) + 65536 * (size % 8))))
def execTlbiReserved (tid : Nat) (v : Word) (s : State) : Res := .next (s.regWrite tid .tlbicmd v)
def execOmapcmdWrite (tid die : Nat) (v : Word) (s : State) : Res := .next (s.regWrite tid (.omapcmd die) v)
def execSepurgeWrite (tid die : Nat) (v : Word) (s : State) : Res := .next (s.regWrite tid (.sepurge die) v)
/-- A KEYCMD word with an operation. -/
def keyWord (op : Nat) (v : Word) : Word := v &&& ~~~ 3 ||| BitVec.ofNat 64 op

def execKeyGen (tid : Nat) (v : Word) (s : State) : Res := .next (s.regWrite tid .keycmd (keyWord 0 v))
def execKeyClear (tid : Nat) (v : Word) (s : State) : Res := .next (s.regWrite tid .keycmd (keyWord 1 v))
def execKeyLoad (tid : Nat) (v : Word) (s : State) : Res := .next (s.regWrite tid .keycmd (keyWord 2 v))
def execKeyReserved (tid : Nat) (v : Word) (s : State) : Res := .next (s.regWrite tid .keycmd v)
def execPlsubWrite (tid : Nat) (v : Word) (s : State) : Res := .next (s.regWrite tid .plsub v)
def execFeatlockWrite (tid : Nat) (v : Word) (s : State) : Res := .next (s.regWrite tid .featlock v)
def execBootstatReady (tid : Nat) (v : Word) (s : State) : Res := .next (s.regWrite tid .bootstat v)
/-- A QSLOTCMD word with an operation. -/
def qslotWord (op : Nat) (v : Word) : Word := v &&& ~~~ 0x700000 ||| BitVec.ofNat 64 (2 ^ 20 * op)

def execQslotDefine (tid iod : Nat) (v : Word) (s : State) : Res := .next (s.regWrite tid (.qslotcmd iod) (qslotWord 1 v))
def execQslotDelete (tid iod : Nat) (v : Word) (s : State) : Res := .next (s.regWrite tid (.qslotcmd iod) (qslotWord 2 v))
def execQslotMap (tid iod : Nat) (v : Word) (s : State) : Res := .next (s.regWrite tid (.qslotcmd iod) (qslotWord 3 v))
def execQslotUnmap (tid iod : Nat) (v : Word) (s : State) : Res := .next (s.regWrite tid (.qslotcmd iod) (qslotWord 4 v))
def execQslotReserved (tid iod : Nat) (v : Word) (s : State) : Res := .next (s.regWrite tid (.qslotcmd iod) v)

end Sys2Proof.Machine
end

