-- ==== Sys2Proof/Machine/Queues.lean ====
section
/-!
DEFINITION. User queues: kicks, packets and their completion (R462 to R469), and the shipped firmware's queue scheduler (R470, R471).
-/
namespace Sys2Proof.Machine

/-! ### Idle queues (R468) -/

/-- IDLEW: a mapped queue has become idle while some PEND is set; the firmware core wakes. -/
def Dev.noteIdle (d : Dev) (iod qid : Nat) : Dev :=
  let pend := d.host.queues.any fun e => e.1 / 1024 == iod && e.2.pend
  match (d.queue iod qid).slot.bind fun n => d.slotQueue iod n with
  | some (s, q) =>
    if s.isIdle q && pend then
      d.modHost fun h => { h with idlew := h.idlew.set false iod true, wake := h.wake.set false iod true }
    else d
  | none => d

/-! ### Kicks (R462, R467) -/

/-- The tenant of a function: PF0 acts as tenant 0 (R450). -/
def Dev.fnTenant (d : Dev) (port fn : Nat) : Nat := if fn = 0 then 0 else field (d.fncfgOf port fn) 0 8

/-- DOORBELL_KICK. -/
def execDoorbellKick (port fn qid : Nat) (v : Word) (s : State) : Res :=
  let d := s.dev
  let q := d.queue port qid
  if !q.v || q.tid != d.fnTenant port fn then .next s
  else
    let wrx := field v 0 32
    let d := d.modQueue port qid fun q => { q with wrx := wrx }
    match q.slot.bind fun n => d.host.slots.find (32 * port + n) with
    | some x => .next { s with dev := if x.overKicked wrx ∧ !x.err then d.stopQueue port qid x.rdx 4 0 x.packetVa else d }
    | none =>
      if q.pend then .next { s with dev := d }
      else
        .next { s with dev := (d.modQueue port qid fun q => { q with pend := true, pendAt := d.now, waited := 0 }).modHost fun h =>
          { h with wake := h.wake.set false port true } }

/-! ### Packets (R464, R465, R469) -/

def Dev.modSlot (d : Dev) (iod n : Nat) (f : SlotSt → SlotSt) : Dev :=
  d.modHost fun h => { h with slots := h.slots.upd (32 * iod + n) f }

/-- A slot has a packet to fetch. -/
def Dev.canFetch (d : Dev) (iod n : Nat) : Bool :=
  match d.slotQueue iod n with
  | some (s, q) => !s.err && s.pkt.isNone && s.rdx != q.wrx
  | none => false

/-- A packet is malformed. -/
def badPacket (b : List Byte) : Bool :=
  let fl := num b 3 1
  num b 0 2 != 1 || decide (5 ≤ num b 2 1) || decide (4 ≤ fl) || num b 4 4 != 0 || (fl / 2 == 0 && num b 8 8 != 0)
    || (num b 2 1 != 4 && num b 24 4 != 0) || (List.range 100).any fun i => num b (28 + i) 1 != 0

/-- The TLBs of queue slots. -/
def slotVia : Via := ioVia

/-- PACKET_FETCH: the next packet is read and checked. -/
def execPacketFetch (iod n : Nat) (s : State) : Res :=
  match s.dev.slotQueue iod n with
  | none => .next s
  | some (x, _) =>
    if !s.dev.canFetch iod n then .next s
    else
      match Dev.readRun s.mem s.dev slotVia x.tid x.packetVa 128 with
      | (.error _, d) => .next { s with dev := d.stopQueue iod x.qid x.rdx 1 0 x.packetVa }
      | (.ok b, d) =>
        if badPacket b then .next { s with dev := d.stopQueue iod x.qid x.rdx 1 0 x.packetVa }
        else .next { s with dev := d.modSlot iod n fun x => { x with pkt := some b } }

/-- A slot's packet can be issued in this clock. -/
def Dev.canIssue (d : Dev) (iod n : Nat) : Bool :=
  match d.slotQueue iod n with
  | some (s, q) =>
    !s.err && decide (d.host.issued.get 0 iod ≤ d.now) && decide (q.infl < 16) &&
      match s.pkt with
      | some b => num b 3 1 % 2 == 0 || q.infl == 0
      | none => false
  | none => false

/-- A decrement with release that is made once every replica has applied the stores of a lower number (R78). -/
def Dev.countAfter (d : Dev) (r : CntReq) (amount : BitVec 32) (seen : Nat) : Dev :=
  if d.unapplied seen then d.job (.count r amount seen) else d.post 0 (.seCntDec r amount)

/-- A decrement that a slot makes; a counter that cannot be reached is passed over. -/
def State.slotDec (s : State) (iod tid : Nat) (va : Word) (amt : Nat) : State :=
  match Dev.translate s.mem s.dev slotVia tid va .store with
  | (.error _, d) => { s with dev := d }
  | (.ok p, d) =>
    { s with dev := d.countAfter { source := .nobody, requester := 10496 + iod, tenant := tid, va := va, pa := p.pa, order := .rel,
                                   scope := .system } (BitVec.ofNat 32 amt) d.replNo }

/-- A PLACER packet reaches the placer. -/
def State.slotAsk (s : State) (p : PktSt) : State :=
  { s with dev := s.dev.ask { src := .packet p.iod p.qid p.index, at_ := s.dev.now, requester := 10496 + p.iod, tenant := p.tid, addr := p.arg } }

/-- The issue of a packet by its type. -/
def State.issuePacket (s : State) (p : PktSt) (qdie typ amt : Nat) : State :=
  let done := fun (s : State) => { s with dev := s.dev.post 0 (.packetComplete p.iod p.qid p.index) }
  match typ with
  | 0 => done s
  | 1 =>
    { s with dev := (s.dev.post (Config.openDelay s.dev.free)
        (.dispatchTaskPut (.packet p.iod p.qid p.index) p.tid qdie (.put p.arg false))).tickFree }
  | 2 => s.slotAsk p
  | 3 =>
    match Dev.counterAt s.mem s.dev slotVia p.tid p.arg with
    | (none, d) => { s with dev := d }
    | (some pa, d) =>
      if d.counterDone p.tid pa then done { s with dev := d }
      else
        { s with dev := d.modHost fun h => { h with packets := h.packets.map fun x =>
            if x.iod = p.iod ∧ x.qid = p.qid ∧ x.index = p.index then { x with wait := some pa } else x } }
  | _ => done (s.slotDec p.iod p.tid p.arg amt)

/-- PACKET_ISSUE. -/
def execPacketIssue (iod n : Nat) (s : State) : Res :=
  match s.dev.slotQueue iod n with
  | none => .next s
  | some (x, _) =>
    match x.pkt with
    | none => .next s
    | some b =>
      if !s.dev.canIssue iod n then .next s
      else
        let p : PktSt := { iod := iod, qid := x.qid, index := x.rdx, tid := x.tid, addr := x.packetVa, arg := BitVec.ofNat 64 (num b 16 8)
                           signal := if (num b 3 1).testBit 1 then some (BitVec.ofNat 64 (num b 8 8)) else none }
        let d := s.dev.modSlot iod n fun x => { x with rdx := (x.rdx + 1) % 2 ^ 32, pkt := none }
        let d := (d.modQueue iod x.qid fun q => { q with infl := q.infl + 1 }).modHost fun h =>
          { h with packets := h.packets ++ [p], turn := h.turn.set 0 iod ((n + 1) % 32), issued := h.issued.set 0 iod (d.now + 1) }
        .next (State.issuePacket { s with dev := d } p x.qdie (num b 2 1) (num b 24 4))

/-- PACKET_COMPLETE: INFL falls, and the packet's SIGNAL is sent. -/
def execPacketComplete (iod qid index : Nat) (s : State) : Res :=
  match s.dev.packetAt iod qid index with
  | none => .next s
  | some p =>
    let s := { s with dev := (s.dev.dropPacket iod qid index).noteIdle iod qid }
    match p.signal with
    | some va => .next (s.slotDec iod p.tid va 1)
    | none => .next s

/-- PLACER_BUSY_RETRY. -/
def execPlacerBusyRetry (iod qid index : Nat) (s : State) : Res :=
  match s.dev.packetAt iod qid index with
  | none => .next s
  | some p => .next (s.slotAsk p)

/-- The next slot of an I/O die that issues, round-robin. -/
def Dev.nextIssue (d : Dev) (iod : Nat) : Option Nat :=
  ((List.range 32).map fun i => (d.host.turn.get 0 iod + i) % 32).find? fun n => d.canIssue iod n

/-! ### The firmware's scheduler (R470, R471) -/

/-- The fields of QSCHCFG. -/
def Dev.nslot (d : Dev) : Nat := max 1 (min 32 (field d.host.qsch 0 6))
def Dev.qage (d : Dev) : Nat := 1500 * max 1 (field d.host.qsch 8 16)
def Dev.minres (d : Dev) : Nat := field d.host.qsch 24 4

/-- PRI in a queue's control block, 0 when it cannot be read. -/
def Dev.basePri (m : Memory) (d : Dev) (q : QueueEnt) : Nat :=
  match Dev.readQcb m d q.qcb with
  | (some b, _) => num b 3 1 % 16
  | (none, _) => 0

/-- E of a pending queue. -/
def Dev.pendPrio (m : Memory) (d : Dev) (q : QueueEnt) : Nat := min 15 (Dev.basePri m d q + q.waited)

/-- The pending queues of an I/O die with E, in the firmware's order. -/
def Dev.pendingQueues (m : Memory) (d : Dev) (iod : Nat) : List (Nat × Nat) :=
  let qs := ((d.host.queues.filter fun e => e.1 / 1024 == iod && e.2.v && e.2.pend && e.2.slot.isNone).map fun e =>
    (e.1 % 1024, Dev.pendPrio m d e.2, e.2.pendAt))
  let before := fun (a b : Nat × Nat × Nat) =>
    decide (b.2.1 < a.2.1 ∨ (a.2.1 = b.2.1 ∧ (a.2.2 < b.2.2 ∨ (a.2.2 = b.2.2 ∧ a.1 ≤ b.1))))
  (qs.mergeSort before).map fun x => (x.1, x.2.1)

/-- The mapped queues in the first NSLOT slots: slot and queue. -/
def Dev.mappedQueues (d : Dev) (iod : Nat) : List (Nat × SlotSt × QueueEnt) :=
  (List.range d.nslot).filterMap fun n => (d.slotQueue iod n).map fun x => (n, x.1, x.2)

/-- The first in an order. -/
def firstBy {α : Type} (lt : α → α → Bool) : List α → Option α
  | [] => none
  | x :: rest =>
    match firstBy lt rest with
    | none => some x
    | some y => if lt y x then some y else some x

/-- The slot for a pending queue of a priority. -/
def Dev.slotFor (d : Dev) (iod prio : Nat) : Option Nat :=
  let mapped := d.mappedQueues iod
  let free := (List.range d.nslot).find? fun n => (d.host.slots.find (32 * iod + n)).isNone
  let idle := firstBy (fun a b => decide (a.2.2.mapAt < b.2.2.mapAt)) (mapped.filter fun x => x.2.1.isIdle x.2.2)
  let least := firstBy (fun a b => decide (a.2.2.prio < b.2.2.prio ∨ (a.2.2.prio = b.2.2.prio ∧
      (a.2.2.mapAt < b.2.2.mapAt ∨ (a.2.2.mapAt = b.2.2.mapAt ∧ a.2.1.qid < b.2.1.qid)))))
    (mapped.filter fun x => decide (d.minres ≤ x.2.2.kept))
  free.or ((idle.map Prod.fst).or ((least.filter fun x => decide (x.2.2.prio < prio)).map Prod.fst))

/-- A pending queue is mapped where there is a slot for it. -/
def State.placeQueue (iod : Nat) (s : State) (x : Nat × Nat) : State :=
  match s.dev.slotFor iod x.2 with
  | none => s
  | some n =>
    let s := match s.dev.host.slots.find (32 * iod + n) with
      | some old => s.unmapQueue iod n old.qid
      | none => s
    { s with dev := Dev.mapQueue s.mem s.dev iod n x.1 (s.dev.queue iod x.1).qcb x.2 }

/-- FIRMWARE_QUEUE_SCHEDULE at a wake or, counted, at a boundary. -/
def execFirmwareQueueSchedule (iod : Nat) (boundary : Bool) (s : State) : Res :=
  let count : QueueEnt → QueueEnt := fun q =>
    if q.slot.isSome then { q with kept := q.kept + 1 } else if q.pend then { q with waited := q.waited + 1 } else q
  let d := if boundary then
      s.dev.modHost fun h => { h with queues := h.queues.map fun e => (e.1, if e.1 / 1024 = iod then count e.2 else e.2)
                                      qageAt := h.qageAt.put iod (s.dev.now + s.dev.qage) }
    else s.dev
  let s := { s with dev := d.modHost fun h => { h with wake := h.wake.set false iod false } }
  .next ((Dev.pendingQueues s.mem s.dev iod).foldl (State.placeQueue iod) s)

end Sys2Proof.Machine
end

