-- ==== Sys2Proof/Machine/Inbound.lean ====
section
/-!
DEFINITION. The I/O dies' ports: inbound requests and the ordering point (R450, R451, R453 to R456, R479), sealed copy-in (R457 to R459),
outbound reads that find no completion (R452), peers and links (R473 to R475), and TDISP interfaces (R453).
-/
namespace Sys2Proof.Machine

/-! ### Acceptance (R450, R451, R453, R479) -/

/-- The request lies in the PF0 register file. -/
def inFile (q : Inbound) : Bool := q.fn == 0 && q.bar == 0 && decide (2 ^ 22 ≤ q.off)

/-- Bytes of a BAR (R451). -/
def barSize (q : Inbound) : Nat :=
  match q.bar with
  | 0 => if q.fn = 0 then 2 ^ 23 else 2 ^ 22
  | 2 => 2 ^ 38
  | 4 => 2 ^ 21
  | _ => 0

/-- The request came in an IDE stream bound to its function. -/
def Dev.inStream (d : Dev) (port : Nat) (q : Inbound) : Bool := q.ide && d.host.bound.any fun b => b.2.1 == port && b.2.2.1 == q.fn

/-- The request is accepted; one refused for IDEREQ is reported to the firmware fault queue (INSEC). -/
def Dev.acceptInbound (d : Dev) (port : Nat) (q : Inbound) (len : Nat) : Bool × Dev :=
  let w := d.fncfgOf port q.fn
  if !d.part.hasPort port || decide (64 ≤ q.fn) || decide (barSize q < q.off + len) || (!d.boot.ready && !inFile q) || !bitAt w 8 || tdst w == 3 then
    (false, d)
  else if bitAt w 9 ∧ !d.inStream port q then (false, d.postFault 0 [0x0D, BitVec.ofNat 64 (q.fn + 256 * port)])
  else (true, d)

/-- A request joins the port's ordering point. -/
def Dev.arrive (d : Dev) (port : Nat) (a : Arrival) : Dev :=
  d.modHost fun h => { h with nextIn := h.nextIn + 1, inbox := h.inbox.modify [] port fun l => l ++ [{ a with id := h.nextIn }] }

/-- INBOUND_POSTED_WRITE. -/
def execInboundPostedWrite (port : Nat) (q : Inbound) (data : List Byte) (s : State) : Res :=
  let r := s.dev.acceptInbound port q data.length
  .next { s with dev := if r.1 then r.2.arrive port { id := 0, q := q, data := data } else r.2 }

/-- A message leaves the package. -/
def Dev.send (d : Dev) (m : OutMsg) : Dev := { d with outbox := d.outbox ++ [m] }

/-- Bytes that the spec does not state. -/
def Dev.openBytes (d : Dev) (len : Nat) : List Byte × Dev := (leBytes len (Config.openNat d.free), d.tickFree)

/-- INBOUND_READ: BAR2 is read at the ordering point; BAR4 reads as zeros; the register file as its registers. -/
def execInboundRead (port : Nat) (q : Inbound) (len tag : Nat) (s : State) : Res :=
  let r := s.dev.acceptInbound port q len
  let d := r.2
  .next { s with dev :=
    if !r.1 then d.send (.unsupported tag)
    else if q.bar = 2 then d.arrive port { id := 0, q := q, read := some (len, tag) }
    else if q.bar = 4 then d.send (.data tag (List.replicate len 0))
    else
      match (if inFile q then Config.pf0Reg port (q.off - 2 ^ 22) else none) with
      | some x => d.send (.data tag (leBytes len (d.readReg x).toNat))
      | none => let b := d.openBytes len; b.2.send (.data tag b.1) }

/-- INBOUND_ATOMICOP: 32-bit and 64-bit operations on BAR2. -/
def execInboundAtomicop (port : Nat) (q : Inbound) (kind : AtomKind) (size : Size) (tag : Nat) (s : State) : Res :=
  let r := s.dev.acceptInbound port q (Size.bytes size)
  .next { s with dev :=
    if !r.1 || q.bar != 2 || Size.bytes size < 4 then r.2.send (.unsupported tag)
    else r.2.arrive port { id := 0, q := q, atom := some (kind, size, tag) } }

/-! ### Routes (R454) -/

/-- The virtual address of a request to BAR2. -/
def Dev.inboundVa (d : Dev) (port : Nat) (q : Inbound) : Word :=
  BitVec.ofNat 64 (4096 * field (d.fncfgOf port q.fn) 12 40 + q.off)

/-- A translated part of an inbound request: its route, its place and its offset and length in the request. -/
structure InPart where
  route : Nat
  place : Placed
  off   : Nat
  len   : Nat

/-- The route of an address: that of its home die, or the I/O die's own. -/
def Dev.routeOf (d : Dev) (pa : Nat) : Nat := if paRegion (d.ownPa pa) = 0 then paDie (d.ownPa pa) else 8

/-- The lines of a run of bytes, translated. -/
def Dev.inParts (m : Memory) (tenant : Nat) (acc : Access) : Nat → Word → Nat → Nat → Dev → Except (Word × XFault) (List InPart) × Dev
  | 0, _, _, _, d => (.ok [], d)
  | fuel + 1, va, off, len, d =>
    if len = 0 then (.ok [], d)
    else
      let n := lineLeft va.toNat len
      match Dev.translate m d ioVia tenant va acc with
      | (.error f, d) => (.error (va, f), d)
      | (.ok p, d) =>
        match Dev.inParts m tenant acc fuel (va + BitVec.ofNat 64 n) (off + n) (len - n) d with
        | (.error f, d) => (.error f, d)
        | (.ok rest, d) => (.ok ({ route := d.routeOf p.pa, place := p, off := off, len := n } :: rest), d)

/-- The parts of `len` bytes at a virtual address. -/
def Dev.partsAt (m : Memory) (d : Dev) (tenant : Nat) (acc : Access) (va : Word) (len : Nat) : Except (Word × XFault) (List InPart) × Dev :=
  Dev.inParts m tenant acc (len / 128 + 2) va 0 len d

/-- Bytes of a request of BAR2 and what it does to them. -/
def Arrival.span (a : Arrival) : Nat × Access :=
  match a.read, a.atom with
  | some (len, _), _ => (len, .load)
  | none, some (_, size, _) => (Size.bytes size, .store)
  | none, none => (a.data.length, .store)

/-- The routes of a request, each once; none when its translation fails. -/
def Dev.routesFor (m : Memory) (d : Dev) (port : Nat) (a : Arrival) : List Nat :=
  if a.q.bar ≠ 2 then [8]
  else
    match (Dev.partsAt m d (d.fnTenant port a.q.fn) a.span.2 (d.inboundVa port a.q) a.span.1).1 with
    | .ok ps => (ps.map InPart.route).eraseDups
    | .error _ => []

/-! ### The hold (R455) -/

/-- The steps that carry the parts of a write to its channels. -/
def partOf (port id : Nat) (i : Instr) : Bool :=
  match i with
  | .channelRequest r => r.agent == .host port && r.id == id
  | _ => false

/-- A forwarded write is acknowledged: every part has been performed, at every replica. -/
def Dev.acked (d : Dev) (port : Nat) (a : Arrival) : Bool :=
  a.gone && !(d.agenda.any fun e => partOf port a.id e.2)
    && (d.replicas.flatMap Prod.snd).all fun r => !(r.2.agent == .host port && r.2.id == a.id)

/-- A commit of a sealed chunk (R458). -/
def Arrival.isCommit (a : Arrival) : Bool := a.q.bar == 4 && decide (2 ^ 20 ≤ a.q.off ∧ a.q.off < 2 ^ 20 + 1024)

/-- A request may be forwarded behind the earlier ones of its port. -/
def Dev.mayForward (m : Memory) (d : Dev) (port : Nat) (earlier : List Arrival) (a : Arrival) : Bool :=
  let ws := earlier.filter fun e => e.read.isNone && e.atom.isNone && !d.acked port e
  let own := d.routesFor m port a
  let free := (a.q.relaxed && a.read.isNone && a.atom.isNone) || ws.isEmpty ||
    (decide (own.length ≤ 1) && ws.all fun e => (d.routesFor m port e).all fun r => own.contains r)
  free && !(a.q.bar == 4 && earlier.any fun e => e.isCommit && !e.gone)

/-- The first request of a port that may be forwarded. -/
def Dev.nextForward (m : Memory) (d : Dev) (port : Nat) : List Arrival → List Arrival → Option Arrival
  | _, [] => none
  | earlier, a :: rest =>
    if !a.gone && Dev.mayForward m d port earlier a then some a else Dev.nextForward m d port (earlier ++ [a]) rest

/-- The request that a port forwards next. -/
def State.forwardAt (s : State) (port : Nat) : Option Arrival := Dev.nextForward s.mem s.dev port [] (s.dev.host.inbox.get [] port)

/-- A request changed, and gone from the ordering point. -/
def Dev.modArrival (d : Dev) (port id : Nat) (f : Arrival → Arrival) : Dev :=
  d.modHost fun h => { h with inbox := h.inbox.modify [] port fun l => l.map fun a => if a.id = id then f a else a }
def Dev.dropArrival (d : Dev) (port id : Nat) : Dev :=
  d.modHost fun h => { h with inbox := h.inbox.set [] port ((h.inbox.get [] port).filter fun a => a.id != id) }

/-! ### Forwarding -/

/-- The clock by which the earlier parts of a route have been performed. -/
def Dev.routeDue (d : Dev) (port route : Nat) : Nat :=
  d.agenda.foldl (fun t e => match e.2 with
    | .channelRequest r => if r.agent = .host port ∧ d.routeOf r.pa = route then max t e.1 else t
    | _ => t) d.now

/-- The parts of a write set on their routes, each behind the earlier parts of its route. -/
def Dev.sendParts (d : Dev) (port id tenant : Nat) (data : List Byte) (ps : List InPart) : Dev :=
  ps.foldl (fun d p =>
    let r : MemReq := { agent := .host port, tenant := tenant, pa := p.place.pa, write := true, len := p.len
                        data := (data.drop p.off).take p.len, rpl := p.place.rpl, id := id }
    (d.post (max (Config.openDelay d.free) (d.routeDue port p.route - d.now)) (.channelRequest r)).tickFree) d

/-- INXLAT (R451, R461). -/
def Dev.postInxlat (d : Dev) (tenant fn : Nat) (va : Word) (f : XFault) (acc : Access) : Dev :=
  d.postFault tenant [0x0B, BitVec.ofNat 64 fn, va, f.syndrome acc 0 tenant]

/-- A write, read or atomic of BAR2. -/
def State.forwardMem (s : State) (port : Nat) (a : Arrival) : State :=
  let tenant := s.dev.fnTenant port a.q.fn
  let va := s.dev.inboundVa port a.q
  match Dev.partsAt s.mem s.dev tenant a.span.2 va a.span.1 with
  | (.error (va, f), d) =>
    let d := (d.postInxlat tenant a.q.fn va f a.span.2).dropArrival port a.id
    { s with dev := match a.read, a.atom with
      | some (_, tag), _ => d.send (.abort tag)
      | none, some (_, _, tag) => d.send (.abort tag)
      | none, none => d }
  | (.ok ps, d) =>
    match a.read, a.atom with
    | some (_, tag), _ =>
      let r := ps.foldl (fun (acc : List Byte × Dev) p =>
        let x := Dev.read s.mem acc.2 p.place.tid (p.place.readPa 0) p.len
        (acc.1 ++ x.1, x.2)) ([], d)
      { s with dev := (r.2.dropArrival port a.id).send (.data tag r.1) }
    | none, some (kind, size, tag) =>
      match ps with
      | [p] =>
        if va.toNat % Size.bytes size ≠ 0 then { s with dev := (d.dropArrival port a.id).send (.abort tag) }
        else
          let r : AtomReq := { agent := .host port, requester := 10496 + port, tenant := tenant, pa := p.place.pa, rpl := p.place.rpl, size := size
                               kind := kind, order := .ar, scope := .system, reply := .outside tag }
          { s with dev := (d.dropArrival port a.id).post 0 (.seAtomic r) }
      | _ => { s with dev := (d.dropArrival port a.id).send (.abort tag) }
    | none, none => { s with dev := (d.modArrival port a.id fun a => { a with gone := true }).sendParts port a.id tenant a.data ps }

/-- A staging byte of a stream, when the function may write it (R458). -/
def Dev.stageByte (d : Dev) (port tenant off : Nat) (b : Byte) : Dev :=
  let key := 16 * port + off / 65536
  let e := d.host.ecs.get {} key
  if e.v ∧ e.tid.toNat = tenant then
    d.modHost fun h => { h with stage := h.stage.modify [] key fun t => t.set 0 (off % 65536) b }
  else d

/-- A write of BAR0 or BAR4, but for a commit. -/
def State.forwardOwn (s : State) (port : Nat) (a : Arrival) : State :=
  let d := s.dev.dropArrival port a.id
  let v : Word := BitVec.ofNat 64 (leNat a.data)
  if a.q.bar = 4 then
    if a.q.off + a.data.length ≤ 2 ^ 20 then
      { s with dev := a.data.zipIdx.foldl (fun d x => d.stageByte port (d.fnTenant port a.q.fn) (a.q.off + x.2) x.1) d }
    else { s with dev := d }
  else if inFile a.q then
    match Config.pf0Reg port (a.q.off - 2 ^ 22) with
    | some r => State.regWrite { s with dev := d } 0 r v
    | none => { s with dev := d }
  else if a.data.length = 8 ∧ a.q.off % 4096 + 8 ≤ 4096 then { s with dev := d.post 0 (.doorbellKick port a.q.fn (a.q.off / 4096) v) }
  else { s with dev := d }

/-- INBOUND_WRITE_FORWARD: the first request that may go on. -/
def execInboundWriteForward (port : Nat) (s : State) : Res :=
  match s.forwardAt port with
  | none => .next s
  | some a => if a.isCommit then .next s else if a.q.bar = 2 then .next (s.forwardMem port a) else .next (s.forwardOwn port a)

/-- An acknowledged write leaves the ordering point; the counter of a sealed commit is decremented then (R459). -/
def State.retireWrite (s : State) (port : Nat) (a : Arrival) : State :=
  let s := { s with dev := s.dev.dropArrival port a.id }
  match a.cnt with
  | some (tid, va) => s.slotDec port tid va 1
  | none => s

/-! ### Sealed copy-in (R457 to R459) -/

/-- What a commit finds before it is decrypted: LEN and REPLAY. -/
def badCommit (e : SealSt) (q : Inbound) (b : List Byte) : Option Nat :=
  let z := fun (off n : Nat) => (List.range n).any fun i => num b (off + i) 1 != 0
  let len := num b 8 4
  if b.length ≠ 64 ∨ q.off % 64 ≠ 0 ∨ len = 0 ∨ 65536 < len ∨ z 12 4 ∨ z 24 8 ∨ z 48 16 then some 3
  else if BitVec.ofNat 64 (num b 0 8) ≠ e.ctr then some 2
  else none

/-- The initial vector of a commit: NONCE, then CTR, each with its most significant byte first (DEDUCED, log entry 15). -/
def sealedIv (e : SealSt) (b : List Byte) : List Nat := beBytes 4 e.nonce.toNat ++ beBytes 8 (num b 0 8)

/-- The plaintext of the bytes staged for a commit, when its tag matches; a slot that holds no key opens nothing. -/
def Dev.unseal (d : Dev) (port st : Nat) (e : SealSt) (b : List Byte) : Option (List Byte) :=
  match d.host.ioKeys.find (64 * port + e.keyix.toNat) with
  | none => none
  | some k =>
    let staged : Tbl Byte := d.host.stage.get [] (16 * port + st)
    let key := (leBytes 32 (Config.sealedKey k).toNat).map BitVec.toNat
    let ct := (List.range (num b 8 4)).map fun i => (staged.get 0 i).toNat
    if (gcmTag key (sealedIv e b) ((b.take 32).map BitVec.toNat) ct).map (BitVec.ofNat 8) = (b.drop 32).take 16 then
      some ((gcmText key (sealedIv e b) ct).map (BitVec.ofNat 8))
    else none

/-- A commit's status recorded; a failure is reported. -/
def Dev.sealStatus (d : Dev) (port st : Nat) (e : SealSt) (ctr : Word) (status : Nat) : Dev :=
  let d := d.modSeal port st fun e => { e with last := BitVec.ofNat 8 status }
  if status = 0 then d else d.postFault e.tid.toNat [0x0C, BitVec.ofNat 64 (st + 256 * status), ctr]

/-- SEALED_COMMIT: the next commit of a port. -/
def execSealedCommit (port : Nat) (s : State) : Res :=
  match s.forwardAt port with
  | none => .next s
  | some a =>
    if !a.isCommit then .next s
    else
      let st := (a.q.off - 2 ^ 20) / 64
      let e := s.dev.host.ecs.get {} (16 * port + st)
      let ctr : Word := BitVec.ofNat 64 (num a.data 0 8)
      let fail := fun (d : Dev) (status : Nat) => { s with dev := (d.sealStatus port st e ctr status).dropArrival port a.id }
      if !e.v || e.tid.toNat != s.dev.fnTenant port a.q.fn then .next { s with dev := s.dev.dropArrival port a.id }
      else
        match badCommit e a.q a.data with
        | some status => .next (fail s.dev status)
        | none =>
          let len := num a.data 8 4
          match s.dev.unseal port st e a.data with
          | none => .next (fail s.dev 1)
          | some pt =>
            match Dev.partsAt s.mem s.dev e.tid.toNat .store (e.dst + BitVec.ofNat 64 (num a.data 16 8)) len with
            | (.error _, d) => .next (fail d 4)
            | (.ok ps, d) =>
              let d := d.modSeal port st fun e => { e with ctr := e.ctr + 1, nacc := e.nacc + 1 }
              let d := (d.sealStatus port st e ctr 0).modArrival port a.id fun a =>
                { a with gone := true, cnt := if e.cnt = 0 then none else some (e.tid.toNat, e.cnt) }
              .next { s with dev := d.sendParts port a.id e.tid.toNat pt ps }

/-! ### Outbound reads (R452) -/

/-- HOST_READ_TIMEOUT: the read returns zero, with LINKERR. -/
def execHostReadTimeout (c seq n : Nat) (s : State) : Res :=
  match s.dev.casts.find c with
  | none => .next s
  | some k =>
    match k.th.blk with
    | none => .next s
    | some b =>
      if b.seq ≠ seq then .next s
      else
        match b.slots[n]?.bind Slot.load with
        | none => .next s
        | some l => .next { s with dev := (s.dev.postLinkErr k.tenant l.pa false false).post 0 (.slotResultDeliver c seq n (some 0)) }

/-! ### Peers and links (R452, R473 to R475) -/

/-- PEER_INBOUND_REQUEST: a peer's request at a local address, checked under its tenant. -/
def execPeerInboundRequest (tenant pa : Nat) (write : Bool) (len : Nat) (data : List Byte) (atom : Option AtomKind) (tag : Nat) (s : State) : Res :=
  let pa := pa % 2 ^ 40
  match atom with
  | some kind =>
    let r : AtomReq := { agent := .peer, requester := 10498, tenant := tenant, pa := pa, rpl := none, size := if len = 8 then .b8 else .b4
                         kind := kind, order := .ar, scope := .domain, reply := .outside tag }
    .next { s with dev := s.dev.post 0 (.seAtomic r) }
  | none =>
    if write then
      .next (s.perform { agent := .peer, tenant := tenant, pa := pa, write := true, len := data.length, data := data, rpl := none, id := 0 })
    else
      let r := Dev.read s.mem s.dev tenant pa len
      .next { s with dev := r.2.send (.data tag r.1) }

/-- PCIE_LINK_STATE_CHANGE. -/
def execPcieLinkStateChange (port : Nat) (up : Bool) (s : State) : Res :=
  .next { s with dev := { s.dev with pcieUp := if up then s.dev.pcieUp ||| BitVec.ofNat 2 (2 ^ port) else s.dev.pcieUp &&& ~~~ BitVec.ofNat 2 (2 ^ port) } }

/-- UALINK_PORT_STATE_CHANGE. -/
def execUalinkPortStateChange (port : Nat) (up : Bool) (s : State) : Res :=
  .next { s with dev := { s.dev with ualUp := if up then s.dev.ualUp ||| BitVec.ofNat 8 (2 ^ port) else s.dev.ualUp &&& ~~~ BitVec.ofNat 8 (2 ^ port) } }

/-! ### TDISP (R453) -/

/-- TDISP_INTERFACE_REQUEST: CONFIG_UNLOCKED to CONFIG_LOCKED, and CONFIG_LOCKED to RUN. -/
def execTdispInterfaceRequest (port fn : Nat) (run : Bool) (s : State) : Res :=
  let st := tdst (s.dev.fncfgOf port fn)
  if fn = 0 ∨ 64 ≤ fn ∨ 2 ≤ port then .next s
  else if !run && st == 0 then .next { s with dev := s.dev.setTdst port fn 1 }
  else if run && st == 1 then .next { s with dev := s.dev.setTdst port fn 2 }
  else .next s

/-- TDISP_STOP_INTERFACE. -/
def execTdispStopInterface (port fn : Nat) (s : State) : Res :=
  if fn = 0 ∨ 64 ≤ fn ∨ 2 ≤ port then .next s else .next { s with dev := s.dev.setTdst port fn 0 }

end Sys2Proof.Machine
end

