-- ==== Sys2Proof/Machine/Power.lean ====
section
/-!
DEFINITION. The boot sequence and recovery (R476 to R482, R486), the SPDM responder (R453, R483, R484), and the package governor (R436,
R437, R487 to R489).
-/
namespace Sys2Proof.Machine

/-! ### Verification and release (R476) -/

/-- The outcome of the next check of an image. -/
def Dev.verify (d : Dev) : Bool × Dev := (Config.verifies d.boot.checks, d.modBoot fun b => { b with checks := b.checks + 1 })

/-- Steps of the sequence as `boot.step` counts them: 0 to 4 are the spec's steps 1 to 5, 5 is its step 6, which firmware performs;
6 is recovery, 7 the package held in reset. -/
def bootHeld : Nat := 7
def bootRecovery : Nat := 6

/-- POWER_ON: the trust die verifies its own firmware. -/
def execPowerOn (s : State) : Res :=
  if s.dev.boot.step ≠ 0 then .next s
  else
    let r := s.dev.verify
    .next { s with dev := r.2.modBoot fun b => { b with step := if r.1 then 1 else bootHeld } }

/-- An I/O die released: it is present, and IOD0's clock starts the governor's windows (R488, R489). -/
def Dev.releaseIod (d : Dev) (i : Nat) : Dev :=
  let d := { d with diepres := d.diepres ||| BitVec.ofNat 10 (2 ^ (8 + i)) }
  let d := d.modBoot fun b => { b with iodrel := b.iodrel ||| BitVec.ofNat 2 (2 ^ i) }
  let d := d.modHost fun h => { h with qageAt := h.qageAt.put i (d.now + 1500 * max 1 (field h.qsch 8 16)) }
  if i = 0 then d.modSch fun x => { x with winAt := d.now + 1500000, fastAt := d.now + 150000 } else d

/-- IOD_VERIFY_RELEASE: the I/O dies are released, or IOD0 alone in recovery (R481). -/
def execIodVerifyRelease (s : State) : Res :=
  if s.dev.boot.step ≠ 1 then .next s
  else
    let r := s.dev.verify
    if r.1 then
      let d := r.2.releaseIod 0
      let d := if s.dev.part = .eos8 then d.releaseIod 1 else d
      .next { s with dev := d.modBoot fun b => { b with step := 2 } }
    else .next { s with dev := (r.2.releaseIod 0).modBoot fun b => { b with step := bootRecovery, recov := true } }

/-! ### Links (R477, R478) -/

/-- A pair of dies as a number; compute dies are 0 to 7, the I/O dies 8 and 9. -/
def pairNo (a b : Nat) : Nat := 16 * min a b + max a b

/-- Adjacent compute dies, by the lower and then the higher index. -/
def Part.dieLinks (p : Part) : List Nat :=
  (List.range 8).flatMap fun a => ((List.range 8).filter fun b =>
    p.hasDie a && p.hasDie b && ((b == a + 1 && a % 4 != 3) || b == a + 4)).map fun b => pairNo a b

/-- The links in the order of training: IOD0's, IOD1's, those between compute dies. -/
def Part.links (p : Part) : List Nat :=
  let iod := fun i => (Config.iodLinks i).map fun x => pairNo (8 + i) x
  iod 0 ++ (if p = .eos8 then iod 1 else []) ++ p.dieLinks

/-- The dies reached from those of a list in one more step over the trained links. -/
def reachStep (links : List Nat) (from_ : List Nat) : List Nat :=
  from_ ++ (List.range 10).filter fun b => !from_.contains b && from_.any fun a => links.contains (pairNo a b)

/-- The dies that a path of trained links joins to IOD0. -/
def reached (links : List Nat) : List Nat := (List.range 10).foldl (fun l _ => reachStep links l) [8]

/-- UCIE_TRAINING: every link is trained in order; compute dies that no path reaches fail. -/
def execUcieTraining (s : State) : Res :=
  if s.dev.boot.step ≠ 2 then .next s
  else
    let links := (s.dev.part.links.zipIdx.filter fun x => Config.linkTrains x.2).map Prod.fst
    let lost := (List.range 8).filter fun die => s.dev.part.hasDie die && !(reached links).contains die
    .next { s with dev := s.dev.modBoot fun b =>
      { b with step := 3, die := 0, links := links, cdfail := lost.foldl (fun f die => f ||| BitVec.ofNat 8 (2 ^ die)) b.cdfail } }

/-! ### Compute dies (R476, R482) -/

/-- The blocks of a die that its fuses do not mark harvested; at most two are (R3). -/
def presentBlocks (die : Nat) : BitVec 36 :=
  let harvested := ((List.range 36).filter fun b => !bitAt (Config.blocksPresent die) b).take 2
  harvested.foldl (fun w b => w &&& ~~~ BitVec.ofNat 36 (2 ^ b)) (~~~ 0)

/-- A compute die released: it is present, its clock starts, and no other failure stands. -/
def Dev.releaseCd (d : Dev) (die : Nat) : Dev :=
  { (d.modBoot fun b => { b with cdrel := b.cdrel ||| BitVec.ofNat 8 (2 ^ die) }) with
    diepres := d.diepres ||| BitVec.ofNat 10 (2 ^ die)
    blkpres := d.blkpres.put die (presentBlocks die)
    relClock := d.relClock.put die d.now }

/-- The seams that are dead: both dies are released and the link between them did not train (R478). -/
def Dev.deadSeams (d : Dev) : BitVec 10 :=
  let dead := fun (a b : Nat) => bitAt d.boot.cdrel a && bitAt d.boot.cdrel b && !d.boot.links.contains (pairNo a b)
  let v := [(0, 1), (1, 2), (2, 3), (4, 5), (5, 6), (6, 7), (0, 4), (1, 5), (2, 6), (3, 7)]
  BitVec.ofNat 10 ((v.zipIdx.filter fun x => dead x.1.1 x.1.2).map fun x => 2 ^ x.2).sum

/-- CD_VERIFY_RELEASE: the next compute die, in ascending index; after the last one dead seams are known. -/
def execCdVerifyRelease (s : State) : Res :=
  if s.dev.boot.step ≠ 3 then .next s
  else
    let die := s.dev.boot.die
    let d := s.dev.modBoot fun b => { b with die := die + 1 }
    if 8 ≤ die then .next { s with dev := { (d.modBoot fun b => { b with step := 4 }) with seamdn := d.deadSeams } }
    else if !d.part.hasDie die || bitAt d.boot.cdfail die then .next { s with dev := d }
    else
      let r := d.verify
      if r.1 then .next { s with dev := r.2.releaseCd die }
      else .next { s with dev := r.2.modBoot fun b => { b with cdfail := b.cdfail ||| BitVec.ofNat 8 (2 ^ die) } }

/-- BOOT_KEY_GEN: HBM slot 0 of every released compute die gets a fresh key; save images of earlier boots are worth nothing (R486). -/
def execBootKeyGen (s : State) : Res :=
  if s.dev.boot.step ≠ 4 then .next s
  else
    let r := s.dev.freshKey
    let d := (r.2.setHbmKey 0 (some r.1)).modPl fun p => { p with saves := [] }
    .next { s with dev := d.modBoot fun b => { b with step := 5, keys := true } }

/-! ### Recovery (R481) -/

/-- The device after a full reset: what the outside world and the storage keep stays. -/
def Dev.fullReset (d : Dev) (image : List Byte) : Dev :=
  { now := d.now, free := d.free, part := d.part, pcieUp := d.pcieUp, ualUp := d.ualUp, lineKey := d.lineKey, outbox := d.outbox
    host := { nextKey := d.host.nextKey }, boot := { checks := d.boot.checks, image := some image, since := d.now } }

/-- RECOVERY_IMAGE_WRITE: the trust die verifies the image, and a full reset follows. -/
def execRecoveryImageWrite (port : Nat) (image : List Byte) (s : State) : Res :=
  if !s.dev.boot.recov || port != 0 then .next s
  else
    let r := s.dev.verify
    .next { s with dev := if r.1 then r.2.fullReset image else r.2 }

/-! ### The SPDM responder (R453, R483, R484) -/

/-- The code of a request, for its response. -/
def spdmCode (q : SpdmReq) : Nat :=
  match q with
  | .getVersion => 0
  | .getCapabilities => 1
  | .negotiateAlgorithms => 2
  | .getDigests => 3
  | .getCertificate => 4
  | .challenge => 5
  | .getMeasurements => 6
  | .keyExchange _ => 7
  | .finish _ => 8
  | .endSession _ => 9
  | .sealedKey _ _ => 10
  | .ideKey _ _ _ _ => 11

/-- What measurement block 13 takes in. -/
def Dev.measured13 (d : Dev) : List Nat :=
  d.diepres.toNat :: (List.range 8).map (fun die => (d.blkpres.get 0 die).toNat) ++ (List.range 4).map fun i => (d.featacc.word i).toNat

/-- What a request leaves behind: sessions, the key a session holds, the IDE streams' keys. -/
def Dev.spdmEffect (d : Dev) (q : SpdmReq) : Dev :=
  d.modHost fun h =>
    match q with
    | .keyExchange sid => { h with sessions := h.sessions.put sid (false, none) }
    | .finish sid => { h with sessions := h.sessions.upd sid fun x => (true, x.2) }
    | .endSession sid => { h with sessions := h.sessions.del sid }
    | .sealedKey sid key => { h with sessions := h.sessions.upd sid fun x => if x.1 then (true, some key) else x }
    | .ideKey port stream fn key =>
      { h with bound := if 8 ≤ stream then h.bound else (stream, port, fn, key) :: h.bound.filter fun b => !(b.1 == stream && b.2.1 == port) }
    | _ => h

/-- SPDM_MESSAGE: the responder answers. -/
def execSpdmMessage (q : SpdmReq) (s : State) : Res :=
  let d := s.dev.spdmEffect q
  .next { s with dev := { d with outbox := d.outbox ++ [OutMsg.spdm (Config.spdmReply d.free (spdmCode q :: d.measured13))] }.tickFree }

/-! ### The governor (R436, R437, R488, R489) -/

/-- The refreshed balance of an entry (R436). -/
def refreshed (gscale : Nat) (eallow : Nat) (bal : Int) : Int := min bal 0 + Int.ofNat (eallow * 1000000 * gscale / 256)

/-- Energy used outside tasks in the window that ends is debited (R437). -/
def Dev.debitOutside (d : Dev) : Dev :=
  let d := d.casts.foldl (fun d e => d.settleUsage e.1) d
  (d.sch.debt.foldl (fun d e => d.addBalance e.1 (- Int.ofNat e.2)) d).modSch fun x => { x with debt := [] }

/-- GSCALE after a window of `e` picojoules (R488). -/
def nextScale (gscale limit e : Nat) : Nat :=
  if limit * 1000000000 < e then gscale * limit * 1000000000 / e else min 256 (gscale + 8)

/-- ENERGY_WINDOW_END. -/
def execEnergyWindowEnd (s : State) : Res :=
  let d := s.dev.debitOutside
  let e := Config.packageEnergy d.now - Config.packageEnergy (d.now - 1500000)
  let g := nextScale d.sch.gscale d.sch.pwrlim e
  let fresh : Nat → Int → Int := fun i b =>
    match d.sch.eallow.find i with
    | some a => if a = 0xFFFFFFFF then b else refreshed g a.toNat b
    | none => b
  let ebal : Tbl Int := (List.range 64).foldl (fun t i => t.set 0 i (fresh i (d.sch.ebal.get 0 i))) []
  .next { s with dev := d.modSch fun x => { x with gscale := g, pmw := e / 100000000, winAt := d.now + 1500000, ebal := ebal } }

/-- The fast limiter after 100 µs of `e` picojoules (R489). -/
def nextFast (fast : Bool) (limit e : Nat) : Bool :=
  if 11 * limit * 100000000 < 10 * e then true else if e ≤ limit * 100000000 then false else fast

/-- FAST_LIMITER_SAMPLE. -/
def execFastLimiterSample (s : State) : Res :=
  let d := s.dev
  let e := Config.packageEnergy d.now - Config.packageEnergy (d.now - 150000)
  .next { s with dev := d.modSch fun x => { x with fast := nextFast x.fast x.pwrlim e, fastAt := d.now + 150000 } }

end Sys2Proof.Machine
end

