-- ==== Sys2Proof/Machine/Scalar.lean ====
section
/-!
DEFINITION. Integer arithmetic, logic, compare and bit operations, their immediate forms, and moves and constants (R124 to
R130). Every one is of class V.
-/
namespace Sys2Proof.Machine

/-! ### Results -/

/-- The high 64 bits of an exact product (R124). -/
def highHalf (p : Int) : Word := BitVec.ofInt 64 (p / 2 ^ 64)

/-- The quotients and remainders of R125. -/
def divSigned (a b : Word) : Word := if b = 0 then -1 else BitVec.ofInt 64 (a.toInt.tdiv b.toInt)
def divUnsigned (a b : Word) : Word := if b = 0 then -1 else BitVec.ofNat 64 (a.toNat / b.toNat)
def remSigned (a b : Word) : Word := if b = 0 then a else BitVec.ofInt 64 (a.toInt.tmod b.toInt)
def remUnsigned (a b : Word) : Word := if b = 0 then a else BitVec.ofNat 64 (a.toNat % b.toNat)

/-- A shift count: B[5:0] (R124). -/
def shiftCount (b : Word) : Nat := field b 0 6

/-- Leading zero bits, 0 to 64 (R124). -/
def clzOf (a : Word) : Nat := if a = 0 then 64 else 63 - a.toNat.log2

/-- Trailing zero bits among the lowest `n` from bit `i` on. -/
def trailing (a : Word) : Nat → Nat → Nat
  | _, 0 => 0
  | i, n + 1 => if bitAt a i then 0 else 1 + trailing a (i + 1) n

/-- Trailing zero bits, 0 to 64 (R124). -/
def ctzOf (a : Word) : Nat := trailing a 0 64

/-- One bits among the lowest `n`. -/
def ones (a : Word) : Nat → Nat
  | 0 => 0
  | n + 1 => ones a n + bit (bitAt a n)

/-- The field of a control word: its least significant bit and its width, cut at bit 63 (R127). -/
def fieldLsb (ctl : Word) : Nat := field ctl 0 6
def fieldWidth (ctl : Word) : Nat := min (field ctl 8 6 + 1) (64 - fieldLsb ctl)

/-- A mask of `w` ones. -/
def maskOf (w : Nat) : Word := BitVec.ofNat 64 (2 ^ w - 1)

/-- BFX.Z (R127). -/
def bfxZero (a ctl : Word) : Word := (a >>> fieldLsb ctl) &&& maskOf (fieldWidth ctl)

/-- BFX.S (R127). -/
def bfxSigned (a ctl : Word) : Word :=
  if bitAt (bfxZero a ctl) (fieldWidth ctl - 1) then bfxZero a ctl - ((1 : Word) <<< fieldWidth ctl) else bfxZero a ctl

/-- BFI: base A, value B, control C (R127). -/
def bfiOf (a b ctl : Word) : Word :=
  (a &&& ~~~ (maskOf (fieldWidth ctl) <<< fieldLsb ctl))
    ||| ((b <<< fieldLsb ctl) &&& (maskOf (fieldWidth ctl) <<< fieldLsb ctl))

/-- EXT (R128). -/
def extOf (k : ExtKind) (a : Word) : Word :=
  match k with
  | .s8 => (a.setWidth 8).signExtend 64
  | .s16 => (a.setWidth 16).signExtend 64
  | .s32 => (a.setWidth 32).signExtend 64
  | .z8 => (a.setWidth 8).setWidth 64
  | .z16 => (a.setWidth 16).setWidth 64
  | .z32 => (a.setWidth 32).setWidth 64

/-- sext(IMM13) (R100, R129). -/
def sext13 (i : BitVec 13) : Word := i.signExtend 64

/-! ### The two-target forms (R124) -/

def execAdd (p : Pred) (b a : Target) (s : State) : Res := fireValue (.add p b a) 1 (fun x y _ => x + y) s

def execSub (p : Pred) (b a : Target) (s : State) : Res := fireValue (.sub p b a) 1 (fun x y _ => x - y) s

def execMul (p : Pred) (b a : Target) (s : State) : Res := fireValue (.mul p b a) 3 (fun x y _ => x * y) s

def execMulhS (p : Pred) (b a : Target) (s : State) : Res := fireValue (.mulhS p b a) 3 (fun x y _ => highHalf (x.toInt * y.toInt)) s

def execMulhU (p : Pred) (b a : Target) (s : State) : Res := fireValue (.mulhU p b a) 3 (fun x y _ => highHalf ((x.toNat : Int) * y.toNat)) s

def execMulhSu (p : Pred) (b a : Target) (s : State) : Res := fireValue (.mulhSu p b a) 3 (fun x y _ => highHalf (x.toInt * y.toNat)) s

def execDivS (p : Pred) (b a : Target) (s : State) : Res := fireValue (.divS p b a) 34 (fun x y _ => divSigned x y) s

def execDivU (p : Pred) (b a : Target) (s : State) : Res := fireValue (.divU p b a) 34 (fun x y _ => divUnsigned x y) s

def execRemS (p : Pred) (b a : Target) (s : State) : Res := fireValue (.remS p b a) 34 (fun x y _ => remSigned x y) s

def execRemU (p : Pred) (b a : Target) (s : State) : Res := fireValue (.remU p b a) 34 (fun x y _ => remUnsigned x y) s

def execMinS (p : Pred) (b a : Target) (s : State) : Res := fireValue (.minS p b a) 1 (fun x y _ => if x.slt y then x else y) s

def execMinU (p : Pred) (b a : Target) (s : State) : Res := fireValue (.minU p b a) 1 (fun x y _ => if x.ult y then x else y) s

def execMaxS (p : Pred) (b a : Target) (s : State) : Res := fireValue (.maxS p b a) 1 (fun x y _ => if x.slt y then y else x) s

def execMaxU (p : Pred) (b a : Target) (s : State) : Res := fireValue (.maxU p b a) 1 (fun x y _ => if x.ult y then y else x) s

def execMadd (p : Pred) (b a : Target) (s : State) : Res := fireValue (.madd p b a) 3 (fun x y z => x * y + z) s

def execAddsh (p : Pred) (n : BitVec 4) (b a : Target) (s : State) : Res :=
  fireValue (.addsh p n b a) 1 (fun x y _ => x + (y <<< n.toNat)) s

def execAnd (p : Pred) (b a : Target) (s : State) : Res := fireValue (.and p b a) 1 (fun x y _ => x &&& y) s

def execOr (p : Pred) (b a : Target) (s : State) : Res := fireValue (.or p b a) 1 (fun x y _ => x ||| y) s

def execXor (p : Pred) (b a : Target) (s : State) : Res := fireValue (.xor p b a) 1 (fun x y _ => x ^^^ y) s

def execAndn (p : Pred) (b a : Target) (s : State) : Res := fireValue (.andn p b a) 1 (fun x y _ => x &&& ~~~ y) s

def execShl (p : Pred) (b a : Target) (s : State) : Res := fireValue (.shl p b a) 1 (fun x y _ => x <<< shiftCount y) s

def execShr (p : Pred) (b a : Target) (s : State) : Res := fireValue (.shr p b a) 1 (fun x y _ => x >>> shiftCount y) s

def execSar (p : Pred) (b a : Target) (s : State) : Res := fireValue (.sar p b a) 1 (fun x y _ => x.sshiftRight (shiftCount y)) s

def execCmp (p : Pred) (cc : Cond) (b a : Target) (s : State) : Res :=
  fireValue (.cmp p cc b a) 1 (fun x y _ => boolWord (Cond.holds cc x y)) s

def execTstZ (p : Pred) (b a : Target) (s : State) : Res := fireValue (.tstZ p b a) 1 (fun x y _ => boolWord ((x &&& y) == 0)) s

def execTstNz (p : Pred) (b a : Target) (s : State) : Res := fireValue (.tstNz p b a) 1 (fun x y _ => boolWord ((x &&& y) != 0)) s

def execSel (p : Pred) (b a : Target) (s : State) : Res := fireValue (.sel p b a) 1 (fun x y z => if bitAt x 0 then y else z) s

def execClz (p : Pred) (b a : Target) (s : State) : Res := fireValue (.clz p b a) 1 (fun x _ _ => BitVec.ofNat 64 (clzOf x)) s

def execCtz (p : Pred) (b a : Target) (s : State) : Res := fireValue (.ctz p b a) 1 (fun x _ _ => BitVec.ofNat 64 (ctzOf x)) s

def execPopc (p : Pred) (b a : Target) (s : State) : Res := fireValue (.popc p b a) 1 (fun x _ _ => BitVec.ofNat 64 (ones x 64)) s

def execBfxZ (p : Pred) (b a : Target) (s : State) : Res := fireValue (.bfxZ p b a) 1 (fun x y _ => bfxZero x y) s

def execBfxS (p : Pred) (b a : Target) (s : State) : Res := fireValue (.bfxS p b a) 1 (fun x y _ => bfxSigned x y) s

def execBfi (p : Pred) (b a : Target) (s : State) : Res := fireValue (.bfi p b a) 1 (fun x y z => bfiOf x y z) s

def execExt (p : Pred) (k : ExtKind) (b a : Target) (s : State) : Res :=
  fireValue (.ext p k b a) 1 (fun x _ _ => extOf k x) s

/-! ### The immediate forms (R129) -/

def execAddi (p : Pred) (i : BitVec 13) (t : Target) (s : State) : Res :=
  fireValue (.addi p i t) 1 (fun x _ _ => x + sext13 i) s

def execMuli (p : Pred) (i : BitVec 13) (t : Target) (s : State) : Res :=
  fireValue (.muli p i t) 3 (fun x _ _ => x * sext13 i) s

def execAndi (p : Pred) (i : BitVec 13) (t : Target) (s : State) : Res :=
  fireValue (.andi p i t) 1 (fun x _ _ => x &&& sext13 i) s

def execOri (p : Pred) (i : BitVec 13) (t : Target) (s : State) : Res :=
  fireValue (.ori p i t) 1 (fun x _ _ => x ||| sext13 i) s

def execXori (p : Pred) (i : BitVec 13) (t : Target) (s : State) : Res :=
  fireValue (.xori p i t) 1 (fun x _ _ => x ^^^ sext13 i) s

def execCmpiEq (p : Pred) (i : BitVec 13) (t : Target) (s : State) : Res :=
  fireValue (.cmpiEq p i t) 1 (fun x _ _ => boolWord (x == sext13 i)) s

def execCmpiNe (p : Pred) (i : BitVec 13) (t : Target) (s : State) : Res :=
  fireValue (.cmpiNe p i t) 1 (fun x _ _ => boolWord (x != sext13 i)) s

def execCmpiLt (p : Pred) (i : BitVec 13) (t : Target) (s : State) : Res :=
  fireValue (.cmpiLt p i t) 1 (fun x _ _ => boolWord (x.slt (sext13 i))) s

def execCmpiGe (p : Pred) (i : BitVec 13) (t : Target) (s : State) : Res :=
  fireValue (.cmpiGe p i t) 1 (fun x _ _ => boolWord ((sext13 i).sle x)) s

def execCmpiLtu (p : Pred) (i : BitVec 13) (t : Target) (s : State) : Res :=
  fireValue (.cmpiLtu p i t) 1 (fun x _ _ => boolWord (x.ult (sext13 i))) s

def execCmpiGeu (p : Pred) (i : BitVec 13) (t : Target) (s : State) : Res :=
  fireValue (.cmpiGeu p i t) 1 (fun x _ _ => boolWord ((sext13 i).ule x)) s

def execShli (p : Pred) (n : BitVec 6) (t : Target) (s : State) : Res :=
  fireValue (.shli p n t) 1 (fun x _ _ => x <<< n.toNat) s

def execShri (p : Pred) (n : BitVec 6) (t : Target) (s : State) : Res :=
  fireValue (.shri p n t) 1 (fun x _ _ => x >>> n.toNat) s

def execSari (p : Pred) (n : BitVec 6) (t : Target) (s : State) : Res :=
  fireValue (.sari p n t) 1 (fun x _ _ => x.sshiftRight n.toNat) s

/-! ### Moves and constants (R130) -/

/-- GET: the register as it stood when the block began (R90, R102). No register that a block reads is written while the block
runs: pending ones hold it back (R94), and its own writes are made at commit. -/
def execGet (r : BitVec 6) (b a : Target) (s : State) : Res :=
  fire (.get r b a) s fun d sh => d.deliver sh 1 (some (sh.k.th.getReg r.toNat))

/-- The literal words of a LIT at slot `n`, as they stand after patching (R103). -/
def Block.literal (b : Block) (n : Nat) (c : LitCount) : Word :=
  match c with
  | .one => ((b.slots[n + 1]?.map Slot.word).getD 0).signExtend 64
  | .two => ((b.slots[n + 2]?.map Slot.word).getD 0 ++ (b.slots[n + 1]?.map Slot.word).getD 0 : BitVec 64)

def execLit (c : LitCount) (b a : Target) (s : State) : Res :=
  fire (.lit c b a) s fun d sh => d.deliver sh 1 (some (sh.blk.literal sh.n c))

def execMov (p : Pred) (b a : Target) (s : State) : Res := fireValue (.mov p b a) 1 (fun x _ _ => x) s

def execMovi (p : Pred) (i : BitVec 13) (t : Target) (s : State) : Res := fireValue (.movi p i t) 1 (fun _ _ _ => sext13 i) s

/-- NULL delivers NULL when it executes, too. -/
def execNull (p : Pred) (b a : Target) (s : State) : Res :=
  fire (.null p b a) s fun d sh => d.deliver sh 1 none

/-- ADR: the address of the current block plus four times the immediate. -/
def execAdr (p : Pred) (i : BitVec 13) (t : Target) (s : State) : Res :=
  fire (.adr p i t) s fun d sh => d.deliver sh 1 (some (sh.blk.addr + sext13 i * 4))

end Sys2Proof.Machine
end

