-- ==== Sys2Proof/Machine/Dispatch.lean ====
section
/-!
DEFINITION. The meaning of each instruction and step: one arm per constructor, in the order of Syntax.lean.
-/
namespace Sys2Proof.Machine

def exec (i : Instr) (s : State) : Host.Outcome State Fault Refusal :=
  match i with
  | .add p b a => Sys2Proof.Machine.execAdd p b a s
  | .sub p b a => Sys2Proof.Machine.execSub p b a s
  | .mul p b a => Sys2Proof.Machine.execMul p b a s
  | .mulhS p b a => Sys2Proof.Machine.execMulhS p b a s
  | .mulhU p b a => Sys2Proof.Machine.execMulhU p b a s
  | .mulhSu p b a => Sys2Proof.Machine.execMulhSu p b a s
  | .divS p b a => Sys2Proof.Machine.execDivS p b a s
  | .divU p b a => Sys2Proof.Machine.execDivU p b a s
  | .remS p b a => Sys2Proof.Machine.execRemS p b a s
  | .remU p b a => Sys2Proof.Machine.execRemU p b a s
  | .minS p b a => Sys2Proof.Machine.execMinS p b a s
  | .minU p b a => Sys2Proof.Machine.execMinU p b a s
  | .maxS p b a => Sys2Proof.Machine.execMaxS p b a s
  | .maxU p b a => Sys2Proof.Machine.execMaxU p b a s
  | .madd p b a => Sys2Proof.Machine.execMadd p b a s
  | .addsh p n b a => Sys2Proof.Machine.execAddsh p n b a s
  | .and p b a => Sys2Proof.Machine.execAnd p b a s
  | .or p b a => Sys2Proof.Machine.execOr p b a s
  | .xor p b a => Sys2Proof.Machine.execXor p b a s
  | .andn p b a => Sys2Proof.Machine.execAndn p b a s
  | .shl p b a => Sys2Proof.Machine.execShl p b a s
  | .shr p b a => Sys2Proof.Machine.execShr p b a s
  | .sar p b a => Sys2Proof.Machine.execSar p b a s
  | .cmp p cc b a => Sys2Proof.Machine.execCmp p cc b a s
  | .tstZ p b a => Sys2Proof.Machine.execTstZ p b a s
  | .tstNz p b a => Sys2Proof.Machine.execTstNz p b a s
  | .sel p b a => Sys2Proof.Machine.execSel p b a s
  | .clz p b a => Sys2Proof.Machine.execClz p b a s
  | .ctz p b a => Sys2Proof.Machine.execCtz p b a s
  | .popc p b a => Sys2Proof.Machine.execPopc p b a s
  | .bfxZ p b a => Sys2Proof.Machine.execBfxZ p b a s
  | .bfxS p b a => Sys2Proof.Machine.execBfxS p b a s
  | .bfi p b a => Sys2Proof.Machine.execBfi p b a s
  | .ext p k b a => Sys2Proof.Machine.execExt p k b a s
  | .addi p im t => Sys2Proof.Machine.execAddi p im t s
  | .muli p im t => Sys2Proof.Machine.execMuli p im t s
  | .andi p im t => Sys2Proof.Machine.execAndi p im t s
  | .ori p im t => Sys2Proof.Machine.execOri p im t s
  | .xori p im t => Sys2Proof.Machine.execXori p im t s
  | .shli p n t => Sys2Proof.Machine.execShli p n t s
  | .shri p n t => Sys2Proof.Machine.execShri p n t s
  | .sari p n t => Sys2Proof.Machine.execSari p n t s
  | .cmpiEq p im t => Sys2Proof.Machine.execCmpiEq p im t s
  | .cmpiNe p im t => Sys2Proof.Machine.execCmpiNe p im t s
  | .cmpiLt p im t => Sys2Proof.Machine.execCmpiLt p im t s
  | .cmpiGe p im t => Sys2Proof.Machine.execCmpiGe p im t s
  | .cmpiLtu p im t => Sys2Proof.Machine.execCmpiLtu p im t s
  | .cmpiGeu p im t => Sys2Proof.Machine.execCmpiGeu p im t s
  | .get r b a => Sys2Proof.Machine.execGet r b a s
  | .lit c b a => Sys2Proof.Machine.execLit c b a s
  | .mov p b a => Sys2Proof.Machine.execMov p b a s
  | .movi p im t => Sys2Proof.Machine.execMovi p im t s
  | .null p b a => Sys2Proof.Machine.execNull p b a s
  | .adr p im t => Sys2Proof.Machine.execAdr p im t s
  | .ldZ8 p im t => Sys2Proof.Machine.execLdZ8 p im t s
  | .ldS8 p im t => Sys2Proof.Machine.execLdS8 p im t s
  | .ldZ16 p im t => Sys2Proof.Machine.execLdZ16 p im t s
  | .ldS16 p im t => Sys2Proof.Machine.execLdS16 p im t s
  | .ldZ32 p im t => Sys2Proof.Machine.execLdZ32 p im t s
  | .ldS32 p im t => Sys2Proof.Machine.execLdS32 p im t s
  | .ld64 p im t => Sys2Proof.Machine.execLd64 p im t s
  | .ldx p k b a => Sys2Proof.Machine.execLdx p k b a s
  | .ldAcqZ32 p sc b a => Sys2Proof.Machine.execLdAcqZ32 p sc b a s
  | .ldAcq64 p sc b a => Sys2Proof.Machine.execLdAcq64 p sc b a s
  | .ldl p k b a => Sys2Proof.Machine.execLdl p k b a s
  | .st p z o => Sys2Proof.Machine.execSt p z o s
  | .stx p z => Sys2Proof.Machine.execStx p z s
  | .stRel p z sc => Sys2Proof.Machine.execStRel p z sc s
  | .stl p z => Sys2Proof.Machine.execStl p z s
  | .fenceAcq p sc => Sys2Proof.Machine.execFenceAcq p sc s
  | .fenceRel p sc => Sys2Proof.Machine.execFenceRel p sc s
  | .fenceAr p sc => Sys2Proof.Machine.execFenceAr p sc s
  | .br p o => Sys2Proof.Machine.execBr p o s
  | .brn p => Sys2Proof.Machine.execBrn p s
  | .bri p => Sys2Proof.Machine.execBri p s
  | .call p o => Sys2Proof.Machine.execCall p o s
  | .calli p => Sys2Proof.Machine.execCalli p s
  | .ret p => Sys2Proof.Machine.execRet p s
  | .brcT p o => Sys2Proof.Machine.execBrcT p o s
  | .brcF p o => Sys2Proof.Machine.execBrcF p o s
  | .strmGo p => Sys2Proof.Machine.execStrmGo p s
  | .strmPushData p ch => Sys2Proof.Machine.execStrmPushData p ch s
  | .strmPushIndex p ch => Sys2Proof.Machine.execStrmPushIndex p ch s
  | .strmPushStop p lvl ch => Sys2Proof.Machine.execStrmPushStop p lvl ch s
  | .strmPushDone p ch => Sys2Proof.Machine.execStrmPushDone p ch s
  | .strmPop p ch b a => Sys2Proof.Machine.execStrmPop p ch b a s
  | .argSet p ctx y x => Sys2Proof.Machine.execArgSet p ctx y x s
  | .ctxSw p ctx => Sys2Proof.Machine.execCtxSw p ctx s
  | .drain p => Sys2Proof.Machine.execDrain p s
  | .strmWait p => Sys2Proof.Machine.execStrmWait p s
  | .mxClaim p a => Sys2Proof.Machine.execMxClaim p a s
  | .mxRel p => Sys2Proof.Machine.execMxRel p s
  | .mxScale p => Sys2Proof.Machine.execMxScale p s
  | .mxStat p w a => Sys2Proof.Machine.execMxStat p w a s
  | .hndNew p a => Sys2Proof.Machine.execHndNew p a s
  | .hndGive p => Sys2Proof.Machine.execHndGive p s
  | .hndTake p a => Sys2Proof.Machine.execHndTake p a s
  | .hndDrop p => Sys2Proof.Machine.execHndDrop p s
  | .hndInfo p b a => Sys2Proof.Machine.execHndInfo p b a s
  | .portRes p act => Sys2Proof.Machine.execPortRes p act s
  | .grpNew p a => Sys2Proof.Machine.execGrpNew p a s
  | .grpJoin p a => Sys2Proof.Machine.execGrpJoin p a s
  | .grpLeave p => Sys2Proof.Machine.execGrpLeave p s
  | .grpFree p => Sys2Proof.Machine.execGrpFree p s
  | .grpBar p o sc => Sys2Proof.Machine.execGrpBar p o sc s
  | .grpMark p o sc => Sys2Proof.Machine.execGrpMark p o sc s
  | .waitBit p o sc => Sys2Proof.Machine.execWaitBit p o sc s
  | .waitBitAll p o sc => Sys2Proof.Machine.execWaitBitAll p o sc s
  | .waitTok p task mask => Sys2Proof.Machine.execWaitTok p task mask s
  | .cpOpen p a => Sys2Proof.Machine.execCpOpen p a s
  | .cpClose p => Sys2Proof.Machine.execCpClose p s
  | .cpPush p => Sys2Proof.Machine.execCpPush p s
  | .cpRes p act => Sys2Proof.Machine.execCpRes p act s
  | .cpBinit p => Sys2Proof.Machine.execCpBinit p s
  | .cpBarv p o sc => Sys2Proof.Machine.execCpBarv p o sc s
  | .cpBwait p o sc => Sys2Proof.Machine.execCpBwait p o sc s
  | .atomRlx p sc b a => Sys2Proof.Machine.execAtomRlx p sc b a s
  | .atomAcq p sc b a => Sys2Proof.Machine.execAtomAcq p sc b a s
  | .atomRel p sc b a => Sys2Proof.Machine.execAtomRel p sc b a s
  | .atomAr p sc b a => Sys2Proof.Machine.execAtomAr p sc b a s
  | .cas o p sc b a => Sys2Proof.Machine.execCas o p sc b a s
  | .red p z f o sc => Sys2Proof.Machine.execRed p z f o sc s
  | .cntInit p o sc => Sys2Proof.Machine.execCntInit p o sc s
  | .cntDec p o sc => Sys2Proof.Machine.execCntDec p o sc s
  | .cntWait p o sc => Sys2Proof.Machine.execCntWait p o sc s
  | .cntFree p => Sys2Proof.Machine.execCntFree p s
  | .taskPut p isLocal a => Sys2Proof.Machine.execTaskPut p isLocal a s
  | .taskSdef p a => Sys2Proof.Machine.execTaskSdef p a s
  | .taskReg p a => Sys2Proof.Machine.execTaskReg p a s
  | .taskUnreg p => Sys2Proof.Machine.execTaskUnreg p s
  | .taskInfo p a => Sys2Proof.Machine.execTaskInfo p a s
  | .plReq p a => Sys2Proof.Machine.execPlReq p a s
  | .leaseRel p => Sys2Proof.Machine.execLeaseRel p s
  | .trap p code => Sys2Proof.Machine.execTrap p code s
  | .eret p => Sys2Proof.Machine.execEret p s
  | .sysrd p r t => Sys2Proof.Machine.execSysrd p r t s
  | .syswr p r => Sys2Proof.Machine.execSyswr p r s
  | .feat p w t => Sys2Proof.Machine.execFeat p w t s
  | .halt p => Sys2Proof.Machine.execHalt p s
  | .nop p => Sys2Proof.Machine.execNop p s
  | .bkpt p code => Sys2Proof.Machine.execBkpt p code s
  | .yield p => Sys2Proof.Machine.execYield p s
  | .blockFetch cast => Sys2Proof.Machine.execBlockFetch cast s
  | .slotResultDeliver cast seq slot v => Sys2Proof.Machine.execSlotResultDeliver cast seq slot v s
  | .asyncCauseArrive cast cause => Sys2Proof.Machine.execAsyncCauseArrive cast cause s
  | .asyncTrapTake cast => Sys2Proof.Machine.execAsyncTrapTake cast s
  | .classDReply cast pid v0 v1 => Sys2Proof.Machine.execClassDReply cast pid v0 v1 s
  | .taskTokenStart cast => Sys2Proof.Machine.execTaskTokenStart cast s
  | .preemptHalt cast => Sys2Proof.Machine.execPreemptHalt cast s
  | .yieldPauseEnd cast => Sys2Proof.Machine.execYieldPauseEnd cast s
  | .rootDoneArrive cast => Sys2Proof.Machine.execRootDoneArrive cast s
  | .drainAppend cast => Sys2Proof.Machine.execDrainAppend cast s
  | .drainComplete cast => Sys2Proof.Machine.execDrainComplete cast s
  | .ctxSwComplete cast => Sys2Proof.Machine.execCtxSwComplete cast s
  | .tokenAccept cast dst t => Sys2Proof.Machine.execTokenAccept cast dst t s
  | .errorTokenForward cast site => Sys2Proof.Machine.execErrorTokenForward cast site s
  | .reconfAlign cast site => Sys2Proof.Machine.execReconfAlign cast site s
  | .drainAlign cast site => Sys2Proof.Machine.execDrainAlign cast site s
  | .selectorFire cast site => Sys2Proof.Machine.execSelectorFire cast site s
  | .pulseArrive cast site isDone child => Sys2Proof.Machine.execPulseArrive cast site isDone child s
  | .nodeIterationBegin cast site => Sys2Proof.Machine.execNodeIterationBegin cast site s
  | .argWriteArrive cast site ctx k => Sys2Proof.Machine.execArgWriteArrive cast site ctx k s
  | .sbHndNew cast pid site len => Sys2Proof.Machine.execSbHndNew cast pid site len s
  | .sbHndGive cast h => Sys2Proof.Machine.execSbHndGive cast h s
  | .sbHndTake cast pid h => Sys2Proof.Machine.execSbHndTake cast pid h s
  | .sbHndDrop cast h => Sys2Proof.Machine.execSbHndDrop cast h s
  | .sbFire cast site => Sys2Proof.Machine.execSbFire cast site s
  | .mloadReply cast site => Sys2Proof.Machine.execMloadReply cast site s
  | .cxFire cast site => Sys2Proof.Machine.execCxFire cast site s
  | .veFire cast site => Sys2Proof.Machine.execVeFire cast site s
  | .veDIntake cast site => Sys2Proof.Machine.execVeDIntake cast site s
  | .veSwap cast site => Sys2Proof.Machine.execVeSwap cast site s
  | .veConsumeAlone cast site p => Sys2Proof.Machine.execVeConsumeAlone cast site p s
  | .veAccFlush cast site => Sys2Proof.Machine.execVeAccFlush cast site s
  | .mxABeat cast site => Sys2Proof.Machine.execMxABeat cast site s
  | .mxBBeat cast site => Sys2Proof.Machine.execMxBBeat cast site s
  | .mxCommandTake cast site => Sys2Proof.Machine.execMxCommandTake cast site s
  | .mxCommandBegin cast site => Sys2Proof.Machine.execMxCommandBegin cast site s
  | .mxRowFire cast site => Sys2Proof.Machine.execMxRowFire cast site s
  | .mxDenseUpdate cast site => Sys2Proof.Machine.execMxDenseUpdate cast site s
  | .mxOutlierApply cast site => Sys2Proof.Machine.execMxOutlierApply cast site s
  | .mxReadBeat cast site => Sys2Proof.Machine.execMxReadBeat cast site s
  | .mxNoteEmit cast site => Sys2Proof.Machine.execMxNoteEmit cast site s
  | .mxSlotFree cast site slot => Sys2Proof.Machine.execMxSlotFree cast site slot s
  | .mxRelArrive cast site slot => Sys2Proof.Machine.execMxRelArrive cast site slot s
  | .mxClaimServe cast pid site claim => Sys2Proof.Machine.execMxClaimServe cast pid site claim s
  | .mxStatServe cast pid site form slot => Sys2Proof.Machine.execMxStatServe cast pid site form slot s
  | .mxScaleWrite cast site v => Sys2Proof.Machine.execMxScaleWrite cast site v s
  | .mxReconfAlign cast site => Sys2Proof.Machine.execMxReconfAlign cast site s
  | .soTokenCheck cast site p => Sys2Proof.Machine.execSoTokenCheck cast site p s
  | .soStep cast site => Sys2Proof.Machine.execSoStep cast site s
  | .copyChainBegin cast cix => Sys2Proof.Machine.execCopyChainBegin cast cix s
  | .copyRecordBegin cast cix => Sys2Proof.Machine.execCopyRecordBegin cast cix s
  | .copySector cast cix rec => Sys2Proof.Machine.execCopySector cast cix rec s
  | .copyRecordComplete cast cix rec => Sys2Proof.Machine.execCopyRecordComplete cast cix rec s
  | .barrierUpdate r => Sys2Proof.Machine.execBarrierUpdate r s
  | .seAtomic r => Sys2Proof.Machine.execSeAtomic r s
  | .seCntInit r n => Sys2Proof.Machine.execSeCntInit r n s
  | .seCntDec r d => Sys2Proof.Machine.execSeCntDec r d s
  | .seCntFree r => Sys2Proof.Machine.execSeCntFree r s
  | .seWaitRegister r => Sys2Proof.Machine.execSeWaitRegister r s
  | .seGrpNew r pid bmap nbits => Sys2Proof.Machine.execSeGrpNew r pid bmap nbits s
  | .seGrpJoin r pid h => Sys2Proof.Machine.execSeGrpJoin r pid h s
  | .seGrpLeave r h => Sys2Proof.Machine.execSeGrpLeave r h s
  | .seGrpFree r h => Sys2Proof.Machine.execSeGrpFree r h s
  | .seGrpBarArrive r h => Sys2Proof.Machine.execSeGrpBarArrive r h s
  | .seGrpMark r h bitIx o sc => Sys2Proof.Machine.execSeGrpMark r h bitIx o sc s
  | .seBitmapOr r tenant at_ group bitIx => Sys2Proof.Machine.execSeBitmapOr r tenant at_ group bitIx s
  | .seMarkReport group wordIx v => Sys2Proof.Machine.execSeMarkReport group wordIx v s
  | .seHoldRelease die entry => Sys2Proof.Machine.execSeHoldRelease die entry s
  | .placerBusyRetry iod qid index => Sys2Proof.Machine.execPlacerBusyRetry iod qid index s
  | .channelRequest r => Sys2Proof.Machine.execChannelRequest r s
  | .replicaStoreApply die page => Sys2Proof.Machine.execReplicaStoreApply die page s
  | .omapComplete die => Sys2Proof.Machine.execOmapComplete die s
  | .sepurgeComplete die => Sys2Proof.Machine.execSepurgeComplete die s
  | .rollRowFill cast => Sys2Proof.Machine.execRollRowFill cast s
  | .rollFinish cast => Sys2Proof.Machine.execRollFinish cast s
  | .haltRemoval cast => Sys2Proof.Machine.execHaltRemoval cast s
  | .inRingDeliver cast port => Sys2Proof.Machine.execInRingDeliver cast port s
  | .inRingTailPoll cast port => Sys2Proof.Machine.execInRingTailPoll cast port s
  | .outRingWrite cast port => Sys2Proof.Machine.execOutRingWrite cast port s
  | .outRingHeadPoll cast port => Sys2Proof.Machine.execOutRingHeadPoll cast port s
  | .castBindingTransfer cast port => Sys2Proof.Machine.execCastBindingTransfer cast port s
  | .dispatchTaskPut src tenant die rq => Sys2Proof.Machine.execDispatchTaskPut src tenant die rq s
  | .taskReady tenant pa => Sys2Proof.Machine.execTaskReady tenant pa s
  | .stagingAdmit tenant => Sys2Proof.Machine.execStagingAdmit tenant s
  | .stagingPiece task => Sys2Proof.Machine.execStagingPiece task s
  | .stagingEnd task => Sys2Proof.Machine.execStagingEnd task s
  | .taskDeliver cast => Sys2Proof.Machine.execTaskDeliver cast s
  | .taskSteal cast => Sys2Proof.Machine.execTaskSteal cast s
  | .taskComplete cast => Sys2Proof.Machine.execTaskComplete cast s
  | .ageingQuantum die => Sys2Proof.Machine.execAgeingQuantum die s
  | .variantSwitch cast => Sys2Proof.Machine.execVariantSwitch cast s
  | .wdog cast => Sys2Proof.Machine.execWdog cast s
  | .memtimeout tenant cast va requester => Sys2Proof.Machine.execMemtimeout tenant cast va requester s
  | .inboundWriteForward port => Sys2Proof.Machine.execInboundWriteForward port s
  | .hostReadTimeout cast seq slot => Sys2Proof.Machine.execHostReadTimeout cast seq slot s
  | .sealedCommit port => Sys2Proof.Machine.execSealedCommit port s
  | .doorbellKick port fn qid v => Sys2Proof.Machine.execDoorbellKick port fn qid v s
  | .packetFetch iod slot => Sys2Proof.Machine.execPacketFetch iod slot s
  | .packetIssue iod slot => Sys2Proof.Machine.execPacketIssue iod slot s
  | .packetComplete iod qid index => Sys2Proof.Machine.execPacketComplete iod qid index s
  | .firmwareQueueSchedule iod boundary => Sys2Proof.Machine.execFirmwareQueueSchedule iod boundary s
  | .pageWalk die tenant va write fetch => Sys2Proof.Machine.execPageWalk die tenant va write fetch s
  | .elementFire cast site => Sys2Proof.Machine.execElementFire cast site s
  | .tlbiAll tid => Sys2Proof.Machine.execTlbiAll tid s
  | .tlbiTenant tid target => Sys2Proof.Machine.execTlbiTenant tid target s
  | .tlbiRange tid target size => Sys2Proof.Machine.execTlbiRange tid target size s
  | .tlbiReserved tid v => Sys2Proof.Machine.execTlbiReserved tid v s
  | .clearingWrite tid r v => Sys2Proof.Machine.execClearingWrite tid r v s
  | .omapcmdWrite tid die v => Sys2Proof.Machine.execOmapcmdWrite tid die v s
  | .sepurgeWrite tid die v => Sys2Proof.Machine.execSepurgeWrite tid die v s
  | .keyGen tid v => Sys2Proof.Machine.execKeyGen tid v s
  | .keyClear tid v => Sys2Proof.Machine.execKeyClear tid v s
  | .keyLoad tid v => Sys2Proof.Machine.execKeyLoad tid v s
  | .keyReserved tid v => Sys2Proof.Machine.execKeyReserved tid v s
  | .plsubWrite tid v => Sys2Proof.Machine.execPlsubWrite tid v s
  | .featlockWrite tid v => Sys2Proof.Machine.execFeatlockWrite tid v s
  | .bootstatReady tid v => Sys2Proof.Machine.execBootstatReady tid v s
  | .registerWrite tid r v => Sys2Proof.Machine.execRegisterWrite tid r v s
  | .inboundPostedWrite port q data => Sys2Proof.Machine.execInboundPostedWrite port q data s
  | .inboundRead port q len tag => Sys2Proof.Machine.execInboundRead port q len tag s
  | .qslotDefine tid iod v => Sys2Proof.Machine.execQslotDefine tid iod v s
  | .qslotDelete tid iod v => Sys2Proof.Machine.execQslotDelete tid iod v s
  | .qslotMap tid iod v => Sys2Proof.Machine.execQslotMap tid iod v s
  | .qslotUnmap tid iod v => Sys2Proof.Machine.execQslotUnmap tid iod v s
  | .qslotReserved tid iod v => Sys2Proof.Machine.execQslotReserved tid iod v s
  | .tdispStopInterface port fn => Sys2Proof.Machine.execTdispStopInterface port fn s
  | .peerInboundRequest tenant pa write len data atom tag => Sys2Proof.Machine.execPeerInboundRequest tenant pa write len data atom tag s
  | .spdmMessage q => Sys2Proof.Machine.execSpdmMessage q s
  | .recoveryImageWrite port image => Sys2Proof.Machine.execRecoveryImageWrite port image s
  | .inboundAtomicop port q kind size tag => Sys2Proof.Machine.execInboundAtomicop port q kind size tag s
  | .pcieLinkStateChange port up => Sys2Proof.Machine.execPcieLinkStateChange port up s
  | .ualinkPortStateChange port up => Sys2Proof.Machine.execUalinkPortStateChange port up s
  | .tdispInterfaceRequest port fn run => Sys2Proof.Machine.execTdispInterfaceRequest port fn run s
  | .tlbiComplete => Sys2Proof.Machine.execTlbiComplete s
  | .keyComplete => Sys2Proof.Machine.execKeyComplete s
  | .placerLoad => Sys2Proof.Machine.execPlacerLoad s
  | .placerMove => Sys2Proof.Machine.execPlacerMove s
  | .moveCutEmpty => Sys2Proof.Machine.execMoveCutEmpty s
  | .cuttimeout => Sys2Proof.Machine.execCuttimeout s
  | .placerCompact => Sys2Proof.Machine.execPlacerCompact s
  | .placerRoll => Sys2Proof.Machine.execPlacerRoll s
  | .placerSave => Sys2Proof.Machine.execPlacerSave s
  | .placerRestore => Sys2Proof.Machine.execPlacerRestore s
  | .placerRemove => Sys2Proof.Machine.execPlacerRemove s
  | .placerResume => Sys2Proof.Machine.execPlacerResume s
  | .placerGrant => Sys2Proof.Machine.execPlacerGrant s
  | .placerRevoke => Sys2Proof.Machine.execPlacerRevoke s
  | .energyWindowEnd => Sys2Proof.Machine.execEnergyWindowEnd s
  | .fastLimiterSample => Sys2Proof.Machine.execFastLimiterSample s
  | .powerOn => Sys2Proof.Machine.execPowerOn s
  | .iodVerifyRelease => Sys2Proof.Machine.execIodVerifyRelease s
  | .ucieTraining => Sys2Proof.Machine.execUcieTraining s
  | .cdVerifyRelease => Sys2Proof.Machine.execCdVerifyRelease s
  | .bootKeyGen => Sys2Proof.Machine.execBootKeyGen s

end Sys2Proof.Machine
end

