-- ==== Sys2Proof/Machine/FaultQueues.lean ====
section
/-!
DEFINITION. Fault queues (R460), and what a step leaves to be done to memory before the next one.
-/
namespace Sys2Proof.Machine

/-- The lowest-numbered valid function of a tenant, with its port. -/
def Dev.functionOf (d : Dev) (tenant : Nat) : Option (Nat × Nat) :=
  (List.range 128).findSome? fun i =>
    let w := d.fncfgOf (i % 2) (i / 2)
    if d.part.hasPort (i % 2) && bitAt w 8 && tdst w != 3 && d.fnTenant (i % 2) (i / 2) == tenant then some (i % 2, i / 2) else none

/-- MSI-X vector 0 of a tenant's function. -/
def Dev.raiseMsix (d : Dev) (tenant : Nat) : Dev :=
  match d.functionOf tenant with
  | some (port, fn) => d.send (.msix port fn)
  | none => d

/-- A word of a descriptor written. -/
def State.putWord (s : State) (tenant : Nat) (va : Word) (v : Nat) : State := (s.writeRun ioVia tenant .firmware va (leBytes 8 (v % 2 ^ 64))).1

/-- The new TAIL of a queue, a release: written once every replica has applied the stores before it (R78); then the interrupt. -/
def State.postTail (s : State) (tenant : Nat) (desc : Word) (value : Nat) (interrupt : Bool) (seen : Nat) : State :=
  if s.dev.unapplied seen then { s with dev := s.dev.job (.tail tenant desc value interrupt seen) }
  else
    let s := s.putWord tenant (desc + 24) value
    if interrupt then { s with dev := s.dev.raiseMsix tenant } else s

/-- A queue's last entry still waits for its TAIL. -/
def Job.holds (tenant : Nat) : Job → Bool
  | .tail t _ _ _ _ => t == tenant
  | .post _ _ | .count _ _ _ | .poolSave _ => false

/-- An entry posted to a tenant's fault queue: dropped without a descriptor, counted in LOST when the queue is full. The firmware's queue is
that of entry 0. -/
def State.postEntry (s : State) (tenant : Nat) (entry : List Byte) : State :=
  match if tenant = 0 then some 0 else s.dev.tteOf 0 tenant with
  | none => s
  | some i =>
    let desc := s.dev.host.fqdesc.get 0 i
    if desc = 0 then s
    else
      match Dev.readRun s.mem s.dev ioVia tenant desc 64 with
      | (.error _, d) => { s with dev := d }
      | (.ok b, d) =>
        let s := { s with dev := d }
        let cap := num b 8 4
        let head := num b 16 8
        let tail := num b 24 8
        if cap = 0 then s
        else if (tail + 2 ^ 64 - head) % 2 ^ 64 = cap then s.putWord tenant (desc + 32) (num b 32 8 + 1)
        else
          let s := (s.writeRun ioVia tenant .firmware (BitVec.ofNat 64 (num b 0 8 + 64 * (tail % cap))) entry).1
          s.postTail tenant desc (tail + 1) (tail == head) s.dev.replNo

/-- A cast that a trap has stopped is to have an image, unless it has one or is to have one already (R185). -/
def Cast.needImage (k : Cast) : Cast := if k.slot.isSome then k else { k with saving := some ((k.saving.filter fun x => x != .yield).getD .trap) }

/-- A job performed. -/
def State.doJob (s : State) (j : Job) : State :=
  match j with
  | .post tenant entry => if s.dev.jobs.any (Job.holds tenant) then { s with dev := s.dev.job j } else s.postEntry tenant entry
  | .tail tenant desc value interrupt seen => s.postTail tenant desc value interrupt seen
  | .count r amount seen => { s with dev := s.dev.countAfter r amount seen }
  | .poolSave c => State.imageNow { s with dev := s.dev.modCast c Cast.needImage } c

/-- The jobs that a step has left, in order; those that arise meanwhile, or still wait, stay for the next step. -/
def State.flushJobs (s : State) : State := s.dev.jobs.foldl State.doJob { s with dev := { s.dev with jobs := [] } }

end Sys2Proof.Machine
end

