-- ==== Sys2Proof/Machine/Traffic.lean ====
section
/-!
DEFINITION. The four classes of memory requests, and the turns of tenants within a class (R435; what has no clock of its own is ordered
within the clock: DEDUCED, log entry 118).
-/
namespace Sys2Proof.Machine

/-- The class of demand of a priority, and of promoted staging. -/
def demandClass (prio : Nat) : Nat := if 8 ≤ prio then 3 else 2

/-- The class of what a cast demands: by TASKPRI while a task is active. -/
def Cast.demand (k : Cast) : Nat := demandClass (if k.th.taskActive then k.th.taskpri.toNat else 0)

/-- A task is next to dispatch: the FIFO head of an idle cast, or the first of its stage on its queue die while a replica there is idle. -/
def Dev.nextToDispatch (d : Dev) (id : Nat) (t : Task) : Bool :=
  let queue := d.sch.tasks.filter fun e =>
    e.2.tenant == t.tenant && !e.2.direct && e.2.stage == t.stage && e.2.isReady && e.2.deque.isNone && e.2.die == t.die
  (d.casts.any fun e => e.2.fifo.head? == some id && d.isIdle e.1 e.2)
    || (!t.direct && (firstTask queue).map Prod.fst == some id
      && (d.replicasOf t.tenant t.stage).any fun e => e.2.die == t.die && d.isIdle e.1 e.2)

/-- The class of a task's staging. -/
def Dev.stagingClass (d : Dev) (id : Nat) (t : Task) : Nat :=
  if d.nextToDispatch id t then demandClass t.prio else if 8 ≤ t.prio then 1 else 0

/-- The class of the staging director's chains on a channel: the highest of the tasks that stage there. -/
def Dev.chainClass (d : Dev) (c cix : Nat) : Nat :=
  (d.sch.tasks.filter fun e => e.2.st == .staging && e.2.direct && e.2.target == c
    && e.2.ws.any fun w => w.lvl == 3 && field w.tgt 0 2 == cix).foldl (fun n e => max n (d.stagingClass e.1 e.2)) 0

/-- The class of a step of a channel: that of its cast, or of the staging that it is for. -/
def Dev.chanClass (d : Dev) (c : Nat) (k : Cast) (cix : Nat) (staged : Bool) : Nat := if staged then d.chainClass c cix else k.demand

/-- The tenants that have casts or tasks. -/
def Dev.tenants (d : Dev) : List Nat := (d.casts.map (fun e => e.2.tenant) ++ d.sch.tasks.map fun e => e.2.tenant).eraseDups

/-- A list of tenants from the one after `last` on. -/
def afterTenant (last : Nat) (ts : List Nat) : List Nat :=
  (ts.dropWhile fun t => t != last).tail ++ (ts.takeWhile fun t => t != last) ++ ts.filter fun t => t == last

/-- The turns of some classes: class and tenant, the tenant served last in a class last. -/
def Dev.inTurn (d : Dev) (classes : List Nat) : List (Nat × Nat) :=
  classes.flatMap fun p => (afterTenant (d.turns.get 256 p) d.tenants).map fun t => (p, t)

/-- A tenant has been served in a class. -/
def Dev.hadTurn (d : Dev) (x : Nat × Nat) : Dev := { d with turns := d.turns.set 256 x.1 x.2 }

end Sys2Proof.Machine
end

