-- ==== Sys2Proof/Machine/Scan.lean ====
section
/-!
DEFINITION. Which step comes next: the device steps that have fallen due, then what the threads do, then what the elements and
engines can do, each in a fixed order of scanning, then the requests that have reached a synchronisation engine, then the clock.
-/
namespace Sys2Proof.Machine

/-- The next move: a step in a state, or a change without a step of its own. -/
inductive Action where
  | run (i : Instr) (s : State)
  | quiet (s : State)

/-- A step in the state as it is. -/
def State.act (s : State) (i : Instr) : Action := .run i s

/-- A quiet change of the device. -/
def State.tidy (s : State) (d : Dev) : Action := .quiet { s with dev := d }

/-- An action when a condition holds. -/
def State.when (s : State) (b : Bool) (i : Instr) : Option Action := if b && !s.dev.isStalled i none then some (s.act i) else none

/-! ### Steps in flight -/

/-- The step's cast is frozen. -/
def Dev.frozenStep (d : Dev) (i : Instr) : Option Nat :=
  (ownStep i).filter fun c => ((d.casts.find c).map Cast.frozen).getD false

/-- The first due entry of the agenda for which `ok` holds, with the agenda without it. -/
def firstDue (ok : Instr → Bool) (now : Nat) : List (Nat × Instr) → Option (Instr × List (Nat × Instr))
  | [] => none
  | (t, i) :: rest =>
    if now < t then none
    else if ok i then some (i, rest)
    else (firstDue ok now rest).map fun r => (r.1, (t, i) :: r.2)

/-- An entry of the agenda that acts when it falls due: no request that takes its turn at a synchronisation engine, and no step that
stands still for a walk. -/
def Dev.actsWhenDue (d : Dev) (i : Instr) : Bool := (seKey i).isNone && !d.isStalled i none

/-- The first due request to a synchronisation engine at a location that has not been served in this clock (R361). -/
def Dev.firstSe (d : Dev) : Option (Nat × Instr) :=
  d.agenda.find? fun e => decide (e.1 ≤ d.now) && match seKey e.2 with
    | some (loc, _) => !d.seTaken.contains loc
    | none => false

/-- Of the requests due in one clock at one location, the one of the lowest requester (R361). -/
def lowestSe (due pa : Nat) (best : Nat × Instr) : List (Nat × Instr) → Nat × Instr
  | [] => best
  | e :: rest =>
    match seKey e.2, seKey best.2 with
    | some (pa', r), some (_, b) => lowestSe due pa (if e.1 = due ∧ pa' = pa ∧ r < b then e else best) rest
    | _, _ => lowestSe due pa best rest

/-- The row of blocks that something crossing the fabric enters. -/
def stepRow : Instr → Option (Nat × Nat)
  | .tokenAccept c dst _ =>
    match dst with
    | .input n _ _ => some (c, rowOf n)
    | _ => none
  | .pulseArrive c n _ _ => some (c, rowOf n)
  | .argWriteArrive c n _ _ => some (c, rowOf n)
  | _ => none

/-- The step would cross the lease wall of a cast that a ROLL is still filling (R407). -/
def Dev.leasedStep (d : Dev) (i : Instr) : Option Nat :=
  (stepRow i).bind fun x => ((d.casts.find x.1).bind Cast.lease).bind fun n => if n ≤ x.2 then some x.1 else none

/-- A step of the agenda that has fallen due; one of a frozen cast, or one at a lease wall, is set aside until the cast goes on or
the row is filled. -/
def State.nextDue (s : State) : Option Action :=
  (firstDue s.dev.actsWhenDue s.dev.now s.dev.agenda).map fun (i, rest) =>
    let d := { s.dev with agenda := rest }
    match (d.frozenStep i).or (d.leasedStep i) with
    | some c => s.tidy (d.modCast c fun k => { k with held := k.held ++ [i] })
    | none => .run i { s with dev := d }

/-- A request to a synchronisation engine that has fallen due; its location is served once in this clock. -/
def State.nextSe (s : State) : Option Action :=
  s.dev.firstSe.map fun e =>
    let loc := ((seKey e.2).map Prod.fst).getD 0
    let e := lowestSe e.1 loc e s.dev.agenda
    .run e.2 { s with dev := { s.dev with agenda := s.dev.agenda.erase e, seTaken := loc :: s.dev.seTaken } }

/-! ### Threads -/

/-- The lowest slot that can be settled as predicated off, else the lowest that can fire in a free place and stands below an
operand clash (R85, R86, R88). -/
def Dev.slotNext (m : Memory) (d : Dev) (c : Nat) (k : Cast) (b : Block) : Option (Nat × Instr) :=
  let idle := (List.range b.slots.length).filterMap fun n =>
    match b.slots[n]? with
    | some sl => if sl.phase = .idle then sl.instr.map fun i => (n, sl, i) else none
    | none => none
  let off := idle.findSome? fun (n, sl, i) => match sl.ready (predOf i) (usesOf i) with
    | .off => some (n, i)
    | _ => none
  let on := idle.findSome? fun (n, sl, i) => match sl.ready (predOf i) (usesOf i) with
    | .on x y _ =>
      if d.held m k b n i x y || !(b.clash.all fun m => decide (n < m)) || d.isStalled i (some (c, n)) then none else some (n, i)
    | _ => none
  off.or (if b.clock = d.now ∧ 4 ≤ b.fires then none else on)

/-- A request of the thread waits at an engine whose hold queue is full: the thread stops before its next fetch (R375). -/
def Dev.stopsFetch (d : Dev) (k : Cast) : Bool :=
  k.th.queue.any fun e => !e.sent && (d.needs k e.act).any fun x => (d.placeFor x.1 k.tenant x.2).isNone && d.holdFull x.1 k.tenant

/-- An asynchronous cause can be taken between blocks (R186). -/
def Thread.asyncReady (t : Thread) : Bool := !t.inh && t.asyncQ != []

/-- A wait of WAIT.TOK with TASK that a staged task of the cast's own ends (R168). -/
def Dev.tokenWait (d : Dev) (k : Cast) : Option Nat :=
  match k.th.wait with
  | some ⟨id, .waitTok _ true, _⟩ => if (d.fifoHead k).isSome || k.deque.any fun t => d.isStaged t then some id else none
  | _ => none

/-- What a thread does between blocks, or within one. -/
def State.nextOfThread (s : State) (c : Nat) (k : Cast) : Option Action :=
  let now := s.dev.now
  let t := k.th
  if k.frozen then
    match t.mode with
    | .pausing _ => s.when (k.saving == some .yield && s.dev.canEndPause c k) (.yieldPauseEnd c)
    | _ => none
  else if k.canAppend then some (s.act (.drainAppend c))
  else if k.canDrain s.dev c then some (s.act (.drainComplete c))
  else if k.canSwitch s.dev c then some (s.act (.ctxSwComplete c))
  else
    match t.mode with
    | .fetch r => if r ≤ now ∧ !s.dev.stopsFetch k ∧ !s.dev.isStalled (.blockFetch c) none then some (s.act (.blockFetch c)) else none
    | .asyncNext =>
      if t.asyncReady then none else some (s.tidy (s.dev.modTh c fun t => { t with mode := .fetch now }))
    | .atEntry => if t.asyncReady then none else if t.taskToken.isSome then some (s.act (.taskTokenStart c)) else none
    | .waiting =>
      if t.asyncReady then none
      else
        match s.dev.tokenWait k with
        | some id => some (s.tidy (s.dev.endWait c id))
        | none => none
    | .pausing u => if u ≤ now ∧ s.dev.canEndPause c k then some (s.act (.yieldPauseEnd c)) else none
    | .running =>
      match t.blk with
      | none => none
      | some b =>
        if b.begun then
          (s.dev.slotNext s.mem c k b).map fun (n, i) => .run i { s with dev := { s.dev with cursor := some (c, n) } }
        else none
    | .halted => none
    | .stopped => none

/-- A thread between blocks, or waiting, takes its first asynchronous cause, once every cause of the clock has arrived (R186). -/
def State.nextAsync (s : State) (c : Nat) (k : Cast) : Option Action :=
  if !k.frozen && k.th.asyncReady && (k.th.mode == .asyncNext || k.th.mode == .atEntry || k.th.mode == .waiting) then some (s.act (.asyncTrapTake c)) else none

/-- What an entry of a thread's queue waits for besides earlier entries: its clock, the replicas that have still to apply stores it orders
(R78), acquires before it that have no reply yet (R73), and room at its engine. -/
def Dev.mayLeave (d : Dev) (k : Cast) (e : StoreEnt) : Bool :=
  decide (e.due ≤ d.now) && !d.unapplied e.seen && !(isAccess e.act && k.th.acquires.any fun n => decide (n < e.id))
    && d.engineRoom k e.act && !d.isStalled e.act none

/-- A committed command that may be performed now (R93); a request to a synchronisation engine joins those that reach it in this
clock. -/
def State.nextStore (s : State) (c : Nat) (k : Cast) : Option Action :=
  (eligible (s.dev.mayLeave k) [] k.th.queue).map fun e =>
    let d := s.dev.modTh c fun t => t.send e
    if (seKey e.act).isSome then s.tidy (d.post 0 e.act) else .run e.act { s with dev := d }

/-! ### The fabric -/

/-- The action, unless it is a step that stands still for a walk. -/
def unstalled (o : Option Action) : Option Action :=
  o.filter fun a => match a with
    | .run i s => !s.dev.isStalled i s.dev.cursor
    | .quiet _ => true

/-- The first of a list for which there is an action. -/
def firstAct {α : Type} (f : α → Option Action) : List α → Option Action
  | [] => none
  | x :: rest => (unstalled (f x)).or (firstAct f rest)

/-- The token of a firing that is next to be sent, when it may be. -/
def Cast.canFollow (d : Dev) (k : Cast) (n : Nat) : Bool :=
  match (k.site n).outq with
  | [] => false
  | (o, t) :: _ => decide ((k.site n).due o ≤ d.now) && k.room d n o t.wide

/-- It is sent. -/
def Dev.sendNext (d : Dev) (c n : Nat) : Dev :=
  match (d.casts.find c).bind fun k => (k.site n).outq.head? with
  | none => d
  | some (o, t) => (d.modSite c n fun s => { s with outq := s.outq.tail }).emit c n o 0 t

/-- What a matrix element can do. -/
def State.nextOfMat (s : State) (c n : Nat) (k : Cast) (site : Site) (m : MxSt) : Option Action :=
  let d := s.dev
  let try_ := fun (f : Dev → Nat → Nat → Cast → Site → MxSt → Option Dev) (i : Instr) =>
    if d.matCan c n (f d c n) then some (s.act i) else none
  (try_ mxATake (.mxABeat c n)).or <| (try_ mxBTake (.mxBBeat c n)).or <| (try_ mxDTake (.mxCommandTake c n)).or <|
  (try_ mxBegin (.mxCommandBegin c n)).or <| (try_ mxFireRow (.mxRowFire c n)).or <| (try_ mxDenseStep (.mxDenseUpdate c n)).or <|
  (try_ mxOutlierStep (.mxOutlierApply c n)).or <| (try_ mxReadStep (.mxReadBeat c n)).or <| (try_ mxNoteStep (.mxNoteEmit c n)).or <|
  ((if d.matCan c n (mxSettle d c n) then some (s.tidy (d.onMat c n (mxSettle d c n))) else none)).or <|
  (((List.range 16).find? fun i => (mxFree d c n i k site m).isSome).map fun i => s.act (.mxSlotFree c n i)).or <|
  (if k.ownAlign n && d.matCan c n (mxAlign d c n) then some (s.act (.mxReconfAlign c n)) else none)

/-- What the element of a site can do. -/
def State.nextOfElem (s : State) (c : Nat) (k : Cast) (n : Nat) (site : Site) : Option Action :=
  let d := s.dev
  match site.el with
  | .none => none
  | .sb _ => s.when (k.sbReady d n) (.sbFire c n)
  | .cx _ => s.when (k.cxReady d n) (.cxFire c n)
  | .ve _ =>
    (s.when (k.canFlush d n) (.veAccFlush c n)).or <| (s.when (k.canSwap d n) (.veSwap c n)).or <|
    (firstAct (fun p => s.when (k.canConsumeAlone d n p) (.veConsumeAlone c n p)) allInPorts).or <|
    (s.when (k.canIntake n) (.veDIntake c n)).or (s.when (k.veReady d n) (.veFire c n))
  | .mx m => s.nextOfMat c n k site m
  | .so _ =>
    (s.when (k.canCheck d n .a) (.soTokenCheck c n .a)).or <| (s.when (k.canCheck d n .b) (.soTokenCheck c n .b)).or <|
    (s.when (s.soAct c n).isSome (.soStep c n))

/-- What a site can do; nothing behind a lease wall (R407), and no firing while its cut is emptied (R401). -/
def State.nextOfSite (s : State) (c : Nat) (k : Cast) (n : Nat) (site : Site) : Option Action :=
  let d := s.dev
  if !k.served n then none
  else if site.paused then (if k.canFollow d n then some (s.tidy (d.sendNext c n)) else none)
  else
  (if k.canFollow d n then some (s.tidy (d.sendNext c n)) else none).or <|
  (s.when (k.canSelect d n) (.selectorFire c n)).or <|
  (s.nextOfElem c k n site).or <|
  (s.when (k.canForwardError d n) (.errorTokenForward c n)).or <|
  (if k.ownAlign n then none
    else (k.canAlign d c n).map fun t => s.act (if tokName t = .drain then .drainAlign c n else .reconfAlign c n))

/-- What leaves the source links and enters the OUT ports of a cast. -/
def State.nextOfLinks (s : State) (c : Nat) (k : Cast) : Option Action :=
  let d := s.dev
  let port := fun (ix : Nat) =>
    match k.ports[ix]? with
    | none => none
    | some p =>
      if p.absorbs then some (s.tidy (d.portAbsorb c ix))
      else if !p.isOut && !p.q.isEmpty && k.portMaySend d p then some (s.tidy (d.portLeave c ix))
      else none
  (firstAct (fun ch => if (k.pushHead d ch).isSome then some (s.tidy (d.pushLeave c ch)) else none) (List.range 8)).or
    (firstAct port (List.range k.ports.length))

/-! ### Copy channels and synchronisation engines -/

/-- The steps of a class that a channel of a cast can take; which of them comes first is open (R345, R348). -/
def Dev.chanSteps (d : Dev) (c : Nat) (k : Cast) (p cix : Nat) (x : Chan) : List Instr :=
  let mine := fun (staged : Bool) => d.chanClass c k cix staged == p
  (if k.canBeginChain d x && mine (x.queue.head?.any fun q => q.2.1 == 0) then [.copyChainBegin c cix] else [])
    ++ (if k.canBeginRecord d x && mine x.staged then [.copyRecordBegin c cix] else [])
    ++ (x.recs.filter fun r => k.canSector d cix x r && mine r.staged).map (fun r => .copySector c cix r.id)
    ++ (x.recs.filter fun r => Cast.canComplete d c cix x r && mine r.staged).map fun r => .copyRecordComplete c cix r.id

/-- One step of a class of a cast's copy channels; those of a frozen cast stand still, but for one that is being removed. -/
def State.nextCopy (s : State) (p : Nat) (c : Nat) (k : Cast) : Option Action :=
  let steps := if k.frozen && !k.leaving then [] else (k.chans.flatMap fun e => s.dev.chanSteps c k p e.1 e.2).filter fun i => !s.dev.isStalled i none
  (steps[Config.openNat s.dev.free % steps.length]?).map fun i => .run i { s with dev := s.dev.tickFree }

/-- A held request that can proceed. -/
def State.nextHeld (s : State) : Option Action :=
  firstAct (fun e => firstAct (fun q => s.when (s.dev.canRelease e.1 q.1) (.seHoldRelease e.1 q.1)) e.2.hold) s.dev.se

/-! ### The placer (R384, R400 to R413) -/

/-- The step of an operation; a block that cannot be read or is malformed is answered by any of them. -/
def placerStep (op : Nat) : Instr :=
  match op with
  | 2 => .placerMove
  | 3 => .placerCompact
  | 4 => .placerRoll
  | 5 => .placerSave
  | 6 => .placerRestore
  | 7 => .placerRemove
  | 8 => .placerResume
  | 9 => .placerGrant
  | 10 => .placerRevoke
  | _ => .placerLoad

/-- The operation of the request at the head of the queue. -/
def State.headOp (s : State) : Option Nat :=
  s.dev.pl.queue.head?.map fun r =>
    match r.block with
    | some b => b.op
    | none => ((Dev.readBlock s.mem s.dev r.tenant r.addr).1.map PlBlock.op).getD 0

/-- What the placer can do with the request that it is performing, or with the next. -/
def State.nextOfCur (s : State) : Option Action :=
  let d := s.dev
  match d.pl.cur with
  | none => if d.placerBusy then none else (s.headOp).map fun op => s.act (placerStep op)
  | some (.moving _ b ..) => s.when d.moveReady (placerStep b.op)
  | some (.move _ _ _ deadline _ _ _) => if d.cutReady then some (s.act .moveCutEmpty) else s.when (decide (deadline ≤ d.now)) .cuttimeout
  | some (.remove _ _ c) => s.when (d.removed c) .placerRemove
  | some (.save _ _ c _) => s.when (((d.casts.find c).map fun k => d.saveReady c k).getD true) .placerSave

/-- What a ROLL can do. -/
def State.nextOfRoll (s : State) (c : Nat) (x : RollSt) : Option Action :=
  let d := s.dev
  (d.casts.find c).bind fun k =>
    if d.canFill c k x then some (s.tidy (d.startFill c k))
    else if Dev.canFinish k x then some (s.act (.rollFinish c))
    else if Dev.canShed k x then some (.quiet (s.beginRemoval c))
    else none

/-- The placer, the casts that are being removed, and those that are to have an image. -/
def State.nextOfPlacer (s : State) : Option Action :=
  let d := s.dev
  (firstAct (fun e => s.nextOfRoll e.1 e.2) d.pl.rolls).or <|
  (firstAct (fun e => s.when (d.canRetire e.1 e.2) (.haltRemoval e.1)) d.casts).or <|
  (firstAct (fun e => if e.2.emptied && (d.pl.rolls.find e.1).isNone then some (.quiet (s.endRemoval e.1 true)) else none) d.casts).or <|
  (firstAct (fun e => if d.imageReady e.1 e.2 then some (.quiet (s.makeImage e.1 e.2)) else none) d.casts).or <|
  (if d.boot.ready then (d.askReady).map fun a => .quiet (s.takeAsk a) else none).or <|
  ((d.finReady).map fun f => .quiet (s.goOnFin f)).or s.nextOfCur

/-- What the adapter of a port can do. -/
def State.nextOfPort (s : State) (c ix : Nat) : Option Action :=
  let d := s.dev
  (s.when (d.canDeliver c ix) (.inRingDeliver c ix)).or <| (s.when (d.canPollTail c ix) (.inRingTailPoll c ix)).or <|
  (s.when (d.canWriteOut c ix) (.outRingWrite c ix)).or <| (s.when (d.canPollHead c ix) (.outRingHeadPoll c ix)).or
  (s.when (d.canTransfer c ix) (.castBindingTransfer c ix))

/-! ### The scheduler -/

/-- A piece of a task's staging. -/
def State.nextPiece (s : State) (id : Nat) (t : Task) : Option Action :=
  s.when (t.canPiece s.dev.now && !(s.dev.pieces t).isEmpty) (.stagingPiece id)

/-- The scheduler's next step. -/
def State.nextOfSched (s : State) : Option Action :=
  let d := s.dev
  let tenants := (d.sch.tasks.map fun e => e.2.tenant).eraseDups
  (firstAct (fun e => s.when (d.canComplete e.2).isSome (.taskComplete e.1)) d.casts).or <|
  (firstAct (fun t => s.when (Dev.canAdmit s.mem d t) (.stagingAdmit t)) tenants).or <|
  (firstAct (fun e => s.when (d.stagingDone e.2) (.stagingEnd e.1)) d.sch.tasks).or <|
  (d.longestIdle.map fun e => s.act (if (d.canGive e.1 e.2).isSome then .taskDeliver e.1 else .taskSteal e.1)).or <|
  (firstAct (fun die => s.when ((d.nextQuantum die).any fun t => decide (t ≤ d.now)) (.ageingQuantum die)) (List.range 8)).or <|
  (firstAct (fun e => (d.late? e.2).map fun x => s.act (.memtimeout e.2.tenant e.1 x.1 x.2)) d.casts).or
  (firstAct (fun e => s.when (d.isHung e.2) (.wdog e.1)) d.casts)

/-! ### The I/O dies, the trust die and the governor -/

/-- What a port can do. -/
def State.nextOfInbox (s : State) (port : Nat) : Option Action :=
  match (s.dev.host.inbox.get [] port).find? fun a => s.dev.acked port a with
  | some a => some (.quiet (s.retireWrite port a))
  | none => (s.forwardAt port).map fun a => s.act (if a.isCommit then .sealedCommit port else .inboundWriteForward port)

/-- What the queue slots of an I/O die can do. -/
def State.nextOfQueues (s : State) (iod : Nat) : Option Action :=
  let d := s.dev
  (firstAct (fun n => s.when (d.canFetch iod n) (.packetFetch iod n)) (List.range 32)).or ((d.nextIssue iod).map fun n => s.act (.packetIssue iod n))

/-- What the firmware core of an I/O die does of its own: its requests go before all others (R435). -/
def State.nextOfFirmware (s : State) (iod : Nat) : Option Action :=
  let d := s.dev
  (s.when ((d.host.qageAt.find iod).any fun t => decide (t ≤ d.now)) (.firmwareQueueSchedule iod true)).or
  (s.when (d.host.wake.get false iod) (.firmwareQueueSchedule iod false))

/-- Commands of the register file that complete. -/
def State.nextOfCommands (s : State) : Option Action :=
  let d := s.dev
  (s.when d.tlbiDone .tlbiComplete).or <| (s.when d.keyDone .keyComplete).or <|
  (firstAct (fun die => s.when (d.omapDone die) (.omapComplete die)) (List.range 8)).or
  (firstAct (fun die => s.when (d.purgeDone die) (.sepurgeComplete die)) (List.range 8))

/-- The boot sequence's next step (R476). -/
def State.nextOfBoot (s : State) : Option Action :=
  match s.dev.boot.step with
  | 0 => some (s.act .powerOn)
  | 1 => some (s.act .iodVerifyRelease)
  | 2 => some (s.act .ucieTraining)
  | 3 => some (s.act .cdVerifyRelease)
  | 4 => some (s.act .bootKeyGen)
  | _ => none

/-- The governor's clocks (R488, R489). -/
def State.nextOfPower (s : State) : Option Action :=
  let d := s.dev
  (s.when (decide (0 < d.sch.winAt ∧ d.sch.winAt ≤ d.now)) .energyWindowEnd).or
  (s.when (decide (0 < d.sch.fastAt ∧ d.sch.fastAt ≤ d.now)) .fastLimiterSample)

/-- The package beyond its casts. -/
def State.nextOfPackage (s : State) : Option Action :=
  s.nextOfPower.or <| s.nextOfCommands.or <| (firstAct s.nextOfInbox [0, 1]).or <| (firstAct s.nextOfQueues [0, 1]).or <|
  s.nextOfSched.or <| s.nextOfPlacer.or s.nextOfBoot

/-! ### All together -/

/-- What a cast can do beyond its thread and its copy channels; of a frozen one the adapters alone act. -/
def State.nextOfCast (s : State) (c : Nat) (k : Cast) : Option Action :=
  let ports := fun (_ : Unit) => firstAct (fun ix => s.nextOfPort c ix) (List.range k.ports.length)
  if k.frozen then (if k.leaving then none else ports ())
  else (s.nextOfLinks c k).or <| (firstAct (fun e => s.nextOfSite c k e.1 e.2) k.sites).or (ports ())

/-- An action that uses up a turn (R435). -/
def Action.turned (x : Nat × Nat) : Action → Action
  | .run i s => .run i { s with dev := s.dev.hadTurn x }
  | .quiet s => .quiet { s with dev := s.dev.hadTurn x }

/-- What a tenant does in its turn of a class: the threads and the fabric of its casts of that class, its copy channels, its staging. -/
def State.nextOfTurn (s : State) (x : Nat × Nat) : Option Action :=
  let mine := s.dev.casts.filter fun e => e.2.tenant == x.2
  let demand := mine.filter fun e => e.2.demand == x.1
  ((firstAct (fun e => (s.nextOfThread e.1 e.2).or (s.nextStore e.1 e.2)) demand).or <|
   (firstAct (fun e => s.nextOfCast e.1 e.2) demand).or <|
   (firstAct (fun e => s.nextCopy x.1 e.1 e.2) mine).or
   (firstAct (fun e => if e.2.tenant == x.2 && s.dev.stagingClass e.1 e.2 == x.1 then s.nextPiece e.1 e.2 else none) s.dev.sch.tasks)).map
    (Action.turned x)

/-- Some element of the cast has fired in this clock. -/
def Site.firedAt (s : Site) (now : Nat) : Bool :=
  s.lastFire == now + 1 || match s.el with
    | .mx m => m.rows.any fun r => r.fired == now
    | _ => false

/-- The parts of the cast's variant in which an element has fired in this clock (R440). -/
def Cast.partsFired (k : Cast) (now : Nat) : List Bool :=
  (List.range k.mould.nparts).map fun j => k.sites.any fun e =>
    e.2.firedAt now && (k.mould.variant k.variant).parts.getD (siteY e.1 / 6 * k.wb + siteX e.1 / 6) 0 == j

/-- A cast at the end of a clock: how long it hangs (R441), its busy clocks (R440), and since when it is idle (R423). -/
def Cast.endClock (d : Dev) (c : Nat) (k : Cast) : Cast :=
  let moved := k.progress || (k.th.inGraphWait && k.sites.any fun e => e.2.firedAt d.now)
  { k with
    progress := false
    hang := if k.frozen then k.hang else if moved then 0 else if k.idleGraph || k.replyDue d.now then k.hang else k.hang + 1
    busy := if 2 ≤ k.mould.variants.length && k.th.taskActive then (k.partsFired d.now).mapIdx fun j b => k.busy.getD j 0 + bit b else k.busy
    idleAt := if d.isIdle c k then some (k.idleAt.getD d.now) else none }

/-- The clock advances; a clash of operands found in this clock is taken first (R85, R95). -/
def State.tick (s : State) : Action :=
  match s.dev.casts.find? fun e => !e.2.frozen && ((e.2.th.blk.map fun b => b.clash.isSome).getD false) with
  | some e => s.tidy (s.dev.clashTrap e.1)
  | none =>
    .quiet { s with dev := { s.dev.dropWalks with now := s.dev.now + 1, seTaken := []
                                                  casts := s.dev.casts.map fun e => (e.1, Cast.endClock s.dev e.1 e.2) } }

/-- A miss that takes a walker (R55). -/
def State.nextWalk (s : State) : Option Action :=
  firstAct (fun e => (s.dev.nextMiss e.1).map fun w => s.tidy (s.dev.startWalk e.1 w)) s.dev.walks

/-- The next move of the machine. -/
def State.nextAction (s : State) : Action :=
  ((s.nextDue).or <| (s.nextWalk).or <| (firstAct s.nextOfFirmware [0, 1]).or <|
   (firstAct s.nextOfTurn (s.dev.inTurn [3, 2])).or <|
   (s.nextHeld).or <| (s.nextOfPackage).or <|
   (firstAct s.nextOfTurn (s.dev.inTurn [1, 0])).or <|
   (s.nextSe).or (firstAct (fun e => s.nextAsync e.1 e.2) s.dev.casts)).getD s.tick

/-- A step is put off when it has walked tables before a walker has done so: its walk is asked for, and nothing else comes of it (R55). -/
def State.await (s : State) (i : Instr) (t : State) (r : Res) : Res :=
  match r with
  | .next u =>
    match t.dev.earlyWalk u.dev i t.dev.cursor with
    | some w => .next { s with dev := s.dev.stall i t.dev.cursor w }
    | none => .next u
  | r => r

/-- The walks that a step has made are forgotten at its end. -/
def State.forgetWalks (s : State) : State := { s with dev := { s.dev with walked := [] } }

/-- Nothing can ever act again: the trust die's own firmware did not verify, and nothing stands on the device (R476). -/
def State.dead (s : State) : Bool := s.dev.boot.step == bootHeld && s.dev.casts.isEmpty && s.dev.agenda.isEmpty

/-! ### Placing a word -/

/-- A block of one instruction, in execution, with every operand delivered as 0; a LIT has its literal words, zero, behind it. -/
def placedBlock (now : Nat) (w : Word32) : Block :=
  let zero : Operand := { val := some 0 }
  let lits := match decodeWord w with
    | .ok (.lit .one _ _) => 1
    | .ok (.lit .two _ _) => 2
    | _ => 0
  { addr := 0, header := 0, seq := 0, begun := true
    slots := { word := w, a := zero, b := zero, c := zero, p := zero } :: List.replicate lits { word := 0, lit := true }
    sys := [], writes := [], effects := [], exit := none, clock := now, fires := 0, clash := none }

/-- A cast 0 of one block for tenant 0, whose thread runs a block with the word in its first slot, alone on the device: what LOAD, a
task token and the fetch of a block would leave. -/
def State.placeWord (s : State) (_nbits w : Nat) : State :=
  let th : Thread := { mode := .running, first := false, blk := some (placedBlock s.dev.now (BitVec.ofNat 32 w)) }
  { s with dev := { s.dev with agenda := [], cursor := none,
                               casts := [(0, { tenant := 0, bx := 0, by_ := 0, wb := 1, hb := 1, th := th })] } }

end Sys2Proof.Machine
end

