-- ==== Sys2Proof/Machine/Step.lean ====
section
/-!
DEFINITION. One step of the machine, and how an instruction word is placed where the next step runs it.
-/
namespace Sys2Proof.Machine

/-- An action of a state carried out. -/
def Action.perform (s : State) : Action → Res
  | .run i t => s.await i t (exec i t)
  | .quiet t => .next t

/-- What a step leaves to be done to memory is done. -/
def afterStep : Res → Res
  | .next s => .next s.flushJobs.forgetWalks
  | .fault f => .fault f
  | .refused r => .refused r

/-- One step. -/
def step (s : State) : Res := if s.dead then .fault .heldInReset else afterStep (s.nextAction.perform s)

/-- `s` with an instruction placed for the next step: see `State.placeWord`. -/
def State.withFetchWord (s : State) (nbits w : Nat) : State := s.placeWord nbits w

end Sys2Proof.Machine
end

