-- ==== Sys2Proof/Safety.lean ====
section
/-!
DEFINITION. What counts as a safe run: the states that a run reaches, and that no step of it stops.
-/
namespace Sys2Proof.Safety

open Sys2Proof.Machine

/-- The step from `s` answers a next state. -/
def Goes (s : State) : Prop := ∃ t, step s = .next t

/-- States that a run from `s` reaches in some number of steps. -/
inductive Reaches (s : State) : State → Prop where
  | here : Reaches s s
  | next {t u : State} (h : Reaches s t) (h' : step t = .next u) : Reaches s u

/-- No state that a run from `s` reaches stops. -/
def Safe (s : State) : Prop := ∀ t, Reaches s t → Goes t

/-- Memory keeps its canonical form. -/
def MemOk (s : State) : Prop := s.mem.wf = true

end Sys2Proof.Safety
end

