-- ==== Sys2Proof/Certificates/Slice0/Obligations.lean ====
section
/-!
DEFINITION. The statements for the provers, and the vocabulary that they share.
-/
namespace Sys2Proof.Claims

open Sys2Proof.Machine

/-! ### Slots -/

/-- The slot at the cursor is idle, and is ready with its operands A, B and C: `p` decides for execution, and of the operands those
that `u` names hold values (R82, R87, R88). An operand that is not used counts as 0 when nothing has arrived. -/
def Fires (p : Pred) (u : Uses) (s : State) (sh : Shot) : Prop :=
  s.dev.cursor = some (sh.c, sh.n) ∧ s.dev.casts.find sh.c = some sh.k ∧ sh.k.th.blk = some sh.blk ∧
    sh.blk.slots[sh.n]? = some sh.sl ∧ sh.sl.phase = .idle ∧ sh.sl.ready p u = .on sh.a sh.b sh.z

/-- The slot at the cursor is idle, and is predicated off (R88). -/
def IsOff (p : Pred) (u : Uses) (s : State) (sh : Shot) : Prop :=
  s.dev.cursor = some (sh.c, sh.n) ∧ s.dev.casts.find sh.c = some sh.k ∧ sh.k.th.blk = some sh.blk ∧
    sh.blk.slots[sh.n]? = some sh.sl ∧ sh.sl.phase = .idle ∧ sh.sl.ready p u = .off

/-- The word traps ILLOP at fetch wherever it stands for an instruction: step 5 of the checks ends there (R98). -/
def TrapsIllop (w : Word32) : Prop :=
  ∀ (h : Word32) (n : Nat) (q : Counts) (ws : List Word32), checkSlots h n 0 q (w :: ws) = .error { cause := 0x01, slot := n, i0 := w.setWidth 64 }

/-- One cast changed, and nothing else; a saved copy of it that waits for a RESTORE changes with it. -/
def onCast (c : Nat) (f : Cast → Cast) (s : State) : State :=
  { s with dev := { s.dev with casts := s.dev.casts.upd c f, away := s.dev.away.upd c f } }

/-- The block that a cast runs changed, and nothing else. -/
def onBlock (c : Nat) (f : Block → Block) (s : State) : State :=
  onCast c (fun k => { k with th := { k.th with blk := k.th.blk.map f } }) s

/-- The cursor gone, and nothing else. -/
def seen (s : State) : State := { s with dev := { s.dev with cursor := none } }

/-- A device step put on the agenda, `n` clocks from now, and nothing else. -/
def later (n : Nat) (i : Instr) (s : State) : State :=
  { s with dev := { s.dev with agenda := agendaInsert (s.dev.now + n) i s.dev.agenda } }

/-- Slot `n` of a block in a phase. -/
def inPhase (n : Nat) (ph : Phase) (b : Block) : Block := { b with slots := b.slots.modify n fun sl => { sl with phase := ph } }

/-- Slot `n` of a block takes a firing place of the clock (R86), and goes to a phase. -/
def placed (now n : Nat) (ph : Phase) (b : Block) : Block :=
  inPhase n ph { b with clock := now, fires := if b.clock = now then b.fires + 1 else 1 }

/-- A class V slot has fired: its result is due after its latency, and nothing else has changed (R86). -/
def Delivers (s : State) (sh : Shot) (latency : Nat) (v : Option Word) : State :=
  later latency (.slotResultDeliver sh.c sh.blk.seq sh.n v) (onBlock sh.c (placed s.dev.now sh.n .fired) (seen s))

/-- The block that a cast runs commits if it is complete (R92), and nothing else: see `Obligations.BlockCommits`. -/
def settled (c : Nat) (s : State) : State := { s with dev := s.dev.tryCommit c }

/-- A slot has fired: it takes a firing place, is done, and its block has changed by `f` besides; then the block commits if it is
complete (R89, R92). -/
def FiresWith (base : State) (sh : Shot) (f : Block → Block) : State :=
  settled sh.c (onBlock sh.c (fun b => placed base.dev.now sh.n .done (f b)) base)

/-- A class M or D slot has fired: its effect stands in the block in slot order, to be made at commit (R89, R93). -/
def Effects (base : State) (sh : Shot) (e : Effect) : State :=
  FiresWith base sh fun b => { b with effects := insertBySlot sh.n e b.effects }

/-- A class X slot has fired: it is the exit that the block has taken (R92). -/
def Exits (s : State) (sh : Shot) (x : Exit) : State := FiresWith (seen s) sh fun b => { b with exit := some x }

/-- An open value used: the next one is another, and nothing else has changed. -/
def drawn (s : State) : State := { s with dev := { s.dev with free := s.dev.free + 1 } }

/-- A command number of a thread used, and nothing else has changed. -/
def numbered (c : Nat) (s : State) : State := onCast c (fun k => { k with th := { k.th with nextId := k.th.nextId + 1 } }) s

/-- A slot traps with a code (R176). -/
def TrapsCode (base : State) (sh : Shot) (cause : Byte) (code : BitVec 16) : State :=
  { base with dev := base.dev.takeTrap sh.c { cause := cause, slot := sh.n, code := code, restart := sh.blk.addr } }

/-- A slot traps: its block is discarded, and what it would have done with it: see `Obligations.TrapEntry`. -/
def Traps (base : State) (sh : Shot) (cause : Byte) (i0 i1 : Word) : State :=
  { base with dev := base.dev.takeTrap sh.c { cause := cause, slot := sh.n, i0 := i0, i1 := i1, restart := sh.blk.addr } }

/-- A site named by an operand, x in bits [7:0] and y in [14:8], lies within the cast (R154, R216, R306). -/
def NamesSite (sh : Shot) (a : Word) : Prop := a.toNat % 2 ^ 8 < 6 * sh.k.wb ∧ a.toNat / 2 ^ 8 % 2 ^ 7 < 6 * sh.k.hb

/-- The number of that site. -/
def siteNamed (a : Word) : Nat := 144 * (a.toNat / 2 ^ 8 % 2 ^ 7) + a.toNat % 2 ^ 8

/-- A truth value as a register holds it. -/
def flag (b : Bool) : Word := if b then 1 else 0

/-- `k` is the number of leading zero bits (R124). -/
def Leading (a : Word) (k : Nat) : Prop := k ≤ 64 ∧ (∀ j, j < k → a.getLsbD (63 - j) = false) ∧ (k < 64 → a.getLsbD (63 - k) = true)

/-- `k` is the number of trailing zero bits (R124). -/
def Trailing (a : Word) (k : Nat) : Prop := k ≤ 64 ∧ (∀ j, j < k → a.getLsbD j = false) ∧ (k < 64 → a.getLsbD k = true)

/-- A narrow token (R19, R20). -/
def narrow (kind low : Nat) (v : Word) : Token :=
  { wide := false, ctl := BitVec.ofNat 16 (32 * kind + low), data := v.setWidth 1024, side := 0 }

/-- The address of an access of the slot's thread is translated to `q`, which leaves the device `d`, its TLBs filled (R44 to R58). -/
def Translates (s : State) (sh : Shot) (va : Word) (acc : Access) (q : Placed) (d : Dev) : Prop :=
  Dev.translate s.mem (seen s).dev sh.k.via sh.k.tenant va acc = (.ok q, d)

/-- An address of the slot's thread is not translated, for the reason `f` (R58). -/
def Faults (s : State) (sh : Shot) (va : Word) (acc : Access) (f : XFault) (d : Dev) : Prop :=
  Dev.translate s.mem (seen s).dev sh.k.via sh.k.tenant va acc = (.error f, d)

/-- The trap of an access that is not translated (R58, R184): the subcode, the address, and the syndrome of a control thread. -/
def XlatTraps (base : State) (sh : Shot) (va : Word) (acc : Access) (f : XFault) : State :=
  let synd := f.sub + 16 * f.lvl + 128 * bit (acc == .store) + 256 * bit (acc == .fetch) + 65536 * (sh.k.tenant % 256)
  let tr : Trap := { cause := 0x08, sub := BitVec.ofNat 8 f.sub, slot := sh.n, i0 := va, i1 := BitVec.ofNat 64 synd, restart := sh.blk.addr }
  { base with dev := base.dev.takeTrap sh.c tr }

/-- The bytes of an access of a size (R132). -/
def width : Size → Nat
  | .b1 => 1
  | .b2 => 2
  | .b4 => 4
  | .b8 => 8

/-- The loads of global memory (R132, R133): the operands used, the address, the bytes read, and whether they are read as signed. -/
def loadForm : Instr → Word → Word → Option (Uses × Word × Nat × Bool)
  | .ldZ8 _ i _, a, _ => some (⟨true, false, false⟩, a + i.signExtend 64, 1, false)
  | .ldS8 _ i _, a, _ => some (⟨true, false, false⟩, a + i.signExtend 64, 1, true)
  | .ldZ16 _ i _, a, _ => some (⟨true, false, false⟩, a + i.signExtend 64 * 2, 2, false)
  | .ldS16 _ i _, a, _ => some (⟨true, false, false⟩, a + i.signExtend 64 * 2, 2, true)
  | .ldZ32 _ i _, a, _ => some (⟨true, false, false⟩, a + i.signExtend 64 * 4, 4, false)
  | .ldS32 _ i _, a, _ => some (⟨true, false, false⟩, a + i.signExtend 64 * 4, 4, true)
  | .ld64 _ i _, a, _ => some (⟨true, false, false⟩, a + i.signExtend 64 * 8, 8, false)
  | .ldx _ .z8 _ _, a, b => some (⟨true, true, false⟩, a + b, 1, false)
  | .ldx _ .s8 _ _, a, b => some (⟨true, true, false⟩, a + b, 1, true)
  | .ldx _ .z16 _ _, a, b => some (⟨true, true, false⟩, a + b, 2, false)
  | .ldx _ .s16 _ _, a, b => some (⟨true, true, false⟩, a + b, 2, true)
  | .ldx _ .z32 _ _, a, b => some (⟨true, true, false⟩, a + b, 4, false)
  | .ldx _ .s32 _ _, a, b => some (⟨true, true, false⟩, a + b, 4, true)
  | .ldx _ .d64 _ _, a, b => some (⟨true, true, false⟩, a + b, 8, false)
  | .ldAcqZ32 _ _ _ _, a, _ => some (⟨true, false, false⟩, a, 4, false)
  | .ldAcq64 _ _ _ _, a, _ => some (⟨true, false, false⟩, a, 8, false)
  | _, _, _ => none

/-- The bytes of a load kind, and whether they are read as signed (R132). -/
def kindForm : LoadKind → Nat × Bool
  | .z8 => (1, false)
  | .s8 => (1, true)
  | .z16 => (2, false)
  | .s16 => (2, true)
  | .z32 => (4, false)
  | .s32 => (4, true)
  | .d64 => (8, false)

/-- What `n` bytes load as, least significant byte first (R7, R132). -/
def loaded (n : Nat) (signed : Bool) (bs : List Byte) : Word :=
  if signed then BitVec.ofInt 64 (BitVec.ofNat (8 * n) (leNat bs)).toInt else BitVec.ofNat 64 (leNat bs)

/-- The effects that lower slots have recorded. -/
def lowerEffects (sh : Shot) : List (Nat × Effect) := sh.blk.effects.filter fun e => decide (e.1 < sh.n)

/-- STRM.PUSH to a channel (R150). -/
def pushesOn (ch : BitVec 3) : Instr → Bool
  | .strmPushData _ c | .strmPushIndex _ c | .strmPushDone _ c | .strmPushStop _ _ c => c == ch
  | _ => false

/-- A push to a channel may fire (R152; log entry 121): every push of a lower slot to it has fired or is off, and its FIFO of 8 has an
entry that no push of the block has reserved. -/
def MayPush (sh : Shot) (ch : BitVec 3) : Prop :=
  (∀ sl ∈ sh.blk.slots.take sh.n, ∀ i, sl.instr = some i → pushesOn ch i = true → sl.phase = .done ∨ sl.phase = .off) ∧
    (sh.k.th.push.get [] ch.toNat).length
      + (sh.blk.effects.filter fun e => match e.2 with | .push c _ => c == ch.toNat | _ => false).length < 8

/-- The pops of lower slots that have fired (R153). -/
def lowerPops (sh : Shot) : Nat :=
  (sh.blk.effects.filter fun e => match e.2 with | .pop .. => decide (e.1 < sh.n) | _ => false).length

/-- The thread as it asks for a command of an engine (R360); the command takes its number when it leaves. -/
def asker (sh : Shot) : Sender := { cast := sh.c, requester := sh.k.requester }

/-- The thread uses the sub-bank of an offset of a handle's range in this clock (R212, R226). -/
def touched (now entry off : Nat) (b : SbSt) : SbSt :=
  { b with thAt := now + 1
           thSub := ((b.hnd.get {} entry).base + off) / 128 % 8 :: (if b.thAt = now + 1 then b.thSub else []) }

/-- ATOM of an ordering (R362). -/
def atom : MemOrder → Pred → Scope → Target → Target → Instr
  | .rlx => .atomRlx
  | .acq => .atomAcq
  | .rel => .atomRel
  | .ar => .atomAr

/-- The thread of a cast changed, and nothing else. -/
def onThread (c : Nat) (f : Thread → Thread) (s : State) : State := onCast c (fun k => { k with th := f k.th }) s

/-- A site of a cast changed, and nothing else. -/
def onSite (c n : Nat) (f : Site → Site) (s : State) : State := onCast c (fun k => { k with sites := k.sites.put n (f (k.site n)) }) s

/-- A bank of a cast changed, and nothing else. -/
def onBank (c n : Nat) (f : SbSt → SbSt) (s : State) : State :=
  onSite c n (fun x => match x.el with
    | .sb b => { x with el := .sb (f b) }
    | _ => x) s

/-- The address of the word behind a block's last slot (R142). -/
def after (b : Block) : Word := b.addr + 4 * BitVec.ofNat 64 (b.slots.length + 1)

/-- The first thing of a commit (R93): the block is over, and each register named by a delivered write takes its value, the highest
slot's where several name one. A task's ENTRY block has started it, and is not started again (R96). -/
def written (c : Nat) (b : Block) (s : State) : State :=
  onCast c (fun k => { k with progress := true, th := { k.th with
    regs := b.writes.foldl (fun r w => match w.2.2 with
      | some v => r.set 0 w.2.1 v
      | none => r) k.th.regs
    blk := none
    seq := k.th.seq + 1
    startTask := k.th.startTask && k.th.inh } }) s

/-- A committed effect made: see `Obligations.EffectsLeave` and `Obligations.CommandsLeave`. -/
def made (c : Nat) (e : Effect) (s : State) : State := { s with dev := Dev.applyEffect c s.dev e }

/-- Where in memory a command acts. -/
def spanOf : Instr → Nat × Nat
  | .seAtomic r => (r.pa, 8)
  | .seCntInit r _ => (r.pa, 8)
  | .seCntDec r _ => (r.pa, 8)
  | .seCntFree r => (r.pa, 8)
  | .barrierUpdate r => (r.pa, 16)
  | _ => (0, 0)

/-- The command reads or writes memory: fences and releases order it (R72, R93, R140). -/
def touchesMemory : Instr → Bool
  | .channelRequest .. | .seAtomic .. | .seCntInit .. | .seCntDec .. | .seCntFree .. | .barrierUpdate .. | .seGrpMark .. => true
  | _ => false

/-- A command with its number in the thread's program order. -/
def withNumber (id : Nat) : Instr → Instr
  | .channelRequest r => .channelRequest { r with id := id }
  | .seAtomic r => .seAtomic { r with id := id }
  | .seCntInit r n => .seCntInit { r with id := id } n
  | .seCntDec r n => .seCntDec { r with id := id } n
  | .seCntFree r => .seCntFree { r with id := id }
  | .barrierUpdate r => .barrierUpdate { r with id := id }
  | .seGrpMark r h b o sc => .seGrpMark { r with id := id } h b o sc
  | i => i

/-- A command stands in the thread's queue of what has left it and is not performed, with the bytes that it stores, if it is a store. A
release waits for every earlier one and for the stores to replicated pages that the thread may have seen, those numbered below `stores`;
an access waits so for what stood before the last release fence (R72, R78, R140). -/
def sent (stores due lane : Nat) (rel : Bool) (pa len : Nat) (data : List Byte) (act : Instr) (t : Thread) : Thread :=
  { t with
    nextId := t.nextId + 1
    queue := t.queue ++ [{ id := t.nextId, due := due, lane := lane
                           after := if rel then t.nextId else if touchesMemory act then t.relFence else 0
                           seen := if rel then stores else if touchesMemory act then t.relSeen else 0
                           blk := t.seq, pa := pa, len := len, data := data, act := withNumber t.nextId act }] }

/-- Writes to memory left for the end of the step, and nothing else: entries for fault queues, save images for the pool. -/
def withJobs (js : List Job) (s : State) : State := { s with dev := { s.dev with jobs := s.dev.jobs ++ js } }

/-- TCAUSE (R182): CAUSE [7:0], SUB [15:8], SLOT [21:16], ASYNC [22], OVF [23], CODE [47:32]. -/
def causeWord (tr : Trap) (lost : Bool) : Word :=
  BitVec.ofNat 64 (tr.cause.toNat + 2 ^ 8 * tr.sub.toNat + 2 ^ 16 * (tr.slot % 64) + 2 ^ 22 * bit tr.async + 2 ^ 23 * bit (tr.async && lost)
    + 2 ^ 32 * tr.code.toNat)

/-- A fetched block begins if no register that it names awaits a reply, and nothing else: see `Obligations.BlockFetch`. -/
def begun (c : Nat) (s : State) : State := { s with dev := s.dev.tryBegin c }

/-- A trap of a thread, between slots: see `Obligations.TrapEntry`. -/
def trapped (c : Nat) (tr : Trap) (s : State) : State := { s with dev := s.dev.takeTrap c tr }

/-- The operand of a slot that a target field of KIND 1 to 4 names: A, B, C or the predicate (R83). -/
def operandOf (kind : Nat) (sl : Slot) : Operand :=
  match kind with
  | 1 => sl.a
  | 2 => sl.b
  | 3 => sl.c
  | _ => sl.p

/-- That operand changed. -/
def withOperand (kind : Nat) (o : Operand) (sl : Slot) : Slot :=
  match kind with
  | 1 => { sl with a := o }
  | 2 => { sl with b := o }
  | 3 => { sl with c := o }
  | _ => { sl with p := o }

/-- A register that a command's target names takes a reply; a target of KIND 0 discards it (R83, R94). -/
def registerSet (x : Target) (v : Word) (t : Thread) : Thread :=
  if Target.kind x = 5 then { t with regs := t.regs.set 0 (Target.index x) v } else t

/-- A slot's result reaches each of its targets in turn: see `Obligations.ResultDelivery`. -/
def servedAll (n : Nat) (v : Option Word) (ts : List Target) (b : Block) : Block := ts.foldl (fun b t => b.serve n v t) b

/-- The head of an input is consumed, and nothing else: see `Obligations.TokensMove`. -/
def consumed (c n : Nat) (p : InPort) (s : State) : State := onSite c n (fun x => x.take p s.dev.now) s

/-- A token is sent to every destination of an output, `latency` clocks after the firing, and nothing else: see `Obligations.TokensMove`. -/
def emitted (c n : Nat) (o : OutPort) (latency : Nat) (t : Token) (s : State) : State := { s with dev := s.dev.emit c n o latency t }

/-- A token is sent on every output that the resident context enables, in the form of its network (R22, R155, R156). -/
def emittedAll (c n : Nat) (make : Bool → Token) (s : State) : State := { s with dev := s.dev.emitAll c n make }

/-- A token leaves on one route: its slot is taken, and it is accepted 1 + h + 8 s clocks after it counts as fired (R24, R25). -/
def sentOn (c extra : Nat) (t : Token) (r : Route) (s : State) : State :=
  later (extra + (if r.bus then 2 else 1 + r.h + 8 * r.s)) (.tokenAccept c r.dst t)
    (onCast c (fun k => k.takeSlot s.dev.now r.dst) s)

/-- A firing ends, and nothing else: see `Obligations.TokensMove`. -/
def firingEnds (c n : Nat) (s : State) : State := { s with dev := s.dev.endFiring c n }

/-- The open wait of a number ends (R40, R97). -/
def waitEnds (c id : Nat) (s : State) : State := onThread c (fun t => (t.completeWait id).wake s.dev.now) s

/-- A node of the armature changed, and nothing else. -/
def onNode (c n : Nat) (f : Node → Node) (s : State) : State := onSite c n (fun x => { x with node := f x.node }) s

/-- A constant K written to a context (R154, R193): bits [127:96] of its ECW. -/
def withK (ctx : Nat) (v : BitVec 32) (x : Site) : Site :=
  { x with ecw := x.ecw.set 0 ctx (v ++ (x.ecw.get 0 ctx).extractLsb' 0 96 : BitVec (32 + 96)) }

/-- Under a node without counters a firing is a round boundary: waiting constants take effect (R154). -/
def roundBegins (c n : Nat) (s : State) : State := onSite c n (fun x => if scwCounters x.scwNow = 0 then x.applyArgs else x) s

/-- A clock of an element used without a firing (R207). -/
def clockUsed (c n : Nat) (s : State) : State := onSite c n (fun x => { x with actAt := s.dev.now + 1 }) s

/-- A converter, a vector element changed, and nothing else. -/
def onConv (c n : Nat) (f : CxSt → CxSt) (s : State) : State :=
  onSite c n (fun x => match x.el with
    | .cx v => { x with el := .cx (f v) }
    | _ => x) s
def onVec (c n : Nat) (f : VeSt → VeSt) (s : State) : State :=
  onSite c n (fun x => match x.el with
    | .ve v => { x with el := .ve (f v) }
    | _ => x) s

/-- A token sent where there is one. -/
def emittedIf (c n : Nat) (o : OutPort) (latency : Nat) (t : Option Token) (s : State) : State :=
  match t with
  | none => s
  | some t => emitted c n o latency t s

/-- Tokens that follow on Y, still to be sent. -/
def followed (c n : Nat) (ts : List Token) (s : State) : State := onSite c n (fun x => { x with outq := x.outq ++ ts.map fun t => (.y, t) }) s

/-- A token whose slots were taken before leaves on an output: see `Obligations.BankSteps`. -/
def sentTaken (c n : Nat) (o : OutPort) (t : Token) (s : State) : State := { s with dev := s.dev.emitTaken c n o t }

/-- A reply is on its way to a thread, at most `bound` clocks, and nothing else has changed. -/
def Replies (s : State) (bound c pid : Nat) (v0 v1 : Word) (t : State) : Prop :=
  ∃ delay, delay ≤ bound ∧ t = drawn (later delay (.classDReply c pid v0 v1) s)

/-- An access of a bank or port is made: its tokens are consumed, its generator advances, its firing ends. -/
def accessEnds (c n : Nat) (ecw : BitVec 128) (s : State) : State :=
  let s := if ecw.getLsbD 8 then consumed c n .a s else s
  let s := if ecw.getLsbD 9 then consumed c n .b s else s
  let s := if ecw.getLsbD 12 then onBank c n (fun b => { b with gen := b.gen.advance }) s else s
  firingEnds c n (onSite c n (fun x => { x with skip := false }) s)

/-- A matrix element changed, and nothing else. -/
def onMatrix (c n : Nat) (f : MxSt → MxSt) (s : State) : State :=
  onSite c n (fun x => match x.el with
    | .mx m => { x with el := .mx (f m) }
    | _ => x) s

/-- An ERROR token of a matrix element's own is to be sent on every enabled output (R299). -/
def mxErrs (c n : Nat) (k : Cast) (sub : Nat) (s : State) : State := { s with dev := s.dev.mxError c n k sub }

/-- An entry of an operand slot changed (R286). -/
def withSlot (i : Nat) (f : MxSlot → MxSlot) (m : MxSt) : MxSt := { m with slots := m.slots.put i (f (m.slots.get {} i)) }

/-- A command changed (R295). -/
def withCmd (id : Nat) (f : MxCmd → MxCmd) (m : MxSt) : MxSt := { m with cmds := m.cmds.map fun x => if x.id = id then f x else x }

/-- A field of a command word or token. -/
def bitsAt (w : BitVec 64) (lo len : Nat) : Nat := w.toNat / 2 ^ lo % 2 ^ len

/-- A stream operator changed, and nothing else. -/
def onOp (c n : Nat) (f : SoSt → SoSt) (s : State) : State :=
  onSite c n (fun x => match x.el with
    | .so o => { x with el := .so (f o) }
    | _ => x) s

/-- What an operator has seen of an input changed. -/
def withInput (p : InPort) (f : SoIn → SoIn) (o : SoSt) : SoSt :=
  match p with
  | .b => { o with b := f o.b }
  | _ => { o with a := f o.a }

/-- The heads that a step of an operator takes are consumed, and counted. -/
def taken (c n : Nat) (ps : List InPort) (s : State) : State :=
  ps.foldl (fun s p => onOp c n (withInput p fun i => { i with index := i.index + 1, checked := false }) (consumed c n p s)) s

/-- A malformation (R324): the record to the thread, the ERROR tokens, and SKIP. -/
def malformed (c n sub : Nat) (p : InPort) (t : Token) (ix : Nat) (s : State) : State := { s with dev := s.dev.malf c n sub p t ix }

/-- A channel of a cast changed, and nothing else. -/
def onChan (c cix : Nat) (f : Chan → Chan) (s : State) : State := onCast c (fun k => { k with chans := k.chans.modify {} cix f }) s

/-- A channel's next act comes after an open number of clocks. -/
def paced (c cix : Nat) (s : State) : State :=
  drawn (onChan c cix (fun x => { x with due := s.dev.now + 1 + Config.openDelay s.dev.free }) s)

/-- A channel freezes at a record: see R357. -/
def frozenAt (c cix : Nat) (k : Cast) (r : CopyRec) (e : CopyErr) (s : State) : State := { s with dev := s.dev.freezeChan c cix k r e }

/-- A synchronisation engine changed, and nothing else. -/
def onEngine (die : Nat) (f : SeSt → SeSt) (s : State) : State := { s with dev := { s.dev with se := s.dev.se.modify {} die f } }

/-- A synchronisation engine writes bytes, for a command of an agent or of its own accord: see `Obligations.MemorySteps`. -/
def engineWritesFor (agent : Agent) (id tenant pa : Nat) (rpl : Option Nat) (data : List Byte) (s : State) : State :=
  s.perform { agent := agent, tenant := tenant, pa := pa, write := true, len := data.length, data := data, rpl := rpl, id := id }
def engineWrites (tenant pa : Nat) (rpl : Option Nat) (data : List Byte) (s : State) : State := engineWritesFor .firmware 0 tenant pa rpl data s

/-- Command number `id` of a thread is performed: nothing waits for it any more (R93). -/
def performed (c id : Nat) (s : State) : State :=
  onThread c (fun t => { t with queue := t.queue.filter fun f => f.id != id }) s

/-- An access of an agent is performed, if every replica has applied it: see `Obligations.MemorySteps`. -/
def settledFor (agent : Agent) (id : Nat) (s : State) : State := { s with dev := s.dev.settle agent id }

/-- A counter request is performed: it leaves its thread's queue, when the cast that sent it is still the one of its number. -/
def counted (r : CntReq) (s : State) : State :=
  match r.source with
  | .thread c uid => if ((s.dev.casts.find c).or (s.dev.away.find c)).any fun k => k.uid == uid then performed c r.id s else s
  | _ => s

/-- A held request is given up (R376): a counter's leaves its thread's queue, a wait's ends the wait. -/
def passedOver (act : Instr) (s : State) : State :=
  match act with
  | .seCntInit r _ | .seCntDec r _ => counted r s
  | .seWaitRegister r | .seGrpBarArrive r _ => onThread r.cast (fun t => (t.completeWait r.id).wake s.dev.now) s
  | _ => s

/-- The waits of an engine that satisfy a condition end. -/
def waitsEnd (die : Nat) (p : WaitEnt → Bool) (s : State) : State := { s with dev := s.dev.finishWaits die p }

/-- A step after an open number of clocks. -/
def sometime (i : Instr) (s : State) : State := drawn (later (Config.openDelay s.dev.free) i s)

/-- What a new value of a location is, of its old one and the operand, both of `w` bits (R363); the float operations are those of
`Sys2Proof.Machine.atomNew`. -/
def AtomGives (op : AtomOp) (w old b new : Nat) : Prop :=
  let signed := fun (x : Nat) => if x < 2 ^ (w - 1) then (x : Int) else (x : Int) - 2 ^ w
  match op with
  | .add => new = (old + b) % 2 ^ w
  | .and => new = old &&& b
  | .or => new = old ||| b
  | .xor => new = old ^^^ b
  | .mins => new = if signed b < signed old then b else old
  | .maxs => new = if signed old < signed b then b else old
  | .minu => new = min old b
  | .maxu => new = max old b
  | .swap => new = b
  | f => new = atomNew f w old b

/-- An asynchronous record of a counter, of a group (R169, R369): to the thread, or to a fault queue. -/
def underflows (r : CntReq) (sub : Byte) (excess : Nat) (s : State) : State := { s with dev := s.dev.cntUnder r sub excess }
def strays (c : Nat) (sub : Byte) (h bitIx : Word) (s : State) : State := { s with dev := s.dev.grpRange c sub h bitIx }

/-- A request joins the hold queue of its tenant's translation entry (R375). -/
def heldBack (die tenant : Nat) (i : Instr) (s : State) : State :=
  onEngine die (fun x => { x with hold := x.hold.modify [] ((s.dev.tteOf die tenant).getD 64) fun q => q ++ [i] }) s

/-- The counter of a request, put in, or taken out (R366). -/
def withCnt (e : CntEnt) (l : List CntEnt) : List CntEnt := l.filter (fun x => x.pa != e.pa || x.tenant != e.tenant) ++ [e]
def withoutCnt (r : CntReq) (l : List CntEnt) : List CntEnt := l.filter fun x => x.pa != r.pa || x.tenant != r.tenant

/-- A counter that has reached 0 is released (R367): its waits end, and the dispatchers hear of it. -/
def released (die v : Nat) (r : CntReq) (s : State) : State :=
  if v = 0 then drawn (later (Config.openDelay s.dev.free) (.taskReady r.tenant r.pa) (waitsEnd die (fun w => w.onCnt r) s)) else s

/-- A group changed; an episode that is complete closes; a group is dissolved (R164, R167). -/
def onGroup (h : Word) (f : GrpEnt → GrpEnt) (s : State) : State :=
  onEngine (h.toNat / 2 ^ 12 % 8) (fun x => { x with grps := x.grps.modify {} (h.toNat % 2 ^ 12) f }) s
def episodeEnds (h : Word) (s : State) : State := { s with dev := Dev.closeEpisode h 2 s.dev }
def dissolved (h : Word) (s : State) : State := { s with dev := s.dev.freeGroup h }

/-- The host interface, the boot sequence, the scheduler, the placer changed, and nothing else. -/
def onHost (f : HostSt → HostSt) (s : State) : State := { s with dev := { s.dev with host := f s.dev.host } }
def onBoot (f : BootSt → BootSt) (s : State) : State := { s with dev := { s.dev with boot := f s.dev.boot } }
def onSched (f : SchedSt → SchedSt) (s : State) : State := { s with dev := { s.dev with sch := f s.dev.sch } }
def onPlacer (f : PlacerSt → PlacerSt) (s : State) : State := { s with dev := { s.dev with pl := f s.dev.pl } }

/-- A request on its way to the placer's queue, in its place among those of its clock (R384): see `Obligations.RegisterSteps`. -/
def asked (a : PlAsk) (s : State) : State := onPlacer (fun p => { p with asks := insertAsk a p.asks }) s

/-- The byte at an address of HBM as a read finds it (R60, R64): as stored, when its line was last written under its granule's key. -/
def stands (s : State) (a : Nat) : Byte := s.dev.plainByte s.mem a

/-- A fault-queue entry left for the end of the step (R460). -/
def reported (tenant : Nat) (words : List Word) (s : State) : State := { s with dev := s.dev.postFault tenant words }

/-- A store to a replicated page sent on from its home (R77). -/
def sentToReplicas (r : MemReq) (page : Nat) (s : State) : State := { s with dev := s.dev.multicast r page }

/-- Entries dropped from every TLB (R56). -/
def tlbKept (keep : TlbEnt → Bool) (s : State) : State :=
  let all := fun (t : Tbl (List TlbEnt)) => t.map fun x => (x.1, x.2.filter keep)
  { s with dev := { s.dev with tlbPort := all s.dev.tlbPort, tlbBlock := all s.dev.tlbBlock, tlbLast := all s.dev.tlbLast } }

/-- An invalidation under way (R56, R57): its command word, and what it waits for: the blocks of threads that may have translated
addresses, the translated requests under way or held, and the stores to replicated pages. -/
def invalidates (v : Word) (of : Cast → Bool) (s : State) : State :=
  drawn (onHost (fun h => { h with
    tlbWait := (s.dev.casts.filter fun e => of e.2).map fun e =>
      { cast := e.1, uid := e.2.uid, seq := e.2.th.seq, open_ := (e.2.th.blk.map fun b => !b.effects.isEmpty).getD false }
    tlbReqs := s.dev.requests
    tlbStores := s.dev.replNo
    tlbi := { h.tlbi with fields := v &&& 0x7FF03, busy := true, due := s.dev.now + Config.openDelay s.dev.free } }) s)

/-- The word of QSLOTCMD with an operation, and the command recorded (R468). -/
def slotWord (op : Nat) (v : Word) : Word := v &&& ~~~ 0x700000 ||| BitVec.ofNat 64 (2 ^ 20 * op)
def commanded (iod : Nat) (w : Word) (s : State) : State :=
  onHost (fun h => { h with qcmd := h.qcmd.modify {} iod fun x => { x with fields := w &&& 0x73FF1F } }) s

/-- Bytes written for firmware through the tables of tenant 0, as far as they are translated (R468). -/
def storedBack (iod : Nat) (va : Word) (bs : List Byte) (s : State) : State :=
  (s.writeRun { port := none, block := none, die := 0 } 0 (.host iod) va bs).1

/-- An image has been checked (R476); whether it verifies is open (log entry 12). -/
def checked (s : State) : State := onBoot (fun b => { b with checks := b.checks + 1 }) s

/-- An I/O die is released (R476, R482), and IOD0's clock starts the governor's windows (R488, R489). -/
def iodReleased (i : Nat) (s : State) : State :=
  let s := onBoot (fun b => { b with iodrel := b.iodrel ||| BitVec.ofNat 2 (2 ^ i) })
    { s with dev := { s.dev with diepres := s.dev.diepres ||| BitVec.ofNat 10 (2 ^ (8 + i)) } }
  let s := onHost (fun h => { h with qageAt := h.qageAt.put i (s.dev.now + 1500 * max 1 (h.qsch.toNat / 2 ^ 8 % 2 ^ 16)) }) s
  if i = 0 then onSched (fun x => { x with winAt := s.dev.now + 1500000, fastAt := s.dev.now + 150000 }) s else s

/-- A message to the outside world. -/
def replied (m : OutMsg) (s : State) : State := { s with dev := { s.dev with outbox := s.dev.outbox ++ [m] } }

/-- The energy used outside tasks is debited (R437). -/
def debited (s : State) : State := { s with dev := s.dev.debitOutside }

/-- TDST of a function is bits [11:10] of its FNCFG (R450, R453). -/
def tdstSet (port fn st : Nat) (s : State) : State :=
  let w := (s.dev.host.fncfg.find (64 * port + fn)).getD (if fn = 0 then 0x100 else 0) &&& ~~~ 0xC00 ||| BitVec.ofNat 64 (1024 * st)
  onHost (fun h => { h with fncfg := h.fncfg.put (64 * port + fn) w }) s

/-- The placer takes the request at the head of its queue: `r` with the block `b`, well-formed and of operation `op`; `u` is the state
with the request taken and its block read (R383 to R385). -/
def Asked (s : State) (op : Nat) (r : PlReq) (b : PlBlock) (u : State) : Prop :=
  ∃ rest, s.dev.pl.queue = r :: rest ∧ (s.dev.pl.cur = none ∧ s.dev.pl.fin = [] ∧ ∀ e ∈ s.dev.pl.rolls, e.2.filling = false) ∧
    r.malformed b = false ∧ b.op = op ∧
    let t := onPlacer (fun p => { p with queue := rest }) s
    ((r.block = some b ∧ u = t) ∨ (r.block = none ∧ ∃ d, Dev.readBlock t.mem t.dev r.tenant r.addr = (some b, d) ∧ u = { t with dev := d }))

/-- A request completes (R387): see the last clause of `Obligations.PlacerSteps`. -/
def answered (r : PlReq) (b : PlBlock) (status : Nat) (detail result : Word) (cast : Nat) (s : State) : State :=
  s.plDone r b (status, detail) result cast

/-- The thread of a placed cast is created, at its .entry block, and the cast counts as a new one under its number (R33, R369). -/
def threadBegins (c : Nat) (s : State) : State :=
  onCast c (fun k => { k with uid := s.dev.uids + 1, th := { mode := .fetch s.dev.now, pc := k.imgVa + BitVec.ofNat 64 (k.mould.codeOff + k.mould.entry) } })
    { s with dev := { s.dev with uids := s.dev.uids + 1 } }

/-- Words of a request block written, through the tables of CD0. -/
def blockWritten (r : PlReq) (off : Nat) (bs : List Byte) (s : State) : State :=
  (s.writeRun { port := none, block := none, die := 0 } r.tenant .placer (r.addr + BitVec.ofNat 64 off) bs).1

/-- A cast frozen, thawed, carried to another place; the walls of sites (R204, R388, R401, R413). -/
def frozen (c : Nat) (s : State) : State := { s with dev := s.dev.freeze c }
def thawed (c : Nat) (s : State) : State := { s with dev := s.dev.unfreeze c }
def movedTo (i : MoveItem) (stood : Bool) (res : Tbl Nat) (s : State) : State := { s with dev := s.dev.moveCast i stood res }
def walled (sites : List (Nat × Nat)) (f : Nat → Nat → Nat) (s : State) : State :=
  { s with dev := { s.dev with walls := sites.foldl (fun t p => t.set 0xF (144 * p.2 + p.1) (BitVec.ofNat 64 (f p.1 p.2))) s.dev.walls } }

/-- The tenant for which a request acts (R384). -/
def tenantOf (r : PlReq) (b : PlBlock) : Nat := if r.tenant = 0 then b.tid else r.tenant

/-- The adapter of a port serves a ring and does not stand at a fault, and its cast is not frozen nor its row still to be filled (R394, R399, R407). -/
def ServesRing (s : State) (c ix : Nat) (k : Cast) (p : Port) (g : Ring) : Prop :=
  s.dev.casts.find c = some k ∧ k.ports[ix]? = some p ∧ p.bind = .ring g ∧ g.stopped = none ∧ k.frozen = false ∧ k.served p.site = true

/-- One port of a cast changed, or its ring. -/
def onPort (c ix : Nat) (f : Port → Port) (s : State) : State := onCast c (fun k => { k with ports := k.ports.modify ix f }) s
def onRing (c ix : Nat) (f : Ring → Ring) (s : State) : State :=
  onPort c ix (fun p => match p.bind with
    | .ring g => { p with bind := .ring (f g) }
    | _ => p) s

/-- The adapter stops before an access that was not translated, and posts PORTBIND (R399). -/
def adapterStops (c ix : Nat) (k : Cast) (va : Word) (f : XFault) (store entry : Bool) (s : State) : State :=
  reported k.tenant [0x06, BitVec.ofNat 64 (c % 65536), BitVec.ofNat 64 ix, va, f.syndrome (if store then .store else .load) 1 k.tenant]
    (onRing c ix (fun g => { g with stopped := some (va, entry) }) s)

/-- The adapter's own index moved past one entry: see the first clause of `Obligations.AdapterSteps`. -/
def indexWritten (c ix : Nat) (k : Cast) (p : Port) (g : Ring) (off : Nat) (s : State) : State := s.writeIndex c ix k p g off

/-- A token leaves a port link, and one is sent to a port's site (R204, R227). -/
def headTaken (c ix : Nat) (s : State) : State := onPort c ix (fun p => { p with q := p.q.tail, occ := p.occ - 1 }) s
def portSent (c ix : Nat) (p : Port) (t : Token) (s : State) : State :=
  onCast c (fun k => { k with progress := true }) { s with dev := s.dev.portSend c ix p t }

/-- The tokens that a pair of adapters holds (R398). -/
def heldSet (c ix : Nat) (held : List Token) (s : State) : State :=
  onPort c ix (fun p => match p.bind with
    | .peer c' ix' made _ => { p with bind := .peer c' ix' made held }
    | _ => p) s

/-- An IN port takes a token of its adapter: its context uses the port, and its cast's thread has not halted (R175, R382, R394). -/
def TakesToken (s : State) (c ix : Nat) (k : Cast) (p : Port) : Prop :=
  s.dev.casts.find c = some k ∧ k.ports[ix]? = some p ∧ k.frozen = false ∧ k.served p.site = true ∧ p.isOut = false ∧ p.paused = false ∧
    p.q = [] ∧ k.th.mode ≠ .halted ∧ k.inPortRoutes s.dev p.ctx p.phase p ≠ [] ∧ k.portMaySend s.dev p = true

/-- One task changed, and nothing else. -/
def onTask (id : Nat) (f : Task → Task) (s : State) : State := onSched (fun x => { x with tasks := x.tasks.upd id f }) s

/-- The dispatcher's reply, its acceptance of a task, a cast out of its stage, a token for a cast: see `Obligations.DispatcherSteps`. -/
def taskAnswered (src : PutSource) (r : Nat) (s : State) : State := { s with dev := s.dev.answerTask src r }
def accepted (src : PutSource) (loc : Bool) (t : Task) (s : State) : State := { s with dev := s.dev.acceptTask src loc t }
def leftStage (c : Nat) (s : State) : State := { s with dev := s.dev.leaveStage c }

/-- A task that a thread has put, in a ready queue. -/
def queued (t : Task) : Task := { t with deque := none, packet := none }

/-- A task READY, or at once STAGED when nothing is to be staged (R421). -/
def readied (now : Nat) (t : Task) : Task :=
  { t with readyAt := now, quanta := 0, st := if t.noStage ∨ (t.mws = false ∧ ∀ w ∈ t.ws, w.lvl = 0) then .staged else .ready }

/-- A task's estimate, or what corrects it, goes to its tenant's balance (R436, R437); energy counted up to now. -/
def balanced (tenant : Nat) (pj : Int) (s : State) : State := { s with dev := s.dev.addBalance tenant pj }
def usageCounted (c : Nat) (s : State) : State := { s with dev := s.dev.settleUsage c }

/-- A STAGED task becomes the pending token of a cast (R423, R425, R437). -/
def given (c id : Nat) (k : Cast) (t : Task) (s : State) : State :=
  let strip := fun (k : Cast) => { k with fifo := k.fifo.filter fun i => i != id, deque := k.deque.filter fun i => i != id }
  let u := onSched (fun x => { x with served := x.served.set 0 k.die (s.dev.now + 1) })
    (balanced t.tenant (- Int.ofNat k.estimate) (onTask id (fun t => { t with st := .pending, deque := none, est := k.estimate, energy := 0 }) s))
  onCast c (fun k => { k with task := some id, idleAt := none, th := { k.th with taskToken := some (t.parm, BitVec.ofNat 4 (min 15 (t.pri + t.quanta))) } })
    { u with dev := { u.dev with casts := u.dev.casts.map fun e => (e.1, strip e.2) } }

/-- STATE of a task's record (R427, R429), and a task discarded. -/
def stateWritten (t : Task) (code : Nat) (s : State) : State :=
  (s.writeRun { port := none, block := none, die := t.die } t.tenant (.dispatcher t.die) (t.addr + 28)
    (leBytes 4 (code + 256 * t.lost.toNat + 4096 * bit t.overq))).1
def discarded (c id code : Nat) (s : State) : State := s.discardTask c id code

/-- Direct tasks' staging cancelled (R434), an elastic stage sampled (R438), a variant selected (R439). -/
def stagingCancelled (c : Nat) (s : State) : State := s.cancelStaging c
def sampled (key : Nat) (st : Stage) (s : State) : State := { s with dev := s.dev.sampleStage key st }
def variantChosen (c : Nat) (s : State) : State := { s with dev := s.dev.selectVariant c }

/-- Words of a function's configuration and an inbound request's acceptance (R450, R451, R453, R479): the port is there, the request lies in its
BAR, the package is ready or the register file meant, the function is valid and not in ERROR. -/
def PassesGate (s : State) (port : Nat) (q : Inbound) (len : Nat) : Prop :=
  let w := s.dev.fncfgOf port q.fn
  (port = 0 ∨ (s.dev.part = .eos8 ∧ port = 1)) ∧ q.fn < 64 ∧ q.off + len ≤ barSize q ∧ (s.dev.boot.ready = true ∨ inFile q = true) ∧
    w.getLsbD 8 = true ∧ w.toNat / 2 ^ 10 % 4 ≠ 3

/-- It asks for IDE where its function requires it (R453). -/
def InStream (s : State) (port : Nat) (q : Inbound) : Prop :=
  (s.dev.fncfgOf port q.fn).getLsbD 9 = true → q.ide = true ∧ ∃ b ∈ s.dev.host.bound, b.2.1 = port ∧ b.2.2.1 = q.fn

/-- A request joins the ordering point of a port, and leaves it. -/
def arrived (port : Nat) (a : Arrival) (s : State) : State :=
  onHost (fun h => { h with nextIn := h.nextIn + 1, inbox := h.inbox.modify [] port fun l => l ++ [{ a with id := h.nextIn }] }) s
def departed (port id : Nat) (s : State) : State :=
  onHost (fun h => { h with inbox := h.inbox.set [] port ((h.inbox.get [] port).filter fun a => a.id != id) }) s

/-- A forwarded write stays until it is acknowledged (R455), and its parts go their routes (R454). -/
def forwarded (port id tenant : Nat) (f : Arrival → Arrival) (data : List Byte) (ps : List InPart) (s : State) : State :=
  let t := onHost (fun h => { h with inbox := h.inbox.modify [] port fun l => l.map fun a => if a.id = id then f a else a }) s
  { t with dev := t.dev.sendParts port id tenant data ps }

/-- The status of a sealed commit (R459), which has left the ordering point when it failed. -/
def sealedWith (port st : Nat) (e : SealSt) (ctr : Word) (status : Nat) (s : State) : State :=
  let t := onHost (fun h => { h with ecs := h.ecs.modify {} (16 * port + st) fun e => { e with last := BitVec.ofNat 8 status } }) s
  if status = 0 then t else reported e.tid.toNat [0x0C, BitVec.ofNat 64 (st + 256 * status), ctr] t

/-- Queues and slots of an I/O die (R462 to R465). -/
def onQueue (iod qid : Nat) (f : QueueEnt → QueueEnt) (s : State) : State := onHost (fun h => { h with queues := h.queues.upd (1024 * iod + qid) f }) s
def onSlot (iod n : Nat) (f : SlotSt → SlotSt) (s : State) : State := onHost (fun h => { h with slots := h.slots.upd (32 * iod + n) f }) s

/-- A queue stopped by one of its packets (R469): its slot's ERR and ERRIX, and QFAULT. -/
def queueStopped (iod qid ix reason reply : Nat) (addr : Word) (q : QueueEnt) (s : State) : State :=
  reported q.tid [0x09, BitVec.ofNat 64 (qid + 2 ^ 16 * reason + 2 ^ 24 * reply), BitVec.ofNat 64 ix, addr]
    (match q.slot with
      | some n => onSlot iod n (fun x => { x with err := true, errix := ix }) s
      | none => s)

/-- A packet's request goes to the placer (R465): see `Obligations.RegisterSteps`. -/
def slotAsks (p : PktSt) (s : State) : State :=
  asked { src := .packet p.iod p.qid p.index, at_ := s.dev.now, requester := 10496 + p.iod, tenant := p.tid, addr := p.arg } s

/-- A packet is in flight no more, and a mapped queue that has become idle wakes the firmware (R465, R468). -/
def packetGone (iod qid ix : Nat) (s : State) : State :=
  onHost (fun h => { h with
    packets := h.packets.filter fun p => !(p.iod == iod && p.qid == qid && p.index == ix)
    queues := h.queues.upd (1024 * iod + qid) fun q => { q with infl := q.infl - 1 } }) s
def idleNoted (iod qid : Nat) (s : State) : State := { s with dev := s.dev.noteIdle iod qid }

/-- A release decrement by a slot (R465). -/
def slotReleases (iod tid : Nat) (va : Word) (amt : Nat) (s : State) : State := s.slotDec iod tid va amt

end Sys2Proof.Claims

open Sys2Proof Sys2Proof.Machine Sys2Proof.Claims

/-! ## Integer arithmetic and logic (R124, R125) -/

/-- R124: ADD, SUB, AND, OR, XOR, ANDN, SHL, SHR, SAR and ADDSH deliver their results after one clock; nothing else changes. -/
def Obligations.AddLogicShift : Prop :=
  ∀ (p : Pred) (b a : Target) (s : State) (sh : Shot), Fires p ⟨true, true, false⟩ s sh →
    exec (.add p b a) s = .next (Delivers s sh 1 (some (sh.a + sh.b))) ∧
    exec (.sub p b a) s = .next (Delivers s sh 1 (some (sh.a - sh.b))) ∧
    exec (.and p b a) s = .next (Delivers s sh 1 (some (sh.a &&& sh.b))) ∧
    exec (.or p b a) s = .next (Delivers s sh 1 (some (sh.a ||| sh.b))) ∧
    exec (.xor p b a) s = .next (Delivers s sh 1 (some (sh.a ^^^ sh.b))) ∧
    exec (.andn p b a) s = .next (Delivers s sh 1 (some (sh.a &&& ~~~ sh.b))) ∧
    exec (.shl p b a) s = .next (Delivers s sh 1 (some (sh.a <<< (sh.b.toNat % 64)))) ∧
    exec (.shr p b a) s = .next (Delivers s sh 1 (some (sh.a >>> (sh.b.toNat % 64)))) ∧
    exec (.sar p b a) s = .next (Delivers s sh 1 (some (sh.a.sshiftRight (sh.b.toNat % 64)))) ∧
    ∀ n : BitVec 4, exec (.addsh p n b a) s = .next (Delivers s sh 1 (some (sh.a + sh.b <<< n.toNat)))

/-- R124, R125: products after three clocks, quotients and remainders after 34, with no trap on any operand. -/
def Obligations.MulDiv : Prop :=
  ∀ (p : Pred) (b a : Target) (s : State) (sh : Shot), Fires p ⟨true, true, false⟩ s sh →
    exec (.mul p b a) s = .next (Delivers s sh 3 (some (BitVec.ofNat 64 (sh.a.toNat * sh.b.toNat)))) ∧
    exec (.mulhS p b a) s = .next (Delivers s sh 3 (some (BitVec.ofInt 64 (sh.a.toInt * sh.b.toInt / 2 ^ 64)))) ∧
    exec (.mulhU p b a) s = .next (Delivers s sh 3 (some (BitVec.ofNat 64 (sh.a.toNat * sh.b.toNat / 2 ^ 64)))) ∧
    exec (.mulhSu p b a) s = .next (Delivers s sh 3 (some (BitVec.ofInt 64 (sh.a.toInt * sh.b.toNat / 2 ^ 64)))) ∧
    exec (.divS p b a) s = .next (Delivers s sh 34 (some (if sh.b = 0 then BitVec.allOnes 64 else
      if sh.a.toInt = -2 ^ 63 ∧ sh.b.toInt = -1 then sh.a else BitVec.ofInt 64 (sh.a.toInt.tdiv sh.b.toInt)))) ∧
    exec (.divU p b a) s = .next (Delivers s sh 34 (some (if sh.b = 0 then BitVec.allOnes 64 else BitVec.ofNat 64 (sh.a.toNat / sh.b.toNat)))) ∧
    exec (.remS p b a) s = .next (Delivers s sh 34 (some (if sh.b = 0 then sh.a else
      if sh.a.toInt = -2 ^ 63 ∧ sh.b.toInt = -1 then 0 else sh.a - sh.b * BitVec.ofInt 64 (sh.a.toInt.tdiv sh.b.toInt)))) ∧
    exec (.remU p b a) s = .next (Delivers s sh 34 (some (if sh.b = 0 then sh.a else BitVec.ofNat 64 (sh.a.toNat % sh.b.toNat))))

/-- R124, R126: MIN, MAX, CMP and TST; a condition code of CMP above 9 traps ILLOP. -/
def Obligations.Compares : Prop :=
  (∀ w : Word32, w.extractLsb' 24 8 = 0x18 → 10 ≤ (w.extractLsb' 18 4).toNat → TrapsIllop w) ∧
  ∀ (p : Pred) (b a : Target) (s : State) (sh : Shot), Fires p ⟨true, true, false⟩ s sh →
    exec (.minS p b a) s = .next (Delivers s sh 1 (some (if sh.a.toInt ≤ sh.b.toInt then sh.a else sh.b))) ∧
    exec (.minU p b a) s = .next (Delivers s sh 1 (some (if sh.a.toNat ≤ sh.b.toNat then sh.a else sh.b))) ∧
    exec (.maxS p b a) s = .next (Delivers s sh 1 (some (if sh.a.toInt ≤ sh.b.toInt then sh.b else sh.a))) ∧
    exec (.maxU p b a) s = .next (Delivers s sh 1 (some (if sh.a.toNat ≤ sh.b.toNat then sh.b else sh.a))) ∧
    exec (.cmp p .eq b a) s = .next (Delivers s sh 1 (some (flag (decide (sh.a = sh.b))))) ∧
    exec (.cmp p .ne b a) s = .next (Delivers s sh 1 (some (flag (decide (sh.a ≠ sh.b))))) ∧
    exec (.cmp p .lt b a) s = .next (Delivers s sh 1 (some (flag (decide (sh.a.toInt < sh.b.toInt))))) ∧
    exec (.cmp p .le b a) s = .next (Delivers s sh 1 (some (flag (decide (sh.a.toInt ≤ sh.b.toInt))))) ∧
    exec (.cmp p .gt b a) s = .next (Delivers s sh 1 (some (flag (decide (sh.b.toInt < sh.a.toInt))))) ∧
    exec (.cmp p .ge b a) s = .next (Delivers s sh 1 (some (flag (decide (sh.b.toInt ≤ sh.a.toInt))))) ∧
    exec (.cmp p .ltu b a) s = .next (Delivers s sh 1 (some (flag (decide (sh.a.toNat < sh.b.toNat))))) ∧
    exec (.cmp p .leu b a) s = .next (Delivers s sh 1 (some (flag (decide (sh.a.toNat ≤ sh.b.toNat))))) ∧
    exec (.cmp p .gtu b a) s = .next (Delivers s sh 1 (some (flag (decide (sh.b.toNat < sh.a.toNat))))) ∧
    exec (.cmp p .geu b a) s = .next (Delivers s sh 1 (some (flag (decide (sh.b.toNat ≤ sh.a.toNat))))) ∧
    exec (.tstZ p b a) s = .next (Delivers s sh 1 (some (flag (decide (sh.a &&& sh.b = 0))))) ∧
    exec (.tstNz p b a) s = .next (Delivers s sh 1 (some (flag (decide (sh.a &&& sh.b ≠ 0)))))

/-- R124, R128: CLZ, CTZ, POPC, EXT and MOV, of operand A alone; an extension code above 5 traps ILLOP. -/
def Obligations.BitCounts : Prop :=
  (∀ w : Word32, w.extractLsb' 24 8 = 0x25 → 6 ≤ (w.extractLsb' 18 4).toNat → TrapsIllop w) ∧
  ∀ (p : Pred) (b a : Target) (s : State) (sh : Shot), Fires p ⟨true, false, false⟩ s sh →
    (∀ k, Leading sh.a k → exec (.clz p b a) s = .next (Delivers s sh 1 (some (BitVec.ofNat 64 k)))) ∧
    (∀ k, Trailing sh.a k → exec (.ctz p b a) s = .next (Delivers s sh 1 (some (BitVec.ofNat 64 k)))) ∧
    exec (.popc p b a) s = .next (Delivers s sh 1 (some (BitVec.ofNat 64 ((List.range 64).countP fun j => sh.a.getLsbD j)))) ∧
    exec (.ext p .s8 b a) s = .next (Delivers s sh 1 (some ((sh.a.extractLsb' 0 8).signExtend 64))) ∧
    exec (.ext p .s16 b a) s = .next (Delivers s sh 1 (some ((sh.a.extractLsb' 0 16).signExtend 64))) ∧
    exec (.ext p .s32 b a) s = .next (Delivers s sh 1 (some ((sh.a.extractLsb' 0 32).signExtend 64))) ∧
    exec (.ext p .z8 b a) s = .next (Delivers s sh 1 (some (BitVec.ofNat 64 (sh.a.toNat % 2 ^ 8)))) ∧
    exec (.ext p .z16 b a) s = .next (Delivers s sh 1 (some (BitVec.ofNat 64 (sh.a.toNat % 2 ^ 16)))) ∧
    exec (.ext p .z32 b a) s = .next (Delivers s sh 1 (some (BitVec.ofNat 64 (sh.a.toNat % 2 ^ 32)))) ∧
    exec (.mov p b a) s = .next (Delivers s sh 1 (some sh.a))

/-- R124, R127: the field that starts at bit `lsb` of A and is `w` wide, and the insertion of B there, bit by bit.
R124: the three-operand MADD and SEL. -/
def Obligations.FieldsOfWords : Prop :=
  (∀ (p : Pred) (b a : Target) (s : State) (sh : Shot) (ctl v : Word) (lsb w : Nat), lsb = ctl.toNat % 64 →
    w = min (ctl.toNat / 2 ^ 8 % 64 + 1) (64 - lsb) →
    (Fires p ⟨true, true, false⟩ s sh → sh.b = ctl → (∀ j, j < 64 → v.getLsbD j = (decide (j < w) && sh.a.getLsbD (lsb + j))) →
      exec (.bfxZ p b a) s = .next (Delivers s sh 1 (some v))) ∧
    (Fires p ⟨true, true, false⟩ s sh → sh.b = ctl →
      (∀ j, j < 64 → v.getLsbD j = sh.a.getLsbD (lsb + min j (w - 1))) →
      exec (.bfxS p b a) s = .next (Delivers s sh 1 (some v))) ∧
    (Fires p ⟨true, true, true⟩ s sh → sh.z = ctl →
      (∀ j, j < 64 → v.getLsbD j = if lsb ≤ j ∧ j < lsb + w then sh.b.getLsbD (j - lsb) else sh.a.getLsbD j) →
      exec (.bfi p b a) s = .next (Delivers s sh 1 (some v)))) ∧
  (∀ (p : Pred) (b a : Target) (s : State) (sh : Shot), Fires p ⟨true, true, true⟩ s sh →
    exec (.madd p b a) s = .next (Delivers s sh 3 (some (sh.a * sh.b + sh.z))) ∧
    exec (.sel p b a) s = .next (Delivers s sh 1 (some (if sh.a.getLsbD 0 then sh.b else sh.z))))

/-- R129: the immediate forms; a shift count above 63 traps ILLOP.
R102, R103, R130: GET, LIT, MOVI, NULL and ADR. -/
def Obligations.Immediates : Prop :=
  (∀ w : Word32, w.extractLsb' 24 8 ∈ [0x35#8, 0x36#8, 0x37#8] → w.extractLsb' 15 7 ≠ 0 → TrapsIllop w) ∧
  (∀ (p : Pred) (i : BitVec 13) (n : BitVec 6) (t : Target) (s : State) (sh : Shot), Fires p ⟨true, false, false⟩ s sh →
    exec (.addi p i t) s = .next (Delivers s sh 1 (some (sh.a + i.signExtend 64))) ∧
    exec (.muli p i t) s = .next (Delivers s sh 3 (some (sh.a * i.signExtend 64))) ∧
    exec (.andi p i t) s = .next (Delivers s sh 1 (some (sh.a &&& i.signExtend 64))) ∧
    exec (.ori p i t) s = .next (Delivers s sh 1 (some (sh.a ||| i.signExtend 64))) ∧
    exec (.xori p i t) s = .next (Delivers s sh 1 (some (sh.a ^^^ i.signExtend 64))) ∧
    exec (.shli p n t) s = .next (Delivers s sh 1 (some (sh.a <<< n.toNat))) ∧
    exec (.shri p n t) s = .next (Delivers s sh 1 (some (sh.a >>> n.toNat))) ∧
    exec (.sari p n t) s = .next (Delivers s sh 1 (some (sh.a.sshiftRight n.toNat))) ∧
    exec (.cmpiEq p i t) s = .next (Delivers s sh 1 (some (flag (decide (sh.a = i.signExtend 64))))) ∧
    exec (.cmpiNe p i t) s = .next (Delivers s sh 1 (some (flag (decide (sh.a ≠ i.signExtend 64))))) ∧
    exec (.cmpiLt p i t) s = .next (Delivers s sh 1 (some (flag (decide (sh.a.toInt < i.toInt))))) ∧
    exec (.cmpiGe p i t) s = .next (Delivers s sh 1 (some (flag (decide (i.toInt ≤ sh.a.toInt))))) ∧
    exec (.cmpiLtu p i t) s = .next (Delivers s sh 1 (some (flag (decide (sh.a.toNat < (i.signExtend 64).toNat))))) ∧
    exec (.cmpiGeu p i t) s = .next (Delivers s sh 1 (some (flag (decide ((i.signExtend 64).toNat ≤ sh.a.toNat)))))) ∧
  (∀ (p : Pred) (r : BitVec 6) (i : BitVec 13) (b a t : Target) (s : State) (sh : Shot),
    (Fires .always ⟨false, false, false⟩ s sh →
      exec (.get r b a) s = .next (Delivers s sh 1 (some (sh.k.th.regs.get 0 r.toNat))) ∧
      (∀ l, sh.blk.slots[sh.n + 1]? = some l → exec (.lit .one b a) s = .next (Delivers s sh 1 (some (l.word.signExtend 64)))) ∧
      ∀ l h, sh.blk.slots[sh.n + 1]? = some l → sh.blk.slots[sh.n + 2]? = some h →
        exec (.lit .two b a) s = .next (Delivers s sh 1 (some (h.word ++ l.word)))) ∧
    (Fires p ⟨false, false, false⟩ s sh →
      exec (.movi p i t) s = .next (Delivers s sh 1 (some (i.signExtend 64))) ∧
      exec (.null p b a) s = .next (Delivers s sh 1 none) ∧
      exec (.adr p i t) s = .next (Delivers s sh 1 (some (sh.blk.addr + 4 * i.signExtend 64)))))

/-! ## Every slot (R82, R87, R88) -/

/-- R82, R87, R88: when a slot is ready. A predicate decides by bit 0 of its value; a slot that is predicated and whose predicate is
complete against execution, or holding NULL, is off; each operand that is used must hold a value. PR 0b01 traps ILLOP. -/
def Obligations.Readiness : Prop :=
  (∀ (u : Uses) (sl : Slot) (x y z : Word),
    (u.a = true → sl.a.val = some x) → (u.b = true → sl.b.val = some y) → (u.c = true → sl.c.val = some z) →
    (∃ a b c, sl.ready .always u = .on a b c ∧ (u.a = true → a = x) ∧ (u.b = true → b = y) ∧ (u.c = true → c = z)) ∧
    ∀ v : Word, sl.p.val = some v →
      (v.getLsbD 0 = true → sl.ready .onTrue u = sl.ready .always u ∧ sl.ready .onFalse u = .off) ∧
      (v.getLsbD 0 = false → sl.ready .onTrue u = .off ∧ sl.ready .onFalse u = sl.ready .always u)) ∧
  (∀ (u : Uses) (sl : Slot), sl.p.val = none → 0 < sl.p.feeders → sl.p.feeders ≤ sl.p.nulls →
    sl.ready .onTrue u = .off ∧ sl.ready .onFalse u = .off) ∧
  ∀ w : Word32, w.extractLsb' 24 8 ∉ [0x70#8, 0x71#8] → w.extractLsb' 22 2 = 1 → TrapsIllop w

/-- R88: a slot predicated off has no effect. One of class V delivers NULL in the next clock, whatever its latency; the others are
settled in this clock. It takes no firing place. -/
def Obligations.PredicatedOff : Prop :=
  ∀ (i : Instr) (s : State) (sh : Shot), (encode i).isSome = true → IsOff (predOf i) (usesOf i) s sh →
    exec i s = .next (settled sh.c (if classOf i = .V then later 1 (.slotResultDeliver sh.c sh.blk.seq sh.n none)
      (onBlock sh.c (inPhase sh.n .off) (seen s)) else onBlock sh.c (inPhase sh.n .off) (seen s)))

/-- Every instruction of a control thread answers a next state, and changes no byte of memory and no physical memory's key: stores and
commands act later, when the committed effects are performed (R93). -/
def Obligations.SlotsLeaveMemory : Prop :=
  ∀ (i : Instr) (s : State), (encode i).isSome = true → ∃ t, exec i s = .next t ∧ t.mem = s.mem

/-! ## Exits and system instructions (R142, R144, R170 to R177) -/

/-- R142, R144: the exits, in a block that has taken none.
R92: a second exit of one block traps MULTEXIT, whichever exit it is. -/
def Obligations.ExitsTaken : Prop :=
  (∀ (p : Pred) (o : BitVec 22) (s : State) (sh : Shot), sh.blk.exit = none →
    (Fires p ⟨false, false, false⟩ s sh →
      exec (.br p o) s = .next (Exits s sh (.jump (sh.blk.addr + o.signExtend 64 * 4))) ∧
      exec (.brn p) s = .next (Exits s sh (.jump (sh.blk.addr + 4 * BitVec.ofNat 64 (sh.blk.slots.length + 1)))) ∧
      (sh.k.th.ret.length < 16 → exec (.call p o) s = .next (Exits s sh (.call (sh.blk.addr + o.signExtend 64 * 4)))) ∧
      (16 ≤ sh.k.th.ret.length → exec (.call p o) s = .next (Traps (seen s) sh 0x0A 0 0)) ∧
      (sh.k.th.ret ≠ [] → exec (.ret p) s = .next (Exits s sh .ret)) ∧
      (sh.k.th.ret = [] → exec (.ret p) s = .next (Traps (seen s) sh 0x0B 0 0)) ∧
      (∀ code, exec (.trap p code) s = .next (Exits s sh (.trap sh.n code))) ∧
      (sh.k.th.inh = true → exec (.eret p) s = .next (Exits s sh .eret)) ∧
      (sh.k.th.inh = false → exec (.eret p) s = .next (Traps (seen s) sh 0x0D (sh.sl.word.setWidth 64) 0)) ∧
      exec (.halt p) s = .next (Exits s sh .halt)) ∧
    (Fires p ⟨true, false, false⟩ s sh →
      exec (.bri p) s = .next (Exits s sh (.jump sh.a)) ∧
      (sh.k.th.ret.length < 16 → exec (.calli p) s = .next (Exits s sh (.call sh.a))) ∧
      (16 ≤ sh.k.th.ret.length → exec (.calli p) s = .next (Traps (seen s) sh 0x0A 0 0)) ∧
      exec (.brcT p o) s = .next (Exits s sh (.jump (if sh.a.getLsbD 0 then sh.blk.addr + o.signExtend 64 * 4
        else sh.blk.addr + 4 * BitVec.ofNat 64 (sh.blk.slots.length + 1)))) ∧
      exec (.brcF p o) s = .next (Exits s sh (.jump (if sh.a.getLsbD 0 then sh.blk.addr + 4 * BitVec.ofNat 64 (sh.blk.slots.length + 1)
        else sh.blk.addr + o.signExtend 64 * 4))))) ∧
  (∀ (p : Pred) (o : BitVec 22) (s : State) (sh : Shot) (x : Exit), sh.blk.exit = some x →
    (Fires p ⟨false, false, false⟩ s sh →
      (∀ i ∈ [Instr.br p o, .brn p, .halt p], exec i s = .next (Traps (seen s) sh 0x05 0 0)) ∧
      (∀ code, exec (.trap p code) s = .next (Traps (seen s) sh 0x05 0 0)) ∧
      (sh.k.th.ret.length < 16 → exec (.call p o) s = .next (Traps (seen s) sh 0x05 0 0)) ∧
      (sh.k.th.ret ≠ [] → exec (.ret p) s = .next (Traps (seen s) sh 0x05 0 0)) ∧
      (sh.k.th.inh = true → exec (.eret p) s = .next (Traps (seen s) sh 0x05 0 0))) ∧
    (Fires p ⟨true, false, false⟩ s sh →
      (∀ i ∈ [Instr.bri p, .brcT p o, .brcF p o], exec i s = .next (Traps (seen s) sh 0x05 0 0)) ∧
      (sh.k.th.ret.length < 16 → exec (.calli p) s = .next (Traps (seen s) sh 0x05 0 0))))

/-- R140, R170, R174, R176, R177: fences, NOP, BKPT, YIELD, SYSRD, SYSWR and FEAT. SYSRD delivers the register as it stood when the block
began, but LCYC as it stands when the instruction fires. -/
def Obligations.SystemSlots : Prop :=
  ∀ (p : Pred) (sc : Scope) (r : SysReg) (w : BitVec 2) (code : BitVec 16) (t : Target) (s : State) (sh : Shot),
    (Fires p ⟨false, false, false⟩ s sh →
      exec (.fenceAcq p sc) s = .next (Effects (seen s) sh .fenceAcq) ∧
      exec (.fenceRel p sc) s = .next (Effects (seen s) sh .fenceRel) ∧
      exec (.fenceAr p sc) s = .next (Effects (seen s) sh .fenceAr) ∧
      exec (.nop p) s = .next (FiresWith (seen s) sh id) ∧
      (sh.k.th.dbg = false → exec (.bkpt p code) s = .next (FiresWith (seen s) sh id)) ∧
      (sh.k.th.dbg = true → exec (.bkpt p code) s = .next (TrapsCode (seen s) sh 0x21 code)) ∧
      exec (.yield p) s = .next (Effects (seen s) sh .yield) ∧
      (r ≠ .lcyc → exec (.sysrd p r t) s = .next (Delivers s sh 1 (some (sh.blk.sys.get 0 r.code.toNat)))) ∧
      exec (.sysrd p .lcyc t) s = .next (Delivers s sh 1 (some (BitVec.ofNat 64 (s.dev.now - s.dev.relClock.get 0 sh.k.die)))) ∧
      exec (.feat p w t) s = .next (Delivers s sh 1 (some (if w = 0 then s.dev.featacc.w0 else if w = 1 then s.dev.featacc.w1
        else if w = 2 then s.dev.featacc.w2 else s.dev.featacc.w3)))) ∧
    (Fires p ⟨true, false, false⟩ s sh → exec (.syswr p r) s = .next (Effects (seen s) sh (.syswr r sh.a)))

/-! ## Commands of the fabric (R147 to R157, R168) -/

/-- R151 to R157, R168: STRM.GO, the four STRM.PUSHes, STRM.POP, ARG.SET, CTX.SW, DRAIN, STRM.WAIT and WAIT.TOK complete under the conditions
named here: exec answers the next state in which the slot has fired and its command is recorded for commit. STRM.PUSH.DATA, .INDEX, .STOP and .DONE fire when every push of
a lower slot to their channel is settled and an entry of its FIFO is free behind those that the block has reserved, with the token that the
rule gives; else they are left alone. STRM.POP fires while fewer than sixteen pops are outstanding, those of lower slots counted, and else
is left alone. STRM.GO and CTX.SW fire unless the armature runs, and then trap ARMBUSY. ARG.SET fires for a site of the cast, to arrive within
4 + h + 8 × s clocks of commit, and else traps ARGRANGE. DRAIN, STRM.WAIT and WAIT.TOK always fire. What each does at commit is stated by
`Obligations.EffectsLeave` and `Obligations.CommandsLeave`.
Where the spec leaves a point open this is the model's choice: log entries 3, 41 and 121. -/
def Obligations.FabricCommands : Prop :=
  ∀ (p : Pred) (ch lvl : BitVec 3) (ctx : BitVec 2) (x : BitVec 8) (y : BitVec 7) (task : Bool) (mask : BitVec 8) (b a : Target)
    (s : State) (sh : Shot),
    (Fires p ⟨false, false, false⟩ s sh →
      (sh.k.th.armst ≠ 1 → exec (.strmGo p) s = .next (Effects (seen s) sh .go) ∧
        exec (.ctxSw p ctx) s = .next (Effects (seen s) sh (.wait (.ctxSw ctx.toNat)))) ∧
      (sh.k.th.armst = 1 → exec (.strmGo p) s = .next (Traps (seen s) sh 0x0E (sh.sl.word.setWidth 64) 0) ∧
        exec (.ctxSw p ctx) s = .next (Traps (seen s) sh 0x0E (sh.sl.word.setWidth 64) 0)) ∧
      exec (.drain p) s = .next (Effects (seen s) sh (.wait (.drain false))) ∧
      exec (.strmWait p) s = .next (Effects (seen s) sh (.wait .strmWait)) ∧
      exec (.waitTok p task mask) s = .next (Effects (seen s) sh (.wait (.waitTok mask task))) ∧
      (MayPush sh ch →
        exec (.strmPushStop p lvl ch) s = .next (Effects (seen s) sh (.push ch.toNat (narrow 1 lvl.toNat 0))) ∧
        exec (.strmPushDone p ch) s = .next (Effects (seen s) sh (.push ch.toNat (narrow 2 0 0)))) ∧
      (¬ MayPush sh ch →
        exec (.strmPushStop p lvl ch) s = .next (seen s) ∧ exec (.strmPushDone p ch) s = .next (seen s)) ∧
      (sh.k.th.pops.length + lowerPops sh < 16 →
        exec (.strmPop p ch b a) s = .next (Effects (numbered sh.c (seen s)) sh (.pop sh.k.th.nextId ch.toNat a b))) ∧
      (16 ≤ sh.k.th.pops.length + lowerPops sh → exec (.strmPop p ch b a) s = .next (seen s))) ∧
    (Fires p ⟨true, false, false⟩ s sh →
      (MayPush sh ch →
        exec (.strmPushData p ch) s = .next (Effects (seen s) sh (.push ch.toNat (narrow 0 0 sh.a))) ∧
        exec (.strmPushIndex p ch) s = .next (Effects (seen s) sh (.push ch.toNat (narrow 3 0 sh.a)))) ∧
      (¬ MayPush sh ch →
        exec (.strmPushData p ch) s = .next (seen s) ∧ exec (.strmPushIndex p ch) s = .next (seen s)) ∧
      (x.toNat < 6 * sh.k.wb ∧ y.toNat < 6 * sh.k.hb → ∃ delay ≤ 4 + sh.k.way 0 (144 * y.toNat + x.toNat),
        exec (.argSet p ctx y x) s =
          .next (Effects (drawn (seen s)) sh (.argSet (elementSite x.toNat y.toNat) ctx.toNat (sh.a.setWidth 32) delay))) ∧
      (¬ (x.toNat < 6 * sh.k.wb ∧ y.toNat < 6 * sh.k.hb) →
        exec (.argSet p ctx y x) s = .next (Traps (seen s) sh 0x0F (sh.sl.word.setWidth 64) 0)))

/-! ## Matrix elements, handles and ports (R216 to R219, R233, R306) -/

/-- R216, R218, R219, R306, R309: MX.CLAIM, MX.REL, MX.SCALE, MX.STAT, HND.NEW, HND.GIVE, HND.TAKE, HND.DROP, HND.INFO and PORT.RES
complete, the first five and PORT.RES for every argument that names a site of the cast, HND.GIVE and HND.DROP for a handle that is held, the
others for every argument: exec answers the next state in which the slot has fired and its command is recorded for commit, or its result on its
way. The commands reach their site in order within 4 + h + 8 × s clocks of commit; HND.GIVE and
HND.DROP act at commit, and MX.SCALE at a site that is no matrix element waits for nothing.
Where the spec leaves a point open this is the model's choice: log entry 3. -/
def Obligations.SiteCommands : Prop :=
  ∀ (p : Pred) (b a : Target) (f : StatForm) (act : Resume) (s : State) (sh : Shot),
    let m := elementSite (sh.a.toNat % 2 ^ 8) (sh.a.toNat / 2 ^ 8 % 2 ^ 7)
    let n := siteNamed sh.a
    let pid := sh.k.th.nextId
    (Fires p ⟨true, true, false⟩ s sh → NamesSite sh sh.a →
      (∃ delay ≤ 4 + sh.k.way 0 m, exec (.mxClaim p a) s = .next (Effects (drawn (numbered sh.c (seen s))) sh
        (.defer .plain pid a 0 false (100 + m) false delay (.mxClaimServe sh.c pid m sh.b)))) ∧
      (∃ delay ≤ 4 + sh.k.way 0 m, exec (.mxRel p) s = .next (Effects (drawn (seen s)) sh
        (.issue (100 + m) false delay (.mxRelArrive sh.c m (sh.b.toNat % 16))))) ∧
      (∃ delay ≤ 4 + sh.k.way 0 m, exec (.mxStat p f a) s = .next (Effects (drawn (numbered sh.c (seen s))) sh
        (.defer .plain pid a 0 false (100 + m) false delay (.mxStatServe sh.c pid m f (sh.b.toNat % 16))))) ∧
      (∀ mx, (sh.k.site m).el = .mx mx → ∃ delay ≤ 4 + sh.k.way 0 m, exec (.mxScale p) s = .next (FiresWith (drawn (seen s)) sh fun b =>
        { b with effects := insertBySlot sh.n (.issue (100 + m) false delay (.mxScaleWrite sh.c m (sh.b.setWidth 32)))
                   (insertBySlot sh.n (.wait .mxScale) b.effects) })) ∧
      ((∀ mx, (sh.k.site m).el ≠ .mx mx) → exec (.mxScale p) s = .next (FiresWith (drawn (seen s)) sh fun b =>
        { b with effects := insertBySlot sh.n (.issue 0 false 0 (.mxScaleWrite sh.c m (sh.b.setWidth 32)))
                   (insertBySlot sh.n (.wait .mxScale) b.effects) })) ∧
      ∃ delay ≤ 4 + sh.k.way 0 n, exec (.hndNew p a) s = .next (Effects (drawn (numbered sh.c (seen s))) sh
        (.defer .plain pid a 0 false (100 + n) false delay (.sbHndNew sh.c pid n sh.b)))) ∧
    (Fires p ⟨true, true, false⟩ s sh → ¬ NamesSite sh sh.a →
      ∀ i ∈ [Instr.mxClaim p a, .mxRel p, .mxScale p, .mxStat p f a, .hndNew p a],
        exec i s = .next (Traps (seen s) sh 0x0F (sh.sl.word.setWidth 64) 0)) ∧
    (Fires p ⟨true, false, false⟩ s sh →
      (sh.holds sh.a = true →
        exec (.hndGive p) s = .next (Effects (seen s) sh (.issue (100 + n) false 0 (.sbHndGive sh.c sh.a))) ∧
        exec (.hndDrop p) s = .next (Effects (seen s) sh (.issue (100 + n) false 0 (.sbHndDrop sh.c sh.a)))) ∧
      (sh.holds sh.a = false → exec (.hndGive p) s = .next (Traps (seen s) sh 0x09 sh.a 0) ∧
        exec (.hndDrop p) s = .next (Traps (seen s) sh 0x09 sh.a 0)) ∧
      (∃ delay ≤ 4 + sh.k.way 0 n, exec (.hndTake p a) s = .next (Effects (drawn (numbered sh.c (seen s))) sh
        (.defer (.take sh.a) pid a 0 false (100 + n) false delay (.sbHndTake sh.c pid sh.a)))) ∧
      (sh.k.current sh.a = none → exec (.hndInfo p b a) s = .next (Delivers s sh 4 (some 0))) ∧
      (∀ e, sh.k.current sh.a = some e → exec (.hndInfo p b a) s = .next (Delivers s sh 4 (some (BitVec.ofNat 64
        (e.base % 2 ^ 20 + 2 ^ 20 * e.len + 2 ^ 40 * bit e.elem + 2 ^ 41))))) ∧
      (NamesSite sh sh.a → exec (.portRes p act) s = .next (Effects (seen s) sh (.portRes n act))) ∧
      (¬ NamesSite sh sh.a → exec (.portRes p act) s = .next (Traps (seen s) sh 0x0F (sh.sl.word.setWidth 64) 0)))

/-! ## Groups and waits (R160 to R167) -/

/-- R161 to R167: the group commands. GRP.NEW and GRP.JOIN need fewer than four memberships; the others but WAIT.BIT a membership. -/
def Obligations.GroupCommands : Prop :=
  ∀ (p : Pred) (o : MemOrder) (sc : Scope) (a : Target) (s : State) (sh : Shot),
    let pid := sh.k.th.nextId
    (Fires p ⟨true, true, false⟩ s sh →
      (sh.memberships < 4 → ∃ delay, exec (.grpNew p a) s = .next (Effects (drawn (numbered sh.c (seen s))) sh
        (.defer .grpNew pid a 0 false 1 false delay (.seGrpNew (asker sh) pid sh.a sh.b)))) ∧
      (4 ≤ sh.memberships → exec (.grpNew p a) s = .next (Traps (seen s) sh 0x10 (sh.sl.word.setWidth 64) 0)) ∧
      (sh.k.th.gmem.holds sh.a = true → ∃ delay, exec (.grpMark p o sc) s = .next (Effects (drawn (seen s)) sh
        (.issue 1 (o == .rel || o == .ar) delay (.seGrpMark (asker sh) sh.a sh.b o sc)))) ∧
      (sh.k.th.gmem.holds sh.a = false → exec (.grpMark p o sc) s = .next (Traps (seen s) sh 0x11 sh.a 0)) ∧
      exec (.waitBit p o sc) s = .next (Effects (seen s) sh (.wait (.waitBit sh.a sh.b o sc)))) ∧
    (Fires p ⟨true, false, false⟩ s sh →
      (sh.memberships < 4 → ∃ delay, exec (.grpJoin p a) s = .next (Effects (drawn (numbered sh.c (seen s))) sh
        (.defer .grpJoin pid a 0 false 1 false delay (.seGrpJoin (asker sh) pid sh.a)))) ∧
      (4 ≤ sh.memberships → exec (.grpJoin p a) s = .next (Traps (seen s) sh 0x10 (sh.sl.word.setWidth 64) 0)) ∧
      (sh.k.th.gmem.holds sh.a = true →
        (∃ delay, exec (.grpLeave p) s = .next (Effects (drawn (seen s)) sh (.leave sh.a delay))) ∧
        (∃ delay, exec (.grpFree p) s = .next (Effects (drawn (seen s)) sh (.issue 1 false delay (.seGrpFree (asker sh) sh.a)))) ∧
        exec (.grpBar p o sc) s = .next (Effects (seen s) sh (.wait (.grpBar sh.a o sc)))) ∧
      (sh.k.th.gmem.holds sh.a = false → ∀ i ∈ [Instr.grpLeave p, .grpFree p, .grpBar p o sc],
        exec i s = .next (Traps (seen s) sh 0x11 sh.a 0)) ∧
      exec (.waitBitAll p o sc) s = .next (Effects (seen s) sh (.wait (.waitBitAll sh.a o sc))))

/-! ## Memory and commands that name an address (R131 to R141, R342 to R353, R362 to R368, R414 to R416, R446 to R448) -/

/-- R134, R135: the stores. The address is aligned and translated when the instruction fires; the store itself is made after commit.
R58, R135: a store whose address is misaligned traps ALIGN with the address, one that is not translated traps XLAT with the
syndrome; nothing is stored. -/
def Obligations.Stores : Prop :=
  (∀ (p : Pred) (z : Size) (sc : Scope) (o : BitVec 20) (s : State) (sh : Shot) (q : Placed) (d : Dev) (n : Nat), n = width z →
    let store := fun (v : Word) (rel : Bool) => Effects { s with dev := d } sh
      (.store { agent := .thread sh.c, tenant := sh.k.tenant, pa := q.pa, write := true, len := n, data := leBytes n v.toNat,
                rpl := q.rpl, id := sh.n } rel)
    (Fires p ⟨true, true, false⟩ s sh → ∀ va, va = sh.a + o.signExtend 64 * BitVec.ofNat 64 n → va.toNat % n = 0 →
      Translates s sh va .store q d → exec (.st p z o) s = .next (store sh.b false)) ∧
    (Fires p ⟨true, true, true⟩ s sh → (sh.a + sh.b).toNat % n = 0 → Translates s sh (sh.a + sh.b) .store q d →
      exec (.stx p z) s = .next (store sh.z false)) ∧
    (Fires p ⟨true, true, false⟩ s sh → sh.a.toNat % n = 0 → Translates s sh sh.a .store q d →
      exec (.stRel p z sc) s = .next (store sh.b true))) ∧
  (∀ (p : Pred) (z : Size) (sc : Scope) (o : BitVec 20) (s : State) (sh : Shot),
    (Fires p ⟨true, true, false⟩ s sh → ∀ va, va = sh.a + o.signExtend 64 * BitVec.ofNat 64 (width z) →
      (va.toNat % width z ≠ 0 → exec (.st p z o) s = .next (Traps (seen s) sh 0x07 va 0)) ∧
      (va.toNat % width z = 0 → ∀ f d, Faults s sh va .store f d →
        exec (.st p z o) s = .next (XlatTraps { s with dev := d } sh va .store f))) ∧
    (Fires p ⟨true, true, true⟩ s sh →
      ((sh.a + sh.b).toNat % width z ≠ 0 → exec (.stx p z) s = .next (Traps (seen s) sh 0x07 (sh.a + sh.b) 0)) ∧
      ((sh.a + sh.b).toNat % width z = 0 → ∀ f d, Faults s sh (sh.a + sh.b) .store f d →
        exec (.stx p z) s = .next (XlatTraps { s with dev := d } sh (sh.a + sh.b) .store f))) ∧
    (Fires p ⟨true, true, false⟩ s sh →
      (sh.a.toNat % width z ≠ 0 → exec (.stRel p z sc) s = .next (Traps (seen s) sh 0x07 sh.a 0)) ∧
      (sh.a.toNat % width z = 0 → ∀ f d, Faults s sh sh.a .store f d →
        exec (.stRel p z sc) s = .next (XlatTraps { s with dev := d } sh sh.a .store f))))

/-- R91, R132, R133, R135, R136: a load that nothing holds back and whose address is aligned and translated delivers, after 28 clocks or
more, the bytes that the stores of lower slots and the thread's own stores on their way give, and else those that memory holds; host
memory needs its link. Memory stands as it was, and of the casts only the slot's block has changed.
R58, R135: a load that nothing holds back traps ALIGN on a misaligned address, and XLAT where the address is not translated.
Where the spec leaves a point open this is the model's choice: log entries 3, 24 and 107. -/
def Obligations.Loads : Prop :=
  (∀ (i : Instr) (u : Uses) (va : Word) (n : Nat) (sg : Bool) (s : State) (sh : Shot) (q : Placed) (d : Dev),
    loadForm i sh.a sh.b = some (u, va, n, sg) → Fires (predOf i) u s sh → (seen s).dev.held s.mem sh.k sh.blk sh.n i sh.a sh.b = false →
    va.toNat % n = 0 → Translates s sh va .load q d →
    (paRegion (q.readPa sh.k.die) = 1 → d.linkUp (q.readPa sh.k.die) = true) →
    ∃ t latency v, exec i s = .next t ∧ 28 ≤ latency ∧ t.mem = s.mem ∧
      v = loaded n sg ((List.range n).map fun j => (sh.k.th.forward (lowerEffects sh) (q.pa + j)).getD
        ((Dev.read s.mem d q.tid (q.readPa sh.k.die) n).1.getD j 0)) ∧
      t.dev.agenda = agendaInsert (s.dev.now + latency) (.slotResultDeliver sh.c sh.blk.seq sh.n (some v)) s.dev.agenda ∧
      t.dev.casts = (onBlock sh.c (fun b => placed s.dev.now sh.n .fired { b with slots := b.slots.modify sh.n fun sl =>
        { sl with load := some { va := va, pa := q.readPa sh.k.die, issued := s.dev.now } } }) s).dev.casts) ∧
  (∀ (i : Instr) (u : Uses) (va : Word) (n : Nat) (sg : Bool) (s : State) (sh : Shot),
    loadForm i sh.a sh.b = some (u, va, n, sg) → Fires (predOf i) u s sh → (seen s).dev.held s.mem sh.k sh.blk sh.n i sh.a sh.b = false →
    (va.toNat % n ≠ 0 → exec i s = .next (Traps (seen s) sh 0x07 va 0)) ∧
    (va.toNat % n = 0 → ∀ f d, Faults s sh va .load f d → exec i s = .next (XlatTraps { s with dev := d } sh va .load f)))

/-- R137, R138, R224: LDL and STL through a handle that the thread holds. Within the range LDL delivers the bytes of the bank after three
clocks, in a block that has no store to scratch of a lower slot, and STL records its store; beyond the range LDL delivers zero and either
records the access for TSTAT.OOB and LOOB. A handle that is not held traps HANDLE, a misaligned offset ALIGN.
Where the spec leaves a point open this is the model's choice: log entry 19. -/
def Obligations.ScratchAccess : Prop :=
  ∀ (p : Pred) (kd : LoadKind) (z : Size) (b a : Target) (s : State) (sh : Shot) (n : Nat) (sg : Bool),
    let h := sh.a
    let off := sh.b
    let loob := fun (wr : Nat) => BitVec.ofNat 64 (off.toNat % 2 ^ 32 + 2 ^ 32 * (h.toNat / 2 ^ 16 % 16) + 2 ^ 36 * (h.toNat % 2 ^ 8)
      + 2 ^ 44 * (h.toNat / 2 ^ 8 % 2 ^ 7) + 2 ^ 52 * sh.k.th.ctx.toNat + 2 ^ 55 * wr)
    sh.blk.transferred sh.c sh.n h = false →
    (Fires p ⟨true, true, false⟩ s sh → (seen s).dev.held s.mem sh.k sh.blk sh.n (.ldl p kd b a) h off = false → kindForm kd = (n, sg) →
      (sh.k.holds sh.c h = none → exec (.ldl p kd b a) s = .next (Traps (seen s) sh 0x09 h off)) ∧
      ∀ e, sh.k.holds sh.c h = some e →
        (off.toNat % n ≠ 0 → exec (.ldl p kd b a) s = .next (Traps (seen s) sh 0x07 off 0)) ∧
        (off.toNat % n = 0 → off.toNat + n ≤ e.len → (∀ x ∈ sh.blk.effects, x.1 < sh.n → ∀ c i o m v, x.2 ≠ .stl c i o m v) →
          ∀ bank, (sh.k.site (hndSite h)).el = .sb bank → exec (.ldl p kd b a) s =
            .next (Delivers (onBank sh.c (hndSite h) (touched s.dev.now (h.toNat / 2 ^ 16 % 16) off.toNat) s) sh 3
              (some (loaded n sg ((List.range n).map fun j => bank.mem.get 0 (e.base + (off.toNat + j))))))) ∧
        (off.toNat % n = 0 → e.len < off.toNat + n → exec (.ldl p kd b a) s =
          .next (Delivers (onBlock sh.c (fun b => { b with effects := insertBySlot sh.n (.outOfRange (loob 0)) b.effects }) s) sh 3 (some 0)))) ∧
    (Fires p ⟨true, true, true⟩ s sh → (seen s).dev.held s.mem sh.k sh.blk sh.n (.stl p z) h off = false → n = width z →
      (sh.k.holds sh.c h = none → exec (.stl p z) s = .next (Traps (seen s) sh 0x09 h off)) ∧
      ∀ e, sh.k.holds sh.c h = some e →
        (off.toNat % n ≠ 0 → exec (.stl p z) s = .next (Traps (seen s) sh 0x07 off 0)) ∧
        (off.toNat % n = 0 → off.toNat + n ≤ e.len →
          exec (.stl p z) s = .next (Effects (seen s) sh (.stl (hndSite h) (h.toNat / 2 ^ 16 % 16) off n sh.z))) ∧
        (off.toNat % n = 0 → e.len < off.toNat + n → exec (.stl p z) s = .next (Effects (seen s) sh (.outOfRange (loob 1)))))

/-- R342 to R345, R352, R353: the commands to the copy engine and to transaction barriers.
Where the spec leaves a point open this is the model's choice: log entry 19. -/
def Obligations.CopyCommands : Prop :=
  ∀ (p : Pred) (a : Target) (act : Resume) (o : MemOrder) (sc : Scope) (s : State) (sh : Shot) (q : Placed) (d : Dev),
    (Fires p ⟨true, false, false⟩ s sh →
      exec (.cpOpen p a) s = .next (Effects (numbered sh.c (seen s)) sh (.cpOpen sh.k.th.nextId a sh.a)) ∧
      (sh.lowerOpen isCpClose = false → sh.chanUsable sh.a = true →
        exec (.cpClose p) s = .next (Effects (seen s) sh (.cpClose sh.a))) ∧
      (sh.lowerOpen isCpClose = false → sh.chanUsable sh.a = false → exec (.cpClose p) s = .next (Traps (seen s) sh 0x09 sh.a 0)) ∧
      (sh.k.chanOpen sh.a = true → exec (.cpRes p act) s = .next (Effects (seen s) sh (.cpRes sh.a act))) ∧
      (sh.k.chanOpen sh.a = false → exec (.cpRes p act) s = .next (Traps (seen s) sh 0x09 sh.a 0))) ∧
    (Fires p ⟨true, true, false⟩ s sh →
      ((sh.lowerOpen fun i => isCpClose i || isCpPush i) = false → sh.chanUsable sh.a = true →
        (sh.k.chans.get {} (chanIx sh.a)).queue.length + sh.reserved sh.a < 8 →
        (sh.b.toNat % 64 = 0 → exec (.cpPush p) s = .next (Effects (seen s) sh (.cpPush sh.a sh.b))) ∧
        (sh.b.toNat % 64 ≠ 0 → exec (.cpPush p) s = .next (Traps (seen s) sh 0x07 sh.b 0))) ∧
      ((sh.lowerOpen fun i => isCpClose i || isCpPush i) = false → sh.chanUsable sh.a = false →
        exec (.cpPush p) s = .next (Traps (seen s) sh 0x09 sh.a 0)) ∧
      (sh.a.toNat % 16 ≠ 0 → ∀ i ∈ [Instr.cpBinit p, .cpBarv p o sc, .cpBwait p o sc],
        exec i s = .next (Traps (seen s) sh 0x07 sh.a 0)) ∧
      (sh.a.toNat % 16 = 0 → Translates s sh sh.a .store q d →
        (∃ delay, exec (.cpBinit p) s = .next (Effects (drawn { s with dev := d }) sh (.issue 0 false delay
          (.barrierUpdate { agent := .thread sh.c, requester := sh.k.requester, tenant := sh.k.tenant, pa := q.pa, rpl := q.rpl,
                            upd := .init (sh.b.setWidth 16) })))) ∧
        ∃ delay, exec (.cpBarv p o sc) s = .next (Effects (drawn { s with dev := d }) sh (.issue 0 (o == .rel || o == .ar) delay
          (.barrierUpdate { agent := .thread sh.c, requester := sh.k.requester, tenant := sh.k.tenant, pa := q.pa, rpl := q.rpl,
                            upd := .arrive (sh.b.setWidth 32) })))) ∧
      (sh.a.toNat % 16 = 0 → ∀ f d,
        (Faults s sh sh.a .store f d → ∀ i ∈ [Instr.cpBinit p, .cpBarv p o sc],
          exec i s = .next (XlatTraps { s with dev := d } sh sh.a .store f)) ∧
        (Faults s sh sh.a .load f d → exec (.cpBwait p o sc) s = .next (XlatTraps { s with dev := d } sh sh.a .load f))) ∧
      (sh.a.toNat % 16 = 0 → Translates s sh sh.a .load q d →
        exec (.cpBwait p o sc) s = .next (Effects { s with dev := d } sh (.wait (.cpBwait q.pa q.tid (sh.b.setWidth 16) o sc)))))

/-- R362 to R364: the atomics ATOM (RLX, ACQ, REL, AR), CAS and RED, which fire and record their request for commit. The control word of ATOM
gives operation [3:0] and size [5:4]; a code, a size or a pair of them that R363 does not give traps ARGRANGE. Then an address that is no
multiple of the size (8 bytes for CAS) traps ALIGN, one that is not translated as a store traps XLAT, and an operation other than ADD, SWAP
and CAS on host memory traps ARGRANGE; all else fires.
Where the spec leaves a point open this is the model's choice: log entries 3 and 6. -/
def Obligations.Atomics : Prop :=
  ∀ (p : Pred) (sc : Scope) (b a : Target) (o : MemOrder) (s : State) (sh : Shot) (q : Placed) (d : Dev) (f : XFault) (op : AtomOp) (z : Size),
    let pid := sh.k.th.nextId
    let word := sh.sl.word.setWidth 64
    let request := fun (z : Size) (kind : AtomKind) (reply : ReplyTo) => Instr.seAtomic
      { agent := .thread sh.c, requester := sh.k.requester, tenant := sh.k.tenant, pa := q.pa, rpl := q.rpl, size := z, kind := kind,
        order := o, scope := sc, reply := reply }
    let deferred := fun (delay : Nat) (z : Size) (kind : AtomKind) => Effects (drawn (numbered sh.c { s with dev := d })) sh
      (.defer (.atom sh.a) pid a b (o == .acq || o == .ar) 0 (o == .rel || o == .ar) delay (request z kind (.pending sh.c pid)))
    (Fires p ⟨true, true, true⟩ s sh →
      (11 < sh.z.toNat % 16 ∨ sh.z.toNat / 16 % 4 < 2 ∨ (8 < sh.z.toNat % 16 ∧ sh.z.toNat / 16 % 4 = 3) →
        exec (atom o p sc b a) s = .next (Traps (seen s) sh 0x0F word 0)) ∧
      (op.code.toNat = sh.z.toNat % 16 → z.code.toNat = sh.z.toNat / 16 % 4 → 2 ≤ z.code.toNat →
        (op = .fadd ∨ op = .fmin ∨ op = .fmax → z = .b4) →
        (sh.a.toNat % width z ≠ 0 → exec (atom o p sc b a) s = .next (Traps (seen s) sh 0x07 sh.a 0)) ∧
        (sh.a.toNat % width z = 0 → Faults s sh sh.a .store f d →
          exec (atom o p sc b a) s = .next (XlatTraps { s with dev := d } sh sh.a .store f)) ∧
        (sh.a.toNat % width z = 0 → Translates s sh sh.a .store q d →
          (paRegion q.pa = 1 ∧ op ≠ .add ∧ op ≠ .swap → exec (atom o p sc b a) s = .next (Traps { s with dev := d } sh 0x0F word 0)) ∧
          (¬ (paRegion q.pa = 1 ∧ op ≠ .add ∧ op ≠ .swap) →
            ∃ delay, exec (atom o p sc b a) s = .next (deferred delay z (.rmw op sh.b))))) ∧
      (sh.a.toNat % 8 ≠ 0 → exec (.cas o p sc b a) s = .next (Traps (seen s) sh 0x07 sh.a 0)) ∧
      (sh.a.toNat % 8 = 0 → Faults s sh sh.a .store f d →
        exec (.cas o p sc b a) s = .next (XlatTraps { s with dev := d } sh sh.a .store f)) ∧
      (sh.a.toNat % 8 = 0 → Translates s sh sh.a .store q d →
        ∃ delay, exec (.cas o p sc b a) s = .next (deferred delay .b8 (.cas sh.z sh.b)))) ∧
    (Fires p ⟨true, true, false⟩ s sh →
      (sh.a.toNat % width z ≠ 0 → exec (.red p z op o sc) s = .next (Traps (seen s) sh 0x07 sh.a 0)) ∧
      (sh.a.toNat % width z = 0 → Faults s sh sh.a .store f d →
        exec (.red p z op o sc) s = .next (XlatTraps { s with dev := d } sh sh.a .store f)) ∧
      (sh.a.toNat % width z = 0 → Translates s sh sh.a .store q d →
        (paRegion q.pa = 1 ∧ op ≠ .add ∧ op ≠ .swap → exec (.red p z op o sc) s = .next (Traps { s with dev := d } sh 0x0F word 0)) ∧
        (¬ (paRegion q.pa = 1 ∧ op ≠ .add ∧ op ≠ .swap) → ∃ delay, exec (.red p z op o sc) s = .next (Effects (drawn { s with dev := d }) sh
          (.issue 0 (o == .rel || o == .ar) delay (request z (.rmw op sh.b) .none))))))

/-- R366 to R368: CNT.INIT, CNT.DEC, CNT.WAIT and CNT.FREE. An address that is no multiple of 8 traps ALIGN, one that is not translated as a
store XLAT, one that is not local HBM or lies on a replicated page ARGRANGE; else they fire, with the low 32 bits of B.
Where the spec leaves a point open this is the model's choice: log entry 3. -/
def Obligations.Counters : Prop :=
  ∀ (p : Pred) (o : MemOrder) (sc : Scope) (s : State) (sh : Shot) (q : Placed) (d : Dev) (f : XFault),
    let request := fun (o : MemOrder) (sc : Scope) =>
      ({ source := .thread sh.c sh.k.uid, requester := sh.k.requester, tenant := sh.k.tenant, va := sh.a, pa := q.pa, order := o,
         scope := sc } : CntReq)
    let traps := fun (i : Instr) =>
      (sh.a.toNat % 8 ≠ 0 → exec i s = .next (Traps (seen s) sh 0x07 sh.a 0)) ∧
      (sh.a.toNat % 8 = 0 → Faults s sh sh.a .store f d → exec i s = .next (XlatTraps { s with dev := d } sh sh.a .store f)) ∧
      (sh.a.toNat % 8 = 0 → Translates s sh sh.a .store q d → paRegion (d.ownPa q.pa) ≠ 0 ∨ q.rpl.isSome = true →
        exec i s = .next (Traps { s with dev := d } sh 0x0F (sh.sl.word.setWidth 64) 0))
    let good := sh.a.toNat % 8 = 0 ∧ Translates s sh sh.a .store q d ∧ paRegion (d.ownPa q.pa) = 0 ∧ q.rpl = none
    (Fires p ⟨true, true, false⟩ s sh →
      traps (.cntInit p o sc) ∧ traps (.cntDec p o sc) ∧
      (good → (∃ delay, exec (.cntInit p o sc) s = .next (Effects (drawn { s with dev := d }) sh
          (.issue 0 (o == .rel || o == .ar) delay (.seCntInit (request o sc) (sh.b.setWidth 32))))) ∧
        ∃ delay, exec (.cntDec p o sc) s = .next (Effects (drawn { s with dev := d }) sh
          (.issue 0 (o == .rel || o == .ar) delay (.seCntDec (request o sc) (sh.b.setWidth 32)))))) ∧
    (Fires p ⟨true, false, false⟩ s sh →
      traps (.cntWait p o sc) ∧ traps (.cntFree p) ∧
      (good → exec (.cntWait p o sc) s = .next (Effects { s with dev := d } sh (.wait (.cntWait sh.a q.pa o sc))) ∧
        ∃ delay, exec (.cntFree p) s = .next (Effects (drawn { s with dev := d }) sh
          (.issue 0 false delay (.seCntFree (request .rlx .cast))))))

/-- R415, R416, R446 to R448: the requests to the dispatcher and to the placer, and LEASE.REL.
Where the spec leaves a point open this is the model's choice: log entry 3. -/
def Obligations.TaskCommands : Prop :=
  ∀ (p : Pred) (loc : Bool) (a : Target) (s : State) (sh : Shot) (q : Placed) (d : Dev),
    let pid := sh.k.th.nextId
    let own := if sh.a.toNat % 2 ^ 16 = 0 then sh.c else sh.a.toNat % 2 ^ 16
    let ask := fun (base : State) (rel : Bool) (rq : TaskReq) (delay : Nat) => Effects (drawn (numbered sh.c base)) sh
      (.defer .plain pid a 0 false 2 rel delay (.dispatchTaskPut (.thread sh.c pid) sh.k.tenant sh.k.die rq))
    (Fires p ⟨true, false, false⟩ s sh →
      (sh.a.toNat % 128 = 0 → Translates s sh sh.a .load q d →
        ∃ delay, exec (.taskPut p loc a) s = .next (ask { s with dev := d } true (.put sh.a loc) delay)) ∧
      (sh.a.toNat % 64 = 0 → Translates s sh sh.a .load q d →
        ∃ delay, exec (.taskSdef p a) s = .next (ask { s with dev := d } false (.sdef sh.a) delay)) ∧
      (∃ delay, exec (.taskInfo p a) s = .next (ask (seen s) false (.info (sh.a.toNat % 2 ^ 16)) delay)) ∧
      (∃ delay, exec (.taskUnreg p) s = .next (Effects (drawn (seen s)) sh
        (.issue 2 false delay (.dispatchTaskPut (.thread sh.c 0) sh.k.tenant sh.k.die (.unreg own))))) ∧
      (sh.a.toNat % 128 = 0 → Translates s sh sh.a .store q d →
        exec (.plReq p a) s = .next (Effects (numbered sh.c { s with dev := d }) sh (.plReq pid a sh.a)))) ∧
    (Fires p ⟨true, true, false⟩ s sh →
      ∃ delay, exec (.taskReg p a) s = .next (ask (seen s) false (.reg own (sh.b.toNat % 2 ^ 16)) delay)) ∧
    (Fires p ⟨false, false, false⟩ s sh → exec (.leaseRel p) s = .next (Effects (seen s) sh .leaseRel))

/-! ## Commit, traps and the return from them (R92, R93, R173, R182 to R186) -/

/-- R92: a block that has begun, in which no operand has clashed in this clock, goes on while an instruction slot has neither fired and
delivered nor been predicated off; complete without an exit it traps NOEXIT; complete with one it commits (R93): registers take the values
written in slot order, then the effects are made in slot order, then the exit leads on. That a block waits for its results is
log entry 5.
Where the spec leaves a point open this is the model's choice: log entry 5. -/
def Obligations.BlockCommits : Prop :=
  ∀ (s : State) (c : Nat) (k : Cast) (b : Block), s.dev.casts.find c = some k → k.th.blk = some b → b.begun = true → b.clash = none →
    ((∃ sl ∈ b.slots, sl.lit = false ∧ (sl.phase = .idle ∨ sl.phase = .fired)) → settled c s = s) ∧
    ((∀ sl ∈ b.slots, sl.lit = true ∨ sl.phase = .done ∨ sl.phase = .off) →
      (b.exit = none → settled c s = { s with dev := s.dev.takeTrap c { cause := 0x06, restart := b.addr } }) ∧
      let made : State := b.effects.foldl (fun s e => made c e.2 s) (written c b s)
      (∀ a, b.exit = some (.jump a) → settled c s = onThread c (fun t => { t with pc := a }.goOn made.dev.now) made) ∧
      (∀ a, b.exit = some (.call a) → settled c s = onThread c (fun t => { t with pc := a, ret := after b :: t.ret }.goOn made.dev.now) made) ∧
      (b.exit = some .ret → settled c s = onThread c (fun t => { t with pc := t.ret.headD 0, ret := t.ret.tail }.goOn made.dev.now) made) ∧
      (b.exit = some .halt →
        settled c s = onThread c (fun t => { t with mode := .halted, wait := none, saved := none, asyncQ := [] }) made) ∧
      (b.exit = some .eret → settled c s = onThread c (fun t => (t.eret made.dev.now).goOn made.dev.now) made) ∧
      ∀ n code, b.exit = some (.trap n code) → settled c s =
        (let s := onThread c (fun t => { t with pc := after b }) made
         { s with dev := s.dev.takeTrap c { cause := 0x20, slot := n, code := code, restart := after b } }))

/-- R97, R177: between blocks a thread fetches in the next clock, four clocks later after a YIELD, and not before its wait is over. -/
def Obligations.GoesOn : Prop :=
  ∀ (t : Thread) (now : Nat) (w : WaitSt),
    let on := { t with wait := none, yieldNext := false, mode := if t.yieldNext then .pausing (now + 4) else .fetch (now + 1) }
    (t.wait = none → t.goOn now = on) ∧
    (t.wait = some w → w.done = true ∨ (w.wait = .strmWait ∧ t.armst ≠ 1) → t.goOn now = on) ∧
    (∀ mask task ch, t.wait = some w → w.wait = .waitTok mask task → ch < 8 → mask.getLsbD ch = true → t.popsOn ch < (t.pop.get [] ch).length →
      t.goOn now = on) ∧
    (∀ mask, t.wait = some w → w.wait = .waitTok mask true → t.taskToken.isSome = true → t.goOn now = on) ∧
    (t.wait = some w → w.done = false → (∀ mask task, w.wait ≠ .waitTok mask task) → w.wait ≠ .strmWait → t.goOn now = { t with mode := .waiting }) ∧
    (t.wait = some w → w.done = false → w.wait = .strmWait → t.armst = 1 → t.goOn now = { t with mode := .waiting }) ∧
    ∀ mask task, t.wait = some w → w.done = false → w.wait = .waitTok mask task →
      (t.taskToken = none ∨ task = false) → (∀ ch, ch < 8 → mask.getLsbD ch = true → (t.pop.get [] ch).length ≤ t.popsOn ch) →
      t.goOn now = { t with mode := .waiting }

/-- R9, R93, R137, R140, R147, R174, R177, R178, R224: what stores, fences, tokens, scratch stores, and writes of registers and of system
registers do when their block commits. Only TVEC, TCAUSE, TPC and TSTAT are changed by SYSWR: of TSTAT, WRES written 0 discards the saved
wait, DBG obeys tenant 0 alone, and OOB clears where 1 is written.
Where the spec leaves a point open this is the model's choice: log entries 3, 23 and 120. -/
def Obligations.EffectsLeave : Prop :=
  ∀ (s : State) (c : Nat) (k : Cast), s.dev.casts.find c = some k →
    (∀ r rel, ∃ delay, made c (.store r rel) s = drawn (onThread c
      (sent s.dev.replNo (s.dev.now + 1 + delay) 0 rel r.pa r.data.length r.data (.channelRequest r)) s)) ∧
    made c .fenceRel s = onThread c (fun t => { t with relFence := t.nextId, relSeen := s.dev.replNo }) s ∧
    made c .fenceAr s = onThread c (fun t => { t with relFence := t.nextId, relSeen := s.dev.replNo, loadAfter := t.nextId }) s ∧
    made c .fenceAcq s = s ∧
    made c .yield s = onThread c (fun t => { t with yieldNext := true }) s ∧
    (∀ v, made c (.syswr .tvec v) s = onThread c (fun t => { t with tvec := v }) s ∧
      made c (.syswr .tcause v) s = onThread c (fun t => { t with tcause := v &&& 0x0000FFFF00FFFFFF }) s ∧
      made c (.syswr .tpc v) s = onThread c (fun t => { t with tpc := v }) s ∧
      made c (.syswr .tstat v) s = onThread c (fun t =>
        { t with wres := t.wres && v.getLsbD 1, saved := if v.getLsbD 1 then t.saved else none, savedYield := t.savedYield && v.getLsbD 1
                 dbg := if k.tenant = 0 then v.getLsbD 2 else t.dbg, oob := t.oob &&& ~~~ v.extractLsb' 8 4 }) s ∧
      ∀ r, r ≠ .tvec → r ≠ .tcause → r ≠ .tpc → r ≠ .tstat → made c (.syswr r v) s = s) ∧
    (∀ ch tok, made c (.push ch tok) s =
      if k.detached then s else onThread c (fun t => { t with push := t.push.set [] ch (t.push.get [] ch ++ [tok]) }) s) ∧
    (∀ loob, made c (.outOfRange loob) s = onThread c (fun t =>
      if t.oobSeen then t else { t with oobSeen := true, loob := loob, oob := t.oob ||| BitVec.ofNat 4 (2 ^ t.ctx.toNat) }) s) ∧
    (∀ n e off size v, made c (.stl n e off size v) s = onBank c n (fun b =>
      let at_ := (b.hnd.get {} e).base + off.toNat
      let bytes := (List.range size).foldl (fun t i => t.set 0 (at_ + i) (BitVec.ofNat 8 (v.toNat / 256 ^ i))) b.mem
      touched s.dev.now e off.toNat { b with mem := bytes }) s)

/-- R93, R94, R97, R147 to R157, R164, R166, R168, R353, R367: what commands and waits do when their block commits: a command leaves for its
engine with its number, one with a reply makes its target registers pending, STRM.GO arms the root or is done at once, STRM.POP is
outstanding and is served, ARG.SET sets out behind the writes on their way to its site, a wait begins: CTX.SW appends RECONF at once unless
another CTX.SW or DRAIN is open, DRAIN stands in line, and a wait at an engine sends its request there.
Where the spec leaves a point open this is the model's choice: log entries 3 and 41. -/
def Obligations.CommandsLeave : Prop :=
  ∀ (s : State) (c : Nat) (k : Cast), s.dev.casts.find c = some k →
    let me : Sender := { cast := c, requester := k.requester, id := k.th.nextId }
    let waits := fun (w : Wait) (t : Thread) => { t with wait := some { id := t.nextId, wait := w, done := false }, nextId := t.nextId + 1 }
    let asks := fun (w : Wait) (delay lane pa len : Nat) (rel : Bool) (act : Instr) => drawn (onThread c (fun t =>
      sent s.dev.replNo (s.dev.now + 1 + delay) lane rel pa len [] act (waits w t)) s)
    let pends := fun (pid : Nat) (ta tb : Target) (t : Thread) =>
      { t with pend := t.pend ++ [{ pid := pid, ta := ta, tb := tb, acquire := false, kind := .plain, reply := none }] }
    (∀ lane rel delay act pa len, spanOf act = (pa, len) →
      made c (.issue lane rel delay act) s = onThread c (sent s.dev.replNo (s.dev.now + delay) lane rel pa len [] act) s) ∧
    (∀ kind pid ta tb acq lane rel delay act pa len, spanOf act = (pa, len) → made c (.defer kind pid ta tb acq lane rel delay act) s =
      onThread c (fun t => sent s.dev.replNo (s.dev.now + delay) lane rel pa len [] act
        { t with pend := t.pend ++ [{ pid := pid, ord := t.nextId, ta := ta, tb := tb, acquire := acq, kind := kind, reply := none,
                                      since := s.dev.now }] }) s) ∧
    ((k.site 0).scwNow.toNat / 2 ^ 80 % 4 = 0 → made c .go s = onThread c (fun t => { t with armst := 2 }) s) ∧
    ((k.site 0).scwNow.toNat / 2 ^ 80 % 4 ≠ 0 → made c .go s = later 2 (.pulseArrive c 0 false 0) (onThread c (fun t => { t with armst := 1 }) s)) ∧
    (∀ pid ch ta tb, made c (.pop pid ch ta tb) s =
      (let u := onThread c (fun t => { pends pid ta tb t with pops := t.pops ++ [(pid, ch)] }) s; { u with dev := u.dev.servePops c })) ∧
    (∀ n ctx v delay, ∃ due, delay ≤ due ∧ (∀ t ctx' v', (t, .argWriteArrive c n ctx' v') ∈ s.dev.agenda → t ≤ s.dev.now + due) ∧
      (due = delay ∨ ∃ ctx' v', (s.dev.now + due, .argWriteArrive c n ctx' v') ∈ s.dev.agenda) ∧
      made c (.argSet n ctx v delay) s =
        later due (.argWriteArrive c n ctx v) (onCast c (fun k => { k with argFlight := k.argFlight + 1 }) s)) ∧
    (∀ w ∈ [Wait.strmWait, .mxScale], made c (.wait w) s = onThread c (waits w) s) ∧
    (∀ mask task, made c (.wait (.waitTok mask task)) s = onThread c (waits (.waitTok mask task)) s) ∧
    made c (.wait (.drain false)) s = onThread c (fun t =>
      { waits (.drain false) t with phaseOps := t.phaseOps ++ [{ sw := none, id := k.th.nextId, appended := false }] }) s ∧
    (∀ n, let u := fun (first : Bool) => onThread c (fun t =>
        { waits (.ctxSw n) t with phaseOps := t.phaseOps ++ [{ sw := some n, id := k.th.nextId, appended := first }] }) s
      (k.th.phaseOps = [] →
        made c (.wait (.ctxSw n)) s = { u true with dev := (u true).dev.appendSources c (fun wide => reconfTok wide n) (.reconf n) }) ∧
      (k.th.phaseOps ≠ [] → made c (.wait (.ctxSw n)) s = u false)) ∧
    (∀ h o sc, ∃ delay, made c (.wait (.grpBar h o sc)) s = asks (.grpBar h o sc) delay 1 0 0 (o == .rel || o == .ar) (.seGrpBarArrive me h)) ∧
    (∀ h ix o sc, ∃ delay, made c (.wait (.waitBit h ix o sc)) s = asks (.waitBit h ix o sc) delay 1 0 0 false (.seWaitRegister me)) ∧
    (∀ h o sc, ∃ delay, made c (.wait (.waitBitAll h o sc)) s = asks (.waitBitAll h o sc) delay 1 0 0 false (.seWaitRegister me)) ∧
    (∀ pa tenant ph o sc, ∃ delay, made c (.wait (.cpBwait pa tenant ph o sc)) s =
      asks (.cpBwait pa tenant ph o sc) delay 0 pa 16 false (.seWaitRegister { me with loc := some pa })) ∧
    (∀ va pa o sc, ∃ delay, made c (.wait (.cntWait va pa o sc)) s =
      asks (.cntWait va pa o sc) delay 0 pa 8 false (.seWaitRegister { me with loc := some pa })) ∧
    (∀ h delay, made c (.leave h delay) s = onThread c (fun t => sent s.dev.replNo (s.dev.now + delay) 1 false 0 0 []
      (.seGrpLeave { cast := c, requester := k.requester } h) { t with gmem := t.gmem.clear h }) s) ∧
    (∀ n act, made c (.portRes n act) s = onSite c n (fun x =>
      if x.el.fault.isSome then { x with el := x.el.unfreeze, skip := act == .skip } else x) s) ∧
    (∀ pid ta block, made c (.plReq pid ta block) s =
      (let u := onThread c (pends pid ta 0) s
       { u with dev := u.dev.ask { src := .thread c, at_ := s.dev.now, requester := k.requester, pid := pid, after := k.th.nextId,
                                   tenant := k.tenant, addr := block } })) ∧
    (∀ h, made c (.cpClose h) s = onChan c (h.toNat % 4) Chan.close s) ∧
    (∀ h head, made c (.cpPush h head) s =
      onChan c (h.toNat % 4) (fun x => { x with queue := x.queue ++ [(head, k.th.nextId, !k.th.phaseOps.isEmpty)] }) s) ∧
    (∀ h act, made c (.cpRes h act) s = onChan c (h.toNat % 4) (fun x =>
      if x.fault.isSome ∧ x.resume = none then { x with resume := some (act, k.th.nextId) } else x) s)

/-- R177, R183: a trap that is not double and finds TVEC set enters the handler: TCAUSE, TPC, TINFO and TSTAT are written, the block is
discarded, a wait that is not over is saved with the pause of a YIELD that follows it, and the handler is fetched in the next clock, or
after the pause of a YIELD that no wait precedes; nothing else changes. -/
def Obligations.TrapEntry : Prop :=
  ∀ (s : State) (c : Nat) (k : Cast) (tr : Trap), s.dev.casts.find c = some k → k.th.tvec ≠ 0 →
    (k.th.inh = false ∨ tr.async = true ∨ tr.cause = 0x20) →
    { s with dev := s.dev.takeTrap c tr } = onThread c (fun t =>
      let open_ := t.wait.any fun w => !t.waitOver w
      { t with blk := none, seq := t.seq + 1
               tcause := causeWord tr t.lost, tpc := tr.restart, tinfo := { w0 := tr.i0, w1 := tr.i1, w2 := tr.i2, w3 := tr.i3 }
               lost := t.lost && !tr.async, wres := open_, saved := if open_ then t.wait else none, wait := none
               savedYield := t.yieldNext && open_, yieldNext := false, inh := true, pc := t.tvec
               mode := if t.yieldNext && !open_ then .pausing (s.dev.now + 4) else .fetch (s.dev.now + 1) }) s

/-- R185: a double trap, and one that finds TVEC = 0, stop the thread and freeze its cast; a save image is asked for, and an entry with the
registers that the trap would have written goes to the tenant's fault queue.
Where the spec leaves a point open this is the model's choice: log entry 80. -/
def Obligations.UnhandledTrap : Prop :=
  ∀ (s : State) (c : Nat) (k : Cast) (tr : Trap) (double : Bool), s.dev.casts.find c = some k →
    double = (k.th.inh && !tr.async && tr.cause != 0x20) → double = true ∨ k.th.tvec = 0 →
    let words : List Word := [if double then 1 else 2, BitVec.ofNat 64 c, causeWord tr k.th.lost, tr.restart, tr.i0, tr.i1, tr.i2, tr.i3]
    { s with dev := s.dev.takeTrap c tr } =
      withJobs [.post k.tenant (words.flatMap fun w => leBytes 8 w.toNat), .poolSave c] (onCast c (fun k =>
        { k with frozen := true, frozenAt := if k.frozen then k.frozenAt else s.dev.now
                 th := { k.th with blk := none, seq := k.th.seq + 1, mode := .stopped, pc := tr.restart } }) s)

/-- R173, R177: ERET clears INH and WRES and fetches TPC, at once or after the wait that the trap interrupted and the pause that goes with it.
Where the spec leaves a point open this is the model's choice: log entry 18. -/
def Obligations.ReturnFromTrap : Prop :=
  ∀ (t : Thread) (now : Nat), (t.wres = true → t.saved.isSome = true ∧ t.wait = none) →
    let back := { t with inh := false, wres := false, saved := none, savedYield := false, pc := t.tpc }
    (t.wres = false → t.wait = none → t.yieldNext = false → (t.eret now).goOn now = { back with mode := .fetch (now + 1) }) ∧
    (t.wres = true → ∀ w, t.saved = some w → w.done = false → (∀ mask task, w.wait ≠ .waitTok mask task) → w.wait ≠ .strmWait →
      (t.eret now).goOn now = { back with wait := some w, yieldNext := t.yieldNext || t.savedYield, mode := .waiting }) ∧
    (t.wres = true → ∀ w, t.saved = some w → w.done = true →
      (t.eret now).goOn now = { back with wait := none, yieldNext := false
                                          mode := if t.yieldNext || t.savedYield then .pausing (now + 4) else .fetch (now + 1) })

/-! ## The steps of a control thread (R33, R85, R86, R90, R94, R96, R98, R106, R148, R177, R186, R187) -/

/-- R33, R96, R98, R183, R186: the fetch of a block. The first failing check traps, with the block's address to restart at; a sound block gives
way to an asynchronous cause queued before this clock, waits for a task at an ENTRY block or the first one after LOAD, and else is the block in execution.
R90, R94: a fetched block stands still while it reads or writes a register that awaits a reply, and else begins, with the system
registers as they stand. -/
def Obligations.BlockFetch : Prop :=
  (∀ (s : State) (c r : Nat) (k : Cast) (d : Dev), s.dev.casts.find c = some k → k.th.mode = .fetch r →
    (k.th.pc.toNat % 4 ≠ 0 → exec (.blockFetch c) s = .next (trapped c { cause := 0x07, i0 := k.th.pc, restart := k.th.pc } s)) ∧
    (∀ f, Dev.fetchBlock s.mem s.dev k = (.error f, d) → exec (.blockFetch c) s = .next (trapped c
      { cause := f.cause, sub := f.sub, slot := f.slot, i0 := f.i0, i1 := f.i1, restart := k.th.pc } { s with dev := d })) ∧
    ∀ h sl, Dev.fetchBlock s.mem s.dev k = (.ok (h, sl), d) →
      let quiet := ∀ a rest, k.th.asyncQ = a :: rest → s.dev.now ≤ a.at_
      (k.th.inh = false → (∀ a rest, k.th.asyncQ = a :: rest → a.at_ < s.dev.now →
        exec (.blockFetch c) s = .next (onThread c (fun t => { t with mode := .asyncNext }) { s with dev := d }))) ∧
      (k.th.inh = false → quiet → k.th.startTask = false → h.getLsbD 11 = true ∨ k.th.first = true →
        exec (.blockFetch c) s = .next (onThread c (fun t => { t with mode := .atEntry, first := false }) { s with dev := d })) ∧
      (k.th.inh = true ∨ (quiet ∧ (k.th.startTask = true ∨ (h.getLsbD 11 = false ∧ k.th.first = false))) →
        exec (.blockFetch c) s = .next (begun c (onThread c (fun t =>
          { t with mode := .running, first := false
                   blk := some { addr := k.th.pc, header := h, seq := k.th.seq, begun := false, slots := sl, sys := [], writes := [],
                                 effects := [], exit := none, clock := d.now, fires := 0, clash := none } }) { s with dev := d })))) ∧
  (∀ (s : State) (c : Nat) (k : Cast) (b : Block), s.dev.casts.find c = some k → k.th.blk = some b → b.begun = false →
    ((∃ sl ∈ b.slots, ∃ i, sl.instr = some i ∧ ((∃ r ta tb, i = .get r tb ta ∧ r.toNat ∈ k.th.pendingRegs) ∨
        ∃ t ∈ targetsOf i, Target.kind t = 5 ∧ Target.index t ∈ k.th.pendingRegs)) → begun c s = s) ∧
    ((∀ sl ∈ b.slots, ∀ i, sl.instr = some i → (∀ r ta tb, i = .get r tb ta → r.toNat ∉ k.th.pendingRegs) ∧
        ∀ t ∈ targetsOf i, Target.kind t = 5 → Target.index t ∉ k.th.pendingRegs) →
      begun c s = onBlock c (fun b => { b with begun := true, sys := s.dev.sysSnapshot c k }) s))

/-- R85, R86: a result reaches every target of its slot, which is done with it, and the block commits if that completes it.
R83, R85: what one target field of a result does: a value is the operand's first, a NULL is counted, and a value at an operand that holds
one, or that is complete with NULL, is OPCLASH at the lowest such slot. -/
def Obligations.ResultDelivery : Prop :=
  (∀ (s : State) (c n : Nat) (k : Cast) (b : Block) (sl : Slot) (i : Instr) (v : Option Word), s.dev.casts.find c = some k →
    k.th.blk = some b → b.slots[n]? = some sl → sl.instr = some i →
    exec (.slotResultDeliver c b.seq n v) s = .next (settled c (onThread c (fun t =>
      let b' := servedAll n v (targetsOf i) b
      { t with blk := some { b' with slots := b'.slots.modify n fun sl =>
        { sl with load := none, phase := if sl.phase = .off then .off else .done } } }) s)) ∧
    ∀ seq, seq ≠ b.seq → exec (.slotResultDeliver c seq n v) s = .next s) ∧
  (∀ (b : Block) (n : Nat) (t : Target) (sl : Slot) (x : Word), let kind := Target.kind t; let ix := Target.index t; let o := operandOf kind sl
    (kind = 0 → ∀ v, b.serve n v t = b) ∧
    (kind = 5 → ∀ v, b.serve n v t = { b with writes := insertBySlot n (ix, v) b.writes }) ∧
    (1 ≤ kind → kind ≤ 4 → b.slots[ix]? = some sl →
      b.serve n none t = { b with slots := b.slots.set ix (withOperand kind { o with nulls := o.nulls + 1 } sl) } ∧
      (o.val = none → (o.feeders = 0 ∨ o.nulls < o.feeders) →
        b.serve n (some x) t = { b with slots := b.slots.set ix (withOperand kind { o with val := some x } sl) }) ∧
      (o.val.isSome = true ∨ (0 < o.feeders ∧ o.feeders ≤ o.nulls) →
        b.serve n (some x) t = { b with slots := b.slots.set ix sl, clash := some (min ix (b.clash.getD ix)) })))

/-- R94, R96, R148, R177, R186, R187: asynchronous causes and their traps, replies in the order of issue, the end of the armature's run, the end
of a pause, and the halt of a thread.
Where the spec leaves a point open this is the model's choice: log entry 65. -/
def Obligations.ThreadEvents : Prop :=
  ∀ (s : State) (c : Nat) (k : Cast), s.dev.casts.find c = some k →
    (∀ a, exec (.asyncCauseArrive c a) s = .next (onThread c (fun t =>
      if t.asyncQ.length < 8 then { t with asyncQ := insertCause { a with at_ := s.dev.now } t.asyncQ } else { t with lost := true }) s)) ∧
    (∀ (a : AsyncCause) (l : List AsyncCause), (∀ b ∈ l, b.at_ = a.at_ → b.code.toNat ≤ a.code.toNat) →
      insertCause a l = l ++ [a] ∧
      ∀ b rest, b.at_ = a.at_ → a.code.toNat < b.code.toNat → insertCause a (l ++ b :: rest) = l ++ a :: b :: rest) ∧
    (∀ a rest, k.th.asyncQ = a :: rest → k.th.inh = false → k.th.blk = none → exec (.asyncTrapTake c) s = .next (trapped c
      { cause := a.code, sub := a.sub, async := true, i0 := a.info0, i1 := a.info1, i2 := a.info2, i3 := a.info3, restart := k.th.pc }
      (onThread c (fun t => { t with asyncQ := rest }) s))) ∧
    (∀ pid v0 v1, exec (.classDReply c pid v0 v1) s = .next (begun c (onThread c (fun t => t.reply pid v0 v1) s))) ∧
    (∀ (t : Thread) p v0 v1, t.pend = [p] → p.reply = none → p.kind = .plain → t.reply p.pid v0 v1 =
      registerSet p.tb v1 (registerSet p.ta v0 { t with pend := [] })) ∧
    (∀ (t : Thread) p q v0 v1, t.pend = [p, q] → p.reply = none → q.reply = none → p.pid ≠ q.pid →
      t.reply q.pid v0 v1 = { t with pend := [p, { q with reply := some (v0, v1) }] }) ∧
    (exec (.rootDoneArrive c) s = .next (onThread c (fun t => if t.armst = 1 then
      (if t.mode = .waiting then { t with armst := 2 }.goOn s.dev.now else { t with armst := 2 }) else t) s)) ∧
    (∀ u, k.th.mode = .pausing u → u ≤ s.dev.now → s.dev.yieldFor c k = none → k.frozen = false →
      exec (.yieldPauseEnd c) s = .next (onThread c (fun t => { t with mode := .fetch s.dev.now }) s)) ∧
    (∀ u x, k.th.mode = .pausing u → u ≤ s.dev.now → s.dev.yieldFor c k = some x → k.frozen = false → k.threadQuiet = true →
      s.dev.saveReady c k = false → exec (.yieldPauseEnd c) s = .next (onCast c (fun k => { k with
        frozen := true, frozenAt := if k.frozen then k.frozenAt else s.dev.now, saving := some .yield }) s)) ∧
    ((∀ b, k.th.blk = some b → b.clash = none) →
      exec (.preemptHalt c) s = .next (onCast c (fun k => { k with
        frozen := true, frozenAt := if k.frozen then k.frozenAt else s.dev.now, saving := k.saving.filter fun x => x != .yield
        th := k.th.halt s.dev.now }) s)) ∧
    (∀ (t : Thread) now, (∀ b, t.blk = some b → t.halt now = { t with blk := none, seq := t.seq + 1, pc := b.addr, mode := .fetch now }) ∧
      (∀ u, t.blk = none → t.mode = .pausing u → t.halt now = { t with mode := .fetch now }) ∧
      (t.blk = none → (∀ u, t.mode ≠ .pausing u) → t.halt now = t))

/-! ## The fabric (R20 to R31, R147 to R157, R202 to R209) -/

/-- R24, R25, R29, R97: what consuming a head, sending a token, ending a firing and ending a wait do.
Where the spec leaves a point open this is the model's choice: log entry 20. -/
def Obligations.TokensMove : Prop :=
  ∀ (s : State) (c n : Nat) (k : Cast), s.dev.casts.find c = some k →
    (∀ (x : Site) (now ph : Nat) (t : Token) (rest : List (Nat × Token)) (occ : Tbl Nat) (fr se : Nat), ph ≤ x.phase →
      (x.inA = { toks := (ph, t) :: rest, occ := occ, freed := fr, sent := se } →
        x.take .a now = { x with inA := { toks := rest, occ := occ.set 0 ph (occ.get 0 ph - 1), freed := now + 1, sent := se } }) ∧
      (x.inB = { toks := (ph, t) :: rest, occ := occ, freed := fr, sent := se } →
        x.take .b now = { x with inB := { toks := rest, occ := occ.set 0 ph (occ.get 0 ph - 1), freed := now + 1, sent := se } }) ∧
      (x.inC = { toks := (ph, t) :: rest, occ := occ, freed := fr, sent := se } →
        x.take .c now = { x with inC := { toks := rest, occ := occ.set 0 ph (occ.get 0 ph - 1), freed := now + 1, sent := se } }) ∧
      (x.inD = { toks := (ph, t) :: rest, occ := occ, freed := fr, sent := se } →
        x.take .d now = { x with inD := { toks := rest, occ := occ.set 0 ph (occ.get 0 ph - 1), freed := now + 1, sent := se } })) ∧
    (∀ lat t, emitted c n .y lat t s = (k.routes s.dev (k.site n).ctx (k.site n).phase n .y t.wide).foldl
      (fun s' r => sentOn c (max (s.dev.now + lat) (k.site n).dueY - s.dev.now) t r s')
      (onSite c n (fun x => { x with dueY := max (s.dev.now + lat) (k.site n).dueY + 1 }) s)) ∧
    (∀ lat t, emitted c n .z lat t s = (k.routes s.dev (k.site n).ctx (k.site n).phase n .z t.wide).foldl
      (fun s' r => sentOn c (max (s.dev.now + lat) (k.site n).dueZ - s.dev.now) t r s')
      (onSite c n (fun x => { x with dueZ := max (s.dev.now + lat) (k.site n).dueZ + 1 }) s)) ∧
    (∀ k', (onSite c n (fun x => { x with lastFire := s.dev.now + 1 }) s).dev.casts.find c = some k' → k'.governed n = false →
      firingEnds c n s = onSite c n (fun x => { x with lastFire := s.dev.now + 1 }) s) ∧
    ∀ (t : Thread) (now : Nat) (w : WaitSt), t.wait = some w → t.saved = none → t.mode = .waiting → t.yieldNext = false →
      (t.completeWait w.id).wake now = { t with wait := none, mode := .fetch (now + 1) }

/-- R31, R69, R149, R154 to R156: RECONF, DRAIN and writes of K: the alignment of a site, the tokens that DRAIN, or a CTX.SW
behind another, appends, the end of DRAIN and of CTX.SW, which ends the phase, and the arrival of a constant.
Where the spec leaves a point open this is the model's choice: log entries 38 and 41. -/
def Obligations.PhaseSteps : Prop :=
  ∀ (s : State) (c n : Nat) (k : Cast), s.dev.casts.find c = some k →
    (∀ t, k.ownAlign n = false → k.canAlign s.dev c n = some t → tokName t = .reconf → exec (.reconfAlign c n) s = .next
      (onSite c n (fun x => { x.applyArgs with ctx := t.ctl.toNat % 16, phase := x.phase + 1, ctl := none, el := x.el.realign })
        (emittedAll c n (fun w => reconfTok w (t.ctl.toNat % 16)) ((enabledInputs (k.site n).ecwNow).foldl (fun s p => consumed c n p s) s)))) ∧
    (∀ t, k.ownAlign n = false → k.canAlign s.dev c n = some t → tokName t = .drain → exec (.drainAlign c n) s = .next
      (onSite c n (fun x => { x with drained := true, ctl := none, el := x.el.realign })
        (emittedAll c n drainTok ((enabledInputs (k.site n).ecwNow).foldl (fun s p => consumed c n p s) s)))) ∧
    (∀ sw id rest, k.th.phaseOps = { sw := sw, id := id, appended := false } :: rest → k.th.armst ≠ 1 →
      let make := fun (wide : Bool) => match sw with
        | none => drainTok wide
        | some m => reconfTok wide m
      let ctl := match sw with
        | none => Ctl.drain
        | some m => Ctl.reconf m
      ∃ t k', exec (.drainAppend c) s = .next t ∧ t.mem = s.mem ∧ t.dev.agenda = s.dev.agenda ∧ t.dev.casts.find c = some k' ∧
        k'.th.phaseOps = { sw := sw, id := id, appended := true } :: rest ∧
        (∀ w, k.th.wait = some w → k'.th.wait = some { w with wait := if w.wait = .drain false then .drain true else w.wait }) ∧
        (k'.ports = k.ports.map fun p => if p.isOut then p else { p with q := p.q ++ [make p.wide] }) ∧
        (k'.sites = k.sites.map fun e => (e.1, if enabledInputs e.2.ecwNow = [] then { e.2 with ctl := some ctl } else e.2)) ∧
        ∀ ch, ch < 8 → k'.th.push.get [] ch =
          k.th.push.get [] ch ++ (if k.pushRoutes s.dev k.th.ctx.toNat k.phase ch = [] then [] else [make false])) ∧
    (∀ id rest, k.th.phaseOps = { sw := none, id := id, appended := true } :: rest → k.canDrain s.dev c = true →
      exec (.drainComplete c) s = .next
        (waitEnds c id (onThread c (fun t => { t with phaseOps := t.phaseOps.tail }) (onCast c Cast.endPhase s)))) ∧
    (∀ m id rest, k.th.phaseOps = { sw := some m, id := id, appended := true } :: rest → k.canSwitch s.dev c = true →
      exec (.ctxSwComplete c) s = .next
        (waitEnds c id (onThread c (fun t => { t with phaseOps := t.phaseOps.tail })
          (onCast c (fun k => Cast.endPhase { k with phase := k.phase + 1, th := { k.th with ctx := BitVec.ofNat 2 m } }) s)))) ∧
    (k.endPhase.th = { k.th with armst := 0, oobSeen := false, asyncQ := k.th.asyncQ.map fun a => { a with open_ := false } } ∧
      k.endPhase.popAbsorbed = 0 ∧ k.endPhase.popErr = [] ∧
      k.endPhase.pushSent = 0 ∧ ∀ e ∈ k.endPhase.sites, e.2.node = {} ∧ e.2.err = none ∧ e.2.drained = false ∧ e.2.wallSeen = 0) ∧
    ∀ ctx v, exec (.argWriteArrive c n ctx v) s = .next
      (onSite c n (fun x => if ctx = x.ctx then { x with argWait := x.argWait ++ [v] } else withK ctx v x)
        (onCast c (fun k => { k with argFlight := k.argFlight - 1 }) s))

/-- R21, R147, R205, R208: the acceptance of a token at an input, an OUT port and a pop channel, and the pulses of the armature. -/
def Obligations.Arrivals : Prop :=
  ∀ (s : State) (c n : Nat) (k : Cast), s.dev.casts.find c = some k →
    (∀ p ph t, scwKind (k.site n).scwNow ≠ 3 → exec (.tokenAccept c (.input n p ph) t) s = .next
      (onSite c n (fun x => x.modIn p fun q => { q with toks := q.toks ++ [(ph, k.convert n t)] }) s)) ∧
    (∀ t, (tokName t = .reserved → k.convert n t = errorTok t.wide (errorRec k n (k.site n).ctx 0x01 (tokKind t))) ∧
      (tokName t = .reconf → 3 < t.ctl.toNat % 16 → k.convert n t = errorTok t.wide (errorRec k n (k.site n).ctx 0x03 0)) ∧
      (tokName t = .data ∨ tokName t = .drain ∨ tokName t = .error ∨ (tokName t = .reconf ∧ t.ctl.toNat % 16 ≤ 3) → k.convert n t = t)) ∧
    (∀ ix t, exec (.tokenAccept c (.out ix) t) s = .next
      (onCast c (fun k => { k with ports := k.ports.modify ix fun p => { p with q := p.q ++ [t] } }) s)) ∧
    (∀ ch t, tokName t = .reconf ∨ tokName t = .drain → exec (.tokenAccept c (.pop ch) t) s = .next
      (onCast c (fun k => { k with popAbsorbed := k.popAbsorbed ||| BitVec.ofNat 8 (2 ^ ch) })
        (onThread c (fun th => { th with popOcc := th.popOcc.set 0 ch (th.popOcc.get 0 ch - 1) }) s))) ∧
    (∀ ch t, tokName t = .data ∨ tokName t = .stop ∨ tokName t = .done ∨ tokName t = .index → k.th.pops = [] →
      ∃ u k', exec (.tokenAccept c (.pop ch) t) s = .next u ∧ u.mem = s.mem ∧ u.dev.agenda = s.dev.agenda ∧ u.dev.casts.find c = some k' ∧
        k'.th.pop = k.th.pop.set [] ch (k.th.pop.get [] ch ++ [t]) ∧ k'.th.regs = k.th.regs) ∧
    (∀ child, (k.site n).node.running = true ∨ 0 < (k.site n).node.permits →
      exec (.pulseArrive c n false child) s = .next (onNode c n (fun x => { x with permits := x.permits + 1 }) s)) ∧
    (∀ child m, (k.site n).node.running = true → scwKind (k.site n).scwNow = 1 → (k.children n)[child + 1]? = some m → k.goneRow m = false →
      exec (.pulseArrive c n true child) s = .next (later (2 + k.way n m) (.pulseArrive c m false 0)
        (onNode c n (fun x => { x with child := child + 1 }) s))) ∧
    ((k.site n).node.running = true → 0 < (k.site n).node.inner → k.governed n = true → ∃ t k', exec (.nodeIterationBegin c n) s = .next t ∧
      t.mem = s.mem ∧ t.dev.agenda = s.dev.agenda ∧ t.dev.casts.find c = some k' ∧ (k'.site n).node.fired = false ∧
      (k'.site n).node.openAt = s.dev.now ∧ (k'.site n).node.running = true)

/-- R22, R25, R203, R207: an ERROR token is forwarded on every enabled output, a selector forwards the value it chooses and consumes it with its
index, and an element fires as its kind does. -/
def Obligations.Firings : Prop :=
  ∀ (s : State) (c n : Nat) (k : Cast), s.dev.casts.find c = some k →
    (∀ p t, (k.site n).errorHead = some (p, t) → k.canForwardError s.dev n = true → exec (.errorTokenForward c n) s = .next
      (clockUsed c n (onSite c n (fun x => { x with el := x.el.errored p })
        (emittedAll c n (fun w => errorTok w (tokWord t)) (consumed c n p s))))) ∧
    (k.canSelect s.dev n = true → ∀ p v rs, k.selAct s.dev n = .send p v rs → exec (.selectorFire c n) s = .next
        (let s := onSite c n (fun x => if scwCounters x.scwNow = 0 then x.applyArgs else x) s
         firingEnds c n { s with dev := (((s.dev.takeHead c n .a).takeHead c n p).emitOn c n .y 0 v rs) })) ∧
    (∃ t, exec (.elementFire c n) s = .next t ∧
      (ecwKind (k.site n).ecwNow = 0 → exec (.veFire c n) s = .next t) ∧ (ecwKind (k.site n).ecwNow = 1 → exec (.mxRowFire c n) s = .next t) ∧
      (ecwKind (k.site n).ecwNow = 2 → exec (.sbFire c n) s = .next t) ∧ (ecwKind (k.site n).ecwNow = 3 → exec (.soStep c n) s = .next t) ∧
      (ecwKind (k.site n).ecwNow = 4 → exec (.cxFire c n) s = .next t) ∧ (5 ≤ ecwKind (k.site n).ecwNow → exec (.selectorFire c n) s = .next t))

/-! ## Scratch banks and memory ports (R212 to R231) -/

/-- R215, R217 to R219: the commands on handles at their bank, with the reply of each.
Where the spec leaves a point open this is the model's choice: log entry 9. -/
def Obligations.HandleSteps : Prop :=
  ∀ (s : State) (c n : Nat) (k : Cast) (bank : SbSt), s.dev.casts.find c = some k → (k.site n).el = .sb bank →
    (∀ pid len, bank.alloc len.toNat = none → ∃ t, exec (.sbHndNew c pid n len) s = .next t ∧ Replies s (8 + k.way 0 n) c pid 0 0 t) ∧
    (∀ pid len i b, bank.alloc len.toNat = some (i, b) → ∃ t, exec (.sbHndNew c pid n len) s = .next t ∧
      Replies (onBank c n (fun _ => b) s) (8 + k.way 0 n) c pid
        (BitVec.ofNat 64 (n % 144 + 2 ^ 8 * (n / 144) + 2 ^ 16 * i + 2 ^ 20 * (bank.hnd.get {} i).gen)) 0 t) ∧
    (∀ len i b, bank.alloc len = some (i, b) → 0 < len ∧ len ≤ 524288 ∧ i < 16 ∧ (bank.hnd.get {} i).used = false ∧
      (∀ j, j < i → (bank.hnd.get {} j).used = true) ∧
      ∃ base, base % 4096 = 0 ∧ base + len ≤ 524288 ∧ b.hnd.get {} i = { bank.hnd.get {} i with used := true, base := base, len := len, elem := false } ∧
        (∀ a, base ≤ a → a < base + len → b.mem.get 0 a = 0) ∧
        (∀ j, j < 16 → (bank.hnd.get {} j).used = true → 0 < (bank.hnd.get {} j).len → (bank.hnd.get {} j).base % 4096 = 0 →
          base + len ≤ (bank.hnd.get {} j).base ∨ (bank.hnd.get {} j).base + (bank.hnd.get {} j).len ≤ base)) ∧
    (∀ h e, hndSite h = n → k.current h = some e → exec (.sbHndGive c h) s = .next
      (onBank c n (fun b => { b with hnd := b.hnd.set {} (h.toNat / 2 ^ 16 % 16) { e with elem := true } }) s)) ∧
    (∀ pid h, hndSite h = n → k.current h = none → ∃ t, exec (.sbHndTake c pid h) s = .next t ∧ Replies s (8 + k.way 0 n) c pid 1 0 t) ∧
    (∀ pid h e, hndSite h = n → k.current h = some e → e.elem = false →
      ∃ t, exec (.sbHndTake c pid h) s = .next t ∧ Replies s (8 + k.way 0 n) c pid 2 0 t) ∧
    (∀ pid h e, hndSite h = n → k.current h = some e → e.elem = true → ∃ t, exec (.sbHndTake c pid h) s = .next t ∧
      Replies (onBank c n (fun b => { b with hnd := b.hnd.set {} (h.toNat / 2 ^ 16 % 16) { e with elem := false } }) s) (8 + k.way 0 n) c pid 0 0 t) ∧
    ∀ h e, hndSite h = n → k.current h = some e → exec (.sbHndDrop c h) s = .next (onBank c n (fun b =>
      let i := h.toNat / 2 ^ 16 % 16
      let g := (b.hnd.get {} i).gen
      { b with hnd := b.hnd.set {} i { used := false, base := 0, len := 0, elem := false, gen := if g = 4095 then 1 else g + 1 } }) s)

/-- R222, R223, R229: an SB that can act, free or in an iteration of its node: a scratch access within the range of a handle that an
element holds, at a multiple of its width, reads or writes the range's bytes; a memory port's store is made at the translated address; a
reply of a load delivers it on Y.
Where the spec leaves a point open this is the model's choice: log entries 3 and 25. -/
def Obligations.BankSteps : Prop :=
  ∀ (s : State) (c n : Nat) (k k' : Cast) (bank : SbSt) (addr : Word) (hidx : Nat) (v : Token), s.dev.casts.find c = some k →
    (k.site n).el = .sb bank → (roundBegins c n s).dev.casts.find c = some k' →
    let ecw := (k'.site n).ecwNow
    let len := if ecw.getLsbD 13 then 8 else 128
    let op := ecw.toNat / 2 ^ 20 % 256
    let range := bank.hnd.get {} hidx
    (k.sbReady s.dev n = true → (∃ a h t, (k.site n).sbAct bank = .access a h t) → (k'.site n).sbAct bank = .access addr hidx v →
      (op = 1 → range.used = true → range.elem = true → addr.toNat % len = 0 → addr.toNat + len ≤ range.len →
        let data := leNat ((List.range len).map fun i => bank.mem.get 0 (range.base + addr.toNat + i))
        let final := ecw.getLsbD 12 && bank.gen.final
        (ecw.getLsbD 13 = true → exec (.sbFire c n) s = .next (accessEnds c n ecw (followed c n (if final then [narrow 2 0 0] else [])
          (emitted c n .y 4 (narrow 0 0 (BitVec.ofNat 64 data)) (roundBegins c n s))))) ∧
        (ecw.getLsbD 13 = false → exec (.sbFire c n) s = .next (accessEnds c n ecw (followed c n []
          (emitted c n .y 4 (wideTok (if final then 1 else 0) 0 (BitVec.ofNat 1024 data) 0) (roundBegins c n s)))))) ∧
      (op = 2 → range.used = true → range.elem = true → addr.toNat % len = 0 → addr.toNat + len ≤ range.len →
        exec (.sbFire c n) s = .next (accessEnds c n ecw (onBank c n (fun b =>
          let bytes := (List.range len).foldl (fun t i => t.set 0 (range.base + addr.toNat + i) (BitVec.ofNat 8 (v.data.toNat / 2 ^ (8 * i)))) b.mem
          { b with mem := bytes }) (roundBegins c n s)))) ∧
      (op = 4 → (k'.site n).skip = false → addr.toNat % len = 0 → ∀ q d,
        Dev.translate s.mem (roundBegins c n s).dev (k'.portVia n) k'.tenant addr .store = (.ok q, d) →
        exec (.sbFire c n) s = .next (accessEnds c n ecw (State.perform { s with dev := d }
          { agent := .port c n, tenant := k'.tenant, pa := q.pa, write := true, len := len, data := leBytes len v.data.toNat, rpl := q.rpl, id := 0 })))) ∧
    (∀ l rest tok more, bank.loads = l :: rest → l.back = false → l.toks = tok :: more → (∀ x ∈ rest.head?, x.back = false) →
      exec (.mloadReply c n) s = .next (followed c n more (sentTaken c n .y tok (onBank c n (fun b => { b with loads := rest })
        (onBank c n (fun b => { b with loads := markReturned b.loads }) s))))) ∧
    ∀ tok, sentTaken c n .y tok s = (k.routes s.dev (k.site n).ctx (k.site n).phase n .y tok.wide).foldl
      (fun s' r => later (max s.dev.now (k.site n).dueY - s.dev.now + r.clocks) (.tokenAccept c r.dst tok) s')
      (onSite c n (fun x => { x with dueY := max s.dev.now (k.site n).dueY + 1 }) s)

/-! ## Converters and vector elements (R251, R268 to R270, R280) -/

/-- R251, R255, R268 to R270, R279, R280: a converter passes a token on or fires; a vector element fires, takes a beat into its stationary register,
swaps the registers, consumes a HEADER alone, and flushes its accumulator before RECONF and DRAIN. -/
def Obligations.VectorSteps : Prop :=
  ∀ (s : State) (c n : Nat) (k k' : Cast), s.dev.casts.find c = some k → (roundBegins c n s).dev.casts.find c = some k' →
    let x := k.site n
    (∀ cx t, x.el = .cx cx → k.cxReady s.dev n = true → x.cxAct cx = .pass t →
      exec (.cxFire c n) s = .next (clockUsed c n (emitted c n .y 3 t (consumed c n .a s)))) ∧
    (∀ cx r r', x.el = .cx cx → k.cxReady s.dev n = true → x.cxAct cx = .fire r' → (k'.site n).cxAct cx = .fire r → exec (.cxFire c n) s = .next
      (firingEnds c n (emittedIf c n .z 3 r.z (emittedIf c n .y 3 r.y
        ((if r.takeB then consumed c n .b else id) ((if r.takeA then consumed c n .a else id) (onConv c n (fun _ => r.st) (roundBegins c n s)))))))) ∧
    (∀ v t a b cc, k.veReady s.dev n = true → (k'.site n).el = .ve v → (k'.site n).veOperands v = some (t, a, b, cc) →
      let ecw := (k'.site n).ecwNow
      let op := ecwOp ecw
      let out := veResult ecw (k'.site n).konst v t a b cc
      exec (.veFire c n) s = .next (firingEnds c n (emittedIf c n .z (veLatency op) out.z (emittedIf c n .y (veLatency op) out.y
        ((if veUsesC op ∧ veCsel ecw = 0 then consumed c n .c else id) ((if veUsesB op ∧ veBsel ecw = 0 then consumed c n .b else id)
          (consumed c n .a (onVec c n (fun _ => { out.v with until_ := if veFloatOnly op then s.dev.now + 4 else s.dev.now + 1 })
            (roundBegins c n s))))))))) ∧
    (∀ t, k.canIntake n = true → x.head .d = some t →
      exec (.veDIntake c n) s = .next (consumed c n .d (onVec c n (fun v => { v with srl := t.data, lfull := true }) s))) ∧
    (∀ t, k.canSwap s.dev n = true → x.head .a = some t → x.ecwNow.getLsbD 6 = true → exec (.veSwap c n) s = .next
      (emitted c n .y 0 t (clockUsed c n (consumed c n .a
        (onVec c n (fun v => { v with sra := v.srl, srl := v.sra, lfull := false }) s))))) ∧
    (k.canSwap s.dev n = true → x.ecwNow.getLsbD 6 = false → exec (.veSwap c n) s = .next
      (clockUsed c n (consumed c n .a (onVec c n (fun v => { v with sra := v.srl, srl := v.sra, lfull := false }) s)))) ∧
    (∀ p t, k.canConsumeAlone s.dev n p = true → x.head p = some t → tokName t = .header → ecwIn x.ecwNow p = true →
      (t.ctl.toNat / 2 ^ 8 % 16 = ecwFmt x.ecwNow → p ≠ .a → exec (.veConsumeAlone c n p) s = .next (clockUsed c n (consumed c n p s))) ∧
      (t.ctl.toNat / 2 ^ 8 % 16 = ecwFmt x.ecwNow → p = .a → x.ecwNow.getLsbD 6 = true →
        exec (.veConsumeAlone c n p) s = .next (emitted c n .y 0 t (clockUsed c n (consumed c n p s)))) ∧
      (t.ctl.toNat / 2 ^ 8 % 16 ≠ ecwFmt x.ecwNow → exec (.veConsumeAlone c n p) s = .next
        (emittedAll c n (fun w => errorTok w (errorRec k n x.ctx 0x13 0)) (clockUsed c n (consumed c n p s))))) ∧
    ∀ v, k.canFlush s.dev n = true → x.el = .ve v → exec (.veAccFlush c n) s = .next
      (let out := v.result x.ecwNow false
       let lat := veLatency (ecwOp x.ecwNow)
       emittedIf c n .z lat out.z (emittedIf c n .y lat out.y (onVec c n (fun _ => { v with acc := [], partial_ := false, accF := 0 }) s)))

/-! ## Matrix elements (R286 to R310) -/

/-- R288, R289, R292, R293, R295 to R297, R307 to R310: what a matrix element takes in and is asked: a beat of a row, a beat of a tile and
the HEADERs before them, a command and its rejection, the beginning of a command, a claim, a release, the status, and a tile scale. -/
def Obligations.MatrixInputs : Prop :=
  ∀ (s : State) (c n : Nat) (k : Cast) (m : MxSt), s.dev.casts.find c = some k → (k.site n).el = .mx m →
    let x := k.site n
    (ecwKind x.ecwNow = 1 → x.ecwNow ≠ 0 →
      (∀ t i rest, ecwIn x.ecwNow .a = true → m.aAt ≤ s.dev.now → x.head .a = some t → m.fillQ = i :: rest →
        (tokName t = .data ∨ tokName t = .last → exec (.mxABeat c n) s =
          .next (consumed c n .a (onMatrix c n (fun m => { m.fillBeat i t s.dev.now with aAt := s.dev.now + 1 }) s))) ∧
        (tokName t = .header → t.ctl.toNat / 2 ^ 8 % 16 ≠ (m.slots.get {} i).fmt → exec (.mxABeat c n) s =
          .next (mxErrs c n k 0x13 (consumed c n .a (onMatrix c n (fun m => { m with aAt := s.dev.now + 1 }) s))))) ∧
      (∀ i t now slot, m.slots.get {} i = slot → mxTwoBeats slot.fmt = false → isMx slot.fmt = false → m.fillQ.head? = some i →
        m.fillBeat i t now = { m with fillQ := if slot.fill + 1 = slot.nrows then m.fillQ.tail else m.fillQ
                                      slots := m.slots.put i { slot with half := none, rows := slot.rows.set 0 slot.fill (t.data.setWidth 2048), scales := slot.scales.set 0 slot.fill 0, pres := slot.pres ++ [(slot.fill, now + 1)], fill := slot.fill + 1 } }) ∧
      (∀ t, ecwIn x.ecwNow .b = true → m.bAt ≤ s.dev.now → x.head .b = some t → tokName t = .data ∨ tokName t = .last → m.lfull = false →
        m.bFrom ≤ s.dev.now → ((m.loadBeat x.ecwNow t s.dev.now).lfull = true → (m.loadBeat x.ecwNow t s.dev.now).wl.loadError s.dev.units = none) →
        exec (.mxBBeat c n) s = .next (consumed c n .b (onMatrix c n (fun m => { m.loadBeat x.ecwNow t s.dev.now with bAt := s.dev.now + 1 }) s))) ∧
      (∀ t, m.dAt ≤ s.dev.now → x.head .d = some t → tokName t = .data → let w := tokWord t
        (∀ sub, m.wordError w = some sub → m.cmds.length < 8 → bitsAt w 32 1 = 0 → exec (.mxCommandTake c n) s =
          .next (mxErrs c n k sub (consumed c n .d (onMatrix c n (fun m => { m with dAt := s.dev.now + 1 }) s)))) ∧
        (m.wordError w = none → m.cmds.length < 8 → bitsAt w 32 1 = 0 → exec (.mxCommandTake c n) s = .next (consumed c n .d
          (onMatrix c n (fun m => { m with cmds := m.cmds ++ [{ id := m.nextCmd, word := w }], nextCmd := m.nextCmd + 1, nacc := m.nacc + 1, dAt := s.dev.now + 1 }) s)))) ∧
      (∀ y rest, m.cmds = y :: rest → y.begun = false → m.locks = [] → bitsAt y.word 0 4 = 4 → m.full s.dev.now = true →
        exec (.mxCommandBegin c n) s = .next
          (onMatrix c n (fun m => { m.fallDue y.id with wa := m.wl, wl := m.wa, lfull := false, wvalid := true, bFrom := s.dev.now + 1 })
            (onMatrix c n (withCmd y.id fun z => { z with begun := true, left := bitsAt z.word 15 7 + 1 }) s)))) ∧
    (∀ pid w i, m.claimSlot w = some i → ∃ t, exec (.mxClaimServe c pid n w) s = .next t ∧ Replies
      (onMatrix c n (fun m =>
        let m' := withSlot i (fun o => { o with claimed := true, relp := false, fmt := bitsAt w 0 4, nrows := bitsAt w 4 7 + 1, copy := w.getLsbD 11, fill := 0, half := none, pres := [] }) m
        { m' with fillQ := if w.getLsbD 11 then m.fillQ else m.fillQ ++ [i] }) s)
      (8 + k.way 0 n) c pid (BitVec.ofNat 64 i) 0 t) ∧
    (∀ pid w, m.claimSlot w = none → ∃ t, exec (.mxClaimServe c pid n w) s = .next t ∧ Replies s (8 + k.way 0 n) c pid (-1) 0 t) ∧
    (∀ i, (m.slots.get {} i).claimed = true → (m.slots.get {} i).relp = true → (m.slots.get {} i).relAt ≤ s.dev.now →
      (∀ y ∈ m.cmds, bitsAt y.word 0 4 ≠ 1 ∨ bitsAt y.word 4 4 ≠ i ∨ y.due = true) → exec (.mxSlotFree c n i) s = .next (onMatrix c n (fun m' =>
        { m' with slots := m'.slots.put i { m.slots.get {} i with claimed := false, relp := false, pres := [] }, fillQ := m'.fillQ.filter fun j => j != i }) s)) ∧
    (∀ i, exec (.mxRelArrive c n i) s = .next (onMatrix c n (fun m =>
      if (m.slots.get {} i).claimed then withSlot i (fun o => { o with relp := true, relAt := s.dev.now + 1 }) m else m) s)) ∧
    (∀ pid i, let word := BitVec.ofNat 64 (m.nacc.toNat + 2 ^ 16 * m.ndone.toNat + 2 ^ 32 * bit (m.lfull && decide (m.lfullFrom ≤ s.dev.now))
        + 2 ^ 33 * bit m.loading + 2 ^ 34 * bit m.wvalid + 2 ^ 35 * m.cmds.length + 2 ^ 39 * m.flags.toNat
        + 2 ^ 48 * bitsOf (fun j => (m.slots.get {} j).claimed) 16)
      (∃ t, exec (.mxStatServe c pid n .st i) s = .next t ∧ Replies s (8 + k.way 0 n) c pid word 0 t) ∧
      (∃ t, exec (.mxStatServe c pid n .stc i) s = .next t ∧ Replies (onMatrix c n (fun m => { m with flags := 0 }) s) (8 + k.way 0 n) c pid word 0 t)) ∧
    ∀ v, k.th.openWait (fun w => w == .mxScale) = none → exec (.mxScaleWrite c n v) s = .next (onMatrix c n (fun m =>
      { m with pscalePrev := m.pscale, pscale := v, pscaleAt := s.dev.now + 1 }) s)

/-- R298, R299, R302 to R304: what a matrix element does with its commands: the firing of a row, its dense update 140 clocks later, the
outliers of the side unit, a beat of READ, a completion note, and the alignment of RECONF and DRAIN. -/
def Obligations.MatrixRows : Prop :=
  ∀ (s : State) (c n : Nat) (k : Cast) (m : MxSt), s.dev.casts.find c = some k → (k.site n).el = .mx m →
    let x := k.site n
    ecwKind x.ecwNow = 1 → x.ecwNow ≠ 0 →
    (∀ y rest r, m.cmds = y :: rest → bitsAt y.word 0 4 = 1 → y.begun = true → y.silent = false → y.fired.length < bitsAt y.word 15 7 + 1 →
      m.rowNext ≤ s.dev.now → m.rows.length < 4 → let slot := m.slots.get {} (bitsAt y.word 4 4)
      y.nextRow slot s.dev.now = some r → let i := r - bitsAt y.word 8 7
      let sums := rowSums slot m.wa r
      let row : MxRow := { cmd := y.id, bank := bitsAt y.word 22 2, row := bitsAt y.word 24 7 + i, ovw := y.word.getLsbD 31, sums := sums.map Prod.fst, flags := allFlags sums, fired := s.dev.now, outl := rowOutliers slot m.wa s.dev.units r }
      exec (.mxRowFire c n) s = .next (onMatrix c n (fun m => let m' := { withCmd y.id (fun z => { z with fired := z.fired ++ [i] }) m with rows := m.rows ++ [row] }
          match mxInterval slot.fmt m.wa s.dev.units with
          | some gap => { m' with rowNext := s.dev.now + (if s.dev.sch.fast then max 2 gap else gap), rowPair := false }
          | none =>
            if s.dev.sch.fast then { m' with rowNext := s.dev.now + 2, rowPair := false }
            else if m.rowPair ∧ m.rowNext = s.dev.now then { m' with rowNext := s.dev.now + 1, rowPair := false }
            else { m' with rowNext := s.dev.now, rowPair := true }) s)) ∧
    (∀ r rest, m.rows = r :: rest → r.dense = false → r.fired + 140 ≤ s.dev.now → exec (.mxDenseUpdate c n) s = .next
      (onMatrix c n (fun m => let m' := { m.dense r with rows := modFirstRow (fun r => !r.dense && decide (r.fired + 140 ≤ s.dev.now)) (fun r => { r with dense := true }) m.rows }
        if r.outl = [] then m'.rowWritten r.cmd else m') s)) ∧
    (∀ r rest, m.rows = r :: rest → 4 < r.outl.length → r.dense = true → r.fired + 141 ≤ s.dev.now → m.outAt ≤ s.dev.now →
      exec (.mxOutlierApply c n) s = .next (onMatrix c n (fun m =>
        { (r.outl.take 4).foldl (fun m e => m.accAdd (128 * (128 * r.bank + r.row) + e.1) e.2) m with
          outAt := s.dev.now + 1, rows := modFirstRow (fun r => !r.outl.isEmpty) (fun r => { r with outl := r.outl.drop 4 }) ((r.outl.take 4).foldl (fun m e => m.accAdd (128 * (128 * r.bank + r.row) + e.1) e.2) m).rows }) s)) ∧
    (∀ y rest, m.cmds = y :: rest → bitsAt y.word 0 4 = 2 → y.begun = true → y.due = false → m.readAt ≤ s.dev.now → x.errorHead = none →
      x.outq = [] → k.room s.dev n .y true = true → let row := bitsAt y.word 24 7 + y.beats / 4
      let codes := (List.range 32).map fun l => m.acc.get 0 (128 * (128 * bitsAt y.word 22 2 + row) + (32 * (y.beats % 4) + l))
      let last := y.beats + 1 = 4 * (bitsAt y.word 15 7 + 1)
      exec (.mxReadBeat c n) s = .next (emitted c n .y 0 (wideTok (bit (decide last)) 0 (packLanes 32 codes) 0) (onMatrix c n (fun m =>
        let m' := { withCmd y.id (fun z => { z with beats := z.beats + 1 }) m with readAt := s.dev.now + 1 }
        if last then m'.fallDue y.id else m') s))) ∧
    (∀ y rest id due, m.cmds = y :: rest → m.due = id :: due → y.id = id → y.word.getLsbD 33 = true → y.silent = false →
      ecwOut x.ecwNow .z = true → x.outq = [] → k.room s.dev n .z false = true → exec (.mxNoteEmit c n) s = .next
        (emitted c n .z 0 (narrow 0 0 (BitVec.ofNat 64 (bitsAt y.word 34 16 + 2 ^ 16 + 2 ^ 17 * (bitsAt y.word 0 4 % 8)))) (onMatrix c n (fun m =>
          { m with cmds := m.cmds.filter fun z => z.id != id, due := m.due.tail, ndone := m.ndone + 1 }) s))) ∧
    (∀ t, m.loading = false → x.aligned = some t → tokName t = .reconf → m.cmds = [] → m.rows = [] → x.outq = [] → k.allRoom s.dev n = true →
      s.dev.argComing c n = false → exec (.mxReconfAlign c n) s = .next
        (onSite c n (fun x => { x.applyArgs with ctx := t.ctl.toNat % 16, phase := x.phase + 1 }) (emittedAll c n (fun w => reconfTok w (t.ctl.toNat % 16))
          ((enabledInputs x.ecwNow).foldl (fun s p => consumed c n p s) s)))) ∧
    (x.headName .b = some .reconf ∨ x.headName .b = some .drain → ecwIn x.ecwNow .b = true → m.loading = true → exec (.mxReconfAlign c n) s =
      .next (mxErrs c n k 0x20 (onMatrix c n (fun m => { m with loading := false, wl := {} }) s)))

/-! ## Stream operators (R312 to R339) -/

/-- R313, R320, R323, R324, R326, R328, R329: the check of a token against the grammar of its input, an INDEX, a STOP of too high a level, a
DATA out of order and a DONE too early being malformed; a step takes its heads and emits its tokens; the steps of INTERSECT, UNION and REPEAT
on two DATA, and of SCAN on STOP and DONE.
Where the spec leaves a point open this is the model's choice: log entries 3, 28 and 43. -/
def Obligations.OperatorSteps : Prop :=
  ∀ (s : State) (c n : Nat) (k : Cast) (o : SoSt) (kk : BitVec 32), s.dev.casts.find c = some k → (k.site n).el = .so o → o.k = some kk →
    let x := k.site n
    (∀ p t, k.canCheck s.dev n p = true → x.head p = some t → t.wide = false → let i := o.inp p
      let rank := kk.toNat / (if p = .b then 16 else 1) % 16
      let ordered := kk.getLsbD (if p = .b then 9 else 8)
      let level := t.ctl.toNat % 8
      let crd := (tokWord t).toNat / 2 ^ 32 % 2 ^ 32
      let kept := onOp c n (fun o => { o with k := some kk }) s
      let checked := fun f => onOp c n (withInput p fun _ => f { i with started := true, checked := true }) kept
      (tokName t = .index → exec (.soTokenCheck c n p) s = .next (malformed c n 7 p t i.index kept)) ∧
      (tokName t = .stop → rank ≤ level →
        exec (.soTokenCheck c n p) s = .next (malformed c n 2 p t i.index kept)) ∧
      (tokName t = .stop → level < rank → i.done = false → i.top = false →
        exec (.soTokenCheck c n p) s = .next (checked fun i => { i with prev := none, top := decide (level + 1 = rank) })) ∧
      (tokName t = .done → i.done = false → i.top = true →
        exec (.soTokenCheck c n p) s = .next (checked fun i => { i with done := true, top := false })) ∧
      (tokName t = .done → i.done = false → i.top = false →
        exec (.soTokenCheck c n p) s = .next (malformed c n 3 p t i.index kept)) ∧
      (tokName t = .data → i.done = false → i.top = false → (∀ q, i.prev = some q → ordered = true → q < crd) →
        exec (.soTokenCheck c n p) s = .next (checked fun i => { i with prev := some crd, top := decide (rank = 0) })) ∧
      ∀ q, tokName t = .data → i.done = false → i.top = false → i.prev = some q → ordered = true → crd ≤ q →
        exec (.soTokenCheck c n p) s = .next (malformed c n 1 p t i.index kept)) ∧
    (∀ takes y z st, x.soOpen o s.dev.now = true → o.skip = false → x.errorHead = none → x.ecwNow.toNat / 2 ^ 20 % 2 ^ 8 ≠ 12 →
      k.mayFire n s.dev.now = true → x.skip = false → x.soPlan o kk = .step takes y z st →
      (∀ t ∈ y, k.room s.dev n .y t.wide = true) → (∀ t ∈ z, k.room s.dev n .z t.wide = true) → exec (.soStep c n) s = .next
        (firingEnds c n (emittedIf c n .z 0 z (emittedIf c n .y 0 y (taken c n takes
          (onSite c n (fun x => { x with skip := false, el := .so { st with zeros := [], reads := o.reads } }) (roundBegins c n s))))))) ∧
    (∀ a b, x.soHead o .a = some a → x.soHead o .b = some b → tokName a = .data → tokName b = .data →
      let ca := (tokWord a).toNat / 2 ^ 32
      let cb := (tokWord b).toNat / 2 ^ 32
      let data := fun (crd low : Nat) => narrow 0 0 (BitVec.ofNat 64 (2 ^ 32 * crd + low))
      let ra := (tokWord a).toNat % 2 ^ 32
      let rb := (tokWord b).toNat % 2 ^ 32
      let z := fun (t : Token) => if ecwOut x.ecwNow .z = true then some t else none
      (x.ecwNow.toNat / 2 ^ 20 % 2 ^ 8 = 3 →
        (ca = cb → x.soPlan o kk = .step [.a, .b] (some (data ca ra)) (z (data cb rb)) o) ∧
        (ca < cb → x.soPlan o kk = .step [.a] none none o) ∧ (cb < ca → x.soPlan o kk = .step [.b] none none o)) ∧
      (x.ecwNow.toNat / 2 ^ 20 % 2 ^ 8 = 4 →
        (ca = cb → x.soPlan o kk = .step [.a, .b] (some (data ca ra)) (z (data cb rb)) o) ∧
        (ca < cb → x.soPlan o kk = .step [.a] (some (data ca ra)) (z (data ca (2 ^ 32 - 1))) o) ∧
        (cb < ca → x.soPlan o kk = .step [.b] (some (data cb (2 ^ 32 - 1))) (z (data cb rb)) o)) ∧
      (x.ecwNow.toNat / 2 ^ 20 % 2 ^ 8 = 5 → o.pos = .start → x.soPlan o kk = .step [.b] (some (data cb ra)) none { o with pos := .start })) ∧
    ∀ a, x.soHead o .a = some a → o.pos = .start → x.ecwNow.toNat / 2 ^ 20 % 2 ^ 8 = 1 →
      (tokName a = .stop → x.soPlan o kk = .step [.a] (some (narrow 1 ((a.ctl.toNat % 8 + 1) % 8) 0)) none { o with pos := .start }) ∧
      (tokName a = .done → x.soPlan o kk = .step [.a] (some (narrow 2 0 0)) none { o with pos := .start })

/-! ## The copy engine (R340 to R358) -/

/-- R347, R350, R354, R357, R358: a channel begins a chain, reads a record, performs a sector and completes a record; a record that cannot be
read, or is not at a multiple of 64, freezes the channel.
Where the spec leaves a point open this is the model's choice: log entries 3, 46 to 50. -/
def Obligations.CopySteps : Prop :=
  ∀ (s : State) (c cix : Nat) (k : Cast), s.dev.casts.find c = some k → let x := k.chans.get {} cix
    (∀ head last late rest, k.canBeginChain s.dev x = true → x.queue = (head, last, late) :: rest → exec (.copyChainBegin c cix) s = .next
      (onChan c cix (fun x => { x with queue := rest, cur := some head, staged := last == 0 }) s)) ∧
    (∀ addr, k.canBeginRecord s.dev x = true → x.fault = none → x.cur = some addr → let fresh : CopyRec := { id := x.nextRec, addr := addr, staged := x.staged }
      (addr.toNat % 64 ≠ 0 → exec (.copyRecordBegin c cix) s = .next (frozenAt c cix k fresh { sub := 2, va := addr }
        (onChan c cix (fun x => { x with recs := x.recs ++ [fresh], nextRec := x.nextRec + 1, cur := none }) (paced c cix s)))) ∧
      (∀ u r, (paced c cix s).loadRecord c cix k x fresh = (u, r, .ok false) → exec (.copyRecordBegin c cix) s = .next
        (onChan c cix (fun x => Chan.settle { x with cur := none }) u)) ∧
      (∀ u r e, (paced c cix s).loadRecord c cix k x fresh = (u, r, .error e) → exec (.copyRecordBegin c cix) s = .next
        (frozenAt c cix k r e (onChan c cix (fun x => { x with recs := x.recs ++ [r], nextRec := x.nextRec + 1, cur := none }) u))) ∧
      (∀ u r, (paced c cix s).loadRecord c cix k x fresh = (u, r, .ok true) → r.ctl / 2 % 8 < 5 → exec (.copyRecordBegin c cix) s = .next
        (onChan c cix (fun x => { x with recs := x.recs ++ [{ r with begun := true }], nextRec := x.nextRec + 1, cur := if r.next = 0 then none else some r.next }) u))) ∧
    ∀ id r, x.recs.find? (fun r => r.id == id) = some r →
      (k.canSector s.dev cix x r = true →
        (∀ u, s.sector c cix k x r r.done = (u, .ok ()) → exec (.copySector c cix id) s = .next
          (onCast c (fun k => { k with progress := k.progress || k.th.inGraphWait }) (onChan c cix (fun x => { x with
            recs := x.recs.map fun q => if q.id = id then { q with done := q.done + 1 } else q }) (paced c cix u)))) ∧
        (∀ u e, s.sector c cix k x r r.done = (u, .error e) → exec (.copySector c cix id) s = .next (frozenAt c cix k r e (paced c cix s)))) ∧
      (∀ j, r.ctl / 2 % 8 = 1 → r.ctl / 2 ^ 6 % 4 = 0 → s.sector c cix k x r j = s.copyWrite c cix k x
        (r.dst + 32 * BitVec.ofNat 64 j) (leBytes 8 r.src.toNat ++ leBytes 8 r.src.toNat ++ leBytes 8 r.src.toNat ++ leBytes 8 r.src.toNat)) ∧
      (∀ j u bs, r.ctl / 2 % 8 = 0 → r.ctl / 2 ^ 4 % 4 = 0 → r.ctl / 2 ^ 6 % 4 = 0 →
        s.copyRead c cix k x (r.src + 32 * BitVec.ofNat 64 j) 32 = (u, .ok bs) →
        s.sector c cix k x r j = u.copyWrite c cix k x (r.dst + 32 * BitVec.ofNat 64 j) bs) ∧
      (Cast.canComplete s.dev c cix x r = true → r.known = true → r.ctl / 2 % 8 < 5 → ∃ ctl, ctl % 2 = 0 ∧
        ctl / 2 ^ 16 % 2 ^ 8 = bit r.skip ∧ ctl % 2 ^ 16 / 2 = r.ctl % 2 ^ 16 / 2 ∧ ctl / 2 ^ 24 = r.ctl / 2 ^ 24 ∧
        (∀ u e, s.recordBarrier c cix k x r = (u, .error e) → exec (.copyRecordComplete c cix id) s = .next (frozenAt c cix k r e (paced c cix u))) ∧
        (∀ u w e, s.recordBarrier c cix k x r = (u, .ok ()) → u.copyWrite c cix k x r.addr (leBytes 8 ctl) = (w, .error e) →
          exec (.copyRecordComplete c cix id) s = .next (frozenAt c cix k r e (paced c cix w))) ∧
        ∀ u w, s.recordBarrier c cix k x r = (u, .ok ()) → u.copyWrite c cix k x r.addr (leBytes 8 ctl) = (w, .ok ()) →
          exec (.copyRecordComplete c cix id) s = .next (onChan c cix (fun x => Chan.settle { x with recs := x.recs.filter fun q => q.id != id })
            (paced c cix w))) ∧
      (r.barred = false → r.known = true → r.bar ≠ 0 → r.bar.toNat % 16 = 0 → r.tile = none → ∀ q d,
        Dev.translate s.mem s.dev (k.chanVia x) k.tenant r.bar .store = (.ok q, d) → s.recordBarrier c cix k x r =
          (onChan c cix (fun x => { x with recs := x.recs.map fun q => if q.id = r.id then { q with barred := true } else q })
            (sometime (.barrierUpdate { agent := .chan c cix, requester := k.chanRequester x, tenant := k.tenant, pa := q.pa, rpl := q.rpl,
                                        upd := .complete r.sectors false false r.skip }) { s with dev := d }), .ok ())) ∧
      ∀ f d, r.barred = false → r.known = true → r.bar ≠ 0 → r.bar.toNat % 16 = 0 →
        Dev.translate s.mem s.dev (k.chanVia x) k.tenant r.bar .store = (.error f, d) →
        s.recordBarrier c cix k x r = ({ s with dev := d }, .error { sub := 1, va := r.bar, synd := f.syndrome .store 2 k.tenant })

/-! ## The synchronisation engines (R158 to R167, R352, R359 to R376) -/

/-- R352, R363, R364, R366, R367, R369, R371, R372, R375, R376: atomics, and one that its channel denies; counters initialised, decremented
and freed; barriers updated; a wait registered; a held request that proceeds; the end of a purge.
Where the spec leaves a point open this is the model's choice: log entries 3 and 51. -/
def Obligations.SyncSteps : Prop :=
  ∀ (s : State),
    (∀ (r : AtomReq) (bs : List Byte), Dev.atomRead s.mem s.dev r.tenant r.pa (width r.size) = (true, bs, s.dev) →
      let w := 8 * width r.size
      let stored := fun (v : Nat) => settledFor r.agent r.id (engineWritesFor r.agent r.id r.tenant r.pa r.rpl (leBytes (width r.size) v) s)
      (∀ op b new, r.kind = .rmw op b → AtomGives op w (leNat bs) (b.toNat % 2 ^ w) new →
        (r.reply = .none → exec (.seAtomic r) s = .next (stored new)) ∧
        (∀ c pid, r.reply = .pending c pid → exec (.seAtomic r) s = .next
          (sometime (.classDReply c pid (BitVec.ofNat 64 (leNat bs)) (BitVec.ofNat 64 (leNat bs))) (stored new))) ∧
        (∀ tag, r.reply = .outside tag → exec (.seAtomic r) s = .next
          { stored new with dev := { (stored new).dev with outbox := (stored new).dev.outbox ++ [.data tag (leBytes (width r.size) (leNat bs))] } })) ∧
      (∀ e v c pid, r.kind = .cas e v → r.reply = .pending c pid →
        (leNat bs = e.toNat % 2 ^ w → exec (.seAtomic r) s = .next
          (sometime (.classDReply c pid (BitVec.ofNat 64 (leNat bs)) 1) (stored (v.toNat % 2 ^ w)))) ∧
        (leNat bs ≠ e.toNat % 2 ^ w → exec (.seAtomic r) s = .next
          (sometime (.classDReply c pid (BitVec.ofNat 64 (leNat bs)) 0) (settledFor r.agent r.id s))))) ∧
    (∀ tenant pa n, let own := s.dev.ownPa pa
      (paRegion own = 0 → s.dev.admits tenant own = true →
        Dev.atomRead s.mem s.dev tenant pa n = (true, (Dev.read s.mem s.dev tenant own n).1, s.dev)) ∧
      (paRegion own ≠ 0 → s.dev.linkUp own = true → Dev.atomRead s.mem s.dev tenant pa n = (true, s.mem.read own n, s.dev))) ∧
    (∀ (r : AtomReq) op b c pid, paRegion (s.dev.ownPa r.pa) = 0 → s.dev.admits r.tenant (s.dev.ownPa r.pa) = false →
      r.kind = .rmw op b → r.reply = .pending c pid → exec (.seAtomic r) s = .next (sometime (.classDReply c pid 0 0)
        (settledFor r.agent r.id { s with dev := s.dev.postTenant r.tenant (s.dev.ownPa r.pa) true }))) ∧
    (∀ (r : CntReq) (n : BitVec 32), let die := s.dev.seDie r.pa
      let same := fun (x : CntEnt) => x.pa == r.pa && x.tenant == r.tenant
      let word := fun (v : Nat) => leBytes 8 (v + 2 ^ 32)
      (∀ e, (s.dev.se.get {} die).cnts.find? same = some e → exec (.seCntInit r n) s = .next (underflows r 3 0 (counted r s))) ∧
      ((s.dev.se.get {} die).cnts.find? same = none → s.dev.placeFor die r.tenant .cnt = none →
        exec (.seCntInit r n) s = .next (heldBack die r.tenant (.seCntInit r n) s)) ∧
      (∀ ovf p, (s.dev.se.get {} die).cnts.find? same = none → s.dev.placeFor die r.tenant .cnt = some ovf →
        p = (match (s.dev.se.get {} die).pres.find? same with
          | some e => e.value
          | none => 0) → p ≤ n.toNat →
        exec (.seCntInit r n) s = .next (released die (n.toNat - p) r (engineWrites r.tenant r.pa none (word (n.toNat - p)) (onEngine die (fun x =>
          { x with cnts := withCnt { tenant := r.tenant, pa := r.pa, value := n.toNat - p, ovf := ovf } x.cnts, pres := withoutCnt r x.pres })
            (counted r s))))) ∧
      (exec (.seCntDec r 0) s = .next (counted r s)) ∧
      (∀ e, n ≠ 0 → (s.dev.se.get {} die).cnts.find? same = some e → e.value = 0 →
        exec (.seCntDec r n) s = .next (underflows r 1 n.toNat (counted r s))) ∧
      (∀ e, n ≠ 0 → (s.dev.se.get {} die).cnts.find? same = some e → 0 < e.value →
        exec (.seCntDec r n) s = .next (released die (e.value - n.toNat) r (engineWrites r.tenant r.pa none (word (e.value - n.toNat))
          (onEngine die (fun x => { x with cnts := withCnt { e with value := e.value - n.toNat } x.cnts })
            (if e.value < n.toNat then underflows r 1 (n.toNat - e.value) (counted r s) else counted r s))))) ∧
      (∀ e, n ≠ 0 → (s.dev.se.get {} die).cnts.find? same = none → (s.dev.se.get {} die).pres.find? same = some e →
        exec (.seCntDec r n) s = .next (onEngine die (fun x =>
          { x with pres := withCnt { e with value := min (2 ^ 32 - 1) (e.value + n.toNat) } x.pres }) (counted r s))) ∧
      (∀ ovf, n ≠ 0 → (s.dev.se.get {} die).cnts.find? same = none → (s.dev.se.get {} die).pres.find? same = none →
        s.dev.placeFor die r.tenant .pre = some ovf → exec (.seCntDec r n) s = .next (onEngine die (fun x =>
          { x with pres := withCnt { tenant := r.tenant, pa := r.pa, value := n.toNat, ovf := ovf } x.pres }) (counted r s))) ∧
      (∀ e, (s.dev.se.get {} die).cnts.find? same = some e → exec (.seCntFree r) s = .next (engineWrites r.tenant r.pa none (leBytes 8 0)
        (waitsEnd die (fun w => w.onCnt r) (onEngine die (fun x => { x with cnts := withoutCnt r x.cnts, pres := withoutCnt r x.pres })
          (counted r s)))))) ∧
    (∀ (r : BarReq) (bs : List Byte) (b : Barrier), Dev.atomRead s.mem s.dev r.tenant r.pa 16 = (true, bs, s.dev) → b = Barrier.ofBytes bs →
      let ends := fun (b : Barrier) => exec (.barrierUpdate r) s = .next (waitsEnd (s.dev.seDie r.pa) (fun w => match w.wait with
        | .cpBwait pa _ phase _ _ => pa == r.pa && decide (b.phase ≠ phase.toNat)
        | _ => false) (settledFor r.agent r.id (engineWritesFor r.agent r.id r.tenant r.pa r.rpl b.toBytes s)))
      (∀ n, r.upd = .init n → ends { pend := 0, arrive := max 1 n.toNat, arrcfg := max 1 n.toNat, phase := 0, flags := 0 }) ∧
      (∀ n, r.upd = .arrive n → 0 ≤ b.pend + n.toNat → b.pend + n.toNat < 2 ^ 31 → 0 < b.arrive →
        ends (if b.arrive = 1 ∧ b.pend + n.toNat = 0 then { b with pend := 0, arrive := b.arrcfg, phase := (b.phase + 1) % 2 ^ 16 }
          else { b with pend := b.pend + n.toNat, arrive := b.arrive - 1 })) ∧
      (∀ n, r.upd = .complete n false false false → b.pend < 2 ^ 31 → (n : Int) ≤ b.pend →
        ends (if b.arrive = 0 ∧ b.pend = n then { b with pend := 0, arrive := b.arrcfg, phase := (b.phase + 1) % 2 ^ 16 }
          else { b with pend := b.pend - n }))) ∧
    (∀ (r : Sender) k w, (s.dev.casts.find r.cast).or (s.dev.away.find r.cast) = some k → k.th.waitOf r.id = some w →
      (∀ va pa o sc, w.wait = .cntWait va pa o sc → let die := s.dev.seDie pa
        let zero := (s.dev.se.get {} die).cnts.any fun x => x.pa == pa && x.tenant == k.tenant && x.value == 0
        (zero = true → exec (.seWaitRegister r) s = .next (waitEnds r.cast w.id s)) ∧
        (∀ ovf, zero = false → s.dev.placeFor die k.tenant .wait = some ovf → exec (.seWaitRegister r) s = .next (onEngine die (fun x =>
          { x with waits := x.waits ++ [{ cast := r.cast, id := w.id, tenant := k.tenant, wait := w.wait, left := [], ovf := ovf }] }) s)) ∧
        (zero = false → s.dev.placeFor die k.tenant .wait = none →
          exec (.seWaitRegister r) s = .next (heldBack die k.tenant (.seWaitRegister r) s))) ∧
      ∀ pa tenant phase o sc bs d, w.wait = .cpBwait pa tenant phase o sc → Dev.read s.mem s.dev tenant pa 16 = (bs, d) →
        ((Barrier.ofBytes bs).phase ≠ phase.toNat → exec (.seWaitRegister r) s = .next (waitEnds r.cast w.id { s with dev := d })) ∧
        ((Barrier.ofBytes bs).phase = phase.toNat → exec (.seWaitRegister r) s = .next (onEngine (s.dev.seDie pa) (fun x =>
          { x with waits := x.waits ++ [{ cast := r.cast, id := w.id, tenant := k.tenant, wait := w.wait }] }) { s with dev := d }))) ∧
    (∀ die entry act rest, (s.dev.se.get {} die).hold.get [] entry = act :: rest → s.dev.canRelease die entry = true →
      (∃ r n, act = .seCntInit r n ∨ act = .seCntDec r n) ∨ (∃ r h, act = .seGrpBarArrive r h) ∨ (∃ r, act = .seWaitRegister r) →
      ∃ t, exec (.seHoldRelease die entry) s = .next t ∧ exec act (onEngine die (fun x => { x with hold := x.hold.set [] entry rest }) s) = .next t) ∧
    ∀ die tid, (s.dev.se.get {} die).purging = true → (s.dev.se.get {} die).purgeDue ≤ s.dev.now → tid = (s.dev.se.get {} die).purgeTid.toNat →
      let groups := (s.dev.se.get {} die).grps.filter fun g => g.2.used && g.2.tid == tid
      let freed := groups.foldl (fun s g => dissolved (BitVec.ofNat 64 (g.1 + 2 ^ 12 * (die % 8) + 2 ^ 16 * g.2.gen)) s) s
      let ended := waitsEnd die (fun w => w.tenant == tid) freed
      let dropped := ((ended.dev.se.get {} die).hold.get [] ((ended.dev.tteOf die tid).getD 64)).foldl (fun s act => passedOver act s) ended
      exec (.sepurgeComplete die) s = .next (onEngine die (fun x =>
        { x with cnts := x.cnts.filter (fun e => e.tenant != tid), pres := x.pres.filter (fun e => e.tenant != tid),
                 hold := x.hold.set [] ((dropped.dev.tteOf die tid).getD 64) [], purging := false }) dropped)

/-- R158 to R167, R169, R370: groups made, joined, left and dissolved; an arrival at a group's barrier, which counts also when the thread
has discarded its wait; marks, which go to their words' engines in order, and the bit that each sets.
Where the spec leaves a point open this is the model's choice: log entry 35. -/
def Obligations.GroupSteps : Prop :=
  ∀ (s : State) (r : Sender) (c : Nat) (k : Cast), r.cast = c → s.dev.casts.find c = some k →
    (∀ (pid : Nat) (bmap nbits : Word), let se := s.dev.se.get {} k.die
      let held := (se.grps.filter fun g => g.2.used && g.2.tid == k.tenant).length
      let limit := ((se.qta.find ((s.dev.tteOf k.die k.tenant).getD 64)).getD qtaReset).toNat / 2 ^ 30 % 2 ^ 12
      let bad := limit ≤ held ∨ 2 ^ 20 < nbits.toNat ∨ (nbits ≠ 0 ∧ bmap.toNat % 128 ≠ 0)
      (bad ∨ (∀ i, i < 4096 → (se.grps.get {} i).used = true) → exec (.seGrpNew r pid bmap nbits) s = .next (sometime (.classDReply c pid 0 0) s)) ∧
      (∀ i, ¬ bad → i < 4096 → (se.grps.get {} i).used = false → (∀ j, j < i → (se.grps.get {} j).used = true) → let g := se.grps.get {} i
        let made : GrpEnt := { used := true, gen := g.gen, tid := k.tenant, bmap := bmap, nbits := nbits.toNat, memb := [c] }
        exec (.seGrpNew r pid bmap nbits) s = .next (sometime (.classDReply c pid (BitVec.ofNat 64 (i + 2 ^ 12 * (k.die % 8) + 2 ^ 16 * g.gen)) 0)
          (onEngine k.die (fun e => { e with grps := e.grps.put i made }) s)))) ∧
    (∀ (pid : Nat) (h : Word),
      (s.dev.grpOf h = none → exec (.seGrpJoin r pid h) s = .next (sometime (.classDReply c pid 1 h) s)) ∧
      (∀ g, s.dev.grpOf h = some g → g.tid ≠ k.tenant → exec (.seGrpJoin r pid h) s = .next (sometime (.classDReply c pid 2 h) s)) ∧
      (∀ g, s.dev.grpOf h = some g → g.tid = k.tenant → c ∈ g.memb → exec (.seGrpJoin r pid h) s = .next (sometime (.classDReply c pid 3 h) s)) ∧
      (∀ g, s.dev.grpOf h = some g → g.tid = k.tenant → c ∉ g.memb → exec (.seGrpJoin r pid h) s = .next
        (sometime (.classDReply c pid 0 h) (onGroup h (fun g => { g with memb := g.memb ++ [c] }) s)))) ∧
    (∀ h g, s.dev.grpOf h = some g →
      exec (.seGrpFree r h) s = .next (dissolved h s) ∧
      (c ∉ g.memb → exec (.seGrpLeave r h) s = .next s) ∧
      (c ∈ g.memb → (∀ x ∈ g.memb, x = c) → exec (.seGrpLeave r h) s = .next (dissolved h s)) ∧
      (∀ x ∈ g.memb, c ∈ g.memb → x ≠ c → exec (.seGrpLeave r h) s = .next
        (episodeEnds h (onGroup h (fun g => { g with memb := g.memb.filter (fun x => x != c), exp := g.exp.filter fun x => x != c }) s))) ∧
      (∀ h' b o sc, s.dev.grpOf h' = none → exec (.seGrpMark r h' b o sc) s = .next (strays c 2 h' b (settledFor (.thread c) r.id s))) ∧
      (∀ b o sc, g.nbits ≤ b.toNat → exec (.seGrpMark r h b o sc) s = .next (strays c 1 h b (settledFor (.thread c) r.id s))) ∧
      (∀ b o sc q d, b.toNat < g.nbits → Dev.translate s.mem s.dev { port := none, block := none, die := h.toNat / 2 ^ 12 % 8 } g.tid
          (g.bmap + BitVec.ofNat 64 (b.toNat / 8)) .store = (.ok q, d) →
        ∃ delay, (∀ at_ r' tenant x ix, (at_, Instr.seBitmapOr r' tenant x h ix) ∈ d.agenda → at_ ≤ d.now + delay) ∧
          exec (.seGrpMark r h b o sc) s = .next (drawn (later delay (.seBitmapOr r g.tid { pa := q.pa, rpl := q.rpl } h b.toNat) { s with dev := d }))) ∧
      (∀ ix v, exec (.seMarkReport h ix v) s = .next (waitsEnd (h.toNat / 2 ^ 12 % 8) (fun w => w.onBits h && (w.sees g.nbits ix v).1)
        (onEngine (h.toNat / 2 ^ 12 % 8) (fun x => { x with waits := x.waits.map fun w => if w.onBits h then (w.sees g.nbits ix v).2 else w }) s))) ∧
      ∀ ovf, c ∈ g.memb → s.dev.placeFor (h.toNat / 2 ^ 12 % 8) k.tenant .wait = some ovf →
        let arrives := fun (s : State) => episodeEnds h (onGroup h (fun g =>
            if g.open_ = false then { g with open_ := true, exp := g.memb, arrived := [c] }
            else if c ∈ g.exp then { g with arrived := g.arrived ++ [c] } else { g with held := g.held ++ [c] }) s)
        (k.th.waitOf r.id = none → exec (.seGrpBarArrive r h) s = .next (arrives s)) ∧
        ∀ w, k.th.waitOf r.id = some w → exec (.seGrpBarArrive r h) s = .next (arrives (onEngine (h.toNat / 2 ^ 12 % 8) (fun x =>
            { x with waits := x.waits ++ [{ cast := c, id := w.id, tenant := k.tenant, wait := w.wait, left := [], ovf := ovf }] }) s))) ∧
    ∀ tenant pa rpl h b bs, Dev.atomRead s.mem s.dev tenant pa 1 = (true, bs, s.dev) →
      let u := settledFor (.thread c) r.id (engineWritesFor (.thread c) r.id tenant pa rpl [BitVec.ofNat 8 (leNat bs ||| 2 ^ (b % 8))] s)
      exec (.seBitmapOr r tenant { pa := pa, rpl := rpl } h b) s = .next
        (sometime (.seMarkReport h (b / 64) (BitVec.ofNat 64 (leNat (Dev.read u.mem u.dev tenant (pa / 8 * 8) 8).1))) u)

/-! ## Memory and its keepers (R51, R56, R57, R60 to R64, R77, R452, R474, R484) -/

/-- R57, R60 to R64, R77, R78, R452, R474, R484: a write at a channel stores its bytes and no other byte changes; one that the channel denies,
or that no link carries, is dropped and reported; a store to a replicated page goes to every other die, and counts as performed when all have
applied it; a read; a walk; the end of a map, invalidation and key command.
Where the spec leaves a point open this is the model's choice: log entries 4, 6 and 23. -/
def Obligations.MemorySteps : Prop :=
  ∀ (s : State),
    (∀ (r : MemReq), r.rpl = none → r.write = true → let pa := s.dev.ownPa r.pa
      (paRegion pa = 0 → s.dev.admits r.tenant pa = true → pa / 128 = (pa + (r.data.length - 1)) / 128 →
        ∃ m l, let t : State := { mem := m, dev := { s.dev with lineKey := l } }
          exec (.channelRequest r) s = .next (settledFor r.agent r.id t) ∧
          (∀ k, k < r.data.length → stands t (pa + k) = r.data.getD k 0) ∧
          (∀ a, a < pa / 128 * 128 ∨ pa / 128 * 128 + 128 ≤ a → t.mem.byte a = s.mem.byte a ∧ stands t a = stands s a) ∧
          (∀ a, s.dev.keyAt a = s.dev.keyAt pa → a < pa ∨ pa + r.data.length ≤ a → stands t a = stands s a)) ∧
      (paRegion pa = 0 → s.dev.admits r.tenant pa = false → exec (.channelRequest r) s = .next (settledFor r.agent r.id
        (reported 0 [0x0F, BitVec.ofNat 64 (pa % 2 ^ 52), BitVec.ofNat 64 (r.tenant % 2 ^ 8 + 2 ^ 8 * ((s.dev.omapAt pa).toNat % 2 ^ 8) + 2 ^ 16
          + 2 ^ 17 * bit (!(s.dev.omapAt pa).getLsbD 15) + 2 ^ 18 * bit (s.dev.keyAt pa).isNone + 2 ^ 19 * paDie pa + 2 ^ 22 * chanOf pa)] s))) ∧
      (paRegion pa ≠ 0 → s.dev.linkUp pa = true → ∃ m, exec (.channelRequest r) s = .next (settledFor r.agent r.id { s with mem := m }) ∧
        (∀ k, k < r.data.length → m.byte (pa + k) = r.data.getD k 0) ∧ ∀ a, a < pa ∨ pa + r.data.length ≤ a → m.byte a = s.mem.byte a) ∧
      (paRegion pa ≠ 0 → s.dev.linkUp pa = false → exec (.channelRequest r) s = .next (settledFor r.agent r.id
        (reported r.tenant [0x0A, BitVec.ofNat 64 (bit (paRegion pa == 2)), BitVec.ofNat 64 pa, 1] s)))) ∧
    (∀ (r : MemReq) page, r.rpl = some page → r.write = true →
      exec (.channelRequest r) s = .next (settledFor r.agent r.id (sentToReplicas r page (s.perform { r with rpl := none }))) ∧
      (sentToReplicas r page s).dev.replNo = s.dev.replNo + 1 ∧
      ∀ die, die < 8 → (sentToReplicas r page s).dev.replicas.get [] (page / 4096 * 8 + die) =
        s.dev.replicas.get [] (page / 4096 * 8 + die) ++ (if s.dev.hasDie die = true ∧ die ≠ paDie page then [(s.dev.replNo, r)] else [])) ∧
    (∀ agent id, let left := ∃ e ∈ s.dev.replicas, ∃ r ∈ e.2, r.2.agent = agent ∧ r.2.id = id
      (∀ c, agent = .thread c → ¬ left → settledFor agent id s = performed c id s) ∧
      (left ∨ (∀ c, agent ≠ .thread c) → settledFor agent id s = s)) ∧
    (∀ (r : MemReq), r.write = false →
      (s.dev.admits r.tenant (s.dev.ownPa r.pa) = true → paRegion (s.dev.ownPa r.pa) = 0 → exec (.channelRequest r) s = .next s ∧
        Dev.read s.mem s.dev r.tenant r.pa r.len = ((List.range r.len).map fun i => stands s (s.dev.ownPa r.pa + i), s.dev)) ∧
      (s.dev.linkUp (s.dev.ownPa r.pa) = true → paRegion (s.dev.ownPa r.pa) ≠ 0 → exec (.channelRequest r) s = .next s)) ∧
    (∀ die page n r rest, let key := page / 4096 * 8 + die % 8
      s.dev.replicas.get [] key = (n, r) :: rest → exec (.replicaStoreApply die page) s = .next
        (let u := s.perform { r with pa := 2 ^ 40 * (r.pa / 2 ^ 40) + 2 ^ 37 * (die % 8) + r.pa % 2 ^ 37, rpl := none, write := true }
         settledFor r.agent r.id { u with dev := { u.dev with replicas := s.dev.replicas.set [] key rest } })) ∧
    (∀ die tenant va acc q d, Dev.translate s.mem s.dev { port := none, block := none, die := die } tenant va acc = (q, d) →
      exec (.pageWalk die tenant va (acc == .store) (acc == .fetch)) s = .next { s with dev := d }) ∧
    (∀ die, let x := s.dev.host.omapc.get {} die
      x.busy = true → x.due ≤ s.dev.now → let g := x.fields.toNat % 2 ^ 16
      ∃ e : BitVec 16, (∀ i, i < 16 → e.getLsbD i = (decide (i ≠ 14) && x.fields.getLsbD (16 + i))) ∧ exec (.omapComplete die) s = .next
        (onHost (fun h => { h with omapc := h.omapc.put die { x with busy := false } }) { s with dev := { s.dev with omap := s.dev.omap.put (65536 * die + g) e } })) ∧
    (s.dev.host.tlbi.busy = true → s.dev.host.tlbi.due ≤ s.dev.now → (∀ w ∈ s.dev.host.tlbWait, ∀ k, s.dev.casts.find w.cast = some k →
        k.uid = w.uid → (w.open_ = true → w.seq < k.th.seq) ∧ ∀ e ∈ k.th.queue, w.seq + 1 < e.blk) →
      (∀ i ∈ s.dev.host.tlbReqs, i ∉ s.dev.requests) → (∀ e ∈ s.dev.replicas, ∀ r ∈ e.2, s.dev.host.tlbStores ≤ r.1) →
      exec .tlbiComplete s = .next (onHost (fun h => { h with tlbWait := [], tlbReqs := [], tlbi := { h.tlbi with busy := false } }) s)) ∧
    (s.dev.host.keyc.busy = true → s.dev.host.keyc.due ≤ s.dev.now → let v := s.dev.host.keyc.fields
      let slot := v.toNat / 2 ^ 4 % 2 ^ 6
      let keyed := fun (f : Tbl Nat → Nat → Tbl Nat) (s : State) => { s with dev := { s.dev with
        keySlots := ((List.range 8).filter fun die => s.dev.diepres.getLsbD die).foldl (fun t die => f t (64 * die + slot)) s.dev.keySlots } }
      (v.toNat % 4 = 0 → exec .keyComplete s = .next (onHost (fun h => { h with nextKey := h.nextKey + 1, keyc := { h.keyc with busy := false } })
        (keyed (fun t i => t.put i s.dev.host.nextKey) s))) ∧
      (v.toNat % 4 = 1 → v.getLsbD 2 = false → exec .keyComplete s = .next
        (onHost (fun h => { h with keyc := { h.keyc with busy := false } }) (keyed (fun t i => t.del i) s))) ∧
      (v.toNat % 4 = 1 → v.getLsbD 2 = true → exec .keyComplete s = .next (onHost (fun h => { h with
        ioKeys := h.ioKeys.del (64 * bit (v.getLsbD 3) + slot), keyc := { h.keyc with busy := false } }) s)))

/-! ## Device registers (R9, R53, R56, R57, R63, R376, R384, R468, R472, R480, R484, R490, R491) -/

/-- R9, R53, R56, R57, R63, R376, R384, R472, R480, R484, R490, R491: the registers that firmware writes, as tenant 0: invalidations, the
ownership map, purges, keys, the placer's queue, the locks, status bits; nobody else's write does anything.
Where the spec leaves a point open this is the model's choice: log entries 82 to 84, 87 and 102. -/
def Obligations.RegisterSteps : Prop :=
  ∀ (s : State) (v : Word),
    (∀ tid r a b size die, tid ≠ 0 → exec (.registerWrite tid r v) s = .next s ∧ exec (.clearingWrite tid r v) s = .next s ∧
      exec (.tlbiAll tid) s = .next s ∧ exec (.tlbiTenant tid a) s = .next s ∧ exec (.tlbiRange tid b size) s = .next s ∧
      exec (.tlbiReserved tid v) s = .next s ∧ exec (.omapcmdWrite tid die v) s = .next s ∧ exec (.sepurgeWrite tid die v) s = .next s ∧
      exec (.keyGen tid v) s = .next s ∧ exec (.keyClear tid v) s = .next s ∧ exec (.keyLoad tid v) s = .next s ∧ exec (.keyReserved tid v) s = .next s ∧
      exec (.plsubWrite tid v) s = .next s ∧ exec (.featlockWrite tid v) s = .next s ∧ exec (.bootstatReady tid v) s = .next s) ∧
    (s.dev.host.tlbi.busy = false →
      exec (.tlbiAll 0) s = .next (invalidates 0 (fun _ => true) (tlbKept (fun _ => false) s)) ∧
      (∀ t, t < 256 → exec (.tlbiTenant 0 t) s = .next
        (invalidates (BitVec.ofNat 64 (1 + 2 ^ 8 * t)) (fun k => k.tenant == t) (tlbKept (fun e => e.tenant != t) s))) ∧
      (∀ t size len base, t < 256 → (size, len) ∈ [(0, 2 ^ 12), (1, 2 ^ 16), (2, 2 ^ 21), (3, 2 ^ 25), (4, 2 ^ 30), (5, 2 ^ 34), (6, 2 ^ 38)] →
        base = s.dev.host.tlbiva.toNat / len * len → exec (.tlbiRange 0 t size) s = .next (invalidates (BitVec.ofNat 64 (2 + 2 ^ 8 * t + 2 ^ 16 * size))
          (fun k => k.tenant == t) (tlbKept (fun e => !(e.tenant == t &&
            decide (e.vpn * 2 ^ e.shift < base + len ∧ base < e.vpn * 2 ^ e.shift + 2 ^ e.shift ∧ 0 < 2 ^ e.shift ∧ 0 < len))) s))) ∧
      (∀ t, t < 256 → exec (.tlbiRange 0 t 7) s = .next (onHost (fun h =>
        { h with tlbi := { h.tlbi with fields := BitVec.ofNat 64 (2 + 2 ^ 8 * t + 2 ^ 16 * 7) &&& 0x7FF03, err := true } }) s)) ∧
      (v.toNat % 4 = 3 → v.getLsbD 29 = false → v.getLsbD 30 = false → exec (.tlbiReserved 0 v) s = .next (onHost (fun h =>
        { h with tlbi := { h.tlbi with fields := v &&& 0x7FF03, err := true } }) s))) ∧
    (s.dev.host.tlbi.busy = true → exec (.tlbiAll 0) s = .next (onHost (fun h => { h with tlbi := { h.tlbi with ovr := true } }) s)) ∧
    (v.getLsbD 29 = true ∨ v.getLsbD 30 = true → exec (.clearingWrite 0 .tlbicmd v) s = .next (onHost (fun h =>
      { h with tlbi := { h.tlbi with err := h.tlbi.err && !v.getLsbD 29, ovr := h.tlbi.ovr && !v.getLsbD 30 } }) s)) ∧
    (v.getLsbD 61 = true ∨ v.getLsbD 62 = true → exec (.clearingWrite 0 .keycmd v) s = .next (onHost (fun h =>
      { h with keyc := { h.keyc with err := h.keyc.err && !v.getLsbD 61, ovr := h.keyc.ovr && !v.getLsbD 62 } }) s)) ∧
    (∀ iod, s.dev.part.hasPort iod = false → exec (.qslotDefine 0 iod v) s = .next s ∧ exec (.qslotDelete 0 iod v) s = .next s ∧
      exec (.qslotMap 0 iod v) s = .next s ∧ exec (.qslotUnmap 0 iod v) s = .next s ∧ exec (.qslotReserved 0 iod v) s = .next s) ∧
    (∀ die, s.dev.part.hasDie die = false → exec (.omapcmdWrite 0 die v) s = .next s ∧ exec (.sepurgeWrite 0 die v) s = .next s) ∧
    (∀ die, s.dev.part.hasDie die = true → let due := s.dev.now + Config.openDelay s.dev.free
      ((s.dev.host.omapc.get {} die).busy = true → exec (.omapcmdWrite 0 die v) s = .next s) ∧
      ((s.dev.host.omapc.get {} die).busy = false → exec (.omapcmdWrite 0 die v) s = .next (drawn (onHost (fun h =>
        { h with omapc := h.omapc.put die { fields := v &&& 0xFFFFFFFF, busy := true, due := due } }) s))) ∧
      ((s.dev.se.get {} die).purging = true → exec (.sepurgeWrite 0 die v) s = .next s) ∧
      ((s.dev.se.get {} die).purging = false → exec (.sepurgeWrite 0 die v) s = .next (drawn (onEngine die (fun x =>
        { x with purgeTid := v.extractLsb' 0 8, purging := true, purgeDue := due }) s)))) ∧
    (let begins := fun (w : Word) => drawn (onHost (fun h =>
        { h with keyc := { h.keyc with fields := w &&& 0x3FFFF, busy := true, due := s.dev.now + Config.openDelay s.dev.free } }) s)
      let refuses := fun (w : Word) => onHost (fun h => { h with keyc := { h.keyc with fields := w &&& 0x3FFFF, err := true } }) s
      let w := fun (op : Nat) => v &&& ~~~ 3 ||| BitVec.ofNat 64 op
      let held := (∃ x ∈ s.dev.host.sessions.find (v.toNat / 2 ^ 10 % 2 ^ 8), x.2 ≠ none)
      s.dev.host.keyc.busy = false → v.getLsbD 61 = false → v.getLsbD 62 = false →
      (v.getLsbD 2 = false ∧ v.toNat / 2 ^ 4 % 2 ^ 6 ≠ 0 → exec (.keyGen 0 v) s = .next (begins (w 0))) ∧
      (v.getLsbD 2 = true ∨ v.toNat / 2 ^ 4 % 2 ^ 6 = 0 → exec (.keyGen 0 v) s = .next (refuses (w 0))) ∧
      (v.getLsbD 2 = true ∨ v.toNat / 2 ^ 4 % 2 ^ 6 ≠ 0 → exec (.keyClear 0 v) s = .next (begins (w 1))) ∧
      (v.getLsbD 2 = false ∧ v.toNat / 2 ^ 4 % 2 ^ 6 = 0 → exec (.keyClear 0 v) s = .next (refuses (w 1))) ∧
      (v.getLsbD 2 = true ∧ held → exec (.keyLoad 0 v) s = .next (begins (w 2))) ∧
      (v.getLsbD 2 = false ∨ ¬ held → exec (.keyLoad 0 v) s = .next (refuses (w 2))) ∧
      (v.toNat % 4 = 3 → exec (.keyReserved 0 v) s = .next (refuses v))) ∧
    (s.dev.boot.ready = true → (∀ a ∈ s.dev.pl.asks, a.at_ = s.dev.now) →
      (s.dev.pl.queue.length < 64 → exec (.plsubWrite 0 v) s = .next (onPlacer (fun p =>
        { p with queue := p.queue ++ [{ src := .firmware, tenant := 0, addr := v, requester := 0 }] }) s)) ∧
      (64 ≤ s.dev.pl.queue.length → exec (.plsubWrite 0 v) s = .next (onPlacer (fun p => { p with ovr := true }) s))) ∧
    (∀ a ∈ s.dev.pl.asks, s.dev.boot.ready = true → a.at_ ≠ s.dev.now → exec (.plsubWrite 0 v) s = .next
      (asked { src := .firmware, at_ := s.dev.now, requester := 0, tenant := 0, addr := v } s)) ∧
    (∀ (a b : PlAsk) (l rest : List PlAsk),
      (∀ x ∈ l, x.at_ < a.at_ ∨ (x.at_ = a.at_ ∧ (x.src = .firmware ∨ (a.src ≠ .firmware ∧ x.requester ≤ a.requester)))) →
      insertAsk a l = l ++ [a] ∧ (a.at_ = b.at_ → b.src ≠ .firmware → a.src = .firmware ∨ a.requester < b.requester →
        insertAsk a (l ++ b :: rest) = l ++ a :: b :: rest)) ∧
    exec (.featlockWrite 0 v) s = .next { s with dev := { s.dev with featlock := s.dev.featlock || v.getLsbD 0 } } ∧
    exec (.bootstatReady 0 v) s = .next (onBoot (fun b => { b with ready := b.ready || v.getLsbD 11 }) s) ∧
    ((∀ die i, s.dev.part.hasDie die = true → i < 64 →
        (∃ t, exec (.registerWrite 0 (.ttew0 die i) v) s = .next t ∧ t.dev.readReg (.ttew0 die i) = v &&& 0xFF01FF) ∧
        (∃ t, exec (.registerWrite 0 (.ttew1 die i) v) s = .next t ∧ t.dev.readReg (.ttew1 die i) = v &&& 0xFFFFFFFFFF000)) ∧
      (s.dev.part = .eos8 → exec (.registerWrite 0 .ualid v) s = .next { s with dev := { s.dev with ualid := v.setWidth 10 } }) ∧
      (s.dev.part = .eos4 → exec (.registerWrite 0 .ualid v) s = .next s) ∧
      exec (.registerWrite 0 .govst v) s = .next s ∧
      ∀ i, i < 4 → s.dev.featlock = true → exec (.registerWrite 0 (.featacc i) v) s = .next s)

/-- R453, R468: the commands of QSLOTCMD: a queue defined, deleted, mapped to a slot and unmapped; a reserved operation is refused.
Where the spec leaves a point open this is the model's choice: log entries 83 and 85 to 88. -/
def Obligations.SlotCommands : Prop :=
  ∀ (s : State) (iod : Nat) (v : Word), s.dev.part.hasPort iod = true → v.getLsbD 61 = false → v.getLsbD 62 = false →
    let qid := v.toNat / 2 ^ 8 % 2 ^ 10
    let slot := v.toNat % 2 ^ 5
    let a := s.dev.host.qcba.get 0 iod
    let q := s.dev.host.queues.get {} (1024 * iod + qid)
    let refused := onHost fun h => { h with qcmd := h.qcmd.modify {} iod fun x => { x with err := true } }
    (∀ tid, tid ≠ 0 → exec (.qslotDefine tid iod v) s = .next s ∧ exec (.qslotDelete tid iod v) s = .next s ∧ exec (.qslotMap tid iod v) s = .next s ∧
      exec (.qslotUnmap tid iod v) s = .next s ∧ exec (.qslotReserved tid iod v) s = .next s) ∧
    (∀ b d, let u := commanded iod (slotWord 1 v) s
      Dev.readRun u.mem u.dev { port := none, block := none, die := 0 } 0 a 128 = (.ok b, d) → let tid := (b.getD 2 0).toNat
      (u.dev.lockedFn iod tid = none → q.v = false → 3 ≤ b.length → exec (.qslotDefine 0 iod v) s = .next
        (onHost (fun h => { h with queues := h.queues.put (1024 * iod + qid) { v := true, tid := tid, qcb := a } }) { u with dev := d })) ∧
      (u.dev.lockedFn iod tid = none → q.v = true → 3 ≤ b.length → exec (.qslotDefine 0 iod v) s = .next (refused u))) ∧
    (let u := commanded iod (slotWord 2 v) s;
      u.dev.lockedFn iod q.tid = none →
      (q.slot = none → q.infl = 0 → exec (.qslotDelete 0 iod v) s = .next (onHost (fun h => { h with queues := h.queues.del (1024 * iod + qid) }) u)) ∧
      (q.slot ≠ none ∨ q.infl ≠ 0 → exec (.qslotDelete 0 iod v) s = .next (refused u))) ∧
    (∀ b d x, let u := commanded iod (slotWord 3 v) s
      (q.v = false → exec (.qslotMap 0 iod v) s = .next (refused u)) ∧
      (q.v = true → q.slot = none → s.dev.host.slots.find (32 * iod + slot) = none →
        Dev.readRun u.mem u.dev { port := none, block := none, die := 0 } 0 a 128 = (.ok b, d) → num b 0 2 = 1 →
        x = ({ qid := qid, qcb := a, tid := num b 2 1, pri := num b 3 1 % 16, qdie := num b 6 1 % 8, base := BitVec.ofNat 64 (num b 8 8),
               lsz := min 16 (num b 16 1), rdx := num b 20 4, err := num b 7 1 == 1, errix := num b 28 4 } : SlotSt) →
        ((q.wrx + 2 ^ 32 - x.rdx % 2 ^ 32) % 2 ^ 32 ≤ 2 ^ x.lsz ∨ x.err = true) →
        let f : QueueEnt → QueueEnt := fun q' => { q' with slot := some slot, pend := false, prio := q.prio, mapAt := d.now, kept := 0 }
        exec (.qslotMap 0 iod v) s = .next (onHost (fun h => { h with slots := h.slots.put (32 * iod + slot) x })
          (onHost (fun h => { h with queues := h.queues.upd (1024 * iod + qid) f }) { u with dev := d })))) ∧
    (∀ x, let u := commanded iod (slotWord 4 v) s
      s.dev.host.slots.find (32 * iod + slot) = some x →
      (x.qid ≠ qid ∨ q.slot ≠ some slot → exec (.qslotUnmap 0 iod v) s = .next (refused u)) ∧
      (x.qid = qid → q.slot = some slot → 
        let t := storedBack iod (x.qcb + 7) (leBytes 1 (bit x.err)) (storedBack iod (x.qcb + 20) (leBytes 4 x.rdx ++ leBytes 4 q.wrx ++ leBytes 4 x.errix) u)
        let f : QueueEnt → QueueEnt := fun q' => { q' with slot := none, pend := decide (x.rdx ≠ q.wrx), pendAt := t.dev.now, waited := 0 }
        exec (.qslotUnmap 0 iod v) s = .next (onHost (fun h => { h with slots := h.slots.del (32 * iod + slot) })
          (onHost (fun h => { h with queues := h.queues.upd (1024 * iod + qid) f }) t)))) ∧
    (v.toNat / 2 ^ 20 % 2 ^ 3 = 0 ∨ 4 < v.toNat / 2 ^ 20 % 2 ^ 3 → exec (.qslotReserved 0 iod v) s = .next (refused (commanded iod v s)))

/-! ## Boot, sessions and the governor (R436, R437, R452, R453, R474, R476 to R489) -/

/-- R436, R452, R453, R474, R476 to R478, R481, R483, R486, R488, R489: the boot sequence, step by step; a recovery image; the states of interfaces and
links; SPDM sessions; the governor's window and the fast limiter. Whether an image verifies, which links train and the energies are open.
Where the spec leaves a point open this is the model's choice: log entries 12, 16, 17, 99 and 100. -/
def Obligations.BootSteps : Prop :=
  ∀ (s : State), let ok := Config.verifies s.dev.boot.checks
    (s.dev.boot.step ≠ 0 → exec .powerOn s = .next s) ∧
    (s.dev.boot.step = 0 → exec .powerOn s = .next (onBoot (fun b => { b with step := if ok then 1 else 7 }) (checked s))) ∧
    (s.dev.boot.step = 1 → ok = true → exec .iodVerifyRelease s = .next (onBoot (fun b => { b with step := 2 })
      (if s.dev.part = .eos8 then iodReleased 1 (iodReleased 0 (checked s)) else iodReleased 0 (checked s)))) ∧
    (s.dev.boot.step = 1 → ok = false → exec .iodVerifyRelease s = .next (onBoot (fun b => { b with step := 6, recov := true }) (iodReleased 0 (checked s)))) ∧
    (s.dev.boot.step = 2 → ∃ links lost, exec .ucieTraining s = .next (onBoot (fun b => { b with step := 3, die := 0, links := links, cdfail := b.cdfail ||| lost }) s) ∧
      (∀ x ∈ links, x ∈ s.dev.part.links) ∧ ∀ die, die < 8 → (lost.getLsbD die = true ↔ s.dev.part.hasDie die = true ∧ die ∉ reached links)) ∧
    (s.dev.boot.step = 3 → let die := s.dev.boot.die
      let on := onBoot (fun b => { b with die := die + 1 }) s
      (8 ≤ die → exec .cdVerifyRelease s = .next { onBoot (fun b => { b with step := 4 }) on with
        dev := { (onBoot (fun b => { b with step := 4 }) on).dev with seamdn := s.dev.deadSeams } }) ∧
      (die < 8 → s.dev.part.hasDie die = false ∨ s.dev.boot.cdfail.getLsbD die = true → exec .cdVerifyRelease s = .next on) ∧
      (die < 8 → s.dev.part.hasDie die = true → s.dev.boot.cdfail.getLsbD die = false →
        (ok = false → exec .cdVerifyRelease s = .next (onBoot (fun b => { b with cdfail := b.cdfail ||| BitVec.ofNat 8 (2 ^ die) }) (checked on))) ∧
        (ok = true → ∃ blocks, exec .cdVerifyRelease s = .next
          (let u := onBoot (fun b => { b with cdrel := b.cdrel ||| BitVec.ofNat 8 (2 ^ die) }) (checked on)
           { u with dev := { u.dev with diepres := u.dev.diepres ||| BitVec.ofNat 10 (2 ^ die), blkpres := u.dev.blkpres.put die blocks, relClock := u.dev.relClock.put die s.dev.now } })))) ∧
    (s.dev.boot.step = 4 → exec .bootKeyGen s = .next (onBoot (fun b => { b with step := 5, keys := true }) (onPlacer (fun p => { p with saves := [] })
      (onHost (fun h => { h with nextKey := h.nextKey + 1 }) { s with dev := { s.dev with
        keySlots := ((List.range 8).filter fun die => s.dev.diepres.getLsbD die).foldl (fun t die => t.put (64 * die + 0) s.dev.host.nextKey) s.dev.keySlots } })))) ∧
    (∀ port image, (s.dev.boot.recov = false ∨ port ≠ 0 → exec (.recoveryImageWrite port image) s = .next s) ∧
      (s.dev.boot.recov = true → ok = false → exec (.recoveryImageWrite 0 image) s = .next (checked s)) ∧
      (s.dev.boot.recov = true → ok = true → ∃ t, exec (.recoveryImageWrite 0 image) s = .next t ∧ t.mem = s.mem ∧ t.dev.boot.step = 0 ∧
        t.dev.boot.ready = false ∧ t.dev.casts = [] ∧ t.dev.agenda = [] ∧ t.dev.keySlots = [] ∧ t.dev.boot.image = some image ∧ t.dev.lineKey = s.dev.lineKey)) ∧
    (∀ q, let answer := fun (u : State) => drawn (replied (.spdm (Config.spdmReply s.dev.free (spdmCode q :: s.dev.measured13))) u)
      (∀ sid, q = .keyExchange sid → exec (.spdmMessage q) s = .next (answer (onHost (fun h => { h with sessions := h.sessions.put sid (false, none) }) s))) ∧
      (∀ sid, q = .finish sid → exec (.spdmMessage q) s = .next (answer (onHost (fun h => { h with sessions := h.sessions.upd sid fun x => (true, x.2) }) s))) ∧
      (∀ sid, q = .endSession sid → exec (.spdmMessage q) s = .next (answer (onHost (fun h => { h with sessions := h.sessions.del sid }) s))) ∧
      (∀ sid key, q = .sealedKey sid key → s.dev.host.sessions.find sid = some (true, none) → ∃ t, exec (.spdmMessage q) s = .next t ∧
        t.dev.host.sessions.find sid = some (true, some key)) ∧
      (q = .getVersion ∨ q = .getCapabilities ∨ q = .negotiateAlgorithms ∨ q = .getDigests ∨ q = .getCertificate ∨ q = .challenge ∨ q = .getMeasurements →
        exec (.spdmMessage q) s = .next (answer s))) ∧
    (∀ port fn, port < 2 → 0 < fn → fn < 64 → let st := ((s.dev.host.fncfg.find (64 * port + fn)).getD 0).toNat / 2 ^ 10 % 4
      exec (.tdispStopInterface port fn) s = .next (tdstSet port fn 0 s) ∧
      exec (.tdispInterfaceRequest port fn false) s = .next (if st = 0 then tdstSet port fn 1 s else s) ∧
      exec (.tdispInterfaceRequest port fn true) s = .next (if st = 1 then tdstSet port fn 2 s else s)) ∧
    (∀ port, exec (.pcieLinkStateChange port true) s = .next { s with dev := { s.dev with pcieUp := s.dev.pcieUp ||| BitVec.ofNat 2 (2 ^ port) } } ∧
      exec (.pcieLinkStateChange port false) s = .next { s with dev := { s.dev with pcieUp := s.dev.pcieUp &&& ~~~ BitVec.ofNat 2 (2 ^ port) } } ∧
      exec (.ualinkPortStateChange port true) s = .next { s with dev := { s.dev with ualUp := s.dev.ualUp ||| BitVec.ofNat 8 (2 ^ port) } } ∧
      exec (.ualinkPortStateChange port false) s = .next { s with dev := { s.dev with ualUp := s.dev.ualUp &&& ~~~ BitVec.ofNat 8 (2 ^ port) } }) ∧
    (let u := debited s
     let e := Config.packageEnergy u.dev.now - Config.packageEnergy (u.dev.now - 1500000)
     let limit := u.dev.sch.pwrlim * 10 ^ 9
     let g := if limit < e then u.dev.sch.gscale * u.dev.sch.pwrlim * 10 ^ 9 / e else min 256 (u.dev.sch.gscale + 8)
     ∃ ebal, exec .energyWindowEnd s = .next (onSched (fun x => { x with gscale := g, pmw := e / 10 ^ 8, winAt := u.dev.now + 1500000, ebal := ebal }) u) ∧
       ∀ i, i < 64 → ebal.get 0 i = (match u.dev.sch.eallow.find i with
        | some a => if a = 0xFFFFFFFF then u.dev.sch.ebal.get 0 i else min (u.dev.sch.ebal.get 0 i) 0 + ((a.toNat * 10 ^ 6 * g / 256 : Nat) : Int)
        | none => u.dev.sch.ebal.get 0 i)) ∧
    (let e := Config.packageEnergy s.dev.now - Config.packageEnergy (s.dev.now - 150000)
     let fast := if 11 * s.dev.sch.pwrlim * 10 ^ 8 < 10 * e then true else if e ≤ s.dev.sch.pwrlim * 10 ^ 8 then false else s.dev.sch.fast
     exec .fastLimiterSample s = .next (onSched (fun x => { x with fast := fast, fastAt := s.dev.now + 150000 }) s))

/-! ## The placer (R383 to R413) -/

/-- R387 to R413: each operation of the placer, when its checks pass, and the status of the checks that each clause names when they do not; the
end of a cut, the carrying of a cast once it has no access in flight, a row that is filled, the end of a roll and the removal of a halted
cast; the releases of a request wait for the replicas of what was stored before.
Where the spec leaves a point open this is the model's choice: log entries 13 and 52 to 65. -/
def Obligations.PlacerSteps : Prop :=
  ∀ (s u : State) (r : PlReq) (b : PlBlock),
    (Asked s 9 r b u → let p : Plinth := { tid := b.tid, pix := b.pix, bx := b.bx, by_ := b.by_, w := b.pw, h := b.ph }
      let good := b.tid ≠ 0 ∧ b.pix < 4 ∧ 0 < b.pw ∧ 0 < b.ph ∧ b.bx + b.pw ≤ (if u.dev.part = .eos8 then 24 else 12) ∧ b.by_ + b.ph ≤ 12
      let taken := ∃ q ∈ u.dev.pl.plinths, rectsMeet q b.bx b.by_ b.pw b.ph = true ∨ (q.tid = b.tid ∧ q.pix = b.pix)
      (good → ¬ taken → exec .placerGrant s = .next (answered r b 0 0 0 0 (walled (rectSites b.bx b.by_ b.pw b.ph)
        (fun x y => outward b.bx b.by_ b.pw b.ph x y + 2 ^ 8 * b.tid) (onPlacer (fun p' => { p' with plinths := p'.plinths ++ [p] }) u)))) ∧
      (good → taken → exec .placerGrant s = .next (answered r b 27 0 0 0 u)) ∧ (¬ good → exec .placerGrant s = .next (answered r b 1 0 0 0 u))) ∧
    (Asked s 10 r b u → let found := u.dev.pl.plinths.find? fun p => p.tid == b.tid && p.pix == b.pix
      (found = none → exec .placerRevoke s = .next (answered r b 1 0 0 0 u)) ∧
      (∀ p, found = some p → (∃ e ∈ u.dev.casts, p.holds e.2.bx e.2.by_ = true) → exec .placerRevoke s = .next (answered r b 28 0 0 0 u)) ∧
      (∀ p, found = some p → (∀ e ∈ u.dev.casts, p.holds e.2.bx e.2.by_ = false) → exec .placerRevoke s = .next (answered r b 0 0 0 0
        (walled (rectSites p.bx p.by_ p.w p.h) (fun _ _ => 0xF) (onPlacer (fun p' => { p' with plinths := p'.plinths.filter fun q => q != p }) u))))) ∧
    (Asked s 1 r b u → (∀ e d, Dev.readImage u.mem u.dev (tenantOf r b) b.addr = (.error e, d) →
        exec .placerLoad s = .next (answered r b e.1 e.2 0 0 { u with dev := d })) ∧
      ∀ img d mould, Dev.readImage u.mem u.dev (tenantOf r b) b.addr = (.ok img, d) → d.checkImage img = .ok mould → d.badTenant (tenantOf r b) = none →
      (∀ e, d.position (tenantOf r b) b.aff none b mould.wb mould.hb = .error e → exec .placerLoad s = .next (answered r b e.1 e.2 0 0 { u with dev := d })) ∧
      ∀ x y k d' t, d.position (tenantOf r b) b.aff none b mould.wb mould.hb = .ok (x, y) →
        Dev.checkAt u.mem d mould (tenantOf r b) d.freeNumber x y b.bind none none = (.ok k, d') →
        State.place { u with dev := d' } d.freeNumber { k with aff := b.aff } = some t → exec .placerLoad s = .next
          (answered r b 0 0 (BitVec.ofNat 64 d.freeNumber) d.freeNumber (threadBegins d.freeNumber t))) ∧
    (∀ op step, (op, step) ∈ [(2, Instr.placerMove), (4, .placerRoll), (5, .placerSave), (8, .placerResume)] → Asked s op r b u →
      ∀ e, u.dev.reqCast (tenantOf r b) b.cast false = .error e → op ≠ 2 → exec step s = .next (answered r b e.1 e.2 0 0 u)) ∧
    (Asked s 2 r b u → ∀ k k' i, u.dev.reqCast (tenantOf r b) b.cast false = .ok k → i = ({ cast := b.cast, bx := b.bx, by_ := b.by_, aff := b.aff, cut := b.cut } : MoveItem) →
      u.dev.checkMove k i = .ok k' → (b.cut = 255 → exec .placerMove s = .next (State.runMoves r b [i] 0 u)) ∧
      (b.cut ≠ 255 → exec .placerMove s = .next (onPlacer (fun p => { p with cur := some (.move r b i (u.dev.now + p.movelim.toNat) [] 0 (k.reserve k')) })
        (onCast b.cast (fun k => k.pauseCut b.cut true) u)))) ∧
    (Asked s 3 r b u → (b.len = 0 ∨ 16 < b.len.toNat → exec .placerCompact s = .next (answered r b 1 0 0 0 u)) ∧
      ∀ bs d is, b.len ≠ 0 → b.len.toNat ≤ 16 → Dev.readRun u.mem u.dev { port := none, block := none, die := 0 } (tenantOf r b) b.addr (8 * b.len.toNat) = (.ok bs, d) →
        moveList b.aff bs b.len.toNat = some is → exec .placerCompact s = .next (State.runMoves r b is 0 { u with dev := d })) ∧
    (Asked s 4 r b u → ∀ k, u.dev.reqCast (tenantOf r b) b.cast false = .ok k → k.frozen = true → exec .placerRoll s = .next (answered r b 4 0 0 0 u)) ∧
    (Asked s 4 r b u → ∀ old img d mould k d' t, u.dev.reqCast (tenantOf r b) b.cast false = .ok old → old.frozen = false →
      Dev.readImage u.mem u.dev (tenantOf r b) b.addr = (.ok img, d) → d.checkImage img = .ok mould → d.badTenant (tenantOf r b) = none →
      (mould.wb ≠ old.wb ∨ mould.hb ≠ old.hb → exec .placerRoll s = .next (answered r b 23 0 0 0 { u with dev := d })) ∧
      (mould.wb = old.wb → mould.hb = old.hb → Dev.checkAt u.mem d mould (tenantOf r b) d.freeNumber old.bx old.by_ b.bind none none = (.ok k, d') →
        State.placeOver { u with dev := d' } d.freeNumber b.cast { k with aff := if b.aff = 0 then old.aff else b.aff } r b = some t →
        exec .placerRoll s = .next t)) ∧
    (Asked s 5 r b u → ∀ k, u.dev.reqCast (tenantOf r b) b.cast false = .ok k → let size := 65536 + k.mould.bytes.length + 2686976 * (k.wb * k.hb)
      (b.addr.toNat % 4096 ≠ 0 → exec .placerSave s = .next (answered r b 1 0 0 0 u)) ∧
      (b.addr.toNat % 4096 = 0 → b.len.toNat < size → exec .placerSave s = .next (answered r b 24 0 (BitVec.ofNat 64 size) 0 u)) ∧
      (b.addr.toNat % 4096 = 0 → size ≤ b.len.toNat → k.th.mode ≠ .halted → ∃ z, exec .placerSave s = .next
          (onPlacer (fun p => { p with cur := some (.save r b b.cast z) }) (frozen b.cast (stagingCancelled b.cast u))) ∧
        (k.frozen = true → k.saving ≠ some .yield → z = true) ∧
        (k.frozen = false → (∀ k', (frozen b.cast (stagingCancelled b.cast u)).dev.casts.find b.cast = some k' → k'.th.mode ≠ .stopped) → z = false))) ∧
    (∀ c w k t x, s.dev.pl.cur = some (.save r b c w) → s.dev.casts.find c = some k → s.dev.saveReady c k = true →
      State.writeImage (onPlacer (fun p => { p with cur := none }) s) (tenantOf r b) c (if w then 2 else 1) { port := none, block := none, die := 0 } b.addr = (t, some x, none) →
      exec .placerSave s = .next (answered r b 0 0 (BitVec.ofNat 64 x.size) 0 (if b.remove then t.takeAway c else if w then t else thawed c t))) ∧
    (Asked s 6 r b u → (∀ e d, Dev.findImage u.mem u.dev (tenantOf r b) b.addr = (.error e, d) → exec .placerRestore s = .next (answered r b e.1 e.2 0 0 { u with dev := d })) ∧
      (∀ va f d, Dev.readRun u.mem u.dev { port := none, block := none, die := 0 } (tenantOf r b) b.addr 64 = (.error (va, f), d) →
        Dev.findImage u.mem u.dev (tenantOf r b) b.addr = (.error (25, va), d)) ∧
      (∀ x d, Dev.findImage u.mem u.dev (tenantOf r b) b.addr = (.ok x, d) → d.casts.find x.no ≠ none →
        exec .placerRestore s = .next (answered r b 4 0 0 0 { u with dev := d })) ∧
      ∀ x d saved aff px py k d' chans t, Dev.findImage u.mem u.dev (tenantOf r b) b.addr = (.ok x, d) → d.casts.find x.no = none →
        saved = d.savedCast x → aff = (if b.aff = 0 then saved.aff else b.aff) → d.position (tenantOf r b) aff none b saved.wb saved.hb = .ok (px, py) →
        Dev.checkAt u.mem d saved.mould (tenantOf r b) x.no px py b.bind none (some saved.ports) = (.ok k, d') → d'.rehome none (tenantOf r b) (dieOfBlock px py) saved.chans = .ok chans →
        State.place { u with dev := d' } x.no (saved.replaced k chans aff) = some t →
        let back := onPlacer (fun p => { p with reserved := p.reserved.filter fun n => n != x.no }) { t with dev := { t.dev with away := t.dev.away.del x.no } }
        let live := if b.frozen then back else thawed x.no back
        exec .placerRestore s = .next (answered r b 0 0 (BitVec.ofNat 64 x.no) x.no { live with dev := live.dev.reregister x.no saved })) ∧
    (Asked s 7 r b u → u.dev.away.find b.cast = none → (∀ e, u.dev.reqCast (tenantOf r b) b.cast true = .error e → exec .placerRemove s = .next (answered r b e.1 e.2 0 0 u)) ∧
      ∀ k, u.dev.reqCast (tenantOf r b) b.cast true = .ok k → u.dev.pl.rolls.find b.cast = none → exec .placerRemove s = .next
        (State.beginRemoval (onPlacer (fun p => { p with cur := some (.remove r b b.cast) }) u) b.cast)) ∧
    (∀ c, s.dev.pl.cur = some (.remove r b c) → (s.dev.casts.find c = none → exec .placerRemove s = .next (answered r b 0 0 0 0 (onPlacer (fun p => { p with cur := none }) s))) ∧
      (∀ k, s.dev.casts.find c = some k → exec .placerRemove s = .next s)) ∧
    (Asked s 8 r b u → ∀ k, u.dev.reqCast (tenantOf r b) b.cast false = .ok k → (k.canResumeAt b = false → exec .placerResume s = .next (answered r b 1 0 0 0 u)) ∧
      (k.canResumeAt b = true → exec .placerResume s = .next (answered r b 0 0 0 0 { u with dev := u.dev.resume b.cast k b }))) ∧
    (∀ i deadline rest ix res, s.dev.pl.cur = some (.move r b i deadline rest ix res) →
      let v := onPlacer (fun p => { p with cur := none }) (onCast i.cast (fun k => k.pauseCut i.cut false) s)
      (s.dev.cutReady = true → ∀ k res', s.dev.stillMoves r b i res = .ok (k, res') →
        exec .moveCutEmpty s = .next (v.freezeMove r b i rest ix k res').moveOn) ∧
      (s.dev.cutReady = true → ∀ e, s.dev.stillMoves r b i res = .error e → b.op ≠ 3 → exec .moveCutEmpty s = .next (answered r b e.1 e.2 0 0 v)) ∧
      (s.dev.now < deadline → exec .cuttimeout s = .next s) ∧
      (deadline ≤ s.dev.now → b.op ≠ 3 → exec .cuttimeout s = .next (answered r b 22 0 0 0 v)) ∧
      (deadline ≤ s.dev.now → b.op = 3 → exec .cuttimeout s = .next (answered r b 22 (BitVec.ofNat 64 ix) 0 0 v))) ∧
    (∀ i rest ix k k', State.runMoves r b [] ix u = answered r b 0 0 0 0 u ∧ (u.dev.reqCast (tenantOf r b) i.cast false = .ok k → u.dev.checkMove k i = .ok k' → i.cut = 255 →
      State.runMoves r b (i :: rest) ix u = (u.freezeMove r b i rest ix k (k.reserve k')).moveOn)) ∧
    (∀ i rest ix k res, ∃ z, s.freezeMove r b i rest ix k res =
      onPlacer (fun p => { p with cur := some (.moving r b i rest ix z res) }) (frozen i.cast (usageCounted i.cast (stagingCancelled i.cast s)))) ∧
    (∀ i rest ix z res, s.dev.pl.cur = some (.moving r b i rest ix z res) →
      (s.dev.moveReady = true → s.moveOn = State.runMoves r b rest (ix + 1) s.goMove) ∧ (s.dev.moveReady = false → s.moveOn = s) ∧
      exec .placerMove s = .next s.moveOn ∧ exec .placerCompact s = .next s.moveOn ∧
      s.goMove = movedTo i z res (onPlacer (fun p => { p with cur := none }) s) ∧
      ∀ k, s.dev.casts.find i.cast = some k → s.dev.moveReady = s.dev.accessesDone i.cast k ∧ ∃ k', s.goMove.dev.casts.find i.cast = some k' ∧
        k'.bx = i.bx ∧ k'.by_ = i.by_ ∧ k'.aff = (if i.aff = 0 then k.aff else i.aff) ∧ k'.th.regs = k.th.regs ∧ k'.th.armst = k.th.armst ∧
        k'.th.oobSeen = false) ∧
    (∀ c x k, s.dev.pl.rolls.find c = some x → s.dev.casts.find c = some k →
      (x.filled < k.hb → ∃ t, exec (.rollRowFill c) s = .next t ∧ t.mem = s.mem ∧ t.dev.pl.rolls.find c = some { x with
        filled := x.filled + 1, released := max x.released (x.filled + 1), filling := false }) ∧
      (k.hb ≤ x.filled → k.emptied = true → let v := s.endRemoval c false
        let w := onCast x.num (fun k => { k with lease := none }) (onPlacer (fun p => { p with rolls := p.rolls.del c }) v)
        exec (.rollFinish c) s = .next (answered x.req x.blk 0 0 (BitVec.ofNat 64 x.num) x.num (threadBegins x.num w)))) ∧
    (∀ c k, s.dev.casts.find c = some k → s.dev.canRetire c k = true → exec (.haltRemoval c) s = .next (s.beginRemoval c)) ∧
    ((r.src = .firmware ∨ ∃ c, r.src = .thread c) → b.cnt = 0 → ∀ status detail result cast,
      let t := blockWritten r 72 (leBytes 8 result.toNat) (blockWritten r 64 (leBytes 8 detail.toNat) s)
      let t' := blockWritten r 4 (leBytes 4 status) t
      ((∀ e ∈ t.dev.replicas, e.2 = []) → (∀ e ∈ t'.dev.replicas, e.2 = []) → answered r b status detail result cast s = t') ∧
      ((∃ e ∈ t.dev.replicas, ∃ x ∈ e.2, x.1 < t.dev.replNo) → answered r b status detail result cast s = onPlacer (fun p =>
        { p with fin := p.fin ++ [{ req := r, cnt := b.cnt, status := status, cast := cast, seen := t.dev.replNo }] }) t))

/-! ## Port adapters (R394 to R399) -/

/-- R396 to R399: a ring into a cast delivers the entries from HEAD on, HEAD moving past each once its token has been accepted, and reads TAIL
again while it equals HEAD; a ring out of a cast writes the entry at TAIL, TAIL moving past it once every replica has it, and reads HEAD while
the ring is full; a fault stops the adapter before its access, and after RESUME an entry is skipped; a pair of ports passes its tokens on in
order, and holds 16. Where the spec leaves a point open this is the model's choice: log entries 40 and 62. -/
def Obligations.AdapterSteps : Prop :=
  ∀ (s : State) (c ix : Nat) (k : Cast) (p : Port),
    let via := k.adapterVia p
    let next := fun (i : Nat) => (i + 1) % 2 ^ 64
    let used := fun (g : Ring) => (g.own + 2 ^ 64 - g.last) % 2 ^ 64
    let size := if p.wide then 256 else 16
    let applied := fun (n : Nat) => ∀ e ∈ s.dev.replicas, ∀ x ∈ e.2, n ≤ x.1
    (∀ q g off t, ServesRing s c ix k q g → let run := s.writeRun via k.tenant (.adapter c ix) (g.desc + BitVec.ofNat 64 off) (leBytes 8 (next g.own))
      (run = (t, none) → indexWritten c ix k p g off s = onRing c ix (fun g => { g with own := next g.own, acks := g.acks.tail, owe := none }) t) ∧
      (∀ x f, run = (t, some (x, f)) → indexWritten c ix k p g off s = adapterStops c ix k x f true false t)) ∧
    (∀ g, ServesRing s c ix k p g → p.isOut = false → let taken := ∃ t n rest, g.acks = (t, n) :: rest ∧ t ≤ s.dev.now ∧ applied n
      let entry := (g.own + g.acks.length) % 2 ^ 64
      (taken → exec (.inRingDeliver c ix) s = .next (indexWritten c ix k p g 16 s)) ∧
      (¬ taken → entry ≠ g.last → g.acks.length < 16 → g.skip = true → exec (.inRingDeliver c ix) s = .next
        (onRing c ix (fun g => { g with skip := false, acks := g.acks ++ [(s.dev.now, s.dev.replNo)] }) s)) ∧
      (¬ taken → entry ≠ g.last → g.acks.length < 16 → g.skip = false → TakesToken s c ix k p →
        let run := Dev.readRun s.mem s.dev via k.tenant (g.base + BitVec.ofNat 64 (size * (entry % g.cap))) size (.adapter c ix)
        (∀ bs d, run = (.ok bs, d) → exec (.inRingDeliver c ix) s = .next
          (onRing c ix (fun g => { g with acks := g.acks ++ [(d.now + k.portClocks d p, d.replNo)] }) (portSent c ix p (ringToken p.wide bs) { s with dev := d }))) ∧
        (∀ va f d, run = (.error (va, f), d) → exec (.inRingDeliver c ix) s = .next (adapterStops c ix k va f false true { s with dev := d }))) ∧
      (p.paused = false → g.own = g.last → g.poll ≤ s.dev.now →
        let run := Dev.readRun s.mem s.dev via k.tenant (g.desc + 24) 8 (.adapter c ix)
        (∀ bs d, run = (.ok bs, d) →
          exec (.inRingTailPoll c ix) s = .next (onRing c ix (fun g => { g with last := leNat bs, poll := s.dev.now + 256 }) { s with dev := d })) ∧
        (∀ va f d, run = (.error (va, f), d) → exec (.inRingTailPoll c ix) s = .next (adapterStops c ix k va f false false { s with dev := d })))) ∧
    (∀ g, ServesRing s c ix k p g → p.isOut = true →
      (∀ n, g.owe = some n → applied n → exec (.outRingWrite c ix) s = .next (indexWritten c ix k p g 24 s)) ∧
      (g.owe = none → p.q ≠ [] → p.absorbs = false → g.skip = true →
        exec (.outRingWrite c ix) s = .next (headTaken c ix (onRing c ix (fun g => { g with skip := false }) s))) ∧
      (g.owe = none → p.absorbs = false → g.skip = false → used g < g.cap → ∀ tok rest t, p.q = tok :: rest →
        let run := s.writeRun via k.tenant (.adapter c ix) (g.base + BitVec.ofNat 64 (size * (g.own % g.cap))) (ringEntry tok)
        (run = (t, none) → exec (.outRingWrite c ix) s = .next (headTaken c ix (onRing c ix (fun g => { g with owe := some t.dev.replNo }) t))) ∧
        (∀ va f, run = (t, some (va, f)) → exec (.outRingWrite c ix) s = .next (adapterStops c ix k va f true true t))) ∧
      (g.owe = none → g.cap ≤ used g → g.poll ≤ s.dev.now →
        let run := Dev.readRun s.mem s.dev via k.tenant (g.desc + 16) 8 (.adapter c ix)
        (∀ bs d, run = (.ok bs, d) →
          exec (.outRingHeadPoll c ix) s = .next (onRing c ix (fun g => { g with last := leNat bs, poll := s.dev.now + 256 }) { s with dev := d })) ∧
        (∀ va f d, run = (.error (va, f), d) → exec (.outRingHeadPoll c ix) s = .next (adapterStops c ix k va f false false { s with dev := d })))) ∧
    (∀ c' ix' held, s.dev.casts.find c = some k → k.ports[ix]? = some p → p.bind = .peer c' ix' true held → p.isOut = true →
      (∀ j q t rest, held = t :: rest → TakesToken s c' ix' j q →
        exec (.castBindingTransfer c ix) s = .next (portSent c' ix' q t (heldSet c ix rest s))) ∧
      (∀ t rest, p.q = t :: rest → p.absorbs = false → k.frozen = false → k.served p.site = true → held.length < 16 →
        (held = [] ∨ ¬ ∃ j q, TakesToken s c' ix' j q) → exec (.castBindingTransfer c ix) s = .next (headTaken c ix (heldSet c ix (held ++ [t]) s)))) ∧
    (∀ t : Token, ringEntry t = if t.wide then leBytes 128 t.data.toNat ++ leBytes 4 t.side.toNat ++ leBytes 2 t.ctl.toNat ++ List.replicate 122 0
      else leBytes 8 t.data.toNat ++ leBytes 1 t.ctl.toNat ++ List.replicate 7 0)

/-! ## The task scheduler (R417 to R442) -/

/-- R417 to R421, R426, R446 to R448: what a dispatcher does with TASK.PUT, TASK.SDEF, TASK.REG, TASK.UNREG and TASK.INFO, and its reply;
a request that finds requests of its clock on their way to an engine follows them; a released counter readies the tasks registered on it.
Where the spec leaves a point open this is the model's choice: log entries 66, 71 and 73. -/
def Obligations.DispatcherSteps : Prop :=
  ∀ (src : PutSource) (tenant die : Nat) (s : State),
    let busy := ∃ e ∈ s.dev.agenda, e.1 ≤ s.dev.now ∧ (seKey e.2).isSome = true
    let via : Via := { port := none, block := none, die := die }
    let ask := fun (rq : TaskReq) => exec (.dispatchTaskPut src tenant die rq) s
    (∀ rq, busy → ask rq = .next (later 1 (.dispatchTaskPut src tenant die rq) s)) ∧
    (¬ busy → ∀ addr loc e d, Dev.readRun s.mem s.dev via tenant addr 128 = (.error e, d) →
      ask (.put addr loc) = .next (taskAnswered src 1 { s with dev := d })) ∧
    (¬ busy → ∀ addr bs d t dep, Dev.readRun s.mem s.dev via tenant addr 128 = (.ok bs, d) → t = taskOf tenant die addr bs → dep = BitVec.ofNat 64 (num bs 16 8) → t.parm = 0 →
      (badRecord bs = true → ask (.put addr false) = .next (taskAnswered src 1 { s with dev := d })) ∧
      (badRecord bs = false → let own := ∃ k, d.casts.find t.target = some k ∧ k.tenant = tenant ∧ k.leaving = false
        let full := field (d.schqOf tenant) 32 12 ≤ (d.sch.tasks.countP fun e => e.2.tenant == tenant) ∨ 4096 ≤ (d.sch.tasks.countP fun e => e.2.die == die)
        (t.direct = false → d.sch.stages.find (65536 * tenant + t.stage) = none → ask (.put addr false) = .next (taskAnswered src 2 { s with dev := d })) ∧
        (t.direct = true → ¬ own → ask (.put addr false) = .next (taskAnswered src 3 { s with dev := d })) ∧
        ((t.direct = false → d.sch.stages.find (65536 * tenant + t.stage) ≠ none) → (t.direct = true → own) →
          (full → ask (.put addr false) = .next (taskAnswered src 4 { s with dev := d })) ∧
          (¬ full → t.succ = [0, 0, 0, 0] → (dep = 0 → ask (.put addr false) = .next (taskAnswered src 0 (accepted src false t { s with dev := d }))) ∧
            (∀ pa d', dep ≠ 0 → Dev.counterAt s.mem d via tenant dep = (some pa, d') →
              ask (.put addr false) = .next (taskAnswered src 0 (accepted src false { t with dep := some pa } { s with dev := d' }))) ∧
            (∀ d', dep ≠ 0 → Dev.counterAt s.mem d via tenant dep = (none, d') →
              ask (.put addr false) = .next (taskAnswered src 5 { s with dev := d' })))))) ∧
    (∀ c pid t, src = .thread c pid → t.direct = false → let done := ∃ pa, t.dep = some pa ∧ s.dev.counterDone t.tenant pa = true
      (done ∨ t.dep = none → accepted src false t s = onSched (fun x => { x with next := x.next + 1, tasks := x.tasks.put x.next (queued (readied s.dev.now t)) }) s) ∧
      (¬ done → t.dep ≠ none → accepted src false t s = onSched (fun x => { x with next := x.next + 1, tasks := x.tasks.put x.next (queued t) }) s)) ∧
    (¬ busy → ∀ addr bs d, Dev.readRun s.mem s.dev via tenant addr 64 = (.ok bs, d) → num bs 0 2 ≠ 0 →
      (d.sch.stages.find (65536 * tenant + num bs 0 2) ≠ none ∨ d.sch.stages.length < 1024) →
      (num bs 2 1 = 0 → num bs 3 13 = 0 → num bs 16 16 = 0 → num bs 12 4 = 0 → num bs 32 32 = 0 → ask (.sdef addr) =
        .next (taskAnswered src 0 (onSched (fun x => { x with stages := x.stages.put (65536 * tenant + num bs 0 2) {} }) { s with dev := d }))) ∧
      (num bs 2 1 = 1 → num bs 12 4 = 0 → num bs 32 32 = 0 → num bs 6 2 < num bs 4 2 → 1 ≤ num bs 8 1 → num bs 8 1 ≤ num bs 9 1 → num bs 9 1 ≤ 64 →
        num bs 10 2 ≠ 0 → let st : Stage :=
          { elastic := true, aff := num bs 3 1, high := num bs 4 2, low := num bs 6 2, minr := num bs 8 1, maxr := num bs 9 1
            hold := num bs 10 2, img := BitVec.ofNat 64 (num bs 16 8), bind := BitVec.ofNat 64 (num bs 24 8) }
        ask (.sdef addr) = .next (taskAnswered src 0
          (onSched (fun x => { x with stages := x.stages.put (65536 * tenant + num bs 0 2) st }) { s with dev := d })))) ∧
    (¬ busy → ∀ c stage, let defined := s.dev.sch.stages.find (65536 * tenant + stage) ≠ none
      (¬ defined → ask (.reg c stage) = .next (taskAnswered src 1 s) ∧ ask (.info stage) = .next (taskAnswered src 0 s)) ∧
      (defined → s.dev.casts.find c = none → ask (.reg c stage) = .next (taskAnswered src 2 s)) ∧
      (∀ k, defined → s.dev.casts.find c = some k → k.tenant = tenant → k.leaving = false →
        (k.stage = stage → ask (.reg c stage) = .next (taskAnswered src 0 s)) ∧
        (k.stage ≠ stage → k.stage ≠ 0 → ask (.reg c stage) = .next (taskAnswered src 3 s)) ∧
        (k.stage ≠ stage → k.stage = 0 → 64 ≤ (s.dev.replicasOf tenant stage).length → ask (.reg c stage) = .next (taskAnswered src 4 s)) ∧
        (k.stage ≠ stage → k.stage = 0 → (s.dev.replicasOf tenant stage).length < 64 →
          ask (.reg c stage) = .next (taskAnswered src 0 (onCast c (fun k => { k with stage := stage }) s)))) ∧
      (∀ k, s.dev.casts.find c = some k → k.tenant = tenant → ask (.unreg c) = .next (taskAnswered src 0 (leftStage c s)) ∧
        (k.stage = 0 → leftStage c s = s) ∧ (k.stage ≠ 0 → k.deque = [] → leftStage c s = onCast c (fun k => { k with stage := 0, deque := [] }) s)) ∧
      (s.dev.casts.find c = none → ask (.unreg c) = .next (taskAnswered src 0 s)) ∧
      (∀ c pid k, defined → src = .thread c pid → s.dev.casts.find c = some k → ask (.info stage) = .next (taskAnswered src
        (min 65535 (s.dev.readyOf tenant stage) + 2 ^ 16 * (s.dev.replicasOf tenant stage).length + 2 ^ 23 * k.deque.length + 2 ^ 29 * k.variant) s))) ∧
    (∀ c pid r, (pid ≠ 0 → Replies s 200 c pid (BitVec.ofNat 64 r) 0 (taskAnswered (.thread c pid) r s)) ∧ taskAnswered (.thread c 0) r s = s) ∧
    (∀ pa, ∃ t, exec (.taskReady tenant pa) s = .next t ∧ t.mem = s.mem ∧ ∀ id x, s.dev.sch.tasks.find id = some x →
      (∀ e ∈ s.dev.sch.tasks, e.1 = id → e.2 = x) → t.dev.sch.tasks.find id =
        some (if x.st = .waiting ∧ x.tenant = tenant ∧ x.dep = some pa then readied s.dev.now x else x))

/-- R422 to R442: admission of a working set, its pieces and its end; the choice of the next task and its token; the start of a task on its
parameter block; its completion with STATE and the successor decrements; ageing and elastic stages; a variant's end of rewrite; the watchdog and
the memory limit.
Where the spec leaves a point open this is the model's choice: log entries 16, 66 to 70 and 72 to 81. -/
def Obligations.TaskSteps : Prop :=
  ∀ (s : State) (c : Nat) (k : Cast), s.dev.casts.find c = some k →
    (∀ tenant id t, firstTask (s.dev.admissions tenant) = some (id, t) → ∀ t' d h d', Dev.withWs s.mem s.dev t = (t', d) →
      Dev.taskHomes s.mem t' t'.ws d = (h, d') → let q := s.dev.schqOf t.tenant
      let l2 := ((t'.ws.filter fun w => w.lvl == 1).map WsEnt.size).sum
      let scr := ((t'.ws.filter fun w => w.lvl == 2 || w.lvl == 3).map WsEnt.size).sum
      let onDie := fun die => ((h.filter fun x => x.1 == die).map Prod.snd).sum
      let beyond := 2 ^ 20 * field q 0 16 < l2 ∨ 65536 * field q 16 16 < scr
      let excess := beyond ∨ ∃ die, die < 8 ∧ 48 * 2 ^ 20 < onDie die
      let room := s.dev.chargedL2 t'.tenant + l2 ≤ 2 ^ 20 * field q 0 16 ∧ s.dev.chargedScr t'.tenant + scr ≤ 65536 * field q 16 16 ∧
        ∀ die, die < 8 → s.dev.heldL2 die + onDie die ≤ 48 * 2 ^ 20
      (excess → exec (.stagingAdmit tenant) s = .next (onTask id (fun t =>
        { t with st := .staged, overq := true, hold := false, l2 := 0, scr := 0, heldOn := [] }) { s with dev := if beyond then d else d' })) ∧
      (¬ excess → ¬ room → exec (.stagingAdmit tenant) s = .next { s with dev := d' }) ∧
      (¬ excess → room → exec (.stagingAdmit tenant) s = .next (onTask id
        (fun _ => { t' with st := .staging, hold := false, l2 := l2, scr := scr, heldOn := h, since := s.dev.now }) { s with dev := d' }))) ∧
    (∀ id t, s.dev.sch.tasks.find id = some t → t.canPiece s.dev.now = true → s.dev.pieces t ≠ [] → ∃ i, t.ws[i]? ≠ none ∧ ∀ w, t.ws[i]? = some w →
      let n := min 4096 (w.size - w.pos)
      let on := fun (lost : Bool) (u : State) => onTask id (fun t =>
        let t := { t with ws := t.ws.set i { w with pos := w.pos + n, pushed := true }, since := s.dev.now + 1 }
        if lost then { t with lost := t.lost ||| BitVec.ofNat 4 (2 ^ i) } else t) u
      let run := Dev.readRun s.mem (drawn s).dev { port := none, block := none, die := t.die } t.tenant (w.base + BitVec.ofNat 64 w.pos) n
      (w.lvl = 1 → ∀ bs d, run = (.ok bs, d) → exec (.stagingPiece id) s = .next (on false { s with dev := d })) ∧
      (w.lvl = 1 → ∀ e d, run = (.error e, d) → exec (.stagingPiece id) s = .next (on true { s with dev := d })) ∧
      (w.lvl = 3 → ∀ k, s.dev.casts.find t.target = some k → let x := k.chans.get {} (field w.tgt 0 2)
        (x.used = true → x.closing = false → exec (.stagingPiece id) s = .next (on false
          (onChan t.target (field w.tgt 0 2) (fun x => { x with queue := x.queue ++ [(w.base, 0, false)] }) (drawn s)))) ∧
        (x.used = false ∨ x.closing = true → exec (.stagingPiece id) s = .next (on true (drawn s))))) ∧
    (∀ id t, s.dev.sch.tasks.find id = some t → s.dev.stagingDone t = true →
      exec (.stagingEnd id) s = .next (onTask id (fun t => { t with st := .staged }) s)) ∧
    (∀ id t x, s.dev.canGive c k = some x → s.dev.sch.tasks.find id = some t → x = .fifo id ∨ x = .deque id ∨ x = .stage id →
      exec (.taskDeliver c) s = .next (given c id k t s)) ∧
    (∀ id, s.dev.canGive c k = some (.suspended id) → exec (.taskDeliver c) s = .next { s with dev := s.dev.restoreTask c id }) ∧
    (∀ id t, s.dev.canSteal c k = some id → s.dev.sch.tasks.find id = some t → exec (.taskSteal c) s = .next (given c id k t s)) ∧
    (∀ parm prio id, k.th.taskToken = some (parm, prio) → k.task = some id → k.th.mode = .atEntry →
      let run := if parm = 0 then (.ok [], s.dev) else Dev.readRun s.mem s.dev k.via k.tenant parm 256
      (∀ bs d, run = (.ok bs, d) → exec (.taskTokenStart c) s = .next (onCast c Cast.latchAll (onCast c (fun k => { k with busy := [] })
        (onThread c (fun t => { t with taskToken := none, startTask := true, taskActive := true, taskpri := prio, parmb := parm, ret := []
                                       parm := BitVec.ofNat 2048 (leNat bs), mode := .fetch (d.now + 1) })
        (onTask id (fun t => { t with st := .active, since := d.now, energy := 0 }) (usageCounted c { s with dev := d })))))) ∧
      (∀ va f d, run = (.error (va, f), d) → ∀ t, d.sch.tasks.find id = some t → exec (.taskTokenStart c) s = .next (discarded c id 3
        (reported k.tenant [0x10, BitVec.ofNat 64 c, t.addr, parm, f.syndrome .load 0 k.tenant]
          (onThread c (fun t => { t with taskToken := none }) { s with dev := d }))))) ∧
    (∀ id t, s.dev.canComplete k = some id → s.dev.sch.tasks.find id = some t → let w := if t.wrote then s else stateWritten t 1 s
      let u := State.decSuccessors k c t t.succ w
      let v : State := { u with dev := ((u.dev.settleEnergy c t).dropTask id).packetEnd t }
      (w.dev.unapplied w.dev.replNo = true → exec (.taskComplete c) s = .next (onTask id (fun t => { t with wrote := true }) w)) ∧
      (w.dev.unapplied w.dev.replNo = false →
        exec (.taskComplete c) s = .next (variantChosen c (onCast c (fun k => { k with outSince := v.dev.now, th := { k.th with taskActive := false } }) v)))) ∧
    (∀ t va rest, State.decSuccessors k c t [] s = s ∧ State.decSuccessors k c t (0 :: rest) s = State.decSuccessors k c t rest s ∧
      (va ≠ 0 → ∀ p d, Dev.translate s.mem s.dev k.via t.tenant va .store = (.ok p, d) → State.decSuccessors k c t (va :: rest) s =
        State.decSuccessors k c t rest (later 0 (.seCntDec
          { source := .dispatcher c k.uid, requester := k.requester, tenant := t.tenant, va := va, pa := p.pa, order := .rel, scope := scopeOfCode t.scope } 1)
          { s with dev := d }))) ∧
    (∀ die, let u := onSched (fun x => { x with quantum := x.quantum.put die (s.dev.now + 1500 * max 1 x.ageq.toNat), tasks := x.tasks.map fun e =>
        (e.1, if e.2.die == die && e.2.isReady then { e.2 with quanta := e.2.quanta + 1 } else e.2) }) s
      let first := (List.range 8).find? fun i => (s.dev.relClock.find i).isSome
      (first ≠ some die → exec (.ageingQuantum die) s = .next u) ∧
      (first = some die → exec (.ageingQuantum die) s = .next ((u.dev.sch.stages.filter fun e => e.2.elastic).foldl (fun t e => sampled e.1 e.2 t) u))) ∧
    (∀ key st, let tenant := key / 65536
      let stage := key % 65536
      let q := s.dev.readyOf tenant stage
      let n := (s.dev.replicasOf tenant stage).length
      let above := if st.high < q then st.above + 1 else 0
      let under := if q < st.low then st.under + 1 else 0
      let put := fun o u => onSched (fun x => { x with stages := x.stages.upd key fun x => { x with above := o, under := u } })
      let asks := fun b => asked { src := .elastic stage, at_ := s.dev.now, requester := 10500, tenant := tenant, addr := 0, block := some b }
      (st.hold ≤ above → n < st.maxr → sampled key st s =
        put 0 0 (asks { op := 1, auto := true, aff := st.aff, addr := st.img, bind := st.bind } s)) ∧
      (¬ (st.hold ≤ above ∧ n < st.maxr) → ¬ (st.hold ≤ under ∧ st.minr < n) → sampled key st s = put above under s)) ∧
    (exec (.variantSwitch c) s = .next (onCast c (fun k => match k.switchTo with
      | some v => k.rewrite v
      | none => k) s)) ∧
    (k.frozen = false → 1500 * s.dev.sch.hang.toNat ≤ k.hang → 0 < k.hang →
      let v := onCast c (fun k => { k with saving := some (k.saving.getD .watchdog) }) (frozen c (stagingCancelled c s))
      ∀ k', v.dev.casts.find c = some k' →
        (k'.frozen = false ∨ v.dev.saveReady c k' = false → exec (.wdog c) s = .next v) ∧
        (k'.frozen = true → v.dev.saveReady c k' = true → k'.saving = some .watchdog →
          let r := State.poolImage (onCast c (fun k => { k with saving := none }) v) c 2
          exec (.wdog c) s = .next (reported k'.tenant [0x07, BitVec.ofNat 64 c, r.2, k'.th.pc] r.1))) ∧
    (∀ tenant va requester, exec (.memtimeout tenant c va requester) s =
      .next (reported tenant [0x08, BitVec.ofNat 64 c, va, BitVec.ofNat 64 (requester % 65536)] { s with dev := s.dev.markLate c va requester }))

/-! ## The I/O dies' ports (R450 to R459, R473) -/

/-- R450 to R459, R473: an inbound request that is refused, and one that joins the ordering point; what the ordering point does with the next
request that may go on; a sealed commit; a read of the host that finds no completion; a peer's request.
Where the spec leaves a point open this is the model's choice: log entries 15 and 92 to 96. -/
def Obligations.PortSteps : Prop :=
  ∀ (s : State) (port : Nat) (q : Inbound),
    (∀ data, (¬ PassesGate s port q data.length → exec (.inboundPostedWrite port q data) s = .next s) ∧
      (PassesGate s port q data.length → ¬ InStream s port q →
        exec (.inboundPostedWrite port q data) s = .next (reported 0 [0x0D, BitVec.ofNat 64 (q.fn + 256 * port)] s)) ∧
      (PassesGate s port q data.length → InStream s port q →
        exec (.inboundPostedWrite port q data) s = .next (arrived port { id := 0, q := q, data := data } s))) ∧
    (∀ len tag, (¬ PassesGate s port q len → exec (.inboundRead port q len tag) s = .next (replied (.unsupported tag) s)) ∧
      (PassesGate s port q len → InStream s port q →
        (q.bar = 2 → exec (.inboundRead port q len tag) s = .next (arrived port { id := 0, q := q, read := some (len, tag) } s)) ∧
        (q.bar = 4 → exec (.inboundRead port q len tag) s = .next (replied (.data tag (List.replicate len 0)) s)) ∧
        (∀ r, inFile q = true → Config.pf0Reg port (q.off - 2 ^ 22) = some r →
          exec (.inboundRead port q len tag) s = .next (replied (.data tag (leBytes len (s.dev.readReg r).toNat)) s)) ∧
        (q.bar = 0 → inFile q = false → ∃ bs, exec (.inboundRead port q len tag) s = .next (replied (.data tag bs) (drawn s))))) ∧
    (∀ kind size tag, (PassesGate s port q (width size) → InStream s port q → q.bar = 2 → 4 ≤ width size →
        exec (.inboundAtomicop port q kind size tag) s = .next (arrived port { id := 0, q := q, atom := some (kind, size, tag) } s)) ∧
      (¬ PassesGate s port q (width size) → exec (.inboundAtomicop port q kind size tag) s = .next (replied (.unsupported tag) s))) ∧
    (∀ a, s.forwardAt port = some a → a.isCommit = false → let tenant := s.dev.fnTenant port a.q.fn
      let va : Word := BitVec.ofNat 64 (4096 * field (s.dev.fncfgOf port a.q.fn) 12 40 + a.q.off)
      let run := fun acc n => Dev.partsAt s.mem s.dev tenant acc va n
      (a.q.bar = 2 → a.read = none → a.atom = none →
        (∀ ps d, run .store a.data.length = (.ok ps, d) → exec (.inboundWriteForward port) s =
          .next (forwarded port a.id tenant (fun a => { a with gone := true }) a.data ps { s with dev := d })) ∧
        (∀ x f d, run .store a.data.length = (.error (x, f), d) → exec (.inboundWriteForward port) s = .next (departed port a.id
          (reported tenant [0x0B, BitVec.ofNat 64 a.q.fn, x, f.syndrome .store 0 tenant] { s with dev := d })))) ∧
      (∀ len tag p, a.q.bar = 2 → a.read = some (len, tag) → (∀ d, run .load len = (.ok [p], d) → ∀ bs d', Dev.read s.mem d p.place.tid (p.place.readPa 0) p.len = (bs, d') →
        exec (.inboundWriteForward port) s = .next (replied (.data tag bs) (departed port a.id { s with dev := d' }))) ∧
        (∀ x f d, run .load len = (.error (x, f), d) → exec (.inboundWriteForward port) s = .next (replied (.abort tag) (departed port a.id
          (reported tenant [0x0B, BitVec.ofNat 64 a.q.fn, x, f.syndrome .load 0 tenant] { s with dev := d }))))) ∧
      (∀ kind size tag p d, a.q.bar = 2 → a.read = none → a.atom = some (kind, size, tag) → run .store (width size) = (.ok [p], d) → va.toNat % width size = 0 →
        exec (.inboundWriteForward port) s = .next (later 0 (.seAtomic
          { agent := .host port, requester := 10496 + port, tenant := tenant, pa := p.place.pa
            rpl := p.place.rpl, size := size, kind := kind, order := .ar, scope := .system, reply := .outside tag }) (departed port a.id { s with dev := d }))) ∧
      (a.q.bar = 0 → inFile a.q = false → a.data.length = 8 → a.q.off % 4096 + 8 ≤ 4096 → exec (.inboundWriteForward port) s =
        .next (later 0 (.doorbellKick port a.q.fn (a.q.off / 4096) (BitVec.ofNat 64 (leNat a.data))) (departed port a.id s))) ∧
      (∀ r, a.q.bar = 0 → inFile a.q = true → Config.pf0Reg port (a.q.off - 2 ^ 22) = some r → exec (.inboundWriteForward port) s =
        .next (State.regWrite (departed port a.id s) 0 r (BitVec.ofNat 64 (leNat a.data))))) ∧
    (∀ a, s.forwardAt port = some a → a.isCommit = true → let st := (a.q.off - 2 ^ 20) / 64
      let e := s.dev.host.ecs.get {} (16 * port + st)
      let ctr : Word := BitVec.ofNat 64 (num a.data 0 8)
      let len := num a.data 8 4
      (e.v = false ∨ e.tid.toNat ≠ s.dev.fnTenant port a.q.fn → exec (.sealedCommit port) s = .next (departed port a.id s)) ∧
      (e.v = true → e.tid.toNat = s.dev.fnTenant port a.q.fn →
        (∀ status, badCommit e a.q a.data = some status → exec (.sealedCommit port) s = .next (departed port a.id (sealedWith port st e ctr status s))) ∧
        (badCommit e a.q a.data = none → s.dev.unseal port st e a.data = none →
          exec (.sealedCommit port) s = .next (departed port a.id (sealedWith port st e ctr 1 s))) ∧
        (∀ pt, badCommit e a.q a.data = none → s.dev.unseal port st e a.data = some pt →
          let run := Dev.partsAt s.mem s.dev e.tid.toNat .store (e.dst + BitVec.ofNat 64 (num a.data 16 8)) len
          (∀ x d, run = (.error x, d) → exec (.sealedCommit port) s = .next (departed port a.id (sealedWith port st e ctr 4 { s with dev := d }))) ∧
          (∀ ps d, run = (.ok ps, d) → exec (.sealedCommit port) s = .next
            (forwarded port a.id e.tid.toNat (fun a => { a with gone := true, cnt := if e.cnt = 0 then none else some (e.tid.toNat, e.cnt) }) pt ps
              (sealedWith port st e ctr 0 (onHost (fun h => { h with ecs := h.ecs.modify {} (16 * port + st) fun e => { e with ctr := e.ctr + 1, nacc := e.nacc + 1 } })
                { s with dev := d }))))))) ∧
    (∀ c n k b sl l, s.dev.casts.find c = some k → k.th.blk = some b → b.slots[n]? = some sl → sl.load = some l →
      exec (.hostReadTimeout c b.seq n) s = .next (later 0 (.slotResultDeliver c b.seq n (some 0)) (reported k.tenant [0x0A, 0, BitVec.ofNat 64 l.pa, 0] s))) ∧
    (∀ tenant pa len data tag, let a := pa % 2 ^ 40
      exec (.peerInboundRequest tenant pa true len data none tag) s = .next (writeAt s tenant a data) ∧
      (∀ bs d, Dev.read s.mem s.dev tenant a len = (bs, d) →
        exec (.peerInboundRequest tenant pa false len data none tag) s = .next (replied (.data tag bs) { s with dev := d })) ∧
      (∀ write kind, exec (.peerInboundRequest tenant pa write len data (some kind) tag) s = .next (later 0 (.seAtomic
        { agent := .peer, requester := 10498, tenant := tenant, pa := a, rpl := none, size := if len = 8 then .b8 else .b4, kind := kind, order := .ar
          scope := .domain, reply := .outside tag }) s)))

/-! ## User queues (R462 to R471) -/

/-- R462 to R471: a kick of a mapped and of an unmapped queue; a slot reads its next packet, checks it and issues it, by its type; a packet
completes; a packet's request reaches the placer, joins its queue, and is put again where that was full; the firmware maps the queues that
pend.
Where the spec leaves a point open this is the model's choice: log entries 89, 90 and 92. -/
def Obligations.QueueSteps : Prop :=
  ∀ (s : State) (iod n qid : Nat),
    (∀ fn v, let q := s.dev.host.queues.get {} (1024 * iod + qid)
      let wrx := v.toNat % 2 ^ 32
      let t := onQueue iod qid (fun q => { q with wrx := wrx }) s
      (q.v = false ∨ q.tid ≠ s.dev.fnTenant iod fn → exec (.doorbellKick iod fn qid v) s = .next s) ∧
      (q.v = true → q.tid = s.dev.fnTenant iod fn →
        (∀ i x, q.slot = some i → s.dev.host.slots.find (32 * iod + i) = some x → let tooFar := 2 ^ x.lsz < (wrx + 2 ^ 32 - x.rdx % 2 ^ 32) % 2 ^ 32
          (¬ tooFar ∨ x.err = true → exec (.doorbellKick iod fn qid v) s = .next t) ∧
          (tooFar → x.err = false → ∀ q', t.dev.host.queues.find (1024 * iod + qid) = some q' →
            exec (.doorbellKick iod fn qid v) s = .next (queueStopped iod qid x.rdx 4 0 x.packetVa q' t))) ∧
        (q.slot = none → q.pend = true → exec (.doorbellKick iod fn qid v) s = .next t) ∧
        (q.slot = none → q.pend = false → exec (.doorbellKick iod fn qid v) s = .next (onHost (fun h => { h with wake := h.wake.set false iod true })
          (onQueue iod qid (fun q => { q with pend := true, pendAt := s.dev.now, waited := 0 }) t))))) ∧
    (∀ x q, s.dev.host.slots.find (32 * iod + n) = some x → s.dev.host.queues.find (1024 * iod + x.qid) = some q →
      (x.err = false → x.pkt = none → x.rdx ≠ q.wrx →
        let va := x.base + BitVec.ofNat 64 (128 * (x.rdx % 2 ^ x.lsz))
        let run := Dev.readRun s.mem s.dev { port := none, block := none, die := 0 } x.tid va 128
        (∀ bs d, run = (.ok bs, d) → badPacket bs = false → exec (.packetFetch iod n) s = .next (onSlot iod n (fun x => { x with pkt := some bs }) { s with dev := d })) ∧
        (∀ bs d, run = (.ok bs, d) → badPacket bs = true → ∀ q', d.host.queues.find (1024 * iod + x.qid) = some q' →
          exec (.packetFetch iod n) s = .next (queueStopped iod x.qid x.rdx 1 0 va q' { s with dev := d })) ∧
        (∀ e d, run = (.error e, d) → ∀ q', d.host.queues.find (1024 * iod + x.qid) = some q' →
          exec (.packetFetch iod n) s = .next (queueStopped iod x.qid x.rdx 1 0 va q' { s with dev := d }))) ∧
      (∀ bs, x.err = false → x.pkt = some bs → s.dev.host.issued.get 0 iod ≤ s.dev.now → q.infl < 16 → (num bs 3 1 % 2 = 0 ∨ q.infl = 0) →
        let p : PktSt := { iod := iod, qid := x.qid, index := x.rdx, tid := x.tid, addr := x.packetVa, arg := BitVec.ofNat 64 (num bs 16 8)
                           signal := if (num bs 3 1).testBit 1 then some (BitVec.ofNat 64 (num bs 8 8)) else none }
        let t := onHost (fun h => { h with packets := h.packets ++ [p], turn := h.turn.set 0 iod ((n + 1) % 32), issued := h.issued.set 0 iod (s.dev.now + 1) })
          (onQueue iod x.qid (fun q => { q with infl := q.infl + 1 }) (onSlot iod n (fun x => { x with rdx := (x.rdx + 1) % 2 ^ 32, pkt := none }) s))
        let completes := later 0 (.packetComplete iod x.qid x.rdx)
        (num bs 2 1 = 0 → exec (.packetIssue iod n) s = .next (completes t)) ∧
        (num bs 2 1 = 1 → exec (.packetIssue iod n) s = .next (sometime (.dispatchTaskPut (.packet iod x.qid x.rdx) x.tid x.qdie (.put p.arg false)) t)) ∧
        (num bs 2 1 = 2 → exec (.packetIssue iod n) s = .next (slotAsks p t)) ∧
        (num bs 2 1 = 3 → ∀ pa d, Dev.counterAt t.mem t.dev { port := none, block := none, die := 0 } x.tid p.arg = (some pa, d) →
          (d.counterDone x.tid pa = true → exec (.packetIssue iod n) s = .next (completes { t with dev := d })) ∧
          (d.counterDone x.tid pa = false → exec (.packetIssue iod n) s = .next (onHost (fun h => { h with packets := h.packets.map fun y =>
            if y.iod = iod ∧ y.qid = x.qid ∧ y.index = x.rdx then { y with wait := some pa } else y }) { t with dev := d }))) ∧
        (num bs 2 1 = 4 → exec (.packetIssue iod n) s = .next (completes (slotReleases iod x.tid p.arg (num bs 24 4) t))))) ∧
    (∀ tid va amt, (∀ p d, Dev.translate s.mem s.dev { port := none, block := none, die := 0 } tid va .store = (.ok p, d) →
        let r : CntReq := { source := .nobody, requester := 10496 + iod, tenant := tid, va := va, pa := p.pa, order := .rel, scope := .system }
        (d.unapplied d.replNo = false → slotReleases iod tid va amt s = later 0 (.seCntDec r (BitVec.ofNat 32 amt)) { s with dev := d }) ∧
        (d.unapplied d.replNo = true → slotReleases iod tid va amt s = withJobs [.count r (BitVec.ofNat 32 amt) d.replNo] { s with dev := d })) ∧
      (∀ f d, Dev.translate s.mem s.dev { port := none, block := none, die := 0 } tid va .store = (.error f, d) → slotReleases iod tid va amt s = { s with dev := d })) ∧
    (∀ ix p, s.dev.packetAt iod qid ix = some p → let t := idleNoted iod qid (packetGone iod qid ix s)
      (p.signal = none → exec (.packetComplete iod qid ix) s = .next t) ∧
      (∀ va, p.signal = some va → exec (.packetComplete iod qid ix) s = .next (slotReleases iod p.tid va 1 t))) ∧
    (∀ ix p, s.dev.packetAt iod qid ix = some p → exec (.placerBusyRetry iod qid ix) s = .next (slotAsks p s)) ∧
    (∀ p r d, Dev.submit s.mem s.dev (.packet p.iod p.qid p.index) p.tid (10496 + p.iod) p.arg = (r, d) →
      (r = 0 → s.submitPacket p = { s with dev := d }) ∧ (r = 2 → s.submitPacket p = later 1500 (.placerBusyRetry p.iod p.qid p.index) { s with dev := d }) ∧
      (r = 1 → ∀ q, d.host.queues.find (1024 * p.iod + p.qid) = some q →
        s.submitPacket p = packetGone p.iod p.qid p.index (queueStopped p.iod p.qid p.index 3 0 p.addr q { s with dev := d }))) ∧
    (let asleep := onHost fun h => { h with wake := h.wake.set false iod false }
      let counted := onHost fun h => { h with qageAt := h.qageAt.put iod (s.dev.now + s.dev.qage), queues := h.queues.map fun e =>
        (e.1, if e.1 / 1024 = iod then (if e.2.slot.isSome then { e.2 with kept := e.2.kept + 1 } else if e.2.pend then { e.2 with waited := e.2.waited + 1 } else e.2)
          else e.2) }
      ∀ boundary, let u := asleep (if boundary then counted s else s)
        exec (.firmwareQueueSchedule iod boundary) s = .next ((Dev.pendingQueues u.mem u.dev iod).foldl (State.placeQueue iod) u))

/-! ## Encodings (R79 to R108), reset values, and the step -/

/-- R99 to R103, R107: every instruction of a control thread has one word, and the decoder reads the instruction back from it, with every
operand at every value; the same from its four bytes, least significant first (R7), which leave the bytes after them. -/
def Obligations.DecodeEncode : Prop :=
  ∀ (i : Instr) (w : Word32) (rest : List Byte), encode i = some w → WellFormed i = true →
    decodeWord w = .ok i ∧ decode (leBytes 4 w.toNat ++ rest) = .ok (i, rest)

/-- R104, R107, R108: a word that the decoder reads as an instruction is that instruction's only word, and the instruction is well-formed;
so every word that encodes no well-formed instruction is refused. The same for bytes. -/
def Obligations.EncodeDecode : Prop :=
  (∀ (w : Word32) (i : Instr), decodeWord w = .ok i → encode i = some w ∧ WellFormed i = true) ∧
  ∀ (bs rest : List Byte) (i : Instr), decode bs = .ok (i, rest) →
    ∃ w, encode i = some w ∧ WellFormed i = true ∧ bs = leBytes 4 w.toNat ++ rest

/-- R99 to R104, R107, R124, R126, R129, R130, R132, R142, R150, R160, R170, R342, R362, R446: words written out field by field decode to
what they stand for, and words outside the encodings are refused. -/
def Obligations.DecodeWords : Prop :=
  decodeWord (0b00000001#8 ++ 0b00#2 ++ 0b0000#4 ++ 0b001000010#9 ++ 0b101000111#9 : BitVec 32) = .ok (.add .always 0x042 0x147) ∧
  decodeWord (0b00011000#8 ++ 0b10#2 ++ 0b0110#4 ++ 0b000000000#9 ++ 0b100111111#9 : BitVec 32) = .ok (.cmp .onTrue .ltu 0 0x13F) ∧
  decodeWord (0b00110000#8 ++ 0b11#2 ++ 0b1111111111111#13 ++ 0b010000001#9 : BitVec 32) = .ok (.addi .onFalse 0x1FFF 0x081) ∧
  decodeWord (0b01000101#8 ++ 0b00#2 ++ 0b0000000001000#13 ++ 0b001000011#9 : BitVec 32) = .ok (.ldS32 .always 8 0x043) ∧
  decodeWord (0b01010000#8 ++ 0b00#2 ++ 0b11#2 ++ 0b11111111111111111000#20 : BitVec 32) = .ok (.st .always .b8 0xFFFF8) ∧
  decodeWord (0b01100000#8 ++ 0b00#2 ++ 0b1000000000000000000001#22 : BitVec 32) = .ok (.br .always 0x200001) ∧
  decodeWord (0b01110000#8 ++ 0b100001#6 ++ 0b000000000#9 ++ 0b001000001#9 : BitVec 32) = .ok (.get 33 0 0x041) ∧
  decodeWord (0b01110001#8 ++ 0b000010#6 ++ 0b000000000#9 ++ 0b001000011#9 : BitVec 32) = .ok (.lit .two 0 0x043) ∧
  decodeWord (0b10000001#8 ++ 0b10#2 ++ 0b0000000000000#13 ++ 0b101#3 ++ 0b001#3 ++ 0b110#3 : BitVec 32) = .ok (.strmPushStop .onTrue 5 6) ∧
  decodeWord (0b10100100#8 ++ 0b00#2 ++ 0b0000000000000000#16 ++ 0b11#2 ++ 0b1000#4 : BitVec 32) = .ok (.grpBar .always .ar .device) ∧
  decodeWord (0b10110000#8 ++ 0b00#2 ++ 0b0000#4 ++ 0b000000000#9 ++ 0b101000000#9 : BitVec 32) = .ok (.cpOpen .always 0x140) ∧
  decodeWord (0b11000101#8 ++ 0b00#2 ++ 0b0110#4 ++ 0b101000001#9 ++ 0b101000010#9 : BitVec 32) = .ok (.cas .acq .always .tenant 0x141 0x142) ∧
  decodeWord (0b11010000#8 ++ 0b00#2 ++ 0b0001#4 ++ 0b000000000#9 ++ 0b101000011#9 : BitVec 32) = .ok (.taskPut .always true 0x143) ∧
  decodeWord (0b11100000#8 ++ 0b00#2 ++ 0b0000#4 ++ 0b000000000#9 ++ 0b101000100#9 : BitVec 32) = .ok (.plReq .always 0x144) ∧
  decodeWord (0b11110010#8 ++ 0b00#2 ++ 0b0#1 ++ 0b000000000101#12 ++ 0b001000001#9 : BitVec 32) = .ok (.sysrd .always .lcyc 0x041) ∧
  decodeWord (0b11110000#8 ++ 0b00#2 ++ 0b000000#6 ++ 0b1010101111001101#16 : BitVec 32) = .ok (.trap .always 0xABCD) ∧
  decodeWord (0b00000000#8 ++ 0#24 : BitVec 32) = .error .unassigned ∧
  decodeWord (0b00000001#8 ++ 0b01#2 ++ 0#22 : BitVec 32) = .error .reservedPredicate ∧
  decodeWord (0b00000001#8 ++ 0b00#2 ++ 0b0001#4 ++ 0#18 : BitVec 32) = .error .reservedField ∧
  decodeWord (0b00011000#8 ++ 0b00#2 ++ 0b1010#4 ++ 0#18 : BitVec 32) = .error .undefinedModifier ∧
  decodeWord (0b01110001#8 ++ 0b000011#6 ++ 0#18 : BitVec 32) = .error .badLitCount ∧
  decodeWord (0b11110011#8 ++ 0b00#2 ++ 0b0000000000#10 ++ 0b000000000000#12 : BitVec 32) = .error .undefinedModifier

/-- R53, R56, R60, R63, R204, R341, R373, R374, R376, R384, R391, R445, R450, R457, R460, R468, R471, R472, R473, R474, R478, R480, R482, R484,
R487, R490: what the registers of the package read at reset; no cast stands on the device, nothing is on its way, and memory, of which the
spec gives no contents, is in canonical form (its contents are the model's choice, log entry 4, and nothing is said of them here). -/
def Obligations.ResetValues : Prop :=
  let d := State.reset.dev
  let reads := fun (r : DevReg) (v : Word) => d.readReg r = v
  Safety.MemOk State.reset ∧ d.casts = [] ∧ d.agenda = [] ∧ d.now = 0 ∧
  (∀ die i, reads (.ttew0 die i) (if i = 0 then 0x100100 else 0x100000)) ∧ (∀ die, reads (.ttew1 die 0) 0) ∧
  reads .tlbiva 0 ∧ reads .tlbicmd 0 ∧
  (∀ die g, d.omapEntry die g = if g < 16 then 0x8000 else 0) ∧ (∀ die, reads (.omapcmd die) 0) ∧ (∀ die i, i < 64 → reads (.cplim die i) 12) ∧
  (∀ die i, reads (.seqta die i) (256 + 64 * 2 ^ 16 + 16 * 2 ^ 30 + 64 * 2 ^ 42)) ∧ (∀ die i, reads (.seqtb die i) 0) ∧
  (∀ die i, reads (.seuse die i) 0) ∧ (∀ die, reads (.seovf die) 0 ∧ reads (.seovfn die) 0 ∧ reads (.sepurge die) 0) ∧
  reads .plsub 0 ∧ reads .plstat 0 ∧ reads .movelim 150000 ∧ (∀ i, reads (.plcwin i) 0) ∧
  reads .schcfg (64 + 10000 * 2 ^ 16 + 2000 * 2 ^ 40) ∧ (∀ i, reads (.schq i) (64 + 64 * 2 ^ 16 + 256 * 2 ^ 32)) ∧
  (∀ i, reads (.spoola i) 0 ∧ reads (.spoolb i) 0 ∧ reads (.eallow i) 0xFFFFFFFF ∧ reads (.ebal i) 0 ∧ reads (.fqdesc i) 0) ∧
  (∀ port f, reads (.fncfg port f) (if f = 0 then 0x100 else 0)) ∧ reads .hostsel 0 ∧
  (∀ iod st, reads (.ecs0 iod st) 0 ∧ reads (.ecs1 iod st) 0 ∧ reads (.ecs2 iod st) 0 ∧ reads (.ecs3 iod st) 0 ∧ reads (.ecs4 iod st) 0) ∧
  (∀ iod, reads (.qcba iod) 0 ∧ reads (.qslotcmd iod) 0) ∧ reads .qschcfg (32 + 1000 * 2 ^ 8 + 2 * 2 ^ 24) ∧
  (∀ i, reads (.featacc i) 0) ∧ reads .featlock 0 ∧ reads .ualid 0 ∧ (∀ p, reads (.uaroute p) 0) ∧
  reads .seamdn 0 ∧ reads .bootstat 0 ∧ reads .diepres 0 ∧ (∀ die, reads (.blkpres die) 0) ∧ reads .keycmd 0 ∧
  reads .pwrlim 2400 ∧ reads .govst 256 ∧ (∀ b, reads (.ecnt b) 0) ∧ (∀ die, reads (.dieidle die) 0) ∧
  ∀ X Y, d.wall X Y = 0xF

/-- Every step keeps memory in its canonical form: addresses strictly rising, and no byte listed that equals what an unlisted address
reads as.
Where the spec leaves a point open this is the model's choice: log entry 4. -/
def Obligations.StepKeepsMemOk : Prop :=
  ∀ (s t : State), Safety.MemOk s → step s = .next t → Safety.MemOk t

/-- R85, R86, R98: a step runs the decoded instruction. Where nothing has fallen due, no walk begins and no earlier turn or cast can act, and
the thread of a cast runs a block of which slot `n` fires next, the step is the meaning of the instruction that the slot's word decodes to,
with the slot at the cursor and the turn used up; a step then does to memory what the meaning left to be done. Where the meaning walked
tables before a walker has, the step is put off until its walk ends (R55). (That threads go in the order of their casts within a turn, and
the turns before the rest of the clock, is the model's: log entries 10, 105 and 118.)
R79, R98: the words of a fetched block are those that its header and the words after it hold in memory, patched as the image says, and each
that is no literal decodes. R7: a word of code is what the decoder reads in its four bytes.
Where the spec leaves a point open this is the model's choice: log entries 10, 105 and 118. -/
def Obligations.StepRunsSlot : Prop :=
  (∀ (s : State) (turns after : List (Nat × Nat)) (x : Nat × Nat) (pre rest : Tbl Cast) (c n : Nat) (k : Cast) (b : Block) (i : Instr),
    firstDue s.dev.actsWhenDue s.dev.now s.dev.agenda = none → s.nextWalk = none → firstAct s.nextOfFirmware [0, 1] = none →
    s.dev.inTurn [3, 2] = turns ++ x :: after → (∀ y ∈ turns, s.nextOfTurn y = none) →
    ((s.dev.casts.filter fun e => e.2.tenant == x.2).filter fun e => e.2.demand == x.1) = pre ++ (c, k) :: rest →
    (∀ e ∈ pre, s.nextOfThread e.1 e.2 = none ∧ s.nextStore e.1 e.2 = none) →
    k.frozen = false → k.canAppend = false → k.canDrain s.dev c = false → k.canSwitch s.dev c = false →
    k.th.mode = .running → k.th.blk = some b → b.begun = true → s.dev.slotNext s.mem c k b = some (n, i) →
    s.dev.isStalled i (some (c, n)) = false →
    let t := { s with dev := { s.dev with cursor := some (c, n), turns := s.dev.turns.set 256 x.1 x.2 } }
    (∀ u, exec i t = .next u → t.dev.earlyWalk u.dev i (some (c, n)) = none → step s = .next u.flushJobs.forgetWalks) ∧
    (∀ u w, exec i t = .next u → t.dev.earlyWalk u.dev i (some (c, n)) = some w →
      step s = .next (State.flushJobs { s with dev := s.dev.stall i (some (c, n)) w }).forgetWalks) ∧
    (∀ f, exec i t = .fault f → step s = .fault f) ∧ (∀ r, exec i t = .refused r → step s = .refused r) ∧
    ∃ sl, b.slots[n]? = some sl ∧ sl.phase = .idle ∧ sl.lit = false ∧ decodeWord sl.word = .ok i ∧ WellFormed i = true) ∧
  (∀ (m : Memory) (d e : Dev) (k : Cast) (h : Word32) (sl : List Slot), Dev.fetchBlock m d k = (.ok (h, sl), e) →
    k.th.pc.toNat % 4 = 0 ∧ sl.length = headerSlots h ∧
    (∃ f ws, Dev.fetchWord m d k k.th.pc = (.ok h, f) ∧ Dev.fetchWords m k (headerSlots h) (k.th.pc + 4) f = (.ok ws, e) ∧
      sl.map Slot.word = patched k h (k.codeWordNo k.th.pc + 1) ws) ∧
    ∀ x ∈ sl, x.lit = false → ∃ i, decodeWord x.word = .ok i) ∧
  ∀ (m : Memory) (d e : Dev) (k : Cast) (va : Word) (w : Word32), Dev.fetchWord m d k va = (.ok w, e) →
    ∃ pa f, Dev.fetchPlace m d k va = (.ok pa, f) ∧
      ∀ rest, decode ((Dev.read m f 0 pa 4).1 ++ rest) = (decodeWord w).map fun i => (i, rest)
end

