-- ==== Sys2Proof/Laws/Decode.lean ====
section
/-!
SUPPORT. Laws of the encodings: what each field of an encoded word is, that the fields make up the word again, and that every code
stands for one value.
-/
namespace Sys2Proof

/-! ### Codes -/

@[simp] theorem Pred.ofCode_code (p : Pred) : Pred.ofCode p.code = some p := by cases p <;> rfl
@[simp] theorem Scope.ofCode_code (s : Scope) : Scope.ofCode s.code = some s := by cases s <;> rfl
@[simp] theorem MemOrder.ofCode_code (m : MemOrder) : MemOrder.ofCode m.code = m := by cases m <;> rfl
@[simp] theorem Cond.ofCode_code (c : Cond) : Cond.ofCode c.code = some c := by cases c <;> rfl
@[simp] theorem ExtKind.ofCode_code (e : ExtKind) : ExtKind.ofCode e.code = some e := by cases e <;> rfl
@[simp] theorem LoadKind.ofCode_code (l : LoadKind) : LoadKind.ofCode l.code = some l := by cases l <;> rfl
@[simp] theorem Size.ofCode_code (s : Size) : Size.ofCode s.code = s := by cases s <;> rfl
@[simp] theorem Resume.ofCode_code (r : Resume) : Resume.ofCode r.code = some r := by cases r <;> rfl
@[simp] theorem StatForm.ofCode_code (s : StatForm) : StatForm.ofCode s.code = some s := by cases s <;> rfl
@[simp] theorem AtomOp.ofCode_code (a : AtomOp) : AtomOp.ofCode a.code = some a := by cases a <;> rfl
@[simp] theorem LitCount.ofCode_code (l : LitCount) : LitCount.ofCode l.code = some l := by cases l <;> rfl
@[simp] theorem SysReg.ofCode_code (s : SysReg) : SysReg.ofCode s.code = some s := by cases s <;> rfl

/-! ### The fields of an encoded word -/

section
variable (op : BitVec 8) (p : Pred) (x : BitVec 4) (b a : Target) (i : BitVec 13) (j : BitVec 22) (r : BitVec 6)

@[simp] theorem opOf_encT2 : opOf (encT2 op p x b a) = op := by
  apply BitVec.eq_of_getLsbD_eq
  intro k hk
  simp only [opOf, encT2, BitVec.getLsbD_extractLsb', BitVec.getLsbD_append, hk, decide_true, Bool.true_and]
  repeat first | rw [if_pos (by omega)] | rw [if_neg (by omega)]
  congr 1; omega

@[simp] theorem prOf_encT2 : prOf (encT2 op p x b a) = p.code := by
  apply BitVec.eq_of_getLsbD_eq
  intro k hk
  simp only [prOf, encT2, BitVec.getLsbD_extractLsb', BitVec.getLsbD_append, hk, decide_true, Bool.true_and]
  repeat first | rw [if_pos (by omega)] | rw [if_neg (by omega)]
  congr 1; omega

@[simp] theorem x4Of_encT2 : x4Of (encT2 op p x b a) = x := by
  apply BitVec.eq_of_getLsbD_eq
  intro k hk
  simp only [x4Of, encT2, BitVec.getLsbD_extractLsb', BitVec.getLsbD_append, hk, decide_true, Bool.true_and]
  repeat first | rw [if_pos (by omega)] | rw [if_neg (by omega)]
  congr 1; omega

@[simp] theorem tgtBOf_encT2 : tgtBOf (encT2 op p x b a) = b := by
  apply BitVec.eq_of_getLsbD_eq
  intro k hk
  simp only [tgtBOf, encT2, BitVec.getLsbD_extractLsb', BitVec.getLsbD_append, hk, decide_true, Bool.true_and]
  repeat first | rw [if_pos (by omega)] | rw [if_neg (by omega)]
  congr 1; omega

@[simp] theorem tgtAOf_encT2 : tgtAOf (encT2 op p x b a) = a := by
  apply BitVec.eq_of_getLsbD_eq
  intro k hk
  simp only [tgtAOf, encT2, BitVec.getLsbD_extractLsb', BitVec.getLsbD_append, hk, decide_true, Bool.true_and]
  repeat first | rw [if_pos (by omega)] | rw [if_neg (by omega)]
  congr 1; omega

@[simp] theorem opOf_encT1I : opOf (encT1I op p i a) = op := by
  apply BitVec.eq_of_getLsbD_eq
  intro k hk
  simp only [opOf, encT1I, BitVec.getLsbD_extractLsb', BitVec.getLsbD_append, hk, decide_true, Bool.true_and]
  repeat first | rw [if_pos (by omega)] | rw [if_neg (by omega)]
  congr 1; omega

@[simp] theorem prOf_encT1I : prOf (encT1I op p i a) = p.code := by
  apply BitVec.eq_of_getLsbD_eq
  intro k hk
  simp only [prOf, encT1I, BitVec.getLsbD_extractLsb', BitVec.getLsbD_append, hk, decide_true, Bool.true_and]
  repeat first | rw [if_pos (by omega)] | rw [if_neg (by omega)]
  congr 1; omega

@[simp] theorem imm13Of_encT1I : imm13Of (encT1I op p i a) = i := by
  apply BitVec.eq_of_getLsbD_eq
  intro k hk
  simp only [imm13Of, encT1I, BitVec.getLsbD_extractLsb', BitVec.getLsbD_append, hk, decide_true, Bool.true_and]
  repeat first | rw [if_pos (by omega)] | rw [if_neg (by omega)]
  congr 1; omega

@[simp] theorem tgtAOf_encT1I : tgtAOf (encT1I op p i a) = a := by
  apply BitVec.eq_of_getLsbD_eq
  intro k hk
  simp only [tgtAOf, encT1I, BitVec.getLsbD_extractLsb', BitVec.getLsbD_append, hk, decide_true, Bool.true_and]
  repeat first | rw [if_pos (by omega)] | rw [if_neg (by omega)]
  congr 1; omega

@[simp] theorem opOf_encS : opOf (encS op p j) = op := by
  apply BitVec.eq_of_getLsbD_eq
  intro k hk
  simp only [opOf, encS, BitVec.getLsbD_extractLsb', BitVec.getLsbD_append, hk, decide_true, Bool.true_and]
  repeat first | rw [if_pos (by omega)] | rw [if_neg (by omega)]
  congr 1; omega

@[simp] theorem prOf_encS : prOf (encS op p j) = p.code := by
  apply BitVec.eq_of_getLsbD_eq
  intro k hk
  simp only [prOf, encS, BitVec.getLsbD_extractLsb', BitVec.getLsbD_append, hk, decide_true, Bool.true_and]
  repeat first | rw [if_pos (by omega)] | rw [if_neg (by omega)]
  congr 1; omega

@[simp] theorem imm22Of_encS : imm22Of (encS op p j) = j := by
  apply BitVec.eq_of_getLsbD_eq
  intro k hk
  simp only [imm22Of, encS, BitVec.getLsbD_extractLsb', BitVec.getLsbD_append, hk, decide_true, Bool.true_and]
  repeat first | rw [if_pos (by omega)] | rw [if_neg (by omega)]
  congr 1; omega

@[simp] theorem opOf_encG : opOf (encG op r b a) = op := by
  apply BitVec.eq_of_getLsbD_eq
  intro k hk
  simp only [opOf, encG, BitVec.getLsbD_extractLsb', BitVec.getLsbD_append, hk, decide_true, Bool.true_and]
  repeat first | rw [if_pos (by omega)] | rw [if_neg (by omega)]
  congr 1; omega

@[simp] theorem regOf_encG : regOf (encG op r b a) = r := by
  apply BitVec.eq_of_getLsbD_eq
  intro k hk
  simp only [regOf, encG, BitVec.getLsbD_extractLsb', BitVec.getLsbD_append, hk, decide_true, Bool.true_and]
  repeat first | rw [if_pos (by omega)] | rw [if_neg (by omega)]
  congr 1; omega

@[simp] theorem tgtBOf_encG : tgtBOf (encG op r b a) = b := by
  apply BitVec.eq_of_getLsbD_eq
  intro k hk
  simp only [tgtBOf, encG, BitVec.getLsbD_extractLsb', BitVec.getLsbD_append, hk, decide_true, Bool.true_and]
  repeat first | rw [if_pos (by omega)] | rw [if_neg (by omega)]
  congr 1; omega

@[simp] theorem tgtAOf_encG : tgtAOf (encG op r b a) = a := by
  apply BitVec.eq_of_getLsbD_eq
  intro k hk
  simp only [tgtAOf, encG, BitVec.getLsbD_extractLsb', BitVec.getLsbD_append, hk, decide_true, Bool.true_and]
  repeat first | rw [if_pos (by omega)] | rw [if_neg (by omega)]
  congr 1; omega

end

/-! ### Fields within a field -/

@[simp] theorem shiftFields_6 (u : BitVec 7) (v : BitVec 6) : (u ++ v : BitVec 13).extractLsb' 6 7 = u := by
  apply BitVec.eq_of_getLsbD_eq
  intro k hk
  simp only [BitVec.getLsbD_extractLsb', BitVec.getLsbD_append, hk, decide_true, Bool.true_and]
  repeat first | rw [if_pos (by omega)] | rw [if_neg (by omega)]
  congr 1; omega

@[simp] theorem shiftFields_0 (u : BitVec 7) (v : BitVec 6) : (u ++ v : BitVec 13).extractLsb' 0 6 = v := by
  apply BitVec.eq_of_getLsbD_eq
  intro k hk
  simp only [BitVec.getLsbD_extractLsb', BitVec.getLsbD_append, hk, decide_true, Bool.true_and]
  repeat first | rw [if_pos (by omega)] | rw [if_neg (by omega)]
  congr 1; omega

@[simp] theorem sizedFields_20 (u : BitVec 2) (v : BitVec 20) : (u ++ v : BitVec 22).extractLsb' 20 2 = u := by
  apply BitVec.eq_of_getLsbD_eq
  intro k hk
  simp only [BitVec.getLsbD_extractLsb', BitVec.getLsbD_append, hk, decide_true, Bool.true_and]
  repeat first | rw [if_pos (by omega)] | rw [if_neg (by omega)]
  congr 1; omega

@[simp] theorem sizedFields_0 (u : BitVec 2) (v : BitVec 20) : (u ++ v : BitVec 22).extractLsb' 0 20 = v := by
  apply BitVec.eq_of_getLsbD_eq
  intro k hk
  simp only [BitVec.getLsbD_extractLsb', BitVec.getLsbD_append, hk, decide_true, Bool.true_and]
  repeat first | rw [if_pos (by omega)] | rw [if_neg (by omega)]
  congr 1; omega

@[simp] theorem scopedFields_20 (u : BitVec 2) (v : BitVec 4) (w : BitVec 16) : (u ++ v ++ w : BitVec 22).extractLsb' 20 2 = u := by
  apply BitVec.eq_of_getLsbD_eq
  intro k hk
  simp only [BitVec.getLsbD_extractLsb', BitVec.getLsbD_append, hk, decide_true, Bool.true_and]
  repeat first | rw [if_pos (by omega)] | rw [if_neg (by omega)]
  congr 1; omega

@[simp] theorem scopedFields_16 (u : BitVec 2) (v : BitVec 4) (w : BitVec 16) : (u ++ v ++ w : BitVec 22).extractLsb' 16 4 = v := by
  apply BitVec.eq_of_getLsbD_eq
  intro k hk
  simp only [BitVec.getLsbD_extractLsb', BitVec.getLsbD_append, hk, decide_true, Bool.true_and]
  repeat first | rw [if_pos (by omega)] | rw [if_neg (by omega)]
  congr 1; omega

@[simp] theorem scopedFields_0 (u : BitVec 2) (v : BitVec 4) (w : BitVec 16) : (u ++ v ++ w : BitVec 22).extractLsb' 0 16 = w := by
  apply BitVec.eq_of_getLsbD_eq
  intro k hk
  simp only [BitVec.getLsbD_extractLsb', BitVec.getLsbD_append, hk, decide_true, Bool.true_and]
  repeat first | rw [if_pos (by omega)] | rw [if_neg (by omega)]
  congr 1; omega

@[simp] theorem pushFields_6 (u : BitVec 16) (v : BitVec 3) (w : BitVec 3) : (u ++ v ++ w : BitVec 22).extractLsb' 6 16 = u := by
  apply BitVec.eq_of_getLsbD_eq
  intro k hk
  simp only [BitVec.getLsbD_extractLsb', BitVec.getLsbD_append, hk, decide_true, Bool.true_and]
  repeat first | rw [if_pos (by omega)] | rw [if_neg (by omega)]
  congr 1; omega

@[simp] theorem pushFields_3 (u : BitVec 16) (v : BitVec 3) (w : BitVec 3) : (u ++ v ++ w : BitVec 22).extractLsb' 3 3 = v := by
  apply BitVec.eq_of_getLsbD_eq
  intro k hk
  simp only [BitVec.getLsbD_extractLsb', BitVec.getLsbD_append, hk, decide_true, Bool.true_and]
  repeat first | rw [if_pos (by omega)] | rw [if_neg (by omega)]
  congr 1; omega

@[simp] theorem pushFields_0 (u : BitVec 16) (v : BitVec 3) (w : BitVec 3) : (u ++ v ++ w : BitVec 22).extractLsb' 0 3 = w := by
  apply BitVec.eq_of_getLsbD_eq
  intro k hk
  simp only [BitVec.getLsbD_extractLsb', BitVec.getLsbD_append, hk, decide_true, Bool.true_and]
  repeat first | rw [if_pos (by omega)] | rw [if_neg (by omega)]
  congr 1; omega

@[simp] theorem stopFields_9 (u : BitVec 13) (v : BitVec 3) (w : BitVec 3) (x : BitVec 3) : (u ++ v ++ w ++ x : BitVec 22).extractLsb' 9 13 = u := by
  apply BitVec.eq_of_getLsbD_eq
  intro k hk
  simp only [BitVec.getLsbD_extractLsb', BitVec.getLsbD_append, hk, decide_true, Bool.true_and]
  repeat first | rw [if_pos (by omega)] | rw [if_neg (by omega)]
  congr 1; omega

@[simp] theorem stopFields_6 (u : BitVec 13) (v : BitVec 3) (w : BitVec 3) (x : BitVec 3) : (u ++ v ++ w ++ x : BitVec 22).extractLsb' 6 3 = v := by
  apply BitVec.eq_of_getLsbD_eq
  intro k hk
  simp only [BitVec.getLsbD_extractLsb', BitVec.getLsbD_append, hk, decide_true, Bool.true_and]
  repeat first | rw [if_pos (by omega)] | rw [if_neg (by omega)]
  congr 1; omega

@[simp] theorem stopFields_3 (u : BitVec 13) (v : BitVec 3) (w : BitVec 3) (x : BitVec 3) : (u ++ v ++ w ++ x : BitVec 22).extractLsb' 3 3 = w := by
  apply BitVec.eq_of_getLsbD_eq
  intro k hk
  simp only [BitVec.getLsbD_extractLsb', BitVec.getLsbD_append, hk, decide_true, Bool.true_and]
  repeat first | rw [if_pos (by omega)] | rw [if_neg (by omega)]
  congr 1; omega

@[simp] theorem stopFields_0 (u : BitVec 13) (v : BitVec 3) (w : BitVec 3) (x : BitVec 3) : (u ++ v ++ w ++ x : BitVec 22).extractLsb' 0 3 = x := by
  apply BitVec.eq_of_getLsbD_eq
  intro k hk
  simp only [BitVec.getLsbD_extractLsb', BitVec.getLsbD_append, hk, decide_true, Bool.true_and]
  repeat first | rw [if_pos (by omega)] | rw [if_neg (by omega)]
  congr 1; omega

@[simp] theorem popFields_3 (u : BitVec 1) (v : BitVec 3) : (u ++ v : BitVec 4).extractLsb' 3 1 = u := by
  apply BitVec.eq_of_getLsbD_eq
  intro k hk
  simp only [BitVec.getLsbD_extractLsb', BitVec.getLsbD_append, hk, decide_true, Bool.true_and]
  repeat first | rw [if_pos (by omega)] | rw [if_neg (by omega)]
  congr 1; omega

@[simp] theorem popFields_0 (u : BitVec 1) (v : BitVec 3) : (u ++ v : BitVec 4).extractLsb' 0 3 = v := by
  apply BitVec.eq_of_getLsbD_eq
  intro k hk
  simp only [BitVec.getLsbD_extractLsb', BitVec.getLsbD_append, hk, decide_true, Bool.true_and]
  repeat first | rw [if_pos (by omega)] | rw [if_neg (by omega)]
  congr 1; omega

@[simp] theorem argFields_17 (u : BitVec 5) (v : BitVec 2) (w : BitVec 7) (x : BitVec 8) : (u ++ v ++ w ++ x : BitVec 22).extractLsb' 17 5 = u := by
  apply BitVec.eq_of_getLsbD_eq
  intro k hk
  simp only [BitVec.getLsbD_extractLsb', BitVec.getLsbD_append, hk, decide_true, Bool.true_and]
  repeat first | rw [if_pos (by omega)] | rw [if_neg (by omega)]
  congr 1; omega

@[simp] theorem argFields_15 (u : BitVec 5) (v : BitVec 2) (w : BitVec 7) (x : BitVec 8) : (u ++ v ++ w ++ x : BitVec 22).extractLsb' 15 2 = v := by
  apply BitVec.eq_of_getLsbD_eq
  intro k hk
  simp only [BitVec.getLsbD_extractLsb', BitVec.getLsbD_append, hk, decide_true, Bool.true_and]
  repeat first | rw [if_pos (by omega)] | rw [if_neg (by omega)]
  congr 1; omega

@[simp] theorem argFields_8 (u : BitVec 5) (v : BitVec 2) (w : BitVec 7) (x : BitVec 8) : (u ++ v ++ w ++ x : BitVec 22).extractLsb' 8 7 = w := by
  apply BitVec.eq_of_getLsbD_eq
  intro k hk
  simp only [BitVec.getLsbD_extractLsb', BitVec.getLsbD_append, hk, decide_true, Bool.true_and]
  repeat first | rw [if_pos (by omega)] | rw [if_neg (by omega)]
  congr 1; omega

@[simp] theorem argFields_0 (u : BitVec 5) (v : BitVec 2) (w : BitVec 7) (x : BitVec 8) : (u ++ v ++ w ++ x : BitVec 22).extractLsb' 0 8 = x := by
  apply BitVec.eq_of_getLsbD_eq
  intro k hk
  simp only [BitVec.getLsbD_extractLsb', BitVec.getLsbD_append, hk, decide_true, Bool.true_and]
  repeat first | rw [if_pos (by omega)] | rw [if_neg (by omega)]
  congr 1; omega

@[simp] theorem twoFields_2 (u : BitVec 20) (v : BitVec 2) : (u ++ v : BitVec 22).extractLsb' 2 20 = u := by
  apply BitVec.eq_of_getLsbD_eq
  intro k hk
  simp only [BitVec.getLsbD_extractLsb', BitVec.getLsbD_append, hk, decide_true, Bool.true_and]
  repeat first | rw [if_pos (by omega)] | rw [if_neg (by omega)]
  congr 1; omega

@[simp] theorem twoFields_0 (u : BitVec 20) (v : BitVec 2) : (u ++ v : BitVec 22).extractLsb' 0 2 = v := by
  apply BitVec.eq_of_getLsbD_eq
  intro k hk
  simp only [BitVec.getLsbD_extractLsb', BitVec.getLsbD_append, hk, decide_true, Bool.true_and]
  repeat first | rw [if_pos (by omega)] | rw [if_neg (by omega)]
  congr 1; omega

@[simp] theorem ordFields_6 (u : BitVec 16) (v : BitVec 2) (w : BitVec 4) : (u ++ v ++ w : BitVec 22).extractLsb' 6 16 = u := by
  apply BitVec.eq_of_getLsbD_eq
  intro k hk
  simp only [BitVec.getLsbD_extractLsb', BitVec.getLsbD_append, hk, decide_true, Bool.true_and]
  repeat first | rw [if_pos (by omega)] | rw [if_neg (by omega)]
  congr 1; omega

@[simp] theorem ordFields_4 (u : BitVec 16) (v : BitVec 2) (w : BitVec 4) : (u ++ v ++ w : BitVec 22).extractLsb' 4 2 = v := by
  apply BitVec.eq_of_getLsbD_eq
  intro k hk
  simp only [BitVec.getLsbD_extractLsb', BitVec.getLsbD_append, hk, decide_true, Bool.true_and]
  repeat first | rw [if_pos (by omega)] | rw [if_neg (by omega)]
  congr 1; omega

@[simp] theorem ordFields_0 (u : BitVec 16) (v : BitVec 2) (w : BitVec 4) : (u ++ v ++ w : BitVec 22).extractLsb' 0 4 = w := by
  apply BitVec.eq_of_getLsbD_eq
  intro k hk
  simp only [BitVec.getLsbD_extractLsb', BitVec.getLsbD_append, hk, decide_true, Bool.true_and]
  repeat first | rw [if_pos (by omega)] | rw [if_neg (by omega)]
  congr 1; omega

@[simp] theorem tokFields_9 (u : BitVec 13) (v : BitVec 1) (w : BitVec 8) : (u ++ v ++ w : BitVec 22).extractLsb' 9 13 = u := by
  apply BitVec.eq_of_getLsbD_eq
  intro k hk
  simp only [BitVec.getLsbD_extractLsb', BitVec.getLsbD_append, hk, decide_true, Bool.true_and]
  repeat first | rw [if_pos (by omega)] | rw [if_neg (by omega)]
  congr 1; omega

@[simp] theorem tokFields_8 (u : BitVec 13) (v : BitVec 1) (w : BitVec 8) : (u ++ v ++ w : BitVec 22).extractLsb' 8 1 = v := by
  apply BitVec.eq_of_getLsbD_eq
  intro k hk
  simp only [BitVec.getLsbD_extractLsb', BitVec.getLsbD_append, hk, decide_true, Bool.true_and]
  repeat first | rw [if_pos (by omega)] | rw [if_neg (by omega)]
  congr 1; omega

@[simp] theorem tokFields_0 (u : BitVec 13) (v : BitVec 1) (w : BitVec 8) : (u ++ v ++ w : BitVec 22).extractLsb' 0 8 = w := by
  apply BitVec.eq_of_getLsbD_eq
  intro k hk
  simp only [BitVec.getLsbD_extractLsb', BitVec.getLsbD_append, hk, decide_true, Bool.true_and]
  repeat first | rw [if_pos (by omega)] | rw [if_neg (by omega)]
  congr 1; omega

@[simp] theorem redFields_12 (u : BitVec 10) (v : BitVec 2) (w : BitVec 4) (x : BitVec 2) (y : BitVec 4) : (u ++ v ++ w ++ x ++ y : BitVec 22).extractLsb' 12 10 = u := by
  apply BitVec.eq_of_getLsbD_eq
  intro k hk
  simp only [BitVec.getLsbD_extractLsb', BitVec.getLsbD_append, hk, decide_true, Bool.true_and]
  repeat first | rw [if_pos (by omega)] | rw [if_neg (by omega)]
  congr 1; omega

@[simp] theorem redFields_10 (u : BitVec 10) (v : BitVec 2) (w : BitVec 4) (x : BitVec 2) (y : BitVec 4) : (u ++ v ++ w ++ x ++ y : BitVec 22).extractLsb' 10 2 = v := by
  apply BitVec.eq_of_getLsbD_eq
  intro k hk
  simp only [BitVec.getLsbD_extractLsb', BitVec.getLsbD_append, hk, decide_true, Bool.true_and]
  repeat first | rw [if_pos (by omega)] | rw [if_neg (by omega)]
  congr 1; omega

@[simp] theorem redFields_6 (u : BitVec 10) (v : BitVec 2) (w : BitVec 4) (x : BitVec 2) (y : BitVec 4) : (u ++ v ++ w ++ x ++ y : BitVec 22).extractLsb' 6 4 = w := by
  apply BitVec.eq_of_getLsbD_eq
  intro k hk
  simp only [BitVec.getLsbD_extractLsb', BitVec.getLsbD_append, hk, decide_true, Bool.true_and]
  repeat first | rw [if_pos (by omega)] | rw [if_neg (by omega)]
  congr 1; omega

@[simp] theorem redFields_4 (u : BitVec 10) (v : BitVec 2) (w : BitVec 4) (x : BitVec 2) (y : BitVec 4) : (u ++ v ++ w ++ x ++ y : BitVec 22).extractLsb' 4 2 = x := by
  apply BitVec.eq_of_getLsbD_eq
  intro k hk
  simp only [BitVec.getLsbD_extractLsb', BitVec.getLsbD_append, hk, decide_true, Bool.true_and]
  repeat first | rw [if_pos (by omega)] | rw [if_neg (by omega)]
  congr 1; omega

@[simp] theorem redFields_0 (u : BitVec 10) (v : BitVec 2) (w : BitVec 4) (x : BitVec 2) (y : BitVec 4) : (u ++ v ++ w ++ x ++ y : BitVec 22).extractLsb' 0 4 = y := by
  apply BitVec.eq_of_getLsbD_eq
  intro k hk
  simp only [BitVec.getLsbD_extractLsb', BitVec.getLsbD_append, hk, decide_true, Bool.true_and]
  repeat first | rw [if_pos (by omega)] | rw [if_neg (by omega)]
  congr 1; omega

@[simp] theorem lastFields_1 (u : BitVec 3) (v : BitVec 1) : (u ++ v : BitVec 4).extractLsb' 1 3 = u := by
  apply BitVec.eq_of_getLsbD_eq
  intro k hk
  simp only [BitVec.getLsbD_extractLsb', BitVec.getLsbD_append, hk, decide_true, Bool.true_and]
  repeat first | rw [if_pos (by omega)] | rw [if_neg (by omega)]
  congr 1; omega

@[simp] theorem lastFields_0 (u : BitVec 3) (v : BitVec 1) : (u ++ v : BitVec 4).extractLsb' 0 1 = v := by
  apply BitVec.eq_of_getLsbD_eq
  intro k hk
  simp only [BitVec.getLsbD_extractLsb', BitVec.getLsbD_append, hk, decide_true, Bool.true_and]
  repeat first | rw [if_pos (by omega)] | rw [if_neg (by omega)]
  congr 1; omega

@[simp] theorem codeFields_16 (u : BitVec 6) (v : BitVec 16) : (u ++ v : BitVec 22).extractLsb' 16 6 = u := by
  apply BitVec.eq_of_getLsbD_eq
  intro k hk
  simp only [BitVec.getLsbD_extractLsb', BitVec.getLsbD_append, hk, decide_true, Bool.true_and]
  repeat first | rw [if_pos (by omega)] | rw [if_neg (by omega)]
  congr 1; omega

@[simp] theorem codeFields_0 (u : BitVec 6) (v : BitVec 16) : (u ++ v : BitVec 22).extractLsb' 0 16 = v := by
  apply BitVec.eq_of_getLsbD_eq
  intro k hk
  simp only [BitVec.getLsbD_extractLsb', BitVec.getLsbD_append, hk, decide_true, Bool.true_and]
  repeat first | rw [if_pos (by omega)] | rw [if_neg (by omega)]
  congr 1; omega

@[simp] theorem reg13Fields_12 (u : BitVec 1) (v : BitVec 12) : (u ++ v : BitVec 13).extractLsb' 12 1 = u := by
  apply BitVec.eq_of_getLsbD_eq
  intro k hk
  simp only [BitVec.getLsbD_extractLsb', BitVec.getLsbD_append, hk, decide_true, Bool.true_and]
  repeat first | rw [if_pos (by omega)] | rw [if_neg (by omega)]
  congr 1; omega

@[simp] theorem reg13Fields_0 (u : BitVec 1) (v : BitVec 12) : (u ++ v : BitVec 13).extractLsb' 0 12 = v := by
  apply BitVec.eq_of_getLsbD_eq
  intro k hk
  simp only [BitVec.getLsbD_extractLsb', BitVec.getLsbD_append, hk, decide_true, Bool.true_and]
  repeat first | rw [if_pos (by omega)] | rw [if_neg (by omega)]
  congr 1; omega

@[simp] theorem reg22Fields_12 (u : BitVec 10) (v : BitVec 12) : (u ++ v : BitVec 22).extractLsb' 12 10 = u := by
  apply BitVec.eq_of_getLsbD_eq
  intro k hk
  simp only [BitVec.getLsbD_extractLsb', BitVec.getLsbD_append, hk, decide_true, Bool.true_and]
  repeat first | rw [if_pos (by omega)] | rw [if_neg (by omega)]
  congr 1; omega

@[simp] theorem reg22Fields_0 (u : BitVec 10) (v : BitVec 12) : (u ++ v : BitVec 22).extractLsb' 0 12 = v := by
  apply BitVec.eq_of_getLsbD_eq
  intro k hk
  simp only [BitVec.getLsbD_extractLsb', BitVec.getLsbD_append, hk, decide_true, Bool.true_and]
  repeat first | rw [if_pos (by omega)] | rw [if_neg (by omega)]
  congr 1; omega

@[simp] theorem two13Fields_2 (u : BitVec 11) (v : BitVec 2) : (u ++ v : BitVec 13).extractLsb' 2 11 = u := by
  apply BitVec.eq_of_getLsbD_eq
  intro k hk
  simp only [BitVec.getLsbD_extractLsb', BitVec.getLsbD_append, hk, decide_true, Bool.true_and]
  repeat first | rw [if_pos (by omega)] | rw [if_neg (by omega)]
  congr 1; omega

@[simp] theorem two13Fields_0 (u : BitVec 11) (v : BitVec 2) : (u ++ v : BitVec 13).extractLsb' 0 2 = v := by
  apply BitVec.eq_of_getLsbD_eq
  intro k hk
  simp only [BitVec.getLsbD_extractLsb', BitVec.getLsbD_append, hk, decide_true, Bool.true_and]
  repeat first | rw [if_pos (by omega)] | rw [if_neg (by omega)]
  congr 1; omega

@[simp] theorem pushFields_9_13 (u : BitVec 16) (v w : BitVec 3) : (u ++ v ++ w : BitVec 22).extractLsb' 9 13 = u.extractLsb' 3 13 := by
  apply BitVec.eq_of_getLsbD_eq
  intro k hk
  simp only [BitVec.getLsbD_extractLsb', BitVec.getLsbD_append, hk, decide_true, Bool.true_and]
  repeat first | rw [if_pos (by omega)] | rw [if_neg (by omega)]
  congr 1; omega

@[simp] theorem pushFields_6_3 (u : BitVec 16) (v w : BitVec 3) : (u ++ v ++ w : BitVec 22).extractLsb' 6 3 = u.extractLsb' 0 3 := by
  apply BitVec.eq_of_getLsbD_eq
  intro k hk
  simp only [BitVec.getLsbD_extractLsb', BitVec.getLsbD_append, hk, decide_true, Bool.true_and]
  repeat first | rw [if_pos (by omega)] | rw [if_neg (by omega)]
  congr 1; omega

@[simp] theorem chanFields_9 (u : BitVec 19) (v : BitVec 3) : (u ++ v : BitVec 22).extractLsb' 9 13 = u.extractLsb' 6 13 := by
  apply BitVec.eq_of_getLsbD_eq
  intro k hk
  simp only [BitVec.getLsbD_extractLsb', BitVec.getLsbD_append, hk, decide_true, Bool.true_and]
  repeat first | rw [if_pos (by omega)] | rw [if_neg (by omega)]
  congr 1; omega

@[simp] theorem chanFields_6 (u : BitVec 19) (v : BitVec 3) : (u ++ v : BitVec 22).extractLsb' 6 3 = u.extractLsb' 3 3 := by
  apply BitVec.eq_of_getLsbD_eq
  intro k hk
  simp only [BitVec.getLsbD_extractLsb', BitVec.getLsbD_append, hk, decide_true, Bool.true_and]
  repeat first | rw [if_pos (by omega)] | rw [if_neg (by omega)]
  congr 1; omega

@[simp] theorem chanFields_3 (u : BitVec 19) (v : BitVec 3) : (u ++ v : BitVec 22).extractLsb' 3 3 = u.extractLsb' 0 3 := by
  apply BitVec.eq_of_getLsbD_eq
  intro k hk
  simp only [BitVec.getLsbD_extractLsb', BitVec.getLsbD_append, hk, decide_true, Bool.true_and]
  repeat first | rw [if_pos (by omega)] | rw [if_neg (by omega)]
  congr 1; omega

@[simp] theorem chanFields_0 (u : BitVec 19) (v : BitVec 3) : (u ++ v : BitVec 22).extractLsb' 0 3 = v := by
  apply BitVec.eq_of_getLsbD_eq
  intro k hk
  simp only [BitVec.getLsbD_extractLsb', BitVec.getLsbD_append, hk, decide_true, Bool.true_and]
  repeat first | rw [if_pos (by omega)] | rw [if_neg (by omega)]
  congr 1; omega

/-- A bit of the low 22 of a word of format S. -/
theorem bitAt_encS (op : BitVec 8) (p : Pred) (j : BitVec 22) {k : Nat} (h : k < 22) : bitAt (encS op p j) k = j.getLsbD k := by
  simp only [bitAt, encS, BitVec.getLsbD_append, h, if_true]

/-- The lowest bit above SCOPE and ORD. -/
@[simp] theorem bitAt_ord (op : BitVec 8) (p : Pred) (u : BitVec 16) (v : BitVec 2) (w : BitVec 4) :
    bitAt (encS op p (u ++ v ++ w : BitVec 22)) 6 = u.getLsbD 0 := by
  rw [bitAt_encS _ _ _ (by omega)]
  simp only [BitVec.getLsbD_append]
  rfl

@[simp] theorem ofBool_eq_one (b : Bool) : (BitVec.ofBool b = 1#1) = (b = true) := by cases b <;> simp

end Sys2Proof
end

