-- ==== Sys2Proof/Laws/State.lean ====
section
/-!
SUPPORT. What each named update of the state leaves in each field: one lemma per field and update, so that no proof unfolds a
record update.
-/
namespace Sys2Proof.Machine

/-! ### Dev.post -/

@[simp] theorem Dev.post_now (d : Dev) (n : Nat) (i : Instr) : (d.post n i).now = d.now := rfl
@[simp] theorem Dev.post_walks (d : Dev) (n : Nat) (i : Instr) : (d.post n i).walks = d.walks := rfl
@[simp] theorem Dev.post_walked (d : Dev) (n : Nat) (i : Instr) : (d.post n i).walked = d.walked := rfl
@[simp] theorem Dev.post_stalls (d : Dev) (n : Nat) (i : Instr) : (d.post n i).stalls = d.stalls := rfl
@[simp] theorem Dev.post_seTaken (d : Dev) (n : Nat) (i : Instr) : (d.post n i).seTaken = d.seTaken := rfl
@[simp] theorem Dev.post_turns (d : Dev) (n : Nat) (i : Instr) : (d.post n i).turns = d.turns := rfl
@[simp] theorem Dev.post_uids (d : Dev) (n : Nat) (i : Instr) : (d.post n i).uids = d.uids := rfl
@[simp] theorem Dev.post_agenda (d : Dev) (n : Nat) (i : Instr) : (d.post n i).agenda = agendaInsert (d.now + n) i d.agenda := rfl
@[simp] theorem Dev.post_free (d : Dev) (n : Nat) (i : Instr) : (d.post n i).free = d.free := rfl
@[simp] theorem Dev.post_cursor (d : Dev) (n : Nat) (i : Instr) : (d.post n i).cursor = d.cursor := rfl
@[simp] theorem Dev.post_jobs (d : Dev) (n : Nat) (i : Instr) : (d.post n i).jobs = d.jobs := rfl
@[simp] theorem Dev.post_casts (d : Dev) (n : Nat) (i : Instr) : (d.post n i).casts = d.casts := rfl
@[simp] theorem Dev.post_walls (d : Dev) (n : Nat) (i : Instr) : (d.post n i).walls = d.walls := rfl
@[simp] theorem Dev.post_part (d : Dev) (n : Nat) (i : Instr) : (d.post n i).part = d.part := rfl
@[simp] theorem Dev.post_ttew0 (d : Dev) (n : Nat) (i : Instr) : (d.post n i).ttew0 = d.ttew0 := rfl
@[simp] theorem Dev.post_ttew1 (d : Dev) (n : Nat) (i : Instr) : (d.post n i).ttew1 = d.ttew1 := rfl
@[simp] theorem Dev.post_tlbPort (d : Dev) (n : Nat) (i : Instr) : (d.post n i).tlbPort = d.tlbPort := rfl
@[simp] theorem Dev.post_tlbBlock (d : Dev) (n : Nat) (i : Instr) : (d.post n i).tlbBlock = d.tlbBlock := rfl
@[simp] theorem Dev.post_tlbLast (d : Dev) (n : Nat) (i : Instr) : (d.post n i).tlbLast = d.tlbLast := rfl
@[simp] theorem Dev.post_omap (d : Dev) (n : Nat) (i : Instr) : (d.post n i).omap = d.omap := rfl
@[simp] theorem Dev.post_replSeq (d : Dev) (n : Nat) (i : Instr) : (d.post n i).replSeq = d.replSeq := rfl
@[simp] theorem Dev.post_replNo (d : Dev) (n : Nat) (i : Instr) : (d.post n i).replNo = d.replNo := rfl
@[simp] theorem Dev.post_replicas (d : Dev) (n : Nat) (i : Instr) : (d.post n i).replicas = d.replicas := rfl
@[simp] theorem Dev.post_keySlots (d : Dev) (n : Nat) (i : Instr) : (d.post n i).keySlots = d.keySlots := rfl
@[simp] theorem Dev.post_lineKey (d : Dev) (n : Nat) (i : Instr) : (d.post n i).lineKey = d.lineKey := rfl
@[simp] theorem Dev.post_hostsel (d : Dev) (n : Nat) (i : Instr) : (d.post n i).hostsel = d.hostsel := rfl
@[simp] theorem Dev.post_pcieUp (d : Dev) (n : Nat) (i : Instr) : (d.post n i).pcieUp = d.pcieUp := rfl
@[simp] theorem Dev.post_ualUp (d : Dev) (n : Nat) (i : Instr) : (d.post n i).ualUp = d.ualUp := rfl
@[simp] theorem Dev.post_ualid (d : Dev) (n : Nat) (i : Instr) : (d.post n i).ualid = d.ualid := rfl
@[simp] theorem Dev.post_uaroute (d : Dev) (n : Nat) (i : Instr) : (d.post n i).uaroute = d.uaroute := rfl
@[simp] theorem Dev.post_relClock (d : Dev) (n : Nat) (i : Instr) : (d.post n i).relClock = d.relClock := rfl
@[simp] theorem Dev.post_cplim (d : Dev) (n : Nat) (i : Instr) : (d.post n i).cplim = d.cplim := rfl
@[simp] theorem Dev.post_se (d : Dev) (n : Nat) (i : Instr) : (d.post n i).se = d.se := rfl
@[simp] theorem Dev.post_outbox (d : Dev) (n : Nat) (i : Instr) : (d.post n i).outbox = d.outbox := rfl
@[simp] theorem Dev.post_host (d : Dev) (n : Nat) (i : Instr) : (d.post n i).host = d.host := rfl
@[simp] theorem Dev.post_boot (d : Dev) (n : Nat) (i : Instr) : (d.post n i).boot = d.boot := rfl
@[simp] theorem Dev.post_pl (d : Dev) (n : Nat) (i : Instr) : (d.post n i).pl = d.pl := rfl
@[simp] theorem Dev.post_sch (d : Dev) (n : Nat) (i : Instr) : (d.post n i).sch = d.sch := rfl
@[simp] theorem Dev.post_away (d : Dev) (n : Nat) (i : Instr) : (d.post n i).away = d.away := rfl
@[simp] theorem Dev.post_diepres (d : Dev) (n : Nat) (i : Instr) : (d.post n i).diepres = d.diepres := rfl
@[simp] theorem Dev.post_blkpres (d : Dev) (n : Nat) (i : Instr) : (d.post n i).blkpres = d.blkpres := rfl
@[simp] theorem Dev.post_seamdn (d : Dev) (n : Nat) (i : Instr) : (d.post n i).seamdn = d.seamdn := rfl
@[simp] theorem Dev.post_featacc (d : Dev) (n : Nat) (i : Instr) : (d.post n i).featacc = d.featacc := rfl
@[simp] theorem Dev.post_featlock (d : Dev) (n : Nat) (i : Instr) : (d.post n i).featlock = d.featlock := rfl

/-! ### Dev.tickFree -/

@[simp] theorem Dev.tickFree_now (d : Dev) : (d.tickFree).now = d.now := rfl
@[simp] theorem Dev.tickFree_walks (d : Dev) : (d.tickFree).walks = d.walks := rfl
@[simp] theorem Dev.tickFree_walked (d : Dev) : (d.tickFree).walked = d.walked := rfl
@[simp] theorem Dev.tickFree_stalls (d : Dev) : (d.tickFree).stalls = d.stalls := rfl
@[simp] theorem Dev.tickFree_seTaken (d : Dev) : (d.tickFree).seTaken = d.seTaken := rfl
@[simp] theorem Dev.tickFree_turns (d : Dev) : (d.tickFree).turns = d.turns := rfl
@[simp] theorem Dev.tickFree_uids (d : Dev) : (d.tickFree).uids = d.uids := rfl
@[simp] theorem Dev.tickFree_agenda (d : Dev) : (d.tickFree).agenda = d.agenda := rfl
@[simp] theorem Dev.tickFree_free (d : Dev) : (d.tickFree).free = d.free + 1 := rfl
@[simp] theorem Dev.tickFree_cursor (d : Dev) : (d.tickFree).cursor = d.cursor := rfl
@[simp] theorem Dev.tickFree_jobs (d : Dev) : (d.tickFree).jobs = d.jobs := rfl
@[simp] theorem Dev.tickFree_casts (d : Dev) : (d.tickFree).casts = d.casts := rfl
@[simp] theorem Dev.tickFree_walls (d : Dev) : (d.tickFree).walls = d.walls := rfl
@[simp] theorem Dev.tickFree_part (d : Dev) : (d.tickFree).part = d.part := rfl
@[simp] theorem Dev.tickFree_ttew0 (d : Dev) : (d.tickFree).ttew0 = d.ttew0 := rfl
@[simp] theorem Dev.tickFree_ttew1 (d : Dev) : (d.tickFree).ttew1 = d.ttew1 := rfl
@[simp] theorem Dev.tickFree_tlbPort (d : Dev) : (d.tickFree).tlbPort = d.tlbPort := rfl
@[simp] theorem Dev.tickFree_tlbBlock (d : Dev) : (d.tickFree).tlbBlock = d.tlbBlock := rfl
@[simp] theorem Dev.tickFree_tlbLast (d : Dev) : (d.tickFree).tlbLast = d.tlbLast := rfl
@[simp] theorem Dev.tickFree_omap (d : Dev) : (d.tickFree).omap = d.omap := rfl
@[simp] theorem Dev.tickFree_replSeq (d : Dev) : (d.tickFree).replSeq = d.replSeq := rfl
@[simp] theorem Dev.tickFree_replNo (d : Dev) : (d.tickFree).replNo = d.replNo := rfl
@[simp] theorem Dev.tickFree_replicas (d : Dev) : (d.tickFree).replicas = d.replicas := rfl
@[simp] theorem Dev.tickFree_keySlots (d : Dev) : (d.tickFree).keySlots = d.keySlots := rfl
@[simp] theorem Dev.tickFree_lineKey (d : Dev) : (d.tickFree).lineKey = d.lineKey := rfl
@[simp] theorem Dev.tickFree_hostsel (d : Dev) : (d.tickFree).hostsel = d.hostsel := rfl
@[simp] theorem Dev.tickFree_pcieUp (d : Dev) : (d.tickFree).pcieUp = d.pcieUp := rfl
@[simp] theorem Dev.tickFree_ualUp (d : Dev) : (d.tickFree).ualUp = d.ualUp := rfl
@[simp] theorem Dev.tickFree_ualid (d : Dev) : (d.tickFree).ualid = d.ualid := rfl
@[simp] theorem Dev.tickFree_uaroute (d : Dev) : (d.tickFree).uaroute = d.uaroute := rfl
@[simp] theorem Dev.tickFree_relClock (d : Dev) : (d.tickFree).relClock = d.relClock := rfl
@[simp] theorem Dev.tickFree_cplim (d : Dev) : (d.tickFree).cplim = d.cplim := rfl
@[simp] theorem Dev.tickFree_se (d : Dev) : (d.tickFree).se = d.se := rfl
@[simp] theorem Dev.tickFree_outbox (d : Dev) : (d.tickFree).outbox = d.outbox := rfl
@[simp] theorem Dev.tickFree_host (d : Dev) : (d.tickFree).host = d.host := rfl
@[simp] theorem Dev.tickFree_boot (d : Dev) : (d.tickFree).boot = d.boot := rfl
@[simp] theorem Dev.tickFree_pl (d : Dev) : (d.tickFree).pl = d.pl := rfl
@[simp] theorem Dev.tickFree_sch (d : Dev) : (d.tickFree).sch = d.sch := rfl
@[simp] theorem Dev.tickFree_away (d : Dev) : (d.tickFree).away = d.away := rfl
@[simp] theorem Dev.tickFree_diepres (d : Dev) : (d.tickFree).diepres = d.diepres := rfl
@[simp] theorem Dev.tickFree_blkpres (d : Dev) : (d.tickFree).blkpres = d.blkpres := rfl
@[simp] theorem Dev.tickFree_seamdn (d : Dev) : (d.tickFree).seamdn = d.seamdn := rfl
@[simp] theorem Dev.tickFree_featacc (d : Dev) : (d.tickFree).featacc = d.featacc := rfl
@[simp] theorem Dev.tickFree_featlock (d : Dev) : (d.tickFree).featlock = d.featlock := rfl

/-! ### Dev.job -/

@[simp] theorem Dev.job_now (d : Dev) (j : Job) : (d.job j).now = d.now := rfl
@[simp] theorem Dev.job_walks (d : Dev) (j : Job) : (d.job j).walks = d.walks := rfl
@[simp] theorem Dev.job_walked (d : Dev) (j : Job) : (d.job j).walked = d.walked := rfl
@[simp] theorem Dev.job_stalls (d : Dev) (j : Job) : (d.job j).stalls = d.stalls := rfl
@[simp] theorem Dev.job_seTaken (d : Dev) (j : Job) : (d.job j).seTaken = d.seTaken := rfl
@[simp] theorem Dev.job_turns (d : Dev) (j : Job) : (d.job j).turns = d.turns := rfl
@[simp] theorem Dev.job_uids (d : Dev) (j : Job) : (d.job j).uids = d.uids := rfl
@[simp] theorem Dev.job_agenda (d : Dev) (j : Job) : (d.job j).agenda = d.agenda := rfl
@[simp] theorem Dev.job_free (d : Dev) (j : Job) : (d.job j).free = d.free := rfl
@[simp] theorem Dev.job_cursor (d : Dev) (j : Job) : (d.job j).cursor = d.cursor := rfl
@[simp] theorem Dev.job_jobs (d : Dev) (j : Job) : (d.job j).jobs = d.jobs ++ [j] := rfl
@[simp] theorem Dev.job_casts (d : Dev) (j : Job) : (d.job j).casts = d.casts := rfl
@[simp] theorem Dev.job_walls (d : Dev) (j : Job) : (d.job j).walls = d.walls := rfl
@[simp] theorem Dev.job_part (d : Dev) (j : Job) : (d.job j).part = d.part := rfl
@[simp] theorem Dev.job_ttew0 (d : Dev) (j : Job) : (d.job j).ttew0 = d.ttew0 := rfl
@[simp] theorem Dev.job_ttew1 (d : Dev) (j : Job) : (d.job j).ttew1 = d.ttew1 := rfl
@[simp] theorem Dev.job_tlbPort (d : Dev) (j : Job) : (d.job j).tlbPort = d.tlbPort := rfl
@[simp] theorem Dev.job_tlbBlock (d : Dev) (j : Job) : (d.job j).tlbBlock = d.tlbBlock := rfl
@[simp] theorem Dev.job_tlbLast (d : Dev) (j : Job) : (d.job j).tlbLast = d.tlbLast := rfl
@[simp] theorem Dev.job_omap (d : Dev) (j : Job) : (d.job j).omap = d.omap := rfl
@[simp] theorem Dev.job_replSeq (d : Dev) (j : Job) : (d.job j).replSeq = d.replSeq := rfl
@[simp] theorem Dev.job_replNo (d : Dev) (j : Job) : (d.job j).replNo = d.replNo := rfl
@[simp] theorem Dev.job_replicas (d : Dev) (j : Job) : (d.job j).replicas = d.replicas := rfl
@[simp] theorem Dev.job_keySlots (d : Dev) (j : Job) : (d.job j).keySlots = d.keySlots := rfl
@[simp] theorem Dev.job_lineKey (d : Dev) (j : Job) : (d.job j).lineKey = d.lineKey := rfl
@[simp] theorem Dev.job_hostsel (d : Dev) (j : Job) : (d.job j).hostsel = d.hostsel := rfl
@[simp] theorem Dev.job_pcieUp (d : Dev) (j : Job) : (d.job j).pcieUp = d.pcieUp := rfl
@[simp] theorem Dev.job_ualUp (d : Dev) (j : Job) : (d.job j).ualUp = d.ualUp := rfl
@[simp] theorem Dev.job_ualid (d : Dev) (j : Job) : (d.job j).ualid = d.ualid := rfl
@[simp] theorem Dev.job_uaroute (d : Dev) (j : Job) : (d.job j).uaroute = d.uaroute := rfl
@[simp] theorem Dev.job_relClock (d : Dev) (j : Job) : (d.job j).relClock = d.relClock := rfl
@[simp] theorem Dev.job_cplim (d : Dev) (j : Job) : (d.job j).cplim = d.cplim := rfl
@[simp] theorem Dev.job_se (d : Dev) (j : Job) : (d.job j).se = d.se := rfl
@[simp] theorem Dev.job_outbox (d : Dev) (j : Job) : (d.job j).outbox = d.outbox := rfl
@[simp] theorem Dev.job_host (d : Dev) (j : Job) : (d.job j).host = d.host := rfl
@[simp] theorem Dev.job_boot (d : Dev) (j : Job) : (d.job j).boot = d.boot := rfl
@[simp] theorem Dev.job_pl (d : Dev) (j : Job) : (d.job j).pl = d.pl := rfl
@[simp] theorem Dev.job_sch (d : Dev) (j : Job) : (d.job j).sch = d.sch := rfl
@[simp] theorem Dev.job_away (d : Dev) (j : Job) : (d.job j).away = d.away := rfl
@[simp] theorem Dev.job_diepres (d : Dev) (j : Job) : (d.job j).diepres = d.diepres := rfl
@[simp] theorem Dev.job_blkpres (d : Dev) (j : Job) : (d.job j).blkpres = d.blkpres := rfl
@[simp] theorem Dev.job_seamdn (d : Dev) (j : Job) : (d.job j).seamdn = d.seamdn := rfl
@[simp] theorem Dev.job_featacc (d : Dev) (j : Job) : (d.job j).featacc = d.featacc := rfl
@[simp] theorem Dev.job_featlock (d : Dev) (j : Job) : (d.job j).featlock = d.featlock := rfl

/-! ### Dev.modCast -/

@[simp] theorem Dev.modCast_now (d : Dev) (c : Nat) (f : Cast → Cast) : (d.modCast c f).now = d.now := rfl
@[simp] theorem Dev.modCast_walks (d : Dev) (c : Nat) (f : Cast → Cast) : (d.modCast c f).walks = d.walks := rfl
@[simp] theorem Dev.modCast_walked (d : Dev) (c : Nat) (f : Cast → Cast) : (d.modCast c f).walked = d.walked := rfl
@[simp] theorem Dev.modCast_stalls (d : Dev) (c : Nat) (f : Cast → Cast) : (d.modCast c f).stalls = d.stalls := rfl
@[simp] theorem Dev.modCast_seTaken (d : Dev) (c : Nat) (f : Cast → Cast) : (d.modCast c f).seTaken = d.seTaken := rfl
@[simp] theorem Dev.modCast_turns (d : Dev) (c : Nat) (f : Cast → Cast) : (d.modCast c f).turns = d.turns := rfl
@[simp] theorem Dev.modCast_uids (d : Dev) (c : Nat) (f : Cast → Cast) : (d.modCast c f).uids = d.uids := rfl
@[simp] theorem Dev.modCast_agenda (d : Dev) (c : Nat) (f : Cast → Cast) : (d.modCast c f).agenda = d.agenda := rfl
@[simp] theorem Dev.modCast_free (d : Dev) (c : Nat) (f : Cast → Cast) : (d.modCast c f).free = d.free := rfl
@[simp] theorem Dev.modCast_cursor (d : Dev) (c : Nat) (f : Cast → Cast) : (d.modCast c f).cursor = d.cursor := rfl
@[simp] theorem Dev.modCast_jobs (d : Dev) (c : Nat) (f : Cast → Cast) : (d.modCast c f).jobs = d.jobs := rfl
@[simp] theorem Dev.modCast_casts (d : Dev) (c : Nat) (f : Cast → Cast) : (d.modCast c f).casts = d.casts.upd c f := rfl
@[simp] theorem Dev.modCast_walls (d : Dev) (c : Nat) (f : Cast → Cast) : (d.modCast c f).walls = d.walls := rfl
@[simp] theorem Dev.modCast_part (d : Dev) (c : Nat) (f : Cast → Cast) : (d.modCast c f).part = d.part := rfl
@[simp] theorem Dev.modCast_ttew0 (d : Dev) (c : Nat) (f : Cast → Cast) : (d.modCast c f).ttew0 = d.ttew0 := rfl
@[simp] theorem Dev.modCast_ttew1 (d : Dev) (c : Nat) (f : Cast → Cast) : (d.modCast c f).ttew1 = d.ttew1 := rfl
@[simp] theorem Dev.modCast_tlbPort (d : Dev) (c : Nat) (f : Cast → Cast) : (d.modCast c f).tlbPort = d.tlbPort := rfl
@[simp] theorem Dev.modCast_tlbBlock (d : Dev) (c : Nat) (f : Cast → Cast) : (d.modCast c f).tlbBlock = d.tlbBlock := rfl
@[simp] theorem Dev.modCast_tlbLast (d : Dev) (c : Nat) (f : Cast → Cast) : (d.modCast c f).tlbLast = d.tlbLast := rfl
@[simp] theorem Dev.modCast_omap (d : Dev) (c : Nat) (f : Cast → Cast) : (d.modCast c f).omap = d.omap := rfl
@[simp] theorem Dev.modCast_replSeq (d : Dev) (c : Nat) (f : Cast → Cast) : (d.modCast c f).replSeq = d.replSeq := rfl
@[simp] theorem Dev.modCast_replNo (d : Dev) (c : Nat) (f : Cast → Cast) : (d.modCast c f).replNo = d.replNo := rfl
@[simp] theorem Dev.modCast_replicas (d : Dev) (c : Nat) (f : Cast → Cast) : (d.modCast c f).replicas = d.replicas := rfl
@[simp] theorem Dev.modCast_keySlots (d : Dev) (c : Nat) (f : Cast → Cast) : (d.modCast c f).keySlots = d.keySlots := rfl
@[simp] theorem Dev.modCast_lineKey (d : Dev) (c : Nat) (f : Cast → Cast) : (d.modCast c f).lineKey = d.lineKey := rfl
@[simp] theorem Dev.modCast_hostsel (d : Dev) (c : Nat) (f : Cast → Cast) : (d.modCast c f).hostsel = d.hostsel := rfl
@[simp] theorem Dev.modCast_pcieUp (d : Dev) (c : Nat) (f : Cast → Cast) : (d.modCast c f).pcieUp = d.pcieUp := rfl
@[simp] theorem Dev.modCast_ualUp (d : Dev) (c : Nat) (f : Cast → Cast) : (d.modCast c f).ualUp = d.ualUp := rfl
@[simp] theorem Dev.modCast_ualid (d : Dev) (c : Nat) (f : Cast → Cast) : (d.modCast c f).ualid = d.ualid := rfl
@[simp] theorem Dev.modCast_uaroute (d : Dev) (c : Nat) (f : Cast → Cast) : (d.modCast c f).uaroute = d.uaroute := rfl
@[simp] theorem Dev.modCast_relClock (d : Dev) (c : Nat) (f : Cast → Cast) : (d.modCast c f).relClock = d.relClock := rfl
@[simp] theorem Dev.modCast_cplim (d : Dev) (c : Nat) (f : Cast → Cast) : (d.modCast c f).cplim = d.cplim := rfl
@[simp] theorem Dev.modCast_se (d : Dev) (c : Nat) (f : Cast → Cast) : (d.modCast c f).se = d.se := rfl
@[simp] theorem Dev.modCast_outbox (d : Dev) (c : Nat) (f : Cast → Cast) : (d.modCast c f).outbox = d.outbox := rfl
@[simp] theorem Dev.modCast_host (d : Dev) (c : Nat) (f : Cast → Cast) : (d.modCast c f).host = d.host := rfl
@[simp] theorem Dev.modCast_boot (d : Dev) (c : Nat) (f : Cast → Cast) : (d.modCast c f).boot = d.boot := rfl
@[simp] theorem Dev.modCast_pl (d : Dev) (c : Nat) (f : Cast → Cast) : (d.modCast c f).pl = d.pl := rfl
@[simp] theorem Dev.modCast_sch (d : Dev) (c : Nat) (f : Cast → Cast) : (d.modCast c f).sch = d.sch := rfl
@[simp] theorem Dev.modCast_away (d : Dev) (c : Nat) (f : Cast → Cast) : (d.modCast c f).away = d.away.upd c f := rfl
@[simp] theorem Dev.modCast_diepres (d : Dev) (c : Nat) (f : Cast → Cast) : (d.modCast c f).diepres = d.diepres := rfl
@[simp] theorem Dev.modCast_blkpres (d : Dev) (c : Nat) (f : Cast → Cast) : (d.modCast c f).blkpres = d.blkpres := rfl
@[simp] theorem Dev.modCast_seamdn (d : Dev) (c : Nat) (f : Cast → Cast) : (d.modCast c f).seamdn = d.seamdn := rfl
@[simp] theorem Dev.modCast_featacc (d : Dev) (c : Nat) (f : Cast → Cast) : (d.modCast c f).featacc = d.featacc := rfl
@[simp] theorem Dev.modCast_featlock (d : Dev) (c : Nat) (f : Cast → Cast) : (d.modCast c f).featlock = d.featlock := rfl

/-! ### Dev.modTh -/

@[simp] theorem Dev.modTh_now (d : Dev) (c : Nat) (f : Thread → Thread) : (d.modTh c f).now = d.now := rfl
@[simp] theorem Dev.modTh_walks (d : Dev) (c : Nat) (f : Thread → Thread) : (d.modTh c f).walks = d.walks := rfl
@[simp] theorem Dev.modTh_walked (d : Dev) (c : Nat) (f : Thread → Thread) : (d.modTh c f).walked = d.walked := rfl
@[simp] theorem Dev.modTh_stalls (d : Dev) (c : Nat) (f : Thread → Thread) : (d.modTh c f).stalls = d.stalls := rfl
@[simp] theorem Dev.modTh_seTaken (d : Dev) (c : Nat) (f : Thread → Thread) : (d.modTh c f).seTaken = d.seTaken := rfl
@[simp] theorem Dev.modTh_turns (d : Dev) (c : Nat) (f : Thread → Thread) : (d.modTh c f).turns = d.turns := rfl
@[simp] theorem Dev.modTh_uids (d : Dev) (c : Nat) (f : Thread → Thread) : (d.modTh c f).uids = d.uids := rfl
@[simp] theorem Dev.modTh_agenda (d : Dev) (c : Nat) (f : Thread → Thread) : (d.modTh c f).agenda = d.agenda := rfl
@[simp] theorem Dev.modTh_free (d : Dev) (c : Nat) (f : Thread → Thread) : (d.modTh c f).free = d.free := rfl
@[simp] theorem Dev.modTh_cursor (d : Dev) (c : Nat) (f : Thread → Thread) : (d.modTh c f).cursor = d.cursor := rfl
@[simp] theorem Dev.modTh_jobs (d : Dev) (c : Nat) (f : Thread → Thread) : (d.modTh c f).jobs = d.jobs := rfl
@[simp] theorem Dev.modTh_casts (d : Dev) (c : Nat) (f : Thread → Thread) : (d.modTh c f).casts = d.casts.upd c fun k => { k with th := f k.th } := rfl
@[simp] theorem Dev.modTh_walls (d : Dev) (c : Nat) (f : Thread → Thread) : (d.modTh c f).walls = d.walls := rfl
@[simp] theorem Dev.modTh_part (d : Dev) (c : Nat) (f : Thread → Thread) : (d.modTh c f).part = d.part := rfl
@[simp] theorem Dev.modTh_ttew0 (d : Dev) (c : Nat) (f : Thread → Thread) : (d.modTh c f).ttew0 = d.ttew0 := rfl
@[simp] theorem Dev.modTh_ttew1 (d : Dev) (c : Nat) (f : Thread → Thread) : (d.modTh c f).ttew1 = d.ttew1 := rfl
@[simp] theorem Dev.modTh_tlbPort (d : Dev) (c : Nat) (f : Thread → Thread) : (d.modTh c f).tlbPort = d.tlbPort := rfl
@[simp] theorem Dev.modTh_tlbBlock (d : Dev) (c : Nat) (f : Thread → Thread) : (d.modTh c f).tlbBlock = d.tlbBlock := rfl
@[simp] theorem Dev.modTh_tlbLast (d : Dev) (c : Nat) (f : Thread → Thread) : (d.modTh c f).tlbLast = d.tlbLast := rfl
@[simp] theorem Dev.modTh_omap (d : Dev) (c : Nat) (f : Thread → Thread) : (d.modTh c f).omap = d.omap := rfl
@[simp] theorem Dev.modTh_replSeq (d : Dev) (c : Nat) (f : Thread → Thread) : (d.modTh c f).replSeq = d.replSeq := rfl
@[simp] theorem Dev.modTh_replNo (d : Dev) (c : Nat) (f : Thread → Thread) : (d.modTh c f).replNo = d.replNo := rfl
@[simp] theorem Dev.modTh_replicas (d : Dev) (c : Nat) (f : Thread → Thread) : (d.modTh c f).replicas = d.replicas := rfl
@[simp] theorem Dev.modTh_keySlots (d : Dev) (c : Nat) (f : Thread → Thread) : (d.modTh c f).keySlots = d.keySlots := rfl
@[simp] theorem Dev.modTh_lineKey (d : Dev) (c : Nat) (f : Thread → Thread) : (d.modTh c f).lineKey = d.lineKey := rfl
@[simp] theorem Dev.modTh_hostsel (d : Dev) (c : Nat) (f : Thread → Thread) : (d.modTh c f).hostsel = d.hostsel := rfl
@[simp] theorem Dev.modTh_pcieUp (d : Dev) (c : Nat) (f : Thread → Thread) : (d.modTh c f).pcieUp = d.pcieUp := rfl
@[simp] theorem Dev.modTh_ualUp (d : Dev) (c : Nat) (f : Thread → Thread) : (d.modTh c f).ualUp = d.ualUp := rfl
@[simp] theorem Dev.modTh_ualid (d : Dev) (c : Nat) (f : Thread → Thread) : (d.modTh c f).ualid = d.ualid := rfl
@[simp] theorem Dev.modTh_uaroute (d : Dev) (c : Nat) (f : Thread → Thread) : (d.modTh c f).uaroute = d.uaroute := rfl
@[simp] theorem Dev.modTh_relClock (d : Dev) (c : Nat) (f : Thread → Thread) : (d.modTh c f).relClock = d.relClock := rfl
@[simp] theorem Dev.modTh_cplim (d : Dev) (c : Nat) (f : Thread → Thread) : (d.modTh c f).cplim = d.cplim := rfl
@[simp] theorem Dev.modTh_se (d : Dev) (c : Nat) (f : Thread → Thread) : (d.modTh c f).se = d.se := rfl
@[simp] theorem Dev.modTh_outbox (d : Dev) (c : Nat) (f : Thread → Thread) : (d.modTh c f).outbox = d.outbox := rfl
@[simp] theorem Dev.modTh_host (d : Dev) (c : Nat) (f : Thread → Thread) : (d.modTh c f).host = d.host := rfl
@[simp] theorem Dev.modTh_boot (d : Dev) (c : Nat) (f : Thread → Thread) : (d.modTh c f).boot = d.boot := rfl
@[simp] theorem Dev.modTh_pl (d : Dev) (c : Nat) (f : Thread → Thread) : (d.modTh c f).pl = d.pl := rfl
@[simp] theorem Dev.modTh_sch (d : Dev) (c : Nat) (f : Thread → Thread) : (d.modTh c f).sch = d.sch := rfl
@[simp] theorem Dev.modTh_away (d : Dev) (c : Nat) (f : Thread → Thread) : (d.modTh c f).away = d.away.upd c fun k => { k with th := f k.th } := rfl
@[simp] theorem Dev.modTh_diepres (d : Dev) (c : Nat) (f : Thread → Thread) : (d.modTh c f).diepres = d.diepres := rfl
@[simp] theorem Dev.modTh_blkpres (d : Dev) (c : Nat) (f : Thread → Thread) : (d.modTh c f).blkpres = d.blkpres := rfl
@[simp] theorem Dev.modTh_seamdn (d : Dev) (c : Nat) (f : Thread → Thread) : (d.modTh c f).seamdn = d.seamdn := rfl
@[simp] theorem Dev.modTh_featacc (d : Dev) (c : Nat) (f : Thread → Thread) : (d.modTh c f).featacc = d.featacc := rfl
@[simp] theorem Dev.modTh_featlock (d : Dev) (c : Nat) (f : Thread → Thread) : (d.modTh c f).featlock = d.featlock := rfl

/-! ### Dev.modSite -/

@[simp] theorem Dev.modSite_now (d : Dev) (c n : Nat) (f : Site → Site) : (d.modSite c n f).now = d.now := rfl
@[simp] theorem Dev.modSite_walks (d : Dev) (c n : Nat) (f : Site → Site) : (d.modSite c n f).walks = d.walks := rfl
@[simp] theorem Dev.modSite_walked (d : Dev) (c n : Nat) (f : Site → Site) : (d.modSite c n f).walked = d.walked := rfl
@[simp] theorem Dev.modSite_stalls (d : Dev) (c n : Nat) (f : Site → Site) : (d.modSite c n f).stalls = d.stalls := rfl
@[simp] theorem Dev.modSite_seTaken (d : Dev) (c n : Nat) (f : Site → Site) : (d.modSite c n f).seTaken = d.seTaken := rfl
@[simp] theorem Dev.modSite_turns (d : Dev) (c n : Nat) (f : Site → Site) : (d.modSite c n f).turns = d.turns := rfl
@[simp] theorem Dev.modSite_uids (d : Dev) (c n : Nat) (f : Site → Site) : (d.modSite c n f).uids = d.uids := rfl
@[simp] theorem Dev.modSite_agenda (d : Dev) (c n : Nat) (f : Site → Site) : (d.modSite c n f).agenda = d.agenda := rfl
@[simp] theorem Dev.modSite_free (d : Dev) (c n : Nat) (f : Site → Site) : (d.modSite c n f).free = d.free := rfl
@[simp] theorem Dev.modSite_cursor (d : Dev) (c n : Nat) (f : Site → Site) : (d.modSite c n f).cursor = d.cursor := rfl
@[simp] theorem Dev.modSite_jobs (d : Dev) (c n : Nat) (f : Site → Site) : (d.modSite c n f).jobs = d.jobs := rfl
@[simp] theorem Dev.modSite_casts (d : Dev) (c n : Nat) (f : Site → Site) : (d.modSite c n f).casts = d.casts.upd c fun k => k.modSite n f := rfl
@[simp] theorem Dev.modSite_walls (d : Dev) (c n : Nat) (f : Site → Site) : (d.modSite c n f).walls = d.walls := rfl
@[simp] theorem Dev.modSite_part (d : Dev) (c n : Nat) (f : Site → Site) : (d.modSite c n f).part = d.part := rfl
@[simp] theorem Dev.modSite_ttew0 (d : Dev) (c n : Nat) (f : Site → Site) : (d.modSite c n f).ttew0 = d.ttew0 := rfl
@[simp] theorem Dev.modSite_ttew1 (d : Dev) (c n : Nat) (f : Site → Site) : (d.modSite c n f).ttew1 = d.ttew1 := rfl
@[simp] theorem Dev.modSite_tlbPort (d : Dev) (c n : Nat) (f : Site → Site) : (d.modSite c n f).tlbPort = d.tlbPort := rfl
@[simp] theorem Dev.modSite_tlbBlock (d : Dev) (c n : Nat) (f : Site → Site) : (d.modSite c n f).tlbBlock = d.tlbBlock := rfl
@[simp] theorem Dev.modSite_tlbLast (d : Dev) (c n : Nat) (f : Site → Site) : (d.modSite c n f).tlbLast = d.tlbLast := rfl
@[simp] theorem Dev.modSite_omap (d : Dev) (c n : Nat) (f : Site → Site) : (d.modSite c n f).omap = d.omap := rfl
@[simp] theorem Dev.modSite_replSeq (d : Dev) (c n : Nat) (f : Site → Site) : (d.modSite c n f).replSeq = d.replSeq := rfl
@[simp] theorem Dev.modSite_replNo (d : Dev) (c n : Nat) (f : Site → Site) : (d.modSite c n f).replNo = d.replNo := rfl
@[simp] theorem Dev.modSite_replicas (d : Dev) (c n : Nat) (f : Site → Site) : (d.modSite c n f).replicas = d.replicas := rfl
@[simp] theorem Dev.modSite_keySlots (d : Dev) (c n : Nat) (f : Site → Site) : (d.modSite c n f).keySlots = d.keySlots := rfl
@[simp] theorem Dev.modSite_lineKey (d : Dev) (c n : Nat) (f : Site → Site) : (d.modSite c n f).lineKey = d.lineKey := rfl
@[simp] theorem Dev.modSite_hostsel (d : Dev) (c n : Nat) (f : Site → Site) : (d.modSite c n f).hostsel = d.hostsel := rfl
@[simp] theorem Dev.modSite_pcieUp (d : Dev) (c n : Nat) (f : Site → Site) : (d.modSite c n f).pcieUp = d.pcieUp := rfl
@[simp] theorem Dev.modSite_ualUp (d : Dev) (c n : Nat) (f : Site → Site) : (d.modSite c n f).ualUp = d.ualUp := rfl
@[simp] theorem Dev.modSite_ualid (d : Dev) (c n : Nat) (f : Site → Site) : (d.modSite c n f).ualid = d.ualid := rfl
@[simp] theorem Dev.modSite_uaroute (d : Dev) (c n : Nat) (f : Site → Site) : (d.modSite c n f).uaroute = d.uaroute := rfl
@[simp] theorem Dev.modSite_relClock (d : Dev) (c n : Nat) (f : Site → Site) : (d.modSite c n f).relClock = d.relClock := rfl
@[simp] theorem Dev.modSite_cplim (d : Dev) (c n : Nat) (f : Site → Site) : (d.modSite c n f).cplim = d.cplim := rfl
@[simp] theorem Dev.modSite_se (d : Dev) (c n : Nat) (f : Site → Site) : (d.modSite c n f).se = d.se := rfl
@[simp] theorem Dev.modSite_outbox (d : Dev) (c n : Nat) (f : Site → Site) : (d.modSite c n f).outbox = d.outbox := rfl
@[simp] theorem Dev.modSite_host (d : Dev) (c n : Nat) (f : Site → Site) : (d.modSite c n f).host = d.host := rfl
@[simp] theorem Dev.modSite_boot (d : Dev) (c n : Nat) (f : Site → Site) : (d.modSite c n f).boot = d.boot := rfl
@[simp] theorem Dev.modSite_pl (d : Dev) (c n : Nat) (f : Site → Site) : (d.modSite c n f).pl = d.pl := rfl
@[simp] theorem Dev.modSite_sch (d : Dev) (c n : Nat) (f : Site → Site) : (d.modSite c n f).sch = d.sch := rfl
@[simp] theorem Dev.modSite_away (d : Dev) (c n : Nat) (f : Site → Site) : (d.modSite c n f).away = d.away.upd c fun k => k.modSite n f := rfl
@[simp] theorem Dev.modSite_diepres (d : Dev) (c n : Nat) (f : Site → Site) : (d.modSite c n f).diepres = d.diepres := rfl
@[simp] theorem Dev.modSite_blkpres (d : Dev) (c n : Nat) (f : Site → Site) : (d.modSite c n f).blkpres = d.blkpres := rfl
@[simp] theorem Dev.modSite_seamdn (d : Dev) (c n : Nat) (f : Site → Site) : (d.modSite c n f).seamdn = d.seamdn := rfl
@[simp] theorem Dev.modSite_featacc (d : Dev) (c n : Nat) (f : Site → Site) : (d.modSite c n f).featacc = d.featacc := rfl
@[simp] theorem Dev.modSite_featlock (d : Dev) (c n : Nat) (f : Site → Site) : (d.modSite c n f).featlock = d.featlock := rfl

/-! ### Thread.modBlk -/

@[simp] theorem Thread.modBlk_regs (t : Thread) (f : Block → Block) : (t.modBlk f).regs = t.regs := rfl
@[simp] theorem Thread.modBlk_ret (t : Thread) (f : Block → Block) : (t.modBlk f).ret = t.ret := rfl
@[simp] theorem Thread.modBlk_pc (t : Thread) (f : Block → Block) : (t.modBlk f).pc = t.pc := rfl
@[simp] theorem Thread.modBlk_mode (t : Thread) (f : Block → Block) : (t.modBlk f).mode = t.mode := rfl
@[simp] theorem Thread.modBlk_first (t : Thread) (f : Block → Block) : (t.modBlk f).first = t.first := rfl
@[simp] theorem Thread.modBlk_blk (t : Thread) (f : Block → Block) : (t.modBlk f).blk = t.blk.map f := rfl
@[simp] theorem Thread.modBlk_seq (t : Thread) (f : Block → Block) : (t.modBlk f).seq = t.seq := rfl
@[simp] theorem Thread.modBlk_nextId (t : Thread) (f : Block → Block) : (t.modBlk f).nextId = t.nextId := rfl
@[simp] theorem Thread.modBlk_pend (t : Thread) (f : Block → Block) : (t.modBlk f).pend = t.pend := rfl
@[simp] theorem Thread.modBlk_pops (t : Thread) (f : Block → Block) : (t.modBlk f).pops = t.pops := rfl
@[simp] theorem Thread.modBlk_push (t : Thread) (f : Block → Block) : (t.modBlk f).push = t.push := rfl
@[simp] theorem Thread.modBlk_pop (t : Thread) (f : Block → Block) : (t.modBlk f).pop = t.pop := rfl
@[simp] theorem Thread.modBlk_popOcc (t : Thread) (f : Block → Block) : (t.modBlk f).popOcc = t.popOcc := rfl
@[simp] theorem Thread.modBlk_asyncQ (t : Thread) (f : Block → Block) : (t.modBlk f).asyncQ = t.asyncQ := rfl
@[simp] theorem Thread.modBlk_lost (t : Thread) (f : Block → Block) : (t.modBlk f).lost = t.lost := rfl
@[simp] theorem Thread.modBlk_wait (t : Thread) (f : Block → Block) : (t.modBlk f).wait = t.wait := rfl
@[simp] theorem Thread.modBlk_saved (t : Thread) (f : Block → Block) : (t.modBlk f).saved = t.saved := rfl
@[simp] theorem Thread.modBlk_yieldNext (t : Thread) (f : Block → Block) : (t.modBlk f).yieldNext = t.yieldNext := rfl
@[simp] theorem Thread.modBlk_savedYield (t : Thread) (f : Block → Block) : (t.modBlk f).savedYield = t.savedYield := rfl
@[simp] theorem Thread.modBlk_phaseOps (t : Thread) (f : Block → Block) : (t.modBlk f).phaseOps = t.phaseOps := rfl
@[simp] theorem Thread.modBlk_queue (t : Thread) (f : Block → Block) : (t.modBlk f).queue = t.queue := rfl
@[simp] theorem Thread.modBlk_relFence (t : Thread) (f : Block → Block) : (t.modBlk f).relFence = t.relFence := rfl
@[simp] theorem Thread.modBlk_relSeen (t : Thread) (f : Block → Block) : (t.modBlk f).relSeen = t.relSeen := rfl
@[simp] theorem Thread.modBlk_loadAfter (t : Thread) (f : Block → Block) : (t.modBlk f).loadAfter = t.loadAfter := rfl
@[simp] theorem Thread.modBlk_gmem (t : Thread) (f : Block → Block) : (t.modBlk f).gmem = t.gmem := rfl
@[simp] theorem Thread.modBlk_taskpri (t : Thread) (f : Block → Block) : (t.modBlk f).taskpri = t.taskpri := rfl
@[simp] theorem Thread.modBlk_parmb (t : Thread) (f : Block → Block) : (t.modBlk f).parmb = t.parmb := rfl
@[simp] theorem Thread.modBlk_parm (t : Thread) (f : Block → Block) : (t.modBlk f).parm = t.parm := rfl
@[simp] theorem Thread.modBlk_tvec (t : Thread) (f : Block → Block) : (t.modBlk f).tvec = t.tvec := rfl
@[simp] theorem Thread.modBlk_tcause (t : Thread) (f : Block → Block) : (t.modBlk f).tcause = t.tcause := rfl
@[simp] theorem Thread.modBlk_tpc (t : Thread) (f : Block → Block) : (t.modBlk f).tpc = t.tpc := rfl
@[simp] theorem Thread.modBlk_tinfo (t : Thread) (f : Block → Block) : (t.modBlk f).tinfo = t.tinfo := rfl
@[simp] theorem Thread.modBlk_inh (t : Thread) (f : Block → Block) : (t.modBlk f).inh = t.inh := rfl
@[simp] theorem Thread.modBlk_wres (t : Thread) (f : Block → Block) : (t.modBlk f).wres = t.wres := rfl
@[simp] theorem Thread.modBlk_dbg (t : Thread) (f : Block → Block) : (t.modBlk f).dbg = t.dbg := rfl
@[simp] theorem Thread.modBlk_oob (t : Thread) (f : Block → Block) : (t.modBlk f).oob = t.oob := rfl
@[simp] theorem Thread.modBlk_loob (t : Thread) (f : Block → Block) : (t.modBlk f).loob = t.loob := rfl
@[simp] theorem Thread.modBlk_oobSeen (t : Thread) (f : Block → Block) : (t.modBlk f).oobSeen = t.oobSeen := rfl
@[simp] theorem Thread.modBlk_ctx (t : Thread) (f : Block → Block) : (t.modBlk f).ctx = t.ctx := rfl
@[simp] theorem Thread.modBlk_armst (t : Thread) (f : Block → Block) : (t.modBlk f).armst = t.armst := rfl
@[simp] theorem Thread.modBlk_taskActive (t : Thread) (f : Block → Block) : (t.modBlk f).taskActive = t.taskActive := rfl
@[simp] theorem Thread.modBlk_taskToken (t : Thread) (f : Block → Block) : (t.modBlk f).taskToken = t.taskToken := rfl
@[simp] theorem Thread.modBlk_startTask (t : Thread) (f : Block → Block) : (t.modBlk f).startTask = t.startTask := rfl

/-! ### Thread.setReg -/

@[simp] theorem Thread.setReg_regs (t : Thread) (r : Nat) (v : Word) : (t.setReg r v).regs = t.regs.set 0 r v := rfl
@[simp] theorem Thread.setReg_ret (t : Thread) (r : Nat) (v : Word) : (t.setReg r v).ret = t.ret := rfl
@[simp] theorem Thread.setReg_pc (t : Thread) (r : Nat) (v : Word) : (t.setReg r v).pc = t.pc := rfl
@[simp] theorem Thread.setReg_mode (t : Thread) (r : Nat) (v : Word) : (t.setReg r v).mode = t.mode := rfl
@[simp] theorem Thread.setReg_first (t : Thread) (r : Nat) (v : Word) : (t.setReg r v).first = t.first := rfl
@[simp] theorem Thread.setReg_blk (t : Thread) (r : Nat) (v : Word) : (t.setReg r v).blk = t.blk := rfl
@[simp] theorem Thread.setReg_seq (t : Thread) (r : Nat) (v : Word) : (t.setReg r v).seq = t.seq := rfl
@[simp] theorem Thread.setReg_nextId (t : Thread) (r : Nat) (v : Word) : (t.setReg r v).nextId = t.nextId := rfl
@[simp] theorem Thread.setReg_pend (t : Thread) (r : Nat) (v : Word) : (t.setReg r v).pend = t.pend := rfl
@[simp] theorem Thread.setReg_pops (t : Thread) (r : Nat) (v : Word) : (t.setReg r v).pops = t.pops := rfl
@[simp] theorem Thread.setReg_push (t : Thread) (r : Nat) (v : Word) : (t.setReg r v).push = t.push := rfl
@[simp] theorem Thread.setReg_pop (t : Thread) (r : Nat) (v : Word) : (t.setReg r v).pop = t.pop := rfl
@[simp] theorem Thread.setReg_popOcc (t : Thread) (r : Nat) (v : Word) : (t.setReg r v).popOcc = t.popOcc := rfl
@[simp] theorem Thread.setReg_asyncQ (t : Thread) (r : Nat) (v : Word) : (t.setReg r v).asyncQ = t.asyncQ := rfl
@[simp] theorem Thread.setReg_lost (t : Thread) (r : Nat) (v : Word) : (t.setReg r v).lost = t.lost := rfl
@[simp] theorem Thread.setReg_wait (t : Thread) (r : Nat) (v : Word) : (t.setReg r v).wait = t.wait := rfl
@[simp] theorem Thread.setReg_saved (t : Thread) (r : Nat) (v : Word) : (t.setReg r v).saved = t.saved := rfl
@[simp] theorem Thread.setReg_yieldNext (t : Thread) (r : Nat) (v : Word) : (t.setReg r v).yieldNext = t.yieldNext := rfl
@[simp] theorem Thread.setReg_savedYield (t : Thread) (r : Nat) (v : Word) : (t.setReg r v).savedYield = t.savedYield := rfl
@[simp] theorem Thread.setReg_phaseOps (t : Thread) (r : Nat) (v : Word) : (t.setReg r v).phaseOps = t.phaseOps := rfl
@[simp] theorem Thread.setReg_queue (t : Thread) (r : Nat) (v : Word) : (t.setReg r v).queue = t.queue := rfl
@[simp] theorem Thread.setReg_relFence (t : Thread) (r : Nat) (v : Word) : (t.setReg r v).relFence = t.relFence := rfl
@[simp] theorem Thread.setReg_relSeen (t : Thread) (r : Nat) (v : Word) : (t.setReg r v).relSeen = t.relSeen := rfl
@[simp] theorem Thread.setReg_loadAfter (t : Thread) (r : Nat) (v : Word) : (t.setReg r v).loadAfter = t.loadAfter := rfl
@[simp] theorem Thread.setReg_gmem (t : Thread) (r : Nat) (v : Word) : (t.setReg r v).gmem = t.gmem := rfl
@[simp] theorem Thread.setReg_taskpri (t : Thread) (r : Nat) (v : Word) : (t.setReg r v).taskpri = t.taskpri := rfl
@[simp] theorem Thread.setReg_parmb (t : Thread) (r : Nat) (v : Word) : (t.setReg r v).parmb = t.parmb := rfl
@[simp] theorem Thread.setReg_parm (t : Thread) (r : Nat) (v : Word) : (t.setReg r v).parm = t.parm := rfl
@[simp] theorem Thread.setReg_tvec (t : Thread) (r : Nat) (v : Word) : (t.setReg r v).tvec = t.tvec := rfl
@[simp] theorem Thread.setReg_tcause (t : Thread) (r : Nat) (v : Word) : (t.setReg r v).tcause = t.tcause := rfl
@[simp] theorem Thread.setReg_tpc (t : Thread) (r : Nat) (v : Word) : (t.setReg r v).tpc = t.tpc := rfl
@[simp] theorem Thread.setReg_tinfo (t : Thread) (r : Nat) (v : Word) : (t.setReg r v).tinfo = t.tinfo := rfl
@[simp] theorem Thread.setReg_inh (t : Thread) (r : Nat) (v : Word) : (t.setReg r v).inh = t.inh := rfl
@[simp] theorem Thread.setReg_wres (t : Thread) (r : Nat) (v : Word) : (t.setReg r v).wres = t.wres := rfl
@[simp] theorem Thread.setReg_dbg (t : Thread) (r : Nat) (v : Word) : (t.setReg r v).dbg = t.dbg := rfl
@[simp] theorem Thread.setReg_oob (t : Thread) (r : Nat) (v : Word) : (t.setReg r v).oob = t.oob := rfl
@[simp] theorem Thread.setReg_loob (t : Thread) (r : Nat) (v : Word) : (t.setReg r v).loob = t.loob := rfl
@[simp] theorem Thread.setReg_oobSeen (t : Thread) (r : Nat) (v : Word) : (t.setReg r v).oobSeen = t.oobSeen := rfl
@[simp] theorem Thread.setReg_ctx (t : Thread) (r : Nat) (v : Word) : (t.setReg r v).ctx = t.ctx := rfl
@[simp] theorem Thread.setReg_armst (t : Thread) (r : Nat) (v : Word) : (t.setReg r v).armst = t.armst := rfl
@[simp] theorem Thread.setReg_taskActive (t : Thread) (r : Nat) (v : Word) : (t.setReg r v).taskActive = t.taskActive := rfl
@[simp] theorem Thread.setReg_taskToken (t : Thread) (r : Nat) (v : Word) : (t.setReg r v).taskToken = t.taskToken := rfl
@[simp] theorem Thread.setReg_startTask (t : Thread) (r : Nat) (v : Word) : (t.setReg r v).startTask = t.startTask := rfl

/-! ### Thread.discard -/

@[simp] theorem Thread.discard_regs (t : Thread) : (t.discard).regs = t.regs := rfl
@[simp] theorem Thread.discard_ret (t : Thread) : (t.discard).ret = t.ret := rfl
@[simp] theorem Thread.discard_pc (t : Thread) : (t.discard).pc = t.pc := rfl
@[simp] theorem Thread.discard_mode (t : Thread) : (t.discard).mode = t.mode := rfl
@[simp] theorem Thread.discard_first (t : Thread) : (t.discard).first = t.first := rfl
@[simp] theorem Thread.discard_blk (t : Thread) : (t.discard).blk = none := rfl
@[simp] theorem Thread.discard_seq (t : Thread) : (t.discard).seq = t.seq + 1 := rfl
@[simp] theorem Thread.discard_nextId (t : Thread) : (t.discard).nextId = t.nextId := rfl
@[simp] theorem Thread.discard_pend (t : Thread) : (t.discard).pend = t.pend := rfl
@[simp] theorem Thread.discard_pops (t : Thread) : (t.discard).pops = t.pops := rfl
@[simp] theorem Thread.discard_push (t : Thread) : (t.discard).push = t.push := rfl
@[simp] theorem Thread.discard_pop (t : Thread) : (t.discard).pop = t.pop := rfl
@[simp] theorem Thread.discard_popOcc (t : Thread) : (t.discard).popOcc = t.popOcc := rfl
@[simp] theorem Thread.discard_asyncQ (t : Thread) : (t.discard).asyncQ = t.asyncQ := rfl
@[simp] theorem Thread.discard_lost (t : Thread) : (t.discard).lost = t.lost := rfl
@[simp] theorem Thread.discard_wait (t : Thread) : (t.discard).wait = t.wait := rfl
@[simp] theorem Thread.discard_saved (t : Thread) : (t.discard).saved = t.saved := rfl
@[simp] theorem Thread.discard_yieldNext (t : Thread) : (t.discard).yieldNext = t.yieldNext := rfl
@[simp] theorem Thread.discard_savedYield (t : Thread) : (t.discard).savedYield = t.savedYield := rfl
@[simp] theorem Thread.discard_phaseOps (t : Thread) : (t.discard).phaseOps = t.phaseOps := rfl
@[simp] theorem Thread.discard_queue (t : Thread) : (t.discard).queue = t.queue := rfl
@[simp] theorem Thread.discard_relFence (t : Thread) : (t.discard).relFence = t.relFence := rfl
@[simp] theorem Thread.discard_relSeen (t : Thread) : (t.discard).relSeen = t.relSeen := rfl
@[simp] theorem Thread.discard_loadAfter (t : Thread) : (t.discard).loadAfter = t.loadAfter := rfl
@[simp] theorem Thread.discard_gmem (t : Thread) : (t.discard).gmem = t.gmem := rfl
@[simp] theorem Thread.discard_taskpri (t : Thread) : (t.discard).taskpri = t.taskpri := rfl
@[simp] theorem Thread.discard_parmb (t : Thread) : (t.discard).parmb = t.parmb := rfl
@[simp] theorem Thread.discard_parm (t : Thread) : (t.discard).parm = t.parm := rfl
@[simp] theorem Thread.discard_tvec (t : Thread) : (t.discard).tvec = t.tvec := rfl
@[simp] theorem Thread.discard_tcause (t : Thread) : (t.discard).tcause = t.tcause := rfl
@[simp] theorem Thread.discard_tpc (t : Thread) : (t.discard).tpc = t.tpc := rfl
@[simp] theorem Thread.discard_tinfo (t : Thread) : (t.discard).tinfo = t.tinfo := rfl
@[simp] theorem Thread.discard_inh (t : Thread) : (t.discard).inh = t.inh := rfl
@[simp] theorem Thread.discard_wres (t : Thread) : (t.discard).wres = t.wres := rfl
@[simp] theorem Thread.discard_dbg (t : Thread) : (t.discard).dbg = t.dbg := rfl
@[simp] theorem Thread.discard_oob (t : Thread) : (t.discard).oob = t.oob := rfl
@[simp] theorem Thread.discard_loob (t : Thread) : (t.discard).loob = t.loob := rfl
@[simp] theorem Thread.discard_oobSeen (t : Thread) : (t.discard).oobSeen = t.oobSeen := rfl
@[simp] theorem Thread.discard_ctx (t : Thread) : (t.discard).ctx = t.ctx := rfl
@[simp] theorem Thread.discard_armst (t : Thread) : (t.discard).armst = t.armst := rfl
@[simp] theorem Thread.discard_taskActive (t : Thread) : (t.discard).taskActive = t.taskActive := rfl
@[simp] theorem Thread.discard_taskToken (t : Thread) : (t.discard).taskToken = t.taskToken := rfl
@[simp] theorem Thread.discard_startTask (t : Thread) : (t.discard).startTask = t.startTask := rfl

/-! ### Cast.modSite -/

@[simp] theorem Cast.modSite_uid (k : Cast) (n : Nat) (f : Site → Site) : (k.modSite n f).uid = k.uid := rfl
@[simp] theorem Cast.modSite_tenant (k : Cast) (n : Nat) (f : Site → Site) : (k.modSite n f).tenant = k.tenant := rfl
@[simp] theorem Cast.modSite_bx (k : Cast) (n : Nat) (f : Site → Site) : (k.modSite n f).bx = k.bx := rfl
@[simp] theorem Cast.modSite_by_ (k : Cast) (n : Nat) (f : Site → Site) : (k.modSite n f).by_ = k.by_ := rfl
@[simp] theorem Cast.modSite_wb (k : Cast) (n : Nat) (f : Site → Site) : (k.modSite n f).wb = k.wb := rfl
@[simp] theorem Cast.modSite_hb (k : Cast) (n : Nat) (f : Site → Site) : (k.modSite n f).hb = k.hb := rfl
@[simp] theorem Cast.modSite_frozen (k : Cast) (n : Nat) (f : Site → Site) : (k.modSite n f).frozen = k.frozen := rfl
@[simp] theorem Cast.modSite_frozenAt (k : Cast) (n : Nat) (f : Site → Site) : (k.modSite n f).frozenAt = k.frozenAt := rfl
@[simp] theorem Cast.modSite_saving (k : Cast) (n : Nat) (f : Site → Site) : (k.modSite n f).saving = k.saving := rfl
@[simp] theorem Cast.modSite_held (k : Cast) (n : Nat) (f : Site → Site) : (k.modSite n f).held = k.held := rfl
@[simp] theorem Cast.modSite_mould (k : Cast) (n : Nat) (f : Site → Site) : (k.modSite n f).mould = k.mould := rfl
@[simp] theorem Cast.modSite_imgVa (k : Cast) (n : Nat) (f : Site → Site) : (k.modSite n f).imgVa = k.imgVa := rfl
@[simp] theorem Cast.modSite_aff (k : Cast) (n : Nat) (f : Site → Site) : (k.modSite n f).aff = k.aff := rfl
@[simp] theorem Cast.modSite_variant (k : Cast) (n : Nat) (f : Site → Site) : (k.modSite n f).variant = k.variant := rfl
@[simp] theorem Cast.modSite_th (k : Cast) (n : Nat) (f : Site → Site) : (k.modSite n f).th = k.th := rfl
@[simp] theorem Cast.modSite_ports (k : Cast) (n : Nat) (f : Site → Site) : (k.modSite n f).ports = k.ports := rfl
@[simp] theorem Cast.modSite_phase (k : Cast) (n : Nat) (f : Site → Site) : (k.modSite n f).phase = k.phase := rfl
@[simp] theorem Cast.modSite_argFlight (k : Cast) (n : Nat) (f : Site → Site) : (k.modSite n f).argFlight = k.argFlight := rfl
@[simp] theorem Cast.modSite_popAbsorbed (k : Cast) (n : Nat) (f : Site → Site) : (k.modSite n f).popAbsorbed = k.popAbsorbed := rfl
@[simp] theorem Cast.modSite_popErr (k : Cast) (n : Nat) (f : Site → Site) : (k.modSite n f).popErr = k.popErr := rfl
@[simp] theorem Cast.modSite_pushSent (k : Cast) (n : Nat) (f : Site → Site) : (k.modSite n f).pushSent = k.pushSent := rfl
@[simp] theorem Cast.modSite_pushNext (k : Cast) (n : Nat) (f : Site → Site) : (k.modSite n f).pushNext = k.pushNext := rfl
@[simp] theorem Cast.modSite_sites (k : Cast) (n : Nat) (f : Site → Site) : (k.modSite n f).sites = k.sites.put n (f (k.site n)) := rfl
@[simp] theorem Cast.modSite_chans (k : Cast) (n : Nat) (f : Site → Site) : (k.modSite n f).chans = k.chans := rfl
@[simp] theorem Cast.modSite_leaving (k : Cast) (n : Nat) (f : Site → Site) : (k.modSite n f).leaving = k.leaving := rfl
@[simp] theorem Cast.modSite_gone (k : Cast) (n : Nat) (f : Site → Site) : (k.modSite n f).gone = k.gone := rfl
@[simp] theorem Cast.modSite_detached (k : Cast) (n : Nat) (f : Site → Site) : (k.modSite n f).detached = k.detached := rfl
@[simp] theorem Cast.modSite_lease (k : Cast) (n : Nat) (f : Site → Site) : (k.modSite n f).lease = k.lease := rfl
@[simp] theorem Cast.modSite_stage (k : Cast) (n : Nat) (f : Site → Site) : (k.modSite n f).stage = k.stage := rfl
@[simp] theorem Cast.modSite_deque (k : Cast) (n : Nat) (f : Site → Site) : (k.modSite n f).deque = k.deque := rfl
@[simp] theorem Cast.modSite_fifo (k : Cast) (n : Nat) (f : Site → Site) : (k.modSite n f).fifo = k.fifo := rfl
@[simp] theorem Cast.modSite_task (k : Cast) (n : Nat) (f : Site → Site) : (k.modSite n f).task = k.task := rfl
@[simp] theorem Cast.modSite_susp (k : Cast) (n : Nat) (f : Site → Site) : (k.modSite n f).susp = k.susp := rfl
@[simp] theorem Cast.modSite_slot (k : Cast) (n : Nat) (f : Site → Site) : (k.modSite n f).slot = k.slot := rfl
@[simp] theorem Cast.modSite_idleAt (k : Cast) (n : Nat) (f : Site → Site) : (k.modSite n f).idleAt = k.idleAt := rfl
@[simp] theorem Cast.modSite_hang (k : Cast) (n : Nat) (f : Site → Site) : (k.modSite n f).hang = k.hang := rfl
@[simp] theorem Cast.modSite_progress (k : Cast) (n : Nat) (f : Site → Site) : (k.modSite n f).progress = k.progress := rfl
@[simp] theorem Cast.modSite_busy (k : Cast) (n : Nat) (f : Site → Site) : (k.modSite n f).busy = k.busy := rfl
@[simp] theorem Cast.modSite_switching (k : Cast) (n : Nat) (f : Site → Site) : (k.modSite n f).switching = k.switching := rfl
@[simp] theorem Cast.modSite_switchTo (k : Cast) (n : Nat) (f : Site → Site) : (k.modSite n f).switchTo = k.switchTo := rfl
@[simp] theorem Cast.modSite_outSince (k : Cast) (n : Nat) (f : Site → Site) : (k.modSite n f).outSince = k.outSince := rfl

end Sys2Proof.Machine
end

