-- ==== Sys2Proof/Laws/Table.lean ====
section
/-!
SUPPORT. Laws of sparse tables: what a read after a change gives, and that changes keep the canonical form.
-/
namespace Sys2Proof.Machine

variable {α : Type}

@[simp] theorem Tbl.find_nil (n : Nat) : Tbl.find ([] : Tbl α) n = none := rfl
@[simp] theorem Tbl.get_nil (d : α) (n : Nat) : Tbl.get d ([] : Tbl α) n = d := rfl

theorem Tbl.get_eq_find (d : α) (t : Tbl α) (n : Nat) : t.get d n = (t.find n).getD d := by
  induction t with
  | nil => rfl
  | cons e t ih =>
    simp only [Tbl.get, Tbl.find]
    split <;> simp_all

theorem Tbl.find_del (t : Tbl α) (n k : Nat) : (t.del n).find k = if k = n then none else t.find k := by
  induction t with
  | nil => simp [Tbl.del]
  | cons e t ih =>
    simp only [Tbl.del]
    by_cases h : n = e.1
    · rw [if_pos h, ih]
      simp only [Tbl.find]
      by_cases hk : k = n
      · simp [hk]
      · rw [if_neg hk, if_neg hk, if_neg (fun c => hk (c.trans h.symm))]
    · rw [if_neg h]
      simp only [Tbl.find, ih]
      by_cases hk : k = e.1
      · rw [if_pos hk, if_neg (fun c => h (c.symm.trans hk)), if_pos hk]
      · rw [if_neg hk, if_neg hk]

theorem Tbl.find_ins (t : Tbl α) (n k : Nat) (x : α) (h : Tbl.find t n = none) :
    (t.ins n x).find k = if k = n then some x else t.find k := by
  induction t with
  | nil => simp [Tbl.ins, Tbl.find]
  | cons e t ih =>
    have hn : ¬ n = e.1 := fun c => by simp [Tbl.find, c] at h
    have ht : Tbl.find t n = none := by simpa [Tbl.find, hn] using h
    simp only [Tbl.ins]
    split
    · simp [Tbl.find]
    · simp only [Tbl.find, ih ht]
      by_cases hk : k = e.1
      · rw [if_pos hk, if_neg (fun c => hn (c.symm.trans hk)), if_pos hk]
      · rw [if_neg hk, if_neg hk]

/-- A read after a put. -/
theorem Tbl.find_put (t : Tbl α) (n k : Nat) (x : α) : (t.put n x).find k = if k = n then some x else t.find k := by
  rw [Tbl.put, Tbl.find_ins _ _ _ _ (by simp [Tbl.find_del]), Tbl.find_del]
  split <;> rfl

theorem Tbl.get_put (d : α) (t : Tbl α) (n k : Nat) (x : α) : (t.put n x).get d k = if k = n then x else t.get d k := by
  simp only [Tbl.get_eq_find, Tbl.find_put]
  split <;> rfl

/-- A read after a set. -/
theorem Tbl.get_set [DecidableEq α] (d : α) (t : Tbl α) (n k : Nat) (x : α) :
    (t.set d n x).get d k = if k = n then x else t.get d k := by
  simp only [Tbl.set]
  split
  · next h => simp only [Tbl.get_eq_find, Tbl.find_del, h]; split <;> rfl
  · exact Tbl.get_put d t n k x

/-- A read after the change of a listed entry. -/
theorem Tbl.find_upd (t : Tbl α) (n k : Nat) (f : α → α) :
    (t.upd n f).find k = if k = n then (t.find k).map f else t.find k := by
  induction t with
  | nil => simp [Tbl.upd]
  | cons e t ih =>
    simp only [Tbl.upd]
    by_cases h : n = e.1
    · rw [if_pos h]
      simp only [Tbl.find, ih]
      by_cases hk : k = e.1 <;> simp [hk, h]
    · rw [if_neg h]
      simp only [Tbl.find, ih]
      by_cases hk : k = e.1
      · simp [hk, Ne.symm h]
      · simp [hk]

@[simp] theorem Tbl.find_upd_self (t : Tbl α) (n : Nat) (f : α → α) : (t.upd n f).find n = (t.find n).map f := by
  simp [Tbl.find_upd]

/-- Two changes of one entry are one. -/
theorem Tbl.upd_upd (t : Tbl α) (n : Nat) (f g : α → α) : (t.upd n f).upd n g = t.upd n fun x => g (f x) := by
  induction t with
  | nil => rfl
  | cons e t ih =>
    simp only [Tbl.upd]
    by_cases h : n = e.1
    · subst h; simp [Tbl.upd, ih]
    · simp [Tbl.upd, h, ih]

/-! ### The canonical form -/

variable [DecidableEq α]

theorem Tbl.wfFrom_mono {d : α} {lo lo' : Nat} {t : Tbl α} (h : lo' ≤ lo) (w : Tbl.wfFrom d lo t = true) :
    Tbl.wfFrom d lo' t = true := by
  cases t with
  | nil => rfl
  | cons e t =>
    simp only [Tbl.wfFrom, Bool.and_eq_true, decide_eq_true_eq] at w ⊢
    exact ⟨⟨by omega, w.1.2⟩, w.2⟩

theorem Tbl.wfFrom_del {d : α} {lo : Nat} {t : Tbl α} (n : Nat) (w : Tbl.wfFrom d lo t = true) :
    Tbl.wfFrom d lo (t.del n) = true := by
  induction t generalizing lo with
  | nil => rfl
  | cons e t ih =>
    simp only [Tbl.wfFrom, Bool.and_eq_true, decide_eq_true_eq] at w
    simp only [Tbl.del]
    split
    · exact ih (Tbl.wfFrom_mono (by omega) w.2)
    · simp only [Tbl.wfFrom, Bool.and_eq_true, decide_eq_true_eq]
      exact ⟨w.1, ih w.2⟩

theorem Tbl.wfFrom_ins {d x : α} {lo n : Nat} {t : Tbl α} (w : Tbl.wfFrom d lo t = true) (hx : x ≠ d) (hlo : lo ≤ n)
    (hn : Tbl.find t n = none) : Tbl.wfFrom d lo (t.ins n x) = true := by
  induction t generalizing lo with
  | nil => simp [Tbl.ins, Tbl.wfFrom, hx, hlo]
  | cons e t ih =>
    simp only [Tbl.wfFrom, Bool.and_eq_true, decide_eq_true_eq] at w
    have hne : ¬ n = e.1 := fun c => by simp [Tbl.find, c] at hn
    have ht : Tbl.find t n = none := by simpa [Tbl.find, hne] using hn
    simp only [Tbl.ins]
    split
    · simp only [Tbl.wfFrom, Bool.and_eq_true, decide_eq_true_eq]
      exact ⟨⟨hlo, hx⟩, ⟨by omega, w.1.2⟩, w.2⟩
    · simp only [Tbl.wfFrom, Bool.and_eq_true, decide_eq_true_eq]
      exact ⟨w.1, ih w.2 (by omega) ht⟩

/-- A set keeps the canonical form. -/
theorem Tbl.wf_set {d : α} {t : Tbl α} (n : Nat) (x : α) (w : Tbl.wf d t = true) : Tbl.wf d (t.set d n x) = true := by
  simp only [Tbl.set]
  split
  · exact Tbl.wfFrom_del n w
  · next h => exact Tbl.wfFrom_ins (Tbl.wfFrom_del n w) h (Nat.zero_le _) (by simp [Tbl.find_del])

/-- No key below the lowest is listed. -/
theorem Tbl.wfFrom_find_lt {d : α} {lo n : Nat} {t : Tbl α} (w : Tbl.wfFrom d lo t = true) (h : n < lo) : t.find n = none := by
  induction t generalizing lo with
  | nil => rfl
  | cons e t ih =>
    simp only [Tbl.wfFrom, Bool.and_eq_true, decide_eq_true_eq] at w
    rw [Tbl.find, if_neg (by omega)]
    exact ih w.2 (by omega)

end Sys2Proof.Machine
end

