-- ==== Sys2Proof/Laws/Ops.lean ====
section
/-!
SUPPORT. What the shared operations of a control thread do: the slot at the cursor, traps, commits.
-/
namespace Sys2Proof.Machine

/-! ### Changes of a cast -/

/-- Two changes of one cast are one. -/
theorem Dev.modCast_modCast (d : Dev) (c : Nat) (f g : Cast → Cast) :
    (d.modCast c f).modCast c g = d.modCast c fun k => g (f k) := by
  simp [Dev.modCast, Tbl.upd_upd]

/-- Two changes of one thread are one. -/
theorem Dev.modTh_modTh (d : Dev) (c : Nat) (f g : Thread → Thread) :
    (d.modTh c f).modTh c g = d.modTh c fun t => g (f t) := by
  simp [Dev.modTh, Dev.modCast_modCast]

/-- Two changes of a block are one. -/
theorem Thread.modBlk_modBlk (t : Thread) (f g : Block → Block) :
    (t.modBlk f).modBlk g = t.modBlk fun b => g (f b) := by
  simp [Thread.modBlk, Function.comp_def]

/-! ### The slot at the cursor -/

/-- A ready slot runs its continuation, with the cursor gone. -/
theorem fire_on {i : Instr} {s : State} {c n : Nat} {k : Cast} {b : Block} {sl : Slot} {x y z : Word} (f : Dev → Shot → Dev)
    (hcur : s.dev.cursor = some (c, n)) (hc : s.dev.casts.find c = some k) (hb : k.th.blk = some b)
    (hs : b.slots[n]? = some sl) (hi : sl.phase = .idle) (hr : sl.ready (predOf i) (usesOf i) = .on x y z) :
    fire i s f = .next { s with dev := f { s.dev with cursor := none } ⟨c, n, k, b, sl, x, y, z⟩ } := by
  simp [fire, hcur, hc, hb, hs, hi, hr]

/-- A slot predicated off is settled, and its block may be complete. -/
theorem fire_off {i : Instr} {s : State} {c n : Nat} {k : Cast} {b : Block} {sl : Slot} (f : Dev → Shot → Dev)
    (hcur : s.dev.cursor = some (c, n)) (hc : s.dev.casts.find c = some k) (hb : k.th.blk = some b)
    (hs : b.slots[n]? = some sl) (hi : sl.phase = .idle) (hr : sl.ready (predOf i) (usesOf i) = .off) :
    fire i s f = .next { s with dev := (Dev.settleOff { s.dev with cursor := none } i c n b.seq).tryCommit c } := by
  simp [fire, hcur, hc, hb, hs, hi, hr]

/-- A slot that is not ready is left as it is. -/
theorem fire_wait {i : Instr} {s : State} {c n : Nat} {k : Cast} {b : Block} {sl : Slot} (f : Dev → Shot → Dev)
    (hcur : s.dev.cursor = some (c, n)) (hc : s.dev.casts.find c = some k) (hb : k.th.blk = some b)
    (hs : b.slots[n]? = some sl) (hr : sl.ready (predOf i) (usesOf i) = .no) :
    fire i s f = .next { s with dev := { s.dev with cursor := none } } := by
  by_cases hi : sl.phase = .idle <;> simp [fire, hcur, hc, hb, hs, hi, hr]

/-- A slot answers a next state, and memory stands as it was. -/
theorem fire_next (i : Instr) (s : State) (f : Dev → Shot → Dev) : ∃ d, fire i s f = .next { s with dev := d } := by
  simp only [fire]
  split
  · exact ⟨s.dev, rfl⟩
  · split
    · exact ⟨_, rfl⟩
    · split
      · exact ⟨_, rfl⟩
      · split
        · exact ⟨_, rfl⟩
        · split
          · split <;> exact ⟨_, rfl⟩
          · exact ⟨_, rfl⟩

end Sys2Proof.Machine
end

