-- ==== Sys2Proof/Laws/Memory.lean ====
section
/-!
SUPPORT. Laws of memory: what reads give after writes, that every write keeps the canonical form, and what reads, walks and
translations leave of the device.
-/
namespace Sys2Proof.Machine

/-! ### Bytes -/

/-- A byte after a write: of the data within its range, as before elsewhere. -/
theorem Memory.byte_write (m : Memory) (pa a : Nat) (bs : List Byte) :
    (m.write pa bs).byte a = if pa ≤ a ∧ a < pa + bs.length then bs.getD (a - pa) 0 else m.byte a := by
  induction bs generalizing m pa with
  | nil => simp only [Memory.write, List.length_nil]; rw [if_neg (by omega)]
  | cons b bs ih =>
    rw [Memory.write, ih]
    simp only [Memory.byte, Tbl.get_set, List.length_cons]
    by_cases h1 : pa + 1 ≤ a ∧ a < pa + 1 + bs.length
    · rw [if_pos h1, if_pos (by omega), show a - pa = a - (pa + 1) + 1 by omega, List.getD_cons_succ]
    · rw [if_neg h1]
      by_cases h2 : a = pa
      · subst h2; simp
      · rw [if_neg h2, if_neg (by omega)]

/-- Bytes outside the range of a write stand as they were. -/
theorem Memory.byte_write_outside {m : Memory} {pa a : Nat} {bs : List Byte} (h : a < pa ∨ pa + bs.length ≤ a) :
    (m.write pa bs).byte a = m.byte a := by
  rw [Memory.byte_write, if_neg (by omega)]

/-- A read of what has just been written gives it back. -/
theorem Memory.read_write (m : Memory) (pa : Nat) (bs : List Byte) : (m.write pa bs).read pa bs.length = bs := by
  apply List.ext_getElem
  · simp [Memory.read]
  · intro i h1 h2
    simp only [Memory.read, List.getElem_map, List.getElem_range, Memory.byte_write]
    rw [if_pos (by omega), Nat.add_sub_cancel_left, List.getD_eq_getElem?_getD, List.getElem?_eq_getElem h2, Option.getD_some]

/-- A write keeps the canonical form. -/
theorem Memory.wf_write {m : Memory} (pa : Nat) (bs : List Byte) (h : m.wf = true) : (m.write pa bs).wf = true := by
  induction bs generalizing m pa with
  | nil => exact h
  | cons b bs ih => exact ih _ (Tbl.wf_set _ _ h)

/-- A write within one line keeps the canonical form, whether it is made, denied or dropped. -/
@[simp] theorem writeAt_wf {s : State} (tenant pa : Nat) (data : List Byte) (h : s.mem.wf = true) :
    (writeAt s tenant pa data).mem.wf = true := by
  simp only [writeAt]
  split
  · split
    · split
      · split
        · exact Memory.wf_write _ _ h
        · refine Memory.wf_write _ _ ?_
          split
          · exact h
          · exact Memory.wf_write _ _ h
      · exact h
    · exact h
  · split
    · exact Memory.wf_write _ _ h
    · exact h

/-! ### What reads leave of the device -/

/-- A read leaves all of the device but fault-queue entries to be posted. -/
theorem Dev.read_frame (m : Memory) (d : Dev) (tenant pa len : Nat) :
    ∃ js, (Dev.read m d tenant pa len).2 = { d with jobs := d.jobs ++ js } := by
  simp only [Dev.read]
  split
  · split
    · exact ⟨[], by simp⟩
    · exact ⟨_, rfl⟩
  · split
    · exact ⟨[], by simp⟩
    · exact ⟨_, rfl⟩

/-- What a read gives depends on the ownership map, the keys, and the links alone. -/
theorem Dev.read_congr {d e : Dev} (m : Memory) (tenant pa len : Nat) (h1 : e.ualid = d.ualid) (h2 : e.omap = d.omap)
    (h3 : e.keySlots = d.keySlots) (h4 : e.lineKey = d.lineKey) (h5 : e.hostsel = d.hostsel) (h6 : e.pcieUp = d.pcieUp)
    (h7 : e.ualUp = d.ualUp) (h8 : e.uaroute = d.uaroute) : (Dev.read m e tenant pa len).1 = (Dev.read m d tenant pa len).1 := by
  have ho : e.ownPa pa = d.ownPa pa := by simp only [Dev.ownPa, h1]
  have hm : ∀ a, e.omapAt a = d.omapAt a := fun a => by simp only [Dev.omapAt, Dev.omapEntry, h2]
  have hk : ∀ a, e.keyAt a = d.keyAt a := fun a => by simp only [Dev.keyAt, h3, hm]
  have ha : ∀ a, e.admits tenant a = d.admits tenant a := fun a => by simp only [Dev.admits, hm, hk]
  have hw : ∀ a, e.writtenKey a = d.writtenKey a := fun a => by simp only [Dev.writtenKey, h4]
  have hp : ∀ a b, e.plainByte a b = d.plainByte a b := fun a b => by simp only [Dev.plainByte, hk, hw]
  have hl : ∀ a, e.linkUp a = d.linkUp a := fun a => by simp only [Dev.linkUp, h5, h6, h7, h8]
  simp only [Dev.read, ho, ha, hp, hl]
  split
  · split <;> rfl
  · split <;> rfl

/-- What a lookup of a page may leave behind: entries in the TLBs, fault-queue entries to be posted, and the walks that it made. -/
def TlbChange (d d' : Dev) : Prop :=
  ∃ p b l js ws, d' = { d with tlbPort := p, tlbBlock := b, tlbLast := l, jobs := d.jobs ++ js, walked := ws }

theorem TlbChange.refl (d : Dev) : TlbChange d d := ⟨d.tlbPort, d.tlbBlock, d.tlbLast, [], d.walked, by simp⟩

theorem TlbChange.trans {d e f : Dev} (h : TlbChange d e) (h' : TlbChange e f) : TlbChange d f := by
  obtain ⟨p, b, l, js, ws, rfl⟩ := h
  obtain ⟨p', b', l', js', ws', rfl⟩ := h'
  exact ⟨p', b', l', js ++ js', ws', by simp⟩

theorem Dev.read_tlbChange (m : Memory) (d : Dev) (tenant pa len : Nat) : TlbChange d (Dev.read m d tenant pa len).2 := by
  obtain ⟨js, h⟩ := Dev.read_frame m d tenant pa len
  exact ⟨_, _, _, js, _, h⟩

theorem Dev.readPte_tlbChange (m : Memory) (d : Dev) (table ix : Nat) : TlbChange d (Dev.readPte m d table ix).2 :=
  Dev.read_tlbChange ..

theorem walkFrom_tlbChange (m : Memory) (tenant va lvl : Nat) (d : Dev) (table : Nat) :
    TlbChange d (walkFrom m d tenant va lvl table).2 := by
  induction lvl generalizing d table with
  | zero =>
    unfold walkFrom
    have h := Dev.readPte_tlbChange m d table (va / 2 ^ (12 + 9 * 0) % 512)
    dsimp only
    split
    · exact h
    · contradiction
    · exact h
    · next e lvl _ _ =>
      repeat' split
      all_goals first
        | exact h
        | exact h.trans (Dev.readPte_tlbChange ..)
  | succ lvl ih =>
    unfold walkFrom
    have h := Dev.readPte_tlbChange m d table (va / 2 ^ (12 + 9 * (lvl + 1)) % 512)
    dsimp only
    split
    · exact h
    · next pa lvl' e1 e2 =>
      injection e2 with e2
      subst e2
      split
      · exact h
      · exact h.trans (ih ..)
    · contradiction
    · repeat' split
      all_goals first
        | exact h
        | exact h.trans (Dev.readPte_tlbChange ..)

theorem Dev.walk_tlbChange (m : Memory) (d : Dev) (die tenant va : Nat) : TlbChange d (Dev.walk m d die tenant va).2 := by
  unfold Dev.walk
  split
  · exact TlbChange.refl d
  · dsimp only
    split
    · exact TlbChange.refl d
    · exact TlbChange.trans ⟨d.tlbPort, d.tlbBlock, d.tlbLast, [], _, by simp; rfl⟩ (walkFrom_tlbChange ..)

/-- Entries in the TLBs alone. -/
theorem TlbChange.fill (d : Dev) (p b l : Tbl (List TlbEnt)) : TlbChange d { d with tlbPort := p, tlbBlock := b, tlbLast := l } :=
  ⟨p, b, l, [], d.walked, by simp⟩

theorem Dev.page_tlbChange (m : Memory) (d : Dev) (v : Via) (tenant va : Nat) : TlbChange d (Dev.page m d v tenant va).2 := by
  have hw := Dev.walk_tlbChange m d v.die tenant va
  obtain ⟨vp, vb, die⟩ := v
  cases vp <;> cases vb <;> unfold Dev.page <;> dsimp only
  all_goals
    split
    · exact TlbChange.refl d
    · split
      · exact TlbChange.fill ..
      · split
        · exact TlbChange.fill ..
        · split
          · next h => rw [h] at hw; exact hw
          · next h => rw [h] at hw; exact hw.trans (TlbChange.fill ..)

/-- A translation leaves all of the device but the TLBs and fault-queue entries to be posted. -/
theorem Dev.translate_tlbChange (m : Memory) (d : Dev) (v : Via) (tenant : Nat) (va : Word) (acc : Access) :
    TlbChange d (Dev.translate m d v tenant va acc).2 := by
  unfold Dev.translate
  split
  · exact TlbChange.refl d
  · split
    · split <;> exact TlbChange.refl d
    · have hp := Dev.page_tlbChange m d v tenant (field va 0 57)
      split
      · next h => rw [h] at hp; exact hp
      · next h =>
        rw [h] at hp
        split <;> exact hp

end Sys2Proof.Machine
end

