-- ==== Sys2Proof/Laws/Requests.lean ====
section
/-!
SUPPORT. What runs of bytes read through translation leave behind: TLB entries, and entries for fault queues.
-/
namespace Sys2Proof.Machine

theorem Dev.readOwn_tlbChange (m : Memory) (d : Dev) (agent : Agent) (tenant : Nat) (p : Placed) (die len : Nat) :
    TlbChange d (Dev.readOwn m d agent tenant p die len).2 := by
  simp only [Dev.readOwn]
  split <;> exact Dev.read_tlbChange ..

theorem Dev.readVa_tlbChange (m : Memory) (v : Via) (tenant : Nat) (agent : Agent) (fuel : Nat) (va : Word) (len : Nat) (d : Dev) :
    TlbChange d (Dev.readVa m v tenant agent fuel va len d).2 := by
  induction fuel generalizing va len d with
  | zero => exact TlbChange.refl d
  | succ fuel ih =>
    unfold Dev.readVa
    split
    · exact TlbChange.refl d
    · have ht := Dev.translate_tlbChange m d v tenant va .load
      dsimp only
      split
      · next h => rw [h] at ht; exact ht
      · next p d' h =>
        rw [h] at ht
        have hr := ht.trans (Dev.readOwn_tlbChange m d' agent p.tid p v.die (lineLeft va.toNat len))
        have hi := hr.trans (ih (va + BitVec.ofNat 64 (lineLeft va.toNat len)) (len - lineLeft va.toNat len) _)
        split <;> next h' => rw [h'] at hi; exact hi

theorem Dev.readRun_tlbChange (m : Memory) (d : Dev) (v : Via) (tenant : Nat) (va : Word) (len : Nat) (agent : Agent) :
    TlbChange d (Dev.readRun m d v tenant va len agent).2 :=
  Dev.readVa_tlbChange ..

end Sys2Proof.Machine
end

