-- ==== Sys2Proof/Laws/Slots.lean ====
section
/-!
SUPPORT. Every instruction of a control thread acts through the slot at the cursor: its meaning is what `fire` makes of its slot.
-/
namespace Sys2Proof.Machine

theorem execAdd_eq_fire (p : Pred) (b a : Target) (s : State) : ∃ g, execAdd p b a s = fire (.add p b a) s g := by
  unfold execAdd fireValue
  exact ⟨_, rfl⟩
theorem execSub_eq_fire (p : Pred) (b a : Target) (s : State) : ∃ g, execSub p b a s = fire (.sub p b a) s g := by
  unfold execSub fireValue
  exact ⟨_, rfl⟩
theorem execMul_eq_fire (p : Pred) (b a : Target) (s : State) : ∃ g, execMul p b a s = fire (.mul p b a) s g := by
  unfold execMul fireValue
  exact ⟨_, rfl⟩
theorem execMulhS_eq_fire (p : Pred) (b a : Target) (s : State) : ∃ g, execMulhS p b a s = fire (.mulhS p b a) s g := by
  unfold execMulhS fireValue
  exact ⟨_, rfl⟩
theorem execMulhU_eq_fire (p : Pred) (b a : Target) (s : State) : ∃ g, execMulhU p b a s = fire (.mulhU p b a) s g := by
  unfold execMulhU fireValue
  exact ⟨_, rfl⟩
theorem execMulhSu_eq_fire (p : Pred) (b a : Target) (s : State) : ∃ g, execMulhSu p b a s = fire (.mulhSu p b a) s g := by
  unfold execMulhSu fireValue
  exact ⟨_, rfl⟩
theorem execDivS_eq_fire (p : Pred) (b a : Target) (s : State) : ∃ g, execDivS p b a s = fire (.divS p b a) s g := by
  unfold execDivS fireValue
  exact ⟨_, rfl⟩
theorem execDivU_eq_fire (p : Pred) (b a : Target) (s : State) : ∃ g, execDivU p b a s = fire (.divU p b a) s g := by
  unfold execDivU fireValue
  exact ⟨_, rfl⟩
theorem execRemS_eq_fire (p : Pred) (b a : Target) (s : State) : ∃ g, execRemS p b a s = fire (.remS p b a) s g := by
  unfold execRemS fireValue
  exact ⟨_, rfl⟩
theorem execRemU_eq_fire (p : Pred) (b a : Target) (s : State) : ∃ g, execRemU p b a s = fire (.remU p b a) s g := by
  unfold execRemU fireValue
  exact ⟨_, rfl⟩
theorem execMinS_eq_fire (p : Pred) (b a : Target) (s : State) : ∃ g, execMinS p b a s = fire (.minS p b a) s g := by
  unfold execMinS fireValue
  exact ⟨_, rfl⟩
theorem execMinU_eq_fire (p : Pred) (b a : Target) (s : State) : ∃ g, execMinU p b a s = fire (.minU p b a) s g := by
  unfold execMinU fireValue
  exact ⟨_, rfl⟩
theorem execMaxS_eq_fire (p : Pred) (b a : Target) (s : State) : ∃ g, execMaxS p b a s = fire (.maxS p b a) s g := by
  unfold execMaxS fireValue
  exact ⟨_, rfl⟩
theorem execMaxU_eq_fire (p : Pred) (b a : Target) (s : State) : ∃ g, execMaxU p b a s = fire (.maxU p b a) s g := by
  unfold execMaxU fireValue
  exact ⟨_, rfl⟩
theorem execMadd_eq_fire (p : Pred) (b a : Target) (s : State) : ∃ g, execMadd p b a s = fire (.madd p b a) s g := by
  unfold execMadd fireValue
  exact ⟨_, rfl⟩
theorem execAddsh_eq_fire (p : Pred) (n : BitVec 4) (b a : Target) (s : State) : ∃ g, execAddsh p n b a s = fire (.addsh p n b a) s g := by
  unfold execAddsh fireValue
  exact ⟨_, rfl⟩
theorem execAnd_eq_fire (p : Pred) (b a : Target) (s : State) : ∃ g, execAnd p b a s = fire (.and p b a) s g := by
  unfold execAnd fireValue
  exact ⟨_, rfl⟩
theorem execOr_eq_fire (p : Pred) (b a : Target) (s : State) : ∃ g, execOr p b a s = fire (.or p b a) s g := by
  unfold execOr fireValue
  exact ⟨_, rfl⟩
theorem execXor_eq_fire (p : Pred) (b a : Target) (s : State) : ∃ g, execXor p b a s = fire (.xor p b a) s g := by
  unfold execXor fireValue
  exact ⟨_, rfl⟩
theorem execAndn_eq_fire (p : Pred) (b a : Target) (s : State) : ∃ g, execAndn p b a s = fire (.andn p b a) s g := by
  unfold execAndn fireValue
  exact ⟨_, rfl⟩
theorem execShl_eq_fire (p : Pred) (b a : Target) (s : State) : ∃ g, execShl p b a s = fire (.shl p b a) s g := by
  unfold execShl fireValue
  exact ⟨_, rfl⟩
theorem execShr_eq_fire (p : Pred) (b a : Target) (s : State) : ∃ g, execShr p b a s = fire (.shr p b a) s g := by
  unfold execShr fireValue
  exact ⟨_, rfl⟩
theorem execSar_eq_fire (p : Pred) (b a : Target) (s : State) : ∃ g, execSar p b a s = fire (.sar p b a) s g := by
  unfold execSar fireValue
  exact ⟨_, rfl⟩
theorem execCmp_eq_fire (p : Pred) (cc : Cond) (b a : Target) (s : State) : ∃ g, execCmp p cc b a s = fire (.cmp p cc b a) s g := by
  unfold execCmp fireValue
  exact ⟨_, rfl⟩
theorem execTstZ_eq_fire (p : Pred) (b a : Target) (s : State) : ∃ g, execTstZ p b a s = fire (.tstZ p b a) s g := by
  unfold execTstZ fireValue
  exact ⟨_, rfl⟩
theorem execTstNz_eq_fire (p : Pred) (b a : Target) (s : State) : ∃ g, execTstNz p b a s = fire (.tstNz p b a) s g := by
  unfold execTstNz fireValue
  exact ⟨_, rfl⟩
theorem execSel_eq_fire (p : Pred) (b a : Target) (s : State) : ∃ g, execSel p b a s = fire (.sel p b a) s g := by
  unfold execSel fireValue
  exact ⟨_, rfl⟩
theorem execClz_eq_fire (p : Pred) (b a : Target) (s : State) : ∃ g, execClz p b a s = fire (.clz p b a) s g := by
  unfold execClz fireValue
  exact ⟨_, rfl⟩
theorem execCtz_eq_fire (p : Pred) (b a : Target) (s : State) : ∃ g, execCtz p b a s = fire (.ctz p b a) s g := by
  unfold execCtz fireValue
  exact ⟨_, rfl⟩
theorem execPopc_eq_fire (p : Pred) (b a : Target) (s : State) : ∃ g, execPopc p b a s = fire (.popc p b a) s g := by
  unfold execPopc fireValue
  exact ⟨_, rfl⟩
theorem execBfxZ_eq_fire (p : Pred) (b a : Target) (s : State) : ∃ g, execBfxZ p b a s = fire (.bfxZ p b a) s g := by
  unfold execBfxZ fireValue
  exact ⟨_, rfl⟩
theorem execBfxS_eq_fire (p : Pred) (b a : Target) (s : State) : ∃ g, execBfxS p b a s = fire (.bfxS p b a) s g := by
  unfold execBfxS fireValue
  exact ⟨_, rfl⟩
theorem execBfi_eq_fire (p : Pred) (b a : Target) (s : State) : ∃ g, execBfi p b a s = fire (.bfi p b a) s g := by
  unfold execBfi fireValue
  exact ⟨_, rfl⟩
theorem execExt_eq_fire (p : Pred) (k : ExtKind) (b a : Target) (s : State) : ∃ g, execExt p k b a s = fire (.ext p k b a) s g := by
  unfold execExt fireValue
  exact ⟨_, rfl⟩
theorem execAddi_eq_fire (p : Pred) (im : BitVec 13) (t : Target) (s : State) : ∃ g, execAddi p im t s = fire (.addi p im t) s g := by
  unfold execAddi fireValue
  exact ⟨_, rfl⟩
theorem execMuli_eq_fire (p : Pred) (im : BitVec 13) (t : Target) (s : State) : ∃ g, execMuli p im t s = fire (.muli p im t) s g := by
  unfold execMuli fireValue
  exact ⟨_, rfl⟩
theorem execAndi_eq_fire (p : Pred) (im : BitVec 13) (t : Target) (s : State) : ∃ g, execAndi p im t s = fire (.andi p im t) s g := by
  unfold execAndi fireValue
  exact ⟨_, rfl⟩
theorem execOri_eq_fire (p : Pred) (im : BitVec 13) (t : Target) (s : State) : ∃ g, execOri p im t s = fire (.ori p im t) s g := by
  unfold execOri fireValue
  exact ⟨_, rfl⟩
theorem execXori_eq_fire (p : Pred) (im : BitVec 13) (t : Target) (s : State) : ∃ g, execXori p im t s = fire (.xori p im t) s g := by
  unfold execXori fireValue
  exact ⟨_, rfl⟩
theorem execShli_eq_fire (p : Pred) (n : BitVec 6) (t : Target) (s : State) : ∃ g, execShli p n t s = fire (.shli p n t) s g := by
  unfold execShli fireValue
  exact ⟨_, rfl⟩
theorem execShri_eq_fire (p : Pred) (n : BitVec 6) (t : Target) (s : State) : ∃ g, execShri p n t s = fire (.shri p n t) s g := by
  unfold execShri fireValue
  exact ⟨_, rfl⟩
theorem execSari_eq_fire (p : Pred) (n : BitVec 6) (t : Target) (s : State) : ∃ g, execSari p n t s = fire (.sari p n t) s g := by
  unfold execSari fireValue
  exact ⟨_, rfl⟩
theorem execCmpiEq_eq_fire (p : Pred) (im : BitVec 13) (t : Target) (s : State) : ∃ g, execCmpiEq p im t s = fire (.cmpiEq p im t) s g := by
  unfold execCmpiEq fireValue
  exact ⟨_, rfl⟩
theorem execCmpiNe_eq_fire (p : Pred) (im : BitVec 13) (t : Target) (s : State) : ∃ g, execCmpiNe p im t s = fire (.cmpiNe p im t) s g := by
  unfold execCmpiNe fireValue
  exact ⟨_, rfl⟩
theorem execCmpiLt_eq_fire (p : Pred) (im : BitVec 13) (t : Target) (s : State) : ∃ g, execCmpiLt p im t s = fire (.cmpiLt p im t) s g := by
  unfold execCmpiLt fireValue
  exact ⟨_, rfl⟩
theorem execCmpiGe_eq_fire (p : Pred) (im : BitVec 13) (t : Target) (s : State) : ∃ g, execCmpiGe p im t s = fire (.cmpiGe p im t) s g := by
  unfold execCmpiGe fireValue
  exact ⟨_, rfl⟩
theorem execCmpiLtu_eq_fire (p : Pred) (im : BitVec 13) (t : Target) (s : State) : ∃ g, execCmpiLtu p im t s = fire (.cmpiLtu p im t) s g := by
  unfold execCmpiLtu fireValue
  exact ⟨_, rfl⟩
theorem execCmpiGeu_eq_fire (p : Pred) (im : BitVec 13) (t : Target) (s : State) : ∃ g, execCmpiGeu p im t s = fire (.cmpiGeu p im t) s g := by
  unfold execCmpiGeu fireValue
  exact ⟨_, rfl⟩
theorem execGet_eq_fire (r : BitVec 6) (b a : Target) (s : State) : ∃ g, execGet r b a s = fire (.get r b a) s g := by
  unfold execGet
  exact ⟨_, rfl⟩
theorem execLit_eq_fire (c : LitCount) (b a : Target) (s : State) : ∃ g, execLit c b a s = fire (.lit c b a) s g := by
  unfold execLit
  exact ⟨_, rfl⟩
theorem execMov_eq_fire (p : Pred) (b a : Target) (s : State) : ∃ g, execMov p b a s = fire (.mov p b a) s g := by
  unfold execMov fireValue
  exact ⟨_, rfl⟩
theorem execMovi_eq_fire (p : Pred) (im : BitVec 13) (t : Target) (s : State) : ∃ g, execMovi p im t s = fire (.movi p im t) s g := by
  unfold execMovi fireValue
  exact ⟨_, rfl⟩
theorem execNull_eq_fire (p : Pred) (b a : Target) (s : State) : ∃ g, execNull p b a s = fire (.null p b a) s g := by
  unfold execNull
  exact ⟨_, rfl⟩
theorem execAdr_eq_fire (p : Pred) (im : BitVec 13) (t : Target) (s : State) : ∃ g, execAdr p im t s = fire (.adr p im t) s g := by
  unfold execAdr
  exact ⟨_, rfl⟩
theorem execLdZ8_eq_fire (p : Pred) (im : BitVec 13) (t : Target) (s : State) : ∃ g, execLdZ8 p im t s = fire (.ldZ8 p im t) s g := by
  unfold execLdZ8 fireLoad
  exact ⟨_, rfl⟩
theorem execLdS8_eq_fire (p : Pred) (im : BitVec 13) (t : Target) (s : State) : ∃ g, execLdS8 p im t s = fire (.ldS8 p im t) s g := by
  unfold execLdS8 fireLoad
  exact ⟨_, rfl⟩
theorem execLdZ16_eq_fire (p : Pred) (im : BitVec 13) (t : Target) (s : State) : ∃ g, execLdZ16 p im t s = fire (.ldZ16 p im t) s g := by
  unfold execLdZ16 fireLoad
  exact ⟨_, rfl⟩
theorem execLdS16_eq_fire (p : Pred) (im : BitVec 13) (t : Target) (s : State) : ∃ g, execLdS16 p im t s = fire (.ldS16 p im t) s g := by
  unfold execLdS16 fireLoad
  exact ⟨_, rfl⟩
theorem execLdZ32_eq_fire (p : Pred) (im : BitVec 13) (t : Target) (s : State) : ∃ g, execLdZ32 p im t s = fire (.ldZ32 p im t) s g := by
  unfold execLdZ32 fireLoad
  exact ⟨_, rfl⟩
theorem execLdS32_eq_fire (p : Pred) (im : BitVec 13) (t : Target) (s : State) : ∃ g, execLdS32 p im t s = fire (.ldS32 p im t) s g := by
  unfold execLdS32 fireLoad
  exact ⟨_, rfl⟩
theorem execLd64_eq_fire (p : Pred) (im : BitVec 13) (t : Target) (s : State) : ∃ g, execLd64 p im t s = fire (.ld64 p im t) s g := by
  unfold execLd64 fireLoad
  exact ⟨_, rfl⟩
theorem execLdx_eq_fire (p : Pred) (k : LoadKind) (b a : Target) (s : State) : ∃ g, execLdx p k b a s = fire (.ldx p k b a) s g := by
  unfold execLdx fireLoad
  exact ⟨_, rfl⟩
theorem execLdAcqZ32_eq_fire (p : Pred) (sc : Scope) (b a : Target) (s : State) : ∃ g, execLdAcqZ32 p sc b a s = fire (.ldAcqZ32 p sc b a) s g := by
  unfold execLdAcqZ32 fireLoad
  exact ⟨_, rfl⟩
theorem execLdAcq64_eq_fire (p : Pred) (sc : Scope) (b a : Target) (s : State) : ∃ g, execLdAcq64 p sc b a s = fire (.ldAcq64 p sc b a) s g := by
  unfold execLdAcq64 fireLoad
  exact ⟨_, rfl⟩
theorem execLdl_eq_fire (p : Pred) (k : LoadKind) (b a : Target) (s : State) : ∃ g, execLdl p k b a s = fire (.ldl p k b a) s g := by
  unfold execLdl
  exact ⟨_, rfl⟩
theorem execSt_eq_fire (p : Pred) (z : Size) (o : BitVec 20) (s : State) : ∃ g, execSt p z o s = fire (.st p z o) s g := by
  unfold execSt
  exact ⟨_, rfl⟩
theorem execStx_eq_fire (p : Pred) (z : Size) (s : State) : ∃ g, execStx p z s = fire (.stx p z) s g := by
  unfold execStx
  exact ⟨_, rfl⟩
theorem execStRel_eq_fire (p : Pred) (z : Size) (sc : Scope) (s : State) : ∃ g, execStRel p z sc s = fire (.stRel p z sc) s g := by
  unfold execStRel
  exact ⟨_, rfl⟩
theorem execStl_eq_fire (p : Pred) (z : Size) (s : State) : ∃ g, execStl p z s = fire (.stl p z) s g := by
  unfold execStl
  exact ⟨_, rfl⟩
theorem execFenceAcq_eq_fire (p : Pred) (sc : Scope) (s : State) : ∃ g, execFenceAcq p sc s = fire (.fenceAcq p sc) s g := by
  unfold execFenceAcq
  exact ⟨_, rfl⟩
theorem execFenceRel_eq_fire (p : Pred) (sc : Scope) (s : State) : ∃ g, execFenceRel p sc s = fire (.fenceRel p sc) s g := by
  unfold execFenceRel
  exact ⟨_, rfl⟩
theorem execFenceAr_eq_fire (p : Pred) (sc : Scope) (s : State) : ∃ g, execFenceAr p sc s = fire (.fenceAr p sc) s g := by
  unfold execFenceAr
  exact ⟨_, rfl⟩
theorem execBr_eq_fire (p : Pred) (o : BitVec 22) (s : State) : ∃ g, execBr p o s = fire (.br p o) s g := by
  unfold execBr
  exact ⟨_, rfl⟩
theorem execBrn_eq_fire (p : Pred) (s : State) : ∃ g, execBrn p s = fire (.brn p) s g := by
  unfold execBrn
  exact ⟨_, rfl⟩
theorem execBri_eq_fire (p : Pred) (s : State) : ∃ g, execBri p s = fire (.bri p) s g := by
  unfold execBri
  exact ⟨_, rfl⟩
theorem execCall_eq_fire (p : Pred) (o : BitVec 22) (s : State) : ∃ g, execCall p o s = fire (.call p o) s g := by
  unfold execCall
  exact ⟨_, rfl⟩
theorem execCalli_eq_fire (p : Pred) (s : State) : ∃ g, execCalli p s = fire (.calli p) s g := by
  unfold execCalli
  exact ⟨_, rfl⟩
theorem execRet_eq_fire (p : Pred) (s : State) : ∃ g, execRet p s = fire (.ret p) s g := by
  unfold execRet
  exact ⟨_, rfl⟩
theorem execBrcT_eq_fire (p : Pred) (o : BitVec 22) (s : State) : ∃ g, execBrcT p o s = fire (.brcT p o) s g := by
  unfold execBrcT
  exact ⟨_, rfl⟩
theorem execBrcF_eq_fire (p : Pred) (o : BitVec 22) (s : State) : ∃ g, execBrcF p o s = fire (.brcF p o) s g := by
  unfold execBrcF
  exact ⟨_, rfl⟩
theorem execStrmGo_eq_fire (p : Pred) (s : State) : ∃ g, execStrmGo p s = fire (.strmGo p) s g := by
  unfold execStrmGo
  exact ⟨_, rfl⟩
theorem execStrmPushData_eq_fire (p : Pred) (ch : BitVec 3) (s : State) : ∃ g, execStrmPushData p ch s = fire (.strmPushData p ch) s g := by
  unfold execStrmPushData firePush
  exact ⟨_, rfl⟩
theorem execStrmPushIndex_eq_fire (p : Pred) (ch : BitVec 3) (s : State) : ∃ g, execStrmPushIndex p ch s = fire (.strmPushIndex p ch) s g := by
  unfold execStrmPushIndex firePush
  exact ⟨_, rfl⟩
theorem execStrmPushStop_eq_fire (p : Pred) (lvl : BitVec 3) (ch : BitVec 3) (s : State) : ∃ g, execStrmPushStop p lvl ch s = fire (.strmPushStop p lvl ch) s g := by
  unfold execStrmPushStop firePush
  exact ⟨_, rfl⟩
theorem execStrmPushDone_eq_fire (p : Pred) (ch : BitVec 3) (s : State) : ∃ g, execStrmPushDone p ch s = fire (.strmPushDone p ch) s g := by
  unfold execStrmPushDone firePush
  exact ⟨_, rfl⟩
theorem execStrmPop_eq_fire (p : Pred) (ch : BitVec 3) (b a : Target) (s : State) : ∃ g, execStrmPop p ch b a s = fire (.strmPop p ch b a) s g := by
  unfold execStrmPop
  exact ⟨_, rfl⟩
theorem execArgSet_eq_fire (p : Pred) (ctx : BitVec 2) (y : BitVec 7) (x : BitVec 8) (s : State) : ∃ g, execArgSet p ctx y x s = fire (.argSet p ctx y x) s g := by
  unfold execArgSet
  exact ⟨_, rfl⟩
theorem execCtxSw_eq_fire (p : Pred) (ctx : BitVec 2) (s : State) : ∃ g, execCtxSw p ctx s = fire (.ctxSw p ctx) s g := by
  unfold execCtxSw
  exact ⟨_, rfl⟩
theorem execDrain_eq_fire (p : Pred) (s : State) : ∃ g, execDrain p s = fire (.drain p) s g := by
  unfold execDrain
  exact ⟨_, rfl⟩
theorem execStrmWait_eq_fire (p : Pred) (s : State) : ∃ g, execStrmWait p s = fire (.strmWait p) s g := by
  unfold execStrmWait
  exact ⟨_, rfl⟩
theorem execMxClaim_eq_fire (p : Pred) (a : Target) (s : State) : ∃ g, execMxClaim p a s = fire (.mxClaim p a) s g := by
  unfold execMxClaim
  exact ⟨_, rfl⟩
theorem execMxRel_eq_fire (p : Pred) (s : State) : ∃ g, execMxRel p s = fire (.mxRel p) s g := by
  unfold execMxRel
  exact ⟨_, rfl⟩
theorem execMxScale_eq_fire (p : Pred) (s : State) : ∃ g, execMxScale p s = fire (.mxScale p) s g := by
  unfold execMxScale
  exact ⟨_, rfl⟩
theorem execMxStat_eq_fire (p : Pred) (w : StatForm) (a : Target) (s : State) : ∃ g, execMxStat p w a s = fire (.mxStat p w a) s g := by
  unfold execMxStat
  exact ⟨_, rfl⟩
theorem execHndNew_eq_fire (p : Pred) (a : Target) (s : State) : ∃ g, execHndNew p a s = fire (.hndNew p a) s g := by
  unfold execHndNew
  exact ⟨_, rfl⟩
theorem execHndGive_eq_fire (p : Pred) (s : State) : ∃ g, execHndGive p s = fire (.hndGive p) s g := by
  unfold execHndGive
  exact ⟨_, rfl⟩
theorem execHndTake_eq_fire (p : Pred) (a : Target) (s : State) : ∃ g, execHndTake p a s = fire (.hndTake p a) s g := by
  unfold execHndTake
  exact ⟨_, rfl⟩
theorem execHndDrop_eq_fire (p : Pred) (s : State) : ∃ g, execHndDrop p s = fire (.hndDrop p) s g := by
  unfold execHndDrop
  exact ⟨_, rfl⟩
theorem execHndInfo_eq_fire (p : Pred) (b a : Target) (s : State) : ∃ g, execHndInfo p b a s = fire (.hndInfo p b a) s g := by
  unfold execHndInfo
  exact ⟨_, rfl⟩
theorem execPortRes_eq_fire (p : Pred) (act : Resume) (s : State) : ∃ g, execPortRes p act s = fire (.portRes p act) s g := by
  unfold execPortRes
  exact ⟨_, rfl⟩
theorem execGrpNew_eq_fire (p : Pred) (a : Target) (s : State) : ∃ g, execGrpNew p a s = fire (.grpNew p a) s g := by
  unfold execGrpNew
  exact ⟨_, rfl⟩
theorem execGrpJoin_eq_fire (p : Pred) (a : Target) (s : State) : ∃ g, execGrpJoin p a s = fire (.grpJoin p a) s g := by
  unfold execGrpJoin
  exact ⟨_, rfl⟩
theorem execGrpLeave_eq_fire (p : Pred) (s : State) : ∃ g, execGrpLeave p s = fire (.grpLeave p) s g := by
  unfold execGrpLeave
  exact ⟨_, rfl⟩
theorem execGrpFree_eq_fire (p : Pred) (s : State) : ∃ g, execGrpFree p s = fire (.grpFree p) s g := by
  unfold execGrpFree
  exact ⟨_, rfl⟩
theorem execGrpBar_eq_fire (p : Pred) (o : MemOrder) (sc : Scope) (s : State) : ∃ g, execGrpBar p o sc s = fire (.grpBar p o sc) s g := by
  unfold execGrpBar
  exact ⟨_, rfl⟩
theorem execGrpMark_eq_fire (p : Pred) (o : MemOrder) (sc : Scope) (s : State) : ∃ g, execGrpMark p o sc s = fire (.grpMark p o sc) s g := by
  unfold execGrpMark
  exact ⟨_, rfl⟩
theorem execWaitBit_eq_fire (p : Pred) (o : MemOrder) (sc : Scope) (s : State) : ∃ g, execWaitBit p o sc s = fire (.waitBit p o sc) s g := by
  unfold execWaitBit
  exact ⟨_, rfl⟩
theorem execWaitBitAll_eq_fire (p : Pred) (o : MemOrder) (sc : Scope) (s : State) : ∃ g, execWaitBitAll p o sc s = fire (.waitBitAll p o sc) s g := by
  unfold execWaitBitAll
  exact ⟨_, rfl⟩
theorem execWaitTok_eq_fire (p : Pred) (task : Bool) (mask : BitVec 8) (s : State) : ∃ g, execWaitTok p task mask s = fire (.waitTok p task mask) s g := by
  unfold execWaitTok
  exact ⟨_, rfl⟩
theorem execCpOpen_eq_fire (p : Pred) (a : Target) (s : State) : ∃ g, execCpOpen p a s = fire (.cpOpen p a) s g := by
  unfold execCpOpen
  exact ⟨_, rfl⟩
theorem execCpClose_eq_fire (p : Pred) (s : State) : ∃ g, execCpClose p s = fire (.cpClose p) s g := by
  unfold execCpClose
  exact ⟨_, rfl⟩
theorem execCpPush_eq_fire (p : Pred) (s : State) : ∃ g, execCpPush p s = fire (.cpPush p) s g := by
  unfold execCpPush
  exact ⟨_, rfl⟩
theorem execCpRes_eq_fire (p : Pred) (act : Resume) (s : State) : ∃ g, execCpRes p act s = fire (.cpRes p act) s g := by
  unfold execCpRes
  exact ⟨_, rfl⟩
theorem execCpBinit_eq_fire (p : Pred) (s : State) : ∃ g, execCpBinit p s = fire (.cpBinit p) s g := by
  unfold execCpBinit
  exact ⟨_, rfl⟩
theorem execCpBarv_eq_fire (p : Pred) (o : MemOrder) (sc : Scope) (s : State) : ∃ g, execCpBarv p o sc s = fire (.cpBarv p o sc) s g := by
  unfold execCpBarv
  exact ⟨_, rfl⟩
theorem execCpBwait_eq_fire (p : Pred) (o : MemOrder) (sc : Scope) (s : State) : ∃ g, execCpBwait p o sc s = fire (.cpBwait p o sc) s g := by
  unfold execCpBwait
  exact ⟨_, rfl⟩
theorem execAtomRlx_eq_fire (p : Pred) (sc : Scope) (b a : Target) (s : State) : ∃ g, execAtomRlx p sc b a s = fire (.atomRlx p sc b a) s g := by
  unfold execAtomRlx fireAtom
  exact ⟨_, rfl⟩
theorem execAtomAcq_eq_fire (p : Pred) (sc : Scope) (b a : Target) (s : State) : ∃ g, execAtomAcq p sc b a s = fire (.atomAcq p sc b a) s g := by
  unfold execAtomAcq fireAtom
  exact ⟨_, rfl⟩
theorem execAtomRel_eq_fire (p : Pred) (sc : Scope) (b a : Target) (s : State) : ∃ g, execAtomRel p sc b a s = fire (.atomRel p sc b a) s g := by
  unfold execAtomRel fireAtom
  exact ⟨_, rfl⟩
theorem execAtomAr_eq_fire (p : Pred) (sc : Scope) (b a : Target) (s : State) : ∃ g, execAtomAr p sc b a s = fire (.atomAr p sc b a) s g := by
  unfold execAtomAr fireAtom
  exact ⟨_, rfl⟩
theorem execCas_eq_fire (o : MemOrder) (p : Pred) (sc : Scope) (b a : Target) (s : State) : ∃ g, execCas o p sc b a s = fire (.cas o p sc b a) s g := by
  unfold execCas
  exact ⟨_, rfl⟩
theorem execRed_eq_fire (p : Pred) (z : Size) (f : AtomOp) (o : MemOrder) (sc : Scope) (s : State) : ∃ g, execRed p z f o sc s = fire (.red p z f o sc) s g := by
  unfold execRed
  exact ⟨_, rfl⟩
theorem execCntInit_eq_fire (p : Pred) (o : MemOrder) (sc : Scope) (s : State) : ∃ g, execCntInit p o sc s = fire (.cntInit p o sc) s g := by
  unfold execCntInit
  exact ⟨_, rfl⟩
theorem execCntDec_eq_fire (p : Pred) (o : MemOrder) (sc : Scope) (s : State) : ∃ g, execCntDec p o sc s = fire (.cntDec p o sc) s g := by
  unfold execCntDec
  exact ⟨_, rfl⟩
theorem execCntWait_eq_fire (p : Pred) (o : MemOrder) (sc : Scope) (s : State) : ∃ g, execCntWait p o sc s = fire (.cntWait p o sc) s g := by
  unfold execCntWait
  exact ⟨_, rfl⟩
theorem execCntFree_eq_fire (p : Pred) (s : State) : ∃ g, execCntFree p s = fire (.cntFree p) s g := by
  unfold execCntFree
  exact ⟨_, rfl⟩
theorem execTaskPut_eq_fire (p : Pred) (isLocal : Bool) (a : Target) (s : State) : ∃ g, execTaskPut p isLocal a s = fire (.taskPut p isLocal a) s g := by
  unfold execTaskPut
  exact ⟨_, rfl⟩
theorem execTaskSdef_eq_fire (p : Pred) (a : Target) (s : State) : ∃ g, execTaskSdef p a s = fire (.taskSdef p a) s g := by
  unfold execTaskSdef
  exact ⟨_, rfl⟩
theorem execTaskReg_eq_fire (p : Pred) (a : Target) (s : State) : ∃ g, execTaskReg p a s = fire (.taskReg p a) s g := by
  unfold execTaskReg
  exact ⟨_, rfl⟩
theorem execTaskUnreg_eq_fire (p : Pred) (s : State) : ∃ g, execTaskUnreg p s = fire (.taskUnreg p) s g := by
  unfold execTaskUnreg
  exact ⟨_, rfl⟩
theorem execTaskInfo_eq_fire (p : Pred) (a : Target) (s : State) : ∃ g, execTaskInfo p a s = fire (.taskInfo p a) s g := by
  unfold execTaskInfo
  exact ⟨_, rfl⟩
theorem execPlReq_eq_fire (p : Pred) (a : Target) (s : State) : ∃ g, execPlReq p a s = fire (.plReq p a) s g := by
  unfold execPlReq
  exact ⟨_, rfl⟩
theorem execLeaseRel_eq_fire (p : Pred) (s : State) : ∃ g, execLeaseRel p s = fire (.leaseRel p) s g := by
  unfold execLeaseRel
  exact ⟨_, rfl⟩
theorem execTrap_eq_fire (p : Pred) (code : BitVec 16) (s : State) : ∃ g, execTrap p code s = fire (.trap p code) s g := by
  unfold execTrap
  exact ⟨_, rfl⟩
theorem execEret_eq_fire (p : Pred) (s : State) : ∃ g, execEret p s = fire (.eret p) s g := by
  unfold execEret
  exact ⟨_, rfl⟩
theorem execSysrd_eq_fire (p : Pred) (r : SysReg) (t : Target) (s : State) : ∃ g, execSysrd p r t s = fire (.sysrd p r t) s g := by
  unfold execSysrd
  exact ⟨_, rfl⟩
theorem execSyswr_eq_fire (p : Pred) (r : SysReg) (s : State) : ∃ g, execSyswr p r s = fire (.syswr p r) s g := by
  unfold execSyswr
  exact ⟨_, rfl⟩
theorem execFeat_eq_fire (p : Pred) (w : BitVec 2) (t : Target) (s : State) : ∃ g, execFeat p w t s = fire (.feat p w t) s g := by
  unfold execFeat
  exact ⟨_, rfl⟩
theorem execHalt_eq_fire (p : Pred) (s : State) : ∃ g, execHalt p s = fire (.halt p) s g := by
  unfold execHalt
  exact ⟨_, rfl⟩
theorem execNop_eq_fire (p : Pred) (s : State) : ∃ g, execNop p s = fire (.nop p) s g := by
  unfold execNop
  exact ⟨_, rfl⟩
theorem execBkpt_eq_fire (p : Pred) (code : BitVec 16) (s : State) : ∃ g, execBkpt p code s = fire (.bkpt p code) s g := by
  unfold execBkpt
  exact ⟨_, rfl⟩
theorem execYield_eq_fire (p : Pred) (s : State) : ∃ g, execYield p s = fire (.yield p) s g := by
  unfold execYield
  exact ⟨_, rfl⟩

/-- The meaning of an instruction that has a word is what `fire` makes of its slot. -/
theorem exec_eq_fire (i : Instr) (s : State) (h : (encode i).isSome = true) : ∃ f, exec i s = fire i s f := by
  cases i with
  | add => exact execAdd_eq_fire ..
  | sub => exact execSub_eq_fire ..
  | mul => exact execMul_eq_fire ..
  | mulhS => exact execMulhS_eq_fire ..
  | mulhU => exact execMulhU_eq_fire ..
  | mulhSu => exact execMulhSu_eq_fire ..
  | divS => exact execDivS_eq_fire ..
  | divU => exact execDivU_eq_fire ..
  | remS => exact execRemS_eq_fire ..
  | remU => exact execRemU_eq_fire ..
  | minS => exact execMinS_eq_fire ..
  | minU => exact execMinU_eq_fire ..
  | maxS => exact execMaxS_eq_fire ..
  | maxU => exact execMaxU_eq_fire ..
  | madd => exact execMadd_eq_fire ..
  | addsh => exact execAddsh_eq_fire ..
  | and => exact execAnd_eq_fire ..
  | or => exact execOr_eq_fire ..
  | xor => exact execXor_eq_fire ..
  | andn => exact execAndn_eq_fire ..
  | shl => exact execShl_eq_fire ..
  | shr => exact execShr_eq_fire ..
  | sar => exact execSar_eq_fire ..
  | cmp => exact execCmp_eq_fire ..
  | tstZ => exact execTstZ_eq_fire ..
  | tstNz => exact execTstNz_eq_fire ..
  | sel => exact execSel_eq_fire ..
  | clz => exact execClz_eq_fire ..
  | ctz => exact execCtz_eq_fire ..
  | popc => exact execPopc_eq_fire ..
  | bfxZ => exact execBfxZ_eq_fire ..
  | bfxS => exact execBfxS_eq_fire ..
  | bfi => exact execBfi_eq_fire ..
  | ext => exact execExt_eq_fire ..
  | addi => exact execAddi_eq_fire ..
  | muli => exact execMuli_eq_fire ..
  | andi => exact execAndi_eq_fire ..
  | ori => exact execOri_eq_fire ..
  | xori => exact execXori_eq_fire ..
  | shli => exact execShli_eq_fire ..
  | shri => exact execShri_eq_fire ..
  | sari => exact execSari_eq_fire ..
  | cmpiEq => exact execCmpiEq_eq_fire ..
  | cmpiNe => exact execCmpiNe_eq_fire ..
  | cmpiLt => exact execCmpiLt_eq_fire ..
  | cmpiGe => exact execCmpiGe_eq_fire ..
  | cmpiLtu => exact execCmpiLtu_eq_fire ..
  | cmpiGeu => exact execCmpiGeu_eq_fire ..
  | get => exact execGet_eq_fire ..
  | lit => exact execLit_eq_fire ..
  | mov => exact execMov_eq_fire ..
  | movi => exact execMovi_eq_fire ..
  | null => exact execNull_eq_fire ..
  | adr => exact execAdr_eq_fire ..
  | ldZ8 => exact execLdZ8_eq_fire ..
  | ldS8 => exact execLdS8_eq_fire ..
  | ldZ16 => exact execLdZ16_eq_fire ..
  | ldS16 => exact execLdS16_eq_fire ..
  | ldZ32 => exact execLdZ32_eq_fire ..
  | ldS32 => exact execLdS32_eq_fire ..
  | ld64 => exact execLd64_eq_fire ..
  | ldx => exact execLdx_eq_fire ..
  | ldAcqZ32 => exact execLdAcqZ32_eq_fire ..
  | ldAcq64 => exact execLdAcq64_eq_fire ..
  | ldl => exact execLdl_eq_fire ..
  | st => exact execSt_eq_fire ..
  | stx => exact execStx_eq_fire ..
  | stRel => exact execStRel_eq_fire ..
  | stl => exact execStl_eq_fire ..
  | fenceAcq => exact execFenceAcq_eq_fire ..
  | fenceRel => exact execFenceRel_eq_fire ..
  | fenceAr => exact execFenceAr_eq_fire ..
  | br => exact execBr_eq_fire ..
  | brn => exact execBrn_eq_fire ..
  | bri => exact execBri_eq_fire ..
  | call => exact execCall_eq_fire ..
  | calli => exact execCalli_eq_fire ..
  | ret => exact execRet_eq_fire ..
  | brcT => exact execBrcT_eq_fire ..
  | brcF => exact execBrcF_eq_fire ..
  | strmGo => exact execStrmGo_eq_fire ..
  | strmPushData => exact execStrmPushData_eq_fire ..
  | strmPushIndex => exact execStrmPushIndex_eq_fire ..
  | strmPushStop => exact execStrmPushStop_eq_fire ..
  | strmPushDone => exact execStrmPushDone_eq_fire ..
  | strmPop => exact execStrmPop_eq_fire ..
  | argSet => exact execArgSet_eq_fire ..
  | ctxSw => exact execCtxSw_eq_fire ..
  | drain => exact execDrain_eq_fire ..
  | strmWait => exact execStrmWait_eq_fire ..
  | mxClaim => exact execMxClaim_eq_fire ..
  | mxRel => exact execMxRel_eq_fire ..
  | mxScale => exact execMxScale_eq_fire ..
  | mxStat => exact execMxStat_eq_fire ..
  | hndNew => exact execHndNew_eq_fire ..
  | hndGive => exact execHndGive_eq_fire ..
  | hndTake => exact execHndTake_eq_fire ..
  | hndDrop => exact execHndDrop_eq_fire ..
  | hndInfo => exact execHndInfo_eq_fire ..
  | portRes => exact execPortRes_eq_fire ..
  | grpNew => exact execGrpNew_eq_fire ..
  | grpJoin => exact execGrpJoin_eq_fire ..
  | grpLeave => exact execGrpLeave_eq_fire ..
  | grpFree => exact execGrpFree_eq_fire ..
  | grpBar => exact execGrpBar_eq_fire ..
  | grpMark => exact execGrpMark_eq_fire ..
  | waitBit => exact execWaitBit_eq_fire ..
  | waitBitAll => exact execWaitBitAll_eq_fire ..
  | waitTok => exact execWaitTok_eq_fire ..
  | cpOpen => exact execCpOpen_eq_fire ..
  | cpClose => exact execCpClose_eq_fire ..
  | cpPush => exact execCpPush_eq_fire ..
  | cpRes => exact execCpRes_eq_fire ..
  | cpBinit => exact execCpBinit_eq_fire ..
  | cpBarv => exact execCpBarv_eq_fire ..
  | cpBwait => exact execCpBwait_eq_fire ..
  | atomRlx => exact execAtomRlx_eq_fire ..
  | atomAcq => exact execAtomAcq_eq_fire ..
  | atomRel => exact execAtomRel_eq_fire ..
  | atomAr => exact execAtomAr_eq_fire ..
  | cas => exact execCas_eq_fire ..
  | red => exact execRed_eq_fire ..
  | cntInit => exact execCntInit_eq_fire ..
  | cntDec => exact execCntDec_eq_fire ..
  | cntWait => exact execCntWait_eq_fire ..
  | cntFree => exact execCntFree_eq_fire ..
  | taskPut => exact execTaskPut_eq_fire ..
  | taskSdef => exact execTaskSdef_eq_fire ..
  | taskReg => exact execTaskReg_eq_fire ..
  | taskUnreg => exact execTaskUnreg_eq_fire ..
  | taskInfo => exact execTaskInfo_eq_fire ..
  | plReq => exact execPlReq_eq_fire ..
  | leaseRel => exact execLeaseRel_eq_fire ..
  | trap => exact execTrap_eq_fire ..
  | eret => exact execEret_eq_fire ..
  | sysrd => exact execSysrd_eq_fire ..
  | syswr => exact execSyswr_eq_fire ..
  | feat => exact execFeat_eq_fire ..
  | halt => exact execHalt_eq_fire ..
  | nop => exact execNop_eq_fire ..
  | bkpt => exact execBkpt_eq_fire ..
  | yield => exact execYield_eq_fire ..
  | _ => cases h

end Sys2Proof.Machine
end

