-- ==== Sys2Proof/Laws/Vocabulary.lean ====
section
/-!
SUPPORT. Laws of the vocabulary that the statements share: what it is in terms of the operations.
-/
namespace Sys2Proof.Laws

open Sys2Proof.Machine Sys2Proof.Claims

theorem placed_eq (now n ph) : placed now n ph = fun b => (Block.takePlace b now).modSlot n fun sl => {sl with phase := ph} := by
  funext b; simp only [placed, Block.takePlace]; split
  · next h => subst h; rfl
  · rfl

theorem delivers_eq (s : State) (sh lat v) : (Delivers s sh lat v) = { s with dev := Dev.deliver {s.dev with cursor := none} sh lat v } := by
  simp only [Delivers, placed_eq]; rfl

theorem fireValue_delivers {p u s sh} {i : Instr} {lat : Nat} {f : Word → Word → Word → Word} {v : Word} (h : Fires p u s sh) (hp : predOf i = p) (hu : usesOf i = u)
   (hv : f sh.a sh.b sh.z = v) :
   fireValue i lat f s = .next (Delivers s sh lat (some v)) := by
  obtain ⟨h1, h2, h3, h4, h5, h6⟩ := h
  rw [fireValue, fire_on _ h1 h2 h3 h4 h5 (hp ▸ hu ▸ h6), hv, delivers_eq]

theorem fire_delivers {p u s sh} {i : Instr} {lat : Nat} {f : Dev → Shot → Dev} {v : Option Word} (h : Fires p u s sh) (hp : predOf i = p) (hu : usesOf i = u)
   (hv : f {s.dev with cursor := none} sh = Dev.deliver {s.dev with cursor := none} sh lat v) :
   fire i s f = .next (Delivers s sh lat v) := by
  obtain ⟨h1, h2, h3, h4, h5, h6⟩ := h
  rw [fire_on _ h1 h2 h3 h4 h5 (hp ▸ hu ▸ h6), hv, delivers_eq]

theorem fire_of_Fires {p u s sh} {i : Instr} {f : Dev → Shot → Dev} (h : Fires p u s sh) (hp : predOf i = p) (hu : usesOf i = u) :
   fire i s f = .next { s with dev := f { s.dev with cursor := none } sh } := by
  obtain ⟨h1, h2, h3, h4, h5, h6⟩ := h
  rw [fire_on _ h1 h2 h3 h4 h5 (hp ▸ hu ▸ h6)]

theorem effect_eq (base : State) (sh e) : Effects base sh e = { base with dev := Dev.effect base.dev sh e } := by
  simp only [Effects, FiresWith, settled, onBlock, onCast, placed_eq, Dev.effect, Dev.record, Dev.fireAs, Dev.modTh_modTh, Thread.modBlk_modBlk]; rfl

theorem plain_eq (base : State) (sh) : FiresWith base sh id = { base with dev := Dev.plain base.dev sh } := by
  simp only [FiresWith, settled, onBlock, onCast, placed_eq, Dev.plain, Dev.fireAs]; rfl

theorem exit_eq (s : State) (sh x) (h : sh.blk.exit = none) : Exits s sh x = { s with dev := Dev.takeExit {s.dev with cursor := none} sh x } := by
  simp only [Exits, FiresWith, settled, onBlock, onCast, placed_eq, Dev.takeExit, h, Dev.fireAs, Dev.modTh_modTh, Thread.modBlk_modBlk]; rfl

theorem exit2_eq (s : State) (sh x y) (h : sh.blk.exit = some y) : Traps (seen s) sh 0x05 0 0 = { s with dev := Dev.takeExit {s.dev with cursor := none} sh x } := by
  simp only [Dev.takeExit, h]; rfl

theorem fire_effect {p u s sh} {i : Instr} {f : Dev → Shot → Dev} {base : State} {e} (h : Fires p u s sh) (hm : base.mem = s.mem) (hp : predOf i = p) (hu : usesOf i = u)
   (hv : f { s.dev with cursor := none } sh = Dev.effect base.dev sh e) :
   fire i s f = .next (Effects base sh e) := by
  rw [fire_of_Fires h hp hu, hv, effect_eq, ← hm]

theorem fire_within_site {p u s sh} {i : Instr} {f : Dev → Shot → Dev} {base : State} {mk : Nat → Effect} {bound : Nat} (h : Fires p u s sh) (hm : base.mem = s.mem) (hp : predOf i = p) (hu : usesOf i = u)
   (hv : f { s.dev with cursor := none } sh = Dev.effectWithin base.dev sh bound mk) :
   ∃ delay ≤ bound, fire i s f = .next (Effects (drawn base) sh (mk delay)) := by
  refine ⟨base.dev.delay bound, Nat.min_le_left .., ?_⟩
  rw [fire_of_Fires h hp hu, hv, effect_eq, Dev.effectWithin, ← hm]; rfl

theorem fire_within_site_else {p u s sh} {i : Instr} {f : Dev → Shot → Dev} {base : State} {mk : Nat → Effect} {bound : Nat} (h : Fires p u s sh) (hm : base.mem = s.mem) (hp : predOf i = p) (hu : usesOf i = u)
   (hv : f { s.dev with cursor := none } sh = Dev.effectWithin base.dev sh bound mk) :
   ∃ delay, fire i s f = .next (Effects (drawn base) sh (mk delay)) := by
  obtain ⟨d, _, h⟩ := fire_within_site h hm hp hu hv; exact ⟨d, h⟩

theorem fire_traps {p u s sh} {i : Instr} {f : Dev → Shot → Dev} {cause i0 i1} (h : Fires p u s sh) (hp : predOf i = p) (hu : usesOf i = u)
   (hv : f { s.dev with cursor := none } sh = Dev.slotTrap { s.dev with cursor := none } sh cause i0 i1) :
   fire i s f = .next (Traps (seen s) sh cause i0 i1) := by
  rw [fire_of_Fires h hp hu, hv]; rfl

theorem inside_iff_names (sh : Shot) (a : Word) : sh.k.inside (field a 0 8) (field a 8 7) = true ↔ NamesSite sh a := by
  simp [Cast.inside, field, NamesSite]

theorem width_bytes (z : Size) : width z = Size.bytes z := by cases z <;> rfl

theorem fire_translation_trap {p u s sh va acc d} {f : XFault} {i : Instr} {g : Dev → Shot → Dev} (h : Fires p u s sh) (hp : predOf i = p) (hu : usesOf i = u)
   (hv : g { s.dev with cursor := none } sh = Dev.slotTrap d sh 0x08 va (f.syndrome acc 0 sh.k.tenant) (sub := BitVec.ofNat 8 f.sub)) :
   fire i s g = .next (XlatTraps {s with dev := d} sh va acc f) := by
  rw [fire_of_Fires h hp hu, hv]; simp only [XlatTraps, Dev.slotTrap, XFault.syndrome]
  simp

theorem tlbChange_keeps {d d'} (h : TlbChange d d') : d'.casts = d.casts ∧ d'.agenda = d.agenda ∧ d'.now = d.now ∧ d'.away = d.away := by
  obtain ⟨p, b, l, js, ws, rfl⟩ := h; exact ⟨rfl, rfl, rfl, rfl⟩

def kindOfForm (n : Nat) (sg : Bool) : LoadKind := if n = 1 then (if sg then .s8 else .z8) else if n = 2 then (if sg then .s16 else .z16) else if n = 4 then (if sg then .s32 else .z32) else .d64

theorem leNat_lt (bs : List Byte) : leNat bs < 2 ^ (8 * bs.length) := by
  induction bs with
  | nil => simp [leNat]
  | cons b bs ih =>
    have := b.isLt
    simp only [leNat, List.length_cons]
    rw [show 8 * (bs.length + 1) = 8 * bs.length + 8 by omega, Nat.pow_add]
    omega

theorem extend_eq (k : LoadKind) (bs : List Byte) (h : bs.length = LoadKind.bytes k) :
   extend k (wordOf bs) = loaded (kindForm k).1 (kindForm k).2 bs := by
  have hb := leNat_lt bs
  rw [h] at hb
  cases k <;> simp only [LoadKind.bytes] at hb <;> simp only [extend, wordOf, loaded, kindForm]
  all_goals first | rfl | skip
  · apply BitVec.eq_of_toNat_eq; simp; omega
  · rw [BitVec.signExtend]; congr 2; apply BitVec.eq_of_toNat_eq; simp
  · apply BitVec.eq_of_toNat_eq; simp; omega
  · rw [BitVec.signExtend]; congr 2; apply BitVec.eq_of_toNat_eq; simp
  · apply BitVec.eq_of_toNat_eq; simp; omega
  · rw [BitVec.signExtend]; congr 2; apply BitVec.eq_of_toNat_eq; simp

theorem loadForm_shape {i a b u va n sg} (h : loadForm i a b = some (u, va, n, sg)) :
   ∃ k, loadSpan i a b = some (va, k) ∧ kindForm k = (n, sg) ∧ usesOf i = u ∧ ∀ s, exec i s = fireLoad i s := by
  cases i
  case ldZ8 p i t => cases h; exact ⟨.z8, by simp [loadSpan, ldAddr, LoadKind.bytes], rfl, rfl, fun s => rfl⟩
  case ldS8 p i t => cases h; exact ⟨.s8, by simp [loadSpan, ldAddr, LoadKind.bytes], rfl, rfl, fun s => rfl⟩
  case ldZ16 p i t => cases h; exact ⟨.z16, rfl, rfl, rfl, fun s => rfl⟩
  case ldS16 p i t => cases h; exact ⟨.s16, rfl, rfl, rfl, fun s => rfl⟩
  case ldZ32 p i t => cases h; exact ⟨.z32, rfl, rfl, rfl, fun s => rfl⟩
  case ldS32 p i t => cases h; exact ⟨.s32, rfl, rfl, rfl, fun s => rfl⟩
  case ld64 p i t => cases h; exact ⟨.d64, rfl, rfl, rfl, fun s => rfl⟩
  case ldx p k b a => cases k <;> cases h <;> exact ⟨_, rfl, rfl, rfl, fun s => rfl⟩
  case ldAcqZ32 p k b a => cases h; exact ⟨.z32, rfl, rfl, rfl, fun s => rfl⟩
  case ldAcq64 p k b a => cases h; exact ⟨.d64, rfl, rfl, rfl, fun s => rfl⟩
  all_goals (simp only [loadForm] at h; cases h)

theorem bytes_of_kind {k n sg} (h : kindForm k = (n, sg)) : LoadKind.bytes k = n := by
  cases k <;> cases h <;> rfl

theorem read_length (m d t pa n) : (Dev.read m d t pa n).1.length = n := by
  simp only [Dev.read]; split
  · split <;> simp
  · split <;> simp [Memory.read]

theorem bytes_of_kindForm {kd n sg} (h : kindForm kd = (n, sg)) : LoadKind.bytes kd = n := by cases kd <;> cases h <;> rfl

theorem rangeByte_eq (sh : Shot) (h bank base off) (he : ∀ x ∈ sh.blk.effects, ∀ c i o m v, x.2 ≠ Effect.stl c i o m v) :
   sh.rangeByte h bank base off = bank.mem.get 0 (base + off) := by
  simp only [Shot.rangeByte]
  have : ∀ (l : List (Nat × Effect)) (r : Byte), (∀ x ∈ l, ∀ c i o m v, x.2 ≠ Effect.stl c i o m v) → l.foldl (fun r e =>
    match e.2 with
    | .stl site entry o size v =>
      if e.1 < sh.n ∧ site = hndSite h ∧ entry = hndIx h ∧ o.toNat ≤ off ∧ off < o.toNat + size then
        BitVec.ofNat 8 (v.toNat / 256 ^ (off - o.toNat))
      else r
    | _ => r) r = r := by
    intro l
    induction l with
    | nil => intros; rfl
    | cons x l ih =>
      intro r hl
      rw [List.foldl_cons]
      have := hl x (by simp)
      split
      · next hx => exact absurd hx (this _ _ _ _ _)
      · exact ih r (fun y hy => hl y (by simp [hy]))
  exact this _ _ he

theorem exec_atom (o p sc b a s) : exec (atom o p sc b a) s = fireAtom (atom o p sc b a) o sc b a s := by cases o <;> rfl

theorem atom_uses (o p sc b a) : usesOf (atom o p sc b a) = ⟨true, true, true⟩ := by cases o <;> rfl

theorem atom_pred (o p sc b a) : predOf (atom o p sc b a) = p := by cases o <;> rfl

theorem atomOp_code (op : AtomOp) : atomOp op.code.toNat = some op := by cases op <;> rfl

theorem atomOp_big (n : Nat) (h : 11 < n) : atomOp n = none := by
  unfold atomOp; split <;> first | omega | rfl

theorem hostAtomic_addSwap (op : AtomOp) (b) (h : op = .add ∨ op = .swap) : hostAtomic (.rmw op b) = true := by
  rcases h with rfl | rfl <;> rfl

theorem foldl_made (c : Nat) (m : Memory) : ∀ (es : List (Nat × Effect)) (d : Dev),
   es.foldl (fun s e => made c e.2 s) { mem := m, dev := d : State } = { mem := m, dev := es.foldl (fun d e => Dev.applyEffect c d e.2) d }
 | [], d => rfl
 | e :: es, d => by simp only [List.foldl_cons]; rw [← foldl_made]; rfl

def regsAfter (t : Thread) (ws : List (Nat × Nat × Option Word)) : Tbl Word := ws.foldl (fun r w => match w.2.2 with
      | some v => r.set 0 w.2.1 v
      | none => r) t.regs

theorem writeAll_eq (t : Thread) : ∀ ws : List (Nat × Nat × Option Word), t.writeAll ws = { t with regs := regsAfter t ws } := by
  intro ws
  induction ws generalizing t with
  | nil => rfl
  | cons w ws ih =>
    show (Thread.writeAll _ ws) = _
    rw [ih]
    rcases w with ⟨a, r, v⟩
    cases v <;> rfl

theorem leBytes_length : ∀ n v, (leBytes n v).length = n := by
  intro n; induction n with
  | zero => intro v; rfl
  | succ n ih => intro v; simp [leBytes, ih]

theorem entryBytes_words (a b c d e f g h : Word) : entryBytes [a,b,c,d,e,f,g,h] = List.flatMap (fun w => leBytes 8 w.toNat) [a,b,c,d,e,f,g,h] := by
  unfold entryBytes
  rw [List.take_append_of_le_length, List.take_of_length_le]
  · simp [leBytes_length]
  · simp [leBytes_length]

end Sys2Proof.Laws
end

