-- ==== Sys2Proof/Laws/Fabric.lean ====
section
/-!
SUPPORT. Laws of tokens, sites, elements and copy channels, in the terms of the statements.
-/
namespace Sys2Proof.Laws

open Sys2Proof.Machine Sys2Proof.Claims

theorem find_modCast {d : Dev} {c k f} (hk : d.casts.find c = some k) : (d.modCast c f).casts.find c = some (f k) := by
  simp [Dev.modCast, Tbl.find_upd, hk]

theorem sendAll_eq (c extra t) : ∀ (rs : List Route) (m : Memory) (d : Dev),
   ({ mem := m, dev := d.sendAll c extra t rs } : State) = rs.foldl (fun s' r => sentOn c extra t r s') { mem := m, dev := d }
 | [], m, d => rfl
 | r :: rs, m, d => by
    simp only [Dev.sendAll, List.foldl_cons]
    exact sendAll_eq c extra t rs m (d.sendOn c extra t r)

theorem foldl_consumed (c n) : ∀ (ps : List InPort) (m : Memory) (d : Dev),
   ps.foldl (fun s p => consumed c n p s) ({ mem := m, dev := d } : State) = { mem := m, dev := ps.foldl (fun d p => d.takeHead c n p) d }
 | [], m, d => rfl
 | p :: ps, m, d => by simp only [List.foldl_cons]; exact foldl_consumed c n ps m (d.takeHead c n p)

theorem get_pushAll (tok : Token) (ch : Nat) : ∀ (l : List Nat) (t : Thread), l.Nodup →
   (l.foldl (fun t ch => t.pushToken ch tok) t).push.get [] ch = t.push.get [] ch ++ (if ch ∈ l then [tok] else [])
 | [], t, _ => by simp
 | x :: l, t, h => by
    rw [List.foldl_cons, get_pushAll tok ch l _ (List.nodup_cons.1 h).2]
    simp only [Thread.pushToken, Tbl.get_set]
    by_cases hx : ch = x
    · subst hx; simp [(List.nodup_cons.1 h).1]
    · simp [hx]

theorem wait_pushAll (tok : Token) : ∀ (l : List Nat) (t : Thread), (l.foldl (fun t ch => t.pushToken ch tok) t).wait = t.wait
 | [], t => rfl
 | x :: l, t => by rw [List.foldl_cons, wait_pushAll]; rfl

theorem openWait_self {t : Thread} {w} {p : Wait → Bool} (h : t.wait = some w) (hp : p w.wait = true) : t.openWait p = some w := by
  simp [Thread.openWait, h, hp]

theorem traceIn_th (d d' : Dev) (hw : d'.walls = d.walls) (k : Cast) (t : Thread) (ctx) : ∀ fuel n port lane r,
   Cast.traceIn d' { k with th := t } ctx fuel n port lane r = Cast.traceIn d k ctx fuel n port lane r := by
  intro fuel
  induction fuel with
  | zero => intros; rfl
  | succ f ih =>
    intro n port lane r
    simp only [Cast.traceIn, ih, Dev.wall, hw]; rfl

theorem pushRoutes_th (d d' : Dev) (hw : d'.walls = d.walls) (k : Cast) (t : Thread) (ctx ph ch) :
   Cast.pushRoutes d' { k with th := t } ctx ph ch = Cast.pushRoutes d k ctx ph ch := by
  simp only [Cast.pushRoutes, Cast.traceLane, traceIn_th d d' hw, Dev.wall, hw]; rfl

theorem site_modSite (k : Cast) (n f) : (k.modSite n f).site n = f (k.site n) := by
  simp [Cast.modSite, Cast.site, Tbl.find_put]

theorem streamRecord_id {d : Dev} {c n p t k} (hk : d.casts.find c = some k) (h : scwKind (k.site n).scwNow ≠ 3) : d.streamRecord c n p t = d := by
  simp only [Dev.streamRecord, hk]; rw [if_neg]; rintro ⟨h', _⟩; exact h h'

theorem modIn_scw (x : Site) (p f) : (x.modIn p f).scwNow = x.scwNow := by cases p <;> rfl

theorem mem_del {α} (e : Nat × α) (n) : ∀ t : Tbl α, e ∈ t.del n → e ∈ t
 | [], h => h
 | (k, v) :: t, h => by
    simp only [Tbl.del] at h; split at h
    · exact List.mem_cons_of_mem _ (mem_del e n t h)
    · rcases List.mem_cons.1 h with h | h
      · exact h ▸ List.mem_cons_self
      · exact List.mem_cons_of_mem _ (mem_del e n t h)

theorem mem_ins {α} (e : Nat × α) (n x) : ∀ t : Tbl α, e ∈ t.ins n x → e = (n, x) ∨ e ∈ t
 | [], h => by simp [Tbl.ins] at h; exact .inl h
 | (k, v) :: t, h => by
    simp only [Tbl.ins] at h; split at h
    · rcases List.mem_cons.1 h with h | h
      · exact .inl h
      · exact .inr h
    · rcases List.mem_cons.1 h with h | h
      · exact .inr (h ▸ List.mem_cons_self)
      · rcases mem_ins e n x t h with h | h
        · exact .inl h
        · exact .inr (List.mem_cons_of_mem _ h)

theorem mem_put {α} {e : Nat × α} {n x} {t : Tbl α} (h : e ∈ t.put n x) : e = (n, x) ∨ e ∈ t := by
  rcases mem_ins e n x _ h with h | h
  · exact .inl h
  · exact .inr (mem_del e n t h)

theorem find_mem {α} {n : Nat} {x : α} : ∀ {t : Tbl α}, t.find n = some x → (n, x) ∈ t
 | [], h => by simp [Tbl.find] at h
 | (k, v) :: t, h => by
    simp only [Tbl.find] at h; split at h
    · next e => cases h; subst e; exact List.mem_cons_self
    · exact List.mem_cons_of_mem _ (find_mem h)

theorem setK_scw (x : Site) (c v) : (x.setK c v).scw = x.scw ∧ (x.setK c v).ctx = x.ctx := ⟨rfl, rfl⟩

theorem foldK_scw : ∀ (l : List (BitVec 32)) (x : Site), (l.foldl (fun s v => s.setK s.ctx v) x).scw = x.scw ∧ (l.foldl (fun s v => s.setK s.ctx v) x).ctx = x.ctx
  ∧ (l.foldl (fun s v => s.setK s.ctx v) x).node = x.node
 | [], x => ⟨rfl, rfl, rfl⟩
 | v :: l, x => foldK_scw l (x.setK x.ctx v)

theorem applyArgs_scw (x : Site) : x.applyArgs.scwNow = x.scwNow := by
  simp only [Site.applyArgs, Site.scwNow, (foldK_scw x.argWait x).1, (foldK_scw x.argWait x).2.1]

theorem applyArgs_node (x : Site) : x.applyArgs.node = x.node := (foldK_scw x.argWait x).2.2

theorem children_mod (k : Cast) (n : Nat) (f : Site → Site) (hf : (f (k.site n)).scw = (k.site n).scw ∧ (f (k.site n)).ctx = (k.site n).ctx) (h0 : scwKind (k.site n).scwNow ≠ 0)
   (h : (k.children n) = []) : (k.modSite n f).children n = [] := by
  simp only [Cast.children, Cast.childrenIn, List.filterMap_eq_nil_iff, site_modSite, hf.2] at h ⊢
  intro e he
  have hl : (n, k.site n) ∈ k.sites := by
    cases hs : k.sites.find n with
    | none =>
      exfalso; apply h0
      simp [Cast.site, hs, Site.scwNow, scwKind, field]
    | some x => simp only [Cast.site, hs, Option.getD_some]; exact find_mem hs
  rcases mem_put he with rfl | he
  · have := h _ hl
    simp only [hf.1] at this ⊢; exact this
  · exact h e he

theorem selAct_walls (d d' : Dev) (hw : d'.walls = d.walls) (k : Cast) (n) : k.selAct d' n = k.selAct d n := by
  have tr : ∀ ctx fuel n port lane r, Cast.traceIn d' k ctx fuel n port lane r = Cast.traceIn d k ctx fuel n port lane r :=
    fun ctx => traceIn_th d d' hw k k.th ctx
  have tl : ∀ ctx ph w n o p, Cast.traceLane d' k ctx ph w n o p = Cast.traceLane d k ctx ph w n o p := by
    intros; simp only [Cast.traceLane, tr, Dev.wall, hw]; rfl
  have cd : ∀ ctx ph n o w, Cast.candidates d' k ctx ph n o w = Cast.candidates d k ctx ph n o w := by
    intros; simp only [Cast.candidates, tl]
  simp only [Cast.selAct, Cast.routes, cd]

theorem replyWithin_eq (s : State) (d : Dev) (bound c pid v0 v1) :
   Replies { s with dev := d } bound c pid v0 v1 { s with dev := d.replyWithin bound c pid v0 v1 } :=
  ⟨d.delay bound, Nat.min_le_left _ _, rfl⟩

theorem hndIx_eq (h : Word) : hndIx h = h.toNat / 2 ^ 16 % 16 := by simp [hndIx, field]

theorem emitOpt_eq (m : Memory) (d : Dev) (c n o lat t) : (State.mk m (d.emitOpt c n o lat t)) = emittedIf c n o lat t (State.mk m d) := by
  cases t <;> rfl

theorem mk_ite (p : Prop) {_ : Decidable p} (m : Memory) (x y : Dev) : State.mk m (if p then x else y) = if p then State.mk m x else State.mk m y := by split <;> rfl

theorem mk_firingEnds (m : Memory) (d : Dev) (c n) : State.mk m ((d.modSite c n fun s => { s with skip := false }).endFiring c n) = firingEnds c n (onSite c n (fun x => { x with skip := false }) (State.mk m d)) := rfl

theorem mk_consumed (m : Memory) (d : Dev) (c n p) : State.mk m (d.takeHead c n p) = consumed c n p (State.mk m d) := rfl

theorem mk_onBank (m : Memory) (d : Dev) (c n f) : State.mk m (d.modBank c n f) = onBank c n f (State.mk m d) := rfl

theorem mk_sbDone (m : Memory) (d : Dev) (c n) (x y z : Bool) : State.mk m (
  let d := if x then d.takeHead c n .a else d
  let d := if y then d.takeHead c n .b else d
  let d := if z then d.modBank c n fun b => { b with gen := b.gen.advance } else d
  (d.modSite c n fun s => { s with skip := false }).endFiring c n) = 
  (let s := State.mk m d
  let s := if x then consumed c n .a s else s
  let s := if y then consumed c n .b s else s
  let s := if z then onBank c n (fun b => { b with gen := b.gen.advance }) s else s
  firingEnds c n (onSite c n (fun x => { x with skip := false }) s)) := by
  cases x <;> cases y <;> cases z <;> simp only [if_true, Bool.false_eq_true, if_false] <;> rfl

theorem mk_accessEnds (m : Memory) (d : Dev) (c n ecw) : State.mk m (d.sbDone c n ecw) = accessEnds c n ecw (State.mk m d) :=
  mk_sbDone m d c n (ecw.getLsbD 8) (ecw.getLsbD 9) (ecw.getLsbD 12)

theorem deliverLoads_stop (c n) (d : Dev) : ∀ l : List PortLoad, (∀ x ∈ l.head?, x.back = false) → Dev.deliverLoads c n l d = d
 | [], _ => rfl
 | l :: rest, h => by
    have : l.back = false := h l (by simp)
    simp only [Dev.deliverLoads, this]

theorem foldl_post {d : Dev} {f : Route → Nat} {g : Route → Instr} : ∀ (rs : List Route) (d : Dev),
   (rs.foldl (fun d r => d.post (f r) (g r)) d).agenda = rs.foldl (fun a r => agendaInsert (d.now + f r) (g r) a) d.agenda
 | [], d => rfl
 | r :: rs, d => by
    rw [List.foldl_cons, foldl_post (d := d)]; rfl

theorem ecwOp_eq (e : BitVec 128) : ecwOp e = e.toNat / 2 ^ 20 % 256 := by simp [ecwOp, field]

theorem sbLen_eq (e : BitVec 128) : sbLen e = if e.getLsbD 13 then 8 else 128 := by
  unfold sbLen sbWide bitAt; cases e.getLsbD 13 <;> decide

theorem field_bitsAt (w : BitVec 64) (lo len) : field w lo len = bitsAt w lo len := rfl

theorem getLsbD_zero {w : BitVec 64} {i : Nat} (h : bitsAt w i 1 = 0) : w.getLsbD i = false := by
  simp only [BitVec.getLsbD, Nat.testBit_eq_decide_div_mod_eq]
  simp only [bitsAt, Nat.pow_one] at h
  rw [h]; decide

theorem onMat_eq {d : Dev} {c n k m} (hk : d.casts.find c = some k) (hm : (k.site n).el = .mx m) (h1 : ecwKind (k.site n).ecwNow = 1) (h2 : (k.site n).ecwNow ≠ 0) (f) :
   d.onMat c n f = (f k (k.site n) m).getD d := by
  simp only [Dev.onMat, hk, Cast.matAt]
  rw [if_pos ⟨h1, h2⟩]; simp only [Site.mat?, hm, Option.map_some]

theorem anyMat_eq {d : Dev} {c n k m} (hk : d.casts.find c = some k) (hm : (k.site n).el = .mx m) : d.anyMat c n = some (k, k.site n, m) := by
  simp only [Dev.anyMat, hk, Option.bind_some, Site.mat?, hm, Option.map_some]

theorem accIx_eq (b r c : Nat) : accIx b r c = 128 * (128 * b + r) + c := by unfold accIx; omega

theorem modInp_withInput (p : InPort) (f) : (fun o : SoSt => o.modInp p f) = withInput p f := by
  funext o; cases p <;> rfl

theorem mk_soTake (c n) : ∀ (ps : List InPort) (m : Memory) (d : Dev), State.mk m (d.soTake c n ps) = taken c n ps (State.mk m d) := by
  intro ps
  induction ps with
  | nil => intro m d; rfl
  | cons p ps ih =>
    intro m d
    show State.mk m (((d.takeHead c n p).modOp c n fun o => o.modInp p SoIn.taken).soTake c n ps) = _
    rw [ih, modInp_withInput]
    simp only [taken, List.foldl_cons]
    rfl

theorem findRec_id {x : Chan} {id : Nat} {r} (h : x.recs.find? (fun r => r.id == id) = some r) : r.id = id := by
  simpa using List.find?_some h

theorem lockRows_id (d : Dev) (c cix) (r : CopyRec) (h : r.ctl / 2 % 8 < 5) : d.lockRows c cix r = d ∧ d.unlockRows c cix r = d := by
  have : recRows r = none := by
    rw [recRows, if_neg (by rw [show recOp r = r.ctl / 2 % 8 from rfl]; omega)]
  simp only [Dev.lockRows, Dev.unlockRows, this, and_self]

end Sys2Proof.Laws
end

