-- ==== Sys2Proof/Laws/PerInstr.lean ====
section
/-!
SUPPORT. One law per instruction: its word decodes to it.
-/
namespace Sys2Proof.Laws.Encoding

/-- The word of a well-formed instruction decodes to it; a step of the device has no word. -/
def Statement (i : Instr) : Prop := WellFormed i = true → ∀ w, encode i = some w → decodeWord w = .ok i

theorem add (p : Pred) (b a : Target) : Statement (.add p b a) := by
  intro _ w e
  cases e
  simp [decodeWord, decodeArith, decT2, decT2x, decT1, decT1I, decS, decS0, decShift, decOrd, decCode, anyOrder, ordImm, withPred, withMod]
theorem sub (p : Pred) (b a : Target) : Statement (.sub p b a) := by
  intro _ w e
  cases e
  simp [decodeWord, decodeArith, decT2, decT2x, decT1, decT1I, decS, decS0, decShift, decOrd, decCode, anyOrder, ordImm, withPred, withMod]
theorem mul (p : Pred) (b a : Target) : Statement (.mul p b a) := by
  intro _ w e
  cases e
  simp [decodeWord, decodeArith, decT2, decT2x, decT1, decT1I, decS, decS0, decShift, decOrd, decCode, anyOrder, ordImm, withPred, withMod]
theorem mulhS (p : Pred) (b a : Target) : Statement (.mulhS p b a) := by
  intro _ w e
  cases e
  simp [decodeWord, decodeArith, decT2, decT2x, decT1, decT1I, decS, decS0, decShift, decOrd, decCode, anyOrder, ordImm, withPred, withMod]
theorem mulhU (p : Pred) (b a : Target) : Statement (.mulhU p b a) := by
  intro _ w e
  cases e
  simp [decodeWord, decodeArith, decT2, decT2x, decT1, decT1I, decS, decS0, decShift, decOrd, decCode, anyOrder, ordImm, withPred, withMod]
theorem mulhSu (p : Pred) (b a : Target) : Statement (.mulhSu p b a) := by
  intro _ w e
  cases e
  simp [decodeWord, decodeArith, decT2, decT2x, decT1, decT1I, decS, decS0, decShift, decOrd, decCode, anyOrder, ordImm, withPred, withMod]
theorem divS (p : Pred) (b a : Target) : Statement (.divS p b a) := by
  intro _ w e
  cases e
  simp [decodeWord, decodeArith, decT2, decT2x, decT1, decT1I, decS, decS0, decShift, decOrd, decCode, anyOrder, ordImm, withPred, withMod]
theorem divU (p : Pred) (b a : Target) : Statement (.divU p b a) := by
  intro _ w e
  cases e
  simp [decodeWord, decodeArith, decT2, decT2x, decT1, decT1I, decS, decS0, decShift, decOrd, decCode, anyOrder, ordImm, withPred, withMod]
theorem remS (p : Pred) (b a : Target) : Statement (.remS p b a) := by
  intro _ w e
  cases e
  simp [decodeWord, decodeArith, decT2, decT2x, decT1, decT1I, decS, decS0, decShift, decOrd, decCode, anyOrder, ordImm, withPred, withMod]
theorem remU (p : Pred) (b a : Target) : Statement (.remU p b a) := by
  intro _ w e
  cases e
  simp [decodeWord, decodeArith, decT2, decT2x, decT1, decT1I, decS, decS0, decShift, decOrd, decCode, anyOrder, ordImm, withPred, withMod]
theorem minS (p : Pred) (b a : Target) : Statement (.minS p b a) := by
  intro _ w e
  cases e
  simp [decodeWord, decodeArith, decT2, decT2x, decT1, decT1I, decS, decS0, decShift, decOrd, decCode, anyOrder, ordImm, withPred, withMod]
theorem minU (p : Pred) (b a : Target) : Statement (.minU p b a) := by
  intro _ w e
  cases e
  simp [decodeWord, decodeArith, decT2, decT2x, decT1, decT1I, decS, decS0, decShift, decOrd, decCode, anyOrder, ordImm, withPred, withMod]
theorem maxS (p : Pred) (b a : Target) : Statement (.maxS p b a) := by
  intro _ w e
  cases e
  simp [decodeWord, decodeArith, decT2, decT2x, decT1, decT1I, decS, decS0, decShift, decOrd, decCode, anyOrder, ordImm, withPred, withMod]
theorem maxU (p : Pred) (b a : Target) : Statement (.maxU p b a) := by
  intro _ w e
  cases e
  simp [decodeWord, decodeArith, decT2, decT2x, decT1, decT1I, decS, decS0, decShift, decOrd, decCode, anyOrder, ordImm, withPred, withMod]
theorem madd (p : Pred) (b a : Target) : Statement (.madd p b a) := by
  intro _ w e
  cases e
  simp [decodeWord, decodeArith, decT2, decT2x, decT1, decT1I, decS, decS0, decShift, decOrd, decCode, anyOrder, ordImm, withPred, withMod]
theorem addsh (p : Pred) (n : BitVec 4) (b a : Target) : Statement (.addsh p n b a) := by
  intro _ w e
  cases e
  simp [decodeWord, decodeArith, decT2, decT2x, decT1, decT1I, decS, decS0, decShift, decOrd, decCode, anyOrder, ordImm, withPred, withMod]
theorem and (p : Pred) (b a : Target) : Statement (.and p b a) := by
  intro _ w e
  cases e
  simp [decodeWord, decodeArith, decT2, decT2x, decT1, decT1I, decS, decS0, decShift, decOrd, decCode, anyOrder, ordImm, withPred, withMod]
theorem or (p : Pred) (b a : Target) : Statement (.or p b a) := by
  intro _ w e
  cases e
  simp [decodeWord, decodeArith, decT2, decT2x, decT1, decT1I, decS, decS0, decShift, decOrd, decCode, anyOrder, ordImm, withPred, withMod]
theorem xor (p : Pred) (b a : Target) : Statement (.xor p b a) := by
  intro _ w e
  cases e
  simp [decodeWord, decodeArith, decT2, decT2x, decT1, decT1I, decS, decS0, decShift, decOrd, decCode, anyOrder, ordImm, withPred, withMod]
theorem andn (p : Pred) (b a : Target) : Statement (.andn p b a) := by
  intro _ w e
  cases e
  simp [decodeWord, decodeArith, decT2, decT2x, decT1, decT1I, decS, decS0, decShift, decOrd, decCode, anyOrder, ordImm, withPred, withMod]
theorem shl (p : Pred) (b a : Target) : Statement (.shl p b a) := by
  intro _ w e
  cases e
  simp [decodeWord, decodeArith, decT2, decT2x, decT1, decT1I, decS, decS0, decShift, decOrd, decCode, anyOrder, ordImm, withPred, withMod]
theorem shr (p : Pred) (b a : Target) : Statement (.shr p b a) := by
  intro _ w e
  cases e
  simp [decodeWord, decodeArith, decT2, decT2x, decT1, decT1I, decS, decS0, decShift, decOrd, decCode, anyOrder, ordImm, withPred, withMod]
theorem sar (p : Pred) (b a : Target) : Statement (.sar p b a) := by
  intro _ w e
  cases e
  simp [decodeWord, decodeArith, decT2, decT2x, decT1, decT1I, decS, decS0, decShift, decOrd, decCode, anyOrder, ordImm, withPred, withMod]
theorem cmp (p : Pred) (cc : Cond) (b a : Target) : Statement (.cmp p cc b a) := by
  intro _ w e
  cases e
  simp [decodeWord, decodeArith, decT2, decT2x, decT1, decT1I, decS, decS0, decShift, decOrd, decCode, anyOrder, ordImm, withPred, withMod]
theorem tstZ (p : Pred) (b a : Target) : Statement (.tstZ p b a) := by
  intro _ w e
  cases e
  simp [decodeWord, decodeArith, decT2, decT2x, decT1, decT1I, decS, decS0, decShift, decOrd, decCode, anyOrder, ordImm, withPred, withMod]
theorem tstNz (p : Pred) (b a : Target) : Statement (.tstNz p b a) := by
  intro _ w e
  cases e
  simp [decodeWord, decodeArith, decT2, decT2x, decT1, decT1I, decS, decS0, decShift, decOrd, decCode, anyOrder, ordImm, withPred, withMod]
theorem sel (p : Pred) (b a : Target) : Statement (.sel p b a) := by
  intro _ w e
  cases e
  simp [decodeWord, decodeArith, decT2, decT2x, decT1, decT1I, decS, decS0, decShift, decOrd, decCode, anyOrder, ordImm, withPred, withMod]
theorem clz (p : Pred) (b a : Target) : Statement (.clz p b a) := by
  intro _ w e
  cases e
  simp [decodeWord, decodeArith, decT2, decT2x, decT1, decT1I, decS, decS0, decShift, decOrd, decCode, anyOrder, ordImm, withPred, withMod]
theorem ctz (p : Pred) (b a : Target) : Statement (.ctz p b a) := by
  intro _ w e
  cases e
  simp [decodeWord, decodeArith, decT2, decT2x, decT1, decT1I, decS, decS0, decShift, decOrd, decCode, anyOrder, ordImm, withPred, withMod]
theorem popc (p : Pred) (b a : Target) : Statement (.popc p b a) := by
  intro _ w e
  cases e
  simp [decodeWord, decodeArith, decT2, decT2x, decT1, decT1I, decS, decS0, decShift, decOrd, decCode, anyOrder, ordImm, withPred, withMod]
theorem bfxZ (p : Pred) (b a : Target) : Statement (.bfxZ p b a) := by
  intro _ w e
  cases e
  simp [decodeWord, decodeArith, decT2, decT2x, decT1, decT1I, decS, decS0, decShift, decOrd, decCode, anyOrder, ordImm, withPred, withMod]
theorem bfxS (p : Pred) (b a : Target) : Statement (.bfxS p b a) := by
  intro _ w e
  cases e
  simp [decodeWord, decodeArith, decT2, decT2x, decT1, decT1I, decS, decS0, decShift, decOrd, decCode, anyOrder, ordImm, withPred, withMod]
theorem bfi (p : Pred) (b a : Target) : Statement (.bfi p b a) := by
  intro _ w e
  cases e
  simp [decodeWord, decodeArith, decT2, decT2x, decT1, decT1I, decS, decS0, decShift, decOrd, decCode, anyOrder, ordImm, withPred, withMod]
theorem ext (p : Pred) (k : ExtKind) (b a : Target) : Statement (.ext p k b a) := by
  intro _ w e
  cases e
  simp [decodeWord, decodeArith, decT2, decT2x, decT1, decT1I, decS, decS0, decShift, decOrd, decCode, anyOrder, ordImm, withPred, withMod]
theorem addi (p : Pred) (i : BitVec 13) (t : Target) : Statement (.addi p i t) := by
  intro _ w e
  cases e
  simp [decodeWord, decodeImm, decT2, decT2x, decT1, decT1I, decS, decS0, decShift, decOrd, decCode, anyOrder, ordImm, withPred, withMod]
theorem muli (p : Pred) (i : BitVec 13) (t : Target) : Statement (.muli p i t) := by
  intro _ w e
  cases e
  simp [decodeWord, decodeImm, decT2, decT2x, decT1, decT1I, decS, decS0, decShift, decOrd, decCode, anyOrder, ordImm, withPred, withMod]
theorem andi (p : Pred) (i : BitVec 13) (t : Target) : Statement (.andi p i t) := by
  intro _ w e
  cases e
  simp [decodeWord, decodeImm, decT2, decT2x, decT1, decT1I, decS, decS0, decShift, decOrd, decCode, anyOrder, ordImm, withPred, withMod]
theorem ori (p : Pred) (i : BitVec 13) (t : Target) : Statement (.ori p i t) := by
  intro _ w e
  cases e
  simp [decodeWord, decodeImm, decT2, decT2x, decT1, decT1I, decS, decS0, decShift, decOrd, decCode, anyOrder, ordImm, withPred, withMod]
theorem xori (p : Pred) (i : BitVec 13) (t : Target) : Statement (.xori p i t) := by
  intro _ w e
  cases e
  simp [decodeWord, decodeImm, decT2, decT2x, decT1, decT1I, decS, decS0, decShift, decOrd, decCode, anyOrder, ordImm, withPred, withMod]
theorem shli (p : Pred) (n : BitVec 6) (t : Target) : Statement (.shli p n t) := by
  intro _ w e
  cases e
  simp [decodeWord, decodeImm, decT2, decT2x, decT1, decT1I, decS, decS0, decShift, decOrd, decCode, anyOrder, ordImm, withPred, withMod]
theorem shri (p : Pred) (n : BitVec 6) (t : Target) : Statement (.shri p n t) := by
  intro _ w e
  cases e
  simp [decodeWord, decodeImm, decT2, decT2x, decT1, decT1I, decS, decS0, decShift, decOrd, decCode, anyOrder, ordImm, withPred, withMod]
theorem sari (p : Pred) (n : BitVec 6) (t : Target) : Statement (.sari p n t) := by
  intro _ w e
  cases e
  simp [decodeWord, decodeImm, decT2, decT2x, decT1, decT1I, decS, decS0, decShift, decOrd, decCode, anyOrder, ordImm, withPred, withMod]
theorem cmpiEq (p : Pred) (i : BitVec 13) (t : Target) : Statement (.cmpiEq p i t) := by
  intro _ w e
  cases e
  simp [decodeWord, decodeImm, decT2, decT2x, decT1, decT1I, decS, decS0, decShift, decOrd, decCode, anyOrder, ordImm, withPred, withMod]
theorem cmpiNe (p : Pred) (i : BitVec 13) (t : Target) : Statement (.cmpiNe p i t) := by
  intro _ w e
  cases e
  simp [decodeWord, decodeImm, decT2, decT2x, decT1, decT1I, decS, decS0, decShift, decOrd, decCode, anyOrder, ordImm, withPred, withMod]
theorem cmpiLt (p : Pred) (i : BitVec 13) (t : Target) : Statement (.cmpiLt p i t) := by
  intro _ w e
  cases e
  simp [decodeWord, decodeImm, decT2, decT2x, decT1, decT1I, decS, decS0, decShift, decOrd, decCode, anyOrder, ordImm, withPred, withMod]
theorem cmpiGe (p : Pred) (i : BitVec 13) (t : Target) : Statement (.cmpiGe p i t) := by
  intro _ w e
  cases e
  simp [decodeWord, decodeImm, decT2, decT2x, decT1, decT1I, decS, decS0, decShift, decOrd, decCode, anyOrder, ordImm, withPred, withMod]
theorem cmpiLtu (p : Pred) (i : BitVec 13) (t : Target) : Statement (.cmpiLtu p i t) := by
  intro _ w e
  cases e
  simp [decodeWord, decodeImm, decT2, decT2x, decT1, decT1I, decS, decS0, decShift, decOrd, decCode, anyOrder, ordImm, withPred, withMod]
theorem cmpiGeu (p : Pred) (i : BitVec 13) (t : Target) : Statement (.cmpiGeu p i t) := by
  intro _ w e
  cases e
  simp [decodeWord, decodeImm, decT2, decT2x, decT1, decT1I, decS, decS0, decShift, decOrd, decCode, anyOrder, ordImm, withPred, withMod]
theorem get (r : BitVec 6) (b a : Target) : Statement (.get r b a) := by
  intro _ w e
  cases e
  simp [decodeWord, decodeMove, decT2, decT2x, decT1, decT1I, decS, decS0, decShift, decOrd, decCode, anyOrder, ordImm, withPred, withMod]
theorem lit (c : LitCount) (b a : Target) : Statement (.lit c b a) := by
  intro _ w e
  cases e
  simp [decodeWord, decodeMove, decT2, decT2x, decT1, decT1I, decS, decS0, decShift, decOrd, decCode, anyOrder, ordImm, withPred, withMod]
theorem mov (p : Pred) (b a : Target) : Statement (.mov p b a) := by
  intro _ w e
  cases e
  simp [decodeWord, decodeMove, decT2, decT2x, decT1, decT1I, decS, decS0, decShift, decOrd, decCode, anyOrder, ordImm, withPred, withMod]
theorem movi (p : Pred) (i : BitVec 13) (t : Target) : Statement (.movi p i t) := by
  intro _ w e
  cases e
  simp [decodeWord, decodeMove, decT2, decT2x, decT1, decT1I, decS, decS0, decShift, decOrd, decCode, anyOrder, ordImm, withPred, withMod]
theorem null (p : Pred) (b a : Target) : Statement (.null p b a) := by
  intro _ w e
  cases e
  simp [decodeWord, decodeMove, decT2, decT2x, decT1, decT1I, decS, decS0, decShift, decOrd, decCode, anyOrder, ordImm, withPred, withMod]
theorem adr (p : Pred) (i : BitVec 13) (t : Target) : Statement (.adr p i t) := by
  intro _ w e
  cases e
  simp [decodeWord, decodeMove, decT2, decT2x, decT1, decT1I, decS, decS0, decShift, decOrd, decCode, anyOrder, ordImm, withPred, withMod]
theorem ldZ8 (p : Pred) (i : BitVec 13) (t : Target) : Statement (.ldZ8 p i t) := by
  intro _ w e
  cases e
  simp [decodeWord, decodeMem, decT2, decT2x, decT1, decT1I, decS, decS0, decShift, decOrd, decCode, anyOrder, ordImm, withPred, withMod]
theorem ldS8 (p : Pred) (i : BitVec 13) (t : Target) : Statement (.ldS8 p i t) := by
  intro _ w e
  cases e
  simp [decodeWord, decodeMem, decT2, decT2x, decT1, decT1I, decS, decS0, decShift, decOrd, decCode, anyOrder, ordImm, withPred, withMod]
theorem ldZ16 (p : Pred) (i : BitVec 13) (t : Target) : Statement (.ldZ16 p i t) := by
  intro _ w e
  cases e
  simp [decodeWord, decodeMem, decT2, decT2x, decT1, decT1I, decS, decS0, decShift, decOrd, decCode, anyOrder, ordImm, withPred, withMod]
theorem ldS16 (p : Pred) (i : BitVec 13) (t : Target) : Statement (.ldS16 p i t) := by
  intro _ w e
  cases e
  simp [decodeWord, decodeMem, decT2, decT2x, decT1, decT1I, decS, decS0, decShift, decOrd, decCode, anyOrder, ordImm, withPred, withMod]
theorem ldZ32 (p : Pred) (i : BitVec 13) (t : Target) : Statement (.ldZ32 p i t) := by
  intro _ w e
  cases e
  simp [decodeWord, decodeMem, decT2, decT2x, decT1, decT1I, decS, decS0, decShift, decOrd, decCode, anyOrder, ordImm, withPred, withMod]
theorem ldS32 (p : Pred) (i : BitVec 13) (t : Target) : Statement (.ldS32 p i t) := by
  intro _ w e
  cases e
  simp [decodeWord, decodeMem, decT2, decT2x, decT1, decT1I, decS, decS0, decShift, decOrd, decCode, anyOrder, ordImm, withPred, withMod]
theorem ld64 (p : Pred) (i : BitVec 13) (t : Target) : Statement (.ld64 p i t) := by
  intro _ w e
  cases e
  simp [decodeWord, decodeMem, decT2, decT2x, decT1, decT1I, decS, decS0, decShift, decOrd, decCode, anyOrder, ordImm, withPred, withMod]
theorem ldx (p : Pred) (k : LoadKind) (b a : Target) : Statement (.ldx p k b a) := by
  intro _ w e
  cases e
  simp [decodeWord, decodeMem, decT2, decT2x, decT1, decT1I, decS, decS0, decShift, decOrd, decCode, anyOrder, ordImm, withPred, withMod]
theorem ldAcqZ32 (p : Pred) (s : Scope) (b a : Target) : Statement (.ldAcqZ32 p s b a) := by
  intro _ w e
  cases e
  simp [decodeWord, decodeMem, decT2, decT2x, decT1, decT1I, decS, decS0, decShift, decOrd, decCode, anyOrder, ordImm, withPred, withMod]
theorem ldAcq64 (p : Pred) (s : Scope) (b a : Target) : Statement (.ldAcq64 p s b a) := by
  intro _ w e
  cases e
  simp [decodeWord, decodeMem, decT2, decT2x, decT1, decT1I, decS, decS0, decShift, decOrd, decCode, anyOrder, ordImm, withPred, withMod]
theorem ldl (p : Pred) (k : LoadKind) (b a : Target) : Statement (.ldl p k b a) := by
  intro _ w e
  cases e
  simp [decodeWord, decodeMem, decT2, decT2x, decT1, decT1I, decS, decS0, decShift, decOrd, decCode, anyOrder, ordImm, withPred, withMod]
theorem st (p : Pred) (z : Size) (o : BitVec 20) : Statement (.st p z o) := by
  intro _ w e
  cases e
  simp [decodeWord, decodeMem, decT2, decT2x, decT1, decT1I, decS, decS0, decShift, decOrd, decCode, anyOrder, ordImm, withPred, withMod]
theorem stx (p : Pred) (z : Size) : Statement (.stx p z) := by
  intro _ w e
  cases e
  simp [decodeWord, decodeMem, decT2, decT2x, decT1, decT1I, decS, decS0, decShift, decOrd, decCode, anyOrder, ordImm, withPred, withMod]
theorem stRel (p : Pred) (z : Size) (s : Scope) : Statement (.stRel p z s) := by
  intro _ w e
  cases e
  simp [decodeWord, decodeMem, decT2, decT2x, decT1, decT1I, decS, decS0, decShift, decOrd, decCode, anyOrder, ordImm, withPred, withMod]
theorem stl (p : Pred) (z : Size) : Statement (.stl p z) := by
  intro _ w e
  cases e
  simp [decodeWord, decodeMem, decT2, decT2x, decT1, decT1I, decS, decS0, decShift, decOrd, decCode, anyOrder, ordImm, withPred, withMod]
theorem fenceAcq (p : Pred) (s : Scope) : Statement (.fenceAcq p s) := by
  intro _ w e
  cases e
  simp [decodeWord, decodeMem, decT2, decT2x, decT1, decT1I, decS, decS0, decShift, decOrd, decCode, anyOrder, ordImm, withPred, withMod]
theorem fenceRel (p : Pred) (s : Scope) : Statement (.fenceRel p s) := by
  intro _ w e
  cases e
  simp [decodeWord, decodeMem, decT2, decT2x, decT1, decT1I, decS, decS0, decShift, decOrd, decCode, anyOrder, ordImm, withPred, withMod]
theorem fenceAr (p : Pred) (s : Scope) : Statement (.fenceAr p s) := by
  intro _ w e
  cases e
  simp [decodeWord, decodeMem, decT2, decT2x, decT1, decT1I, decS, decS0, decShift, decOrd, decCode, anyOrder, ordImm, withPred, withMod]
theorem br (p : Pred) (o : BitVec 22) : Statement (.br p o) := by
  intro _ w e
  cases e
  simp [decodeWord, decodeExit, decT2, decT2x, decT1, decT1I, decS, decS0, decShift, decOrd, decCode, anyOrder, ordImm, withPred, withMod]
theorem brn (p : Pred) : Statement (.brn p) := by
  intro _ w e
  cases e
  simp [decodeWord, decodeExit, decT2, decT2x, decT1, decT1I, decS, decS0, decShift, decOrd, decCode, anyOrder, ordImm, withPred, withMod]
theorem bri (p : Pred) : Statement (.bri p) := by
  intro _ w e
  cases e
  simp [decodeWord, decodeExit, decT2, decT2x, decT1, decT1I, decS, decS0, decShift, decOrd, decCode, anyOrder, ordImm, withPred, withMod]
theorem call (p : Pred) (o : BitVec 22) : Statement (.call p o) := by
  intro _ w e
  cases e
  simp [decodeWord, decodeExit, decT2, decT2x, decT1, decT1I, decS, decS0, decShift, decOrd, decCode, anyOrder, ordImm, withPred, withMod]
theorem calli (p : Pred) : Statement (.calli p) := by
  intro _ w e
  cases e
  simp [decodeWord, decodeExit, decT2, decT2x, decT1, decT1I, decS, decS0, decShift, decOrd, decCode, anyOrder, ordImm, withPred, withMod]
theorem ret (p : Pred) : Statement (.ret p) := by
  intro _ w e
  cases e
  simp [decodeWord, decodeExit, decT2, decT2x, decT1, decT1I, decS, decS0, decShift, decOrd, decCode, anyOrder, ordImm, withPred, withMod]
theorem brcT (p : Pred) (o : BitVec 22) : Statement (.brcT p o) := by
  intro _ w e
  cases e
  simp [decodeWord, decodeExit, decT2, decT2x, decT1, decT1I, decS, decS0, decShift, decOrd, decCode, anyOrder, ordImm, withPred, withMod]
theorem brcF (p : Pred) (o : BitVec 22) : Statement (.brcF p o) := by
  intro _ w e
  cases e
  simp [decodeWord, decodeExit, decT2, decT2x, decT1, decT1I, decS, decS0, decShift, decOrd, decCode, anyOrder, ordImm, withPred, withMod]
theorem strmGo (p : Pred) : Statement (.strmGo p) := by
  intro _ w e
  cases e
  simp [decodeWord, decodeFabric, decT2, decT2x, decT1, decT1I, decS, decS0, decShift, decOrd, decCode, anyOrder, ordImm, withPred, withMod]
theorem strmPushData (p : Pred) (ch : BitVec 3) : Statement (.strmPushData p ch) := by
  intro _ w e
  cases e
  simp [decodeWord, decodeFabric, decT2, decT2x, decT1, decT1I, decS, decS0, decShift, decOrd, decCode, anyOrder, ordImm, withPred, withMod]
theorem strmPushIndex (p : Pred) (ch : BitVec 3) : Statement (.strmPushIndex p ch) := by
  intro _ w e
  cases e
  simp [decodeWord, decodeFabric, decT2, decT2x, decT1, decT1I, decS, decS0, decShift, decOrd, decCode, anyOrder, ordImm, withPred, withMod]
theorem strmPushStop (p : Pred) (lvl : BitVec 3) (ch : BitVec 3) : Statement (.strmPushStop p lvl ch) := by
  intro _ w e
  cases e
  simp [decodeWord, decodeFabric, decT2, decT2x, decT1, decT1I, decS, decS0, decShift, decOrd, decCode, anyOrder, ordImm, withPred, withMod]
theorem strmPushDone (p : Pred) (ch : BitVec 3) : Statement (.strmPushDone p ch) := by
  intro _ w e
  cases e
  simp [decodeWord, decodeFabric, decT2, decT2x, decT1, decT1I, decS, decS0, decShift, decOrd, decCode, anyOrder, ordImm, withPred, withMod]
theorem strmPop (p : Pred) (ch : BitVec 3) (b a : Target) : Statement (.strmPop p ch b a) := by
  intro _ w e
  cases e
  simp [decodeWord, decodeFabric, decT2, decT2x, decT1, decT1I, decS, decS0, decShift, decOrd, decCode, anyOrder, ordImm, withPred, withMod]
theorem argSet (p : Pred) (ctx : BitVec 2) (y : BitVec 7) (x : BitVec 8) : Statement (.argSet p ctx y x) := by
  intro _ w e
  cases e
  simp [decodeWord, decodeFabric, decT2, decT2x, decT1, decT1I, decS, decS0, decShift, decOrd, decCode, anyOrder, ordImm, withPred, withMod]
theorem ctxSw (p : Pred) (ctx : BitVec 2) : Statement (.ctxSw p ctx) := by
  intro _ w e
  cases e
  simp [decodeWord, decodeFabric, decT2, decT2x, decT1, decT1I, decS, decS0, decShift, decOrd, decCode, anyOrder, ordImm, withPred, withMod]
theorem drain (p : Pred) : Statement (.drain p) := by
  intro _ w e
  cases e
  simp [decodeWord, decodeFabric, decT2, decT2x, decT1, decT1I, decS, decS0, decShift, decOrd, decCode, anyOrder, ordImm, withPred, withMod]
theorem strmWait (p : Pred) : Statement (.strmWait p) := by
  intro _ w e
  cases e
  simp [decodeWord, decodeFabric, decT2, decT2x, decT1, decT1I, decS, decS0, decShift, decOrd, decCode, anyOrder, ordImm, withPred, withMod]
theorem mxClaim (p : Pred) (a : Target) : Statement (.mxClaim p a) := by
  intro _ w e
  cases e
  simp [decodeWord, decodeFabric, decT2, decT2x, decT1, decT1I, decS, decS0, decShift, decOrd, decCode, anyOrder, ordImm, withPred, withMod]
theorem mxRel (p : Pred) : Statement (.mxRel p) := by
  intro _ w e
  cases e
  simp [decodeWord, decodeFabric, decT2, decT2x, decT1, decT1I, decS, decS0, decShift, decOrd, decCode, anyOrder, ordImm, withPred, withMod]
theorem mxScale (p : Pred) : Statement (.mxScale p) := by
  intro _ w e
  cases e
  simp [decodeWord, decodeFabric, decT2, decT2x, decT1, decT1I, decS, decS0, decShift, decOrd, decCode, anyOrder, ordImm, withPred, withMod]
theorem mxStat (p : Pred) (w : StatForm) (a : Target) : Statement (.mxStat p w a) := by
  intro _ w e
  cases e
  simp [decodeWord, decodeFabric, decT2, decT2x, decT1, decT1I, decS, decS0, decShift, decOrd, decCode, anyOrder, ordImm, withPred, withMod]
theorem hndNew (p : Pred) (a : Target) : Statement (.hndNew p a) := by
  intro _ w e
  cases e
  simp [decodeWord, decodeFabric, decT2, decT2x, decT1, decT1I, decS, decS0, decShift, decOrd, decCode, anyOrder, ordImm, withPred, withMod]
theorem hndGive (p : Pred) : Statement (.hndGive p) := by
  intro _ w e
  cases e
  simp [decodeWord, decodeFabric, decT2, decT2x, decT1, decT1I, decS, decS0, decShift, decOrd, decCode, anyOrder, ordImm, withPred, withMod]
theorem hndTake (p : Pred) (a : Target) : Statement (.hndTake p a) := by
  intro _ w e
  cases e
  simp [decodeWord, decodeFabric, decT2, decT2x, decT1, decT1I, decS, decS0, decShift, decOrd, decCode, anyOrder, ordImm, withPred, withMod]
theorem hndDrop (p : Pred) : Statement (.hndDrop p) := by
  intro _ w e
  cases e
  simp [decodeWord, decodeFabric, decT2, decT2x, decT1, decT1I, decS, decS0, decShift, decOrd, decCode, anyOrder, ordImm, withPred, withMod]
theorem hndInfo (p : Pred) (b a : Target) : Statement (.hndInfo p b a) := by
  intro _ w e
  cases e
  simp [decodeWord, decodeFabric, decT2, decT2x, decT1, decT1I, decS, decS0, decShift, decOrd, decCode, anyOrder, ordImm, withPred, withMod]
theorem portRes (p : Pred) (act : Resume) : Statement (.portRes p act) := by
  intro _ w e
  cases e
  simp [decodeWord, decodeFabric, decT2, decT2x, decT1, decT1I, decS, decS0, decShift, decOrd, decCode, anyOrder, ordImm, withPred, withMod]
theorem grpNew (p : Pred) (a : Target) : Statement (.grpNew p a) := by
  intro _ w e
  cases e
  simp [decodeWord, decodeGroup, decT2, decT2x, decT1, decT1I, decS, decS0, decShift, decOrd, decCode, anyOrder, ordImm, withPred, withMod]
theorem grpJoin (p : Pred) (a : Target) : Statement (.grpJoin p a) := by
  intro _ w e
  cases e
  simp [decodeWord, decodeGroup, decT2, decT2x, decT1, decT1I, decS, decS0, decShift, decOrd, decCode, anyOrder, ordImm, withPred, withMod]
theorem grpLeave (p : Pred) : Statement (.grpLeave p) := by
  intro _ w e
  cases e
  simp [decodeWord, decodeGroup, decT2, decT2x, decT1, decT1I, decS, decS0, decShift, decOrd, decCode, anyOrder, ordImm, withPred, withMod]
theorem grpFree (p : Pred) : Statement (.grpFree p) := by
  intro _ w e
  cases e
  simp [decodeWord, decodeGroup, decT2, decT2x, decT1, decT1I, decS, decS0, decShift, decOrd, decCode, anyOrder, ordImm, withPred, withMod]
theorem grpBar (p : Pred) (o : MemOrder) (s : Scope) : Statement (.grpBar p o s) := by
  intro _ w e
  cases e
  simp [decodeWord, decodeGroup, decT2, decT2x, decT1, decT1I, decS, decS0, decShift, decOrd, decCode, anyOrder, ordImm, withPred, withMod]
theorem grpMark (p : Pred) (o : MemOrder) (s : Scope) : Statement (.grpMark p o s) := by
  intro h w e
  cases e
  simp [decodeWord, decodeGroup, decT2, decT2x, decT1, decT1I, decS, decS0, decShift, decOrd, decCode, anyOrder, ordImm, withPred, withMod, show o.isRelaxedOrRelease = true from h]
theorem waitBit (p : Pred) (o : MemOrder) (s : Scope) : Statement (.waitBit p o s) := by
  intro h w e
  cases e
  simp [decodeWord, decodeGroup, decT2, decT2x, decT1, decT1I, decS, decS0, decShift, decOrd, decCode, anyOrder, ordImm, withPred, withMod, show o.isRelaxedOrAcquire = true from h]
theorem waitBitAll (p : Pred) (o : MemOrder) (s : Scope) : Statement (.waitBitAll p o s) := by
  intro h w e
  cases e
  simp [decodeWord, decodeGroup, decT2, decT2x, decT1, decT1I, decS, decS0, decShift, decOrd, decCode, anyOrder, ordImm, withPred, withMod, show o.isRelaxedOrAcquire = true from h]
theorem waitTok (p : Pred) (task : Bool) (mask : BitVec 8) : Statement (.waitTok p task mask) := by
  intro h w e
  cases e
  have hm : task = true ∨ ¬ mask = 0#8 := by simpa [WellFormed] using h
  simp [decodeWord, decodeGroup, decT2, decT2x, decT1, decT1I, decS, decS0, decShift, decOrd, decCode, anyOrder, ordImm, withPred, withMod, hm]
theorem cpOpen (p : Pred) (a : Target) : Statement (.cpOpen p a) := by
  intro _ w e
  cases e
  simp [decodeWord, decodeGroup, decT2, decT2x, decT1, decT1I, decS, decS0, decShift, decOrd, decCode, anyOrder, ordImm, withPred, withMod]
theorem cpClose (p : Pred) : Statement (.cpClose p) := by
  intro _ w e
  cases e
  simp [decodeWord, decodeGroup, decT2, decT2x, decT1, decT1I, decS, decS0, decShift, decOrd, decCode, anyOrder, ordImm, withPred, withMod]
theorem cpPush (p : Pred) : Statement (.cpPush p) := by
  intro _ w e
  cases e
  simp [decodeWord, decodeGroup, decT2, decT2x, decT1, decT1I, decS, decS0, decShift, decOrd, decCode, anyOrder, ordImm, withPred, withMod]
theorem cpRes (p : Pred) (act : Resume) : Statement (.cpRes p act) := by
  intro _ w e
  cases e
  simp [decodeWord, decodeGroup, decT2, decT2x, decT1, decT1I, decS, decS0, decShift, decOrd, decCode, anyOrder, ordImm, withPred, withMod]
theorem cpBinit (p : Pred) : Statement (.cpBinit p) := by
  intro _ w e
  cases e
  simp [decodeWord, decodeGroup, decT2, decT2x, decT1, decT1I, decS, decS0, decShift, decOrd, decCode, anyOrder, ordImm, withPred, withMod]
theorem cpBarv (p : Pred) (o : MemOrder) (s : Scope) : Statement (.cpBarv p o s) := by
  intro h w e
  cases e
  simp [decodeWord, decodeGroup, decT2, decT2x, decT1, decT1I, decS, decS0, decShift, decOrd, decCode, anyOrder, ordImm, withPred, withMod, show o.isRelaxedOrRelease = true from h]
theorem cpBwait (p : Pred) (o : MemOrder) (s : Scope) : Statement (.cpBwait p o s) := by
  intro h w e
  cases e
  simp [decodeWord, decodeGroup, decT2, decT2x, decT1, decT1I, decS, decS0, decShift, decOrd, decCode, anyOrder, ordImm, withPred, withMod, show o.isRelaxedOrAcquire = true from h]
theorem atomRlx (p : Pred) (s : Scope) (b a : Target) : Statement (.atomRlx p s b a) := by
  intro _ w e
  cases e
  simp [decodeWord, decodeSync, decT2, decT2x, decT1, decT1I, decS, decS0, decShift, decOrd, decCode, anyOrder, ordImm, withPred, withMod, decAtom]
theorem atomAcq (p : Pred) (s : Scope) (b a : Target) : Statement (.atomAcq p s b a) := by
  intro _ w e
  cases e
  simp [decodeWord, decodeSync, decT2, decT2x, decT1, decT1I, decS, decS0, decShift, decOrd, decCode, anyOrder, ordImm, withPred, withMod, decAtom]
theorem atomRel (p : Pred) (s : Scope) (b a : Target) : Statement (.atomRel p s b a) := by
  intro _ w e
  cases e
  simp [decodeWord, decodeSync, decT2, decT2x, decT1, decT1I, decS, decS0, decShift, decOrd, decCode, anyOrder, ordImm, withPred, withMod, decAtom]
theorem atomAr (p : Pred) (s : Scope) (b a : Target) : Statement (.atomAr p s b a) := by
  intro _ w e
  cases e
  simp [decodeWord, decodeSync, decT2, decT2x, decT1, decT1I, decS, decS0, decShift, decOrd, decCode, anyOrder, ordImm, withPred, withMod, decAtom]
theorem cas (o : MemOrder) (p : Pred) (s : Scope) (b a : Target) : Statement (.cas o p s b a) := by
  intro _ w e
  cases e
  cases o <;> simp [decodeWord, decodeSync, decT2x, withPred, withMod, decAtom, MemOrder.code]
theorem red (p : Pred) (z : Size) (f : AtomOp) (o : MemOrder) (s : Scope) : Statement (.red p z f o s) := by
  intro h w e
  cases e
  have hm : redFormOk z f = true ∧ o.isRelaxedOrRelease = true := by simpa [WellFormed] using h
  simp [decodeWord, decodeSync, decT2, decT2x, decT1, decT1I, decS, decS0, decShift, decOrd, decCode, anyOrder, ordImm, withPred, withMod, hm]
theorem cntInit (p : Pred) (o : MemOrder) (s : Scope) : Statement (.cntInit p o s) := by
  intro h w e
  cases e
  simp [decodeWord, decodeSync, decT2, decT2x, decT1, decT1I, decS, decS0, decShift, decOrd, decCode, anyOrder, ordImm, withPred, withMod, show o.isRelaxedOrRelease = true from h]
theorem cntDec (p : Pred) (o : MemOrder) (s : Scope) : Statement (.cntDec p o s) := by
  intro h w e
  cases e
  simp [decodeWord, decodeSync, decT2, decT2x, decT1, decT1I, decS, decS0, decShift, decOrd, decCode, anyOrder, ordImm, withPred, withMod, show o.isRelaxedOrRelease = true from h]
theorem cntWait (p : Pred) (o : MemOrder) (s : Scope) : Statement (.cntWait p o s) := by
  intro h w e
  cases e
  simp [decodeWord, decodeSync, decT2, decT2x, decT1, decT1I, decS, decS0, decShift, decOrd, decCode, anyOrder, ordImm, withPred, withMod, show o.isRelaxedOrAcquire = true from h]
theorem cntFree (p : Pred) : Statement (.cntFree p) := by
  intro _ w e
  cases e
  simp [decodeWord, decodeSync, decT2, decT2x, decT1, decT1I, decS, decS0, decShift, decOrd, decCode, anyOrder, ordImm, withPred, withMod]
theorem taskPut (p : Pred) (isLocal : Bool) (a : Target) : Statement (.taskPut p isLocal a) := by
  intro _ w e
  cases e
  simp [decodeWord, decodeSync, decT2, decT2x, decT1, decT1I, decS, decS0, decShift, decOrd, decCode, anyOrder, ordImm, withPred, withMod]
theorem taskSdef (p : Pred) (a : Target) : Statement (.taskSdef p a) := by
  intro _ w e
  cases e
  simp [decodeWord, decodeSync, decT2, decT2x, decT1, decT1I, decS, decS0, decShift, decOrd, decCode, anyOrder, ordImm, withPred, withMod]
theorem taskReg (p : Pred) (a : Target) : Statement (.taskReg p a) := by
  intro _ w e
  cases e
  simp [decodeWord, decodeSync, decT2, decT2x, decT1, decT1I, decS, decS0, decShift, decOrd, decCode, anyOrder, ordImm, withPred, withMod]
theorem taskUnreg (p : Pred) : Statement (.taskUnreg p) := by
  intro _ w e
  cases e
  simp [decodeWord, decodeSync, decT2, decT2x, decT1, decT1I, decS, decS0, decShift, decOrd, decCode, anyOrder, ordImm, withPred, withMod]
theorem taskInfo (p : Pred) (a : Target) : Statement (.taskInfo p a) := by
  intro _ w e
  cases e
  simp [decodeWord, decodeSync, decT2, decT2x, decT1, decT1I, decS, decS0, decShift, decOrd, decCode, anyOrder, ordImm, withPred, withMod]
theorem plReq (p : Pred) (a : Target) : Statement (.plReq p a) := by
  intro _ w e
  cases e
  simp [decodeWord, decodeSystem, decT2, decT2x, decT1, decT1I, decS, decS0, decShift, decOrd, decCode, anyOrder, ordImm, withPred, withMod]
theorem leaseRel (p : Pred) : Statement (.leaseRel p) := by
  intro _ w e
  cases e
  simp [decodeWord, decodeSystem, decT2, decT2x, decT1, decT1I, decS, decS0, decShift, decOrd, decCode, anyOrder, ordImm, withPred, withMod]
theorem trap (p : Pred) (code : BitVec 16) : Statement (.trap p code) := by
  intro _ w e
  cases e
  simp [decodeWord, decodeSystem, decT2, decT2x, decT1, decT1I, decS, decS0, decShift, decOrd, decCode, anyOrder, ordImm, withPred, withMod]
theorem eret (p : Pred) : Statement (.eret p) := by
  intro _ w e
  cases e
  simp [decodeWord, decodeSystem, decT2, decT2x, decT1, decT1I, decS, decS0, decShift, decOrd, decCode, anyOrder, ordImm, withPred, withMod]
theorem sysrd (p : Pred) (r : SysReg) (t : Target) : Statement (.sysrd p r t) := by
  intro _ w e
  cases e
  simp [decodeWord, decodeSystem, decT2, decT2x, decT1, decT1I, decS, decS0, decShift, decOrd, decCode, anyOrder, ordImm, withPred, withMod]
theorem syswr (p : Pred) (r : SysReg) : Statement (.syswr p r) := by
  intro h w e
  cases e
  simp [decodeWord, decodeSystem, decT2, decT2x, decT1, decT1I, decS, decS0, decShift, decOrd, decCode, anyOrder, ordImm, withPred, withMod, show r.writable = true from h]
theorem feat (p : Pred) (w : BitVec 2) (t : Target) : Statement (.feat p w t) := by
  intro _ w e
  cases e
  simp [decodeWord, decodeSystem, decT2, decT2x, decT1, decT1I, decS, decS0, decShift, decOrd, decCode, anyOrder, ordImm, withPred, withMod]
theorem halt (p : Pred) : Statement (.halt p) := by
  intro _ w e
  cases e
  simp [decodeWord, decodeSystem, decT2, decT2x, decT1, decT1I, decS, decS0, decShift, decOrd, decCode, anyOrder, ordImm, withPred, withMod]
theorem nop (p : Pred) : Statement (.nop p) := by
  intro _ w e
  cases e
  simp [decodeWord, decodeSystem, decT2, decT2x, decT1, decT1I, decS, decS0, decShift, decOrd, decCode, anyOrder, ordImm, withPred, withMod]
theorem bkpt (p : Pred) (code : BitVec 16) : Statement (.bkpt p code) := by
  intro _ w e
  cases e
  simp [decodeWord, decodeSystem, decT2, decT2x, decT1, decT1I, decS, decS0, decShift, decOrd, decCode, anyOrder, ordImm, withPred, withMod]
theorem yield (p : Pred) : Statement (.yield p) := by
  intro _ w e
  cases e
  simp [decodeWord, decodeSystem, decT2, decT2x, decT1, decT1I, decS, decS0, decShift, decOrd, decCode, anyOrder, ordImm, withPred, withMod]
theorem blockFetch (cast : Nat) : Statement (.blockFetch cast) := fun _ _ h => nomatch h
theorem slotResultDeliver (cast seq slot : Nat) (v : Option Word) : Statement (.slotResultDeliver cast seq slot v) := fun _ _ h => nomatch h
theorem asyncCauseArrive (cast : Nat) (cause : AsyncCause) : Statement (.asyncCauseArrive cast cause) := fun _ _ h => nomatch h
theorem asyncTrapTake (cast : Nat) : Statement (.asyncTrapTake cast) := fun _ _ h => nomatch h
theorem classDReply (cast pid : Nat) (v0 v1 : Word) : Statement (.classDReply cast pid v0 v1) := fun _ _ h => nomatch h
theorem taskTokenStart (cast : Nat) : Statement (.taskTokenStart cast) := fun _ _ h => nomatch h
theorem preemptHalt (cast : Nat) : Statement (.preemptHalt cast) := fun _ _ h => nomatch h
theorem yieldPauseEnd (cast : Nat) : Statement (.yieldPauseEnd cast) := fun _ _ h => nomatch h
theorem rootDoneArrive (cast : Nat) : Statement (.rootDoneArrive cast) := fun _ _ h => nomatch h
theorem drainAppend (cast : Nat) : Statement (.drainAppend cast) := fun _ _ h => nomatch h
theorem drainComplete (cast : Nat) : Statement (.drainComplete cast) := fun _ _ h => nomatch h
theorem ctxSwComplete (cast : Nat) : Statement (.ctxSwComplete cast) := fun _ _ h => nomatch h
theorem tokenAccept (cast : Nat) (dst : Dest) (t : Token) : Statement (.tokenAccept cast dst t) := fun _ _ h => nomatch h
theorem elementFire (cast site : Nat) : Statement (.elementFire cast site) := fun _ _ h => nomatch h
theorem errorTokenForward (cast site : Nat) : Statement (.errorTokenForward cast site) := fun _ _ h => nomatch h
theorem reconfAlign (cast site : Nat) : Statement (.reconfAlign cast site) := fun _ _ h => nomatch h
theorem drainAlign (cast site : Nat) : Statement (.drainAlign cast site) := fun _ _ h => nomatch h
theorem selectorFire (cast site : Nat) : Statement (.selectorFire cast site) := fun _ _ h => nomatch h
theorem pulseArrive (cast site : Nat) (isDone : Bool) (child : Nat) : Statement (.pulseArrive cast site isDone child) := fun _ _ h => nomatch h
theorem nodeIterationBegin (cast site : Nat) : Statement (.nodeIterationBegin cast site) := fun _ _ h => nomatch h
theorem argWriteArrive (cast site ctx : Nat) (k : BitVec 32) : Statement (.argWriteArrive cast site ctx k) := fun _ _ h => nomatch h
theorem sbHndNew (cast pid site : Nat) (len : Word) : Statement (.sbHndNew cast pid site len) := fun _ _ h => nomatch h
theorem sbHndGive (cast : Nat) (h : Word) : Statement (.sbHndGive cast h) := fun _ _ h => nomatch h
theorem sbHndTake (cast pid : Nat) (h : Word) : Statement (.sbHndTake cast pid h) := fun _ _ h => nomatch h
theorem sbHndDrop (cast : Nat) (h : Word) : Statement (.sbHndDrop cast h) := fun _ _ h => nomatch h
theorem sbFire (cast site : Nat) : Statement (.sbFire cast site) := fun _ _ h => nomatch h
theorem mloadReply (cast site : Nat) : Statement (.mloadReply cast site) := fun _ _ h => nomatch h
theorem cxFire (cast site : Nat) : Statement (.cxFire cast site) := fun _ _ h => nomatch h
theorem veFire (cast site : Nat) : Statement (.veFire cast site) := fun _ _ h => nomatch h
theorem veDIntake (cast site : Nat) : Statement (.veDIntake cast site) := fun _ _ h => nomatch h
theorem veSwap (cast site : Nat) : Statement (.veSwap cast site) := fun _ _ h => nomatch h
theorem veConsumeAlone (cast site : Nat) (p : InPort) : Statement (.veConsumeAlone cast site p) := fun _ _ h => nomatch h
theorem veAccFlush (cast site : Nat) : Statement (.veAccFlush cast site) := fun _ _ h => nomatch h
theorem mxABeat (cast site : Nat) : Statement (.mxABeat cast site) := fun _ _ h => nomatch h
theorem mxBBeat (cast site : Nat) : Statement (.mxBBeat cast site) := fun _ _ h => nomatch h
theorem mxCommandTake (cast site : Nat) : Statement (.mxCommandTake cast site) := fun _ _ h => nomatch h
theorem mxCommandBegin (cast site : Nat) : Statement (.mxCommandBegin cast site) := fun _ _ h => nomatch h
theorem mxRowFire (cast site : Nat) : Statement (.mxRowFire cast site) := fun _ _ h => nomatch h
theorem mxDenseUpdate (cast site : Nat) : Statement (.mxDenseUpdate cast site) := fun _ _ h => nomatch h
theorem mxOutlierApply (cast site : Nat) : Statement (.mxOutlierApply cast site) := fun _ _ h => nomatch h
theorem mxReadBeat (cast site : Nat) : Statement (.mxReadBeat cast site) := fun _ _ h => nomatch h
theorem mxNoteEmit (cast site : Nat) : Statement (.mxNoteEmit cast site) := fun _ _ h => nomatch h
theorem mxSlotFree (cast site slot : Nat) : Statement (.mxSlotFree cast site slot) := fun _ _ h => nomatch h
theorem mxRelArrive (cast site slot : Nat) : Statement (.mxRelArrive cast site slot) := fun _ _ h => nomatch h
theorem mxClaimServe (cast pid site : Nat) (claim : Word) : Statement (.mxClaimServe cast pid site claim) := fun _ _ h => nomatch h
theorem mxStatServe (cast pid site : Nat) (form : StatForm) (slot : Nat) : Statement (.mxStatServe cast pid site form slot) := fun _ _ h => nomatch h
theorem mxScaleWrite (cast site : Nat) (v : BitVec 32) : Statement (.mxScaleWrite cast site v) := fun _ _ h => nomatch h
theorem mxReconfAlign (cast site : Nat) : Statement (.mxReconfAlign cast site) := fun _ _ h => nomatch h
theorem soTokenCheck (cast site : Nat) (p : InPort) : Statement (.soTokenCheck cast site p) := fun _ _ h => nomatch h
theorem soStep (cast site : Nat) : Statement (.soStep cast site) := fun _ _ h => nomatch h
theorem copyChainBegin (cast cix : Nat) : Statement (.copyChainBegin cast cix) := fun _ _ h => nomatch h
theorem copyRecordBegin (cast cix : Nat) : Statement (.copyRecordBegin cast cix) := fun _ _ h => nomatch h
theorem copySector (cast cix rec : Nat) : Statement (.copySector cast cix rec) := fun _ _ h => nomatch h
theorem copyRecordComplete (cast cix rec : Nat) : Statement (.copyRecordComplete cast cix rec) := fun _ _ h => nomatch h
theorem barrierUpdate (r : BarReq) : Statement (.barrierUpdate r) := fun _ _ h => nomatch h
theorem seAtomic (r : AtomReq) : Statement (.seAtomic r) := fun _ _ h => nomatch h
theorem seCntInit (r : CntReq) (n : BitVec 32) : Statement (.seCntInit r n) := fun _ _ h => nomatch h
theorem seCntDec (r : CntReq) (d : BitVec 32) : Statement (.seCntDec r d) := fun _ _ h => nomatch h
theorem seCntFree (r : CntReq) : Statement (.seCntFree r) := fun _ _ h => nomatch h
theorem seWaitRegister (r : Sender) : Statement (.seWaitRegister r) := fun _ _ h => nomatch h
theorem seGrpNew (r : Sender) (pid : Nat) (bmap nbits : Word) : Statement (.seGrpNew r pid bmap nbits) := fun _ _ h => nomatch h
theorem seGrpJoin (r : Sender) (pid : Nat) (h : Word) : Statement (.seGrpJoin r pid h) := fun _ _ h => nomatch h
theorem seGrpLeave (r : Sender) (h : Word) : Statement (.seGrpLeave r h) := fun _ _ h => nomatch h
theorem seGrpFree (r : Sender) (h : Word) : Statement (.seGrpFree r h) := fun _ _ h => nomatch h
theorem seGrpBarArrive (r : Sender) (h : Word) : Statement (.seGrpBarArrive r h) := fun _ _ h => nomatch h
theorem seGrpMark (r : Sender) (h bitIx : Word) (o : MemOrder) (s : Scope) : Statement (.seGrpMark r h bitIx o s) := fun _ _ h => nomatch h
theorem seBitmapOr (r : Sender) (tenant : Nat) (at_ : ByteAt) (group : Word) (bitIx : Nat) : Statement (.seBitmapOr r tenant at_ group bitIx) := fun _ _ h => nomatch h
theorem seMarkReport (group : Word) (wordIx : Nat) (v : Word) : Statement (.seMarkReport group wordIx v) := fun _ _ h => nomatch h
theorem seHoldRelease (die entry : Nat) : Statement (.seHoldRelease die entry) := fun _ _ h => nomatch h
theorem placerBusyRetry (iod qid index : Nat) : Statement (.placerBusyRetry iod qid index) := fun _ _ h => nomatch h
theorem channelRequest (r : MemReq) : Statement (.channelRequest r) := fun _ _ h => nomatch h
theorem replicaStoreApply (die page : Nat) : Statement (.replicaStoreApply die page) := fun _ _ h => nomatch h
theorem omapComplete (die : Nat) : Statement (.omapComplete die) := fun _ _ h => nomatch h
theorem sepurgeComplete (die : Nat) : Statement (.sepurgeComplete die) := fun _ _ h => nomatch h
theorem rollRowFill (cast : Nat) : Statement (.rollRowFill cast) := fun _ _ h => nomatch h
theorem rollFinish (cast : Nat) : Statement (.rollFinish cast) := fun _ _ h => nomatch h
theorem haltRemoval (cast : Nat) : Statement (.haltRemoval cast) := fun _ _ h => nomatch h
theorem inRingDeliver (cast port : Nat) : Statement (.inRingDeliver cast port) := fun _ _ h => nomatch h
theorem inRingTailPoll (cast port : Nat) : Statement (.inRingTailPoll cast port) := fun _ _ h => nomatch h
theorem outRingWrite (cast port : Nat) : Statement (.outRingWrite cast port) := fun _ _ h => nomatch h
theorem outRingHeadPoll (cast port : Nat) : Statement (.outRingHeadPoll cast port) := fun _ _ h => nomatch h
theorem castBindingTransfer (cast port : Nat) : Statement (.castBindingTransfer cast port) := fun _ _ h => nomatch h
theorem dispatchTaskPut (src : PutSource) (tenant die : Nat) (rq : TaskReq) : Statement (.dispatchTaskPut src tenant die rq) := fun _ _ h => nomatch h
theorem taskReady (tenant pa : Nat) : Statement (.taskReady tenant pa) := fun _ _ h => nomatch h
theorem stagingAdmit (tenant : Nat) : Statement (.stagingAdmit tenant) := fun _ _ h => nomatch h
theorem stagingPiece (task : Nat) : Statement (.stagingPiece task) := fun _ _ h => nomatch h
theorem stagingEnd (task : Nat) : Statement (.stagingEnd task) := fun _ _ h => nomatch h
theorem taskDeliver (cast : Nat) : Statement (.taskDeliver cast) := fun _ _ h => nomatch h
theorem taskSteal (cast : Nat) : Statement (.taskSteal cast) := fun _ _ h => nomatch h
theorem taskComplete (cast : Nat) : Statement (.taskComplete cast) := fun _ _ h => nomatch h
theorem ageingQuantum (die : Nat) : Statement (.ageingQuantum die) := fun _ _ h => nomatch h
theorem variantSwitch (cast : Nat) : Statement (.variantSwitch cast) := fun _ _ h => nomatch h
theorem wdog (cast : Nat) : Statement (.wdog cast) := fun _ _ h => nomatch h
theorem memtimeout (tenant cast : Nat) (va : Word) (requester : Nat) : Statement (.memtimeout tenant cast va requester) := fun _ _ h => nomatch h
theorem inboundWriteForward (port : Nat) : Statement (.inboundWriteForward port) := fun _ _ h => nomatch h
theorem hostReadTimeout (cast seq slot : Nat) : Statement (.hostReadTimeout cast seq slot) := fun _ _ h => nomatch h
theorem sealedCommit (port : Nat) : Statement (.sealedCommit port) := fun _ _ h => nomatch h
theorem doorbellKick (port fn qid : Nat) (v : Word) : Statement (.doorbellKick port fn qid v) := fun _ _ h => nomatch h
theorem packetFetch (iod slot : Nat) : Statement (.packetFetch iod slot) := fun _ _ h => nomatch h
theorem packetIssue (iod slot : Nat) : Statement (.packetIssue iod slot) := fun _ _ h => nomatch h
theorem packetComplete (iod qid index : Nat) : Statement (.packetComplete iod qid index) := fun _ _ h => nomatch h
theorem firmwareQueueSchedule (iod : Nat) (boundary : Bool) : Statement (.firmwareQueueSchedule iod boundary) := fun _ _ h => nomatch h
theorem pageWalk (die tenant : Nat) (va : Word) (write fetch : Bool) : Statement (.pageWalk die tenant va write fetch) := fun _ _ h => nomatch h
theorem tlbiAll (tid : Nat) : Statement (.tlbiAll tid) := fun _ _ h => nomatch h
theorem tlbiTenant (tid target : Nat) : Statement (.tlbiTenant tid target) := fun _ _ h => nomatch h
theorem tlbiRange (tid target size : Nat) : Statement (.tlbiRange tid target size) := fun _ _ h => nomatch h
theorem tlbiReserved (tid : Nat) (v : Word) : Statement (.tlbiReserved tid v) := fun _ _ h => nomatch h
theorem clearingWrite (tid : Nat) (r : DevReg) (v : Word) : Statement (.clearingWrite tid r v) := fun _ _ h => nomatch h
theorem omapcmdWrite (tid die : Nat) (v : Word) : Statement (.omapcmdWrite tid die v) := fun _ _ h => nomatch h
theorem sepurgeWrite (tid die : Nat) (v : Word) : Statement (.sepurgeWrite tid die v) := fun _ _ h => nomatch h
theorem keyGen (tid : Nat) (v : Word) : Statement (.keyGen tid v) := fun _ _ h => nomatch h
theorem keyClear (tid : Nat) (v : Word) : Statement (.keyClear tid v) := fun _ _ h => nomatch h
theorem keyLoad (tid : Nat) (v : Word) : Statement (.keyLoad tid v) := fun _ _ h => nomatch h
theorem keyReserved (tid : Nat) (v : Word) : Statement (.keyReserved tid v) := fun _ _ h => nomatch h
theorem plsubWrite (tid : Nat) (v : Word) : Statement (.plsubWrite tid v) := fun _ _ h => nomatch h
theorem featlockWrite (tid : Nat) (v : Word) : Statement (.featlockWrite tid v) := fun _ _ h => nomatch h
theorem bootstatReady (tid : Nat) (v : Word) : Statement (.bootstatReady tid v) := fun _ _ h => nomatch h
theorem registerWrite (tid : Nat) (r : DevReg) (v : Word) : Statement (.registerWrite tid r v) := fun _ _ h => nomatch h
theorem inboundPostedWrite (port : Nat) (q : Inbound) (data : List Byte) : Statement (.inboundPostedWrite port q data) := fun _ _ h => nomatch h
theorem inboundRead (port : Nat) (q : Inbound) (len tag : Nat) : Statement (.inboundRead port q len tag) := fun _ _ h => nomatch h
theorem qslotDefine (tid iod : Nat) (v : Word) : Statement (.qslotDefine tid iod v) := fun _ _ h => nomatch h
theorem qslotDelete (tid iod : Nat) (v : Word) : Statement (.qslotDelete tid iod v) := fun _ _ h => nomatch h
theorem qslotMap (tid iod : Nat) (v : Word) : Statement (.qslotMap tid iod v) := fun _ _ h => nomatch h
theorem qslotUnmap (tid iod : Nat) (v : Word) : Statement (.qslotUnmap tid iod v) := fun _ _ h => nomatch h
theorem qslotReserved (tid iod : Nat) (v : Word) : Statement (.qslotReserved tid iod v) := fun _ _ h => nomatch h
theorem tdispStopInterface (port fn : Nat) : Statement (.tdispStopInterface port fn) := fun _ _ h => nomatch h
theorem peerInboundRequest (tenant pa : Nat) (write : Bool) (len : Nat) (data : List Byte) (atom : Option AtomKind) (tag : Nat) : Statement (.peerInboundRequest tenant pa write len data atom tag) := fun _ _ h => nomatch h
theorem spdmMessage (q : SpdmReq) : Statement (.spdmMessage q) := fun _ _ h => nomatch h
theorem recoveryImageWrite (port : Nat) (image : List Byte) : Statement (.recoveryImageWrite port image) := fun _ _ h => nomatch h
theorem inboundAtomicop (port : Nat) (q : Inbound) (kind : AtomKind) (size : Size) (tag : Nat) : Statement (.inboundAtomicop port q kind size tag) := fun _ _ h => nomatch h
theorem pcieLinkStateChange (port : Nat) (up : Bool) : Statement (.pcieLinkStateChange port up) := fun _ _ h => nomatch h
theorem ualinkPortStateChange (port : Nat) (up : Bool) : Statement (.ualinkPortStateChange port up) := fun _ _ h => nomatch h
theorem tdispInterfaceRequest (port fn : Nat) (run : Bool) : Statement (.tdispInterfaceRequest port fn run) := fun _ _ h => nomatch h
theorem tlbiComplete : Statement (.tlbiComplete) := fun _ _ h => nomatch h
theorem keyComplete : Statement (.keyComplete) := fun _ _ h => nomatch h
theorem placerLoad : Statement (.placerLoad) := fun _ _ h => nomatch h
theorem placerMove : Statement (.placerMove) := fun _ _ h => nomatch h
theorem moveCutEmpty : Statement (.moveCutEmpty) := fun _ _ h => nomatch h
theorem cuttimeout : Statement (.cuttimeout) := fun _ _ h => nomatch h
theorem placerCompact : Statement (.placerCompact) := fun _ _ h => nomatch h
theorem placerRoll : Statement (.placerRoll) := fun _ _ h => nomatch h
theorem placerSave : Statement (.placerSave) := fun _ _ h => nomatch h
theorem placerRestore : Statement (.placerRestore) := fun _ _ h => nomatch h
theorem placerRemove : Statement (.placerRemove) := fun _ _ h => nomatch h
theorem placerResume : Statement (.placerResume) := fun _ _ h => nomatch h
theorem placerGrant : Statement (.placerGrant) := fun _ _ h => nomatch h
theorem placerRevoke : Statement (.placerRevoke) := fun _ _ h => nomatch h
theorem energyWindowEnd : Statement (.energyWindowEnd) := fun _ _ h => nomatch h
theorem fastLimiterSample : Statement (.fastLimiterSample) := fun _ _ h => nomatch h
theorem powerOn : Statement (.powerOn) := fun _ _ h => nomatch h
theorem iodVerifyRelease : Statement (.iodVerifyRelease) := fun _ _ h => nomatch h
theorem ucieTraining : Statement (.ucieTraining) := fun _ _ h => nomatch h
theorem cdVerifyRelease : Statement (.cdVerifyRelease) := fun _ _ h => nomatch h
theorem bootKeyGen : Statement (.bootKeyGen) := fun _ _ h => nomatch h

end Sys2Proof.Laws.Encoding
end

