-- ==== Sys2Proof/Laws/Fetch.lean ====
section
/-!
SUPPORT. Laws of words as bytes, of the slot that fires next, and of the fetch of a block.
-/
namespace Sys2Proof.Laws

open Sys2Proof.Machine Sys2Proof.Claims

theorem toNat_append {m n} (x : BitVec m) (y : BitVec n) : (x ++ y).toNat = 2 ^ n * x.toNat + y.toNat := by
  rw [BitVec.toNat_append, Nat.shiftLeft_eq, Nat.mul_comm, Nat.two_pow_add_eq_or_of_lt y.isLt]

theorem leBytes_word (b0 b1 b2 b3 : Byte) : leBytes 4 (b3 ++ b2 ++ b1 ++ b0 : BitVec 32).toNat = [b0, b1, b2, b3] := by
  have h0 := b0.isLt; have h1 := b1.isLt; have h2 := b2.isLt; have h3 := b3.isLt
  have e : (b3 ++ b2 ++ b1 ++ b0 : BitVec 32).toNat = b0.toNat + 256 * (b1.toNat + 256 * (b2.toNat + 256 * b3.toNat)) := by
    simp only [toNat_append]; omega
  have f : ∀ (b : Byte) (x : Nat), x % 256 = b.toNat → BitVec.ofNat 8 x = b := by
    intro b x hx; apply BitVec.eq_of_toNat_eq; rw [BitVec.toNat_ofNat]; exact hx
  simp only [leBytes, e]
  rw [f b0 _ (by omega), f b1 _ (by omega), f b2 _ (by omega), f b3 _ (by omega)]

theorem decode_leBytes (w : Word32) (rest : List Byte) : decode (leBytes 4 w.toNat ++ rest) = (decodeWord w).map fun i => (i, rest) := by
  have hw : (BitVec.ofNat 8 (w.toNat / 256 / 256 / 256) ++ BitVec.ofNat 8 (w.toNat / 256 / 256) ++ BitVec.ofNat 8 (w.toNat / 256) ++ BitVec.ofNat 8 w.toNat : BitVec 32) = w := by
    apply BitVec.eq_of_toNat_eq
    simp only [toNat_append, BitVec.toNat_ofNat]
    have := w.isLt
    omega
  simp only [leBytes, List.cons_append, List.nil_append, decode, hw]
  cases decodeWord w <;> rfl

theorem slotNext_idle {m : Memory} {d : Dev} {c n i} {k : Cast} {b : Block} (h : d.slotNext m c k b = some (n, i)) :
    ∃ sl, b.slots[n]? = some sl ∧ sl.phase = .idle ∧ sl.instr = some i := by
  simp only [Dev.slotNext] at h
  generalize hi : (List.range b.slots.length).filterMap _ = idle at h
  have key : ∀ x ∈ idle, b.slots[x.1]? = some x.2.1 ∧ x.2.1.phase = .idle ∧ x.2.1.instr = some x.2.2 := by
    intro x hx
    subst hi
    rw [List.mem_filterMap] at hx
    obtain ⟨m, _, hm⟩ := hx
    split at hm
    · next sl hs =>
      split at hm
      · next hp =>
        cases hj : sl.instr with
        | none => rw [hj] at hm; exact nomatch hm
        | some j => rw [hj] at hm; cases hm; exact ⟨hs, hp, hj⟩
      · exact nomatch hm
    · exact nomatch hm
  have fin : ∀ (f : Nat × Slot × Instr → Option (Nat × Instr)), (∀ x r, f x = some r → r = (x.1, x.2.2)) → idle.findSome? f = some (n, i) →
      ∃ sl, b.slots[n]? = some sl ∧ sl.phase = .idle ∧ sl.instr = some i := by
    intro f hf hs
    obtain ⟨x, hx, he⟩ := List.exists_of_findSome?_eq_some hs
    have := hf x _ he
    cases this
    obtain ⟨h1, h2, h3⟩ := key x hx
    exact ⟨x.2.1, h1, h2, h3⟩
  rw [Option.or_eq_some_iff] at h
  rcases h with h | ⟨_, h⟩
  · refine fin _ ?_ h
    rintro ⟨m, sl, j⟩ r hr
    dsimp only at hr
    split at hr
    · cases hr; rfl
    · exact nomatch hr
  · split at h
    · exact nomatch h
    · refine fin _ ?_ h
      rintro ⟨m, sl, j⟩ r hr
      dsimp only at hr
      split at hr
      · split at hr
        · exact nomatch hr
        · cases hr; rfl
      · exact nomatch hr

theorem instr_word {sl : Slot} {i} (h : sl.instr = some i) : sl.lit = false ∧ decodeWord sl.word = .ok i := by
  simp only [Slot.instr] at h
  split at h
  · exact nomatch h
  · next hl =>
    split at h
    · next j hj => cases h; exact ⟨by simpa using hl, hj⟩
    · exact nomatch h

theorem firstAct_skip {α : Type} (f : α → Option Action) (pre : List α) (x : α) (rest : List α) (a : Action) (h : ∀ e ∈ pre, f e = none) (hx : unstalled (f x) = some a) :
    firstAct f (pre ++ x :: rest) = some a := by
  induction pre with
  | nil => simp only [List.nil_append, firstAct, hx]; rfl
  | cons y l ih =>
    simp only [List.cons_append, firstAct, h y (by simp), unstalled, Option.filter_none, Option.none_or]
    exact ih fun e he => h e (by simp [he])

theorem withFeeders_map (ts : List Target) (n : Nat) (l : List Slot) : (withFeeders ts n l).map Slot.word = l.map Slot.word := by
  induction l generalizing n with
  | nil => rfl
  | cons s l ih => simp only [withFeeders, List.map_cons, ih]

theorem withFeeders_lit {ts : List Target} {n : Nat} {l : List Slot} {x} (hx : x ∈ withFeeders ts n l) : ∃ y ∈ l, y.word = x.word ∧ y.lit = x.lit := by
  induction l generalizing n with
  | nil => exact nomatch hx
  | cons s l ih =>
    simp only [withFeeders, List.mem_cons] at hx
    rcases hx with rfl | hx
    · exact ⟨s, by simp, rfl, rfl⟩
    · obtain ⟨y, hy, h⟩ := ih hx
      exact ⟨y, by simp [hy], h⟩

theorem checkSlots_words {h : Word32} {n lits : Nat} {q : Counts} {ws : List Word32} {sl} (e : checkSlots h n lits q ws = .ok sl) :
    sl.map Slot.word = ws ∧ ∀ x ∈ sl, x.lit = false → ∃ i, decodeWord x.word = .ok i := by
  induction ws generalizing n lits q sl with
  | nil => 
    have : sl = [] := by cases lits <;> (simp only [checkSlots] at e; cases e; rfl)
    subst this; exact ⟨rfl, fun x hx => nomatch hx⟩
  | cons w ws ih =>
    cases lits with
    | succ l =>
      simp only [checkSlots] at e
      split at e
      · exact nomatch e
      · next sl' e' =>
        cases e
        obtain ⟨h1, h2⟩ := ih e'
        refine ⟨by simp [h1], ?_⟩
        intro x hx hl
        rcases List.mem_cons.1 hx with rfl | hx
        · exact nomatch hl
        · exact h2 x hx hl
    | zero =>
      simp only [checkSlots] at e
      split at e
      · exact nomatch e
      · next j hj =>
        have fin : ∀ L, (if ws.length < L then Except.error { cause := 2, slot := n, i0 := BitVec.setWidth 64 h }
            else if q.exceeds (q.add j) j = true then Except.error { cause := 1, slot := n, i0 := BitVec.setWidth 64 w }
            else match checkSlots h (n + 1) L (q.add j) ws with
              | Except.error f => Except.error f
              | Except.ok sl => Except.ok ({ word := w } :: sl)) = (Except.ok sl : Except FetchFault (List Slot)) → 
            sl.map Slot.word = w :: ws ∧ ∀ x ∈ sl, x.lit = false → ∃ i, decodeWord x.word = .ok i := by
          intro L e
          split at e
          · exact nomatch e
          · split at e
            · exact nomatch e
            · split at e
              · exact nomatch e
              · next sl' e' =>
                cases e
                obtain ⟨h1, h2⟩ := ih e'
                refine ⟨by simp [h1], ?_⟩
                intro x hx hl
                rcases List.mem_cons.1 hx with rfl | hx
                · exact ⟨j, hj⟩
                · exact h2 x hx hl
        split at e
        · exact fin 1 e
        · exact fin 2 e
        · exact fin 0 e

theorem fetchWords_length {m : Memory} {k : Cast} {n : Nat} {va : Word} {d e : Dev} {ws} (h : Dev.fetchWords m k n va d = (.ok ws, e)) : ws.length = n := by
  induction n generalizing va d ws with
  | zero => cases h; rfl
  | succ n ih =>
    simp only [Dev.fetchWords] at h
    split at h
    · exact nomatch h
    · split at h
      · exact nomatch h
      · next h' => cases h; simp [ih h']

theorem patched_length (k : Cast) (h : Word32) (base : Nat) (ws : List Word32) : (patched k h base ws).length = ws.length := by
  simp only [patched]; split <;> simp

end Sys2Proof.Laws
end

