-- ==== Sys2Proof/Laws/MemOk.lean ====
section
/-!
SUPPORT. Laws of the memory's canonical form: every operation over the state that may write memory keeps it.
-/
namespace Sys2Proof.Machine

/-- An operation that may have nothing to do keeps the form if its result has it. -/
theorem getD_wf {s : State} {o : Option State} (ho : ∀ t, o = some t → t.mem.wf = true) (h : s.mem.wf = true) : (o.getD s).mem.wf = true := by
  cases o with
  | none => exact h
  | some t => exact ho t rfl

/-! ### Runs of bytes -/

@[simp] theorem State.perform_wf {s : State} {r : MemReq} (h : s.mem.wf = true) : (s.perform r).mem.wf = true := by
  simp only [State.perform]
  split <;> simp [h]

@[simp] theorem State.writeVa_wf (v : Via) (tenant : Nat) (agent : Agent) (fuel : Nat) (va : Word) (data : List Byte) {s : State}
    (h : s.mem.wf = true) : (State.writeVa v tenant agent fuel va data s).1.mem.wf = true := by
  induction fuel generalizing va data s with
  | zero => exact h
  | succ n ih =>
    simp only [State.writeVa]
    split
    · exact h
    · split
      · exact h
      · exact ih _ _ (State.perform_wf h)

@[simp] theorem State.writeRun_wf {s : State} (v : Via) (tenant : Nat) (agent : Agent) (va : Word) (data : List Byte)
    (h : s.mem.wf = true) : (s.writeRun v tenant agent va data).1.mem.wf = true :=
  State.writeVa_wf _ _ _ _ _ _ h

theorem State.writeRun_wf_of {s : State} {v : Via} {tenant : Nat} {agent : Agent} {va : Word} {data : List Byte}
    {r : State × Option (Word × XFault)} (e : s.writeRun v tenant agent va data = r) (h : s.mem.wf = true) : r.1.mem.wf = true :=
  e ▸ State.writeRun_wf _ _ _ _ _ h

@[simp] theorem State.seWrite_wf {s : State} (tenant pa : Nat) (rpl : Option Nat) (data : List Byte) (agent : Agent) (id : Nat) (h : s.mem.wf = true) :
    (s.seWrite tenant pa rpl data agent id).mem.wf = true := State.perform_wf h

theorem State.rmw_wf {s : State} (r : AtomReq) (h : s.mem.wf = true) : (s.rmw r).1.mem.wf = true := by
  simp only [State.rmw]
  split
  · split
    · exact State.perform_wf h
    · exact h
  · exact h

@[simp] theorem State.putWord_wf {s : State} (tenant : Nat) (va : Word) (v : Nat) (h : s.mem.wf = true) :
    (s.putWord tenant va v).mem.wf = true := State.writeRun_wf _ _ _ _ _ h

/-! ### Adapters and copy channels -/

@[simp] theorem State.readIndex_wf {s : State} (c ix : Nat) (k : Cast) (p : Port) (g : Ring) (off : Nat) (f : Nat → Ring → Ring)
    (h : s.mem.wf = true) : (s.readIndex c ix k p g off f).mem.wf = true := by
  simp only [State.readIndex]
  split <;> exact h

@[simp] theorem State.writeIndex_wf {s : State} (c ix : Nat) (k : Cast) (p : Port) (g : Ring) (off : Nat)
    (h : s.mem.wf = true) : (s.writeIndex c ix k p g off).mem.wf = true := by
  simp only [State.writeIndex]
  split
  · next e => exact State.writeRun_wf_of e h
  · next e => exact State.writeRun_wf_of e h

theorem State.copyRead_wf {s : State} {c cix : Nat} {k : Cast} {x : Chan} {va : Word} {len : Nat} {r : CopyRes (List Byte)}
    (e : s.copyRead c cix k x va len = r) (h : s.mem.wf = true) : r.1.mem.wf = true := by
  subst e
  simp only [State.copyRead]
  split <;> exact h

theorem State.copyWrite_wf {s : State} {c cix : Nat} {k : Cast} {x : Chan} {va : Word} {data : List Byte} {r : CopyRes Unit}
    (e : s.copyWrite c cix k x va data = r) (h : s.mem.wf = true) : r.1.mem.wf = true := by
  subst e
  simp only [State.copyWrite]
  split
  · next e => exact State.writeRun_wf_of e h
  · next e => exact State.writeRun_wf_of e h

theorem State.checkRecord_wf {s : State} {c cix : Nat} {k : Cast} {x : Chan} {r : CopyRec} {q : State × CopyRec × Except CopyErr Unit}
    (e : s.checkRecord c cix k x r = q) (h : s.mem.wf = true) : q.1.mem.wf = true := by
  subst e
  simp only [State.checkRecord]
  repeat' split
  all_goals first | exact h | exact State.copyRead_wf (r := (_, _)) ‹_› h

theorem State.loadRecord_wf {s : State} {c cix : Nat} {k : Cast} {x : Chan} {r : CopyRec} {q : State × CopyRec × Except CopyErr Bool}
    (e : s.loadRecord c cix k x r = q) (h : s.mem.wf = true) : q.1.mem.wf = true := by
  subst e
  simp only [State.loadRecord]
  split
  · exact h
  · split
    · next e => exact State.copyRead_wf e h
    · next e =>
      have h' := State.copyRead_wf e h
      split
      · exact h'
      · split
        · next e => exact State.checkRecord_wf e h'
        · next e => exact State.checkRecord_wf e h'

theorem State.sectorRead_wf {s : State} {c cix : Nat} {k : Cast} {x : Chan} {r : CopyRec} {space : Nat} {a : Word} {j : Nat} {q : CopyRes (List Byte)}
    (e : s.sectorRead c cix k x r space a j = q) (h : s.mem.wf = true) : q.1.mem.wf = true := by
  subst e
  simp only [State.sectorRead]
  split
  · exact State.copyRead_wf rfl h
  · split <;> exact h

theorem State.sectorWrite_wf {s : State} {c cix : Nat} {k : Cast} {x : Chan} {r : CopyRec} {space : Nat} {a : Word} {j : Nat}
    {data : List Byte} {q : CopyRes Unit}
    (e : s.sectorWrite c cix k x r space a j data = q) (h : s.mem.wf = true) : q.1.mem.wf = true := by
  subst e
  simp only [State.sectorWrite]
  split
  · exact State.copyWrite_wf rfl h
  · split <;> exact h

theorem State.gather_wf {c cix : Nat} {k : Cast} {x : Chan} {r : CopyRec} {t : Tile} {n e : Nat} {s : State} {q : CopyRes (List Byte)}
    (hq : State.gather c cix k x r t n e s = q) (h : s.mem.wf = true) : q.1.mem.wf = true := by
  subst hq
  induction n generalizing e s with
  | zero => exact h
  | succ n ih =>
    simp only [State.gather]
    split
    · split
      · next hg => have := ih (e := e + 1) h; rwa [hg] at this
      · next hg => have := ih (e := e + 1) h; rwa [hg] at this
    · split
      · next hr => exact State.copyRead_wf hr h
      · next hr =>
        have h' := ih (e := e + 1) (State.copyRead_wf hr h)
        split
        · next hg => rwa [hg] at h'
        · next hg => rwa [hg] at h'

theorem State.scatter_wf {c cix : Nat} {k : Cast} {x : Chan} {r : CopyRec} {t : Tile} {data : List Byte} {n e off : Nat} {s : State}
    {q : CopyRes Unit} (hq : State.scatter c cix k x r t data n e off s = q) (h : s.mem.wf = true) : q.1.mem.wf = true := by
  subst hq
  induction n generalizing e off s with
  | zero => exact h
  | succ n ih =>
    simp only [State.scatter]
    split
    · exact ih h
    · split
      · next hr => exact State.copyWrite_wf hr h
      · next hr => exact ih (State.copyWrite_wf hr h)

theorem State.slotSector_wf {s : State} {c cix : Nat} {k : Cast} {x : Chan} {r : CopyRec} {j : Nat} {q : CopyRes Unit}
    (e : s.slotSector c cix k x r j = q) (h : s.mem.wf = true) : q.1.mem.wf = true := by
  subst e
  simp only [State.slotSector]
  split
  · exact h
  · split
    · exact h
    · split
      · next e => exact State.sectorRead_wf e h
      · next e =>
        have h' := State.sectorRead_wf e h
        split
        · exact h'
        · split
          · split
            · next e => exact State.copyRead_wf e h'
            · next e => exact State.copyRead_wf e h'
          · exact h'

theorem State.sector_wf {s : State} {c cix : Nat} {k : Cast} {x : Chan} {r : CopyRec} {j : Nat} {q : CopyRes Unit}
    (e : s.sector c cix k x r j = q) (h : s.mem.wf = true) : q.1.mem.wf = true := by
  subst e
  simp only [State.sector]
  split
  · split
    · next e => exact State.sectorRead_wf e h
    · next e => exact State.sectorWrite_wf rfl (State.sectorRead_wf e h)
  · exact State.sectorWrite_wf rfl h
  · split
    · exact h
    · split
      · next e => exact State.gather_wf e h
      · next e => exact State.sectorWrite_wf rfl (State.gather_wf e h)
  · split
    · exact h
    · split
      · next e => exact State.sectorRead_wf e h
      · next e => exact State.scatter_wf rfl (State.sectorRead_wf e h)
  · exact State.slotSector_wf rfl h
  · split
    · exact h
    · exact State.sectorWrite_wf rfl h
  · split
    · next e => exact State.sectorRead_wf e h
    · next e => exact State.sectorRead_wf e h

@[simp] theorem State.resumeRecord_wf {s : State} (c cix : Nat) (k : Cast) (x : Chan) (r : CopyRec) (act : Resume)
    (h : s.mem.wf = true) : (s.resumeRecord c cix k x r act).mem.wf = true := by
  simp only [State.resumeRecord]
  split
  · exact h
  · split
    · next e => exact State.loadRecord_wf e h
    · next e => exact State.loadRecord_wf e h
    · next e => exact State.loadRecord_wf e h

@[simp] theorem State.beginRecord_wf {s : State} (c cix : Nat) (k : Cast) (x : Chan) (addr : Word)
    (h : s.mem.wf = true) : (s.beginRecord c cix k x addr).mem.wf = true := by
  simp only [State.beginRecord]
  split
  · next e => exact State.loadRecord_wf e h
  · next e => exact State.loadRecord_wf e h
  · next e => exact State.loadRecord_wf e h

theorem State.recordBarrier_wf {s : State} {c cix : Nat} {k : Cast} {x : Chan} {r : CopyRec} {q : CopyRes Unit}
    (e : s.recordBarrier c cix k x r = q) (h : s.mem.wf = true) : q.1.mem.wf = true := by
  subst e
  simp only [State.recordBarrier]
  repeat' split
  all_goals exact h

theorem State.recordStatus_wf {s : State} {c cix : Nat} {k : Cast} {x : Chan} {r : CopyRec} {q : CopyRes Unit}
    (e : s.recordStatus c cix k x r = q) (h : s.mem.wf = true) : q.1.mem.wf = true := by
  subst e
  simp only [State.recordStatus]
  split
  · exact State.copyWrite_wf rfl h
  · exact h

/-! ### Banks and streaming operators -/

@[simp] theorem State.portAccess_wf {s : State} (c n : Nat) (k : Cast) (b : SbSt) (va : Word) (v : Token)
    (h : s.mem.wf = true) : (s.portAccess c n k b va v).mem.wf = true := by
  simp only [State.portAccess]
  repeat' split
  all_goals first | exact h | exact State.perform_wf h

@[simp] theorem State.sbFire_wf {s : State} (c n : Nat) (h : s.mem.wf = true) : (s.sbFire c n).mem.wf = true := by
  simp only [State.sbFire]
  repeat' split
  all_goals first | exact h | exact State.portAccess_wf _ _ _ _ _ _ h

theorem State.soAccess_wf {s : State} {c n : Nat} {k : Cast} {o : SoSt} {addr : Word} {len : Nat} {w : Option Nat} {r : State × SoMem}
    (e : s.soAccess c n k o addr len w = r) (h : s.mem.wf = true) : r.1.mem.wf = true := by
  subst e
  simp only [State.soAccess]
  repeat' split
  all_goals first | exact h | exact State.perform_wf h

theorem State.soProbe_wf {s : State} {n : Nat} {k : Cast} {o : SoSt} {addr : Word} {len : Nat} {r : State × Option (Byte × Word)}
    (e : s.soProbe n k o addr len = r) (h : s.mem.wf = true) : r.1.mem.wf = true := by
  subst e
  simp only [State.soProbe]
  repeat' split
  all_goals exact h

theorem State.soWrites_wf {c n : Nat} {k : Cast} {o : SoSt} {ws : List (Word × Nat × Nat)} {s : State} {bad : Option Nat}
    {r : State × Option Nat} (e : State.soWrites c n k o ws s bad = r) (h : s.mem.wf = true) : r.1.mem.wf = true := by
  subst e
  induction ws generalizing s bad with
  | nil => exact h
  | cons w ws ih =>
    obtain ⟨addr, len, v⟩ := w
    rw [State.soWrites]
    split
    · next e => exact ih (State.soAccess_wf e h)
    · next e => exact ih (State.soAccess_wf e h)

theorem SoPlan.run_wf {c n : Nat} {k : Cast} {o : SoSt} {p : SoPlan} {reads : List SoRead} {ws : List (Word × Nat × Nat)} {s : State}
    {r : State × SoEnd} (e : SoPlan.run c n k o p reads ws s = r) (h : s.mem.wf = true) : r.1.mem.wf = true := by
  subst e
  induction p generalizing s reads ws with
  | wait => exact h
  | step =>
    simp only [SoPlan.run]
    split
    · next e => exact State.soWrites_wf e h
    · next e => exact State.soWrites_wf e h
  | malf => exact h
  | read _ _ _ _ next ih =>
    unfold SoPlan.run
    split
    · exact ih _ h
    · split
      · split
        · exact ih _ h
        · exact h
      · split
        · next e => exact State.soAccess_wf e h
        · next e => exact State.soAccess_wf e h
        · next e => exact State.soAccess_wf e h
  | write _ _ _ next ih =>
    simp only [SoPlan.run]
    split
    · next e => exact State.soProbe_wf e h
    · next e => exact ih (State.soProbe_wf e h)

theorem State.soAhead_wf {s t : State} {c n : Nat} {k : Cast} {o : SoSt} (e : s.soAhead c n k o = some t) (h : s.mem.wf = true) :
    t.mem.wf = true := by
  simp only [State.soAhead, Option.bind_eq_some_iff] at e
  obtain ⟨_, _, e⟩ := e
  split at e
  · next e' => cases e; exact State.soAccess_wf (s := s) e' h
  · exact nomatch e

theorem State.soProcess_wf {s t : State} {c n : Nat} {k : Cast} {o : SoSt}
    (e : s.soProcess c n k o = some t) (h : s.mem.wf = true) : t.mem.wf = true := by
  simp only [State.soProcess] at e
  split at e
  · exact nomatch e
  · split at e
    · exact nomatch e
    · split at e
      · exact State.soAhead_wf e h
      · next e' =>
        split at e
        · cases e; exact SoPlan.run_wf e' h
        · exact nomatch e
      · next e' => cases e; exact SoPlan.run_wf e' h
      · next e' => cases e; exact SoPlan.run_wf e' h
      · next e' =>
        split at e
        · cases e; exact SoPlan.run_wf e' h
        · exact State.soAhead_wf e h

theorem State.soAct_wf {s t : State} {c n : Nat} (e : s.soAct c n = some t) (h : s.mem.wf = true) : t.mem.wf = true := by
  simp only [State.soAct] at e
  repeat' split at e
  all_goals first | exact State.soProcess_wf e h | (obtain rfl := Option.some.inj e; exact h) | exact nomatch e

/-! ### Fault queues -/

@[simp] theorem State.postTail_wf {s : State} (tenant : Nat) (desc : Word) (value : Nat) (interrupt : Bool) (seen : Nat) (h : s.mem.wf = true) :
    (s.postTail tenant desc value interrupt seen).mem.wf = true := by
  simp only [State.postTail]
  repeat' split
  all_goals first | exact h | exact State.putWord_wf _ _ _ h

@[simp] theorem State.postEntry_wf {s : State} (tenant : Nat) (entry : List Byte) (h : s.mem.wf = true) :
    (s.postEntry tenant entry).mem.wf = true := by
  simp only [State.postEntry]
  repeat' split
  all_goals first | exact h | exact State.putWord_wf _ _ _ h | exact State.postTail_wf _ _ _ _ _ (State.writeRun_wf _ _ _ _ _ h)

/-! ### Images -/

theorem State.writeImage_wf {s : State} {tenant c kind : Nat} {via : Via} {addr : Word}
    {r : State × Option SaveRec × Option (Word × XFault)} (e : s.writeImage tenant c kind via addr = r) (h : s.mem.wf = true) :
    r.1.mem.wf = true := by
  subst e
  simp only [State.writeImage]
  split
  · exact h
  · split
    · next e => exact State.writeRun_wf_of e h
    · next e => exact State.writeRun_wf_of e h

theorem State.poolImage_wf {s : State} (c kind : Nat) (h : s.mem.wf = true) : (s.poolImage c kind).1.mem.wf = true := by
  simp only [State.poolImage]
  split
  · exact h
  · split
    · exact h
    · split
      · next e => exact State.writeImage_wf e h
      · next e => exact State.writeImage_wf e h

@[simp] theorem State.makeImage_wf {s : State} (c : Nat) (k : Cast) (h : s.mem.wf = true) : (s.makeImage c k).mem.wf = true := by
  have h' := State.poolImage_wf (s := { s with dev := s.dev.modCast c fun k => { k with saving := none } }) c 2 h
  simp only [State.makeImage]
  split
  · exact h'
  · exact h'
  · exact h

@[simp] theorem State.imageNow_wf {s : State} (c : Nat) (h : s.mem.wf = true) : (s.imageNow c).mem.wf = true := by
  simp only [State.imageNow]
  repeat' split
  all_goals first | exact h | exact State.makeImage_wf _ _ h

@[simp] theorem State.doJob_wf {s : State} (j : Job) (h : s.mem.wf = true) : (s.doJob j).mem.wf = true := by
  cases j
  · simp only [State.doJob]
    split
    · exact h
    · exact State.postEntry_wf _ _ h
  · exact State.postTail_wf _ _ _ _ _ h
  · exact h
  · exact State.imageNow_wf _ h

/-- An operation folded over a list keeps the form if it keeps it each time. -/
theorem foldl_wf {α : Type} {f : State → α → State} (hf : ∀ s x, s.mem.wf = true → (f s x).mem.wf = true) (l : List α) {s : State}
    (h : s.mem.wf = true) : (l.foldl f s).mem.wf = true := by
  induction l generalizing s with
  | nil => exact h
  | cons a l ih => exact ih (hf _ _ h)

@[simp] theorem State.flushJobs_wf {s : State} (h : s.mem.wf = true) : s.flushJobs.mem.wf = true :=
  foldl_wf (fun _ j h => State.doJob_wf j h) _ h

@[simp] theorem State.setPte_wf {s : State} (table ix : Nat) (e : Word) (h : s.mem.wf = true) :
    (s.setPte table ix e).mem.wf = true := writeAt_wf _ _ _ h

theorem State.tableFor_wf {va lvl table : Nat} {s : State} {r : Nat × State} (e : State.tableFor va lvl table s = some r)
    (h : s.mem.wf = true) : r.2.mem.wf = true := by
  induction lvl generalizing table s with
  | zero => cases e; exact h
  | succ n ih =>
    simp only [State.tableFor] at e
    split at e
    · exact ih e h
    · split at e
      · exact nomatch e
      · exact ih e (State.setPte_wf _ _ _ (foldl_wf (fun _ _ h => writeAt_wf _ _ _ h) _ h))

theorem State.writeLines_wf {n pa : Nat} {bs : List Byte} {s : State} (h : s.mem.wf = true) :
    (State.writeLines n pa bs s).mem.wf = true := by
  induction n generalizing pa bs s with
  | zero => exact h
  | succ n ih =>
    simp only [State.writeLines]
    repeat' split
    all_goals first | exact h | exact ih (writeAt_wf _ _ _ h)

theorem State.copyPages_wf {root c n va : Nat} {bs : List Byte} {s t : State} (e : State.copyPages root c n va bs s = some t)
    (h : s.mem.wf = true) : t.mem.wf = true := by
  induction n generalizing va bs s with
  | zero => cases e; exact h
  | succ n ih =>
    simp only [State.copyPages] at e
    split at e
    · exact nomatch e
    · next e' =>
      split at e
      · exact nomatch e
      · exact ih e (State.setPte_wf _ _ _ (State.writeLines_wf (State.tableFor_wf e' h)))

theorem State.copyImage_wf {s t : State} {i c : Nat} {bytes : List Byte} (e : s.copyImage i c bytes = some t)
    (h : s.mem.wf = true) : t.mem.wf = true := State.copyPages_wf e h

@[simp] theorem State.dropImage_wf {s : State} (c : Nat) (k : Cast) (h : s.mem.wf = true) : (s.dropImage c k).mem.wf = true := by
  simp only [State.dropImage]
  split
  · exact h
  · refine foldl_wf (fun s j h => ?_) _ h
    split
    · exact State.setPte_wf _ _ _ h
    · exact h

/-! ### Tasks and staging -/

@[simp] theorem State.writeTaskState_wf {s : State} (t : Task) (code : Nat) (h : s.mem.wf = true) :
    (s.writeTaskState t code).mem.wf = true := State.writeRun_wf _ _ _ _ _ h

@[simp] theorem State.discardTask_wf {s : State} (c id code : Nat) (h : s.mem.wf = true) : (s.discardTask c id code).mem.wf = true := by
  simp only [State.discardTask]
  split
  · exact h
  · exact State.writeTaskState_wf _ _ h

theorem State.decSuccessors_mem (k : Cast) (c : Nat) (t : Task) (l : List Word) (s : State) :
    (State.decSuccessors k c t l s).mem = s.mem := by
  induction l generalizing s with
  | nil => rfl
  | cons va l ih =>
    simp only [State.decSuccessors]
    split
    · exact ih s
    · split
      · exact ih _
      · exact ih _

@[simp] theorem State.finishTask_mem (s : State) (c id : Nat) (k : Cast) (t : Task) : (s.finishTask c id k t).mem = s.mem :=
  State.decSuccessors_mem k c t t.succ s

@[simp] theorem State.taskDone_wf {s : State} (t : Task) (h : s.mem.wf = true) : (s.taskDone t).mem.wf = true := by
  simp only [State.taskDone]
  split
  · exact h
  · exact State.writeTaskState_wf _ _ h

theorem State.cancelChain_wf {v : Via} {tenant die fuel : Nat} {va : Word} {s : State} (h : s.mem.wf = true) :
    (State.cancelChain v tenant die fuel va s).mem.wf = true := by
  induction fuel generalizing va s with
  | zero => exact h
  | succ n ih =>
    simp only [State.cancelChain]
    repeat' split
    all_goals first | exact h | exact ih (State.writeRun_wf _ _ _ _ _ h)

@[simp] theorem State.cancelChains_wf {s : State} (c : Nat) (h : s.mem.wf = true) : (s.cancelChains c).mem.wf = true := by
  simp only [State.cancelChains]
  split
  · exact h
  · refine foldl_wf (fun s x h => ?_) _ h
    exact foldl_wf (fun _ _ h => State.cancelChain_wf h) _ h

@[simp] theorem State.cancelStaging_wf {s : State} (c : Nat) (h : s.mem.wf = true) : (s.cancelStaging c).mem.wf = true := by
  have h' := State.cancelChains_wf c h
  simp only [State.cancelStaging]
  repeat' split
  all_goals exact h'

@[simp] theorem State.orphanTasks_wf {s : State} (c : Nat) (h : s.mem.wf = true) : (s.orphanTasks c).mem.wf = true := by
  simp only [State.orphanTasks]
  split
  · exact h
  · refine foldl_wf (fun _ _ h => State.discardTask_wf _ _ _ h) _ (foldl_wf (fun _ _ h => State.discardTask_wf _ _ _ h) _ ?_)
    split
    · split
      · exact h
      · split
        · rw [State.finishTask_mem]; exact h
        · exact State.discardTask_wf _ _ _ h
    · exact h

theorem State.scratchPiece_mem (s : State) (t : Task) (w : WsEnt) (n : Nat) : (s.scratchPiece t w n).1.mem = s.mem := by
  simp only [State.scratchPiece]
  repeat' split
  all_goals rfl

theorem State.cachePiece_mem (s : State) (t : Task) (w : WsEnt) (n : Nat) : (s.cachePiece t w n).1.mem = s.mem := by
  simp only [State.cachePiece]
  split <;> rfl

/-! ### Placing, moving and removing casts -/

@[simp] theorem State.freezeMove_wf {s : State} (r : PlReq) (b : PlBlock) (i : MoveItem) (rest : List MoveItem) (ix : Nat) (k : Cast)
    (res : Tbl Nat) (h : s.mem.wf = true) : (s.freezeMove r b i rest ix k res).mem.wf = true :=
  State.cancelStaging_wf i.cast h

@[simp] theorem State.goMove_mem (s : State) : s.goMove.mem = s.mem := by
  simp only [State.goMove]
  split <;> rfl

@[simp] theorem State.beginRemoval_wf {s : State} (c : Nat) (h : s.mem.wf = true) : (s.beginRemoval c).mem.wf = true :=
  State.cancelStaging_wf _ h

@[simp] theorem State.takeOut_wf {s : State} (c : Nat) (u v : Bool) (h : s.mem.wf = true) : (s.takeOut c u v).mem.wf = true := by
  simp only [State.takeOut]
  split
  · exact h
  · next k _ => exact State.dropImage_wf c k h

@[simp] theorem State.endRemoval_wf {s : State} (c : Nat) (u : Bool) (h : s.mem.wf = true) : (s.endRemoval c u).mem.wf = true := by
  simp only [State.endRemoval]
  split
  · exact h
  · have h' := State.orphanTasks_wf c h
    exact State.takeOut_wf c u false h'

@[simp] theorem State.takeAway_wf {s : State} (c : Nat) (h : s.mem.wf = true) : (s.takeAway c).mem.wf = true := by
  simp only [State.takeAway]
  have h' := State.orphanTasks_wf c h
  split
  · exact h'
  · exact State.takeOut_wf _ _ _ h'

@[simp] theorem State.plCount_mem (s : State) (tenant : Nat) (cnt : Word) : (s.plCount tenant cnt).mem = s.mem := by
  simp only [State.plCount]
  split
  · rfl
  · split <;> rfl

@[simp] theorem State.plPut_wf {s : State} (r : PlReq) (off : Nat) (bs : List Byte) (h : s.mem.wf = true) :
    (s.plPut r off bs).mem.wf = true := by
  simp only [State.plPut]
  split
  · exact h
  · exact State.writeRun_wf _ _ _ _ _ h

@[simp] theorem State.plEnd_mem (s : State) (f : PlFin) : (s.plEnd f).mem = s.mem := by
  simp only [State.plEnd]
  split
  · rfl
  · exact State.plCount_mem ..

@[simp] theorem State.plStatus_wf {s : State} (f : PlFin) (h : s.mem.wf = true) : (s.plStatus f).mem.wf = true := by
  simp only [State.plStatus]
  split
  · exact h
  · rw [State.plEnd_mem]
    exact State.plPut_wf _ _ _ h

@[simp] theorem State.plDone_wf {s : State} (r : PlReq) (b : PlBlock) (st : Bad) (result : Word) (cast : Nat) (h : s.mem.wf = true) :
    (s.plDone r b st result cast).mem.wf = true :=
  State.plStatus_wf _ (State.plPut_wf _ _ _ (State.plPut_wf _ _ _ h))

@[simp] theorem State.goOnFin_wf {s : State} (f : PlFin) (h : s.mem.wf = true) : (s.goOnFin f).mem.wf = true := by
  simp only [State.goOnFin]
  split
  · rw [State.plEnd_mem]
    exact h
  · exact State.plStatus_wf _ h

theorem State.onRequest_wf {s : State} (op : Nat) {f : State → PlReq → PlBlock → State}
    (hf : ∀ s r b, s.mem.wf = true → (f s r b).mem.wf = true) (h : s.mem.wf = true) : (s.onRequest op f).mem.wf = true := by
  simp only [State.onRequest]
  split
  · exact h
  · split
    · exact h
    · split
      · exact State.plDone_wf _ _ _ _ _ h
      · split
        · exact hf _ _ _ h
        · exact h

theorem State.takeAsk_mem (s : State) (a : PlAsk) : (s.takeAsk a).mem = s.mem := by
  simp only [State.takeAsk]
  repeat' split
  all_goals rfl

theorem State.place_wf {s t : State} {no : Nat} {k : Cast} (e : s.place no k = some t) (h : s.mem.wf = true) : t.mem.wf = true := by
  simp only [State.place] at e
  split at e
  · exact nomatch e
  · simp only [Option.map_eq_some_iff] at e
    obtain ⟨u, e', rfl⟩ := e
    exact State.copyImage_wf (t := u) e' h

theorem State.placeOver_wf {s t : State} {no old : Nat} {k : Cast} {r : PlReq} {b : PlBlock} (e : s.placeOver no old k r b = some t)
    (h : s.mem.wf = true) : t.mem.wf = true := by
  simp only [State.placeOver] at e
  split at e
  · exact nomatch e
  · simp only [Option.map_eq_some_iff] at e
    obtain ⟨u, e', rfl⟩ := e
    exact State.copyImage_wf (t := u) e' h

@[simp] theorem State.load_wf {s : State} (r : PlReq) (b : PlBlock) (h : s.mem.wf = true) : (s.load r b).mem.wf = true := by
  simp only [State.load]
  split
  · exact State.plDone_wf _ _ _ _ _ h
  · split
    · exact State.plDone_wf _ _ _ _ _ h
    · split
      · exact State.plDone_wf _ _ _ _ _ h
      · split
        · exact State.plDone_wf _ _ _ _ _ h
        · split
          · exact State.plDone_wf _ _ _ _ _ h
          · split
            · exact State.plDone_wf _ _ _ _ _ h
            · next e =>
              have h' := State.place_wf e h
              exact State.plDone_wf _ _ _ _ _ h'

@[simp] theorem State.endSave_wf {s : State} (r : PlReq) (b : PlBlock) (c : Nat) (f : Bool) (h : s.mem.wf = true) :
    (s.endSave r b c f).mem.wf = true := by
  simp only [State.endSave]
  split
  · next e =>
    have h' := State.writeImage_wf e h
    refine State.plDone_wf _ _ _ _ _ ?_
    split <;> exact h'
  · next e => exact State.plDone_wf _ _ _ _ _ (State.writeImage_wf e h)
  · next e =>
    have h' := State.writeImage_wf e h
    refine State.plDone_wf _ _ _ _ _ ?_
    split
    · exact State.takeAway_wf _ h'
    · split <;> exact h'

@[simp] theorem State.restore_wf {s : State} (r : PlReq) (b : PlBlock) (h : s.mem.wf = true) : (s.restore r b).mem.wf = true := by
  simp only [State.restore]
  repeat' (first | exact State.plDone_wf _ _ _ _ _ h | split)
  all_goals
    next e _ => exact State.plDone_wf _ _ _ _ _ (by have h' := State.place_wf e h; exact h')

@[simp] theorem State.roll_wf {s : State} (r : PlReq) (b : PlBlock) (h : s.mem.wf = true) : (s.roll r b).mem.wf = true := by
  simp only [State.roll]
  split
  · exact State.plDone_wf _ _ _ _ _ h
  · split
    · exact State.plDone_wf _ _ _ _ _ h
    · split
      · exact State.plDone_wf _ _ _ _ _ h
      · split
        · exact State.plDone_wf _ _ _ _ _ h
        · split
          · exact State.plDone_wf _ _ _ _ _ h
          · split
            · exact State.plDone_wf _ _ _ _ _ h
            · split
              · exact State.plDone_wf _ _ _ _ _ h
              · split
                · exact State.plDone_wf _ _ _ _ _ h
                · next e => exact State.placeOver_wf e h

@[simp] theorem State.runMoves_wf (r : PlReq) (b : PlBlock) (l : List MoveItem) (ix : Nat) {s : State} (h : s.mem.wf = true) :
    (State.runMoves r b l ix s).mem.wf = true := by
  induction l generalizing ix s with
  | nil => exact State.plDone_wf _ _ _ _ _ h
  | cons i l ih =>
    simp only [State.runMoves]
    split
    · exact State.plDone_wf _ _ _ _ _ h
    · split
      · exact State.plDone_wf _ _ _ _ _ h
      · split
        · split
          · refine ih _ ?_
            rw [State.goMove_mem]
            exact State.freezeMove_wf _ _ _ _ _ _ _ h
          · exact State.freezeMove_wf _ _ _ _ _ _ _ h
        · exact h

@[simp] theorem State.moveOn_wf {s : State} (h : s.mem.wf = true) : s.moveOn.mem.wf = true := by
  simp only [State.moveOn]
  split
  · split
    · refine State.runMoves_wf _ _ _ _ ?_
      rw [State.goMove_mem]
      exact h
    · exact h
  · exact h

theorem State.suspend_wf {s t : State} {c : Nat} {k : Cast} {x : Cand} (e : s.suspend c k x = some t) (h : s.mem.wf = true) :
    t.mem.wf = true := by
  simp only [State.suspend] at e
  split at e
  · split at e
    · next e' =>
      obtain rfl := Option.some.inj e
      have hc : (s.cancelStaging c).mem.wf = true := State.cancelStaging_wf _ h
      exact State.writeImage_wf e' hc
    · exact nomatch e
  · exact nomatch e

/-! ### Synchronization engine -/

@[simp] theorem State.cntInit_wf {s : State} (r : CntReq) (n : Nat) (h : s.mem.wf = true) : (s.cntInit r n).mem.wf = true := by
  simp only [State.cntInit]
  repeat' split
  all_goals first | exact h | exact State.seWrite_wf _ _ _ _ _ _ h

@[simp] theorem State.cntDec_wf {s : State} (r : CntReq) (n : Nat) (h : s.mem.wf = true) : (s.cntDec r n).mem.wf = true := by
  simp only [State.cntDec]
  repeat' split
  all_goals first | exact h | exact State.seWrite_wf _ _ _ _ _ _ h

theorem State.barArrive_mem (s : State) (r : Sender) (g : Word) : (s.barArrive r g).mem = s.mem := by
  simp only [State.barArrive]
  repeat' split
  all_goals rfl

theorem State.readWords_mem {die tenant : Nat} {g : GrpEnt} {one : Option Nat} {l : List Nat} {s : State}
    {r : State × Except (Word × XFault) (List Nat)} (e : State.readWords die tenant g one l s = r) : r.1.mem = s.mem := by
  subst e
  induction l generalizing s with
  | nil => rfl
  | cons ix l ih =>
    simp only [State.readWords]
    split
    · rfl
    · split
      · next e =>
        have h' := congrArg (fun r => r.1.mem) e
        exact h'.symm.trans ih
      · next e =>
        have h' := congrArg (fun r => r.1.mem) e
        exact h'.symm.trans ih

theorem State.registerBits_mem (s : State) (r : Sender) (k : Cast) (w : WaitSt) (g : Word) (one : Option Word) :
    (s.registerBits r k w g one).mem = s.mem := by
  simp only [State.registerBits]
  split
  · rfl
  · split
    · rfl
    · split
      · rfl
      · split
        · rfl
        · next e => exact State.readWords_mem e
        · next e => exact State.readWords_mem e

theorem State.register_mem (s : State) (r : Sender) : (s.register r).mem = s.mem := by
  simp only [State.register]
  repeat' split
  all_goals first | rfl | exact State.registerBits_mem ..

/-! ### Host -/

theorem State.slotDec_mem (s : State) (iod tid : Nat) (va : Word) (amt : Nat) : (s.slotDec iod tid va amt).mem = s.mem := by
  simp only [State.slotDec]
  split <;> rfl

theorem State.issuePacket_mem (s : State) (p : PktSt) (qdie typ amt : Nat) : (s.issuePacket p qdie typ amt).mem = s.mem := by
  simp only [State.issuePacket]
  repeat' split
  all_goals first | rfl | exact State.slotDec_mem ..

@[simp] theorem State.unmapQueue_wf {s : State} (iod slot qid : Nat) (h : s.mem.wf = true) : (s.unmapQueue iod slot qid).mem.wf = true := by
  simp only [State.unmapQueue]
  split
  · exact h
  · split
    · exact h
    · exact State.writeRun_wf _ _ _ _ _ (State.writeRun_wf _ _ _ _ _ h)

@[simp] theorem State.placeQueue_wf {iod : Nat} {s : State} (x : Nat × Nat) (h : s.mem.wf = true) :
    (State.placeQueue iod s x).mem.wf = true := by
  simp only [State.placeQueue]
  split
  · exact h
  · split
    · exact State.unmapQueue_wf _ _ _ h
    · exact h

theorem State.guarded_wf {s : State} (port tid : Nat) {f : State → State} (hf : (f s).mem.wf = true) (h : s.mem.wf = true) :
    (s.guarded port tid f).mem.wf = true := by
  simp only [State.guarded]
  split
  · exact h
  · exact hf

theorem State.qslotCommand_wf {s : State} (iod : Nat) (v : Word) (h : s.mem.wf = true) : (s.qslotCommand iod v).mem.wf = true := by
  simp only [State.qslotCommand]
  split
  · exact State.guarded_wf _ _ h h
  · exact State.guarded_wf _ _ h h
  · exact h
  · exact State.unmapQueue_wf _ _ _ h
  · exact h

theorem State.writeReg_wf {s : State} (r : DevReg) (v : Word) (h : s.mem.wf = true) : (s.writeReg r v).mem.wf = true := by
  cases r <;> simp only [State.writeReg, State.writeSeal]
  all_goals first
    | exact h
    | (split <;> first | exact h | exact State.qslotCommand_wf _ _ h | (split <;> exact h))
    | exact State.guarded_wf _ _ h h

theorem State.regWrite_wf {s : State} (tid : Nat) (r : DevReg) (v : Word) (h : s.mem.wf = true) : (s.regWrite tid r v).mem.wf = true := by
  simp only [State.regWrite]
  split
  · exact State.writeReg_wf _ _ h
  · exact h

@[simp] theorem State.forwardMem_wf {s : State} (port : Nat) (a : Arrival) (h : s.mem.wf = true) : (s.forwardMem port a).mem.wf = true := by
  have e : (s.forwardMem port a).mem = s.mem := by
    simp only [State.forwardMem]
    repeat' split
    all_goals rfl
  rw [e]; exact h

@[simp] theorem State.forwardOwn_wf {s : State} (port : Nat) (a : Arrival) (h : s.mem.wf = true) : (s.forwardOwn port a).mem.wf = true := by
  simp only [State.forwardOwn]
  repeat' split
  all_goals first | exact h | exact State.regWrite_wf _ _ _ h

@[simp] theorem State.retireWrite_wf {s : State} (port : Nat) (a : Arrival) (h : s.mem.wf = true) :
    (s.retireWrite port a).mem.wf = true := by
  simp only [State.retireWrite]
  split
  · rw [State.slotDec_mem]; exact h
  · exact h

end Sys2Proof.Machine
end

