-- ==== Sys2Proof/Laws/Package.lean ====
section
/-!
SUPPORT. Laws of engines, registers, boot, placer, scheduler and host ports, in the terms of the statements.
-/
namespace Sys2Proof.Laws

open Sys2Proof.Machine Sys2Proof.Claims

theorem atomNew_eq {op w old b new} (h : AtomGives op w old b new) : atomNew op w old b = new := by
  have sg : ∀ x, signedOf w x = if x < 2 ^ (w - 1) then (x : Int) else (x : Int) - 2 ^ w := by intro x; rfl
  cases op <;> simp only [AtomGives] at h <;> subst h <;> simp only [atomNew, pickInt, sg]
  all_goals first
    | rfl
    | skip
  · simp only [Bool.false_eq_true, if_false]; simp only [Nat.min_def]; split <;> split <;> simp_all <;> omega
  · simp only [if_true]; simp only [Nat.max_def]; split <;> split <;> simp_all <;> omega

theorem barrier_settle_same {b : Barrier} (h : ¬ (b.arrive = 0 ∧ b.pend ≤ 0)) : b.settle = b := if_neg h

theorem barrier_settle_next {b : Barrier} (h : b.arrive = 0) (h2 : b.pend = 0) : b.settle = { b with pend := 0, phase := (b.phase + 1) % 65536, arrive := b.arrcfg } := by
  rw [Barrier.settle, if_pos ⟨h, by omega⟩, if_neg (by omega)]

theorem find_range_first (f : Nat → Bool) (i : Nat) (h1 : i < 4096) (h2 : f i = false) (h3 : ∀ j, j < i → f j = true) :
    (List.range 4096).find? (fun i => !f i) = some i := by
  rw [List.find?_range_eq_some]
  exact ⟨by simp [h2], by simpa using h1, fun j hj => by simp [h3 j hj]⟩

theorem mk_modGrp (m : Memory) (d : Dev) (h f) : State.mk m (d.modGrp h f) = onGroup h f (State.mk m d) := by
  have : grpIx h = h.toNat % 2 ^ 12 := by simp [grpIx, field]
  simp only [Dev.modGrp, this]; rfl

theorem modGrp_onGroup (d : Dev) (h f) : d.modGrp h f = (onGroup h f (State.mk [] d)).dev := by
  rw [← mk_modGrp]

theorem keyAt_congr (d : Dev) {a b : Nat} (h : a / 2 ^ 21 = b / 2 ^ 21) : d.keyAt a = d.keyAt b := by
  have h1 : paDie a = paDie b := by simp only [paDie]; omega
  simp only [Dev.keyAt, Dev.omapAt, h1, h]

theorem writeAt_hbm {s : State} {tenant pa k : Nat} {data : List Byte} (h0 : paRegion (s.dev.ownPa pa) = 0) (h1 : s.dev.admits tenant (s.dev.ownPa pa) = true)
    (hk : s.dev.keyAt (s.dev.ownPa pa) = some k) : writeAt s tenant pa data =
      if s.dev.lineKey.get 0 (s.dev.ownPa pa / 128) = k then { s with mem := s.mem.write (s.dev.ownPa pa) data }
      else { mem := (if s.dev.lineKey.get 0 (s.dev.ownPa pa / 128) = 0 then s.mem else rekeyLine s.mem s.dev (s.dev.ownPa pa)).write (s.dev.ownPa pa) data, dev := { s.dev with lineKey := s.dev.lineKey.set 0 (s.dev.ownPa pa / 128) k } } := by
  simp only [writeAt, h0, h1, hk, if_true]

theorem plain_self {m : Memory} {d : Dev} {a k : Nat} (h : d.keyAt a = some k) (h1 : d.lineKey.get 0 (a / 128) = k ∨ d.lineKey.get 0 (a / 128) = 0) :
    d.plainByte m a = m.byte a := by
  simp only [Dev.plainByte, Dev.writtenKey, h]; exact if_pos h1

/-- What a byte reads as depends on its granule's key, its line's key and its block of 16 bytes alone. -/
theorem plain_congr {m m' : Memory} {d d' : Dev} {a : Nat} (h : d'.keyAt a = d.keyAt a) (h1 : d'.lineKey.get 0 (a / 128) = d.lineKey.get 0 (a / 128))
    (h2 : ∀ b, b / 16 = a / 16 → m'.byte b = m.byte b) : d'.plainByte m' a = d.plainByte m a := by
  have hr : m'.read (a / 16 * 16) 16 = m.read (a / 16 * 16) 16 := by
    simp only [Memory.read, List.map_inj_left, List.mem_range]
    intro i hi; exact h2 _ (by omega)
  simp only [Dev.plainByte, Dev.writtenKey, h, h1, hr, h2 a rfl]
  rfl

theorem rekeyLine_byte (m : Memory) (d : Dev) (pa a : Nat) :
    (rekeyLine m d pa).byte a = if a / 128 = pa / 128 then d.plainByte m a else m.byte a := by
  have hlen : ((List.range 128).map fun i => d.plainByte m (pa / 128 * 128 + i)).length = 128 := by simp
  split
  · next ha =>
    rw [rekeyLine, Memory.byte_write, if_pos (by rw [hlen]; omega)]
    have hi : a - pa / 128 * 128 < 128 := by omega
    simp only [List.getD_eq_getElem?_getD, List.getElem?_map, List.getElem?_range hi, Option.map_some, Option.getD_some,
      show pa / 128 * 128 + (a - pa / 128 * 128) = a by omega]
  · next ha => rw [rekeyLine]; exact Memory.byte_write_outside (by rw [hlen]; omega)

theorem writeAt_hbm_bytes (s : State) (tenant pa0 : Nat) (data : List Byte) : let pa := s.dev.ownPa pa0
    paRegion pa = 0 → s.dev.admits tenant pa = true → pa / 128 = (pa + (data.length - 1)) / 128 →
    ∃ l, (writeAt s tenant pa0 data).dev = { s.dev with lineKey := l } ∧
          (∀ k, k < data.length → stands (writeAt s tenant pa0 data) (pa + k) = data.getD k 0) ∧
          (∀ a, a < pa / 128 * 128 ∨ pa / 128 * 128 + 128 ≤ a → (writeAt s tenant pa0 data).mem.byte a = s.mem.byte a ∧ stands (writeAt s tenant pa0 data) a = stands s a) ∧
          (∀ a, s.dev.keyAt a = s.dev.keyAt pa → a < pa ∨ pa + data.length ≤ a → stands (writeAt s tenant pa0 data) a = stands s a) := by
  intro pa h0 h1 h2
  obtain ⟨k, hk⟩ : ∃ k, s.dev.keyAt pa = some k := by
    simp only [Dev.admits, Bool.and_eq_true] at h1; exact Option.isSome_iff_exists.mp h1.2
  -- In both cases the line is written under the granule's key, and its other bytes read as before.
  have key : ∃ (m : Memory) (l : Tbl Nat), writeAt s tenant pa0 data = { mem := m.write pa data, dev := { s.dev with lineKey := l } } ∧ l.get 0 (pa / 128) = k ∧
      (∀ j, j ≠ pa / 128 → l.get 0 j = s.dev.lineKey.get 0 j) ∧ ∀ a, m.byte a = if a / 128 = pa / 128 then s.dev.plainByte s.mem a else s.mem.byte a := by
    rw [writeAt_hbm h0 h1 hk]
    split
    · next hl =>
      refine ⟨s.mem, s.dev.lineKey, rfl, hl, fun _ _ => rfl, fun a => ?_⟩
      split
      · next ha => exact (plain_self (k := k) (by rw [keyAt_congr s.dev (show a / 2 ^ 21 = pa / 2 ^ 21 by omega), hk]) (.inl (by rw [ha]; exact hl))).symm
      · rfl
    · refine ⟨_, _, rfl, ?_, fun j hj => ?_, fun a => ?_⟩
      · show Tbl.get 0 (Tbl.set 0 _ (pa / 128) k) (pa / 128) = k; rw [Tbl.get_set, if_pos rfl]
      · show Tbl.get 0 (Tbl.set 0 _ (pa / 128) k) j = _; rw [Tbl.get_set, if_neg hj]
      · split
        · next hz =>
          split
          · next ha => exact (plain_self (k := k) (by rw [keyAt_congr s.dev (show a / 2 ^ 21 = pa / 2 ^ 21 by omega), hk]) (.inr (by rw [ha]; exact hz))).symm
          · rfl
        · exact rekeyLine_byte s.mem s.dev pa a
  obtain ⟨m, l, e, hl, hl', hm⟩ := key
  rw [e]
  have inLine : ∀ a, a / 128 = pa / 128 → stands { mem := m.write pa data, dev := { s.dev with lineKey := l } } a = (m.write pa data).byte a := fun a ha =>
    plain_self (k := k) (by show s.dev.keyAt a = _; rw [keyAt_congr s.dev (show a / 2 ^ 21 = pa / 2 ^ 21 by omega), hk]) (.inl (by show l.get 0 (a / 128) = k; rw [ha]; exact hl))
  have out : ∀ a, a / 128 ≠ pa / 128 → (m.write pa data).byte a = s.mem.byte a := fun a ha => by
    rw [Memory.byte_write_outside (by omega), hm, if_neg ha]
  have outStands : ∀ a, a / 128 ≠ pa / 128 → stands { mem := m.write pa data, dev := { s.dev with lineKey := l } } a = stands s a := fun a ha =>
    plain_congr (d := s.dev) (d' := { s.dev with lineKey := l }) rfl (hl' _ ha) fun b hb => out b (by omega)
  refine ⟨l, rfl, fun j hj => ?_, fun a ha => ⟨out a (by omega), outStands a (by omega)⟩, fun a _ ha => ?_⟩
  · rw [inLine _ (by omega), Memory.byte_write, if_pos (by omega), show pa + j - pa = j by omega]
  · by_cases h : a / 128 = pa / 128
    · rw [inLine a h, Memory.byte_write_outside ha, hm, if_pos h]; rfl
    · exact outStands a h

theorem keySlots_fold (f : Tbl Nat → Nat → Tbl Nat) (slot : Nat) (g : Dev → Nat → Dev) (hg : ∀ d die, g d die = { d with keySlots := f d.keySlots (64 * die + slot) }) :
    ∀ (l : List Nat) (d : Dev), l.foldl g d = { d with keySlots := l.foldl (fun t die => f t (64 * die + slot)) d.keySlots } := by
  intro l
  induction l with
  | nil => intro d; rfl
  | cons a l ih => intro d; simp only [List.foldl_cons, ih, hg]

theorem writeAt_replicas (s : State) (tenant pa data) : (writeAt s tenant pa data).dev.replicas = s.dev.replicas := by
  simp only [writeAt]
  repeat (first | rfl | split)

theorem replicaStoreApply_eq (s : State) (die page n r rest) (h : s.dev.replicas.get [] (page / 4096 * 8 + die % 8) = (n, r) :: rest) :
    exec (.replicaStoreApply die page) s = .next
      (let u := s.perform { r with pa := 2 ^ 40 * (r.pa / 2 ^ 40) + 2 ^ 37 * (die % 8) + r.pa % 2 ^ 37, rpl := none, write := true }
       settledFor r.agent r.id { u with dev := { u.dev with replicas := s.dev.replicas.set [] (page / 4096 * 8 + die % 8) rest } }) := by
  simp only [exec, execReplicaStoreApply, replicaKey, h, onDie, State.perform, settledFor, writeAt_replicas]

theorem field_congr {w : Nat} {x y : BitVec w} {lo n : Nat} (h : ∀ i, i < n → x.getLsbD (lo + i) = y.getLsbD (lo + i)) : field x lo n = field y lo n := by
  simp only [field]
  apply Nat.eq_of_testBit_eq
  intro i
  rw [Nat.testBit_mod_two_pow, Nat.testBit_mod_two_pow, Nat.testBit_div_two_pow, Nat.testBit_div_two_pow]
  by_cases hi : i < n
  · have := h i hi
    simp only [BitVec.getLsbD] at this
    rw [Nat.add_comm i lo, this]
  · simp [hi]

theorem keyWord_fields (op : Nat) (h : op < 4) (v : Word) : (∀ i, 2 ≤ i → i < 64 → (keyWord op v).getLsbD i = v.getLsbD i) ∧ field (keyWord op v) 0 2 = op := by
  constructor
  · intro i h1 h2
    have e3 : (3 : Word).getLsbD i = false := by
      have : ∀ j : Fin 64, 2 ≤ j.val → (3 : Word).getLsbD j.val = false := by decide
      exact this ⟨i, h2⟩ h1
    have eo : (BitVec.ofNat 64 op).getLsbD i = false := by
      have : ∀ o : Fin 4, ∀ j : Fin 64, 2 ≤ j.val → (BitVec.ofNat 64 o.val).getLsbD j.val = false := by decide
      exact this ⟨op, h⟩ ⟨i, h2⟩ h1
    simp only [keyWord, BitVec.getLsbD_or, BitVec.getLsbD_and, BitVec.getLsbD_not, h2, e3, eo]; simp
  · have : field (keyWord op v) 0 2 = field (BitVec.ofNat 64 op : Word) 0 2 := by
      apply field_congr
      intro i hi
      simp only [keyWord, BitVec.getLsbD_or, BitVec.getLsbD_and, BitVec.getLsbD_not]
      have e3 : (3 : Word).getLsbD (0 + i) = true := by
        have : ∀ j : Fin 2, (3 : Word).getLsbD (0 + j.val) = true := by decide
        exact this ⟨i, hi⟩
      simp only [e3]; simp
    rw [this]
    have : ∀ o : Fin 4, field (BitVec.ofNat 64 o.val : Word) 0 2 = o.val := by decide
    exact this ⟨op, h⟩

theorem slotWord_fields (op : Nat) (h : op < 8) (v : Word) : slotWord op v = qslotWord op v ∧ (∀ i, i < 20 ∨ 23 ≤ i → i < 64 → (qslotWord op v).getLsbD i = v.getLsbD i) ∧ field (qslotWord op v) 20 3 = op := by
  refine ⟨rfl, ?_, ?_⟩
  · intro i h1 h2
    have e3 : (0x700000 : Word).getLsbD i = false := by
      have : ∀ j : Fin 64, j.val < 20 ∨ 23 ≤ j.val → (0x700000 : Word).getLsbD j.val = false := by decide
      exact this ⟨i, h2⟩ h1
    have eo : (BitVec.ofNat 64 (2 ^ 20 * op)).getLsbD i = false := by
      have : ∀ o : Fin 8, ∀ j : Fin 64, j.val < 20 ∨ 23 ≤ j.val → (BitVec.ofNat 64 (2 ^ 20 * o.val)).getLsbD j.val = false := by decide
      exact this ⟨op, h⟩ ⟨i, h2⟩ h1
    simp only [qslotWord, BitVec.getLsbD_or, BitVec.getLsbD_and, BitVec.getLsbD_not, h2, e3, eo]; simp
  · have : field (qslotWord op v) 20 3 = field (BitVec.ofNat 64 (2 ^ 20 * op) : Word) 20 3 := by
      apply field_congr
      intro i hi
      simp only [qslotWord, BitVec.getLsbD_or, BitVec.getLsbD_and, BitVec.getLsbD_not]
      have e3 : (0x700000 : Word).getLsbD (20 + i) = true := by
        have : ∀ j : Fin 3, (0x700000 : Word).getLsbD (20 + j.val) = true := by decide
        exact this ⟨i, hi⟩
      simp only [e3]; simp
    rw [this]
    have : ∀ o : Fin 8, field (BitVec.ofNat 64 (2 ^ 20 * o.val) : Word) 20 3 = o.val := by decide
    exact this ⟨op, h⟩

theorem regWrite_zero (s : State) (r : DevReg) (v : Word) (h : regExists s.dev.part r = true) : s.regWrite 0 r v = s.writeReg r v := by
  simp only [State.regWrite, h, and_self, if_true]

theorem tlbi_fields : (∀ t, t < 256 → field (BitVec.ofNat 64 (1 + 2 ^ 8 * t) : Word) 0 2 = 1 ∧ field (BitVec.ofNat 64 (1 + 2 ^ 8 * t) : Word) 8 8 = t ∧
     field (BitVec.ofNat 64 (1 + 2 ^ 8 * t) : Word) 16 3 = 0 ∧ bitAt (BitVec.ofNat 64 (1 + 2 ^ 8 * t) : Word) 29 = false ∧ bitAt (BitVec.ofNat 64 (1 + 2 ^ 8 * t) : Word) 30 = false) ∧
   (∀ t z, t < 256 → z < 8 → field (BitVec.ofNat 64 (2 + 2 ^ 8 * t + 2 ^ 16 * z) : Word) 0 2 = 2 ∧ field (BitVec.ofNat 64 (2 + 2 ^ 8 * t + 2 ^ 16 * z) : Word) 8 8 = t ∧
     field (BitVec.ofNat 64 (2 + 2 ^ 8 * t + 2 ^ 16 * z) : Word) 16 3 = z ∧ bitAt (BitVec.ofNat 64 (2 + 2 ^ 8 * t + 2 ^ 16 * z) : Word) 29 = false ∧ bitAt (BitVec.ofNat 64 (2 + 2 ^ 8 * t + 2 ^ 16 * z) : Word) 30 = false) := by
  constructor
  · intro t ht
    simp only [field, bitAt, BitVec.toNat_ofNat, BitVec.getLsbD_ofNat, Nat.testBit_eq_decide_div_mod_eq]
    refine ⟨by omega, by omega, by omega, ?_, ?_⟩ <;> simp <;> omega
  · intro t z ht hz
    simp only [field, bitAt, BitVec.toNat_ofNat, BitVec.getLsbD_ofNat, Nat.testBit_eq_decide_div_mod_eq]
    refine ⟨by omega, by omega, by omega, ?_, ?_⟩ <;> simp <;> omega

theorem num_two (b : List Byte) (h : 3 ≤ b.length) : num b 2 1 = (b.getD 2 0).toNat := by
  match b, h with
  | _ :: _ :: z :: _, _ => show leNat [z] = z.toNat; simp [leNat]

theorem cdfail_fold_bit (n : Nat) : ∀ (l : List Nat) (f : BitVec 8), (∀ x ∈ l, x < 8) → n < 8 →
   (l.foldl (fun f die => f ||| BitVec.ofNat 8 (2 ^ die)) f).getLsbD n = (f.getLsbD n || l.contains n) := by
  intro l
  induction l with
  | nil => intro f _ _; simp
  | cons a l ih =>
    intro f h hn
    rw [List.foldl_cons, ih _ (fun x hx => h x (List.mem_cons_of_mem _ hx)) hn]
    have ha := h a (List.mem_cons_self ..)
    have : (BitVec.ofNat 8 (2 ^ a)).getLsbD n = (n == a) := by
      have : ∀ a n : Fin 8, (BitVec.ofNat 8 (2 ^ a.val)).getLsbD n.val = (n.val == a.val) := by decide
      exact this ⟨a, ha⟩ ⟨n, hn⟩
    rw [BitVec.getLsbD_or, this, List.contains_cons, Bool.or_assoc]

theorem cdfail_fold_or : ∀ (l : List Nat) (f : BitVec 8), l.foldl (fun f die => f ||| BitVec.ofNat 8 (2 ^ die)) f = f ||| l.foldl (fun f die => f ||| BitVec.ofNat 8 (2 ^ die)) 0 := by
  intro l
  induction l with
  | nil => intro f; simp
  | cons a l ih => intro f; simp only [List.foldl_cons]; rw [ih, ih (0 ||| _)]; simp [BitVec.or_assoc]

theorem ebal_fold (g : Nat → Int → Int) (t0 : Tbl Int) (i : Nat) : ∀ n, i < n →
    Tbl.get 0 ((List.range n).foldl (fun (t : Tbl Int) i => Tbl.set 0 t i (g i (t0.get 0 i))) []) i = g i (t0.get 0 i) := by
  intro n
  induction n with
  | zero => intro h; omega
  | succ n ih =>
    intro h
    rw [List.range_succ, List.foldl_append, List.foldl_cons, List.foldl_nil, Tbl.get_set]
    split
    · next h' => rw [h']
    · exact ih (by omega)

theorem releaseIod_eq (m : Memory) (d : Dev) (i : Nat) : State.mk m (d.releaseIod i) = iodReleased i (State.mk m d) := by
  simp only [Dev.releaseIod, iodReleased]; split <;> rfl

theorem releaseIod_mk (s : State) (i : Nat) : (State.mk s.mem (s.dev.releaseIod i)) = iodReleased i s := releaseIod_eq _ _ _

theorem modBoot_mk (m : Memory) (d : Dev) (f) : State.mk m (d.modBoot f) = onBoot f (State.mk m d) := rfl

theorem onRequest_of_Asked {s u : State} {op r b} (h : Asked s op r b u) (f) : s.onRequest op f = f u r b := by
  obtain ⟨rest, hq, ⟨hc, hf, hr⟩, hm, ho, h⟩ := h
  have hb : s.dev.placerBusy = false := by
    simp only [Dev.placerBusy, hc, hf, Option.isSome_none, List.isEmpty_nil, Bool.not_true, Bool.or_false, Bool.false_or]
    simpa using hr
  have hn : s.dev.nextReq = some (r, (onPlacer (fun p => { p with queue := rest }) s).dev) := by
    simp only [Dev.nextReq, hq, hb]; rfl
  simp only [State.onRequest, hn]
  rcases h with ⟨hb, rfl⟩ | ⟨hb, d, hr, rfl⟩
  · simp only [hb, hm, ho]; rfl
  · have hr' : Dev.readBlock s.mem (onPlacer (fun p => { p with queue := rest }) s).dev r.tenant r.addr = (some b, d) := hr
    simp only [hb, hr', hm, ho]; rfl

theorem cur_of_Asked {s u : State} {op r b} (h : Asked s op r b u) : s.dev.pl.cur = none := by
  obtain ⟨_, _, hc, _⟩ := h; exact hc.1

theorem settle_pl (d : Dev) (c : Nat) : (d.settleUsage c).pl = d.pl := by
  simp only [Dev.settleUsage]
  split
  · rfl
  · split
    · split <;> rfl
    · rfl

theorem pairPort_pl (d : Dev) (c i : Nat) : (d.pairPort c i).pl = d.pl := by
  simp only [Dev.pairPort]
  split
  · rfl
  · split
    · split
      · rfl
      · split <;> rfl
    · rfl

theorem postAll_pl (n : Nat) : ∀ (l : List Instr) (d : Dev), (d.postAll n l).pl = d.pl := by
  intro l; induction l with
  | nil => intro d; rfl
  | cons a l ih => intro d; exact ih _

theorem pairFold_pl (c : Nat) : ∀ (l : List Nat) (d : Dev), (l.foldl (fun d ix => d.pairPort c ix) d).pl = d.pl := by
  intro l; induction l with
  | nil => intro d; rfl
  | cons a l ih => intro d; exact (ih _).trans (pairPort_pl _ _ _)

theorem takeRow_pl (d : Dev) (n row : Nat) : (d.takeRow n row).pl = d.pl := by
  simp only [Dev.takeRow]
  split
  · rfl
  · rw [pairFold_pl, postAll_pl]; rfl

theorem endOpenWait_pl (d : Dev) (c p) : (d.endOpenWait c p).pl = d.pl := by
  simp only [Dev.endOpenWait]
  split
  · rfl
  · split <;> rfl

theorem rowFill_eq (s : State) (c : Nat) (x : RollSt) (k : Cast) (h : s.dev.pl.rolls.find c = some x) (hk : s.dev.casts.find c = some k)
    (hf : x.filled < k.hb) : ∃ t, exec (.rollRowFill c) s = .next t ∧ t.mem = s.mem ∧ t.dev.pl.rolls.find c = some { x with
        filled := x.filled + 1, released := max x.released (x.filled + 1), filling := false } := by
  simp only [exec, execRollRowFill, h, hk, if_pos hf]
  refine ⟨_, rfl, rfl, ?_⟩
  simp only [endOpenWait_pl, takeRow_pl, Dev.modPl, Tbl.find_upd_self, Dev.modCast, Dev.unpair, settle_pl, h]
  rfl

theorem plDone_answered (r b e res c) (s : State) : s.plDone r b e res c = answered r b e.1 e.2 res c s := rfl

theorem ringAt_of {s c ix k p g} (h : ServesRing s c ix k p g) : s.dev.ringAt c ix = some (k, p, g) := by
  obtain ⟨h1, h2, h3, h4, _⟩ := h
  simp only [Dev.ringAt, h1, h2, h3, h4]; rfl

theorem find_upd_map {α} (f : α → α) (id : Nat) : ∀ (t : Tbl α) (j : Nat), (Tbl.upd t id f).find j = if j = id then (t.find j).map f else t.find j := by
  intro t j
  by_cases h : j = id
  · subst h; simp [Tbl.find_upd_self]
  · simp [Tbl.find_upd, h]

theorem modTask_fold (f : Task → Task) (hf : ∀ x, f (f x) = f x) : ∀ (ids : List Nat) (d : Dev) (id : Nat),
    (ids.foldl (fun d i => d.modTask i f) d).sch.tasks.find id = if id ∈ ids then (d.sch.tasks.find id).map f else d.sch.tasks.find id := by
  intro ids
  induction ids with
  | nil => intro d id; simp
  | cons a l ih =>
    intro d id
    rw [List.foldl_cons, ih]
    have : (d.modTask a f).sch.tasks.find id = if id = a then (d.sch.tasks.find id).map f else d.sch.tasks.find id := find_upd_map _ _ _ _
    rw [this]
    by_cases h : id = a <;> by_cases h2 : id ∈ l <;> simp only [h, h2, if_true, if_false, Option.map_map, show f ∘ f = f from funext hf]
    · simp [List.mem_cons, h2]
    · simp [List.mem_cons, h2, h]
    · simp [List.mem_cons, h2, h]
    · simp [List.mem_cons, h2, h]

theorem readied_eq (now : Nat) (t : Task) : t.ready now = readied now t := by
  simp only [Task.ready, readied]
  congr 1
  simp only [Bool.or_eq_true, Bool.and_eq_true, Bool.not_eq_true', List.all_eq_true, beq_iff_eq]

theorem packetComplete_fold_sch (pks : List PktSt) : ∀ d : Dev, (pks.foldl (fun d p => d.post 0 (.packetComplete p.iod p.qid p.index)) d).sch = d.sch := by
  induction pks with
  | nil => intro d; rfl
  | cons a l ih => intro d; exact ih _

theorem fold_now (n : Nat) : ∀ (ids : List Nat) (d : Dev), d.now = n →
    ids.foldl (fun d id => d.modTask id fun t => t.ready d.now) d = ids.foldl (fun d id => d.modTask id fun t => t.ready n) d := by
  intro ids; induction ids with
  | nil => intro d _; rfl
  | cons a l ih => intro d h; rw [List.foldl_cons, List.foldl_cons, ih (d.modTask a fun t => t.ready d.now) h, h]

theorem onCast_onCast (c : Nat) (f g : Cast → Cast) (s : State) : onCast c f (onCast c g s) = onCast c (fun k => f (g k)) s := by
  simp only [onCast, Tbl.upd_upd]

theorem give_eq (s : State) (c id : Nat) (k : Cast) (t : Task) (hk : s.dev.casts.find c = some k) (ht : s.dev.sch.tasks.find id = some t) :
    ({ s with dev := s.dev.give c id k.die } : State) = given c id k t s := by
  have ht' : s.dev.task? id = some t := ht
  simp only [Dev.give, hk, ht', given]
  rfl

theorem sample_fold (l : List (Nat × Stage)) : ∀ (m : Memory) (d : Dev),
    State.mk m (l.foldl (fun d e => d.sampleStage e.1 e.2) d) = l.foldl (fun t e => sampled e.1 e.2 t) (State.mk m d) := by
  induction l with
  | nil => intro m d; rfl
  | cons a l ih => intro m d; exact ih m _

theorem acceptInbound_eq (s : State) (port : Nat) (q : Inbound) (len : Nat) :
    (¬ PassesGate s port q len → s.dev.acceptInbound port q len = (false, s.dev)) ∧
    (PassesGate s port q len → ¬ InStream s port q → s.dev.acceptInbound port q len = (false, s.dev.postFault 0 [0x0D, BitVec.ofNat 64 (q.fn + 256 * port)])) ∧
    (PassesGate s port q len → InStream s port q → s.dev.acceptInbound port q len = (true, s.dev)) := by
  have e1 : (!s.dev.part.hasPort port || decide (64 ≤ q.fn) || decide (barSize q < q.off + len) || (!s.dev.boot.ready && !inFile q) || !bitAt (s.dev.fncfgOf port q.fn) 8 || tdst (s.dev.fncfgOf port q.fn) == 3) = true ↔ ¬ PassesGate s port q len := by
    have ht : tdst (s.dev.fncfgOf port q.fn) = (s.dev.fncfgOf port q.fn).toNat / 2 ^ 10 % 4 := by simp [tdst, field]
    simp only [PassesGate, ht, Part.hasPort, bitAt]
    cases s.dev.boot.ready <;> cases inFile q <;> cases BitVec.getLsbD (s.dev.fncfgOf port q.fn) 8 <;> by_cases h : port = 0 <;> by_cases h2 : port = 1 <;> cases s.dev.part <;>
      simp [h, h2] <;> omega
  have e2 : (bitAt (s.dev.fncfgOf port q.fn) 9 ∧ !s.dev.inStream port q) ↔ ¬ InStream s port q := by
    simp only [InStream, bitAt, Dev.inStream]
    have : (s.dev.host.bound.any fun b => b.2.1 == port && b.2.2.1 == q.fn) = true ↔ ∃ b ∈ s.dev.host.bound, b.2.1 = port ∧ b.2.2.1 = q.fn := by
      simp only [List.any_eq_true, Bool.and_eq_true, beq_iff_eq]
    rw [← this]
    cases BitVec.getLsbD (s.dev.fncfgOf port q.fn) 9 <;> cases q.ide <;> cases (s.dev.host.bound.any fun b => b.2.1 == port && b.2.2.1 == q.fn) <;> simp
  refine ⟨fun h => ?_, fun h h2 => ?_, fun h h2 => ?_⟩
  · simp only [Dev.acceptInbound]; rw [if_pos (by exact e1.mpr h)]
  · simp only [Dev.acceptInbound]; rw [if_neg (by rw [e1]; simpa using h), if_pos (by rw [e2]; exact h2)]
  · simp only [Dev.acceptInbound]; rw [if_neg (by rw [e1]; simpa using h), if_neg (by rw [e2]; simpa using h2)]

theorem openBytes_eq (d : Dev) (len : Nat) : (d.openBytes len).2 = d.tickFree := rfl

theorem stopQueue_eq (s : State) (iod qid ix reason reply : Nat) (addr : Word) (q : QueueEnt) (h : s.dev.host.queues.find (1024 * iod + qid) = some q) :
    ({ s with dev := s.dev.stopQueue iod qid ix reason reply addr } : State) = queueStopped iod qid ix reason reply addr q s := by
  simp only [Dev.stopQueue, h, queueStopped, reported, onSlot, onHost]
  cases q.slot <;> rfl

end Sys2Proof.Laws
end

