-- ==== Sys2Proof/Laws/Scan.lean ====
section
/-!
SUPPORT. Laws of the scan for the next move: the state that a move starts from has its memory in canonical form.
-/
namespace Sys2Proof.Machine

/-- The state that a move starts from. -/
def Action.state : Action → State
  | .run _ s => s
  | .quiet s => s

/-- Whatever move is chosen starts from a memory in canonical form. -/
def Clean (o : Option Action) : Prop := ∀ a, o = some a → a.state.mem.wf = true

theorem Clean.none : Clean none := fun _ h => nomatch h

theorem Clean.some {a : Action} (h : a.state.mem.wf = true) : Clean (some a) := fun _ e => Option.some.inj e ▸ h

theorem Clean.or {o p : Option Action} (h : Clean o) (h' : Clean p) : Clean (o.or p) := by
  cases o with
  | none => exact h'
  | some a => exact h

theorem Clean.ite {c : Prop} [Decidable c] {o p : Option Action} (h : Clean o) (h' : Clean p) : Clean (if c then o else p) := by
  split
  · exact h
  · exact h'

theorem Clean.map {α : Type} {f : α → Action} {o : Option α} (h : ∀ x, (f x).state.mem.wf = true) : Clean (o.map f) := by
  cases o with
  | none => exact Clean.none
  | some a => exact Clean.some (h a)

theorem Clean.bind {α : Type} {f : α → Option Action} {o : Option α} (h : ∀ x, Clean (f x)) : Clean (o.bind f) := by
  cases o with
  | none => exact Clean.none
  | some a => exact h a

theorem Clean.unstalled {o : Option Action} (h : Clean o) : Clean (unstalled o) := fun a e => by
  simp only [Machine.unstalled, Option.filter_eq_some_iff] at e
  exact h a e.1

theorem Clean.firstAct {α : Type} {f : α → Option Action} (h : ∀ x, Clean (f x)) (l : List α) : Clean (firstAct f l) := by
  induction l with
  | nil => exact Clean.none
  | cons a l ih => exact (Clean.unstalled (h a)).or ih

section
variable {s : State} (h : s.mem.wf = true)
include h

theorem State.when_clean (b : Bool) (i : Instr) : Clean (s.when b i) := Clean.ite (Clean.some (by exact h)) Clean.none

theorem State.nextDue_clean : Clean s.nextDue := by
  refine Clean.map fun x => ?_
  dsimp only
  split <;> exact h

theorem State.nextWalk_clean : Clean s.nextWalk := Clean.firstAct (fun _ => Clean.map fun _ => by exact h) _

theorem State.nextAsync_clean (c : Nat) (k : Cast) : Clean (s.nextAsync c k) := Clean.ite (Clean.some h) Clean.none

theorem State.nextSe_clean : Clean s.nextSe := Clean.map fun _ => h

theorem State.nextOfThread_clean (c : Nat) (k : Cast) : Clean (s.nextOfThread c k) := by
  simp only [State.nextOfThread]
  repeat' split
  all_goals first | exact Clean.none | exact Clean.some h | exact State.when_clean h _ _ | exact Clean.map fun _ => h

theorem State.nextStore_clean (c : Nat) (k : Cast) : Clean (s.nextStore c k) := by
  refine Clean.map fun x => ?_
  dsimp only
  split <;> exact h

theorem State.nextOfMat_clean (c n : Nat) (k : Cast) (site : Site) (m : MxSt) : Clean (s.nextOfMat c n k site m) := by
  have one : ∀ (b : Bool) (i : Instr), Clean (if b then some (s.act i) else none) := fun b i => Clean.ite (Clean.some (by exact h)) Clean.none
  exact (one _ _).or <| (one _ _).or <| (one _ _).or <| (one _ _).or <| (one _ _).or <| (one _ _).or <| (one _ _).or <| (one _ _).or <|
    (one _ _).or <| (Clean.ite (Clean.some (by exact h)) Clean.none).or <| (Clean.map fun _ => by exact h).or (one _ _)

theorem State.nextOfElem_clean (c : Nat) (k : Cast) (n : Nat) (site : Site) : Clean (s.nextOfElem c k n site) := by
  have one := State.when_clean h
  simp only [State.nextOfElem]
  split
  · exact Clean.none
  · exact one _ _
  · exact one _ _
  · exact (one _ _).or <| (one _ _).or <| (Clean.firstAct (fun _ => one _ _) _).or <| (one _ _).or (one _ _)
  · exact State.nextOfMat_clean h _ _ _ _ _
  · exact (one _ _).or <| (one _ _).or (one _ _)

theorem State.nextOfSite_clean (c : Nat) (k : Cast) (n : Nat) (site : Site) : Clean (s.nextOfSite c k n site) := by
  have follow : Clean (if k.canFollow s.dev n then some (s.tidy (s.dev.sendNext c n)) else none) := Clean.ite (Clean.some (by exact h)) Clean.none
  refine Clean.ite Clean.none (Clean.ite follow (follow.or <| (State.when_clean h _ _).or <| (State.nextOfElem_clean h _ _ _ _).or <|
    (State.when_clean h _ _).or (Clean.ite Clean.none (Clean.map fun _ => by exact h))))

theorem State.nextOfLinks_clean (c : Nat) (k : Cast) : Clean (s.nextOfLinks c k) := by
  refine Clean.or (Clean.firstAct (fun _ => Clean.ite (Clean.some (by exact h)) Clean.none) _) (Clean.firstAct (fun ix => ?_) _)
  split
  · exact Clean.none
  · exact Clean.ite (Clean.some (by exact h)) (Clean.ite (Clean.some (by exact h)) Clean.none)

theorem State.nextCopy_clean (p c : Nat) (k : Cast) : Clean (s.nextCopy p c k) := Clean.map fun _ => h

theorem State.nextHeld_clean : Clean s.nextHeld :=
  Clean.firstAct (fun _ => Clean.firstAct (fun _ => State.when_clean h _ _) _) _

theorem State.nextOfCur_clean : Clean s.nextOfCur := by
  simp only [State.nextOfCur]
  split
  · exact Clean.ite Clean.none (Clean.map fun _ => h)
  · exact State.when_clean h _ _
  · exact Clean.ite (Clean.some (by exact h)) (State.when_clean h _ _)
  · exact State.when_clean h _ _
  · exact State.when_clean h _ _

theorem State.nextOfRoll_clean (c : Nat) (x : RollSt) : Clean (s.nextOfRoll c x) :=
  Clean.bind fun _ => Clean.ite (Clean.some (by exact h)) (Clean.ite (Clean.some (by exact h)) (Clean.ite (Clean.some (State.beginRemoval_wf c h)) Clean.none))

theorem State.nextOfPlacer_clean : Clean s.nextOfPlacer := by
  refine Clean.or (Clean.firstAct (fun _ => State.nextOfRoll_clean h _ _) _) <| Clean.or (Clean.firstAct (fun _ => State.when_clean h _ _) _) <|
    Clean.or (Clean.firstAct (fun e => Clean.ite (Clean.some (by exact State.endRemoval_wf e.1 true h)) Clean.none) _) <|
    Clean.or (Clean.firstAct (fun e => Clean.ite (Clean.some (by exact State.makeImage_wf e.1 e.2 h)) Clean.none) _) <|
    Clean.or (Clean.ite (Clean.map fun a => ?_) Clean.none) <| Clean.or (Clean.map fun f => by exact State.goOnFin_wf f h) (State.nextOfCur_clean h)
  show (s.takeAsk a).mem.wf = true
  rw [State.takeAsk_mem]
  exact h

theorem State.nextOfPort_clean (c ix : Nat) : Clean (s.nextOfPort c ix) :=
  (State.when_clean h _ _).or <| (State.when_clean h _ _).or <| (State.when_clean h _ _).or <| (State.when_clean h _ _).or (State.when_clean h _ _)

theorem State.nextPiece_clean (id : Nat) (t : Task) : Clean (s.nextPiece id t) := State.when_clean h _ _

theorem State.nextOfSched_clean : Clean s.nextOfSched :=
  (Clean.firstAct (fun _ => State.when_clean h _ _) _).or <| (Clean.firstAct (fun _ => State.when_clean h _ _) _).or <|
  (Clean.firstAct (fun _ => State.when_clean h _ _) _).or <| (Clean.map fun _ => by exact h).or <|
  (Clean.firstAct (fun _ => State.when_clean h _ _) _).or <| (Clean.firstAct (fun _ => Clean.map fun _ => by exact h) _).or
  (Clean.firstAct (fun _ => State.when_clean h _ _) _)

theorem State.nextOfInbox_clean (port : Nat) : Clean (s.nextOfInbox port) := by
  simp only [State.nextOfInbox]
  split
  · exact Clean.some (State.retireWrite_wf _ _ h)
  · exact Clean.map fun _ => h

theorem State.nextOfQueues_clean (iod : Nat) : Clean (s.nextOfQueues iod) :=
  (Clean.firstAct (fun _ => State.when_clean h _ _) _).or (Clean.map fun _ => by exact h)

theorem State.nextOfFirmware_clean (iod : Nat) : Clean (s.nextOfFirmware iod) := (State.when_clean h _ _).or (State.when_clean h _ _)

theorem State.nextOfCommands_clean : Clean s.nextOfCommands :=
  (State.when_clean h _ _).or <| (State.when_clean h _ _).or <| (Clean.firstAct (fun _ => State.when_clean h _ _) _).or
  (Clean.firstAct (fun _ => State.when_clean h _ _) _)

theorem State.nextOfBoot_clean : Clean s.nextOfBoot := by
  simp only [State.nextOfBoot]
  split
  all_goals first | exact Clean.some h | exact Clean.none

theorem State.nextOfPackage_clean : Clean s.nextOfPackage :=
  Clean.or ((State.when_clean h _ _).or (State.when_clean h _ _)) <| (State.nextOfCommands_clean h).or <|
  (Clean.firstAct (fun _ => State.nextOfInbox_clean h _) _).or <| (Clean.firstAct (fun _ => State.nextOfQueues_clean h _) _).or <|
  (State.nextOfSched_clean h).or <| (State.nextOfPlacer_clean h).or (State.nextOfBoot_clean h)

theorem State.nextOfCast_clean (c : Nat) (k : Cast) : Clean (s.nextOfCast c k) := by
  have ports : Clean (Machine.firstAct (fun ix => s.nextOfPort c ix) (List.range k.ports.length)) :=
    Clean.firstAct (fun _ => State.nextOfPort_clean h _ _) _
  exact Clean.ite (Clean.ite Clean.none ports) ((State.nextOfLinks_clean h _ _).or <|
    (Clean.firstAct (fun _ => State.nextOfSite_clean h _ _ _ _) _).or ports)

omit h in
theorem Clean.turned {o : Option Action} (x : Nat × Nat) (h : Clean o) : Clean (o.map (Action.turned x)) := fun a e => by
  obtain ⟨b, hb, rfl⟩ := Option.map_eq_some_iff.1 e
  have hs : (b.turned x).state.mem = b.state.mem := by cases b <;> rfl
  rw [hs]
  exact h b hb

theorem State.nextOfTurn_clean (x : Nat × Nat) : Clean (s.nextOfTurn x) :=
  Clean.turned x <| (Clean.firstAct (fun _ => (State.nextOfThread_clean h _ _).or (State.nextStore_clean h _ _)) _).or <|
    (Clean.firstAct (fun _ => State.nextOfCast_clean h _ _) _).or <| (Clean.firstAct (fun _ => State.nextCopy_clean h _ _ _) _).or
    (Clean.firstAct (fun _ => Clean.ite (State.nextPiece_clean h _ _) Clean.none) _)

/-- The next move starts from a memory in canonical form. -/
theorem State.nextAction_wf : s.nextAction.state.mem.wf = true := by
  simp only [State.nextAction]
  generalize ho : Option.or s.nextDue _ = o
  have hc : Clean o := by
    subst ho
    exact (State.nextDue_clean h).or <| (State.nextWalk_clean h).or <| (Clean.firstAct (fun _ => State.nextOfFirmware_clean h _) _).or <|
      (Clean.firstAct (fun _ => State.nextOfTurn_clean h _) _).or <| (State.nextHeld_clean h).or <| (State.nextOfPackage_clean h).or <|
      (Clean.firstAct (fun _ => State.nextOfTurn_clean h _) _).or <| (State.nextSe_clean h).or
      (Clean.firstAct (fun _ => State.nextAsync_clean h _ _) _)
  cases o with
  | some a => exact hc a rfl
  | none =>
    simp only [Option.getD_none, State.tick]
    split <;> exact h

end

end Sys2Proof.Machine
end

