-- ==== Sys2Proof/Tests/Slice0.lean ====
section
/-!
SUPPORT. Tests of the model: ill-formed terms that are refused, words of the opcode table that decode as it says, and for each statement of
Sys2Proof/Certificates/Slice0/Obligations.lean with hypotheses a state and operands that meet them, clause by clause.
-/
namespace Sys2Proof.Tests

open Sys2Proof.Machine Sys2Proof.Claims

/-! ### Ill-formed instructions have no word (R104, R160, R170, R342, R362, R363) -/

theorem test_ill_formed :
    WellFormed (.grpMark .always .acq .cast) = false ∧ WellFormed (.waitBit .always .rel .cast) = false ∧
    WellFormed (.waitBitAll .always .ar .cast) = false ∧ WellFormed (.waitTok .always false 0) = false ∧
    WellFormed (.cpBarv .always .ar .cast) = false ∧ WellFormed (.cpBwait .always .rel .cast) = false ∧
    WellFormed (.red .always .b2 .add .rlx .cast) = false ∧ WellFormed (.red .always .b4 .swap .rlx .cast) = false ∧
    WellFormed (.red .always .b8 .fadd .rlx .cast) = false ∧ WellFormed (.red .always .b4 .fadd .acq .cast) = false ∧
    WellFormed (.cntInit .always .acq .cast) = false ∧ WellFormed (.cntDec .always .ar .cast) = false ∧
    WellFormed (.cntWait .always .rel .cast) = false ∧ WellFormed (.syswr .always .castid) = false := by decide

/-- The words that those terms would have are refused (GRP.MARK.ACQ, WAIT.TOK of nothing, RED.8.FADD, SYSWR CASTID). -/
theorem test_ill_formed_words :
    decodeWord 0xA5000013 = .error .undefinedModifier ∧ decodeWord 0xA7000000 = .error .undefinedModifier ∧
    decodeWord 0xC8000E43 = .error .undefinedModifier ∧ decodeWord 0xF3000000 = .error .undefinedModifier := ⟨rfl, rfl, rfl, rfl⟩

/-- The encoder gives the words that the manual's worked programs list (R119, R344 to R353): LIT => cmp.a, m1.a; CP.BARV.REL.CAST;
CP.BWAIT.ACQ.CAST. -/
theorem test_encode_listings :
    encode (.lit .one 0x045 0x044) = some 0x71048A44 ∧ encode (.cpBarv .always .rel .cast) = some 0xB9000023 ∧
    encode (.cpBwait .always .acq .cast) = some 0xBA000013 := ⟨rfl, rfl, rfl⟩

/-- Memory is in canonical form at reset (the premise of `Obligations.StepKeepsMemOk`). -/
theorem test_reset_memOk : Safety.MemOk State.reset := rfl

/-- R100 to R103 and the owning rules: words of opcodes 00 to 0F: the match of each row of the opcode table with its fields set. -/
theorem test_decode_arithmetic :
    decodeWord 0x01818B43 = .ok (.add .onTrue 0xC5 0x143) ∧
    decodeWord 0x02C18B43 = .ok (.sub .onFalse 0xC5 0x143) ∧
    decodeWord 0x03018B43 = .ok (.mul .always 0xC5 0x143) ∧
    decodeWord 0x04818B43 = .ok (.mulhS .onTrue 0xC5 0x143) ∧
    decodeWord 0x04C58B43 = .ok (.mulhU .onFalse 0xC5 0x143) ∧
    decodeWord 0x04098B43 = .ok (.mulhSu .always 0xC5 0x143) ∧
    decodeWord 0x05818B43 = .ok (.divS .onTrue 0xC5 0x143) ∧
    decodeWord 0x05C58B43 = .ok (.divU .onFalse 0xC5 0x143) ∧
    decodeWord 0x06018B43 = .ok (.remS .always 0xC5 0x143) ∧
    decodeWord 0x06858B43 = .ok (.remU .onTrue 0xC5 0x143) ∧
    decodeWord 0x07C18B43 = .ok (.minS .onFalse 0xC5 0x143) ∧
    decodeWord 0x07058B43 = .ok (.minU .always 0xC5 0x143) ∧
    decodeWord 0x08818B43 = .ok (.maxS .onTrue 0xC5 0x143) ∧
    decodeWord 0x08C58B43 = .ok (.maxU .onFalse 0xC5 0x143) ∧
    decodeWord 0x09018B43 = .ok (.madd .always 0xC5 0x143) ∧
    decodeWord 0x0ABD8B43 = .ok (.addsh .onTrue 0xF 0xC5 0x143) :=
  ⟨rfl, rfl, rfl, rfl, rfl, rfl, rfl, rfl, rfl, rfl, rfl, rfl, rfl, rfl, rfl, rfl⟩

/-- R100 to R103 and the owning rules: words of opcodes 10 to 1F: the match of each row of the opcode table with its fields set. -/
theorem test_decode_logic :
    decodeWord 0x10C18B43 = .ok (.and .onFalse 0xC5 0x143) ∧
    decodeWord 0x11018B43 = .ok (.or .always 0xC5 0x143) ∧
    decodeWord 0x12818B43 = .ok (.xor .onTrue 0xC5 0x143) ∧
    decodeWord 0x13C18B43 = .ok (.andn .onFalse 0xC5 0x143) ∧
    decodeWord 0x14018B43 = .ok (.shl .always 0xC5 0x143) ∧
    decodeWord 0x15818B43 = .ok (.shr .onTrue 0xC5 0x143) ∧
    decodeWord 0x16C18B43 = .ok (.sar .onFalse 0xC5 0x143) ∧
    decodeWord 0x18198B43 = .ok (.cmp .always .ltu 0xC5 0x143) ∧
    decodeWord 0x19818B43 = .ok (.tstZ .onTrue 0xC5 0x143) ∧
    decodeWord 0x19C58B43 = .ok (.tstNz .onFalse 0xC5 0x143) ∧
    decodeWord 0x1A018B43 = .ok (.sel .always 0xC5 0x143) :=
  ⟨rfl, rfl, rfl, rfl, rfl, rfl, rfl, rfl, rfl, rfl, rfl⟩

/-- R100 to R103 and the owning rules: words of opcodes 20 to 2F: the match of each row of the opcode table with its fields set. -/
theorem test_decode_bits :
    decodeWord 0x20818B43 = .ok (.clz .onTrue 0xC5 0x143) ∧
    decodeWord 0x21C18B43 = .ok (.ctz .onFalse 0xC5 0x143) ∧
    decodeWord 0x22018B43 = .ok (.popc .always 0xC5 0x143) ∧
    decodeWord 0x23818B43 = .ok (.bfxZ .onTrue 0xC5 0x143) ∧
    decodeWord 0x23C58B43 = .ok (.bfxS .onFalse 0xC5 0x143) ∧
    decodeWord 0x24018B43 = .ok (.bfi .always 0xC5 0x143) ∧
    decodeWord 0x25958B43 = .ok (.ext .onTrue .z32 0xC5 0x143) :=
  ⟨rfl, rfl, rfl, rfl, rfl, rfl, rfl⟩

/-- R100 to R103 and the owning rules: words of opcodes 30 to 3F: the match of each row of the opcode table with its fields set. -/
theorem test_decode_immediates :
    decodeWord 0x30E0D747 = .ok (.addi .onFalse 0x106B 0x147) ∧
    decodeWord 0x3120DD47 = .ok (.muli .always 0x106E 0x147) ∧
    decodeWord 0x32A0E347 = .ok (.andi .onTrue 0x1071 0x147) ∧
    decodeWord 0x33E0E947 = .ok (.ori .onFalse 0x1074 0x147) ∧
    decodeWord 0x3420EF47 = .ok (.xori .always 0x1077 0x147) ∧
    decodeWord 0x35807547 = .ok (.shli .onTrue 0x3A 0x147) ∧
    decodeWord 0x36C07B47 = .ok (.shri .onFalse 0x3D 0x147) ∧
    decodeWord 0x37004347 = .ok (.sari .always 0x21 0x147) ∧
    decodeWord 0x38A10747 = .ok (.cmpiEq .onTrue 0x1083 0x147) ∧
    decodeWord 0x39E10D47 = .ok (.cmpiNe .onFalse 0x1086 0x147) ∧
    decodeWord 0x3A211347 = .ok (.cmpiLt .always 0x1089 0x147) ∧
    decodeWord 0x3BA11947 = .ok (.cmpiGe .onTrue 0x108C 0x147) ∧
    decodeWord 0x3CE11F47 = .ok (.cmpiLtu .onFalse 0x108F 0x147) ∧
    decodeWord 0x3D212547 = .ok (.cmpiGeu .always 0x1092 0x147) :=
  ⟨rfl, rfl, rfl, rfl, rfl, rfl, rfl, rfl, rfl, rfl, rfl, rfl, rfl, rfl⟩

/-- R100 to R103 and the owning rules: words of opcodes 40 to 4F: the match of each row of the opcode table with its fields set. -/
theorem test_decode_loads :
    decodeWord 0x40A14F47 = .ok (.ldZ8 .onTrue 0x10A7 0x147) ∧
    decodeWord 0x41E15547 = .ok (.ldS8 .onFalse 0x10AA 0x147) ∧
    decodeWord 0x42215B47 = .ok (.ldZ16 .always 0x10AD 0x147) ∧
    decodeWord 0x43A16147 = .ok (.ldS16 .onTrue 0x10B0 0x147) ∧
    decodeWord 0x44E16747 = .ok (.ldZ32 .onFalse 0x10B3 0x147) ∧
    decodeWord 0x45216D47 = .ok (.ldS32 .always 0x10B6 0x147) ∧
    decodeWord 0x46A17347 = .ok (.ld64 .onTrue 0x10B9 0x147) ∧
    decodeWord 0x47C98B43 = .ok (.ldx .onFalse .z16 0xC5 0x143) ∧
    decodeWord 0x48058B43 = .ok (.ldAcqZ32 .always .element 0xC5 0x143) ∧
    decodeWord 0x49A18B43 = .ok (.ldAcq64 .onTrue .device 0xC5 0x143) ∧
    decodeWord 0x4AC98B43 = .ok (.ldl .onFalse .z16 0xC5 0x143) :=
  ⟨rfl, rfl, rfl, rfl, rfl, rfl, rfl, rfl, rfl, rfl, rfl⟩

/-- R100 to R103 and the owning rules: words of opcodes 50 to 5F: the match of each row of the opcode table with its fields set. -/
theorem test_decode_stores :
    decodeWord 0x500800CD = .ok (.st .always .b1 0x800CD) ∧
    decodeWord 0x51B00000 = .ok (.stx .onTrue .b8) ∧
    decodeWord 0x52D40000 = .ok (.stRel .onFalse .b2 .group) ∧
    decodeWord 0x53000000 = .ok (.stl .always .b1) ∧
    decodeWord 0x588A0000 = .ok (.fenceAcq .onTrue .domain) ∧
    decodeWord 0x58D10000 = .ok (.fenceRel .onFalse .element) ∧
    decodeWord 0x58240000 = .ok (.fenceAr .always .group) :=
  ⟨rfl, rfl, rfl, rfl, rfl, rfl, rfl⟩

/-- R100 to R103 and the owning rules: words of opcodes 60 to 6F: the match of each row of the opcode table with its fields set. -/
theorem test_decode_exits :
    decodeWord 0x60A000DC = .ok (.br .onTrue 0x2000DC) ∧
    decodeWord 0x61C00000 = .ok (.brn .onFalse) ∧
    decodeWord 0x62000000 = .ok (.bri .always) ∧
    decodeWord 0x63A000E0 = .ok (.call .onTrue 0x2000E0) ∧
    decodeWord 0x64C00000 = .ok (.calli .onFalse) ∧
    decodeWord 0x65000000 = .ok (.ret .always) ∧
    decodeWord 0x66A000E4 = .ok (.brcT .onTrue 0x2000E4) ∧
    decodeWord 0x67E000E6 = .ok (.brcF .onFalse 0x2000E6) :=
  ⟨rfl, rfl, rfl, rfl, rfl, rfl, rfl, rfl⟩

/-- R100 to R103 and the owning rules: words of opcodes 70 to 7F: the match of each row of the opcode table with its fields set. -/
theorem test_decode_moves :
    decodeWord 0x70D18B43 = .ok (.get 0x34 0xC5 0x143) ∧
    decodeWord 0x71098B43 = .ok (.lit .two 0xC5 0x143) ∧
    decodeWord 0x72018B43 = .ok (.mov .always 0xC5 0x143) ∧
    decodeWord 0x73A13D47 = .ok (.movi .onTrue 0x109E 0x147) ∧
    decodeWord 0x74C18B43 = .ok (.null .onFalse 0xC5 0x143) ∧
    decodeWord 0x75214947 = .ok (.adr .always 0x10A4 0x147) :=
  ⟨rfl, rfl, rfl, rfl, rfl, rfl⟩

/-- R100 to R103 and the owning rules: words of opcodes 80 to 8F: the match of each row of the opcode table with its fields set. -/
theorem test_decode_streams :
    decodeWord 0x80000000 = .ok (.strmGo .always) ∧
    decodeWord 0x81800005 = .ok (.strmPushData .onTrue 0x5) ∧
    decodeWord 0x81C0001F = .ok (.strmPushIndex .onFalse 0x7) ∧
    decodeWord 0x8100014E = .ok (.strmPushStop .always 0x5 0x6) ∧
    decodeWord 0x81800015 = .ok (.strmPushDone .onTrue 0x5) ∧
    decodeWord 0x82D98B43 = .ok (.strmPop .onFalse 0x6 0xC5 0x143) ∧
    decodeWord 0x8301F7F8 = .ok (.argSet .always 0x3 0x77 0xF8) ∧
    decodeWord 0x84800003 = .ok (.ctxSw .onTrue 0x3) ∧
    decodeWord 0x85C00000 = .ok (.drain .onFalse) ∧
    decodeWord 0x86000000 = .ok (.strmWait .always) :=
  ⟨rfl, rfl, rfl, rfl, rfl, rfl, rfl, rfl, rfl, rfl⟩

/-- R100 to R103 and the owning rules: words of opcodes 90 to 9F: the match of each row of the opcode table with its fields set. -/
theorem test_decode_elements :
    decodeWord 0x90800143 = .ok (.mxClaim .onTrue 0x143) ∧
    decodeWord 0x91C00000 = .ok (.mxRel .onFalse) ∧
    decodeWord 0x92000000 = .ok (.mxScale .always) ∧
    decodeWord 0x93880143 = .ok (.mxStat .onTrue .phi 0x143) ∧
    decodeWord 0x98C00143 = .ok (.hndNew .onFalse 0x143) ∧
    decodeWord 0x99000000 = .ok (.hndGive .always) ∧
    decodeWord 0x9A800143 = .ok (.hndTake .onTrue 0x143) ∧
    decodeWord 0x9BC00000 = .ok (.hndDrop .onFalse) ∧
    decodeWord 0x9C018B43 = .ok (.hndInfo .always 0xC5 0x143) ∧
    decodeWord 0x9D800001 = .ok (.portRes .onTrue .skip) :=
  ⟨rfl, rfl, rfl, rfl, rfl, rfl, rfl, rfl, rfl, rfl⟩

/-- R100 to R103 and the owning rules: words of opcodes A0 to AF: the match of each row of the opcode table with its fields set. -/
theorem test_decode_groups :
    decodeWord 0xA0C00143 = .ok (.grpNew .onFalse 0x143) ∧
    decodeWord 0xA1000143 = .ok (.grpJoin .always 0x143) ∧
    decodeWord 0xA2800000 = .ok (.grpLeave .onTrue) ∧
    decodeWord 0xA3C00000 = .ok (.grpFree .onFalse) ∧
    decodeWord 0xA4000030 = .ok (.grpBar .always .ar .thread) ∧
    decodeWord 0xA5800024 = .ok (.grpMark .onTrue .rel .group) ∧
    decodeWord 0xA6C00019 = .ok (.waitBit .onFalse .acq .system) ∧
    decodeWord 0xA6000051 = .ok (.waitBitAll .always .acq .element) ∧
    decodeWord 0xA78001A3 = .ok (.waitTok .onTrue true 0xA3) :=
  ⟨rfl, rfl, rfl, rfl, rfl, rfl, rfl, rfl, rfl⟩

/-- R100 to R103 and the owning rules: words of opcodes B0 to BF: the match of each row of the opcode table with its fields set. -/
theorem test_decode_copies :
    decodeWord 0xB0C00143 = .ok (.cpOpen .onFalse 0x143) ∧
    decodeWord 0xB1000000 = .ok (.cpClose .always) ∧
    decodeWord 0xB2800000 = .ok (.cpPush .onTrue) ∧
    decodeWord 0xB3C00001 = .ok (.cpRes .onFalse .skip) ∧
    decodeWord 0xB8000000 = .ok (.cpBinit .always) ∧
    decodeWord 0xB9800029 = .ok (.cpBarv .onTrue .rel .system) ∧
    decodeWord 0xBAC00011 = .ok (.cpBwait .onFalse .acq .element) :=
  ⟨rfl, rfl, rfl, rfl, rfl, rfl, rfl⟩

/-- R100 to R103 and the owning rules: words of opcodes C0 to CF: the match of each row of the opcode table with its fields set. -/
theorem test_decode_sync :
    decodeWord 0xC0118B43 = .ok (.atomRlx .always .group 0xC5 0x143) ∧
    decodeWord 0xC1A98B43 = .ok (.atomAcq .onTrue .domain 0xC5 0x143) ∧
    decodeWord 0xC2D18B43 = .ok (.atomRel .onFalse .group 0xC5 0x143) ∧
    decodeWord 0xC3298B43 = .ok (.atomAr .always .domain 0xC5 0x143) ∧
    decodeWord 0xC7998B43 = .ok (.cas .ar .onTrue .tenant 0xC5 0x143) ∧
    decodeWord 0xC8C00DE4 = .ok (.red .onFalse .b8 .maxu .rel .group) ∧
    decodeWord 0xC9000029 = .ok (.cntInit .always .rel .system) ∧
    decodeWord 0xCA800021 = .ok (.cntDec .onTrue .rel .element) ∧
    decodeWord 0xCBC00016 = .ok (.cntWait .onFalse .acq .tenant) ∧
    decodeWord 0xCC000000 = .ok (.cntFree .always) :=
  ⟨rfl, rfl, rfl, rfl, rfl, rfl, rfl, rfl, rfl, rfl⟩

/-- R100 to R103 and the owning rules: words of opcodes D0 to DF: the match of each row of the opcode table with its fields set. -/
theorem test_decode_tasks :
    decodeWord 0xD0840143 = .ok (.taskPut .onTrue true 0x143) ∧
    decodeWord 0xD1C00143 = .ok (.taskSdef .onFalse 0x143) ∧
    decodeWord 0xD2000143 = .ok (.taskReg .always 0x143) ∧
    decodeWord 0xD3800000 = .ok (.taskUnreg .onTrue) ∧
    decodeWord 0xD4C00143 = .ok (.taskInfo .onFalse 0x143) :=
  ⟨rfl, rfl, rfl, rfl, rfl⟩

/-- R100 to R103 and the owning rules: words of opcodes E0 to EF: the match of each row of the opcode table with its fields set. -/
theorem test_decode_placer :
    decodeWord 0xE0000143 = .ok (.plReq .always 0x143) ∧
    decodeWord 0xE1800000 = .ok (.leaseRel .onTrue) :=
  ⟨rfl, rfl⟩

/-- R100 to R103 and the owning rules: words of opcodes F0 to FF: the match of each row of the opcode table with its fields set. -/
theorem test_decode_system :
    decodeWord 0xF0C08163 = .ok (.trap .onFalse 0x8163) ∧
    decodeWord 0xF1000000 = .ok (.eret .always) ∧
    decodeWord 0xF2803147 = .ok (.sysrd .onTrue .loob 0x147) ∧
    decodeWord 0xF3C00012 = .ok (.syswr .onFalse .tpc) ∧
    decodeWord 0xF4000747 = .ok (.feat .always 0x3 0x147) ∧
    decodeWord 0xF5800000 = .ok (.halt .onTrue) ∧
    decodeWord 0xF6C00000 = .ok (.nop .onFalse) ∧
    decodeWord 0xF7008170 = .ok (.bkpt .always 0x8170) ∧
    decodeWord 0xF8800000 = .ok (.yield .onTrue) :=
  ⟨rfl, rfl, rfl, rfl, rfl, rfl, rfl, rfl, rfl⟩
/-! ### A slot that fires -/

/-- A cast of tenant 0 of one block, and a block without slots. -/
def plain : Cast := { tenant := 0, bx := 0, by_ := 0, wb := 1, hb := 1, th := { mode := .running, first := false } }
def bare : Block :=
  { addr := 64, header := 0, seq := 0, begun := true, slots := [], sys := [], writes := [], effects := [], exit := none, clock := 0, fires := 0, clash := none }

/-- A thread of a cast, changed. -/
def withTh (f : Thread → Thread) : Cast := { plain with th := f plain.th }

/-- The shot of slot 0 of a block, whose operands hold values. -/
def shot (k : Cast) (b : Block) (x y z : Word) : Shot :=
  let sl : Slot := { word := 0, a := { val := some x }, b := { val := some y }, c := { val := some z } }
  let blk : Block := { b with slots := sl :: b.slots }
  { c := 0, n := 0, k := { k with th := { k.th with blk := some blk } }, blk := blk, sl := sl, a := x, b := y, z := z }

/-- The cast of a shot alone on the device, with its slot at the cursor. -/
def stand (sh : Shot) : State := { mem := [], dev := { cursor := some (sh.c, sh.n), casts := [(sh.c, sh.k)] } }

theorem fires (u : Uses) (k : Cast) (b : Block) (x y z : Word) : Fires .always u (stand (shot k b x y z)) (shot k b x y z) := by
  rcases u with ⟨_ | _, _ | _, _ | _⟩ <;> exact ⟨rfl, rfl, rfl, rfl, rfl, rfl⟩

/-- Some shot of a cast and block, that uses operands, satisfies a condition. -/
def Some (u : Uses) (P : State → Shot → Prop) : Prop := ∃ s sh, Fires .always u s sh ∧ P s sh

theorem some_of {u : Uses} {P : State → Shot → Prop} (k : Cast) (b : Block) (x y z : Word) (h : P (stand (shot k b x y z)) (shot k b x y z)) :
    Some u P := ⟨_, _, fires u k b x y z, h⟩

/-- The premises of `Obligations.AddLogicShift`, `Obligations.MulDiv` and the second clause of `Obligations.Compares`. -/
theorem witness_arithmetic : Some ⟨true, true, false⟩ fun _ sh => sh.b = 0 ∧ sh.a.toInt = -2 ^ 63 :=
  some_of plain bare 0x8000000000000000 0 0 ⟨rfl, rfl⟩

/-- The first clause of `Obligations.Compares`, of `Obligations.BitCounts`, of `Obligations.Immediates`, and the last of
`Obligations.Readiness`, at the least values that they speak of. -/
theorem witness_illop :
    ((0x18280000 : Word32).extractLsb' 24 8 = 0x18 ∧ 10 ≤ ((0x18280000 : Word32).extractLsb' 18 4).toNat) ∧
    ((0x25180000 : Word32).extractLsb' 24 8 = 0x25 ∧ 6 ≤ ((0x25180000 : Word32).extractLsb' 18 4).toNat) ∧
    ((0x35008000 : Word32).extractLsb' 24 8 ∈ [0x35#8, 0x36#8, 0x37#8] ∧ (0x35008000 : Word32).extractLsb' 15 7 ≠ 0) ∧
    ((0x01400000 : Word32).extractLsb' 24 8 ∉ [0x70#8, 0x71#8] ∧ (0x01400000 : Word32).extractLsb' 22 2 = 1) := by decide

/-- The second clause of `Obligations.BitCounts`: counts of 0 and of 63. -/
theorem witness_BitCounts :
    (Some ⟨true, false, false⟩ fun _ sh => Leading sh.a 63 ∧ Trailing sh.a 0) ∧ Some ⟨true, false, false⟩ fun _ sh => Leading sh.a 64 ∧ Trailing sh.a 64 :=
  ⟨some_of plain bare 1 0 0 ⟨by unfold Leading; decide, by unfold Trailing; decide⟩, some_of plain bare 0 0 0 ⟨by unfold Leading; decide, by unfold Trailing; decide⟩⟩

/-- `Obligations.FieldsOfWords`: the field of one bit at the top of the word, and the whole word. -/
theorem witness_FieldsOfWords :
    (Some ⟨true, true, false⟩ fun _ sh => sh.b = 0x3F3F ∧ ∀ j, j < 64 → (1 : Word).getLsbD j = (decide (j < 1) && sh.a.getLsbD (63 + j))) ∧
    (Some ⟨true, true, false⟩ fun _ sh => sh.b = 0x3F3F ∧ ∀ j, j < 64 → (BitVec.allOnes 64).getLsbD j = sh.a.getLsbD (63 + min j (1 - 1))) ∧
    (Some ⟨true, true, true⟩ fun _ sh => sh.z = 0x3F00 ∧
      ∀ j, j < 64 → (7 : Word).getLsbD j = if 0 ≤ j ∧ j < 0 + 64 then sh.b.getLsbD (j - 0) else sh.a.getLsbD j) ∧
    63 = (0x3F3F : Word).toNat % 64 ∧ 1 = min ((0x3F3F : Word).toNat / 2 ^ 8 % 64 + 1) (64 - 63) ∧
    0 = (0x3F00 : Word).toNat % 64 ∧ 64 = min ((0x3F00 : Word).toNat / 2 ^ 8 % 64 + 1) (64 - 0) :=
  ⟨some_of plain bare 0x8000000000000000 0x3F3F 0 ⟨rfl, by decide⟩, some_of plain bare 0x8000000000000000 0x3F3F 0 ⟨rfl, by decide⟩,
   some_of plain bare 5 7 0x3F00 ⟨rfl, by decide⟩, by decide⟩

/-- `Obligations.Immediates`: the two literal words after a LIT. -/
theorem witness_Immediates : Some ⟨true, false, false⟩ (fun _ _ => True) ∧
    Some ⟨false, false, false⟩ fun _ sh => ∃ l h, sh.blk.slots[sh.n + 1]? = some l ∧ sh.blk.slots[sh.n + 2]? = some h :=
  ⟨some_of plain bare 1 0 0 trivial,
   some_of plain { bare with slots := [{ word := 0xFFFFFFFF, lit := true }, { word := 1, lit := true }] } 0 0 0 ⟨_, _, rfl, rfl⟩⟩

/-- `Obligations.Readiness`: all operands and both values of a predicate; a predicate that is complete with NULL. -/
theorem witness_Readiness :
    (∃ (u : Uses) (sl : Slot) (x y z v : Word), (u.a = true → sl.a.val = some x) ∧ (u.b = true → sl.b.val = some y) ∧ (u.c = true → sl.c.val = some z) ∧
      sl.p.val = some v ∧ v.getLsbD 0 = true) ∧
    (∃ (sl : Slot) (v : Word), sl.p.val = some v ∧ v.getLsbD 0 = false) ∧
    ∃ sl : Slot, sl.p.val = none ∧ 0 < sl.p.feeders ∧ sl.p.feeders ≤ sl.p.nulls :=
  ⟨⟨⟨true, true, true⟩, { word := 0, a := { val := some 1 }, b := { val := some 2 }, c := { val := some 3 }, p := { val := some 1 } }, 1, 2, 3, 1, by decide⟩,
   ⟨{ word := 0, p := { val := some 2 } }, 2, by decide⟩, ⟨{ word := 0, p := { feeders := 1, nulls := 1 } }, by decide⟩⟩

/-- `Obligations.PredicatedOff`: a class V instruction and another, whose predicate has come as 0. -/
theorem witness_PredicatedOff : ∀ i ∈ [Instr.add .onTrue 0 0, .st .onTrue .b8 0], (encode i).isSome = true ∧ ∃ s sh, IsOff (predOf i) (usesOf i) s sh := by
  intro i hi
  let sl : Slot := { word := 0, p := { val := some 0 } }
  let b : Block := { bare with slots := [sl] }
  let k : Cast := withTh fun t => { t with blk := some b }
  let sh : Shot := { c := 0, n := 0, k := k, blk := b, sl := sl, a := 0, b := 0, z := 0 }
  simp only [List.mem_cons, List.not_mem_nil, or_false] at hi
  rcases hi with rfl | rfl <;> exact ⟨rfl, stand sh, sh, rfl, rfl, rfl, rfl, rfl, rfl⟩

/-- `Obligations.SlotsLeaveMemory`, and `Obligations.DecodeEncode`. -/
theorem witness_encodings : (encode (.red .onFalse .b4 .fmax .rel .domain)).isSome = true ∧ WellFormed (.red .onFalse .b4 .fmax .rel .domain) = true ∧
    (encode (.get 63 0x1FF 0x1FF)).isSome = true ∧ WellFormed (.get 63 0x1FF 0x1FF) = true := ⟨rfl, rfl, rfl, rfl⟩

/-- `Obligations.EncodeDecode`: a word, and bytes with more behind them. -/
theorem witness_EncodeDecode : decodeWord 0xF6000000 = .ok (.nop .always) ∧ decode [0, 0, 0, 0xF6, 1] = .ok (.nop .always, [1]) := ⟨rfl, rfl⟩

/-- `Obligations.ExitsTaken`: no exit yet, and one; a return stack of 15, of 16 and of none; inside a handler and not. -/
theorem witness_ExitsTaken :
    (∀ u ∈ [⟨false, false, false⟩, (⟨true, false, false⟩ : Uses)],
      (∀ x ∈ [none, some Exit.halt], (Some u fun _ sh => sh.blk.exit = x ∧ sh.k.th.ret.length = 15 ∧ sh.k.th.ret ≠ [] ∧ sh.k.th.inh = true) ∧
        (Some u fun _ sh => sh.blk.exit = x ∧ 16 ≤ sh.k.th.ret.length) ∧ Some u fun _ sh => sh.blk.exit = x ∧ sh.k.th.ret = [] ∧ sh.k.th.inh = false)) := by
  intro u _ x _
  exact ⟨some_of (withTh fun t => { t with ret := List.replicate 15 0, inh := true }) { bare with exit := x } 0 0 0 ⟨rfl, rfl, List.cons_ne_nil _ _, rfl⟩,
    some_of (withTh fun t => { t with ret := List.replicate 16 0 }) { bare with exit := x } 0 0 0 ⟨rfl, Nat.le_refl 16⟩,
    some_of plain { bare with exit := x } 0 0 0 ⟨rfl, rfl, rfl⟩⟩

/-- `Obligations.SystemSlots`: with and without DBG. -/
theorem witness_SystemSlots : (Some ⟨false, false, false⟩ fun _ sh => sh.k.th.dbg = false) ∧ (Some ⟨false, false, false⟩ fun _ sh => sh.k.th.dbg = true) ∧
    Some ⟨true, false, false⟩ fun _ _ => True :=
  ⟨some_of plain bare 0 0 0 rfl, some_of (withTh fun t => { t with dbg := true }) bare 0 0 0 rfl, some_of plain bare 5 0 0 trivial⟩

/-- Effects of a block: five pushes to channel 2, and a pop. -/
def pushed (n : Nat) : List (Nat × Effect) := List.replicate n (0, .push 2 (narrow 0 0 0))

/-- `Obligations.FabricCommands`: the armature at rest and running; a push to channel 2 with its FIFO's last entry free, with none free, and with a push
of a lower slot that has not fired; fifteen pops outstanding and sixteen; a site in the last corner of the cast and one beyond it. -/
theorem witness_FabricCommands :
    (Some ⟨false, false, false⟩ fun _ sh => sh.k.th.armst ≠ 1 ∧ MayPush sh 2 ∧ sh.k.th.pops.length + lowerPops sh = 15) ∧
    (Some ⟨false, false, false⟩ fun _ sh => sh.k.th.armst = 1 ∧ ¬ MayPush sh 2 ∧ sh.k.th.pops.length + lowerPops sh = 16) ∧
    (Some ⟨true, false, false⟩ fun _ sh => MayPush sh 2 ∧ (5#8).toNat < 6 * sh.k.wb ∧ (5#7).toNat < 6 * sh.k.hb) ∧
    Some ⟨true, false, false⟩ fun _ sh => ¬ MayPush sh 2 ∧ ¬ ((5#8).toNat < 6 * sh.k.wb ∧ (6#7).toNat < 6 * sh.k.hb) := by
  refine ⟨some_of (withTh fun t => { t with pops := List.replicate 15 (0, 0), push := [(2, List.replicate 2 (narrow 0 0 0))] }) { bare with effects := pushed 5 } 0 0 0
      ⟨by decide, ⟨nofun, by decide⟩, by decide⟩,
    some_of (withTh fun t => { t with armst := 1, pops := List.replicate 16 (0, 0), push := [(2, List.replicate 3 (narrow 0 0 0))] }) { bare with effects := pushed 5 } 0 0 0
      ⟨rfl, fun h => absurd h.2 (by decide), by decide⟩,
    some_of (withTh fun t => { t with push := [(2, List.replicate 7 (narrow 0 0 0))] }) bare 0 0 0 ⟨⟨nofun, by decide⟩, by decide, by decide⟩,
    some_of (withTh fun t => { t with push := [(2, List.replicate 8 (narrow 0 0 0))] }) bare 0 0 0 ⟨fun h => absurd h.2 (by decide), by decide⟩⟩

/-- A thread that holds handle 0x110505: entry 1 of the bank at (5, 5), generation 1. -/
def bank16 : SbSt := { hnd := [(1, { used := true, len := 16 })] }
def holder : Cast := { plain with sites := [(144 * 5 + 5, { el := .sb bank16 })] }

/-- `Obligations.SiteCommands`: a site in the corner of the cast and one beyond it; a handle that is held and one that is not. -/
theorem witness_SiteCommands :
    (Some ⟨true, true, false⟩ fun _ sh => NamesSite sh sh.a) ∧ (Some ⟨true, true, false⟩ fun _ sh => ¬ NamesSite sh sh.a) ∧
    (Some ⟨true, false, false⟩ fun _ sh => sh.holds sh.a = true ∧ ∃ e, sh.k.current sh.a = some e) ∧
    (Some ⟨true, false, false⟩ fun _ sh => sh.holds sh.a = false ∧ sh.k.current sh.a = none) ∧
    (Some ⟨true, false, false⟩ fun _ sh => NamesSite sh sh.a) ∧ (Some ⟨true, false, false⟩ fun _ sh => ¬ NamesSite sh sh.a) ∧
    (Some ⟨true, true, false⟩ fun _ sh => NamesSite sh sh.a ∧ ∃ mx, (sh.k.site (elementSite (sh.a.toNat % 2 ^ 8) (sh.a.toNat / 2 ^ 8 % 2 ^ 7))).el = .mx mx) ∧
    Some ⟨true, true, false⟩ fun _ sh => NamesSite sh sh.a ∧ ∀ mx, (sh.k.site (elementSite (sh.a.toNat % 2 ^ 8) (sh.a.toNat / 2 ^ 8 % 2 ^ 7))).el ≠ .mx mx := by
  refine ⟨some_of plain bare 0x505 0 0 ?_, some_of plain bare 0x605 0 0 ?_, some_of holder bare 0x110505 0 0 ⟨rfl, _, rfl⟩,
    some_of holder bare 0x100505 0 0 ⟨rfl, rfl⟩, some_of plain bare 0x505 0 0 ?_, some_of plain bare 0x506 0 0 ?_,
    some_of { plain with sites := [(elementSite 5 5, { el := .mx {} })] } bare 0x505 0 0 ⟨?_, _, rfl⟩, some_of plain bare 0x505 0 0 ⟨?_, nofun⟩⟩ <;> unfold NamesSite <;> decide

/-- `Obligations.GroupCommands`: three memberships and four; a handle that the thread holds, and one that it does not. -/
theorem witness_GroupCommands : ∀ u ∈ [⟨true, true, false⟩, (⟨true, false, false⟩ : Uses)],
    (Some u fun _ sh => sh.memberships = 3 ∧ sh.k.th.gmem.holds sh.a = true) ∧ Some u fun _ sh => 4 ≤ sh.memberships ∧ sh.k.th.gmem.holds sh.a = false := by
  intro u _
  exact ⟨some_of (withTh fun t => { t with gmem := ⟨1, 2, 3, 0⟩ }) bare 3 0 0 ⟨by decide, by decide⟩,
    some_of (withTh fun t => { t with gmem := ⟨1, 2, 3, 4⟩ }) bare 5 0 0 ⟨by decide, by decide⟩⟩

/-! ### Memory -/

/-- `Obligations.Stores`: aligned addresses that are translated, and for each form one that is not aligned and one that is not translated. -/
theorem witness_Stores : ∀ u ∈ [⟨true, true, false⟩, (⟨true, true, true⟩ : Uses)],
    (Some u fun s sh => ((sh.a + (0 : BitVec 20).signExtend 64 * BitVec.ofNat 64 8).toNat % 8 = 0 ∧
      ∃ q d, Translates s sh (sh.a + (0 : BitVec 20).signExtend 64 * BitVec.ofNat 64 8) .store q d) ∧
      (sh.a.toNat % 8 = 0 ∧ ∃ q d, Translates s sh sh.a .store q d) ∧ (sh.a + sh.b).toNat % 8 = 0 ∧ ∃ q d, Translates s sh (sh.a + sh.b) .store q d) ∧
    (Some u fun _ sh => (sh.a + (0 : BitVec 20).signExtend 64 * BitVec.ofNat 64 (width .b8)).toNat % width .b8 ≠ 0 ∧ sh.a.toNat % width .b8 ≠ 0 ∧
      (sh.a + sh.b).toNat % width .b8 ≠ 0) ∧
    (Some u fun s sh => (sh.a.toNat % width .b1 = 0 ∧ ∃ f d, Faults s sh sh.a .store f d) ∧ ((sh.a + sh.b).toNat % width .b1 = 0 ∧
      ∃ f d, Faults s sh (sh.a + sh.b) .store f d) ∧ ∃ f d, Faults s sh (sh.a + (0 : BitVec 20).signExtend 64 * BitVec.ofNat 64 1) .store f d) := by
  intro u _
  exact ⟨some_of plain bare 64 8 0 ⟨⟨rfl, _, _, rfl⟩, ⟨rfl, _, _, rfl⟩, rfl, _, _, rfl⟩, some_of plain bare 71 8 0 (by decide),
    some_of plain bare 0x0200000000000000 0 0 ⟨⟨rfl, _, _, rfl⟩, ⟨rfl, _, _, rfl⟩, _, _, rfl⟩⟩

/-- `Obligations.Loads`: an aligned address, one that is not, and one that is not translated, each with a load that nothing holds. -/
theorem witness_Loads :
    (Some ⟨true, false, false⟩ fun s sh => ∃ q d, loadForm (.ldS32 .always 1 0) sh.a sh.b = some (⟨true, false, false⟩, sh.a + 4, 4, true) ∧
      (seen s).dev.held s.mem sh.k sh.blk sh.n (.ldS32 .always 1 0) sh.a sh.b = false ∧ (sh.a + 4).toNat % 4 = 0 ∧ Translates s sh (sh.a + 4) .load q d ∧
      paRegion (q.readPa sh.k.die) ≠ 1) ∧
    (Some ⟨true, false, false⟩ fun s sh => loadForm (.ldAcq64 .always .cast 0 0) sh.a sh.b = some (⟨true, false, false⟩, sh.a, 8, false) ∧
      (seen s).dev.held s.mem sh.k sh.blk sh.n (.ldAcq64 .always .cast 0 0) sh.a sh.b = false ∧ sh.a.toNat % 8 ≠ 0) ∧
    (Some ⟨true, true, false⟩ fun s sh => loadForm (.ldx .always .z8 0 0) sh.a sh.b = some (⟨true, true, false⟩, sh.a + sh.b, 1, false) ∧
      (seen s).dev.held s.mem sh.k sh.blk sh.n (.ldx .always .z8 0 0) sh.a sh.b = false ∧ (sh.a + sh.b).toNat % 1 = 0 ∧
      ∃ f d, Faults s sh (sh.a + sh.b) .load f d) :=
  ⟨some_of plain bare 60 0 0 ⟨_, _, rfl, rfl, rfl, rfl, by decide⟩, some_of plain bare 60 0 0 ⟨rfl, rfl, by decide⟩,
   some_of plain bare 0x0200000000000000 0 0 ⟨rfl, rfl, rfl, _, _, rfl⟩⟩

/-- `Obligations.ScratchAccess`: a handle of 16 bytes; an access that ends at its last byte, one that ends behind it, one that is not
aligned, and a handle that is not held. -/
theorem witness_ScratchAccess : ∀ u ∈ [⟨true, true, false⟩, (⟨true, true, true⟩ : Uses)],
    (∀ off ∈ [8, 16, (4 : Word)], Some u fun s sh => sh.b = off ∧ sh.blk.transferred sh.c sh.n sh.a = false ∧
      (seen s).dev.held s.mem sh.k sh.blk sh.n (.ldl .always .d64 0 0) sh.a sh.b = false ∧ (seen s).dev.held s.mem sh.k sh.blk sh.n (.stl .always .b8) sh.a sh.b = false ∧
      sh.blk.effects = [] ∧ ∃ e bank, sh.k.holds sh.c sh.a = some e ∧ e.len = 16 ∧ (sh.k.site (hndSite sh.a)).el = .sb bank) ∧
    (Some u fun _ sh => sh.blk.transferred sh.c sh.n sh.a = false ∧ sh.k.holds sh.c sh.a = none) ∧
    kindForm .d64 = (8, false) ∧ width .b8 = 8 := by
  intro u _
  refine ⟨?_, some_of plain bare 0x110505 8 0 ⟨rfl, rfl⟩, rfl, rfl⟩
  intro off h
  simp only [List.mem_cons, List.not_mem_nil, or_false] at h
  rcases h with rfl | rfl | rfl <;> exact some_of holder bare 0x110505 _ 0 ⟨rfl, rfl, rfl, rfl, rfl, _, bank16, rfl, rfl, by decide⟩

/-- A cast with channel 0 open, of generation 1 (handle 0x100), which holds seven chains. -/
def channelled : Cast := { plain with chans := [(0, { used := true, gen := 1, queue := List.replicate 7 (0, 0, false) })] }

/-- `Obligations.CopyCommands`: a channel with room for one chain, and no channel; a chain that is aligned and one that is not; a barrier that is
aligned and one that is not. -/
theorem witness_CopyCommands :
    (∀ b ∈ [64, (32 : Word)], Some ⟨true, true, false⟩ fun _ sh => sh.b = b ∧ (sh.lowerOpen fun i => isCpClose i || isCpPush i) = false ∧
      sh.chanUsable sh.a = true ∧ (sh.k.chans.get {} (chanIx sh.a)).queue.length + sh.reserved sh.a = 7) ∧
    (Some ⟨true, false, false⟩ fun _ sh => sh.lowerOpen isCpClose = false ∧ sh.chanUsable sh.a = true ∧ sh.k.chanOpen sh.a = true) ∧
    (Some ⟨true, false, false⟩ fun _ sh => sh.lowerOpen isCpClose = false ∧ sh.chanUsable sh.a = false ∧ sh.k.chanOpen sh.a = false) ∧
    (Some ⟨true, true, false⟩ fun _ sh => sh.a.toNat % 16 ≠ 0) ∧
    (Some ⟨true, true, false⟩ fun s sh => sh.a.toNat % 16 = 0 ∧ (∃ q d, Translates s sh sh.a .store q d) ∧ ∃ q d, Translates s sh sh.a .load q d) := by
  refine ⟨?_, some_of channelled bare 0x100 0 0 ⟨rfl, rfl, rfl⟩, some_of plain bare 0x100 0 0 ⟨rfl, rfl, rfl⟩, some_of plain bare 8 0 0 (by decide),
    some_of plain bare 16 0 0 ⟨rfl, ⟨_, _, rfl⟩, _, _, rfl⟩⟩
  intro b h
  simp only [List.mem_cons, List.not_mem_nil, or_false] at h
  rcases h with rfl | rfl <;> exact some_of channelled bare 0x100 _ 0 ⟨rfl, rfl, rfl, by decide⟩

/-- `Obligations.Atomics`: a sound control word and operand, the highest operation, one that is not aligned, a control word of operation 12, and one
of size 1; the address of a CAS; an operand of a RED. -/
theorem witness_Atomics :
    (Some ⟨true, true, true⟩ fun s sh => (AtomOp.fmax).code.toNat = sh.z.toNat % 16 ∧ (Size.b4).code.toNat = sh.z.toNat / 16 % 4 ∧
      sh.a.toNat % width .b4 = 0 ∧ ∃ q d, Translates s sh sh.a .store q d ∧ paRegion q.pa ≠ 1) ∧
    (Some ⟨true, true, true⟩ fun _ sh => (AtomOp.add).code.toNat = sh.z.toNat % 16 ∧ (Size.b8).code.toNat = sh.z.toNat / 16 % 4 ∧ sh.a.toNat % width .b8 ≠ 0) ∧
    (Some ⟨true, true, true⟩ fun _ sh => sh.z.toNat % 16 = 12) ∧ (Some ⟨true, true, true⟩ fun _ sh => sh.z.toNat / 16 % 4 = 1) ∧
    (Some ⟨true, true, true⟩ fun s sh => sh.a.toNat % 8 = 0 ∧ ∃ q d, Translates s sh sh.a .store q d) ∧
    (Some ⟨true, true, false⟩ fun s sh => sh.a.toNat % width .b4 = 0 ∧ ∃ q d, Translates s sh sh.a .store q d ∧ paRegion q.pa ≠ 1) :=
  ⟨some_of plain bare 4 0 0x2B ⟨rfl, rfl, rfl, _, _, rfl, by decide⟩, some_of plain bare 4 0 0x30 ⟨rfl, rfl, by decide⟩, some_of plain bare 4 0 0x3C rfl,
   some_of plain bare 4 0 0x10 rfl, some_of plain bare 8 0 0 ⟨rfl, _, _, rfl⟩, some_of plain bare 4 0 0 ⟨rfl, _, _, rfl, by decide⟩⟩

/-- `Obligations.Counters`: a location of local memory. -/
theorem witness_Counters : ∀ u ∈ [⟨true, true, false⟩, (⟨true, false, false⟩ : Uses)],
    Some u fun s sh => sh.a.toNat % 8 = 0 ∧ ∃ q d, Translates s sh sh.a .store q d ∧ paRegion (d.ownPa q.pa) = 0 ∧ q.rpl = none := by
  intro u _
  exact some_of plain bare 64 0 0 ⟨rfl, _, _, rfl, rfl, rfl⟩

/-- `Obligations.TaskCommands`: records that are aligned and translated, for each use of operands. -/
theorem witness_TaskCommands : (∀ u ∈ [⟨true, true, false⟩, (⟨false, false, false⟩ : Uses)], Some u fun _ _ => True) ∧
    Some ⟨true, false, false⟩ fun s sh => sh.a.toNat % 128 = 0 ∧ sh.a.toNat % 64 = 0 ∧ (∃ q d, Translates s sh sh.a .load q d) ∧
      ∃ q d, Translates s sh sh.a .store q d :=
  ⟨fun _ _ => some_of plain bare 0 0 0 trivial, some_of plain bare 128 0 0 ⟨rfl, rfl, ⟨_, _, rfl⟩, _, _, rfl⟩⟩

/-! ### Threads between blocks -/

/-- A cast alone on the device, with no slot at the cursor. -/
def alone (k : Cast) : State := { mem := [], dev := { casts := [(0, k)] } }

/-- The same with bytes in the first line of the boot granules, written under the key of their slot. -/
def holding (m : Memory) (k : Cast) : State := { mem := m, dev := { keySlots := [(0, 1)], lineKey := [(0, 1)], casts := [(0, k)] } }

/-- The cast of a thread with a block of one slot in a phase. -/
def inBlock (ph : Phase) (x : Option Exit) : Cast := withTh fun t => { t with blk := some { bare with slots := [{ word := 0, phase := ph }], exit := x } }

/-- `Obligations.BlockCommits`: a slot that is still to fire or to deliver; complete without an exit and with each. -/
theorem witness_BlockCommits :
    (∀ ph ∈ [Phase.idle, .fired], ∃ (s : State) (c : Nat) (k : Cast) (b : Block), s.dev.casts.find c = some k ∧ k.th.blk = some b ∧ b.begun = true ∧ b.clash = none ∧
      ∃ sl ∈ b.slots, sl.lit = false ∧ (sl.phase = .idle ∨ sl.phase = .fired)) ∧
    ∀ x ∈ [none, some (Exit.jump 0), some (.call 0), some .ret, some .halt, some .eret, some (.trap 0 0)], ∀ ph ∈ [Phase.done, .off],
      ∃ (s : State) (c : Nat) (k : Cast) (b : Block), s.dev.casts.find c = some k ∧ k.th.blk = some b ∧ b.begun = true ∧ b.clash = none ∧ b.exit = x ∧
        ∀ sl ∈ b.slots, sl.lit = true ∨ sl.phase = .done ∨ sl.phase = .off := by
  constructor
  · intro ph h
    exact ⟨alone (inBlock ph none), 0, _, _, rfl, rfl, rfl, rfl, _, List.mem_singleton.2 rfl, rfl, by simpa using h⟩
  · intro x _ ph h
    refine ⟨alone (inBlock ph x), 0, _, _, rfl, rfl, rfl, rfl, rfl, ?_⟩
    intro sl hs
    rw [List.mem_singleton.1 hs]
    exact .inr (by simpa using h)

/-- A wait of number 0. -/
def waits (w : Wait) (isOver : Bool) : WaitSt := { id := 0, wait := w, done := isOver }

/-- `Obligations.GoesOn`: no wait, one that is over, one that is not, and WAIT.TOK with nothing to take; each with and without YIELD. -/
theorem witness_GoesOn :
    (∀ y ∈ [false, true], ∃ t : Thread, t.wait = none ∧ t.yieldNext = y) ∧
    (∀ y ∈ [false, true], (∃ t : Thread, t.wait = some (waits (.drain true) true) ∧ t.yieldNext = y) ∧
      ∃ t : Thread, t.wait = some (waits .strmWait false) ∧ t.armst ≠ 1 ∧ t.yieldNext = y) ∧
    (∃ t : Thread, t.wait = some (waits (.ctxSw 0) false) ∧ (∀ mask task, (waits (.ctxSw 0) false).wait ≠ .waitTok mask task) ∧
      (waits (.ctxSw 0) false).wait ≠ .strmWait) ∧
    ∃ (t : Thread) (mask : Byte), t.wait = some (waits (.waitTok mask true) false) ∧ t.taskToken = none ∧
      ∀ ch, ch < 8 → mask.getLsbD ch = true → (t.pop.get [] ch).length ≤ t.popsOn ch := by
  refine ⟨fun y _ => ⟨{ yieldNext := y }, rfl, rfl⟩, fun y _ => ⟨⟨{ wait := some (waits (.drain true) true), yieldNext := y }, rfl, rfl⟩,
    { wait := some (waits .strmWait false), yieldNext := y }, rfl, (by decide : (0 : BitVec 2) ≠ 1), rfl⟩,
    ⟨{ wait := some (waits (.ctxSw 0) false) }, rfl, fun _ _ => by simp [waits], by simp [waits]⟩,
    { wait := some (waits (.waitTok 0x81 true) false), pop := [(0, [narrow 0 0 0])], pops := [(1, 0)] }, 0x81, rfl, rfl, by decide⟩

/-- `Obligations.EffectsLeave`, `Obligations.UnhandledTrap` where TVEC is 0, and the premise of `Obligations.ThreadEvents`, `Obligations.TokensMove`,
`Obligations.PhaseSteps`, `Obligations.Arrivals` and `Obligations.Firings`. -/
theorem witness_cast : ∃ (s : State) (c : Nat) (k : Cast), s.dev.casts.find c = some k ∧ k.th.tvec = 0 ∧ k.th.inh = false := ⟨alone plain, 0, plain, rfl, rfl, rfl⟩

/-- A thread with DRAIN and CTX.SW under way. -/
def phased (l : List PhaseOp) : Cast := withTh fun t => { t with phaseOps := l }

/-- `Obligations.CommandsLeave`: commands with and without an address; an armature with and without a root; a phase that ends or not. -/
theorem witness_CommandsLeave :
    spanOf (.barrierUpdate { agent := .thread 0, requester := 0, tenant := 0, pa := 16, rpl := none, upd := .init 1 }) = (16, 16) ∧ spanOf (.seGrpFree { cast := 0, requester := 0 } 0) = (0, 0) ∧
    (∃ (s : State) (c : Nat) (k : Cast), s.dev.casts.find c = some k ∧ (k.site 0).scwNow.toNat / 2 ^ 80 % 4 = 0 ∧ k.th.phaseOps = []) ∧
    (∃ (s : State) (c : Nat) (k : Cast), s.dev.casts.find c = some k ∧ k.th.phaseOps ≠ []) ∧
    ∃ (s : State) (c : Nat) (k : Cast), s.dev.casts.find c = some k ∧ (k.site 0).scwNow.toNat / 2 ^ 80 % 4 ≠ 0 :=
  ⟨rfl, rfl, ⟨alone plain, 0, plain, rfl, rfl, rfl⟩, ⟨alone (phased [⟨none, 0, false⟩]), 0, _, rfl, by simp [phased, withTh]⟩, alone { plain with sites := [(0, { scw := [(0, 1 <<< 80)] })] }, 0, _, rfl, by decide⟩

/-- `Obligations.TrapEntry`: outside a handler; inside one an asynchronous cause, and a TRAP. `Obligations.UnhandledTrap`: a double trap. -/
theorem witness_TrapEntry :
    (∃ (s : State) (c : Nat) (k : Cast), s.dev.casts.find c = some k ∧ k.th.tvec ≠ 0 ∧ k.th.inh = false) ∧
    (∃ (s : State) (c : Nat) (k : Cast), ∃ tr : Trap, s.dev.casts.find c = some k ∧ k.th.tvec ≠ 0 ∧ k.th.inh = true ∧ tr.async = true) ∧
    (∃ (s : State) (c : Nat) (k : Cast), ∃ tr : Trap, s.dev.casts.find c = some k ∧ k.th.tvec ≠ 0 ∧ k.th.inh = true ∧ tr.async = false ∧ tr.cause = 0x20) ∧
    ∃ (s : State) (c : Nat) (k : Cast), ∃ tr : Trap, s.dev.casts.find c = some k ∧ k.th.tvec ≠ 0 ∧ true = (k.th.inh && !tr.async && tr.cause != 0x20) :=
  ⟨⟨alone (withTh fun t => { t with tvec := 64 }), 0, _, rfl, by decide, rfl⟩,
   ⟨alone (withTh fun t => { t with tvec := 64, inh := true }), 0, _, { cause := 0x41, async := true, restart := 0 }, rfl, by decide, rfl, rfl⟩,
   ⟨alone (withTh fun t => { t with tvec := 64, inh := true }), 0, _, { cause := 0x20, restart := 0 }, rfl, by decide, rfl, rfl, rfl⟩,
   alone (withTh fun t => { t with tvec := 64, inh := true }), 0, _, { cause := 0x06, restart := 0 }, rfl, by decide, rfl⟩

/-- `Obligations.ReturnFromTrap`: nothing to resume, a wait that goes on, and one whose event has come. -/
theorem witness_ReturnFromTrap :
    (∃ t : Thread, t.wres = false ∧ t.wait = none ∧ t.yieldNext = false) ∧
    (∃ t : Thread, (t.wres = true → t.saved.isSome = true ∧ t.wait = none) ∧ t.wres = true ∧ t.saved = some (waits (.drain true) false) ∧
      (∀ mask task, Wait.drain true ≠ .waitTok mask task) ∧ Wait.drain true ≠ .strmWait) ∧
    ∃ t : Thread, (t.wres = true → t.saved.isSome = true ∧ t.wait = none) ∧ t.wres = true ∧ t.saved = some (waits (.drain true) true) ∧ t.yieldNext = false :=
  ⟨⟨{}, rfl, rfl, rfl⟩, ⟨{ wres := true, saved := some (waits (.drain true) false) }, by decide, rfl, rfl, fun _ _ => by simp, by simp⟩,
   { wres := true, saved := some (waits (.drain true) true) }, by decide, rfl, rfl, rfl⟩

/-- A thread that fetches at address 0, of a mould of 8 bytes. -/
def fetching (f : Thread → Thread) : Cast := { withTh (fun t => f { t with mode := .fetch 0 }) with mould := { bytes := List.replicate 8 0 } }

/-- A state one clock on. -/
def later1 (s : State) : State := { s with dev := { s.dev with now := 1 } }

/-- A header of one slot and BRN, without and with ENTRY. -/
def brn : Memory := [(0, 1), (7, 0x61)]
def brnEntry : Memory := [(0, 1), (1, 8), (7, 0x61)]

/-- `Obligations.BlockFetch`, first part: a pc that is not aligned, one that is not the cast's code, a header of another version, and a sound block with an
asynchronous cause, with ENTRY, as the first, and to be run. -/
theorem witness_BlockFetch :
    (∃ (s : State) (c : Nat) (k : Cast) (r : Nat), s.dev.casts.find c = some k ∧ k.th.mode = .fetch r ∧ k.th.pc.toNat % 4 ≠ 0) ∧
    (∃ (s : State) (c : Nat) (k : Cast) (r : Nat) (f : FetchFault) (d : Dev), s.dev.casts.find c = some k ∧ k.th.mode = .fetch r ∧ Dev.fetchBlock s.mem s.dev k = (.error f, d) ∧ f.cause = 0x08) ∧
    (∃ (s : State) (c : Nat) (k : Cast) (r : Nat) (f : FetchFault) (d : Dev), s.dev.casts.find c = some k ∧ k.th.mode = .fetch r ∧ Dev.fetchBlock s.mem s.dev k = (.error f, d) ∧ f.cause = 0x02) ∧
    (∃ (s : State) (c : Nat) (k : Cast) (r : Nat) (h : Word32) (sl : List Slot) (d : Dev), s.dev.casts.find c = some k ∧ k.th.mode = .fetch r ∧ Dev.fetchBlock s.mem s.dev k = (.ok (h, sl), d) ∧
      k.th.inh = false ∧ ∃ a rest, k.th.asyncQ = a :: rest ∧ a.at_ < s.dev.now) ∧
    (∃ (s : State) (c : Nat) (k : Cast) (r : Nat) (h : Word32) (sl : List Slot) (d : Dev), s.dev.casts.find c = some k ∧ k.th.mode = .fetch r ∧ Dev.fetchBlock s.mem s.dev k = (.ok (h, sl), d) ∧
      k.th.inh = false ∧ k.th.asyncQ = [] ∧ k.th.startTask = false ∧ h.getLsbD 11 = true ∧ k.th.first = false) ∧
    (∃ (s : State) (c : Nat) (k : Cast) (r : Nat) (h : Word32) (sl : List Slot) (d : Dev), s.dev.casts.find c = some k ∧ k.th.mode = .fetch r ∧ Dev.fetchBlock s.mem s.dev k = (.ok (h, sl), d) ∧
      k.th.inh = false ∧ k.th.asyncQ = [] ∧ k.th.startTask = false ∧ h.getLsbD 11 = false ∧ k.th.first = true) ∧
    ∃ (s : State) (c : Nat) (k : Cast) (r : Nat) (h : Word32) (sl : List Slot) (d : Dev), s.dev.casts.find c = some k ∧ k.th.mode = .fetch r ∧ Dev.fetchBlock s.mem s.dev k = (.ok (h, sl), d) ∧
      k.th.asyncQ = [] ∧ h.getLsbD 11 = false ∧ k.th.first = false := by
  refine ⟨⟨alone (fetching fun t => { t with pc := 2 }), 0, _, _, rfl, rfl, by decide⟩,
    ⟨alone (fetching fun t => { t with pc := 8 }), 0, _, _, _, _, rfl, rfl, rfl, rfl⟩,
    ⟨holding [(0, 2)] (fetching id), 0, _, _, _, _, rfl, rfl, rfl, rfl⟩,
    ⟨later1 (holding brn (fetching fun t => { t with asyncQ := [{ code := 0x41, sub := 0, info0 := 0, info1 := 0, info2 := 0, info3 := 0 }] })), 0, _, _, _, _, _, rfl, rfl, rfl,
      rfl, _, _, rfl, Nat.one_pos⟩,
    ⟨holding brnEntry (fetching id), 0, _, _, _, _, _, rfl, rfl, rfl, rfl, rfl, rfl, rfl, rfl⟩,
    ⟨holding brn (fetching fun t => { t with first := true }), 0, _, _, 1, _, _, rfl, rfl, rfl, rfl, rfl, rfl, rfl, rfl⟩,
    holding brn (fetching id), 0, _, _, 1, _, _, rfl, rfl, rfl, rfl, rfl, rfl⟩

/-- `Obligations.BlockFetch`, second part: a block that reads a register which awaits a reply, and one that does not. -/
theorem witness_BlockFetch_begins : ∀ r ∈ [3, (4 : Nat)], ∃ (s : State) (c : Nat) (k : Cast) (b : Block), s.dev.casts.find c = some k ∧ k.th.blk = some b ∧ b.begun = false ∧
    k.th.pendingRegs = [r] ∧ b.slots.map Slot.instr = [some (.get 3 0 0)] := by
  intro r h
  simp only [List.mem_cons, List.not_mem_nil, or_false] at h
  let k := fun (t : Target) => withTh fun th => { th with
    pend := [{ pid := 1, ta := t, tb := 0, acquire := false, kind := .plain, reply := none }]
    blk := some { bare with begun := false, slots := [{ word := 0x700C0000 }] } }
  rcases h with rfl | rfl
  · exact ⟨alone (k 0x143), 0, _, _, rfl, rfl, rfl, rfl, rfl⟩
  · exact ⟨alone (k 0x144), 0, _, _, rfl, rfl, rfl, rfl, rfl⟩

/-- `Obligations.ResultDelivery`: a slot that is in flight; targets of each kind, with an operand that is open, that holds a value, and that is complete
with NULL. -/
theorem witness_ResultDelivery :
    (∃ (s : State) (c : Nat) (n : Nat) (k : Cast) (b : Block) (sl : Slot) (i : Instr), s.dev.casts.find c = some k ∧ k.th.blk = some b ∧ b.slots[n]? = some sl ∧ sl.instr = some i ∧ (1 : Nat) ≠ b.seq) ∧
    Target.kind 0 = 0 ∧ Target.kind 0x17F = 5 ∧ Target.kind 0x040 = 1 ∧ Target.kind 0x100 = 4 ∧
    (∃ (b : Block) (sl : Slot), b.slots[Target.index 0x0C0]? = some sl ∧ (operandOf 3 sl).val = none ∧ (operandOf 3 sl).feeders = 0) ∧
    (∃ (b : Block) (sl : Slot), b.slots[Target.index 0x0C0]? = some sl ∧ (operandOf 3 sl).val.isSome = true) ∧
    ∃ (b : Block) (sl : Slot), b.slots[Target.index 0x0C0]? = some sl ∧ 0 < (operandOf 3 sl).feeders ∧ (operandOf 3 sl).feeders ≤ (operandOf 3 sl).nulls := by
  refine ⟨⟨alone (withTh fun t => { t with blk := some { bare with slots := [{ word := 0x01000143, phase := .fired }] } }), 0, 0, _, _, _, _,
    rfl, rfl, rfl, rfl, by decide⟩, rfl, rfl, rfl, rfl, ⟨{ bare with slots := [{ word := 0 }] }, _, rfl, rfl, rfl⟩,
    ⟨{ bare with slots := [{ word := 0, c := { val := some 0 } }] }, _, rfl, rfl⟩,
    { bare with slots := [{ word := 0, c := { feeders := 1, nulls := 1 } }] }, _, rfl, by decide⟩

/-- Two tasks of tenant 0: the active one of cast 0, and one of priority 9 in its launch FIFO; the pool has a slot; cast 0 has a request on its way to
the placer. -/
def yielding : State :=
  let d := (alone { withTh fun t => { t with mode := .pausing 0 } with task := some 1, fifo := [2] }).dev
  let t : Task := { tenant := 0, addr := 0, pri := 9, st := .staged, die := 0, direct := true }
  { mem := [], dev := { d with
      sch := { d.sch with tasks := [(1, { t with st := .active }), (2, t)], spoolb := [(0, BitVec.ofNat 64 (1 + 2 ^ 16 * 4096))] }
      pl := { d.pl with asks := [{ src := .thread 0, at_ := 0, requester := 0, tenant := 0, addr := 0 }] } } }

/-- `Obligations.ThreadEvents`: a queued cause with no block; causes of one clock and of another; replies of one and of two commands, in either order; a pause that
ends, and one at which the cast is to be suspended; blocks to discard. -/
theorem witness_ThreadEvents :
    (∃ (s : State) (c : Nat) (k : Cast) (a : AsyncCause) (rest : List AsyncCause), s.dev.casts.find c = some k ∧ k.th.asyncQ = a :: rest ∧ k.th.inh = false ∧ k.th.blk = none) ∧
    (∃ (t : Thread) (p q : PendingCmd), t.pend = [p] ∧ p.reply = none ∧ p.kind = .plain ∧ q.reply = none ∧ p.pid ≠ q.pid ∧
      ({ t with pend := [p, q] } : Thread).pend = [p, q]) ∧
    (∃ (s : State) (c : Nat) (k : Cast) (u : Nat), s.dev.casts.find c = some k ∧ k.th.mode = .pausing u ∧ u ≤ s.dev.now ∧ s.dev.yieldFor c k = none ∧ k.frozen = false) ∧
    (∃ (s : State) (c : Nat) (k : Cast) (u : Nat) (x : Cand), s.dev.casts.find c = some k ∧ k.th.mode = .pausing u ∧ u ≤ s.dev.now ∧ s.dev.yieldFor c k = some x ∧
      k.frozen = false ∧ k.threadQuiet = true ∧ s.dev.saveReady c k = false) ∧
    (∃ (a b : AsyncCause) (l : List AsyncCause), (∀ b ∈ l, b.at_ = a.at_ → b.code.toNat ≤ a.code.toNat) ∧ l ≠ [] ∧ b.at_ = a.at_ ∧ a.code.toNat < b.code.toNat) ∧
    (∃ (s : State) (c : Nat) (k : Cast), s.dev.casts.find c = some k ∧ ∀ b, k.th.blk = some b → b.clash = none) ∧
    (∃ t : Thread, t.blk = some bare) ∧ (∃ t : Thread, t.blk = none ∧ t.mode = .pausing 0) ∧
    ∃ t : Thread, t.blk = none ∧ ∀ u, t.mode ≠ .pausing u := by
  let cause := fun (code : Byte) => ({ code := code, sub := 0, info0 := 0, info1 := 0, info2 := 0, info3 := 0 } : AsyncCause)
  refine ⟨⟨alone (withTh fun t => { t with asyncQ := [cause 0x41] }), 0, _, _, _, rfl, rfl, rfl, rfl⟩,
    ⟨{ pend := [{ pid := 1, ta := 0x143, tb := 0, acquire := false, kind := .plain, reply := none }] }, _,
      { pid := 2, ta := 0x143, tb := 0, acquire := false, kind := .plain, reply := none }, rfl, rfl, rfl, rfl, by decide, rfl⟩,
    ⟨alone (withTh fun t => { t with mode := .pausing 0 }), 0, _, 0, rfl, rfl, Nat.le_refl 0, rfl, rfl⟩,
    ⟨yielding, 0, _, 0, .fifo 2, rfl, rfl, Nat.le_refl 0, by decide +kernel, rfl, rfl, by decide +kernel⟩,
    ⟨cause 0x41, cause 0x42, [cause 0x40], by decide, by simp, rfl, by decide⟩,
    ⟨alone (inBlock .idle none), 0, _, rfl, ?_⟩, ⟨{ blk := some bare }, rfl⟩, ⟨{ mode := .pausing 0 }, rfl, rfl⟩, {}, rfl, by simp⟩
  rintro b h
  cases h
  rfl

/-! ### Sites of the fabric -/

/-- Word 0 of an ECW: kind, operation, format, mode, and bits 11 to 0 (R190); K in word 3 (R193). -/
def ecw (kind op fmt mode low : Nat) (k : Nat := 0) : BitVec 128 :=
  BitVec.ofNat 128 (2 ^ 28 * kind + 2 ^ 20 * op + 2 ^ 16 * fmt + 2 ^ 12 * mode + low + 2 ^ 96 * k)

/-- An input with one token of phase 0, and a site with an ECW, an element, and heads of A, B and D. -/
def one (t : Option Token) : InQ := { toks := (t.map fun t => (0, t)).toList, occ := if t.isSome then [(0, 1)] else [] }
def siteOf (e : BitVec 128) (el : Elem) (a : Option Token := none) (b : Option Token := none) (d : Option Token := none) : Site :=
  { ecw := [(0, e)], inA := one a, inB := one b, inD := one d, el := el }

/-- A cast with that site at its north-west corner. -/
def atSite (x : Site) : Cast := { plain with sites := [(0, x)] }

/-- A step of a site of a cast: some state, cast and site satisfy a condition. -/
def AtSite (P : State → Nat → Nat → Cast → Prop) : Prop := ∃ s c n k, s.dev.casts.find c = some k ∧ P s c n k

theorem at_of {P : State → Nat → Nat → Cast → Prop} (k : Cast) (h : P (alone k) 0 0 k) : AtSite P := ⟨alone k, 0, 0, k, rfl, h⟩

/-- `Obligations.TokensMove`: a queue with a head of the phase; a site that no node governs; a waiting thread. -/
theorem witness_TokensMove :
    (∃ (x : Site) (t : Token), x.inA = { toks := [(0, t)], occ := [(0, 1)], freed := 0 } ∧ 0 ≤ x.phase) ∧
    (AtSite fun s c n k => ∃ k', (onSite c n (fun x => { x with lastFire := s.dev.now + 1 }) s).dev.casts.find c = some k' ∧ k'.governed n = false ∧ k.tenant = 0) ∧
    ∃ (t : Thread) (w : WaitSt), t.wait = some w ∧ t.saved = none ∧ t.mode = .waiting ∧ t.yieldNext = false :=
  ⟨⟨siteOf 0 .none (some (narrow 0 0 1)), narrow 0 0 1, rfl, Nat.le_refl 0⟩, at_of plain ⟨_, rfl, rfl, rfl⟩,
   { wait := some (waits .strmWait false), mode := .waiting }, _, rfl, rfl, rfl, rfl⟩

/-- A thread that waits. -/
def waiting (w : Wait) (k : Cast) : Cast := { k with th := { k.th with wait := some (waits w false) } }

/-- `Obligations.PhaseSteps`: a selector whose only input stands at RECONF 3 and at DRAIN; DRAIN, and CTX.SW behind another, that are to be appended; DRAIN and
CTX.SW that have passed through the cast. -/
theorem witness_PhaseSteps :
    (AtSite fun s c n k => ∃ t, k.ownAlign n = false ∧ k.canAlign s.dev c n = some t ∧ tokName t = .reconf) ∧
    (AtSite fun s c n k => ∃ t, k.ownAlign n = false ∧ k.canAlign s.dev c n = some t ∧ tokName t = .drain) ∧
    (∀ sw ∈ [none, some 3], AtSite fun _ _ _ k => k.th.phaseOps = [{ sw := sw, id := 7, appended := false }] ∧ k.th.armst ≠ 1 ∧ ∃ w, k.th.wait = some w) ∧
    (AtSite fun s c _ k => k.th.phaseOps = [{ sw := none, id := 7, appended := true }] ∧ k.canDrain s.dev c = true) ∧
    AtSite fun s c _ k => k.th.phaseOps = [{ sw := some 3, id := 7, appended := true }] ∧ k.canSwitch s.dev c = true := by
  refine ⟨at_of (atSite (siteOf (ecw 5 1 0 0 0x100) .none (some (reconfTok false 3)))) ⟨_, rfl, rfl, rfl⟩,
    at_of (atSite (siteOf (ecw 5 1 0 0 0x100) .none (some (drainTok false)))) ⟨_, rfl, rfl, rfl⟩, ?_,
    at_of (phased [⟨none, 7, true⟩]) ⟨rfl, by decide +kernel⟩, at_of (phased [⟨some 3, 7, true⟩]) ⟨rfl, by decide +kernel⟩⟩
  intro sw _
  exact at_of (waiting (.drain false) (phased [⟨sw, 7, false⟩])) ⟨rfl, (by decide : (0 : BitVec 2) ≠ 1), _, rfl⟩

/-- A node of the armature: its kind, its parent's column, and what it does. -/
def nodeAt (kind px : Nat) (x : Node) : Site := { scw := [(0, BitVec.ofNat 128 (2 ^ 80 * kind + 2 ^ 82 * px))], node := x }

/-- `Obligations.Arrivals`: a site that is no STREAM node; tokens of each name; a node that runs, and one that holds a permit; a SEQ node with a
second child; a governed leaf in its run. -/
theorem witness_Arrivals :
    (AtSite fun _ _ n k => scwKind (k.site n).scwNow ≠ 3 ∧ k.th.pops = []) ∧
    tokName (narrow 7 0 0) = .reserved ∧ (tokName (reconfTok false 4) = .reconf ∧ 3 < (reconfTok false 4).ctl.toNat % 16) ∧
    (tokName (reconfTok true 3) = .reconf ∧ (reconfTok true 3).ctl.toNat % 16 ≤ 3) ∧ tokName (drainTok false) = .drain ∧
    tokName (narrow 1 7 0) = .stop ∧ tokName (narrow 2 0 0) = .done ∧ tokName (narrow 3 0 0) = .index ∧ tokName (narrow 0 0 0) = .data ∧
    tokName (errorTok true 0) = .error ∧
    (AtSite fun _ _ n k => (k.site n).node.running = true) ∧ (AtSite fun _ _ n k => 0 < (k.site n).node.permits) ∧
    (AtSite fun _ _ n k => ∃ m, (k.site n).node.running = true ∧ scwKind (k.site n).scwNow = 1 ∧ (k.children n)[0 + 1]? = some m ∧ k.goneRow m = false) ∧
    AtSite fun _ _ n k => (k.site n).node.running = true ∧ 0 < (k.site n).node.inner ∧ k.governed n = true :=
  ⟨at_of plain ⟨by decide, rfl⟩, rfl, by decide, by decide, rfl, rfl, rfl, rfl, rfl, rfl, at_of (atSite (nodeAt 1 0 { running := true })) rfl,
   at_of (atSite (nodeAt 1 0 { permits := 1 })) (by decide),
   at_of { plain with sites := [(0, nodeAt 1 0 { running := true }), (1, nodeAt 1 0 {}), (2, nodeAt 1 0 {})] } ⟨2, rfl, rfl, by decide, rfl⟩,
   at_of (atSite (nodeAt 2 0 { running := true })) ⟨rfl, by decide, rfl⟩⟩

/-- `Obligations.Firings`: an ERROR token at a selector; a selector whose index chooses B; each kind. -/
theorem witness_Firings :
    (AtSite fun s _ n k => ∃ p t, (k.site n).errorHead = some (p, t) ∧ k.canForwardError s.dev n = true) ∧
    (AtSite fun s _ n k => k.canSelect s.dev n = true ∧ ∃ v rs, k.selAct s.dev n = .send .b v rs) ∧
    ∀ i ∈ [0, 1, 2, 3, 4, 5], AtSite fun _ _ n k => ecwKind (k.site n).ecwNow = i := by
  refine ⟨at_of (atSite (siteOf (ecw 5 1 0 0 0x100) .none (some (errorTok false 0)))) ⟨_, _, rfl, rfl⟩,
    at_of (atSite (siteOf (ecw 5 2 0 0 0x300) .none (some (narrow 3 0 0)) (some (narrow 0 0 9)))) ⟨rfl, _, _, rfl⟩, ?_⟩
  intro i h
  simp only [List.mem_cons, List.not_mem_nil, or_false] at h
  rcases h with rfl | rfl | rfl | rfl | rfl | rfl
  · exact at_of (atSite (siteOf (ecw 0 1 0 0 0) .none)) rfl
  · exact at_of (atSite (siteOf (ecw 1 1 0 0 0) .none)) rfl
  · exact at_of (atSite (siteOf (ecw 2 1 0 0 0) .none)) rfl
  · exact at_of (atSite (siteOf (ecw 3 1 0 0 0) .none)) rfl
  · exact at_of (atSite (siteOf (ecw 4 1 0 0 0) .none)) rfl
  · exact at_of (atSite (siteOf (ecw 5 1 0 0 0) .none)) rfl

/-- A bank at the corner of a cast. -/
def banked (e : BitVec 128) (b : SbSt) (a : Option Token := none) (t : Option Token := none) : Cast := atSite (siteOf e (.sb b) a t)

/-- `Obligations.HandleSteps`: a bank with room, and a length that it refuses; a handle (0x100000: entry 0, generation 1) that is stale, that a thread
holds, and that an element holds. -/
theorem witness_HandleSteps :
    (∃ (bank : SbSt), bank.alloc 0 = none ∧ bank.alloc 524289 = none) ∧ (∃ (bank : SbSt) (i : Nat) (b : SbSt), bank.alloc 524288 = some (i, b)) ∧
    (AtSite fun _ _ n k => ∃ bank, (k.site n).el = .sb bank ∧ hndSite 0x100000 = n ∧ k.current 0x100000 = none) ∧
    (AtSite fun _ _ n k => ∃ bank e, (k.site n).el = .sb bank ∧ hndSite 0x100000 = n ∧ k.current 0x100000 = some e ∧ e.elem = false) ∧
    AtSite fun _ _ n k => ∃ bank e, (k.site n).el = .sb bank ∧ hndSite 0x100000 = n ∧ k.current 0x100000 = some e ∧ e.elem = true :=
  ⟨⟨{}, rfl, rfl⟩, ⟨{}, _, _, rfl⟩, at_of (banked 0 {}) ⟨_, rfl, rfl, rfl⟩,
   at_of (banked 0 { hnd := [(0, { used := true, len := 8 })] }) ⟨_, _, rfl, rfl, rfl, rfl⟩,
   at_of (banked 0 { hnd := [(0, { used := true, len := 8, elem := true })] }) ⟨_, _, rfl, rfl, rfl, rfl⟩⟩

/-- A bank with a range of 128 bytes that an element holds. -/
def range128 : SbSt := { hnd := [(0, { used := true, len := 128, elem := true })] }

/-- `Obligations.BankSteps`: a narrow read of the range's last eight bytes and a wide one of all; a narrow write; a store of a memory port; a load whose
reply comes. -/
theorem witness_BankSteps :
    (∀ e a, (e, a) ∈ [(ecw 2 1 0 2 0x140, (120 : Word)), (ecw 2 1 0 0 0x140, 0)] → AtSite fun s c n k => ∃ bank k', (k.site n).el = .sb bank ∧
      (roundBegins c n s).dev.casts.find c = some k' ∧ k.sbReady s.dev n = true ∧ (∃ x h t, (k.site n).sbAct bank = .access x h t) ∧
      (∃ v, (k'.site n).sbAct bank = .access a 0 v) ∧ (k'.site n).ecwNow = e ∧ e.toNat / 2 ^ 20 % 256 = 1 ∧ (bank.hnd.get {} 0).used = true ∧
      (bank.hnd.get {} 0).elem = true ∧ a.toNat % (if e.getLsbD 13 then 8 else 128) = 0 ∧
      a.toNat + (if e.getLsbD 13 then 8 else 128) = (bank.hnd.get {} 0).len) ∧
    (AtSite fun s c n k => ∃ bank k', (k.site n).el = .sb bank ∧ (roundBegins c n s).dev.casts.find c = some k' ∧ k.sbReady s.dev n = true ∧
      (∃ x h t, (k.site n).sbAct bank = .access x h t) ∧ (∃ v, (k'.site n).sbAct bank = .access 120 0 v) ∧ (k'.site n).ecwNow.toNat / 2 ^ 20 % 256 = 2 ∧
      (k'.site n).ecwNow.getLsbD 13 = true ∧ (bank.hnd.get {} 0).used = true ∧ (bank.hnd.get {} 0).elem = true ∧ (bank.hnd.get {} 0).len = 128) ∧
    (AtSite fun s c n k => ∃ bank k', (k.site n).el = .sb bank ∧ (roundBegins c n s).dev.casts.find c = some k' ∧ k.sbReady s.dev n = true ∧
      (∃ x h t, (k.site n).sbAct bank = .access x h t) ∧ (∃ v, (k'.site n).sbAct bank = .access 64 0 v) ∧ (k'.site n).ecwNow.toNat / 2 ^ 20 % 256 = 4 ∧
      (k'.site n).ecwNow.getLsbD 13 = true ∧ (k'.site n).skip = false ∧
      ∃ q d, Dev.translate s.mem (roundBegins c n s).dev (k'.portVia n) k'.tenant 64 .store = (.ok q, d)) ∧
    AtSite fun _ _ n k => ∃ bank l tok, (k.site n).el = .sb bank ∧ bank.loads = [l] ∧ l.back = false ∧ l.toks = [tok] := by
  refine ⟨?_, at_of (banked (ecw 2 2 0 2 0x300) range128 (some (narrow 0 0 120)) (some (narrow 0 0 5)))
      ⟨_, _, rfl, rfl, by decide, ⟨_, _, _, rfl⟩, ⟨_, rfl⟩, by decide, by decide, rfl, rfl, rfl⟩,
    at_of (banked (ecw 2 4 0 2 0x300) range128 (some (narrow 0 0 64)) (some (narrow 0 0 5)))
      ⟨_, _, rfl, rfl, by decide, ⟨_, _, _, rfl⟩, ⟨_, rfl⟩, by decide, by decide, rfl, _, _, rfl⟩,
    at_of (banked (ecw 2 3 0 2 0x140) { loads := [{ toks := [narrow 0 0 7] }] }) ⟨_, _, _, rfl, rfl, rfl, rfl⟩⟩
  intro e a h
  simp only [List.mem_cons, List.not_mem_nil, or_false, Prod.mk.injEq] at h
  rcases h with ⟨rfl, rfl⟩ | ⟨rfl, rfl⟩
  · exact at_of (banked (ecw 2 1 0 2 0x140) range128 (some (narrow 0 0 120)))
      ⟨_, _, rfl, rfl, by decide, ⟨_, _, _, rfl⟩, ⟨_, rfl⟩, rfl, by decide, rfl, rfl, by decide, by decide⟩
  · exact at_of (banked (ecw 2 1 0 0 0x140) range128 (some (narrow 0 0 0)))
      ⟨_, _, rfl, rfl, by decide, ⟨_, _, _, rfl⟩, ⟨_, rfl⟩, rfl, by decide, rfl, rfl, by decide, by decide⟩

/-! ### Converters, vector elements, matrix elements, stream operators, the copy engine -/

/-- SWAP, and a HEADER of a format, on the wide network. -/
def swapTok : Token := wideTok 5 0 0 0
def header (f : Nat) : Token := wideTok 6 (256 * f) 0 0

/-- A vector element of FP32 (format 2), with operation 1, B from SRA, and further bits. -/
def vectorial (low : Nat) (v : VeSt) (a : Option Token := none) (b : Option Token := none) (d : Option Token := none) : Cast :=
  atSite (siteOf (ecw 0 1 2 0 (0x10 + low)) (.ve v) a b d)

/-- `Obligations.VectorSteps`: a converter that passes SWAP and one that fires; a vector element that fires, takes a beat, swaps with and without Y,
meets a HEADER of its format at B and at A and one of another, and flushes. -/
theorem witness_VectorSteps :
    (AtSite fun s _ n k => ∃ cx t, (k.site n).el = .cx cx ∧ k.cxReady s.dev n = true ∧ (k.site n).cxAct cx = .pass t) ∧
    (AtSite fun s c n k => ∃ k' cx r r', (roundBegins c n s).dev.casts.find c = some k' ∧ (k.site n).el = .cx cx ∧ k.cxReady s.dev n = true ∧
      (k.site n).cxAct cx = .fire r' ∧ (k'.site n).cxAct cx = .fire r) ∧
    (AtSite fun s c n k => ∃ k' v x, (roundBegins c n s).dev.casts.find c = some k' ∧ k.veReady s.dev n = true ∧ (k'.site n).el = .ve v ∧
      (k'.site n).veOperands v = some x) ∧
    (AtSite fun _ _ n k => ∃ t, k.canIntake n = true ∧ (k.site n).head .d = some t) ∧
    (AtSite fun s _ n k => ∃ t, k.canSwap s.dev n = true ∧ (k.site n).head .a = some t ∧ (k.site n).ecwNow.getLsbD 6 = true) ∧
    (AtSite fun s _ n k => k.canSwap s.dev n = true ∧ (k.site n).ecwNow.getLsbD 6 = false) ∧
    (AtSite fun s _ n k => ∃ t, k.canConsumeAlone s.dev n .b = true ∧ (k.site n).head .b = some t ∧ tokName t = .header ∧ ecwIn (k.site n).ecwNow .b = true ∧
      t.ctl.toNat / 2 ^ 8 % 16 = ecwFmt (k.site n).ecwNow) ∧
    (AtSite fun s _ n k => ∃ t, k.canConsumeAlone s.dev n .a = true ∧ (k.site n).head .a = some t ∧ tokName t = .header ∧ ecwIn (k.site n).ecwNow .a = true ∧
      t.ctl.toNat / 2 ^ 8 % 16 = ecwFmt (k.site n).ecwNow ∧ (k.site n).ecwNow.getLsbD 6 = true) ∧
    (AtSite fun s _ n k => ∃ t, k.canConsumeAlone s.dev n .a = true ∧ (k.site n).head .a = some t ∧ tokName t = .header ∧ ecwIn (k.site n).ecwNow .a = true ∧
      t.ctl.toNat / 2 ^ 8 % 16 ≠ ecwFmt (k.site n).ecwNow) ∧
    AtSite fun s _ n k => ∃ v, k.canFlush s.dev n = true ∧ (k.site n).el = .ve v :=
  ⟨at_of (atSite (siteOf (ecw 4 1 2 0 0x140) (.cx {}) (some swapTok))) ⟨_, _, rfl, rfl, rfl⟩,
   at_of (atSite (siteOf (ecw 4 1 2 0 0x142) (.cx {}) (some (wideTok 0 0 0 0)))) ⟨_, _, _, _, rfl, rfl, rfl, rfl, rfl⟩,
   at_of (vectorial 0x140 {} (some (wideTok 0 0 0 0))) ⟨_, _, _, rfl, rfl, rfl, rfl⟩,
   at_of (vectorial 0x940 {} none none (some (wideTok 0 0 7 0))) ⟨_, rfl, rfl⟩,
   at_of (vectorial 0x140 {} (some swapTok)) ⟨_, rfl, rfl, by decide⟩, at_of (vectorial 0x900 { lfull := true } (some swapTok)) ⟨rfl, by decide⟩,
   at_of (vectorial 0x340 {} none (some (header 2))) ⟨_, rfl, rfl, rfl, rfl, by decide⟩,
   at_of (vectorial 0x140 {} (some (header 2))) ⟨_, rfl, rfl, rfl, rfl, by decide, by decide⟩,
   at_of (vectorial 0x140 {} (some (header 3))) ⟨_, rfl, rfl, rfl, rfl, by decide⟩,
   at_of (vectorial 0x140 { partial_ := true } (some (reconfTok true 0))) ⟨_, rfl, rfl⟩⟩

/-- A matrix element of weights of format 4, with A, B and D enabled and Y and Z. -/
def matrix (m : MxSt) (a : Option Token := none) (b : Option Token := none) (d : Option Token := none) : Cast :=
  atSite (siteOf (ecw 1 1 4 0 0xBC0) (.mx m) a b d)

/-- A slot of format 4 that is claimed and holds row 0 of two. -/
def slot2 : MxSlot := { claimed := true, fmt := 4, nrows := 2, pres := [(0, 0)], fill := 1 }

/-- A matrix element with seven commands. -/
def seven : MxSt := { slots := [(0, slot2)], cmds := List.replicate 7 { id := 0, word := 4 } }

/-- `Obligations.MatrixInputs`: the last beat of a slot's rows and a HEADER of another format; the first beat of a tile; a command that is taken and one
that is refused, in the last place of the queue; the beginning of a swap; a claim of format 2 with 64 rows and with 65; a release. -/
theorem witness_MatrixInputs :
    (AtSite fun s _ n k => ∃ m t i, (k.site n).el = .mx m ∧ ecwKind (k.site n).ecwNow = 1 ∧ (k.site n).ecwNow ≠ 0 ∧ ecwIn (k.site n).ecwNow .a = true ∧
      m.aAt ≤ s.dev.now ∧ (k.site n).head .a = some t ∧ m.fillQ = [i] ∧ tokName t = .data ∧ (m.slots.get {} i).fill + 1 = (m.slots.get {} i).nrows ∧
      mxTwoBeats (m.slots.get {} i).fmt = false ∧ isMx (m.slots.get {} i).fmt = false) ∧
    (AtSite fun s _ n k => ∃ m t i, (k.site n).el = .mx m ∧ ecwIn (k.site n).ecwNow .a = true ∧ m.aAt ≤ s.dev.now ∧ (k.site n).head .a = some t ∧ m.fillQ = [i] ∧
      tokName t = .header ∧ t.ctl.toNat / 2 ^ 8 % 16 ≠ (m.slots.get {} i).fmt) ∧
    (AtSite fun s _ n k => ∃ m t, (k.site n).el = .mx m ∧ ecwIn (k.site n).ecwNow .b = true ∧ m.bAt ≤ s.dev.now ∧ (k.site n).head .b = some t ∧ tokName t = .data ∧
      m.lfull = false ∧ m.bFrom ≤ s.dev.now ∧ (m.loadBeat (k.site n).ecwNow t s.dev.now).lfull = false) ∧
    (∀ w ok, (w, ok) ∈ [((1 : Word), none), (4, none), (0, some 0x22)] → AtSite fun s _ n k => ∃ m t, (k.site n).el = .mx m ∧ m.dAt ≤ s.dev.now ∧
      (k.site n).head .d = some t ∧ tokName t = .data ∧ tokWord t = w ∧ m.wordError (tokWord t) = ok ∧ m.cmds.length = 7 ∧ bitsAt (tokWord t) 32 1 = 0) ∧
    (AtSite fun s _ n k => ∃ m y, (k.site n).el = .mx m ∧ m.cmds = [y] ∧ y.begun = false ∧ m.locks = [] ∧ bitsAt y.word 0 4 = 4 ∧ m.full s.dev.now = true) ∧
    (∃ (m : MxSt), m.claimSlot 0xF0402 = none ∧ m.claimSlot 0xF03F2 = some 15) ∧
    (AtSite fun s _ n k => ∃ m, (k.site n).el = .mx m ∧ (m.slots.get {} 15).claimed = true ∧ (m.slots.get {} 15).relp = true ∧
      (m.slots.get {} 15).relAt ≤ s.dev.now ∧ ∀ y ∈ m.cmds, bitsAt y.word 0 4 ≠ 1 ∨ bitsAt y.word 4 4 ≠ 15 ∨ y.due = true) ∧
    AtSite fun _ _ n k => ∃ m, (k.site n).el = .mx m ∧ k.th.openWait (fun w => w == .mxScale) = none := by
  refine ⟨at_of (matrix { fillQ := [0], slots := [(0, slot2)] } (some (wideTok 0 0 9 0))) ⟨_, _, _, rfl, rfl, by decide, rfl, by decide, rfl, rfl, rfl, rfl, rfl, rfl⟩,
    at_of (matrix { fillQ := [0], slots := [(0, slot2)] } (some (header 5))) ⟨_, _, _, rfl, rfl, by decide, rfl, rfl, rfl, by decide⟩,
    at_of (matrix {} none (some (wideTok 0 0 9 0))) ⟨_, _, rfl, rfl, by decide, rfl, rfl, rfl, by decide, rfl⟩, ?_,
    at_of (matrix { cmds := [{ id := 0, word := 4 }], lfull := true }) ⟨_, _, rfl, rfl, rfl, rfl, rfl, rfl⟩, ⟨{}, rfl, rfl⟩,
    at_of (matrix { slots := [(15, { claimed := true, relp := true })], cmds := [{ id := 0, word := 0xF1, due := true }] }) ⟨_, rfl, rfl, rfl, by decide, by decide⟩,
    at_of (matrix {}) ⟨_, rfl, rfl⟩⟩
  intro w ok h
  simp only [List.mem_cons, List.not_mem_nil, or_false, Prod.mk.injEq] at h
  refine at_of (matrix seven none none (some (narrow 0 0 w))) ⟨seven, narrow 0 0 w, ?_⟩
  rcases h with ⟨rfl, rfl⟩ | ⟨rfl, rfl⟩ | ⟨rfl, rfl⟩ <;> exact ⟨rfl, Nat.le_refl 0, rfl, rfl, rfl, rfl, rfl, rfl⟩

/-- MMA of slot 0 and row 0 to bank 0, and its command in progress. -/
def mma : MxCmd := { id := 5, word := 1, begun := true }
def row : MxRow := { cmd := 5, bank := 0, row := 0, ovw := true, sums := [], flags := 0, fired := 0 }

/-- `Obligations.MatrixRows`: a row that may fire with three in flight; its dense update and outliers at the first clock of each; the last beat of a
READ; a completion note; RECONF; a RECONF in the middle of a tile. -/
theorem witness_MatrixRows :
    (AtSite fun s _ n k => ∃ m y r, (k.site n).el = .mx m ∧ ecwKind (k.site n).ecwNow = 1 ∧ (k.site n).ecwNow ≠ 0 ∧ m.cmds = [y] ∧ bitsAt y.word 0 4 = 1 ∧
      y.begun = true ∧ y.silent = false ∧ y.fired.length < bitsAt y.word 15 7 + 1 ∧ m.rowNext ≤ s.dev.now ∧ m.rows.length = 3 ∧
      y.nextRow (m.slots.get {} (bitsAt y.word 4 4)) s.dev.now = some r) ∧
    (∃ (m : MxSt) (r : MxRow), m.rows = [r] ∧ r.dense = false ∧ r.fired + 140 = 140 ∧ r.outl = []) ∧
    (∃ (m : MxSt) (r : MxRow), m.rows = [r] ∧ r.outl.length = 5 ∧ r.dense = true ∧ r.fired + 141 = 141 ∧ m.outAt = 0) ∧
    (AtSite fun s _ n k => ∃ m y, (k.site n).el = .mx m ∧ m.cmds = [y] ∧ bitsAt y.word 0 4 = 2 ∧ y.begun = true ∧ y.due = false ∧ m.readAt ≤ s.dev.now ∧
      (k.site n).errorHead = none ∧ (k.site n).outq = [] ∧ k.room s.dev n .y true = true ∧ y.beats + 1 = 4 * (bitsAt y.word 15 7 + 1)) ∧
    (AtSite fun s _ n k => ∃ m y, (k.site n).el = .mx m ∧ m.cmds = [y] ∧ m.due = [5] ∧ y.id = 5 ∧ y.word.getLsbD 33 = true ∧ y.silent = false ∧
      ecwOut (k.site n).ecwNow .z = true ∧ (k.site n).outq = [] ∧ k.room s.dev n .z false = true) ∧
    (AtSite fun s c n k => ∃ m t, (k.site n).el = .mx m ∧ m.loading = false ∧ (k.site n).aligned = some t ∧ tokName t = .reconf ∧ m.cmds = [] ∧ m.rows = [] ∧
      (k.site n).outq = [] ∧ k.allRoom s.dev n = true ∧ s.dev.argComing c n = false) ∧
    AtSite fun _ _ n k => ∃ m, (k.site n).el = .mx m ∧ (k.site n).headName .b = some .reconf ∧ ecwIn (k.site n).ecwNow .b = true ∧ m.loading = true := by
  exact ⟨at_of (matrix { slots := [(0, slot2)], cmds := [mma], rows := [row, row, row] })
      ⟨_, _, _, rfl, rfl, by decide, rfl, rfl, rfl, rfl, by decide, by decide, rfl, rfl⟩,
    ⟨{ rows := [row] }, row, rfl, rfl, rfl, rfl⟩,
    ⟨{ rows := [{ row with dense := true, outl := List.replicate 5 (0, .zero false) }] }, _, rfl, rfl, rfl, rfl, rfl⟩,
    at_of (matrix { cmds := [{ id := 5, word := 2, begun := true, beats := 3 }] }) ⟨_, _, rfl, rfl, rfl, rfl, rfl, by decide, rfl, rfl, rfl, rfl⟩,
    at_of (matrix { cmds := [{ id := 5, word := 0x200000004 }], due := [5] }) ⟨_, _, rfl, rfl, rfl, rfl, rfl, rfl, rfl, rfl, rfl⟩,
    at_of (matrix {} (some (reconfTok true 1)) (some (reconfTok true 1)) (some (reconfTok false 1))) ⟨_, _, rfl, rfl, rfl, rfl, rfl, rfl, rfl, rfl, rfl⟩,
    at_of (matrix { loading := true } none (some (reconfTok true 1))) ⟨_, rfl, rfl, rfl, rfl⟩⟩

/-- A stream operator with inputs A and B of rank 2 and 1, whose heads may have been checked. -/
def operator (i j : SoIn) : SoSt := { k := some 0x10302, latched := true, a := i, b := j }
def operates (op : Nat) (a : Option Token) (b : Option Token) (i j : SoIn) : Cast := atSite (siteOf (ecw 3 op 0 0 0x3C0 0x10302) (.so (operator i j)) a b)

/-- A DATA of a coordinate and a reference. -/
def fibre (crd ref : Nat) : Token := narrow 0 0 (BitVec.ofNat 64 (2 ^ 32 * crd + ref))

/-- `Obligations.OperatorSteps`, the check: an INDEX, a STOP at and below the rank, a DONE after the outermost STOP and before it, a DATA in order and
one that repeats its coordinate. -/
theorem witness_OperatorSteps_check : ∀ t i, (t, i) ∈ [(narrow 3 0 0, ({} : SoIn)), (narrow 1 2 0, {}), (narrow 1 1 0, {}), (narrow 2 0 0, { top := true }),
      (narrow 2 0 0, {}), (fibre 8 0, { prev := some 7 }), (fibre 7 0, { prev := some 7 })] →
    AtSite fun s _ n k => ∃ o, (k.site n).el = .so o ∧ o.k = some 0x10302 ∧ k.canCheck s.dev n .a = true ∧ (k.site n).head .a = some t ∧ t.wide = false ∧
      o.inp .a = i ∧ i.done = false ∧ (0x10302 : BitVec 32).toNat / 1 % 16 = 2 ∧ (0x10302 : BitVec 32).getLsbD 8 = true := by
  intro t i h
  simp only [List.mem_cons, List.not_mem_nil, or_false, Prod.mk.injEq] at h
  rcases h with ⟨rfl, rfl⟩ | ⟨rfl, rfl⟩ | ⟨rfl, rfl⟩ | ⟨rfl, rfl⟩ | ⟨rfl, rfl⟩ | ⟨rfl, rfl⟩ | ⟨rfl, rfl⟩ <;>
    exact at_of (operates 3 (some _) none _ {}) ⟨_, rfl, rfl, rfl, rfl, rfl, rfl, rfl, rfl, rfl⟩

/-- `Obligations.OperatorSteps`, the steps: INTERSECT, UNION and REPEAT on two DATA with equal and unequal coordinates, and what an operator that is
open needs; SCAN on STOP and DONE. -/
theorem witness_OperatorSteps :
    (∀ op ∈ [3, 4, 5], ∀ ca cb, (ca, cb) ∈ [(7, 7), (6, 7), (7, 6)] → AtSite fun _ _ n k => ∃ o a b, (k.site n).el = .so o ∧ o.k = some 0x10302 ∧
      (k.site n).soHead o .a = some a ∧ (k.site n).soHead o .b = some b ∧ tokName a = .data ∧ tokName b = .data ∧
      (k.site n).ecwNow.toNat / 2 ^ 20 % 2 ^ 8 = op ∧ o.pos = .start ∧ (tokWord a).toNat / 2 ^ 32 = ca ∧ (tokWord b).toNat / 2 ^ 32 = cb) ∧
    (AtSite fun s _ n k => ∃ o y, (k.site n).el = .so o ∧ o.k = some 0x10302 ∧ (k.site n).soOpen o s.dev.now = true ∧ o.skip = false ∧ (k.site n).errorHead = none ∧
      (k.site n).ecwNow.toNat / 2 ^ 20 % 2 ^ 8 ≠ 12 ∧ k.mayFire n s.dev.now = true ∧ (k.site n).skip = false ∧
      (k.site n).soPlan o 0x10302 = .step [.a, .b] (some y) (some y) o ∧ k.room s.dev n .y y.wide = true ∧ k.room s.dev n .z y.wide = true) ∧
    ∀ t ∈ [narrow 1 7 0, narrow 2 0 0], AtSite fun _ _ n k => ∃ o, (k.site n).el = .so o ∧ (k.site n).soHead o .a = some t ∧ o.pos = .start ∧
      (k.site n).ecwNow.toNat / 2 ^ 20 % 2 ^ 8 = 1 := by
  refine ⟨?_, at_of (operates 3 (some (fibre 7 1)) (some (fibre 7 1)) { checked := true } { checked := true })
    ⟨_, _, rfl, rfl, rfl, rfl, rfl, by decide, rfl, rfl, rfl, rfl, rfl⟩, ?_⟩
  · intro op h ca cb h'
    simp only [List.mem_cons, List.not_mem_nil, or_false, Prod.mk.injEq] at h h'
    refine at_of (operates op (some (fibre ca 1)) (some (fibre cb 2)) { checked := true } { checked := true }) ⟨operator { checked := true } { checked := true }, fibre ca 1, fibre cb 2, ?_⟩
    rcases h with rfl | rfl | rfl <;> rcases h' with ⟨rfl, rfl⟩ | ⟨rfl, rfl⟩ | ⟨rfl, rfl⟩ <;> exact ⟨rfl, rfl, rfl, rfl, rfl, rfl, rfl, rfl, rfl, rfl⟩
  · intro t h
    simp only [List.mem_cons, List.not_mem_nil, or_false] at h
    refine at_of (operates 1 (some t) none { checked := true } {}) ⟨operator { checked := true } {}, ?_⟩
    rcases h with rfl | rfl <;> exact ⟨rfl, rfl, rfl, rfl⟩

/-- A cast whose channel 0 is as given. -/
def channel (x : Chan) : Cast := { plain with chans := [(0, x)] }

/-- A record at address 64: OWN with FILL or COPY, LEN 32. -/
def fillRecord : Memory := [(64, 3), (72, 64), (96, 32)]
def begins : Cast := channel { used := true, cur := some 64 }
def copyRec (ctl : Nat) : CopyRec := { id := 0, addr := 64, ok := true, known := true, ctl := ctl, len := 32, sectors := 1 }

/-- The same record of FILL with its sector done, at an address and with a barrier. -/
def complete (addr bar : Word) : CopyRec := { copyRec 3 with addr := addr, bar := bar, done := 1, begun := true }

/-- `Obligations.CopySteps`: a chain in the queue; a record at an odd address, one that does not belong to the engine, one that is not sound, and a FILL; a
sector that is performed and one whose write is not translated; the kinds FILL and COPY; a record that
completes, one whose barrier is not translated and one that cannot be written; a barrier that is translated. -/
theorem witness_CopySteps :
    (AtSite fun s c cix k => k.canBeginChain s.dev (k.chans.get {} cix) = true ∧ (k.chans.get {} cix).queue = [(64, 0, false)]) ∧
    (AtSite fun s c cix k => ∃ addr : Word, k.canBeginRecord s.dev (k.chans.get {} cix) = true ∧ (k.chans.get {} cix).fault = none ∧
      (k.chans.get {} cix).cur = some addr ∧ addr.toNat % 64 ≠ 0) ∧
    (∀ m res, (m, res) ∈ [(([] : Memory), (Except.ok false : Except CopyErr Bool)), ([(64, 1), (65, 0x0C)], .error (.record 64)), (fillRecord, .ok true)] →
      ∃ (s : State) (c cix : Nat) (k : Cast) (u : State) (r : CopyRec), s.dev.casts.find c = some k ∧ k.canBeginRecord s.dev (k.chans.get {} cix) = true ∧
        (k.chans.get {} cix).fault = none ∧ (k.chans.get {} cix).cur = some 64 ∧
        (paced c cix s).loadRecord c cix k (k.chans.get {} cix) { id := (k.chans.get {} cix).nextRec, addr := 64, staged := (k.chans.get {} cix).staged } = (u, r, res)) ∧
    (∃ (s : State) (c cix : Nat) (k : Cast) (r : CopyRec) (u : State), s.dev.casts.find c = some k ∧ (k.chans.get {} cix).recs.find? (fun r => r.id == 0) = some r ∧
      k.canSector s.dev cix (k.chans.get {} cix) r = true ∧ s.sector c cix k (k.chans.get {} cix) r r.done = (u, .ok ())) ∧
    (∃ (s : State) (c cix : Nat) (k : Cast) (r : CopyRec) (u : State) (e : CopyErr), s.dev.casts.find c = some k ∧
      (k.chans.get {} cix).recs.find? (fun r => r.id == 0) = some r ∧ k.canSector s.dev cix (k.chans.get {} cix) r = true ∧
      s.sector c cix k (k.chans.get {} cix) r r.done = (u, .error e)) ∧
    (AtSite fun s c cix k => ∃ r u bs, (k.chans.get {} cix).recs.find? (fun r => r.id == 0) = some r ∧ r.ctl / 2 % 8 = 0 ∧ r.ctl / 2 ^ 4 % 4 = 0 ∧
      r.ctl / 2 ^ 6 % 4 = 0 ∧ s.copyRead c cix k (k.chans.get {} cix) (r.src + 32 * BitVec.ofNat 64 0) 32 = (u, .ok bs)) ∧
    (∀ r ∈ [complete 64 0, complete 64 0x0200000000000000, complete 0x0200000000000000 0], ∃ (s : State) (c cix : Nat) (k : Cast), s.dev.casts.find c = some k ∧
      (k.chans.get {} cix).recs.find? (fun r => r.id == 0) = some r ∧ Cast.canComplete s.dev c cix (k.chans.get {} cix) r = true ∧ r.known = true ∧ r.ctl / 2 % 8 < 5 ∧
      (r.bar = 0 → ∃ u, s.recordBarrier c cix k (k.chans.get {} cix) r = (u, .ok ()) ∧ ∀ bs : List Byte, bs.length = 8 →
        (r.addr = 64 → ∃ w, u.copyWrite c cix k (k.chans.get {} cix) r.addr bs = (w, .ok ())) ∧
        (r.addr ≠ 64 → ∃ w e, u.copyWrite c cix k (k.chans.get {} cix) r.addr bs = (w, .error e))) ∧
      (r.bar ≠ 0 → ∃ u e, s.recordBarrier c cix k (k.chans.get {} cix) r = (u, .error e) ∧ r.barred = false ∧ r.bar.toNat % 16 = 0 ∧
        ∃ f d, Dev.translate s.mem s.dev (k.chanVia (k.chans.get {} cix)) k.tenant r.bar .store = (.error f, d))) ∧
    (AtSite fun s _ cix k => ∃ r q d, (k.chans.get {} cix).recs.find? (fun r => r.id == 0) = some r ∧ r.barred = false ∧ r.known = true ∧ r.bar ≠ 0 ∧
      r.bar.toNat % 16 = 0 ∧ r.tile = none ∧ Dev.translate s.mem s.dev (k.chanVia (k.chans.get {} cix)) k.tenant r.bar .store = (.ok q, d)) := by
  refine ⟨at_of (channel { used := true, queue := [(64, 0, false)] }) ⟨by decide, rfl⟩, at_of (channel { used := true, cur := some 32 }) ⟨_, by decide, rfl, rfl, by decide⟩, ?_,
    ⟨holding [] (channel { used := true, recs := [copyRec 3] }), 0, 0, _, _, _, rfl, rfl, rfl, rfl⟩,
    ⟨holding [] (channel { used := true, recs := [{ copyRec 3 with dst := 0x0200000000000000 }] }), 0, 0, _, _, _, _, rfl, rfl, rfl, rfl⟩,
    at_of (channel { used := true, recs := [copyRec 1] }) ⟨_, _, _, rfl, rfl, rfl, rfl, rfl⟩,
    ?_, at_of (channel { used := true, recs := [complete 64 16] }) ⟨_, _, _, rfl, rfl, rfl, by decide, rfl, rfl, rfl⟩⟩
  rotate_left
  · intro r h
    simp only [List.mem_cons, List.not_mem_nil, or_false] at h
    rcases h with rfl | rfl | rfl
    · refine ⟨holding [] (channel { used := true, recs := [complete 64 0] }), 0, 0, _, rfl, rfl, by decide, rfl, by decide, fun _ => ⟨_, rfl, fun bs hb => ⟨fun _ => ?_, nofun⟩⟩, nofun⟩
      match bs, hb with
      | [_, _, _, _, _, _, _, _], _ => exact ⟨_, rfl⟩
    · exact ⟨holding [] (channel { used := true, recs := [complete 64 0x0200000000000000] }), 0, 0, _, rfl, rfl, by decide, rfl, by decide, nofun,
        fun _ => ⟨_, _, rfl, rfl, rfl, _, _, rfl⟩⟩
    · refine ⟨holding [] (channel { used := true, recs := [complete 0x0200000000000000 0] }), 0, 0, _, rfl, rfl, by decide, rfl, by decide, fun _ => ⟨_, rfl, fun bs hb => ⟨nofun, fun _ => ?_⟩⟩, nofun⟩
      match bs, hb with
      | [_, _, _, _, _, _, _, _], _ => exact ⟨_, _, rfl⟩
  intro m res h
  simp only [List.mem_cons, List.not_mem_nil, or_false, Prod.mk.injEq] at h
  rcases h with ⟨rfl, rfl⟩ | ⟨rfl, rfl⟩ | ⟨rfl, rfl⟩
  · exact ⟨holding [] begins, 0, 0, begins, _, _, rfl, rfl, rfl, rfl, rfl⟩
  · exact ⟨holding [(64, 1), (65, 0x0C)] begins, 0, 0, begins, _, _, rfl, rfl, rfl, rfl, rfl⟩
  · exact ⟨holding fillRecord begins, 0, 0, begins, _, _, rfl, rfl, rfl, rfl, rfl⟩

/-! ### The synchronisation engines, memory, registers -/

/-- A state with the synchronisation engine of die 0 as given, and a cast whose thread waits. -/
def engine (x : SeSt) (w : Wait := .strmWait) : State := { mem := [], dev := { casts := [(0, waiting w plain)], se := [(0, x)] } }

/-- A counter at address 64, and a request for it. -/
def counter (v : Nat) : CntEnt := { tenant := 0, pa := 64, value := v, ovf := false }
def request : CntReq := { source := .nobody, requester := 0, tenant := 0, va := 64, pa := 64, order := .rlx, scope := .cast }

/-- A request for an atomic operation at address 64, and an update of a barrier there; the thread of cast 0. -/
def atomic (reply : ReplyTo) (kind : AtomKind) : AtomReq :=
  { agent := .firmware, requester := 0, tenant := 0, pa := 64, rpl := none, size := .b8, kind := kind, order := .rlx, scope := .cast, reply := reply }
def barrierAt (upd : BarUpdate) : BarReq := { agent := .firmware, requester := 0, tenant := 0, pa := 64, rpl := none, upd := upd }
def thread0 : Sender := { cast := 0, requester := 0 }

/-- `Obligations.SyncSteps`, atomics: the doubleword is read; a compare and swap that holds, and one that does not; an access that its channel admits, one
that it denies, and one beyond a link; a maximum of a negative and a positive number. -/
theorem witness_SyncSteps_atomics :
    (∀ e ∈ [(0 : Word), 1], ∃ (s : State) (bs : List Byte), let r := atomic (.pending 0 1) (.cas e 9)
      Dev.atomRead s.mem s.dev r.tenant r.pa (width r.size) = (true, bs, s.dev) ∧ (leNat bs = e.toNat % 2 ^ 64 ↔ e = 0)) ∧
    (∃ s : State, paRegion (s.dev.ownPa 64) = 0 ∧ s.dev.admits 0 (s.dev.ownPa 64) = true) ∧
    (∃ s : State, paRegion (s.dev.ownPa 64) = 0 ∧ s.dev.admits 0 (s.dev.ownPa 64) = false) ∧
    (∃ s : State, paRegion (s.dev.ownPa (2 ^ 50)) ≠ 0 ∧ s.dev.linkUp (s.dev.ownPa (2 ^ 50)) = true) ∧
    AtomGives .maxs 64 (2 ^ 64 - 1) ((5 : Word).toNat % 2 ^ 64) 5 := by
  refine ⟨?_, ⟨holding [] plain, rfl, rfl⟩, ⟨alone plain, rfl, rfl⟩, ⟨{ mem := [], dev := { pcieUp := 3 } }, by decide, rfl⟩, ?_⟩
  · intro e h
    simp only [List.mem_cons, List.not_mem_nil, or_false] at h
    rcases h with rfl | rfl <;> exact ⟨holding [] plain, _, rfl, by decide⟩
  · show (5 : Nat) = _
    decide

/-- `Obligations.SyncSteps`, counters: published, with no place, and with early arrivals that just release it; decrements of a counter at 0, at 1, and of none. -/
theorem witness_SyncSteps_counters :
    let same := fun (x : CntEnt) => x.pa == request.pa && x.tenant == request.tenant
    (∃ s : State, ∃ e, (s.dev.se.get {} (s.dev.seDie request.pa)).cnts.find? same = some e ∧ e.value = 0) ∧
    (∃ s : State, ∃ e, (s.dev.se.get {} (s.dev.seDie request.pa)).cnts.find? same = some e ∧ e.value = 1) ∧
    (∃ s : State, (s.dev.se.get {} (s.dev.seDie request.pa)).cnts.find? same = none ∧ s.dev.placeFor (s.dev.seDie request.pa) request.tenant .cnt = none) ∧
    (∃ s : State, ∃ ovf e, (s.dev.se.get {} (s.dev.seDie request.pa)).cnts.find? same = none ∧
      s.dev.placeFor (s.dev.seDie request.pa) request.tenant .cnt = some ovf ∧ (s.dev.se.get {} (s.dev.seDie request.pa)).pres.find? same = some e ∧
      e.value = 3 ∧ 3 ≤ (3 : BitVec 32).toNat) :=
  ⟨⟨engine { cnts := [counter 0] }, _, rfl, rfl⟩, ⟨engine { cnts := [counter 1] }, _, rfl, rfl⟩, ⟨engine { qta := [(0, 0)] }, rfl, rfl⟩,
   engine { pres := [counter 3] }, _, _, rfl, rfl, rfl, rfl, by decide⟩

/-- `Obligations.SyncSteps`, barriers: the last arrival with nothing pending; the last sectors of a phase. -/
theorem witness_SyncSteps_barriers :
    (∃ (s : State) (bs : List Byte) (b : Barrier), Dev.atomRead s.mem s.dev 0 64 16 = (true, bs, s.dev) ∧ b = Barrier.ofBytes bs ∧ b.arrive = 1 ∧
      0 ≤ b.pend + (0 : BitVec 32).toNat ∧ b.pend + (0 : BitVec 32).toNat < 2 ^ 31) ∧
    (∃ (s : State) (bs : List Byte) (b : Barrier), Dev.atomRead s.mem s.dev 0 64 16 = (true, bs, s.dev) ∧ b = Barrier.ofBytes bs ∧ b.arrive = 0 ∧ b.pend = 2 ∧
      ((2 : Nat) : Int) ≤ b.pend ∧ b.pend < 2 ^ 31) ∧
    ∀ upd ∈ [BarUpdate.init 0, .arrive 0, .complete 2 false false false], (barrierAt upd).upd = upd ∧ (barrierAt upd).pa = 64 :=
  ⟨⟨holding [(68, 1)] plain, _, _, rfl, rfl, by decide, by decide, by decide⟩, ⟨holding [(64, 2)] plain, _, _, rfl, rfl, by decide, by decide, by decide, by decide⟩,
    fun _ _ => ⟨rfl, rfl⟩⟩

/-- `Obligations.SyncSteps`, waits: one whose counter has reached 0, one that is registered and one that is held; one at a barrier whose phase is
over, and one whose phase is not. -/
theorem witness_SyncSteps_waits :
    (∀ x ∈ [({ cnts := [counter 0] } : SeSt), { cnts := [counter 1] }, { qta := [(0, 0)] }], ∃ (s : State) (k : Cast) (w : WaitSt),
      (s.dev.casts.find thread0.cast).or (s.dev.away.find thread0.cast) = some k ∧ k.th.waitOf thread0.id = some w ∧ w.wait = .cntWait 64 64 .acq .cast ∧
      (s.dev.se.get {} (s.dev.seDie 64)) = x ∧ k.tenant = 0 ∧
      ((x.cnts.any fun x => x.pa == 64 && x.tenant == 0 && x.value == 0) = true ↔ x = { cnts := [counter 0] }) ∧
      ((s.dev.placeFor (s.dev.seDie 64) 0 .wait).isSome = true ↔ x ≠ { qta := [(0, 0)] })) ∧
    ∀ phase ∈ [(0 : BitVec 16), 1], ∃ (s : State) (k : Cast) (w : WaitSt) (bs : List Byte) (d : Dev), (s.dev.casts.find thread0.cast).or (s.dev.away.find thread0.cast) = some k ∧
      k.th.waitOf thread0.id = some w ∧ w.wait = .cpBwait 64 0 phase .acq .cast ∧ Dev.read s.mem s.dev 0 64 16 = (bs, d) ∧ ((Barrier.ofBytes bs).phase = phase.toNat ↔ phase = 0) := by
  refine ⟨?_, ?_⟩
  · intro x h
    simp only [List.mem_cons, List.not_mem_nil, or_false] at h
    rcases h with rfl | rfl | rfl
    · exact ⟨engine { cnts := [counter 0] } (.cntWait 64 64 .acq .cast), _, _, rfl, rfl, rfl, rfl, rfl, by decide, by decide⟩
    · exact ⟨engine { cnts := [counter 1] } (.cntWait 64 64 .acq .cast), _, _, rfl, rfl, rfl, rfl, rfl, by decide, by decide⟩
    · exact ⟨engine { qta := [(0, 0)] } (.cntWait 64 64 .acq .cast), _, _, rfl, rfl, rfl, rfl, rfl, by decide, by decide⟩
  · intro phase h
    simp only [List.mem_cons, List.not_mem_nil, or_false] at h
    rcases h with rfl | rfl <;> exact ⟨holding [] (waiting (.cpBwait 64 0 _ .acq .cast) plain), _, _, _, _, rfl, rfl, rfl, rfl, by decide⟩

/-- `Obligations.SyncSteps`, held requests, of each kind, that proceed; a purge that is over. -/
theorem witness_SyncSteps :
    (∀ act ∈ [Instr.seCntInit request 1, .seCntDec request 1, .seGrpBarArrive thread0 0, .seWaitRegister thread0],
      ∃ s : State, (s.dev.se.get {} 0).hold.get [] 0 = [act] ∧ s.dev.canRelease 0 0 = true) ∧
    ∃ s : State, (s.dev.se.get {} 0).purging = true ∧ (s.dev.se.get {} 0).purgeDue ≤ s.dev.now ∧ 0 = (s.dev.se.get {} 0).purgeTid.toNat := by
  refine ⟨?_, engine { purging := true }, rfl, by decide, rfl⟩
  intro act h
  simp only [List.mem_cons, List.not_mem_nil, or_false] at h
  rcases h with rfl | rfl | rfl | rfl <;> exact ⟨engine { hold := [(0, [_])] }, rfl, by decide⟩

/-- The group of handle 0x10000, with members and bits. -/
def group (tid : Nat) (memb : List Nat) (exp : List Nat := []) (o : Bool := false) : SeSt :=
  { grps := [(0, { used := true, tid := tid, memb := memb, nbits := 8, exp := exp, open_ := o })] }

/-- `Obligations.GroupSteps`: a bitmap that is not aligned; the first entry of the table, and the second; a handle that is stale, another tenant's, a member's and not; the last
member and one of two; a bit beyond the map and the last one in it; an arrival at a barrier, of a thread that waits there and of one that has discarded its wait; a
byte of a bitmap. -/
theorem witness_GroupSteps :
    ((1 : Word) ≠ 0 ∧ (64 : Word).toNat % 128 ≠ 0) ∧
    (∀ i ∈ [0, 1], ∃ s : State, ((s.dev.se.get {} 0).grps.filter fun g => g.2.used && g.2.tid == 0).length = i ∧ ((s.dev.se.get {} 0).grps.get {} i).used = false ∧
      ∀ j, j < i → ((s.dev.se.get {} 0).grps.get {} j).used = true) ∧
    (∃ s : State, s.dev.grpOf 0x10000 = none) ∧ (∃ s : State, ∃ g, s.dev.grpOf 0x10000 = some g ∧ g.tid ≠ 0) ∧
    (∃ s : State, ∃ g, s.dev.grpOf 0x10000 = some g ∧ g.tid = 0 ∧ 0 ∈ g.memb ∧ (∀ x ∈ g.memb, x = 0)) ∧
    (∃ s : State, ∃ g, s.dev.grpOf 0x10000 = some g ∧ g.tid = 0 ∧ 0 ∉ g.memb) ∧
    (∃ s : State, ∃ g, s.dev.grpOf 0x10000 = some g ∧ 5 ∈ g.memb ∧ 0 ∈ g.memb ∧ 5 ≠ 0) ∧
    (∃ s : State, ∃ g, s.dev.grpOf 0x10000 = some g ∧ g.nbits ≤ (8 : Word).toNat ∧ (7 : Word).toNat < g.nbits ∧ ∃ q d,
      Dev.translate s.mem s.dev { port := none, block := none, die := (0x10000 : Word).toNat / 2 ^ 12 % 8 } g.tid (g.bmap + BitVec.ofNat 64 ((7 : Word).toNat / 8)) .store = (.ok q, d)) ∧
    (∀ x ∈ [group 0 [0], group 0 [0] [0] true, group 0 [0] [5] true], ∀ id ∈ [0, 1], ∃ (s : State) (k : Cast) (g : GrpEnt) (ovf : Bool), s.dev.casts.find 0 = some k ∧
      s.dev.grpOf 0x10000 = some g ∧ ((k.th.waitOf id).map fun w => w.wait) = (if id = 0 then some (.grpBar 0x10000 .acq .group) else none) ∧ 0 ∈ g.memb ∧ (s.dev.se.get {} 0) = x ∧
      s.dev.placeFor ((0x10000 : Word).toNat / 2 ^ 12 % 8) k.tenant .wait = some ovf) ∧
    ∃ (s : State) (bs : List Byte), Dev.atomRead s.mem s.dev 0 64 1 = (true, bs, s.dev) := by
  refine ⟨by decide, ?_, ⟨engine {}, rfl⟩, ⟨engine (group 3 []), _, rfl, by decide⟩, ⟨engine (group 0 [0]), _, rfl, rfl, by decide, by decide⟩, ⟨engine (group 0 []), _, rfl, rfl, by decide⟩,
    ⟨engine (group 0 [0, 5]), _, rfl, by decide, by decide, by decide⟩, ⟨engine (group 0 [0]), _, rfl, by decide, by decide, _, _, rfl⟩, ?_, holding [] plain, _, rfl⟩
  · intro i h
    simp only [List.mem_cons, List.not_mem_nil, or_false] at h
    rcases h with rfl | rfl
    · exact ⟨engine {}, rfl, rfl, by decide⟩
    · exact ⟨engine (group 0 [0]), rfl, rfl, by decide⟩
  · intro x h id h'
    simp only [List.mem_cons, List.not_mem_nil, or_false] at h h'
    rcases h with rfl | rfl | rfl <;> rcases h' with rfl | rfl <;> exact ⟨engine _ (.grpBar 0x10000 .acq .group), _, _, _, rfl, rfl, rfl, by decide, rfl, rfl⟩

/-! ### Memory, registers, slots, boot -/

/-- A state whose line 0 is written under the key of tenant 0, and the device besides. -/
def device (m : Memory) (f : Dev → Dev) : State := { mem := m, dev := f { keySlots := [(0, 1)], lineKey := [(0, 1)] } }
def hosted (m : Memory) (f : HostSt → HostSt) : State := device m fun d => { d with host := f d.host }

/-- The path of an access by firmware on die 0. -/
def nowhere : Via := { port := none, block := none, die := 0 }

/-- A request at a channel. -/
def access (tenant pa : Nat) (data : List Byte) : MemReq :=
  { agent := .firmware, tenant := tenant, pa := pa, write := true, len := data.length, data := data, rpl := none, id := 0 }

/-- `Obligations.MemorySteps`: a whole line, and its last byte; another tenant's write; host memory with the link up and down; a store to a replicated page, and
a replica that it has still to reach; a command of a thread that waits for a replica, and one that does not; the end of each command. -/
theorem witness_MemorySteps :
    (∀ pa len, (pa, len) ∈ [(0, 128), (127, 1)] → ∃ s : State, paRegion pa = 0 ∧ s.dev.admits 0 pa = true ∧ pa / 128 = (pa + (len - 1)) / 128) ∧
    (∃ s : State, s.dev.admits 3 0 = false ∧ paRegion (s.dev.ownPa 0) = 0) ∧
    (∃ s : State, paRegion (2 ^ 50) ≠ 0 ∧ s.dev.linkUp (2 ^ 50) = true) ∧ (∃ s : State, s.dev.linkUp (2 ^ 50) = false) ∧
    (∃ s t : State, exec (.channelRequest (access 3 0 [1])) s = .next t) ∧
    (∀ die ∈ [0, 1, 7], ∃ s : State, (s.dev.hasDie die = true ∧ die ≠ paDie 0) ↔ die = 1) ∧
    (∃ s : State, ∃ n r, s.dev.replicas.get [] (0 / 4096 * 8 + 1 % 8) = [(n, r)] ∧ r.agent = .firmware ∧ r.id = 0) ∧
    (∃ s : State, ¬ ∃ e ∈ s.dev.replicas, ∃ r ∈ e.2, r.2.agent = .thread 0 ∧ r.2.id = 0) ∧
    (∃ s : State, (s.dev.host.omapc.get {} 0).busy = true ∧ (s.dev.host.omapc.get {} 0).due ≤ s.dev.now) ∧
    (∃ s : State, s.dev.host.tlbi.busy = true ∧ s.dev.host.tlbi.due ≤ s.dev.now ∧ (∀ w ∈ s.dev.host.tlbWait, ∀ k, s.dev.casts.find w.cast = some k →
      k.uid = w.uid → (w.open_ = true → w.seq < k.th.seq) ∧ ∀ e ∈ k.th.queue, w.seq + 1 < e.blk) ∧
      (∀ i ∈ s.dev.host.tlbReqs, i ∉ s.dev.requests) ∧ (∀ e ∈ s.dev.replicas, ∀ r ∈ e.2, s.dev.host.tlbStores ≤ r.1) ∧
      s.dev.host.tlbWait ≠ [] ∧ s.dev.host.tlbReqs ≠ [] ∧ s.dev.replicas ≠ []) ∧
    (∀ v ∈ [(0x10 : Word), 0x11, 0x15], ∃ s : State, s.dev.host.keyc.busy = true ∧ s.dev.host.keyc.due ≤ s.dev.now ∧ s.dev.host.keyc.fields = v ∧ v.toNat % 4 ≤ 1) := by
  refine ⟨?_, ⟨device [] id, rfl, rfl⟩, ⟨device [] fun d => { d with pcieUp := 3 }, by decide, rfl⟩, ⟨device [] id, rfl⟩, ⟨device [] id, _, rfl⟩,
    ?_, ⟨device [] fun d => { d with replicas := [(1, [(4, access 0 0 [1])])] }, _, _, rfl, rfl, rfl⟩, ⟨device [] id, nofun⟩,
    ⟨hosted [] fun h => { h with omapc := [(0, { busy := true })] }, rfl, Nat.le_refl 0⟩, ?_, ?_⟩
  · intro pa len h
    simp only [List.mem_cons, List.not_mem_nil, or_false, Prod.mk.injEq] at h
    rcases h with ⟨rfl, rfl⟩ | ⟨rfl, rfl⟩ <;> exact ⟨device [] id, rfl, rfl, rfl⟩
  · intro die h
    refine ⟨device [] fun d => { d with part := .eos4 }, ?_⟩
    simp only [List.mem_cons, List.not_mem_nil, or_false] at h
    rcases h with rfl | rfl | rfl <;> decide
  · refine ⟨device [] fun d => { d with
        casts := [(0, { plain with uid := 1, th := { plain.th with seq := 3 } })], replicas := [(1, [(4, access 0 0 [1])])]
        host := { d.host with tlbi := { busy := true }, tlbWait := [{ cast := 0, uid := 1, seq := 2, open_ := true }], tlbReqs := [.seCntDec request 1], tlbStores := 4 } },
      rfl, Nat.le_refl 0, ?_, ?_, by decide, by decide, by decide, by decide⟩
    · intro w hw k hk _
      cases List.mem_singleton.mp hw
      cases hk
      exact ⟨fun _ => by decide, fun e h => by cases (show e ∈ ([] : List StoreEnt) from h)⟩
    · intro i _ h
      cases (show i ∈ ([] : List Instr) from h)
  · intro v h
    refine ⟨hosted [] fun h => { h with keyc := { busy := true, fields := v } }, rfl, Nat.le_refl 0, rfl, ?_⟩
    simp only [List.mem_cons, List.not_mem_nil, or_false] at h
    rcases h with rfl | rfl | rfl <;> decide

/-- A request of the thread of cast 5 on its way to the placer. -/
def askOf (requester at_ : Nat) : PlAsk := { src := .thread 5, at_ := at_, requester := requester, tenant := 0, addr := 0 }

/-- `Obligations.RegisterSteps`: TLBICMD idle and busy, the last tenant and a size in and out of range; a command register of a die idle and busy; a key for slot 0,
for the last slot and for the I/O dies, with a session that holds a key and without; the placer's queue with its last place and full;
requests on their way to the placer, of this clock and of another; each part. -/
theorem witness_RegisterSteps :
    (∃ s : State, s.dev.host.tlbi.busy = false) ∧ (∃ s : State, s.dev.host.tlbi.busy = true) ∧
    ((0x60000003 : Word).toNat % 4 = 3 ∧ (0x60000003 : Word).getLsbD 29 = true ∧ (3 : Word).getLsbD 29 = false ∧ (3 : Word).getLsbD 30 = false ∧ (2 : Nat) ≠ 0) ∧
    (∃ s : State, (s.dev.host.omapc.get {} 7).busy = true ∧ (s.dev.se.get {} 7).purging = true) ∧
    (∃ s : State, (s.dev.host.omapc.get {} 7).busy = false ∧ (s.dev.se.get {} 7).purging = false) ∧
    (∀ v ∈ [(0 : Word), 0x3F0, 4, 3], ∃ s : State, s.dev.host.keyc.busy = false ∧ v.getLsbD 61 = false ∧ v.getLsbD 62 = false ∧
      ¬ ∃ x ∈ s.dev.host.sessions.find (v.toNat / 2 ^ 10 % 2 ^ 8), x.2 ≠ none) ∧
    (∃ s : State, (4 : Word).getLsbD 2 = true ∧ ∃ x ∈ s.dev.host.sessions.find ((4 : Word).toNat / 2 ^ 10 % 2 ^ 8), x.2 ≠ none) ∧
    (∃ s : State, s.dev.boot.ready = true ∧ s.dev.pl.queue.length < 64 ∧ ∀ a ∈ s.dev.pl.asks, a.at_ = s.dev.now) ∧
    (∃ s : State, s.dev.boot.ready = true ∧ 64 ≤ s.dev.pl.queue.length ∧ ∀ a ∈ s.dev.pl.asks, a.at_ = s.dev.now) ∧
    (∃ s : State, ∃ a ∈ s.dev.pl.asks, s.dev.boot.ready = true ∧ a.at_ ≠ s.dev.now) ∧
    (∃ (a b : PlAsk) (l : List PlAsk), l ≠ [] ∧ (∀ x ∈ l, x.at_ < a.at_ ∨ (x.at_ = a.at_ ∧ (x.src = .firmware ∨ (a.src ≠ .firmware ∧ x.requester ≤ a.requester)))) ∧
      a.at_ = b.at_ ∧ b.src ≠ .firmware ∧ a.requester < b.requester) ∧
    (∀ part ∈ [Part.eos8, .eos4], ∃ s : State, s.dev.part = part ∧ (part = .eos4 → s.dev.part.hasPort 1 = false ∧ s.dev.part.hasDie 2 = false) ∧ s.dev.part.hasDie 0 = true) ∧
    ∃ s : State, s.dev.featlock = true := by
  refine ⟨⟨device [] id, rfl⟩, ⟨hosted [] fun h => { h with tlbi := { busy := true } }, rfl⟩, by decide,
    ⟨device [] fun d => { d with host := { d.host with omapc := [(7, { busy := true })] }, se := [(7, { purging := true })] }, rfl, rfl⟩, ⟨device [] id, rfl, rfl⟩, ?_,
    ⟨hosted [] fun h => { h with sessions := [(0, (true, some 5))] }, rfl, _, rfl, by decide⟩,
    ⟨device [] fun d => { d with boot := { d.boot with ready := true }, pl := { d.pl with queue := List.replicate 63 { src := .firmware, tenant := 0, addr := 0, requester := 0 } } }, rfl, by decide, nofun⟩,
    ⟨device [] fun d => { d with boot := { d.boot with ready := true }, pl := { d.pl with queue := List.replicate 64 { src := .firmware, tenant := 0, addr := 0, requester := 0 } } }, rfl, by decide, nofun⟩,
    ⟨device [] fun d => { d with boot := { d.boot with ready := true }, pl := { d.pl with asks := [askOf 5 1] } }, _, List.mem_singleton.mpr rfl, rfl, by decide⟩,
    ⟨askOf 6 1, askOf 7 1, [askOf 9 0, askOf 5 1], by decide, by decide, rfl, by decide, by decide⟩, ?_,
    device [] fun d => { d with featlock := true }, rfl⟩
  rotate_left
  · intro part h
    simp only [List.mem_cons, List.not_mem_nil, or_false] at h
    rcases h with rfl | rfl <;> exact ⟨device [] fun d => { d with part := _ }, rfl, by decide, rfl⟩
  intro v h
  simp only [List.mem_cons, List.not_mem_nil, or_false] at h
  rcases h with rfl | rfl | rfl | rfl <;> exact ⟨device [] id, rfl, by decide, by decide, fun ⟨_, h, _⟩ => nomatch h⟩

/-- The word of a command for queue 5 in slot 3. -/
def slotCmd (op : Nat) : Word := BitVec.ofNat 64 (2 ^ 20 * op + 2 ^ 8 * 5 + 3)
def entry (slot : Option Nat) (infl : Nat) : HostSt → HostSt := fun h => { h with queues := [(5, { v := true, slot := slot, infl := infl })] }
def slot5 : SlotSt := { qid := 5, qcb := 0, tid := 0, pri := 0, qdie := 0, base := 0, lsz := 4, rdx := 0 }

/-- `Obligations.SlotCommands`: a block at address 0 that is read; a queue that is new, one that is defined and one in a slot; operations 0 and 7. -/
theorem witness_SlotCommands :
    (∀ op, op ≤ 7 → (slotCmd op).getLsbD 61 = false ∧ (slotCmd op).getLsbD 62 = false ∧ (slotCmd op).toNat / 2 ^ 8 % 2 ^ 10 = 5 ∧ (slotCmd op).toNat % 2 ^ 5 = 3) ∧
    (∃ (s : State) (b : List Byte) (d : Dev), let u := commanded 0 (slotWord 1 (slotCmd 1)) s
      Dev.readRun u.mem u.dev nowhere 0 (s.dev.host.qcba.get 0 0) 128 = (.ok b, d) ∧ u.dev.lockedFn 0 (b.getD 2 0).toNat = none ∧
        (s.dev.host.queues.get {} (1024 * 0 + 5)).v = false ∧ 3 ≤ b.length) ∧
    (∃ (s : State) (b : List Byte) (d : Dev), let u := commanded 0 (slotWord 1 (slotCmd 1)) s
      Dev.readRun u.mem u.dev nowhere 0 (s.dev.host.qcba.get 0 0) 128 = (.ok b, d) ∧ u.dev.lockedFn 0 (b.getD 2 0).toNat = none ∧
        (s.dev.host.queues.get {} (1024 * 0 + 5)).v = true ∧ 3 ≤ b.length) ∧
    (∃ s : State, ∃ q, s.dev.host.queues.get {} (1024 * 0 + 5) = q ∧ (commanded 0 (slotWord 2 (slotCmd 2)) s).dev.lockedFn 0 q.tid = none ∧ q.slot = none ∧ q.infl = 0) ∧
    (∃ s : State, ∃ q, s.dev.host.queues.get {} (1024 * 0 + 5) = q ∧ (commanded 0 (slotWord 2 (slotCmd 2)) s).dev.lockedFn 0 q.tid = none ∧ q.slot = none ∧ q.infl ≠ 0) ∧
    (∃ (s : State) (b : List Byte) (d : Dev), let u := commanded 0 (slotWord 3 (slotCmd 3)) s
      (s.dev.host.queues.get {} (1024 * 0 + 5)).v = true ∧ (s.dev.host.queues.get {} (1024 * 0 + 5)).slot = none ∧ s.dev.host.slots.find (32 * 0 + 3) = none ∧
        Dev.readRun u.mem u.dev nowhere 0 (s.dev.host.qcba.get 0 0) 128 = (.ok b, d) ∧ num b 0 2 = 1 ∧
        ((s.dev.host.queues.get {} (1024 * 0 + 5)).wrx + 2 ^ 32 - num b 20 4 % 2 ^ 32) % 2 ^ 32 ≤ 2 ^ (min 16 (num b 16 1))) ∧
    (∀ q ∈ [5, 6], ∃ s : State, ∃ x, s.dev.host.slots.find (32 * 0 + 3) = some x ∧ x.qid = q ∧ (s.dev.host.queues.get {} (1024 * 0 + 5)).slot = some 3) ∧
    ∀ op ∈ [0, 5, 7], (slotCmd op).toNat / 2 ^ 20 % 2 ^ 3 = op ∧ (op = 0 ∨ 4 < op) := by
  refine ⟨by decide, ⟨hosted [] id, _, _, rfl, rfl, rfl, by decide +kernel⟩, ⟨hosted [] (entry none 0), _, _, rfl, rfl, rfl, by decide +kernel⟩,
    ⟨hosted [] (entry none 0), _, rfl, rfl, rfl, rfl⟩, ⟨hosted [] (entry none 1), _, rfl, rfl, rfl, by decide⟩,
    ⟨hosted [(0, 1)] (entry none 0), _, _, rfl, rfl, rfl, rfl, rfl, by decide⟩, ?_, by decide⟩
  intro q h
  exact ⟨hosted [] fun h => { entry (some 3) 0 h with slots := [(3, { slot5 with qid := q })] }, _, rfl, rfl, rfl⟩

/-- `Obligations.BootSteps`: each step of the sequence; a die that is there, one that failed, and the end of the dies; a recovery image awaited; a session; the
states of an interface at the last function. Whether an image verifies is open, and no state settles it. -/
theorem witness_BootSteps :
    (∀ n, ∃ s : State, s.dev.boot.step = n) ∧
    (∀ die ∈ [0, 7], ∃ s : State, s.dev.boot.step = 3 ∧ s.dev.boot.die = die ∧ s.dev.part.hasDie die = true ∧ s.dev.boot.cdfail.getLsbD die = false) ∧
    (∃ s : State, s.dev.boot.step = 3 ∧ s.dev.boot.die = 7 ∧ s.dev.boot.cdfail.getLsbD 7 = true) ∧ (∃ s : State, s.dev.boot.step = 3 ∧ s.dev.boot.die = 8) ∧
    (∃ s : State, s.dev.boot.recov = true) ∧ (∃ s : State, s.dev.boot.recov = false) ∧
    (∃ s : State, s.dev.host.sessions.find 1 = some (true, none)) ∧
    (∀ st ∈ [0, 1], ∃ s : State, ((s.dev.host.fncfg.find (64 * 1 + 63)).getD 0).toNat / 2 ^ 10 % 4 = st) := by
  refine ⟨fun n => ⟨device [] fun d => { d with boot := { d.boot with step := n } }, rfl⟩, ?_,
    ⟨device [] fun d => { d with boot := { d.boot with step := 3, die := 7, cdfail := 0x80 } }, rfl, rfl, rfl⟩,
    ⟨device [] fun d => { d with boot := { d.boot with step := 3, die := 8 } }, rfl, rfl⟩,
    ⟨device [] fun d => { d with boot := { d.boot with recov := true } }, rfl⟩, ⟨device [] id, rfl⟩,
    ⟨hosted [] fun h => { h with sessions := [(1, (true, none))] }, rfl⟩, ?_⟩
  · intro die h
    simp only [List.mem_cons, List.not_mem_nil, or_false] at h
    rcases h with rfl | rfl
    · exact ⟨device [] fun d => { d with boot := { d.boot with step := 3, die := 0 } }, rfl, rfl, rfl, rfl⟩
    · exact ⟨device [] fun d => { d with boot := { d.boot with step := 3, die := 7 } }, rfl, rfl, rfl, rfl⟩
  · intro st h
    simp only [List.mem_cons, List.not_mem_nil, or_false] at h
    rcases h with rfl | rfl
    · exact ⟨hosted [] fun h => { h with fncfg := [(127, 0)] }, rfl⟩
    · exact ⟨hosted [] fun h => { h with fncfg := [(127, 0x400)] }, rfl⟩

/-! ### The placer -/

/-- A request of firmware at address 4096, as a tenant, whose block has been read; it stands alone in the placer's queue. -/
def plReq (b : PlBlock) : PlReq := { src := .firmware, tenant := 0, addr := 4096, requester := 0, block := some b }
def asking (b : PlBlock) (m : Memory := []) (f : Dev → Dev := id) : State :=
  device m fun d => let d := f d; { d with pl := { d.pl with queue := [plReq b], cur := none } }
def taken (s : State) : State := onPlacer (fun p => { p with queue := [] }) s

theorem asked (b : PlBlock) (m : Memory) (f : Dev → Dev) (h : (plReq b).malformed b = false)
    (hf : (f { keySlots := [(0, 1)], lineKey := [(0, 1)] }).pl.fin = []) (hr : (f { keySlots := [(0, 1)], lineKey := [(0, 1)] }).pl.rolls = []) :
    Asked (asking b m f) b.op (plReq b) b (taken (asking b m f)) :=
  ⟨[], rfl, ⟨rfl, hf, fun e h => by
    have h' : e ∈ (f { keySlots := [(0, 1)], lineKey := [(0, 1)] }).pl.rolls := h
    rw [hr] at h'
    cases h'⟩, h, rfl, .inl ⟨rfl, rfl⟩⟩

/-- The blocks of die 0 are there, and one plinth of tenant 0 covers them; a cast stands on it besides. -/
def ready (d : Dev) : Dev := { d with diepres := 1, blkpres := [(0, 0xFFFFFFFFF)], pl := { d.pl with plinths := [{ tid := 0, pix := 0, bx := 0, by_ := 0, w := 6, h := 6 }] } }
def cut1 : Cast := { plain with mould := { cuts := [[]] } }
def occupied (k : Cast) (d : Dev) : Dev := { ready d with casts := [(5, k)] }

/-- Some state is asked for an operation, and satisfies a condition. -/
def Requested (op : Nat) (P : State → PlReq → PlBlock → Prop) : Prop := ∃ s u r b, Asked s op r b u ∧ P u r b

theorem requested {op : Nat} {P : State → PlReq → PlBlock → Prop} (b : PlBlock) (m : Memory) (f : Dev → Dev) (hm : (plReq b).malformed b = false) (ho : b.op = op)
    (h : P (taken (asking b m f)) (plReq b) b) (hf : (f { keySlots := [(0, 1)], lineKey := [(0, 1)] }).pl.fin = [] := by rfl)
    (hr : (f { keySlots := [(0, 1)], lineKey := [(0, 1)] }).pl.rolls = [] := by rfl) : Requested op P := ⟨_, _, _, _, ho ▸ asked b m f hm hf hr, h⟩

/-- A plinth that is too wide for a part: by one column on EOS-8, and of 13 columns on EOS-4. -/
theorem wide : ∀ part ∈ [Part.eos8, .eos4], Requested 9 fun u _ b => u.dev.part = part ∧
    ¬ (b.tid ≠ 0 ∧ b.pix < 4 ∧ 0 < b.pw ∧ 0 < b.ph ∧ b.bx + b.pw ≤ (if u.dev.part = .eos8 then 24 else 12) ∧ b.by_ + b.ph ≤ 12) := by
  intro part h
  simp only [List.mem_cons, List.not_mem_nil, or_false] at h
  rcases h with rfl | rfl
  · exact requested { op := 9, tid := 7, bx := 1, pw := 24, ph := 12 } [] id rfl rfl ⟨rfl, by decide⟩
  · exact requested { op := 9, tid := 7, pw := 13, ph := 12 } [] (fun d => { d with part := .eos4 }) rfl rfl ⟨rfl, by decide⟩

/-- `Obligations.PlacerSteps`, GRANT and REVOKE: a plinth that just fits, one that meets another, one too wide; none found, one with a cast and one without. -/
theorem witness_PlacerSteps_plinths :
    (Requested 9 fun u _ b => (b.tid ≠ 0 ∧ b.pix < 4 ∧ 0 < b.pw ∧ 0 < b.ph ∧ b.bx + b.pw ≤ (if u.dev.part = .eos8 then 24 else 12) ∧ b.by_ + b.ph ≤ 12) ∧
      u.dev.part = .eos8 ∧ ∀ q ∈ u.dev.pl.plinths, rectsMeet q b.bx b.by_ b.pw b.ph = false ∧ ¬ (q.tid = b.tid ∧ q.pix = b.pix)) ∧
    (Requested 9 fun u _ b => (b.tid ≠ 0 ∧ b.pix < 4 ∧ 0 < b.pw ∧ 0 < b.ph ∧ b.bx + b.pw ≤ (if u.dev.part = .eos8 then 24 else 12) ∧ b.by_ + b.ph ≤ 12) ∧
      ∃ q ∈ u.dev.pl.plinths, rectsMeet q b.bx b.by_ b.pw b.ph = true) ∧
    (∀ part ∈ [Part.eos8, .eos4], Requested 9 fun u _ b => u.dev.part = part ∧ ¬ (b.tid ≠ 0 ∧ b.pix < 4 ∧ 0 < b.pw ∧ 0 < b.ph ∧ b.bx + b.pw ≤ (if u.dev.part = .eos8 then 24 else 12) ∧ b.by_ + b.ph ≤ 12)) ∧
    (Requested 10 fun u _ b => (u.dev.pl.plinths.find? fun p => p.tid == b.tid && p.pix == b.pix) = none) ∧
    (Requested 10 fun u _ b => ∃ p, (u.dev.pl.plinths.find? fun p => p.tid == b.tid && p.pix == b.pix) = some p ∧ ∃ e ∈ u.dev.casts, p.holds e.2.bx e.2.by_ = true) ∧
    (Requested 10 fun u _ b => ∃ p, (u.dev.pl.plinths.find? fun p => p.tid == b.tid && p.pix == b.pix) = some p ∧ ∀ e ∈ u.dev.casts, p.holds e.2.bx e.2.by_ = false) :=
  ⟨requested { op := 9, tid := 7, pw := 24, ph := 12 } [] id rfl rfl ⟨by decide, rfl, by decide⟩,
   requested { op := 9, tid := 7, bx := 5, pw := 1, ph := 1 } [] ready rfl rfl ⟨by decide, by decide⟩,
   wide, requested { op := 10 } [] id rfl rfl rfl,
   requested { op := 10 } [] (occupied plain) rfl rfl ⟨_, rfl, by decide⟩, requested { op := 10 } [] ready rfl rfl ⟨_, rfl, by decide⟩⟩

/-- An image of one block: header, directory of three sections, and a block of code of one slot. -/
def image : Memory := [(0, 0x4D), (1, 0x4F), (2, 0x4C), (3, 0x44), (6, 1), (8, 136), (12, 1), (13, 1), (14, 3), (64, 1), (66, 3), (68, 112), (72, 24), (80, 3), (84, 112), (96, 4),
  (100, 112), (112, 8), (128, 1), (129, 8)]
/-- Tables for the window of tenant 0: the root at 4096, and one table of each lower level; the lines used are all under the key. -/
def tables : Memory := [(4096, 1), (4097, 0x20), (8224, 1), (8225, 0x30), (12288, 1), (12289, 0x40)]
def keyed (d : Dev) : Dev :=
  { d with lineKey := [0, 1, 32, 64, 96, 128, 65536, 65537].map fun i => (i, 1), pl := { d.pl with win := [(0, 4096)] } }

/-- Whether LOAD and ROLL get as far as their position, and through all their checks (R390). -/
def checkable (u : State) (r : PlReq) (b : PlBlock) : Bool :=
  match Dev.readImage u.mem u.dev (tenantOf r b) b.addr with
  | (.ok img, d) => (match d.checkImage img with
    | .ok _ => (d.badTenant (tenantOf r b)).isNone
    | .error _ => false)
  | _ => false
def loadable (u : State) (r : PlReq) (b : PlBlock) : Bool :=
  match Dev.readImage u.mem u.dev (tenantOf r b) b.addr with
  | (.ok img, d) => (match d.checkImage img with
    | .ok mould => (d.badTenant (tenantOf r b)).isNone && (match d.position (tenantOf r b) b.aff none b mould.wb mould.hb with
      | .ok (x, y) => (match Dev.checkAt u.mem d mould (tenantOf r b) d.freeNumber x y b.bind none none with
        | (.ok k, d') => (State.place { u with dev := d' } d.freeNumber { k with aff := b.aff }).isSome
        | _ => false)
      | .error _ => false)
    | .error _ => false)
  | _ => false

theorem checkable_of {u : State} {r : PlReq} {b : PlBlock} (h : checkable u r b = true) : ∃ img d mould, Dev.readImage u.mem u.dev (tenantOf r b) b.addr = (.ok img, d) ∧
    d.checkImage img = .ok mould ∧ d.badTenant (tenantOf r b) = none := by
  unfold checkable at h
  split at h
  · next e => split at h
              · next f => exact ⟨_, _, _, e, f, Option.isNone_iff_eq_none.mp h⟩
              · exact nomatch h
  · exact nomatch h

theorem loadable_of {u : State} {r : PlReq} {b : PlBlock} (h : loadable u r b = true) : ∃ img d mould x y k d' t, Dev.readImage u.mem u.dev (tenantOf r b) b.addr = (.ok img, d) ∧
    d.checkImage img = .ok mould ∧ d.badTenant (tenantOf r b) = none ∧ d.position (tenantOf r b) b.aff none b mould.wb mould.hb = .ok (x, y) ∧
    Dev.checkAt u.mem d mould (tenantOf r b) d.freeNumber x y b.bind none none = (.ok k, d') ∧ State.place { u with dev := d' } d.freeNumber { k with aff := b.aff } = some t := by
  unfold loadable at h
  split at h
  · next e =>
    split at h
    · next f =>
      rw [Bool.and_eq_true] at h
      obtain ⟨g, h⟩ := h
      split at h
      · next i => split at h
                  · next j => exact ⟨_, _, _, _, _, _, _, _, e, f, Option.isNone_iff_eq_none.mp g, i, j, (Option.some_get h).symm⟩
                  · exact nomatch h
      · exact nomatch h
    · exact nomatch h
  · exact nomatch h

/-- `Obligations.PlacerSteps`, LOAD: no image there; an image and no place for it; an image that is loaded. -/
theorem witness_PlacerSteps_load :
    (Requested 1 fun u r b => ∃ e d, Dev.readImage u.mem u.dev (tenantOf r b) b.addr = (.error e, d)) ∧
    (Requested 1 fun u r b => ∃ img d mould, Dev.readImage u.mem u.dev (tenantOf r b) b.addr = (.ok img, d) ∧ d.checkImage img = .ok mould ∧ d.badTenant (tenantOf r b) = none) ∧
    Requested 1 fun u r b => ∃ img d mould x y k d' t, Dev.readImage u.mem u.dev (tenantOf r b) b.addr = (.ok img, d) ∧ d.checkImage img = .ok mould ∧
      d.badTenant (tenantOf r b) = none ∧ d.position (tenantOf r b) b.aff none b mould.wb mould.hb = .ok (x, y) ∧
      Dev.checkAt u.mem d mould (tenantOf r b) d.freeNumber x y b.bind none none = (.ok k, d') ∧ State.place { u with dev := d' } d.freeNumber { k with aff := b.aff } = some t :=
  ⟨requested { op := 1 } [] id rfl rfl ⟨_, _, rfl⟩, requested { op := 1 } image keyed rfl rfl (checkable_of (by decide +kernel)),
   requested { op := 1 } (image ++ tables) (fun d => keyed (ready d)) rfl rfl (loadable_of (by decide +kernel))⟩

/-- Whether a ROLL goes through all its checks, over an old cast. -/
def rollable (u : State) (r : PlReq) (b : PlBlock) (old : Cast) : Bool :=
  match Dev.readImage u.mem u.dev (tenantOf r b) b.addr with
  | (.ok img, d) => (match d.checkImage img with
    | .ok mould => (d.badTenant (tenantOf r b)).isNone && decide (mould.wb = old.wb ∧ mould.hb = old.hb) &&
      (match Dev.checkAt u.mem d mould (tenantOf r b) d.freeNumber old.bx old.by_ b.bind none none with
        | (.ok k, d') => (State.placeOver { u with dev := d' } d.freeNumber b.cast { k with aff := if b.aff = 0 then old.aff else b.aff } r b).isSome
        | _ => false)
    | .error _ => false)
  | _ => false

theorem rollable_of {u : State} {r : PlReq} {b : PlBlock} {old : Cast} (h : rollable u r b old = true) :
    ∃ img d mould k d' t, Dev.readImage u.mem u.dev (tenantOf r b) b.addr = (.ok img, d) ∧ d.checkImage img = .ok mould ∧ d.badTenant (tenantOf r b) = none ∧
      mould.wb = old.wb ∧ mould.hb = old.hb ∧ Dev.checkAt u.mem d mould (tenantOf r b) d.freeNumber old.bx old.by_ b.bind none none = (.ok k, d') ∧
      State.placeOver { u with dev := d' } d.freeNumber b.cast { k with aff := if b.aff = 0 then old.aff else b.aff } r b = some t := by
  unfold rollable at h
  split at h
  · next e =>
    split at h
    · next f =>
      simp only [Bool.and_eq_true, decide_eq_true_eq] at h
      obtain ⟨⟨g, i, j⟩, h⟩ := h
      split at h
      · next l => exact ⟨_, _, _, _, _, _, e, f, Option.isNone_iff_eq_none.mp g, i, j, l, (Option.some_get h).symm⟩
      · exact nomatch h
    · exact nomatch h
  · exact nomatch h

/-- `Obligations.PlacerSteps`, MOVE, COMPACT and ROLL: no cast; a move at once and one that waits for its cut; a list too short, too long and one that is read; a cast that is
frozen, an image of another size, and one that rolls. -/
theorem witness_PlacerSteps_move :
    (∀ op ∈ [4, 5, 8], Requested op fun u r b => ∃ e, u.dev.reqCast (tenantOf r b) b.cast false = .error e) ∧
    (∀ cut ∈ [255, 0], Requested 2 fun u r b => b.cut = cut ∧ ∃ k k', u.dev.reqCast (tenantOf r b) b.cast false = .ok k ∧
      u.dev.checkMove k { cast := b.cast, bx := b.bx, by_ := b.by_, aff := b.aff, cut := b.cut } = .ok k') ∧
    (∀ n ∈ [(0 : Word), 17], Requested 3 fun _ _ b => b.len = n ∧ (b.len = 0 ∨ 16 < b.len.toNat)) ∧
    (Requested 3 fun u r b => b.len ≠ 0 ∧ b.len.toNat ≤ 16 ∧ ∃ bs d is, Dev.readRun u.mem u.dev nowhere (tenantOf r b) b.addr (8 * b.len.toNat) = (.ok bs, d) ∧
      moveList b.aff bs b.len.toNat = some is) ∧
    (Requested 4 fun u r b => ∃ k, u.dev.reqCast (tenantOf r b) b.cast false = .ok k ∧ k.frozen = true) ∧
    (Requested 4 fun u r b => ∃ k, u.dev.reqCast (tenantOf r b) b.cast false = .ok k ∧ k.frozen = false ∧ k.wb = 2 ∧
      ∃ img d mould, Dev.readImage u.mem u.dev (tenantOf r b) b.addr = (.ok img, d) ∧ d.checkImage img = .ok mould ∧ d.badTenant (tenantOf r b) = none) ∧
    Requested 4 fun u r b => ∃ old, u.dev.reqCast (tenantOf r b) b.cast false = .ok old ∧ old.frozen = false ∧ ∃ img d mould k d' t,
      Dev.readImage u.mem u.dev (tenantOf r b) b.addr = (.ok img, d) ∧ d.checkImage img = .ok mould ∧ d.badTenant (tenantOf r b) = none ∧
      mould.wb = old.wb ∧ mould.hb = old.hb ∧ Dev.checkAt u.mem d mould (tenantOf r b) d.freeNumber old.bx old.by_ b.bind none none = (.ok k, d') ∧
      State.placeOver { u with dev := d' } d.freeNumber b.cast { k with aff := if b.aff = 0 then old.aff else b.aff } r b = some t := by
  refine ⟨?_, ?_, ?_, requested { op := 3, len := 1 } [] id rfl rfl ⟨by decide, by decide, _, _, _, rfl, rfl⟩,
    requested { op := 4, cast := 5 } [] (occupied { plain with frozen := true }) rfl rfl ⟨_, rfl, rfl⟩,
    requested { op := 4, cast := 5 } image (fun d => keyed (occupied { plain with wb := 2 } d)) rfl rfl ⟨_, rfl, rfl, rfl, checkable_of (by decide +kernel)⟩,
    requested { op := 4, cast := 5 } (image ++ tables) (fun d => keyed (occupied plain d)) rfl rfl ⟨plain, rfl, rfl, rollable_of (by decide +kernel)⟩⟩
  · intro op h
    simp only [List.mem_cons, List.not_mem_nil, or_false] at h
    rcases h with rfl | rfl | rfl
    · exact requested { op := 4 } [] id rfl rfl ⟨_, rfl⟩
    · exact requested { op := 5 } [] id rfl rfl ⟨_, rfl⟩
    · exact requested { op := 8 } [] id rfl rfl ⟨_, rfl⟩
  · intro cut h
    simp only [List.mem_cons, List.not_mem_nil, or_false] at h
    rcases h with rfl | rfl
    · exact requested { op := 2, cast := 5, bx := 5, by_ := 5 } [] (occupied cut1) rfl rfl ⟨rfl, _, _, rfl, rfl⟩
    · exact requested { op := 2, cast := 5, bx := 5, by_ := 5, cut := 0 } [] (occupied cut1) rfl rfl ⟨rfl, _, _, rfl, rfl⟩
  · intro n h
    simp only [List.mem_cons, List.not_mem_nil, or_false] at h
    rcases h with rfl | rfl
    · exact requested { op := 3, len := 0 } [] id rfl rfl ⟨rfl, by decide⟩
    · exact requested { op := 3, len := 17 } [] id rfl rfl ⟨rfl, by decide⟩

/-- The header of a save image of 64 bytes, of cast 9, and its record. -/
def saveHeader : Memory := [(0, 0x45), (1, 0x4B), (2, 0x56), (3, 0x53), (6, 1), (8, 64), (16, 1), (20, 9)]
def record (k : Cast) : SaveRec := { id := 0, size := 64, kind := 1, tid := 0, no := 9, cast := k }
def saved (d : Dev) : Dev := { keyed (ready d) with pl := { (keyed (ready d)).pl with saves := [record plain] } }

/-- Whether a RESTORE goes through all its checks. -/
def restorable (u : State) (r : PlReq) (b : PlBlock) : Bool :=
  match Dev.findImage u.mem u.dev (tenantOf r b) b.addr with
  | (.ok x, d) => (d.casts.find x.no).isNone && (match d.position (tenantOf r b) (if b.aff = 0 then (d.savedCast x).aff else b.aff) none b
        (d.savedCast x).wb (d.savedCast x).hb with
    | .ok (px, py) => (match Dev.checkAt u.mem d (d.savedCast x).mould (tenantOf r b) x.no px py b.bind none (some (d.savedCast x).ports) with
      | (.ok k, d') => (match d'.rehome none (tenantOf r b) (dieOfBlock px py) (d.savedCast x).chans with
        | .ok chans => (State.place { u with dev := d' } x.no ((d.savedCast x).replaced k chans
            (if b.aff = 0 then (d.savedCast x).aff else b.aff))).isSome
        | .error _ => false)
      | _ => false)
    | .error _ => false)
  | _ => false

theorem restorable_of {u : State} {r : PlReq} {b : PlBlock} (h : restorable u r b = true) : ∃ x d saved aff px py k d' chans t,
    Dev.findImage u.mem u.dev (tenantOf r b) b.addr = (.ok x, d) ∧ d.casts.find x.no = none ∧ saved = d.savedCast x ∧
    aff = (if b.aff = 0 then saved.aff else b.aff) ∧ d.position (tenantOf r b) aff none b saved.wb saved.hb = .ok (px, py) ∧
    Dev.checkAt u.mem d saved.mould (tenantOf r b) x.no px py b.bind none (some saved.ports) = (.ok k, d') ∧
    d'.rehome none (tenantOf r b) (dieOfBlock px py) saved.chans = .ok chans ∧ State.place { u with dev := d' } x.no (saved.replaced k chans aff) = some t := by
  unfold restorable at h
  split at h
  · next e =>
    rw [Bool.and_eq_true] at h
    obtain ⟨g, h⟩ := h
    split at h
    · next f =>
      split at h
      · next i =>
        split at h
        · next j => exact ⟨_, _, _, _, _, _, _, _, _, _, e, Option.isNone_iff_eq_none.mp g, rfl, rfl, f, i, j, (Option.some_get h).symm⟩
        · exact nomatch h
      · exact nomatch h
    · exact nomatch h
  · exact nomatch h

/-- `Obligations.PlacerSteps`, SAVE, RESTORE, REMOVE and RESUME: an address that is not aligned, a length too small by one and one that suffices; a cast that is frozen, and one that is
not; no image, one that cannot be read, one of a cast that is
there, and one that is restored; no cast and a cast; a target that is not there and one that is; a removal that is over and one that is not. -/
theorem witness_PlacerSteps_save :
    (∀ z : Bool, Requested 5 fun u r b => b.addr.toNat % 4096 = 0 ∧ 2752512 ≤ b.len.toNat ∧ ∃ k, u.dev.reqCast (tenantOf r b) b.cast false = .ok k ∧ k.th.mode ≠ .halted ∧ k.frozen = z ∧
      k.saving ≠ some .yield ∧ (z = false → ∀ k', (frozen b.cast (stagingCancelled b.cast u)).dev.casts.find b.cast = some k' → k'.th.mode ≠ .stopped)) ∧
    (∀ addr len, (addr, len) ∈ [((1 : Word), (0 : Word)), (4096, 2752511), (4096, 2752512)] → Requested 5 fun u r b => b.addr = addr ∧ b.len = len ∧
      ∃ k, u.dev.reqCast (tenantOf r b) b.cast false = .ok k ∧ 65536 + k.mould.bytes.length + 2686976 * (k.wb * k.hb) = 2752512 ∧ k.th.mode ≠ .halted) ∧
    (Requested 6 fun u r b => ∃ e d, Dev.findImage u.mem u.dev (tenantOf r b) b.addr = (.error e, d)) ∧
    (Requested 6 fun u r b => ∃ va f d, Dev.readRun u.mem u.dev nowhere (tenantOf r b) b.addr 64 = (.error (va, f), d)) ∧
    (Requested 6 fun u r b => ∃ x d, Dev.findImage u.mem u.dev (tenantOf r b) b.addr = (.ok x, d) ∧ d.casts.find x.no ≠ none) ∧
    (Requested 6 fun u r b => ∃ x d saved aff px py k d' chans t, Dev.findImage u.mem u.dev (tenantOf r b) b.addr = (.ok x, d) ∧ d.casts.find x.no = none ∧
      saved = d.savedCast x ∧ aff = (if b.aff = 0 then saved.aff else b.aff) ∧ d.position (tenantOf r b) aff none b saved.wb saved.hb = .ok (px, py) ∧
      Dev.checkAt u.mem d saved.mould (tenantOf r b) x.no px py b.bind none (some saved.ports) = (.ok k, d') ∧
      d'.rehome none (tenantOf r b) (dieOfBlock px py) saved.chans = .ok chans ∧ State.place { u with dev := d' } x.no (saved.replaced k chans aff) = some t) ∧
    (Requested 7 fun u r b => u.dev.away.find b.cast = none ∧ ∃ e, u.dev.reqCast (tenantOf r b) b.cast true = .error e) ∧
    (Requested 7 fun u r b => u.dev.away.find b.cast = none ∧ u.dev.pl.rolls.find b.cast = none ∧ ∃ k, u.dev.reqCast (tenantOf r b) b.cast true = .ok k) ∧
    (∀ rx ∈ [5, 6], Requested 8 fun u r b => b.rx = rx ∧ ∃ k, u.dev.reqCast (tenantOf r b) b.cast false = .ok k ∧ k.canResumeAt b = decide (rx = 5)) ∧
    (∀ c ∈ [5, 6], ∃ (s : State) (r : PlReq) (b : PlBlock), s.dev.pl.cur = some (.remove r b c) ∧ (s.dev.casts.find c).isSome = decide (c = 5)) := by
  refine ⟨?_, ?_, requested { op := 6, addr := 0x0200000000000000 } [] id rfl rfl ⟨_, _, rfl⟩,
    requested { op := 6, addr := 0x0200000000000000 } [] id rfl rfl ⟨_, _, _, rfl⟩,
    requested { op := 6 } saveHeader (fun d => { saved d with casts := [(9, plain)] }) rfl rfl ⟨_, _, rfl, by decide⟩,
    requested { op := 6 } (saveHeader ++ tables) saved rfl rfl (restorable_of (by decide +kernel)),
    requested { op := 7 } [] id rfl rfl ⟨rfl, _, rfl⟩, requested { op := 7, cast := 5 } [] (occupied plain) rfl rfl ⟨rfl, rfl, _, rfl⟩, ?_, ?_⟩
  · intro z
    refine requested { op := 5, cast := 5, addr := 4096, len := 2752512 } [] (occupied { plain with frozen := z }) rfl rfl ⟨rfl, by decide, _, rfl, nofun, rfl, nofun, ?_⟩
    rintro rfl k' h
    cases (show _ = k' from Option.some.inj h)
    nofun
  · intro addr len h
    simp only [List.mem_cons, List.not_mem_nil, or_false, Prod.mk.injEq] at h
    rcases h with ⟨rfl, rfl⟩ | ⟨rfl, rfl⟩ | ⟨rfl, rfl⟩
    · exact requested { op := 5, cast := 5, addr := 1 } [] (occupied plain) rfl rfl ⟨rfl, rfl, _, rfl, rfl, nofun⟩
    · exact requested { op := 5, cast := 5, addr := 4096, len := 2752511 } [] (occupied plain) rfl rfl ⟨rfl, rfl, _, rfl, rfl, nofun⟩
    · exact requested { op := 5, cast := 5, addr := 4096, len := 2752512 } [] (occupied plain) rfl rfl ⟨rfl, rfl, _, rfl, rfl, nofun⟩
  · intro rx h
    simp only [List.mem_cons, List.not_mem_nil, or_false] at h
    rcases h with rfl | rfl
    · exact requested { op := 8, cast := 5, rx := 5 } [] (occupied plain) rfl rfl ⟨rfl, _, rfl, rfl⟩
    · exact requested { op := 8, cast := 5, rx := 6 } [] (occupied plain) rfl rfl ⟨rfl, _, rfl, rfl⟩
  · intro c h
    simp only [List.mem_cons, List.not_mem_nil, or_false] at h
    rcases h with rfl | rfl <;> exact ⟨device [] fun d => { d with casts := [(5, plain)], pl := { d.pl with cur := some (.remove (plReq {}) {} _) } }, _, _, rfl, rfl⟩

/-- A move of cast 5 to the last block of its die, through its first cut; a placer at work on it, and a cast there. -/
def mv : MoveItem := { cast := 5, bx := 5, by_ := 5, aff := 0, cut := 0 }
def atWork (x : PlCur) (k : Cast := plain) (now : Nat := 0) : State :=
  device [] fun d => { d with now := now, casts := [(5, k)], pl := { d.pl with cur := some x } }
def storing : Thread := { mode := .running, queue := [{ id := 0, lane := 0, after := 0, pa := 0, len := 1, data := [1], act := .channelRequest (access 0 0 [1]), due := 0 }] }

/-- `Obligations.PlacerSteps`, moves that take more than a step: one whose cut is empty, whose cast is there and has halted; one that waits, and one whose time is
over, of a MOVE and a COMPACT; one at once; one whose cast has no access in flight, and one whose cast has a store. -/
theorem witness_PlacerSteps_moves :
    (∀ mode ∈ [Mode.running, .halted], ∃ (s : State) (b : PlBlock), s.dev.pl.cur = some (.move (plReq {}) b mv 0 [] 0 []) ∧ s.dev.cutReady = true ∧ b.op ≠ 3 ∧
      ((∃ k res, s.dev.stillMoves (plReq {}) b mv [] = .ok (k, res)) ↔ mode = .running) ∧ ((∃ e, s.dev.stillMoves (plReq {}) b mv [] = .error e) ↔ mode = .halted)) ∧
    (∃ (s : State) (b : PlBlock), s.dev.pl.cur = some (.move (plReq {}) b mv 1 [] 0 []) ∧ s.dev.now < 1) ∧
    (∀ op ∈ [2, 3], ∃ (s : State) (b : PlBlock), s.dev.pl.cur = some (.move (plReq {}) b mv 0 [] 0 []) ∧ 0 ≤ s.dev.now ∧ b.op = op) ∧
    (∃ (u : State) (k k' : Cast), u.dev.reqCast (tenantOf (plReq {}) {}) 5 false = .ok k ∧ u.dev.checkMove k { mv with cut := 255 } = .ok k') ∧
    ∀ done : Bool, ∃ (s : State) (k : Cast), s.dev.pl.cur = some (.moving (plReq {}) {} mv [] 0 false []) ∧ s.dev.casts.find 5 = some k ∧ s.dev.moveReady = done := by
  refine ⟨?_, ⟨atWork (.move (plReq {}) {} mv 1 [] 0 []), {}, rfl, Nat.one_pos⟩, fun op _ => ⟨atWork (.move (plReq {}) { op := op } mv 0 [] 0 []), { op := op }, rfl, Nat.le_refl 0, rfl⟩,
    ⟨device [] (occupied cut1), _, _, rfl, rfl⟩, ?_⟩
  · intro mode h
    simp only [List.mem_cons, List.not_mem_nil, or_false] at h
    rcases h with rfl | rfl
    · exact ⟨atWork (.move (plReq {}) {} mv 0 [] 0 []), {}, rfl, rfl, by decide, ⟨fun _ => rfl, fun _ => ⟨_, _, rfl⟩⟩, ⟨fun ⟨_, e⟩ => (nomatch e), nofun⟩⟩
    · exact ⟨atWork (.move (plReq {}) {} mv 0 [] 0 []) (withTh fun t => { t with mode := .halted }), {}, rfl, rfl, by decide,
        ⟨fun ⟨_, _, e⟩ => (nomatch e), nofun⟩, ⟨fun _ => rfl, fun _ => ⟨_, rfl⟩⟩⟩
  · intro done
    cases done
    · exact ⟨atWork (.moving (plReq {}) {} mv [] 0 false []) { plain with th := storing }, _, rfl, rfl, rfl⟩
    · exact ⟨atWork (.moving (plReq {}) {} mv [] 0 false []), _, rfl, rfl, rfl⟩

/-- `Obligations.PlacerSteps`, the rest: a row to fill; a roll at its end; a cast that has halted; who has asked; a request whose stores have reached every replica, and one of which
a store has not. -/
theorem witness_PlacerSteps_steps :
    (∃ (s : State) (x : RollSt) (k : Cast), s.dev.pl.rolls.find 5 = some x ∧ s.dev.casts.find 5 = some k ∧ x.filled < k.hb) ∧
    (∃ (s : State) (x : RollSt) (k : Cast), s.dev.pl.rolls.find 5 = some x ∧ s.dev.casts.find 5 = some k ∧ k.hb ≤ x.filled ∧ k.emptied = true) ∧
    (∃ (s : State) (k : Cast), s.dev.casts.find 5 = some k ∧ s.dev.canRetire 5 k = true) ∧ ((plReq {}).src = .firmware ∧ ({} : PlBlock).cnt = 0) ∧
    (∃ s : State, let t := blockWritten (plReq {}) 72 (leBytes 8 0) (blockWritten (plReq {}) 64 (leBytes 8 0) s)
      (∀ e ∈ t.dev.replicas, e.2 = []) ∧ ∀ e ∈ (blockWritten (plReq {}) 4 (leBytes 4 0) t).dev.replicas, e.2 = []) ∧
    ∃ s : State, let t := blockWritten (plReq {}) 72 (leBytes 8 0) (blockWritten (plReq {}) 64 (leBytes 8 0) s)
      ∃ e ∈ t.dev.replicas, ∃ x ∈ e.2, x.1 < t.dev.replNo := by
  refine ⟨⟨device [] fun d => { occupied plain d with pl := { d.pl with rolls := [(5, { req := plReq {}, blk := {}, num := 6 })] } }, _, _, rfl, rfl, by decide⟩,
    ⟨device [] fun d => { occupied { plain with leaving := true } d with pl := { d.pl with rolls := [(5, { req := plReq {}, blk := {}, num := 6, filled := 1 })] } }, _, _, rfl, rfl,
      by decide, rfl⟩, ⟨device [] (occupied (withTh fun t => { t with mode := .halted })), _, rfl, rfl⟩, ⟨rfl, rfl⟩, ⟨device [] id, by decide +kernel, by decide +kernel⟩,
    device [] fun d => { d with replNo := 1, replicas := [(1, [(0, access 0 0 [1])])] }, by decide +kernel⟩

/-- Under the boot window (R53) firmware's writes to low addresses are never stopped. -/
theorem boot_translate (m : Memory) (d : Dev) (va : Word) (hb : d.bootWindow 0 = true) (hp : d.hasDie 0 = true) (h : va.toNat < 2 ^ 30) :
    Dev.translate m d nowhere 0 va .store = (.ok ⟨field va 0 52, 0, 5, none, false⟩, d) := by
  have h1 : field va 0 52 = va.toNat := by simp only [field]; omega
  have h2 : field va 52 5 = 0 := by simp only [field]; omega
  have h3 : canonical va = true := by 
    have h5 : bitAt va 56 = false := by simp only [bitAt, BitVec.getLsbD, Nat.testBit_eq_decide_div_mod_eq]; simp; omega
    have h6 : va.toNat / 2 ^ 57 % 2 ^ 7 = 0 := by omega
    simp only [canonical, field, h5, h6]; rfl
  have h4 : d.badPa va.toNat = false := by
    have h5 : va.toNat / 2 ^ 50 % 4 = 0 := by omega
    have h6 : va.toNat / 2 ^ 40 % 2 ^ 10 = 0 := by omega
    have h7 : va.toNat / 2 ^ 37 % 8 = 0 := by omega
    simp only [Dev.badPa, paRegion, paDie, h5, h6, h7, hp]
    rfl
  simp [Dev.translate, h3, hb, h2, h1, h4, nowhere]

theorem writeAt_boot (s : State) (tenant pa : Nat) (data : List Byte) :
    (writeAt s tenant pa data).dev.bootWindow 0 = s.dev.bootWindow 0 ∧ (writeAt s tenant pa data).dev.hasDie 0 = s.dev.hasDie 0 := by
  unfold writeAt
  dsimp only
  split
  · split
    · split
      · split <;> exact ⟨rfl, rfl⟩
      · exact ⟨rfl, rfl⟩
    · exact ⟨rfl, rfl⟩
  · split <;> exact ⟨rfl, rfl⟩

theorem boot_write (agent : Agent) (fuel : Nat) (va : Word) (data : List Byte) (s : State) (hb : s.dev.bootWindow 0 = true) (hp : s.dev.hasDie 0 = true)
    (h : va.toNat + data.length < 2 ^ 30) : (State.writeVa nowhere 0 agent fuel va data s).2 = none := by
  induction fuel generalizing va data s with
  | zero => rfl
  | succ n ih =>
    unfold State.writeVa
    split
    · rfl
    · rw [boot_translate _ _ _ hb hp (by omega)]
      have hw := writeAt_boot s 0 (field va 0 52) (data.take (lineLeft va.toNat data.length))
      have hl : lineLeft va.toNat data.length ≤ data.length := Nat.min_le_left ..
      exact ih _ _ _ (hw.1.trans hb) (hw.2.trans hp) (by
        rw [BitVec.toNat_add, BitVec.toNat_ofNat, List.length_drop]
        omega)

theorem boot_image (s : State) (c kind : Nat) (k : Cast) (hk : s.dev.casts.find c = some k) (hb : s.dev.bootWindow 0 = true) (hp : s.dev.hasDie 0 = true)
    (h : k.saveSize = 2752512) : ∃ t x, State.writeImage s 0 c kind nowhere 4096 = (t, some x, none) := by
  unfold State.writeImage
  rw [hk]
  dsimp only
  split
  · next e =>
    let x : SaveRec := { id := s.dev.pl.nextSave, size := 2752512, kind := kind, tid := k.tenant, no := c, cast := { k with held := k.held ++ s.dev.flying c } }
    have hn := boot_write .placer (2752512 / 128 + 2) 4096 x.bytes { s with dev := s.dev.modPl fun p => { p with nextSave := p.nextSave + 1 } } hb hp
      (by simp only [x, SaveRec.bytes, List.length_map, List.length_range]; decide)
    rw [h] at e
    simp only [State.writeRun, SaveRec.bytes, List.length_map, List.length_range, x] at e hn
    rw [e] at hn
    exact nomatch hn
  · exact ⟨_, _, rfl⟩

def saveOf (remove : Bool) : PlBlock := { op := 5, cast := 5, addr := 4096, len := 2752512, remove := remove }
def saving (remove : Bool) : State :=
  device [] fun d => { d with casts := [(5, plain)], pl := { d.pl with cur := some (.save (plReq (saveOf remove)) (saveOf remove) 5 false) } }

/-- `Obligations.PlacerSteps`: a SAVE whose cast has nothing left to do, and whose image is written; one that removes the cast, and one that does not. -/
theorem witness_PlacerSteps_saved : ∀ remove : Bool, ∃ (s : State) (r : PlReq) (b : PlBlock) (c : Nat) (w : Bool) (k : Cast) (t : State) (x : SaveRec), b.remove = remove ∧
    s.dev.pl.cur = some (.save r b c w) ∧ s.dev.casts.find c = some k ∧ s.dev.saveReady c k = true ∧
    State.writeImage (onPlacer (fun p => { p with cur := none }) s) (tenantOf r b) c (if w then 2 else 1) nowhere b.addr = (t, some x, none) := by
  intro remove
  have hb : (onPlacer (fun p => { p with cur := none }) (saving remove)).dev.bootWindow 0 = true := by cases remove <;> rfl
  obtain ⟨t, x, h⟩ := boot_image (onPlacer (fun p => { p with cur := none }) (saving remove)) 5 1 plain rfl hb (by cases remove <;> rfl) rfl
  exact ⟨saving remove, plReq (saveOf remove), saveOf remove, 5, false, plain, t, x, rfl, rfl, rfl, rfl, h⟩

/-! ### Adapters, dispatchers, tasks -/

/-- A port with a ring at input A of a site, which takes narrow lane 0 of the north edge, and the cast that has it. -/
def ringPort (isOut : Bool) (g : Ring) (q : List Token) : Port := { site := 0, local_ := 0, isOut := isOut, fmt := 1, wide := false, q := q, bind := .ring g }
def edged : Site := { ecw := [(0, BitVec.ofNat 128 (2 ^ 28 * 5 + 2 ^ 20 + 2 ^ 8 + 2 ^ 32 * 9))] }
def ringed (p : Port) : Cast := { plain with ports := [p], sites := [(0, edged)] }
def ring0 : Ring := { desc := 0, base := 64, cap := 4, scope := 0, own := 0, last := 0 }

/-- Some adapter serves a ring, and satisfies a condition. -/
def Serving (isOut : Bool) (P : State → Nat → Nat → Cast → Port → Ring → Prop) : Prop := ∃ s c ix k p g, ServesRing s c ix k p g ∧ p.isOut = isOut ∧ P s c ix k p g

theorem serving {o : Bool} {P : State → Nat → Nat → Cast → Port → Ring → Prop} (g : Ring) (q : List Token) (hg : g.stopped = none)
    (h : P (holding [] (ringed (ringPort o g q))) 0 0 (ringed (ringPort o g q)) (ringPort o g q) g) : Serving o P :=
  ⟨_, 0, 0, _, _, g, ⟨rfl, rfl, rfl, hg, rfl, rfl⟩, rfl, h⟩

/-- The oldest token of a ring has been accepted, and every replica has applied what was stored before; the entry to be read next. -/
def TakenOf (s : State) (g : Ring) : Prop := ∃ t n rest, g.acks = (t, n) :: rest ∧ t ≤ s.dev.now ∧ ∀ e ∈ s.dev.replicas, ∀ x ∈ e.2, n ≤ x.1
def nextEntry (g : Ring) : Nat := (g.own + g.acks.length) % 2 ^ 64

/-- `Obligations.AdapterSteps`: an index written and one whose write faults; into a cast, an entry whose token has been accepted and one whose token has not, one skipped, delivered behind
fifteen others and not read, and TAIL read and not. -/
theorem witness_AdapterSteps :
    (∃ (s : State) (k : Cast) (p : Port) (g : Ring) (t : State), ServesRing s 0 0 k p g ∧ s.writeRun (k.adapterVia p) k.tenant (.adapter 0 0) (g.desc + 16) (leBytes 8 1) = (t, none)) ∧
    (∃ (s : State) (k : Cast) (p : Port) (g : Ring) (t : State) (e : Word × XFault), ServesRing s 0 0 k p g ∧
      s.writeRun (k.adapterVia p) k.tenant (.adapter 0 0) (g.desc + 16) (leBytes 8 1) = (t, some e)) ∧
    (Serving false fun s _ _ _ _ g => TakenOf s g) ∧
    (Serving false fun s _ _ _ _ g => ¬ TakenOf s g ∧ nextEntry g ≠ g.last ∧ g.acks.length < 16 ∧ g.skip = true) ∧
    (Serving false fun s c ix k p g => ¬ TakenOf s g ∧ nextEntry g ≠ g.last ∧ g.acks.length = 15 ∧ g.skip = false ∧ TakesToken s c ix k p ∧
      ∃ bs d, Dev.readRun s.mem s.dev (k.adapterVia p) k.tenant (g.base + BitVec.ofNat 64 (16 * (nextEntry g % g.cap))) 16 (.adapter c ix) = (.ok bs, d)) ∧
    (Serving false fun s c ix k p g => ¬ TakenOf s g ∧ nextEntry g ≠ g.last ∧ g.acks.length < 16 ∧ g.skip = false ∧ TakesToken s c ix k p ∧
      ∃ e d, Dev.readRun s.mem s.dev (k.adapterVia p) k.tenant (g.base + BitVec.ofNat 64 (16 * (nextEntry g % g.cap))) 16 (.adapter c ix) = (.error e, d)) ∧
    (Serving false fun s c ix k p g => p.paused = false ∧ g.own = g.last ∧ g.poll ≤ s.dev.now ∧
      ∃ bs d, Dev.readRun s.mem s.dev (k.adapterVia p) k.tenant (g.desc + 24) 8 (.adapter c ix) = (.ok bs, d)) ∧
    (Serving false fun s c ix k p g => p.paused = false ∧ g.own = g.last ∧ g.poll ≤ s.dev.now ∧
      ∃ e d, Dev.readRun s.mem s.dev (k.adapterVia p) k.tenant (g.desc + 24) 8 (.adapter c ix) = (.error e, d)) := by
  refine ⟨⟨holding [] (ringed (ringPort true ring0 [])), _, _, _, _, ⟨rfl, rfl, rfl, rfl, rfl, rfl⟩, rfl⟩,
    ⟨holding [] (ringed (ringPort true { ring0 with desc := 0x0200000000000000 } [])), _, _, _, _, _, ⟨rfl, rfl, rfl, rfl, rfl, rfl⟩, rfl⟩,
    serving { ring0 with acks := [(0, 0)], last := 1 } [] rfl ⟨0, 0, [], rfl, Nat.le_refl 0, nofun⟩,
    serving { ring0 with last := 1, skip := true } [] rfl ⟨nofun, by decide, by decide, rfl⟩,
    serving { ring0 with last := 16, cap := 16, acks := List.replicate 15 (9, 0) } [] rfl ⟨?_, by decide, rfl, rfl, ⟨rfl, rfl, rfl, rfl, rfl, rfl, rfl, nofun, by decide +kernel, rfl⟩, _, _, rfl⟩,
    serving { ring0 with last := 1, base := 0x0200000000000000 } [] rfl ⟨nofun, by decide, by decide, rfl, ⟨rfl, rfl, rfl, rfl, rfl, rfl, rfl, nofun, by decide +kernel, rfl⟩, _, _, rfl⟩,
    serving ring0 [] rfl ⟨rfl, rfl, Nat.le_refl 0, _, _, rfl⟩, serving { ring0 with desc := 0x0200000000000000 } [] rfl ⟨rfl, rfl, Nat.le_refl 0, _, _, rfl⟩⟩
  rintro ⟨t, n, rest, h, ht, -⟩
  have : (9, 0) = (t, n) := (List.cons.inj h).1
  cases this
  exact absurd ht (by decide)

/-- A port paired with port 0 of another cast, and its tokens. -/
def paired (q held : List Token) : Cast := { plain with ports := [{ site := 0, local_ := 0, isOut := true, fmt := 1, wide := false, q := q, bind := .peer 1 0 true held }] }
def pair (k : Cast) (free : Bool) : State := { mem := [], dev := { casts := [(0, k), (1, ringed { ringPort false ring0 [] with paused := !free })] } }

/-- `Obligations.AdapterSteps`, the rest: out of a cast, an index owed, an entry skipped, written in the last place and not, and HEAD read and not while the ring is full; a pair of adapters
that passes a token on, and one that takes its sixteenth. -/
theorem witness_AdapterSteps_out :
    let used := fun (g : Ring) => (g.own + 2 ^ 64 - g.last) % 2 ^ 64
    (Serving true fun s _ _ _ _ g => ∃ n, g.owe = some n ∧ ∀ e ∈ s.dev.replicas, ∀ x ∈ e.2, n ≤ x.1) ∧
    (Serving true fun _ _ _ _ p g => g.owe = none ∧ p.q ≠ [] ∧ p.absorbs = false ∧ g.skip = true) ∧
    (Serving true fun s c ix k p g => g.owe = none ∧ p.absorbs = false ∧ g.skip = false ∧ used g < g.cap ∧ ∃ tok rest t, p.q = tok :: rest ∧
      s.writeRun (k.adapterVia p) k.tenant (.adapter c ix) (g.base + BitVec.ofNat 64 (16 * (g.own % g.cap))) (ringEntry tok) = (t, none)) ∧
    (Serving true fun s c ix k p g => g.owe = none ∧ p.absorbs = false ∧ g.skip = false ∧ used g < g.cap ∧ ∃ tok rest t e, p.q = tok :: rest ∧
      s.writeRun (k.adapterVia p) k.tenant (.adapter c ix) (g.base + BitVec.ofNat 64 (16 * (g.own % g.cap))) (ringEntry tok) = (t, some e)) ∧
    (Serving true fun s c ix k p g => g.owe = none ∧ g.cap ≤ used g ∧ g.poll ≤ s.dev.now ∧
      ∃ bs d, Dev.readRun s.mem s.dev (k.adapterVia p) k.tenant (g.desc + 16) 8 (.adapter c ix) = (.ok bs, d)) ∧
    (Serving true fun s c ix k p g => g.owe = none ∧ g.cap ≤ used g ∧ g.poll ≤ s.dev.now ∧
      ∃ e d, Dev.readRun s.mem s.dev (k.adapterVia p) k.tenant (g.desc + 16) 8 (.adapter c ix) = (.error e, d)) ∧
    (∃ (s : State) (k : Cast) (p : Port) (j : Cast) (q : Port) (t : Token) (rest : List Token), s.dev.casts.find 0 = some k ∧ k.ports[0]? = some p ∧
      p.bind = .peer 1 0 true (t :: rest) ∧ p.isOut = true ∧ TakesToken s 1 0 j q) ∧
    (∃ (s : State) (k : Cast) (p : Port) (held : List Token) (t : Token) (rest : List Token), s.dev.casts.find 0 = some k ∧ k.ports[0]? = some p ∧
      p.bind = .peer 1 0 true held ∧ p.isOut = true ∧ p.q = t :: rest ∧ p.absorbs = false ∧ k.frozen = false ∧ k.served p.site = true ∧ held.length = 15 ∧
      ¬ ∃ j q, TakesToken s 1 0 j q) := by
  intro used
  refine ⟨serving { ring0 with owe := some 0 } [] rfl ⟨0, rfl, nofun⟩, serving { ring0 with skip := true } [narrow 0 0 1] rfl ⟨rfl, nofun, rfl, rfl⟩,
    serving { ring0 with own := 3 } [narrow 0 0 1] rfl ⟨rfl, rfl, rfl, by decide, _, _, _, rfl, rfl⟩,
    serving { ring0 with own := 3, base := 0x0200000000000000 } [narrow 0 0 1] rfl ⟨rfl, rfl, rfl, by decide, _, _, _, _, rfl, rfl⟩,
    serving { ring0 with own := 4 } [] rfl ⟨rfl, by decide, Nat.le_refl 0, _, _, rfl⟩,
    serving { ring0 with own := 4, desc := 0x0200000000000000 } [] rfl ⟨rfl, by decide, Nat.le_refl 0, _, _, rfl⟩,
    ⟨pair (paired [] [narrow 0 0 1]) true, _, _, _, _, _, _, rfl, rfl, rfl, rfl, ⟨rfl, rfl, rfl, rfl, rfl, rfl, rfl, nofun, by decide +kernel, rfl⟩⟩,
    pair (paired [narrow 0 0 1] (List.replicate 15 (narrow 0 0 1))) false, _, _, _, _, _, rfl, rfl, rfl, rfl, rfl, rfl, rfl, rfl, rfl, ?_⟩
  rintro ⟨j, q, hc, hp, -, -, -, hn, -⟩
  cases hc
  cases hp
  exact nomatch hn

/-- A device whose stage 7 of tenant 0 is defined, or not; and a record of a task of it at address 0, a successor and a counter besides. -/
def staged (m : Memory) (x : Tbl Stage) (f : Dev → Dev := id) : State := device m fun d => f { d with sch := { d.sch with stages := x } }
def task7 : Memory := [(0, 1), (4, 7)]
def direct : Memory := [(0, 1), (3, 4), (6, 5)]
def dependent : Memory := [(0, 1), (4, 7), (17, 1)]

/-- What a dispatcher finds when it has read a record. -/
def Reads (s : State) (P : List Byte → Dev → Task → Prop) : Prop :=
  (¬ ∃ e ∈ s.dev.agenda, e.1 ≤ s.dev.now ∧ (seKey e.2).isSome = true) ∧ ∃ bs d, Dev.readRun s.mem s.dev nowhere 0 0 128 = (.ok bs, d) ∧ P bs d (taskOf 0 0 0 bs)

theorem reads {m : Memory} {x : Tbl Stage} {f : Dev → Dev} {P : List Byte → Dev → Task → Prop} {bs : List Byte} {d : Dev} (h : (staged m x f).dev.agenda = [])
    (e : Dev.readRun (staged m x f).mem (staged m x f).dev nowhere 0 0 128 = (.ok bs, d)) (hp : P bs d (taskOf 0 0 0 bs)) : Reads (staged m x f) P :=
  ⟨fun ⟨_, he, _⟩ => (by rw [h] at he; cases he), _, _, e, hp⟩

/-- `Obligations.DispatcherSteps`, TASK.PUT: a request behind others; an address that is not translated; a record that is bad; a stage that is not defined; a cast that is not there;
a full quota; a task without a counter, with one, and with one that is no counter. -/
theorem witness_DispatcherSteps_put :
    (∃ s : State, ∃ e ∈ s.dev.agenda, e.1 ≤ s.dev.now ∧ (seKey e.2).isSome = true) ∧
    (∃ (s : State) (a : Word) (e : Word × XFault) (d : Dev), Dev.readRun s.mem s.dev nowhere 0 a 128 = (.error e, d)) ∧
    (∃ s, Reads s fun bs _ t => t.parm = 0 ∧ badRecord bs = true) ∧
    (∃ s, Reads s fun bs d t => t.parm = 0 ∧ badRecord bs = false ∧ t.direct = false ∧ d.sch.stages.find (65536 * 0 + t.stage) = none) ∧
    (∃ s, Reads s fun bs d t => t.parm = 0 ∧ badRecord bs = false ∧ t.direct = true ∧ d.casts.find t.target = none) ∧
    (∃ s, Reads s fun bs d t => t.parm = 0 ∧ badRecord bs = false ∧ t.direct = false ∧ d.sch.stages.find (65536 * 0 + t.stage) ≠ none ∧
      field (d.schqOf 0) 32 12 ≤ (d.sch.tasks.countP fun e => e.2.tenant == 0)) ∧
    (∃ s, Reads s fun bs d t => t.parm = 0 ∧ badRecord bs = false ∧ t.direct = false ∧ d.sch.stages.find (65536 * 0 + t.stage) ≠ none ∧
      (¬ (field (d.schqOf 0) 32 12 ≤ (d.sch.tasks.countP fun e => e.2.tenant == 0) ∨ 4096 ≤ (d.sch.tasks.countP fun e => e.2.die == 0))) ∧ t.succ = [0, 0, 0, 0] ∧
      BitVec.ofNat 64 (num bs 16 8) = (0 : Word)) ∧
    (∃ s, Reads s fun bs d t => t.parm = 0 ∧ badRecord bs = false ∧ t.direct = false ∧ d.sch.stages.find (65536 * 0 + t.stage) ≠ none ∧
      (¬ (field (d.schqOf 0) 32 12 ≤ (d.sch.tasks.countP fun e => e.2.tenant == 0) ∨ 4096 ≤ (d.sch.tasks.countP fun e => e.2.die == 0))) ∧ t.succ = [0, 0, 0, 0] ∧
      BitVec.ofNat 64 (num bs 16 8) = (256 : Word) ∧ ∃ pa d', Dev.counterAt s.mem d nowhere 0 256 = (some pa, d')) ∧
    (∃ (s : State) (d' : Dev), Dev.counterAt s.mem s.dev nowhere 0 4 = (none, d')) :=
  ⟨⟨device [] fun d => { d with agenda := [(0, .seCntFree request)] }, _, List.mem_cons_self, Nat.le_refl 0, rfl⟩, ⟨device [] id, 0x0200000000000000, _, _, rfl⟩,
   ⟨staged [] [], reads rfl rfl ⟨rfl, rfl⟩⟩, ⟨staged task7 [], reads rfl rfl ⟨rfl, rfl, rfl, rfl⟩⟩, ⟨staged direct [], reads rfl rfl ⟨rfl, rfl, rfl, rfl⟩⟩,
   ⟨staged task7 [(7, {})] fun d => { d with sch := { d.sch with schq := [(0, 0)] } }, reads rfl rfl ⟨rfl, rfl, rfl, by decide +kernel, by decide +kernel⟩⟩,
   ⟨staged task7 [(7, {})], reads rfl rfl ⟨rfl, rfl, rfl, by decide +kernel, by decide +kernel, rfl, rfl⟩⟩,
   ⟨staged dependent [(7, {})], reads rfl rfl ⟨rfl, rfl, rfl, by decide +kernel, by decide +kernel, rfl, rfl, _, _, rfl⟩⟩, ⟨device [] id, _, rfl⟩⟩

/-- `Obligations.DispatcherSteps`, stages and replicas: a record of a plain stage and of an elastic one, the last stage that fits; registration in no stage, of no cast, in the stage it has,
in another, of one too many and of the last; leaving a stage; a thread that asks; a task accepted whose counter has been released, has not, and without one. -/
theorem witness_DispatcherSteps_stages :
    (∃ s, Reads s fun bs d _ => num bs 0 2 ≠ 0 ∧ d.sch.stages.length < 1024 ∧ num bs 2 1 = 0 ∧ num bs 3 13 = 0) ∧
    (∃ s, Reads s fun bs d _ => num bs 0 2 ≠ 0 ∧ d.sch.stages.length < 1024 ∧ num bs 2 1 = 1 ∧ num bs 12 4 = 0 ∧ num bs 32 32 = 0 ∧ num bs 6 2 < num bs 4 2 ∧ 1 ≤ num bs 8 1 ∧
      num bs 8 1 ≤ num bs 9 1 ∧ num bs 9 1 ≤ 64 ∧ num bs 10 2 ≠ 0) ∧
    (∃ s : State, s.dev.sch.stages.find (65536 * 0 + 7) = none) ∧ (∃ s : State, s.dev.sch.stages.find (65536 * 0 + 7) ≠ none ∧ s.dev.casts.find 5 = none) ∧
    (∀ n ∈ [0, 7, 8], ∃ (s : State) (k : Cast), s.dev.sch.stages.find (65536 * 0 + 7) ≠ none ∧ s.dev.casts.find 5 = some k ∧ k.tenant = 0 ∧ k.leaving = false ∧ k.stage = n ∧ k.deque = [] ∧
      (s.dev.replicasOf 0 7).length < 64) ∧
    (∃ (s : State) (k : Cast), s.dev.sch.stages.find (65536 * 0 + 7) ≠ none ∧ s.dev.casts.find 99 = some k ∧ k.tenant = 0 ∧ k.leaving = false ∧ k.stage = 0 ∧
      64 ≤ (s.dev.replicasOf 0 7).length) ∧
    (∀ v ∈ [0, 1], ∃ (s : State) (t : Machine.Task), t.direct = false ∧ t.dep = some 256 ∧ s.dev.counterDone t.tenant 256 = decide (v = 0)) ∧
    ∃ (t : Machine.Task) (x : SchedSt), t.direct = false ∧ t.dep = none ∧ x.tasks.find 1 = some t ∧ ∀ e ∈ x.tasks, e.1 = 1 → e.2 = t := by
  refine ⟨⟨staged [(0, 7)] [], reads rfl rfl ⟨by decide +kernel, by decide, rfl, rfl⟩⟩,
    ⟨staged [(0, 7), (2, 1), (4, 2), (6, 1), (8, 1), (9, 64), (10, 1)] [], reads rfl rfl (by decide +kernel)⟩, ⟨staged [] [], rfl⟩, ⟨staged [] [(7, {})], by decide, rfl⟩, ?_,
    ⟨staged [] [(7, {})] fun d => { d with casts := (99, plain) :: (List.range 64).map fun i => (i, { plain with stage := 7 }) }, _, by decide, rfl, rfl, rfl, rfl, by decide +kernel⟩,
    ?_, ⟨{ tenant := 0, addr := 0, pri := 0, st := .waiting, die := 0 }, { tasks := [(1, _)] }, rfl, rfl, rfl, fun e h _ => by rw [List.mem_singleton.1 h]⟩⟩
  · intro n h
    simp only [List.mem_cons, List.not_mem_nil, or_false] at h
    rcases h with rfl | rfl | rfl <;>
      exact ⟨staged [] [(7, {})] fun d => { d with casts := [(5, { plain with stage := _ })] }, _, by decide, rfl, rfl, rfl, rfl, rfl, by decide +kernel⟩
  · intro v h
    simp only [List.mem_cons, List.not_mem_nil, or_false] at h
    rcases h with rfl | rfl
    · exact ⟨device [] fun d => { d with se := [(0, { cnts := [{ tenant := 0, pa := 256, value := 0, ovf := false }] })] }, { tenant := 0, addr := 0, pri := 0, dep := some 256, st := .waiting, die := 0 }, rfl, rfl, rfl⟩
    · exact ⟨device [] fun d => { d with se := [(0, { cnts := [{ tenant := 0, pa := 256, value := 1, ovf := false }] })] }, { tenant := 0, addr := 0, pri := 0, dep := some 256, st := .waiting, die := 0 }, rfl, rfl, rfl⟩

/-- A task of stage 7 in a state; and a device with a cast 5 at the entry of its code, tasks, and a key for line 0. -/
def task (st : TaskSt) (ws : List WsEnt := []) : Machine.Task := { tenant := 0, addr := 0, pri := 0, stage := 7, ws := ws, st := st, die := 0 }
def toDirect (t : Machine.Task) : Machine.Task := { t with direct := true, target := 5 }
def atEntry (f : Cast → Cast) : Cast := f (withTh fun t => { t with mode := .atEntry })
def tasked (k : Cast) (ts : Tbl Machine.Task) (f : Dev → Dev := id) : State := device [] fun d => f { d with casts := [(5, k)], sch := { d.sch with tasks := ts } }
def scratch (n : Nat) : WsEnt := { lvl := 2, base := 0, size := n, tgt := 0 }

/-- What the admission of the task in front finds. -/
def Admits (P : State → Nat → Machine.Task → Prop) : Prop := ∃ s id t t' d h d', firstTask (s.dev.admissions 0) = some (id, t) ∧ Dev.withWs s.mem s.dev t = (t', d) ∧
  Dev.taskHomes s.mem t' t'.ws d = (h, d') ∧ P s ((t'.ws.filter fun w => w.lvl == 2 || w.lvl == 3).map WsEnt.size).sum t' ∧ h = [] ∧ (t'.ws.filter fun w => w.lvl == 1) = []

/-- `Obligations.TaskSteps`, staging: a working set one byte over its quota, one that is at the quota and has no room, and one that has; a piece of L2 that is read and one that is not;
scratch through a channel in use and not; a working set that is staged. -/
theorem witness_TaskSteps_staging :
    (Admits fun s n _ => 65536 * field (s.dev.schqOf 0) 16 16 < n) ∧
    (Admits fun s n t => n = 65536 * field (s.dev.schqOf t.tenant) 16 16 ∧ s.dev.chargedScr t.tenant = 1) ∧ (Admits fun s n t => n = 0 ∧ s.dev.chargedScr t.tenant = 0) ∧
    (∃ (s : State) (t : Machine.Task) (w : WsEnt), s.dev.sch.tasks.find 1 = some t ∧ t.canPiece s.dev.now = true ∧ t.ws = [w] ∧ w.lvl = 1 ∧
      ∃ bs d, Dev.readRun s.mem (drawn s).dev nowhere t.tenant (w.base + BitVec.ofNat 64 w.pos) (min 4096 (w.size - w.pos)) = (.ok bs, d)) ∧
    (∃ (s : State) (t : Machine.Task) (w : WsEnt), s.dev.sch.tasks.find 1 = some t ∧ t.canPiece s.dev.now = true ∧ t.ws = [w] ∧ w.lvl = 1 ∧
      ∃ e d, Dev.readRun s.mem (drawn s).dev nowhere t.tenant (w.base + BitVec.ofNat 64 w.pos) (min 4096 (w.size - w.pos)) = (.error e, d)) ∧
    (∀ used : Bool, ∃ (s : State) (t : Machine.Task) (w : WsEnt) (k : Cast), s.dev.sch.tasks.find 1 = some t ∧ t.canPiece s.dev.now = true ∧ t.ws = [w] ∧ w.lvl = 3 ∧
      s.dev.casts.find t.target = some k ∧ (k.chans.get {} (field w.tgt 0 2)).used = used ∧ (k.chans.get {} (field w.tgt 0 2)).closing = false) ∧
    (∃ (s : State) (t : Machine.Task), s.dev.sch.tasks.find 1 = some t ∧ s.dev.stagingDone t = true) := by
  refine ⟨⟨tasked plain [(1, task .ready [scratch (65536 * 64 + 1)])], 1, _, _, _, _, _, rfl, rfl, rfl, by decide +kernel, rfl, rfl⟩,
    ⟨tasked plain [(1, task .ready [scratch (65536 * 64)]), (2, { task .staged with scr := 1 })], 1, _, _, _, _, _, rfl, rfl, rfl, by decide +kernel, rfl, rfl⟩,
    ⟨tasked plain [(1, task .ready)], 1, _, _, _, _, _, rfl, rfl, rfl, by decide +kernel, rfl, rfl⟩,
    ⟨tasked plain [(1, task .staging [{ lvl := 1, base := 0, size := 16, tgt := 0 }])], _, _, rfl, rfl, rfl, rfl, _, _, rfl⟩,
    ⟨tasked plain [(1, task .staging [{ lvl := 1, base := 0x0200000000000000, size := 16, tgt := 0 }])], _, _, rfl, rfl, rfl, rfl, _, _, rfl⟩, ?_,
    ⟨tasked plain [(1, task .staging)], _, rfl, rfl⟩⟩
  intro used
  cases used
  · exact ⟨tasked plain [(1, toDirect (task .staging [{ lvl := 3, base := 0, size := 16, tgt := 0 }]))], _, _, _, rfl, rfl, rfl, rfl, rfl, rfl, rfl⟩
  · exact ⟨tasked (channel { used := true }) [(1, toDirect (task .staging [{ lvl := 3, base := 0, size := 16, tgt := 0 }]))], _, _, _, rfl, rfl, rfl, rfl, rfl, rfl, rfl⟩

/-- A task of cast 5 that has been suspended, and its save image. -/
def suspended (d : Dev) : Dev := { d with pl := { d.pl with saves := [{ record plain with no := 5 }] } }

/-- `Obligations.TaskSteps`, delivery: the head of the FIFO, of the deque and of the stage's queue; a suspended task; one that is stolen; a token without a parameter block, with one, and
with one that is not read; a task that completes; a successor. -/
theorem witness_TaskSteps_delivery :
    (∃ (s : State) (k : Cast), s.dev.casts.find 5 = some k ∧ Dev.canGive s.dev 5 k = some (.fifo 1)) ∧ (∃ (s : State) (k : Cast), s.dev.casts.find 5 = some k ∧ Dev.canGive s.dev 5 k = some (.deque 1)) ∧
    (∃ (s : State) (k : Cast), s.dev.casts.find 5 = some k ∧ Dev.canGive s.dev 5 k = some (.stage 1)) ∧ (∃ (s : State) (k : Cast), s.dev.casts.find 5 = some k ∧ Dev.canGive s.dev 5 k = some (.suspended 1)) ∧
    (∃ (s : State) (k : Cast), s.dev.casts.find 5 = some k ∧ s.dev.canSteal 5 k = some 1) ∧
    (∃ (s : State) (k : Cast), s.dev.casts.find 5 = some k ∧ k.th.taskToken = some (0, 3) ∧ k.task = some 1 ∧ k.th.mode = .atEntry) ∧
    (∃ (s : State) (k : Cast), s.dev.casts.find 5 = some k ∧ k.th.taskToken = some (64, 3) ∧ k.task = some 1 ∧ k.th.mode = .atEntry ∧ ∃ bs d, Dev.readRun s.mem s.dev k.via k.tenant 64 256 = (.ok bs, d)) ∧
    (∃ (s : State) (k : Cast), s.dev.casts.find 5 = some k ∧ k.th.taskToken = some (0x0200000000000000, 3) ∧ k.task = some 1 ∧ k.th.mode = .atEntry ∧
      ∃ e d, Dev.readRun s.mem s.dev k.via k.tenant 0x0200000000000000 256 = (.error e, d) ∧ ∃ t, d.sch.tasks.find 1 = some t) ∧
    (∃ (s : State) (k : Cast) (t : Machine.Task), s.dev.casts.find 5 = some k ∧ s.dev.canComplete k = some 1 ∧ s.dev.sch.tasks.find 1 = some t) ∧
    (∃ (s : State) (k : Cast) (p : Placed) (d : Dev), s.dev.casts.find 5 = some k ∧ Dev.translate s.mem s.dev k.via 0 64 .store = (.ok p, d)) :=
  ⟨⟨tasked (atEntry fun k => { k with fifo := [1] }) [(1, toDirect (task .staged))], _, rfl, rfl⟩, ⟨tasked (atEntry fun k => { k with stage := 7, deque := [1] }) [(1, { task .staged with deque := some 5 })], _, rfl, rfl⟩,
   ⟨tasked (atEntry fun k => { k with stage := 7 }) [(1, task .staged)], _, rfl, rfl⟩,
   ⟨tasked (atEntry fun k => { k with susp := [(1, 0, 0)] }) [(1, task .suspended)] suspended, _, rfl, rfl⟩,
   ⟨tasked (atEntry fun k => { k with stage := 7 }) [(1, { task .staged with die := 7 })], _, rfl, rfl⟩,
   ⟨tasked (atEntry fun k => { k with task := some 1, th := { k.th with taskToken := some (0, 3) } }) [(1, task .pending)], _, rfl, rfl, rfl, rfl⟩,
   ⟨tasked (atEntry fun k => { k with task := some 1, th := { k.th with taskToken := some (64, 3) } }) [(1, task .pending)], _, rfl, rfl, rfl, rfl, _, _, rfl⟩,
   ⟨tasked (atEntry fun k => { k with task := some 1, th := { k.th with taskToken := some (0x0200000000000000, 3) } }) [(1, task .pending)], _, rfl, rfl, rfl, rfl, _, _, rfl, _, rfl⟩,
   ⟨tasked (atEntry fun k => { k with task := some 1 }) [(1, task .active)], _, _, rfl, rfl, rfl⟩, ⟨tasked plain [], _, _, _, rfl, rfl⟩⟩

/-- `Obligations.TaskSteps`, the rest: the first die that has been released, and not; a stage above its high mark at its hold and one below, with room for a replica; a cast that has hung just
long enough, whose image can be made at once, and one of which a store is still to be performed. -/
theorem witness_TaskSteps_rest :
    (∀ die ∈ [2, 3], ∃ s : State, ((List.range 8).find? fun i => (s.dev.relClock.find i).isSome) = some 2 ∧ (some 2 = some die ∨ die = 3)) ∧
    (∃ (s : State) (st : Stage), s.dev.pl.queue.length < 64 ∧ st.high < s.dev.readyOf 0 7 ∧ st.hold ≤ st.above + 1 ∧ (s.dev.replicasOf 0 7).length < st.maxr) ∧
    (∃ (s : State) (st : Stage), s.dev.pl.queue.length < 64 ∧ st.high < s.dev.readyOf 0 7 ∧ ¬ st.hold ≤ st.above + 1 ∧ ¬ s.dev.readyOf 0 7 < st.low ∧ ¬ st.hold ≤ 0) ∧
    (∀ ready : Bool, ∃ (s : State) (k k' : Cast), s.dev.casts.find 5 = some k ∧ k.frozen = false ∧ 1500 * s.dev.sch.hang.toNat = k.hang ∧ 0 < k.hang ∧
      let v := onCast 5 (fun k => { k with saving := some (k.saving.getD .watchdog) }) (frozen 5 (stagingCancelled 5 s))
      v.dev.casts.find 5 = some k' ∧ k'.frozen = true ∧ v.dev.saveReady 5 k' = ready ∧ k'.saving = some .watchdog) := by
  refine ⟨?_, ⟨tasked plain [(1, task .ready)], { hold := 1 }, by decide, by decide +kernel, by decide, by decide +kernel⟩,
    ⟨tasked plain [(1, task .ready)], { hold := 2 }, by decide, by decide +kernel, by decide, by decide +kernel, by decide⟩,
    ?_⟩
  rotate_left
  · intro ready
    cases ready
    · exact ⟨tasked { plain with hang := 15000000, th := storing } [], _, _, rfl, rfl, by decide +kernel, by decide, rfl, rfl, rfl, rfl⟩
    · exact ⟨tasked { plain with hang := 15000000 } [], _, _, rfl, rfl, by decide +kernel, by decide, rfl, rfl, rfl, rfl⟩
  intro die h
  simp only [List.mem_cons, List.not_mem_nil, or_false] at h
  refine ⟨device [] fun d => { d with relClock := [(2, 0), (3, 0)] }, rfl, ?_⟩
  rcases h with rfl | rfl
  · exact .inl rfl
  · exact .inr rfl

/-! ### Ports and user queues -/

/-- A request of PF0 at a port, or of function 1. -/
def inb (fn bar off : Nat) : Inbound := { fn := fn, bar := bar, off := off, relaxed := false, ide := false }
def up (f : HostSt → HostSt) : State := device [] fun d => { d with boot := { d.boot with ready := true }, host := f d.host }

theorem passes (f : HostSt → HostSt) (q : Inbound) (len : Nat) (h1 : q.fn = 0) (h2 : ((up f).dev.host.fncfg.find 0) = none) (h3 : q.off + len ≤ barSize q) :
    PassesGate (up f) 0 q len ∧ InStream (up f) 0 q := by
  have hw : (up f).dev.fncfgOf 0 q.fn = 0x100 := by
    rw [h1]
    simp only [Dev.fncfgOf]
    rw [h2]
    rfl
  refine ⟨⟨.inl rfl, by omega, h3, .inl rfl, ?_, ?_⟩, ?_⟩
  · rw [hw]; rfl
  · rw [hw]; decide
  · intro h
    rw [hw] at h
    exact nomatch h

/-- `Obligations.PortSteps`, arrivals: past the end of BAR 2, its last byte, and a function that requires IDE; each BAR; an atomic of 8 bytes. Which registers the file of PF0
holds where is open, and no state settles it. -/
theorem witness_PortSteps_arrivals :
    (∃ s : State, ¬ PassesGate s 0 (inb 0 2 (2 ^ 38)) 1) ∧ (∃ s : State, PassesGate s 0 (inb 0 2 (2 ^ 38 - 1)) 1 ∧ InStream s 0 (inb 0 2 (2 ^ 38 - 1))) ∧
    (∃ s : State, PassesGate s 0 (inb 1 2 0) 1 ∧ ¬ InStream s 0 (inb 1 2 0)) ∧
    (∃ s : State, PassesGate s 0 (inb 0 4 0) 64 ∧ InStream s 0 (inb 0 4 0)) ∧
    (∃ s : State, PassesGate s 0 (inb 0 0 0) 8 ∧ InStream s 0 (inb 0 0 0) ∧ inFile (inb 0 0 0) = false) ∧
    (∃ s : State, PassesGate s 0 (inb 0 2 0) (width .b8) ∧ InStream s 0 (inb 0 2 0) ∧ 4 ≤ width .b8) ∧
    inFile (inb 0 0 (2 ^ 22)) = true := by
  refine ⟨⟨up id, fun h => absurd h.2.2.1 (by decide)⟩, ⟨up id, passes id _ _ rfl rfl (by decide)⟩,
    ⟨up fun h => { h with fncfg := [(1, 0x300)] }, ⟨.inl rfl, by decide, by decide, .inl rfl, rfl, by decide⟩, fun h => nomatch (h rfl).1⟩,
    ⟨up id, passes id _ _ rfl rfl (by decide)⟩, ⟨up id, (passes id _ _ rfl rfl (by decide)).1, (passes id (inb 0 0 0) 8 rfl rfl (by decide)).2, rfl⟩,
    ⟨up id, (passes id _ _ rfl rfl (by decide)).1, (passes id (inb 0 2 0) 8 rfl rfl (by decide)).2, by decide⟩, rfl⟩

/-- A request at the ordering point of port 0, alone. -/
def stood (a : Arrival) (f : HostSt → HostSt := id) : State := up fun h => f { h with inbox := [(0, [a])] }
def oneWord (op : Nat) : List Byte := leBytes 8 op
/-- A sealed commit of 16 bytes; its stream. -/
def commit (ctr : Nat) : Arrival := { id := 1, q := inb 0 4 (2 ^ 20), data := leBytes 8 ctr ++ leBytes 8 16 ++ List.replicate 48 0 }
def stream (f : SealSt → SealSt) : HostSt → HostSt := fun h => { h with ecs := [(0, f { v := true })] }
/-- The tag of the commit of 16 staged zeros under key 0, and that commit. -/
def goodTag : List Byte :=
  (gcmTag ((leBytes 32 (Config.sealedKey 0).toNat).map BitVec.toNat) (sealedIv { v := true } (commit 0).data) (((commit 0).data.take 32).map BitVec.toNat)
    (List.replicate 16 0)).map (BitVec.ofNat 8)
def goodCommit : Arrival := { commit 0 with data := (commit 0).data.take 32 ++ goodTag ++ List.replicate 16 0 }
theorem goodTag_length : goodTag.length = 16 := by simp [goodTag, gcmTag]
/-- `Obligations.PortSteps`: a commit whose tag matches; the whole of its destination is mapped. -/
theorem witness_PortSteps_opened :
    ∃ (s : State) (a : Arrival) (e : SealSt) (pt : List Byte) (ps : List InPart) (d : Dev), s.forwardAt 0 = some a ∧ a.isCommit = true ∧ s.dev.host.ecs.get {} 0 = e ∧ e.v = true ∧
      e.tid.toNat = s.dev.fnTenant 0 a.q.fn ∧ badCommit e a.q a.data = none ∧ s.dev.unseal 0 0 e a.data = some pt ∧
      Dev.partsAt s.mem s.dev e.tid.toNat .store (e.dst + BitVec.ofNat 64 (num a.data 16 8)) (num a.data 8 4) = (.ok ps, d) := by
  have h : (goodCommit.data.drop 32).take 16 = goodTag := by
    show List.take 16 (goodTag ++ List.replicate 16 0) = goodTag
    rw [List.take_append_of_le_length (by simp [goodTag_length]), List.take_of_length_le (by simp [goodTag_length])]
  have hu : ∃ pt, (stood goodCommit fun h => { stream id h with ioKeys := [(0, 0)] }).dev.unseal 0 0 { v := true } goodCommit.data = some pt := by
    rw [Dev.unseal, show (stood goodCommit fun h => { stream id h with ioKeys := [(0, 0)] }).dev.host.ioKeys.find _ = some 0 from rfl]
    dsimp only
    rw [h, if_pos]
    · exact ⟨_, rfl⟩
    · have h1 : sealedIv { v := true } goodCommit.data = sealedIv { v := true } (commit 0).data := by
        rw [sealedIv, sealedIv, show num goodCommit.data 0 8 = num (commit 0).data 0 8 by decide +kernel]
      have h2 : List.take 32 goodCommit.data = List.take 32 (commit 0).data := by decide +kernel
      have h3 : num goodCommit.data 8 4 = 16 := by decide +kernel
      have h4 : ∀ t : Tbl Byte, t = [] → (List.range 16).map (fun i => (t.get 0 i).toNat) = List.replicate 16 0 := by
        rintro _ rfl; decide
      rw [goodTag, h1, h2, h3, h4]; rfl
  obtain ⟨pt, hu⟩ := hu
  exact ⟨_, goodCommit, _, pt, [⟨_, _, _, _⟩], _, rfl, rfl, rfl, rfl, rfl, rfl, hu, rfl⟩

/-- `Obligations.PortSteps`, the ordering point: a write, a read and an atomic that are translated, and what is not; a doorbell; a commit to a stream that is not open, one with a wrong
counter, and one whose key is not there. A read of the host that found no completion. -/
theorem witness_PortSteps :
    (∃ (s : State) (a : Arrival) (ps : List InPart) (d : Dev), s.forwardAt 0 = some a ∧ a.isCommit = false ∧ a.q.bar = 2 ∧ a.read = none ∧ a.atom = none ∧
      Dev.partsAt s.mem s.dev 0 .store 127 a.data.length = (.ok ps, d) ∧ ps.length = 2) ∧
    (∃ (s : State) (a : Arrival) (p : InPart) (d : Dev) (bs : List Byte) (d' : Dev), s.forwardAt 0 = some a ∧ a.isCommit = false ∧ a.q.bar = 2 ∧ a.read = some (1, 9) ∧
      Dev.partsAt s.mem s.dev 0 .load 127 1 = (.ok [p], d) ∧ Dev.read s.mem d p.place.tid (p.place.readPa 0) p.len = (bs, d')) ∧
    (∃ (s : State) (a : Arrival) (p : InPart) (d : Dev), s.forwardAt 0 = some a ∧ a.isCommit = false ∧ a.q.bar = 2 ∧ a.read = none ∧ a.atom = some (.cas 0 1, .b8, 9) ∧
      Dev.partsAt s.mem s.dev 0 .store 120 8 = (.ok [p], d)) ∧
    (∃ (s : State) (a : Arrival) (e : Word × XFault) (d : Dev), s.forwardAt 0 = some a ∧ a.isCommit = false ∧ a.q.bar = 2 ∧ a.read = none ∧ a.atom = none ∧
      Dev.partsAt s.mem s.dev 0 .store (BitVec.ofNat 64 (4096 * field (s.dev.fncfgOf 0 a.q.fn) 12 40 + a.q.off)) a.data.length = (.error e, d)) ∧
    (∃ (s : State) (a : Arrival), s.forwardAt 0 = some a ∧ a.isCommit = false ∧ a.q.bar = 0 ∧ inFile a.q = false ∧ a.data.length = 8 ∧ a.q.off % 4096 + 8 = 4096) ∧
    (∃ (s : State) (a : Arrival), s.forwardAt 0 = some a ∧ a.isCommit = true ∧ (s.dev.host.ecs.get {} 0).v = false) ∧
    (∃ (s : State) (a : Arrival) (e : SealSt) (st : Nat), s.forwardAt 0 = some a ∧ a.isCommit = true ∧ s.dev.host.ecs.get {} 0 = e ∧ e.v = true ∧ e.tid.toNat = s.dev.fnTenant 0 a.q.fn ∧
      badCommit e a.q a.data = some st) ∧
    (∃ (s : State) (a : Arrival) (e : SealSt), s.forwardAt 0 = some a ∧ a.isCommit = true ∧ s.dev.host.ecs.get {} 0 = e ∧ e.v = true ∧ e.tid.toNat = s.dev.fnTenant 0 a.q.fn ∧
      badCommit e a.q a.data = none ∧ s.dev.unseal 0 0 e a.data = none) ∧
    (∃ (s : State) (k : Cast) (b : Block) (sl : Slot) (l : LoadSt), s.dev.casts.find 0 = some k ∧ k.th.blk = some b ∧ b.slots[0]? = some sl ∧ sl.load = some l) :=
  ⟨⟨stood { id := 1, q := inb 0 2 127, data := [1, 2] }, _, _, _, rfl, rfl, rfl, rfl, rfl, rfl, rfl⟩,
   ⟨stood { id := 1, q := inb 0 2 127, read := some (1, 9) }, _, _, _, _, _, rfl, rfl, rfl, rfl, rfl, rfl⟩,
   ⟨stood { id := 1, q := inb 0 2 120, atom := some (.cas 0 1, .b8, 9) }, _, _, _, rfl, rfl, rfl, rfl, rfl, rfl⟩,
   ⟨stood { id := 1, q := inb 0 2 0, data := [1] } fun h => { h with fncfg := [(0, 0xC000000000100)] }, _, _, _, rfl, rfl, rfl, rfl, rfl, rfl⟩,
   ⟨stood { id := 1, q := inb 0 0 4088, data := oneWord 1 }, _, rfl, rfl, rfl, rfl, rfl, by decide⟩, ⟨stood (commit 0), _, rfl, rfl, rfl⟩,
   ⟨stood (commit 1) (stream id), _, _, 2, rfl, rfl, rfl, rfl, rfl, by decide +kernel⟩, ⟨stood (commit 0) (stream id), _, _, rfl, rfl, rfl, rfl, rfl, by decide +kernel, rfl⟩,
   ⟨alone (withTh fun t => { t with blk := some { bare with slots := [{ word := 0, load := some { va := 0, pa := 0, issued := 0 } }] } }), _, _, _, _, rfl, rfl, rfl, rfl⟩⟩

/-- Queue 5 of I/O die 0, in slot 3, and a slot; both and the packets that have been issued. -/
def queue5 (f : QueueEnt → QueueEnt) (x : SlotSt) (ps : List PktSt := []) (m : Memory := []) : State :=
  device m fun d => { d with host := { d.host with queues := [(5, f { v := true, slot := some 3 })], slots := [(3, x)], packets := ps } }
def unmapped (pend : Bool) : State := device [] fun d => { d with host := { d.host with queues := [(5, { v := true, pend := pend })] } }
/-- A packet of a type with an argument, and as issued. -/
def packet (typ arg : Nat) : List Byte := leBytes 2 1 ++ leBytes 1 typ ++ List.replicate 13 0 ++ leBytes 8 arg ++ List.replicate 104 0
def issued (signal : Option Word) (addr : Word) : PktSt := { iod := 0, qid := 5, index := 0, tid := 0, signal := signal, arg := addr }

/-- `Obligations.QueueSteps`, kicks and reading: a queue that is not defined; a mapped one kicked by what it holds and by one more, one in error; one that pends and one that does not; a packet
that is good, one that is bad, and one that is not read. -/
theorem witness_QueueSteps_kick :
    let tooFar := fun (wrx : Nat) (x : SlotSt) => decide (2 ^ x.lsz < (wrx + 2 ^ 32 - x.rdx % 2 ^ 32) % 2 ^ 32)
    (∃ s : State, (s.dev.host.queues.get {} 5).v = false) ∧
    (∀ wrx ∈ [16, 17], ∃ (s : State) (q : QueueEnt) (x : SlotSt), s.dev.host.queues.get {} 5 = q ∧ q.v = true ∧ q.tid = s.dev.fnTenant 0 0 ∧ q.slot = some 3 ∧ s.dev.host.slots.find 3 = some x ∧
      x.err = false ∧ tooFar wrx x = decide (wrx = 17)) ∧
    (∃ (s : State) (x : SlotSt), s.dev.host.slots.find 3 = some x ∧ x.err = true) ∧
    (∀ pend : Bool, ∃ (s : State) (q : QueueEnt), s.dev.host.queues.get {} 5 = q ∧ q.v = true ∧ q.slot = none ∧ q.pend = pend) ∧
    (∃ (s : State) (x : SlotSt) (q : QueueEnt) (bs : List Byte) (d : Dev), s.dev.host.slots.find 3 = some x ∧ s.dev.host.queues.find 5 = some q ∧ x.err = false ∧ x.pkt = none ∧ x.rdx ≠ q.wrx ∧
      Dev.readRun s.mem s.dev nowhere x.tid (x.base + BitVec.ofNat 64 (128 * (x.rdx % 2 ^ x.lsz))) 128 = (.ok bs, d) ∧ badPacket bs = false) ∧
    (∃ (s : State) (x : SlotSt) (q : QueueEnt) (bs : List Byte) (d : Dev), s.dev.host.slots.find 3 = some x ∧ s.dev.host.queues.find 5 = some q ∧ x.err = false ∧ x.pkt = none ∧ x.rdx ≠ q.wrx ∧
      Dev.readRun s.mem s.dev nowhere x.tid (x.base + BitVec.ofNat 64 (128 * (x.rdx % 2 ^ x.lsz))) 128 = (.ok bs, d) ∧ badPacket bs = true ∧ ∃ q', d.host.queues.find 5 = some q') ∧
    (∃ (s : State) (x : SlotSt) (q : QueueEnt) (e : Word × XFault) (d : Dev), s.dev.host.slots.find 3 = some x ∧ s.dev.host.queues.find 5 = some q ∧ x.err = false ∧ x.pkt = none ∧ x.rdx ≠ q.wrx ∧
      Dev.readRun s.mem s.dev nowhere x.tid (x.base + BitVec.ofNat 64 (128 * (x.rdx % 2 ^ x.lsz))) 128 = (.error e, d) ∧ ∃ q', d.host.queues.find 5 = some q') := by
  intro tooFar
  refine ⟨⟨device [] id, rfl⟩, ?_, ⟨queue5 id { slot5 with err := true }, _, rfl, rfl⟩, ?_,
    ⟨queue5 (fun q => { q with wrx := 1 }) slot5 [] [(0, 1)], _, _, _, _, rfl, rfl, rfl, rfl, by decide, rfl, by decide +kernel⟩,
    ⟨queue5 (fun q => { q with wrx := 1 }) slot5, _, _, _, _, rfl, rfl, rfl, rfl, by decide, rfl, rfl, _, rfl⟩,
    ⟨queue5 (fun q => { q with wrx := 1 }) { slot5 with base := 0x0200000000000000 }, _, _, _, _, rfl, rfl, rfl, rfl, by decide, rfl, _, rfl⟩⟩
  · intro wrx h
    simp only [List.mem_cons, List.not_mem_nil, or_false] at h
    rcases h with rfl | rfl <;> exact ⟨queue5 id slot5, _, _, rfl, rfl, rfl, rfl, rfl, rfl, rfl⟩
  · intro pend
    exact ⟨unmapped pend, _, rfl, rfl, rfl, rfl⟩

/-- `Obligations.QueueSteps`, issue and the rest: a packet of each type, the last that may be in flight; a wait whose counter is done, and not; a completion with and without a counter; the
placer's queue with a place, full, and a block that is not sound. -/
theorem witness_QueueSteps :
    (∀ typ, typ ≤ 4 → ∃ (s : State) (x : SlotSt) (q : QueueEnt) (bs : List Byte), s.dev.host.slots.find 3 = some x ∧ s.dev.host.queues.find 5 = some q ∧ x.err = false ∧ x.pkt = some bs ∧
      s.dev.host.issued.get 0 0 ≤ s.dev.now ∧ q.infl = 15 ∧ num bs 3 1 % 2 = 0 ∧ num bs 2 1 = typ) ∧
    (∀ v ∈ [0, 1], ∃ (t : State) (pa : Nat) (d : Dev), Dev.counterAt t.mem t.dev nowhere 0 256 = (some pa, d) ∧ d.counterDone 0 pa = decide (v = 0)) ∧
    (∀ b : Bool, ∃ (s : State) (p : Placed) (d : Dev), Dev.translate s.mem s.dev nowhere 0 256 .store = (.ok p, d) ∧ d.unapplied d.replNo = b) ∧
    (∃ (s : State) (f : XFault) (d : Dev), Dev.translate s.mem s.dev nowhere 0 0x0200000000000000 .store = (.error f, d)) ∧
    (∀ g ∈ [none, some (256 : Word)], ∃ (s : State) (p : PktSt), s.dev.packetAt 0 5 0 = some p ∧ p.signal = g) ∧
    (∃ (s : State) (p : PktSt) (d : Dev), Dev.submit s.mem s.dev (.packet 0 5 0) p.tid 10496 p.arg = (0, d)) ∧
    (∃ (s : State) (p : PktSt) (d : Dev), Dev.submit s.mem s.dev (.packet 0 5 0) p.tid 10496 p.arg = (2, d)) ∧
    (∃ (s : State) (p : PktSt) (d : Dev) (q : QueueEnt), Dev.submit s.mem s.dev (.packet 0 5 0) p.tid 10496 p.arg = (1, d) ∧ d.host.queues.find 5 = some q) := by
  refine ⟨?_, ?_, ?_, ⟨device [] id, _, _, rfl⟩, ?_, ⟨device [(0, 1)] id, issued none 0, _, rfl⟩,
    ⟨device [(0, 1)] fun d => { d with pl := { d.pl with queue := List.replicate 64 (plReq {}) } }, issued none 0, _, rfl⟩,
    ⟨queue5 id slot5, issued none 0, _, _, rfl, rfl⟩⟩
  · intro typ h
    refine ⟨queue5 (fun q => { q with infl := 15 }) { slot5 with pkt := some (packet typ 0) }, _, _, packet typ 0, rfl, rfl, rfl, rfl, Nat.le_refl 0, rfl, ?_, ?_⟩ <;>
      (have : typ = 0 ∨ typ = 1 ∨ typ = 2 ∨ typ = 3 ∨ typ = 4 := by omega) <;> rcases this with rfl | rfl | rfl | rfl | rfl <;> decide +kernel
  · intro v h
    simp only [List.mem_cons, List.not_mem_nil, or_false] at h
    rcases h with rfl | rfl
    · exact ⟨device [] fun d => { d with se := [(0, { cnts := [{ tenant := 0, pa := 256, value := 0, ovf := false }] })] }, _, _, rfl, rfl⟩
    · exact ⟨device [] fun d => { d with se := [(0, { cnts := [{ tenant := 0, pa := 256, value := 1, ovf := false }] })] }, _, _, rfl, rfl⟩
  · rintro (_ | _)
    · exact ⟨device [] id, _, _, rfl, rfl⟩
    · exact ⟨device [] fun d => { d with replNo := 1, replicas := [(0, [(0, { agent := .firmware, tenant := 0, pa := 0, write := true, len := 1, data := [0], rpl := none, id := 0 })])] }, _, _, rfl, rfl⟩
  · intro g h
    exact ⟨queue5 id slot5 [issued g 0], _, rfl, rfl⟩

/-! ### The step -/

/-- A block of one ADD with both operands, begun. -/
def adds : Cast := withTh fun t => { t with blk := some { bare with slots := [{ word := 0x01000000, a := { val := some 1 }, b := { val := some 2 } }] } }

/-- `Obligations.StepRunsSlot`: a slot that fires in an otherwise idle package, in the turn of class 2, behind a turn and an earlier cast that can do nothing, and which walks no tables; a block
that is fetched; a word. `Obligations.StepKeepsMemOk`: a step from memory in canonical form. -/
theorem witness_StepRunsSlot :
    (∃ (s : State) (turns : List (Nat × Nat)) (pre : Tbl Cast) (k : Cast) (b : Block) (i : Instr),
      firstDue s.dev.actsWhenDue s.dev.now s.dev.agenda = none ∧ s.nextWalk = none ∧ (firstAct s.nextOfFirmware [0, 1]).isNone = true ∧
      s.dev.inTurn [3, 2] = turns ++ (2, 0) :: [] ∧ turns.length = 1 ∧ (∀ y ∈ turns, (s.nextOfTurn y).isNone = true) ∧
      ((s.dev.casts.filter fun e => e.2.tenant == 0).filter fun e => e.2.demand == 2) = pre ++ (1, k) :: [] ∧ pre.length = 1 ∧
      (∀ e ∈ pre, (s.nextOfThread e.1 e.2).isNone = true ∧ (s.nextStore e.1 e.2).isNone = true) ∧ k.frozen = false ∧ k.canAppend = false ∧ k.canDrain s.dev 1 = false ∧ k.canSwitch s.dev 1 = false ∧
      k.th.mode = .running ∧ k.th.blk = some b ∧ b.begun = true ∧ s.dev.slotNext s.mem 1 k b = some (0, i) ∧ s.dev.isStalled i (some (1, 0)) = false ∧
      let t := { s with dev := { s.dev with cursor := some (1, 0), turns := s.dev.turns.set 256 2 0 } }
      ∃ u, exec i t = .next u ∧ (t.dev.earlyWalk u.dev i (some (1, 0))).isNone = true) ∧
    (∃ (m : Memory) (d e : Dev) (k : Cast) (h : Word32) (sl : List Slot), Dev.fetchBlock m d k = (.ok (h, sl), e) ∧ ∃ x ∈ sl, x.lit = false) ∧
    (∃ (m : Memory) (d e : Dev) (k : Cast) (w : Word32), Dev.fetchWord m d k 0 = (.ok w, e)) ∧
    Safety.MemOk State.reset ∧ ∃ (s t : State), Safety.MemOk s ∧ step s = .next t := by
  refine ⟨⟨{ mem := [], dev := { casts := [(0, withTh fun t => { t with mode := .halted }), (1, adds)] } }, [(3, 0)], [_], _, _, _, rfl, rfl, rfl, rfl, rfl, ?_, rfl, rfl, ?_, rfl, rfl, rfl, rfl,
      rfl, rfl, rfl, rfl, rfl, _, rfl, rfl⟩,
    ⟨_, _, _, fetching fun t => { t with pc := 0 }, 1, _, (rfl : Dev.fetchBlock brn (holding brn (fetching id)).dev (fetching id) = _), _, List.mem_cons_self, rfl⟩,
    ⟨brn, (holding brn (fetching id)).dev, _, fetching id, 1, rfl⟩, test_reset_memOk, { mem := [], dev := { casts := [(1, adds)] } }, _, rfl, rfl⟩
  · intro y h
    rw [List.mem_singleton.1 h]
    rfl
  · intro e h
    rw [List.mem_singleton.1 h]
    exact ⟨rfl, rfl⟩

/-! ### The manual's worked examples -/

/-- The table of conversions from FP32 (chapter 8, "Worked conversions"): code and flags. -/
theorem test_conversions :
    let cvt := fun (f x : Nat) => conv f .rn false false (decVal 1 false x)
    cvt 4 0x3F800000 = (0x38, 0) ∧ cvt 4 0xC0200000 = (0xC2, 0) ∧ cvt 4 0x43960000 = (0x79, flNX) ∧ cvt 4 0x43FA0000 = (0x7F, flOF ||| flNX) ∧
    conv 4 .rn true false (decVal 1 false 0x43FA0000) = (0x7E, flOF ||| flNX) ∧ cvt 4 0x3A83126F = (0x01, flUF ||| flNX) ∧
    cvt 6 0x40200000 = (0x4, flNX) ∧ cvt 6 0x40A00000 = (0x6, flNX) ∧ cvt 6 0xBF400000 = (0xA, flNX) ∧ cvt 6 0x40E00000 = (0x7, flOF ||| flNX) ∧
    cvt 3 0x3F808000 = (0x3F80, flNX) ∧ cvt 3 0x3F818000 = (0x3F82, flNX) ∧ cvt 7 0x42FF0000 = (0x7F, flSAT ||| flNX) ∧ cvt 7 0xC0600000 = (0xFC, flNX) ∧
    cvt 7 0x7FC00000 = (0x00, flNV) := by decide +kernel

/-- E8M0 under RN (the example of R247): 3.0, 5.0 and 2^130. -/
theorem test_e8m0 :
    rndE8 .rn (.fin false 3 0) = (0x80, flNX) ∧ rndE8 .rn (.fin false 5 0) = (0x81, flNX) ∧ rndE8 .rn (.fin false 1 130) = (0xFE, flOF ||| flNX) := by decide +kernel

/-- A QMX block to MXFP4 (R253): 20.0, -3.0, 0.1 and zeros give the scale 0x81 and the codes 6, A, 0. -/
theorem test_qmx_block :
    let r := qmxBlock 0xD .rn false ([0x41A00000, 0xC0400000, 0x3DCCCCCD].map (decVal 1 false) ++ List.replicate 29 (.zero false))
    r.2 = 0x81 ∧ (r.1.map Prod.fst).take 4 = [0x6, 0xA, 0x0, 0x0] ∧ allFlags r.1 = flUF ||| flNX := by decide +kernel

/-- The pairwise tree (R278): 2^24 and thirty-one times 1.0 make 16,777,246. -/
theorem test_pairwise_tree : (veReduce (BitVec.ofNat 128 0x05010152) (0x4B800000 :: List.replicate 31 0x3F800000)).1 = 0x4B80000F := by decide +kernel

/-- "Cases that fall together" (chapter 9): INT8 100 + 100 without and with SATF, 1.0 / -0, and MAX.FP16 of a quiet NaN and 3.0. -/
theorem test_vector_cases :
    (veLane (ecw 0 0x01 7 0 0x340) 100 100 0).1 = 200 ∧ veLane (ecw 0 0x01 7 8 0x340) 100 100 0 = (127, flSAT) ∧
    veLane (ecw 0 0x09 1 0 0x340) 0x3F800000 0x80000000 0 = (0xFF800000, flDZ) ∧ (veLane (ecw 0 0x06 2 0 0x340) 0x7E00 0x4200 0).1 = 0x4200 := by decide +kernel

/-- A weight exchanged mid-stream (chapter 9): P, R and S of the example, with b from SRA and c = 1.0. -/
theorem test_weight_exchange :
    let w : BitVec 128 := 0x3F800000000000114100004700410958
    veLane w 0x3F800000 0 0x3F800000 = (0x3F800000, 0) ∧ veLane w 0x3F000000 0x40000000 0x3F800000 = (0x40000000, 0) ∧
    veLane w 0xBF800000 0x40000000 0x3F800000 = (0xBF800000, 0) ∧ veOk w = true := by decide +kernel

/-- Words that examples give for elements pass the checks of R200: the VE of chapter 9, the INTERSECT and EMIT of chapter 11, and the node of chapter 6. -/
theorem test_example_words :
    veOk 0x000000000011001100000047060101C1 = true ∧ soOk 0x000003220021002100008A89303003C0 = true ∧ soOk (BitVec.ofNat 128 (0x30811104 + 2 ^ 32 * 0x89)) = true ∧
    scwKind 0x00000022000100000000000000000000 = 1 ∧ scwCounters 0x00000022000100000000000000000000 = 1 := by decide +kernel

/-- Words that the examples of chapters 3, 7, 10 and 11 give for instructions. -/
theorem test_example_instructions :
    decodeWord 0x98000145 = .ok (.hndNew .always 0x145) ∧ decodeWord 0x99000000 = .ok (.hndGive .always) ∧ decodeWord 0x9000014A = .ok (.mxClaim .always 0x14A) ∧
    decodeWord 0x92000000 = .ok (.mxScale .always) ∧ decodeWord 0x9300014E = .ok (.mxStat .always .st 0x14E) ∧ decodeWord 0x81000002 = .ok (.strmPushData .always 2) ∧
    decodeWord 0x66000000 = .ok (.brcT .always 0) ∧ decodeWord 0x663FFFFB = .ok (.brcT .always 0x3FFFFB) ∧ decodeWord 0x85000000 = .ok (.drain .always) ∧
    decodeWord 0x91000000 = .ok (.mxRel .always) ∧ decodeWord 0x603FFFA4 = .ok (.br .always 0x3FFFA4) :=
  ⟨rfl, rfl, rfl, rfl, rfl, rfl, rfl, rfl, rfl, rfl, rfl⟩

end Sys2Proof.Tests
end

/-! ## Encodings (R7, R79, R99 to R108) -/

namespace Sys2Proof.Laws

open Sys2Proof.Machine Sys2Proof.Claims

/-- The decoder reads every well-formed instruction back from its word; a step of the device has none. -/
theorem decodeWord_encode (i : Instr) : Encoding.Statement i := by
  cases i with
  | add p b a => exact Encoding.add p b a
  | sub p b a => exact Encoding.sub p b a
  | mul p b a => exact Encoding.mul p b a
  | mulhS p b a => exact Encoding.mulhS p b a
  | mulhU p b a => exact Encoding.mulhU p b a
  | mulhSu p b a => exact Encoding.mulhSu p b a
  | divS p b a => exact Encoding.divS p b a
  | divU p b a => exact Encoding.divU p b a
  | remS p b a => exact Encoding.remS p b a
  | remU p b a => exact Encoding.remU p b a
  | minS p b a => exact Encoding.minS p b a
  | minU p b a => exact Encoding.minU p b a
  | maxS p b a => exact Encoding.maxS p b a
  | maxU p b a => exact Encoding.maxU p b a
  | madd p b a => exact Encoding.madd p b a
  | addsh p n b a => exact Encoding.addsh p n b a
  | and p b a => exact Encoding.and p b a
  | or p b a => exact Encoding.or p b a
  | xor p b a => exact Encoding.xor p b a
  | andn p b a => exact Encoding.andn p b a
  | shl p b a => exact Encoding.shl p b a
  | shr p b a => exact Encoding.shr p b a
  | sar p b a => exact Encoding.sar p b a
  | cmp p cc b a => exact Encoding.cmp p cc b a
  | tstZ p b a => exact Encoding.tstZ p b a
  | tstNz p b a => exact Encoding.tstNz p b a
  | sel p b a => exact Encoding.sel p b a
  | clz p b a => exact Encoding.clz p b a
  | ctz p b a => exact Encoding.ctz p b a
  | popc p b a => exact Encoding.popc p b a
  | bfxZ p b a => exact Encoding.bfxZ p b a
  | bfxS p b a => exact Encoding.bfxS p b a
  | bfi p b a => exact Encoding.bfi p b a
  | ext p k b a => exact Encoding.ext p k b a
  | addi p i t => exact Encoding.addi p i t
  | muli p i t => exact Encoding.muli p i t
  | andi p i t => exact Encoding.andi p i t
  | ori p i t => exact Encoding.ori p i t
  | xori p i t => exact Encoding.xori p i t
  | shli p n t => exact Encoding.shli p n t
  | shri p n t => exact Encoding.shri p n t
  | sari p n t => exact Encoding.sari p n t
  | cmpiEq p i t => exact Encoding.cmpiEq p i t
  | cmpiNe p i t => exact Encoding.cmpiNe p i t
  | cmpiLt p i t => exact Encoding.cmpiLt p i t
  | cmpiGe p i t => exact Encoding.cmpiGe p i t
  | cmpiLtu p i t => exact Encoding.cmpiLtu p i t
  | cmpiGeu p i t => exact Encoding.cmpiGeu p i t
  | get r b a => exact Encoding.get r b a
  | lit c b a => exact Encoding.lit c b a
  | mov p b a => exact Encoding.mov p b a
  | movi p i t => exact Encoding.movi p i t
  | null p b a => exact Encoding.null p b a
  | adr p i t => exact Encoding.adr p i t
  | ldZ8 p i t => exact Encoding.ldZ8 p i t
  | ldS8 p i t => exact Encoding.ldS8 p i t
  | ldZ16 p i t => exact Encoding.ldZ16 p i t
  | ldS16 p i t => exact Encoding.ldS16 p i t
  | ldZ32 p i t => exact Encoding.ldZ32 p i t
  | ldS32 p i t => exact Encoding.ldS32 p i t
  | ld64 p i t => exact Encoding.ld64 p i t
  | ldx p k b a => exact Encoding.ldx p k b a
  | ldAcqZ32 p s b a => exact Encoding.ldAcqZ32 p s b a
  | ldAcq64 p s b a => exact Encoding.ldAcq64 p s b a
  | ldl p k b a => exact Encoding.ldl p k b a
  | st p z o => exact Encoding.st p z o
  | stx p z => exact Encoding.stx p z
  | stRel p z s => exact Encoding.stRel p z s
  | stl p z => exact Encoding.stl p z
  | fenceAcq p s => exact Encoding.fenceAcq p s
  | fenceRel p s => exact Encoding.fenceRel p s
  | fenceAr p s => exact Encoding.fenceAr p s
  | br p o => exact Encoding.br p o
  | brn p => exact Encoding.brn p
  | bri p => exact Encoding.bri p
  | call p o => exact Encoding.call p o
  | calli p => exact Encoding.calli p
  | ret p => exact Encoding.ret p
  | brcT p o => exact Encoding.brcT p o
  | brcF p o => exact Encoding.brcF p o
  | strmGo p => exact Encoding.strmGo p
  | strmPushData p ch => exact Encoding.strmPushData p ch
  | strmPushIndex p ch => exact Encoding.strmPushIndex p ch
  | strmPushStop p lvl ch => exact Encoding.strmPushStop p lvl ch
  | strmPushDone p ch => exact Encoding.strmPushDone p ch
  | strmPop p ch b a => exact Encoding.strmPop p ch b a
  | argSet p ctx y x => exact Encoding.argSet p ctx y x
  | ctxSw p ctx => exact Encoding.ctxSw p ctx
  | drain p => exact Encoding.drain p
  | strmWait p => exact Encoding.strmWait p
  | mxClaim p a => exact Encoding.mxClaim p a
  | mxRel p => exact Encoding.mxRel p
  | mxScale p => exact Encoding.mxScale p
  | mxStat p w a => exact Encoding.mxStat p w a
  | hndNew p a => exact Encoding.hndNew p a
  | hndGive p => exact Encoding.hndGive p
  | hndTake p a => exact Encoding.hndTake p a
  | hndDrop p => exact Encoding.hndDrop p
  | hndInfo p b a => exact Encoding.hndInfo p b a
  | portRes p act => exact Encoding.portRes p act
  | grpNew p a => exact Encoding.grpNew p a
  | grpJoin p a => exact Encoding.grpJoin p a
  | grpLeave p => exact Encoding.grpLeave p
  | grpFree p => exact Encoding.grpFree p
  | grpBar p o s => exact Encoding.grpBar p o s
  | grpMark p o s => exact Encoding.grpMark p o s
  | waitBit p o s => exact Encoding.waitBit p o s
  | waitBitAll p o s => exact Encoding.waitBitAll p o s
  | waitTok p task mask => exact Encoding.waitTok p task mask
  | cpOpen p a => exact Encoding.cpOpen p a
  | cpClose p => exact Encoding.cpClose p
  | cpPush p => exact Encoding.cpPush p
  | cpRes p act => exact Encoding.cpRes p act
  | cpBinit p => exact Encoding.cpBinit p
  | cpBarv p o s => exact Encoding.cpBarv p o s
  | cpBwait p o s => exact Encoding.cpBwait p o s
  | atomRlx p s b a => exact Encoding.atomRlx p s b a
  | atomAcq p s b a => exact Encoding.atomAcq p s b a
  | atomRel p s b a => exact Encoding.atomRel p s b a
  | atomAr p s b a => exact Encoding.atomAr p s b a
  | cas o p s b a => exact Encoding.cas o p s b a
  | red p z f o s => exact Encoding.red p z f o s
  | cntInit p o s => exact Encoding.cntInit p o s
  | cntDec p o s => exact Encoding.cntDec p o s
  | cntWait p o s => exact Encoding.cntWait p o s
  | cntFree p => exact Encoding.cntFree p
  | taskPut p isLocal a => exact Encoding.taskPut p isLocal a
  | taskSdef p a => exact Encoding.taskSdef p a
  | taskReg p a => exact Encoding.taskReg p a
  | taskUnreg p => exact Encoding.taskUnreg p
  | taskInfo p a => exact Encoding.taskInfo p a
  | plReq p a => exact Encoding.plReq p a
  | leaseRel p => exact Encoding.leaseRel p
  | trap p code => exact Encoding.trap p code
  | eret p => exact Encoding.eret p
  | sysrd p r t => exact Encoding.sysrd p r t
  | syswr p r => exact Encoding.syswr p r
  | feat p w t => exact Encoding.feat p w t
  | halt p => exact Encoding.halt p
  | nop p => exact Encoding.nop p
  | bkpt p code => exact Encoding.bkpt p code
  | yield p => exact Encoding.yield p
  | _ => exact fun _ _ h => nomatch h

/-- The same from the word's four bytes, with the bytes after them left over. -/
theorem decode_encode {i : Instr} {w : Word32} (rest : List Byte) (he : encode i = some w) (hw : WellFormed i = true) :
    decode (leBytes 4 w.toNat ++ rest) = .ok (i, rest) := by
  rw [decode_leBytes, decodeWord_encode i hw w he]
  rfl

/-! ### Whatever the decoder reads is well-formed (R104) -/

/-- What is read, if anything is, is a well-formed instruction. -/
def ReadsWf (r : Except Reject Instr) : Prop := ∀ i, r = .ok i → WellFormed i = true

namespace ReadsWf

theorem ok {i : Instr} (h : WellFormed i = true) : ReadsWf (.ok i) := fun _ e => Except.ok.inj e ▸ h

theorem error (e : Reject) : ReadsWf (.error e) := fun _ h => nomatch h

theorem ite {c : Prop} [Decidable c] {x : Except Reject Instr} {e : Reject} (h : c → ReadsWf x) : ReadsWf (if c then x else .error e) := by
  split
  · next hc => exact h hc
  · exact error e

theorem withMod {α : Type} {x : Option α} {k : α → Except Reject Instr} (h : ∀ v, ReadsWf (k v)) : ReadsWf (Sys2Proof.withMod x k) := by
  cases x with
  | none => exact error _
  | some v => exact h v

variable {w : Word32}

theorem withPred {k : Pred → Except Reject Instr} (h : ∀ p, ReadsWf (k p)) : ReadsWf (Sys2Proof.withPred w k) := by
  simp only [Sys2Proof.withPred]
  split
  · exact h _
  · exact error _

theorem decT2x {k : Pred → BitVec 4 → Target → Target → Except Reject Instr} (h : ∀ p x b a, ReadsWf (k p x b a)) : ReadsWf (Sys2Proof.decT2x w k) :=
  withPred fun p => h p _ _ _

theorem decT2 {k : Pred → Target → Target → Instr} (h : ∀ p b a, WellFormed (k p b a) = true) : ReadsWf (Sys2Proof.decT2 w k) :=
  decT2x fun p _ b a => ite fun _ => ok (h p b a)

theorem decT1 {k : Pred → Target → Instr} (h : ∀ p a, WellFormed (k p a) = true) : ReadsWf (Sys2Proof.decT1 w k) :=
  decT2x fun p _ _ a => ite fun _ => ok (h p a)

theorem decT1I {k : Pred → BitVec 13 → Target → Except Reject Instr} (h : ∀ p i t, ReadsWf (k p i t)) : ReadsWf (Sys2Proof.decT1I w k) :=
  withPred fun p => h p _ _

theorem decShift {k : Pred → BitVec 6 → Target → Instr} (h : ∀ p n t, WellFormed (k p n t) = true) : ReadsWf (Sys2Proof.decShift w k) :=
  decT1I fun p _ t => ite fun _ => ok (h p _ t)

theorem decS {k : Pred → BitVec 22 → Except Reject Instr} (h : ∀ p i, ReadsWf (k p i)) : ReadsWf (Sys2Proof.decS w k) :=
  withPred fun p => h p _

theorem decS0 {k : Pred → Instr} (h : ∀ p, WellFormed (k p) = true) : ReadsWf (Sys2Proof.decS0 w k) :=
  decS fun p _ => ite fun _ => ok (h p)

theorem decCode {k : Pred → BitVec 16 → Instr} (h : ∀ p c, WellFormed (k p c) = true) : ReadsWf (Sys2Proof.decCode w k) :=
  decS fun p _ => ite fun _ => ok (h p _)

theorem decAtom {k : Pred → Scope → Target → Target → Instr} (h : ∀ p sc b a, WellFormed (k p sc b a) = true) : ReadsWf (Sys2Proof.decAtom w k) :=
  decT2x fun p _ b a => withMod fun sc => ok (h p sc b a)

/-- A form that takes some orderings is well-formed with each of them. -/
theorem decOrd {hi : BitVec 16} {allowed : MemOrder → Bool} {k : Pred → MemOrder → Scope → Instr}
    (h : ∀ p o sc, allowed o = true → WellFormed (k p o sc) = true) : ReadsWf (Sys2Proof.decOrd w hi allowed k) :=
  decS fun p _ => ite fun _ => withMod fun sc => ite fun ho => ok (h p _ sc ho)

theorem decodeArith (op : Nat) : ReadsWf (Sys2Proof.decodeArith op w) := by
  unfold Sys2Proof.decodeArith
  split
  all_goals first
    | exact error _
    | exact decT2 fun _ _ _ => rfl
    | refine decT2x fun p x b a => ?_
      first
        | exact ok rfl
        | exact withMod fun _ => ok rfl
        | split
          all_goals first | exact ok rfl | exact error _

theorem decodeImm (op : Nat) : ReadsWf (Sys2Proof.decodeImm op w) := by
  unfold Sys2Proof.decodeImm
  split
  all_goals first
    | exact error _
    | exact decT1I fun _ _ _ => ok rfl
    | exact decShift fun _ _ _ => rfl

theorem decodeMem (op : Nat) : ReadsWf (Sys2Proof.decodeMem op w) := by
  unfold Sys2Proof.decodeMem
  split
  all_goals first
    | exact error _
    | exact decT1I fun _ _ _ => ok rfl
    | exact decT2x fun _ _ _ _ => withMod fun _ => ok rfl
    | exact decS fun _ _ => ok rfl
    | exact decS fun _ _ => ite fun _ => ok rfl
    | exact decS fun _ _ => ite fun _ => withMod fun _ => ok rfl
    | refine decS fun _ _ => ite fun _ => withMod fun _ => ?_
      split
      all_goals first | exact ok rfl | exact error _

theorem decodeExit (op : Nat) : ReadsWf (Sys2Proof.decodeExit op w) := by
  unfold Sys2Proof.decodeExit
  split
  all_goals first
    | exact error _
    | exact decS fun _ _ => ok rfl
    | exact decS0 fun _ => rfl

theorem decodeMove (op : Nat) : ReadsWf (Sys2Proof.decodeMove op w) := by
  unfold Sys2Proof.decodeMove
  split
  · exact ok rfl
  · split
    · exact ok rfl
    · exact error _
  · exact decT2 fun _ _ _ => rfl
  · exact decT1I fun _ _ _ => ok rfl
  · exact decT2 fun _ _ _ => rfl
  · exact decT1I fun _ _ _ => ok rfl
  · exact error _

theorem decodeFabric (op : Nat) : ReadsWf (Sys2Proof.decodeFabric op w) := by
  unfold Sys2Proof.decodeFabric
  split
  all_goals first
    | exact error _
    | exact decS0 fun _ => rfl
    | exact decT1 fun _ _ => rfl
    | exact decT2 fun _ _ _ => rfl
    | exact decT2x fun _ _ _ _ => ite fun _ => ok rfl
    | exact decT2x fun _ _ _ _ => ite fun _ => withMod fun _ => ok rfl
    | exact decS fun _ _ => ite fun _ => ok rfl
    | exact decS fun _ _ => ite fun _ => withMod fun _ => ok rfl
    | refine decS fun _ _ => ite fun _ => ?_
      split
      all_goals first | exact ok rfl | exact error _ | exact ite fun _ => ok rfl

theorem decodeGroup (op : Nat) : ReadsWf (Sys2Proof.decodeGroup op w) := by
  have waitTok_wf : ∀ p (n : BitVec 1) (mask : BitVec 8), n = 1 ∨ mask ≠ 0 → WellFormed (.waitTok p (decide (n = 1)) mask) = true :=
    fun p n mask h => by simpa [WellFormed] using h
  unfold Sys2Proof.decodeGroup
  split
  all_goals first
    | exact error _
    | exact decT1 fun _ _ => rfl
    | exact decS0 fun _ => rfl
    | exact decOrd fun _ _ _ _ => rfl
    | exact decOrd fun _ _ _ ho => ho
    | exact decS fun _ _ => ite fun _ => withMod fun _ => ok rfl
    | exact decS fun p _ => ite fun _ => ite fun ht => ok (waitTok_wf p _ _ ht)
    | split
      all_goals exact decOrd fun _ _ _ ho => ho

theorem decodeSync (op : Nat) : ReadsWf (Sys2Proof.decodeSync op w) := by
  unfold Sys2Proof.decodeSync
  split
  all_goals first
    | exact error _
    | exact decAtom fun _ _ _ _ => rfl
    | exact decT1 fun _ _ => rfl
    | exact decS0 fun _ => rfl
    | exact decOrd fun _ _ _ ho => ho
    | exact decT2x fun _ _ _ _ => ite fun _ => ok rfl
    | exact decS fun _ _ => ite fun _ => withMod fun _ => withMod fun _ => ite fun hr => ok (Bool.and_eq_true_iff.2 hr)

theorem decodeSystem (op : Nat) : ReadsWf (Sys2Proof.decodeSystem op w) := by
  unfold Sys2Proof.decodeSystem
  split
  all_goals first
    | exact error _
    | exact decT1 fun _ _ => rfl
    | exact decS0 fun _ => rfl
    | exact decCode fun _ _ => rfl
    | exact decT1I fun _ _ _ => ite fun _ => ok rfl
    | exact decT1I fun _ _ _ => ite fun _ => withMod fun _ => ok rfl
    | exact decT2x fun _ _ _ _ => ite fun _ => ok rfl
    | exact decS fun _ _ => ite fun _ => withMod fun _ => ite fun hr => ok hr

end ReadsWf

theorem decodeWord_wf {w : Word32} {i : Instr} (h : decodeWord w = .ok i) : WellFormed i = true := by
  have all : ReadsWf (decodeWord w) := by
    unfold decodeWord
    split
    · exact .decodeArith _
    · exact .decodeArith _
    · exact .decodeArith _
    · exact .decodeImm _
    · exact .decodeMem _
    · exact .decodeMem _
    · exact .decodeExit _
    · exact .decodeMove _
    · exact .decodeFabric _
    · exact .decodeFabric _
    · exact .decodeGroup _
    · exact .decodeGroup _
    · exact .decodeSync _
    · exact .decodeSync _
    · exact .decodeSystem _
    · exact .decodeSystem _
    · exact .error _
  exact all i h

end Sys2Proof.Laws

namespace Sys2Proof.Proofs

open Sys2Proof.Machine Sys2Proof.Claims

/-- Settles O55: the law of each instruction's word (`decodeWord_encode`), and that four bytes make up the word again. -/
theorem decodeEncode : Obligations.DecodeEncode :=
  fun i w rest he hw => ⟨Laws.decodeWord_encode i hw w he, Laws.decode_encode rest he hw⟩

end Sys2Proof.Proofs

/-! ## Every step keeps memory in its canonical form (R7; log entry 4) -/

namespace Sys2Proof.Machine

/-- Where the outcome is a next state, its memory is in canonical form. -/
def MemKept (r : Res) : Prop := ∀ t, r = .next t → t.mem.wf = true

theorem MemKept.next {t : State} (h : t.mem.wf = true) : MemKept (.next t) := fun _ e => Host.Outcome.next.inj e ▸ h

/-- Firing a slot leaves memory as it is (`fire_next`), so every instruction that has a word does. -/
theorem exec_word_memKept {i : Instr} {s : State} (hi : (encode i).isSome = true) (h : s.mem.wf = true) : MemKept (exec i s) := by
  obtain ⟨f, hf⟩ := exec_eq_fire i s hi
  obtain ⟨d, hd⟩ := fire_next i s f
  rw [hf, hd]
  exact .next h

/-! ### What operations that leave memory as it is keep -/

theorem State.barArrive_wf {s : State} (r : Sender) (g : Word) (h : s.mem.wf = true) : (s.barArrive r g).mem.wf = true := by
  rwa [State.barArrive_mem]

theorem State.register_wf {s : State} (r : Sender) (h : s.mem.wf = true) : (s.register r).mem.wf = true := by
  rwa [State.register_mem]

theorem State.cachePiece_wf {s : State} (t : Task) (w : WsEnt) (n : Nat) (h : s.mem.wf = true) : (s.cachePiece t w n).1.mem.wf = true := by
  rwa [State.cachePiece_mem]

theorem State.scratchPiece_wf {s : State} (t : Task) (w : WsEnt) (n : Nat) (h : s.mem.wf = true) : (s.scratchPiece t w n).1.mem.wf = true := by
  rwa [State.scratchPiece_mem]

theorem State.finishTask_wf {s : State} (c id : Nat) (k : Cast) (t : Task) (h : s.mem.wf = true) : (s.finishTask c id k t).mem.wf = true := by
  rwa [State.finishTask_mem]

theorem State.issuePacket_wf {s : State} (p : PktSt) (qdie typ amt : Nat) (h : s.mem.wf = true) : (s.issuePacket p qdie typ amt).mem.wf = true := by
  rwa [State.issuePacket_mem]

theorem State.slotDec_wf {s : State} (iod tid : Nat) (va : Word) (amt : Nat) (h : s.mem.wf = true) : (s.slotDec iod tid va amt).mem.wf = true := by
  rwa [State.slotDec_mem]

section
variable {s : State} (h : s.mem.wf = true)
include h

/-! ### Fabric, elements and copy engine -/

theorem execTaskTokenStart_memKept (c : Nat) : MemKept (execTaskTokenStart c s) := by
  simp only [execTaskTokenStart]
  repeat' split
  all_goals first | exact .next h | exact .next (State.discardTask_wf _ _ _ h)

theorem execYieldPauseEnd_memKept (c : Nat) : MemKept (execYieldPauseEnd c s) := by
  simp only [execYieldPauseEnd]
  repeat' split
  all_goals first | exact .next h | exact .next (getD_wf (fun _ e => State.suspend_wf e h) h)

theorem State.soAct_getD_wf (c n : Nat) : ((s.soAct c n).getD s).mem.wf = true := getD_wf (fun _ e => State.soAct_wf e h) h

theorem execCopyRecordBegin_memKept (c cix : Nat) : MemKept (execCopyRecordBegin c cix s) := by
  simp only [execCopyRecordBegin]
  repeat' split
  all_goals first
    | exact .next h
    | exact .next (State.resumeRecord_wf _ _ _ _ _ _ h)
    | exact .next (State.beginRecord_wf _ _ _ _ _ h)

theorem execCopySector_memKept (c cix id : Nat) : MemKept (execCopySector c cix id s) := by
  simp only [execCopySector]
  split
  · exact .next h
  · split
    · exact .next h
    · split
      · exact .next h
      · split
        · exact .next h
        · next e => exact .next (State.sector_wf e h)

theorem execCopyRecordComplete_memKept (c cix id : Nat) : MemKept (execCopyRecordComplete c cix id s) := by
  simp only [execCopyRecordComplete]
  split
  · exact .next h
  · split
    · exact .next h
    · split
      · exact .next h
      · split
        · next e => exact .next (State.recordBarrier_wf e h)
        · next e =>
          have hb := State.recordBarrier_wf e h
          split
          · next e' => exact .next (State.recordStatus_wf e' hb)
          · next e' => exact .next (State.recordStatus_wf e' hb)

theorem execElementFire_memKept (c n : Nat) : MemKept (execElementFire c n s) := by
  simp only [execElementFire]
  split
  · exact .next h
  · split
    · exact .next h
    · exact .next h
    · exact .next (State.sbFire_wf c n h)
    · exact .next (State.soAct_getD_wf h c n)
    · exact .next h
    · exact .next h

/-! ### Synchronisation engines -/

theorem execBarrierUpdate_memKept (r : BarReq) : MemKept (execBarrierUpdate r s) := by
  simp only [execBarrierUpdate]
  refine .next ?_
  split
  · exact State.seWrite_wf _ _ _ _ _ _ h
  · exact h

theorem execSeCntFree_memKept (r : CntReq) : MemKept (execSeCntFree r s) := by
  simp only [execSeCntFree]
  split
  · exact .next h
  · exact .next (State.seWrite_wf _ _ _ _ _ _ h)

theorem execSeBitmapOr_memKept (r : Sender) (tenant : Nat) (a : ByteAt) (g : Word) (bitIx : Nat) : MemKept (execSeBitmapOr r tenant a g bitIx s) := by
  simp only [execSeBitmapOr]
  refine .next ?_
  split
  · exact State.seWrite_wf _ _ _ _ _ _ h
  · exact h

theorem execSeHoldRelease_memKept (die entry : Nat) : MemKept (execSeHoldRelease die entry s) := by
  simp only [execSeHoldRelease]
  split
  · exact .next h
  · split
    · exact .next h
    · split
      · exact .next (State.cntInit_wf _ _ h)
      · exact .next (State.cntDec_wf _ _ h)
      · exact .next (State.barArrive_wf _ _ h)
      · exact .next (State.register_wf _ h)
      · exact .next h

theorem execChannelRequest_memKept (r : MemReq) : MemKept (execChannelRequest r s) := by
  simp only [execChannelRequest]
  split
  · exact .next (State.perform_wf h)
  · exact .next h

theorem execReplicaStoreApply_memKept (die page : Nat) : MemKept (execReplicaStoreApply die page s) := by
  simp only [execReplicaStoreApply]
  split
  · exact .next h
  · exact .next (writeAt_wf _ _ _ h)

/-! ### Adapters, tasks and casts -/

theorem execInRingDeliver_memKept (c ix : Nat) : MemKept (execInRingDeliver c ix s) := by
  simp only [execInRingDeliver]
  repeat' split
  all_goals first | exact .next h | exact .next (State.writeIndex_wf _ _ _ _ _ _ h)

theorem execInRingTailPoll_memKept (c ix : Nat) : MemKept (execInRingTailPoll c ix s) := by
  simp only [execInRingTailPoll]
  repeat' split
  all_goals first | exact .next h | exact .next (State.readIndex_wf _ _ _ _ _ _ _ h)

theorem execOutRingHeadPoll_memKept (c ix : Nat) : MemKept (execOutRingHeadPoll c ix s) := by
  simp only [execOutRingHeadPoll]
  repeat' split
  all_goals first | exact .next h | exact .next (State.readIndex_wf _ _ _ _ _ _ _ h)

theorem execOutRingWrite_memKept (c ix : Nat) : MemKept (execOutRingWrite c ix s) := by
  simp only [execOutRingWrite]
  split
  · exact .next h
  · split
    · exact .next h
    · split
      · exact .next (State.writeIndex_wf _ _ _ _ _ _ h)
      · split
        · exact .next h
        · split
          · exact .next h
          · split
            · next e => exact .next (State.writeRun_wf_of e h)
            · next e => exact .next (State.writeRun_wf_of e h)

theorem execStagingPiece_memKept (id : Nat) : MemKept (execStagingPiece id s) := by
  simp only [execStagingPiece]
  split
  · exact .next h
  · split
    · exact .next h
    · split
      · exact .next h
      · refine .next ?_
        split
        · exact State.cachePiece_wf _ _ _ h
        · exact State.scratchPiece_wf _ _ _ h
        · exact h

theorem execTaskComplete_memKept (c : Nat) : MemKept (execTaskComplete c s) := by
  simp only [execTaskComplete]
  split
  · exact .next h
  · next k _ =>
    split
    · exact .next h
    · next id _ =>
      split
      · exact .next h
      · next t _ =>
        have ht := State.taskDone_wf t h
        split
        · exact .next ht
        · exact .next (State.finishTask_wf c id k t ht)

theorem execWdog_memKept (c : Nat) : MemKept (execWdog c s) := by
  simp only [execWdog]
  split
  · exact .next h
  · split
    · exact .next (State.imageNow_wf c (State.cancelStaging_wf c h))
    · exact .next h

theorem execRollFinish_memKept (c : Nat) : MemKept (execRollFinish c s) := by
  simp only [execRollFinish]
  split
  · split
    · exact .next (State.plDone_wf _ _ _ _ _ (State.endRemoval_wf c false h))
    · exact .next h
  · exact .next h

theorem execHaltRemoval_memKept (c : Nat) : MemKept (execHaltRemoval c s) := by
  simp only [execHaltRemoval]
  repeat' split
  all_goals first | exact .next h | exact .next (State.beginRemoval_wf c h)

/-! ### Host interface -/

theorem execInboundWriteForward_memKept (port : Nat) : MemKept (execInboundWriteForward port s) := by
  simp only [execInboundWriteForward]
  repeat' split
  all_goals first | exact .next h | exact .next (State.forwardMem_wf _ _ h) | exact .next (State.forwardOwn_wf _ _ h)

theorem execPacketIssue_memKept (iod n : Nat) : MemKept (execPacketIssue iod n s) := by
  simp only [execPacketIssue]
  repeat' split
  all_goals first
    | exact .next h
    | exact .next (State.issuePacket_wf _ _ _ _ h)

theorem execPacketComplete_memKept (iod qid ix : Nat) : MemKept (execPacketComplete iod qid ix s) := by
  simp only [execPacketComplete]
  repeat' split
  all_goals first
    | exact .next h
    | exact .next (State.slotDec_wf _ _ _ _ h)

theorem execFirmwareQueueSchedule_memKept (iod : Nat) (boundary : Bool) : MemKept (execFirmwareQueueSchedule iod boundary s) :=
  .next (foldl_wf (fun _ x h => State.placeQueue_wf x h) _ h)

theorem execPeerInboundRequest_memKept (tenant pa : Nat) (write : Bool) (len : Nat) (data : List Byte) (atom : Option AtomKind) (tag : Nat) :
    MemKept (execPeerInboundRequest tenant pa write len data atom tag s) := by
  simp only [execPeerInboundRequest]
  repeat' split
  all_goals first | exact .next h | exact .next (State.perform_wf h)

/-! ### The placer -/

theorem execPlacerMove_memKept : MemKept (execPlacerMove s) := by
  simp only [execPlacerMove]
  split
  · exact .next (State.moveOn_wf h)
  · exact .next (State.onRequest_wf _ (fun _ _ _ h => State.runMoves_wf _ _ _ _ h) h)

theorem execMoveCutEmpty_memKept : MemKept (execMoveCutEmpty s) := by
  simp only [execMoveCutEmpty]
  split
  · split
    · exact .next h
    · split
      · exact .next (State.plDone_wf _ _ _ _ _ h)
      · exact .next (State.moveOn_wf (State.freezeMove_wf _ _ _ _ _ _ _ h))
  · exact .next h

theorem execCuttimeout_memKept : MemKept (execCuttimeout s) := by
  simp only [execCuttimeout]
  repeat' split
  all_goals first | exact .next h | exact .next (State.plDone_wf _ _ _ _ _ h)

theorem execPlacerCompact_memKept : MemKept (execPlacerCompact s) := by
  simp only [execPlacerCompact]
  split
  · exact .next (State.moveOn_wf h)
  · refine .next (State.onRequest_wf _ (fun s r b h => ?_) h)
    repeat' split
    all_goals first | exact State.plDone_wf _ _ _ _ _ h | exact State.runMoves_wf _ _ _ _ h

theorem execPlacerSave_memKept : MemKept (execPlacerSave s) := by
  simp only [execPlacerSave]
  split
  · split
    · exact .next (State.plDone_wf _ _ _ _ _ h)
    · split
      · exact .next (State.endSave_wf _ _ _ _ h)
      · exact .next h
  · refine .next (State.onRequest_wf _ (fun s r b h => ?_) h)
    repeat' split
    all_goals first | exact State.plDone_wf _ _ _ _ _ h | exact State.cancelStaging_wf b.cast h

theorem execPlacerRemove_memKept : MemKept (execPlacerRemove s) := by
  simp only [execPlacerRemove]
  split
  · split
    · exact .next (State.plDone_wf _ _ _ _ _ h)
    · exact .next h
  · refine .next (State.onRequest_wf _ (fun s r b h => ?_) h)
    repeat' split
    all_goals first | exact State.plDone_wf _ _ _ _ _ h | exact h | exact State.beginRemoval_wf b.cast h

theorem execPlacerResume_memKept : MemKept (execPlacerResume s) := by
  refine .next (State.onRequest_wf _ (fun s r b h => ?_) h)
  repeat' split
  all_goals exact State.plDone_wf _ _ _ _ _ h

theorem execPlacerGrant_memKept : MemKept (execPlacerGrant s) := by
  refine .next (State.onRequest_wf _ (fun s r b h => ?_) h)
  split <;> exact State.plDone_wf _ _ _ _ _ h

theorem execPlacerRevoke_memKept : MemKept (execPlacerRevoke s) := by
  refine .next (State.onRequest_wf _ (fun s r b h => ?_) h)
  split <;> exact State.plDone_wf _ _ _ _ _ h

/-! ### Every instruction and step -/

/-- Every meaning keeps memory in canonical form: instructions by `exec_word_memKept`; of the device's steps those that may write memory each
by its own law, those that answer one change of the device at once, and the rest, which choose among such changes, branch by branch. -/
theorem exec_memKept (i : Instr) : MemKept (exec i s) := by
  cases i with
  | taskTokenStart c => exact execTaskTokenStart_memKept h c
  | yieldPauseEnd c => exact execYieldPauseEnd_memKept h c
  | sbFire c n => exact .next (State.sbFire_wf c n h)
  | elementFire c n => exact execElementFire_memKept h c n
  | soStep c n => exact .next (State.soAct_getD_wf h c n)
  | copyRecordBegin c cix => exact execCopyRecordBegin_memKept h c cix
  | copySector c cix r => exact execCopySector_memKept h c cix r
  | copyRecordComplete c cix r => exact execCopyRecordComplete_memKept h c cix r
  | barrierUpdate r => exact execBarrierUpdate_memKept h r
  | seAtomic r => exact .next (State.rmw_wf r h)
  | seCntInit r n => exact .next (State.cntInit_wf r _ h)
  | seCntDec r n => exact .next (State.cntDec_wf r _ h)
  | seCntFree r => exact execSeCntFree_memKept h r
  | seWaitRegister r => exact .next (State.register_wf r h)
  | seGrpBarArrive r g => exact .next (State.barArrive_wf r g h)
  | seBitmapOr r tenant a g b => exact execSeBitmapOr_memKept h r tenant a g b
  | seHoldRelease die e => exact execSeHoldRelease_memKept h die e
  | channelRequest r => exact execChannelRequest_memKept h r
  | replicaStoreApply die page => exact execReplicaStoreApply_memKept h die page
  | rollFinish c => exact execRollFinish_memKept h c
  | haltRemoval c => exact execHaltRemoval_memKept h c
  | inRingDeliver c ix => exact execInRingDeliver_memKept h c ix
  | inRingTailPoll c ix => exact execInRingTailPoll_memKept h c ix
  | outRingWrite c ix => exact execOutRingWrite_memKept h c ix
  | outRingHeadPoll c ix => exact execOutRingHeadPoll_memKept h c ix
  | stagingPiece id => exact execStagingPiece_memKept h id
  | taskComplete c => exact execTaskComplete_memKept h c
  | wdog c => exact execWdog_memKept h c
  | inboundWriteForward port => exact execInboundWriteForward_memKept h port
  | packetIssue iod n => exact execPacketIssue_memKept h iod n
  | packetComplete iod qid ix => exact execPacketComplete_memKept h iod qid ix
  | firmwareQueueSchedule iod b => exact execFirmwareQueueSchedule_memKept h iod b
  | peerInboundRequest tenant pa w len data atom tag => exact execPeerInboundRequest_memKept h tenant pa w len data atom tag
  | tlbiAll | tlbiTenant | tlbiRange | tlbiReserved | clearingWrite | omapcmdWrite | sepurgeWrite | keyGen | keyClear | keyLoad | keyReserved
  | plsubWrite | featlockWrite | bootstatReady | registerWrite | qslotDefine | qslotDelete | qslotMap | qslotUnmap | qslotReserved =>
    exact .next (State.regWrite_wf _ _ _ h)
  | placerLoad => exact .next (State.onRequest_wf _ (fun _ r b h => State.load_wf r b h) h)
  | placerMove => exact execPlacerMove_memKept h
  | moveCutEmpty => exact execMoveCutEmpty_memKept h
  | cuttimeout => exact execCuttimeout_memKept h
  | placerCompact => exact execPlacerCompact_memKept h
  | placerRoll => exact .next (State.onRequest_wf _ (fun _ r b h => State.roll_wf r b h) h)
  | placerSave => exact execPlacerSave_memKept h
  | placerRestore => exact .next (State.onRequest_wf _ (fun _ r b h => State.restore_wf r b h) h)
  | placerRemove => exact execPlacerRemove_memKept h
  | placerResume => exact execPlacerResume_memKept h
  | placerGrant => exact execPlacerGrant_memKept h
  | placerRevoke => exact execPlacerRevoke_memKept h
  | asyncCauseArrive | classDReply | preemptHalt | rootDoneArrive | errorTokenForward | reconfAlign | drainAlign | selectorFire
  | pulseArrive | argWriteArrive | cxFire | veFire | veDIntake | veSwap | veConsumeAlone | veAccFlush | mloadReply | mxABeat | mxBBeat
  | mxCommandTake | mxCommandBegin | mxRowFire | mxDenseUpdate | mxOutlierApply | mxReadBeat | mxNoteEmit | mxRelArrive | mxScaleWrite
  | mxReconfAlign | soTokenCheck | seGrpLeave | seGrpFree | taskReady | ageingQuantum | variantSwitch | memtimeout | pageWalk
  | inboundPostedWrite | inboundRead | inboundAtomicop | spdmMessage | pcieLinkStateChange | ualinkPortStateChange | energyWindowEnd
  | fastLimiterSample =>
    exact .next h
  | blockFetch | slotResultDeliver | asyncTrapTake | tokenAccept | drainAppend | drainComplete | ctxSwComplete | nodeIterationBegin | sbHndNew | sbHndGive
  | sbHndTake | sbHndDrop | mxSlotFree | mxClaimServe | mxStatServe | copyChainBegin | seGrpNew | seGrpJoin | seGrpMark | seMarkReport
  | placerBusyRetry | omapComplete | sepurgeComplete | rollRowFill | castBindingTransfer | dispatchTaskPut | stagingAdmit | stagingEnd
  | taskDeliver | taskSteal | hostReadTimeout | sealedCommit | doorbellKick | packetFetch | tdispStopInterface | recoveryImageWrite
  | tdispInterfaceRequest | tlbiComplete | keyComplete | powerOn | iodVerifyRelease | ucieTraining | cdVerifyRelease | bootKeyGen =>
    simp only [exec, execBlockFetch, execSlotResultDeliver, execAsyncTrapTake, execTokenAccept, execDrainAppend, execDrainComplete, execCtxSwComplete,
      execNodeIterationBegin, execSbHndNew, execSbHndGive, execSbHndTake, execSbHndDrop, execMxSlotFree, execMxClaimServe, execMxStatServe,
      execCopyChainBegin, execSeGrpNew, execSeGrpJoin, execSeGrpMark, execSeMarkReport, execPlacerBusyRetry, execOmapComplete,
      execSepurgeComplete, execRollRowFill, execCastBindingTransfer, execDispatchTaskPut, execStagingAdmit, execStagingEnd, execTaskDeliver,
      execTaskSteal, execHostReadTimeout, execSealedCommit, execDoorbellKick, execPacketFetch, execTdispStopInterface,
      execRecoveryImageWrite, execTdispInterfaceRequest, execTlbiComplete, execKeyComplete, execPowerOn, execIodVerifyRelease,
      execUcieTraining, execCdVerifyRelease, execBootKeyGen]
    repeat' split
    all_goals exact .next h
  | _ => exact exec_word_memKept rfl h

end

/-! ### The step -/

/-- A step that is put off leaves memory as the scan left it; any other is as its meaning. -/
theorem State.await_memKept {s : State} {i : Instr} {t : State} {r : Res} (hs : s.mem.wf = true) (hr : MemKept r) : MemKept (s.await i t r) := by
  intro u hu
  simp only [State.await] at hu
  split at hu
  · split at hu
    · cases hu
      exact hs
    · cases hu
      exact hr _ rfl
  · exact hr u hu

theorem Action.perform_memKept {s : State} {a : Action} (hs : s.mem.wf = true) (ha : a.state.mem.wf = true) : MemKept (a.perform s) := by
  cases a with
  | run i t => exact State.await_memKept hs (exec_memKept ha i)
  | quiet t => exact .next ha

theorem afterStep_memKept {r : Res} (hr : MemKept r) : MemKept (afterStep r) := by
  cases r with
  | next t => exact .next (State.flushJobs_wf (hr t rfl))
  | fault f => exact fun _ e => nomatch e
  | refused r => exact fun _ e => nomatch e

theorem step_memKept {s : State} (h : s.mem.wf = true) : MemKept (step s) := by
  simp only [step]
  split
  · exact fun _ e => nomatch e
  · exact afterStep_memKept (Action.perform_memKept h (State.nextAction_wf h))

end Sys2Proof.Machine

namespace Sys2Proof.Proofs

open Sys2Proof.Machine Sys2Proof.Claims

/-- Settles O59: the scan leaves the form (`nextAction_wf`), so does every meaning (`exec_memKept`), and so does what a step leaves to be done
to memory (`flushJobs_wf`). -/
theorem stepKeepsMemOk : Obligations.StepKeepsMemOk := fun _ t h ht => step_memKept h t ht

end Sys2Proof.Proofs

/-! ## The registers that firmware writes (R9, R56, R57, R63, R376, R384, R484) -/

namespace Sys2Proof.Laws

open Sys2Proof.Machine Sys2Proof.Claims

theorem regWrite_other {s : State} {tid : Nat} (r : DevReg) (v : Word) (h : tid ≠ 0) : s.regWrite tid r v = s := by
  rw [State.regWrite, if_neg fun hw => h hw.1]

theorem regWrite_absent {s : State} {r : DevReg} (tid : Nat) (v : Word) (h : regExists s.dev.part r = false) : s.regWrite tid r v = s := by
  rw [State.regWrite, if_neg fun hw => Bool.false_ne_true (h.symm.trans hw.2)]

/-! ### Invalidations (R56, R57) -/

/-- A write with neither W1C bit is a command. -/
theorem writeReg_tlbicmd {s : State} {v : Word} (h29 : v.getLsbD 29 = false) (h30 : v.getLsbD 30 = false) :
    s.writeReg .tlbicmd v = { s with dev := s.dev.tlbiCommand v } := by
  simp only [State.writeReg, bitAt, h29, h30, Bool.or_self, Bool.false_eq_true, if_false]

/-- A write with one of them clears the bits that it sets, and is none. -/
theorem exec_tlbicmd_clears {s : State} {v : Word} (h : v.getLsbD 29 = true ∨ v.getLsbD 30 = true) :
    exec (.clearingWrite 0 .tlbicmd v) s = .next (onHost (fun h =>
      { h with tlbi := { h.tlbi with err := h.tlbi.err && !v.getLsbD 29, ovr := h.tlbi.ovr && !v.getLsbD 30 } }) s) := by
  have hclears : (v.getLsbD 29 || v.getLsbD 30) = true := by simpa using h
  show Host.Outcome.next (s.writeReg .tlbicmd v) = _
  simp only [State.writeReg, bitAt, hclears, if_true]
  rfl

theorem tlbiCommand_busy {s : State} (v : Word) (h : s.dev.host.tlbi.busy = true) :
    ({ s with dev := s.dev.tlbiCommand v } : State) = onHost (fun h => { h with tlbi := { h.tlbi with ovr := true } }) s := by
  rw [Dev.tlbiCommand, if_pos h]
  rfl

theorem tlbiCommand_refused {s : State} {v : Word} (h : s.dev.host.tlbi.busy = false) (hv : field v 0 2 = 3 ∨ field v 16 3 = 7) :
    ({ s with dev := s.dev.tlbiCommand v } : State) =
      onHost (fun h => { h with tlbi := { h.tlbi with fields := v &&& 0x7FF03, err := true } }) s := by
  rw [Dev.tlbiCommand, if_neg (by simp [h]), if_pos hv]
  rfl

theorem tlbiCommand_begins {s : State} {v : Word} (h : s.dev.host.tlbi.busy = false) (hk : field v 0 2 ≠ 3) (hz : field v 16 3 ≠ 7) :
    ({ s with dev := s.dev.tlbiCommand v } : State) = invalidates v (fun k => field v 0 2 == 0 || k.tenant == field v 8 8)
      { s with dev := s.dev.dropTlb (field v 0 2) (field v 8 8) (field v 16 3) } := by
  rw [Dev.tlbiCommand, if_neg (by simp [h]), if_neg (not_or.2 ⟨hk, hz⟩)]
  rfl

theorem tlbiBytes_of_mem {size len : Nat}
    (h : (size, len) ∈ [(0, 2 ^ 12), (1, 2 ^ 16), (2, 2 ^ 21), (3, 2 ^ 25), (4, 2 ^ 30), (5, 2 ^ 34), (6, 2 ^ 38)]) : tlbiBytes size = len ∧ size < 7 := by
  simp only [List.mem_cons, Prod.mk.injEq, List.not_mem_nil, or_false] at h
  rcases h with ⟨rfl, rfl⟩ | ⟨rfl, rfl⟩ | ⟨rfl, rfl⟩ | ⟨rfl, rfl⟩ | ⟨rfl, rfl⟩ | ⟨rfl, rfl⟩ | ⟨rfl, rfl⟩ <;> exact ⟨rfl, by omega⟩

section
variable {s : State}

/-! The steps of invalidations write TLBICMD with the word of their command. -/

theorem exec_tlbiAll_eq : exec (.tlbiAll 0) s = .next (s.writeReg .tlbicmd 0) := rfl

theorem exec_tlbiTenant_eq {t : Nat} (ht : t < 256) :
    exec (.tlbiTenant 0 t) s = .next (s.writeReg .tlbicmd (BitVec.ofNat 64 (1 + 2 ^ 8 * t))) := by
  show Host.Outcome.next (s.regWrite 0 .tlbicmd (BitVec.ofNat 64 (1 + 256 * (t % 256)))) = _
  rw [Nat.mod_eq_of_lt ht, regWrite_zero s .tlbicmd _ rfl, show (2 : Nat) ^ 8 = 256 from rfl]

theorem exec_tlbiRange_eq {t size : Nat} (ht : t < 256) (hsize : size < 8) :
    exec (.tlbiRange 0 t size) s = .next (s.writeReg .tlbicmd (BitVec.ofNat 64 (2 + 2 ^ 8 * t + 2 ^ 16 * size))) := by
  show Host.Outcome.next (s.regWrite 0 .tlbicmd (BitVec.ofNat 64 (2 + 256 * (t % 256) + 65536 * (size % 8)))) = _
  rw [Nat.mod_eq_of_lt ht, Nat.mod_eq_of_lt hsize, regWrite_zero s .tlbicmd _ rfl, show (2 : Nat) ^ 8 = 256 from rfl,
    show (2 : Nat) ^ 16 = 65536 from rfl]

theorem exec_tlbiReserved_eq (v : Word) : exec (.tlbiReserved 0 v) s = .next (s.writeReg .tlbicmd v) := rfl

theorem exec_tlbiAll (h : s.dev.host.tlbi.busy = false) :
    exec (.tlbiAll 0) s = .next (invalidates 0 (fun _ => true) (tlbKept (fun _ => false) s)) := by
  rw [exec_tlbiAll_eq, writeReg_tlbicmd rfl rfl, tlbiCommand_begins h (by decide) (by decide)]
  rfl

theorem exec_tlbiTenant {t : Nat} (h : s.dev.host.tlbi.busy = false) (ht : t < 256) :
    exec (.tlbiTenant 0 t) s = .next
      (invalidates (BitVec.ofNat 64 (1 + 2 ^ 8 * t)) (fun k => k.tenant == t) (tlbKept (fun e => e.tenant != t) s)) := by
  obtain ⟨hkind, htid, hcode, h29, h30⟩ := tlbi_fields.1 t ht
  rw [exec_tlbiTenant_eq ht, writeReg_tlbicmd h29 h30, tlbiCommand_begins h (by omega) (by omega), hkind, htid]
  rfl

theorem exec_tlbiRange {t size len base : Nat} (h : s.dev.host.tlbi.busy = false) (ht : t < 256) (hsize : size < 7) (hlen : tlbiBytes size = len)
    (hbase : base = s.dev.host.tlbiva.toNat / len * len) :
    exec (.tlbiRange 0 t size) s = .next (invalidates (BitVec.ofNat 64 (2 + 2 ^ 8 * t + 2 ^ 16 * size)) (fun k => k.tenant == t)
      (tlbKept (fun e => !(e.tenant == t && decide (e.vpn * 2 ^ e.shift < base + len ∧ base < e.vpn * 2 ^ e.shift + 2 ^ e.shift ∧
        0 < 2 ^ e.shift ∧ 0 < len))) s)) := by
  obtain ⟨hkind, htid, hcode, h29, h30⟩ := tlbi_fields.2 t size ht (by omega)
  rw [exec_tlbiRange_eq ht (by omega), writeReg_tlbicmd h29 h30, tlbiCommand_begins h (by omega) (by omega), hkind, htid, hcode]
  subst hbase hlen
  rfl

theorem exec_tlbiRange_reserved {t : Nat} (h : s.dev.host.tlbi.busy = false) (ht : t < 256) :
    exec (.tlbiRange 0 t 7) s = .next (onHost (fun h =>
      { h with tlbi := { h.tlbi with fields := BitVec.ofNat 64 (2 + 2 ^ 8 * t + 2 ^ 16 * 7) &&& 0x7FF03, err := true } }) s) := by
  obtain ⟨-, -, hcode, h29, h30⟩ := tlbi_fields.2 t 7 ht (by omega)
  rw [exec_tlbiRange_eq ht (by omega), writeReg_tlbicmd h29 h30, tlbiCommand_refused h (.inr hcode)]

end

/-! ### Keys (R484) -/

/-- The session that a load names holds a key. -/
def HeldKey (d : Dev) (v : Word) : Prop := ∃ x ∈ d.host.sessions.find (v.toNat / 2 ^ 10 % 2 ^ 8), x.2 ≠ none

/-- A key command under way, and one that is refused. -/
def keyBegins (w : Word) (s : State) : State :=
  drawn (onHost (fun h => { h with keyc := { h.keyc with fields := w &&& 0x3FFFF, busy := true, due := s.dev.now + Config.openDelay s.dev.free } }) s)
def keyRefuses (w : Word) (s : State) : State := onHost (fun h => { h with keyc := { h.keyc with fields := w &&& 0x3FFFF, err := true } }) s

theorem writeReg_keycmd {s : State} {v : Word} (hbusy : s.dev.host.keyc.busy = false) (h61 : v.getLsbD 61 = false) (h62 : v.getLsbD 62 = false) :
    s.writeReg .keycmd v = if s.dev.keyRefused v then keyRefuses v s else keyBegins v s := by
  simp only [State.writeReg, bitAt, h61, h62, Bool.or_self, Bool.false_eq_true, if_false, Dev.keyCommand, hbusy]
  split <;> rfl

theorem exec_keycmd_clears {s : State} {v : Word} (h : v.getLsbD 61 = true ∨ v.getLsbD 62 = true) :
    exec (.clearingWrite 0 .keycmd v) s = .next (onHost (fun h =>
      { h with keyc := { h.keyc with err := h.keyc.err && !v.getLsbD 61, ovr := h.keyc.ovr && !v.getLsbD 62 } }) s) := by
  have hclears : (v.getLsbD 61 || v.getLsbD 62) = true := by simpa using h
  show Host.Outcome.next (s.writeReg .keycmd v) = _
  simp only [State.writeReg, bitAt, hclears, if_true]
  rfl

theorem keyWord_getLsbD {op : Nat} (hop : op < 4) (v : Word) {i : Nat} (h2 : 2 ≤ i) (hi : i < 64) : (keyWord op v).getLsbD i = v.getLsbD i :=
  (keyWord_fields op hop v).1 i h2 hi

theorem keyWord_field {op : Nat} (hop : op < 4) (v : Word) {lo n : Nat} (h2 : 2 ≤ lo) (hn : lo + n ≤ 64) : field (keyWord op v) lo n = field v lo n :=
  field_congr fun _ _ => keyWord_getLsbD hop v (by omega) (by omega)

/-- What is refused of a command with an operation (R484): slot 0 of the HBM keys, an HBM key that is loaded, a port key that is drawn, and a load
from a session without a key. -/
theorem keyRefused_keyWord (d : Dev) (v : Word) {op : Nat} (hop : op < 4) : d.keyRefused (keyWord op v) =
    (op == 3 || (decide (op ≤ 1) && !v.getLsbD 2 && field v 4 6 == 0) || (op == 0 && v.getLsbD 2) || (op == 2 && !v.getLsbD 2)
      || (op == 2 && (d.host.sessions.find (field v 10 8)).all fun x => x.2.isNone)) := by
  simp only [Dev.keyRefused, bitAt, (keyWord_fields op hop v).2, keyWord_getLsbD hop v (i := 2) (by omega) (by omega),
    keyWord_field hop v (lo := 4) (n := 6) (by omega) (by omega), keyWord_field hop v (lo := 10) (n := 8) (by omega) (by omega)]

theorem keyRefused_gen (d : Dev) (v : Word) : d.keyRefused (keyWord 0 v) = true ↔ v.getLsbD 2 = true ∨ field v 4 6 = 0 := by
  rw [keyRefused_keyWord d v (by omega)]
  cases v.getLsbD 2 <;> simp

theorem keyRefused_clear (d : Dev) (v : Word) : d.keyRefused (keyWord 1 v) = true ↔ v.getLsbD 2 = false ∧ field v 4 6 = 0 := by
  rw [keyRefused_keyWord d v (by omega)]
  cases v.getLsbD 2 <;> simp

theorem keyRefused_load (d : Dev) (v : Word) : d.keyRefused (keyWord 2 v) = true ↔ v.getLsbD 2 = false ∨ ¬ HeldKey d v := by
  have hheld : ((d.host.sessions.find (field v 10 8)).all fun x => x.2.isNone) = true ↔ ¬ HeldKey d v := by
    simp only [HeldKey, ← show field v 10 8 = v.toNat / 2 ^ 10 % 2 ^ 8 from rfl]
    cases d.host.sessions.find (field v 10 8) <;> simp
  rw [keyRefused_keyWord d v (by omega), ← hheld]
  cases v.getLsbD 2 <;> simp

theorem keyRefused_reserved (d : Dev) {v : Word} (h : v.toNat % 4 = 3) : d.keyRefused v = true := by
  have hop : field v 0 2 = 3 := by simp only [field]; omega
  simp [Dev.keyRefused, hop]

section
variable {s : State} {v : Word} (hbusy : s.dev.host.keyc.busy = false) (h61 : v.getLsbD 61 = false) (h62 : v.getLsbD 62 = false)
include hbusy h61 h62

theorem regWrite_keyWord {op : Nat} (hop : op < 4) :
    s.regWrite 0 .keycmd (keyWord op v) = if s.dev.keyRefused (keyWord op v) then keyRefuses (keyWord op v) s else keyBegins (keyWord op v) s := by
  rw [regWrite_zero s .keycmd _ rfl]
  exact writeReg_keycmd hbusy ((keyWord_getLsbD hop v (by omega) (by omega)).trans h61) ((keyWord_getLsbD hop v (by omega) (by omega)).trans h62)

theorem regWrite_key_begins {op : Nat} (hop : op < 4) (h : ¬ s.dev.keyRefused (keyWord op v) = true) :
    s.regWrite 0 .keycmd (keyWord op v) = keyBegins (keyWord op v) s := by
  rw [regWrite_keyWord hbusy h61 h62 hop, if_neg h]

theorem regWrite_key_refuses {op : Nat} (hop : op < 4) (h : s.dev.keyRefused (keyWord op v) = true) :
    s.regWrite 0 .keycmd (keyWord op v) = keyRefuses (keyWord op v) s := by
  rw [regWrite_keyWord hbusy h61 h62 hop, if_pos h]

/-- What the four operations of KEYCMD do while it is idle. -/
theorem exec_keys :
    (v.getLsbD 2 = false ∧ field v 4 6 ≠ 0 → exec (.keyGen 0 v) s = .next (keyBegins (keyWord 0 v) s)) ∧
    (v.getLsbD 2 = true ∨ field v 4 6 = 0 → exec (.keyGen 0 v) s = .next (keyRefuses (keyWord 0 v) s)) ∧
    (v.getLsbD 2 = true ∨ field v 4 6 ≠ 0 → exec (.keyClear 0 v) s = .next (keyBegins (keyWord 1 v) s)) ∧
    (v.getLsbD 2 = false ∧ field v 4 6 = 0 → exec (.keyClear 0 v) s = .next (keyRefuses (keyWord 1 v) s)) ∧
    (v.getLsbD 2 = true ∧ HeldKey s.dev v → exec (.keyLoad 0 v) s = .next (keyBegins (keyWord 2 v) s)) ∧
    (v.getLsbD 2 = false ∨ ¬ HeldKey s.dev v → exec (.keyLoad 0 v) s = .next (keyRefuses (keyWord 2 v) s)) ∧
    (v.toNat % 4 = 3 → exec (.keyReserved 0 v) s = .next (keyRefuses v s)) := by
  refine ⟨fun h => ?_, fun h => ?_, fun h => ?_, fun h => ?_, fun h => ?_, fun h => ?_, fun h => ?_⟩
  · obtain ⟨htgt, hslot⟩ := h
    refine congrArg Host.Outcome.next (regWrite_key_begins hbusy h61 h62 (by omega) fun hr => ?_)
    exact ((keyRefused_gen _ v).1 hr).elim (fun ht => Bool.false_ne_true (htgt.symm.trans ht)) hslot
  · exact congrArg Host.Outcome.next (regWrite_key_refuses hbusy h61 h62 (by omega) ((keyRefused_gen _ v).2 h))
  · refine congrArg Host.Outcome.next (regWrite_key_begins hbusy h61 h62 (by omega) fun hr => ?_)
    obtain ⟨htgt, hslot⟩ := (keyRefused_clear _ v).1 hr
    exact h.elim (fun ht => Bool.false_ne_true (htgt.symm.trans ht)) (fun hs => hs hslot)
  · exact congrArg Host.Outcome.next (regWrite_key_refuses hbusy h61 h62 (by omega) ((keyRefused_clear _ v).2 h))
  · obtain ⟨htgt, hheld⟩ := h
    refine congrArg Host.Outcome.next (regWrite_key_begins hbusy h61 h62 (by omega) fun hr => ?_)
    exact ((keyRefused_load _ v).1 hr).elim (fun ht => Bool.false_ne_true (ht.symm.trans htgt)) (fun hn => hn hheld)
  · exact congrArg Host.Outcome.next (regWrite_key_refuses hbusy h61 h62 (by omega) ((keyRefused_load _ v).2 h))
  · have hw : s.regWrite 0 .keycmd v = keyRefuses v s := by
      rw [regWrite_zero s .keycmd _ rfl, writeReg_keycmd hbusy h61 h62, if_pos (keyRefused_reserved s.dev h)]
    exact congrArg Host.Outcome.next hw

end

/-! ### Commands of a die (R63, R376) and single registers (R53, R471) -/

section
variable {s : State} {v : Word} {die : Nat} (hdie : s.dev.part.hasDie die = true)
include hdie

theorem exec_omapcmd_busy (h : (s.dev.host.omapc.get {} die).busy = true) : exec (.omapcmdWrite 0 die v) s = .next s := by
  show Host.Outcome.next (s.regWrite 0 (.omapcmd die) v) = _
  rw [regWrite_zero s (.omapcmd die) v hdie, State.writeReg, if_pos h]

theorem exec_omapcmd_begins (h : (s.dev.host.omapc.get {} die).busy = false) :
    exec (.omapcmdWrite 0 die v) s = .next (drawn (onHost (fun h => { h with
      omapc := h.omapc.put die { fields := v &&& 0xFFFFFFFF, busy := true, due := s.dev.now + Config.openDelay s.dev.free } }) s)) := by
  show Host.Outcome.next (s.regWrite 0 (.omapcmd die) v) = _
  rw [regWrite_zero s (.omapcmd die) v hdie, State.writeReg, if_neg (by rw [h]; decide)]
  rfl

theorem exec_sepurge_busy (h : (s.dev.se.get {} die).purging = true) : exec (.sepurgeWrite 0 die v) s = .next s := by
  show Host.Outcome.next (s.regWrite 0 (.sepurge die) v) = _
  rw [regWrite_zero s (.sepurge die) v hdie, State.writeReg, if_pos (show (s.dev.seAt die).purging = true from h)]

theorem exec_sepurge_begins (h : (s.dev.se.get {} die).purging = false) :
    exec (.sepurgeWrite 0 die v) s = .next (drawn (onEngine die (fun x =>
      { x with purgeTid := v.extractLsb' 0 8, purging := true, purgeDue := s.dev.now + Config.openDelay s.dev.free }) s)) := by
  have htid : BitVec.ofNat 8 (field v 0 8) = v.extractLsb' 0 8 := by
    apply BitVec.eq_of_toNat_eq
    simp [field, BitVec.extractLsb'_toNat]
  show Host.Outcome.next (s.regWrite 0 (.sepurge die) v) = _
  rw [regWrite_zero s (.sepurge die) v hdie, State.writeReg, if_neg (by rw [show (s.dev.seAt die).purging = false from h]; decide), htid]
  rfl

theorem exec_ttew0 {i : Nat} (hi : i < 64) :
    ∃ t, exec (.registerWrite 0 (.ttew0 die i) v) s = .next t ∧ t.dev.readReg (.ttew0 die i) = v &&& 0xFF01FF := by
  refine ⟨s.writeReg (.ttew0 die i) v, ?_, ?_⟩
  · exact congrArg Host.Outcome.next (regWrite_zero s _ v (by simp [regExists, hdie, hi]))
  · simp [State.writeReg, Dev.readReg, Dev.tte0, Tbl.find_put]

theorem exec_ttew1 {i : Nat} (hi : i < 64) :
    ∃ t, exec (.registerWrite 0 (.ttew1 die i) v) s = .next t ∧ t.dev.readReg (.ttew1 die i) = v &&& 0xFFFFFFFFFF000 := by
  refine ⟨s.writeReg (.ttew1 die i) v, ?_, ?_⟩
  · exact congrArg Host.Outcome.next (regWrite_zero s _ v (by simp [regExists, hdie, hi]))
  · simp [State.writeReg, Dev.readReg, Dev.tte1, Tbl.find_put]

end

theorem exec_featacc_locked {s : State} {v : Word} {i : Nat} (hi : i < 4) (hlock : s.dev.featlock = true) :
    exec (.registerWrite 0 (.featacc i) v) s = .next s := by
  show Host.Outcome.next (s.regWrite 0 (.featacc i) v) = _
  rw [regWrite_zero s (.featacc i) v (decide_eq_true hi), State.writeReg, hlock]
  rfl

theorem exec_ualid_eos8 {s : State} {v : Word} (h : s.dev.part = .eos8) :
    exec (.registerWrite 0 .ualid v) s = .next { s with dev := { s.dev with ualid := v.setWidth 10 } } := by
  have hid : BitVec.ofNat 10 (field v 0 10) = v.setWidth 10 := by
    apply BitVec.eq_of_toNat_eq
    simp [field]
  show Host.Outcome.next (s.regWrite 0 .ualid v) = _
  rw [regWrite_zero s .ualid v (by rw [regExists, h]; rfl), State.writeReg, hid]

theorem exec_ualid_eos4 {s : State} {v : Word} (h : s.dev.part = .eos4) : exec (.registerWrite 0 .ualid v) s = .next s :=
  congrArg Host.Outcome.next (regWrite_absent 0 v (by rw [regExists, h]; rfl))

/-! ### The placer's queue (R376, R384) -/

theorem exec_plsub_queued {s : State} {v : Word} (hready : s.dev.boot.ready = true) (hnow : ∀ a ∈ s.dev.pl.asks, a.at_ = s.dev.now) :
    exec (.plsubWrite 0 v) s = .next { s with dev := s.dev.firmwareReq v } := by
  have hall : (s.dev.pl.asks.all fun a => a.at_ == s.dev.now) = true := by simpa [List.all_eq_true] using hnow
  have hw : s.writeReg .plsub v = { s with dev := s.dev.firmwareReq v } := by
    simp only [State.writeReg, hready, hall, Bool.not_true, Bool.false_eq_true, if_false, if_true]
  exact congrArg Host.Outcome.next hw

/-- A request that finds the queue with room joins it; one that finds it full is lost, and OVR says so. -/
theorem firmwareReq_eq (s : State) (v : Word) :
    (s.dev.pl.queue.length < 64 → ({ s with dev := s.dev.firmwareReq v } : State) = onPlacer (fun p =>
      { p with queue := p.queue ++ [{ src := .firmware, tenant := 0, addr := v, requester := 0 }] }) s) ∧
    (64 ≤ s.dev.pl.queue.length → ({ s with dev := s.dev.firmwareReq v } : State) = onPlacer (fun p => { p with ovr := true }) s) := by
  refine ⟨fun h => ?_, fun h => ?_⟩
  · rw [Dev.firmwareReq, if_neg (by omega)]
    rfl
  · rw [Dev.firmwareReq, if_pos h]
    rfl

theorem exec_plsub_asked {s : State} {v : Word} {a : PlAsk} (ha : a ∈ s.dev.pl.asks) (hready : s.dev.boot.ready = true) (hlater : a.at_ ≠ s.dev.now) :
    exec (.plsubWrite 0 v) s = .next (asked { src := .firmware, at_ := s.dev.now, requester := 0, tenant := 0, addr := v } s) := by
  have hall : (s.dev.pl.asks.all fun a => a.at_ == s.dev.now) = false := by
    rw [List.all_eq_false]
    exact ⟨a, ha, by simpa using hlater⟩
  have hw : s.writeReg .plsub v = { s with dev := s.dev.ask { src := .firmware, at_ := s.dev.now, requester := 0, tenant := 0, addr := v } } := by
    simp only [State.writeReg, hready, hall, Bool.not_true, Bool.false_eq_true, if_false]
  exact congrArg Host.Outcome.next hw

/-- Requests that do not come before the new one keep their places. -/
theorem insertAsk_append {a : PlAsk} {l rest : List PlAsk} (h : ∀ x ∈ l, a.before x = false) : insertAsk a (l ++ rest) = l ++ insertAsk a rest := by
  induction l with
  | nil => rfl
  | cons x l ih =>
    rw [List.cons_append, insertAsk, h x List.mem_cons_self, ih fun y hy => h y (List.mem_cons_of_mem _ hy)]
    rfl

theorem not_before_of_order {a x : PlAsk}
    (h : x.at_ < a.at_ ∨ (x.at_ = a.at_ ∧ (x.src = .firmware ∨ (a.src ≠ .firmware ∧ x.requester ≤ a.requester)))) : a.before x = false := by
  simp only [PlAsk.before, decide_eq_false_iff_not]
  rcases h with h | ⟨h, hx | ⟨ha, hr⟩⟩
  · omega
  · rw [if_pos hx]
    omega
  · rw [if_neg ha]
    split <;> omega

theorem before_of_order {a b : PlAsk} (hat : a.at_ = b.at_) (hb : b.src ≠ .firmware) (ha : a.src = .firmware ∨ a.requester < b.requester) :
    a.before b = true := by
  simp only [PlAsk.before, decide_eq_true_eq, if_neg hb]
  split
  · omega
  · next hs => exact .inr ⟨hat, by have := ha.resolve_left hs; omega⟩

end Sys2Proof.Laws

namespace Sys2Proof.Proofs

open Sys2Proof.Machine Sys2Proof.Claims Sys2Proof.Laws

/-- Settles O46: a write of another tenant, or to a die or port that the part does not have, changes nothing; the rest register by register. -/
theorem registerSteps : Obligations.RegisterSteps := by
  intro s v
  refine ⟨?others, ?tlbi, ?tlbiBusy, exec_tlbicmd_clears, exec_keycmd_clears, ?noPort, ?noDie, ?die, fun hbusy h61 h62 => exec_keys hbusy h61 h62,
    ?queued, fun a ha hready hlater => exec_plsub_asked ha hready hlater, ?inOrder, rfl, rfl,
    fun die i hdie hi => ⟨exec_ttew0 hdie hi, exec_ttew1 hdie hi⟩, exec_ualid_eos8, exec_ualid_eos4, rfl,
    fun i hi hlock => exec_featacc_locked hi hlock⟩
  case others =>
    intro tid r a b size die ht
    have hno : ∀ q w, Host.Outcome.next (s.regWrite tid q w) = (.next s : Res) := fun q w => congrArg _ (regWrite_other q w ht)
    exact ⟨hno _ _, hno _ _, hno _ _, hno _ _, hno _ _, hno _ _, hno _ _, hno _ _, hno _ _, hno _ _, hno _ _, hno _ _, hno _ _, hno _ _, hno _ _⟩
  case tlbi =>
    intro hbusy
    refine ⟨exec_tlbiAll hbusy, fun t ht => exec_tlbiTenant hbusy ht, fun t size len base ht hsize hbase => ?_,
      fun t ht => exec_tlbiRange_reserved hbusy ht, fun hkind h29 h30 => ?_⟩
    · obtain ⟨hlen, hlt⟩ := tlbiBytes_of_mem hsize
      exact exec_tlbiRange hbusy ht hlt hlen hbase
    · rw [exec_tlbiReserved_eq, writeReg_tlbicmd h29 h30, tlbiCommand_refused hbusy (.inl (by simp only [field]; omega))]
  case tlbiBusy =>
    intro hbusy
    rw [exec_tlbiAll_eq, writeReg_tlbicmd rfl rfl, tlbiCommand_busy 0 hbusy]
  case noPort =>
    intro iod h
    have hno : ∀ w, Host.Outcome.next (s.regWrite 0 (.qslotcmd iod) w) = (.next s : Res) := fun w => congrArg _ (regWrite_absent 0 w h)
    exact ⟨hno _, hno _, hno _, hno _, hno _⟩
  case noDie =>
    exact fun die h => ⟨congrArg Host.Outcome.next (regWrite_absent 0 v h), congrArg Host.Outcome.next (regWrite_absent 0 v h)⟩
  case die =>
    exact fun die hdie => ⟨exec_omapcmd_busy hdie, exec_omapcmd_begins hdie, exec_sepurge_busy hdie, exec_sepurge_begins hdie⟩
  case queued =>
    intro hready hnow
    rw [exec_plsub_queued hready hnow]
    exact ⟨fun h => congrArg _ ((firmwareReq_eq s v).1 h), fun h => congrArg _ ((firmwareReq_eq s v).2 h)⟩
  case inOrder =>
    intro a b l rest hl
    have hkeep := fun (r : List PlAsk) => insertAsk_append (rest := r) fun x hx => not_before_of_order (hl x hx)
    refine ⟨by simpa [insertAsk] using hkeep [], fun hat hb ha => ?_⟩
    rw [hkeep, insertAsk, before_of_order hat hb ha, if_pos rfl]

end Sys2Proof.Proofs

/-! ## Reset values (R53, R341, R373, R472, R480, R490) -/

namespace Sys2Proof.Laws

open Sys2Proof.Machine

/-- CPLIM: each of the eight bytes of a word that nothing has written is 12 (R341). -/
theorem reset_cplim (die i : Nat) : State.reset.dev.readReg (.cplim die i) = 12 := by
  have hbyte : ∀ b : Fin 8, field (0x0C0C0C0C0C0C0C0C : Word) (8 * b.val) 8 = 12 := by decide
  have hi : field (0x0C0C0C0C0C0C0C0C : Word) (8 * (i % 8)) 8 = 12 := hbyte ⟨i % 8, Nat.mod_lt i (by decide)⟩
  exact congrArg (BitVec.ofNat 64) hi

/-- SEUSE counts nothing: entry 0 is valid and has no entries, and no other is valid (R373). -/
theorem reset_seuse (die i : Nat) : State.reset.dev.readReg (.seuse die i) = 0 := by
  have htte : State.reset.dev.tte0 die i = if i = 0 then 0x100100 else 0x100000 := rfl
  show State.reset.dev.seUse die i = 0
  rw [Dev.seUse, htte]
  by_cases hi : i = 0
  · rw [if_pos hi]
    rfl
  · rw [if_neg hi]
    rfl

theorem reset_featacc : ∀ i, State.reset.dev.readReg (.featacc i) = 0
  | 0 => rfl
  | 1 => rfl
  | 2 => rfl
  | _ + 3 => rfl

/-! Command registers: no field is set, and neither ERR, OVR nor BUSY is (R63, R376, R468, R484). -/

theorem reset_omapcmd (die : Nat) : State.reset.dev.readReg (.omapcmd die) = 0 := by
  show (0 : Word) ||| BitVec.ofNat 64 (2 ^ 63 * bit false) = 0
  decide

theorem reset_sepurge (die : Nat) : State.reset.dev.readReg (.sepurge die) = 0 := by
  show BitVec.ofNat 64 (0 + 2 ^ 63 * bit false) = 0
  decide

theorem reset_keycmd : State.reset.dev.readReg .keycmd = 0 := by
  show (0 : Word) ||| BitVec.ofNat 64 (2 ^ 61 * bit false + 2 ^ 62 * bit false + 2 ^ 63 * bit false) = 0
  decide

theorem reset_qslotcmd (iod : Nat) : State.reset.dev.readReg (.qslotcmd iod) = 0 := by
  show (0 : Word) ||| BitVec.ofNat 64 (2 ^ 61 * bit false + 2 ^ 62 * bit false) = 0
  decide

end Sys2Proof.Laws

namespace Sys2Proof.Proofs

open Sys2Proof.Machine Sys2Proof.Claims Sys2Proof.Laws

/-- Settles O58: a register that nothing has written reads as its default; the counters of energy read as a difference from the last reset. -/
theorem resetValues : Obligations.ResetValues := by
  refine ⟨rfl, rfl, rfl, rfl, fun _ _ => rfl, fun _ => rfl, rfl, rfl, fun _ _ => rfl, reset_omapcmd, fun die i _ => reset_cplim die i, fun _ _ => rfl,
    fun _ _ => rfl, reset_seuse, fun die => ⟨rfl, rfl, reset_sepurge die⟩, rfl, rfl, rfl, fun _ => rfl, rfl, fun _ => rfl, fun _ => ⟨rfl, rfl, rfl, rfl, rfl⟩,
    fun _ _ => rfl, rfl, fun _ _ => ⟨rfl, rfl, rfl, rfl, rfl⟩, fun iod => ⟨rfl, reset_qslotcmd iod⟩, rfl, reset_featacc, rfl, rfl, fun _ => rfl, rfl, rfl, rfl,
    fun _ => rfl, reset_keycmd, rfl, rfl, fun b => ?_, fun die => ?_, fun _ _ => rfl⟩
  · exact BitVec.sub_self _
  · exact BitVec.sub_self _

end Sys2Proof.Proofs

/-! ## A step runs the decoded instruction (R85, R86, R98) -/

namespace Sys2Proof.Machine

theorem unstalled_run {i : Instr} {t : State} (h : t.dev.isStalled i t.dev.cursor = false) : unstalled (some (.run i t)) = some (.run i t) := by
  simp [unstalled, Option.filter, h]

section
variable {s : State} {c n : Nat} {k : Cast} {i : Instr}

/-- A thread within a block fires its next slot. -/
theorem State.nextOfThread_running {b : Block} (hfr : k.frozen = false) (happ : k.canAppend = false) (hdr : k.canDrain s.dev c = false)
    (hsw : k.canSwitch s.dev c = false) (hmode : k.th.mode = .running) (hblk : k.th.blk = some b) (hbeg : b.begun = true)
    (hnext : s.dev.slotNext s.mem c k b = some (n, i)) :
    s.nextOfThread c k = some (.run i { s with dev := { s.dev with cursor := some (c, n) } }) := by
  simp [State.nextOfThread, hfr, happ, hdr, hsw, hmode, hblk, hbeg, hnext]

/-- A tenant's turn goes to the first of its casts whose thread can act. -/
theorem State.nextOfTurn_thread {x : Nat × Nat} {pre rest : Tbl Cast} {t : State}
    (hmine : ((s.dev.casts.filter fun e => e.2.tenant == x.2).filter fun e => e.2.demand == x.1) = pre ++ (c, k) :: rest)
    (hpre : ∀ e ∈ pre, s.nextOfThread e.1 e.2 = none ∧ s.nextStore e.1 e.2 = none)
    (hthread : s.nextOfThread c k = some (.run i t)) (hgoes : t.dev.isStalled i t.dev.cursor = false) :
    s.nextOfTurn x = some (.run i { t with dev := t.dev.hadTurn x }) := by
  have hfirst := Laws.firstAct_skip (fun e : Nat × Cast => (s.nextOfThread e.1 e.2).or (s.nextStore e.1 e.2)) pre (c, k) rest (.run i t)
    (fun e he => by rw [(hpre e he).1, (hpre e he).2]; rfl) (by rw [hthread]; exact unstalled_run hgoes)
  simp only [State.nextOfTurn, hmine, hfirst]
  rfl

/-- Where nothing comes before the turns of classes 3 and 2, the first of them that can act does. -/
theorem State.nextAction_turn {turns after : List (Nat × Nat)} {x : Nat × Nat} {t : State}
    (hdue : firstDue s.dev.actsWhenDue s.dev.now s.dev.agenda = none) (hwalk : s.nextWalk = none) (hfw : firstAct s.nextOfFirmware [0, 1] = none)
    (hturns : s.dev.inTurn [3, 2] = turns ++ x :: after) (hearlier : ∀ y ∈ turns, s.nextOfTurn y = none)
    (hturn : s.nextOfTurn x = some (.run i t)) (hgoes : t.dev.isStalled i t.dev.cursor = false) : s.nextAction = .run i t := by
  have hnone : s.nextDue = none := by rw [State.nextDue, hdue]; rfl
  have hfirst := Laws.firstAct_skip s.nextOfTurn turns x after (.run i t) hearlier (by rw [hturn]; exact unstalled_run hgoes)
  rw [State.nextAction, hnone, hwalk, hfw, hturns, hfirst]
  rfl

/-- A package with a cast on it is not dead. -/
theorem State.dead_of_cast {e : Nat × Cast} (h : e ∈ s.dev.casts) : s.dead = false := by
  have hne : s.dev.casts.isEmpty = false := List.isEmpty_eq_false_iff.2 (List.ne_nil_of_mem h)
  simp [State.dead, hne]

/-- A step is the meaning of the instruction that comes next, unless it walked tables before a walker has (R55). -/
theorem step_run {t : State} (hlive : s.dead = false) (hact : s.nextAction = .run i t) : step s = afterStep (s.await i t (exec i t)) := by
  rw [step, hlive, hact]
  rfl

end

theorem State.await_next {s t u : State} {i : Instr} (h : t.dev.earlyWalk u.dev i t.dev.cursor = none) : s.await i t (.next u) = .next u := by
  simp only [State.await, h]

theorem State.await_stalled {s t u : State} {i : Instr} {w : Nat × Nat × Nat} (h : t.dev.earlyWalk u.dev i t.dev.cursor = some w) :
    s.await i t (.next u) = .next { s with dev := s.dev.stall i t.dev.cursor w } := by
  simp only [State.await, h]

/-! ### The words of a block (R7, R79) -/

theorem fetchWord_ok {m : Memory} {d e : Dev} {k : Cast} {va : Word} {w : Word32} (h : Dev.fetchWord m d k va = (.ok w, e)) :
    ∃ pa f, Dev.fetchPlace m d k va = (.ok pa, f) ∧ w = BitVec.ofNat 32 (leNat (Dev.read m f 0 pa 4).1) := by
  simp only [Dev.fetchWord] at h
  split at h
  · exact nomatch h
  · next pa f hp =>
    cases h
    exact ⟨pa, f, hp, rfl⟩

/-- Four bytes as a number, least significant first, are what the decoder reads in them. -/
theorem decode_fourBytes {bs : List Byte} (hlen : bs.length = 4) (rest : List Byte) :
    decode (bs ++ rest) = (decodeWord (BitVec.ofNat 32 (leNat bs))).map fun i => (i, rest) := by
  obtain ⟨b0, b1, b2, b3, rfl⟩ : ∃ b0 b1 b2 b3, bs = [b0, b1, b2, b3] := by
    match bs, hlen with
    | [b0, b1, b2, b3], _ => exact ⟨b0, b1, b2, b3, rfl⟩
  have hnum : leNat [b0, b1, b2, b3] = (b3 ++ b2 ++ b1 ++ b0 : BitVec 32).toNat := by
    simp only [leNat, Laws.toNat_append]
    omega
  rw [hnum, BitVec.ofNat_toNat, BitVec.setWidth_eq, ← Laws.leBytes_word b0 b1 b2 b3]
  exact Laws.decode_leBytes _ rest

/-- What a successful fetch has read and checked. -/
theorem fetchBlock_ok {m : Memory} {d e : Dev} {k : Cast} {h : Word32} {sl : List Slot} (hb : Dev.fetchBlock m d k = (.ok (h, sl), e)) :
    k.th.pc.toNat % 4 = 0 ∧ ∃ f ws sl', Dev.fetchWord m d k k.th.pc = (.ok h, f) ∧ Dev.fetchWords m k (headerSlots h) (k.th.pc + 4) f = (.ok ws, e) ∧
      checkSlots h 0 0 {} (patched k h (k.codeWordNo k.th.pc + 1) ws) = .ok sl' ∧ sl = withFeeders (allTargets sl') 0 sl' := by
  simp only [Dev.fetchBlock] at hb
  split at hb
  · exact nomatch hb
  · next halign =>
    split at hb
    · exact nomatch hb
    · next h' f hw =>
      split at hb
      · exact nomatch hb
      · split at hb
        · exact nomatch hb
        · next ws f' hws =>
          split at hb
          · exact nomatch hb
          · next sl' hcheck =>
            split at hb
            · exact nomatch hb
            · split at hb
              · cases hb
                exact ⟨Decidable.not_not.1 halign, f, ws, sl', hw, hws, hcheck, rfl⟩
              · exact nomatch hb

end Sys2Proof.Machine

namespace Sys2Proof.Proofs

open Sys2Proof.Machine Sys2Proof.Claims

/-- Settles O60: the scan of the clock comes to the thread of the cast (`nextOfThread_running`, `nextOfTurn_thread`, `nextAction_turn`); what
it runs is what the slot's word decodes to. -/
theorem stepRunsSlot : Obligations.StepRunsSlot := by
  refine ⟨?_, ?_, ?_⟩
  · intro s turns after x pre rest c n k b i hdue hwalk hfw hturns hearlier hmine hpre hfr happ hdr hsw hmode hblk hbeg hnext hgoes
    have hthread := State.nextOfThread_running hfr happ hdr hsw hmode hblk hbeg hnext
    have hact := State.nextAction_turn hdue hwalk hfw hturns hearlier (State.nextOfTurn_thread hmine hpre hthread hgoes) hgoes
    have hmem : (c, k) ∈ s.dev.casts := (List.mem_filter.1 (List.mem_filter.1 (hmine ▸ List.mem_append_right pre List.mem_cons_self)).1).1
    intro t
    have hstep : step s = afterStep (s.await i t (exec i t)) := step_run (State.dead_of_cast hmem) hact
    obtain ⟨sl, hsl, hidle, hinstr⟩ := Laws.slotNext_idle hnext
    obtain ⟨hlit, hword⟩ := Laws.instr_word hinstr
    refine ⟨fun u hu hw => ?_, fun u w hu hw => ?_, fun f hf => ?_, fun r hr => ?_, sl, hsl, hidle, hlit, hword, Laws.decodeWord_wf hword⟩
    · rw [hstep, hu, State.await_next hw]
      rfl
    · rw [hstep, hu, State.await_stalled hw]
      rfl
    · rw [hstep, hf]
      rfl
    · rw [hstep, hr]
      rfl
  · intro m d e k h sl hb
    obtain ⟨halign, f, ws, sl', hw, hws, hcheck, rfl⟩ := fetchBlock_ok hb
    obtain ⟨hwords, hdecode⟩ := Laws.checkSlots_words hcheck
    have hmap : (withFeeders (allTargets sl') 0 sl').map Slot.word = patched k h (k.codeWordNo k.th.pc + 1) ws := by
      rw [Laws.withFeeders_map, hwords]
    refine ⟨halign, ?_, ⟨f, ws, hw, hws, hmap⟩, fun y hy hlit => ?_⟩
    · rw [← List.length_map (f := Slot.word), hmap, Laws.patched_length, Laws.fetchWords_length hws]
    · obtain ⟨z, hz, hzw, hzl⟩ := Laws.withFeeders_lit hy
      rw [← hzw]
      exact hdecode z hz (hzl.trans hlit)
  · intro m d e k va w h
    obtain ⟨pa, f, hp, rfl⟩ := fetchWord_ok h
    exact ⟨pa, f, hp, decode_fourBytes (Laws.read_length ..)⟩

end Sys2Proof.Proofs

/-! ## The fetch of a block (R33, R90, R94, R98, R183, R186) -/

namespace Sys2Proof.Machine

open Sys2Proof.Claims

/-! ### What a fetch leaves of the device -/

theorem Dev.fetchPlace_tlbChange (m : Memory) (d : Dev) (k : Cast) (va : Word) : TlbChange d (Dev.fetchPlace m d k va).2 := by
  have htranslate := Dev.translate_tlbChange m d k.via k.tenant va .fetch
  unfold Dev.fetchPlace
  split
  · next h => rw [h] at htranslate; exact htranslate
  · next h =>
    rw [h] at htranslate
    split <;> exact htranslate

theorem Dev.fetchWord_tlbChange (m : Memory) (d : Dev) (k : Cast) (va : Word) : TlbChange d (Dev.fetchWord m d k va).2 := by
  have hplace := Dev.fetchPlace_tlbChange m d k va
  unfold Dev.fetchWord
  split
  · next h => rw [h] at hplace; exact hplace
  · next h => rw [h] at hplace; exact hplace.trans (Dev.read_tlbChange ..)

theorem Dev.fetchWords_tlbChange (m : Memory) (k : Cast) (n : Nat) (va : Word) (d : Dev) : TlbChange d (Dev.fetchWords m k n va d).2 := by
  induction n generalizing va d with
  | zero => exact TlbChange.refl d
  | succ n ih =>
    have hword := Dev.fetchWord_tlbChange m d k va
    unfold Dev.fetchWords
    split
    · next h => rw [h] at hword; exact hword
    · next e h =>
      rw [h] at hword
      have hwords := hword.trans (ih (va + 4) e)
      split
      · next h' => rw [h'] at hwords; exact hwords
      · next h' => rw [h'] at hwords; exact hwords

theorem Dev.fetchBlock_tlbChange (m : Memory) (d : Dev) (k : Cast) : TlbChange d (Dev.fetchBlock m d k).2 := by
  have hword := Dev.fetchWord_tlbChange m d k k.th.pc
  simp only [Dev.fetchBlock]
  split
  · exact TlbChange.refl d
  · split
    · next h => rw [h] at hword; exact hword
    · next hd e h =>
      rw [h] at hword
      have hwords := hword.trans (Dev.fetchWords_tlbChange m k (headerSlots hd) (k.th.pc + 4) e)
      split
      · exact hword
      · split
        · next h' => rw [h'] at hwords; exact hwords
        · next h' =>
          rw [h'] at hwords
          split
          · exact hwords
          · split
            · exact hwords
            · split <;> exact hwords

/-- A fetch takes no time. -/
theorem Dev.fetchBlock_now {m : Memory} {d e : Dev} {k : Cast} {x : Except FetchFault (Word32 × List Slot)}
    (h : Dev.fetchBlock m d k = (x, e)) : e.now = d.now := by
  have hchange := Dev.fetchBlock_tlbChange m d k
  rw [h] at hchange
  exact (Laws.tlbChange_keeps hchange).2.2.1

/-- Step 1: a block that is not aligned is not read. -/
theorem Dev.fetchBlock_misaligned {m : Memory} {d : Dev} {k : Cast} (h : k.th.pc.toNat % 4 ≠ 0) :
    Dev.fetchBlock m d k = (.error { cause := 0x07, i0 := k.th.pc }, d) := if_pos h

/-! ### What a fetch does with its block -/

section
variable {s : State} {c r : Nat} {k : Cast} {d : Dev}

theorem exec_blockFetch_fault {f : FetchFault} (hk : s.dev.casts.find c = some k) (hmode : k.th.mode = .fetch r)
    (hf : Dev.fetchBlock s.mem s.dev k = (.error f, d)) :
    exec (.blockFetch c) s = .next (trapped c
      { cause := f.cause, sub := f.sub, slot := f.slot, i0 := f.i0, i1 := f.i1, restart := k.th.pc } { s with dev := d }) := by
  simp only [exec, execBlockFetch, hk, hmode, hf]
  rfl

variable {h : Word32} {sl : List Slot}

/-- The block that a fetch puts in execution, not yet begun. -/
def fetchedBlock (k : Cast) (h : Word32) (sl : List Slot) (now : Nat) : Block :=
  { addr := k.th.pc, header := h, seq := k.th.seq, begun := false, slots := sl, sys := [], writes := [], effects := [], exit := none,
    clock := now, fires := 0, clash := none }

/-- The choice that a sound block is left with: an asynchronous cause of an earlier clock, the wait at an entry, or execution. -/
theorem exec_blockFetch_ok (hk : s.dev.casts.find c = some k) (hmode : k.th.mode = .fetch r)
    (hf : Dev.fetchBlock s.mem s.dev k = (.ok (h, sl), d)) :
    exec (.blockFetch c) s = .next (
      if !k.th.inh && k.th.asyncQ.head?.any (fun a => decide (a.at_ < s.dev.now)) then
        onThread c (fun t => { t with mode := .asyncNext }) { s with dev := d }
      else if k.th.waitsAtEntry h then onThread c (fun t => { t with mode := .atEntry, first := false }) { s with dev := d }
      else begun c (onThread c (fun t =>
        { t with mode := .running, first := false, blk := some (fetchedBlock k h sl d.now) }) { s with dev := d })) := by
  rw [← Dev.fetchBlock_now hf]
  simp only [exec, execBlockFetch, hk, hmode, hf]
  split
  · rfl
  · split <;> rfl

theorem no_cause_due {q : List AsyncCause} {now : Nat} (h : ∀ a rest, q = a :: rest → now ≤ a.at_) :
    q.head?.any (fun a => decide (a.at_ < now)) = false := by
  cases q with
  | nil => rfl
  | cons a rest => exact decide_eq_false (Nat.not_lt.2 (h a rest rfl))

end

/-! ### The beginning of a fetched block (R90, R94) -/

theorem Block.waitsOn_iff (b : Block) (regs : List Nat) :
    b.waitsOn regs = true ↔ ∃ sl ∈ b.slots, ∃ i, sl.instr = some i ∧ ((∃ r ta tb, i = .get r tb ta ∧ r.toNat ∈ regs) ∨
      ∃ t ∈ targetsOf i, Target.kind t = 5 ∧ Target.index t ∈ regs) := by
  simp only [Block.waitsOn, List.any_eq_true]
  refine exists_congr fun sl => and_congr_right fun _ => ?_
  cases sl.instr with
  | none => simp
  | some i =>
    simp only [Bool.or_eq_true, Option.some.injEq, exists_eq_left']
    refine or_congr ?_ (by simp)
    split
    · next r tb ta =>
      rw [List.contains_iff_mem]
      exact ⟨fun hr => ⟨r, ta, tb, rfl, hr⟩, fun ⟨_, _, _, e, hr⟩ => by cases e; exact hr⟩
    · next hne => exact ⟨fun e => absurd e Bool.false_ne_true, fun ⟨r, ta, tb, e, _⟩ => (hne r tb ta e).elim⟩

section
variable {s : State} {c : Nat} {k : Cast} {b : Block}

theorem begun_waits (hk : s.dev.casts.find c = some k) (hb : k.th.blk = some b) (hw : b.waitsOn k.th.pendingRegs = true) : begun c s = s := by
  simp [begun, Dev.tryBegin, hk, hb, hw]

theorem begun_begins (hk : s.dev.casts.find c = some k) (hb : k.th.blk = some b) (hnew : b.begun = false)
    (hw : b.waitsOn k.th.pendingRegs = false) :
    begun c s = onBlock c (fun b => { b with begun := true, sys := s.dev.sysSnapshot c k }) s := by
  simp only [begun, Dev.tryBegin, hk, hb, hnew, hw]
  rfl

end

end Sys2Proof.Machine

namespace Sys2Proof.Proofs

open Sys2Proof.Machine Sys2Proof.Claims

/-- Settles O29: the outcome of the checks (`exec_blockFetch_fault`, `exec_blockFetch_ok`), and when a block waits for a register
(`Block.waitsOn_iff`). -/
theorem blockFetch : Obligations.BlockFetch := by
  refine ⟨fun s c r k d hk hmode => ⟨fun halign => ?_, fun f hf => ?_, fun h sl hf => ?_⟩, fun s c k b hk hb hnew => ⟨fun hw => ?_, fun hw => ?_⟩⟩
  · exact exec_blockFetch_fault hk hmode (Dev.fetchBlock_misaligned halign)
  · exact exec_blockFetch_fault hk hmode hf
  · intro quiet
    rw [exec_blockFetch_ok hk hmode hf]
    refine ⟨fun hinh a rest hq hat => ?_, fun hinh hquiet htask hentry => ?_, fun hgoes => ?_⟩
    · simp [hinh, hq, hat]
    · have hwaits : k.th.waitsAtEntry h = true := by simpa [Thread.waitsAtEntry, hinh, htask, bitAt] using hentry
      simp [hinh, no_cause_due hquiet, hwaits]
    · have hdue : (!k.th.inh && k.th.asyncQ.head?.any fun a => decide (a.at_ < s.dev.now)) = false := by
        rcases hgoes with hinh | ⟨hquiet, _⟩
        · simp [hinh]
        · simp [no_cause_due hquiet]
      have hwaits : k.th.waitsAtEntry h = false := by
        rcases hgoes with hinh | ⟨_, htask | ⟨hentry, hfirst⟩⟩
        · simp [Thread.waitsAtEntry, hinh]
        · simp [Thread.waitsAtEntry, htask]
        · simp only [Thread.waitsAtEntry, bitAt, hentry, hfirst, Bool.or_self, Bool.false_and]
      rw [hdue, hwaits]
      rfl
  · exact begun_waits hk hb ((b.waitsOn_iff _).2 hw)
  · refine begun_begins hk hb hnew (Bool.eq_false_iff.2 fun hwaits => ?_)
    obtain ⟨sl, hsl, i, hi, ⟨r, ta, tb, hget, hr⟩ | ⟨t, ht, hkind, hix⟩⟩ := (b.waitsOn_iff _).1 hwaits
    · exact (hw sl hsl i hi).1 r ta tb hget hr
    · exact (hw sl hsl i hi).2 t ht hkind hix

end Sys2Proof.Proofs

/-! ## Configuration phases (R31, R149, R154 to R156) -/

namespace Sys2Proof.Machine

open Sys2Proof.Claims

/-! ### Alignment (R31, R155, R156) -/

section
variable {s : State} {c n : Nat} {k : Cast} {t : Token}

/-- The heads of some inputs are consumed, as an operation of the device. -/
theorem consumedAll_eq (c n : Nat) (ps : List InPort) (s : State) :
    ps.foldl (fun s p => consumed c n p s) s = { s with dev := ps.foldl (fun d p => d.takeHead c n p) s.dev } := Laws.foldl_consumed ..

/-- The context that a RECONF names (R20, R31). -/
theorem context_field (t : Token) : field t.ctl 0 4 = t.ctl.toNat % 16 := by simp [field]

theorem exec_reconfAlign (hk : s.dev.casts.find c = some k) (hown : k.ownAlign n = false) (hcan : k.canAlign s.dev c n = some t)
    (hname : tokName t = .reconf) : exec (.reconfAlign c n) s = .next
      (onSite c n (fun x => { x.applyArgs with ctx := t.ctl.toNat % 16, phase := x.phase + 1, ctl := none, el := x.el.realign })
        (emittedAll c n (fun w => reconfTok w (t.ctl.toNat % 16)) ((enabledInputs (k.site n).ecwNow).foldl (fun s p => consumed c n p s) s))) := by
  rw [consumedAll_eq, ← context_field]
  simp only [exec, execReconfAlign, Dev.alignAt, hk, hown, Dev.align, hcan, Option.filter, hname]
  rfl

theorem exec_drainAlign (hk : s.dev.casts.find c = some k) (hown : k.ownAlign n = false) (hcan : k.canAlign s.dev c n = some t)
    (hname : tokName t = .drain) : exec (.drainAlign c n) s = .next
      (onSite c n (fun x => { x with drained := true, ctl := none, el := x.el.realign })
        (emittedAll c n drainTok ((enabledInputs (k.site n).ecwNow).foldl (fun s p => consumed c n p s) s))) := by
  rw [consumedAll_eq]
  simp only [exec, execDrainAlign, Dev.alignAt, hk, hown, Dev.align, hcan, Option.filter, hname]
  rfl

end

/-! ### What DRAIN and CTX.SW append to the source links (R149, R155, R156) -/

/-- Tokens pushed to channels change the channels alone. -/
theorem Thread.pushAll_eq (tok : Token) (l : List Nat) (t : Thread) :
    l.foldl (fun t ch => t.pushToken ch tok) t = { t with push := (l.foldl (fun t ch => t.pushToken ch tok) t).push } := by
  induction l generalizing t with
  | nil => rfl
  | cons ch l ih => exact ih (t.pushToken ch tok)

theorem enabledInputs_eq_nil (ecw : BitVec 128) : enabledInputs ecw = [] ↔ (allInPorts.any fun p => ecwIn ecw p) = false := by
  simp [enabledInputs, List.filter_eq_nil_iff]

/-- What `Dev.appendSources` makes of its cast: a token on every source link that the context uses. -/
def Cast.withSources (d : Dev) (make : Bool → Token) (ctl : Ctl) (k : Cast) : Cast :=
  { k with
    th := ((List.range 8).filter fun ch => !(k.pushRoutes d k.th.ctx.toNat k.phase ch).isEmpty).foldl (fun t ch => t.pushToken ch (make false)) k.th
    ports := k.ports.map fun p => if p.isOut then p else { p with q := p.q ++ [make p.wide] }
    sites := k.sites.map fun e =>
      (e.1, if allInPorts.any fun p => ecwIn e.2.ecwNow p then e.2 else { e.2 with ctl := some ctl }) }

section
variable (d : Dev) (make : Bool → Token) (ctl : Ctl) (k : Cast)

@[simp] theorem Cast.withSources_phaseOps : (k.withSources d make ctl).th.phaseOps = k.th.phaseOps := by
  simp only [Cast.withSources]
  rw [Thread.pushAll_eq]

@[simp] theorem Cast.withSources_wait : (k.withSources d make ctl).th.wait = k.th.wait := Laws.wait_pushAll ..

theorem Cast.withSources_sites :
    (k.withSources d make ctl).sites = k.sites.map fun e => (e.1, if enabledInputs e.2.ecwNow = [] then { e.2 with ctl := some ctl } else e.2) := by
  simp only [Cast.withSources, enabledInputs_eq_nil, ite_not, ← Bool.not_eq_true]

theorem Cast.withSources_push {ch : Nat} (hch : ch < 8) : (k.withSources d make ctl).th.push.get [] ch =
    k.th.push.get [] ch ++ (if k.pushRoutes d k.th.ctx.toNat k.phase ch = [] then [] else [make false]) := by
  simp only [Cast.withSources]
  rw [Laws.get_pushAll _ _ _ _ (List.nodup_range.filter _)]
  simp [List.mem_filter, hch]

end

section
variable {s : State} {c id : Nat} {k : Cast} {rest : List PhaseOp}

/-- The token that DRAIN, or CTX.SW to a context, sends through the cast. -/
def phaseTok (sw : Option Nat) (wide : Bool) : Token :=
  match sw with
  | none => drainTok wide
  | some m => reconfTok wide m

/-- The same as the control network carries it. -/
def phaseCtl (sw : Option Nat) : Ctl :=
  match sw with
  | none => .drain
  | some m => .reconf m

theorem exec_drainAppend {sw : Option Nat} (hk : s.dev.casts.find c = some k)
    (hops : k.th.phaseOps = { sw := sw, id := id, appended := false } :: rest) (harm : k.th.armst ≠ 1) :
    exec (.drainAppend c) s =
      .next (onCast c (Cast.withSources (s.dev.modTh c Thread.markDrain) (phaseTok sw) (phaseCtl sw)) (onThread c Thread.markDrain s)) := by
  have happ : k.canAppend = true := by
    simp only [Cast.canAppend, hops, List.head?_cons, Option.any_some, Bool.not_false, Bool.true_and, bne_iff_ne]
    exact harm
  simp only [exec, execDrainAppend, hk, hops, happ]
  cases sw <;> rfl

/-! ### The end of DRAIN and CTX.SW (R155, R156) -/

theorem exec_drainComplete (hk : s.dev.casts.find c = some k) (hops : k.th.phaseOps = { sw := none, id := id, appended := true } :: rest)
    (hcan : k.canDrain s.dev c = true) : exec (.drainComplete c) s = .next
      (waitEnds c id (onThread c (fun t => { t with phaseOps := t.phaseOps.tail }) (onCast c Cast.endPhase s))) := by
  simp only [exec, execDrainComplete, hk, Thread.phaseOp, hops, List.head?_cons, Option.filter, hcan]
  rfl

theorem exec_ctxSwComplete {m : Nat} (hk : s.dev.casts.find c = some k)
    (hops : k.th.phaseOps = { sw := some m, id := id, appended := true } :: rest) (hcan : k.canSwitch s.dev c = true) :
    exec (.ctxSwComplete c) s = .next
      (waitEnds c id (onThread c (fun t => { t with phaseOps := t.phaseOps.tail })
        (onCast c (fun k => Cast.endPhase { k with phase := k.phase + 1, th := { k.th with ctx := BitVec.ofNat 2 m } }) s))) := by
  simp only [exec, execCtxSwComplete, hk, Thread.phaseOp, hops, List.head?_cons, Option.filter, hcan]
  rfl

end

/-- A descriptor latched changes the element alone. -/
theorem Site.latch_eq (parm : BitVec 2048) (x : Site) : x.latch parm = { x with el := (x.latch parm).el } := by
  simp only [Site.latch]
  split
  · split <;> rfl
  · split <;> rfl
  · rfl

/-- The end of a phase leaves no record of it at a site. -/
theorem Cast.endPhase_site {k : Cast} : ∀ e ∈ k.endPhase.sites,
    e.2.node = {} ∧ e.2.err = none ∧ e.2.drained = false ∧ e.2.wallSeen = 0 := by
  intro e h
  simp only [Cast.endPhase, Cast.latchAll, Cast.endRecords, List.map_map, List.mem_map, Function.comp_apply] at h
  obtain ⟨x, _, rfl⟩ := h
  dsimp only
  rw [Site.latch_eq]
  exact ⟨rfl, rfl, rfl, rfl⟩

end Sys2Proof.Machine

namespace Sys2Proof.Proofs

open Sys2Proof.Machine Sys2Proof.Claims

/-- Settles O33: alignment (`exec_reconfAlign`, `exec_drainAlign`), what `Cast.withSources` appends, and the ends of phases. -/
theorem phaseSteps : Obligations.PhaseSteps := by
  intro s c n k hk
  refine ⟨fun t hown hcan hname => exec_reconfAlign hk hown hcan hname, fun t hown hcan hname => exec_drainAlign hk hown hcan hname,
    fun sw id rest hops harm => ?_, fun id rest hops hcan => exec_drainComplete hk hops hcan,
    fun m id rest hops hcan => exec_ctxSwComplete hk hops hcan,
    ⟨rfl, rfl, rfl, rfl, Cast.endPhase_site⟩, fun ctx v => rfl⟩
  intro make ctl
  have hmake : make = phaseTok sw := by cases sw <;> rfl
  have hctl : ctl = phaseCtl sw := by cases sw <;> rfl
  rw [hmake, hctl]
  refine ⟨_, _, exec_drainAppend hk hops harm, rfl, rfl, Laws.find_modCast (Laws.find_modCast hk), ?_, fun w hw => ?_, rfl,
    Cast.withSources_sites .., fun ch hch => ?_⟩
  · simp [Thread.markDrain, hops]
  · rw [Cast.withSources_wait]
    simp only [Thread.markDrain, hw, Option.map_some]
    split <;> rfl
  · rw [Cast.withSources_push _ _ _ _ hch, Laws.pushRoutes_th s.dev (s.dev.modTh c Thread.markDrain) rfl k]
    rfl

end Sys2Proof.Proofs

/-! ## Tokens, arrivals and firings (R21, R22, R24, R25, R29, R97, R147, R153, R203, R205 to R209) -/

namespace Sys2Proof.Machine

open Sys2Proof.Claims

/-! ### Heads, sent tokens, ends of firings and waits (R24, R25, R29, R97) -/

theorem Site.modIn_congr {x : Site} {p : InPort} {f g : InQ → InQ} (h : f (x.inQ p) = g (x.inQ p)) : x.modIn p f = x.modIn p g := by
  cases p with
  | a => exact congrArg (fun q => { x with inA := q }) h
  | b => exact congrArg (fun q => { x with inB := q }) h
  | c => exact congrArg (fun q => { x with inC := q }) h
  | d => exact congrArg (fun q => { x with inD := q }) h

/-- The first token of an input is consumed where the site sees it: the slot of its phase is released. -/
theorem Site.take_first {x : Site} {p : InPort} {now ph : Nat} {t : Token} {rest : List (Nat × Token)} {occ : Tbl Nat} {fr se : Nat}
    (hph : ph ≤ x.phase) (hq : x.inQ p = { toks := (ph, t) :: rest, occ := occ, freed := fr, sent := se }) :
    x.take p now = x.modIn p fun _ => { toks := rest, occ := occ.set 0 ph (occ.get 0 ph - 1), freed := now + 1, sent := se } := by
  refine Site.modIn_congr ?_
  rw [hq]
  simp [takeFirst, hph]

/-- A waiting thread whose wait's event comes fetches in the next clock. -/
theorem Thread.wake_completeWait {t : Thread} {w : WaitSt} (now : Nat) (hwait : t.wait = some w) (hsaved : t.saved = none)
    (hmode : t.mode = .waiting) (hyield : t.yieldNext = false) :
    (t.completeWait w.id).wake now = { t with wait := none, mode := .fetch (now + 1) } := by
  simp [Thread.completeWait, Thread.wake, Thread.goOn, Thread.waitOver, hwait, hsaved, hmode, hyield]

section
variable {s : State} {c n : Nat} {k : Cast}

/-- A token sent on an output is due no earlier than `latency` clocks from now, nor than the output's tokens before it. -/
theorem emitted_eq (hk : s.dev.casts.find c = some k) (o : OutPort) (latency : Nat) (t : Token) :
    emitted c n o latency t s = (k.routes s.dev (k.site n).ctx (k.site n).phase n o t.wide).foldl
      (fun s' r => sentOn c (max (s.dev.now + latency) ((k.site n).due o) - s.dev.now) t r s')
      (onSite c n (fun x => x.setDue o (max (s.dev.now + latency) ((k.site n).due o) + 1)) s) := by
  simp only [emitted, Dev.emit, hk, Dev.emitOn]
  exact Laws.sendAll_eq ..

/-- Where no node governs the element, the end of a firing leaves its clock alone. -/
theorem firingEnds_free {k' : Cast} (hk : (onSite c n (fun x => { x with lastFire := s.dev.now + 1 }) s).dev.casts.find c = some k')
    (hfree : k'.governed n = false) : firingEnds c n s = onSite c n (fun x => { x with lastFire := s.dev.now + 1 }) s := by
  replace hk : (s.dev.modSite c n fun x => { x with lastFire := s.dev.now + 1 }).casts.find c = some k' := hk
  simp only [firingEnds, Dev.endFiring, hk, hfree]
  rfl

/-- A site of a cast after its change. -/
theorem find_modSite (hk : s.dev.casts.find c = some k) (f : Site → Site) : (s.dev.modSite c n f).casts.find c = some (k.modSite n f) :=
  Laws.find_modCast hk

theorem find_onNode (hk : s.dev.casts.find c = some k) (f : Node → Node) :
    (onNode c n f s).dev.casts.find c = some (k.modSite n fun x => { x with node := f x.node }) := Laws.find_modCast hk

/-! ### Acceptance (R21, R147, R153) -/

/-- A token at a site that is no STREAM node joins its link as the element takes it. -/
theorem exec_tokenAccept_input (hk : s.dev.casts.find c = some k) (p : InPort) (ph : Nat) (t : Token) (hkind : scwKind (k.site n).scwNow ≠ 3) :
    exec (.tokenAccept c (.input n p ph) t) s = .next
      (onSite c n (fun x => x.modIn p fun q => { q with toks := q.toks ++ [(ph, k.convert n t)] }) s) := by
  have hkind' : scwKind ((k.modSite n fun x => x.modIn p fun q => { q with toks := q.toks ++ [(ph, k.convert n t)] }).site n).scwNow ≠ 3 := by
    rwa [Laws.site_modSite, Laws.modIn_scw]
  simp only [exec, execTokenAccept, hk]
  rw [Laws.streamRecord_id (find_modSite hk _) hkind']
  rfl

/-- Reserved kinds and a RECONF of no context become ERROR tokens; no other token changes (R21). -/
theorem Cast.convert_reserved (k : Cast) (n : Nat) {t : Token} (h : tokName t = .reserved) :
    k.convert n t = errorTok t.wide (errorRec k n (k.site n).ctx 0x01 (tokKind t)) := by
  simp only [Cast.convert, h]

theorem Cast.convert_reconf (k : Cast) (n : Nat) {t : Token} (h : tokName t = .reconf) :
    k.convert n t = if 3 < t.ctl.toNat % 16 then errorTok t.wide (errorRec k n (k.site n).ctx 0x03 0) else t := by
  simp only [Cast.convert, h, context_field]

theorem Cast.convert_plain (k : Cast) (n : Nat) {t : Token} (h : tokName t = .data ∨ tokName t = .drain ∨ tokName t = .error) :
    k.convert n t = t := by
  rcases h with h | h | h <;> simp only [Cast.convert, h]

/-- RECONF and DRAIN are absorbed at a pop channel. -/
theorem Dev.popAccept_control (d : Dev) (c ch : Nat) {t : Token} (h : tokName t = .reconf ∨ tokName t = .drain) :
    d.popAccept c ch t = (d.modTh c fun th => { th with popOcc := th.popOcc.set 0 ch (th.popOcc.get 0 ch - 1) }).modCast c
      fun k => { k with popAbsorbed := k.popAbsorbed ||| BitVec.ofNat 8 (2 ^ ch) } := by
  rcases h with h | h <;> simp only [Dev.popAccept, h]

/-- A thread with one more token at a pop channel. -/
def Thread.received (ch : Nat) (tok : Token) (t : Thread) : Thread := { t with pop := t.pop.set [] ch (t.pop.get [] ch ++ [tok]) }

/-- A token for a pop stands at its channel, and the pops that are outstanding are served. -/
theorem Dev.popAccept_token (d : Dev) (c ch : Nat) {t : Token} (h : tokName t = .data ∨ tokName t = .stop ∨ tokName t = .done ∨ tokName t = .index) :
    d.popAccept c ch t = (d.modTh c (Thread.received ch t)).servePops c := by
  rcases h with h | h | h | h <;> simp only [Dev.popAccept, h] <;> rfl

/-- Where no pop is outstanding, tokens can only end a wait. -/
theorem Dev.servePops_none {d : Dev} (hk : d.casts.find c = some k) (hpops : k.th.pops = []) :
    d.servePops c = d.modTh c fun _ => ({ k.th with pops := [] } : Thread).wake d.now := by
  simp only [Dev.servePops, hk, hpops, Thread.servePops, List.foldl_nil, Dev.modTh_modTh]
  rfl

/-- A thread that goes on keeps what it has received, and its registers. -/
theorem Thread.wake_keeps (t : Thread) (now : Nat) : (t.wake now).pop = t.pop ∧ (t.wake now).regs = t.regs := by
  simp only [Thread.wake, Thread.goOn]
  split
  · split
    · split <;> exact ⟨rfl, rfl⟩
    · exact ⟨rfl, rfl⟩
  · exact ⟨rfl, rfl⟩

/-! ### The armature (R205 to R209) -/

theorem exec_pulseArrive_permit (hk : s.dev.casts.find c = some k) (child : Nat)
    (h : (k.site n).node.running = true ∨ 0 < (k.site n).node.permits) :
    exec (.pulseArrive c n false child) s = .next (onNode c n (fun x => { x with permits := x.permits + 1 }) s) := by
  have hcount : ((k.site n).node.running || decide (0 < (k.site n).node.permits)) = true := by simpa using h
  simp only [exec, execPulseArrive, Dev.permit, hk, hcount]
  rfl

/-- A pulse within the cast's rows is due 2 + h + 8 s clocks after its event (R209). -/
theorem Dev.pulse_posted {d : Dev} (hk : d.casts.find c = some k) (m child : Nat) (isDone : Bool) (hrow : k.goneRow m = false) :
    d.pulse c n m isDone child = d.post (2 + k.way n m) (.pulseArrive c m isDone child) := by
  simp only [Dev.pulse, hk, hrow]
  rfl

/-- With a child's done a SEQ node sends the next child its permit. -/
theorem exec_pulseArrive_seq {child m : Nat} (hk : s.dev.casts.find c = some k) (hrun : (k.site n).node.running = true)
    (hkind : scwKind (k.site n).scwNow = 1) (hm : (k.children n)[child + 1]? = some m) (hrow : k.goneRow m = false) :
    exec (.pulseArrive c n true child) s = .next (later (2 + k.way n m) (.pulseArrive c m false 0)
      (onNode c n (fun x => { x with child := child + 1 }) s)) := by
  obtain ⟨hlt, _⟩ := List.getElem?_eq_some_iff.1 hm
  have hm' : (k.children n).getD (child + 1) 0 = m := by rw [List.getD_eq_getElem?_getD, hm, Option.getD_some]
  simp only [exec, execPulseArrive, Dev.childDone, hk, hrun, hkind, hlt, hm']
  exact congrArg (fun d => Host.Outcome.next { s with dev := d }) (Dev.pulse_posted (find_modSite hk _) m 0 false hrow)

/-- A governed element's node is a SEQ or PIPE node without children. -/
theorem Cast.governed_iff (k : Cast) (n : Nat) :
    k.governed n = true ↔ (scwKind (k.site n).scwNow = 1 ∨ scwKind (k.site n).scwNow = 2) ∧ k.children n = [] := by
  simp [Cast.governed, List.isEmpty_iff]

/-- A change of the site that leaves its node's word and its context leaves the element governed. -/
theorem Cast.governed_modSite {f : Site → Site} (hscw : (f (k.site n)).scw = (k.site n).scw) (hctx : (f (k.site n)).ctx = (k.site n).ctx)
    (h : k.governed n = true) : (k.modSite n f).governed n = true := by
  obtain ⟨hkind, hnone⟩ := (k.governed_iff n).1 h
  have hnow : ((k.modSite n f).site n).scwNow = (k.site n).scwNow := by rw [Laws.site_modSite, Site.scwNow, hscw, hctx, Site.scwNow]
  refine (Cast.governed_iff ..).2 ⟨by rwa [hnow], Laws.children_mod k n f ⟨hscw, hctx⟩ ?_ hnone⟩
  rcases hkind with hkind | hkind <;> simp [hkind]

/-- An iteration of a governed element has no permits to send. -/
theorem Dev.startIteration_governed {d : Dev} (hk : d.casts.find c = some k) (h : k.governed n = true) : d.startIteration c n = d := by
  obtain ⟨hkind | hkind, hnone⟩ := (k.governed_iff n).1 h <;> simp [Dev.startIteration, hk, hkind, hnone]

/-- The constants that wait at a site take effect where an iteration of k0 begins (R154). -/
def constantsTake (c n : Nat) (node : Node) (s : State) : State :=
  { s with dev := if node.iter % node.inner = 0 then s.dev.modSite c n Site.applyArgs else s.dev }

theorem constantsTake_frame (c n : Nat) (node : Node) (s : State) :
    (constantsTake c n node s).dev.agenda = s.dev.agenda ∧ (constantsTake c n node s).dev.now = s.dev.now := by
  unfold constantsTake
  dsimp only
  split <;> exact ⟨rfl, rfl⟩

theorem constantsTake_keeps (hk : s.dev.casts.find c = some k) (node : Node) : ∃ k', (constantsTake c n node s).dev.casts.find c = some k' ∧
    (k'.site n).node = (k.site n).node ∧ (k.governed n = true → k'.governed n = true) := by
  unfold constantsTake
  dsimp only
  split
  · refine ⟨_, find_modSite hk Site.applyArgs, ?_, Cast.governed_modSite ?_ ?_⟩
    · rw [Laws.site_modSite, Laws.applyArgs_node]
    · exact (Laws.foldK_scw (k.site n).argWait (k.site n)).1
    · exact (Laws.foldK_scw (k.site n).argWait (k.site n)).2.1
  · exact ⟨k, hk, rfl, id⟩

theorem exec_nodeIterationBegin_governed (hk : s.dev.casts.find c = some k) (hrun : (k.site n).node.running = true) (h : k.governed n = true) :
    exec (.nodeIterationBegin c n) s =
      .next (onNode c n (fun x => { x with fired := false, openAt := s.dev.now }) (constantsTake c n (k.site n).node s)) := by
  obtain ⟨k', hk', _, hgov⟩ := constantsTake_keeps (n := n) hk (k.site n).node
  have hstart := Dev.startIteration_governed
    (find_onNode hk' fun x => { x with fired := false, openAt := (constantsTake c n (k.site n).node s).dev.now })
    (Cast.governed_modSite rfl rfl (hgov h))
  rw [← (constantsTake_frame c n (k.site n).node s).2]
  simp only [exec, execNodeIterationBegin, hk, hrun, if_true]
  exact congrArg (fun d => Host.Outcome.next { s with dev := d }) hstart

/-! ### Firings (R22, R25, R203, R207) -/

theorem exec_errorTokenForward {p : InPort} {t : Token} (hk : s.dev.casts.find c = some k) (herr : (k.site n).errorHead = some (p, t))
    (hcan : k.canForwardError s.dev n = true) : exec (.errorTokenForward c n) s = .next
      (clockUsed c n (onSite c n (fun x => { x with el := x.el.errored p })
        (emittedAll c n (fun w => errorTok w (tokWord t)) (consumed c n p s)))) := by
  simp only [exec, execErrorTokenForward, Dev.forwardError, hk, herr, hcan]
  rfl

theorem exec_selectorFire_send {p : InPort} {t : Token} {rs : List Route} (hk : s.dev.casts.find c = some k) (hcan : k.canSelect s.dev n = true)
    (hact : k.selAct s.dev n = .send p t rs) : exec (.selectorFire c n) s = .next
      (firingEnds c n { roundBegins c n s with dev := (((roundBegins c n s).dev.takeHead c n .a).takeHead c n p).emitOn c n .y 0 t rs }) := by
  have hact' : k.selAct (s.dev.beginFiring c n) n = .send p t rs := (Laws.selAct_walls s.dev (s.dev.beginFiring c n) rfl k n).trans hact
  simp only [exec, execSelectorFire, Dev.selectorFire, hk, hcan, hact']
  rfl

/-- The step by which an element of a kind fires (R190). -/
def fireStep (kind c n : Nat) : Instr :=
  match kind with
  | 0 => .veFire c n
  | 1 => .mxRowFire c n
  | 2 => .sbFire c n
  | 3 => .soStep c n
  | 4 => .cxFire c n
  | _ => .selectorFire c n

theorem exec_elementFire (hk : s.dev.casts.find c = some k) :
    exec (.elementFire c n) s = exec (fireStep (ecwKind (k.site n).ecwNow) c n) s := by
  show execElementFire c n s = _
  simp only [execElementFire, hk]
  generalize ecwKind (k.site n).ecwNow = kind
  match kind with
  | 0 | 1 | 2 | 3 | 4 | _ + 5 => rfl

theorem fireStep_next (kind c n : Nat) (s : State) : ∃ t, exec (fireStep kind c n) s = .next t := by
  unfold fireStep
  split <;> exact ⟨_, rfl⟩

theorem fireStep_selector {kind : Nat} (c n : Nat) (h : 5 ≤ kind) : fireStep kind c n = .selectorFire c n := by
  obtain ⟨m, rfl⟩ := Nat.exists_eq_add_of_le' h
  rfl

end

end Sys2Proof.Machine

namespace Sys2Proof.Proofs

open Sys2Proof.Machine Sys2Proof.Claims

/-- Settles O32: heads (`Site.take_first`), sent tokens (`emitted_eq`), ends of firings and of waits. -/
theorem tokensMove : Obligations.TokensMove := by
  intro s c n k hk
  refine ⟨fun x now ph t rest occ fr se hph => ?_, fun lat t => emitted_eq hk .y lat t, fun lat t => emitted_eq hk .z lat t,
    fun k' hk' hfree => firingEnds_free hk' hfree,
    fun t now w hwait hsaved hmode hyield => Thread.wake_completeWait now hwait hsaved hmode hyield⟩
  exact ⟨fun hq => Site.take_first (p := .a) hph hq, fun hq => Site.take_first (p := .b) hph hq,
    fun hq => Site.take_first (p := .c) hph hq, fun hq => Site.take_first (p := .d) hph hq⟩

/-- Settles O34: acceptance by kind of destination (`exec_tokenAccept_input`, `Dev.popAccept_control`, `Dev.popAccept_token`), and the
armature's pulses (`exec_pulseArrive_permit`, `exec_pulseArrive_seq`, `exec_nodeIterationBegin_governed`). -/
theorem arrivals : Obligations.Arrivals := by
  intro s c n k hk
  have haccept : ∀ ch t, exec (.tokenAccept c (.pop ch) t) s = .next { s with dev := s.dev.popAccept c ch t } := fun ch t => by
    simp only [exec, execTokenAccept, hk]
  refine ⟨fun p ph t hkind => exec_tokenAccept_input hk p ph t hkind, fun t => ⟨k.convert_reserved n, fun hname hctx => ?_, fun hname => ?_⟩,
    fun ix t => ?_, fun ch t hname => ?_, fun ch t hname hpops => ?_, fun child h => exec_pulseArrive_permit hk child h,
    fun child m hrun hkind hm hrow => exec_pulseArrive_seq hk hrun hkind hm hrow, fun hrun _ hgov => ?_⟩
  · rw [k.convert_reconf n hname, if_pos hctx]
  · rcases hname with hname | hname | hname | ⟨hname, hctx⟩
    · exact k.convert_plain n (.inl hname)
    · exact k.convert_plain n (.inr (.inl hname))
    · exact k.convert_plain n (.inr (.inr hname))
    · rw [k.convert_reconf n hname, if_neg (Nat.not_lt.2 hctx)]
  · simp only [exec, execTokenAccept, hk]
    rfl
  · rw [haccept, Dev.popAccept_control _ _ _ hname]
    rfl
  · rw [haccept, Dev.popAccept_token _ _ _ hname]
    have hk' : (s.dev.modTh c (Thread.received ch t)).casts.find c = some { k with th := k.th.received ch t } := Laws.find_modCast hk
    rw [Dev.servePops_none hk' hpops]
    obtain ⟨hpop, hregs⟩ := Thread.wake_keeps { k.th.received ch t with pops := [] } s.dev.now
    exact ⟨_, _, rfl, rfl, rfl, Laws.find_modCast hk', hpop, hregs⟩
  · obtain ⟨k', hk', hnode, _⟩ := constantsTake_keeps (n := n) hk (k.site n).node
    refine ⟨_, _, exec_nodeIterationBegin_governed hk hrun hgov, rfl, (constantsTake_frame ..).1, find_onNode hk' _, ?_, ?_, ?_⟩ <;> rw [Laws.site_modSite]
    exact (congrArg Node.running hnode).trans hrun

/-- Settles O35: the forwarding of an ERROR token (`exec_errorTokenForward`), a selector's firing (`exec_selectorFire_send`), and the step by
which each kind of element fires (`exec_elementFire`). -/
theorem firings : Obligations.Firings := by
  intro s c n k hk
  refine ⟨fun p t herr hcan => exec_errorTokenForward hk herr hcan, fun hcan p t rs hact => exec_selectorFire_send hk hcan hact, ?_⟩
  obtain ⟨t, ht⟩ := fireStep_next (ecwKind (k.site n).ecwNow) c n s
  have hfire : ∀ kind, ecwKind (k.site n).ecwNow = kind → exec (fireStep kind c n) s = .next t := fun _ e => e ▸ ht
  exact ⟨t, (exec_elementFire hk).trans ht, hfire 0, hfire 1, hfire 2, hfire 3, hfire 4, fun h => fireStep_selector c n h ▸ ht⟩

end Sys2Proof.Proofs

/-! ## Stores and loads of global memory (R58, R91, R132 to R136) -/

namespace Sys2Proof.Laws

open Sys2Proof.Machine Sys2Proof.Claims

/-! ### Stores: ST, STX and ST.REL each make one store when they fire (R134, R135) -/

/-- The effect that a store of `v` to a translated address records. -/
def storeEffect (sh : Shot) (q : Placed) (z : Size) (v : Word) (release : Bool) : Effect :=
  .store { agent := .thread sh.c, tenant := sh.k.tenant, pa := q.pa, write := true, len := width z, data := leBytes (width z) v.toNat,
           rpl := q.rpl, id := sh.n } release

section
variable {m : Memory} {d e : Dev} {sh : Shot} {va : Word} {z : Size}

theorem storeTo_misaligned (hal : va.toNat % width z ≠ 0) (v : Word) (release : Bool) :
    d.storeTo m sh va z v release = d.slotTrap sh 0x07 va 0 := by
  rw [width_bytes] at hal
  rw [Dev.storeTo, if_pos hal]

theorem storeTo_translated {q : Placed} (hal : va.toNat % width z = 0) (ht : Dev.translate m d sh.k.via sh.k.tenant va .store = (.ok q, e))
    (v : Word) (release : Bool) : d.storeTo m sh va z v release = e.effect sh (storeEffect sh q z v release) := by
  rw [width_bytes] at hal
  rw [Dev.storeTo, if_neg (not_not_intro hal), ht, storeEffect, width_bytes]

theorem storeTo_untranslated {f : XFault} (hal : va.toNat % width z = 0)
    (ht : Dev.translate m d sh.k.via sh.k.tenant va .store = (.error f, e)) (v : Word) (release : Bool) :
    d.storeTo m sh va z v release = e.slotTrap sh 0x08 va (f.syndrome .store 0 sh.k.tenant) (sub := BitVec.ofNat 8 f.sub) := by
  rw [width_bytes] at hal
  rw [Dev.storeTo, if_neg (not_not_intro hal), ht]

end

/-- In a slot that fires with the operands `u`, the instruction stores `v sh` at `va sh`. -/
def StoresAt (i : Instr) (u : Uses) (va : Shot → Word) (z : Size) (v : Shot → Word) (release : Bool) : Prop :=
  usesOf i = u ∧ ∀ s, exec i s = fire i s fun d sh => d.storeTo s.mem sh (va sh) z (v sh) release

theorem st_storesAt (p : Pred) (z : Size) (o : BitVec 20) :
    StoresAt (.st p z o) ⟨true, true, false⟩ (fun sh => sh.a + o.signExtend 64 * BitVec.ofNat 64 (width z)) z Shot.b false := by
  rw [width_bytes]
  exact ⟨rfl, fun _ => rfl⟩

theorem stx_storesAt (p : Pred) (z : Size) : StoresAt (.stx p z) ⟨true, true, true⟩ (fun sh => sh.a + sh.b) z Shot.z false :=
  ⟨rfl, fun _ => rfl⟩

theorem stRel_storesAt (p : Pred) (z : Size) (sc : Scope) : StoresAt (.stRel p z sc) ⟨true, true, false⟩ Shot.a z Shot.b true :=
  ⟨rfl, fun _ => rfl⟩

namespace StoresAt

variable {i : Instr} {u : Uses} {va : Shot → Word} {z : Size} {v : Shot → Word} {release : Bool} {s : State} {sh : Shot}

theorem translated (hi : StoresAt i u va z v release) (h : Fires (predOf i) u s sh) (hal : (va sh).toNat % width z = 0) {q : Placed} {d : Dev}
    (ht : Translates s sh (va sh) .store q d) : exec i s = .next (Effects { s with dev := d } sh (storeEffect sh q z (v sh) release)) := by
  obtain ⟨hu, hexec⟩ := hi
  rw [hexec]
  exact fire_effect h rfl rfl hu (storeTo_translated hal ht _ _)

theorem misaligned (hi : StoresAt i u va z v release) (h : Fires (predOf i) u s sh) (hal : (va sh).toNat % width z ≠ 0) :
    exec i s = .next (Traps (seen s) sh 0x07 (va sh) 0) := by
  obtain ⟨hu, hexec⟩ := hi
  rw [hexec]
  exact fire_traps h rfl hu (storeTo_misaligned hal _ _)

theorem untranslated (hi : StoresAt i u va z v release) (h : Fires (predOf i) u s sh) (hal : (va sh).toNat % width z = 0) {f : XFault}
    {d : Dev} (ht : Faults s sh (va sh) .store f d) : exec i s = .next (XlatTraps { s with dev := d } sh (va sh) .store f) := by
  obtain ⟨hu, hexec⟩ := hi
  rw [hexec]
  exact fire_translation_trap h rfl hu (storeTo_untranslated hal ht _ _)

end StoresAt

/-! ### Loads (R91, R135, R136) -/

theorem tlbChange_of_translates {s : State} {sh : Shot} {va : Word} {acc : Access} {q : Placed} {d : Dev} (h : Translates s sh va acc q d) :
    TlbChange (seen s).dev d := by
  have hchange := Dev.translate_tlbChange s.mem (seen s).dev sh.k.via sh.k.tenant va acc
  unfold Translates at h
  rwa [h] at hchange

/-- The slot of a load that nothing holds back checks its address and reads. -/
theorem load_fires {i : Instr} {u : Uses} {va : Word} {n : Nat} {sg : Bool} {s : State} {sh : Shot}
    (hform : loadForm i sh.a sh.b = some (u, va, n, sg)) (hheld : (seen s).dev.held s.mem sh.k sh.blk sh.n i sh.a sh.b = false) :
    ∃ kind f, kindForm kind = (n, sg) ∧ usesOf i = u ∧ exec i s = fire i s f ∧ f (seen s).dev sh = (seen s).dev.loadFrom s.mem sh va kind := by
  obtain ⟨kind, hspan, hkind, hu, hexec⟩ := loadForm_shape hform
  refine ⟨kind, _, hkind, hu, hexec s, ?_⟩
  rw [hheld, hspan, if_neg Bool.false_ne_true]

/-- The slot `n` of a block has issued its load (R442). -/
def loadIssued (va : Word) (pa now n : Nat) (b : Block) : Block :=
  { b with slots := b.slots.modify n fun sl => { sl with load := some { va := va, pa := pa, issued := now } } }

/-- The device with the slot's load issued. -/
def withLoad (d : Dev) (sh : Shot) (va : Word) (pa : Nat) : Dev := d.modTh sh.c fun t => t.modBlk (loadIssued va pa d.now sh.n)

theorem read_withLoad (m : Memory) (d : Dev) (sh : Shot) (va : Word) (pa tenant n : Nat) :
    (Dev.read m (withLoad d sh va pa) tenant pa n).1 = (Dev.read m d tenant pa n).1 :=
  Dev.read_congr m tenant pa n rfl rfl rfl rfl rfl rfl rfl rfl

/-- The delivery of a load that has been issued puts its step on the agenda, and of the casts changes the slot's block alone. -/
theorem deliver_withLoad (d : Dev) (sh : Shot) (va : Word) (pa latency : Nat) (v : Option Word) :
    let t := (withLoad d sh va pa).deliver sh latency v
    t.agenda = agendaInsert (d.now + latency) (.slotResultDeliver sh.c sh.blk.seq sh.n v) d.agenda ∧
      t.casts = (d.modTh sh.c fun t => t.modBlk fun b => placed d.now sh.n .fired (loadIssued va pa d.now sh.n b)).casts := by
  refine ⟨rfl, ?_⟩
  rw [placed_eq]
  simp only [withLoad, Dev.deliver, Dev.fireAs, Dev.post_casts, Dev.modTh_modTh, Thread.modBlk_modBlk]
  rfl

/-- What the thread's own stores give of byte `j` of a load (R91, R136). -/
def ownByte (sh : Shot) (q : Placed) (j : Nat) : Option Byte := sh.k.th.forward (lowerEffects sh) (q.pa + j)

/-- The `n` bytes of a load: of each what the thread's own stores give, else what memory does. -/
def loadBytes (m : Memory) (d : Dev) (sh : Shot) (q : Placed) (n : Nat) : List Byte :=
  (List.range n).map fun j => (ownByte sh q j).getD ((Dev.read m d q.tid (q.readPa sh.k.die) n).1.getD j 0)

theorem map_getD_of_all_isSome {own : Nat → Option Byte} {n : Nat} (h : ((List.range n).map own).all Option.isSome = true) (other : Nat → Byte) :
    ((List.range n).map own).map (fun o => o.getD 0) = (List.range n).map fun j => (own j).getD (other j) := by
  simp only [List.all_map, List.all_eq_true, Function.comp_apply] at h
  rw [List.map_map]
  refine List.map_congr_left fun j hj => ?_
  obtain ⟨b, hb⟩ := Option.isSome_iff_exists.1 (h j hj)
  simp only [Function.comp_apply, hb, Option.getD_some]

theorem map_getD_zip (own : Nat → Option Byte) {bs : List Byte} {n : Nat} (hn : bs.length = n) :
    (((List.range n).map own).zip bs).map (fun q => q.1.getD q.2) = (List.range n).map fun j => (own j).getD (bs.getD j 0) := by
  subst hn
  apply List.ext_getElem
  · simp
  · intro j _ hj
    have hlt : j < bs.length := by simpa using hj
    simp [List.getD_eq_getElem?_getD, List.getElem?_eq_getElem hlt]

section
variable {m : Memory} {d e : Dev} {sh : Shot} {va : Word} {kind : LoadKind}

theorem loadFrom_misaligned (hal : va.toNat % LoadKind.bytes kind ≠ 0) : d.loadFrom m sh va kind = d.slotTrap sh 0x07 va 0 := by
  rw [Dev.loadFrom, if_pos hal]

theorem loadFrom_untranslated {f : XFault} (hal : va.toNat % LoadKind.bytes kind = 0)
    (ht : Dev.translate m d sh.k.via sh.k.tenant va .load = (.error f, e)) :
    d.loadFrom m sh va kind = e.slotTrap sh 0x08 va (f.syndrome .load 0 sh.k.tenant) (sub := BitVec.ofNat 8 f.sub) := by
  rw [Dev.loadFrom, if_neg (not_not_intro hal), ht]

variable {q : Placed} (hal : va.toNat % LoadKind.bytes kind = 0) (ht : Dev.translate m d sh.k.via sh.k.tenant va .load = (.ok q, e))
include hal ht

/-- A load whose bytes all come from the thread's own stores takes the 28 clocks of one that hits (log entry 107). -/
theorem loadFrom_own (hown : ((List.range (LoadKind.bytes kind)).map (ownByte sh q)).all Option.isSome = true) :
    d.loadFrom m sh va kind =
      (withLoad e sh va (q.readPa sh.k.die)).deliver sh 28 (some (extend kind (wordOf (loadBytes m e sh q (LoadKind.bytes kind))))) := by
  rw [Dev.loadFrom, if_neg (not_not_intro hal), ht, loadBytes, ← map_getD_of_all_isSome hown]
  exact if_pos hown

theorem loadFrom_memory (hown : ¬ ((List.range (LoadKind.bytes kind)).map (ownByte sh q)).all Option.isSome = true)
    (hlink : paRegion (q.readPa sh.k.die) = 1 → e.linkUp (q.readPa sh.k.die) = true) :
    let r := Dev.read m (withLoad e sh va (q.readPa sh.k.die)) q.tid (q.readPa sh.k.die) (LoadKind.bytes kind)
    d.loadFrom m sh va kind =
      (r.2.deliver sh (28 + Config.openDelay r.2.free) (some (extend kind (wordOf (loadBytes m e sh q (LoadKind.bytes kind)))))).tickFree := by
  intro r
  have hup : ¬ (paRegion (q.readPa sh.k.die) = 1 ∧ !(withLoad e sh va (q.readPa sh.k.die)).linkUp (q.readPa sh.k.die)) := by
    rintro ⟨hhost, hdown⟩
    rw [show (withLoad e sh va (q.readPa sh.k.die)).linkUp _ = true from hlink hhost] at hdown
    exact Bool.false_ne_true hdown
  rw [Dev.loadFrom, if_neg (not_not_intro hal), ht, loadBytes, ← read_withLoad m e sh va, ← map_getD_zip (ownByte sh q) (read_length ..)]
  exact (if_neg hown).trans (if_neg hup)

/-- A load whose address is aligned and translated delivers its bytes after 28 clocks or more (R135). -/
theorem loadFrom_delivers (hlink : paRegion (q.readPa sh.k.die) = 1 → e.linkUp (q.readPa sh.k.die) = true) :
    ∃ latency, 28 ≤ latency ∧
      (d.loadFrom m sh va kind).agenda = agendaInsert (e.now + latency) (.slotResultDeliver sh.c sh.blk.seq sh.n
        (some (extend kind (wordOf (loadBytes m e sh q (LoadKind.bytes kind)))))) e.agenda ∧
      (d.loadFrom m sh va kind).casts = (e.modTh sh.c fun t => t.modBlk fun b =>
        placed e.now sh.n .fired (loadIssued va (q.readPa sh.k.die) e.now sh.n b)).casts := by
  by_cases hown : ((List.range (LoadKind.bytes kind)).map (ownByte sh q)).all Option.isSome = true
  · rw [loadFrom_own hal ht hown]
    exact ⟨28, Nat.le_refl _, deliver_withLoad ..⟩
  · obtain ⟨js, hjs⟩ := Dev.read_frame m (withLoad e sh va (q.readPa sh.k.die)) q.tid (q.readPa sh.k.die) (LoadKind.bytes kind)
    rw [loadFrom_memory hal ht hown hlink, hjs]
    exact ⟨_, Nat.le_add_right .., deliver_withLoad e sh va (q.readPa sh.k.die) _ _⟩

end

end Sys2Proof.Laws

namespace Sys2Proof.Proofs

open Sys2Proof.Machine Sys2Proof.Claims Sys2Proof.Laws

/-- Settles O15: ST, STX and ST.REL store by `Dev.storeTo` (`StoresAt`), which is made, misaligned or not translated. -/
theorem stores : Obligations.Stores := by
  refine ⟨fun p z sc o s sh q d n hn => ?_, fun p z sc o s sh => ⟨fun h va hva => ?_, fun h => ?_, fun h => ?_⟩⟩
  · subst hn
    refine ⟨fun h va hva hal ht => ?_, fun h hal ht => (stx_storesAt p z).translated h hal ht, fun h hal ht => (stRel_storesAt p z sc).translated h hal ht⟩
    subst hva
    exact (st_storesAt p z o).translated h hal ht
  · subst hva
    exact ⟨(st_storesAt p z o).misaligned h, fun hal f d ht => (st_storesAt p z o).untranslated h hal ht⟩
  · exact ⟨(stx_storesAt p z).misaligned h, fun hal f d ht => (stx_storesAt p z).untranslated h hal ht⟩
  · exact ⟨(stRel_storesAt p z sc).misaligned h, fun hal f d ht => (stRel_storesAt p z sc).untranslated h hal ht⟩

/-- Settles O16: a load that nothing holds back is `Dev.loadFrom` of its form (`load_fires`), which delivers, or traps. -/
theorem loads : Obligations.Loads := by
  refine ⟨fun i u va n sg s sh q d hform h hheld hal ht hlink => ?_, fun i u va n sg s sh hform h hheld => ?_⟩
  · obtain ⟨kind, f, hkind, hu, hexec, hload⟩ := load_fires hform hheld
    obtain rfl := bytes_of_kind hkind
    obtain ⟨latency, hlat, hagenda, hcasts⟩ := loadFrom_delivers hal ht hlink
    have hnext : exec i s = .next { s with dev := f (seen s).dev sh } := hexec.trans (fire_of_Fires h rfl hu)
    obtain ⟨hcasts', hagenda', hnow, -⟩ := tlbChange_keeps (tlbChange_of_translates ht)
    have hvalue := extend_eq kind (loadBytes s.mem d sh q (LoadKind.bytes kind)) (by simp [loadBytes])
    rw [hkind] at hvalue
    rw [hload] at hnext
    rw [hvalue, hnow, hagenda'] at hagenda
    rw [Dev.modTh, Dev.modCast_casts, hnow, hcasts'] at hcasts
    exact ⟨_, latency, _, hnext, hlat, rfl, rfl, hagenda, hcasts⟩
  · obtain ⟨kind, f, hkind, hu, hexec, hload⟩ := load_fires hform hheld
    obtain rfl := bytes_of_kind hkind
    rw [hexec]
    exact ⟨fun hal => fire_traps h rfl hu (hload.trans (loadFrom_misaligned hal)),
      fun hal f d ht => fire_translation_trap h rfl hu (hload.trans (loadFrom_untranslated hal ht))⟩

end Sys2Proof.Proofs

/-! ## Memory and its keepers (R51, R57, R60 to R64, R77, R78, R452, R474, R484) -/

namespace Sys2Proof.Laws

open Sys2Proof.Machine Sys2Proof.Claims

theorem field_low {w : Nat} (v : BitVec w) (n : Nat) : field v 0 n = v.toNat % 2 ^ n := by rw [field, Nat.pow_zero, Nat.div_one]

/-! ### Writes at a channel or a port (R61, R62, R452, R474) -/

section
variable {s : State} {r : MemReq}

theorem exec_channelRequest_write (hw : r.write = true) : exec (.channelRequest r) s = .next (settledFor r.agent r.id (s.perform r)) := by
  show execChannelRequest r s = _
  rw [execChannelRequest, if_pos hw]
  rfl

theorem exec_channelRequest_write_at (hr : r.rpl = none) (hw : r.write = true) :
    exec (.channelRequest r) s = .next (settledFor r.agent r.id (writeAt s r.tenant r.pa r.data)) := by
  rw [exec_channelRequest_write hw, State.perform, hr]

theorem perform_replicated {page : Nat} (hr : r.rpl = some page) : s.perform r = sentToReplicas r page (s.perform { r with rpl := none }) := by
  rw [State.perform, hr]
  rfl

end

section
variable {s : State} {tenant pa : Nat}

/-- A denied write is dropped, and TENANT tells firmware of it (R62). -/
theorem writeAt_denied (h0 : paRegion (s.dev.ownPa pa) = 0) (h : s.dev.admits tenant (s.dev.ownPa pa) = false) (data : List Byte) :
    writeAt s tenant pa data = { s with dev := s.dev.postTenant tenant (s.dev.ownPa pa) true } := by
  rw [writeAt, if_pos h0, h, if_neg Bool.false_ne_true]

theorem postTenant_write (s : State) (tenant pa : Nat) : ({ s with dev := s.dev.postTenant tenant pa true } : State) =
    reported 0 [0x0F, BitVec.ofNat 64 (pa % 2 ^ 52), BitVec.ofNat 64 (tenant % 2 ^ 8 + 2 ^ 8 * ((s.dev.omapAt pa).toNat % 2 ^ 8) + 2 ^ 16
      + 2 ^ 17 * bit (!(s.dev.omapAt pa).getLsbD 15) + 2 ^ 18 * bit (s.dev.keyAt pa).isNone + 2 ^ 19 * paDie pa + 2 ^ 22 * chanOf pa)] s := by
  rw [reported, Dev.postTenant, field_low]
  rfl

theorem writeAt_carried (h0 : paRegion (s.dev.ownPa pa) ≠ 0) (h : s.dev.linkUp (s.dev.ownPa pa) = true) (data : List Byte) :
    writeAt s tenant pa data = { s with mem := s.mem.write (s.dev.ownPa pa) data } := by
  rw [writeAt, if_neg h0, if_pos h]

/-- A write that no link carries is dropped, and LINKERR tells its tenant of it (R452, R474). -/
theorem writeAt_dropped (h0 : paRegion (s.dev.ownPa pa) ≠ 0) (h : s.dev.linkUp (s.dev.ownPa pa) = false) (data : List Byte) :
    writeAt s tenant pa data =
      reported tenant [0x0A, BitVec.ofNat 64 (bit (paRegion (s.dev.ownPa pa) == 2)), BitVec.ofNat 64 (s.dev.ownPa pa), 1] s := by
  rw [writeAt, if_neg h0, h, if_neg Bool.false_ne_true]
  rfl

end

/-! ### Stores to replicated pages (R77, R78) -/

/-- A die has a store to apply after those that it has already (R77). -/
def toApply (n : Nat) (r : MemReq) (page : Nat) (d : Dev) (die : Nat) : Dev :=
  (({ d with replicas := d.replicas.set [] (replicaKey die page) (d.replicas.get [] (replicaKey die page) ++ [(n, r)]) }).post
    (Config.openDelay d.free) (.replicaStoreApply die page)).tickFree

theorem multicast_eq (d : Dev) (r : MemReq) (page : Nat) :
    d.multicast r page = (d.dies.filter fun die => die != paDie page).foldl (toApply d.replNo r page)
      { d with replSeq := d.replSeq.set 0 (page / 4096) (d.replSeq.get 0 (page / 4096) + 1), replNo := d.replNo + 1 } := rfl

theorem foldl_toApply_replNo (n : Nat) (r : MemReq) (page : Nat) (dies : List Nat) (d : Dev) :
    (dies.foldl (toApply n r page) d).replNo = d.replNo := by
  induction dies generalizing d with
  | nil => rfl
  | cons x dies ih => exact ih _

theorem toApply_replicas (n : Nat) (r : MemReq) (page : Nat) (d : Dev) {x : Nat} (hx : x < 8) (die : Nat) :
    (toApply n r page d x).replicas.get [] (page / 4096 * 8 + die) =
      d.replicas.get [] (page / 4096 * 8 + die) ++ if die = x then [(n, r)] else [] := by
  show (d.replicas.set [] (replicaKey x page) _).get [] _ = _
  have hkey : replicaKey x page = page / 4096 * 8 + x := by rw [replicaKey, Nat.mod_eq_of_lt hx]
  rw [Tbl.get_set, hkey]
  by_cases h : die = x
  · subst h
    rw [if_pos rfl, if_pos rfl]
  · rw [if_neg (by omega), if_neg h, List.append_nil]

theorem foldl_toApply_replicas (n : Nat) (r : MemReq) (page die : Nat) (dies : List Nat) (hdies : ∀ x ∈ dies, x < 8)
    (hnodup : dies.Nodup) (d : Dev) : (dies.foldl (toApply n r page) d).replicas.get [] (page / 4096 * 8 + die) =
      d.replicas.get [] (page / 4096 * 8 + die) ++ if die ∈ dies then [(n, r)] else [] := by
  induction dies generalizing d with
  | nil => exact (List.append_nil _).symm
  | cons x dies ih =>
    obtain ⟨hx, hrest⟩ := List.forall_mem_cons.1 hdies
    obtain ⟨hfresh, hnodup⟩ := List.nodup_cons.1 hnodup
    rw [List.foldl_cons, ih hrest hnodup, toApply_replicas n r page d hx die, List.append_assoc]
    by_cases h : die = x
    · subst h
      simp [hfresh]
    · simp [h]

/-- Every present die but the home has the store to apply, behind the earlier ones of its page (R77). -/
theorem sentToReplicas_replicas (r : MemReq) (page : Nat) (s : State) {die : Nat} (hdie : die < 8) :
    (sentToReplicas r page s).dev.replicas.get [] (page / 4096 * 8 + die) = s.dev.replicas.get [] (page / 4096 * 8 + die)
      ++ (if s.dev.hasDie die = true ∧ die ≠ paDie page then [(s.dev.replNo, r)] else []) := by
  have hmem : ∀ x, x ∈ (s.dev.dies.filter fun die => die != paDie page) ↔ x < 8 ∧ s.dev.hasDie x = true ∧ x ≠ paDie page := by
    simp [Dev.dies, and_comm]
  have hnodup : (s.dev.dies.filter fun die => die != paDie page).Nodup := (List.nodup_range.filter _).filter _
  rw [sentToReplicas, multicast_eq, foldl_toApply_replicas _ r page die _ (fun x hx => ((hmem x).1 hx).1) hnodup]
  simp only [hmem, hdie, true_and]

section
variable {s : State} {id : Nat}

theorem settledFor_performed {c : Nat} (h : ¬ ∃ e ∈ s.dev.replicas, ∃ r ∈ e.2, r.2.agent = .thread c ∧ r.2.id = id) :
    settledFor (.thread c) id s = performed c id s := by
  rw [settledFor, Dev.settle, if_neg (by simpa using h)]
  rfl

theorem settledFor_left {agent : Agent} (h : ∃ e ∈ s.dev.replicas, ∃ r ∈ e.2, r.2.agent = agent ∧ r.2.id = id) : settledFor agent id s = s := by
  cases agent with
  | thread c => rw [settledFor, Dev.settle, if_pos (by simpa using h)]
  | _ => rfl

theorem settledFor_other {agent : Agent} (h : ∀ c, agent ≠ .thread c) : settledFor agent id s = s := by
  cases agent with
  | thread c => exact absurd rfl (h c)
  | _ => rfl

end

/-! ### Reads (R61, R62) -/

section
variable {s : State} {r : MemReq}

theorem exec_channelRequest_read (hw : r.write = false) :
    exec (.channelRequest r) s = .next { s with dev := (Dev.read s.mem s.dev r.tenant r.pa r.len).2 } := by
  show execChannelRequest r s = _
  rw [execChannelRequest, if_neg (by simp [hw])]

theorem read_admitted {tenant pa len : Nat} (h0 : paRegion (s.dev.ownPa pa) = 0) (h : s.dev.admits tenant (s.dev.ownPa pa) = true) :
    Dev.read s.mem s.dev tenant pa len = ((List.range len).map fun i => stands s (s.dev.ownPa pa + i), s.dev) := by
  rw [Dev.read, if_pos h0, if_pos h]
  rfl

theorem read_carried {tenant pa len : Nat} (h0 : paRegion (s.dev.ownPa pa) ≠ 0) (h : s.dev.linkUp (s.dev.ownPa pa) = true) :
    (Dev.read s.mem s.dev tenant pa len).2 = s.dev := by
  rw [Dev.read, if_neg h0, if_pos h]

end

/-! ### Walks, and the ends of map, invalidation and key commands (R51, R57, R63, R484) -/

theorem exec_pageWalk (die tenant : Nat) (va : Word) (acc : Access) (s : State) :
    exec (.pageWalk die tenant va (acc == .store) (acc == .fetch)) s =
      .next { s with dev := (Dev.translate s.mem s.dev { port := none, block := none, die := die } tenant va acc).2 } := by
  cases acc <;> rfl

/-- The entry that a map command of word `v` installs: bits [31:16], without bit 14 (R63). -/
def mapEntry (v : Word) : BitVec 16 := BitVec.ofNat 16 (field v 16 16) &&& 0xBFFF

theorem mapEntry_getLsbD (v : Word) {i : Nat} (hi : i < 16) : (mapEntry v).getLsbD i = (decide (i ≠ 14) && v.getLsbD (16 + i)) := by
  have hmask : ∀ j : Fin 16, (0xBFFF : BitVec 16).getLsbD j.val = decide (j.val ≠ 14) := by decide
  have hfield : (BitVec.ofNat 16 (field v 16 16)).getLsbD i = v.getLsbD (16 + i) := by
    rw [BitVec.getLsbD_ofNat, field, Nat.testBit_mod_two_pow, Nat.testBit_div_two_pow]
    simp [hi, BitVec.getLsbD, Nat.add_comm]
  rw [mapEntry, BitVec.getLsbD_and, hfield, hmask ⟨i, hi⟩, Bool.and_comm]

section
variable {s : State}

theorem exec_omapComplete {die : Nat} (hbusy : (s.dev.host.omapc.get {} die).busy = true) (hdue : (s.dev.host.omapc.get {} die).due ≤ s.dev.now) :
    let x := s.dev.host.omapc.get {} die
    exec (.omapComplete die) s = .next (onHost (fun h => { h with omapc := h.omapc.put die { x with busy := false } })
      { s with dev := { s.dev with omap := s.dev.omap.put (65536 * die + x.fields.toNat % 2 ^ 16) (mapEntry x.fields) } }) := by
  have hdone : s.dev.omapDone die = true := by simp only [Dev.omapDone, hbusy, hdue, decide_true, Bool.and_self]
  show execOmapComplete die s = _
  simp only [execOmapComplete, if_pos hdone, field_low]
  rfl

/-- What a thread had translated before an invalidation has been performed, once the block of then is over and its queue is behind it (R57). -/
theorem tlbWait_over {w : TlbWait} {d : Dev} (h : ∀ k, d.casts.find w.cast = some k → k.uid = w.uid →
    (w.open_ = true → w.seq < k.th.seq) ∧ ∀ e ∈ k.th.queue, w.seq + 1 < e.blk) : w.over d = true := by
  rw [TlbWait.over]
  split
  · rfl
  · next k hk =>
    by_cases huid : k.uid = w.uid
    · obtain ⟨hseq, hqueue⟩ := h k hk huid
      have hqueue' : (k.th.queue.all fun e => decide (w.seq + 1 < e.blk)) = true := by simpa using hqueue
      cases hopen : w.open_ with
      | false => simp [hqueue']
      | true => simp [hqueue', hseq hopen]
    · simp [huid]

theorem exec_tlbiComplete (h : s.dev.tlbiDone = true) : exec .tlbiComplete s =
    .next (onHost (fun h => { h with tlbWait := [], tlbReqs := [], tlbi := { h.tlbi with busy := false } }) s) := by
  show execTlbiComplete s = _
  rw [execTlbiComplete, if_pos h]
  rfl

theorem tlbiDone_of {d : Dev} (hbusy : d.host.tlbi.busy = true) (hdue : d.host.tlbi.due ≤ d.now) (hwait : ∀ w ∈ d.host.tlbWait, w.over d = true)
    (hreqs : ∀ i ∈ d.host.tlbReqs, i ∉ d.requests) (hstores : ∀ e ∈ d.replicas, ∀ r ∈ e.2, d.host.tlbStores ≤ r.1) : d.tlbiDone = true := by
  have happlied : d.unapplied d.host.tlbStores = false := by
    simp only [Dev.unapplied, List.any_eq_false, decide_eq_true_eq, Nat.not_lt, List.any_eq_true, not_exists, not_and]
    exact hstores
  have hgone : (d.host.tlbReqs.any fun i => d.requests.contains i) = false := by
    simp only [List.any_eq_false, List.contains_iff_mem]
    exact hreqs
  have hover : (d.host.tlbWait.all fun w => w.over d) = true := List.all_eq_true.2 hwait
  simp only [Dev.tlbiDone, hbusy, hdue, hover, hgone, happlied, decide_true, Bool.not_false, Bool.and_self]

/-! A key command installs its key in an HBM slot of every present die, or unloads one. -/

/-- An HBM key slot changed on every present die, and nothing else (R484). -/
def keyed (slot : Nat) (f : Tbl Nat → Nat → Tbl Nat) (s : State) : State :=
  { s with dev := { s.dev with
    keySlots := ((List.range 8).filter fun die => s.dev.diepres.getLsbD die).foldl (fun t die => f t (64 * die + slot)) s.dev.keySlots } }

theorem setHbmKey_some (s : State) (slot key : Nat) :
    ({ s with dev := s.dev.setHbmKey slot (some key) } : State) = keyed slot (fun t i => t.put i key) s := by
  rw [keyed, Dev.setHbmKey, keySlots_fold (fun t i => t.put i key) slot _ fun _ _ => rfl]
  rfl

theorem setHbmKey_none (s : State) (slot : Nat) :
    ({ s with dev := s.dev.setHbmKey slot none } : State) = keyed slot (fun t i => t.del i) s := by
  rw [keyed, Dev.setHbmKey, keySlots_fold (fun t i => t.del i) slot _ fun _ _ => rfl]
  rfl

/-- The key command is no longer busy, and nothing else. -/
def keyEnds (s : State) : State := onHost (fun h => { h with keyc := { h.keyc with busy := false } }) s

theorem exec_keyComplete (hbusy : s.dev.host.keyc.busy = true) (hdue : s.dev.host.keyc.due ≤ s.dev.now) :
    exec .keyComplete s = .next (keyEnds { s with dev := s.dev.applyKey s.dev.host.keyc.fields }) := by
  have hdone : s.dev.keyDone = true := by simp only [Dev.keyDone, hbusy, hdue, decide_true, Bool.and_self]
  show execKeyComplete s = _
  rw [execKeyComplete, if_pos hdone]
  rfl

/-- GEN: a key that none has been goes into the slot (R484). -/
theorem applyKey_gen {v : Word} (hop : field v 0 2 = 0) : ({ s with dev := s.dev.applyKey v } : State) =
    onHost (fun h => { h with nextKey := h.nextKey + 1 }) (keyed (field v 4 6) (fun t i => t.put i s.dev.host.nextKey) s) := by
  rw [Dev.applyKey, hop]
  exact setHbmKey_some (onHost (fun h => { h with nextKey := h.nextKey + 1 }) s) (field v 4 6) s.dev.host.nextKey

theorem applyKey_clear_hbm {v : Word} (hop : field v 0 2 = 1) (hio : v.getLsbD 2 = false) :
    ({ s with dev := s.dev.applyKey v } : State) = keyed (field v 4 6) (fun t i => t.del i) s := by
  rw [Dev.applyKey, hop, ← setHbmKey_none]
  simp only [bitAt, hio, Bool.false_eq_true, if_false]

theorem applyKey_clear_io {v : Word} (hop : field v 0 2 = 1) (hio : v.getLsbD 2 = true) : ({ s with dev := s.dev.applyKey v } : State) =
    onHost (fun h => { h with ioKeys := h.ioKeys.del (64 * bit (v.getLsbD 3) + field v 4 6) }) s := by
  rw [Dev.applyKey, hop]
  simp only [bitAt, hio, if_true]
  rfl

end

end Sys2Proof.Laws

namespace Sys2Proof.Proofs

open Sys2Proof.Machine Sys2Proof.Claims Sys2Proof.Laws

/-- Settles O45: a write of HBM by `writeAt_hbm_bytes`, its replicas by `sentToReplicas_replicas`; each other clause is a lemma above. -/
theorem memorySteps : Obligations.MemorySteps := by
  intro s
  refine ⟨?write, ?multicast, ?settle, ?read, fun die page n r rest h => replicaStoreApply_eq s die page n r rest h, ?walk, ?map, ?tlbi, ?key⟩
  case write =>
    intro r hr hw
    rw [exec_channelRequest_write_at hr hw]
    refine ⟨fun h0 hadm hline => ?_, fun h0 hdeny => ?_, fun h0 hup => ?_, fun h0 hdown => ?_⟩
    · obtain ⟨l, hdev, hbytes⟩ := writeAt_hbm_bytes s r.tenant r.pa r.data h0 hadm hline
      have ht : writeAt s r.tenant r.pa r.data = { mem := (writeAt s r.tenant r.pa r.data).mem, dev := { s.dev with lineKey := l } } :=
        hdev ▸ rfl
      exact ⟨_, l, congrArg (fun t => Host.Outcome.next (settledFor r.agent r.id t)) ht, ht ▸ hbytes⟩
    · rw [writeAt_denied h0 hdeny, postTenant_write]
    · rw [writeAt_carried h0 hup]
      refine ⟨_, rfl, fun k hk => ?_, fun a ha => Memory.byte_write_outside ha⟩
      rw [Memory.byte_write, if_pos (by omega), Nat.add_sub_cancel_left]
    · rw [writeAt_dropped h0 hdown]
  case multicast =>
    intro r page hr hw
    refine ⟨?_, ?_, fun die hdie => sentToReplicas_replicas r page s hdie⟩
    · rw [exec_channelRequest_write hw, perform_replicated hr]
    · rw [sentToReplicas, multicast_eq, foldl_toApply_replNo]
  case settle =>
    intro agent id
    refine ⟨fun c hc h => ?_, fun h => h.elim settledFor_left settledFor_other⟩
    subst hc
    exact settledFor_performed h
  case read =>
    intro r hw
    rw [exec_channelRequest_read hw]
    exact ⟨fun h h0 => ⟨by rw [read_admitted h0 h], read_admitted h0 h⟩, fun h h0 => by rw [read_carried h0 h]⟩
  case walk =>
    intro die tenant va acc q d h
    rw [exec_pageWalk, h]
  case map =>
    intro die x hbusy hdue
    exact ⟨mapEntry x.fields, fun i hi => mapEntry_getLsbD x.fields hi, exec_omapComplete hbusy hdue⟩
  case tlbi =>
    exact fun hbusy hdue hwait hreqs hstores => exec_tlbiComplete (tlbiDone_of hbusy hdue (fun w hw => tlbWait_over (hwait w hw)) hreqs hstores)
  case key =>
    intro hbusy hdue v
    have hop : field v 0 2 = v.toNat % 4 := field_low v 2
    rw [exec_keyComplete hbusy hdue]
    refine ⟨fun h => ?_, fun h hio => ?_, fun h hio => ?_⟩
    · rw [applyKey_gen (hop.trans h)]
      rfl
    · rw [applyKey_clear_hbm (hop.trans h) hio]
      rfl
    · rw [applyKey_clear_io (hop.trans h) hio]
      rfl

end Sys2Proof.Proofs

/-! ## Every word that decodes is its instruction's word (R99 to R104, R107, R108) -/

namespace Sys2Proof

/-! ### What a code stands for has that code -/

theorem Pred.code_of_ofCode {c : BitVec 2} {p : Pred} (h : Pred.ofCode c = some p) : c = p.code := by
  unfold Pred.ofCode at h
  split at h <;> next hc => cases h <;> exact BitVec.eq_of_toNat_eq hc

theorem Scope.code_of_ofCode {c : BitVec 4} {s : Scope} (h : Scope.ofCode c = some s) : c = s.code := by
  unfold Scope.ofCode at h
  split at h <;> next hc => cases h <;> exact BitVec.eq_of_toNat_eq hc

theorem Cond.code_of_ofCode {c : BitVec 4} {x : Cond} (h : Cond.ofCode c = some x) : c = x.code := by
  unfold Cond.ofCode at h
  split at h <;> next hc => cases h <;> exact BitVec.eq_of_toNat_eq hc

theorem ExtKind.code_of_ofCode {c : BitVec 4} {x : ExtKind} (h : ExtKind.ofCode c = some x) : c = x.code := by
  unfold ExtKind.ofCode at h
  split at h <;> next hc => cases h <;> exact BitVec.eq_of_toNat_eq hc

theorem LoadKind.code_of_ofCode {c : BitVec 4} {x : LoadKind} (h : LoadKind.ofCode c = some x) : c = x.code := by
  unfold LoadKind.ofCode at h
  split at h <;> next hc => cases h <;> exact BitVec.eq_of_toNat_eq hc

theorem Resume.code_of_ofCode {c : BitVec 2} {x : Resume} (h : Resume.ofCode c = some x) : c = x.code := by
  unfold Resume.ofCode at h
  split at h <;> next hc => cases h <;> exact BitVec.eq_of_toNat_eq hc

theorem StatForm.code_of_ofCode {c : BitVec 4} {x : StatForm} (h : StatForm.ofCode c = some x) : c = x.code := by
  unfold StatForm.ofCode at h
  split at h <;> next hc => cases h <;> exact BitVec.eq_of_toNat_eq hc

theorem AtomOp.code_of_ofCode {c : BitVec 4} {x : AtomOp} (h : AtomOp.ofCode c = some x) : c = x.code := by
  unfold AtomOp.ofCode at h
  split at h <;> next hc => cases h <;> exact BitVec.eq_of_toNat_eq hc

theorem LitCount.code_of_ofCode {c : BitVec 6} {x : LitCount} (h : LitCount.ofCode c = some x) : c = x.code := by
  unfold LitCount.ofCode at h
  split at h <;> next hc => cases h <;> exact BitVec.eq_of_toNat_eq hc

theorem SysReg.code_of_ofCode {c : BitVec 12} {x : SysReg} (h : SysReg.ofCode c = some x) : c = x.code := by
  unfold SysReg.ofCode at h
  split at h <;> next hc => cases h <;> exact BitVec.eq_of_toNat_eq hc

theorem MemOrder.code_ofCode : ∀ c : BitVec 2, (MemOrder.ofCode c).code = c := by decide
theorem Size.code_ofCode : ∀ c : BitVec 2, (Size.ofCode c).code = c := by decide

/-- A flag of one bit. -/
theorem ofBool_eq_one_bit : ∀ c : BitVec 1, BitVec.ofBool (decide (c = 1)) = c := by decide

/-! ### Adjacent fields are one field, and a word is its fields -/

theorem extract_append {w m n s t : Nat} {x : BitVec w} {u : BitVec m} {v : BitVec n} (hu : x.extractLsb' t m = u) (hv : x.extractLsb' s n = v)
    (ht : t = s + n := by rfl) : x.extractLsb' s (m + n) = u ++ v := by
  rw [← hu, ← hv, BitVec.extractLsb'_append_extractLsb'_eq_extractLsb' ht]

/-- The same with the `n` bits from bit `s` on, whatever they are. -/
theorem extract_append_rest {w m : Nat} {x : BitVec w} {u : BitVec m} (s n : Nat) (hu : x.extractLsb' (s + n) m = u) :
    x.extractLsb' s (m + n) = u ++ x.extractLsb' s n := extract_append hu rfl

section
variable {w : Word32} {p : Pred}

theorem encT2_fields (hp : prOf w = p.code) : encT2 (opOf w) p (x4Of w) (tgtBOf w) (tgtAOf w) = w := by
  have hw := extract_append_rest 0 9 (extract_append_rest 9 9 (extract_append_rest 18 4 (extract_append_rest 22 2 (Eq.refl (opOf w)))))
  rw [encT2, ← hp]
  exact hw.symm.trans BitVec.extractLsb'_eq_self

theorem encT1I_fields (hp : prOf w = p.code) : encT1I (opOf w) p (imm13Of w) (tgtAOf w) = w := by
  have hw := extract_append_rest 0 9 (extract_append_rest 9 13 (extract_append_rest 22 2 (Eq.refl (opOf w))))
  rw [encT1I, ← hp]
  exact hw.symm.trans BitVec.extractLsb'_eq_self

theorem encS_fields (hp : prOf w = p.code) : encS (opOf w) p (imm22Of w) = w := by
  have hw := extract_append_rest 0 22 (extract_append_rest 22 2 (Eq.refl (opOf w)))
  rw [encS, ← hp]
  exact hw.symm.trans BitVec.extractLsb'_eq_self

theorem encG_fields (w : Word32) : encG (opOf w) (regOf w) (tgtBOf w) (tgtAOf w) = w :=
  (extract_append_rest 0 9 (extract_append_rest 9 9 (extract_append_rest 18 6 (Eq.refl (opOf w))))).symm.trans BitVec.extractLsb'_eq_self

end

/-- A field is known by its number. -/
theorem eq_ofNat_of_toNat {m k : Nat} {x : BitVec m} (h : x.toNat = k) : x = BitVec.ofNat m k := by
  rw [← h, BitVec.ofNat_toNat, BitVec.setWidth_eq]

end Sys2Proof

namespace Sys2Proof.Laws

/-! ### The decoder reads back what the encoder writes -/

/-- What is read from a word, if anything is, has that word. -/
def Encodes (w : Word32) (r : Except Reject Instr) : Prop := ∀ i, r = .ok i → encode i = some w

namespace Encodes

variable {w : Word32}

theorem ok {v : Word32} {i : Instr} (h : encode i = some v) (hv : v = w) : Encodes w (.ok i) :=
  fun _ e => Except.ok.inj e ▸ hv ▸ h

/-! The same by the fields within X4, IMM13 and IMM22. -/

theorem okT2 {o : BitVec 8} {p : Pred} {x y : BitVec 4} {b a : Target} {i : Instr} (h : encode i = some (encT2 o p y b a))
    (hw : encT2 o p x b a = w) (hx : x = y) : Encodes w (.ok i) := ok h (hx ▸ hw)

theorem okT1I {o : BitVec 8} {p : Pred} {x y : BitVec 13} {t : Target} {i : Instr} (h : encode i = some (encT1I o p y t))
    (hw : encT1I o p x t = w) (hx : x.extractLsb' 0 13 = y) : Encodes w (.ok i) := ok h (hx ▸ BitVec.extractLsb'_eq_self ▸ hw)

theorem okS {o : BitVec 8} {p : Pred} {x y : BitVec 22} {i : Instr} (h : encode i = some (encS o p y))
    (hw : encS o p x = w) (hx : x.extractLsb' 0 22 = y) : Encodes w (.ok i) := ok h (hx ▸ BitVec.extractLsb'_eq_self ▸ hw)

theorem error (e : Reject) : Encodes w (.error e) := fun _ h => nomatch h

theorem ite {c : Prop} [Decidable c] {x : Except Reject Instr} {e : Reject} (h : c → Encodes w x) : Encodes w (if c then x else .error e) := by
  split
  · next hc => exact h hc
  · exact error e

theorem withMod {α : Type} {x : Option α} {k : α → Except Reject Instr} (h : ∀ v, x = some v → Encodes w (k v)) : Encodes w (Sys2Proof.withMod x k) := by
  cases x with
  | none => exact error _
  | some v => exact h v rfl

theorem withPred {k : Pred → Except Reject Instr} (h : ∀ p, prOf w = p.code → Encodes w (k p)) : Encodes w (Sys2Proof.withPred w k) := by
  simp only [Sys2Proof.withPred]
  split
  · next hp => exact h _ (Pred.code_of_ofCode hp)
  · exact error _

section
variable {n : Nat} (hop : (opOf w).toNat = n)
include hop

theorem opOf_eq : opOf w = BitVec.ofNat 8 n := eq_ofNat_of_toNat hop

theorem decT2x {k : Pred → BitVec 4 → Target → Target → Except Reject Instr}
    (h : ∀ p x b a, encT2 (BitVec.ofNat 8 n) p x b a = w → Encodes w (k p x b a)) : Encodes w (Sys2Proof.decT2x w k) :=
  withPred fun p hp => h p _ _ _ (opOf_eq hop ▸ encT2_fields hp)

theorem decT2 {k : Pred → Target → Target → Instr} (h : ∀ p b a, encode (k p b a) = some (encT2 (BitVec.ofNat 8 n) p 0 b a)) :
    Encodes w (Sys2Proof.decT2 w k) :=
  decT2x hop fun p _ b a hw => ite fun hx => okT2 (h p b a) hw hx

theorem decT1 {k : Pred → Target → Instr} (h : ∀ p a, encode (k p a) = some (encT2 (BitVec.ofNat 8 n) p 0 0 a)) :
    Encodes w (Sys2Proof.decT1 w k) :=
  decT2x hop fun p _ _ a hw => ite fun ⟨hx, hb⟩ => okT2 (h p a) (hb ▸ hw) hx

theorem decAtom {k : Pred → Scope → Target → Target → Instr}
    (h : ∀ p sc b a, encode (k p sc b a) = some (encT2 (BitVec.ofNat 8 n) p sc.code b a)) : Encodes w (Sys2Proof.decAtom w k) :=
  decT2x hop fun p _ b a hw => withMod fun sc hsc => okT2 (h p sc b a) hw (Scope.code_of_ofCode hsc)

/-- Two forms told apart by X4. -/
theorem decForms {k₀ k₁ : Pred → Target → Target → Instr} (h₀ : ∀ p b a, encode (k₀ p b a) = some (encT2 (BitVec.ofNat 8 n) p 0 b a))
    (h₁ : ∀ p b a, encode (k₁ p b a) = some (encT2 (BitVec.ofNat 8 n) p 1 b a)) :
    Encodes w (Sys2Proof.decT2x w fun p x b a =>
      match x.toNat with
      | 0 => .ok (k₀ p b a)
      | 1 => .ok (k₁ p b a)
      | _ => .error .undefinedModifier) := by
  refine decT2x hop fun p x b a hw => ?_
  split
  · next hx => exact okT2 (h₀ p b a) hw (eq_ofNat_of_toNat hx)
  · next hx => exact okT2 (h₁ p b a) hw (eq_ofNat_of_toNat hx)
  · exact error _

theorem decT1I {k : Pred → BitVec 13 → Target → Except Reject Instr}
    (h : ∀ p i t, encT1I (BitVec.ofNat 8 n) p i t = w → Encodes w (k p i t)) : Encodes w (Sys2Proof.decT1I w k) :=
  withPred fun p hp => h p _ _ (opOf_eq hop ▸ encT1I_fields hp)

theorem decShift {k : Pred → BitVec 6 → Target → Instr}
    (h : ∀ p j t, encode (k p j t) = some (encT1I (BitVec.ofNat 8 n) p (0#7 ++ j : BitVec 13) t)) : Encodes w (Sys2Proof.decShift w k) :=
  decT1I hop fun p _ t hw => ite fun hi => okT1I (h p _ t) hw (extract_append_rest 0 6 hi)

theorem decS {k : Pred → BitVec 22 → Except Reject Instr}
    (h : ∀ p i, encS (BitVec.ofNat 8 n) p i = w → Encodes w (k p i)) : Encodes w (Sys2Proof.decS w k) :=
  withPred fun p hp => h p _ (opOf_eq hop ▸ encS_fields hp)

theorem decS0 {k : Pred → Instr} (h : ∀ p, encode (k p) = some (encS (BitVec.ofNat 8 n) p 0)) : Encodes w (Sys2Proof.decS0 w k) :=
  decS hop fun p _ hw => ite fun hi => ok (h p) (hi ▸ hw)

theorem decCode {k : Pred → BitVec 16 → Instr} (h : ∀ p c, encode (k p c) = some (encS (BitVec.ofNat 8 n) p (0#6 ++ c : BitVec 22))) :
    Encodes w (Sys2Proof.decCode w k) :=
  decS hop fun p _ hw => ite fun hi => okS (h p _) hw (extract_append_rest 0 16 hi)

theorem decOrd {hi : BitVec 16} {allowed : MemOrder → Bool} {k : Pred → MemOrder → Scope → Instr}
    (h : ∀ p o sc, encode (k p o sc) = some (encS (BitVec.ofNat 8 n) p (ordImm hi o sc))) : Encodes w (Sys2Proof.decOrd w hi allowed k) :=
  decS hop fun p _ hw => ite fun hhi => withMod fun sc hsc => ite fun _ =>
    okS (h p _ sc) hw (extract_append (extract_append hhi (MemOrder.code_ofCode _).symm) (Scope.code_of_ofCode hsc))

/-! The opcode map, range by range. -/

theorem decodeArith : Encodes w (Sys2Proof.decodeArith n w) := by
  unfold Sys2Proof.decodeArith
  split
  case h_4 =>
    refine decT2x hop fun p x b a hw => ?_
    split
    · next hx => exact okT2 rfl hw (eq_ofNat_of_toNat hx)
    · next hx => exact okT2 rfl hw (eq_ofNat_of_toNat hx)
    · next hx => exact okT2 rfl hw (eq_ofNat_of_toNat hx)
    · exact error _
  case h_5 | h_6 | h_7 | h_8 | h_19 | h_24 => exact decForms hop (fun _ _ _ => rfl) fun _ _ _ => rfl
  case h_10 => exact decT2x hop fun _ _ _ _ hw => ok rfl hw
  case h_18 => exact decT2x hop fun _ _ _ _ hw => withMod fun _ hc => okT2 rfl hw (Cond.code_of_ofCode hc)
  case h_26 => exact decT2x hop fun _ _ _ _ hw => withMod fun _ hk => okT2 rfl hw (ExtKind.code_of_ofCode hk)
  case h_27 => exact error _
  all_goals exact decT2 hop fun _ _ _ => rfl

theorem decodeImm : Encodes w (Sys2Proof.decodeImm n w) := by
  unfold Sys2Proof.decodeImm
  split
  case h_6 | h_7 | h_8 => exact decShift hop fun _ _ _ => rfl
  case h_15 => exact error _
  all_goals exact decT1I hop fun _ _ _ hw => ok rfl hw

theorem decodeMem : Encodes w (Sys2Proof.decodeMem n w) := by
  unfold Sys2Proof.decodeMem
  split
  case h_8 | h_11 => exact decT2x hop fun _ _ _ _ hw => withMod fun _ hk => okT2 rfl hw (LoadKind.code_of_ofCode hk)
  case h_9 | h_10 => exact decT2x hop fun _ _ _ _ hw => withMod fun _ hs => okT2 rfl hw (Scope.code_of_ofCode hs)
  case h_12 => exact decS hop fun _ _ hw => okS rfl hw (extract_append_rest 0 20 (Size.code_ofCode _).symm)
  case h_13 | h_15 => exact decS hop fun _ _ hw => ite fun h0 => okS rfl hw (extract_append (Size.code_ofCode _).symm h0)
  case h_14 =>
    exact decS hop fun _ _ hw => ite fun h0 => withMod fun _ hs =>
      okS rfl hw (extract_append (extract_append (Size.code_ofCode _).symm (Scope.code_of_ofCode hs)) h0)
  case h_16 =>
    refine decS hop fun _ _ hw => ite fun h0 => withMod fun _ hs => ?_
    split
    · next hx => exact okS rfl hw (extract_append (extract_append (eq_ofNat_of_toNat hx) (Scope.code_of_ofCode hs)) h0)
    · next hx => exact okS rfl hw (extract_append (extract_append (eq_ofNat_of_toNat hx) (Scope.code_of_ofCode hs)) h0)
    · next hx => exact okS rfl hw (extract_append (extract_append (eq_ofNat_of_toNat hx) (Scope.code_of_ofCode hs)) h0)
    · exact error _
  case h_17 => exact error _
  all_goals exact decT1I hop fun _ _ _ hw => ok rfl hw

theorem decodeExit : Encodes w (Sys2Proof.decodeExit n w) := by
  unfold Sys2Proof.decodeExit
  split
  case h_1 | h_4 | h_7 | h_8 => exact decS hop fun _ _ hw => ok rfl hw
  case h_9 => exact error _
  all_goals exact decS0 hop fun _ => rfl

theorem decodeMove : Encodes w (Sys2Proof.decodeMove n w) := by
  have hword : encG (BitVec.ofNat 8 n) (regOf w) (tgtBOf w) (tgtAOf w) = w := opOf_eq hop ▸ encG_fields w
  unfold Sys2Proof.decodeMove
  split
  · exact ok rfl hword
  · split
    · next hc => exact ok rfl (LitCount.code_of_ofCode hc ▸ hword)
    · exact error _
  · exact decT2 hop fun _ _ _ => rfl
  · exact decT1I hop fun _ _ _ hw => ok rfl hw
  · exact decT2 hop fun _ _ _ => rfl
  · exact decT1I hop fun _ _ _ hw => ok rfl hw
  · exact error _

theorem decodeFabric : Encodes w (Sys2Proof.decodeFabric n w) := by
  unfold Sys2Proof.decodeFabric
  split
  case h_2 =>
    refine decS hop fun _ i hw => ite fun h9 => ?_
    split
    · next hk => exact ite fun h6 => okS rfl hw (extract_append_rest 0 3 (extract_append (extract_append h9 h6) (eq_ofNat_of_toNat hk)))
    · next hk => exact okS rfl hw (extract_append_rest 0 3 (extract_append (extract_append_rest 6 3 h9) (eq_ofNat_of_toNat hk)))
    · next hk => exact ite fun h6 => okS rfl hw (extract_append_rest 0 3 (extract_append (extract_append h9 h6) (eq_ofNat_of_toNat hk)))
    · next hk => exact ite fun h6 => okS rfl hw (extract_append_rest 0 3 (extract_append (extract_append h9 h6) (eq_ofNat_of_toNat hk)))
    · exact error _
  case h_3 => exact decT2x hop fun _ _ _ _ hw => ite fun h3 => okT2 rfl hw (BitVec.extractLsb'_eq_self.symm.trans (extract_append_rest 0 3 h3))
  case h_4 => exact decS hop fun _ _ hw => ite fun h17 => okS rfl hw (extract_append_rest 0 8 (extract_append_rest 8 7 (extract_append_rest 15 2 h17)))
  case h_5 => exact decS hop fun _ _ hw => ite fun h2 => okS rfl hw (extract_append_rest 0 2 h2)
  case h_8 | h_12 | h_14 => exact decT1 hop fun _ _ => rfl
  case h_11 => exact decT2x hop fun _ _ _ _ hw => ite fun hb => withMod fun _ hf => okT2 rfl (hb ▸ hw) (StatForm.code_of_ofCode hf)
  case h_16 => exact decT2 hop fun _ _ _ => rfl
  case h_17 => exact decS hop fun _ _ hw => ite fun h2 => withMod fun _ hr => okS rfl hw (extract_append h2 (Resume.code_of_ofCode hr))
  case h_18 => exact error _
  all_goals exact decS0 hop fun _ => rfl

theorem decodeGroup : Encodes w (Sys2Proof.decodeGroup n w) := by
  unfold Sys2Proof.decodeGroup
  split
  case h_1 | h_2 | h_9 => exact decT1 hop fun _ _ => rfl
  case h_5 | h_6 | h_14 | h_15 => exact decOrd hop fun _ _ _ => rfl
  case h_7 =>
    split
    · exact decOrd hop fun _ _ _ => rfl
    · exact decOrd hop fun _ _ _ => rfl
  case h_8 =>
    exact decS hop fun _ _ hw => ite fun h9 => ite fun _ => okS rfl hw (extract_append_rest 0 8 (extract_append h9 (ofBool_eq_one_bit _).symm))
  case h_12 => exact decS hop fun _ _ hw => ite fun h2 => withMod fun _ hr => okS rfl hw (extract_append h2 (Resume.code_of_ofCode hr))
  case h_16 => exact error _
  all_goals exact decS0 hop fun _ => rfl

theorem decodeSync : Encodes w (Sys2Proof.decodeSync n w) := by
  unfold Sys2Proof.decodeSync
  split
  case h_9 =>
    exact decS hop fun _ _ hw => ite fun h12 => withMod fun _ hf => withMod fun _ hs => ite fun _ =>
      okS rfl hw (extract_append (extract_append (extract_append (extract_append h12 (Size.code_ofCode _).symm)
        (AtomOp.code_of_ofCode hf)) (MemOrder.code_ofCode _).symm) (Scope.code_of_ofCode hs))
  case h_10 | h_11 | h_12 => exact decOrd hop fun _ _ _ => rfl
  case h_13 | h_17 => exact decS0 hop fun _ => rfl
  case h_14 =>
    exact decT2x hop fun _ _ _ _ hw => ite fun ⟨h1, hb⟩ =>
      okT2 rfl (hb ▸ hw) (BitVec.extractLsb'_eq_self.symm.trans (extract_append h1 (ofBool_eq_one_bit _).symm))
  case h_15 | h_16 | h_18 => exact decT1 hop fun _ _ => rfl
  case h_19 => exact error _
  all_goals exact decAtom hop fun _ _ _ _ => rfl

theorem decodeSystem : Encodes w (Sys2Proof.decodeSystem n w) := by
  unfold Sys2Proof.decodeSystem
  split
  case h_1 => exact decT1 hop fun _ _ => rfl
  case h_3 | h_10 => exact decCode hop fun _ _ => rfl
  case h_5 => exact decT1I hop fun _ _ _ hw => ite fun h12 => withMod fun _ hr => okT1I rfl hw (extract_append h12 (SysReg.code_of_ofCode hr))
  case h_6 =>
    exact decS hop fun _ _ hw => ite fun h12 => withMod fun _ hr => ite fun _ => okS rfl hw (extract_append h12 (SysReg.code_of_ofCode hr))
  case h_7 => exact decT1I hop fun _ _ _ hw => ite fun h2 => okT1I rfl hw (extract_append_rest 0 2 h2)
  case h_9 => exact decT2x hop fun _ _ _ _ hw => ite fun ⟨hx, hb, ha⟩ => okT2 rfl (by rwa [hb, ha] at hw) hx
  case h_12 => exact error _
  all_goals exact decS0 hop fun _ => rfl

end

end Encodes

theorem encode_of_decodeWord {w : Word32} {i : Instr} (h : decodeWord w = .ok i) : encode i = some w := by
  have all : Encodes w (decodeWord w) := by
    unfold decodeWord
    split
    · exact .decodeArith rfl
    · exact .decodeArith rfl
    · exact .decodeArith rfl
    · exact .decodeImm rfl
    · exact .decodeMem rfl
    · exact .decodeMem rfl
    · exact .decodeExit rfl
    · exact .decodeMove rfl
    · exact .decodeFabric rfl
    · exact .decodeFabric rfl
    · exact .decodeGroup rfl
    · exact .decodeGroup rfl
    · exact .decodeSync rfl
    · exact .decodeSync rfl
    · exact .decodeSystem rfl
    · exact .decodeSystem rfl
    · exact .error _
  exact all i h

/-- Bytes that decode begin with the four bytes of a word that decodes. -/
theorem decode_eq_ok {bs rest : List Byte} {i : Instr} (h : decode bs = .ok (i, rest)) :
    ∃ w : Word32, decodeWord w = .ok i ∧ bs = leBytes 4 w.toNat ++ rest := by
  unfold decode at h
  split at h
  · next b0 b1 b2 b3 rest' =>
    split at h
    · next j hj =>
      cases h
      exact ⟨_, hj, by rw [leBytes_word]; rfl⟩
    · exact nomatch h
  · exact nomatch h

end Sys2Proof.Laws

namespace Sys2Proof.Proofs

open Sys2Proof.Machine Sys2Proof.Claims

/-- Settles O56: the formats read back what they are made of (`encode_of_decodeWord`), and only well-formed instructions are read. -/
theorem encodeDecode : Obligations.EncodeDecode := by
  refine ⟨fun w i h => ⟨Laws.encode_of_decodeWord h, Laws.decodeWord_wf h⟩, fun bs rest i h => ?_⟩
  obtain ⟨w, hw, hbs⟩ := Laws.decode_eq_ok h
  exact ⟨w, Laws.encode_of_decodeWord hw, Laws.decodeWord_wf hw, hbs⟩

end Sys2Proof.Proofs

/-! ## Slots predicated off, integer arithmetic and exits (R88, R92, R124, R142, R144, R172, R173) -/

namespace Sys2Proof.Laws

open Sys2Proof.Machine Sys2Proof.Claims

theorem settleOff_eq (s : State) (i : Instr) (c n seq : Nat) :
    ({ s with dev := Dev.settleOff { s.dev with cursor := none } i c n seq } : State) =
      if classOf i = .V then later 1 (.slotResultDeliver c seq n none) (onBlock c (inPhase n .off) (seen s))
      else onBlock c (inPhase n .off) (seen s) := by
  unfold Dev.settleOff
  split
  · next h =>
    rw [if_pos h]
    rfl
  all_goals
    next h =>
      rw [if_neg (by rw [h]; decide)]
      rfl

/-! ### Exits (R92, R142, R144) -/

/-- A slot takes an exit of its block: the first, or one too many (`takesExit_first`, `takesExit_second`). -/
def takesExit (s : State) (sh : Shot) (x : Exit) : State := { s with dev := Dev.takeExit (seen s).dev sh x }

section
variable {s : State} {sh : Shot}

theorem takesExit_first (h : sh.blk.exit = none) (x : Exit) : takesExit s sh x = Exits s sh x := (exit_eq s sh x h).symm

theorem takesExit_second {y : Exit} (h : sh.blk.exit = some y) (x : Exit) : takesExit s sh x = Traps (seen s) sh 0x05 0 0 :=
  (exit2_eq s sh x y h).symm

variable {p : Pred}

theorem fire_takesExit {u : Uses} {i : Instr} {f : Dev → Shot → Dev} {x : Exit} (h : Fires p u s sh) (hp : predOf i = p) (hu : usesOf i = u)
    (hf : f (seen s).dev sh = Dev.takeExit (seen s).dev sh x) : fire i s f = .next (takesExit s sh x) := by
  rw [fire_of_Fires h hp hu, takesExit, ← hf]
  rfl

section
variable (h : Fires p ⟨false, false, false⟩ s sh)
include h

theorem exec_br (o : BitVec 22) : exec (.br p o) s = .next (takesExit s sh (.jump (sh.blk.addr + o.signExtend 64 * 4))) :=
  show execBr p o s = _ from fire_takesExit h rfl rfl rfl

theorem exec_brn : exec (.brn p) s = .next (takesExit s sh (.jump (after sh.blk))) := show execBrn p s = _ from fire_takesExit h rfl rfl rfl

theorem exec_halt : exec (.halt p) s = .next (takesExit s sh .halt) := show execHalt p s = _ from fire_takesExit h rfl rfl rfl

theorem exec_trap (code : BitVec 16) : exec (.trap p code) s = .next (takesExit s sh (.trap sh.n code)) := show execTrap p code s = _ from fire_takesExit h rfl rfl rfl

theorem exec_call (o : BitVec 22) (hroom : sh.k.th.ret.length < 16) :
    exec (.call p o) s = .next (takesExit s sh (.call (sh.blk.addr + o.signExtend 64 * 4))) :=
  show execCall p o s = _ from fire_takesExit h rfl rfl (if_neg (Nat.not_le.2 hroom))

theorem exec_call_deep (o : BitVec 22) (hfull : 16 ≤ sh.k.th.ret.length) : exec (.call p o) s = .next (Traps (seen s) sh 0x0A 0 0) :=
  show execCall p o s = _ from fire_traps h rfl rfl (if_pos hfull)

theorem exec_ret (hret : sh.k.th.ret ≠ []) : exec (.ret p) s = .next (takesExit s sh .ret) := show execRet p s = _ from fire_takesExit h rfl rfl (if_neg hret)

theorem exec_ret_empty (hret : sh.k.th.ret = []) : exec (.ret p) s = .next (Traps (seen s) sh 0x0B 0 0) := show execRet p s = _ from fire_traps h rfl rfl (if_pos hret)

theorem exec_eret (hinh : sh.k.th.inh = true) : exec (.eret p) s = .next (takesExit s sh .eret) := show execEret p s = _ from fire_takesExit h rfl rfl (if_pos hinh)

theorem exec_eret_outside (hinh : sh.k.th.inh = false) :
    exec (.eret p) s = .next (Traps (seen s) sh 0x0D (sh.sl.word.setWidth 64) 0) :=
  show execEret p s = _ from fire_traps h rfl rfl (if_neg (by rw [hinh]; decide))

end

section
variable (h : Fires p ⟨true, false, false⟩ s sh)
include h

theorem exec_bri : exec (.bri p) s = .next (takesExit s sh (.jump sh.a)) := show execBri p s = _ from fire_takesExit h rfl rfl rfl

theorem exec_calli (hroom : sh.k.th.ret.length < 16) : exec (.calli p) s = .next (takesExit s sh (.call sh.a)) :=
  show execCalli p s = _ from fire_takesExit h rfl rfl (if_neg (Nat.not_le.2 hroom))

theorem exec_calli_deep (hfull : 16 ≤ sh.k.th.ret.length) : exec (.calli p) s = .next (Traps (seen s) sh 0x0A 0 0) :=
  show execCalli p s = _ from fire_traps h rfl rfl (if_pos hfull)

theorem exec_brcT (o : BitVec 22) : exec (.brcT p o) s = .next (takesExit s sh
    (.jump (if sh.a.getLsbD 0 then sh.blk.addr + o.signExtend 64 * 4 else after sh.blk))) := show execBrcT p o s = _ from fire_takesExit h rfl rfl rfl

theorem exec_brcF (o : BitVec 22) : exec (.brcF p o) s = .next (takesExit s sh
    (.jump (if sh.a.getLsbD 0 then after sh.blk else sh.blk.addr + o.signExtend 64 * 4))) := show execBrcF p o s = _ from fire_takesExit h rfl rfl rfl

end
end

end Sys2Proof.Laws

namespace Sys2Proof.Proofs

open Sys2Proof.Machine Sys2Proof.Claims Sys2Proof.Laws

/-- Settles O8: whatever the instruction, its slot is settled as off (`fire_off`, `settleOff_eq`). -/
theorem predicatedOff : Obligations.PredicatedOff := by
  intro i s sh hi ⟨hcur, hcast, hblk, hslot, hidle, hoff⟩
  obtain ⟨f, hf⟩ := exec_eq_fire i s hi
  rw [hf, fire_off f hcur hcast hblk hslot hidle hoff, ← settleOff_eq]
  rfl

/-- Settles O1: each computes its result from A and B; a shift count is B[5:0]. -/
theorem addLogicShift : Obligations.AddLogicShift := by
  intro p b a s sh h
  have hcount : shiftCount sh.b = sh.b.toNat % 64 := field_low sh.b 6
  exact ⟨show execAdd p b a s = _ from fireValue_delivers h rfl rfl rfl,
    show execSub p b a s = _ from fireValue_delivers h rfl rfl rfl,
    show execAnd p b a s = _ from fireValue_delivers h rfl rfl rfl,
    show execOr p b a s = _ from fireValue_delivers h rfl rfl rfl,
    show execXor p b a s = _ from fireValue_delivers h rfl rfl rfl,
    show execAndn p b a s = _ from fireValue_delivers h rfl rfl rfl,
    show execShl p b a s = _ from fireValue_delivers h rfl rfl (congrArg (sh.a <<< ·) hcount),
    show execShr p b a s = _ from fireValue_delivers h rfl rfl (congrArg (sh.a >>> ·) hcount),
    show execSar p b a s = _ from fireValue_delivers h rfl rfl (congrArg sh.a.sshiftRight hcount),
    fun n => show execAddsh p n b a s = _ from fireValue_delivers h rfl rfl rfl⟩

/-- Settles O10: each exit is one that its slot takes; of a block that has taken none it is the block's, of any other it is one too many. -/
theorem exitsTaken : Obligations.ExitsTaken := by
  refine ⟨fun p o s sh hx => ?first, fun p o s sh x hx => ?second⟩
  case first =>
    have hfirst := takesExit_first (s := s) hx
    refine ⟨fun h => ?_, fun h => ?_⟩
    · refine ⟨?_, ?_, fun hroom => ?_, exec_call_deep h o, fun hret => ?_, exec_ret_empty h, fun code => ?_, fun hinh => ?_, exec_eret_outside h, ?_⟩
      · rw [exec_br h, hfirst]
      · rw [exec_brn h, hfirst]; rfl
      · rw [exec_call h o hroom, hfirst]
      · rw [exec_ret h hret, hfirst]
      · rw [exec_trap h, hfirst]
      · rw [exec_eret h hinh, hfirst]
      · rw [exec_halt h, hfirst]
    · refine ⟨?_, fun hroom => ?_, exec_calli_deep h, ?_, ?_⟩
      · rw [exec_bri h, hfirst]
      · rw [exec_calli h hroom, hfirst]
      · rw [exec_brcT h, hfirst]; rfl
      · rw [exec_brcF h, hfirst]; rfl
  case second =>
    have hsecond := takesExit_second (s := s) hx
    refine ⟨fun h => ⟨?_, fun code => ?_, fun hroom => ?_, fun hret => ?_, fun hinh => ?_⟩, fun h => ⟨?_, fun hroom => ?_⟩⟩
    · simp [exec_br h, exec_brn h, exec_halt h, hsecond]
    · rw [exec_trap h, hsecond]
    · rw [exec_call h o hroom, hsecond]
    · rw [exec_ret h hret, hsecond]
    · rw [exec_eret h hinh, hsecond]
    · simp [exec_bri h, exec_brcT h, exec_brcF h, hsecond]
    · rw [exec_calli h hroom, hsecond]

end Sys2Proof.Proofs

/-! ## Blocks: commit, delivery, and where a thread goes on (R83, R85, R86, R92, R93, R97, R177, R183) -/

namespace Sys2Proof.Laws

open Sys2Proof.Machine Sys2Proof.Claims

/-! ### Commit (R92, R93) -/

theorem Block.finished_iff (b : Block) : b.finished = true ↔ ∀ sl ∈ b.slots, sl.lit = true ∨ sl.phase = .done ∨ sl.phase = .off := by
  simp [Block.finished, or_assoc]

theorem commit_eq (s : State) (c : Nat) (b : Block) (x : Exit) : ({ s with dev := s.dev.commit c b x } : State) =
    let m : State := b.effects.foldl (fun s e => made c e.2 s) (written c b s)
    { m with dev := m.dev.applyExit c b x } := by
  have hwritten : written c b s = { s with dev := s.dev.modCast c fun k => { k with progress := true, th := { k.th.writeAll b.writes with
      blk := none, seq := k.th.seq + 1, startTask := k.th.startTask && k.th.inh } } } := by
    simp only [writeAll_eq]
    rfl
  simp only [hwritten, foldl_made]
  rfl

section
variable {s : State} {c : Nat} {k : Cast} {b : Block} (hk : s.dev.casts.find c = some k) (hb : k.th.blk = some b) (hbegun : b.begun = true)
  (hclash : b.clash = none)
include hk hb

theorem settled_unfinished (h : ¬ b.finished = true) : settled c s = s := by
  simp [settled, Dev.tryCommit, hk, hb, h]

include hbegun hclash

theorem settled_finished (h : b.finished = true) : settled c s =
    match b.exit with
    | some x => { s with dev := s.dev.commit c b x }
    | none => { s with dev := s.dev.takeTrap c { cause := 0x06, restart := b.addr } } := by
  simp only [settled, Dev.tryCommit, hk, hb, hbegun, hclash, h, Option.isNone_none, Bool.and_self, if_true]
  cases b.exit <;> rfl

theorem settled_noExit (h : b.finished = true) (hx : b.exit = none) :
    settled c s = { s with dev := s.dev.takeTrap c { cause := 0x06, restart := b.addr } } := by
  rw [settled_finished hk hb hbegun hclash h, hx]

theorem settled_commits (h : b.finished = true) {x : Exit} (hx : b.exit = some x) : settled c s =
    let m : State := b.effects.foldl (fun s e => made c e.2 s) (written c b s)
    { m with dev := m.dev.applyExit c b x } := by
  rw [settled_finished hk hb hbegun hclash h, hx]
  exact commit_eq s c b x

end

/-! ### Delivery (R83, R85, R86) -/

/-- Slot `n` has delivered: its targets are served, and it is done. -/
def delivered (n : Nat) (v : Option Word) (ts : List Target) (b : Block) : Block :=
  (servedAll n v ts b).modSlot n fun sl => { sl with load := none, phase := if sl.phase = .off then .off else .done }

theorem exec_slotResultDeliver {s : State} {c n : Nat} {k : Cast} {b : Block} {sl : Slot} {i : Instr} (v : Option Word)
    (hk : s.dev.casts.find c = some k) (hb : k.th.blk = some b) (hs : b.slots[n]? = some sl) (hi : sl.instr = some i) :
    exec (.slotResultDeliver c b.seq n v) s = .next (settled c (onThread c (fun t =>
      { t with blk := some (delivered n v (targetsOf i) b) }) s)) := by
  show execSlotResultDeliver c b.seq n v s = _
  simp only [execSlotResultDeliver, hk, hb, hs, hi, ne_eq, not_true_eq_false, if_false, Option.bind_some]
  rfl

theorem exec_slotResultDeliver_stale {s : State} {c n seq : Nat} {k : Cast} {b : Block} (v : Option Word)
    (hk : s.dev.casts.find c = some k) (hb : k.th.blk = some b) (hseq : seq ≠ b.seq) : exec (.slotResultDeliver c seq n v) s = .next s := by
  show execSlotResultDeliver c seq n v s = _
  simp only [execSlotResultDeliver, hk, hb, if_pos hseq.symm]

/-- The operand is complete with NULL (R85). -/
def completeNull (o : Operand) : Bool := decide (0 < o.feeders ∧ o.feeders ≤ o.nulls)

theorem Slot.receive_eq {kind : Nat} (h1 : 1 ≤ kind) (h4 : kind ≤ 4) (sl : Slot) (v : Option Word) : sl.receive kind v =
    let r := (operandOf kind sl).receive (completeNull (operandOf kind sl)) v
    (withOperand kind r.1 sl, r.2) := by
  obtain rfl | rfl | rfl | rfl : kind = 1 ∨ kind = 2 ∨ kind = 3 ∨ kind = 4 := by omega
  all_goals rfl

theorem withOperand_self (sl : Slot) : ∀ kind, withOperand kind (operandOf kind sl) sl = sl
  | 0 | 1 | 2 | 3 | _ + 4 => rfl

theorem Block.serve_discard {t : Target} (h : Target.kind t = 0) (b : Block) (n : Nat) (v : Option Word) : b.serve n v t = b := by
  simp only [Block.serve, h]

theorem Block.serve_register {t : Target} (h : Target.kind t = 5) (b : Block) (n : Nat) (v : Option Word) :
    b.serve n v t = { b with writes := insertBySlot n (Target.index t, v) b.writes } := by
  simp only [Block.serve, h]

theorem Block.serve_operand {t : Target} {b : Block} {sl : Slot} (h1 : 1 ≤ Target.kind t) (h4 : Target.kind t ≤ 4)
    (hs : b.slots[Target.index t]? = some sl) (n : Nat) {v : Option Word} {o : Operand} {clash : Bool}
    (hr : (operandOf (Target.kind t) sl).receive (completeNull (operandOf (Target.kind t) sl)) v = (o, clash)) : b.serve n v t =
    { b with slots := b.slots.set (Target.index t) (withOperand (Target.kind t) o sl)
             clash := if clash then some (min (Target.index t) (b.clash.getD (Target.index t))) else b.clash } := by
  rw [Block.serve]
  split
  · omega
  · omega
  · simp only [hs, Slot.receive_eq h1 h4, hr]

theorem Operand.receive_null (o : Operand) (late : Bool) : o.receive late none = ({ o with nulls := o.nulls + 1 }, false) := rfl

theorem Operand.receive_first {o : Operand} (hv : o.val = none) (hf : o.feeders = 0 ∨ o.nulls < o.feeders) (x : Word) :
    o.receive (completeNull o) (some x) = ({ o with val := some x }, false) := by
  have hlate : completeNull o = false := by simp only [completeNull, decide_eq_false_iff_not]; omega
  rw [Operand.receive, hv, hlate]
  rfl

theorem Operand.receive_clash {o : Operand} (h : o.val.isSome = true ∨ (0 < o.feeders ∧ o.feeders ≤ o.nulls)) (x : Word) :
    o.receive (completeNull o) (some x) = (o, true) := by
  have hlate : (o.val.isSome || completeNull o) = true := by simpa [completeNull] using h
  rw [Operand.receive, if_pos hlate]

/-! ### Where a thread goes on (R97, R177) -/

theorem Thread.waitOver_done {w : WaitSt} (t : Thread) (h : w.done = true) : t.waitOver w = true := by rw [Thread.waitOver, h, Bool.true_or]

theorem Thread.waitOver_strmWait {t : Thread} {w : WaitSt} (h : w.wait = .strmWait) : t.waitOver w = true ↔ w.done = true ∨ t.armst ≠ 1 := by
  simp [Thread.waitOver, h]

theorem Thread.waitOver_waitTok {t : Thread} {w : WaitSt} {mask : BitVec 8} {task : Bool} (h : w.wait = .waitTok mask task) :
    t.waitOver w = true ↔ w.done = true ∨ (∃ ch < 8, mask.getLsbD ch = true ∧ t.popsOn ch < (t.pop.get [] ch).length) ∨
      (task = true ∧ t.taskToken.isSome = true) := by
  simp [Thread.waitOver, h, bitAt, Thread.popReady]

theorem Thread.waitOver_event {t : Thread} {w : WaitSt} (htok : ∀ mask task, w.wait ≠ .waitTok mask task) (hstrm : w.wait ≠ .strmWait) :
    t.waitOver w = w.done := by
  unfold Thread.waitOver
  split
  · next h => exact absurd h hstrm
  · next h => exact absurd h (htok _ _)
  · rw [Bool.or_false]

/-- The thread fetches, or pauses at a YIELD first. -/
def fetchesNext (t : Thread) (now : Nat) : Thread :=
  { t with wait := none, yieldNext := false, mode := if t.yieldNext then .pausing (now + 4) else .fetch (now + 1) }

theorem Thread.goOn_free {t : Thread} (now : Nat) (h : t.wait = none) : t.goOn now = fetchesNext t now := by
  cases t
  cases h
  rfl

theorem Thread.goOn_over {t : Thread} {w : WaitSt} (now : Nat) (h : t.wait = some w) (hover : t.waitOver w = true) :
    t.goOn now = fetchesNext t now := by
  simp only [Thread.goOn, h, if_pos hover]
  rfl

theorem Thread.goOn_waits {t : Thread} {w : WaitSt} (now : Nat) (h : t.wait = some w) (hover : ¬ t.waitOver w = true) :
    t.goOn now = { t with mode := .waiting } := by
  simp only [Thread.goOn, h, if_neg hover]

end Sys2Proof.Laws

namespace Sys2Proof.Proofs

open Sys2Proof.Machine Sys2Proof.Claims Sys2Proof.Laws

/-- Settles O22: a block that is not finished goes on; a finished one traps NOEXIT (`settled_noExit`) or commits (`settled_commits`). -/
theorem blockCommits : Obligations.BlockCommits := by
  intro s c k b hk hb hbegun hclash
  refine ⟨fun ⟨sl, hsl, hlit, hphase⟩ => settled_unfinished hk hb fun hfin => ?_, fun hall => ?_⟩
  · rcases (Block.finished_iff b).1 hfin sl hsl with h | h | h <;> simp_all
  · have hfin := (Block.finished_iff b).2 hall
    have hcommits := fun {x} => settled_commits hk hb hbegun hclash hfin (x := x)
    exact ⟨settled_noExit hk hb hbegun hclash hfin, fun a => hcommits, fun a => hcommits, hcommits, hcommits, hcommits, fun n code => hcommits⟩

/-- Settles O30: the delivery of a slot's result (`exec_slotResultDeliver`), and what each of its targets takes (`Block.serve_operand`). -/
theorem resultDelivery : Obligations.ResultDelivery := by
  refine ⟨fun s c n k b sl i v hk hb hs hi => ⟨exec_slotResultDeliver v hk hb hs hi, fun seq hseq => exec_slotResultDeliver_stale v hk hb hseq⟩, ?_⟩
  intro b n t sl x
  refine ⟨fun h v => Block.serve_discard h b n v, fun h v => Block.serve_register h b n v, fun h1 h4 hs => ?_⟩
  refine ⟨?_, fun hv hf => ?_, fun h => ?_⟩
  · exact Block.serve_operand h1 h4 hs n (Operand.receive_null _ _)
  · exact Block.serve_operand h1 h4 hs n (Operand.receive_first hv hf x)
  · rw [Block.serve_operand h1 h4 hs n (Operand.receive_clash h x), withOperand_self]
    rfl

/-- Settles O23: a thread fetches unless a wait is open that is not over (`Thread.goOn_over`, `Thread.goOn_waits`). -/
theorem goesOn : Obligations.GoesOn := by
  intro t now w
  refine ⟨Thread.goOn_free now, fun hw hover => Thread.goOn_over now hw ?_, fun mask task ch hw hwait hch hmask htok => Thread.goOn_over now hw ?_,
    fun mask hw hwait htask => Thread.goOn_over now hw ?_, fun hw hdone htok hstrm => Thread.goOn_waits now hw ?_,
    fun hw hdone hwait harm => Thread.goOn_waits now hw ?_, fun mask task hw hdone hwait htask hnone => Thread.goOn_waits now hw ?_⟩
  · rcases hover with hdone | ⟨hwait, harm⟩
    · exact Thread.waitOver_done t hdone
    · exact (Thread.waitOver_strmWait hwait).2 (.inr harm)
  · exact (Thread.waitOver_waitTok hwait).2 (.inr (.inl ⟨ch, hch, hmask, htok⟩))
  · exact (Thread.waitOver_waitTok hwait).2 (.inr (.inr ⟨rfl, htask⟩))
  · simp [Thread.waitOver_event htok hstrm, hdone]
  · rw [Thread.waitOver_strmWait hwait]
    simp [hdone, harm]
  · rw [Thread.waitOver_waitTok hwait]
    rintro (h | ⟨ch, hch, hmask, htok⟩ | ⟨ht, hsome⟩)
    · exact absurd (hdone.symm.trans h) (by decide)
    · exact absurd (hnone ch hch hmask) (Nat.not_le.2 htok)
    · rcases htask with h | h <;> simp_all

end Sys2Proof.Proofs

/-! ## Trap entry (R182, R183) -/

namespace Sys2Proof.Laws

open Sys2Proof.Machine Sys2Proof.Claims

theorem tcause_eq (tr : Trap) (lost : Bool) : tr.tcause lost = causeWord tr lost := rfl

theorem filter_waiting (w : Option WaitSt) (p : WaitSt → Bool) : w.filter p = if w.any p then w else none := by
  cases w with
  | none => rfl
  | some w => cases h : p w <;> simp [Option.filter, h]

/-- A trap is not double when it comes outside a handler, is asynchronous, or is BKPT (R184, R185). -/
theorem not_double {tr : Trap} {inh : Bool} (h : inh = false ∨ tr.async = true ∨ tr.cause = 0x20) : (inh && tr.sync) = false := by
  rcases h with h | h | h <;> simp [Trap.sync, h]

theorem takeTrap_enters {d : Dev} {c : Nat} {k : Cast} {tr : Trap} (hk : d.casts.find c = some k) (htvec : k.th.tvec ≠ 0)
    (hsingle : (k.th.inh && tr.sync) = false) : d.takeTrap c tr = d.modTh c fun t => t.enter tr d.now := by
  simp only [Dev.takeTrap, hk, hsingle, beq_eq_false_iff_ne.2 htvec, Bool.or_self, Bool.false_eq_true, if_false]

end Sys2Proof.Laws

namespace Sys2Proof.Proofs

open Sys2Proof.Machine Sys2Proof.Claims Sys2Proof.Laws

/-- Settles O26: the handler is entered (`takeTrap_enters`), and an open wait is the one that is saved (`filter_waiting`). -/
theorem trapEntry : Obligations.TrapEntry := by
  intro s c k tr hk htvec hsingle
  rw [takeTrap_enters hk htvec (not_double hsingle)]
  simp only [Thread.enter, filter_waiting, tcause_eq]
  rfl

end Sys2Proof.Proofs

/-! ## Asynchronous causes, replies, pauses and halts (R94, R148, R177, R186, R187) -/

namespace Sys2Proof.Laws

open Sys2Proof.Machine Sys2Proof.Claims

/-- A cause passes those of its clock that have no higher code (R186). -/
theorem insertCause_append {a : AsyncCause} {l : List AsyncCause} (h : ∀ b ∈ l, b.at_ = a.at_ → b.code.toNat ≤ a.code.toNat)
    (rest : List AsyncCause) : insertCause a (l ++ rest) = l ++ insertCause a rest := by
  induction l with
  | nil => rfl
  | cons b l ih =>
    have hpass : ¬ (b.at_ = a.at_ ∧ a.code.toNat < b.code.toNat) := fun hb => absurd (h b (by simp) hb.1) (Nat.not_le.2 hb.2)
    rw [List.cons_append, insertCause, if_neg hpass, ih fun x hx => h x (by simp [hx]), List.cons_append]

theorem insertCause_before {a b : AsyncCause} (rest : List AsyncCause) (hat : b.at_ = a.at_) (hcode : a.code.toNat < b.code.toNat) :
    insertCause a (b :: rest) = a :: b :: rest := by
  rw [insertCause, if_pos ⟨hat, hcode⟩]

theorem Thread.writeReply_plain {p : PendingCmd} (h : p.kind = .plain) (t : Thread) (v0 v1 : Word) :
    t.writeReply p v0 v1 = registerSet p.tb v1 (registerSet p.ta v0 t) := by
  simp [Thread.writeReply, h, registerSet, Thread.writeTarget, Thread.setReg]

theorem registerSet_pend (x : Target) (v : Word) (t : Thread) (ps : List PendingCmd) :
    { registerSet x v t with pend := ps } = registerSet x v { t with pend := ps } := by
  unfold registerSet; split <;> rfl

/-- The reply to the only command outstanding is written at once (R94). -/
theorem Thread.reply_only {t : Thread} {p : PendingCmd} (hpend : t.pend = [p]) (hreply : p.reply = none) (hkind : p.kind = .plain)
    (v0 v1 : Word) : t.reply p.pid v0 v1 = registerSet p.tb v1 (registerSet p.ta v0 { t with pend := [] }) := by
  have hplain : ({ p with reply := some (v0, v1) } : PendingCmd).kind = .plain := hkind
  simp [Thread.reply, hpend, hreply, Thread.flushReplies, Thread.writeReply_plain hplain, registerSet_pend]

/-- A reply is kept while that to an earlier command is outstanding (R94). -/
theorem Thread.reply_second {t : Thread} {p q : PendingCmd} (hpend : t.pend = [p, q]) (hp : p.reply = none) (hq : q.reply = none)
    (hpid : p.pid ≠ q.pid) (v0 v1 : Word) : t.reply q.pid v0 v1 = { t with pend := [p, { q with reply := some (v0, v1) }] } := by
  simp [Thread.reply, hpend, hpid, hp, hq, Thread.flushReplies]

theorem Thread.wake_eq (t : Thread) (now : Nat) : t.wake now = if t.mode = .waiting then t.goOn now else t := by
  unfold Thread.wake
  split <;> simp_all

theorem find_modTh {d : Dev} {c : Nat} {k : Cast} {f : Thread → Thread} (hk : d.casts.find c = some k) :
    (d.modTh c f).casts.find c = some { k with th := f k.th } :=
  find_modCast hk

theorem unfreeze_running {d : Dev} {c : Nat} {k : Cast} (hk : d.casts.find c = some k) (hfrozen : k.frozen = false) : d.unfreeze c = d := by
  simp [Dev.unfreeze, hk, hfrozen]

theorem clashTrap_none {d : Dev} {c : Nat} {k : Cast} (hk : d.casts.find c = some k) (hclash : ∀ b, k.th.blk = some b → b.clash = none) :
    d.clashTrap c = d := by
  cases hb : k.th.blk with
  | none => simp [Dev.clashTrap, hk, hb]
  | some b => simp [Dev.clashTrap, hk, hb, hclash b hb]

theorem Cast.stand_eq (k : Cast) (now : Nat) :
    k.stand now = { k with frozen := true, frozenAt := if k.frozen then k.frozenAt else now } := by
  obtain ⟨⟩ := k
  unfold Cast.stand
  split <;> simp_all

section
variable {s : State} {c : Nat} {k : Cast}

theorem exec_asyncTrapTake {a : AsyncCause} {rest : List AsyncCause} (hk : s.dev.casts.find c = some k) (hq : k.th.asyncQ = a :: rest)
    (hinh : k.th.inh = false) (hb : k.th.blk = none) : exec (.asyncTrapTake c) s = .next (trapped c
      { cause := a.code, sub := a.sub, async := true, i0 := a.info0, i1 := a.info1, i2 := a.info2, i3 := a.info3, restart := k.th.pc }
      (onThread c (fun t => { t with asyncQ := rest }) s)) := by
  show execAsyncTrapTake c s = _
  simp only [execAsyncTrapTake, hk, hq, hinh, hb]
  rfl

theorem exec_rootDoneArrive : exec (.rootDoneArrive c) s = .next (onThread c (fun t => if t.armst = 1 then
    (if t.mode = .waiting then { t with armst := 2 }.goOn s.dev.now else { t with armst := 2 }) else t) s) := by
  show execRootDoneArrive c s = _
  simp only [execRootDoneArrive, Thread.wake_eq]
  rfl

/-- The pause of a YIELD ends, and no task takes the thread's place (R177). -/
theorem exec_yieldPauseEnd_on {u : Nat} (hk : s.dev.casts.find c = some k) (hmode : k.th.mode = .pausing u) (hdue : u ≤ s.dev.now)
    (hnone : s.dev.yieldFor c k = none) (hfrozen : k.frozen = false) :
    exec (.yieldPauseEnd c) s = .next (onThread c (fun t => { t with mode := .fetch s.dev.now }) s) := by
  show execYieldPauseEnd c s = _
  simp only [execYieldPauseEnd, hk, hmode, Nat.not_lt.2 hdue, hnone, if_false]
  rw [unfreeze_running (find_modTh hk) hfrozen]
  rfl

/-- A thread that gives way stands still until the accesses of its cast have ended (R213, R430). -/
theorem exec_yieldPauseEnd_stands {u : Nat} {x : Cand} (hk : s.dev.casts.find c = some k) (hmode : k.th.mode = .pausing u)
    (hdue : u ≤ s.dev.now) (hsome : s.dev.yieldFor c k = some x) (hfrozen : k.frozen = false) (hquiet : k.threadQuiet = true)
    (hsave : s.dev.saveReady c k = false) : exec (.yieldPauseEnd c) s = .next (onCast c (fun k => { k with
      frozen := true, frozenAt := if k.frozen then k.frozenAt else s.dev.now, saving := some .yield }) s) := by
  have hend : s.dev.canEndPause c k = true := by simp [Dev.canEndPause, hfrozen, hquiet]
  show execYieldPauseEnd c s = _
  simp only [execYieldPauseEnd, hk, hmode, Nat.not_lt.2 hdue, hsome, hend, hsave, if_false, Bool.not_true, Bool.false_eq_true,
    Cast.standForYield, Cast.stand_eq]
  rfl

theorem exec_preemptHalt (hk : s.dev.casts.find c = some k) (hclash : ∀ b, k.th.blk = some b → b.clash = none) :
    exec (.preemptHalt c) s = .next (onCast c (fun k => { k with
      frozen := true, frozenAt := if k.frozen then k.frozenAt else s.dev.now, saving := k.saving.filter fun x => x != .yield
      th := k.th.halt s.dev.now }) s) := by
  show execPreemptHalt c s = _
  simp only [execPreemptHalt, Dev.freeze, clashTrap_none hk hclash, Cast.stand_eq]
  rfl

end

theorem Thread.halt_block {t : Thread} {b : Block} (now : Nat) (h : t.blk = some b) :
    t.halt now = { t with blk := none, seq := t.seq + 1, pc := b.addr, mode := .fetch now } := by
  simp only [Thread.halt, h, Thread.discard]

theorem Thread.halt_pause {t : Thread} {u : Nat} (now : Nat) (hb : t.blk = none) (hmode : t.mode = .pausing u) :
    t.halt now = { t with mode := .fetch now } := by
  simp only [Thread.halt, hb, hmode]

theorem Thread.halt_between {t : Thread} (now : Nat) (hb : t.blk = none) (hmode : ∀ u, t.mode ≠ .pausing u) : t.halt now = t := by
  cases hm : t.mode with
  | pausing u => exact absurd hm (hmode u)
  | _ => simp only [Thread.halt, hb, hm]

end Sys2Proof.Laws

namespace Sys2Proof.Proofs

open Sys2Proof.Machine Sys2Proof.Claims Sys2Proof.Laws

/-- Settles O31: an equation for each event of a thread. -/
theorem threadEvents : Obligations.ThreadEvents := by
  intro s c k hk
  refine ⟨fun a => rfl, fun a l h => ⟨?_, fun b rest hat hcode => ?_⟩, fun a rest => exec_asyncTrapTake hk, fun pid v0 v1 => rfl,
    fun t p v0 v1 hpend hreply hkind => Thread.reply_only hpend hreply hkind v0 v1,
    fun t p q v0 v1 hpend hp hq hpid => Thread.reply_second hpend hp hq hpid v0 v1, exec_rootDoneArrive,
    fun u => exec_yieldPauseEnd_on hk, fun u x => exec_yieldPauseEnd_stands hk, exec_preemptHalt hk,
    fun t now => ⟨fun b => Thread.halt_block now, fun u => Thread.halt_pause now, Thread.halt_between now⟩⟩
  · simpa [insertCause] using insertCause_append h []
  · rw [insertCause_append h, insertCause_before rest hat hcode]

end Sys2Proof.Proofs

/-! ## Stores, fences, tokens and register writes at commit (R93, R137, R140, R147, R174, R177, R224) -/

namespace Sys2Proof.Laws

open Sys2Proof.Machine Sys2Proof.Claims

theorem isAccess_eq (i : Instr) : isAccess i = touchesMemory i := by cases i <;> rfl

theorem withId_eq (id : Nat) (i : Instr) : withId id i = withNumber id i := by cases i <;> rfl

theorem actSpan_eq (i : Instr) : actSpan i = spanOf i := by cases i <;> rfl

theorem enqueue_eq (t : Thread) (stores due lane : Nat) (rel : Bool) (pa len : Nat) (data : List Byte) (act : Instr) :
    t.enqueue stores due lane rel pa len data act = sent stores due lane rel pa len data act t := by
  simp only [Thread.enqueue, sent, isAccess_eq, withId_eq]

theorem upd_id {α : Type} (n : Nat) : ∀ t : Tbl α, (t.upd n fun x => x) = t
  | [] => rfl
  | (k, v) :: t => by rw [Tbl.upd, upd_id n t, ite_self]

theorem modTh_id (d : Dev) (c : Nat) : (d.modTh c fun t => t) = d := by
  simp only [Dev.modTh, Dev.modCast, upd_id]

/-- OOB, the bits of TSTAT that a write of 1 clears (R9, R181). -/
theorem oob_bits (v : Word) : BitVec.ofNat 4 (field v 8 4) = v.extractLsb' 8 4 := by
  apply BitVec.eq_of_toNat_eq
  simp [field, BitVec.extractLsb'_toNat, Nat.shiftRight_eq_div_pow]

theorem Thread.sysWrite_tstat (t : Thread) (tenant : Nat) (v : Word) : t.sysWrite tenant .tstat v =
    { t with wres := t.wres && v.getLsbD 1, saved := if v.getLsbD 1 then t.saved else none, savedYield := t.savedYield && v.getLsbD 1
             dbg := if tenant = 0 then v.getLsbD 2 else t.dbg, oob := t.oob &&& ~~~ v.extractLsb' 8 4 } := by
  rw [← oob_bits]
  simp only [Thread.sysWrite, bitAt]
  rcases Bool.eq_false_or_eq_true (v.getLsbD 1) with hres | hres <;> by_cases htenant : tenant = 0 <;>
    simp only [hres, htenant, if_true, if_false, Bool.false_eq_true, Bool.and_true, Bool.and_false]

/-- SYSWR changes no other system register (R174). -/
theorem Thread.sysWrite_readOnly {r : SysReg} (h1 : r ≠ .tvec) (h2 : r ≠ .tcause) (h3 : r ≠ .tpc) (h4 : r ≠ .tstat)
    (t : Thread) (tenant : Nat) (v : Word) : t.sysWrite tenant r v = t := by
  unfold Thread.sysWrite
  split
  · exact absurd rfl h1
  · exact absurd rfl h2
  · exact absurd rfl h3
  · exact absurd rfl h4
  · rfl

section
variable {s : State} {c : Nat} {k : Cast} (hk : s.dev.casts.find c = some k)
include hk

theorem made_store (r : MemReq) (rel : Bool) : ∃ delay, made c (.store r rel) s = drawn (onThread c
    (sent s.dev.replNo (s.dev.now + 1 + delay) 0 rel r.pa r.data.length r.data (.channelRequest r)) s) := by
  refine ⟨Config.openDelay s.dev.free, ?_⟩
  simp only [made, Dev.applyEffect, hk, enqueue_eq]
  rfl

theorem made_syswr (r : SysReg) (v : Word) : made c (.syswr r v) s = onThread c (fun t => t.sysWrite k.tenant r v) s := by
  simp only [made, Dev.applyEffect, hk]
  rfl

theorem made_syswr_readOnly {r : SysReg} (h1 : r ≠ .tvec) (h2 : r ≠ .tcause) (h3 : r ≠ .tpc) (h4 : r ≠ .tstat) (v : Word) :
    made c (.syswr r v) s = s := by
  rw [made_syswr hk]
  simp only [Thread.sysWrite_readOnly h1 h2 h3 h4]
  exact congrArg (State.mk s.mem) (modTh_id s.dev c)

theorem made_push (ch : Nat) (tok : Token) : made c (.push ch tok) s =
    if k.detached then s else onThread c (fun t => { t with push := t.push.set [] ch (t.push.get [] ch ++ [tok]) }) s := by
  simp only [made, Dev.applyEffect, hk, mk_ite]
  rfl

theorem made_stl (n e : Nat) (off : Word) (size : Nat) (v : Word) : made c (.stl n e off size v) s = onBank c n (fun b =>
    let at_ := (b.hnd.get {} e).base + off.toNat
    let bytes := (List.range size).foldl (fun t i => t.set 0 (at_ + i) (BitVec.ofNat 8 (v.toNat / 256 ^ i))) b.mem
    touched s.dev.now e off.toNat { b with mem := bytes }) s := by
  simp only [made, Dev.applyEffect, hk]
  exact mk_onBank s.mem s.dev c n _

end

end Sys2Proof.Laws

namespace Sys2Proof.Proofs

open Sys2Proof.Machine Sys2Proof.Claims Sys2Proof.Laws

/-- Settles O24: an equation for each effect. -/
theorem effectsLeave : Obligations.EffectsLeave := by
  intro s c k hk
  refine ⟨made_store hk, ?_, ?_, ?_, ?_, fun v => ⟨made_syswr hk .tvec v, made_syswr hk .tcause v, made_syswr hk .tpc v, ?_, fun r h1 h2 h3 h4 => made_syswr_readOnly hk h1 h2 h3 h4 v⟩,
    made_push hk, fun loob => ?_, made_stl hk⟩
  · simp only [made, Dev.applyEffect, hk]
    rfl
  · simp only [made, Dev.applyEffect, hk]
    rfl
  · simp only [made, Dev.applyEffect, hk]
  · simp only [made, Dev.applyEffect, hk]
    rfl
  · rw [made_syswr hk]
    simp only [Thread.sysWrite_tstat]
  · simp only [made, Dev.applyEffect, hk]
    rfl

end Sys2Proof.Proofs

/-! ## Commands and waits at commit (R93, R94, R97, R148 to R157, R164 to R168, R353, R367) -/

namespace Sys2Proof.Laws

open Sys2Proof.Machine Sys2Proof.Claims

/-! ### Writes of K on their way (R154) -/

theorem argDue_write (d : Dev) (l : List (Nat × Instr)) (c n u x delay : Nat) (v : BitVec 32) :
    ({ d with agenda := (u, .argWriteArrive c n x v) :: l } : Dev).argDue c n delay =
      ({ d with agenda := l } : Dev).argDue c n (max delay (u - d.now)) := by
  simp [Dev.argDue]

theorem argDue_other {e : Nat × Instr} {c n : Nat} (h : ∀ x v, e.2 ≠ .argWriteArrive c n x v) (d : Dev) (l : List (Nat × Instr)) (delay : Nat) :
    ({ d with agenda := e :: l } : Dev).argDue c n delay = ({ d with agenda := l } : Dev).argDue c n delay := by
  simp only [Dev.argDue, List.foldl_cons]
  congr 1
  split
  · next x v heq => exact if_neg fun hsite => h x v (by rw [heq, hsite.1, hsite.2])
  · rfl

/-- The write is due no earlier than its delay and than those on their way to the site, and no later than the last of these. -/
theorem argDue_spec (d : Dev) (c n : Nat) : ∀ (l : List (Nat × Instr)) (delay : Nat), let due := ({ d with agenda := l } : Dev).argDue c n delay
    delay ≤ due ∧ (∀ t x v, (t, .argWriteArrive c n x v) ∈ l → t ≤ d.now + due) ∧
      (due = delay ∨ ∃ x v, (d.now + due, .argWriteArrive c n x v) ∈ l)
  | [], delay => ⟨Nat.le_refl _, fun t x v h => absurd h List.not_mem_nil, .inl rfl⟩
  | (u, i) :: l, delay => by
    by_cases hwrite : ∃ x v, i = .argWriteArrive c n x v
    · obtain ⟨x, v, rfl⟩ := hwrite
      rw [argDue_write]
      obtain ⟨hle, hafter, hlast⟩ := argDue_spec d c n l (max delay (u - d.now))
      refine ⟨by omega, fun t x' v' hmem => ?_, ?_⟩
      · rcases List.mem_cons.1 hmem with heq | hmem
        · obtain ⟨rfl, -⟩ := Prod.mk.inj heq
          omega
        · exact hafter t x' v' hmem
      · rcases hlast with hdue | ⟨x', v', hmem⟩
        · by_cases hearly : u - d.now ≤ delay
          · exact .inl (by omega)
          · refine .inr ⟨x, v, List.mem_cons.2 (.inl ?_)⟩
            rw [hdue, show d.now + max delay (u - d.now) = u by omega]
        · exact .inr ⟨x', v', List.mem_cons_of_mem _ hmem⟩
    · rw [argDue_other (fun x v h => hwrite ⟨x, v, h⟩)]
      obtain ⟨hle, hafter, hlast⟩ := argDue_spec d c n l delay
      refine ⟨hle, fun t x v hmem => ?_, hlast.imp_right fun ⟨x, v, hmem⟩ => ⟨x, v, List.mem_cons_of_mem _ hmem⟩⟩
      rcases List.mem_cons.1 hmem with heq | hmem
      · exact absurd ⟨x, v, (Prod.mk.inj heq).2.symm⟩ hwrite
      · exact hafter t x v hmem

/-! ### Senders and waits -/

/-- The thread begins a wait, which takes the next command number (R97). -/
def awaits (w : Wait) (t : Thread) : Thread :=
  { t with wait := some { id := t.nextId, wait := w, done := false }, nextId := t.nextId + 1 }

/-- The thread begins CTX.SW, which stands in the line of those that end phases (R155, R156). -/
def switches (n id : Nat) (first : Bool) (t : Thread) : Thread :=
  { awaits (.ctxSw n) t with phaseOps := t.phaseOps ++ [{ sw := some n, id := id, appended := first }] }

/-- A plain command numbered `pid` awaits its reply (R94). -/
def pends (pid : Nat) (ta tb : Target) (t : Thread) : Thread :=
  { t with pend := t.pend ++ [{ pid := pid, ta := ta, tb := tb, acquire := false, kind := .plain, reply := none }] }

theorem sender_eq {d : Dev} {c : Nat} {k : Cast} (hk : d.casts.find c = some k) (id : Nat) :
    d.sender c id = { cast := c, requester := k.requester, id := id } := by
  simp only [Dev.sender, hk, Option.map_some, Option.getD_some]

theorem issue_eq (d : Dev) (c lane delay pa len : Nat) (rel : Bool) (act : Instr) (hspan : spanOf act = (pa, len)) :
    d.issue c lane rel delay act = d.modTh c (sent d.replNo (d.now + delay) lane rel pa len [] act) := by
  simp only [Dev.issue, enqueue_eq, actSpan_eq, hspan]

section
variable {s : State} {c : Nat} {k : Cast} (hk : s.dev.casts.find c = some k)
include hk

theorem made_issue (lane : Nat) (rel : Bool) (delay : Nat) (act : Instr) (pa len : Nat) (hspan : spanOf act = (pa, len)) :
    made c (.issue lane rel delay act) s = onThread c (sent s.dev.replNo (s.dev.now + delay) lane rel pa len [] act) s := by
  simp only [made, Dev.applyEffect, hk, issue_eq _ _ _ _ _ _ _ _ hspan]
  rfl

theorem made_defer (kind : ReplyKind) (pid : Nat) (ta tb : Target) (acq : Bool) (lane : Nat) (rel : Bool) (delay : Nat) (act : Instr)
    (pa len : Nat) (hspan : spanOf act = (pa, len)) : made c (.defer kind pid ta tb acq lane rel delay act) s =
      onThread c (fun t => sent s.dev.replNo (s.dev.now + delay) lane rel pa len [] act
        { t with pend := t.pend ++ [{ pid := pid, ord := t.nextId, ta := ta, tb := tb, acquire := acq, kind := kind, reply := none,
                                      since := s.dev.now }] }) s := by
  simp only [made, Dev.applyEffect, hk, issue_eq _ _ _ _ _ _ _ _ hspan, Dev.modTh_modTh]
  rfl

theorem made_go_none (hroot : (k.site 0).scwNow.toNat / 2 ^ 80 % 4 = 0) : made c .go s = onThread c (fun t => { t with armst := 2 }) s := by
  have hkind : field (k.site 0).scwNow 80 2 = 0 := hroot
  simp only [made, Dev.applyEffect, hk, if_pos hkind]
  rfl

theorem made_go_root (hroot : (k.site 0).scwNow.toNat / 2 ^ 80 % 4 ≠ 0) :
    made c .go s = later 2 (.pulseArrive c 0 false 0) (onThread c (fun t => { t with armst := 1 }) s) := by
  have hkind : field (k.site 0).scwNow 80 2 ≠ 0 := hroot
  simp only [made, Dev.applyEffect, hk, if_neg hkind]
  rfl

theorem made_pop (pid ch : Nat) (ta tb : Target) : made c (.pop pid ch ta tb) s =
    (let u := onThread c (fun t => { pends pid ta tb t with pops := t.pops ++ [(pid, ch)] }) s; { u with dev := u.dev.servePops c }) := by
  simp only [made, Dev.applyEffect, hk]
  rfl

theorem made_argSet (n ctx : Nat) (v : BitVec 32) (delay : Nat) : made c (.argSet n ctx v delay) s =
    later (s.dev.argDue c n delay) (.argWriteArrive c n ctx v) (onCast c (fun k => { k with argFlight := k.argFlight + 1 }) s) := by
  simp only [made, Dev.applyEffect, hk]
  rfl

/-- A wait begins, and what it sends is sent (R97). -/
theorem made_wait (w : Wait) : made c (.wait w) s = { s with dev := (s.dev.modTh c (awaits w)).beginWait c k.th.nextId w } := by
  simp only [made, Dev.applyEffect, hk]
  rfl

theorem made_wait_silent {w : Wait} (hw : ∀ d : Dev, d.beginWait c k.th.nextId w = d) : made c (.wait w) s = onThread c (awaits w) s := by
  rw [made_wait hk, hw]
  rfl

/-- A wait at an engine sends its request there (R164, R166, R353, R367). -/
theorem made_wait_sends {w : Wait} {lane pa len : Nat} {rel : Bool} {act : Sender → Instr}
    (hw : ∀ d : Dev, d.beginWait c k.th.nextId w = (d.modTh c fun t =>
      t.enqueue d.replNo (d.now + 1 + Config.openDelay d.free) lane rel pa len [] (act (d.sender c k.th.nextId))).tickFree) :
    ∃ delay, made c (.wait w) s = drawn (onThread c (fun t => sent s.dev.replNo (s.dev.now + 1 + delay) lane rel pa len []
      (act { cast := c, requester := k.requester, id := k.th.nextId }) (awaits w t)) s) := by
  refine ⟨Config.openDelay s.dev.free, ?_⟩
  rw [made_wait hk, hw, sender_eq (find_modTh hk), Dev.modTh_modTh]
  simp only [enqueue_eq]
  rfl

theorem made_drain : made c (.wait (.drain false)) s = onThread c (fun t =>
    { awaits (.drain false) t with phaseOps := t.phaseOps ++ [{ sw := none, id := k.th.nextId, appended := false }] }) s := by
  rw [made_wait hk]
  simp only [Dev.beginWait, Dev.modTh_modTh]
  rfl

theorem made_ctxSw (n : Nat) : made c (.wait (.ctxSw n)) s =
    if k.th.phaseOps.isEmpty = true then
      (let u := onThread c (switches n k.th.nextId true) s
       { u with dev := u.dev.appendSources c (fun wide => reconfTok wide n) (.reconf n) })
    else onThread c (switches n k.th.nextId false) s := by
  rw [made_wait hk]
  simp only [Dev.beginWait, find_modTh hk, Option.map_some, Option.getD_some, Dev.modTh_modTh]
  cases hfirst : k.th.phaseOps.isEmpty <;> simp only [awaits, hfirst] <;> rfl

/-- The first CTX.SW appends RECONF at once (R155). -/
theorem made_ctxSw_first (n : Nat) (hnone : k.th.phaseOps = []) : made c (.wait (.ctxSw n)) s =
    (let u := onThread c (switches n k.th.nextId true) s; { u with dev := u.dev.appendSources c (fun wide => reconfTok wide n) (.reconf n) }) := by
  rw [made_ctxSw hk, if_pos (List.isEmpty_iff.2 hnone)]

theorem made_ctxSw_behind (n : Nat) (hopen : k.th.phaseOps ≠ []) :
    made c (.wait (.ctxSw n)) s = onThread c (switches n k.th.nextId false) s := by
  rw [made_ctxSw hk, if_neg (mt List.isEmpty_iff.1 hopen)]

theorem made_leave (h : Word) (delay : Nat) : made c (.leave h delay) s = onThread c (fun t => sent s.dev.replNo (s.dev.now + delay) 1 false 0 0 []
    (.seGrpLeave { cast := c, requester := k.requester } h) { t with gmem := t.gmem.clear h }) s := by
  have hspan : spanOf (.seGrpLeave { cast := c, requester := k.requester } h) = (0, 0) := rfl
  simp only [made, Dev.applyEffect, hk, sender_eq hk, issue_eq _ _ _ _ _ _ _ _ hspan, Dev.modTh_modTh]
  rfl

theorem made_portRes (n : Nat) (act : Resume) : made c (.portRes n act) s = onSite c n (fun x =>
    if x.el.fault.isSome then { x with el := x.el.unfreeze, skip := act == .skip } else x) s := by
  simp only [made, Dev.applyEffect, hk]
  rfl

theorem made_plReq (pid : Nat) (ta : Target) (block : Word) : made c (.plReq pid ta block) s =
    (let u := onThread c (pends pid ta 0) s
     { u with dev := u.dev.ask { src := .thread c, at_ := s.dev.now, requester := k.requester, pid := pid, after := k.th.nextId,
                                 tenant := k.tenant, addr := block } }) := by
  simp only [made, Dev.applyEffect, hk]
  rfl

/-! ### Copy channels (R344, R346, R355) -/

theorem made_cpClose (h : Word) : made c (.cpClose h) s = onChan c (h.toNat % 4) Chan.close s := by
  simp only [made, Dev.applyEffect, hk, chanIx, field_low]
  rfl

theorem made_cpPush (h head : Word) : made c (.cpPush h head) s =
    onChan c (h.toNat % 4) (fun x => { x with queue := x.queue ++ [(head, k.th.nextId, !k.th.phaseOps.isEmpty)] }) s := by
  simp only [made, Dev.applyEffect, hk, chanIx, field_low]
  rfl

theorem made_cpRes (h : Word) (act : Resume) : made c (.cpRes h act) s = onChan c (h.toNat % 4) (fun x =>
    if x.fault.isSome ∧ x.resume = none then { x with resume := some (act, k.th.nextId) } else x) s := by
  simp only [made, Dev.applyEffect, hk, chanIx, field_low, Option.isNone_iff_eq_none]
  rfl

end

end Sys2Proof.Laws

namespace Sys2Proof.Proofs

open Sys2Proof.Machine Sys2Proof.Claims Sys2Proof.Laws

/-- Settles O25: an equation for each command; a wait at an engine sends its request there (`made_wait_sends`). -/
theorem commandsLeave : Obligations.CommandsLeave := by
  intro s c k hk
  refine ⟨made_issue hk, made_defer hk, made_go_none hk, made_go_root hk, made_pop hk, fun n ctx v delay => ?_, fun w hw => ?_,
    fun mask task => made_wait_silent hk fun d => rfl, made_drain hk, fun n => ⟨made_ctxSw_first hk n, made_ctxSw_behind hk n⟩,
    fun h o sc => made_wait_sends hk (act := fun me => .seGrpBarArrive me h) fun d => rfl,
    fun h ix o sc => made_wait_sends hk (act := fun me => .seWaitRegister me) fun d => rfl,
    fun h o sc => made_wait_sends hk (act := fun me => .seWaitRegister me) fun d => rfl,
    fun pa tenant ph o sc => made_wait_sends hk (act := fun me => .seWaitRegister { me with loc := some pa }) fun d => rfl,
    fun va pa o sc => made_wait_sends hk (act := fun me => .seWaitRegister { me with loc := some pa }) fun d => rfl,
    made_leave hk, made_portRes hk, made_plReq hk, made_cpClose hk, made_cpPush hk, made_cpRes hk⟩
  · obtain ⟨hle, hafter, hlast⟩ := argDue_spec s.dev c n s.dev.agenda delay
    exact ⟨s.dev.argDue c n delay, hle, hafter, hlast, made_argSet hk n ctx v delay⟩
  · have hsilent : w = .strmWait ∨ w = .mxScale := by simpa using hw
    rcases hsilent with rfl | rfl
    · exact made_wait_silent hk fun d => rfl
    · exact made_wait_silent hk fun d => rfl

end Sys2Proof.Proofs

/-! ## Words written out (R99 to R108) -/

namespace Sys2Proof.Proofs

open Sys2Proof.Machine Sys2Proof.Claims Sys2Proof.Laws

/-- Settles O57: the decoder is run on each word. -/
theorem decodeWords : Obligations.DecodeWords :=
  ⟨rfl, rfl, rfl, rfl, rfl, rfl, rfl, rfl, rfl, rfl, rfl, rfl, rfl, rfl, rfl, rfl, rfl, rfl, rfl, rfl, rfl, rfl⟩

end Sys2Proof.Proofs

/-! ## Scalar results, scratch accesses and system slots (R102, R103, R124 to R130, R137, R138, R140, R174, R176, R177, R224) -/

namespace Sys2Proof

theorem Cond.ofCode_eq_none {c : BitVec 4} (h : 10 ≤ c.toNat) : Cond.ofCode c = none := by
  unfold Cond.ofCode
  split
  case h_11 => rfl
  all_goals omega

theorem ExtKind.ofCode_eq_none {c : BitVec 4} (h : 6 ≤ c.toNat) : ExtKind.ofCode c = none := by
  unfold ExtKind.ofCode
  split
  case h_7 => rfl
  all_goals omega

end Sys2Proof

namespace Sys2Proof.Machine

theorem Quad.word_eq (q : Quad) (w : BitVec 2) :
    q.word w.toNat = if w = 0 then q.w0 else if w = 1 then q.w1 else if w = 2 then q.w2 else q.w3 := by
  have hw : w = 0 ∨ w = 1 ∨ w = 2 ∨ w = 3 := by bv_omega
  rcases hw with rfl | rfl | rfl | rfl <;> rfl

end Sys2Proof.Machine

namespace Sys2Proof.Laws

open Sys2Proof.Machine Sys2Proof.Claims

/-! ### Words that stand for no instruction (R98, R104) -/

theorem trapsIllop_of_rejected {w : Word32} (h : ∃ e, decodeWord w = .error e) : TrapsIllop w := by
  obtain ⟨e, he⟩ := h
  intro header n q ws
  rw [checkSlots, he]

/-- A word is rejected whatever its predicate field says, when each predicate's reading is. -/
theorem withPred_rejected {w : Word32} {k : Pred → Except Reject Instr} (h : ∀ p, ∃ e, k p = .error e) : ∃ e, withPred w k = .error e := by
  unfold withPred
  split
  · exact h _
  · exact ⟨_, rfl⟩

theorem withMod_none {α : Type} {x : Option α} (hx : x = none) (k : α → Except Reject Instr) : ∃ e, withMod x k = .error e :=
  ⟨.undefinedModifier, by rw [hx]; rfl⟩

/-- The bits of a shift's immediate above its count. -/
theorem imm13Of_above_count (w : Word32) : (imm13Of w).extractLsb' 6 7 = w.extractLsb' 15 7 := by
  refine BitVec.eq_of_getLsbD_eq fun j hj => ?_
  rw [imm13Of, BitVec.getLsbD_extractLsb', BitVec.getLsbD_extractLsb', BitVec.getLsbD_extractLsb', decide_eq_true (by omega : 6 + j < 13),
    Bool.true_and, ← Nat.add_assoc]

theorem decShift_rejected {w : Word32} (h : w.extractLsb' 15 7 ≠ 0) (k : Pred → BitVec 6 → Target → Instr) : ∃ e, decShift w k = .error e := by
  rw [← imm13Of_above_count] at h
  exact withPred_rejected fun p => ⟨.reservedField, if_neg h⟩

theorem decodeWord_cmp {w : Word32} (h : opOf w = 0x18) :
    decodeWord w = decT2x w fun p x b a => withMod (Cond.ofCode x) fun c => .ok (.cmp p c b a) := by
  unfold decodeWord
  rw [h]
  rfl

theorem decodeWord_ext {w : Word32} (h : opOf w = 0x25) :
    decodeWord w = decT2x w fun p x b a => withMod (ExtKind.ofCode x) fun k => .ok (.ext p k b a) := by
  unfold decodeWord
  rw [h]
  rfl

theorem decodeWord_shift {w : Word32} (h : opOf w ∈ [0x35#8, 0x36#8, 0x37#8]) : ∃ k, decodeWord w = decShift w k := by
  simp only [List.mem_cons, List.not_mem_nil, or_false] at h
  unfold decodeWord
  rcases h with h | h | h <;> rw [h] <;> exact ⟨_, rfl⟩

/-! ### Products, quotients and remainders (R124, R125) -/

theorem highHalf_natCast (n : Nat) : highHalf n = BitVec.ofNat 64 (n / 2 ^ 64) := by
  rw [highHalf, ← BitVec.ofInt_natCast, Int.natCast_ediv]
  rfl

/-- −2^63 by −1: the quotient is beyond the signed words, and wraps to −2^63 (R125). -/
theorem ofInt_tdiv_overflow {x y : Word} (hx : x.toInt = -2 ^ 63) (hy : y.toInt = -1) : BitVec.ofInt 64 (x.toInt.tdiv y.toInt) = x :=
  calc BitVec.ofInt 64 (x.toInt.tdiv y.toInt)
    _ = BitVec.ofInt 64 (-2 ^ 63) := by rw [hx, hy]; decide
    _ = x := by rw [← hx, BitVec.ofInt_toInt]

theorem ofInt_tmod (x y : Word) : BitVec.ofInt 64 (x.toInt.tmod y.toInt) = x - y * BitVec.ofInt 64 (x.toInt.tdiv y.toInt) := by
  rw [Int.tmod_def, Int.sub_eq_add_neg, BitVec.ofInt_add, BitVec.ofInt_neg, BitVec.ofInt_mul, BitVec.ofInt_toInt, BitVec.ofInt_toInt,
    BitVec.sub_eq_add_neg]

theorem divSigned_eq (x y : Word) : divSigned x y = if y = 0 then BitVec.allOnes 64 else
    if x.toInt = -2 ^ 63 ∧ y.toInt = -1 then x else BitVec.ofInt 64 (x.toInt.tdiv y.toInt) := by
  unfold divSigned
  split
  · rfl
  · split
    · next h =>
      obtain ⟨hx, hy⟩ := h
      exact ofInt_tdiv_overflow hx hy
    · rfl

theorem remSigned_eq (x y : Word) : remSigned x y = if y = 0 then x else
    if x.toInt = -2 ^ 63 ∧ y.toInt = -1 then 0 else x - y * BitVec.ofInt 64 (x.toInt.tdiv y.toInt) := by
  unfold remSigned
  split
  · rfl
  · split
    · next h =>
      obtain ⟨hx, hy⟩ := h
      rw [hx, hy]
      decide
    · exact ofInt_tmod x y

/-! ### Compares (R124, R126) -/

/-- Where two operands that tie are one, it is the same whether the first is taken below the second or at it. -/
theorem ite_lt_eq_ite_le {lt le : Prop} [Decidable lt] [Decidable le] {u v : Word} (hle : lt → le) (htie : le → ¬ lt → u = v) :
    (if lt then u else v) = if le then u else v := by
  by_cases hlt : lt
  · rw [if_pos hlt, if_pos (hle hlt)]
  · rw [if_neg hlt]
    by_cases hat : le
    · rw [if_pos hat, htie hat hlt]
    · rw [if_neg hat]

theorem ite_slt_eq {x y u v : Word} (h : x = y → u = v) : (if x.slt y then u else v) = if x.toInt ≤ y.toInt then u else v := by
  simp only [BitVec.slt_iff_toInt_lt]
  exact ite_lt_eq_ite_le Int.le_of_lt fun hle hlt => h (BitVec.eq_of_toInt_eq (by omega))

theorem ite_ult_eq {x y u v : Word} (h : x = y → u = v) : (if x.ult y then u else v) = if x.toNat ≤ y.toNat then u else v := by
  simp only [BitVec.ult_iff_toNat_lt]
  exact ite_lt_eq_ite_le Nat.le_of_lt fun hle hlt => h (BitVec.eq_of_toNat_eq (by omega))

theorem boolWord_bne (x y : Word) : boolWord (x != y) = flag (decide (x ≠ y)) := by
  rw [decide_not]
  rfl

/-! ### Counts of bits (R124, R128) -/

theorem getLsbD_of_leading {x : Word} {k i : Nat} (h : Leading x k) (hi : 64 ≤ i + k) : x.getLsbD i = false := by
  obtain ⟨-, hzero, -⟩ := h
  by_cases h64 : i < 64
  · have hbit := hzero (63 - i) (by omega)
    rwa [show 63 - (63 - i) = i by omega] at hbit
  · exact BitVec.getLsbD_of_ge x i (by omega)

theorem clzOf_of_leading {x : Word} {k : Nat} (h : Leading x k) : clzOf x = k := by
  have ⟨hk, _, hone⟩ := h
  rcases Nat.lt_or_eq_of_le hk with hlt | rfl
  · have hbit : x.toNat.testBit (63 - k) = true := hone hlt
    have hlow : 2 ^ (63 - k) ≤ x.toNat := Nat.ge_two_pow_of_testBit hbit
    have hhigh : x.toNat < 2 ^ (63 - k + 1) := Nat.lt_pow_two_of_testBit _ fun i hi => getLsbD_of_leading h (by omega)
    have hpos : x.toNat ≠ 0 := fun h0 => by simp [h0] at hbit
    have hx : x ≠ 0 := fun h0 => hpos (by rw [h0]; rfl)
    rw [clzOf, if_neg hx, (Nat.log2_eq_iff hpos).2 ⟨hlow, hhigh⟩]
    omega
  · have hx : x = 0 := BitVec.eq_of_getLsbD_eq fun i _ => (getLsbD_of_leading h (by omega)).trans BitVec.getLsbD_zero.symm
    rw [clzOf, if_pos hx]

theorem trailing_eq {x : Word} {n : Nat} : ∀ {i k : Nat}, k ≤ n → (∀ j, j < k → x.getLsbD (i + j) = false) →
    (k < n → x.getLsbD (i + k) = true) → trailing x i n = k := by
  induction n with
  | zero =>
    intro i k hk _ _
    exact (Nat.le_zero.1 hk).symm
  | succ n ih =>
    intro i k hk hzero hone
    cases k with
    | zero => exact if_pos (hone (Nat.succ_pos n))
    | succ k =>
      have hbit : bitAt x i = false := hzero 0 (Nat.succ_pos k)
      have hrest : trailing x (i + 1) n = k := by
        refine ih (Nat.le_of_succ_le_succ hk) (fun j hj => ?_) (fun hlt => ?_)
        · rw [Nat.add_right_comm]
          exact hzero (j + 1) (Nat.succ_lt_succ hj)
        · rw [Nat.add_right_comm]
          exact hone (Nat.succ_lt_succ hlt)
      rw [trailing, hbit, if_neg Bool.false_ne_true, hrest, Nat.add_comm]

theorem ctzOf_of_trailing {x : Word} {k : Nat} (h : Trailing x k) : ctzOf x = k := by
  obtain ⟨hk, hzero, hone⟩ := h
  exact trailing_eq hk (fun j hj => by rw [Nat.zero_add]; exact hzero j hj) fun hlt => by rw [Nat.zero_add]; exact hone hlt

theorem ones_eq (x : Word) (n : Nat) : ones x n = (List.range n).countP fun j => x.getLsbD j := by
  induction n with
  | zero => rfl
  | succ n ih =>
    rw [ones, ih, List.range_succ, List.countP_append, List.countP_singleton]
    rfl

theorem setWidth_setWidth_eq (x : Word) (n : Nat) : (x.setWidth n).setWidth 64 = BitVec.ofNat 64 (x.toNat % 2 ^ n) :=
  BitVec.eq_of_toNat_eq (by rw [BitVec.toNat_setWidth, BitVec.toNat_setWidth, BitVec.toNat_ofNat])

theorem signExtend_setWidth_eq (x : Word) {n : Nat} (h : n ≤ 64) : (x.setWidth n).signExtend 64 = (x.extractLsb' 0 n).signExtend 64 := by
  rw [BitVec.setWidth_eq_extractLsb' h]

/-! ### Fields of words, bit by bit (R127) -/

theorem fieldLsb_eq (ctl : Word) : fieldLsb ctl = ctl.toNat % 64 := field_low ctl 6

theorem fieldWidth_eq (ctl : Word) : fieldWidth ctl = min (ctl.toNat / 2 ^ 8 % 64 + 1) (64 - ctl.toNat % 64) := by
  rw [fieldWidth, fieldLsb_eq]
  rfl

theorem fieldWidth_bounds (ctl : Word) : 1 ≤ fieldWidth ctl ∧ fieldLsb ctl + fieldWidth ctl ≤ 64 := by
  rw [fieldWidth_eq, fieldLsb_eq]
  omega

theorem getLsbD_maskOf (w j : Nat) : (maskOf w).getLsbD j = (decide (j < 64) && decide (j < w)) := by
  rw [maskOf, BitVec.getLsbD_ofNat, Nat.testBit_two_pow_sub_one]

theorem getLsbD_bfxZero (x ctl : Word) (j : Nat) :
    (bfxZero x ctl).getLsbD j = (decide (j < fieldWidth ctl) && x.getLsbD (fieldLsb ctl + j)) := by
  obtain ⟨-, hw⟩ := fieldWidth_bounds ctl
  rw [bfxZero, BitVec.getLsbD_and, BitVec.getLsbD_ushiftRight, getLsbD_maskOf, Bool.and_comm]
  by_cases hj : j < fieldWidth ctl
  · simp [hj, show j < 64 by omega]
  · simp [hj]

/-- A word without bits from bit `w` on, less 2^w, has every bit from there on set. -/
theorem sub_one_shiftLeft {x : Word} {w : Nat} (h : ∀ j, w ≤ j → x.getLsbD j = false) : x - (1 : Word) <<< w = x ||| BitVec.allOnes 64 <<< w := by
  have hdisjoint : x &&& BitVec.allOnes 64 <<< w = 0 := by
    refine BitVec.eq_of_getLsbD_eq fun j hj => ?_
    by_cases hw : w ≤ j
    · simp [h j hw]
    · simp [show j < w by omega]
  rw [BitVec.sub_eq_add_neg, ← BitVec.shiftLeft_neg, show -(1 : Word) = BitVec.allOnes 64 from BitVec.neg_one_eq_allOnes,
    BitVec.add_eq_or_of_and_eq_zero _ _ hdisjoint]

theorem getLsbD_bfxSigned (x ctl : Word) {j : Nat} (hj : j < 64) :
    (bfxSigned x ctl).getLsbD j = x.getLsbD (fieldLsb ctl + min j (fieldWidth ctl - 1)) := by
  obtain ⟨hpos, -⟩ := fieldWidth_bounds ctl
  have htop : bitAt (bfxZero x ctl) (fieldWidth ctl - 1) = x.getLsbD (fieldLsb ctl + (fieldWidth ctl - 1)) := by
    rw [bitAt, getLsbD_bfxZero, decide_eq_true (by omega), Bool.true_and]
  have hclear : ∀ i, fieldWidth ctl ≤ i → (bfxZero x ctl).getLsbD i = false := fun i hi => by
    rw [getLsbD_bfxZero, decide_eq_false (by omega), Bool.false_and]
  rw [bfxSigned, htop]
  by_cases hin : j < fieldWidth ctl
  · have hlow : (bfxZero x ctl).getLsbD j = x.getLsbD (fieldLsb ctl + j) := by rw [getLsbD_bfxZero, decide_eq_true hin, Bool.true_and]
    rw [show min j (fieldWidth ctl - 1) = j by omega]
    split
    · rw [sub_one_shiftLeft hclear, BitVec.getLsbD_or, hlow]
      simp [hin]
    · exact hlow
  · rw [show min j (fieldWidth ctl - 1) = fieldWidth ctl - 1 by omega]
    split
    · next hset =>
      rw [sub_one_shiftLeft hclear, BitVec.getLsbD_or, hset, BitVec.getLsbD_shiftLeft, BitVec.getLsbD_allOnes]
      simp [hin, hj, show j - fieldWidth ctl < 64 by omega]
    · next hset => rw [hclear j (by omega), Bool.eq_false_iff.2 hset]

theorem getLsbD_bfiOf (x y ctl : Word) {j : Nat} (hj : j < 64) : (bfiOf x y ctl).getLsbD j =
    if fieldLsb ctl ≤ j ∧ j < fieldLsb ctl + fieldWidth ctl then y.getLsbD (j - fieldLsb ctl) else x.getLsbD j := by
  have hmask : (maskOf (fieldWidth ctl) <<< fieldLsb ctl).getLsbD j = decide (fieldLsb ctl ≤ j ∧ j < fieldLsb ctl + fieldWidth ctl) := by
    rw [BitVec.getLsbD_shiftLeft, getLsbD_maskOf, Bool.eq_iff_iff]
    simp only [Bool.and_eq_true, Bool.not_eq_true', decide_eq_true_eq, decide_eq_false_iff_not]
    omega
  rw [bfiOf, BitVec.getLsbD_or, BitVec.getLsbD_and, BitVec.getLsbD_and, BitVec.getLsbD_not, hmask]
  split
  · next hin => simp [-BitVec.getLsbD_eq_getElem, hin, hj]
  · next hout => simp [hout, hj]

/-! ### Literals (R103, R130) -/

section
variable {blk : Block} {n : Nat} {l : Slot}

theorem literal_one (hl : blk.slots[n + 1]? = some l) : blk.literal n .one = l.word.signExtend 64 := by
  rw [Block.literal, hl]
  rfl

theorem literal_two {h : Slot} (hl : blk.slots[n + 1]? = some l) (hh : blk.slots[n + 2]? = some h) : blk.literal n .two = h.word ++ l.word := by
  rw [Block.literal, hl, hh]
  rfl

end

/-! ### Slots that deliver from a state they have changed, and slots without a result -/

theorem fire_delivers_from {p : Pred} {u : Uses} {s base : State} {sh : Shot} {i : Instr} {f : Dev → Shot → Dev} {latency : Nat} {v : Option Word}
    (h : Fires p u s sh) (hm : base.mem = s.mem) (hp : predOf i = p) (hu : usesOf i = u)
    (hf : f (seen s).dev sh = (seen base).dev.deliver sh latency v) : fire i s f = .next (Delivers base sh latency v) := by
  rw [fire_of_Fires h hp hu, delivers_eq, ← hm]
  exact congrArg (fun d => Host.Outcome.next (State.mk base.mem d)) hf

theorem fire_plain {p : Pred} {u : Uses} {s : State} {sh : Shot} {i : Instr} {f : Dev → Shot → Dev} (h : Fires p u s sh) (hp : predOf i = p)
    (hu : usesOf i = u) (hf : f (seen s).dev sh = (seen s).dev.plain sh) : fire i s f = .next (FiresWith (seen s) sh id) := by
  rw [fire_of_Fires h hp hu, plain_eq, ← hf]
  rfl

/-- BKPT in a thread that is being debugged traps with its code (R176). -/
theorem exec_bkpt_debugged {p : Pred} {s : State} {sh : Shot} (h : Fires p ⟨false, false, false⟩ s sh) (hdbg : sh.k.th.dbg = true)
    (code : BitVec 16) : exec (.bkpt p code) s = .next (TrapsCode (seen s) sh 0x21 code) := by
  show execBkpt p code s = _
  rw [execBkpt, fire_of_Fires h rfl rfl, if_pos hdbg]
  rfl

/-! ### Handle accesses (R137, R138, R224) -/

section
variable {sh : Shot} {h off : Word} {len : Nat} (ht : sh.blk.transferred sh.c sh.n h = false)
include ht

theorem handleCheck_not_held (hh : sh.k.holds sh.c h = none) : sh.handleCheck h off len = .error (0x09, h, off) := by
  rw [Shot.handleCheck, ht, if_neg Bool.false_ne_true, hh]

variable {e : HndEnt} (hh : sh.k.holds sh.c h = some e)
include hh

theorem handleCheck_misaligned (hal : off.toNat % len ≠ 0) : sh.handleCheck h off len = .error (0x07, off, 0) := by
  rw [Shot.handleCheck, ht, if_neg Bool.false_ne_true, hh]
  exact if_pos hal

theorem handleCheck_aligned (hal : off.toNat % len = 0) : sh.handleCheck h off len = .ok (e, decide (off.toNat + len ≤ e.len)) := by
  rw [Shot.handleCheck, ht, if_neg Bool.false_ne_true, hh]
  exact if_neg (not_not_intro hal)

theorem handleCheck_within (hal : off.toNat % len = 0) (hin : off.toNat + len ≤ e.len) : sh.handleCheck h off len = .ok (e, true) := by
  rw [handleCheck_aligned ht hh hal, decide_eq_true hin]

theorem handleCheck_beyond (hal : off.toNat % len = 0) (hout : e.len < off.toNat + len) : sh.handleCheck h off len = .ok (e, false) := by
  rw [handleCheck_aligned ht hh hal, decide_eq_false (by omega)]

end

/-- LOOB of an access by the thread: no element made it (R225). -/
theorem loobOf_thread (off h : Word) (ctx : BitVec 2) (wr : Bool) : loobOf off h ctx false wr =
    BitVec.ofNat 64 (off.toNat % 2 ^ 32 + 2 ^ 32 * (h.toNat / 2 ^ 16 % 16) + 2 ^ 36 * (h.toNat % 2 ^ 8) + 2 ^ 44 * (h.toNat / 2 ^ 8 % 2 ^ 7)
      + 2 ^ 52 * ctx.toNat + 2 ^ 55 * bit wr) := by
  rw [loobOf, hndIx_eq, field_low, field_low]
  rfl

theorem rangeByte_of_no_lower_stl {sh : Shot} (hno : ∀ x ∈ sh.blk.effects, x.1 < sh.n → ∀ c i o m v, x.2 ≠ .stl c i o m v) (h : Word)
    (bank : SbSt) (base off : Nat) : sh.rangeByte h bank base off = bank.mem.get 0 (base + off) := by
  unfold Shot.rangeByte
  refine List.foldlRecOn (motive := fun r => r = bank.mem.get 0 (base + off)) _ _ rfl fun r hr x hx => ?_
  split
  · next hstl => exact (if_neg fun hlower => hno x hx hlower.1 _ _ _ _ _ hstl).trans hr
  · exact hr

section
variable {p : Pred} {kd : LoadKind} {b a : Target} {s : State} {sh : Shot}
  (h : Fires p ⟨true, true, false⟩ s sh) (hheld : (seen s).dev.held s.mem sh.k sh.blk sh.n (.ldl p kd b a) sh.a sh.b = false)
include h hheld

theorem exec_ldl_traps {cause : Byte} {i0 i1 : Word} (hc : sh.handleCheck sh.a sh.b (LoadKind.bytes kd) = .error (cause, i0, i1)) :
    exec (.ldl p kd b a) s = .next (Traps (seen s) sh cause i0 i1) :=
  show execLdl p kd b a s = _ from fire_traps h rfl rfl ((if_neg (ne_true_of_eq_false hheld)).trans (by rw [hc]))

theorem exec_ldl_within {e : HndEnt} {bank : SbSt} (hc : sh.handleCheck sh.a sh.b (LoadKind.bytes kd) = .ok (e, true))
    (hbank : (sh.k.site (hndSite sh.a)).el = .sb bank)
    (hno : ∀ x ∈ sh.blk.effects, x.1 < sh.n → ∀ c i o m v, x.2 ≠ .stl c i o m v) :
    exec (.ldl p kd b a) s = .next (Delivers (onBank sh.c (hndSite sh.a) (touched s.dev.now (hndIx sh.a) sh.b.toNat) s) sh 3
      (some (extend kd (wordOf ((List.range (LoadKind.bytes kd)).map fun j => bank.mem.get 0 (e.base + (sh.b.toNat + j))))))) := by
  show execLdl p kd b a s = _
  refine fire_delivers_from h rfl rfl rfl ((if_neg (ne_true_of_eq_false hheld)).trans ?_)
  simp only [hc, rangeByte_of_no_lower_stl hno, Site.bank?, hbank, Option.getD_some]
  rfl

theorem exec_ldl_beyond {e : HndEnt} (hc : sh.handleCheck sh.a sh.b (LoadKind.bytes kd) = .ok (e, false)) :
    exec (.ldl p kd b a) s = .next (Delivers (onBlock sh.c (fun b =>
      { b with effects := insertBySlot sh.n (.outOfRange (loobOf sh.b sh.a sh.k.th.ctx false false)) b.effects }) s) sh 3 (some 0)) := by
  show execLdl p kd b a s = _
  refine fire_delivers_from h rfl rfl rfl ((if_neg (ne_true_of_eq_false hheld)).trans ?_)
  rw [hc]
  rfl

end

section
variable {p : Pred} {z : Size} {s : State} {sh : Shot}
  (h : Fires p ⟨true, true, true⟩ s sh) (hheld : (seen s).dev.held s.mem sh.k sh.blk sh.n (.stl p z) sh.a sh.b = false)
include h hheld

theorem exec_stl_traps {cause : Byte} {i0 i1 : Word} (hc : sh.handleCheck sh.a sh.b (Size.bytes z) = .error (cause, i0, i1)) :
    exec (.stl p z) s = .next (Traps (seen s) sh cause i0 i1) :=
  show execStl p z s = _ from fire_traps h rfl rfl ((if_neg (ne_true_of_eq_false hheld)).trans (by rw [hc]))

theorem exec_stl_within {e : HndEnt} (hc : sh.handleCheck sh.a sh.b (Size.bytes z) = .ok (e, true)) :
    exec (.stl p z) s = .next (Effects (seen s) sh (.stl (hndSite sh.a) (hndIx sh.a) sh.b (Size.bytes z) sh.z)) :=
  show execStl p z s = _ from fire_effect h rfl rfl rfl ((if_neg (ne_true_of_eq_false hheld)).trans (by rw [hc]; rfl))

theorem exec_stl_beyond {e : HndEnt} (hc : sh.handleCheck sh.a sh.b (Size.bytes z) = .ok (e, false)) :
    exec (.stl p z) s = .next (Effects (seen s) sh (.outOfRange (loobOf sh.b sh.a sh.k.th.ctx false true))) :=
  show execStl p z s = _ from fire_effect h rfl rfl rfl ((if_neg (ne_true_of_eq_false hheld)).trans (by rw [hc]; rfl))

end

end Sys2Proof.Laws

namespace Sys2Proof.Proofs

open Sys2Proof.Machine Sys2Proof.Claims Sys2Proof.Laws

/-- Settles O2: each computes its result from A and B; the table of R125 is `divSigned_eq` and `remSigned_eq`. -/
theorem mulDiv : Obligations.MulDiv := by
  intro p b a s sh h
  exact ⟨show execMul p b a s = _ from fireValue_delivers h rfl rfl (BitVec.mul_def ..),
    show execMulhS p b a s = _ from fireValue_delivers h rfl rfl rfl,
    show execMulhU p b a s = _ from fireValue_delivers h rfl rfl (highHalf_natCast (sh.a.toNat * sh.b.toNat)),
    show execMulhSu p b a s = _ from fireValue_delivers h rfl rfl rfl,
    show execDivS p b a s = _ from fireValue_delivers h rfl rfl (divSigned_eq ..),
    show execDivU p b a s = _ from fireValue_delivers h rfl rfl rfl,
    show execRemS p b a s = _ from fireValue_delivers h rfl rfl (remSigned_eq ..),
    show execRemU p b a s = _ from fireValue_delivers h rfl rfl rfl⟩

/-- Settles O3: the codes of CMP that are rejected (`Cond.ofCode_eq_none`), and each compare by the numbers that its operands stand for. -/
theorem compares : Obligations.Compares := by
  refine ⟨fun w hop hcode => ?_, fun p b a s sh h => ?_⟩
  · rw [← x4Of] at hcode
    refine trapsIllop_of_rejected ?_
    rw [decodeWord_cmp hop]
    exact withPred_rejected fun p => withMod_none (Cond.ofCode_eq_none hcode) _
  · exact ⟨show execMinS p b a s = _ from fireValue_delivers h rfl rfl (ite_slt_eq id),
      show execMinU p b a s = _ from fireValue_delivers h rfl rfl (ite_ult_eq id),
      show execMaxS p b a s = _ from fireValue_delivers h rfl rfl (ite_slt_eq Eq.symm),
      show execMaxU p b a s = _ from fireValue_delivers h rfl rfl (ite_ult_eq Eq.symm),
      show execCmp p .eq b a s = _ from fireValue_delivers h rfl rfl rfl,
      show execCmp p .ne b a s = _ from fireValue_delivers h rfl rfl (boolWord_bne ..),
      show execCmp p .lt b a s = _ from fireValue_delivers h rfl rfl rfl,
      show execCmp p .le b a s = _ from fireValue_delivers h rfl rfl rfl,
      show execCmp p .gt b a s = _ from fireValue_delivers h rfl rfl rfl,
      show execCmp p .ge b a s = _ from fireValue_delivers h rfl rfl rfl,
      show execCmp p .ltu b a s = _ from fireValue_delivers h rfl rfl rfl,
      show execCmp p .leu b a s = _ from fireValue_delivers h rfl rfl rfl,
      show execCmp p .gtu b a s = _ from fireValue_delivers h rfl rfl rfl,
      show execCmp p .geu b a s = _ from fireValue_delivers h rfl rfl rfl,
      show execTstZ p b a s = _ from fireValue_delivers h rfl rfl rfl,
      show execTstNz p b a s = _ from fireValue_delivers h rfl rfl (boolWord_bne ..)⟩

/-- Settles O4: the counts are those of the bits (`clzOf_of_leading`, `ctzOf_of_trailing`, `ones_eq`), the extensions those of the low bits. -/
theorem bitCounts : Obligations.BitCounts := by
  refine ⟨fun w hop hcode => ?_, fun p b a s sh h => ?_⟩
  · rw [← x4Of] at hcode
    refine trapsIllop_of_rejected ?_
    rw [decodeWord_ext hop]
    exact withPred_rejected fun p => withMod_none (ExtKind.ofCode_eq_none hcode) _
  · exact ⟨fun k hk => show execClz p b a s = _ from fireValue_delivers h rfl rfl (congrArg (BitVec.ofNat 64) (clzOf_of_leading hk)),
      fun k hk => show execCtz p b a s = _ from fireValue_delivers h rfl rfl (congrArg (BitVec.ofNat 64) (ctzOf_of_trailing hk)),
      show execPopc p b a s = _ from fireValue_delivers h rfl rfl (congrArg (BitVec.ofNat 64) (ones_eq ..)),
      show execExt p .s8 b a s = _ from fireValue_delivers h rfl rfl (signExtend_setWidth_eq sh.a (by decide)),
      show execExt p .s16 b a s = _ from fireValue_delivers h rfl rfl (signExtend_setWidth_eq sh.a (by decide)),
      show execExt p .s32 b a s = _ from fireValue_delivers h rfl rfl (signExtend_setWidth_eq sh.a (by decide)),
      show execExt p .z8 b a s = _ from fireValue_delivers h rfl rfl (setWidth_setWidth_eq ..),
      show execExt p .z16 b a s = _ from fireValue_delivers h rfl rfl (setWidth_setWidth_eq ..),
      show execExt p .z32 b a s = _ from fireValue_delivers h rfl rfl (setWidth_setWidth_eq ..),
      show execMov p b a s = _ from fireValue_delivers h rfl rfl rfl⟩

/-- Settles O5: a word is its bits, and those of each result are known (`getLsbD_bfxZero`, `getLsbD_bfxSigned`, `getLsbD_bfiOf`). -/
theorem fieldsOfWords : Obligations.FieldsOfWords := by
  refine ⟨fun p b a s sh ctl v lsb w hlsb hw => ?_, fun p b a s sh h => ?_⟩
  · rw [← fieldLsb_eq] at hlsb
    subst hlsb
    rw [fieldLsb_eq, ← fieldWidth_eq] at hw
    subst hw
    refine ⟨fun h hctl hv => ?_, fun h hctl hv => ?_, fun h hctl hv => ?_⟩
    · show execBfxZ p b a s = _
      refine fireValue_delivers h rfl rfl (BitVec.eq_of_getLsbD_eq fun j hj => ?_)
      rw [hctl, getLsbD_bfxZero, hv j hj]
    · show execBfxS p b a s = _
      refine fireValue_delivers h rfl rfl (BitVec.eq_of_getLsbD_eq fun j hj => ?_)
      rw [hctl, getLsbD_bfxSigned _ _ hj, hv j hj]
    · show execBfi p b a s = _
      refine fireValue_delivers h rfl rfl (BitVec.eq_of_getLsbD_eq fun j hj => ?_)
      rw [hctl, getLsbD_bfiOf _ _ _ hj, hv j hj]
  · exact ⟨show execMadd p b a s = _ from fireValue_delivers h rfl rfl rfl, show execSel p b a s = _ from fireValue_delivers h rfl rfl rfl⟩

/-- Settles O6: a shift count above 63 is rejected (`decShift_rejected`); an immediate is read as signed in every form. -/
theorem immediates : Obligations.Immediates := by
  refine ⟨fun w hop hcount => ?_, fun p i n t s sh h => ?_, fun p r i b a t s sh => ⟨fun h => ?_, fun h => ?_⟩⟩
  · obtain ⟨k, hk⟩ := decodeWord_shift hop
    exact trapsIllop_of_rejected (hk ▸ decShift_rejected hcount k)
  · have hsigned : (i.signExtend 64).toInt = i.toInt := BitVec.toInt_signExtend_of_le (by decide)
    exact ⟨show execAddi p i t s = _ from fireValue_delivers h rfl rfl rfl,
      show execMuli p i t s = _ from fireValue_delivers h rfl rfl rfl,
      show execAndi p i t s = _ from fireValue_delivers h rfl rfl rfl,
      show execOri p i t s = _ from fireValue_delivers h rfl rfl rfl,
      show execXori p i t s = _ from fireValue_delivers h rfl rfl rfl,
      show execShli p n t s = _ from fireValue_delivers h rfl rfl rfl,
      show execShri p n t s = _ from fireValue_delivers h rfl rfl rfl,
      show execSari p n t s = _ from fireValue_delivers h rfl rfl rfl,
      show execCmpiEq p i t s = _ from fireValue_delivers h rfl rfl rfl,
      show execCmpiNe p i t s = _ from fireValue_delivers h rfl rfl (boolWord_bne ..),
      show execCmpiLt p i t s = _ from fireValue_delivers h rfl rfl (hsigned ▸ rfl),
      show execCmpiGe p i t s = _ from fireValue_delivers h rfl rfl (hsigned ▸ rfl),
      show execCmpiLtu p i t s = _ from fireValue_delivers h rfl rfl rfl,
      show execCmpiGeu p i t s = _ from fireValue_delivers h rfl rfl rfl⟩
  · exact ⟨show execGet r b a s = _ from fire_delivers h rfl rfl rfl,
      fun l hl => show execLit .one b a s = _ from fire_delivers h rfl rfl (by rw [literal_one hl]),
      fun l u hl hu => show execLit .two b a s = _ from fire_delivers h rfl rfl (by rw [literal_two hl hu])⟩
  · exact ⟨show execMovi p i t s = _ from fireValue_delivers h rfl rfl rfl,
      show execNull p b a s = _ from fire_delivers h rfl rfl rfl,
      show execAdr p i t s = _ from fire_delivers h rfl rfl (by rw [BitVec.mul_comm 4]; rfl)⟩

/-- Settles O11: fences, YIELD and SYSWR record their effects, the registers and feature words are read as the slot fires. -/
theorem systemSlots : Obligations.SystemSlots := by
  intro p sc r w code t s sh
  refine ⟨fun h => ?_, fun h => show execSyswr p r s = _ from fire_effect h rfl rfl rfl rfl⟩
  exact ⟨show execFenceAcq p sc s = _ from fire_effect h rfl rfl rfl rfl,
    show execFenceRel p sc s = _ from fire_effect h rfl rfl rfl rfl,
    show execFenceAr p sc s = _ from fire_effect h rfl rfl rfl rfl,
    show execNop p s = _ from fire_plain h rfl rfl rfl,
    fun hdbg => show execBkpt p code s = _ from fire_plain h rfl rfl (if_neg (ne_true_of_eq_false hdbg)),
    fun hdbg => exec_bkpt_debugged h hdbg code,
    show execYield p s = _ from fire_effect h rfl rfl rfl rfl,
    fun hr => show execSysrd p r t s = _ from fire_delivers h rfl rfl (by rw [if_neg hr]),
    show execSysrd p .lcyc t s = _ from fire_delivers h rfl rfl rfl,
    show execFeat p w t s = _ from fire_delivers h rfl rfl (by rw [Quad.word_eq])⟩

/-- Settles O17: an access that nothing holds back is decided by the checks of its handle (`handleCheck_not_held` and those after it). -/
theorem scratchAccess : Obligations.ScratchAccess := by
  intro p kd z b a s sh n sg h off loob ht
  have hloob : ∀ wr, loobOf off h sh.k.th.ctx false wr = loob (bit wr) := loobOf_thread off h sh.k.th.ctx
  have hentry : hndIx h = h.toNat / 2 ^ 16 % 16 := hndIx_eq h
  refine ⟨fun hf hheld hkind => ?ldl, fun hf hheld hn => ?stl⟩
  case ldl =>
    obtain rfl := bytes_of_kind hkind
    refine ⟨fun hh => exec_ldl_traps hf hheld (handleCheck_not_held ht hh),
      fun e hh => ⟨fun hal => ?_, fun hal hin hno bank hbank => ?_, fun hal hout => ?_⟩⟩
    · exact exec_ldl_traps hf hheld (handleCheck_misaligned ht hh hal)
    · have hvalue := extend_eq kd ((List.range (LoadKind.bytes kd)).map fun j => bank.mem.get 0 (e.base + (off.toNat + j))) (by simp)
      rw [hkind] at hvalue
      rw [exec_ldl_within hf hheld (handleCheck_within ht hh hal hin) hbank hno, hvalue, hentry]
    · rw [exec_ldl_beyond hf hheld (handleCheck_beyond ht hh hal hout), hloob]
      rfl
  case stl =>
    rw [width_bytes] at hn
    subst hn
    refine ⟨fun hh => exec_stl_traps hf hheld (handleCheck_not_held ht hh), fun e hh => ⟨fun hal => ?_, fun hal hin => ?_, fun hal hout => ?_⟩⟩
    · exact exec_stl_traps hf hheld (handleCheck_misaligned ht hh hal)
    · rw [exec_stl_within hf hheld (handleCheck_within ht hh hal hin), hentry]
    · rw [exec_stl_beyond hf hheld (handleCheck_beyond ht hh hal hout), hloob]
      rfl

end Sys2Proof.Proofs

/-! ## Fabric and group commands, unhandled traps, returns from traps (R151 to R157, R161 to R168, R173, R185) -/

namespace Sys2Proof.Laws

open Sys2Proof.Machine Sys2Proof.Claims

/-! ### Pushes and pops (R152, R153) -/

/-- A push to a channel is held back: its FIFO has no entry that the block has not reserved, or a push of a lower slot to it is not settled. -/
def pushHeld (sh : Shot) (ch : BitVec 3) : Bool :=
  decide (8 ≤ (sh.k.th.push.get [] ch.toNat).length
      + (sh.blk.effects.filter fun e => match e.2 with | .push c _ => c == ch.toNat | _ => false).length)
    || (sh.blk.slots.take sh.n).any fun sl => ((sl.instr.map (pushesOn ch)).getD false) && !sl.settled

theorem Slot.settled_iff (sl : Slot) : sl.settled = true ↔ sl.phase = .done ∨ sl.phase = .off := by simp [Slot.settled]

theorem pushHeld_eq_false (sh : Shot) (ch : BitVec 3) : pushHeld sh ch = false ↔ MayPush sh ch := by
  have hslot : ∀ sl : Slot, (((sl.instr.map (pushesOn ch)).getD false) && !sl.settled) = false ↔
      ∀ i, sl.instr = some i → pushesOn ch i = true → sl.phase = .done ∨ sl.phase = .off := by
    intro sl
    rw [← Slot.settled_iff]
    cases sl.instr <;> simp
  rw [pushHeld, Bool.or_eq_false_iff, decide_eq_false_iff_not, Nat.not_le, List.any_eq_false, and_comm]
  simp only [Bool.not_eq_true, hslot]
  rfl

/-- A slot that is held back is left alone. -/
theorem fire_held {p : Pred} {u : Uses} {s : State} {sh : Shot} {i : Instr} {f : Dev → Shot → Dev} (h : Fires p u s sh) (hp : predOf i = p)
    (hu : usesOf i = u) (hf : f (seen s).dev sh = (seen s).dev) : fire i s f = .next (seen s) := by
  rw [fire_of_Fires h hp hu]
  exact congrArg (fun d => Host.Outcome.next (State.mk s.mem d)) hf

section
variable {p : Pred} {u : Uses} {s : State} {sh : Shot} {i : Instr} {ch : BitVec 3} {tok : Word → Token}
  (h : Fires p u s sh) (hp : predOf i = p) (hu : usesOf i = u)
  (hheld : (seen s).dev.held s.mem sh.k sh.blk sh.n i sh.a sh.b = pushHeld sh ch)
include h hp hu hheld

theorem firePush_fires (hmay : MayPush sh ch) : firePush i ch tok s = .next (Effects (seen s) sh (.push ch.toNat (tok sh.a))) :=
  fire_effect h rfl hp hu (if_neg (ne_true_of_eq_false (hheld.trans ((pushHeld_eq_false sh ch).2 hmay))))

theorem firePush_held (hnot : ¬ MayPush sh ch) : firePush i ch tok s = .next (seen s) :=
  fire_held h hp hu (if_pos (hheld.trans (eq_true_of_ne_false (mt (pushHeld_eq_false sh ch).1 hnot))))

end

section
variable {p : Pred} {ch : BitVec 3} {b a : Target} {s : State} {sh : Shot} (h : Fires p ⟨false, false, false⟩ s sh)
include h

theorem exec_strmPop_fires (hroom : sh.k.th.pops.length + lowerPops sh < 16) :
    exec (.strmPop p ch b a) s = .next (Effects (numbered sh.c (seen s)) sh (.pop sh.k.th.nextId ch.toNat a b)) :=
  show execStrmPop p ch b a s = _ from fire_effect h rfl rfl rfl (if_neg fun hheld => Nat.not_le.2 hroom (of_decide_eq_true hheld))

theorem exec_strmPop_held (hfull : 16 ≤ sh.k.th.pops.length + lowerPops sh) : exec (.strmPop p ch b a) s = .next (seen s) :=
  show execStrmPop p ch b a s = _ from fire_held h rfl rfl (if_pos (decide_eq_true hfull))

end

/-! ### Unhandled traps, and returns from traps (R173, R185) -/

theorem takeTrap_stops {d : Dev} {c : Nat} {k : Cast} {tr : Trap} (hk : d.casts.find c = some k) (hstops : (k.th.inh && tr.sync) = true ∨ k.th.tvec = 0) :
    d.takeTrap c tr = ((d.modCast c fun k => { (k.stand d.now) with th := k.th.stop tr }).postFault k.tenant
      [if k.th.inh && tr.sync then 1 else 2, BitVec.ofNat 64 c, tr.tcause k.th.lost, tr.restart, tr.i0, tr.i1, tr.i2, tr.i3]).job (.poolSave c) := by
  have hcond : (k.th.inh && tr.sync || k.th.tvec == 0) = true := by simpa using hstops
  simp only [Dev.takeTrap, hk, hcond, if_true]

/-- The thread as it leaves its handler, with its wait, and whether a pause follows it. -/
def outOfHandler (t : Thread) (w : Option WaitSt) (pause : Bool) (now : Nat) : Thread :=
  { t with inh := false, wres := false, saved := none, savedYield := false, pc := t.tpc, wait := w, yieldNext := pause, mode := .fetch (now + 1) }

theorem Thread.eret_unsaved {t : Thread} (now : Nat) (hres : t.wres = false) : t.eret now = outOfHandler t t.wait t.yieldNext now := by
  simp [Thread.eret, outOfHandler, hres]

theorem Thread.eret_saved {t : Thread} {w : WaitSt} (now : Nat) (hres : t.wres = true) (hw : t.saved = some w) :
    t.eret now = outOfHandler t (some w) (t.yieldNext || t.savedYield) now := by
  simp [Thread.eret, outOfHandler, hres, hw]

end Sys2Proof.Laws

namespace Sys2Proof.Proofs

open Sys2Proof.Machine Sys2Proof.Claims Sys2Proof.Laws

/-- Settles O12: a push fires unless it is held back (`pushHeld_eq_false`), a pop while there is room for it. -/
theorem fabricCommands : Obligations.FabricCommands := by
  intro p ch lvl ctx x y task mask b a s sh
  refine ⟨fun h => ⟨fun harm => ?idle, fun harm => ?running, ?drain, ?strmWait, ?waitTok, fun hmay => ?push, fun hnot => ?pushHeld,
    exec_strmPop_fires h, exec_strmPop_held h⟩, fun h => ⟨fun hmay => ?pushA, fun hnot => ?pushAHeld, fun hin => ?site, fun hout => ?noSite⟩⟩
  case idle =>
    exact ⟨show execStrmGo p s = _ from fire_effect h rfl rfl rfl (if_neg harm), show execCtxSw p ctx s = _ from fire_effect h rfl rfl rfl (if_neg harm)⟩
  case running =>
    exact ⟨show execStrmGo p s = _ from fire_traps h rfl rfl (if_pos harm), show execCtxSw p ctx s = _ from fire_traps h rfl rfl (if_pos harm)⟩
  case drain => exact show execDrain p s = _ from fire_effect h rfl rfl rfl rfl
  case strmWait => exact show execStrmWait p s = _ from fire_effect h rfl rfl rfl rfl
  case waitTok => exact show execWaitTok p task mask s = _ from fire_effect h rfl rfl rfl rfl
  case push =>
    exact ⟨show execStrmPushStop p lvl ch s = _ from firePush_fires h rfl rfl rfl hmay,
      show execStrmPushDone p ch s = _ from firePush_fires h rfl rfl rfl hmay⟩
  case pushHeld =>
    exact ⟨show execStrmPushStop p lvl ch s = _ from firePush_held h rfl rfl rfl hnot,
      show execStrmPushDone p ch s = _ from firePush_held h rfl rfl rfl hnot⟩
  case pushA =>
    exact ⟨show execStrmPushData p ch s = _ from firePush_fires h rfl rfl rfl hmay,
      show execStrmPushIndex p ch s = _ from firePush_fires h rfl rfl rfl hmay⟩
  case pushAHeld =>
    exact ⟨show execStrmPushData p ch s = _ from firePush_held h rfl rfl rfl hnot,
      show execStrmPushIndex p ch s = _ from firePush_held h rfl rfl rfl hnot⟩
  case site =>
    exact show ∃ delay ≤ _, execArgSet p ctx y x s = _ from
      fire_within_site (mk := fun delay => .argSet (elementSite x.toNat y.toNat) ctx.toNat (sh.a.setWidth 32) delay) h rfl rfl rfl
        (if_pos (decide_eq_true hin))
  case noSite =>
    exact show execArgSet p ctx y x s = _ from fire_traps h rfl rfl (if_neg fun hin => hout (of_decide_eq_true hin))

/-- Settles O14: each command traps where the limit is met or the membership missing, and else records its effect. -/
theorem groupCommands : Obligations.GroupCommands := by
  intro p o sc a s sh pid
  refine ⟨fun h => ⟨fun hroom => ?new, fun hfull => ?newFull, fun hmem => ?mark, fun hmem => ?markOutside, ?waitBit⟩,
    fun h => ⟨fun hroom => ?join, fun hfull => ?joinFull, fun hmem => ⟨?leave, ?free, ?bar⟩, fun hmem => ?outside, ?waitBitAll⟩⟩
  case new =>
    exact show ∃ delay, execGrpNew p a s = _ from fire_within_site_else (base := numbered sh.c (seen s))
      (mk := fun delay => .defer .grpNew pid a 0 false 1 false delay (.seGrpNew (asker sh) pid sh.a sh.b)) h rfl rfl rfl (if_neg (Nat.not_le.2 hroom))
  case newFull => exact show execGrpNew p a s = _ from fire_traps h rfl rfl (if_pos hfull)
  case mark =>
    exact show ∃ delay, execGrpMark p o sc s = _ from fire_within_site_else (base := seen s)
      (mk := fun delay => .issue 1 (o == .rel || o == .ar) delay (.seGrpMark (asker sh) sh.a sh.b o sc)) h rfl rfl rfl (if_pos hmem)
  case markOutside => exact show execGrpMark p o sc s = _ from fire_traps h rfl rfl (if_neg (ne_true_of_eq_false hmem))
  case waitBit => exact show execWaitBit p o sc s = _ from fire_effect h rfl rfl rfl rfl
  case join =>
    exact show ∃ delay, execGrpJoin p a s = _ from fire_within_site_else (base := numbered sh.c (seen s))
      (mk := fun delay => .defer .grpJoin pid a 0 false 1 false delay (.seGrpJoin (asker sh) pid sh.a)) h rfl rfl rfl (if_neg (Nat.not_le.2 hroom))
  case joinFull => exact show execGrpJoin p a s = _ from fire_traps h rfl rfl (if_pos hfull)
  case leave =>
    exact show ∃ delay, execGrpLeave p s = _ from fire_within_site_else (base := seen s) (mk := .leave sh.a) h rfl rfl rfl (if_pos hmem)
  case free =>
    exact show ∃ delay, execGrpFree p s = _ from fire_within_site_else (base := seen s)
      (mk := fun delay => .issue 1 false delay (.seGrpFree (asker sh) sh.a)) h rfl rfl rfl (if_pos hmem)
  case bar => exact show execGrpBar p o sc s = _ from fire_effect h rfl rfl rfl (if_pos hmem)
  case outside =>
    have hout := ne_true_of_eq_false hmem
    simp only [List.forall_mem_cons]
    exact ⟨show execGrpLeave p s = _ from fire_traps h rfl rfl (if_neg hout), show execGrpFree p s = _ from fire_traps h rfl rfl (if_neg hout),
      show execGrpBar p o sc s = _ from fire_traps h rfl rfl (if_neg hout), by simp⟩
  case waitBitAll => exact show execWaitBitAll p o sc s = _ from fire_effect h rfl rfl rfl rfl

/-- Settles O27: the thread stops and its cast stands (`takeTrap_stops`, `Cast.stand_eq`); the entry is eight words (`entryBytes_words`). -/
theorem unhandledTrap : Obligations.UnhandledTrap := by
  intro s c k tr double hk hdouble hstops words
  have hdouble' : (k.th.inh && tr.sync) = double := by rw [hdouble, Trap.sync, Bool.and_assoc]
  rw [takeTrap_stops hk (hdouble' ▸ hstops), hdouble']
  simp only [Dev.postFault, entryBytes_words, Cast.stand_eq, tcause_eq, Dev.job, List.append_assoc, List.singleton_append]
  rfl

/-- Settles O28: what ERET leaves (`Thread.eret_unsaved`, `Thread.eret_saved`), and where the thread goes on from there. -/
theorem returnFromTrap : Obligations.ReturnFromTrap := by
  intro t now hsaved back
  refine ⟨fun hres hwait hyield => ?_, fun hres w hw hdone htok hstrm => ?_, fun hres w hw hdone => ?_⟩
  · rw [Thread.eret_unsaved now hres, hwait, hyield, Thread.goOn_free now rfl]
    rfl
  · have hopen := (Thread.waitOver_event (t := outOfHandler t (some w) (t.yieldNext || t.savedYield) now) htok hstrm).trans hdone
    rw [Thread.eret_saved now hres hw, Thread.goOn_waits now rfl (ne_true_of_eq_false hopen)]
    rfl
  · rw [Thread.eret_saved now hres hw, Thread.goOn_over now rfl (Thread.waitOver_done _ hdone)]
    rfl

end Sys2Proof.Proofs

/-! ## Steps of groups (R161 to R167, R169, R370) -/

namespace Sys2Proof.Laws

open Sys2Proof.Machine Sys2Proof.Claims

/-! ### Groups made and joined (R162, R163) -/

/-- GRP.NEW makes no group: the tenant holds as many as its quota gives, or the bitmap is too long or not aligned. -/
def refusesGroup (d : Dev) (k : Cast) (bmap nbits : Word) : Prop :=
  field (((d.se.get {} k.die).qta.find (d.quotaIx k.die k.tenant)).getD qtaReset) 30 12
      ≤ ((d.se.get {} k.die).grps.filter fun g => g.2.used && g.2.tid == k.tenant).length
    ∨ 2 ^ 20 < nbits.toNat ∨ (nbits ≠ 0 ∧ bmap.toNat % 128 ≠ 0)

/-- The entry of a group that a thread has made: it is the only member. -/
def newGroup (c gen tenant : Nat) (bmap nbits : Word) : GrpEnt :=
  { used := true, gen := gen, tid := tenant, bmap := bmap, nbits := nbits.toNat, memb := [c] }

theorem modGrp_eq (d : Dev) (h : Word) (f : GrpEnt → GrpEnt) :
    d.modGrp h f = d.modSe (grpDie h) fun x => { x with grps := x.grps.modify {} (h.toNat % 2 ^ 12) f } := by
  rw [Dev.modGrp, grpIx, field_low]

section
variable {s : State} {r : Sender} {k : Cast} (hk : s.dev.casts.find r.cast = some k) {pid : Nat}
include hk

theorem exec_seGrpNew_noEntry (hused : ∀ i, i < 4096 → ((s.dev.se.get {} k.die).grps.get {} i).used = true) (bmap nbits : Word) :
    exec (.seGrpNew r pid bmap nbits) s = .next (sometime (.classDReply r.cast pid 0 0) s) := by
  have hnone : ((List.range 4096).find? fun i => !((s.dev.seAt k.die).grps.get {} i).used) = none :=
    List.find?_eq_none.2 fun i hi => by simpa [Dev.seAt] using hused i (List.mem_range.1 hi)
  show execSeGrpNew r pid bmap nbits s = _
  simp only [execSeGrpNew, hk, hnone]
  rfl

theorem exec_seGrpNew_refused {bmap nbits : Word} (hbad : refusesGroup s.dev k bmap nbits) :
    exec (.seGrpNew r pid bmap nbits) s = .next (sometime (.classDReply r.cast pid 0 0) s) := by
  show execSeGrpNew r pid bmap nbits s = _
  simp only [execSeGrpNew, hk]
  split
  · rfl
  · exact if_pos hbad

theorem exec_seGrpNew_made {bmap nbits : Word} (hgood : ¬ refusesGroup s.dev k bmap nbits) {i : Nat} (hi : i < 4096)
    (hfree : ((s.dev.se.get {} k.die).grps.get {} i).used = false)
    (hbelow : ∀ j, j < i → ((s.dev.se.get {} k.die).grps.get {} j).used = true) :
    exec (.seGrpNew r pid bmap nbits) s = .next (sometime
      (.classDReply r.cast pid (grpHandle i k.die ((s.dev.se.get {} k.die).grps.get {} i).gen) 0)
      (onEngine k.die (fun e => { e with
        grps := e.grps.put i (newGroup r.cast ((s.dev.se.get {} k.die).grps.get {} i).gen k.tenant bmap nbits) }) s)) := by
  have hfirst : ((List.range 4096).find? fun i => !((s.dev.seAt k.die).grps.get {} i).used) = some i := by
    refine List.find?_range_eq_some.2 ⟨?_, List.mem_range.2 hi, fun j hj => ?_⟩
    · simpa [Dev.seAt] using hfree
    · simpa [Dev.seAt] using hbelow j hj
  show execSeGrpNew r pid bmap nbits s = _
  simp only [execSeGrpNew, hk, hfirst]
  exact if_neg hgood

theorem exec_seGrpJoin_stale {h : Word} (hg : s.dev.grpOf h = none) : exec (.seGrpJoin r pid h) s = .next (sometime (.classDReply r.cast pid 1 h) s) := by
  show execSeGrpJoin r pid h s = _
  simp only [execSeGrpJoin, hk, hg]
  rfl

variable {h : Word} {g : GrpEnt} (hg : s.dev.grpOf h = some g)
include hg

theorem exec_seGrpJoin : exec (.seGrpJoin r pid h) s = .next (
    if g.tid ≠ k.tenant then sometime (.classDReply r.cast pid 2 h) s
    else if r.cast ∈ g.memb then sometime (.classDReply r.cast pid 3 h) s
    else sometime (.classDReply r.cast pid 0 h) (onGroup h (fun g => { g with memb := g.memb ++ [r.cast] }) s)) := by
  show execSeGrpJoin r pid h s = _
  simp only [execSeGrpJoin, hk, hg, List.contains_iff_mem, modGrp_eq]
  split
  · rfl
  · split <;> rfl

end

/-! ### Groups left (R163, R167) -/

section
variable {s : State} {h : Word} {g : GrpEnt} (hg : s.dev.grpOf h = some g) (r : Sender)
include hg

theorem exec_seGrpLeave_outside (hout : r.cast ∉ g.memb) : exec (.seGrpLeave r h) s = .next s := by
  show execSeGrpLeave r h s = _
  simp only [execSeGrpLeave, Dev.leaveGroup, hg, List.contains_eq_mem, decide_eq_false hout, Bool.not_false, if_true]

theorem exec_seGrpLeave_last (hin : r.cast ∈ g.memb) (hall : ∀ x ∈ g.memb, x = r.cast) : exec (.seGrpLeave r h) s = .next (dissolved h s) := by
  have hempty : (g.memb.filter fun x => x != r.cast).isEmpty = true := by simpa using hall
  show execSeGrpLeave r h s = _
  simp only [execSeGrpLeave, Dev.leaveGroup, hg, List.contains_iff_mem.2 hin, hempty, Bool.not_true, Bool.false_eq_true, if_false, if_true]
  rfl

theorem exec_seGrpLeave_stays {x : Nat} (hin : r.cast ∈ g.memb) (hx : x ∈ g.memb) (hne : x ≠ r.cast) : exec (.seGrpLeave r h) s = .next
    (episodeEnds h (onGroup h (fun g => { g with memb := g.memb.filter (fun x => x != r.cast), exp := g.exp.filter fun x => x != r.cast }) s)) := by
  have hstay : (g.memb.filter fun x => x != r.cast).isEmpty = false := by
    simpa using ⟨x, hx, hne⟩
  show execSeGrpLeave r h s = _
  simp only [execSeGrpLeave, Dev.leaveGroup, hg, List.contains_iff_mem.2 hin, hstay, Bool.not_true, Bool.false_eq_true, if_false, modGrp_eq]
  rfl

end

/-! ### Arrivals at a group's barrier (R164) -/

/-- A member's arrival opens an episode, counts in the open one, or is held for the next. -/
def arrival (c : Nat) (g : GrpEnt) : GrpEnt :=
  if g.open_ = false then { g with open_ := true, exp := g.memb, arrived := [c] }
  else if c ∈ g.exp then { g with arrived := g.arrived ++ [c] } else { g with held := g.held ++ [c] }

theorem arrival_eq (c : Nat) : (fun g : GrpEnt => if !g.open_ then { g with open_ := true, exp := g.memb, arrived := [c] }
    else if g.exp.contains c then { g with arrived := g.arrived ++ [c] } else { g with held := g.held ++ [c] }) = arrival c := by
  funext g
  simp [arrival]

section
variable {s : State} {h : Word} {g : GrpEnt} (hg : s.dev.grpOf h = some g) {r : Sender} {k : Cast}
  (hk : s.dev.casts.find r.cast = some k) (hin : r.cast ∈ g.memb) {ovf : Bool} (hplace : s.dev.placeFor (grpDie h) k.tenant .wait = some ovf)
include hg hk hin hplace

theorem exec_seGrpBarArrive_unawaited (hw : k.th.waitOf r.id = none) :
    exec (.seGrpBarArrive r h) s = .next (episodeEnds h (onGroup h (arrival r.cast) s)) := by
  show execSeGrpBarArrive r h s = _
  simp only [execSeGrpBarArrive, State.barArrive, Dev.anyCast, hk, hg, hplace, hw, List.contains_iff_mem.2 hin, Option.some_or, Bool.not_true,
    Bool.false_eq_true, if_false, modGrp_eq, arrival_eq]
  rfl

theorem exec_seGrpBarArrive_awaited {w : WaitSt} (hw : k.th.waitOf r.id = some w) :
    exec (.seGrpBarArrive r h) s = .next (episodeEnds h (onGroup h (arrival r.cast) (onEngine (grpDie h) (fun x =>
      { x with waits := x.waits ++ [{ cast := r.cast, id := w.id, tenant := k.tenant, wait := w.wait, left := [], ovf := ovf }] }) s))) := by
  show execSeGrpBarArrive r h s = _
  simp only [execSeGrpBarArrive, State.barArrive, Dev.anyCast, hk, hg, hplace, hw, List.contains_iff_mem.2 hin, Option.some_or, Bool.not_true,
    Bool.false_eq_true, if_false, Dev.enterWait, modGrp_eq, arrival_eq]
  rfl

end

/-! ### Marks (R159, R165, R166, R169) -/

/-- A mark is due no earlier than those of its group on their way (R165). -/
theorem markDue_spec (d : Dev) (h : Word) (delay : Nat) {at_ : Nat} {r : Sender} {tenant : Nat} {x : ByteAt} {ix : Nat}
    (hmem : (at_, Instr.seBitmapOr r tenant x h ix) ∈ d.agenda) : at_ ≤ d.now + d.markDue h delay := by
  obtain ⟨before, rest, heq⟩ := List.append_of_mem hmem
  have hdue : at_ - d.now ≤ d.markDue h delay := by
    rw [Dev.markDue, heq, List.foldl_append, List.foldl_cons]
    refine List.foldlRecOn (motive := fun t => at_ - d.now ≤ t) _ _ ?_ fun t ht e _ => ?_
    · exact Nat.le_trans (Nat.le_max_right _ _) (Nat.le_of_eq (Eq.symm (if_pos rfl)))
    · split
      · split
        · exact Nat.le_trans ht (Nat.le_max_left ..)
        · exact ht
      · exact ht
  omega

section
variable {s : State} (r : Sender) {h b : Word} (o : MemOrder) (sc : Scope)

theorem exec_seGrpMark_stale (hg : s.dev.grpOf h = none) :
    exec (.seGrpMark r h b o sc) s = .next (strays r.cast 2 h b (settledFor (.thread r.cast) r.id s)) := by
  show execSeGrpMark r h b o sc s = _
  simp only [execSeGrpMark, hg]
  rfl

/-- The bit is set, and the word that holds it reported. -/
theorem exec_seBitmapOr_set {tenant pa : Nat} {bs : List Byte} (rpl : Option Nat) (b : Nat) (hread : Dev.atomRead s.mem s.dev tenant pa 1 = (true, bs, s.dev)) :
    let u := settledFor (.thread r.cast) r.id (engineWritesFor (.thread r.cast) r.id tenant pa rpl [BitVec.ofNat 8 (leNat bs ||| 2 ^ (b % 8))] s)
    exec (.seBitmapOr r tenant { pa := pa, rpl := rpl } h b) s = .next
      (sometime (.seMarkReport h (b / 64) (BitVec.ofNat 64 (leNat (Dev.read u.mem u.dev tenant (pa / 8 * 8) 8).1))) u) := by
  show execSeBitmapOr r tenant { pa := pa, rpl := rpl } h b s = _
  simp only [execSeBitmapOr, hread, if_true]
  rfl

variable {g : GrpEnt} (hg : s.dev.grpOf h = some g)
include hg

theorem exec_seGrpMark_beyond (hout : g.nbits ≤ b.toNat) :
    exec (.seGrpMark r h b o sc) s = .next (strays r.cast 1 h b (settledFor (.thread r.cast) r.id s)) := by
  show execSeGrpMark r h b o sc s = _
  simp only [execSeGrpMark, hg, if_pos hout]
  rfl

theorem exec_seGrpMark_sent (hin : b.toNat < g.nbits) {q : Placed} {d : Dev}
    (hq : Dev.translate s.mem s.dev (seVia (grpDie h)) g.tid (g.bmap + BitVec.ofNat 64 (b.toNat / 8)) .store = (.ok q, d)) :
    exec (.seGrpMark r h b o sc) s = .next (drawn (later (d.markDue h (Config.openDelay d.free))
      (.seBitmapOr r g.tid { pa := q.pa, rpl := q.rpl } h b.toNat) { s with dev := d })) := by
  show execSeGrpMark r h b o sc s = _
  simp only [execSeGrpMark, hg, if_neg (Nat.not_le.2 hin), hq]
  rfl

theorem exec_seMarkReport (ix : Nat) (v : Word) : exec (.seMarkReport h ix v) s = .next
    (waitsEnd (grpDie h) (fun w => w.onBits h && (w.sees g.nbits ix v).1)
      (onEngine (grpDie h) (fun x => { x with waits := x.waits.map fun w => if w.onBits h then (w.sees g.nbits ix v).2 else w }) s)) := by
  show execSeMarkReport h ix v s = _
  simp only [execSeMarkReport, hg]
  rfl

end

end Sys2Proof.Laws

namespace Sys2Proof.Proofs

open Sys2Proof.Machine Sys2Proof.Claims Sys2Proof.Laws

/-- Settles O44: an equation for each outcome of each step of a group's engine; marks stay in order by `markDue_spec`. -/
theorem groupSteps : Obligations.GroupSteps := by
  rintro s r c k rfl hk
  refine ⟨fun pid bmap nbits => ⟨?refused, ?made⟩, fun pid h => ⟨?stale, ?otherTenant, ?already, ?joined⟩, fun h g hg => ?group,
    fun tenant pa rpl h b bs hread => exec_seBitmapOr_set r rpl b hread⟩
  case refused => exact fun hcase => hcase.elim (exec_seGrpNew_refused hk) fun hused => exec_seGrpNew_noEntry hk hused bmap nbits
  case made => exact fun i hgood hi hfree hbelow => exec_seGrpNew_made hk hgood hi hfree hbelow
  case stale => exact exec_seGrpJoin_stale hk
  case otherTenant => exact fun g hg htid => by rw [exec_seGrpJoin hk hg, if_pos htid]
  case already => exact fun g hg htid hmem => by rw [exec_seGrpJoin hk hg, if_neg (not_not_intro htid), if_pos hmem]
  case joined => exact fun g hg htid hmem => by rw [exec_seGrpJoin hk hg, if_neg (not_not_intro htid), if_neg hmem]
  case group =>
    refine ⟨rfl, exec_seGrpLeave_outside hg r, exec_seGrpLeave_last hg r, fun x hx hin hne => exec_seGrpLeave_stays hg r hin hx hne,
      fun h' b o sc hstale => exec_seGrpMark_stale r o sc hstale, fun b o sc hout => exec_seGrpMark_beyond r o sc hg hout,
      fun b o sc q d hin hq => ?_, exec_seMarkReport hg, fun ovf hin hplace => ⟨exec_seGrpBarArrive_unawaited hg hk hin hplace,
        fun w hw => exec_seGrpBarArrive_awaited hg hk hin hplace hw⟩⟩
    exact ⟨d.markDue h (Config.openDelay d.free), fun at_ r' tenant x ix hmem => markDue_spec d h _ hmem, exec_seGrpMark_sent r o sc hg hin hq⟩

end Sys2Proof.Proofs

/-! ## Accesses of scratch banks and memory ports (R222, R223, R229) -/

namespace Sys2Proof.Laws

open Sys2Proof.Machine Sys2Proof.Claims

/-! ### What an operation code of an SB does (R222) -/

section
variable {ecw : BitVec 128}

theorem sbScratch_iff : sbScratch ecw = true ↔ ecwOp ecw = 1 ∨ ecwOp ecw = 2 := by simp [sbScratch]

theorem sbWrites_iff : sbWrites ecw = true ↔ ecwOp ecw = 2 ∨ ecwOp ecw = 4 := by simp [sbWrites]

theorem sbTokens_narrow (h : ecw.getLsbD 13 = true) (final : Bool) (bs : List Byte) :
    sbTokens (sbWide ecw) final bs = narrow 0 0 (BitVec.ofNat 64 (leNat bs)) :: if final then [narrow 2 0 0] else [] := by
  have hnarrow : sbWide ecw = false := by rw [sbWide, bitAt, h, Bool.not_true]
  rw [hnarrow]
  rfl

theorem sbTokens_wide (h : ecw.getLsbD 13 = false) (final : Bool) (bs : List Byte) :
    sbTokens (sbWide ecw) final bs = [wideTok (if final then 1 else 0) 0 (BitVec.ofNat 1024 (leNat bs)) 0] := by
  have hwide : sbWide ecw = true := by rw [sbWide, bitAt, h, Bool.not_false]
  rw [hwide]
  rfl

end

/-! ### Scratch accesses within their range (R223) -/

/-- Two steps that agree on the list's elements fold it to the same. -/
theorem foldl_congr_mem {α β : Type} {f g : α → β → α} : ∀ {l : List β}, (∀ a, ∀ x ∈ l, f a x = g a x) → ∀ a, l.foldl f a = l.foldl g a
  | [], _, _ => rfl
  | x :: l, h, a => by
    rw [List.foldl_cons, List.foldl_cons, h a x List.mem_cons_self]
    exact foldl_congr_mem (fun b y hy => h b y (List.mem_cons_of_mem _ hy)) (g a x)

theorem ofNat_field {w : Nat} (x : BitVec w) (lo n : Nat) : BitVec.ofNat n (field x lo n) = BitVec.ofNat n (x.toNat / 2 ^ lo) := by
  apply BitVec.eq_of_toNat_eq
  simp [field]

theorem inRange_of_mem {off len lim i : Nat} (h : off + len ≤ lim) (hi : i ∈ List.range len) : decide (off + i < lim) = true := by
  have := List.mem_range.1 hi
  exact decide_eq_true (by omega)

/-- The bytes of a bank from a place on. -/
def bytesFrom (start len : Nat) (b : SbSt) : List Byte := (List.range len).map fun i => b.mem.get 0 (start + i)

/-- The low bytes of a datum stored in a bank from a place on. -/
def storedFrom (start len : Nat) (data : BitVec 1024) (b : SbSt) : SbSt :=
  { b with mem := (List.range len).foldl (fun t i => t.set 0 (start + i) (BitVec.ofNat 8 (data.toNat / 2 ^ (8 * i)))) b.mem }

section
variable {d : Dev} {c n : Nat} {k : Cast} {b : SbSt} {addr : Word} {hidx len : Nat} {v : Token} (hlen : sbLen (k.site n).ecwNow = len)
  (hused : (b.hnd.get {} hidx).used = true) (helem : (b.hnd.get {} hidx).elem = true)
  (halign : addr.toNat % len = 0) (hin : addr.toNat + len ≤ (b.hnd.get {} hidx).len)
include hlen hused helem halign hin

theorem scratchAccess_reads (hop : sbWrites (k.site n).ecwNow = false) {t : Token} {more : List Token}
    (ht : sbTokens (sbWide (k.site n).ecwNow) (sbGen (k.site n).ecwNow && b.gen.final)
      (bytesFrom ((b.hnd.get {} hidx).base + addr.toNat) len b) = t :: more) :
    d.scratchAccess c n k b addr hidx v = ((d.emit c n .y 4 t).follow c n .y more).sbDone c n (k.site n).ecwNow := by
  have hall : (List.range len).all (fun i => decide (addr.toNat + i < (b.hnd.get {} hidx).len)) = true :=
    List.all_eq_true.2 fun i => inRange_of_mem hin
  have hbytes : (List.range len).map (fun i => if decide (addr.toNat + i < (b.hnd.get {} hidx).len) = true then
      b.mem.get 0 ((b.hnd.get {} hidx).base + addr.toNat + i) else 0) = bytesFrom ((b.hnd.get {} hidx).base + addr.toNat) len b :=
    List.map_congr_left fun i hi => if_pos (inRange_of_mem hin hi)
  simp only [Dev.scratchAccess, hlen, hused, helem, halign, hop, hall, hbytes, ht, Bool.and_self, Bool.not_true, Bool.false_eq_true, if_false,
    if_true, ne_eq, not_true_eq_false]

theorem scratchAccess_writes (hop : sbWrites (k.site n).ecwNow = true) : d.scratchAccess c n k b addr hidx v =
    (d.modBank c n (storedFrom ((b.hnd.get {} hidx).base + addr.toNat) len v.data)).sbDone c n (k.site n).ecwNow := by
  have hall : (List.range len).all (fun i => decide (addr.toNat + i < (b.hnd.get {} hidx).len)) = true :=
    List.all_eq_true.2 fun i => inRange_of_mem hin
  have hbytes : ∀ mem : Tbl Byte, (List.range len).foldl (fun t i => if decide (addr.toNat + i < (b.hnd.get {} hidx).len) = true then
      t.set 0 ((b.hnd.get {} hidx).base + addr.toNat + i) (BitVec.ofNat 8 (field v.data (8 * i) 8)) else t) mem
      = (List.range len).foldl (fun t i =>
        t.set 0 ((b.hnd.get {} hidx).base + addr.toNat + i) (BitVec.ofNat 8 (v.data.toNat / 2 ^ (8 * i)))) mem :=
    foldl_congr_mem fun t i hi => by rw [if_pos (inRange_of_mem hin hi), ofNat_field]
  simp only [Dev.scratchAccess, hlen, hused, helem, halign, hop, hall, hbytes, Bool.and_self, Bool.not_true, Bool.false_eq_true, if_false,
    if_true, ne_eq, not_true_eq_false]
  rfl

end

/-! ### Stores of memory ports (R229) -/

theorem portAccess_stores {s : State} {c n : Nat} {k : Cast} {b : SbSt} {va : Word} {len : Nat} {v : Token} {q : Placed} {d : Dev}
    (hlen : sbLen (k.site n).ecwNow = len) (hskip : (k.site n).skip = false) (hop : sbWrites (k.site n).ecwNow = true) (halign : va.toNat % len = 0)
    (hq : Dev.translate s.mem s.dev (k.portVia n) k.tenant va .store = (.ok q, d)) :
    State.portAccess s c n k b va v = accessEnds c n (k.site n).ecwNow (State.perform { s with dev := d }
      { agent := .port c n, tenant := k.tenant, pa := q.pa, write := true, len := len
        data := leBytes len v.data.toNat, rpl := q.rpl, id := 0 }) := by
  simp only [State.portAccess, hlen, hskip, halign, hop, if_true, hq, Bool.false_eq_true, if_false, ne_eq, not_true_eq_false]
  exact mk_accessEnds ..

/-! ### The steps -/

/-- An SB that can act and has an access to make goes by what its heads call for after the round boundary. -/
theorem sbFire_access {s : State} {c n : Nat} {k k' : Cast} {b : SbSt} {addr a : Word} {hidx h : Nat} {v t : Token}
    (hk : s.dev.casts.find c = some k) (hb : (k.site n).el = .sb b) (hk' : (roundBegins c n s).dev.casts.find c = some k')
    (hready : k.sbReady s.dev n = true) (hact : (k.site n).sbAct b = .access a h t) (hact' : (k'.site n).sbAct b = .access addr hidx v) :
    exec (.sbFire c n) s = .next (if sbScratch (k'.site n).ecwNow then
      { s with dev := (roundBegins c n s).dev.scratchAccess c n k' b addr hidx v } else State.portAccess (roundBegins c n s) c n k' b addr v) := by
  have hbank : (k.site n).bank? = some b := by rw [Site.bank?, hb]
  have hbegun : (s.dev.beginFiring c n).casts.find c = some k' := hk'
  show Host.Outcome.next (s.sbFire c n) = _
  simp only [State.sbFire, hk, hready, hbank, hact, hbegun, hact', Bool.not_true, Bool.false_eq_true, if_false]
  rfl

/-- The reply of the load at the head, behind which none has its reply yet: its first token leaves on Y, the others follow. -/
theorem exec_mloadReply {s : State} {c n : Nat} {k : Cast} {b : SbSt} {l : PortLoad} {rest : List PortLoad} {tok : Token} {more : List Token}
    (hk : s.dev.casts.find c = some k) (hb : (k.site n).el = .sb b) (hloads : b.loads = l :: rest) (hback : l.back = false)
    (htoks : l.toks = tok :: more) (hrest : ∀ x ∈ rest.head?, x.back = false) :
    exec (.mloadReply c n) s = .next (followed c n more (sentTaken c n .y tok (onBank c n (fun b => { b with loads := rest })
      (onBank c n (fun b => { b with loads := markReturned b.loads }) s)))) := by
  have hmark : markReturned b.loads = { l with back := true } :: rest := by
    rw [hloads, markReturned, if_neg (ne_true_of_eq_false hback)]
  have hat : (s.dev.modBank c n fun b => { b with loads := markReturned b.loads }).loadsAt c n = { l with back := true } :: rest := by
    rw [Dev.loadsAt, Dev.modBank, Dev.modSite, find_modCast hk, Option.bind_some, site_modSite, hb, ← hmark]
    rfl
  show Host.Outcome.next (State.mk s.mem (Dev.deliverLoads c n _ _)) = _
  rw [hat, Dev.deliverLoads]
  simp only [htoks]
  rw [deliverLoads_stop c n _ rest hrest]
  rfl

/-- Posting does not move the clock, so each entry of a run of them falls due by the clock before the first. -/
theorem foldl_post_later (at_ : Nat) (g : Route → Instr) {now : Nat} : ∀ (rs : List Route) (s : State), s.dev.now = now →
    { s with dev := rs.foldl (fun d r => d.post (at_ - d.now + r.clocks) (g r)) s.dev } =
      rs.foldl (fun s' r => later (at_ - now + r.clocks) (g r) s') s
  | [], _, _ => rfl
  | r :: rs, s, h => by
    subst h
    exact foldl_post_later at_ g rs (later (at_ - s.dev.now + r.clocks) (g r) s) rfl

theorem sentTaken_eq {s : State} {c n : Nat} {k : Cast} (hk : s.dev.casts.find c = some k) (tok : Token) :
    sentTaken c n .y tok s = (k.routes s.dev (k.site n).ctx (k.site n).phase n .y tok.wide).foldl
      (fun s' r => later (max s.dev.now (k.site n).dueY - s.dev.now + r.clocks) (.tokenAccept c r.dst tok) s')
      (onSite c n (fun x => { x with dueY := max s.dev.now (k.site n).dueY + 1 }) s) := by
  rw [sentTaken, Dev.emitTaken, hk]
  exact foldl_post_later _ (fun r => .tokenAccept c r.dst tok) _
    (onSite c n (fun x => { x with dueY := max s.dev.now (k.site n).dueY + 1 }) s) rfl

end Sys2Proof.Laws

namespace Sys2Proof.Proofs

open Sys2Proof.Machine Sys2Proof.Claims Sys2Proof.Laws

/-- Settles O37: an access goes by the heads that the round boundary leaves (`sbFire_access`), and then by its operation
(`scratchAccess_reads`, `scratchAccess_writes`, `portAccess_stores`); replies by `exec_mloadReply`. -/
theorem bankSteps : Obligations.BankSteps := by
  intro s c n k k' bank addr hidx v hk hb hk' ecw len op range
  have hlen : sbLen ecw = len := sbLen_eq ecw
  have hop : ecwOp ecw = op := ecwOp_eq ecw
  refine ⟨fun hready hacts hact' => ?_, fun l rest tok more hloads hback htoks hrest => exec_mloadReply hk hb hloads hback htoks hrest,
    fun tok => sentTaken_eq hk tok⟩
  obtain ⟨a, h, t, hact⟩ := hacts
  have hfire := sbFire_access hk hb hk' hready hact hact'
  refine ⟨fun hread hused helem halign hin => ?read, fun hwrite hused helem halign hin => ?write, fun hstore hskip halign q d hq => ?store⟩
  case read =>
    rw [if_pos (sbScratch_iff.2 (.inl (hop.trans hread)))] at hfire
    have hreads : sbWrites ecw = false := Bool.eq_false_iff.2 fun hw => by
      have := sbWrites_iff.1 hw
      omega
    refine ⟨fun hnarrow => ?_, fun hwide => ?_⟩
    · rw [hfire, scratchAccess_reads hlen hused helem halign hin hreads (sbTokens_narrow hnarrow ..)]
      exact congrArg _ (mk_accessEnds ..)
    · rw [hfire, scratchAccess_reads hlen hused helem halign hin hreads (sbTokens_wide hwide ..)]
      exact congrArg _ (mk_accessEnds ..)
  case write =>
    rw [if_pos (sbScratch_iff.2 (.inr (hop.trans hwrite)))] at hfire
    rw [hfire, scratchAccess_writes hlen hused helem halign hin (sbWrites_iff.2 (.inl (hop.trans hwrite)))]
    exact congrArg _ (mk_accessEnds ..)
  case store =>
    have hport : ¬ sbScratch ecw = true := fun hs => by
      have := sbScratch_iff.1 hs
      omega
    rw [if_neg hport] at hfire
    rw [hfire]
    exact congrArg _ (portAccess_stores hlen hskip (sbWrites_iff.2 (.inr (hop.trans hstore))) halign hq)

end Sys2Proof.Proofs

/-! ## Commands to one site of the cast (R216, R218, R219, R306, R309) -/

namespace Sys2Proof.Laws

open Sys2Proof.Machine Sys2Proof.Claims

/-- The matrix element's site that an operand names. -/
abbrev matrixSite (a : Word) : Nat := elementSite (a.toNat % 2 ^ 8) (a.toNat / 2 ^ 8 % 2 ^ 7)

theorem mxSiteOf_eq (a : Word) : mxSiteOf a = matrixSite a := by rw [mxSiteOf, field_low]; rfl

theorem operandSite_eq (a : Word) : operandSite a = siteNamed a := by rw [operandSite, field_low]; rfl

theorem hndSite_eq (h : Word) : hndSite h = siteNamed h := operandSite_eq h

theorem anyMat_none {d : Dev} {c n : Nat} {k : Cast} (hk : d.casts.find c = some k) (hmx : ∀ m, (k.site n).el ≠ .mx m) : d.anyMat c n = none := by
  have hmat : (k.site n).mat? = none := by
    unfold Site.mat?
    split
    · next m hm => exact absurd hm (hmx m)
    · rfl
  rw [Dev.anyMat, hk, Option.bind_some, hmat, Option.map_none]

theorem hndInfo_stale {k : Cast} {h : Word} (hc : k.current h = none) : k.hndInfo h = 0 := by rw [Cast.hndInfo, hc]

theorem hndInfo_current {k : Cast} {h : Word} {e : HndEnt} (hc : k.current h = some e) :
    k.hndInfo h = BitVec.ofNat 64 (e.base % 2 ^ 20 + 2 ^ 20 * e.len + 2 ^ 40 * bit e.elem + 2 ^ 41) := by rw [Cast.hndInfo, hc]

section
variable {p : Pred} {s : State} {sh : Shot}

theorem casts_find_of_fires {u : Uses} (h : Fires p u s sh) : s.dev.casts.find sh.c = some sh.k := by
  obtain ⟨-, hk, -⟩ := h
  exact hk

theorem inside_of_names {a : Word} (h : NamesSite sh a) : sh.k.inside (field a 0 8) (field a 8 7) = true := (inside_iff_names sh a).2 h

theorem not_inside_of_not_names {a : Word} (h : ¬ NamesSite sh a) : sh.k.inside (field a 0 8) (field a 8 7) = false :=
  Bool.eq_false_iff.2 fun hin => h ((inside_iff_names sh a).1 hin)

theorem atMxSite_inside (h : NamesSite sh sh.a) (d : Dev) (f : Dev → Dev) : d.atMxSite sh f = f d := if_pos (inside_of_names h)

theorem atMxSite_outside (h : ¬ NamesSite sh sh.a) (d : Dev) (f : Dev → Dev) : d.atMxSite sh f = d.slotTrap sh 0x0F (sh.sl.word.setWidth 64) 0 :=
  if_neg (ne_true_of_eq_false (not_inside_of_not_names h))

/-! ### Commands whose operand A names a site (R216, R306 to R309) -/

/-- A slot fires with two effects, the second of which takes an open number of clocks to reach its engine. -/
theorem fire_within_site_after {u : Uses} {i : Instr} {f : Dev → Shot → Dev} {first : Effect} {mk : Nat → Effect} {bound : Nat} (h : Fires p u s sh)
    (hp : predOf i = p) (hu : usesOf i = u)
    (hv : f { s.dev with cursor := none } sh = (Dev.record { s.dev with cursor := none } sh first).effectWithin sh bound mk) :
    ∃ delay ≤ bound, fire i s f = .next (FiresWith (drawn (seen s)) sh fun b =>
      { b with effects := insertBySlot sh.n (mk delay) (insertBySlot sh.n first b.effects) }) := by
  have htick : (Dev.record { s.dev with cursor := none } sh first).tickFree = Dev.record (drawn (seen s)).dev sh first := rfl
  refine ⟨s.dev.delay bound, Nat.min_le_left .., ?_⟩
  rw [fire_of_Fires h hp hu, hv, Dev.effectWithin, htick]
  simp only [FiresWith, settled, onBlock, onCast, placed_eq, Dev.effect, Dev.record, Dev.fireAs, Dev.modTh_modTh, Thread.modBlk_modBlk]
  rfl

section
variable (h : Fires p ⟨true, true, false⟩ s sh)
include h

section
variable (hin : NamesSite sh sh.a)
include hin

theorem exec_mxClaim (a : Target) : ∃ delay ≤ 4 + sh.k.way 0 (matrixSite sh.a), exec (.mxClaim p a) s = .next (Effects
    (drawn (numbered sh.c (seen s))) sh (.defer .plain sh.k.th.nextId a 0 false (100 + matrixSite sh.a) false delay
      (.mxClaimServe sh.c sh.k.th.nextId (matrixSite sh.a) sh.b))) := by
  rw [← mxSiteOf_eq]
  exact show ∃ delay ≤ _, execMxClaim p a s = _ from fire_within_site h rfl rfl rfl (atMxSite_inside hin ..)

theorem exec_mxRel : ∃ delay ≤ 4 + sh.k.way 0 (matrixSite sh.a), exec (.mxRel p) s = .next (Effects (drawn (seen s)) sh
    (.issue (100 + matrixSite sh.a) false delay (.mxRelArrive sh.c (matrixSite sh.a) (sh.b.toNat % 16)))) := by
  rw [← mxSiteOf_eq, show sh.b.toNat % 16 = field sh.b 0 4 from (field_low sh.b 4).symm]
  exact show ∃ delay ≤ _, execMxRel p s = _ from fire_within_site h rfl rfl rfl (atMxSite_inside hin ..)

theorem exec_mxStat (f : StatForm) (a : Target) : ∃ delay ≤ 4 + sh.k.way 0 (matrixSite sh.a), exec (.mxStat p f a) s = .next (Effects
    (drawn (numbered sh.c (seen s))) sh (.defer .plain sh.k.th.nextId a 0 false (100 + matrixSite sh.a) false delay
      (.mxStatServe sh.c sh.k.th.nextId (matrixSite sh.a) f (sh.b.toNat % 16)))) := by
  rw [← mxSiteOf_eq, show sh.b.toNat % 16 = field sh.b 0 4 from (field_low sh.b 4).symm]
  exact show ∃ delay ≤ _, execMxStat p f a s = _ from fire_within_site h rfl rfl rfl (atMxSite_inside hin ..)

/-- MX.SCALE: its wait, and the write behind it, which waits for nothing where there is no matrix element. -/
theorem exec_mxScale_eq {mx : Bool} (hmx : (s.dev.anyMat sh.c (matrixSite sh.a)).isSome = mx) :
    ∃ delay ≤ if mx then 4 + sh.k.way 0 (matrixSite sh.a) else 0, exec (.mxScale p) s = .next (FiresWith (drawn (seen s)) sh fun b =>
      { b with effects := insertBySlot sh.n (.issue (if mx then 100 + matrixSite sh.a else 0) false delay
                 (.mxScaleWrite sh.c (matrixSite sh.a) (sh.b.setWidth 32))) (insertBySlot sh.n (.wait .mxScale) b.effects) }) := by
  rw [← mxSiteOf_eq] at hmx ⊢
  subst hmx
  exact show ∃ delay ≤ _, execMxScale p s = _ from fire_within_site_after h rfl rfl (atMxSite_inside hin ..)

theorem exec_mxScale_matrix {mx : MxSt} (hmx : (sh.k.site (matrixSite sh.a)).el = .mx mx) :
    ∃ delay ≤ 4 + sh.k.way 0 (matrixSite sh.a), exec (.mxScale p) s = .next (FiresWith (drawn (seen s)) sh fun b =>
      { b with effects := insertBySlot sh.n (.issue (100 + matrixSite sh.a) false delay
                 (.mxScaleWrite sh.c (matrixSite sh.a) (sh.b.setWidth 32))) (insertBySlot sh.n (.wait .mxScale) b.effects) }) := by
  have hsome := anyMat_eq (casts_find_of_fires h) hmx
  exact exec_mxScale_eq (mx := true) h hin (by rw [hsome]; rfl)

theorem exec_mxScale_other (hmx : ∀ mx, (sh.k.site (matrixSite sh.a)).el ≠ .mx mx) :
    exec (.mxScale p) s = .next (FiresWith (drawn (seen s)) sh fun b =>
      { b with effects := insertBySlot sh.n (.issue 0 false 0 (.mxScaleWrite sh.c (matrixSite sh.a) (sh.b.setWidth 32)))
                 (insertBySlot sh.n (.wait .mxScale) b.effects) }) := by
  have hnone := anyMat_none (casts_find_of_fires h) hmx
  obtain ⟨delay, hdelay, ht⟩ := exec_mxScale_eq (mx := false) h hin (by rw [hnone]; rfl)
  obtain rfl := Nat.le_zero.1 hdelay
  exact ht

theorem exec_hndNew (a : Target) : ∃ delay ≤ 4 + sh.k.way 0 (siteNamed sh.a), exec (.hndNew p a) s = .next (Effects
    (drawn (numbered sh.c (seen s))) sh (.defer .plain sh.k.th.nextId a 0 false (100 + siteNamed sh.a) false delay
      (.sbHndNew sh.c sh.k.th.nextId (siteNamed sh.a) sh.b))) := by
  rw [← operandSite_eq]
  exact show ∃ delay ≤ _, execHndNew p a s = _ from fire_within_site h rfl rfl rfl (if_neg (by simp [inside_of_names hin]))

end

/-- A site beyond the cast traps ARGRANGE. -/
theorem siteCommands_outside (hout : ¬ NamesSite sh sh.a) (f : StatForm) (a : Target) :
    ∀ i ∈ [Instr.mxClaim p a, .mxRel p, .mxScale p, .mxStat p f a, .hndNew p a],
      exec i s = .next (Traps (seen s) sh 0x0F (sh.sl.word.setWidth 64) 0) := by
  simp only [List.forall_mem_cons]
  exact ⟨show execMxClaim p a s = _ from fire_traps h rfl rfl (atMxSite_outside hout ..),
    show execMxRel p s = _ from fire_traps h rfl rfl (atMxSite_outside hout ..),
    show execMxScale p s = _ from fire_traps h rfl rfl (atMxSite_outside hout ..),
    show execMxStat p f a s = _ from fire_traps h rfl rfl (atMxSite_outside hout ..),
    show execHndNew p a s = _ from fire_traps h rfl rfl (if_pos (by simp [not_inside_of_not_names hout])), by simp⟩

end

/-! ### Commands on handles, and to a port (R218, R219, R233) -/

section
variable (h : Fires p ⟨true, false, false⟩ s sh)
include h

theorem exec_hndTake (a : Target) : ∃ delay ≤ 4 + sh.k.way 0 (siteNamed sh.a), exec (.hndTake p a) s = .next (Effects
    (drawn (numbered sh.c (seen s))) sh (.defer (.take sh.a) sh.k.th.nextId a 0 false (100 + siteNamed sh.a) false delay
      (.sbHndTake sh.c sh.k.th.nextId sh.a))) := by
  rw [← hndSite_eq]
  exact show ∃ delay ≤ _, execHndTake p a s = _ from fire_within_site h rfl rfl rfl rfl

theorem exec_hndGive (hheld : sh.holds sh.a = true) :
    exec (.hndGive p) s = .next (Effects (seen s) sh (.issue (100 + siteNamed sh.a) false 0 (.sbHndGive sh.c sh.a))) := by
  rw [← hndSite_eq]
  exact show execHndGive p s = _ from fire_effect h rfl rfl rfl (if_pos hheld)

theorem exec_hndDrop (hheld : sh.holds sh.a = true) :
    exec (.hndDrop p) s = .next (Effects (seen s) sh (.issue (100 + siteNamed sh.a) false 0 (.sbHndDrop sh.c sh.a))) := by
  rw [← hndSite_eq]
  exact show execHndDrop p s = _ from fire_effect h rfl rfl rfl (if_pos hheld)

theorem exec_portRes (hin : NamesSite sh sh.a) (act : Resume) :
    exec (.portRes p act) s = .next (Effects (seen s) sh (.portRes (siteNamed sh.a) act)) := by
  rw [← operandSite_eq]
  exact show execPortRes p act s = _ from fire_effect h rfl rfl rfl (if_pos (inside_of_names hin))

end

end

end Sys2Proof.Laws

namespace Sys2Proof.Proofs

open Sys2Proof.Machine Sys2Proof.Claims Sys2Proof.Laws

/-- Settles O13: a command whose site is named goes to its lane, any other traps (`siteCommands_outside`); HND.INFO answers by the handle's entry. -/
theorem siteCommands : Obligations.SiteCommands := by
  intro p b a f act s sh m n pid
  refine ⟨fun h hin => ?named, fun h hout => siteCommands_outside h hout f a, fun h => ?one⟩
  case named =>
    exact ⟨exec_mxClaim h hin a, exec_mxRel h hin, exec_mxStat h hin f a, fun mx hmx => exec_mxScale_matrix h hin hmx,
      fun hmx => exec_mxScale_other h hin hmx, exec_hndNew h hin a⟩
  case one =>
    refine ⟨fun hheld => ⟨exec_hndGive h hheld, exec_hndDrop h hheld⟩, fun hheld => ⟨?_, ?_⟩, exec_hndTake h a, fun hc => ?_, fun e hc => ?_,
      fun hin => exec_portRes h hin act, fun hout => ?_⟩
    · exact show execHndGive p s = _ from fire_traps h rfl rfl (if_neg (ne_true_of_eq_false hheld))
    · exact show execHndDrop p s = _ from fire_traps h rfl rfl (if_neg (ne_true_of_eq_false hheld))
    · exact show execHndInfo p b a s = _ from fire_delivers h rfl rfl (by rw [hndInfo_stale hc])
    · exact show execHndInfo p b a s = _ from fire_delivers h rfl rfl (by rw [hndInfo_current hc])
    · exact show execPortRes p act s = _ from fire_traps h rfl rfl (if_neg (ne_true_of_eq_false (not_inside_of_not_names hout)))

end Sys2Proof.Proofs

/-! ## Handles at their bank (R215, R217 to R219) -/

namespace Sys2Proof.Laws

open Sys2Proof.Machine Sys2Proof.Claims

/-! ### Allocation (R215, R217) -/

theorem get_filter_of_dropped {α : Type} (d : α) (p : Nat × α → Bool) (n : Nat) (hp : ∀ x, p (n, x) = false) (t : Tbl α) :
    Tbl.get d (t.filter p) n = d := by
  induction t with
  | nil => rfl
  | cons e t ih =>
    obtain ⟨k, x⟩ := e
    by_cases hk : n = k
    · subst hk
      rw [List.filter_cons, if_neg (ne_true_of_eq_false (hp x)), ih]
    · rw [List.filter_cons]
      split
      · rw [Tbl.get, if_neg hk, ih]
      · exact ih

/-- Where an allocation succeeds: the lowest free entry, and the lowest run of free granules. -/
theorem alloc_eq_some {b b' : SbSt} {len i : Nat} (h : b.alloc len = some (i, b')) :
    0 < len ∧ len ≤ 524288 ∧ b.freeEntry = some i ∧ ∃ g, b.freeRun ((len + 4095) / 4096) = some g ∧
      b' = { b with
        hnd := b.hnd.set {} i { b.hnd.get {} i with used := true, base := 4096 * g, len := len, elem := false }
        mem := b.mem.filter fun x => decide (x.1 < 4096 * g ∨ 4096 * (g + (len + 4095) / 4096) ≤ x.1) } := by
  rw [SbSt.alloc] at h
  split at h
  · exact nomatch h
  · next hlen =>
    split at h
    · next j g hentry hrun =>
      obtain ⟨rfl, rfl⟩ := Prod.mk.inj (Option.some.inj h)
      exact ⟨by omega, by omega, hentry, g, hrun, rfl⟩
    · exact nomatch h

theorem freeEntry_eq_some {b : SbSt} {i : Nat} (h : b.freeEntry = some i) :
    i < 16 ∧ (b.hnd.get {} i).used = false ∧ ∀ j, j < i → (b.hnd.get {} j).used = true := by
  obtain ⟨hfree, hi, hbelow⟩ := List.find?_range_eq_some.1 h
  exact ⟨List.mem_range.1 hi, by simpa using hfree, fun j hj => by simpa using hbelow j hj⟩

theorem freeRun_eq_some {b : SbSt} {n g : Nat} (h : b.freeRun n = some g) : g + n ≤ 128 ∧ ∀ x, g ≤ x → x < g + n → b.granuleFree x = true := by
  obtain ⟨hrun, -, -⟩ := List.find?_range_eq_some.1 h
  simp only [Bool.and_eq_true, decide_eq_true_eq, List.all_eq_true, List.mem_range] at hrun
  obtain ⟨hfit, hfree⟩ := hrun
  refine ⟨hfit, fun x hlo hhi => ?_⟩
  have := hfree (x - g) (by omega)
  rwa [Nat.add_sub_cancel' hlo] at this

/-- A free granule lies before or behind the granules of every range. -/
theorem granuleFree_apart {b : SbSt} {x j : Nat} (h : b.granuleFree x = true) (hj : j < 16) (hused : (b.hnd.get {} j).used = true) :
    x < (b.hnd.get {} j).base / 4096 ∨ (b.hnd.get {} j).base / 4096 + ((b.hnd.get {} j).len + 4095) / 4096 ≤ x := by
  have hall := List.all_eq_true.1 h j (List.mem_range.2 hj)
  simp only [hused, Bool.not_true, Bool.false_or, Bool.or_eq_true, decide_eq_true_eq] at hall
  exact hall

/-- A run of free granules lies clear of every range: where the two met, the later of their first granules would be in both. -/
theorem freeRun_apart {b : SbSt} {n g j : Nat} (hn : 0 < n) (hfree : ∀ x, g ≤ x → x < g + n → b.granuleFree x = true) (hj : j < 16)
    (hused : (b.hnd.get {} j).used = true) (hlen : 0 < (b.hnd.get {} j).len) :
    g + n ≤ (b.hnd.get {} j).base / 4096 ∨ (b.hnd.get {} j).base / 4096 + ((b.hnd.get {} j).len + 4095) / 4096 ≤ g := by
  refine Decidable.byContradiction fun hmeet => ?_
  have hapart := granuleFree_apart (hfree (max g ((b.hnd.get {} j).base / 4096)) (by omega) (by omega)) hj hused
  omega

/-- What an allocated range is (R217): aligned, within the bank, reading as zero, and clear of every other. -/
theorem alloc_spec {b b' : SbSt} {len i : Nat} (h : b.alloc len = some (i, b')) :
    0 < len ∧ len ≤ 524288 ∧ i < 16 ∧ (b.hnd.get {} i).used = false ∧ (∀ j, j < i → (b.hnd.get {} j).used = true) ∧
      ∃ base, base % 4096 = 0 ∧ base + len ≤ 524288 ∧
        b'.hnd.get {} i = { b.hnd.get {} i with used := true, base := base, len := len, elem := false } ∧
        (∀ a, base ≤ a → a < base + len → b'.mem.get 0 a = 0) ∧
        (∀ j, j < 16 → (b.hnd.get {} j).used = true → 0 < (b.hnd.get {} j).len → (b.hnd.get {} j).base % 4096 = 0 →
          base + len ≤ (b.hnd.get {} j).base ∨ (b.hnd.get {} j).base + (b.hnd.get {} j).len ≤ base) := by
  obtain ⟨hpos, hmax, hentry, g, hrun, rfl⟩ := alloc_eq_some h
  obtain ⟨hi, hfree, hbelow⟩ := freeEntry_eq_some hentry
  obtain ⟨hfit, hgranules⟩ := freeRun_eq_some hrun
  refine ⟨hpos, hmax, hi, hfree, hbelow, 4096 * g, by omega, by omega, ?_, fun a hlo hhi => ?_, fun j hj hused hlen hbase => ?_⟩
  · rw [Tbl.get_set, if_pos rfl]
  · exact get_filter_of_dropped 0 _ a (fun x => decide_eq_false (by omega)) b.mem
  · have := freeRun_apart (by omega) hgranules hj hused hlen
    omega

/-! ### The steps at the bank (R217 to R219) -/

section
variable {s : State} {c n : Nat} {k : Cast} (hk : s.dev.casts.find c = some k)
include hk

theorem wayTo_eq : s.dev.wayTo c n = k.way 0 n := by rw [Dev.wayTo, hk]; rfl

theorem exec_sbHndNew_refused {bank : SbSt} (hb : (k.site n).el = .sb bank) {len : Word} (pid : Nat) (hnone : bank.alloc len.toNat = none) :
    ∃ t, exec (.sbHndNew c pid n len) s = .next t ∧ Replies s (8 + k.way 0 n) c pid 0 0 t := by
  refine ⟨{ s with dev := s.dev.replyWithin (8 + k.way 0 n) c pid 0 0 }, ?_, replyWithin_eq ..⟩
  show execSbHndNew c pid n len s = _
  simp only [execSbHndNew, hk, wayTo_eq hk, Site.bank?, hb, Option.bind_some, hnone]

theorem exec_sbHndNew_made {bank b : SbSt} {i : Nat} (hb : (k.site n).el = .sb bank) {len : Word} (pid : Nat)
    (hsome : bank.alloc len.toNat = some (i, b)) :
    ∃ t, exec (.sbHndNew c pid n len) s = .next t ∧
      Replies (onBank c n (fun _ => b) s) (8 + k.way 0 n) c pid (handleOf n i (b.hnd.get {} i).gen) 0 t := by
  refine ⟨{ s with dev := (s.dev.modBank c n fun _ => b).replyWithin (8 + k.way 0 n) c pid (handleOf n i (b.hnd.get {} i).gen) 0 }, ?_,
    replyWithin_eq ..⟩
  show execSbHndNew c pid n len s = _
  simp only [execSbHndNew, hk, wayTo_eq hk, Site.bank?, hb, Option.bind_some, hsome]

variable {h : Word} (hsite : hndSite h = n)
include hsite

theorem exec_sbHndTake_stale (pid : Nat) (hc : k.current h = none) :
    ∃ t, exec (.sbHndTake c pid h) s = .next t ∧ Replies s (8 + k.way 0 n) c pid 1 0 t := by
  subst hsite
  refine ⟨{ s with dev := s.dev.replyWithin (8 + k.way 0 (hndSite h)) c pid 1 0 }, ?_, replyWithin_eq ..⟩
  show execSbHndTake c pid h s = _
  simp only [execSbHndTake, hk, wayTo_eq hk, Option.bind_some, hc]

variable {e : HndEnt} (hc : k.current h = some e)
include hc

theorem exec_sbHndTake_held (pid : Nat) (helem : e.elem = false) :
    ∃ t, exec (.sbHndTake c pid h) s = .next t ∧ Replies s (8 + k.way 0 n) c pid 2 0 t := by
  subst hsite
  refine ⟨{ s with dev := s.dev.replyWithin (8 + k.way 0 (hndSite h)) c pid 2 0 }, ?_, replyWithin_eq ..⟩
  show execSbHndTake c pid h s = _
  simp only [execSbHndTake, hk, wayTo_eq hk, Option.bind_some, hc, helem, Bool.false_eq_true, if_false]

theorem exec_sbHndTake_taken (pid : Nat) (helem : e.elem = true) : ∃ t, exec (.sbHndTake c pid h) s = .next t ∧
    Replies (onBank c n (fun b => { b with hnd := b.hnd.set {} (h.toNat / 2 ^ 16 % 16) { e with elem := false } }) s)
      (8 + k.way 0 n) c pid 0 0 t := by
  subst hsite
  refine ⟨{ s with dev := (s.dev.modBank c (hndSite h) fun b =>
    { b with hnd := b.hnd.set {} (h.toNat / 2 ^ 16 % 16) { e with elem := false } }).replyWithin (8 + k.way 0 (hndSite h)) c pid 0 0 }, ?_,
    replyWithin_eq ..⟩
  show execSbHndTake c pid h s = _
  simp only [execSbHndTake, hk, wayTo_eq hk, Option.bind_some, hc, helem, if_true, hndIx_eq]

theorem exec_sbHndGive : exec (.sbHndGive c h) s = .next
    (onBank c n (fun b => { b with hnd := b.hnd.set {} (h.toNat / 2 ^ 16 % 16) { e with elem := true } }) s) := by
  subst hsite
  show execSbHndGive c h s = _
  simp only [execSbHndGive, hk, Option.bind_some, hc, hndIx_eq]
  rfl

theorem exec_sbHndDrop : exec (.sbHndDrop c h) s = .next (onBank c n (fun b => b.free (h.toNat / 2 ^ 16 % 16)) s) := by
  subst hsite
  show execSbHndDrop c h s = _
  simp only [execSbHndDrop, hk, Option.bind_some, hc, hndIx_eq]
  rfl

end

end Sys2Proof.Laws

namespace Sys2Proof.Proofs

open Sys2Proof.Machine Sys2Proof.Claims Sys2Proof.Laws

/-- Settles O36: a range is taken from free granules only (`alloc_spec`); each command goes by the handle's entry at the bank. -/
theorem handleSteps : Obligations.HandleSteps := by
  intro s c n k bank hk hb
  refine ⟨fun pid len hnone => exec_sbHndNew_refused hk hb pid hnone, fun pid len i b hsome => ?made, fun len i b h => alloc_spec h,
    fun h e hsite hc => exec_sbHndGive hk hsite hc, fun pid h hsite hc => exec_sbHndTake_stale hk hsite pid hc,
    fun pid h e hsite hc helem => exec_sbHndTake_held hk hsite hc pid helem, fun pid h e hsite hc helem => exec_sbHndTake_taken hk hsite hc pid helem,
    fun h e hsite hc => exec_sbHndDrop hk hsite hc⟩
  case made =>
    obtain ⟨-, -, -, -, -, base, -, -, hentry, -⟩ := alloc_spec hsome
    have hgen : (b.hnd.get {} i).gen = (bank.hnd.get {} i).gen := by rw [hentry]
    exact hgen ▸ exec_sbHndNew_made hk hb pid hsome

end Sys2Proof.Proofs

/-! ## Converters and vector elements (R251, R255, R268 to R270, R279, R280) -/

namespace Sys2Proof.Laws

open Sys2Proof.Machine Sys2Proof.Claims

/-! ### What a firing takes and sends -/

theorem conv?_of_cx {x : Site} {cx : CxSt} (h : x.el = .cx cx) : x.conv? = some cx := by rw [Site.conv?, h]

theorem vec?_of_ve {x : Site} {v : VeSt} (h : x.el = .ve v) : x.vec? = some v := by rw [Site.vec?, h]

theorem mk_consumed_ite (m : Memory) (d : Dev) (c n : Nat) (p : InPort) (q : Prop) [Decidable q] :
    State.mk m (if q then d.takeHead c n p else d) = (if q then consumed c n p else id) (State.mk m d) := by
  split <;> rfl

/-- The end of a firing with results on Y and Z: both are sent, in that order, and the firing ends. -/
theorem mk_sent_endFiring (m : Memory) (d : Dev) (c n lat : Nat) (y z : Option Token) :
    State.mk m (((d.emitOpt c n .y lat y).emitOpt c n .z lat z).endFiring c n) =
      firingEnds c n (emittedIf c n .z lat z (emittedIf c n .y lat y (State.mk m d))) := by
  rw [← emitOpt_eq, ← emitOpt_eq]
  rfl

/-! ### The heads that a vector element acts on (R268, R269) -/

theorem head_of_canSwap {d : Dev} {k : Cast} {n : Nat} (h : k.canSwap d n = true) : ∃ t, (k.site n).head .a = some t := by
  rw [Cast.canSwap] at h
  split at h
  · exact nomatch h
  · simp only [Bool.and_eq_true, beq_iff_eq, Site.headName, Option.map_eq_some_iff] at h
    obtain ⟨⟨⟨_, t, hhead, -⟩, _⟩, _⟩ := h
    exact ⟨t, hhead⟩

/-- A HEADER is for its input if it announces the resident context's format; the one at A goes on. -/
theorem veAlone_header {x : Site} {p : InPort} {t : Token} (hin : ecwIn x.ecwNow p = true) (hhead : x.head p = some t) (hname : tokName t = .header) :
    x.veAlone p = if t.ctl.toNat / 2 ^ 8 % 16 = ecwFmt x.ecwNow then (if p = .a then .forward t else .quiet) else .bad := by
  simp only [Site.veAlone, hin, hhead, hname, Bool.not_true, Bool.false_eq_true, if_false]
  rfl

section
variable {s : State} {c n : Nat} {k k' : Cast} (hk : s.dev.casts.find c = some k)
include hk

/-! ### Converters (R251, R255) -/

theorem exec_cxFire_pass {cx : CxSt} {t : Token} (hcx : (k.site n).el = .cx cx) (hready : k.cxReady s.dev n = true)
    (hact : (k.site n).cxAct cx = .pass t) :
    exec (.cxFire c n) s = .next (clockUsed c n (emitted c n .y 3 t (consumed c n .a s))) := by
  show execCxFire c n s = _
  simp only [execCxFire, Dev.cxFire, hk, hready, conv?_of_cx hcx, hact, Bool.not_true, Bool.false_eq_true, if_false]
  rfl

/-- A converter that can fire fires as its heads call for after the round boundary. -/
theorem exec_cxFire_fire (hk' : (roundBegins c n s).dev.casts.find c = some k') {cx : CxSt} {r r' : CxStep} (hcx : (k.site n).el = .cx cx)
    (hready : k.cxReady s.dev n = true) (hact : (k.site n).cxAct cx = .fire r') (hact' : (k'.site n).cxAct cx = .fire r) :
    exec (.cxFire c n) s = .next (firingEnds c n (emittedIf c n .z 3 r.z (emittedIf c n .y 3 r.y
      ((if r.takeB then consumed c n .b else id) ((if r.takeA then consumed c n .a else id)
        (onConv c n (fun _ => r.st) (roundBegins c n s))))))) := by
  have hbegun : (s.dev.beginFiring c n).casts.find c = some k' := hk'
  show execCxFire c n s = _
  simp only [execCxFire, Dev.cxFire, hk, hready, conv?_of_cx hcx, hact, hbegun, Option.getD_some, hact', Bool.not_true, Bool.false_eq_true,
    if_false, mk_sent_endFiring, mk_consumed_ite]
  rfl

/-! ### Firings of a vector element (R268, R270) -/

theorem exec_veFire (hk' : (roundBegins c n s).dev.casts.find c = some k') {v : VeSt} {t : Token} {a b cc : List Nat}
    (hready : k.veReady s.dev n = true) (hv : (k'.site n).el = .ve v) (hops : (k'.site n).veOperands v = some (t, a, b, cc))
    {ecw : BitVec 128} (hecw : (k'.site n).ecwNow = ecw) {out : VeOut} (hout : veResult ecw (k'.site n).konst v t a b cc = out) :
    exec (.veFire c n) s = .next (firingEnds c n (emittedIf c n .z (veLatency (ecwOp ecw)) out.z (emittedIf c n .y (veLatency (ecwOp ecw)) out.y
      ((if veUsesC (ecwOp ecw) ∧ veCsel ecw = 0 then consumed c n .c else id) ((if veUsesB (ecwOp ecw) ∧ veBsel ecw = 0 then consumed c n .b else id)
        (consumed c n .a (onVec c n (fun _ => { out.v with until_ := if veFloatOnly (ecwOp ecw) then s.dev.now + 4 else s.dev.now + 1 })
          (roundBegins c n s)))))))) := by
  have hbegun : (s.dev.beginFiring c n).casts.find c = some k' := hk'
  show execVeFire c n s = _
  simp only [execVeFire, Dev.veFire, hk, hready, hbegun, Option.map_some, vec?_of_ve hv, hops, hecw, hout, Bool.not_true, Bool.false_eq_true,
    if_false, mk_sent_endFiring, mk_consumed_ite]
  rfl

/-! ### The stationary register (R269) -/

theorem exec_veDIntake {t : Token} (hcan : k.canIntake n = true) (hhead : (k.site n).head .d = some t) :
    exec (.veDIntake c n) s = .next (consumed c n .d (onVec c n (fun v => { v with srl := t.data, lfull := true }) s)) := by
  show execVeDIntake c n s = _
  simp only [execVeDIntake, Dev.veIntake, hk, hcan, hhead, if_true]
  rfl

theorem exec_veSwap {t : Token} (hcan : k.canSwap s.dev n = true) (hhead : (k.site n).head .a = some t) :
    exec (.veSwap c n) s = .next ((if ecwOut (k.site n).ecwNow .y then emitted c n .y 0 t else id) (clockUsed c n (consumed c n .a
      (onVec c n (fun v => { v with sra := v.srl, srl := v.sra, lfull := false }) s)))) := by
  show execVeSwap c n s = _
  simp only [execVeSwap, Dev.veSwap, hk, hcan, hhead, if_true]
  cases ecwOut (k.site n).ecwNow .y <;> rfl

/-! ### HEADERs (R268) -/

section
variable {p : InPort} (hcan : k.canConsumeAlone s.dev n p = true)
include hcan

theorem exec_veConsumeAlone_quiet (halone : (k.site n).veAlone p = .quiet) :
    exec (.veConsumeAlone c n p) s = .next (clockUsed c n (consumed c n p s)) := by
  show execVeConsumeAlone c n p s = _
  simp only [execVeConsumeAlone, Dev.veConsumeAlone, hk, hcan, halone, if_true]
  rfl

theorem exec_veConsumeAlone_forward {t : Token} (halone : (k.site n).veAlone p = .forward t) (hout : ecwOut (k.site n).ecwNow .y = true) :
    exec (.veConsumeAlone c n p) s = .next (emitted c n .y 0 t (clockUsed c n (consumed c n p s))) := by
  show execVeConsumeAlone c n p s = _
  simp only [execVeConsumeAlone, Dev.veConsumeAlone, hk, hcan, halone, hout, if_true]
  rfl

theorem exec_veConsumeAlone_bad (halone : (k.site n).veAlone p = .bad) : exec (.veConsumeAlone c n p) s = .next
    (emittedAll c n (fun w => errorTok w (errorRec k n (k.site n).ctx 0x13 0)) (clockUsed c n (consumed c n p s))) := by
  show execVeConsumeAlone c n p s = _
  simp only [execVeConsumeAlone, Dev.veConsumeAlone, hk, hcan, halone, if_true]
  rfl

end

/-! ### The flush of ACC (R279, R280) -/

theorem exec_veAccFlush {v : VeSt} (hcan : k.canFlush s.dev n = true) (hv : (k.site n).el = .ve v) {ecw : BitVec 128}
    (hecw : (k.site n).ecwNow = ecw) : exec (.veAccFlush c n) s = .next
      (emittedIf c n .z (veLatency (ecwOp ecw)) (v.result ecw false).z (emittedIf c n .y (veLatency (ecwOp ecw)) (v.result ecw false).y
        (onVec c n (fun _ => { v with acc := [], partial_ := false, accF := 0 }) s))) := by
  show execVeAccFlush c n s = _
  simp only [execVeAccFlush, Dev.veAccFlush, hk, hcan, vec?_of_ve hv, hecw, if_true, emitOpt_eq]
  rfl

end

end Sys2Proof.Laws

namespace Sys2Proof.Proofs

open Sys2Proof.Machine Sys2Proof.Claims Sys2Proof.Laws

/-- Settles O38: an equation for each act of a converter and of a vector element; a HEADER goes by its format and its input (`veAlone_header`). -/
theorem vectorSteps : Obligations.VectorSteps := by
  intro s c n k k' hk hk' x
  refine ⟨fun cx t hcx hready hact => exec_cxFire_pass hk hcx hready hact,
    fun cx r r' hcx hready hact hact' => exec_cxFire_fire hk hk' hcx hready hact hact',
    fun v t a b cc hready hv hops => exec_veFire hk hk' hready hv hops rfl rfl, fun t hcan hhead => exec_veDIntake hk hcan hhead,
    fun t hcan hhead hout => ?swapSent, fun hcan hout => ?swapKept, fun p t hcan hhead hname hin => ?header,
    fun v hcan hv => exec_veAccFlush hk hcan hv rfl⟩
  case swapSent =>
    have hsends : ecwOut x.ecwNow .y = true := hout
    rw [exec_veSwap hk hcan hhead, if_pos hsends]
  case swapKept =>
    have hsends : ¬ ecwOut x.ecwNow .y = true := ne_true_of_eq_false hout
    obtain ⟨t, hhead⟩ := head_of_canSwap hcan
    rw [exec_veSwap hk hcan hhead, if_neg hsends]
    rfl
  case header =>
    have halone := veAlone_header hin hhead hname
    refine ⟨fun hfmt hp => exec_veConsumeAlone_quiet hk hcan ?_, fun hfmt hp hout => exec_veConsumeAlone_forward hk hcan ?_ hout,
      fun hfmt => exec_veConsumeAlone_bad hk hcan ?_⟩
    · rw [halone, if_pos hfmt, if_neg hp]
    · rw [halone, if_pos hfmt, if_pos hp]
    · rw [halone, if_neg hfmt]

end Sys2Proof.Proofs

/-! ## Matrix elements (R286 to R310) -/

namespace Sys2Proof.Laws

open Sys2Proof.Machine Sys2Proof.Claims

/-! ### What a firing leaves (R302, R303) -/

/-- Row `r` of a command's slot as it is in flight from now on (R302). -/
def firedRow (d : Dev) (m : MxSt) (y : MxCmd) (r : Nat) : MxRow :=
  let slot := m.slots.get {} (mxCmdSlot y.word)
  let sums := rowSums slot m.wa r
  { cmd := y.id, bank := mxCmdBank y.word, row := mxCmdArow0 y.word + (r - mxCmdRow0 y.word), ovw := mxCmdOvw y.word
    sums := sums.map Prod.fst, flags := allFlags sums, fired := d.now, outl := rowOutliers slot m.wa d.units r }

/-- A row has fired: the next one may fire `gap` clocks later, or, where no gap is given, two rows fire in each clock; under the fast limiter at
most one row fires in two clocks (R303, R489). -/
def rowPaced (d : Dev) (gap : Option Nat) (m : MxSt) : MxSt :=
  match gap with
  | some gap => { m with rowNext := d.now + (if d.sch.fast then max 2 gap else gap), rowPair := false }
  | none =>
    if d.sch.fast then { m with rowNext := d.now + 2, rowPair := false }
    else if m.rowPair ∧ m.rowNext = d.now then { m with rowNext := d.now + 1, rowPair := false }
    else { m with rowNext := d.now, rowPair := true }

/-! ### Commands at the head of the queue (R297) -/

theorem mayBegin_swap {m : MxSt} {y : MxCmd} {now : Nat} (hlocks : m.locks = []) (hop : mxCmdOp y.word = 4) (hfull : m.full now = true) :
    m.mayBegin now [] y = true := by
  simp only [MxSt.mayBegin, hlocks, hop, hfull, List.any_nil, List.all_nil, Bool.not_false, Bool.and_true]

section
variable {m : MxSt} {y : MxCmd} {rest : List MxCmd} (hcmds : m.cmds = y :: rest)
include hcmds

theorem firstIdle_head (hidle : y.begun = false) : firstIdle [] m.cmds = some ([], y) := by
  rw [hcmds, firstIdle, hidle]
  rfl

theorem find?_firstCmd {p : MxCmd → Bool} (hp : p y = true) : m.cmds.find? p = some y := by rw [hcmds, List.find?_cons_of_pos hp]

/-- No command stands before the first one. -/
theorem rowDone_head (row : Nat) : m.rowDone y row = true := by
  rw [MxSt.rowDone, hcmds, List.takeWhile_cons, if_neg (by simp)]
  rfl

end

/-! ### A beat written into a slot (R288, R289) -/

/-- A beat is a row of a format of one beat without scales; the last row ends the filling of its slot. -/
theorem fillBeat_row {m : MxSt} {i : Nat} {slot : MxSlot} (hslot : m.slots.get {} i = slot) (hone : mxTwoBeats slot.fmt = false)
    (hplain : isMx slot.fmt = false) (t : Token) (now : Nat) : m.fillBeat i t now =
      { m with
        fillQ := if slot.fill + 1 = slot.nrows then m.fillQ.tail else m.fillQ
        slots := m.slots.put i { slot with
          half := none, rows := slot.rows.set 0 slot.fill (t.data.setWidth 2048), scales := slot.scales.set 0 slot.fill 0
          pres := slot.pres ++ [(slot.fill, now + 1)], fill := slot.fill + 1 } } := by
  simp only [MxSt.fillBeat, hslot, hone, hplain, Bool.false_eq_true, false_and, if_false]

section
variable {s : State} {c n : Nat} {k : Cast} {m : MxSt} (hk : s.dev.casts.find c = some k) (hm : (k.site n).el = .mx m)
include hk hm

/-! ### Claims, releases and the instructions at the element (R307 to R310) -/

theorem exec_mxClaimServe_taken {w : Word} {i : Nat} (pid : Nat) (hclaim : m.claimSlot w = some i) :
    ∃ t, exec (.mxClaimServe c pid n w) s = .next t ∧ Replies
      (onMatrix c n (fun m =>
        { withSlot i (fun o => { o with claimed := true, relp := false, fmt := field w 0 4, nrows := field w 4 7 + 1, copy := bitAt w 11
                                        fill := 0, half := none, pres := [] }) m with
          fillQ := if bitAt w 11 then m.fillQ else m.fillQ ++ [i] }) s)
      (8 + k.way 0 n) c pid (BitVec.ofNat 64 i) 0 t := by
  refine ⟨_, ?_, replyWithin_eq s (s.dev.modMat c n _) ..⟩
  show execMxClaimServe c pid n w s = _
  simp only [execMxClaimServe, anyMat_eq hk hm, wayTo_eq hk, Option.bind_some, hclaim]
  rfl

theorem exec_mxClaimServe_refused {w : Word} (pid : Nat) (hclaim : m.claimSlot w = none) :
    ∃ t, exec (.mxClaimServe c pid n w) s = .next t ∧ Replies s (8 + k.way 0 n) c pid (-1) 0 t := by
  refine ⟨_, ?_, replyWithin_eq s s.dev ..⟩
  show execMxClaimServe c pid n w s = _
  simp only [execMxClaimServe, anyMat_eq hk hm, wayTo_eq hk, Option.bind_some, hclaim]

theorem exec_mxSlotFree {i : Nat} (hclaimed : (m.slots.get {} i).claimed = true) (hrelp : (m.slots.get {} i).relp = true)
    (hat : (m.slots.get {} i).relAt ≤ s.dev.now) (hcmds : ∀ y ∈ m.cmds, mxCmdOp y.word ≠ 1 ∨ mxCmdSlot y.word ≠ i ∨ y.due = true) :
    exec (.mxSlotFree c n i) s = .next (onMatrix c n (fun m' =>
      { m' with slots := m'.slots.put i { m.slots.get {} i with claimed := false, relp := false, pres := [] }
                fillQ := m'.fillQ.filter fun j => j != i }) s) := by
  have hdone : (m.cmds.all fun y => mxCmdOp y.word != 1 || mxCmdSlot y.word != i || y.due) = true := by
    simpa only [List.all_eq_true, Bool.or_eq_true, bne_iff_ne, or_assoc] using hcmds
  show execMxSlotFree c n i s = _
  simp only [execMxSlotFree, anyMat_eq hk hm, mxFree, hclaimed, hrelp, hat, hdone, decide_true, Bool.and_self, if_true]
  rfl

theorem exec_mxStatServe_st (pid i : Nat) : ∃ t, exec (.mxStatServe c pid n .st i) s = .next t ∧
    Replies s (8 + k.way 0 n) c pid (m.status s.dev.now) 0 t := by
  refine ⟨_, ?_, replyWithin_eq s s.dev ..⟩
  show execMxStatServe c pid n .st i s = _
  simp only [execMxStatServe, anyMat_eq hk hm, wayTo_eq hk, reduceCtorEq, if_false]

theorem exec_mxStatServe_stc (pid i : Nat) : ∃ t, exec (.mxStatServe c pid n .stc i) s = .next t ∧
    Replies (onMatrix c n (fun m => { m with flags := 0 }) s) (8 + k.way 0 n) c pid (m.status s.dev.now) 0 t := by
  refine ⟨_, ?_, replyWithin_eq s (s.dev.modMat c n _) ..⟩
  show execMxStatServe c pid n .stc i s = _
  simp only [execMxStatServe, anyMat_eq hk hm, wayTo_eq hk, if_true]

omit hm in
/-- A scale that no thread waits for is the pending scale, and nothing else changes (R309). -/
theorem exec_mxScaleWrite (v : BitVec 32) (hopen : k.th.openWait (fun w => w == .mxScale) = none) : exec (.mxScaleWrite c n v) s = .next
    (onMatrix c n (fun m => { m with pscalePrev := m.pscale, pscale := v, pscaleAt := s.dev.now + 1 }) s) := by
  show execMxScaleWrite c n v s = _
  simp only [execMxScaleWrite, Dev.endOpenWait, Dev.modMat, Dev.modSite, find_modCast hk, Cast.modSite, hopen]
  rfl

/-! ### The steps of an element that the resident context uses -/

section
variable (hkind : ecwKind (k.site n).ecwNow = 1) (hused : (k.site n).ecwNow ≠ 0)
include hkind hused

/-- A step that can act acts so. -/
theorem next_onMat {f : Cast → Site → MxSt → Option Dev} {t : State} (hf : f k (k.site n) m = some t.dev) (hmem : s.mem = t.mem := by rfl) :
    (.next { s with dev := s.dev.onMat c n f } : Res) = .next t := by
  rw [onMat_eq hk hm hkind hused, hf, Option.getD_some, hmem]

/-! ### Input A (R288, R289) -/

section
variable {t : Token} {i : Nat} {rest : List Nat} (hin : ecwIn (k.site n).ecwNow .a = true) (hat : m.aAt ≤ s.dev.now)
  (hhead : (k.site n).head .a = some t) (hq : m.fillQ = i :: rest)
include hin hat hhead hq

theorem exec_mxABeat_row (hname : tokName t = .data ∨ tokName t = .last) : exec (.mxABeat c n) s = .next (consumed c n .a
    (onMatrix c n (fun m => { m.fillBeat i t s.dev.now with aAt := s.dev.now + 1 }) s)) := by
  refine next_onMat hk hm hkind hused ?_
  rcases hname with hname | hname <;>
    simp only [mxATake, hin, Nat.not_lt.2 hat, hhead, hname, hq, Bool.not_true, Bool.false_eq_true, or_self, if_false] <;> rfl

theorem exec_mxABeat_badHeader (hname : tokName t = .header) (hfmt : field t.ctl 8 4 ≠ (m.slots.get {} i).fmt) : exec (.mxABeat c n) s = .next
    (mxErrs c n k 0x13 (consumed c n .a (onMatrix c n (fun m => { m with aAt := s.dev.now + 1 }) s))) := by
  refine next_onMat hk hm hkind hused ?_
  simp only [mxATake, hin, Nat.not_lt.2 hat, hhead, hname, hq, hfmt, Bool.not_true, Bool.false_eq_true, or_self, if_false]
  rfl

end

/-! ### Input B (R292, R293) -/

theorem exec_mxBBeat_load {t : Token} (hin : ecwIn (k.site n).ecwNow .b = true) (hat : m.bAt ≤ s.dev.now) (hhead : (k.site n).head .b = some t)
    (hname : tokName t = .data ∨ tokName t = .last) (hempty : m.lfull = false) (hfrom : m.bFrom ≤ s.dev.now) {m' : MxSt}
    (hload : m.loadBeat (k.site n).ecwNow t s.dev.now = m') (hgood : m'.lfull = true → m'.wl.loadError s.dev.units = none) :
    exec (.mxBBeat c n) s = .next (consumed c n .b
      (onMatrix c n (fun m => { m.loadBeat (k.site n).ecwNow t s.dev.now with bAt := s.dev.now + 1 }) s)) := by
  refine next_onMat hk hm hkind hused ?_
  have hbeat : ∀ d' : Dev, (if m'.lfull = true then
      match m'.wl.loadError s.dev.units with
      | some sub => some (d'.mxError c n k sub)
      | none => some d'
    else some d') = some d' := fun d' => by
    split
    · next hfull => rw [hgood hfull]
    · rfl
  rcases hname with hname | hname <;>
    simp only [mxBTake, hin, Nat.not_lt.2 hat, Nat.not_lt.2 hfrom, hhead, hname, hempty, hload, Bool.not_true, Bool.false_eq_true, or_self,
      if_false] <;> exact hbeat _

/-! ### Commands (R295 to R297) -/

section
variable {t : Token} (hat : m.dAt ≤ s.dev.now) (hhead : (k.site n).head .d = some t) (hname : tokName t = .data) (hroom : m.cmds.length < 8)
  (hquiet : mxCmdNote (tokWord t) 0 = false)
include hat hhead hname hroom hquiet

theorem exec_mxCommandTake_refused {sub : Nat} (hword : m.wordError (tokWord t) = some sub) : exec (.mxCommandTake c n) s = .next
    (mxErrs c n k sub (consumed c n .d (onMatrix c n (fun m => { m with dAt := s.dev.now + 1 }) s))) := by
  refine next_onMat hk hm hkind hused ?_
  simp only [mxDTake, Nat.not_lt.2 hat, hhead, hname, Nat.not_le.2 hroom, hquiet, hword, Bool.false_and, Bool.false_eq_true, false_and, or_self,
    if_false]
  rfl

theorem exec_mxCommandTake_taken (hword : m.wordError (tokWord t) = none) : exec (.mxCommandTake c n) s = .next (consumed c n .d
    (onMatrix c n (fun m => { m with cmds := m.cmds ++ [{ id := m.nextCmd, word := tokWord t }], nextCmd := m.nextCmd + 1
                                     nacc := m.nacc + 1, dAt := s.dev.now + 1 }) s)) := by
  refine next_onMat hk hm hkind hused ?_
  simp only [mxDTake, Nat.not_lt.2 hat, hhead, hname, Nat.not_le.2 hroom, hquiet, hword, Bool.false_and, Bool.false_eq_true, false_and, or_self,
    if_false]
  rfl

end

section
variable {y : MxCmd} {rest : List MxCmd} (hcmds : m.cmds = y :: rest)
include hcmds

theorem exec_mxCommandBegin_swap (hidle : y.begun = false) (hlocks : m.locks = []) (hop : mxCmdOp y.word = 4)
    (hfull : m.full s.dev.now = true) : exec (.mxCommandBegin c n) s = .next
      (onMatrix c n (fun m => { m.fallDue y.id with wa := m.wl, wl := m.wa, lfull := false, wvalid := true, bFrom := s.dev.now + 1 })
        (onMatrix c n (withCmd y.id fun z => { z with begun := true, left := mxCmdCnt z.word + 1 }) s)) := by
  refine next_onMat hk hm hkind hused ?_
  simp only [mxBegin, firstIdle_head hcmds hidle, mayBegin_swap hlocks hop hfull, hop, Bool.not_true, Bool.false_eq_true, if_false]
  rfl

/-! ### Row firings (R302, R303) -/

/-- The first command is an MMA with rows left to fire: the row that is present earliest fires. -/
theorem exec_mxRowFire {r : Nat} (hop : mxCmdOp y.word = 1) (hbegun : y.begun = true) (hsounds : y.silent = false)
    (hleft : y.fired.length < mxCmdCnt y.word + 1) (hat : m.rowNext ≤ s.dev.now) (hroom : m.rows.length < 4)
    (hrow : y.nextRow (m.slots.get {} (mxCmdSlot y.word)) s.dev.now = some r) : exec (.mxRowFire c n) s = .next (onMatrix c n (fun m' =>
      rowPaced s.dev (mxInterval (m.slots.get {} (mxCmdSlot y.word)).fmt m'.wa s.dev.units)
        { withCmd y.id (fun z => { z with fired := z.fired ++ [r - mxCmdRow0 y.word] }) m' with rows := m'.rows ++ [firedRow s.dev m y r] }) s) := by
  have hfires : (mxCmdOp y.word == 1 && y.begun && !y.allFired) = true := by
    simp [MxCmd.allFired, hop, hbegun, hsounds, Nat.not_le.2 hleft]
  refine next_onMat hk hm hkind hused ?_
  simp only [mxFireRow, find?_firstCmd (p := fun x => mxCmdOp x.word == 1 && x.begun && !x.allFired) hcmds hfires, Nat.not_lt.2 hat,
    Nat.not_le.2 hroom, hrow, and_false, or_self, if_false]
  rfl

/-! ### READ (R299, R304) -/

theorem exec_mxReadBeat (hop : mxCmdOp y.word = 2) (hbegun : y.begun = true) (hdue : y.due = false) (hat : m.readAt ≤ s.dev.now)
    (herr : (k.site n).errorHead = none) (hout : (k.site n).outq = []) (hroom : k.room s.dev n .y true = true) :
    exec (.mxReadBeat c n) s = .next (emitted c n .y 0
      (wideTok (bit (decide (y.beats + 1 = 4 * (mxCmdCnt y.word + 1)))) 0 (packLanes 32 ((List.range 32).map fun l =>
        m.acc.get 0 (128 * (128 * mxCmdBank y.word + (mxCmdArow0 y.word + y.beats / 4)) + (32 * (y.beats % 4) + l)))) 0)
      (onMatrix c n (fun m =>
        let m' := { withCmd y.id (fun z => { z with beats := z.beats + 1 }) m with readAt := s.dev.now + 1 }
        if y.beats + 1 = 4 * (mxCmdCnt y.word + 1) then m'.fallDue y.id else m') s)) := by
  have hreads : (mxCmdOp y.word == 2 && y.begun && !y.due) = true := by simp [hop, hbegun, hdue]
  refine next_onMat hk hm hkind hused ?_
  simp only [mxReadStep, find?_firstCmd (p := fun x => mxCmdOp x.word == 2 && x.begun && !x.due) hcmds hreads, Nat.not_lt.2 hat, herr, hout, hroom,
    rowDone_head hcmds, Option.isSome_none, List.isEmpty_nil, Bool.not_true, Bool.false_eq_true, or_self, if_false, accIx_eq, beq_iff_eq]
  rfl

/-! ### Completion notes (R298) -/

theorem exec_mxNoteEmit {due : List Nat} (hdue : m.due = y.id :: due) (hnote : mxCmdNote y.word 1 = true) (hsounds : y.silent = false)
    (hz : ecwOut (k.site n).ecwNow .z = true) (hout : (k.site n).outq = []) (hroom : k.room s.dev n .z false = true) :
    exec (.mxNoteEmit c n) s = .next (emitted c n .z 0 (mxNote y.word true) (onMatrix c n (fun m =>
      { m with cmds := m.cmds.filter fun z => z.id != y.id, due := m.due.tail, ndone := m.ndone + 1 }) s)) := by
  refine next_onMat hk hm hkind hused ?_
  simp only [mxNoteStep, mxComplete, hdue, List.head?_cons, Option.bind_some, find?_firstCmd (p := fun x => x.id == y.id) hcmds (beq_self_eq_true _),
    hnote, hz, hsounds, hout, hroom, List.isEmpty_nil, Bool.not_false, Bool.and_self, Bool.not_true, if_true]
  rfl

end

/-! ### Updates of the accumulators (R302, R303) -/

section
variable {r : MxRow} {rest : List MxRow} (hrows : m.rows = r :: rest)
include hrows

theorem exec_mxDenseUpdate (hdense : r.dense = false) (hat : r.fired + 140 ≤ s.dev.now) : exec (.mxDenseUpdate c n) s = .next
    (onMatrix c n (fun m =>
      let m' := { m.dense r with
        rows := modFirstRow (fun r => !r.dense && decide (r.fired + 140 ≤ s.dev.now)) (fun r => { r with dense := true }) m.rows }
      if r.outl = [] then m'.rowWritten r.cmd else m') s) := by
  have hripe : (!r.dense && decide (r.fired + 140 ≤ s.dev.now)) = true := by simp [hdense, hat]
  refine next_onMat hk hm hkind hused ?_
  simp only [mxDenseStep, hrows, List.find?_cons_of_pos (p := fun r : MxRow => !r.dense && decide (r.fired + 140 ≤ s.dev.now)) hripe,
    List.isEmpty_iff]
  rfl

/-- Four outliers of the row at the head are applied, and some are left. -/
theorem exec_mxOutlierApply (hleft : 4 < r.outl.length) (hdense : r.dense = true) (hat : r.fired + 141 ≤ s.dev.now)
    (hfree : m.outAt ≤ s.dev.now) : exec (.mxOutlierApply c n) s = .next (onMatrix c n (fun m =>
      let m' := (r.outl.take 4).foldl (fun m e => m.accAdd (128 * (128 * r.bank + r.row) + e.1) e.2) m
      { m' with outAt := s.dev.now + 1, rows := modFirstRow (fun r => !r.outl.isEmpty) (fun r => { r with outl := r.outl.drop 4 }) m'.rows }) s) := by
  have hsome : (!r.outl.isEmpty) = true := by
    rw [Bool.not_eq_true', List.isEmpty_eq_false_iff]
    exact List.ne_nil_of_length_pos (by omega)
  refine next_onMat hk hm hkind hused ?_
  simp only [mxOutlierStep, hrows, List.find?_cons_of_pos (p := fun r : MxRow => !r.outl.isEmpty) hsome, hdense, Nat.not_lt.2 hat,
    Nat.not_lt.2 hfree, Nat.not_le.2 hleft, Bool.not_true, Bool.false_eq_true, or_self, if_false, accIx_eq]
  rfl

end

/-! ### RECONF (R299) -/

theorem exec_mxReconfAlign {t : Token} (hload : m.loading = false) (hal : (k.site n).aligned = some t) (hname : tokName t = .reconf)
    (hcmds : m.cmds = []) (hrows : m.rows = []) (hout : (k.site n).outq = []) (hroom : k.allRoom s.dev n = true)
    (harg : s.dev.argComing c n = false) : exec (.mxReconfAlign c n) s = .next
      (onSite c n (fun x => { x.applyArgs with ctx := t.ctl.toNat % 16, phase := x.phase + 1 })
        (emittedAll c n (fun w => reconfTok w (t.ctl.toNat % 16)) ((enabledInputs (k.site n).ecwNow).foldl (fun s p => consumed c n p s) s))) := by
  rw [consumedAll_eq, ← context_field]
  refine next_onMat hk hm hkind hused ?_
  simp only [mxAlign, hload, hal, hname, hcmds, hrows, hout, hroom, harg, List.isEmpty_nil, Bool.and_false, Bool.not_true, Bool.false_eq_true,
    and_false, or_self, if_false, reduceCtorEq]
  rfl

/-- RECONF or DRAIN at B in the middle of a load discards the load. -/
theorem exec_mxReconfAlign_discards (hhead : (k.site n).headName .b = some .reconf ∨ (k.site n).headName .b = some .drain)
    (hin : ecwIn (k.site n).ecwNow .b = true) (hload : m.loading = true) : exec (.mxReconfAlign c n) s = .next
      (mxErrs c n k 0x20 (onMatrix c n (fun m => { m with loading := false, wl := {} }) s)) := by
  have hatB : ((k.site n).headName .b == some .reconf || (k.site n).headName .b == some .drain) = true := by
    simpa only [Bool.or_eq_true, beq_iff_eq] using hhead
  refine next_onMat hk hm hkind hused ?_
  simp only [mxAlign, hin, hatB, hload, Bool.and_self, if_true]
  rfl

end

end

end Sys2Proof.Laws

namespace Sys2Proof.Proofs

open Sys2Proof.Machine Sys2Proof.Claims Sys2Proof.Laws

/-- Settles O39: an equation for each token that the element takes and for each command that reaches it; a status word is `MxSt.status`. -/
theorem matrixInputs : Obligations.MatrixInputs := by
  intro s c n k m hk hm x
  refine ⟨fun hkind hused => ⟨fun t i rest hin hat hhead hq => ⟨fun hname => ?row, fun hname hfmt => ?header⟩,
      fun i t now slot hslot hone hplain _ => fillBeat_row hslot hone hplain t now,
      fun t hin hat hhead hname hempty hfrom hgood => ?tile,
      fun t hat hhead hname => ⟨fun sub hword hroom hquiet => ?refused, fun hword hroom hquiet => ?taken⟩,
      fun y rest hcmds hidle hlocks hop hfull => ?swap⟩,
    fun pid w i hclaim => exec_mxClaimServe_taken hk hm pid hclaim, fun pid w hclaim => exec_mxClaimServe_refused hk hm pid hclaim,
    fun i hclaimed hrelp hat hcmds => exec_mxSlotFree hk hm hclaimed hrelp hat hcmds, fun i => rfl,
    fun pid i => ⟨exec_mxStatServe_st hk hm pid i, exec_mxStatServe_stc hk hm pid i⟩, fun v hopen => exec_mxScaleWrite hk v hopen⟩
  case row => exact exec_mxABeat_row hk hm hkind hused hin hat hhead hq hname
  case header => exact exec_mxABeat_badHeader hk hm hkind hused hin hat hhead hq hname hfmt
  case tile => exact exec_mxBBeat_load hk hm hkind hused hin hat hhead hname hempty hfrom rfl hgood
  case refused => exact exec_mxCommandTake_refused hk hm hkind hused hat hhead hname hroom (getLsbD_zero hquiet) hword
  case taken => exact exec_mxCommandTake_taken hk hm hkind hused hat hhead hname hroom (getLsbD_zero hquiet) hword
  case swap => exact exec_mxCommandBegin_swap hk hm hkind hused hcmds hidle hlocks hop hfull

/-- Settles O40: an equation for each step of a command at the head of the queue and of a row at the head of those in flight. -/
theorem matrixRows : Obligations.MatrixRows := by
  intro s c n k m hk hm x hkind hused
  refine ⟨fun y rest r hcmds hop hbegun hsounds hleft hat hroom => ?fires,
    fun r rest hrows hdense hat => exec_mxDenseUpdate hk hm hkind hused hrows hdense hat,
    fun r rest hrows hleft hdense hat hfree => exec_mxOutlierApply hk hm hkind hused hrows hleft hdense hat hfree,
    fun y rest hcmds hop hbegun hdue hat herr hout hroom => exec_mxReadBeat hk hm hkind hused hcmds hop hbegun hdue hat herr hout hroom,
    fun y rest id due hcmds hdue hid hnote hsounds hz hout hroom => ?note,
    fun t hload hal hname hcmds hrows hout hroom harg => exec_mxReconfAlign hk hm hkind hused hload hal hname hcmds hrows hout hroom harg,
    fun hhead hin hload => exec_mxReconfAlign_discards hk hm hkind hused hhead hin hload⟩
  case fires => exact fun hrow => exec_mxRowFire hk hm hkind hused hcmds hop hbegun hsounds hleft hat hroom hrow
  case note =>
    subst hid
    exact exec_mxNoteEmit hk hm hkind hused hcmds hdue hnote hsounds hz hout hroom

end Sys2Proof.Proofs

/-! ## Stream operators (R313, R320, R323 to R329) -/

namespace Sys2Proof.Laws

open Sys2Proof.Machine Sys2Proof.Claims

theorem op?_of_so {x : Site} {o : SoSt} (h : x.el = .so o) : x.op? = some o := by rw [Site.op?, h]

/-! ### Fields of K and of fibre tokens (R312, R316) -/

theorem kRank_eq (k : BitVec 32) (p : InPort) : kRank k p = k.toNat / (if p = .b then 16 else 1) % 16 := by
  cases p <;> simp [kRank, kRankA, kRankB, field]

theorem kOrdered_eq (k : BitVec 32) (p : InPort) : kOrdered k p = k.getLsbD (if p = .b then 9 else 8) := by cases p <;> rfl

/-- The coordinate is the upper half of the word. -/
theorem tokCrd_eq (t : Token) : tokCrd t = (tokWord t).toNat / 2 ^ 32 :=
  Nat.mod_eq_of_lt (by have := (tokWord t).isLt; omega)

theorem fibData_eq {low : Nat} (crd : Nat) (h : low < 2 ^ 32) : fibData crd low = narrow 0 0 (BitVec.ofNat 64 (2 ^ 32 * crd + low)) := by
  rw [fibData, Nat.mod_eq_of_lt h]
  rfl

theorem tokRef_eq (t : Token) : tokRef t = (tokWord t).toNat % 2 ^ 32 := field_low ..

theorem tokLevel_eq (t : Token) : tokLevel t = t.ctl.toNat % 8 := field_low ..

theorem tokRef_lt (t : Token) : tokRef t < 2 ^ 32 := Nat.mod_lt _ (by decide)

/-! ### The grammar of a stream (R313, R323) -/

section
variable {rank : Nat} {ordered : Bool} {i : SoIn} {t : Token}

theorem soGrammar_index (hname : tokName t = .index) : soGrammar rank ordered i t = .error 7 := by rw [soGrammar, hname]

theorem soGrammar_stop_high (hname : tokName t = .stop) (hlevel : rank ≤ tokLevel t) : soGrammar rank ordered i t = .error 2 := by
  simp only [soGrammar, hname, hlevel, if_true]

section
variable (hdone : i.done = false)
include hdone

theorem soGrammar_done_early (hname : tokName t = .done) (htop : i.top = false) : soGrammar rank ordered i t = .error 3 := by
  simp only [soGrammar, hname, hdone, htop, Bool.false_eq_true, if_false]

theorem soGrammar_done (hname : tokName t = .done) (htop : i.top = true) :
    soGrammar rank ordered i t = .ok { i with started := true, checked := true, done := true, top := false } := by
  simp only [soGrammar, hname, hdone, htop, Bool.false_eq_true, if_false, if_true]

theorem soGrammar_stop (hname : tokName t = .stop) (hlevel : tokLevel t < rank) (htop : i.top = false) : soGrammar rank ordered i t =
    .ok { i with started := true, checked := true, prev := none, top := decide (tokLevel t + 1 = rank) } := by
  simp only [soGrammar, hname, Nat.not_le.2 hlevel, hdone, htop, Bool.or_self, Bool.false_eq_true, if_false]
  rfl

theorem soGrammar_data (hname : tokName t = .data) (htop : i.top = false) (hprev : ∀ q, i.prev = some q → ordered = true → q < tokCrd t) :
    soGrammar rank ordered i t =
      .ok { i with started := true, checked := true, prev := some (tokCrd t), top := decide (rank = 0) } := by
  simp only [soGrammar, hname, hdone, htop, Bool.or_self, Bool.false_eq_true, if_false]
  split
  · next q hq =>
    have hgood : ¬ (ordered && decide (tokCrd t ≤ q)) = true := by
      simpa only [Bool.and_eq_true, decide_eq_true_eq, not_and, Nat.not_le] using hprev q hq
    rw [if_neg hgood]
    rfl
  · rfl

theorem soGrammar_data_unordered (hname : tokName t = .data) (htop : i.top = false) {q : Nat} (hq : i.prev = some q) (hord : ordered = true)
    (hle : tokCrd t ≤ q) : soGrammar rank ordered i t = .error 1 := by
  simp only [soGrammar, hname, hdone, htop, hq, hord, hle, decide_true, Bool.and_self, Bool.or_self, Bool.false_eq_true, if_false, if_true]

end

end

/-! ### The check of a head (R316, R322, R323) -/

theorem inStream_of_name {t : Token} {kind : TKind} (h : tokName t = kind)
    (hkind : kind ≠ .reconf ∧ kind ≠ .drain ∧ kind ≠ .error := by decide) : inStream t = true := by
  obtain ⟨hreconf, hdrain, herror⟩ := hkind
  simp only [inStream, movable, h]

/-- Which check is due at the head of a stream. -/
theorem soCheck_inStream {x : Site} {p : InPort} {t : Token} (o : SoSt) (hhead : x.head p = some t) (hin : inStream t = true) :
    x.soCheck o p = if o.skip || o.fault.isSome then .none
      else if (o.inp p).checked || ((t.wide || isHeader t) && o.mid) then .none else .check t := by
  simp only [inStream, movable] at hin
  simp only [Site.soCheck, hhead]
  cases hname : tokName t <;> simp only [hname, Bool.false_eq_true] at hin ⊢

/-- A check that can be made at the head of a stream is one against the grammar. -/
theorem soCheck_of_canCheck {d : Dev} {k : Cast} {n : Nat} {o : SoSt} {p : InPort} {t : Token} (ho : (k.site n).el = .so o)
    (hcan : k.canCheck d n p = true) (hhead : (k.site n).head p = some t) (hin : inStream t = true) : (k.site n).soCheck o p = .check t := by
  have hdue : (k.site n).soCheck o p ≠ .none := by
    intro hnone
    simp only [Cast.canCheck, op?_of_so ho, hnone, Bool.and_false, Bool.false_eq_true] at hcan
  rw [soCheck_inStream o hhead hin] at hdue ⊢
  split at hdue
  · exact absurd rfl hdue
  · next hacting =>
    rw [if_neg hacting]
    split at hdue
    · exact absurd rfl hdue
    · next hunchecked => rw [if_neg hunchecked]

section
variable {s : State} {c n : Nat} {k : Cast} {o : SoSt} {kk : BitVec 32} (hk : s.dev.casts.find c = some k) (ho : (k.site n).el = .so o)
  (hkk : o.k = some kk)
include hk ho hkk

/-- A head of a stream that may be checked is malformed or accepted as the grammar says. -/
theorem exec_soTokenCheck {p : InPort} {t : Token} (hcan : k.canCheck s.dev n p = true) (hhead : (k.site n).head p = some t)
    (hwide : t.wide = false) (hin : inStream t = true) :
    (∀ sub, soGrammar (kRank kk p) (kOrdered kk p) (o.inp p) t = .error sub → exec (.soTokenCheck c n p) s = .next
      (malformed c n sub p t (o.inp p).index (onOp c n (fun o => { o with k := some kk }) s))) ∧
    ∀ i, soGrammar (kRank kk p) (kOrdered kk p) (o.inp p) t = .ok i → exec (.soTokenCheck c n p) s = .next
      (onOp c n (withInput p fun _ => i) (onOp c n (fun o => { o with k := some kk }) s)) := by
  have hcheck : (k.site n).soCheck o p = .check t := soCheck_of_canCheck ho hcan hhead hin
  show (∀ _, _ → execSoTokenCheck c n p s = _) ∧ ∀ _, _ → execSoTokenCheck c n p s = _
  simp only [execSoTokenCheck, Dev.soTokenCheck, hk, hcan, op?_of_so ho, hcheck, hkk, hwide, Option.getD_some, Option.isNone_some,
    Bool.false_and, Bool.not_true, Bool.false_eq_true, if_false, ← modInp_withInput]
  refine ⟨fun sub hbad => ?_, fun i hgood => ?_⟩
  · rw [hbad]
    rfl
  · rw [hgood]
    rfl

/-! ### Steps (R320) -/

omit hk ho hkk in
theorem exec_soStep_of_soAct {u : State} (h : s.soAct c n = some u) : exec (.soStep c n) s = .next u := by
  show Host.Outcome.next ((s.soAct c n).getD s) = _
  rw [h, Option.getD_some]

omit hkk in
/-- An operator that acts on no ERROR token, is not in SKIP and is no SPLAT goes by its process. -/
theorem soAct_process (hopen : (k.site n).soOpen o s.dev.now = true) (hskip : o.skip = false) (herr : (k.site n).errorHead = none)
    (hop : ecwOp (k.site n).ecwNow ≠ 12) : s.soAct c n = s.soProcess c n k o := by
  have halone : (k.site n).soAlone o = none := if_neg fun h => hop h.1
  simp only [State.soAct, hk, op?_of_so ho, hopen, herr, ite_self, hskip, halone, Bool.not_true, Bool.false_eq_true, if_false]

omit hk ho hkk in
theorem roomFor_of_room {d : Dev} {out : OutPort} {t : Option Token} (h : ∀ x ∈ t, k.room d n out x.wide = true) :
    k.roomFor d n out t = true := by
  cases t with
  | none => rfl
  | some x => exact h x rfl

omit hk ho in
/-- A process whose next step reads and writes nothing makes the step when its tokens have room. -/
theorem soProcess_step (hfire : k.mayFire n s.dev.now = true) (herr : (k.site n).errorHead = none) (hskip : (k.site n).skip = false)
    {takes : List InPort} {y z : Option Token} {st : SoSt} (hplan : (k.site n).soPlan o kk = .step takes y z st)
    (hy : k.roomFor s.dev n .y y = true) (hz : k.roomFor s.dev n .z z = true) : s.soProcess c n k o =
      some (firingEnds c n (emittedIf c n .z 0 z (emittedIf c n .y 0 y (taken c n takes
        (onSite c n (fun x => { x with skip := false, el := .so { st with zeros := [], reads := o.reads } }) (roundBegins c n s)))))) := by
  simp only [State.soProcess, hkk, hfire, herr, hskip, hplan, SoPlan.run, State.soWrites, hy, hz, Option.isSome_none, Bool.false_and,
    Bool.and_self, Bool.not_true, Bool.or_self, Bool.false_eq_true, if_false, if_true, mk_sent_endFiring, mk_soTake]
  rfl

end

/-! ### The steps of INTERSECT and UNION on two DATA (R328) -/

section
variable {ecw : BitVec 128} {o : SoSt} {a b : Token} (ha : tokName a = .data) (hb : tokName b = .data)
include ha hb

/-- Both heads are taken where their coordinates are equal, and else the one with the lower coordinate, which UNION sends on. -/
theorem soMerge_data : soMerge ecw o (some a) (some b) =
    if tokCrd a = tokCrd b then .step [.a, .b] (some (fibData (tokCrd a) (tokRef a)))
      (if ecwOut ecw .z = true then some (fibData (tokCrd b) (tokRef b)) else none) o
    else if tokCrd a < tokCrd b then
      if ecwOp ecw = 4 then .step [.a] (some (fibData (tokCrd a) (tokRef a)))
        (if ecwOut ecw .z = true then some (fibData (tokCrd a) refNone) else none) o
      else .step [.a] none none o
    else if ecwOp ecw = 4 then .step [.b] (some (fibData (tokCrd b) refNone))
      (if ecwOut ecw .z = true then some (fibData (tokCrd b) (tokRef b)) else none) o
    else .step [.b] none none o := by
  simp only [soMerge, ha, hb, beq_iff_eq, and_self, if_true]

theorem soMerge_eq (h : tokCrd a = tokCrd b) : soMerge ecw o (some a) (some b) = .step [.a, .b] (some (fibData (tokCrd a) (tokRef a)))
    (if ecwOut ecw .z = true then some (fibData (tokCrd b) (tokRef b)) else none) o := by
  rw [soMerge_data ha hb, if_pos h]

section
variable (hop : ecwOp ecw = 3)
include hop

theorem soMerge_intersect_lt (h : tokCrd a < tokCrd b) : soMerge ecw o (some a) (some b) = .step [.a] none none o := by
  rw [soMerge_data ha hb, if_neg (Nat.ne_of_lt h), if_pos h, if_neg (by omega)]

theorem soMerge_intersect_gt (h : tokCrd b < tokCrd a) : soMerge ecw o (some a) (some b) = .step [.b] none none o := by
  rw [soMerge_data ha hb, if_neg (Nat.ne_of_gt h), if_neg (Nat.lt_asymm h), if_neg (by omega)]

end

section
variable (hop : ecwOp ecw = 4)
include hop

theorem soMerge_union_lt (h : tokCrd a < tokCrd b) : soMerge ecw o (some a) (some b) =
    .step [.a] (some (fibData (tokCrd a) (tokRef a))) (if ecwOut ecw .z = true then some (fibData (tokCrd a) refNone) else none) o := by
  rw [soMerge_data ha hb, if_neg (Nat.ne_of_lt h), if_pos h, if_pos hop]

theorem soMerge_union_gt (h : tokCrd b < tokCrd a) : soMerge ecw o (some a) (some b) =
    .step [.b] (some (fibData (tokCrd b) refNone)) (if ecwOut ecw .z = true then some (fibData (tokCrd b) (tokRef b)) else none) o := by
  rw [soMerge_data ha hb, if_neg (Nat.ne_of_gt h), if_neg (Nat.lt_asymm h), if_pos hop]

end

/-! ### The step of REPEAT on two DATA (R329) -/

theorem soRepeat_data (hpos : o.pos = .start) : soRepeat o (some a) (some b) =
    .step [.b] (some (fibData (tokCrd b) (tokRef a))) none { o with pos := .start } := by
  simp only [soRepeat, hpos, ha, hb, if_true]

end

/-! ### The steps of SCAN on STOP and DONE (R326) -/

theorem soScan_ends (ecw : BitVec 128) {o : SoSt} (a : Token) (hpos : o.pos = .start) :
    (tokName a = .stop → soScan ecw o (some a) = .step [.a] (some (fibStop (tokLevel a + 1))) none { o with pos := .start }) ∧
    (tokName a = .done → soScan ecw o (some a) = .step [.a] (some fibDone) none { o with pos := .start }) := by
  constructor <;> intro hname <;> simp only [soScan, hpos, hname]

/-! ### Which process an operation code names (R318) -/

section
variable {x : Site} (o : SoSt) (k : BitVec 32)

theorem soPlan_op :
    (ecwOp x.ecwNow = 1 → x.soPlan o k = soScan x.ecwNow o (x.soHead o .a)) ∧
    (ecwOp x.ecwNow = 3 ∨ ecwOp x.ecwNow = 4 → x.soPlan o k = soMerge x.ecwNow o (x.soHead o .a) (x.soHead o .b)) ∧
    (ecwOp x.ecwNow = 5 → x.soPlan o k = soRepeat o (x.soHead o .a) (x.soHead o .b)) := by
  refine ⟨fun h => ?_, fun h => ?_, fun h => ?_⟩
  · simp only [Site.soPlan, h]
  · rcases h with h | h <;> simp only [Site.soPlan, h]
  · simp only [Site.soPlan, h]

theorem soPlan_scan (h : ecwOp x.ecwNow = 1) : x.soPlan o k = soScan x.ecwNow o (x.soHead o .a) := (soPlan_op o k).1 h

theorem soPlan_merge (h : ecwOp x.ecwNow = 3 ∨ ecwOp x.ecwNow = 4) : x.soPlan o k = soMerge x.ecwNow o (x.soHead o .a) (x.soHead o .b) :=
  (soPlan_op o k).2.1 h

theorem soPlan_repeat (h : ecwOp x.ecwNow = 5) : x.soPlan o k = soRepeat o (x.soHead o .a) (x.soHead o .b) := (soPlan_op o k).2.2 h

end

end Sys2Proof.Laws

namespace Sys2Proof.Proofs

open Sys2Proof.Machine Sys2Proof.Claims Sys2Proof.Laws

/-- Settles O41: a head is accepted or malformed as the grammar says (`exec_soTokenCheck`); an operator
makes the step that its process plans (`soAct_process`, `soProcess_step`); the plans go by the names and coordinates of the heads. -/
theorem operatorSteps : Obligations.OperatorSteps := by
  intro s c n k o kk hk ho hkk x
  refine ⟨fun p t hcan hhead hwide => ?check, fun takes y z st hopen hskip herr hop hfire hretry hplan hy hz => ?step,
    fun a b ha hb hna hnb => ?twoData, fun a ha hpos hop => ?scan⟩
  case check =>
    intro i rank ordered level crd kept checked
    have hlevel : level = tokLevel t := (tokLevel_eq t).symm
    have hchecked : inStream t = true → _ := exec_soTokenCheck hk ho hkk hcan hhead hwide
    rw [kRank_eq, kOrdered_eq] at hchecked
    have hmalformed {sub : Nat} (hin : inStream t = true) (hbad : soGrammar rank ordered i t = .error sub) := (hchecked hin).1 sub hbad
    have haccepted {j : SoIn} (hin : inStream t = true) (hgood : soGrammar rank ordered i t = .ok j) := (hchecked hin).2 j hgood
    rw [hlevel]
    exact ⟨fun hname => hmalformed (inStream_of_name hname) (soGrammar_index hname),
      fun hname hlevel => hmalformed (inStream_of_name hname) (soGrammar_stop_high hname hlevel),
      fun hname hlevel hdone htop => haccepted (inStream_of_name hname) (soGrammar_stop hdone hname hlevel htop),
      fun hname hdone htop => haccepted (inStream_of_name hname) (soGrammar_done hdone hname htop),
      fun hname hdone htop => hmalformed (inStream_of_name hname) (soGrammar_done_early hdone hname htop),
      fun hname hdone htop hprev => haccepted (inStream_of_name hname) (soGrammar_data hdone hname htop hprev),
      fun q hname hdone htop hq hord hle => hmalformed (inStream_of_name hname) (soGrammar_data_unordered hdone hname htop hq hord hle)⟩
  case step =>
    have hact : s.soAct c n = _ := (soAct_process hk ho hopen hskip herr hop).trans
      (soProcess_step hkk hfire herr hretry hplan (roomFor_of_room hy) (roomFor_of_room hz))
    exact exec_soStep_of_soAct hact
  case twoData =>
    intro ca cb data ra rb z
    have hca : ca = tokCrd a := (tokCrd_eq a).symm
    have hcb : cb = tokCrd b := (tokCrd_eq b).symm
    have hra : ra = tokRef a := (tokRef_eq a).symm
    have hrb : rb = tokRef b := (tokRef_eq b).symm
    have hdata : ∀ crd {low}, low < 2 ^ 32 → data crd low = fibData crd low := fun crd _ hlow => (fibData_eq crd hlow).symm
    have hnone : 2 ^ 32 - 1 < 2 ^ 32 := by decide
    have hmerge : ecwOp x.ecwNow = 3 ∨ ecwOp x.ecwNow = 4 → x.soPlan o kk = soMerge x.ecwNow o (some a) (some b) := fun h => by
      rw [soPlan_merge o kk h, ha, hb]
    rw [hca, hcb, hra, hrb, hdata (tokCrd a) (tokRef_lt a), hdata (tokCrd b) (tokRef_lt b), hdata (tokCrd a) hnone,
      hdata (tokCrd b) hnone, hdata (tokCrd b) (tokRef_lt a)]
    refine ⟨fun hop => ?intersect, fun hop => ?union, fun hop hpos => ?repeats⟩
    case intersect =>
      rw [hmerge (.inl hop)]
      exact ⟨soMerge_eq hna hnb, soMerge_intersect_lt hna hnb hop, soMerge_intersect_gt hna hnb hop⟩
    case union =>
      rw [hmerge (.inr hop)]
      exact ⟨soMerge_eq hna hnb, soMerge_union_lt hna hnb hop, soMerge_union_gt hna hnb hop⟩
    case repeats =>
      rw [soPlan_repeat o kk hop, ha, hb]
      exact soRepeat_data hna hnb hpos
  case scan =>
    rw [soPlan_scan o kk hop, ha, ← tokLevel_eq]
    exact soScan_ends x.ecwNow a hpos

end Sys2Proof.Proofs

/-! ## Commands to the copy engine (R342 to R345, R352, R353) -/

namespace Sys2Proof.Laws

open Sys2Proof.Machine Sys2Proof.Claims

/-! ### Addresses of barriers (R352) -/

section
variable {m : Memory} {d e : Dev} {sh : Shot} {acc : Access}

theorem atBarrier_misaligned (hal : sh.a.toNat % 16 ≠ 0) (f : Dev → Placed → Dev) : d.atBarrier m sh acc f = d.slotTrap sh 0x07 sh.a 0 := by
  rw [Dev.atBarrier, if_pos hal]

variable (hal : sh.a.toNat % 16 = 0)
include hal

theorem atBarrier_translated {q : Placed} (ht : Dev.translate m d sh.k.via sh.k.tenant sh.a acc = (.ok q, e)) (f : Dev → Placed → Dev) :
    d.atBarrier m sh acc f = f e q := by
  rw [Dev.atBarrier, if_neg (not_not_intro hal), ht]

theorem atBarrier_untranslated {x : XFault} (ht : Dev.translate m d sh.k.via sh.k.tenant sh.a acc = (.error x, e)) (f : Dev → Placed → Dev) :
    d.atBarrier m sh acc f = e.slotTrap sh 0x08 sh.a (x.syndrome acc 0 sh.k.tenant) (sub := BitVec.ofNat 8 x.sub) := by
  rw [Dev.atBarrier, if_neg (not_not_intro hal), ht]

end

/-- The instruction addresses a barrier with operand A, and goes on as `f` when the address is translated for the access. -/
def AtBarrier (i : Instr) (acc : Access) (f : Shot → Dev → Placed → Dev) : Prop :=
  usesOf i = ⟨true, true, false⟩ ∧ ∀ s, exec i s = fire i s fun d sh => d.atBarrier s.mem sh acc (f sh)

theorem cpBinit_atBarrier (p : Pred) : AtBarrier (.cpBinit p) .store fun sh d q =>
    d.effectWithin sh (Config.openDelay d.free) fun delay => .issue 0 false delay (.barrierUpdate (sh.barReq q (.init (sh.b.setWidth 16)))) :=
  ⟨rfl, fun _ => rfl⟩

theorem cpBarv_atBarrier (p : Pred) (o : MemOrder) (sc : Scope) : AtBarrier (.cpBarv p o sc) .store fun sh d q =>
    d.effectWithin sh (Config.openDelay d.free) fun delay =>
      .issue 0 (MemOrder.releases o) delay (.barrierUpdate (sh.barReq q (.arrive (sh.b.setWidth 32)))) :=
  ⟨rfl, fun _ => rfl⟩

theorem cpBwait_atBarrier (p : Pred) (o : MemOrder) (sc : Scope) : AtBarrier (.cpBwait p o sc) .load fun sh d q =>
    d.effect sh (.wait (.cpBwait q.pa q.tid (sh.b.setWidth 16) o sc)) :=
  ⟨rfl, fun _ => rfl⟩

namespace AtBarrier

variable {i : Instr} {acc : Access} {f : Shot → Dev → Placed → Dev} {s : State} {sh : Shot} (hi : AtBarrier i acc f)
  (h : Fires (predOf i) ⟨true, true, false⟩ s sh)
include hi h

theorem misaligned (hal : sh.a.toNat % 16 ≠ 0) : exec i s = .next (Traps (seen s) sh 0x07 sh.a 0) := by
  obtain ⟨hu, hexec⟩ := hi
  rw [hexec]
  exact fire_traps h rfl hu (atBarrier_misaligned hal _)

variable (hal : sh.a.toNat % 16 = 0)
include hal

theorem untranslated {x : XFault} {d : Dev} (ht : Faults s sh sh.a acc x d) : exec i s = .next (XlatTraps { s with dev := d } sh sh.a acc x) := by
  obtain ⟨hu, hexec⟩ := hi
  rw [hexec]
  exact fire_translation_trap h rfl hu (atBarrier_untranslated hal ht _)

theorem translated {q : Placed} {d : Dev} (ht : Translates s sh sh.a acc q d) {e : Effect} (hf : f sh d q = d.effect sh e) :
    exec i s = .next (Effects { s with dev := d } sh e) := by
  obtain ⟨hu, hexec⟩ := hi
  rw [hexec]
  exact fire_effect h rfl rfl hu ((atBarrier_translated hal ht _).trans hf)

theorem translated_within {q : Placed} {d : Dev} (ht : Translates s sh sh.a acc q d) {bound : Nat} {make : Nat → Effect}
    (hf : f sh d q = d.effectWithin sh bound make) : ∃ delay, exec i s = .next (Effects (drawn { s with dev := d }) sh (make delay)) := by
  obtain ⟨hu, hexec⟩ := hi
  rw [hexec]
  exact fire_within_site_else (base := { s with dev := d }) h rfl rfl hu ((atBarrier_translated hal ht _).trans hf)

end AtBarrier

/-! ### Channels (R342 to R345) -/

section
variable {p : Pred} {s : State} {sh : Shot} (h : Fires p ⟨true, false, false⟩ s sh)
include h

theorem exec_cpClose (hlow : sh.lowerOpen isCpClose = false) :
    exec (.cpClose p) s = .next (if sh.chanUsable sh.a then Effects (seen s) sh (.cpClose sh.a) else Traps (seen s) sh 0x09 sh.a 0) := by
  have hlow' := ne_true_of_eq_false hlow
  show execCpClose p s = _
  split
  · next huse => exact fire_effect h rfl rfl rfl ((if_neg hlow').trans (if_pos huse))
  · next huse => exact fire_traps h rfl rfl ((if_neg hlow').trans (if_neg huse))

theorem exec_cpRes (act : Resume) :
    exec (.cpRes p act) s = .next (if sh.k.chanOpen sh.a then Effects (seen s) sh (.cpRes sh.a act) else Traps (seen s) sh 0x09 sh.a 0) := by
  show execCpRes p act s = _
  split
  · next hopen => exact fire_effect h rfl rfl rfl (if_pos hopen)
  · next hopen => exact fire_traps h rfl rfl (if_neg hopen)

end

section
variable {p : Pred} {s : State} {sh : Shot} (h : Fires p ⟨true, true, false⟩ s sh)
  (hlow : (sh.lowerOpen fun i => isCpClose i || isCpPush i) = false)
include h hlow

theorem exec_cpPush_unusable (huse : sh.chanUsable sh.a = false) : exec (.cpPush p) s = .next (Traps (seen s) sh 0x09 sh.a 0) := by
  have hnot : (!sh.chanUsable sh.a) = true := by rw [huse, Bool.not_false]
  show execCpPush p s = _
  exact fire_traps h rfl rfl ((if_neg (ne_true_of_eq_false hlow)).trans (if_pos hnot))

/-- A chain is pushed to a channel with room for it when its first record is at a multiple of 64. -/
theorem exec_cpPush (huse : sh.chanUsable sh.a = true) (hroom : (sh.k.chans.get {} (chanIx sh.a)).queue.length + sh.reserved sh.a < 8) :
    exec (.cpPush p) s = .next (if sh.b.toNat % 64 = 0 then Effects (seen s) sh (.cpPush sh.a sh.b) else Traps (seen s) sh 0x07 sh.b 0) := by
  have hnot : ¬ (!sh.chanUsable sh.a) = true := by rw [huse, Bool.not_true]; exact Bool.false_ne_true
  have hpass {x y z w : Dev} : (if sh.lowerOpen fun i => isCpClose i || isCpPush i then x else if !sh.chanUsable sh.a then y
      else if 8 ≤ (sh.k.chans.get {} (chanIx sh.a)).queue.length + sh.reserved sh.a then z else w) = w := by
    rw [if_neg (ne_true_of_eq_false hlow), if_neg hnot, if_neg (Nat.not_le.2 hroom)]
  show execCpPush p s = _
  split
  · next hal => exact fire_effect h rfl rfl rfl (hpass.trans (if_neg (not_not_intro hal)))
  · next hal => exact fire_traps h rfl rfl (hpass.trans (if_pos hal))

end

end Sys2Proof.Laws

namespace Sys2Proof.Proofs

open Sys2Proof.Machine Sys2Proof.Claims Sys2Proof.Laws

/-- Settles O18: a command to a channel fires or traps by the channel's handle, one to a barrier by the address of the barrier (`AtBarrier`). -/
theorem copyCommands : Obligations.CopyCommands := by
  intro p a act o sc s sh q d
  refine ⟨fun h => ⟨?opens, fun hlow huse => ?closes, fun hlow huse => ?closed, fun hopen => ?resumes, fun hopen => ?resumesNone⟩,
    fun h => ⟨fun hlow huse hroom => ⟨fun hal => ?pushes, fun hal => ?pushesOdd⟩, exec_cpPush_unusable h, fun hal => ?misaligned,
      fun hal ht => ⟨?inits, ?arrives⟩, fun hal f d => ⟨fun ht => ?unstored, (cpBwait_atBarrier p o sc).untranslated h hal⟩, fun hal ht => ?waits⟩⟩
  case opens => exact show execCpOpen p a s = _ from fire_effect h rfl rfl rfl rfl
  case closes => rw [exec_cpClose h hlow, if_pos huse]
  case closed => rw [exec_cpClose h hlow, if_neg (ne_true_of_eq_false huse)]
  case resumes => rw [exec_cpRes h, if_pos hopen]
  case resumesNone => rw [exec_cpRes h, if_neg (ne_true_of_eq_false hopen)]
  case pushes => rw [exec_cpPush h hlow huse hroom, if_pos hal]
  case pushesOdd => rw [exec_cpPush h hlow huse hroom, if_neg hal]
  case misaligned =>
    simp only [List.forall_mem_cons]
    exact ⟨(cpBinit_atBarrier p).misaligned h hal, (cpBarv_atBarrier p o sc).misaligned h hal, (cpBwait_atBarrier p o sc).misaligned h hal, by simp⟩
  case inits => exact (cpBinit_atBarrier p).translated_within h hal ht rfl
  case arrives => exact (cpBarv_atBarrier p o sc).translated_within h hal ht rfl
  case unstored =>
    simp only [List.forall_mem_cons]
    exact ⟨(cpBinit_atBarrier p).untranslated h hal ht, (cpBarv_atBarrier p o sc).untranslated h hal ht, by simp⟩
  case waits => exact (cpBwait_atBarrier p o sc).translated h hal ht rfl

end Sys2Proof.Proofs

/-! ## Copy channels (R347, R350, R354, R357, R358) -/

namespace Sys2Proof.Laws

open Sys2Proof.Machine Sys2Proof.Claims

/-! ### Chains and records that begin (R347, R357) -/

/-- The record at an address of a channel's chain, before it is read. -/
def freshRec (x : Chan) (addr : Word) : CopyRec := { id := x.nextRec, addr := addr, staged := x.staged }

section
variable {s : State} {c cix : Nat} {k : Cast} {x : Chan} {addr : Word}

theorem loadRecord_misaligned (hal : addr.toNat % 64 ≠ 0) :
    s.loadRecord c cix k x (freshRec x addr) = (s, freshRec x addr, .error { sub := 2, va := addr }) := by
  have hal' : (freshRec x addr).addr.toNat % 64 ≠ 0 := hal
  rw [State.loadRecord, if_pos hal']
  rfl

variable {u : State} {r : CopyRec}

theorem beginRecord_ended (hload : s.loadRecord c cix k x (freshRec x addr) = (u, r, .ok false)) :
    s.beginRecord c cix k x addr = onChan c cix (fun x => Chan.settle { x with cur := none }) u := by
  rw [freshRec] at hload
  simp only [State.beginRecord, hload]
  rfl

theorem beginRecord_faults {e : CopyErr} (hload : s.loadRecord c cix k x (freshRec x addr) = (u, r, .error e)) :
    s.beginRecord c cix k x addr =
      frozenAt c cix k r e (onChan c cix (fun x => { x with recs := x.recs ++ [r], nextRec := x.nextRec + 1, cur := none }) u) := by
  rw [freshRec] at hload
  simp only [State.beginRecord, hload]
  rfl

/-- A sound record that touches no accumulator rows begins, and its chain goes on behind it. -/
theorem beginRecord_begins (hload : s.loadRecord c cix k x (freshRec x addr) = (u, r, .ok true)) (hop : r.ctl / 2 % 8 < 5) :
    s.beginRecord c cix k x addr = onChan c cix (fun x =>
      { x with recs := x.recs ++ [{ r with begun := true }], nextRec := x.nextRec + 1, cur := if r.next = 0 then none else some r.next }) u := by
  rw [freshRec] at hload
  simp only [State.beginRecord, hload, (lockRows_id _ c cix r hop).1]
  rfl

end

section
variable {s : State} {c cix : Nat} {k : Cast} (hk : s.dev.casts.find c = some k)
include hk

theorem exec_copyChainBegin {head : Word} {last : Nat} {late : Bool} {rest : List (Word × Nat × Bool)}
    (hcan : k.canBeginChain s.dev (k.chans.get {} cix) = true) (hq : (k.chans.get {} cix).queue = (head, last, late) :: rest) :
    exec (.copyChainBegin c cix) s = .next (onChan c cix (fun x => { x with queue := rest, cur := some head, staged := last == 0 }) s) := by
  show execCopyChainBegin c cix s = _
  simp only [execCopyChainBegin, hk, hcan, hq, if_true]
  rfl

theorem exec_copyRecordBegin {addr : Word} (hcan : k.canBeginRecord s.dev (k.chans.get {} cix) = true)
    (hfault : (k.chans.get {} cix).fault = none) (hcur : (k.chans.get {} cix).cur = some addr) :
    exec (.copyRecordBegin c cix) s = .next ((paced c cix s).beginRecord c cix k (k.chans.get {} cix) addr) := by
  show execCopyRecordBegin c cix s = _
  simp only [execCopyRecordBegin, hk, hcan, hfault, hcur, Bool.not_true, Bool.false_eq_true, if_false]
  rfl

end

/-! ### Sectors (R350) -/

theorem sectorOffset_eq (j : Nat) : (BitVec.ofNat 64 (32 * j) : Word) = 32 * BitVec.ofNat 64 j := BitVec.ofNat_mul ..

section
variable {s : State} {c cix : Nat} {k : Cast} {x : Chan} {r : CopyRec}

theorem sectorRead_memory (a : Word) (j : Nat) : s.sectorRead c cix k x r 0 a j = s.copyRead c cix k x (a + 32 * BitVec.ofNat 64 j) 32 := by
  rw [State.sectorRead, if_pos rfl, sectorOffset_eq]

theorem sectorWrite_memory (a : Word) (j : Nat) (data : List Byte) :
    s.sectorWrite c cix k x r 0 a j data = s.copyWrite c cix k x (a + 32 * BitVec.ofNat 64 j) data := by
  rw [State.sectorWrite, if_pos rfl, sectorOffset_eq]

variable (hdst : r.ctl / 2 ^ 6 % 4 = 0)
include hdst

theorem sector_fill (hop : r.ctl / 2 % 8 = 1) (j : Nat) : s.sector c cix k x r j = s.copyWrite c cix k x
    (r.dst + 32 * BitVec.ofNat 64 j) (leBytes 8 r.src.toNat ++ leBytes 8 r.src.toNat ++ leBytes 8 r.src.toNat ++ leBytes 8 r.src.toNat) := by
  have hop' : recOp r = 1 := hop
  have hdst' : recDsp r = 0 := hdst
  simp only [State.sector, hop', hdst', sectorWrite_memory]

theorem sector_copy (hop : r.ctl / 2 % 8 = 0) (hsrc : r.ctl / 2 ^ 4 % 4 = 0) {j : Nat} {u : State} {bs : List Byte}
    (hread : s.copyRead c cix k x (r.src + 32 * BitVec.ofNat 64 j) 32 = (u, .ok bs)) :
    s.sector c cix k x r j = u.copyWrite c cix k x (r.dst + 32 * BitVec.ofNat 64 j) bs := by
  have hop' : recOp r = 0 := hop
  have hsrc' : recSsp r = 0 := hsrc
  have hdst' : recDsp r = 0 := hdst
  simp only [State.sector, hop', hsrc', hdst', sectorRead_memory, hread, sectorWrite_memory]

end

section
variable {s : State} {c cix id : Nat} {k : Cast} {r : CopyRec} (hk : s.dev.casts.find c = some k)
  (hr : (k.chans.get {} cix).recs.find? (fun r => r.id == id) = some r) (hcan : k.canSector s.dev cix (k.chans.get {} cix) r = true)
include hk hr hcan

theorem exec_copySector_done {u : State} (hsector : s.sector c cix k (k.chans.get {} cix) r r.done = (u, .ok ())) :
    exec (.copySector c cix id) s = .next (onCast c (fun k => { k with progress := k.progress || k.th.inGraphWait })
      (onChan c cix (fun x => { x with recs := x.recs.map fun q => if q.id = id then { q with done := q.done + 1 } else q }) (paced c cix u))) := by
  show execCopySector c cix id s = _
  simp only [execCopySector, hk, hr, hcan, hsector, Bool.not_true, Bool.false_eq_true, if_false]
  rfl

theorem exec_copySector_faults {u : State} {e : CopyErr} (hsector : s.sector c cix k (k.chans.get {} cix) r r.done = (u, .error e)) :
    exec (.copySector c cix id) s = .next (frozenAt c cix k r e (paced c cix s)) := by
  show execCopySector c cix id s = _
  simp only [execCopySector, hk, hr, hcan, hsector, Bool.not_true, Bool.false_eq_true, if_false]
  rfl

end

/-! ### Records that complete (R352, R354) -/

/-- CTL of a record that has completed: OWN = 0, and STATUS tells whether it was given up. -/
def completedCtl (r : CopyRec) : Nat := r.ctl - r.ctl % 2 - 65536 * (r.ctl / 65536 % 256) + 65536 * bit r.skip

theorem completedCtl_fields (r : CopyRec) : completedCtl r % 2 = 0 ∧ completedCtl r / 2 ^ 16 % 2 ^ 8 = bit r.skip ∧
    completedCtl r % 2 ^ 16 / 2 = r.ctl % 2 ^ 16 / 2 ∧ completedCtl r / 2 ^ 24 = r.ctl / 2 ^ 24 := by
  have hskip : bit r.skip ≤ 1 := by cases r.skip <;> decide
  simp only [completedCtl]
  omega

section
variable {s : State} {c cix : Nat} {k : Cast} {x : Chan} {r : CopyRec} (hbarred : r.barred = false) (hknown : r.known = true)
  (hbar : r.bar ≠ 0) (hal : r.bar.toNat % 16 = 0) {d : Dev}
include hbarred hknown hbar hal

theorem recordBarrier_due : (r.barred || !r.known || r.bar == 0 || r.bar.toNat % 16 != 0) = false := by
  simpa [hbarred, hknown, hal] using hbar

/-- The barrier of a record without a tile is told of the record's sectors, once. -/
theorem recordBarrier_sent (htile : r.tile = none) {q : Placed}
    (ht : Dev.translate s.mem s.dev (k.chanVia x) k.tenant r.bar .store = (.ok q, d)) : s.recordBarrier c cix k x r =
      (onChan c cix (fun x => { x with recs := x.recs.map fun q => if q.id = r.id then { q with barred := true } else q })
        (sometime (.barrierUpdate { agent := .chan c cix, requester := k.chanRequester x, tenant := k.tenant, pa := q.pa, rpl := q.rpl,
                                    upd := .complete r.sectors false false r.skip }) { s with dev := d }), .ok ()) := by
  simp only [State.recordBarrier, recordBarrier_due hbarred hknown hbar hal, Bool.false_eq_true, if_false, ht, htile]
  rfl

theorem recordBarrier_untranslated {f : XFault} (ht : Dev.translate s.mem s.dev (k.chanVia x) k.tenant r.bar .store = (.error f, d)) :
    s.recordBarrier c cix k x r = ({ s with dev := d }, .error { sub := 1, va := r.bar, synd := f.syndrome .store 2 k.tenant }) := by
  simp only [State.recordBarrier, recordBarrier_due hbarred hknown hbar hal, Bool.false_eq_true, if_false, ht]

end

section
variable {s : State} {c cix id : Nat} {k : Cast} {r : CopyRec} (hk : s.dev.casts.find c = some k)
  (hr : (k.chans.get {} cix).recs.find? (fun r => r.id == id) = some r) (hcan : Cast.canComplete s.dev c cix (k.chans.get {} cix) r = true)
include hk hr hcan

theorem exec_copyRecordComplete_unbarred {u : State} {e : CopyErr} (hbar : s.recordBarrier c cix k (k.chans.get {} cix) r = (u, .error e)) :
    exec (.copyRecordComplete c cix id) s = .next (frozenAt c cix k r e (paced c cix u)) := by
  show execCopyRecordComplete c cix id s = _
  simp only [execCopyRecordComplete, hk, hr, hcan, hbar, Bool.not_true, Bool.false_eq_true, if_false]
  rfl

variable (hknown : r.known = true) {u w : State} (hbar : s.recordBarrier c cix k (k.chans.get {} cix) r = (u, .ok ()))
include hknown hbar

theorem exec_copyRecordComplete_unwritten {e : CopyErr}
    (hwrite : u.copyWrite c cix k (k.chans.get {} cix) r.addr (leBytes 8 (completedCtl r)) = (w, .error e)) :
    exec (.copyRecordComplete c cix id) s = .next (frozenAt c cix k r e (paced c cix w)) := by
  rw [completedCtl] at hwrite
  show execCopyRecordComplete c cix id s = _
  simp only [execCopyRecordComplete, hk, hr, hcan, hbar, State.recordStatus, hknown, hwrite, Bool.not_true, Bool.false_eq_true, if_false, if_true]
  rfl

theorem exec_copyRecordComplete_done (hop : r.ctl / 2 % 8 < 5)
    (hwrite : u.copyWrite c cix k (k.chans.get {} cix) r.addr (leBytes 8 (completedCtl r)) = (w, .ok ())) :
    exec (.copyRecordComplete c cix id) s = .next
      (onChan c cix (fun x => Chan.settle { x with recs := x.recs.filter fun q => q.id != id }) (paced c cix w)) := by
  rw [completedCtl] at hwrite
  show execCopyRecordComplete c cix id s = _
  simp only [execCopyRecordComplete, hk, hr, hcan, hbar, State.recordStatus, hknown, hwrite, (lockRows_id _ c cix r hop).2, Bool.not_true,
    Bool.false_eq_true, if_false, if_true]
  rfl

end

end Sys2Proof.Laws

namespace Sys2Proof.Proofs

open Sys2Proof.Machine Sys2Proof.Claims Sys2Proof.Laws

/-- Settles O42: a chain begins, a record by what its reading gives, a sector by its operation; a record completes by its barrier and by
the write of its CTL (`completedCtl_fields`). -/
theorem copySteps : Obligations.CopySteps := by
  intro s c cix k hk x
  refine ⟨fun head last late rest hcan hq => exec_copyChainBegin hk hcan hq, fun addr hcan hfault hcur => ?begins, fun id r hr =>
    ⟨fun hcan => ⟨fun u => exec_copySector_done hk hr hcan, fun u e => exec_copySector_faults hk hr hcan⟩,
      fun j hop hdst => sector_fill hdst hop j, fun j u bs hop hsrc hdst hread => sector_copy hdst hop hsrc hread,
      fun hcan hknown hop => ?completes,
      fun hbarred hknown hbar hal htile q d => recordBarrier_sent hbarred hknown hbar hal htile,
      fun f d hbarred hknown hbar hal => recordBarrier_untranslated hbarred hknown hbar hal⟩⟩
  case begins =>
    intro fresh
    rw [exec_copyRecordBegin hk hcan hfault hcur]
    exact ⟨fun hal => congrArg _ (beginRecord_faults (loadRecord_misaligned hal)), fun u r hload => congrArg _ (beginRecord_ended hload),
      fun u r e hload => congrArg _ (beginRecord_faults hload), fun u r hload hop => congrArg _ (beginRecord_begins hload hop)⟩
  case completes =>
    obtain ⟨hown, hstatus, hlow, hhigh⟩ := completedCtl_fields r
    exact ⟨completedCtl r, hown, hstatus, hlow, hhigh, fun u e => exec_copyRecordComplete_unbarred hk hr hcan,
      fun u w e hbar => exec_copyRecordComplete_unwritten hk hr hcan hknown hbar, fun u w hbar => exec_copyRecordComplete_done hk hr hcan hknown hbar hop⟩

end Sys2Proof.Proofs

/-! ## Synchronisation engines (R352, R363 to R376) -/

namespace Sys2Proof.Laws

open Sys2Proof.Machine Sys2Proof.Claims

/-! ### Atomics (R62, R363, R364) -/

section
variable {m : Memory} {d : Dev} {tenant pa : Nat} (n : Nat)

theorem atomRead_admitted (hregion : paRegion (d.ownPa pa) = 0) (hadmits : d.admits tenant (d.ownPa pa) = true) :
    Dev.atomRead m d tenant pa n = (true, (Dev.read m d tenant (d.ownPa pa) n).1, d) := by
  simp only [Dev.atomRead, hregion, hadmits, if_true]

theorem atomRead_denied (hregion : paRegion (d.ownPa pa) = 0) (hadmits : d.admits tenant (d.ownPa pa) = false) :
    Dev.atomRead m d tenant pa n = (false, List.replicate n 0, d.postTenant tenant (d.ownPa pa) true) := by
  simp only [Dev.atomRead, hregion, hadmits, if_true, Bool.false_eq_true, if_false]

theorem atomRead_linked (hregion : paRegion (d.ownPa pa) ≠ 0) (hlink : d.linkUp (d.ownPa pa) = true) :
    Dev.atomRead m d tenant pa n = (true, m.read (d.ownPa pa) n, d) := by
  simp only [Dev.atomRead, if_neg hregion, hlink, if_true]

end

theorem leNat_zeros (n : Nat) : leNat (List.replicate n 0) = 0 := by
  induction n with
  | zero => rfl
  | succ n ih => rw [List.replicate_succ, leNat, ih]; rfl

section
variable {s : State} {r : AtomReq} {bs : List Byte} {d : Dev} {new v1 : Nat}

theorem rmw_stores (hread : Dev.atomRead s.mem s.dev r.tenant r.pa (width r.size) = (true, bs, d))
    (hres : atomResult r.kind (8 * width r.size) (leNat bs) = (some new, v1)) :
    s.rmw r = (engineWritesFor r.agent r.id r.tenant r.pa r.rpl (leBytes (width r.size) new) { s with dev := d }, leNat bs, v1) := by
  rw [width_bytes] at hread hres
  simp only [State.rmw, hread, hres, if_true, width_bytes]
  rfl

theorem rmw_leaves {ok : Bool} (hread : Dev.atomRead s.mem s.dev r.tenant r.pa (width r.size) = (ok, bs, d))
    (hres : atomResult r.kind (8 * width r.size) (leNat bs) = (none, v1)) : s.rmw r = ({ s with dev := d }, leNat bs, v1) := by
  rw [width_bytes] at hread hres
  simp only [State.rmw, hread, hres]

theorem rmw_denied {write : Option Nat} (hread : Dev.atomRead s.mem s.dev r.tenant r.pa (width r.size) = (false, bs, d))
    (hres : atomResult r.kind (8 * width r.size) (leNat bs) = (write, v1)) : s.rmw r = ({ s with dev := d }, leNat bs, v1) := by
  rw [width_bytes] at hread hres
  cases write <;> simp only [State.rmw, hread, hres, Bool.false_eq_true, if_false]

end

theorem atomResult_cas_holds {e v : Word} {w old : Nat} (h : old = e.toNat % 2 ^ w) : atomResult (.cas e v) w old = (some (v.toNat % 2 ^ w), 1) :=
  if_pos h

theorem atomResult_cas_fails {e v : Word} {w old : Nat} (h : old ≠ e.toNat % 2 ^ w) : atomResult (.cas e v) w old = (none, 0) := if_neg h

section
variable {s u : State} {r : AtomReq} {old v1 : Nat} (hrmw : s.rmw r = (u, old, v1))
include hrmw

theorem exec_seAtomic_silent (hreply : r.reply = .none) : exec (.seAtomic r) s = .next (settledFor r.agent r.id u) := by
  show execSeAtomic r s = _
  simp only [execSeAtomic, hrmw, hreply]
  rfl

theorem exec_seAtomic_pending {c pid : Nat} (hreply : r.reply = .pending c pid) : exec (.seAtomic r) s = .next
    (sometime (.classDReply c pid (BitVec.ofNat 64 old) (BitVec.ofNat 64 v1)) (settledFor r.agent r.id u)) := by
  show execSeAtomic r s = _
  simp only [execSeAtomic, hrmw, hreply]
  rfl

theorem exec_seAtomic_outside {tag : Nat} (hreply : r.reply = .outside tag) : exec (.seAtomic r) s = .next
    (replied (.data tag (leBytes (width r.size) old)) (settledFor r.agent r.id u)) := by
  rw [width_bytes]
  show execSeAtomic r s = _
  simp only [execSeAtomic, hrmw, hreply]
  rfl

end

/-! ### Counters (R366, R367, R369, R375) -/

theorem counted_eq (r : CntReq) (s : State) : counted r s = { s with dev := s.dev.settleCnt r } := by
  unfold counted Dev.settleCnt
  split
  · split <;> rfl
  · rfl

section
variable {s : State} {r : CntReq} {n : BitVec 32}

theorem exec_seCntInit_published {e : CntEnt} (he : (s.dev.seAt (s.dev.seDie r.pa)).cntOf r = some e) :
    exec (.seCntInit r n) s = .next (underflows r 3 0 (counted r s)) := by
  show execSeCntInit r n s = _
  simp only [execSeCntInit, State.cntInit, he, counted_eq]
  rfl

section
variable (hnone : (s.dev.seAt (s.dev.seDie r.pa)).cntOf r = none)
include hnone

theorem exec_seCntInit_held (hplace : s.dev.placeFor (s.dev.seDie r.pa) r.tenant .cnt = none) :
    exec (.seCntInit r n) s = .next (heldBack (s.dev.seDie r.pa) r.tenant (.seCntInit r n) s) := by
  show execSeCntInit r n s = _
  simp only [execSeCntInit, State.cntInit, hnone, hplace, BitVec.ofNat_toNat, BitVec.setWidth_eq]
  rfl

/-- A counter is put in with what its early arrivals leave of its value, and is released if that is nothing. -/
theorem exec_seCntInit_placed {ovf : Bool} (hplace : s.dev.placeFor (s.dev.seDie r.pa) r.tenant .cnt = some ovf) {p : Nat}
    (hpre : (((s.dev.seAt (s.dev.seDie r.pa)).preOf r).map CntEnt.value).getD 0 = p) (hp : p ≤ n.toNat) :
    exec (.seCntInit r n) s = .next (released (s.dev.seDie r.pa) (n.toNat - p) r
      (engineWrites r.tenant r.pa none (leBytes 8 (n.toNat - p + 2 ^ 32)) (onEngine (s.dev.seDie r.pa) (fun x =>
        { x with cnts := withCnt { tenant := r.tenant, pa := r.pa, value := n.toNat - p, ovf := ovf } x.cnts, pres := withoutCnt r x.pres })
          (counted r s)))) := by
  show execSeCntInit r n s = _
  simp only [execSeCntInit, State.cntInit, hnone, hplace, hpre, if_neg (Nat.not_lt.2 hp), counted_eq]
  rfl

end

theorem exec_seCntDec_zero : exec (.seCntDec r 0) s = .next (counted r s) := by
  rw [counted_eq]
  rfl

section
variable (hn : n.toNat ≠ 0)
include hn

theorem exec_seCntDec_underflows {e : CntEnt} (he : (s.dev.seAt (s.dev.seDie r.pa)).cntOf r = some e) (hzero : e.value = 0) :
    exec (.seCntDec r n) s = .next (underflows r 1 n.toNat (counted r s)) := by
  show execSeCntDec r n s = _
  simp only [execSeCntDec, State.cntDec, if_neg hn, he, hzero, if_true, counted_eq]
  rfl

/-- A counter is decremented, and is released at 0; what is too much of the decrement is reported. -/
theorem exec_seCntDec_published {e : CntEnt} (he : (s.dev.seAt (s.dev.seDie r.pa)).cntOf r = some e) (hpos : 0 < e.value) :
    exec (.seCntDec r n) s = .next (released (s.dev.seDie r.pa) (e.value - n.toNat) r
      (engineWrites r.tenant r.pa none (leBytes 8 (e.value - n.toNat + 2 ^ 32)) (onEngine (s.dev.seDie r.pa)
        (fun x => { x with cnts := withCnt { e with value := e.value - n.toNat } x.cnts })
          (if e.value < n.toNat then underflows r 1 (n.toNat - e.value) (counted r s) else counted r s)))) := by
  show execSeCntDec r n s = _
  simp only [execSeCntDec, State.cntDec, if_neg hn, he, if_neg (Nat.ne_of_gt hpos), counted_eq]
  by_cases hover : e.value < n.toNat <;> simp only [hover, if_true, if_false] <;> rfl

variable (hnone : (s.dev.seAt (s.dev.seDie r.pa)).cntOf r = none)
include hnone

theorem exec_seCntDec_early {e : CntEnt} (he : (s.dev.seAt (s.dev.seDie r.pa)).preOf r = some e) :
    exec (.seCntDec r n) s = .next (onEngine (s.dev.seDie r.pa) (fun x =>
      { x with pres := withCnt { e with value := min (2 ^ 32 - 1) (e.value + n.toNat) } x.pres }) (counted r s)) := by
  show execSeCntDec r n s = _
  simp only [execSeCntDec, State.cntDec, if_neg hn, hnone, he, counted_eq]
  rfl

theorem exec_seCntDec_first (hpre : (s.dev.seAt (s.dev.seDie r.pa)).preOf r = none) {ovf : Bool}
    (hplace : s.dev.placeFor (s.dev.seDie r.pa) r.tenant .pre = some ovf) :
    exec (.seCntDec r n) s = .next (onEngine (s.dev.seDie r.pa) (fun x =>
      { x with pres := withCnt { tenant := r.tenant, pa := r.pa, value := n.toNat, ovf := ovf } x.pres }) (counted r s)) := by
  show execSeCntDec r n s = _
  simp only [execSeCntDec, State.cntDec, if_neg hn, hnone, hpre, hplace, counted_eq]
  rfl

end

theorem exec_seCntFree {e : CntEnt} (he : (s.dev.seAt (s.dev.seDie r.pa)).cntOf r = some e) :
    exec (.seCntFree r) s = .next (engineWrites r.tenant r.pa none (leBytes 8 0) (waitsEnd (s.dev.seDie r.pa) (fun w => w.onCnt r)
      (onEngine (s.dev.seDie r.pa) (fun x => { x with cnts := withoutCnt r x.cnts, pres := withoutCnt r x.pres }) (counted r s)))) := by
  show execSeCntFree r s = _
  simp only [execSeCntFree, he, counted_eq]
  rfl

end

/-! ### Transaction barriers (R352) -/

/-- A wait for the phase of the barrier at an address, which is over with the barrier as it now stands (R353). -/
def phaseOver (at_ : Nat) (b : Barrier) (w : WaitEnt) : Bool :=
  match w.wait with
  | .cpBwait pa _ phase _ _ => pa == at_ && decide (b.phase ≠ phase.toNat)
  | _ => false

theorem exec_barrierUpdate {s : State} {r : BarReq} {bs : List Byte} (hread : Dev.atomRead s.mem s.dev r.tenant r.pa 16 = (true, bs, s.dev))
    {b : Barrier} (hb : ((Barrier.ofBytes bs).update r.upd).settle = b) : exec (.barrierUpdate r) s = .next (waitsEnd (s.dev.seDie r.pa)
      (phaseOver r.pa b) (settledFor r.agent r.id (engineWritesFor r.agent r.id r.tenant r.pa r.rpl b.toBytes s))) := by
  subst hb
  show execBarrierUpdate r s = _
  simp only [execBarrierUpdate, hread, if_true]
  rfl

theorem wrap32_eq {n : Int} (hlow : 0 ≤ n) (hhigh : n < 2 ^ 31) : wrap32 n = n := by
  have hcode : codeOf 32 n = n.toNat := by simp only [codeOf]; omega
  have hsmall : n.toNat < 2 ^ (32 - 1) := by omega
  rw [wrap32, hcode, signedOf, if_pos hsmall, Int.toNat_of_nonneg hlow]

/-- The next phase of a barrier (R352). -/
def nextPhase (b : Barrier) : Barrier := { b with pend := 0, arrive := b.arrcfg, phase := (b.phase + 1) % 2 ^ 16 }

theorem barrier_settle {b : Barrier} (hpend : 0 ≤ b.pend) : b.settle = if b.arrive = 0 ∧ b.pend = 0 then nextPhase b else b := by
  split
  · next h => exact barrier_settle_next h.1 h.2
  · next h => exact barrier_settle_same fun h' => h ⟨h'.1, Int.le_antisymm h'.2 hpend⟩

theorem barrier_init (b : Barrier) (n : BitVec 16) :
    (b.update (.init n)).settle = { pend := 0, arrive := max 1 n.toNat, arrcfg := max 1 n.toNat, phase := 0, flags := 0 } := by
  have hone : ¬ (max 1 n.toNat = 0 ∧ (0 : Int) ≤ 0) := by omega
  exact barrier_settle_same hone

theorem barrier_arrive {b : Barrier} {n : BitVec 32} (hlow : 0 ≤ b.pend + n.toNat) (hhigh : b.pend + n.toNat < 2 ^ 31) (harrive : 0 < b.arrive) :
    (b.update (.arrive n)).settle = if b.arrive = 1 ∧ b.pend + n.toNat = 0 then nextPhase b
      else { b with pend := b.pend + n.toNat, arrive := b.arrive - 1 } := by
  have hupdate : b.update (.arrive n) = { b with pend := b.pend + n.toNat, arrive := b.arrive - 1 } := by
    simp only [Barrier.update, wrap32_eq hlow hhigh, if_neg (Nat.ne_of_gt harrive)]
  have hlast : b.arrive - 1 = 0 ↔ b.arrive = 1 := by omega
  rw [hupdate, barrier_settle hlow]
  simp only [hlast, nextPhase]

theorem barrier_complete {b : Barrier} {n : Nat} (hhigh : b.pend < 2 ^ 31) (hn : (n : Int) ≤ b.pend) :
    (b.update (.complete n false false false)).settle = if b.arrive = 0 ∧ b.pend = n then nextPhase b else { b with pend := b.pend - n } := by
  have hlow : 0 ≤ b.pend - n := by omega
  have hupdate : b.update (.complete n false false false) = { b with pend := b.pend - n } := by
    have hflags : Nat.lor b.flags (bit false + 2 * bit false + 4 * bit false) = b.flags := Nat.or_zero _
    simp only [Barrier.update, wrap32_eq hlow (by omega), hflags]
  have hlast : b.pend - n = 0 ↔ b.pend = n := by omega
  rw [hupdate, barrier_settle hlow]
  simp only [hlast, nextPhase]

/-! ### Waits (R353, R367, R371, R372) -/

section
variable {s : State} {r : Sender} {k : Cast} {w : WaitSt} (hk : (s.dev.casts.find r.cast).or (s.dev.away.find r.cast) = some k)
  (hw : k.th.waitOf r.id = some w)
include hk hw

section
variable {va : Word} {pa : Nat} {o : MemOrder} {sc : Scope} (hwait : w.wait = .cntWait va pa o sc)
include hwait

theorem exec_seWaitRegister_cntZero
    (hzero : ((s.dev.seAt (s.dev.seDie pa)).cnts.any fun x => x.pa == pa && x.tenant == k.tenant && x.value == 0) = true) :
    exec (.seWaitRegister r) s = .next (waitEnds r.cast w.id s) := by
  show execSeWaitRegister r s = _
  simp only [execSeWaitRegister, State.register, Dev.anyCast, hk, hw, hwait, hzero, if_true]
  rfl

variable (hopen : ((s.dev.seAt (s.dev.seDie pa)).cnts.any fun x => x.pa == pa && x.tenant == k.tenant && x.value == 0) = false)
include hopen

theorem exec_seWaitRegister_cntPlaced {ovf : Bool} (hplace : s.dev.placeFor (s.dev.seDie pa) k.tenant .wait = some ovf) :
    exec (.seWaitRegister r) s = .next (onEngine (s.dev.seDie pa) (fun x =>
      { x with waits := x.waits ++ [{ cast := r.cast, id := w.id, tenant := k.tenant, wait := w.wait, left := [], ovf := ovf }] }) s) := by
  show execSeWaitRegister r s = _
  simp only [execSeWaitRegister, State.register, Dev.anyCast, hk, hw, hwait, hopen, Bool.false_eq_true, if_false, Dev.enterWait, hplace]
  rfl

theorem exec_seWaitRegister_cntHeld (hplace : s.dev.placeFor (s.dev.seDie pa) k.tenant .wait = none) :
    exec (.seWaitRegister r) s = .next (heldBack (s.dev.seDie pa) k.tenant (.seWaitRegister r) s) := by
  show execSeWaitRegister r s = _
  simp only [execSeWaitRegister, State.register, Dev.anyCast, hk, hw, hwait, hopen, Bool.false_eq_true, if_false, Dev.enterWait, hplace]
  rfl

end

section
variable {pa tenant : Nat} {phase : BitVec 16} {o : MemOrder} {sc : Scope} {bs : List Byte} {d : Dev}
  (hwait : w.wait = .cpBwait pa tenant phase o sc) (hread : Dev.read s.mem s.dev tenant pa 16 = (bs, d))
include hwait hread

theorem exec_seWaitRegister_phaseOver (hphase : (Barrier.ofBytes bs).phase ≠ phase.toNat) :
    exec (.seWaitRegister r) s = .next (waitEnds r.cast w.id { s with dev := d }) := by
  show execSeWaitRegister r s = _
  simp only [execSeWaitRegister, State.register, Dev.anyCast, hk, hw, hwait, hread, if_pos hphase]
  rfl

theorem exec_seWaitRegister_phaseOpen (hphase : (Barrier.ofBytes bs).phase = phase.toNat) :
    exec (.seWaitRegister r) s = .next (onEngine (s.dev.seDie pa) (fun x =>
      { x with waits := x.waits ++ [{ cast := r.cast, id := w.id, tenant := k.tenant, wait := w.wait }] }) { s with dev := d }) := by
  show execSeWaitRegister r s = _
  simp only [execSeWaitRegister, State.register, Dev.anyCast, hk, hw, hwait, hread, if_neg (not_not_intro hphase)]
  rfl

end

end

/-! ### Hold queues and purges (R368, R372, R375, R376) -/

/-- The first request of a hold queue that can proceed is executed, and is in the queue no more. -/
theorem exec_seHoldRelease {s : State} {die entry : Nat} {act : Instr} {rest : List Instr}
    (hq : (s.dev.se.get {} die).hold.get [] entry = act :: rest) (hcan : s.dev.canRelease die entry = true)
    (hact : (∃ r n, act = .seCntInit r n ∨ act = .seCntDec r n) ∨ (∃ r h, act = .seGrpBarArrive r h) ∨ (∃ r, act = .seWaitRegister r)) :
    ∃ t, exec (.seHoldRelease die entry) s = .next t ∧ exec act (onEngine die (fun x => { x with hold := x.hold.set [] entry rest }) s) = .next t := by
  have hexec : exec (.seHoldRelease die entry) s = execSeHoldRelease die entry s := rfl
  simp only [hexec, execSeHoldRelease, hcan, Dev.seAt, hq, Bool.not_true, Bool.false_eq_true, if_false]
  obtain ⟨r, n, rfl | rfl⟩ | ⟨r, h, rfl⟩ | ⟨r, rfl⟩ := hact <;> exact ⟨_, rfl, rfl⟩

theorem passedOver_eq (m : Memory) (d : Dev) (act : Instr) : passedOver act (State.mk m d) = State.mk m (d.discardHeld act) := by
  unfold passedOver
  split
  · exact counted_eq _ _
  · exact counted_eq _ _
  · rfl
  · rfl
  · unfold Dev.discardHeld
    split <;> simp_all

/-- The state after a tenant's groups at an engine are dissolved. -/
def groupsDissolved (die tid : Nat) (s : State) : State :=
  ((s.dev.se.get {} die).grps.filter fun g => g.2.used && g.2.tid == tid).foldl
    (fun s g => dissolved (BitVec.ofNat 64 (g.1 + 2 ^ 12 * (die % 8) + 2 ^ 16 * g.2.gen)) s) s

/-- The state after the requests that an engine holds for a tenant are given up. -/
def heldPassedOver (die tid : Nat) (s : State) : State :=
  ((s.dev.se.get {} die).hold.get [] ((s.dev.tteOf die tid).getD 64)).foldl (fun s act => passedOver act s) s

theorem groupsDissolved_eq (die tid : Nat) (s : State) : groupsDissolved die tid s = State.mk s.mem
    (((s.dev.seAt die).grps.filter fun g => g.2.used && g.2.tid == tid).foldl (fun d g => d.freeGroup (grpHandle g.1 die g.2.gen)) s.dev) :=
  List.foldl_hom (State.mk s.mem) fun _ _ => rfl

theorem heldPassedOver_eq (die tid : Nat) (s : State) : heldPassedOver die tid s =
    { s with dev := ((s.dev.seAt die).hold.get [] (s.dev.quotaIx die tid)).foldl Dev.discardHeld s.dev } :=
  List.foldl_hom (State.mk s.mem) (passedOver_eq s.mem)

/-- A purge frees the tenant's groups and counters, and ends its waits and held requests. -/
theorem exec_sepurgeComplete {s : State} {die tid : Nat} (hpurging : (s.dev.se.get {} die).purging = true)
    (hdue : (s.dev.se.get {} die).purgeDue ≤ s.dev.now) (htid : tid = (s.dev.se.get {} die).purgeTid.toNat) :
    let dropped := heldPassedOver die tid (waitsEnd die (fun w => w.tenant == tid) (groupsDissolved die tid s))
    exec (.sepurgeComplete die) s = .next (onEngine die (fun x =>
      { x with cnts := x.cnts.filter (fun e => e.tenant != tid), pres := x.pres.filter (fun e => e.tenant != tid),
               hold := x.hold.set [] ((dropped.dev.tteOf die tid).getD 64) [], purging := false }) dropped) := by
  intro dropped
  have hdone : s.dev.purgeDone die = true := by rw [Dev.purgeDone, Dev.seAt, hpurging, decide_eq_true hdue, Bool.and_self]
  subst htid
  simp only [dropped, heldPassedOver_eq, groupsDissolved_eq]
  show execSepurgeComplete die s = _
  simp only [execSepurgeComplete, hdone, Bool.not_true, Bool.false_eq_true, if_false]
  rfl

end Sys2Proof.Laws

namespace Sys2Proof.Proofs

open Sys2Proof.Machine Sys2Proof.Claims Sys2Proof.Laws

/-- Settles O43: an equation for each outcome of each request at an engine; an atomic's are those of its read and write (`rmw_stores`), a
barrier's those of its update (`barrier_arrive`, `barrier_complete`). -/
theorem syncSteps : Obligations.SyncSteps := by
  intro s
  refine ⟨fun r bs hread => ?atomics, fun tenant pa n => ?reads, fun r op b c pid hregion hadmits hkind hreply => ?denied, fun r n => ?counters,
    fun r bs b hread hb => ?barriers, fun r k w hk hw => ?waits, fun die entry act rest hq hcan hact => exec_seHoldRelease hq hcan hact,
    fun die tid hpurging hdue htid => exec_sepurgeComplete hpurging hdue htid⟩
  case atomics =>
    intro w stored
    refine ⟨fun op b new hkind hgives => ?rmw, fun e v c pid hkind hreply => ⟨fun heq => ?holds, fun hne => ?fails⟩⟩
    case rmw =>
      have hrmw := rmw_stores (new := new) (v1 := leNat bs) hread (by rw [hkind, ← atomNew_eq hgives]; rfl)
      exact ⟨exec_seAtomic_silent hrmw, fun c pid => exec_seAtomic_pending hrmw, fun tag => exec_seAtomic_outside hrmw⟩
    case holds => exact exec_seAtomic_pending (rmw_stores hread (hkind ▸ atomResult_cas_holds heq)) hreply
    case fails => exact exec_seAtomic_pending (rmw_leaves hread (hkind ▸ atomResult_cas_fails hne)) hreply
  case reads => exact ⟨atomRead_admitted n, atomRead_linked n⟩
  case denied =>
    have hrmw := rmw_denied (r := r) (atomRead_denied _ hregion hadmits) (by rw [hkind])
    rw [leNat_zeros] at hrmw
    exact exec_seAtomic_pending hrmw hreply
  case counters =>
    intro die same word
    have hpos : n ≠ 0 → n.toNat ≠ 0 := BitVec.toNat_ne.1
    refine ⟨fun e he => exec_seCntInit_published he, fun hnone => exec_seCntInit_held hnone, fun ovf p hnone hplace hp => ?placed,
      exec_seCntDec_zero, fun e hn he => exec_seCntDec_underflows (hpos hn) he, fun e hn he => exec_seCntDec_published (hpos hn) he,
      fun e hn hnone he => exec_seCntDec_early (hpos hn) hnone he, fun ovf hn hnone hpre => exec_seCntDec_first (hpos hn) hnone hpre,
      fun e he => exec_seCntFree he⟩
    case placed =>
      refine exec_seCntInit_placed hnone hplace ?_
      subst hp
      show (((s.dev.se.get {} die).pres.find? same).map CntEnt.value).getD 0 = _
      cases (s.dev.se.get {} die).pres.find? same <;> rfl
  case barriers =>
    subst hb
    intro ends
    exact ⟨fun n hupd => exec_barrierUpdate hread (hupd ▸ barrier_init _ n),
      fun n hupd hlow hhigh harrive => exec_barrierUpdate hread (hupd ▸ barrier_arrive hlow hhigh harrive),
      fun n hupd hhigh hn => exec_barrierUpdate hread (hupd ▸ barrier_complete hhigh hn)⟩
  case waits =>
    exact ⟨fun va pa o sc hwait => ⟨exec_seWaitRegister_cntZero hk hw hwait, fun ovf hopen => exec_seWaitRegister_cntPlaced hk hw hwait hopen,
        exec_seWaitRegister_cntHeld hk hw hwait⟩,
      fun pa tenant phase o sc bs d hwait hread => ⟨exec_seWaitRegister_phaseOver hk hw hwait hread, exec_seWaitRegister_phaseOpen hk hw hwait hread⟩⟩

end Sys2Proof.Proofs

/-! ## Atomics, counters and requests to the dispatcher and the placer, as they fire (R362 to R368, R415, R416, R446 to R448) -/

namespace Sys2Proof.Laws

open Sys2Proof.Machine Sys2Proof.Claims

/-! ### Instructions that address memory by operand A -/

/-- An effect whose command takes an open number of clocks. -/
theorem effects_within (base : State) (sh : Shot) (bound : Nat) (make : Nat → Effect) :
    ∃ delay, { base with dev := base.dev.effectWithin sh bound make } = Effects (drawn base) sh (make delay) :=
  ⟨_, (effect_eq (drawn base) sh _).symm⟩

/-- The checks of operand A as an address: alignment, then translation; what is done there follows. -/
def atAddress (m : Memory) (d : Dev) (sh : Shot) (align : Nat) (acc : Access) (k : Dev → Placed → Dev) : Dev :=
  if sh.a.toNat % align ≠ 0 then d.slotTrap sh 0x07 sh.a 0
  else
    match Dev.translate m d sh.k.via sh.k.tenant sh.a acc with
    | (.error f, d) => d.slotTrap sh 0x08 sh.a (f.syndrome acc 0 sh.k.tenant) (sub := BitVec.ofNat 8 f.sub)
    | (.ok q, d) => k d q

section
variable {p : Pred} {u : Uses} {s : State} {sh : Shot} {i : Instr} {f : Dev → Shot → Dev} {align : Nat} {acc : Access} {k : Dev → Placed → Dev}
  {x : XFault} {q : Placed} {d : Dev} {bound : Nat} {make : Nat → Effect}
  (h : Fires p u s sh) (hp : predOf i = p) (hu : usesOf i = u) (hf : f (seen s).dev sh = atAddress s.mem (seen s).dev sh align acc k)
include h hp hu hf

theorem fire_misaligned (hal : sh.a.toNat % align ≠ 0) : fire i s f = .next (Traps (seen s) sh 0x07 sh.a 0) :=
  fire_traps h hp hu (hf.trans (if_pos hal))

variable (hal : sh.a.toNat % align = 0)
include hal

theorem fire_untranslated (ht : Faults s sh sh.a acc x d) : fire i s f = .next (XlatTraps { s with dev := d } sh sh.a acc x) := by
  refine fire_translation_trap h hp hu (hf.trans ?_)
  unfold Faults at ht
  delta atAddress
  rw [if_neg (not_not_intro hal), ht]

variable (ht : Translates s sh sh.a acc q d)
include ht

theorem fire_translated : fire i s f = .next { s with dev := k d q } := by
  unfold Translates at ht
  rw [fire_of_Fires h hp hu]
  exact congrArg (fun d => Host.Outcome.next { s with dev := d }) (hf.trans (by delta atAddress; rw [if_neg (not_not_intro hal), ht]))

theorem fire_translated_effect {e : Effect} (hk : k d q = d.effect sh e) : fire i s f = .next (Effects { s with dev := d } sh e) := by
  rw [fire_translated h hp hu hf hal ht, effect_eq, hk]

theorem fire_translated_within (hk : k d q = d.effectWithin sh bound make) :
    ∃ delay, fire i s f = .next (Effects (drawn { s with dev := d }) sh (make delay)) := by
  obtain ⟨delay, heq⟩ := effects_within { s with dev := d } sh bound make
  exact ⟨delay, by rw [fire_translated h hp hu hf hal ht, hk, ← heq]⟩

/-- The command takes a number of the thread, and an open number of clocks. -/
theorem fire_translated_numbered (hk : k d q = (d.newId sh.c).effectWithin sh bound make) :
    ∃ delay, fire i s f = .next (Effects (drawn (numbered sh.c { s with dev := d })) sh (make delay)) := by
  obtain ⟨delay, heq⟩ := effects_within (numbered sh.c { s with dev := d }) sh bound make
  exact ⟨delay, by rw [fire_translated h hp hu hf hal ht, hk, ← heq]; rfl⟩

end

/-! ### Atomics (R362 to R364) -/

/-- Only ADD, SWAP and CAS reach host memory. -/
theorem hostAtomic_rmw_eq_false (op : AtomOp) (b : Word) : (!hostAtomic (.rmw op b)) = true ↔ op ≠ .add ∧ op ≠ .swap := by
  cases op <;> simp [hostAtomic]

theorem atomSize_none : ∀ {n : Nat}, n < 2 → atomSize n = none
  | 0, _ => rfl
  | 1, _ => rfl

theorem atomSize_code : ∀ {z : Size}, 2 ≤ z.code.toNat → atomSize z.code.toNat = some z
  | .b1, h => absurd h (by decide)
  | .b2, h => absurd h (by decide)
  | .b4, _ => rfl
  | .b8, _ => rfl

theorem isFloatOp_iff (op : AtomOp) : isFloatOp op = true ↔ op = .fadd ∨ op = .fmin ∨ op = .fmax := by cases op <;> decide

/-- An atomic of a size and a kind at a translated address: on host memory only some are admitted, any other is done by `k`. -/
def atomAt (sh : Shot) (kind : AtomKind) (k : Dev → Placed → Dev) (d : Dev) (q : Placed) : Dev :=
  if paRegion q.pa = 1 ∧ !hostAtomic kind then d.slotTrap sh 0x0F sh.word 0 else k d q

theorem atAtom_eq (m : Memory) (d : Dev) (sh : Shot) (z : Size) (kind : AtomKind) (k : Dev → Placed → Dev) :
    d.atAtom m sh z kind k = atAddress m d sh (width z) .store (atomAt sh kind k) := by
  rw [width_bytes]; rfl

/-- The control word of an ATOM names no operation of a size (R363). -/
def BadControl (z : Word) : Prop := 11 < z.toNat % 16 ∨ z.toNat / 16 % 4 < 2 ∨ (8 < z.toNat % 16 ∧ z.toNat / 16 % 4 = 3)

theorem atomOp_float {n : Nat} (hlow : 8 < n) (hhigh : n ≤ 11) : ∃ op, atomOp n = some op ∧ isFloatOp op = true := by
  obtain rfl | rfl | rfl : n = 9 ∨ n = 10 ∨ n = 11 := by omega
  · exact ⟨.fadd, rfl, rfl⟩
  · exact ⟨.fmin, rfl, rfl⟩
  · exact ⟨.fmax, rfl, rfl⟩

section
variable {p : Pred} {s : State} {sh : Shot} {sc : Scope} {o : MemOrder} {b a : Target}

theorem controlOp_eq (z : Word) : field z 0 4 = z.toNat % 16 := by simp [field]
theorem controlSize_eq (z : Word) : field z 4 2 = z.toNat / 16 % 4 := rfl

theorem exec_atom_badControl (h : Fires p ⟨true, true, true⟩ s sh) (hbad : BadControl sh.z) :
    exec (atom o p sc b a) s = .next (Traps (seen s) sh 0x0F (sh.sl.word.setWidth 64) 0) := by
  rw [exec_atom]
  refine fire_traps h (atom_pred ..) (atom_uses ..) ?_
  simp only [controlOp_eq, controlSize_eq]
  by_cases hcode : 11 < sh.z.toNat % 16
  · rw [atomOp_big _ hcode]
    rfl
  by_cases hsize : sh.z.toNat / 16 % 4 < 2
  · rw [atomSize_none hsize]
    cases atomOp (sh.z.toNat % 16) <;> rfl
  obtain ⟨hfloat, hsz⟩ := (hbad.resolve_left hcode).resolve_left hsize
  obtain ⟨op, hop, hf⟩ := atomOp_float hfloat (Nat.le_of_not_lt hcode)
  rw [hop, hsz]
  simp only [atomSize, hf]
  rfl

/-- A good control word of ATOM: the operation at operand A. -/
theorem exec_atom_eq {op : AtomOp} {z : Size} (hop : op.code.toNat = sh.z.toNat % 16) (hsize : z.code.toNat = sh.z.toNat / 16 % 4)
    (hlow : 2 ≤ z.code.toNat) (hfloat : op = .fadd ∨ op = .fmin ∨ op = .fmax → z = .b4) :
    ∃ f : Dev → Shot → Dev, exec (atom o p sc b a) s = fire (atom o p sc b a) s f ∧ f (seen s).dev sh = atAddress s.mem (seen s).dev sh (width z) .store
      (atomAt sh (.rmw op sh.b) fun d q => d.deferAtom sh q z (.rmw op sh.b) o sc b a) := by
  refine ⟨_, exec_atom .., ?_⟩
  have hadmitted : ¬ (isFloatOp op && z != .b4) = true := by
    simp only [Bool.and_eq_true, isFloatOp_iff, bne_iff_ne, not_and_not_right]
    exact hfloat
  simp only [controlOp_eq, controlSize_eq, ← hop, ← hsize, atomOp_code, atomSize_code hlow, if_neg hadmitted, atAtom_eq]

/-- A host-memory location at which an operation is not admitted traps; any other takes the operation. -/
theorem atomAt_denied {d : Dev} {q : Placed} {op : AtomOp} {v : Word} (hq : paRegion q.pa = 1 ∧ op ≠ .add ∧ op ≠ .swap) (k : Dev → Placed → Dev) :
    atomAt sh (.rmw op v) k d q = d.slotTrap sh 0x0F sh.word 0 := if_pos ⟨hq.1, (hostAtomic_rmw_eq_false op v).2 hq.2⟩

theorem atomAt_admitted {d : Dev} {q : Placed} {op : AtomOp} {v : Word} (hq : ¬ (paRegion q.pa = 1 ∧ op ≠ .add ∧ op ≠ .swap)) (k : Dev → Placed → Dev) :
    atomAt sh (.rmw op v) k d q = k d q := if_neg fun hd => hq ⟨hd.1, (hostAtomic_rmw_eq_false op v).1 hd.2⟩

theorem atomAt_cas {d : Dev} {q : Placed} {e v : Word} (k : Dev → Placed → Dev) : atomAt sh (.cas e v) k d q = k d q :=
  if_neg fun hd => Bool.false_ne_true hd.2

end

/-! ### Counters (R366 to R368) -/

/-- A counter stands in local memory, on a page that is not replicated; what is done there is `k`. -/
def counterAt (sh : Shot) (k : Dev → Placed → Dev) (d : Dev) (q : Placed) : Dev :=
  if paRegion (d.ownPa q.pa) ≠ 0 ∨ q.rpl.isSome then d.slotTrap sh 0x0F sh.word 0 else k d q

theorem counterAt_good {sh : Shot} {d : Dev} {q : Placed} (hregion : paRegion (d.ownPa q.pa) = 0) (hrpl : q.rpl = none) (k : Dev → Placed → Dev) :
    counterAt sh k d q = k d q := if_neg (by simp [hregion, hrpl])

/-- The instruction addresses a counter by operand A, and goes on as `k` in a slot that fires. -/
def AtCounter (i : Instr) (u : Uses) (k : Shot → Dev → Placed → Dev) : Prop :=
  usesOf i = u ∧ ∀ s, exec i s = fire i s fun d sh => atAddress s.mem d sh 8 .store (counterAt sh (k sh))

theorem cntInit_atCounter (p : Pred) (o : MemOrder) (sc : Scope) : AtCounter (.cntInit p o sc) ⟨true, true, false⟩ fun sh d q =>
    d.effectWithin sh (Config.openDelay d.free) fun delay => .issue 0 (MemOrder.releases o) delay (.seCntInit (sh.cntReq q o sc) (sh.b.setWidth 32)) :=
  ⟨rfl, fun _ => rfl⟩

theorem cntDec_atCounter (p : Pred) (o : MemOrder) (sc : Scope) : AtCounter (.cntDec p o sc) ⟨true, true, false⟩ fun sh d q =>
    d.effectWithin sh (Config.openDelay d.free) fun delay => .issue 0 (MemOrder.releases o) delay (.seCntDec (sh.cntReq q o sc) (sh.b.setWidth 32)) :=
  ⟨rfl, fun _ => rfl⟩

theorem cntWait_atCounter (p : Pred) (o : MemOrder) (sc : Scope) : AtCounter (.cntWait p o sc) ⟨true, false, false⟩ fun sh d q =>
    d.effect sh (.wait (.cntWait sh.a q.pa o sc)) :=
  ⟨rfl, fun _ => rfl⟩

theorem cntFree_atCounter (p : Pred) : AtCounter (.cntFree p) ⟨true, false, false⟩ fun sh d q =>
    d.effectWithin sh (Config.openDelay d.free) fun delay => .issue 0 false delay (.seCntFree (sh.cntReq q .rlx .cast)) :=
  ⟨rfl, fun _ => rfl⟩

namespace AtCounter

variable {i : Instr} {u : Uses} {k : Shot → Dev → Placed → Dev} (hi : AtCounter i u k) {s : State} {sh : Shot} (h : Fires (predOf i) u s sh)
include hi h

/-- The traps of an instruction on a counter. -/
theorem traps (q : Placed) (d : Dev) (x : XFault) :
    (sh.a.toNat % 8 ≠ 0 → exec i s = .next (Traps (seen s) sh 0x07 sh.a 0)) ∧
    (sh.a.toNat % 8 = 0 → Faults s sh sh.a .store x d → exec i s = .next (XlatTraps { s with dev := d } sh sh.a .store x)) ∧
    (sh.a.toNat % 8 = 0 → Translates s sh sh.a .store q d → paRegion (d.ownPa q.pa) ≠ 0 ∨ q.rpl.isSome = true →
      exec i s = .next (Traps { s with dev := d } sh 0x0F (sh.sl.word.setWidth 64) 0)) := by
  obtain ⟨hu, hexec⟩ := hi
  rw [hexec]
  refine ⟨fire_misaligned h rfl hu rfl, fire_untranslated h rfl hu rfl, fun hal ht hq => ?_⟩
  rw [fire_translated h rfl hu rfl hal ht]
  delta counterAt
  rw [if_pos hq]
  rfl

variable (hal : sh.a.toNat % 8 = 0) {q : Placed} {d : Dev} (ht : Translates s sh sh.a .store q d) (hregion : paRegion (d.ownPa q.pa) = 0)
  (hrpl : q.rpl = none)
include hal ht hregion hrpl

theorem effect {e : Effect} (hk : k sh d q = d.effect sh e) : exec i s = .next (Effects { s with dev := d } sh e) := by
  obtain ⟨hu, hexec⟩ := hi
  rw [hexec]
  exact fire_translated_effect h rfl hu rfl hal ht ((counterAt_good hregion hrpl _).trans hk)

theorem within {bound : Nat} {make : Nat → Effect} (hk : k sh d q = d.effectWithin sh bound make) :
    ∃ delay, exec i s = .next (Effects (drawn { s with dev := d }) sh (make delay)) := by
  obtain ⟨hu, hexec⟩ := hi
  rw [hexec]
  exact fire_translated_within h rfl hu rfl hal ht ((counterAt_good hregion hrpl _).trans hk)

end AtCounter

/-! ### Requests to the dispatcher and the placer (R415, R446 to R448) -/

section
variable {p : Pred} {s : State} {sh : Shot} {a : Target} {q : Placed} {d : Dev}

/-- A request to the dispatcher that names no address takes a number of the thread, and an open number of clocks. -/
theorem fire_asks {u : Uses} {i : Instr} {f : Dev → Shot → Dev} {release : Bool} {rq : TaskReq} (h : Fires p u s sh) (hp : predOf i = p) (hu : usesOf i = u)
    (hf : f (seen s).dev sh = (seen s).dev.askDispatcher sh a release rq) :
    ∃ delay, fire i s f = .next (Effects (drawn (numbered sh.c (seen s))) sh (.defer .plain sh.k.th.nextId a 0 false 2 release delay
      (.dispatchTaskPut (.thread sh.c sh.k.th.nextId) sh.k.tenant sh.k.die rq))) :=
  fire_within_site_else (base := numbered sh.c (seen s)) h rfl hp hu hf

theorem field16_eq (w : Word) : field w 0 16 = w.toNat % 2 ^ 16 := by simp only [field, Nat.pow_zero, Nat.div_one]

theorem castOperand_eq (sh : Shot) : sh.castOperand = if sh.a.toNat % 2 ^ 16 = 0 then sh.c else sh.a.toNat % 2 ^ 16 := by
  simp only [Shot.castOperand, field16_eq]

theorem atRecord_eq (m : Memory) (d : Dev) (sh : Shot) (align : Nat) (acc : Access) (k : Dev → Dev) :
    d.atRecord m sh align acc k = atAddress m d sh align acc fun d _ => k d := rfl

end

end Sys2Proof.Laws

namespace Sys2Proof.Proofs

open Sys2Proof.Machine Sys2Proof.Claims Sys2Proof.Laws

/-- Settles O19: a bad control word traps (`exec_atom_badControl`); any other atomic is one at the address in operand A (`atAddress`, `atomAt`). -/
theorem atomics : Obligations.Atomics := by
  intro p sc b a o s sh q d f op z pid word request deferred
  refine ⟨fun h => ⟨exec_atom_badControl h, fun hop hsize hlow hfloat => ?atom, ?cas⟩, fun h => ?red⟩
  case atom =>
    obtain ⟨g, hexec, hg⟩ := exec_atom_eq (o := o) (p := p) (s := s) (sc := sc) (b := b) (a := a) hop hsize hlow hfloat
    have hu := atom_uses o p sc b a
    have hp := atom_pred o p sc b a
    rw [hexec]
    refine ⟨fire_misaligned h hp hu hg, fire_untranslated h hp hu hg, fun hal ht => ⟨fun hq => ?_, fun hq => ?_⟩⟩
    · rw [fire_translated h hp hu hg hal ht, atomAt_denied hq]
      rfl
    · exact fire_translated_numbered h hp hu hg hal ht (atomAt_admitted hq _)
  case cas =>
    have hg := atAtom_eq s.mem (seen s).dev sh .b8 (.cas sh.z sh.b) fun d q => d.deferAtom sh q .b8 (.cas sh.z sh.b) o sc b a
    show (_ → execCas o p sc b a s = _) ∧ (_ → _ → execCas o p sc b a s = _) ∧ (_ → _ → ∃ delay, execCas o p sc b a s = _)
    exact ⟨fire_misaligned h rfl rfl hg, fire_untranslated h rfl rfl hg,
      fun hal ht => fire_translated_numbered h rfl rfl hg hal ht (atomAt_cas _)⟩
  case red =>
    have hg := atAtom_eq s.mem (seen s).dev sh z (.rmw op sh.b) fun d q =>
      d.effectWithin sh (Config.openDelay d.free) fun delay =>
        .issue 0 (MemOrder.releases o) delay (.seAtomic (sh.atomReq q z (.rmw op sh.b) o sc .none))
    show (_ → execRed p z op o sc s = _) ∧ (_ → _ → execRed p z op o sc s = _) ∧
      (_ → _ → (_ → execRed p z op o sc s = _) ∧ (_ → ∃ delay, execRed p z op o sc s = _))
    refine ⟨fire_misaligned h rfl rfl hg, fire_untranslated h rfl rfl hg, fun hal ht => ⟨fun hq => ?_, fun hq => ?_⟩⟩
    · exact (fire_translated h rfl rfl hg hal ht).trans (congrArg _ (by rw [atomAt_denied hq]; rfl))
    · exact fire_translated_within h rfl rfl hg hal ht (atomAt_admitted hq _)

/-- Settles O20: each of the instructions addresses a counter (`AtCounter`), which traps or takes the request. -/
theorem counters : Obligations.Counters := by
  intro p o sc s sh q d f request traps good
  refine ⟨fun h => ⟨(cntInit_atCounter p o sc).traps h q d f, (cntDec_atCounter p o sc).traps h q d f, ?changes⟩,
    fun h => ⟨(cntWait_atCounter p o sc).traps h q d f, (cntFree_atCounter p).traps h q d f, ?others⟩⟩
  case changes =>
    rintro ⟨hal, ht, hregion, hrpl⟩
    exact ⟨(cntInit_atCounter p o sc).within h hal ht hregion hrpl rfl, (cntDec_atCounter p o sc).within h hal ht hregion hrpl rfl⟩
  case others =>
    rintro ⟨hal, ht, hregion, hrpl⟩
    exact ⟨(cntWait_atCounter p o sc).effect h hal ht hregion hrpl rfl, (cntFree_atCounter p).within h hal ht hregion hrpl rfl⟩

/-- Settles O21: a request that names an address is made where it is translated (`fire_translated_numbered`), any other in every slot that fires. -/
theorem taskCommands : Obligations.TaskCommands := by
  intro p loc a s sh q d pid own ask
  have hown : own = sh.castOperand := (castOperand_eq sh).symm
  refine ⟨fun h => ⟨fun hal ht => ?put, fun hal ht => ?sdef, ?info, ?unreg, fun hal ht => ?place⟩, fun h => ?reg, fun h => ?lease⟩
  case put => exact show ∃ delay, execTaskPut p loc a s = _ from fire_translated_numbered h rfl rfl (atRecord_eq ..) hal ht rfl
  case sdef => exact show ∃ delay, execTaskSdef p a s = _ from fire_translated_numbered h rfl rfl (atRecord_eq ..) hal ht rfl
  case info =>
    rw [← field16_eq]
    exact show ∃ delay, execTaskInfo p a s = _ from fire_asks h rfl rfl rfl
  case unreg =>
    rw [hown]
    exact show ∃ delay, execTaskUnreg p s = _ from fire_within_site_else h rfl rfl rfl rfl
  case place =>
    refine show execPlReq p a s = _ from (fire_translated h rfl rfl (atRecord_eq ..) hal ht).trans ?_
    exact congrArg _ (effect_eq (numbered sh.c { s with dev := d }) sh _).symm
  case reg =>
    rw [hown, ← field16_eq]
    exact show ∃ delay, execTaskReg p a s = _ from fire_asks h rfl rfl rfl
  case lease => exact show execLeaseRel p s = _ from fire_effect h rfl rfl rfl rfl

end Sys2Proof.Proofs

/-! ## The commands of QSLOTCMD (R453, R463, R468) -/

namespace Sys2Proof.Laws

open Sys2Proof.Machine Sys2Proof.Claims

/-! ### What a run of bytes read leaves -/

/-- What a run of bytes read through translation leaves behind. -/
theorem tlbChange_of_readRun {m : Memory} {d d' : Dev} {v : Via} {tenant : Nat} {va : Word} {n : Nat} {agent : Agent} {r : Except (Word × XFault) (List Byte)}
    (h : Dev.readRun m d v tenant va n agent = (r, d')) : TlbChange d d' := by
  have hchange := Dev.readRun_tlbChange m d v tenant va n agent
  rwa [h] at hchange

theorem host_of_tlbChange {d d' : Dev} (h : TlbChange d d') : d'.host = d.host := by
  obtain ⟨p, b, l, js, ws, rfl⟩ := h
  rfl

/-! ### A command and its word -/

/-- The last command of QSLOTCMD was refused. -/
def slotRefused (iod : Nat) (s : State) : State := onHost (fun h => { h with qcmd := h.qcmd.modify {} iod fun x => { x with err := true } }) s

theorem slotWord_getLsbD {op : Nat} (hop : op < 8) (v : Word) {i : Nat} (h : i < 20 ∨ 23 ≤ i) (hi : i < 64) : (qslotWord op v).getLsbD i = v.getLsbD i :=
  (slotWord_fields op hop v).2.1 i h hi

theorem slotWord_field {op : Nat} (hop : op < 8) (v : Word) {lo n : Nat} (hn : lo + n ≤ 20) : field (qslotWord op v) lo n = field v lo n :=
  field_congr fun _ _ => slotWord_getLsbD hop v (by omega) (by omega)

theorem slotWord_op {op : Nat} (hop : op < 8) (v : Word) : field (qslotWord op v) 20 3 = op := (slotWord_fields op hop v).2.2

section
variable {s : State} {iod : Nat} {v : Word} (hport : s.dev.part.hasPort iod = true) (h61 : v.getLsbD 61 = false) (h62 : v.getLsbD 62 = false)
include hport h61 h62

theorem regWrite_qslotcmd : s.regWrite 0 (.qslotcmd iod) v = s.qslotCommand iod v := by
  rw [regWrite_zero s (.qslotcmd iod) v hport]
  simp only [State.writeReg, bitAt, h61, h62, Bool.or_self, Bool.false_eq_true, if_false]

theorem regWrite_slotWord {op : Nat} (hop : op < 8) : s.regWrite 0 (.qslotcmd iod) (qslotWord op v) = s.qslotCommand iod (qslotWord op v) :=
  regWrite_qslotcmd hport ((slotWord_getLsbD hop v (by omega) (by omega)).trans h61) ((slotWord_getLsbD hop v (by omega) (by omega)).trans h62)

end

section
variable {s : State} {iod : Nat} (v : Word)

theorem qslotCommand_define : s.qslotCommand iod (qslotWord 1 v) = let u := commanded iod (slotWord 1 v) s
    u.guarded iod (match Dev.readQcb u.mem u.dev (u.dev.host.qcba.get 0 iod) with
      | (some b, _) => num b 2 1
      | (none, _) => 0) fun s => { s with dev := Dev.defineQueue s.mem s.dev iod (field v 8 10) } := by
  delta State.qslotCommand
  rw [slotWord_op (op := 1) (by omega), slotWord_field (op := 1) (by omega) v (lo := 8) (n := 10) (by omega)]
  rfl

theorem qslotCommand_delete : s.qslotCommand iod (qslotWord 2 v) = let u := commanded iod (slotWord 2 v) s
    u.guarded iod (u.dev.queue iod (field v 8 10)).tid fun s => { s with dev := s.dev.deleteQueue iod (field v 8 10) } := by
  delta State.qslotCommand
  rw [slotWord_op (op := 2) (by omega), slotWord_field (op := 2) (by omega) v (lo := 8) (n := 10) (by omega)]
  rfl

theorem qslotCommand_map : s.qslotCommand iod (qslotWord 3 v) = let u := commanded iod (slotWord 3 v) s
    { u with dev := Dev.mapQueue u.mem u.dev iod (field v 0 5) (field v 8 10) (u.dev.host.qcba.get 0 iod) (u.dev.queue iod (field v 8 10)).prio } := by
  delta State.qslotCommand
  rw [slotWord_op (op := 3) (by omega), slotWord_field (op := 3) (by omega) v (lo := 8) (n := 10) (by omega),
    slotWord_field (op := 3) (by omega) v (lo := 0) (n := 5) (by omega)]
  rfl

theorem qslotCommand_unmap : s.qslotCommand iod (qslotWord 4 v) = (commanded iod (slotWord 4 v) s).unmapQueue iod (field v 0 5) (field v 8 10) := by
  delta State.qslotCommand
  rw [slotWord_op (op := 4) (by omega), slotWord_field (op := 4) (by omega) v (lo := 8) (n := 10) (by omega),
    slotWord_field (op := 4) (by omega) v (lo := 0) (n := 5) (by omega)]
  rfl

theorem qslotCommand_reserved (h : field v 20 3 = 0 ∨ 4 < field v 20 3) : s.qslotCommand iod v = slotRefused iod (commanded iod v s) := by
  unfold State.qslotCommand
  dsimp only
  split
  · omega
  · omega
  · omega
  · omega
  · rfl

end

/-! ### Definition, deletion and mapping -/

theorem guarded_unlocked {s : State} {port tid : Nat} (h : s.dev.lockedFn port tid = none) (f : State → State) : s.guarded port tid f = f s := by
  rw [State.guarded, h]

section
variable {u : State} {iod qid : Nat}

theorem readQcb_of_readRun {m : Memory} {d d' : Dev} {addr : Word} {b : List Byte}
    (h : Dev.readRun m d { port := none, block := none, die := 0 } 0 addr 128 = (.ok b, d')) : Dev.readQcb m d addr = (some b, d') := by
  rw [Dev.readQcb, ioVia, h]

section
variable {b : List Byte} {d : Dev}
  (hread : Dev.readRun u.mem u.dev { port := none, block := none, die := 0 } 0 (u.dev.host.qcba.get 0 iod) 128 = (.ok b, d))
  (hlen : 3 ≤ b.length)
include hread hlen

theorem defineQueue_new (hv : (u.dev.host.queues.get {} (1024 * iod + qid)).v = false) :
    ({ u with dev := Dev.defineQueue u.mem u.dev iod qid } : State) = onHost (fun h => { h with
      queues := h.queues.put (1024 * iod + qid) { v := true, tid := (b.getD 2 0).toNat, qcb := u.dev.host.qcba.get 0 iod } }) { u with dev := d } := by
  have hhost := host_of_tlbChange (tlbChange_of_readRun hread)
  have hv' : ¬ (u.dev.queue iod qid).v = true := by delta Dev.queue; rw [hv]; decide
  delta Dev.defineQueue
  rw [if_neg hv', readQcb_of_readRun hread]
  simp only [num_two b hlen, hhost]
  rfl

/-- DEFINE, where no locked function stands for the tenant that the QCB names. -/
theorem define_guarded (hunlocked : u.dev.lockedFn iod (b.getD 2 0).toNat = none) (f : State → State) :
    u.guarded iod (match Dev.readQcb u.mem u.dev (u.dev.host.qcba.get 0 iod) with
      | (some b, _) => num b 2 1
      | (none, _) => 0) f = f u := by
  rw [readQcb_of_readRun hread]
  refine guarded_unlocked ?_ f
  rwa [← num_two b hlen] at hunlocked

end

theorem defineQueue_defined (hv : (u.dev.host.queues.get {} (1024 * iod + qid)).v = true) :
    ({ u with dev := Dev.defineQueue u.mem u.dev iod qid } : State) = slotRefused iod u := by
  delta Dev.defineQueue
  rw [if_pos (show (u.dev.queue iod qid).v = true from hv)]
  rfl

theorem deleteQueue_idle (hslot : (u.dev.host.queues.get {} (1024 * iod + qid)).slot = none) (hinfl : (u.dev.host.queues.get {} (1024 * iod + qid)).infl = 0) :
    ({ u with dev := u.dev.deleteQueue iod qid } : State) = onHost (fun h => { h with queues := h.queues.del (1024 * iod + qid) }) u := by
  delta Dev.deleteQueue Dev.queue
  simp only [hslot, hinfl, Option.isSome_none, Bool.false_eq_true, ne_eq, not_true_eq_false, or_self, if_false]
  rfl

theorem deleteQueue_refused
    (h : (u.dev.host.queues.get {} (1024 * iod + qid)).slot ≠ none ∨ (u.dev.host.queues.get {} (1024 * iod + qid)).infl ≠ 0) :
    ({ u with dev := u.dev.deleteQueue iod qid } : State) = slotRefused iod u := by
  have hbusy : (u.dev.queue iod qid).slot.isSome = true ∨ (u.dev.queue iod qid).infl ≠ 0 := h.imp_left Option.isSome_iff_ne_none.2
  delta Dev.deleteQueue
  rw [if_pos hbusy]
  rfl

theorem mapQueue_undefined {slot : Nat} {qcb : Word} {prio : Nat} (hv : (u.dev.host.queues.get {} (1024 * iod + qid)).v = false) :
    ({ u with dev := Dev.mapQueue u.mem u.dev iod slot qid qcb prio } : State) = slotRefused iod u := by
  have hv' : (u.dev.queue iod qid).v = false := hv
  delta Dev.mapQueue
  simp only [hv', Bool.not_false, Bool.true_or, if_true]
  rfl

/-- A slot as MAP takes it from a QCB (R464, R468). -/
def slotOf (qid : Nat) (qcb : Word) (b : List Byte) : SlotSt :=
  { qid := qid, qcb := qcb, tid := num b 2 1, pri := num b 3 1 % 16, qdie := num b 6 1 % 8, base := BitVec.ofNat 64 (num b 8 8),
    lsz := min 16 (num b 16 1), rdx := num b 20 4, err := num b 7 1 == 1, errix := num b 28 4 }

theorem mapQueue_mapped {slot prio : Nat} {qcb : Word} {b : List Byte} {d : Dev} {q : QueueEnt} {x : SlotSt}
    (hq : u.dev.host.queues.get {} (1024 * iod + qid) = q) (hx : x = slotOf qid qcb b) (hv : q.v = true) (hslot : q.slot = none)
    (hfree : u.dev.host.slots.find (32 * iod + slot) = none)
    (hread : Dev.readRun u.mem u.dev { port := none, block := none, die := 0 } 0 qcb 128 = (.ok b, d)) (hvers : num b 0 2 = 1)
    (hfits : (q.wrx + 2 ^ 32 - x.rdx % 2 ^ 32) % 2 ^ 32 ≤ 2 ^ x.lsz ∨ x.err = true) :
    ({ u with dev := Dev.mapQueue u.mem u.dev iod slot qid qcb prio } : State) = onHost (fun h => { h with slots := h.slots.put (32 * iod + slot) x })
      (onHost (fun h => { h with queues := h.queues.upd (1024 * iod + qid) fun q' =>
        { q' with slot := some slot, pend := false, prio := prio, mapAt := d.now, kept := 0 } }) { u with dev := d }) := by
  have hq' : u.dev.queue iod qid = q := hq
  have hfit : ¬ (x.overKicked q.wrx = true ∧ (!x.err) = true) := by
    rw [SlotSt.overKicked, decide_eq_true_eq, Bool.not_eq_true']
    rintro ⟨hover, herr⟩
    exact hfits.elim (fun hle => absurd hover (Nat.not_lt.2 hle)) (fun he => Bool.false_ne_true (herr.symm.trans he))
  subst hx
  have hready : ¬ (!q.v || q.slot.isSome || (u.dev.host.slots.find (32 * iod + slot)).isSome) = true := by
    simp only [hv, hslot, hfree, Bool.not_true, Option.isSome_none, Bool.or_self, Bool.false_eq_true, not_false_eq_true]
  delta Dev.mapQueue
  rw [hq', if_neg hready, readQcb_of_readRun hread]
  show ({ u with dev := if num b 0 2 ≠ 1 then _ else _ } : State) = _
  rw [if_neg (not_not_intro hvers)]
  exact congrArg (State.mk u.mem) (if_neg hfit)

/-! ### Unmapping -/

/-- The state of a slot and its queue written back to the QCB (R468). -/
def slotWrittenBack (iod wrx : Nat) (x : SlotSt) (u : State) : State :=
  storedBack iod (x.qcb + 7) (leBytes 1 (bit x.err)) (storedBack iod (x.qcb + 20) (leBytes 4 x.rdx ++ leBytes 4 wrx ++ leBytes 4 x.errix) u)

variable {slot : Nat} {x : SlotSt} (hx : u.dev.host.slots.find (32 * iod + slot) = some x)
include hx

theorem unmapQueue_refused (h : x.qid ≠ qid ∨ (u.dev.host.queues.get {} (1024 * iod + qid)).slot ≠ some slot) :
    u.unmapQueue iod slot qid = slotRefused iod u := by
  simp only [State.unmapQueue, hx]
  rw [if_pos (show x.qid ≠ qid ∨ (u.dev.queue iod qid).slot ≠ some slot from h)]
  rfl

theorem unmapQueue_unmapped {q : QueueEnt} (hq : u.dev.host.queues.get {} (1024 * iod + qid) = q) (hqid : x.qid = qid) (hslot : q.slot = some slot) :
    u.unmapQueue iod slot qid = let t := slotWrittenBack iod q.wrx x u
      onHost (fun h => { h with slots := h.slots.del (32 * iod + slot) }) (onHost (fun h => { h with queues := h.queues.upd (1024 * iod + qid) fun q' =>
        { q' with slot := none, pend := decide (x.rdx ≠ q.wrx), pendAt := t.dev.now, waited := 0 } }) t) := by
  have hq' : u.dev.queue iod qid = q := hq
  simp only [State.unmapQueue, hx, hq']
  rw [if_neg (not_or.2 ⟨not_not_intro hqid, not_not_intro hslot⟩)]
  rfl

end

end Sys2Proof.Laws

namespace Sys2Proof.Proofs

open Sys2Proof.Machine Sys2Proof.Claims Sys2Proof.Laws

/-- Settles O47: a write of another tenant changes nothing; a command is told by its word (`slotWord_fields`), and does or refuses its operation. -/
theorem slotCommands : Obligations.SlotCommands := by
  intro s iod v hport h61 h62 qid slot a q refused
  have hqid : field v 8 10 = qid := rfl
  have hslot : field v 0 5 = slot := by simp only [field, Nat.pow_zero, Nat.div_one]; rfl
  have hcommand : ∀ {op t}, op < 8 → s.qslotCommand iod (qslotWord op v) = t → Host.Outcome.next (s.regWrite 0 (.qslotcmd iod) (qslotWord op v)) = (.next t : Res) :=
    fun hop ht => congrArg _ ((regWrite_slotWord hport h61 h62 hop).trans ht)
  refine ⟨fun tid htid => ?others, fun b d => ?define, ?delete, fun b d x => ⟨fun hv => ?mapUndefined, fun hv hfree hempty hread hvers hx hfits => ?maps⟩,
    fun x => ?unmap, fun hop => ?reserved⟩
  case others =>
    have hno : ∀ w, Host.Outcome.next (s.regWrite tid (.qslotcmd iod) w) = (.next s : Res) := fun w => congrArg _ (regWrite_other _ w htid)
    exact ⟨hno _, hno _, hno _, hno _, hno _⟩
  case define =>
    intro u hread tid
    refine ⟨fun hunlocked hv hlen => hcommand (by omega) ?_, fun hunlocked hv hlen => hcommand (by omega) ?_⟩
    · rw [qslotCommand_define, hqid]
      exact (define_guarded hread hlen hunlocked _).trans (defineQueue_new hread hlen hv)
    · rw [qslotCommand_define, hqid]
      exact (define_guarded hread hlen hunlocked _).trans (defineQueue_defined hv)
  case delete =>
    intro u hunlocked
    refine ⟨fun hfree hinfl => hcommand (by omega) ?_, fun hbusy => hcommand (by omega) ?_⟩
    · rw [qslotCommand_delete, hqid]
      exact (guarded_unlocked hunlocked _).trans (deleteQueue_idle hfree hinfl)
    · rw [qslotCommand_delete, hqid]
      exact (guarded_unlocked hunlocked _).trans (deleteQueue_refused hbusy)
  case mapUndefined =>
    refine hcommand (by omega) ?_
    rw [qslotCommand_map, hqid]
    exact mapQueue_undefined hv
  case maps =>
    intro f
    refine hcommand (by omega) ?_
    rw [qslotCommand_map, hqid, hslot]
    exact mapQueue_mapped rfl hx hv hfree hempty hread hvers hfits
  case unmap =>
    intro u hx
    refine ⟨fun h => hcommand (by omega) ?_, fun hxq hq => hcommand (by omega) ?_⟩
    · rw [qslotCommand_unmap, hqid, hslot]
      exact unmapQueue_refused (u := u) hx h
    · rw [qslotCommand_unmap, hqid, hslot]
      exact unmapQueue_unmapped (u := u) hx rfl hxq hq
  case reserved =>
    exact congrArg _ ((regWrite_qslotcmd hport h61 h62).trans (qslotCommand_reserved v hop))

end Sys2Proof.Proofs

/-! ## Boot, sessions, links and the governor (R436, R452, R453, R474, R476 to R489) -/

namespace Sys2Proof.Laws

open Sys2Proof.Machine Sys2Proof.Claims

section
variable {s : State}

/-! ### Power on, I/O dies and links (R476 to R478) -/

theorem exec_powerOn_begun (h : s.dev.boot.step ≠ 0) : exec .powerOn s = .next s := by
  show execPowerOn s = _
  rw [execPowerOn, if_pos h]

theorem exec_powerOn (h : s.dev.boot.step = 0) :
    exec .powerOn s = .next (onBoot (fun b => { b with step := if Config.verifies s.dev.boot.checks then 1 else 7 }) (checked s)) := by
  show execPowerOn s = _
  rw [execPowerOn, if_neg (not_not_intro h)]
  rfl

section
variable (hstep : s.dev.boot.step = 1)
include hstep

theorem exec_iodVerifyRelease_verified (hok : Config.verifies s.dev.boot.checks = true) : exec .iodVerifyRelease s = .next (onBoot (fun b => { b with step := 2 })
    (if s.dev.part = .eos8 then iodReleased 1 (iodReleased 0 (checked s)) else iodReleased 0 (checked s))) := by
  show execIodVerifyRelease s = _
  delta execIodVerifyRelease Dev.verify
  simp only [hstep, hok, ne_eq, not_true_eq_false, if_false, if_true]
  split
  · rw [← releaseIod_mk, ← releaseIod_mk]
    rfl
  · rw [← releaseIod_mk]
    rfl

/-- Recovery: the image does not verify, and IOD0 alone is released. -/
theorem exec_iodVerifyRelease_recovers (hok : Config.verifies s.dev.boot.checks = false) :
    exec .iodVerifyRelease s = .next (onBoot (fun b => { b with step := 6, recov := true }) (iodReleased 0 (checked s))) := by
  show execIodVerifyRelease s = _
  delta execIodVerifyRelease Dev.verify
  simp only [hstep, hok, ne_eq, not_true_eq_false, if_false, Bool.false_eq_true]
  rw [← releaseIod_mk]
  rfl

end

/-- The links that train, and the compute dies that no path over them reaches (R477, R478). -/
def trainedLinks (p : Part) : List Nat := (p.links.zipIdx.filter fun x => Config.linkTrains x.2).map Prod.fst
def lostDies (p : Part) : List Nat := (List.range 8).filter fun die => p.hasDie die && !(reached (trainedLinks p)).contains die
def dieMask (l : List Nat) : BitVec 8 := l.foldl (fun f die => f ||| BitVec.ofNat 8 (2 ^ die)) 0

theorem trainedLinks_subset {p : Part} {x : Nat} (h : x ∈ trainedLinks p) : x ∈ p.links := by
  obtain ⟨e, he, rfl⟩ := List.mem_map.1 h
  exact List.fst_mem_of_mem_zipIdx (List.mem_of_mem_filter he)

theorem dieMask_getLsbD {l : List Nat} (hl : ∀ x ∈ l, x < 8) {die : Nat} (hdie : die < 8) : (dieMask l).getLsbD die = true ↔ die ∈ l := by
  delta dieMask
  rw [cdfail_fold_bit die l 0 hl hdie]
  simp

theorem mem_lostDies {p : Part} {die : Nat} : die ∈ lostDies p ↔ die < 8 ∧ p.hasDie die = true ∧ die ∉ reached (trainedLinks p) := by
  delta lostDies
  simp

theorem exec_ucieTraining (h : s.dev.boot.step = 2) : exec .ucieTraining s = .next (onBoot (fun b =>
    { b with step := 3, die := 0, links := trainedLinks s.dev.part, cdfail := b.cdfail ||| dieMask (lostDies s.dev.part) }) s) := by
  have hmask : ∀ f, (lostDies s.dev.part).foldl (fun f die => f ||| BitVec.ofNat 8 (2 ^ die)) f = f ||| dieMask (lostDies s.dev.part) := cdfail_fold_or _
  show execUcieTraining s = _
  rw [execUcieTraining, if_neg (not_not_intro h)]
  simp only [onBoot, ← hmask]
  rfl

/-! ### Compute dies and the boot key (R476, R478, R482) -/

section
variable (hstep : s.dev.boot.step = 3)
include hstep

theorem exec_cdVerifyRelease_last (hdie : 8 ≤ s.dev.boot.die) :
    let on := onBoot (fun b => { b with die := s.dev.boot.die + 1 }) s
    exec .cdVerifyRelease s = .next { onBoot (fun b => { b with step := 4 }) on with
      dev := { (onBoot (fun b => { b with step := 4 }) on).dev with seamdn := s.dev.deadSeams } } := by
  show execCdVerifyRelease s = _
  rw [execCdVerifyRelease, if_neg (not_not_intro hstep), if_pos hdie]
  rfl

variable (hdie : s.dev.boot.die < 8)
include hdie

theorem exec_cdVerifyRelease_absent (h : s.dev.part.hasDie s.dev.boot.die = false ∨ s.dev.boot.cdfail.getLsbD s.dev.boot.die = true) :
    exec .cdVerifyRelease s = .next (onBoot (fun b => { b with die := s.dev.boot.die + 1 }) s) := by
  have habsent : (!s.dev.part.hasDie s.dev.boot.die || bitAt s.dev.boot.cdfail s.dev.boot.die) = true := by
    simpa [bitAt] using h
  show execCdVerifyRelease s = _
  rw [execCdVerifyRelease, if_neg (not_not_intro hstep), if_neg (Nat.not_le.2 hdie)]
  exact if_pos habsent

variable (hhas : s.dev.part.hasDie s.dev.boot.die = true) (hgood : s.dev.boot.cdfail.getLsbD s.dev.boot.die = false)
include hhas hgood

theorem exec_cdVerifyRelease_checks : exec .cdVerifyRelease s =
    let r := (s.dev.modBoot fun b => { b with die := s.dev.boot.die + 1 }).verify
    if r.1 then .next { s with dev := r.2.releaseCd s.dev.boot.die }
    else .next { s with dev := r.2.modBoot fun b => { b with cdfail := b.cdfail ||| BitVec.ofNat 8 (2 ^ s.dev.boot.die) } } := by
  have hpresent : ¬ (!s.dev.part.hasDie s.dev.boot.die || bitAt s.dev.boot.cdfail s.dev.boot.die) = true := by
    simp [bitAt, hhas, hgood]
  show execCdVerifyRelease s = _
  rw [execCdVerifyRelease, if_neg (not_not_intro hstep), if_neg (Nat.not_le.2 hdie)]
  exact if_neg hpresent

theorem exec_cdVerifyRelease_fails (hok : Config.verifies s.dev.boot.checks = false) : exec .cdVerifyRelease s =
    .next (onBoot (fun b => { b with cdfail := b.cdfail ||| BitVec.ofNat 8 (2 ^ s.dev.boot.die) }) (checked (onBoot (fun b => { b with die := s.dev.boot.die + 1 }) s))) :=
  (exec_cdVerifyRelease_checks hstep hdie hhas hgood).trans (if_neg (ne_true_of_eq_false hok))

theorem exec_cdVerifyRelease_releases (hok : Config.verifies s.dev.boot.checks = true) : exec .cdVerifyRelease s = .next
    (let u := onBoot (fun b => { b with cdrel := b.cdrel ||| BitVec.ofNat 8 (2 ^ s.dev.boot.die) }) (checked (onBoot (fun b => { b with die := s.dev.boot.die + 1 }) s))
     { u with dev := { u.dev with diepres := u.dev.diepres ||| BitVec.ofNat 10 (2 ^ s.dev.boot.die)
                                  blkpres := u.dev.blkpres.put s.dev.boot.die (presentBlocks s.dev.boot.die)
                                  relClock := u.dev.relClock.put s.dev.boot.die s.dev.now } }) :=
  (exec_cdVerifyRelease_checks hstep hdie hhas hgood).trans (if_pos hok)

end

theorem setHbmKey_eq (d : Dev) (slot key : Nat) : d.setHbmKey slot (some key) = { d with
    keySlots := ((List.range 8).filter fun die => bitAt d.diepres die).foldl (fun t die => t.put (64 * die + slot) key) d.keySlots } :=
  keySlots_fold (fun t n => t.put n key) slot _ (fun _ _ => rfl) _ d

theorem exec_bootKeyGen (h : s.dev.boot.step = 4) : exec .bootKeyGen s = .next (onBoot (fun b => { b with step := 5, keys := true })
    (onPlacer (fun p => { p with saves := [] }) (onHost (fun h => { h with nextKey := h.nextKey + 1 }) { s with dev := { s.dev with
      keySlots := ((List.range 8).filter fun die => s.dev.diepres.getLsbD die).foldl (fun t die => t.put (64 * die + 0) s.dev.host.nextKey) s.dev.keySlots } }))) := by
  show execBootKeyGen s = _
  rw [execBootKeyGen, if_neg (not_not_intro h)]
  simp only [setHbmKey_eq]
  rfl

/-! ### Recovery (R481) -/

theorem exec_recoveryImageWrite_ignored {port : Nat} (image : List Byte) (h : s.dev.boot.recov = false ∨ port ≠ 0) :
    exec (.recoveryImageWrite port image) s = .next s := by
  have hno : (!s.dev.boot.recov || port != 0) = true := by simpa using h
  show execRecoveryImageWrite port image s = _
  rw [execRecoveryImageWrite, if_pos hno]

theorem exec_recoveryImageWrite (image : List Byte) (h : s.dev.boot.recov = true) : exec (.recoveryImageWrite 0 image) s =
    .next (if Config.verifies s.dev.boot.checks then { checked s with dev := (checked s).dev.fullReset image } else checked s) := by
  have hyes : ¬ (!s.dev.boot.recov || 0 != 0) = true := by simp [h]
  show execRecoveryImageWrite 0 image s = _
  delta execRecoveryImageWrite Dev.verify
  rw [if_neg hyes]
  cases Config.verifies s.dev.boot.checks <;> rfl

/-! ### SPDM sessions (R453, R483) -/

/-- The responder answers a request (R483). -/
def spdmAnswered (q : SpdmReq) (u : State) (measured : List Nat) : State :=
  drawn (replied (.spdm (Config.spdmReply u.dev.free (spdmCode q :: measured))) u)

theorem exec_spdmMessage (q : SpdmReq) : exec (.spdmMessage q) s = .next (spdmAnswered q { s with dev := s.dev.spdmEffect q } s.dev.measured13) := rfl

/-- A key that an established session takes is held for it (R453). -/
theorem spdmEffect_sealedKey {sid key : Nat} (h : s.dev.host.sessions.find sid = some (true, none)) :
    (s.dev.spdmEffect (.sealedKey sid key)).host.sessions.find sid = some (true, some key) := by
  show (s.dev.host.sessions.upd sid fun x => if x.1 then (true, some key) else x).find sid = _
  rw [Tbl.find_upd_self, h]
  rfl

/-! ### Interfaces and links (R453, R474) -/

theorem tdst_eq (s : State) {port fn : Nat} (h : fn ≠ 0) : tdst (s.dev.fncfgOf port fn) = ((s.dev.host.fncfg.find (64 * port + fn)).getD 0).toNat / 2 ^ 10 % 4 := by
  rw [Dev.fncfgOf, if_neg h]
  rfl

section
variable {port fn : Nat} (hport : port < 2) (hpos : 0 < fn) (hfn : fn < 64)
include hport hpos hfn

theorem tdisp_applies : ¬ (fn = 0 ∨ 64 ≤ fn ∨ 2 ≤ port) := by omega

theorem exec_tdispStopInterface : exec (.tdispStopInterface port fn) s = .next (tdstSet port fn 0 s) := by
  show execTdispStopInterface port fn s = _
  rw [execTdispStopInterface, if_neg (tdisp_applies hport hpos hfn)]
  rfl

theorem exec_tdispInterfaceRequest_lock :
    exec (.tdispInterfaceRequest port fn false) s = .next (if tdst (s.dev.fncfgOf port fn) = 0 then tdstSet port fn 1 s else s) := by
  show execTdispInterfaceRequest port fn false s = _
  rw [execTdispInterfaceRequest, if_neg (tdisp_applies hport hpos hfn)]
  simp only [Bool.not_false, Bool.true_and, Bool.false_and, beq_iff_eq, Bool.false_eq_true, if_false]
  split <;> rfl

theorem exec_tdispInterfaceRequest_run :
    exec (.tdispInterfaceRequest port fn true) s = .next (if tdst (s.dev.fncfgOf port fn) = 1 then tdstSet port fn 2 s else s) := by
  show execTdispInterfaceRequest port fn true s = _
  rw [execTdispInterfaceRequest, if_neg (tdisp_applies hport hpos hfn)]
  simp only [Bool.not_true, Bool.true_and, Bool.false_and, beq_iff_eq, Bool.false_eq_true, if_false]
  split <;> rfl

end

/-! ### The governor (R436, R437, R488, R489) -/

/-- The balance of entry `i` after the window (R436). -/
def windowBalance (u : State) (g i : Nat) (b : Int) : Int :=
  match u.dev.sch.eallow.find i with
  | some a => if a = 0xFFFFFFFF then b else refreshed g a.toNat b
  | none => b

/-- The balances of all 64 entries after the window. -/
def windowBalances (u : State) (g : Nat) : Tbl Int :=
  (List.range 64).foldl (fun t i => t.set 0 i (windowBalance u g i (u.dev.sch.ebal.get 0 i))) []

theorem windowBalances_get (u : State) (g : Nat) {i : Nat} (hi : i < 64) :
    (windowBalances u g).get 0 i = windowBalance u g i (u.dev.sch.ebal.get 0 i) :=
  ebal_fold (windowBalance u g) u.dev.sch.ebal i 64 hi

/-- The energy of the package in the window that ends now (R488). -/
def windowEnergy (u : State) : Nat := Config.packageEnergy u.dev.now - Config.packageEnergy (u.dev.now - 1500000)

theorem exec_energyWindowEnd : exec .energyWindowEnd s = .next (let u := debited s
    let g := nextScale u.dev.sch.gscale u.dev.sch.pwrlim (windowEnergy u)
    onSched (fun x => { x with gscale := g, pmw := windowEnergy u / 10 ^ 8, winAt := u.dev.now + 1500000, ebal := windowBalances u g }) u) := rfl

theorem exec_fastLimiterSample : exec .fastLimiterSample s = .next (let e := Config.packageEnergy s.dev.now - Config.packageEnergy (s.dev.now - 150000)
    onSched (fun x => { x with fast := nextFast s.dev.sch.fast s.dev.sch.pwrlim e, fastAt := s.dev.now + 150000 }) s) := rfl

end

end Sys2Proof.Laws

namespace Sys2Proof.Proofs

open Sys2Proof.Machine Sys2Proof.Claims Sys2Proof.Laws

/-- Settles O48: an equation for each step of the sequence and for each event of links, interfaces, sessions and the governor. -/
theorem bootSteps : Obligations.BootSteps := by
  intro s ok
  refine ⟨exec_powerOn_begun, exec_powerOn, exec_iodVerifyRelease_verified, exec_iodVerifyRelease_recovers, fun hstep => ?links, fun hstep => ?dies, exec_bootKeyGen,
    fun port image => ⟨exec_recoveryImageWrite_ignored image, fun hrecov hok => ?unverified, fun hrecov hok => ?recovered⟩, fun q => ?sessions,
    fun port fn hport hpos hfn => ?interfaces, fun port => ⟨rfl, rfl, rfl, rfl⟩, ?window, exec_fastLimiterSample⟩
  case links =>
    refine ⟨trainedLinks s.dev.part, dieMask (lostDies s.dev.part), exec_ucieTraining hstep, fun x => trainedLinks_subset, fun die hdie => ?_⟩
    rw [dieMask_getLsbD (fun x hx => (mem_lostDies.1 hx).1) hdie, mem_lostDies, and_iff_right hdie]
  case dies =>
    exact ⟨exec_cdVerifyRelease_last hstep, exec_cdVerifyRelease_absent hstep, fun hdie hhas hgood =>
      ⟨exec_cdVerifyRelease_fails hstep hdie hhas hgood, fun hok => ⟨_, exec_cdVerifyRelease_releases hstep hdie hhas hgood hok⟩⟩⟩
  case unverified => rw [exec_recoveryImageWrite image hrecov, if_neg (ne_true_of_eq_false hok)]
  case recovered =>
    rw [exec_recoveryImageWrite image hrecov, if_pos hok]
    exact ⟨_, rfl, rfl, rfl, rfl, rfl, rfl, rfl, rfl, rfl⟩
  case sessions =>
    refine ⟨?_, ?_, ?_, ?_, ?_⟩
    · rintro sid rfl; rfl
    · rintro sid rfl; rfl
    · rintro sid rfl; rfl
    · rintro sid key rfl hsid
      exact ⟨_, exec_spdmMessage _, spdmEffect_sealedKey hsid⟩
    · rintro (rfl | rfl | rfl | rfl | rfl | rfl | rfl) <;> rfl
  case interfaces =>
    rw [exec_tdispStopInterface hport hpos hfn, exec_tdispInterfaceRequest_lock hport hpos hfn, exec_tdispInterfaceRequest_run hport hpos hfn,
      tdst_eq s (Nat.ne_of_gt hpos)]
    exact ⟨rfl, rfl, rfl⟩
  case window =>
    exact ⟨_, exec_energyWindowEnd, fun i hi => windowBalances_get _ _ hi⟩

end Sys2Proof.Proofs

/-! ## Port adapters (R394 to R399) -/

namespace Sys2Proof.Laws

open Sys2Proof.Machine Sys2Proof.Claims

/-! ### What an adapter may do, in the terms of the statements -/

/-- Every replica has applied the stores before number `n` (R77, R78). -/
theorem unapplied_eq_false {d : Dev} {n : Nat} : d.unapplied n = false ↔ ∀ e ∈ d.replicas, ∀ x ∈ e.2, n ≤ x.1 := by
  simp [Dev.unapplied]

theorem unapplied_eq_true {d : Dev} {n : Nat} : d.unapplied n = true ↔ ∃ e ∈ d.replicas, ∃ x ∈ e.2, x.1 < n := by
  simp [Dev.unapplied]

/-- The oldest token of a ring has been accepted, and every replica has applied what was stored before. -/
def Accepted (s : State) (g : Ring) : Prop := ∃ t n rest, g.acks = (t, n) :: rest ∧ t ≤ s.dev.now ∧ ∀ e ∈ s.dev.replicas, ∀ x ∈ e.2, n ≤ x.1

theorem canAck_iff (s : State) (g : Ring) : s.dev.canAck g = true ↔ Accepted s g := by
  delta Dev.canAck Accepted
  cases g.acks with
  | nil => simp
  | cons e rest =>
    simp only [Bool.and_eq_true, decide_eq_true_eq, Bool.not_eq_true', unapplied_eq_false]
    exact ⟨fun h => ⟨_, _, rest, rfl, h⟩, by rintro ⟨_, _, _, ⟨⟩, h⟩; exact h⟩

theorem portTakes_iff (d : Dev) (k : Cast) (p : Port) : k.portTakes d p = true ↔ k.frozen = false ∧ k.served p.site = true ∧ p.isOut = false ∧
    p.paused = false ∧ p.q = [] ∧ k.th.mode ≠ .halted ∧ k.inPortRoutes d p.ctx p.phase p ≠ [] ∧ k.portMaySend d p = true := by
  simp only [Cast.portTakes, Bool.and_eq_true, Bool.not_eq_true', bne_iff_ne, List.isEmpty_iff, List.isEmpty_eq_false_iff]
  tauto

theorem takesToken_iff {s : State} {c ix : Nat} {k : Cast} {p : Port} :
    TakesToken s c ix k p ↔ s.dev.casts.find c = some k ∧ k.ports[ix]? = some p ∧ k.portTakes s.dev p = true := by
  rw [portTakes_iff]
  rfl

/-! ### Changes of ports and rings -/

theorem onRing_onRing (c ix : Nat) (f g : Ring → Ring) (s : State) : onRing c ix f (onRing c ix g s) = onRing c ix (fun r => f (g r)) s := by
  delta onRing onPort
  simp only [onCast_onCast, List.modify_modify_eq]
  congr 1
  funext k
  congr 2
  funext p
  cases hbind : p.bind <;> simp [hbind]

/-- A cast's progress and its rings change independently. -/
theorem onRing_progress (c ix : Nat) (f : Ring → Ring) (s : State) : onCast c (fun k => { k with progress := true }) (onRing c ix f s) =
    onRing c ix f (onCast c (fun k => { k with progress := true }) s) := by
  delta onRing onPort
  rw [onCast_onCast, onCast_onCast]

theorem sendAll_replNo (c extra : Nat) (t : Token) (rs : List Route) (d : Dev) : (d.sendAll c extra t rs).replNo = d.replNo := by
  induction rs generalizing d with
  | nil => rfl
  | cons r rs ih => exact ih _

theorem portSend_replNo (d : Dev) (c ix : Nat) (p : Port) (t : Token) : (d.portSend c ix p t).replNo = d.replNo := by
  unfold Dev.portSend
  split
  · rfl
  · exact sendAll_replNo ..

section
variable {s : State} {c ix : Nat} {k : Cast} {p : Port} {g : Ring}

/-! ### Indexes (R396, R397, R399) -/

theorem writeIndex_written {off : Nat} {t : State}
    (hrun : s.writeRun (k.adapterVia p) k.tenant (.adapter c ix) (g.desc + BitVec.ofNat 64 off) (leBytes 8 (nextIx g.own)) = (t, none)) :
    indexWritten c ix k p g off s = onRing c ix (fun r => { r with own := nextIx r.own, acks := r.acks.tail, owe := none }) t := by
  delta indexWritten
  rw [State.writeIndex, hrun]
  rfl

theorem writeIndex_faults {off : Nat} {t : State} {x : Word} {f : XFault}
    (hrun : s.writeRun (k.adapterVia p) k.tenant (.adapter c ix) (g.desc + BitVec.ofNat 64 off) (leBytes 8 (nextIx g.own)) = (t, some (x, f))) :
    indexWritten c ix k p g off s = adapterStops c ix k x f true false t := by
  delta indexWritten
  rw [State.writeIndex, hrun]
  rfl

/-- An index is read again, at an offset of the descriptor. -/
theorem readIndex_read {off : Nat} {f : Nat → Ring → Ring} {bs : List Byte} {d : Dev}
    (hrun : Dev.readRun s.mem s.dev (k.adapterVia p) k.tenant (g.desc + BitVec.ofNat 64 off) 8 (.adapter c ix) = (.ok bs, d)) :
    s.readIndex c ix k p g off f = onRing c ix (f (leNat bs)) { s with dev := d } := by
  rw [State.readIndex, hrun]
  rfl

theorem readIndex_faults {off : Nat} {f : Nat → Ring → Ring} {va : Word} {x : XFault} {d : Dev}
    (hrun : Dev.readRun s.mem s.dev (k.adapterVia p) k.tenant (g.desc + BitVec.ofNat 64 off) 8 (.adapter c ix) = (.error (va, x), d)) :
    s.readIndex c ix k p g off f = adapterStops c ix k va x false false { s with dev := d } := by
  rw [State.readIndex, hrun]
  rfl

/-! ### Rings into a cast (R396) -/

section
variable (hserves : ServesRing s c ix k p g)
include hserves

section
variable (hin : p.isOut = false)
include hin

theorem canDeliver_iff : s.dev.canDeliver c ix = true ↔ Accepted s g ∨ k.canTake s.dev p g = true := by
  obtain ⟨-, -, -, -, hfrozen, hserved⟩ := id hserves
  rw [← canAck_iff]
  simp [Dev.canDeliver, ringAt_of hserves, hin, hfrozen, hserved]

theorem exec_inRingDeliver_head (h : Accepted s g) : exec (.inRingDeliver c ix) s = .next (indexWritten c ix k p g 16 s) := by
  show execInRingDeliver c ix s = _
  rw [execInRingDeliver, ringAt_of hserves]
  simp only [(canDeliver_iff hserves hin).2 (.inl h), (canAck_iff s g).2 h, Bool.not_true, Bool.false_eq_true,
    if_false, if_true]
  rfl

section
variable (hack : ¬ Accepted s g) (hlast : g.nextRead ≠ g.last) (hroom : g.acks.length < 16)
include hack hlast hroom

theorem exec_inRingDeliver_skip (hskip : g.skip = true) : exec (.inRingDeliver c ix) s = .next
    (onRing c ix (fun g => { g with skip := false, acks := g.acks ++ [(s.dev.now, s.dev.replNo)] }) s) := by
  obtain ⟨-, -, -, -, hfrozen, hserved⟩ := id hserves
  have htake : k.canTake s.dev p g = true := by delta Cast.canTake; simp [hlast, hroom, hskip, hin, hfrozen, hserved]
  have hack' : s.dev.canAck g = false := by rw [← Bool.not_eq_true, canAck_iff]; exact hack
  show execInRingDeliver c ix s = _
  rw [execInRingDeliver, ringAt_of hserves]
  simp only [(canDeliver_iff hserves hin).2 (.inr htake), hack', hskip, Bool.not_true, Bool.false_eq_true,
    if_false, if_true]
  exact congrArg _ (onRing_onRing c ix _ _ s)

variable (hskip : g.skip = false) (htakes : TakesToken s c ix k p)
include hskip htakes

theorem canDeliver_next : s.dev.canDeliver c ix = true ∧ s.dev.canAck g = false := by
  obtain ⟨-, -, htake⟩ := takesToken_iff.1 htakes
  have htake : k.canTake s.dev p g = true := by delta Cast.canTake; simp [hlast, hroom, hskip, htake]
  exact ⟨(canDeliver_iff hserves hin).2 (.inr htake), by rw [← Bool.not_eq_true, canAck_iff]; exact hack⟩

/-- The entry is delivered as a token, and HEAD is to pass it when it has been accepted. -/
theorem exec_inRingDeliver_delivers {bs : List Byte} {d : Dev}
    (hrun : Dev.readRun s.mem s.dev (k.adapterVia p) k.tenant (g.entryVa p.wide g.nextRead) (entrySizeOf p.wide) (.adapter c ix) = (.ok bs, d)) :
    exec (.inRingDeliver c ix) s = .next (onRing c ix (fun g => { g with acks := g.acks ++ [(d.now + k.portClocks d p, d.replNo)] })
      (portSent c ix p (ringToken p.wide bs) { s with dev := d })) := by
  obtain ⟨hcan, hack'⟩ := canDeliver_next hserves hin hack hlast hroom hskip htakes
  show execInRingDeliver c ix s = _
  simp only [execInRingDeliver, ringAt_of hserves, hcan, hack', hskip, hrun, Bool.not_true, Bool.false_eq_true, if_false]
  show Host.Outcome.next (onCast c (fun k => { k with progress := true })
    (onRing c ix (fun g => { g with acks := g.acks ++ [(d.now + k.portClocks d p, (d.portSend c ix p (ringToken p.wide bs)).replNo)] })
      { s with dev := d.portSend c ix p (ringToken p.wide bs) })) = _
  rw [onRing_progress, portSend_replNo]
  rfl

theorem exec_inRingDeliver_faults {va : Word} {f : XFault} {d : Dev}
    (hrun : Dev.readRun s.mem s.dev (k.adapterVia p) k.tenant (g.entryVa p.wide g.nextRead) (entrySizeOf p.wide) (.adapter c ix) = (.error (va, f), d)) :
    exec (.inRingDeliver c ix) s = .next (adapterStops c ix k va f false true { s with dev := d }) := by
  obtain ⟨hcan, hack'⟩ := canDeliver_next hserves hin hack hlast hroom hskip htakes
  show execInRingDeliver c ix s = _
  simp only [execInRingDeliver, ringAt_of hserves, hcan, hack', hskip, hrun, Bool.not_true, Bool.false_eq_true, if_false]
  rfl

end

theorem exec_inRingTailPoll (hpaused : p.paused = false) (hempty : g.own = g.last) (hpoll : g.poll ≤ s.dev.now) :
    exec (.inRingTailPoll c ix) s = .next (s.readIndex c ix k p g 24 fun v g => { g with last := v, poll := s.dev.now + 256 }) := by
  obtain ⟨-, -, -, -, hfrozen, hserved⟩ := id hserves
  have hcan : s.dev.canPollTail c ix = true := by simp [Dev.canPollTail, ringAt_of hserves, hin, hfrozen, hserved, hpaused, hempty, hpoll]
  show execInRingTailPoll c ix s = _
  simp only [execInRingTailPoll, ringAt_of hserves, hcan, if_true]

end

/-! ### Rings out of a cast (R397) -/

section
variable (hout : p.isOut = true)
include hout

theorem exec_outRingWrite_tail {n : Nat} (howe : g.owe = some n) (happlied : s.dev.unapplied n = false) :
    exec (.outRingWrite c ix) s = .next (indexWritten c ix k p g 24 s) := by
  obtain ⟨-, -, -, -, hfrozen, hserved⟩ := id hserves
  have hcan : s.dev.canWriteOut c ix = true := by delta Dev.canWriteOut; simp [ringAt_of hserves, hout, hfrozen, hserved, howe, happlied]
  show execOutRingWrite c ix s = _
  rw [execOutRingWrite, ringAt_of hserves]
  simp only [hcan, howe, Option.isSome_some, Bool.not_true, Bool.false_eq_true, if_false, if_true]
  rfl

section
variable (howe : g.owe = none) (habsorbs : p.absorbs = false)
include howe habsorbs

theorem exec_outRingWrite_skip (hq : p.q ≠ []) (hskip : g.skip = true) :
    exec (.outRingWrite c ix) s = .next (headTaken c ix (onRing c ix (fun g => { g with skip := false }) s)) := by
  obtain ⟨-, -, -, -, hfrozen, hserved⟩ := id hserves
  have hcan : s.dev.canWriteOut c ix = true := by delta Dev.canWriteOut; simp [ringAt_of hserves, hout, hfrozen, hserved, howe, habsorbs, hq, hskip]
  show execOutRingWrite c ix s = _
  rw [execOutRingWrite, ringAt_of hserves]
  simp only [hcan, howe, hskip, Option.isSome_none, Bool.not_true, Bool.false_eq_true, if_false, if_true]
  rfl

variable (hskip : g.skip = false) (hroom : ixDiff g.own g.last < g.cap) {tok : Token} {rest : List Token} (hq : p.q = tok :: rest) {t : State}
include hskip hroom hq

omit hskip in
theorem canWriteOut_token : s.dev.canWriteOut c ix = true := by
  obtain ⟨-, -, -, -, hfrozen, hserved⟩ := id hserves
  delta Dev.canWriteOut
  simp [ringAt_of hserves, hout, hfrozen, hserved, howe, habsorbs, hq, hroom]

theorem exec_outRingWrite_written
    (hrun : s.writeRun (k.adapterVia p) k.tenant (.adapter c ix) (g.entryVa p.wide g.own) (ringEntry tok) = (t, none)) :
    exec (.outRingWrite c ix) s = .next (headTaken c ix (onRing c ix (fun g => { g with owe := some t.dev.replNo }) t)) := by
  show execOutRingWrite c ix s = _
  simp only [execOutRingWrite, ringAt_of hserves, canWriteOut_token hserves hout howe habsorbs hroom hq, howe, hskip, hq, hrun, Option.isSome_none,
    Bool.not_true, Bool.false_eq_true, if_false]
  rfl

theorem exec_outRingWrite_faults {va : Word} {f : XFault}
    (hrun : s.writeRun (k.adapterVia p) k.tenant (.adapter c ix) (g.entryVa p.wide g.own) (ringEntry tok) = (t, some (va, f))) :
    exec (.outRingWrite c ix) s = .next (adapterStops c ix k va f true true t) := by
  show execOutRingWrite c ix s = _
  simp only [execOutRingWrite, ringAt_of hserves, canWriteOut_token hserves hout howe habsorbs hroom hq, howe, hskip, hq, hrun, Option.isSome_none,
    Bool.not_true, Bool.false_eq_true, if_false]
  rfl

end

theorem exec_outRingHeadPoll (howe : g.owe = none) (hfull : g.cap ≤ ixDiff g.own g.last) (hpoll : g.poll ≤ s.dev.now) :
    exec (.outRingHeadPoll c ix) s = .next (s.readIndex c ix k p g 16 fun v g => { g with last := v, poll := s.dev.now + 256 }) := by
  obtain ⟨-, -, -, -, hfrozen, hserved⟩ := id hserves
  have hcan : s.dev.canPollHead c ix = true := by simp [Dev.canPollHead, ringAt_of hserves, hout, hfrozen, hserved, howe, hfull, hpoll]
  show execOutRingHeadPoll c ix s = _
  simp only [execOutRingHeadPoll, ringAt_of hserves, hcan, if_true]

end

end

end

/-! ### Pairs of ports (R398) -/

theorem peerTakes_iff {d : Dev} {c ix : Nat} : d.peerTakes c ix = true ↔ ∃ j q, d.casts.find c = some j ∧ j.ports[ix]? = some q ∧ j.portTakes d q = true := by
  unfold Dev.peerTakes
  cases d.casts.find c with
  | none => simp
  | some j => cases hq : j.ports[ix]? <;> simp [hq]

section
variable {s : State} {c ix c' ix' : Nat} {k : Cast} {p : Port} {held : List Token} (hk : s.dev.casts.find c = some k) (hp : k.ports[ix]? = some p)
  (hbind : p.bind = .peer c' ix' true held) (hout : p.isOut = true)
include hk hp hbind hout

theorem peerAt_paired : s.dev.peerAt c ix = some (k, p, c', ix', held) := by
  simp [Dev.peerAt, hk, hp, hbind, hout]

theorem exec_castBindingTransfer_passes {j : Cast} {q : Port} {t : Token} {rest : List Token} (hheld : held = t :: rest) (htakes : TakesToken s c' ix' j q) :
    exec (.castBindingTransfer c ix) s = .next (portSent c' ix' q t (heldSet c ix rest s)) := by
  obtain ⟨hj, hq, htake⟩ := takesToken_iff.1 htakes
  have hpeer : s.dev.peerTakes c' ix' = true := peerTakes_iff.2 ⟨j, q, hj, hq, htake⟩
  have hat := peerAt_paired hk hp hbind hout
  subst hheld
  have hcan : s.dev.canTransfer c ix = true := by delta Dev.canTransfer; simp [hat, hpeer]
  show execCastBindingTransfer c ix s = _
  simp only [execCastBindingTransfer, hat, hcan, hpeer, hj, Option.bind_some, hq, Bool.not_true, Bool.false_eq_true, if_false, if_true]
  rfl

theorem exec_castBindingTransfer_takes {t : Token} {rest : List Token} (hq : p.q = t :: rest) (habsorbs : p.absorbs = false) (hfrozen : k.frozen = false)
    (hserved : k.served p.site = true) (hroom : held.length < 16) (hwaits : held = [] ∨ s.dev.peerTakes c' ix' = false) :
    exec (.castBindingTransfer c ix) s = .next (headTaken c ix (heldSet c ix (held ++ [t]) s)) := by
  have hat := peerAt_paired hk hp hbind hout
  have hcan : s.dev.canTransfer c ix = true := by delta Dev.canTransfer; simp [hat, hq, habsorbs, hfrozen, hserved, hroom]
  show execCastBindingTransfer c ix s = _
  simp only [execCastBindingTransfer, hat, hcan, hq, Bool.not_true, Bool.false_eq_true, if_false]
  cases held with
  | nil => rfl
  | cons x held =>
    simp only [hwaits.resolve_left (List.cons_ne_nil _ _), Bool.false_eq_true, if_false]
    rfl

end

end Sys2Proof.Laws

namespace Sys2Proof.Proofs

open Sys2Proof.Machine Sys2Proof.Claims Sys2Proof.Laws

/-- Settles O50: an equation for each act of an adapter; what it may do is `Accepted`, `TakesToken` and the room of its ring. -/
theorem adapterSteps : Obligations.AdapterSteps := by
  intro s c ix k p via next used size applied
  refine ⟨fun q g off t hserves => ⟨writeIndex_written, fun x f => writeIndex_faults⟩, fun g hserves hin => ?into, fun g hserves hout => ?out,
    fun c' ix' held hk hp hbind hout => ⟨fun j q t rest => exec_castBindingTransfer_passes hk hp hbind hout, fun t rest hq habsorbs hfrozen hserved hroom hwaits => ?takes⟩,
    fun t => rfl⟩
  case into =>
    refine ⟨exec_inRingDeliver_head hserves hin, exec_inRingDeliver_skip hserves hin, fun hack hlast hroom hskip htakes => ?_, fun hpaused hempty hpoll => ?_⟩
    · exact ⟨fun bs d => exec_inRingDeliver_delivers hserves hin hack hlast hroom hskip htakes,
        fun va f d => exec_inRingDeliver_faults hserves hin hack hlast hroom hskip htakes⟩
    · rw [exec_inRingTailPoll hserves hin hpaused hempty hpoll]
      exact ⟨fun bs d hrun => congrArg _ (readIndex_read hrun), fun va f d hrun => congrArg _ (readIndex_faults hrun)⟩
  case out =>
    refine ⟨fun n howe happlied => exec_outRingWrite_tail hserves hout howe (unapplied_eq_false.2 happlied),
      fun howe hq habsorbs hskip => exec_outRingWrite_skip hserves hout howe habsorbs hq hskip, fun howe habsorbs hskip hroom tok rest t hq => ?_,
      fun howe hfull hpoll => ?_⟩
    · exact ⟨exec_outRingWrite_written hserves hout howe habsorbs hskip hroom hq, fun va f => exec_outRingWrite_faults hserves hout howe habsorbs hskip hroom hq⟩
    · rw [exec_outRingHeadPoll hserves hout howe hfull hpoll]
      exact ⟨fun bs d hrun => congrArg _ (readIndex_read hrun), fun va f d hrun => congrArg _ (readIndex_faults hrun)⟩
  case takes =>
    refine exec_castBindingTransfer_takes hk hp hbind hout hq habsorbs hfrozen hserved hroom (hwaits.imp_right fun hno => ?_)
    rw [← Bool.not_eq_true, peerTakes_iff]
    exact fun ⟨j, q, hj, hq, htake⟩ => hno ⟨j, q, takesToken_iff.2 ⟨hj, hq, htake⟩⟩

end Sys2Proof.Proofs

/-! ## The dispatchers (R417 to R421, R426, R446 to R448) -/

namespace Sys2Proof.Laws

open Sys2Proof.Machine Sys2Proof.Claims

/-- Requests of this clock are still on their way to an engine (R426). -/
def EnRoute (s : State) : Prop := ∃ e ∈ s.dev.agenda, e.1 ≤ s.dev.now ∧ (seKey e.2).isSome = true

theorem enRoute_iff (s : State) : (s.dev.agenda.any fun e => decide (e.1 ≤ s.dev.now) && (seKey e.2).isSome) = true ↔ EnRoute s := by
  delta EnRoute
  simp

/-- The target of a direct task is a cast of its tenant that is not being removed (R419). -/
def OwnsTarget (d : Dev) (tenant : Nat) (t : Machine.Task) : Prop := ∃ k, d.casts.find t.target = some k ∧ k.tenant = tenant ∧ k.leaving = false

theorem ownsTarget_iff (d : Dev) (tenant : Nat) (t : Machine.Task) :
    ((d.casts.find t.target).map fun k => k.tenant == tenant && !k.leaving).getD false = true ↔ OwnsTarget d tenant t := by
  delta OwnsTarget
  cases d.casts.find t.target <;> simp

/-- The tenant's or the dispatcher's tasks are as many as they may be (R417, R445). -/
def Crowded (d : Dev) (tenant die : Nat) : Prop := field (d.schqOf tenant) 32 12 ≤ (d.sch.tasks.countP fun e => e.2.tenant == tenant) ∨
  4096 ≤ (d.sch.tasks.countP fun e => e.2.die == die)

theorem stage_or_direct {d : Dev} {tenant : Nat} {t : Machine.Task} (h : t.direct = false → d.sch.stages.find (65536 * tenant + t.stage) ≠ none) :
    ¬ ((!t.direct) = true ∧ (d.sch.stages.find (65536 * tenant + t.stage)).isNone = true) := by
  rintro ⟨hqueue, hnone⟩
  exact h (by simpa using hqueue) (Option.isNone_iff_eq_none.1 hnone)

theorem own_or_queued {d : Dev} {tenant : Nat} {t : Machine.Task} (h : t.direct = true → OwnsTarget d tenant t) :
    ¬ (t.direct = true ∧ (!((d.casts.find t.target).map fun k => k.tenant == tenant && !k.leaving).getD false) = true) := by
  rintro ⟨hdirect, hnot⟩
  rw [(ownsTarget_iff d tenant t).2 (h hdirect)] at hnot
  cases hnot

section
variable {src : PutSource} {tenant die : Nat} {s : State}

/-! ### A request at its dispatcher -/

theorem taskAnswered_replies {c pid r : Nat} (h : pid ≠ 0) : Replies s 200 c pid (BitVec.ofNat 64 r) 0 (taskAnswered (.thread c pid) r s) := by
  delta taskAnswered Dev.answerTask
  simp only [h, if_false]
  exact replyWithin_eq ..

theorem taskAnswered_silent {c r : Nat} : taskAnswered (.thread c 0) r s = s := by
  delta taskAnswered Dev.answerTask
  simp only [if_true]

theorem exec_dispatchTaskPut_follows (rq : TaskReq) (h : EnRoute s) :
    exec (.dispatchTaskPut src tenant die rq) s = .next (later 1 (.dispatchTaskPut src tenant die rq) s) := by
  show execDispatchTaskPut src tenant die rq s = _
  simp only [execDispatchTaskPut, (enRoute_iff s).2 h, if_true]
  rfl

section
variable (hidle : ¬ EnRoute s)
include hidle

theorem exec_dispatchTaskPut_put {addr : Word} {loc : Bool} {r : Nat} {d : Dev}
    (h : Dev.putTask s.mem s.dev src (dispatcherVia die) tenant die addr loc = (r, d)) :
    exec (.dispatchTaskPut src tenant die (.put addr loc)) s = .next (taskAnswered src r { s with dev := d }) := by
  show execDispatchTaskPut src tenant die (.put addr loc) s = _
  simp only [execDispatchTaskPut, mt (enRoute_iff s).1 hidle, h, Bool.false_eq_true, if_false]
  rfl

theorem exec_dispatchTaskPut_sdef {addr : Word} {r : Nat} {d : Dev} (h : Dev.defineStage s.mem s.dev (dispatcherVia die) tenant addr = (r, d)) :
    exec (.dispatchTaskPut src tenant die (.sdef addr)) s = .next (taskAnswered src r { s with dev := d }) := by
  show execDispatchTaskPut src tenant die (.sdef addr) s = _
  simp only [execDispatchTaskPut, mt (enRoute_iff s).1 hidle, h, Bool.false_eq_true, if_false]
  rfl

theorem exec_dispatchTaskPut_reg {c stage r : Nat} {d : Dev} (h : s.dev.register tenant c stage = (r, d)) :
    exec (.dispatchTaskPut src tenant die (.reg c stage)) s = .next (taskAnswered src r { s with dev := d }) := by
  show execDispatchTaskPut src tenant die (.reg c stage) s = _
  simp only [execDispatchTaskPut, mt (enRoute_iff s).1 hidle, h, Bool.false_eq_true, if_false]
  rfl

theorem exec_dispatchTaskPut_info {stage r : Nat} (h : s.dev.stageInfo tenant (srcCast src) stage = r) :
    exec (.dispatchTaskPut src tenant die (.info stage)) s = .next (taskAnswered src r s) := by
  show execDispatchTaskPut src tenant die (.info stage) s = _
  simp only [execDispatchTaskPut, mt (enRoute_iff s).1 hidle, h, Bool.false_eq_true, if_false]
  rfl

theorem exec_dispatchTaskPut_unreg {c : Nat} {k : Cast} (hk : s.dev.casts.find c = some k) (hten : k.tenant = tenant) :
    exec (.dispatchTaskPut src tenant die (.unreg c)) s = .next (taskAnswered src 0 (leftStage c s)) := by
  show execDispatchTaskPut src tenant die (.unreg c) s = _
  simp only [execDispatchTaskPut, mt (enRoute_iff s).1 hidle, hk, hten, Option.map_some, Option.getD_some, beq_self_eq_true, Bool.false_eq_true, if_false,
    if_true]
  rfl

theorem exec_dispatchTaskPut_unreg_none {c : Nat} (hk : s.dev.casts.find c = none) :
    exec (.dispatchTaskPut src tenant die (.unreg c)) s = .next (taskAnswered src 0 s) := by
  show execDispatchTaskPut src tenant die (.unreg c) s = _
  simp only [execDispatchTaskPut, mt (enRoute_iff s).1 hidle, hk, Option.map_none, Option.getD_none, Bool.false_eq_true, if_false]
  rfl

end

/-! ### TASK.PUT (R419, R420, R447) -/

section
variable {m : Memory} {d0 d : Dev} {v : Via} {addr : Word} {bs : List Byte}

theorem putTask_unread {loc : Bool} {e : Word × XFault} (h : Dev.readRun m d0 v tenant addr 128 = (.error e, d)) :
    Dev.putTask m d0 src v tenant die addr loc = (1, d) := by
  delta Dev.putTask
  simp only [h]

/-- No successor is named by an entry of zero. -/
theorem countersOk_zeros {x : Dev} : Dev.countersOk m v tenant [0, 0, 0, 0] x = (true, x) :=
  rfl

/-- What a task meets whose record passes its checks: its counters, and its acceptance. -/
def putCounters (m : Memory) (d : Dev) (src : PutSource) (v : Via) (tenant : Nat) (bs : List Byte) (t : Machine.Task) : Nat × Dev :=
  match Dev.countersOk m v tenant t.succ d with
  | (false, d) => (5, d)
  | (true, d) =>
    if BitVec.ofNat 64 (num bs 16 8) = 0 then (0, d.acceptTask src false t)
    else
      match Dev.counterAt m d v tenant (BitVec.ofNat 64 (num bs 16 8)) with
      | (none, d) => (5, d)
      | (some pa, d) => (0, d.acceptTask src false { t with dep := some pa })

section
variable {t : Machine.Task} (hsucc : t.succ = [0, 0, 0, 0])
include hsucc

theorem putCounters_independent (hdep : BitVec.ofNat 64 (num bs 16 8) = (0 : Word)) :
    putCounters m d src v tenant bs t = (0, d.acceptTask src false t) := by
  delta putCounters
  simp only [hsucc, countersOk_zeros, hdep, if_true]

theorem putCounters_dependent {d' : Dev} {pa : Nat} (hdep : BitVec.ofNat 64 (num bs 16 8) ≠ (0 : Word))
    (hcnt : Dev.counterAt m d v tenant (BitVec.ofNat 64 (num bs 16 8)) = (some pa, d')) :
    putCounters m d src v tenant bs t = (0, d'.acceptTask src false { t with dep := some pa }) := by
  delta putCounters
  simp only [hsucc, countersOk_zeros, hdep, hcnt, if_false]

theorem putCounters_none {d' : Dev} (hdep : BitVec.ofNat 64 (num bs 16 8) ≠ (0 : Word))
    (hcnt : Dev.counterAt m d v tenant (BitVec.ofNat 64 (num bs 16 8)) = (none, d')) : putCounters m d src v tenant bs t = (5, d') := by
  delta putCounters
  simp only [hsucc, countersOk_zeros, hdep, hcnt, if_false]

end

section
variable (hread : Dev.readRun m d0 v tenant addr 128 = (.ok bs, d)) {t : Machine.Task} (ht : t = taskOf tenant die addr bs) (hparm : t.parm = 0)
include hread ht hparm

/-- The checks of a record that has been read, in their order (R447). -/
theorem putTask_read : Dev.putTask m d0 src v tenant die addr false =
    if badRecord bs = true then (1, d)
    else if (!t.direct) = true ∧ (d.sch.stages.find (65536 * tenant + t.stage)).isNone = true then (2, d)
    else if t.direct = true ∧ (!((d.casts.find t.target).map fun k => k.tenant == tenant && !k.leaving).getD false) = true then (3, d)
    else if field (d.schqOf tenant) 32 12 ≤ (d.sch.tasks.countP fun e => e.2.tenant == tenant) ∨ 4096 ≤ (d.sch.tasks.countP fun e => e.2.die == die) then (4, d)
    else putCounters m d src v tenant bs t := by
  subst ht
  delta Dev.putTask
  simp only [hread, if_pos hparm, Bool.false_eq_true, false_and, Bool.not_true, or_false]
  rfl

theorem putTask_bad (hbad : badRecord bs = true) : Dev.putTask m d0 src v tenant die addr false = (1, d) := by
  rw [putTask_read hread ht hparm, if_pos hbad]

section
variable (hgood : badRecord bs = false)
include hgood

theorem putTask_noStage (hqueue : t.direct = false) (hstage : d.sch.stages.find (65536 * tenant + t.stage) = none) :
    Dev.putTask m d0 src v tenant die addr false = (2, d) := by
  rw [putTask_read hread ht hparm, if_neg (Bool.eq_false_iff.1 hgood), if_pos ⟨by rw [hqueue]; rfl, Option.isNone_iff_eq_none.2 hstage⟩]

theorem putTask_notOwn (hdirect : t.direct = true) (hown : ¬ OwnsTarget d tenant t) : Dev.putTask m d0 src v tenant die addr false = (3, d) := by
  rw [← ownsTarget_iff, Bool.not_eq_true] at hown
  rw [putTask_read hread ht hparm, if_neg (Bool.eq_false_iff.1 hgood), if_neg (by simp [hdirect]), if_pos ⟨hdirect, by rw [hown]; rfl⟩]

section
variable (hstage : t.direct = false → d.sch.stages.find (65536 * tenant + t.stage) ≠ none) (hown : t.direct = true → OwnsTarget d tenant t)
include hstage hown

theorem putTask_crowded (hfull : Crowded d tenant die) : Dev.putTask m d0 src v tenant die addr false = (4, d) := by
  delta Crowded at hfull
  rw [putTask_read hread ht hparm, if_neg (Bool.eq_false_iff.1 hgood), if_neg (stage_or_direct hstage), if_neg (own_or_queued hown), if_pos hfull]

theorem putTask_counters (hroom : ¬ Crowded d tenant die) : Dev.putTask m d0 src v tenant die addr false = putCounters m d src v tenant bs t := by
  delta Crowded at hroom
  rw [putTask_read hread ht hparm, if_neg (Bool.eq_false_iff.1 hgood), if_neg (stage_or_direct hstage), if_neg (own_or_queued hown), if_neg hroom]

end
end
end

/-! ### TASK.SDEF, TASK.REG, TASK.UNREG and TASK.INFO (R418, R448) -/

/-- The elastic stage of a record. -/
def elasticStage (b : List Byte) : Stage :=
  { elastic := true, aff := num b 3 1, high := num b 4 2, low := num b 6 2, minr := num b 8 1, maxr := num b 9 1, hold := num b 10 2
    img := BitVec.ofNat 64 (num b 16 8), bind := BitVec.ofNat 64 (num b 24 8) }

section
variable (hread : Dev.readRun m d0 v tenant addr 64 = (.ok bs, d)) (hid : num bs 0 2 ≠ 0)
  (hroom : d.sch.stages.find (65536 * tenant + num bs 0 2) ≠ none ∨ d.sch.stages.length < 1024)
include hread hid hroom

theorem defineStage_plain (hfl : num bs 2 1 = 0) (h3 : num bs 3 13 = 0) (h16 : num bs 16 16 = 0) (h12 : num bs 12 4 = 0) (h32 : num bs 32 32 = 0) :
    Dev.defineStage m d0 v tenant addr = (0, d.modSch fun x => { x with stages := x.stages.put (65536 * tenant + num bs 0 2) {} }) := by
  have hfits : d.sch.stages.find (65536 * tenant + num bs 0 2) = none → d.sch.stages.length < 1024 := fun hnew => hroom.resolve_left (absurd hnew)
  delta Dev.defineStage
  simpa [hread, hid, hfl, h3, h16, h12, h32] using hfits

theorem defineStage_elastic (hfl : num bs 2 1 = 1) (h12 : num bs 12 4 = 0) (h32 : num bs 32 32 = 0) (hlow : num bs 6 2 < num bs 4 2)
    (hmin : 1 ≤ num bs 8 1) (hle : num bs 8 1 ≤ num bs 9 1) (hmax : num bs 9 1 ≤ 64) (hhold : num bs 10 2 ≠ 0) :
    Dev.defineStage m d0 v tenant addr = (0, d.modSch fun x => { x with stages := x.stages.put (65536 * tenant + num bs 0 2) (elasticStage bs) }) := by
  have hfits : d.sch.stages.find (65536 * tenant + num bs 0 2) = none → d.sch.stages.length < 1024 := fun hnew => hroom.resolve_left (absurd hnew)
  have hminr : num bs 8 1 ≤ 64 := hle.trans hmax
  delta elasticStage
  delta Dev.defineStage
  simpa [hread, hid, hfl, h12, h32, Nat.not_le.2 hlow, hmin, hle, hmax, hminr, hhold] using hfits

end

section
variable {c stage : Nat}

theorem register_noStage (hstage : d.sch.stages.find (65536 * tenant + stage) = none) : d.register tenant c stage = (1, d) := by
  delta Dev.register
  simp only [hstage, Option.isNone_none, if_true]

theorem stageInfo_noStage (hstage : d.sch.stages.find (65536 * tenant + stage) = none) : d.stageInfo tenant c stage = 0 := by
  delta Dev.stageInfo
  simp only [hstage, Option.isNone_none, if_true]

section
variable (hstage : d.sch.stages.find (65536 * tenant + stage) ≠ none)
include hstage

theorem stageInfo_defined {k : Cast} (hk : d.casts.find c = some k) : d.stageInfo tenant c stage =
    min 65535 (d.readyOf tenant stage) + 2 ^ 16 * (d.replicasOf tenant stage).length + 2 ^ 23 * k.deque.length + 2 ^ 29 * k.variant := by
  delta Dev.stageInfo
  simp only [Option.isNone_iff_eq_none, hstage, hk, Option.map_some, Option.getD_some, if_false]

theorem register_noCast (hk : d.casts.find c = none) : d.register tenant c stage = (2, d) := by
  delta Dev.register
  simp only [Option.isNone_iff_eq_none, hstage, hk, if_false]

section
variable {k : Cast} (hk : d.casts.find c = some k) (hten : k.tenant = tenant) (hstays : k.leaving = false)
include hk hten hstays

theorem register_again (hin : k.stage = stage) : d.register tenant c stage = (0, d) := by
  delta Dev.register
  simp only [Option.isNone_iff_eq_none, hstage, hk, hten, hstays, hin, ne_eq, not_true_eq_false, Bool.false_eq_true, or_self, if_false,
    if_true]

section
variable (hother : k.stage ≠ stage)
include hother

theorem register_elsewhere (hin : k.stage ≠ 0) : d.register tenant c stage = (3, d) := by
  delta Dev.register
  simp only [Option.isNone_iff_eq_none, hstage, hk, hten, hstays, hother, hin, ne_eq, not_true_eq_false, not_false_eq_true,
    Bool.false_eq_true, or_self, if_false, if_true]

section
variable (hnone : k.stage = 0)
include hnone

theorem register_tooMany (hfull : 64 ≤ (d.replicasOf tenant stage).length) : d.register tenant c stage = (4, d) := by
  have hpos : 0 ≠ stage := hnone ▸ hother
  delta Dev.register
  simp only [Option.isNone_iff_eq_none, hstage, hk, hten, hstays, hpos, hnone, hfull, ne_eq, not_true_eq_false,
    Bool.false_eq_true, or_self, if_false, if_true]

theorem register_joins (hroom : (d.replicasOf tenant stage).length < 64) :
    d.register tenant c stage = (0, d.modCast c fun k => { k with stage := stage }) := by
  have hpos : 0 ≠ stage := hnone ▸ hother
  delta Dev.register
  simp only [Option.isNone_iff_eq_none, hstage, hk, hten, hstays, hpos, hnone, Nat.not_le.2 hroom, ne_eq, not_true_eq_false,
    Bool.false_eq_true, or_self, if_false]

end
end
end
end
end
end

theorem leftStage_none {c : Nat} {k : Cast} (hk : s.dev.casts.find c = some k) (hnone : k.stage = 0) : leftStage c s = s := by
  delta leftStage Dev.leaveStage
  simp only [hk, hnone, if_true]

theorem leftStage_idle {c : Nat} {k : Cast} (hk : s.dev.casts.find c = some k) (hin : k.stage ≠ 0) (hidle : k.deque = []) :
    leftStage c s = onCast c (fun k => { k with stage := 0, deque := [] }) s := by
  delta leftStage Dev.leaveStage
  simp only [hk, hin, hidle, List.foldl_nil, if_false]
  rfl

/-! ### Acceptance and the release of a counter (R421, R426) -/

section
variable {c pid : Nat} {t : Machine.Task} (hqueue : t.direct = false)
include hqueue

theorem accepted_ready (h : (∃ pa, t.dep = some pa ∧ s.dev.counterDone t.tenant pa = true) ∨ t.dep = none) : accepted (.thread c pid) false t s =
    onSched (fun x => { x with next := x.next + 1, tasks := x.tasks.put x.next (queued (readied s.dev.now t)) }) s := by
  have hnow : (t.dep.isNone || t.dep.any fun pa => s.dev.counterDone t.tenant pa) = true := by
    rcases h with ⟨pa, hdep, hdone⟩ | hdep <;> simp [*]
  have hqueue' : (t.ready s.dev.now).direct = false := hqueue
  delta accepted Dev.acceptTask queued
  simp only [hnow, hqueue', Bool.false_eq_true, false_and, if_false, if_true, ← readied_eq]
  rfl

theorem accepted_waits (hwait : ¬ ∃ pa, t.dep = some pa ∧ s.dev.counterDone t.tenant pa = true) (hdep : t.dep ≠ none) :
    accepted (.thread c pid) false t s = onSched (fun x => { x with next := x.next + 1, tasks := x.tasks.put x.next (queued t) }) s := by
  have hlater : (t.dep.isNone || t.dep.any fun pa => s.dev.counterDone t.tenant pa) = false := by
    cases h : t.dep with
    | none => exact absurd h hdep
    | some pa => simpa [h] using fun hdone => hwait ⟨pa, h, hdone⟩
  delta accepted Dev.acceptTask queued
  simp only [hlater, hqueue, Bool.false_eq_true, false_and, if_false]
  rfl

end

theorem readied_readied (now : Nat) (t : Machine.Task) : readied now (readied now t) = readied now t := rfl

theorem exec_taskReady (pa : Nat) : ∃ t, exec (.taskReady tenant pa) s = .next t ∧ t.mem = s.mem ∧ ∀ id x, s.dev.sch.tasks.find id = some x →
    (∀ e ∈ s.dev.sch.tasks, e.1 = id → e.2 = x) → t.dev.sch.tasks.find id =
      some (if x.st = .waiting ∧ x.tenant = tenant ∧ x.dep = some pa then readied s.dev.now x else x) := by
  refine ⟨_, rfl, rfl, fun id x hx huniq => ?_⟩
  have hmem : id ∈ (s.dev.sch.tasks.filter fun e => e.2.st == .waiting && e.2.tenant == tenant && e.2.dep == some pa).map Prod.fst ↔
      x.st = .waiting ∧ x.tenant = tenant ∧ x.dep = some pa := by
    simp only [List.mem_map, List.mem_filter, Bool.and_eq_true, beq_iff_eq]
    constructor
    · rintro ⟨e, ⟨he, hwait⟩, rfl⟩
      rw [← huniq e he rfl]
      tauto
    · exact fun h => ⟨(id, x), ⟨find_mem hx, by tauto⟩, rfl⟩
  simp only [packetComplete_fold_sch]
  rw [fold_now s.dev.now _ _ rfl]
  simp only [readied_eq]
  rw [modTask_fold _ (readied_readied s.dev.now), hx, Option.map_some, ← apply_ite some]
  simp only [hmem]

end

end Sys2Proof.Laws

namespace Sys2Proof.Proofs

open Sys2Proof.Machine Sys2Proof.Claims Sys2Proof.Laws

/-- Settles O51: TASK.PUT, TASK.SDEF and TASK.REG each answer what the lemma about their case says, once no request of the clock is on its way to an
engine; a task accepted with a released counter, and one readied by a counter's release, are `readied`. -/
theorem dispatcherSteps : Obligations.DispatcherSteps := by
  intro src tenant die s busy via ask
  refine ⟨fun rq h => exec_dispatchTaskPut_follows rq h, fun hidle addr loc e d h => exec_dispatchTaskPut_put hidle (putTask_unread h), ?_, ?_, ?_, ?_, ?_,
    fun pa => exec_taskReady pa⟩
  · rintro hidle addr bs d t dep hread ht rfl hparm
    refine ⟨fun hbad => exec_dispatchTaskPut_put hidle (putTask_bad hread ht hparm hbad), fun hgood => ?_⟩
    refine ⟨fun hqueue hstage => exec_dispatchTaskPut_put hidle (putTask_noStage hread ht hparm hgood hqueue hstage),
      fun hdirect hown => exec_dispatchTaskPut_put hidle (putTask_notOwn hread ht hparm hgood hdirect hown), fun hstage hown => ?_⟩
    refine ⟨fun hfull => exec_dispatchTaskPut_put hidle (putTask_crowded hread ht hparm hgood hstage hown hfull), fun hroom hsucc => ?_⟩
    have hput := putTask_counters (src := src) hread ht hparm hgood hstage hown hroom
    exact ⟨fun hdep => exec_dispatchTaskPut_put hidle (hput.trans (putCounters_independent hsucc hdep)),
      fun pa d' hdep hcnt => exec_dispatchTaskPut_put hidle (hput.trans (putCounters_dependent hsucc hdep hcnt)),
      fun d' hdep hcnt => exec_dispatchTaskPut_put hidle (hput.trans (putCounters_none hsucc hdep hcnt))⟩
  · rintro c pid t rfl hqueue
    exact ⟨accepted_ready hqueue, accepted_waits hqueue⟩
  · intro hidle addr bs d hread hid hroom
    exact ⟨fun hfl h3 h16 h12 h32 => exec_dispatchTaskPut_sdef hidle (defineStage_plain hread hid hroom hfl h3 h16 h12 h32),
      fun hfl h12 h32 hlow hmin hle hmax hhold => exec_dispatchTaskPut_sdef hidle (defineStage_elastic hread hid hroom hfl h12 h32 hlow hmin hle hmax hhold)⟩
  · intro hidle c stage defined
    refine ⟨fun hnone => ?_, fun hstage hk => exec_dispatchTaskPut_reg hidle (register_noCast hstage hk), fun k hstage hk hten hstays => ?_,
      fun k hk hten => ⟨exec_dispatchTaskPut_unreg hidle hk hten, leftStage_none hk, leftStage_idle hk⟩, exec_dispatchTaskPut_unreg_none hidle, ?_⟩
    · have hstage := Decidable.not_not.1 hnone
      exact ⟨exec_dispatchTaskPut_reg hidle (register_noStage hstage), exec_dispatchTaskPut_info hidle (stageInfo_noStage hstage)⟩
    · exact ⟨fun hin => exec_dispatchTaskPut_reg hidle (register_again hstage hk hten hstays hin),
        fun hother hin => exec_dispatchTaskPut_reg hidle (register_elsewhere hstage hk hten hstays hother hin),
        fun hother hnone hfull => exec_dispatchTaskPut_reg hidle (register_tooMany hstage hk hten hstays hother hnone hfull),
        fun hother hnone hroom => exec_dispatchTaskPut_reg hidle (register_joins hstage hk hten hstays hother hnone hroom)⟩
    · rintro c pid k hstage rfl hk
      exact exec_dispatchTaskPut_info hidle (stageInfo_defined hstage hk)
  · exact fun c pid r => ⟨taskAnswered_replies, taskAnswered_silent⟩

end Sys2Proof.Proofs

/-! ## User queues: kicks, packets and the firmware's scheduler (R462 to R471) -/

namespace Sys2Proof.Laws

open Sys2Proof.Machine Sys2Proof.Claims

section
variable {s : State} {iod n qid : Nat}

/-! ### Kicks (R462, R467) -/

theorem modQueue_slots (d : Dev) (f : QueueEnt → QueueEnt) : (d.modQueue iod qid f).host.slots = d.host.slots := rfl

theorem overKicked_iff (x : SlotSt) (wrx : Nat) : x.overKicked wrx = true ↔ 2 ^ x.lsz < (wrx + 2 ^ 32 - x.rdx % 2 ^ 32) % 2 ^ 32 := decide_eq_true_iff

section
variable {fn : Nat} {v : Word}

theorem exec_doorbellKick_ignored
    (h : (s.dev.host.queues.get {} (1024 * iod + qid)).v = false ∨ (s.dev.host.queues.get {} (1024 * iod + qid)).tid ≠ s.dev.fnTenant iod fn) :
    exec (.doorbellKick iod fn qid v) s = .next s := by
  have h' : (!(s.dev.queue iod qid).v || (s.dev.queue iod qid).tid != s.dev.fnTenant iod fn) = true := by delta Dev.queue; simpa using h
  show execDoorbellKick iod fn qid v s = _
  simp only [execDoorbellKick, h', if_true]

/-- A queue's WRX. -/
def kicked (iod qid wrx : Nat) (s : State) : State := onQueue iod qid (fun q => { q with wrx := wrx }) s

section
variable (hv : (s.dev.host.queues.get {} (1024 * iod + qid)).v = true) (htid : (s.dev.host.queues.get {} (1024 * iod + qid)).tid = s.dev.fnTenant iod fn)
include hv htid

theorem kick_accepted : (!(s.dev.queue iod qid).v || (s.dev.queue iod qid).tid != s.dev.fnTenant iod fn) = false := by
  delta Dev.queue
  simp only [hv, htid, bne_self_eq_false, Bool.not_true, Bool.or_self]

section
variable {i : Nat} {x : SlotSt} (hslot : (s.dev.host.queues.get {} (1024 * iod + qid)).slot = some i) (hx : s.dev.host.slots.find (32 * iod + i) = some x)
include hslot hx

theorem exec_doorbellKick_mapped (h : ¬ 2 ^ x.lsz < (v.toNat % 2 ^ 32 + 2 ^ 32 - x.rdx % 2 ^ 32) % 2 ^ 32 ∨ x.err = true) :
    exec (.doorbellKick iod fn qid v) s = .next (kicked iod qid (v.toNat % 2 ^ 32) s) := by
  have hslot' : (s.dev.queue iod qid).slot = some i := hslot
  have hgoes : ¬ (x.overKicked (v.toNat % 2 ^ 32) = true ∧ (!x.err) = true) := by
    rw [overKicked_iff, Bool.not_eq_true']
    rintro ⟨hfar, herr⟩
    rcases h with h | h
    · exact h hfar
    · exact absurd herr (by simp [h])
  show execDoorbellKick iod fn qid v s = _
  simp only [execDoorbellKick, kick_accepted hv htid, hslot', Option.bind_some, modQueue_slots, hx, field_low, hgoes, Bool.false_eq_true, if_false]
  rfl

theorem exec_doorbellKick_tooFar (hfar : 2 ^ x.lsz < (v.toNat % 2 ^ 32 + 2 ^ 32 - x.rdx % 2 ^ 32) % 2 ^ 32) (herr : x.err = false) {q' : QueueEnt}
    (hq' : (kicked iod qid (v.toNat % 2 ^ 32) s).dev.host.queues.find (1024 * iod + qid) = some q') : exec (.doorbellKick iod fn qid v) s =
      .next (queueStopped iod qid x.rdx 4 0 x.packetVa q' (kicked iod qid (v.toNat % 2 ^ 32) s)) := by
  have hslot' : (s.dev.queue iod qid).slot = some i := hslot
  have hstops : x.overKicked (v.toNat % 2 ^ 32) = true := (overKicked_iff ..).2 hfar
  show execDoorbellKick iod fn qid v s = _
  rw [← stopQueue_eq _ _ _ _ _ _ _ _ hq']
  simp only [execDoorbellKick, kick_accepted hv htid, hslot', Option.bind_some, modQueue_slots, hx, field_low, hstops, herr, Bool.not_false, and_self,
    Bool.false_eq_true, if_false, if_true]
  rfl

end

section
variable (hslot : (s.dev.host.queues.get {} (1024 * iod + qid)).slot = none)
include hslot

theorem exec_doorbellKick_pending (hpend : (s.dev.host.queues.get {} (1024 * iod + qid)).pend = true) :
    exec (.doorbellKick iod fn qid v) s = .next (kicked iod qid (v.toNat % 2 ^ 32) s) := by
  have hslot' : (s.dev.queue iod qid).slot = none := hslot
  have hpend' : (s.dev.queue iod qid).pend = true := hpend
  show execDoorbellKick iod fn qid v s = _
  simp only [execDoorbellKick, kick_accepted hv htid, hslot', hpend', Option.bind_none, field_low, Bool.false_eq_true, if_false, if_true]
  rfl

theorem exec_doorbellKick_unmapped (hpend : (s.dev.host.queues.get {} (1024 * iod + qid)).pend = false) :
    exec (.doorbellKick iod fn qid v) s = .next (onHost (fun h => { h with wake := h.wake.set false iod true })
      (onQueue iod qid (fun q => { q with pend := true, pendAt := s.dev.now, waited := 0 }) (kicked iod qid (v.toNat % 2 ^ 32) s))) := by
  have hslot' : (s.dev.queue iod qid).slot = none := hslot
  have hpend' : (s.dev.queue iod qid).pend = false := hpend
  show execDoorbellKick iod fn qid v s = _
  simp only [execDoorbellKick, kick_accepted hv htid, hslot', hpend', Option.bind_none, field_low, Bool.false_eq_true, if_false]
  rfl

end
end
end

/-! ### A slot's next packet (R464, R465, R469) -/

section
variable {x : SlotSt} {q : QueueEnt} (hx : s.dev.host.slots.find (32 * iod + n) = some x) (hq : s.dev.host.queues.find (1024 * iod + x.qid) = some q)
include hx hq

theorem slotQueue_of : s.dev.slotQueue iod n = some (x, q) := by
  simp only [Dev.slotQueue, hx, hq, Option.bind_some, Option.map_some]

section
variable (herr : x.err = false) (hnone : x.pkt = none) (hmore : x.rdx ≠ q.wrx)
include herr hnone hmore

theorem canFetch_of : s.dev.canFetch iod n = true := by
  simp [Dev.canFetch, slotQueue_of hx hq, herr, hnone, hmore]

theorem exec_packetFetch_good {bs : List Byte} {d : Dev} (hrun : Dev.readRun s.mem s.dev slotVia x.tid x.packetVa 128 = (.ok bs, d))
    (hgood : badPacket bs = false) : exec (.packetFetch iod n) s = .next (onSlot iod n (fun x => { x with pkt := some bs }) { s with dev := d }) := by
  show execPacketFetch iod n s = _
  simp only [execPacketFetch, slotQueue_of hx hq, canFetch_of hx hq herr hnone hmore, hrun, hgood, Bool.not_true, Bool.false_eq_true, if_false]
  rfl

section
variable {d : Dev} {q' : QueueEnt} (hq' : d.host.queues.find (1024 * iod + x.qid) = some q')
include hq'

theorem exec_packetFetch_bad {bs : List Byte} (hrun : Dev.readRun s.mem s.dev slotVia x.tid x.packetVa 128 = (.ok bs, d)) (hbad : badPacket bs = true) :
    exec (.packetFetch iod n) s = .next (queueStopped iod x.qid x.rdx 1 0 x.packetVa q' { s with dev := d }) := by
  show execPacketFetch iod n s = _
  rw [← stopQueue_eq _ _ _ _ _ _ _ _ (by exact hq')]
  simp only [execPacketFetch, slotQueue_of hx hq, canFetch_of hx hq herr hnone hmore, hrun, hbad, Bool.not_true, Bool.false_eq_true, if_false, if_true]

theorem exec_packetFetch_unread {e : Word × XFault} (hrun : Dev.readRun s.mem s.dev slotVia x.tid x.packetVa 128 = (.error e, d)) :
    exec (.packetFetch iod n) s = .next (queueStopped iod x.qid x.rdx 1 0 x.packetVa q' { s with dev := d }) := by
  show execPacketFetch iod n s = _
  rw [← stopQueue_eq _ _ _ _ _ _ _ _ (by exact hq')]
  simp only [execPacketFetch, slotQueue_of hx hq, canFetch_of hx hq herr hnone hmore, hrun, Bool.not_true, Bool.false_eq_true, if_false]

end
end

/-! ### The issue of a packet (R465) -/

/-- A slot's packet in flight. -/
def inFlight (iod : Nat) (x : SlotSt) (bs : List Byte) : PktSt :=
  { iod := iod, qid := x.qid, index := x.rdx, tid := x.tid, addr := x.packetVa, arg := BitVec.ofNat 64 (num bs 16 8)
    signal := if (num bs 3 1).testBit 1 then some (BitVec.ofNat 64 (num bs 8 8)) else none }

/-- A packet leaves its slot, which waits a clock before the next one. -/
def slotIssues (iod n : Nat) (p : PktSt) (s : State) : State :=
  onHost (fun h => { h with packets := h.packets ++ [p], turn := h.turn.set 0 iod ((n + 1) % 32), issued := h.issued.set 0 iod (s.dev.now + 1) })
    (onQueue iod p.qid (fun q => { q with infl := q.infl + 1 }) (onSlot iod n (fun x => { x with rdx := (x.rdx + 1) % 2 ^ 32, pkt := none }) s))

theorem exec_packetIssue {bs : List Byte} (herr : x.err = false) (hpkt : x.pkt = some bs) (hturn : s.dev.host.issued.get 0 iod ≤ s.dev.now)
    (hinfl : q.infl < 16) (hfence : num bs 3 1 % 2 = 0 ∨ q.infl = 0) : exec (.packetIssue iod n) s =
      .next ((slotIssues iod n (inFlight iod x bs) s).issuePacket (inFlight iod x bs) x.qdie (num bs 2 1) (num bs 24 4)) := by
  have hcan : s.dev.canIssue iod n = true := by simp [Dev.canIssue, slotQueue_of hx hq, herr, hpkt, hturn, hinfl, hfence]
  show execPacketIssue iod n s = _
  simp only [execPacketIssue, slotQueue_of hx hq, hpkt, hcan, Bool.not_true, Bool.false_eq_true, if_false]
  rfl

end

theorem issuePacket_wait_done {p : PktSt} {qdie amt pa : Nat} {d : Dev} (h : Dev.counterAt s.mem s.dev slotVia p.tid p.arg = (some pa, d))
    (hdone : d.counterDone p.tid pa = true) : s.issuePacket p qdie 3 amt = later 0 (.packetComplete p.iod p.qid p.index) { s with dev := d } := by
  rw [State.issuePacket, h]
  simp only [hdone, if_true]
  rfl

theorem issuePacket_wait {p : PktSt} {qdie amt pa : Nat} {d : Dev} (h : Dev.counterAt s.mem s.dev slotVia p.tid p.arg = (some pa, d))
    (hwait : d.counterDone p.tid pa = false) : s.issuePacket p qdie 3 amt = onHost (fun h => { h with packets := h.packets.map fun y =>
      if y.iod = p.iod ∧ y.qid = p.qid ∧ y.index = p.index then { y with wait := some pa } else y }) { s with dev := d } := by
  rw [State.issuePacket, h]
  simp only [hwait, Bool.false_eq_true, if_false]
  rfl

/-! ### Release decrements, completion, the placer's answer (R78, R465, R469) -/

section
variable {tid : Nat} {va : Word} {amt : Nat}

/-- The decrement that a slot makes. -/
def slotCount (iod tid : Nat) (va : Word) (pa : Nat) : CntReq :=
  { source := .nobody, requester := 10496 + iod, tenant := tid, va := va, pa := pa, order := .rel, scope := .system }

section
variable {p : Placed} {d : Dev} (h : Dev.translate s.mem s.dev slotVia tid va .store = (.ok p, d))
include h

theorem slotReleases_now (hall : d.unapplied d.replNo = false) :
    slotReleases iod tid va amt s = later 0 (.seCntDec (slotCount iod tid va p.pa) (BitVec.ofNat 32 amt)) { s with dev := d } := by
  delta slotReleases State.slotDec Dev.countAfter
  simp only [h, hall, Bool.false_eq_true, if_false]
  rfl

theorem slotReleases_after (hwait : d.unapplied d.replNo = true) :
    slotReleases iod tid va amt s = withJobs [.count (slotCount iod tid va p.pa) (BitVec.ofNat 32 amt) d.replNo] { s with dev := d } := by
  delta slotReleases State.slotDec Dev.countAfter
  simp only [h, hwait, if_true]
  rfl

end

theorem slotReleases_untranslated {f : XFault} {d : Dev} (h : Dev.translate s.mem s.dev slotVia tid va .store = (.error f, d)) :
    slotReleases iod tid va amt s = { s with dev := d } := by
  delta slotReleases
  simp only [State.slotDec, h]

end

section
variable {ix : Nat} {p : PktSt} (hp : s.dev.packetAt iod qid ix = some p)
include hp

theorem exec_packetComplete (hsig : p.signal = none) : exec (.packetComplete iod qid ix) s = .next (idleNoted iod qid (packetGone iod qid ix s)) := by
  show execPacketComplete iod qid ix s = _
  simp only [execPacketComplete, hp, hsig]
  rfl

theorem exec_packetComplete_signal {va : Word} (hsig : p.signal = some va) :
    exec (.packetComplete iod qid ix) s = .next (slotReleases iod p.tid va 1 (idleNoted iod qid (packetGone iod qid ix s))) := by
  show execPacketComplete iod qid ix s = _
  simp only [execPacketComplete, hp, hsig]
  rfl

theorem exec_placerBusyRetry : exec (.placerBusyRetry iod qid ix) s = .next (slotAsks p s) := by
  show execPlacerBusyRetry iod qid ix s = _
  simp only [execPlacerBusyRetry, hp]
  rfl

end

section
variable {p : PktSt} {d : Dev}

theorem submitPacket_queued (h : Dev.submit s.mem s.dev (.packet p.iod p.qid p.index) p.tid (10496 + p.iod) p.arg = (0, d)) :
    s.submitPacket p = { s with dev := d } := by
  delta State.submitPacket
  rw [h]
  rfl

theorem submitPacket_busy (h : Dev.submit s.mem s.dev (.packet p.iod p.qid p.index) p.tid (10496 + p.iod) p.arg = (2, d)) :
    s.submitPacket p = later 1500 (.placerBusyRetry p.iod p.qid p.index) { s with dev := d } := by
  delta State.submitPacket
  rw [h]
  rfl

theorem submitPacket_refused (h : Dev.submit s.mem s.dev (.packet p.iod p.qid p.index) p.tid (10496 + p.iod) p.arg = (1, d)) {q : QueueEnt}
    (hq : d.host.queues.find (1024 * p.iod + p.qid) = some q) : s.submitPacket p =
      packetGone p.iod p.qid p.index (queueStopped p.iod p.qid p.index 3 0 p.addr q { s with dev := d }) := by
  rw [← stopQueue_eq _ _ _ _ _ _ _ _ (by exact hq)]
  delta State.submitPacket
  rw [h]
  rfl

end
end

end Sys2Proof.Laws

namespace Sys2Proof.Proofs

open Sys2Proof.Machine Sys2Proof.Claims Sys2Proof.Laws

/-- Settles O54: each clause is the lemma about its operation; a packet is issued by its type after it has left its slot. -/
theorem queueSteps : Obligations.QueueSteps := by
  intro s iod n qid
  refine ⟨fun fn v => ⟨exec_doorbellKick_ignored, fun hv htid => ?_⟩, fun x q hx hq => ⟨?_, ?_⟩, ?_, ?_, fun ix p => exec_placerBusyRetry, ?_, ?_⟩
  · exact ⟨fun i x hslot hx => ⟨exec_doorbellKick_mapped hv htid hslot hx, fun hfar herr q' => exec_doorbellKick_tooFar hv htid hslot hx hfar herr⟩,
      exec_doorbellKick_pending hv htid, exec_doorbellKick_unmapped hv htid⟩
  · intro herr hnone hmore
    exact ⟨fun bs d => exec_packetFetch_good hx hq herr hnone hmore, fun bs d hrun hbad q' hq' => exec_packetFetch_bad hx hq herr hnone hmore hq' hrun hbad,
      fun e d hrun q' hq' => exec_packetFetch_unread hx hq herr hnone hmore hq' hrun⟩
  · intro bs herr hpkt hturn hinfl hfence p t completes
    have hissue := exec_packetIssue hx hq herr hpkt hturn hinfl hfence
    refine ⟨fun htyp => ?_, fun htyp => ?_, fun htyp => ?_, fun htyp pa d hcnt => ⟨fun hdone => ?_, fun hwait => ?_⟩, fun htyp => ?_⟩ <;>
      rw [hissue, htyp]
    · rfl
    · rfl
    · rfl
    · exact congrArg _ (issuePacket_wait_done hcnt hdone)
    · exact congrArg _ (issuePacket_wait hcnt hwait)
    · rfl
  · exact fun tid va amt => ⟨fun p d h => ⟨slotReleases_now h, slotReleases_after h⟩, fun f d h => slotReleases_untranslated h⟩
  · exact fun ix p hp => ⟨exec_packetComplete hp, fun va => exec_packetComplete_signal hp⟩
  · rintro p r d h
    refine ⟨?_, ?_, ?_⟩
    · rintro rfl
      exact submitPacket_queued h
    · rintro rfl
      exact submitPacket_busy h
    · rintro rfl q hq
      exact submitPacket_refused h hq
  · intro asleep counted boundary
    cases boundary <;> rfl

end Sys2Proof.Proofs

/-! ## The I/O dies' ports (R450 to R459, R473) -/

namespace Sys2Proof.Laws

open Sys2Proof.Machine Sys2Proof.Claims

section
variable {s : State} {port : Nat} {q : Inbound}

/-! ### Arrival (R450, R451, R453) -/

section
variable {data : List Byte}

theorem exec_inboundPostedWrite {ok : Bool} {d : Dev} (h : s.dev.acceptInbound port q data.length = (ok, d)) :
    exec (.inboundPostedWrite port q data) s = .next { s with dev := if ok then d.arrive port { id := 0, q := q, data := data } else d } := by
  show execInboundPostedWrite port q data s = _
  simp only [execInboundPostedWrite, h]

theorem exec_inboundPostedWrite_refused (h : ¬ PassesGate s port q data.length) : exec (.inboundPostedWrite port q data) s = .next s := by
  rw [exec_inboundPostedWrite ((acceptInbound_eq ..).1 h)]
  rfl

theorem exec_inboundPostedWrite_insec (h : PassesGate s port q data.length) (hide : ¬ InStream s port q) :
    exec (.inboundPostedWrite port q data) s = .next (reported 0 [0x0D, BitVec.ofNat 64 (q.fn + 256 * port)] s) := by
  rw [exec_inboundPostedWrite ((acceptInbound_eq ..).2.1 h hide)]
  rfl

theorem exec_inboundPostedWrite_arrives (h : PassesGate s port q data.length) (hide : InStream s port q) :
    exec (.inboundPostedWrite port q data) s = .next (arrived port { id := 0, q := q, data := data } s) := by
  rw [exec_inboundPostedWrite ((acceptInbound_eq ..).2.2 h hide)]
  rfl

end

section
variable {len tag : Nat}

theorem exec_inboundRead_refused (h : ¬ PassesGate s port q len) : exec (.inboundRead port q len tag) s = .next (replied (.unsupported tag) s) := by
  show execInboundRead port q len tag s = _
  delta execInboundRead
  rw [(acceptInbound_eq ..).1 h]
  rfl

section
variable (h : PassesGate s port q len) (hide : InStream s port q)
include h hide

theorem exec_inboundRead_arrives (hbar : q.bar = 2) :
    exec (.inboundRead port q len tag) s = .next (arrived port { id := 0, q := q, read := some (len, tag) } s) := by
  show execInboundRead port q len tag s = _
  delta execInboundRead
  simp only [(acceptInbound_eq ..).2.2 h hide, hbar, Bool.not_true, Bool.false_eq_true, if_false, if_true]
  rfl

theorem exec_inboundRead_zeros (hbar : q.bar = 4) :
    exec (.inboundRead port q len tag) s = .next (replied (.data tag (List.replicate len 0)) s) := by
  show execInboundRead port q len tag s = _
  delta execInboundRead
  simp only [(acceptInbound_eq ..).2.2 h hide, hbar, Bool.not_true, Bool.false_eq_true, Nat.reduceEqDiff, if_false, if_true]
  rfl

theorem exec_inboundRead_register {r : DevReg} (hfile : inFile q = true) (hreg : Config.pf0Reg port (q.off - 2 ^ 22) = some r) :
    exec (.inboundRead port q len tag) s = .next (replied (.data tag (leBytes len (s.dev.readReg r).toNat)) s) := by
  have hbar : q.bar = 0 := by
    simp only [inFile, Bool.and_eq_true, beq_iff_eq] at hfile
    exact hfile.1.2
  show execInboundRead port q len tag s = _
  delta execInboundRead
  simp only [(acceptInbound_eq ..).2.2 h hide, hbar, hfile, hreg, Bool.not_true, Bool.false_eq_true, OfNat.zero_ne_ofNat, if_false, if_true]
  rfl

theorem exec_inboundRead_open (hbar : q.bar = 0) (hfile : inFile q = false) :
    exec (.inboundRead port q len tag) s = .next (replied (.data tag (leBytes len (Config.openNat s.dev.free))) (drawn s)) := by
  show execInboundRead port q len tag s = _
  delta execInboundRead
  simp only [(acceptInbound_eq ..).2.2 h hide, hbar, hfile, Bool.not_true, Bool.false_eq_true, OfNat.zero_ne_ofNat, if_false]
  rfl

end
end

section
variable {kind : AtomKind} {size : Size} {tag : Nat}

theorem exec_inboundAtomicop_arrives (h : PassesGate s port q (width size)) (hide : InStream s port q) (hbar : q.bar = 2) (hsize : 4 ≤ width size) :
    exec (.inboundAtomicop port q kind size tag) s = .next (arrived port { id := 0, q := q, atom := some (kind, size, tag) } s) := by
  rw [width_bytes] at h hsize
  show execInboundAtomicop port q kind size tag s = _
  delta execInboundAtomicop
  simp only [(acceptInbound_eq ..).2.2 h hide, hbar, Nat.not_lt.2 hsize, Bool.not_true, bne_self_eq_false, decide_false, Bool.or_self,
    Bool.false_eq_true, if_false]
  rfl

theorem exec_inboundAtomicop_refused (h : ¬ PassesGate s port q (width size)) :
    exec (.inboundAtomicop port q kind size tag) s = .next (replied (.unsupported tag) s) := by
  rw [width_bytes] at h
  show execInboundAtomicop port q kind size tag s = _
  delta execInboundAtomicop
  simp only [(acceptInbound_eq ..).1 h, Bool.not_false, Bool.true_or, if_true]
  rfl

end

/-! ### What the ordering point forwards (R454, R455) -/

section
variable {a : Arrival} (ha : s.forwardAt port = some a)
include ha

section
variable (hkind : a.isCommit = false)
include hkind

theorem exec_inboundWriteForward_mem (hbar : a.q.bar = 2) : exec (.inboundWriteForward port) s = .next (s.forwardMem port a) := by
  show execInboundWriteForward port s = _
  simp only [execInboundWriteForward, ha, hkind, hbar, Bool.false_eq_true, if_false, if_true]

theorem exec_inboundWriteForward_own (hbar : a.q.bar = 0) : exec (.inboundWriteForward port) s = .next (s.forwardOwn port a) := by
  show execInboundWriteForward port s = _
  simp only [execInboundWriteForward, ha, hkind, hbar, Bool.false_eq_true, OfNat.zero_ne_ofNat, if_false]

end
end

section
variable {a : Arrival}

/-- The parts of a request to BAR2, under its function's tenant. -/
def partsOf (s : State) (port : Nat) (a : Arrival) (acc : Access) (n : Nat) : Except (Word × XFault) (List InPart) × Dev :=
  Dev.partsAt s.mem s.dev (s.dev.fnTenant port a.q.fn) acc (s.dev.inboundVa port a.q) n

section
variable {d : Dev}

section
variable (hread : a.read = none) (hatom : a.atom = none)
include hread hatom

theorem forwardMem_write {ps : List InPart} (h : partsOf s port a .store a.data.length = (.ok ps, d)) : s.forwardMem port a =
    forwarded port a.id (s.dev.fnTenant port a.q.fn) (fun a => { a with gone := true }) a.data ps { s with dev := d } := by
  delta partsOf at h
  delta State.forwardMem Arrival.span
  simp only [hread, hatom, h]
  rfl

theorem forwardMem_write_faults {x : Word} {f : XFault} (h : partsOf s port a .store a.data.length = (.error (x, f), d)) :
    s.forwardMem port a = departed port a.id (reported (s.dev.fnTenant port a.q.fn)
      [0x0B, BitVec.ofNat 64 a.q.fn, x, f.syndrome .store 0 (s.dev.fnTenant port a.q.fn)] { s with dev := d }) := by
  delta partsOf at h
  delta State.forwardMem Arrival.span
  simp only [hread, hatom, h]
  rfl

end

section
variable {len tag : Nat} (hread : a.read = some (len, tag))
include hread

theorem forwardMem_read {p : InPart} (h : partsOf s port a .load len = (.ok [p], d)) {bs : List Byte} {d' : Dev}
    (hbytes : Dev.read s.mem d p.place.tid (p.place.readPa 0) p.len = (bs, d')) :
    s.forwardMem port a = replied (.data tag bs) (departed port a.id { s with dev := d' }) := by
  delta partsOf at h
  delta State.forwardMem Arrival.span
  simp only [hread, h, List.foldl_cons, List.foldl_nil, hbytes, List.nil_append]
  rfl

theorem forwardMem_read_faults {x : Word} {f : XFault} (h : partsOf s port a .load len = (.error (x, f), d)) :
    s.forwardMem port a = replied (.abort tag) (departed port a.id (reported (s.dev.fnTenant port a.q.fn)
      [0x0B, BitVec.ofNat 64 a.q.fn, x, f.syndrome .load 0 (s.dev.fnTenant port a.q.fn)] { s with dev := d })) := by
  delta partsOf at h
  delta State.forwardMem Arrival.span
  simp only [hread, h]
  rfl

end

theorem forwardMem_atomic {kind : AtomKind} {size : Size} {tag : Nat} {p : InPart} (hread : a.read = none) (hatom : a.atom = some (kind, size, tag))
    (h : partsOf s port a .store (width size) = (.ok [p], d)) (halign : (s.dev.inboundVa port a.q).toNat % width size = 0) :
    s.forwardMem port a = later 0 (.seAtomic
      { agent := .host port, requester := 10496 + port, tenant := s.dev.fnTenant port a.q.fn, pa := p.place.pa
        rpl := p.place.rpl, size := size, kind := kind, order := .ar, scope := .system, reply := .outside tag }) (departed port a.id { s with dev := d }) := by
  delta partsOf at h
  rw [width_bytes] at h halign
  delta State.forwardMem Arrival.span
  simp only [hread, hatom, h, halign, ne_eq, not_true_eq_false, if_false]
  rfl

end

theorem forwardOwn_doorbell (hbar : a.q.bar = 0) (hfile : inFile a.q = false) (hlen : a.data.length = 8) (hpage : a.q.off % 4096 + 8 ≤ 4096) :
    s.forwardOwn port a = later 0 (.doorbellKick port a.q.fn (a.q.off / 4096) (BitVec.ofNat 64 (leNat a.data))) (departed port a.id s) := by
  simp only [State.forwardOwn, hbar, hfile, hlen, hpage, and_self, Bool.false_eq_true, OfNat.zero_ne_ofNat, if_false, if_true]
  rfl

theorem forwardOwn_register {r : DevReg} (hbar : a.q.bar = 0) (hfile : inFile a.q = true) (hreg : Config.pf0Reg port (a.q.off - 2 ^ 22) = some r) :
    s.forwardOwn port a = State.regWrite (departed port a.id s) 0 r (BitVec.ofNat 64 (leNat a.data)) := by
  simp only [State.forwardOwn, hbar, hfile, hreg, OfNat.zero_ne_ofNat, if_false, if_true]
  rfl

end

/-! ### Sealed copy-in (R457 to R459) -/

theorem sealStatus_eq (d : Dev) (st : Nat) (e : SealSt) (ctr : Word) (status : Nat) :
    ({ s with dev := d.sealStatus port st e ctr status } : State) = sealedWith port st e ctr status { s with dev := d } := by
  unfold Dev.sealStatus sealedWith
  split <;> rfl

theorem sealStatus_departed (d : Dev) (st : Nat) (e : SealSt) (ctr : Word) (status id : Nat) :
    ({ s with dev := (d.sealStatus port st e ctr status).dropArrival port id } : State) =
      departed port id (sealedWith port st e ctr status { s with dev := d }) := by
  rw [← sealStatus_eq]
  rfl

section
variable {a : Arrival} {st : Nat} {e : SealSt} (ha : s.forwardAt port = some a) (hkind : a.isCommit = true)
  (hst : (a.q.off - 2 ^ 20) / 64 = st) (he : s.dev.host.ecs.get {} (16 * port + st) = e)
include ha hkind hst he

theorem exec_sealedCommit_foreign (h : e.v = false ∨ e.tid.toNat ≠ s.dev.fnTenant port a.q.fn) :
    exec (.sealedCommit port) s = .next (departed port a.id s) := by
  have h' : (!e.v || e.tid.toNat != s.dev.fnTenant port a.q.fn) = true := by simpa using h
  show execSealedCommit port s = _
  simp only [execSealedCommit, ha, hkind, hst, he, h', Bool.not_true, Bool.false_eq_true, if_false, if_true]
  rfl

section
variable (hv : e.v = true) (htid : e.tid.toNat = s.dev.fnTenant port a.q.fn)
include hv htid

theorem exec_sealedCommit_bad {status : Nat} (hbad : badCommit e a.q a.data = some status) : exec (.sealedCommit port) s =
    .next (departed port a.id (sealedWith port st e (BitVec.ofNat 64 (num a.data 0 8)) status s)) := by
  show execSealedCommit port s = _
  simp only [execSealedCommit, ha, hkind, hst, he, hv, htid, hbad, bne_self_eq_false, Bool.not_true, Bool.or_self, Bool.false_eq_true, if_false,
    sealStatus_departed]

section
variable (hgood : badCommit e a.q a.data = none)
include hgood

theorem exec_sealedCommit_tag (htag : s.dev.unseal port st e a.data = none) : exec (.sealedCommit port) s =
    .next (departed port a.id (sealedWith port st e (BitVec.ofNat 64 (num a.data 0 8)) 1 s)) := by
  show execSealedCommit port s = _
  simp only [execSealedCommit, ha, hkind, hst, he, hv, htid, hgood, htag, bne_self_eq_false, Bool.not_true, Bool.or_self, Bool.false_eq_true, if_false,
    sealStatus_departed]

section
variable {pt : List Byte} {d : Dev} (htag : s.dev.unseal port st e a.data = some pt)
include htag

theorem exec_sealedCommit_untranslated {x : Word × XFault}
    (hrun : Dev.partsAt s.mem s.dev e.tid.toNat .store (e.dst + BitVec.ofNat 64 (num a.data 16 8)) (num a.data 8 4) = (.error x, d)) :
    exec (.sealedCommit port) s = .next (departed port a.id (sealedWith port st e (BitVec.ofNat 64 (num a.data 0 8)) 4 { s with dev := d })) := by
  rw [htid] at hrun
  show execSealedCommit port s = _
  simp only [execSealedCommit, ha, hkind, hst, he, hv, htid, hgood, htag, hrun, bne_self_eq_false, Bool.not_true, Bool.or_self, Bool.false_eq_true,
    if_false, sealStatus_departed]

theorem exec_sealedCommit_accepted {ps : List InPart}
    (hrun : Dev.partsAt s.mem s.dev e.tid.toNat .store (e.dst + BitVec.ofNat 64 (num a.data 16 8)) (num a.data 8 4) = (.ok ps, d)) :
    exec (.sealedCommit port) s = .next
      (forwarded port a.id e.tid.toNat (fun a => { a with gone := true, cnt := if e.cnt = 0 then none else some (e.tid.toNat, e.cnt) }) pt ps
        (sealedWith port st e (BitVec.ofNat 64 (num a.data 0 8)) 0
          (onHost (fun h => { h with ecs := h.ecs.modify {} (16 * port + st) fun e => { e with ctr := e.ctr + 1, nacc := e.nacc + 1 } })
            { s with dev := d }))) := by
  rw [htid] at hrun
  show execSealedCommit port s = _
  simp only [execSealedCommit, ha, hkind, hst, he, hv, htid, hgood, htag, hrun, bne_self_eq_false, Bool.not_true, Bool.or_self, Bool.false_eq_true,
    if_false]
  rfl

end
end
end
end

/-! ### Reads of the host and requests of peers (R452, R473) -/

theorem exec_hostReadTimeout {c n : Nat} {k : Cast} {b : Block} {sl : Slot} {l : LoadSt} (hk : s.dev.casts.find c = some k) (hb : k.th.blk = some b)
    (hsl : b.slots[n]? = some sl) (hl : sl.load = some l) : exec (.hostReadTimeout c b.seq n) s =
      .next (later 0 (.slotResultDeliver c b.seq n (some 0)) (reported k.tenant [0x0A, 0, BitVec.ofNat 64 l.pa, 0] s)) := by
  show execHostReadTimeout c b.seq n s = _
  simp only [execHostReadTimeout, hk, hb, hsl, hl, Option.bind_some, ne_eq, not_true_eq_false, if_false]
  rfl

theorem exec_peerInboundRequest_read {tenant pa len tag : Nat} {data bs : List Byte} {d : Dev} (h : Dev.read s.mem s.dev tenant (pa % 2 ^ 40) len = (bs, d)) :
    exec (.peerInboundRequest tenant pa false len data none tag) s = .next (replied (.data tag bs) { s with dev := d }) := by
  show execPeerInboundRequest tenant pa false len data none tag s = _
  simp only [execPeerInboundRequest, h, Bool.false_eq_true, if_false]
  rfl

end

end Sys2Proof.Laws

namespace Sys2Proof.Proofs

open Sys2Proof.Machine Sys2Proof.Claims Sys2Proof.Laws

/-- Settles O53: each clause is the lemma about its operation; what an inbound request meets is `acceptInbound_eq`. -/
theorem portSteps : Obligations.PortSteps := by
  intro s port q
  refine ⟨fun data => ⟨exec_inboundPostedWrite_refused, exec_inboundPostedWrite_insec, exec_inboundPostedWrite_arrives⟩, fun len tag => ?_,
    fun kind size tag => ⟨exec_inboundAtomicop_arrives, exec_inboundAtomicop_refused⟩, fun a ha hkind => ?_, fun a ha hkind => ?_,
    fun c n k b sl l => exec_hostReadTimeout, fun tenant pa len data tag => ?_⟩
  · exact ⟨exec_inboundRead_refused, fun h hide => ⟨exec_inboundRead_arrives h hide, exec_inboundRead_zeros h hide,
      fun r => exec_inboundRead_register h hide, fun hbar hfile => ⟨_, exec_inboundRead_open h hide hbar hfile⟩⟩⟩
  · intro tenant va run
    have hmem := exec_inboundWriteForward_mem ha hkind
    have hown := exec_inboundWriteForward_own ha hkind
    refine ⟨fun hbar hread hatom => ?_, fun len tag p hbar hread => ?_, fun kind size tag p d hbar hread hatom h halign => ?_,
      fun hbar hfile hlen hpage => ?_, fun r hbar hfile hreg => ?_⟩
    · rw [hmem hbar]
      exact ⟨fun ps d h => congrArg _ (forwardMem_write hread hatom h), fun x f d h => congrArg _ (forwardMem_write_faults hread hatom h)⟩
    · rw [hmem hbar]
      exact ⟨fun d h bs d' hbytes => congrArg _ (forwardMem_read hread h hbytes), fun x f d h => congrArg _ (forwardMem_read_faults hread h)⟩
    · rw [hmem hbar]
      exact congrArg _ (forwardMem_atomic hread hatom h halign)
    · rw [hown hbar]
      exact congrArg _ (forwardOwn_doorbell hbar hfile hlen hpage)
    · rw [hown hbar]
      exact congrArg _ (forwardOwn_register hbar hfile hreg)
  · intro st e ctr len
    refine ⟨exec_sealedCommit_foreign ha hkind rfl rfl, fun hv htid => ?_⟩
    exact ⟨fun status => exec_sealedCommit_bad ha hkind rfl rfl hv htid, exec_sealedCommit_tag ha hkind rfl rfl hv htid,
      fun pt hgood htag => ⟨fun x d => exec_sealedCommit_untranslated ha hkind rfl rfl hv htid hgood htag,
        fun ps d => exec_sealedCommit_accepted ha hkind rfl rfl hv htid hgood htag⟩⟩
  · exact ⟨rfl, fun bs d => exec_peerInboundRequest_read, fun write kind => rfl⟩

end Sys2Proof.Proofs

/-! ## Tasks: staging, choice, start and completion, ageing, the watchdog (R422 to R442) -/

namespace Sys2Proof.Laws

open Sys2Proof.Machine Sys2Proof.Claims

section
variable {s : State}

/-! ### Admission (R431) -/

/-- A working set is beyond the quotas of a SCHQ. -/
def BeyondQuota (q : Word) (t : Machine.Task) : Prop := 2 ^ 20 * field q 0 16 < t.bytesL2 ∨ 65536 * field q 16 16 < t.bytesScr

/-- A die's share of a working set is beyond what a die holds. -/
def BeyondDie (h : List (Nat × Nat)) : Prop := ∃ die, die < 8 ∧ 48 * 2 ^ 20 < heldFor h die

/-- A working set finds room, besides what is charged and held. -/
def FindsRoom (d : Dev) (q : Word) (t : Machine.Task) (h : List (Nat × Nat)) : Prop := d.chargedL2 t.tenant + t.bytesL2 ≤ 2 ^ 20 * field q 0 16 ∧
  d.chargedScr t.tenant + t.bytesScr ≤ 65536 * field q 16 16 ∧ ∀ die, die < 8 → d.heldL2 die + heldFor h die ≤ 48 * 2 ^ 20

theorem beyondDie_iff (h : List (Nat × Nat)) : ((List.range 8).any fun die => decide (dieL2Limit < heldFor h die)) = true ↔ BeyondDie h := by
  simp only [List.any_eq_true, List.mem_range, decide_eq_true_eq]
  rfl

theorem findsRoom_iff (d : Dev) (q : Word) (t : Machine.Task) (h : List (Nat × Nat)) : FindsRoom d q t h ↔ d.chargedL2 t.tenant + t.bytesL2 ≤ 2 ^ 20 * field q 0 16 ∧
    d.chargedScr t.tenant + t.bytesScr ≤ 65536 * field q 16 16 ∧
    ((List.range 8).all fun die => decide (d.heldL2 die + heldFor h die ≤ dieL2Limit)) = true := by
  simp only [List.all_eq_true, List.mem_range, decide_eq_true_eq]
  rfl

section
variable {t t' : Machine.Task} {d d' : Dev} {h : List (Nat × Nat)} (hws : Dev.withWs s.mem s.dev t = (t', d))
include hws

theorem judge_quota (hq : BeyondQuota (s.dev.schqOf t.tenant) t') : Dev.judge s.mem s.dev t = (.excess, d) := by
  delta BeyondQuota at hq
  delta Dev.judge
  simp only [hws, hq, if_true]

section
variable (hq : ¬ BeyondQuota (s.dev.schqOf t.tenant) t') (hhomes : Dev.taskHomes s.mem t' t'.ws d = (h, d'))
include hq hhomes

theorem judge_die (hdie : BeyondDie h) : Dev.judge s.mem s.dev t = (.excess, d') := by
  delta BeyondQuota at hq
  delta Dev.judge
  simp only [hws, hq, hhomes, (beyondDie_iff h).2 hdie, if_true, if_false]

section
variable (hdie : ¬ BeyondDie h)
include hdie

theorem judge_wait (hroom : ¬ FindsRoom s.dev (s.dev.schqOf t.tenant) t' h) : Dev.judge s.mem s.dev t = (.wait, d') := by
  delta BeyondQuota at hq
  rw [findsRoom_iff] at hroom
  delta Dev.judge
  simp only [hws, hq, hhomes, mt (beyondDie_iff h).1 hdie, hroom, Bool.false_eq_true, if_false]

theorem judge_enter (hroom : FindsRoom s.dev (s.dev.schqOf t.tenant) t' h) : Dev.judge s.mem s.dev t =
    (.enter { t' with st := .staging, hold := false, l2 := t'.bytesL2, scr := t'.bytesScr, heldOn := h, since := s.dev.now }, d') := by
  delta BeyondQuota at hq
  rw [findsRoom_iff] at hroom
  delta Dev.judge
  simp only [hws, hq, hhomes, mt (beyondDie_iff h).1 hdie, hroom, Bool.false_eq_true, and_self, if_false, if_true]

end
end
end

section
variable {tenant id : Nat} {t : Machine.Task} {d : Dev} (hfirst : firstTask (s.dev.admissions tenant) = some (id, t))
include hfirst

theorem exec_stagingAdmit_excess (hjudge : Dev.judge s.mem s.dev t = (.excess, d)) : exec (.stagingAdmit tenant) s =
    .next (onTask id (fun t => { t with st := .staged, overq := true, hold := false, l2 := 0, scr := 0, heldOn := [] }) { s with dev := d }) := by
  show execStagingAdmit tenant s = _
  simp only [execStagingAdmit, hfirst, hjudge]
  rfl

theorem exec_stagingAdmit_wait (hjudge : Dev.judge s.mem s.dev t = (.wait, d)) : exec (.stagingAdmit tenant) s = .next { s with dev := d } := by
  show execStagingAdmit tenant s = _
  simp only [execStagingAdmit, hfirst, hjudge]

theorem exec_stagingAdmit_enter {t' : Machine.Task} (hjudge : Dev.judge s.mem s.dev t = (.enter t', d)) :
    exec (.stagingAdmit tenant) s = .next (onTask id (fun _ => t') { s with dev := d }) := by
  show execStagingAdmit tenant s = _
  simp only [execStagingAdmit, hfirst, hjudge]
  rfl

end

/-! ### Pieces (R432, R433) -/

/-- The entry of which the next piece is started. -/
def nextPiece (d : Dev) (t : Machine.Task) : Nat := (d.pieces t).getD (Config.openNat d.free % (d.pieces t).length) 0

/-- A piece of an entry has been started; its bit of STATE when the piece was abandoned. -/
def pieceStarted (id i : Nat) (w : WsEnt) (lost : Bool) (s u : State) : State := onTask id (fun t =>
  let t := { t with ws := t.ws.set i { w with pos := w.pos + min 4096 (w.size - w.pos), pushed := true }, since := s.dev.now + 1 }
  if lost then { t with lost := t.lost ||| BitVec.ofNat 4 (2 ^ i) } else t) u

theorem nextPiece_mem {d : Dev} {t : Machine.Task} (h : d.pieces t ≠ []) : nextPiece d t ∈ d.pieces t := by
  have hlt := Nat.mod_lt (Config.openNat d.free) (List.length_pos_iff.2 h)
  delta nextPiece
  rw [List.getD_eq_getElem _ _ hlt]
  exact List.getElem_mem hlt

theorem piece_isEntry {d : Dev} {t : Machine.Task} {i : Nat} (h : i ∈ d.pieces t) : t.ws[i]? ≠ none := by
  simp only [Dev.pieces, Task.openEntries, List.mem_filter, List.mem_range] at h
  simpa using h.1.1

section
variable {id : Nat} {t : Machine.Task} (ht : s.dev.sch.tasks.find id = some t) (hcan : t.canPiece s.dev.now = true) (hpieces : s.dev.pieces t ≠ [])
  {w : WsEnt} (hw : t.ws[nextPiece s.dev t]? = some w)
include ht hcan hpieces hw

theorem exec_stagingPiece_cache (hlvl : w.lvl = 1) {u : State} {ok : Bool}
    (hpiece : State.cachePiece (drawn s) t w (min 4096 (w.size - w.pos)) = (u, ok)) :
    exec (.stagingPiece id) s = .next (pieceStarted id (nextPiece s.dev t) w (!ok) s u) := by
  obtain ⟨lvl, base, size, tgt, pos, pushed⟩ := w
  obtain rfl : lvl = 1 := hlvl
  have hpiece' : State.cachePiece { s with dev := s.dev.tickFree } t _ (min 4096 (size - pos)) = (u, ok) := hpiece
  delta nextPiece at hw
  show execStagingPiece id s = _
  rw [execStagingPiece, ht]
  simp only [hcan, List.isEmpty_eq_false_iff.2 hpieces, hw, hpiece', Bool.not_true, Bool.or_self, Bool.false_eq_true, if_false]
  cases ok <;> rfl

theorem exec_stagingPiece_chain (hlvl : w.lvl = 3) {d : Dev} {ok : Bool} (hpush : Dev.pushChain (drawn s).dev t w = (d, ok)) :
    exec (.stagingPiece id) s = .next (pieceStarted id (nextPiece s.dev t) w (!ok) s { s with dev := d }) := by
  obtain ⟨lvl, base, size, tgt, pos, pushed⟩ := w
  obtain rfl : lvl = 3 := hlvl
  have hpush' : Dev.pushChain s.dev.tickFree t _ = (d, ok) := hpush
  delta nextPiece at hw
  show execStagingPiece id s = _
  rw [execStagingPiece, ht]
  simp only [hcan, List.isEmpty_eq_false_iff.2 hpieces, hw, hpush', Bool.not_true, Bool.or_self, Bool.false_eq_true, if_false]
  cases ok <;> rfl

end

section
variable {t : Machine.Task} {w : WsEnt} {n : Nat} {d : Dev}

theorem cachePiece_fetched {bs : List Byte} (h : Dev.readRun s.mem s.dev (dispatcherVia t.die) t.tenant (w.base + BitVec.ofNat 64 w.pos) n = (.ok bs, d)) :
    s.cachePiece t w n = ({ s with dev := d }, true) := by
  rw [State.cachePiece, h]

theorem cachePiece_abandoned {e : Word × XFault}
    (h : Dev.readRun s.mem s.dev (dispatcherVia t.die) t.tenant (w.base + BitVec.ofNat 64 w.pos) n = (.error e, d)) :
    s.cachePiece t w n = ({ s with dev := d }, false) := by
  rw [State.cachePiece, h]

section
variable {k : Cast} (hk : d.casts.find t.target = some k)
include hk

theorem pushChain_pushed (hused : (k.chans.get {} (field w.tgt 0 2)).used = true) (hopen : (k.chans.get {} (field w.tgt 0 2)).closing = false) :
    d.pushChain t w = (d.modChan t.target (field w.tgt 0 2) fun x => { x with queue := x.queue ++ [(w.base, 0, false)] }, true) := by
  delta Dev.pushChain
  simp only [hk, hused, hopen, Bool.not_false, and_self, if_true]

theorem pushChain_abandoned (h : (k.chans.get {} (field w.tgt 0 2)).used = false ∨ (k.chans.get {} (field w.tgt 0 2)).closing = true) :
    d.pushChain t w = (d, false) := by
  have hnone : ¬ ((k.chans.get {} (field w.tgt 0 2)).used = true ∧ (!(k.chans.get {} (field w.tgt 0 2)).closing) = true) := by
    rintro ⟨hused, hopen⟩
    rcases h with h | h
    · rw [h] at hused; cases hused
    · rw [h] at hopen; cases hopen
  delta Dev.pushChain
  simp only [hk, hnone, if_false]

end
end

theorem exec_stagingEnd {id : Nat} {t : Machine.Task} (ht : s.dev.sch.tasks.find id = some t) (hdone : s.dev.stagingDone t = true) :
    exec (.stagingEnd id) s = .next (onTask id (fun t => { t with st := .staged }) s) := by
  show execStagingEnd id s = _
  simp only [execStagingEnd, ht, hdone, if_true]
  rfl

section
variable {c : Nat} {k : Cast} (hk : s.dev.casts.find c = some k)
include hk

/-! ### Choice and delivery (R423 to R425) -/

section
variable {id : Nat} {t : Machine.Task} (ht : s.dev.sch.tasks.find id = some t)
include ht

theorem exec_taskDeliver_given {x : Cand} (hgive : s.dev.canGive c k = some x) (hx : x = .fifo id ∨ x = .deque id ∨ x = .stage id) :
    exec (.taskDeliver c) s = .next (given c id k t s) := by
  show execTaskDeliver c s = _
  rw [← give_eq s c id k t hk ht]
  rcases hx with rfl | rfl | rfl <;> simp only [execTaskDeliver, hk, hgive]

theorem exec_taskSteal (hsteal : s.dev.canSteal c k = some id) : exec (.taskSteal c) s = .next (given c id k t s) := by
  show execTaskSteal c s = _
  rw [← give_eq s c id k t hk ht]
  simp only [execTaskSteal, hk, hsteal]

end

theorem exec_taskDeliver_restored {id : Nat} (hgive : s.dev.canGive c k = some (.suspended id)) :
    exec (.taskDeliver c) s = .next { s with dev := s.dev.restoreTask c id } := by
  show execTaskDeliver c s = _
  simp only [execTaskDeliver, hk, hgive]

/-! ### The start of a task (R106, R429) -/

section
variable {parm : Word} {prio : BitVec 4} {id : Nat} {d : Dev} (htok : k.th.taskToken = some (parm, prio)) (htask : k.task = some id)
  (hentry : k.th.mode = .atEntry)
include htok htask hentry

/-- A cast's thread starts on a parameter block. -/
def taskStarted (c id : Nat) (parm : Word) (prio : BitVec 4) (bs : List Byte) (s : State) : State :=
  onCast c Cast.latchAll (onCast c (fun k => { k with busy := [] })
    (onThread c (fun t => { t with taskToken := none, startTask := true, taskActive := true, taskpri := prio, parmb := parm, ret := []
                                   parm := BitVec.ofNat 2048 (leNat bs), mode := .fetch (s.dev.now + 1) })
      (onTask id (fun t => { t with st := .active, since := s.dev.now, energy := 0 }) (usageCounted c s))))

theorem exec_taskTokenStart_starts {bs : List Byte} (hrun : Dev.readParm s.mem s.dev k parm = (.ok bs, d)) :
    exec (.taskTokenStart c) s = .next (taskStarted c id parm prio bs { s with dev := d }) := by
  show execTaskTokenStart c s = _
  delta taskStarted
  simp only [execTaskTokenStart, hk, htok, htask, hentry, hrun, ne_eq, not_true_eq_false, if_false, onThread, onCast_onCast]
  simp only [Dev.startTask, Dev.modCast_modCast]
  rfl

theorem exec_taskTokenStart_faults {va : Word} {f : XFault} (hrun : Dev.readParm s.mem s.dev k parm = (.error (va, f), d)) {t : Machine.Task}
    (ht : d.sch.tasks.find id = some t) : exec (.taskTokenStart c) s = .next (discarded c id 3
      (reported k.tenant [0x10, BitVec.ofNat 64 c, t.addr, parm, f.syndrome .load 0 k.tenant]
        (onThread c (fun t => { t with taskToken := none }) { s with dev := d }))) := by
  have ht' : d.task? id = some t := ht
  show execTaskTokenStart c s = _
  simp only [execTaskTokenStart, hk, htok, htask, hentry, hrun, ht', Option.map_some, Option.getD_some, ne_eq, not_true_eq_false, if_false]
  rfl

end

/-! ### Completion (R427) -/

section
variable {id : Nat} {t : Machine.Task} (hcan : s.dev.canComplete k = some id) (ht : s.dev.sch.tasks.find id = some t)
include hcan ht

theorem exec_taskComplete_waits (hwait : (s.taskDone t).dev.unapplied (s.taskDone t).dev.replNo = true) :
    exec (.taskComplete c) s = .next (onTask id (fun t => { t with wrote := true }) (s.taskDone t)) := by
  have ht' : s.dev.task? id = some t := ht
  show execTaskComplete c s = _
  simp only [execTaskComplete, hk, hcan, ht', hwait, if_true]
  rfl

theorem exec_taskComplete_ends (hall : (s.taskDone t).dev.unapplied (s.taskDone t).dev.replNo = false) :
    exec (.taskComplete c) s = .next (variantChosen c ((s.taskDone t).finishTask c id k t)) := by
  have ht' : s.dev.task? id = some t := ht
  show execTaskComplete c s = _
  simp only [execTaskComplete, hk, hcan, ht', hall, Bool.false_eq_true, if_false]
  rfl

end

/-! ### The watchdog (R441) -/

/-- A hung cast stands still, and is to have an image. -/
def hungStopped (c : Nat) (s : State) : State := onCast c (fun k => { k with saving := some (k.saving.getD .watchdog) }) (frozen c (stagingCancelled c s))

theorem exec_wdog (hgoes : k.frozen = false) (hlimit : 1500 * s.dev.sch.hang.toNat ≤ k.hang) (hpos : 0 < k.hang) :
    exec (.wdog c) s = .next ((hungStopped c s).imageNow c) := by
  have hhung : s.dev.isHung k = true := by simp [Dev.isHung, hgoes, hlimit, hpos]
  show execWdog c s = _
  simp only [execWdog, hk, hhung, if_true]
  rfl

theorem imageNow_waits (h : k.frozen = false ∨ s.dev.saveReady c k = false) : s.imageNow c = s := by
  have hready : s.dev.imageReady c k = false := by
    delta Dev.imageReady
    rcases h with h | h <;> simp [h]
  simp only [State.imageNow, hk, hready, Bool.false_eq_true, if_false]

theorem imageNow_watchdog (hfrozen : k.frozen = true) (hsave : s.dev.saveReady c k = true) (hdog : k.saving = some .watchdog) : s.imageNow c =
    let r := State.poolImage (onCast c (fun k => { k with saving := none }) s) c 2
    reported k.tenant [0x07, BitVec.ofNat 64 c, r.2, k.th.pc] r.1 := by
  have hready : s.dev.imageReady c k = true := by delta Dev.imageReady; simp [hfrozen, hsave, hdog]
  simp only [State.imageNow, hk, hready, if_true, State.makeImage, hdog]
  rfl

end

/-! ### The successor decrements (R427) -/

section
variable {c : Nat} {k : Cast} {t : Machine.Task} {va : Word} {rest : List Word}

theorem decSuccessors_zero : State.decSuccessors k c t (0 :: rest) s = State.decSuccessors k c t rest s := by
  rw [State.decSuccessors, if_pos rfl]

theorem decSuccessors_cons (hva : va ≠ 0) {p : Placed} {d : Dev} (h : Dev.translate s.mem s.dev k.via t.tenant va .store = (.ok p, d)) :
    State.decSuccessors k c t (va :: rest) s = State.decSuccessors k c t rest (later 0 (.seCntDec
      { source := .dispatcher c k.uid, requester := k.requester, tenant := t.tenant, va := va, pa := p.pa, order := .rel, scope := scopeOfCode t.scope } 1)
      { s with dev := d }) := by
  rw [State.decSuccessors, if_neg hva, h]
  rfl

end

/-! ### Ageing and elastic stages (R422, R438) -/

/-- The ready tasks of a die have waited a quantum more. -/
def aged (die : Nat) (s : State) : State :=
  onSched (fun x => { x with
    quantum := x.quantum.put die (s.dev.now + 1500 * max 1 x.ageq.toNat)
    tasks := x.tasks.map fun e => (e.1, if e.2.die == die && e.2.isReady then { e.2 with quanta := e.2.quanta + 1 } else e.2) }) s

/-- The die whose dispatcher samples the elastic stages. -/
def samplingDie (s : State) : Option Nat := (List.range 8).find? fun i => (s.dev.relClock.find i).isSome

section
variable {die : Nat}

theorem exec_ageingQuantum_other (h : samplingDie s ≠ some die) : exec (.ageingQuantum die) s = .next (aged die s) := by
  delta samplingDie at h
  show execAgeingQuantum die s = _
  delta execAgeingQuantum Dev.modSch
  simp only [h, if_false]
  rfl

theorem exec_ageingQuantum_samples (h : samplingDie s = some die) : exec (.ageingQuantum die) s =
    .next (((aged die s).dev.sch.stages.filter fun e => e.2.elastic).foldl (fun t e => sampled e.1 e.2 t) (aged die s)) := by
  delta samplingDie at h
  show execAgeingQuantum die s = _
  delta execAgeingQuantum Dev.modSch
  simp only [h, if_true]
  exact congrArg _ (sample_fold ..)

end

section
variable {key : Nat} {st : Stage}

/-- The samples in a row above HIGH, and below LOW. -/
def above (s : State) (key : Nat) (st : Stage) : Nat := if st.high < s.dev.readyOf (key / 65536) (key % 65536) then st.above + 1 else 0
def under (s : State) (key : Nat) (st : Stage) : Nat := if s.dev.readyOf (key / 65536) (key % 65536) < st.low then st.under + 1 else 0

/-- The request for another replica. -/
def growth (s : State) (key : Nat) (st : Stage) : PlAsk :=
  { src := .elastic (key % 65536), at_ := s.dev.now, requester := 10500, tenant := key / 65536, addr := 0
    block := some { op := 1, auto := true, aff := st.aff, addr := st.img, bind := st.bind } }

/-- The counts of a stage's samples. -/
def countsKept (key o u : Nat) (s : State) : State := onSched (fun x => { x with stages := x.stages.upd key fun x => { x with above := o, under := u } }) s

theorem sampled_grows (h : st.hold ≤ above s key st) (hmax : (s.dev.replicasOf (key / 65536) (key % 65536)).length < st.maxr) :
    sampled key st s = countsKept key 0 0 (asked (growth s key st) s) := by
  delta above at h
  delta sampled Dev.sampleStage
  simp only [h, hmax, and_self, if_true]
  rfl

theorem sampled_stays (hup : ¬ (st.hold ≤ above s key st ∧ (s.dev.replicasOf (key / 65536) (key % 65536)).length < st.maxr))
    (hdown : ¬ (st.hold ≤ under s key st ∧ st.minr < (s.dev.replicasOf (key / 65536) (key % 65536)).length)) :
    sampled key st s = countsKept key (above s key st) (under s key st) s := by
  delta above at hup
  delta under at hdown
  delta sampled Dev.sampleStage
  simp only [hup, hdown, if_false]
  rfl

end
end

end Sys2Proof.Laws

namespace Sys2Proof.Proofs

open Sys2Proof.Machine Sys2Proof.Claims Sys2Proof.Laws

/-- Settles O52: what an admission finds is `judge_quota` to `judge_enter`; the other clauses are the lemmas about their operations. -/
theorem taskSteps : Obligations.TaskSteps := by
  intro s c k hk
  refine ⟨fun tenant id t hfirst t' d h d' hws hhomes => ?_, fun id t ht hcan hpieces => ⟨nextPiece s.dev t, piece_isEntry (nextPiece_mem hpieces), fun w hw => ?_⟩,
    fun id t => exec_stagingEnd, fun id t x hgive ht => exec_taskDeliver_given hk ht hgive, fun id => exec_taskDeliver_restored hk,
    fun id t hsteal ht => exec_taskSteal hk ht hsteal, fun parm prio id htok htask hentry => ?_, fun id t hcan ht => ?_, fun t va rest => ?_,
    fun die => ⟨exec_ageingQuantum_other, exec_ageingQuantum_samples⟩, fun key st => ⟨sampled_grows, sampled_stays⟩, rfl, fun hgoes hlimit hpos => ?_,
    fun tenant va requester => rfl⟩
  · intro q l2 scr onDie beyond excess room
    refine ⟨fun hexcess => ?_, fun hwithin hfull => ?_, fun hwithin hroom => ?_⟩
    · by_cases hq : beyond
      · rw [if_pos hq]
        exact exec_stagingAdmit_excess hfirst (judge_quota hws hq)
      · rw [if_neg hq]
        exact exec_stagingAdmit_excess hfirst (judge_die hws hq hhomes (hexcess.resolve_left hq))
    · obtain ⟨hq, hdie⟩ := not_or.1 hwithin
      exact exec_stagingAdmit_wait hfirst (judge_wait hws hq hhomes hdie hfull)
    · obtain ⟨hq, hdie⟩ := not_or.1 hwithin
      exact exec_stagingAdmit_enter hfirst (judge_enter hws hq hhomes hdie hroom)
  · refine ⟨fun hlvl bs d hrun => ?_, fun hlvl e d hrun => ?_, fun hlvl k hk => ⟨fun hused hopen => ?_, fun hnone => ?_⟩⟩
    · exact exec_stagingPiece_cache ht hcan hpieces hw hlvl (cachePiece_fetched hrun)
    · exact exec_stagingPiece_cache ht hcan hpieces hw hlvl (cachePiece_abandoned hrun)
    · exact exec_stagingPiece_chain ht hcan hpieces hw hlvl (pushChain_pushed hk hused hopen)
    · exact exec_stagingPiece_chain ht hcan hpieces hw hlvl (pushChain_abandoned hk hnone)
  · exact ⟨fun bs d => exec_taskTokenStart_starts hk htok htask hentry, fun va f d hrun t ht => exec_taskTokenStart_faults hk htok htask hentry hrun ht⟩
  · exact ⟨exec_taskComplete_waits hk hcan ht, exec_taskComplete_ends hk hcan ht⟩
  · exact ⟨rfl, decSuccessors_zero, fun hva p d => decSuccessors_cons hva⟩
  · intro v k' hk'
    rw [exec_wdog hk hgoes hlimit hpos]
    exact ⟨fun h => congrArg _ (imageNow_waits hk' h), fun hfrozen hsave hdog => congrArg _ (imageNow_watchdog hk' hfrozen hsave hdog)⟩

end Sys2Proof.Proofs

/-! ## The placer (R383 to R413) -/

namespace Sys2Proof.Laws

open Sys2Proof.Machine Sys2Proof.Claims

section
variable {s u : State} {r : PlReq} {b : PlBlock}

theorem actsFor_eq (r : PlReq) (b : PlBlock) : r.actsFor b = tenantOf r b := rfl

/-! ### GRANT and REVOKE (R388, R389) -/

/-- A plinth that a block asks for lies on the array. -/
def GoodGrant (d : Dev) (b : PlBlock) : Prop :=
  b.tid ≠ 0 ∧ b.pix < 4 ∧ 0 < b.pw ∧ 0 < b.ph ∧ b.bx + b.pw ≤ (if d.part = .eos8 then 24 else 12) ∧ b.by_ + b.ph ≤ 12

/-- It shares a block, or its index, with another. -/
def TakenGrant (d : Dev) (b : PlBlock) : Prop := ∃ q ∈ d.pl.plinths, rectsMeet q b.bx b.by_ b.pw b.ph = true ∨ (q.tid = b.tid ∧ q.pix = b.pix)

/-- A plinth granted, walled in. -/
def granted (b : PlBlock) (s : State) : State := walled (rectSites b.bx b.by_ b.pw b.ph)
  (fun x y => outward b.bx b.by_ b.pw b.ph x y + 2 ^ 8 * b.tid)
  (onPlacer (fun p => { p with plinths := p.plinths ++ [{ tid := b.tid, pix := b.pix, bx := b.bx, by_ := b.by_, w := b.pw, h := b.ph }] }) s)

theorem goodGrant_iff (d : Dev) (b : PlBlock) : GoodGrant d b ↔
    ¬ (b.tid = 0 ∨ 4 ≤ b.pix ∨ b.pw = 0 ∨ b.ph = 0 ∨ d.part.columns < b.bx + b.pw ∨ 12 < b.by_ + b.ph) := by
  have hcols : d.part.columns = if d.part = .eos8 then 24 else 12 := by cases d.part <;> rfl
  delta GoodGrant
  rw [hcols]
  omega

theorem takenGrant_iff (d : Dev) (b : PlBlock) :
    TakenGrant d b ↔ (d.pl.plinths.any fun p => rectsMeet p b.bx b.by_ b.pw b.ph || (p.tid == b.tid && p.pix == b.pix)) = true := by
  delta TakenGrant
  simp only [List.any_eq_true, Bool.or_eq_true, Bool.and_eq_true, beq_iff_eq]

section
variable (h : Asked s 9 r b u)
include h

theorem exec_placerGrant_granted (hgood : GoodGrant u.dev b) (hfree : ¬ TakenGrant u.dev b) :
    exec .placerGrant s = .next (answered r b 0 0 0 0 (granted b u)) := by
  rw [goodGrant_iff] at hgood
  rw [takenGrant_iff] at hfree
  show execPlacerGrant s = _
  delta execPlacerGrant Dev.grant
  rw [onRequest_of_Asked h, if_neg hgood, if_neg hfree]
  rfl

theorem exec_placerGrant_taken (hgood : GoodGrant u.dev b) (htaken : TakenGrant u.dev b) :
    exec .placerGrant s = .next (answered r b 27 0 0 0 u) := by
  rw [goodGrant_iff] at hgood
  rw [takenGrant_iff] at htaken
  show execPlacerGrant s = _
  delta execPlacerGrant Dev.grant
  rw [onRequest_of_Asked h, if_neg hgood, if_pos htaken]
  rfl

theorem exec_placerGrant_bad (hbad : ¬ GoodGrant u.dev b) : exec .placerGrant s = .next (answered r b 1 0 0 0 u) := by
  rw [goodGrant_iff, not_not] at hbad
  show execPlacerGrant s = _
  delta execPlacerGrant Dev.grant
  rw [onRequest_of_Asked h, if_pos hbad]
  rfl

end

section
variable (h : Asked s 10 r b u)
include h

theorem exec_placerRevoke_none (hfind : (u.dev.pl.plinths.find? fun p => p.tid == b.tid && p.pix == b.pix) = none) :
    exec .placerRevoke s = .next (answered r b 1 0 0 0 u) := by
  show execPlacerRevoke s = _
  delta execPlacerRevoke Dev.revoke
  rw [onRequest_of_Asked h, hfind]
  rfl

section
variable {p : Plinth} (hfind : (u.dev.pl.plinths.find? fun p => p.tid == b.tid && p.pix == b.pix) = some p)
include hfind

theorem exec_placerRevoke_inUse (hheld : ∃ e ∈ u.dev.casts, p.holds e.2.bx e.2.by_ = true) :
    exec .placerRevoke s = .next (answered r b 28 0 0 0 u) := by
  show execPlacerRevoke s = _
  delta execPlacerRevoke Dev.revoke
  rw [onRequest_of_Asked h, hfind]
  dsimp only
  rw [if_pos (List.any_eq_true.2 hheld)]
  rfl

theorem exec_placerRevoke_revoked (hfree : ∀ e ∈ u.dev.casts, p.holds e.2.bx e.2.by_ = false) : exec .placerRevoke s = .next (answered r b 0 0 0 0
    (walled (rectSites p.bx p.by_ p.w p.h) (fun _ _ => 0xF) (onPlacer (fun p' => { p' with plinths := p'.plinths.filter fun q => q != p }) u))) := by
  have hany : (u.dev.casts.any fun e => p.holds e.2.bx e.2.by_) = false := by simpa using hfree
  show execPlacerRevoke s = _
  delta execPlacerRevoke Dev.revoke
  rw [onRequest_of_Asked h, hfind]
  dsimp only
  rw [if_neg (Bool.eq_false_iff.1 hany)]
  rfl

end
end

/-! ### LOAD (R390) -/

section
variable (h : Asked s 1 r b u)
include h

theorem exec_placerLoad : exec .placerLoad s = .next (u.load r b) := by
  show execPlacerLoad s = _
  rw [execPlacerLoad, onRequest_of_Asked h]

theorem exec_placerLoad_unread {e : Bad} {d : Dev} (himg : Dev.readImage u.mem u.dev (tenantOf r b) b.addr = (.error e, d)) :
    exec .placerLoad s = .next (answered r b e.1 e.2 0 0 { u with dev := d }) := by
  rw [exec_placerLoad h]
  simp only [State.load, actsFor_eq, himg]
  rfl

section
variable {img : List Byte} {d : Dev} {mould : Mould} (himg : Dev.readImage u.mem u.dev (tenantOf r b) b.addr = (.ok img, d))
  (hmould : d.checkImage img = .ok mould) (hten : d.badTenant (tenantOf r b) = none)
include himg hmould hten

theorem exec_placerLoad_noPlace {e : Bad} (hpos : d.position (tenantOf r b) b.aff none b mould.wb mould.hb = .error e) :
    exec .placerLoad s = .next (answered r b e.1 e.2 0 0 { u with dev := d }) := by
  rw [exec_placerLoad h]
  simp only [State.load, actsFor_eq, himg, hmould, hten, hpos]
  rfl

theorem exec_placerLoad_placed {x y : Nat} {k : Cast} {d' : Dev} {t : State} (hpos : d.position (tenantOf r b) b.aff none b mould.wb mould.hb = .ok (x, y))
    (hcheck : Dev.checkAt u.mem d mould (tenantOf r b) d.freeNumber x y b.bind none none = (.ok k, d'))
    (hplace : State.place { u with dev := d' } d.freeNumber { k with aff := b.aff } = some t) : exec .placerLoad s = .next
      (answered r b 0 0 (BitVec.ofNat 64 d.freeNumber) d.freeNumber (threadBegins d.freeNumber t)) := by
  rw [exec_placerLoad h]
  simp only [State.load, actsFor_eq, himg, hmould, hten, hpos, hcheck, hplace]
  rfl

end
end

/-! ### A cast that a request may not have (R386) -/

section
variable {e : Bad} (hcast : u.dev.reqCast (tenantOf r b) b.cast false = .error e)
include hcast

theorem exec_placerRoll_noCast (h : Asked s 4 r b u) : exec .placerRoll s = .next (answered r b e.1 e.2 0 0 u) := by
  show execPlacerRoll s = _
  delta execPlacerRoll
  simp only [onRequest_of_Asked h, State.roll, actsFor_eq, hcast]
  rfl

theorem exec_placerSave_noCast (h : Asked s 5 r b u) : exec .placerSave s = .next (answered r b e.1 e.2 0 0 u) := by
  show execPlacerSave s = _
  rw [execPlacerSave, cur_of_Asked h, onRequest_of_Asked h, actsFor_eq, hcast]
  rfl

theorem exec_placerResume_noCast (h : Asked s 8 r b u) : exec .placerResume s = .next (answered r b e.1 e.2 0 0 u) := by
  show execPlacerResume s = _
  delta execPlacerResume
  rw [onRequest_of_Asked h, actsFor_eq, hcast]
  rfl

end

/-! ### RESUME (R413) -/

section
variable {k : Cast} (h : Asked s 8 r b u) (hcast : u.dev.reqCast (tenantOf r b) b.cast false = .ok k)
include h hcast

theorem exec_placerResume_bad (hbad : k.canResumeAt b = false) : exec .placerResume s = .next (answered r b 1 0 0 0 u) := by
  show execPlacerResume s = _
  delta execPlacerResume
  rw [onRequest_of_Asked h, actsFor_eq, hcast]
  simp only [hbad, Bool.false_eq_true, if_false]
  rfl

theorem exec_placerResume_resumes (hcan : k.canResumeAt b = true) :
    exec .placerResume s = .next (answered r b 0 0 0 0 { u with dev := u.dev.resume b.cast k b }) := by
  show execPlacerResume s = _
  delta execPlacerResume
  rw [onRequest_of_Asked h, actsFor_eq, hcast]
  simp only [hcan, if_true]
  rfl

end

/-! ### MOVE and COMPACT: the lists of moves (R400, R404) -/

/-- The move that a block asks for. -/
def moveOf (b : PlBlock) : MoveItem := { cast := b.cast, bx := b.bx, by_ := b.by_, aff := b.aff, cut := b.cut }

theorem isMoving_of_idle (h : s.dev.pl.cur = none) : s.dev.isMoving = false := by
  delta Dev.isMoving
  simp only [h]

theorem exec_placerMove (h : Asked s 2 r b u) : exec .placerMove s = .next (State.runMoves r b [moveOf b] 0 u) := by
  show execPlacerMove s = _
  simp only [execPlacerMove, isMoving_of_idle (cur_of_Asked h), onRequest_of_Asked h, Bool.false_eq_true, if_false]
  rfl

section
variable (h : Asked s 3 r b u)
include h

theorem exec_placerCompact_bad (hlen : b.len = 0 ∨ 16 < b.len.toNat) : exec .placerCompact s = .next (answered r b 1 0 0 0 u) := by
  have hlen' : b.len.toNat = 0 ∨ 16 < b.len.toNat := hlen.imp_left fun hzero => by rw [hzero]; rfl
  show execPlacerCompact s = _
  rw [execPlacerCompact, isMoving_of_idle (cur_of_Asked h), if_neg Bool.false_ne_true, onRequest_of_Asked h, if_pos hlen']
  rfl

theorem exec_placerCompact_moves (hpos : b.len ≠ 0) (hmax : b.len.toNat ≤ 16) {bs : List Byte} {d : Dev} {is : List MoveItem}
    (hrun : Dev.readRun u.mem u.dev placerVia (tenantOf r b) b.addr (8 * b.len.toNat) = (.ok bs, d)) (hlist : moveList b.aff bs b.len.toNat = some is) :
    exec .placerCompact s = .next (State.runMoves r b is 0 { u with dev := d }) := by
  have hlen : ¬ (b.len.toNat = 0 ∨ 16 < b.len.toNat) := not_or.2 ⟨fun hzero => hpos (BitVec.eq_of_toNat_eq hzero), Nat.not_lt.2 hmax⟩
  show execPlacerCompact s = _
  simp only [execPlacerCompact, isMoving_of_idle (cur_of_Asked h), onRequest_of_Asked h, hlen, actsFor_eq, hrun, hlist, Bool.false_eq_true, if_false]

end

section
variable {i : MoveItem} {rest : List MoveItem} {ix : Nat} {k k' : Cast} (hcast : u.dev.reqCast (tenantOf r b) i.cast false = .ok k)
  (hcheck : u.dev.checkMove k i = .ok k')
include hcast hcheck

/-- Without a cut the cast is frozen at once, and carried once it may be. -/
theorem runMoves_uncut (hcut : i.cut = 255) : State.runMoves r b (i :: rest) ix u = (u.freezeMove r b i rest ix k (k.reserve k')).moveOn := by
  simp only [State.runMoves, actsFor_eq, hcast, hcheck, hcut, if_true]
  rfl

/-- With a cut its producers are paused, and the placer waits for the cut. -/
theorem runMoves_cut (hcut : i.cut ≠ 255) : State.runMoves r b (i :: rest) ix u =
    onPlacer (fun p => { p with cur := some (.move r b i (u.dev.now + p.movelim.toNat) rest ix (k.reserve k')) })
      (onCast i.cast (fun k => k.pauseCut i.cut true) u) := by
  simp only [State.runMoves, actsFor_eq, hcast, hcheck, hcut, if_false]
  rfl

end

/-! ### The end of a cut (R401, R403) -/

/-- The pause of a cut ends, and with it what the placer was at. -/
def pauseEnded (i : MoveItem) (s : State) : State := onPlacer (fun p => { p with cur := none }) (onCast i.cast (fun k => k.pauseCut i.cut false) s)

section
variable {i : MoveItem} {deadline ix : Nat} {rest : List MoveItem} {res : Tbl Nat} (hcur : s.dev.pl.cur = some (.move r b i deadline rest ix res))
include hcur

section
variable (hready : s.dev.cutReady = true)
include hready

theorem exec_moveCutEmpty_carries {k : Cast} {res' : Tbl Nat} (hstill : s.dev.stillMoves r b i res = .ok (k, res')) :
    exec .moveCutEmpty s = .next ((pauseEnded i s).freezeMove r b i rest ix k res').moveOn := by
  show execMoveCutEmpty s = _
  simp only [execMoveCutEmpty, hcur, hready, hstill, Bool.not_true, Bool.false_eq_true, if_false]
  rfl

theorem exec_moveCutEmpty_abandons {e : Bad} (hstill : s.dev.stillMoves r b i res = .error e) (hop : b.op ≠ 3) :
    exec .moveCutEmpty s = .next (answered r b e.1 e.2 0 0 (pauseEnded i s)) := by
  show execMoveCutEmpty s = _
  delta execMoveCutEmpty moveStatus
  simp only [hcur, hready, hstill, hop, false_and, Bool.not_true, Bool.false_eq_true, if_false]
  rfl

end

theorem exec_cuttimeout_early (h : s.dev.now < deadline) : exec .cuttimeout s = .next s := by
  show execCuttimeout s = _
  simp only [execCuttimeout, hcur, h, if_true]

theorem exec_cuttimeout_move (h : deadline ≤ s.dev.now) (hop : b.op ≠ 3) : exec .cuttimeout s = .next (answered r b 22 0 0 0 (pauseEnded i s)) := by
  show execCuttimeout s = _
  delta execCuttimeout moveStatus
  simp only [hcur, Nat.not_lt.2 h, hop, false_and, if_false]
  rfl

theorem exec_cuttimeout_compact (h : deadline ≤ s.dev.now) (hop : b.op = 3) :
    exec .cuttimeout s = .next (answered r b 22 (BitVec.ofNat 64 ix) 0 0 (pauseEnded i s)) := by
  show execCuttimeout s = _
  delta execCuttimeout moveStatus
  simp only [hcur, Nat.not_lt.2 h, hop, ne_eq, OfNat.ofNat_ne_zero, not_false_eq_true, and_self, if_false, if_true]
  rfl

end

/-! ### A cast carried (R401, R402) -/

theorem postAll_casts (n : Nat) (l : List Instr) (d : Dev) : (d.postAll n l).casts = d.casts := by
  induction l generalizing d with
  | nil => rfl
  | cons i l ih => exact ih _

/-- What a thaw keeps of a cast: its place, its mask, and its thread's registers and causes. -/
theorem unfreeze_find {d : Dev} {c : Nat} {k : Cast} (hk : d.casts.find c = some k) : ∃ k', (d.unfreeze c).casts.find c = some k' ∧
    k'.bx = k.bx ∧ k'.by_ = k.by_ ∧ k'.aff = k.aff ∧ k'.th.regs = k.th.regs ∧ k'.th.armst = k.th.armst ∧ k'.th.oobSeen = k.th.oobSeen := by
  cases hfrozen : k.frozen with
  | false =>
    rw [unfreeze_running hk hfrozen]
    exact ⟨k, hk, rfl, rfl, rfl, rfl, rfl, rfl⟩
  | true =>
    simp only [Dev.unfreeze, hk, hfrozen, if_true, postAll_casts]
    refine ⟨_, find_modCast hk, rfl, rfl, rfl, ?_⟩
    cases k.th.mode <;> exact ⟨rfl, rfl, rfl⟩

theorem unwallCast_casts (d : Dev) (k : Cast) : (d.unwallCast k).casts = d.casts := by
  unfold Dev.unwallCast
  split <;> rfl

/-- A cast carried to its new place, where it still stands. -/
def carried (d : Dev) (i : MoveItem) (res : Tbl Nat) (k : Cast) : Dev :=
  ((((d.haltFlow i.cast).dropPortTlbs k).unwallCast k).modCast i.cast fun k => (k.relocate i res).endRecords).wallCast (k.relocate i res)

theorem moveCast_eq {d : Dev} {i : MoveItem} {res : Tbl Nat} {k : Cast} (hk : d.casts.find i.cast = some k) (z : Bool) :
    d.moveCast i z res = if z then carried d i res k else (carried d i res k).unfreeze i.cast := by
  simp only [Dev.moveCast, hk]
  rfl

theorem carried_find {d : Dev} {i : MoveItem} {res : Tbl Nat} {k : Cast} (hk : d.casts.find i.cast = some k) : ∃ k',
    (carried d i res k).casts.find i.cast = some k' ∧ k'.bx = i.bx ∧ k'.by_ = i.by_ ∧ k'.aff = (if i.aff = 0 then k.aff else i.aff) ∧
      k'.th.regs = k.th.regs ∧ k'.th.armst = k.th.armst ∧ k'.th.oobSeen = false := by
  have hheld : ((d.haltFlow i.cast).dropPortTlbs k).casts.find i.cast = _ :=
    find_modCast (d := { d with agenda := d.agenda.filter fun (e : Nat × Instr) => ownStep e.2 != some i.cast }) hk
  rw [← unwallCast_casts _ k] at hheld
  exact ⟨_, find_modCast hheld, rfl, rfl, rfl, rfl, rfl, rfl⟩

theorem moveCast_find {d : Dev} {i : MoveItem} {z : Bool} {res : Tbl Nat} {k : Cast} (hk : d.casts.find i.cast = some k) :
    ∃ k', (d.moveCast i z res).casts.find i.cast = some k' ∧ k'.bx = i.bx ∧ k'.by_ = i.by_ ∧ k'.aff = (if i.aff = 0 then k.aff else i.aff) ∧
      k'.th.regs = k.th.regs ∧ k'.th.armst = k.th.armst ∧ k'.th.oobSeen = false := by
  rw [moveCast_eq hk]
  cases z with
  | true => exact carried_find hk
  | false =>
    obtain ⟨k1, hk1, hbx, hby, haff, hregs, harm, hoob⟩ := carried_find (res := res) hk
    obtain ⟨k', hk', hbx', hby', haff', hregs', harm', hoob'⟩ := unfreeze_find hk1
    exact ⟨k', hk', hbx'.trans hbx, hby'.trans hby, haff'.trans haff, hregs'.trans hregs, harm'.trans harm, hoob'.trans hoob⟩

section
variable {i : MoveItem} {ix : Nat} {rest : List MoveItem} {z : Bool} {res : Tbl Nat} (hcur : s.dev.pl.cur = some (.moving r b i rest ix z res))
include hcur

theorem moveOn_carries (hready : s.dev.moveReady = true) : s.moveOn = State.runMoves r b rest (ix + 1) s.goMove := by
  simp only [State.moveOn, hcur, hready, if_true]

theorem moveOn_waits (hwait : s.dev.moveReady = false) : s.moveOn = s := by
  simp only [State.moveOn, hcur, hwait, Bool.false_eq_true, if_false]

theorem exec_placerMove_moving : exec .placerMove s = .next s.moveOn := by
  show execPlacerMove s = _
  delta execPlacerMove Dev.isMoving
  rw [hcur]
  rfl

theorem exec_placerCompact_moving : exec .placerCompact s = .next s.moveOn := by
  show execPlacerCompact s = _
  delta execPlacerCompact Dev.isMoving
  rw [hcur]
  rfl

theorem goMove_eq : s.goMove = movedTo i z res (onPlacer (fun p => { p with cur := none }) s) := by
  simp only [State.goMove, hcur]
  rfl

theorem moveReady_eq {k : Cast} (hk : s.dev.casts.find i.cast = some k) : s.dev.moveReady = s.dev.accessesDone i.cast k := by
  simp only [Dev.moveReady, hcur, hk, Option.map_some, Option.getD_some]

end

theorem freezeMove_moving (i : MoveItem) (rest : List MoveItem) (ix : Nat) (k : Cast) (res : Tbl Nat) : ∃ z, s.freezeMove r b i rest ix k res =
    onPlacer (fun p => { p with cur := some (.moving r b i rest ix z res) }) (frozen i.cast (usageCounted i.cast (stagingCancelled i.cast s))) :=
  ⟨_, rfl⟩

/-! ### ROLL (R405 to R408) -/

section
variable (h : Asked s 4 r b u) {old : Cast} (hcast : u.dev.reqCast (tenantOf r b) b.cast false = .ok old)
include h hcast

theorem exec_placerRoll_frozen (hfrozen : old.frozen = true) : exec .placerRoll s = .next (answered r b 4 0 0 0 u) := by
  show execPlacerRoll s = _
  delta execPlacerRoll
  rw [onRequest_of_Asked h, State.roll, actsFor_eq, hcast]
  simp only [hfrozen, if_true]
  rfl

section
variable (hgoes : old.frozen = false) {img : List Byte} {d : Dev} {mould : Mould} (himg : Dev.readImage u.mem u.dev (tenantOf r b) b.addr = (.ok img, d))
  (hmould : d.checkImage img = .ok mould) (hten : d.badTenant (tenantOf r b) = none)
include hgoes himg hmould hten

theorem exec_placerRoll_shape (hshape : mould.wb ≠ old.wb ∨ mould.hb ≠ old.hb) :
    exec .placerRoll s = .next (answered r b 23 0 0 0 { u with dev := d }) := by
  show execPlacerRoll s = _
  delta execPlacerRoll
  simp only [onRequest_of_Asked h, State.roll, actsFor_eq, hcast, hgoes, himg, hmould, hten, hshape, Bool.false_eq_true, if_false, if_true]
  rfl

theorem exec_placerRoll_begins (hw : mould.wb = old.wb) (hh : mould.hb = old.hb) {k : Cast} {d' : Dev} {t : State}
    (hcheck : Dev.checkAt u.mem d mould (tenantOf r b) d.freeNumber old.bx old.by_ b.bind none none = (.ok k, d'))
    (hplace : State.placeOver { u with dev := d' } d.freeNumber b.cast { k with aff := if b.aff = 0 then old.aff else b.aff } r b = some t) :
    exec .placerRoll s = .next t := by
  show execPlacerRoll s = _
  delta execPlacerRoll
  simp only [onRequest_of_Asked h, State.roll, actsFor_eq, hcast, hgoes, himg, hmould, hten, hw, hh, hcheck, hplace, ne_eq,
    not_true_eq_false, or_self, Bool.false_eq_true, if_false]

end
end

theorem exec_rollFinish {c : Nat} {x : RollSt} {k : Cast} (hx : s.dev.pl.rolls.find c = some x) (hk : s.dev.casts.find c = some k) (hfilled : k.hb ≤ x.filled)
    (hemptied : k.emptied = true) : exec (.rollFinish c) s = .next (answered x.req x.blk 0 0 (BitVec.ofNat 64 x.num) x.num (threadBegins x.num
      (onCast x.num (fun k => { k with lease := none }) (onPlacer (fun p => { p with rolls := p.rolls.del c }) (s.endRemoval c false))))) := by
  have hcan : Dev.canFinish k x = true := by simp [Dev.canFinish, hfilled, hemptied]
  show execRollFinish c s = _
  simp only [execRollFinish, hx, hk, hcan, if_true]
  rfl

/-! ### SAVE (R409, R410) -/

section
variable (h : Asked s 5 r b u) {k : Cast} (hcast : u.dev.reqCast (tenantOf r b) b.cast false = .ok k)
include h hcast

theorem exec_placerSave_unaligned (haddr : b.addr.toNat % 4096 ≠ 0) : exec .placerSave s = .next (answered r b 1 0 0 0 u) := by
  show execPlacerSave s = _
  rw [execPlacerSave, cur_of_Asked h, onRequest_of_Asked h, actsFor_eq, hcast]
  simp only [if_pos haddr]
  rfl

section
variable (haddr : b.addr.toNat % 4096 = 0)
include haddr

theorem exec_placerSave_short (hlen : b.len.toNat < k.saveSize) :
    exec .placerSave s = .next (answered r b 24 0 (BitVec.ofNat 64 k.saveSize) 0 u) := by
  show execPlacerSave s = _
  rw [execPlacerSave, cur_of_Asked h, onRequest_of_Asked h, actsFor_eq, hcast]
  simp only [haddr, hlen, ne_eq, not_true_eq_false, if_false, if_true]
  rfl

/-- Whether a cast that is to be saved stood still before its freeze. -/
def stoodStill (u : State) (c : Nat) (k : Cast) : Bool := ((stagingCancelled c u).dev.freezeFor c k).1

theorem exec_placerSave_begins (hlen : k.saveSize ≤ b.len.toNat) (hruns : k.th.mode ≠ .halted) : exec .placerSave s = .next
    (onPlacer (fun p => { p with cur := some (.save r b b.cast (stoodStill u b.cast k)) }) (frozen b.cast (stagingCancelled b.cast u))) := by
  show execPlacerSave s = _
  rw [execPlacerSave, cur_of_Asked h, onRequest_of_Asked h, actsFor_eq, hcast]
  simp only [haddr, Nat.not_lt.2 hlen, hruns, ne_eq, not_true_eq_false, if_false]
  rfl

end
end

theorem stoodStill_of_frozen {c : Nat} {k : Cast} (hfrozen : k.frozen = true) (hyield : k.saving ≠ some .yield) : stoodStill u c k = true := by
  delta stoodStill
  delta Dev.freezeFor
  simp [hfrozen, hyield]

theorem stoodStill_of_running {c : Nat} {k : Cast} (hgoes : k.frozen = false)
    (hmode : ∀ k', (frozen c (stagingCancelled c u)).dev.casts.find c = some k' → k'.th.mode ≠ .stopped) : stoodStill u c k = false := by
  have hfreeze : (((stagingCancelled c u).dev.freeze c).casts.find c).map (fun k => k.th.mode == .stopped) ≠ some true := by
    intro hstopped
    obtain ⟨k', hk', hmode'⟩ := Option.map_eq_some_iff.1 hstopped
    exact hmode k' hk' (by simpa using hmode')
  delta stoodStill
  delta Dev.freezeFor
  simp only [hgoes, Bool.false_and, Bool.false_or]
  cases hmap : (((stagingCancelled c u).dev.freeze c).casts.find c).map (fun k => k.th.mode == .stopped) with
  | none => rfl
  | some z =>
    cases z with
    | false => rfl
    | true => exact absurd hmap hfreeze

theorem exec_placerSave_ends {c : Nat} {w : Bool} {k : Cast} {t : State} {x : SaveRec} (hcur : s.dev.pl.cur = some (.save r b c w))
    (hk : s.dev.casts.find c = some k) (hready : s.dev.saveReady c k = true) (himage : State.writeImage (onPlacer (fun p => { p with cur := none }) s)
      (tenantOf r b) c (if w then 2 else 1) placerVia b.addr = (t, some x, none)) : exec .placerSave s = .next
    (answered r b 0 0 (BitVec.ofNat 64 x.size) 0 (if b.remove then t.takeAway c else if w then t else thawed c t)) := by
  have himage' : State.writeImage { s with dev := s.dev.modPl fun p => { p with cur := none } } (r.actsFor b) c (saveKind w) placerVia b.addr =
    (t, some x, none) := himage
  show execPlacerSave s = _
  simp only [execPlacerSave, hcur, hk, hready, if_true, State.endSave, himage']
  rfl

/-! ### RESTORE (R411) -/

section
variable (h : Asked s 6 r b u)
include h

theorem exec_placerRestore : exec .placerRestore s = .next (u.restore r b) := by
  show execPlacerRestore s = _
  rw [execPlacerRestore, onRequest_of_Asked h]

theorem exec_placerRestore_noImage {e : Bad} {d : Dev} (himg : Dev.findImage u.mem u.dev (tenantOf r b) b.addr = (.error e, d)) :
    exec .placerRestore s = .next (answered r b e.1 e.2 0 0 { u with dev := d }) := by
  rw [exec_placerRestore h]
  simp only [State.restore, actsFor_eq, himg]
  rfl

section
variable {x : SaveRec} {d : Dev} (himg : Dev.findImage u.mem u.dev (tenantOf r b) b.addr = (.ok x, d))
include himg

theorem exec_placerRestore_placed (hplaced : d.casts.find x.no ≠ none) : exec .placerRestore s = .next (answered r b 4 0 0 0 { u with dev := d }) := by
  rw [exec_placerRestore h]
  simp only [State.restore, actsFor_eq, himg, Option.isSome_iff_ne_none.2 hplaced, if_true]
  rfl

/-- The mask of a restored cast. -/
def restoreAff (b : PlBlock) (saved : Cast) : Nat := if b.aff = 0 then saved.aff else b.aff

/-- A restored cast is back under its number. -/
def backAgain (x : SaveRec) (s : State) : State :=
  onPlacer (fun p => { p with reserved := p.reserved.filter fun n => n != x.no }) { s with dev := { s.dev with away := s.dev.away.del x.no } }

/-- It goes on, unless it is to stand, and its waits are registered again. -/
def restored (b : PlBlock) (x : SaveRec) (saved : Cast) (s : State) : State :=
  let live := if b.frozen then s else thawed x.no s
  { live with dev := live.dev.reregister x.no saved }

theorem exec_placerRestore_restored (hgone : d.casts.find x.no = none) {px py : Nat} {k : Cast} {d' : Dev} {chans : Tbl Chan} {t : State}
    (hpos : d.position (tenantOf r b) (restoreAff b (d.savedCast x)) none b (d.savedCast x).wb (d.savedCast x).hb = .ok (px, py))
    (hcheck : Dev.checkAt u.mem d (d.savedCast x).mould (tenantOf r b) x.no px py b.bind none (some (d.savedCast x).ports) = (.ok k, d'))
    (hchans : d'.rehome none (tenantOf r b) (dieOfBlock px py) (d.savedCast x).chans = .ok chans)
    (hplace : State.place { u with dev := d' } x.no ((d.savedCast x).replaced k chans (restoreAff b (d.savedCast x))) = some t) :
    exec .placerRestore s = .next (answered r b 0 0 (BitVec.ofNat 64 x.no) x.no (restored b x (d.savedCast x) (backAgain x t))) := by
  delta restoreAff at hpos hplace
  rw [exec_placerRestore h]
  simp only [State.restore, actsFor_eq, himg, hgone, Option.isSome_none, hpos, hcheck, hchans, hplace, Bool.false_eq_true, if_false]
  delta restored
  cases b.frozen <;> simp only [Bool.false_eq_true, if_false, if_true] <;> rfl

end
end

theorem findImage_unread {m : Memory} {d d' : Dev} {tenant : Nat} {addr va : Word} {f : XFault}
    (h : Dev.readRun m d placerVia tenant addr 64 = (.error (va, f), d')) : Dev.findImage m d tenant addr = (.error (25, va), d') := by
  simp only [Dev.findImage, h]

/-! ### REMOVE (R412) -/

section
variable (h : Asked s 7 r b u) (haway : u.dev.away.find b.cast = none)
include h haway

theorem exec_placerRemove_noCast {e : Bad} (hcast : u.dev.reqCast (tenantOf r b) b.cast true = .error e) :
    exec .placerRemove s = .next (answered r b e.1 e.2 0 0 u) := by
  show execPlacerRemove s = _
  simp only [execPlacerRemove, cur_of_Asked h, onRequest_of_Asked h, actsFor_eq, haway, hcast]
  rfl

theorem exec_placerRemove_begins {k : Cast} (hcast : u.dev.reqCast (tenantOf r b) b.cast true = .ok k) (hroll : u.dev.pl.rolls.find b.cast = none) :
    exec .placerRemove s = .next (State.beginRemoval (onPlacer (fun p => { p with cur := some (.remove r b b.cast) }) u) b.cast) := by
  have hroll' : ((u.dev.modPl fun p => { p with cur := some (.remove r b b.cast) }).pl.rolls.find b.cast).isSome = false := by
    rw [Option.isSome_eq_false_iff, Option.isNone_iff_eq_none]
    exact hroll
  show execPlacerRemove s = _
  simp only [execPlacerRemove, cur_of_Asked h, onRequest_of_Asked h, actsFor_eq, haway, hcast, hroll', Bool.false_eq_true, if_false]
  rfl

end

section
variable {c : Nat} (hcur : s.dev.pl.cur = some (.remove r b c))
include hcur

theorem exec_placerRemove_gone (hgone : s.dev.casts.find c = none) :
    exec .placerRemove s = .next (answered r b 0 0 0 0 (onPlacer (fun p => { p with cur := none }) s)) := by
  show execPlacerRemove s = _
  delta execPlacerRemove Dev.removed
  simp only [hcur, hgone, Option.isNone_none, if_true]
  rfl

theorem exec_placerRemove_waits {k : Cast} (hk : s.dev.casts.find c = some k) : exec .placerRemove s = .next s := by
  show execPlacerRemove s = _
  delta execPlacerRemove Dev.removed
  simp only [hcur, hk, Option.isNone_some, Bool.false_eq_true, if_false]

end

theorem exec_haltRemoval {c : Nat} {k : Cast} (hk : s.dev.casts.find c = some k) (hcan : s.dev.canRetire c k = true) :
    exec (.haltRemoval c) s = .next (s.beginRemoval c) := by
  show execHaltRemoval c s = _
  simp only [execHaltRemoval, hk, hcan, if_true]

/-! ### The completion of a request (R78, R387) -/

theorem unapplied_of_empty {d : Dev} (h : ∀ e ∈ d.replicas, e.2 = []) (n : Nat) : d.unapplied n = false := by
  rw [unapplied_eq_false]
  intro e he x hx
  rw [h e he] at hx
  cases hx

section
variable (hsrc : r.src = .firmware ∨ ∃ c, r.src = .thread c) (hcnt : b.cnt = 0) {status : Nat} {detail result : Word} {cast : Nat}
include hsrc

theorem plPut_block (off : Nat) (bs : List Byte) : s.plPut r off bs = blockWritten r off bs s := by
  rcases hsrc with hsrc | ⟨c, hsrc⟩ <;> simp only [State.plPut, hsrc] <;> rfl

theorem plNote_plain (d : Dev) : d.plNote r status cast = d := by
  rcases hsrc with hsrc | ⟨c, hsrc⟩ <;> simp only [Dev.plNote, hsrc]

/-- The request's DETAIL and RESULT are written. -/
def resultWritten (r : PlReq) (detail result : Word) (s : State) : State :=
  blockWritten r 72 (leBytes 8 result.toNat) (blockWritten r 64 (leBytes 8 detail.toNat) s)

theorem answered_eq : answered r b status detail result cast s =
    (resultWritten r detail result s).plStatus { req := r, cnt := b.cnt, status := status, cast := cast, seen := (resultWritten r detail result s).dev.replNo } := by
  simp only [answered, State.plDone, plPut_block hsrc]
  rfl

include hcnt in
theorem answered_ends (hempty : ∀ e ∈ (resultWritten r detail result s).dev.replicas, e.2 = [])
    (hempty' : ∀ e ∈ (blockWritten r 4 (leBytes 4 status) (resultWritten r detail result s)).dev.replicas, e.2 = []) :
    answered r b status detail result cast s = blockWritten r 4 (leBytes 4 status) (resultWritten r detail result s) := by
  rw [answered_eq hsrc]
  simp only [State.plStatus, unapplied_of_empty hempty, plPut_block hsrc, State.plEnd, unapplied_of_empty hempty', State.plCount, hcnt,
    plNote_plain hsrc, Bool.false_eq_true, if_false, if_true]

theorem answered_held (hpend : ∃ e ∈ (resultWritten r detail result s).dev.replicas, ∃ x ∈ e.2, x.1 < (resultWritten r detail result s).dev.replNo) :
    answered r b status detail result cast s = onPlacer (fun p => { p with fin := p.fin ++
      [{ req := r, cnt := b.cnt, status := status, cast := cast, seen := (resultWritten r detail result s).dev.replNo }] })
        (resultWritten r detail result s) := by
  rw [answered_eq hsrc]
  simp only [State.plStatus, unapplied_eq_true.2 hpend, if_true]
  rfl

end

end

end Sys2Proof.Laws

namespace Sys2Proof.Proofs

open Sys2Proof.Machine Sys2Proof.Claims Sys2Proof.Laws

/-- Settles O49: each operation of the placer is what its request does once it is taken (`onRequest_of_Asked`); a cast carried is `moveCast_find`, a
request completed `answered_ends` and `answered_held`. -/
theorem placerSteps : Obligations.PlacerSteps := by
  intro s u r b
  refine ⟨fun h => ⟨exec_placerGrant_granted h, exec_placerGrant_taken h, exec_placerGrant_bad h⟩,
    fun h => ⟨exec_placerRevoke_none h, fun p => exec_placerRevoke_inUse h, fun p => exec_placerRevoke_revoked h⟩, fun h => ⟨fun e d => exec_placerLoad_unread h, ?_⟩,
    ?_, ?_, fun h => ⟨exec_placerCompact_bad h, fun bs d is hpos hmax => exec_placerCompact_moves h hpos hmax⟩, fun h k => exec_placerRoll_frozen h, ?_, ?_,
    fun c w k t x => exec_placerSave_ends, ?_, ?_, fun c hcur => ⟨exec_placerRemove_gone hcur, fun k => exec_placerRemove_waits hcur⟩,
    fun h k hcast => ⟨exec_placerResume_bad h hcast, exec_placerResume_resumes h hcast⟩, ?_, fun i rest ix k k' => ⟨rfl, runMoves_uncut⟩, freezeMove_moving, ?_, ?_,
    fun c k => exec_haltRemoval, ?_⟩
  · intro img d mould himg hmould hten
    exact ⟨fun e => exec_placerLoad_noPlace h himg hmould hten, fun x y k d' t => exec_placerLoad_placed h himg hmould hten⟩
  · intro op step hmem h e hcast hop
    simp only [List.mem_cons, Prod.mk.injEq, List.not_mem_nil, or_false] at hmem
    rcases hmem with ⟨rfl, rfl⟩ | ⟨rfl, rfl⟩ | ⟨rfl, rfl⟩ | ⟨rfl, rfl⟩
    · exact absurd rfl hop
    · exact exec_placerRoll_noCast hcast h
    · exact exec_placerSave_noCast hcast h
    · exact exec_placerResume_noCast hcast h
  · rintro h k k' i hcast rfl hcheck
    refine ⟨fun _ => exec_placerMove h, fun hcut => ?_⟩
    rw [exec_placerMove h]
    exact congrArg _ (runMoves_cut (i := moveOf b) hcast hcheck hcut)
  · intro h old img d mould k d' t hcast hgoes himg hmould hten
    exact ⟨exec_placerRoll_shape h hcast hgoes himg hmould hten, fun hw hh => exec_placerRoll_begins h hcast hgoes himg hmould hten hw hh⟩
  · intro h k hcast size
    refine ⟨exec_placerSave_unaligned h hcast, exec_placerSave_short h hcast, fun haddr hlen hruns => ?_⟩
    exact ⟨_, exec_placerSave_begins h hcast haddr hlen hruns, stoodStill_of_frozen, stoodStill_of_running⟩
  · refine fun h => ⟨fun e d => exec_placerRestore_noImage h, fun va f d => findImage_unread, fun x d => exec_placerRestore_placed h, ?_⟩
    rintro x d saved aff px py k d' chans t himg hgone rfl rfl hpos hcheck hchans hplace
    exact exec_placerRestore_restored h himg hgone hpos hcheck hchans hplace
  · exact fun h haway => ⟨fun e => exec_placerRemove_noCast h haway, fun k => exec_placerRemove_begins h haway⟩
  · intro i deadline rest ix res hcur v
    exact ⟨fun hready k res' => exec_moveCutEmpty_carries hcur hready, fun hready e => exec_moveCutEmpty_abandons hcur hready, exec_cuttimeout_early hcur,
      exec_cuttimeout_move hcur, exec_cuttimeout_compact hcur⟩
  · intro i rest ix z res hcur
    refine ⟨moveOn_carries hcur, moveOn_waits hcur, exec_placerMove_moving hcur, exec_placerCompact_moving hcur, goMove_eq hcur, fun k hk => ?_⟩
    rw [goMove_eq hcur]
    exact ⟨moveReady_eq hcur hk, moveCast_find (d := (onPlacer (fun p => { p with cur := none }) s).dev) hk⟩
  · exact fun c x k hx hk => ⟨rowFill_eq s c x k hx hk, exec_rollFinish hx hk⟩
  · exact fun hsrc hcnt status detail result cast => ⟨answered_ends hsrc hcnt, answered_held hsrc⟩

end Sys2Proof.Proofs
